-- ==== Sys2Proof/Word.lean ====
section
/-! DEFINITION. The words of the machine: bytes, 32-bit registers, 64-bit values, and the
sparse tables that hold everything addressed by a number. -/

namespace Sys2Proof

/-- One byte. -/
abbrev Byte := BitVec 8
/-- One 32-bit control-space word (R585). -/
abbrev Word := BitVec 32
/-- A byte string, lowest offset first. -/
abbrev Bytes := List Byte
/-- A sparse table: keys strictly rising (Laws/KMap.lean proves every operation keeps that). -/
abbrev KMap (α : Type) := List (Nat × α)

/-- Largest value of a 64-bit counter (R13). -/
def allOnes64 : Nat := 2 ^ 64 - 1

end Sys2Proof
end

