-- ==== Sys2Proof/Types.lean ====
section
/-! DEFINITION. The data that commands carry: fabric messages, flit headers, Rinlidal records,
the masters of control space, and the physical outcomes that a command reports. -/

namespace Sys2Proof

/-- A master of control space (R588): codes 0-7 management cores, 8 owner session, 9 the
partition agent of `part`, 10 SMBus, 11 JTAG debug. -/
structure Master where
  code : Nat
  part : Nat := 0
  deriving DecidableEq, Repr, Inhabited

/-- A Gyori request (R277); the opcode is the row's own. -/
structure Req where
  opc : Nat := 0
  tc : Nat := 0
  re : Bool := false
  tag : Nat := 0
  src : Nat := 0
  handle : Nat := 0
  addr : Nat := 0
  epoch : Nat := 0
  attr : Nat := 0
  opnd : Nat := 0
  rsv : Nat := 0
  payload : Bytes := []
  deriving DecidableEq, Repr, Inhabited

/-- A Gyori response (R278). -/
structure Rsp where
  status : Nat := 0
  replay : Bool := false
  tgt : Bool := false
  tag : Nat := 0
  dst : Nat := 0
  src : Nat := 0
  info : Nat := 0
  data : Bytes := []
  deriving DecidableEq, Repr, Inhabited

/-- A snoop response (R282, R403). -/
structure SnpRsp where
  data : Bool := false
  kept : Bool := false
  tag : Nat := 0
  dst : Nat := 0
  src : Nat := 0
  line : Bytes := []
  deriving DecidableEq, Repr, Inhabited

/-- The flit header fields every flit carries (R319). -/
structure FlitHdr where
  cvc : Nat := 0
  nak : Bool := false
  seq : Nat := 0
  ack : Nat := 0
  ccum : Nat := 0
  deriving DecidableEq, Repr, Inhabited

/-- The body of a CTRL flit (R322). -/
structure CtrlBody where
  lanes : Nat := 0
  width : Nat := 0
  enc : Bool := false
  reqId : Nat := 0
  rank : Nat := 0
  initCred : List Nat := [0, 0, 0, 0]
  replayFlits : Nat := 0
  deriving DecidableEq, Repr, Inhabited

/-- A protected Rinlidal record (R516): session, SEQ and the protected body. -/
structure Record where
  session : Nat := 0
  seq : Nat := 0
  body : Bytes := []
  deriving DecidableEq, Repr, Inhabited

/-- An Ethernet peer address: IP version flag, address, UDP port. -/
structure NetAddr where
  v6 : Bool := false
  ip : Nat := 0
  port : Nat := 0
  deriving DecidableEq, Repr, Inhabited

/-- What a JTAG instruction asks for (R440). -/
inductive JtagOp where
  | idcode
  | bypass
  | extest
  | debugRead (addr : Nat)
  | debugWrite (addr : Nat) (value : Word)
  deriving DecidableEq, Repr, Inhabited

/-- Which BRINGUP job ends, with its physical outcome (R502). -/
inductive BringupWork where
  /-- Links that stay DOWN, as (die, link) pairs numbered as SWC_ numbers them. -/
  | d2d (down : List (Nat × Nat))
  /-- DRAM stacks that trained, and the interface-clock period in ps. -/
  | dram (trained : List Nat) (tickPs : Nat)
  /-- Flash stacks that trained. -/
  | flash (trained : List Nat)
  /-- Cores that failed the boot self-test. -/
  | cores (failed : List Nat)
  /-- Fabric lanes that failed calibration, as lane group * 4 + lane. -/
  | lanes (failed : List Nat)
  /-- The 200,000-tick bound of Ethernet training passed. -/
  | ethernet
  /-- Serial written, quote tree ready, bundles re-accepted. -/
  | security
  deriving DecidableEq, Repr, Inhabited

/-- The monitors' readings at a charge (R111): tile step rate in M steps/s, junction in
degrees C, lowest core-rail voltage in mV. -/
structure Monitors where
  rate : Nat := 0
  tj : Nat := 0
  droop : Nat := 0
  deriving DecidableEq, Repr, Inhabited

/-- One group of a dot product as the MAC array sees it (R50-R53): streamed and stationary
element codes along the reduction index, and the two E8M0 scales if the operands are scaled. -/
structure DotGroup where
  a : List Nat := []
  b : List Nat := []
  sa : Option Nat := none
  sb : Option Nat := none
  deriving DecidableEq, Repr, Inhabited

/-- Where a load of stationary operands, or of their scales, takes its bytes (R608). -/
inductive StatSrc where
  /-- Core-store bytes from an offset. -/
  | store (off : Nat)
  /-- A scalar register. -/
  | scalar (reg : Nat)
  deriving DecidableEq, Repr, Inhabited

/-- What a kernel's code asks its core to do next. The code's encoding is not of the spec (R61); what
each of these does is. Accumulators are numbered row * 16 + column, core-store offsets count from
slot 0, output positions from the first byte of the run's output. -/
inductive CoreOp where
  /-- The scalar engine leaves a value in a register. -/
  | setReg (reg : Nat) (value : BitVec 64)
  /-- A scalar read of 8 core-store bytes into a register. -/
  | loadReg (reg off : Nat)
  /-- The scalar engine writes core-store bytes. -/
  | write (off : Nat) (bytes : Bytes)
  /-- A remote read of `len` bytes from a global address, under a region handle, into the core store (R35);
  `epoch` counts for another module's region only. -/
  | remote (addr handle epoch len dst : Nat)
  /-- Loads `len` bytes of stationary elements or scales into the stationary-operand registers. -/
  | loadStat (dst len : Nat) (src : StatSrc)
  | clearAcc
  /-- The next group of the reduction in column `col` of the accumulators, of row group `rg` of the tile in
  `slot`, whose row groups have `per` panels, against at most `len` stationary elements from element `stat` on,
  whose scale stands at register byte `sc`. -/
  | mac (slot rg per len col stat sc : Nat)
  /-- The ring slot's tile has been used (R99). -/
  | consume (slot : Nat)
  /-- `len` core-store bytes from `off` are output bytes from position `pos`. -/
  | outBytes (pos off len : Nat)
  /-- `n` accumulators from `first` are output from position `pos`: combined at the leaf's node of rank
  `rank`, or, with rank 0, converted by the leaf itself and placed at core-store offset `off`. -/
  | outAcc (pos first n rank off : Nat)
  /-- A block of at most 32 accumulators is converted to MX elements of format `fmt` at `pos` and their
  scale at `scalePos` (R59). -/
  | outMx (pos scalePos first n fmt : Nat)
  /-- The leaf writes no more output below position `n`. -/
  | sync (n : Nat)
  | done
  deriving DecidableEq, Repr, Inhabited

/-- What the next action of a kernel's code may depend on (R60, R61): the image, the descriptor, the
shape of the bowl, the leaf's logical index, the scalar engine's place and registers, the OVF flag. -/
structure KernelView where
  image : Bytes := []
  desc : List Word := []
  shape : List Nat := []
  leaf : Nat := 0
  pc : Nat := 0
  regs : List (BitVec 64) := []
  ovf : Bool := false
  deriving DecidableEq, Repr, Inhabited

/-- A silent disturbance: the next word that a core sends, as a leaf (rank 0) or as the combining core of
a node, has the bits of `mask` flipped. Sampled recomputation is there to find it. -/
structure SilentErr where
  core : Nat := 0
  rank : Nat := 0
  mask : Word := 0
  deriving DecidableEq, Repr, Inhabited

/-- The next flash read of a bundle's chunk meets an error: one that the controller corrects, or one that it
cannot (R214). -/
structure FlashErr where
  bundle : Nat := 0
  chunk : Nat := 0
  corrected : Bool := false
  deriving DecidableEq, Repr, Inhabited

/-- One rail's PMBus poll (R574): whether it answered, and what it read. -/
structure RailPoll where
  answered : Bool := true
  vout : Nat := 0
  iout : Nat := 0
  pout : Nat := 0
  statusFault : Bool := false
  deriving DecidableEq, Repr, Inhabited

/-- A disturbance of one stored copy of a TRI field (R595): copy 0, 1 or 2 of the register at
`addr` has the bits of `mask` flipped. -/
structure Upset where
  addr : Nat
  copy : Nat
  mask : Word
  deriving DecidableEq, Repr, Inhabited

/-- A control-space register-write entry (R494). -/
structure RegEntry where
  addr : Nat := 0
  phase : Nat := 0
  value : Word := 0
  mask : Word := 0
  deriving DecidableEq, Repr, Inhabited

end Sys2Proof
end

