-- ==== Sys2Proof/Syntax.lean ====
section
/-! DEFINITION. The commands the block takes, one constructor per row of spec/opcode_table.json,
in the table's order, each with the row's operands. -/

namespace Sys2Proof

/-- A command from outside (or a physical event) that the device takes as one step. -/
inductive Instr where
  /-- R567: POWER_OK_RISE. -/
  | powerOkRise
  /-- R567: RESET_HOLD_END. -/
  | resetHoldEnd
  /-- R569: POWER_OK_FALL. -/
  | powerOkFall
  /-- R500: RESET_N_FALL. -/
  | resetNFall
  /-- R500: RESET_N_RISE. -/
  | resetNRise
  /-- R594: SMBUS_RESET_REQUEST. -/
  | smbusResetRequest (cmd dat : Nat)
  /-- R594: SMBUS_BLOCK_READ. -/
  | smbusBlockRead (addr : Nat)
  /-- R440: JTAG_INSTRUCTION. -/
  | jtagInstruction (op : JtagOp)
  /-- R501: ROMBOOT_SELF_CHECK_DONE. -/
  | rombootSelfCheckDone (mcA mcB : Bool)
  /-- R489: SFDP_READ_DONE. -/
  | sfdpReadDone (valid : Bool) (mode density : Nat)
  /-- R501: IMAGE_LOAD_DONE. -/
  | imageLoadDone (image : Bytes)
  /-- R497: VERIFY_DONE. -/
  | verifyDone (puf0 puf1 puf2 : Bytes)
  /-- R568: CORE_RAIL_CHECK. -/
  | coreRailCheck (vout : List Nat)
  /-- R502: BRINGUP_WORK_DONE. -/
  | bringupWorkDone (work : BringupWork)
  /-- R502: ETH_LINK_UP. -/
  | ethLinkUp
  /-- R529: HEARTBEAT_SEND. -/
  | heartbeatSend
  /-- R529: MC_FAILOVER. -/
  | mcFailover
  /-- R529: HEARTBEAT_LOST. -/
  | heartbeatLost
  /-- R552: STEWARD_PULSE. -/
  | stewardPulse (mc : Bool)
  /-- R552: STEWARD_COMPLEX_LOST. -/
  | stewardComplexLost (mc : Bool)
  /-- R553: STEWARD_DRAIN_END. -/
  | stewardDrainEnd
  /-- R551: RECOVERY_DRAIN_END. -/
  | recoveryDrainEnd
  /-- R537: DUMP_DONE. -/
  | dumpDone (trace : Bytes)
  /-- R514: PAUSE_FRAME. -/
  | pauseFrame
  /-- R515: ARP_REQUEST. -/
  | arpRequest (tagged : Option Nat) (targetIp senderMac senderIp : Nat)
  /-- R515: NEIGHBOR_SOLICITATION. -/
  | neighborSolicitation (tagged : Option Nat) (targetIp senderMac senderIp : Nat)
  /-- R515: ICMP_ECHO. -/
  | icmpEcho (tagged : Option Nat) (v6 : Bool) (dstIp srcIp : Nat) (echo : Bytes)
  /-- R515: ETH_FRAME_DISCARD. -/
  | ethFrameDiscard
  /-- R519: HELLO. -/
  | hello (src : NetAddr) (kind : Nat) (pub nonce : Bytes)
  /-- R519: HELLO_REPLY. -/
  | helloReply (src : NetAddr) (session : Nat) (pub nonce : Bytes) (serial : Nat) (devSigned devSig sig : Bytes)
  /-- R520: AUTH. -/
  | auth (rec : Record)
  /-- R518: DATA. -/
  | data (rec : Record)
  /-- R521: CLOSE. -/
  | close (rec : Record)
  /-- R519: HANDSHAKE_TIMEOUT. -/
  | handshakeTimeout (hs : Nat)
  /-- R521: SESSION_IDLE_TIMEOUT. -/
  | sessionIdleTimeout (sess : Nat)
  /-- R523: REASSEMBLY_TIMEOUT. -/
  | reassemblyTimeout (sess reqId : Nat)
  /-- R525: NOP. -/
  | nop (sess reqId : Nat)
  /-- R525: DEV_INFO. -/
  | devInfo (sess reqId : Nat)
  /-- R505: DEV_START. -/
  | devStart (sess reqId : Nat)
  /-- R505: DEV_TEST. -/
  | devTest (sess reqId : Nat)
  /-- R525: DEV_RESET. -/
  | devReset (sess reqId : Nat)
  /-- R525: DEV_RESET_DELAY_EXPIRY. -/
  | devResetDelayExpiry
  /-- R430: QUOTE. -/
  | quote (sess reqId : Nat) (nonce : Bytes)
  /-- R430: TREE_NEW. -/
  | treeNew (sess reqId : Nat)
  /-- R430: QUOTE_TREE_READY. -/
  | quoteTreeReady
  /-- R526: BUNDLE_OPEN. -/
  | bundleOpen (sess reqId bundle stageObj : Nat)
  /-- R526: BUNDLE_META. -/
  | bundleMeta (sess reqId bundle offset : Nat) (bytes : Bytes)
  /-- R447: BUNDLE_CHECK. -/
  | bundleCheck (sess reqId bundle : Nat)
  /-- R526: BUNDLE_DATA. -/
  | bundleData (sess reqId bundle chunk off16 len16 : Nat) (bytes : Bytes)
  /-- R526: BUNDLE_CLOSE. -/
  | bundleClose (sess reqId bundle : Nat)
  /-- R526: BUNDLE_DELETE. -/
  | bundleDelete (sess reqId bundle : Nat)
  /-- R448: KEY_RELEASE. -/
  | keyRelease (sess reqId : Nat) (body : Bytes)
  /-- R449: BUNDLE_KEY_DROP. -/
  | bundleKeyDrop (sess reqId bundle : Nat)
  /-- R205: OBJ_REGISTER. -/
  | objRegister (sess reqId obj bundle entry part demand : Nat)
  /-- R205: OBJ_CREATE. -/
  | objCreate (sess reqId obj part kind size : Nat)
  /-- R205: OBJ_LOAD. -/
  | objLoad (sess reqId obj : Nat)
  /-- R609: LOAD_DONE. -/
  | loadDone (obj : Nat) (unreadable : List Nat)
  /-- R205: OBJ_EVICT. -/
  | objEvict (sess reqId obj : Nat)
  /-- R205: OBJ_FILL. -/
  | objFill (sess reqId obj : Nat) (bowls : List (Nat × Nat))
  /-- R205: OBJ_DROP. -/
  | objDrop (sess reqId obj bowl : Nat)
  /-- R205: OBJ_DELETE. -/
  | objDelete (sess reqId obj : Nat)
  /-- R525: OBJ_DEMAND. -/
  | objDemand (sess reqId obj demand : Nat)
  /-- R525: OBJ_QUERY. -/
  | objQuery (sess reqId obj : Nat)
  /-- R610: REGION_CREATE. -/
  | regionCreate (sess reqId part obj base len objOff : Nat)
  /-- R436: REGION_REVOKE. -/
  | regionRevoke (sess reqId handle : Nat)
  /-- R433: REGION_DELETE. -/
  | regionDelete (sess reqId handle : Nat)
  /-- R434: GRANT_ADD. -/
  | grantAdd (sess reqId handle node rights : Nat)
  /-- R436: GRANT_REMOVE. -/
  | grantRemove (sess reqId handle node : Nat)
  /-- R441: LINK_EXCHANGE. -/
  | linkExchange (sess reqId node kind : Nat) (pub nonce sig cert : Bytes)
  /-- R455: LINK_MODE. -/
  | linkMode (sess reqId node mode : Nat)
  /-- R459: PART_CREATE. -/
  | partCreate (sess reqId part node : Nat)
  /-- R460: PART_ACTIVATE. -/
  | partActivate (sess reqId part : Nat)
  /-- R462: PART_RESET. -/
  | partReset (sess reqId part : Nat)
  /-- R466: PART_DELETE. -/
  | partDelete (sess reqId part : Nat)
  /-- R175: CMP_JOB. -/
  | cmpJob (sess reqId die : Nat) (words : List Word)
  /-- R177: JOB_END. -/
  | jobEnd (die : Nat)
  /-- R531: REG_READ. -/
  | regRead (sess reqId : Nat) (addrs : List Nat)
  /-- R525: REG_WRITE. -/
  | regWrite (sess reqId : Nat) (entries : List RegEntry)
  /-- R532: CNT_READ. -/
  | cntRead (sess reqId : Nat) (addrs : List Nat)
  /-- R532: CNT_CLEAR. -/
  | cntClear (sess reqId : Nat) (addrs : List Nat)
  /-- R540: DUMP_INFO. -/
  | dumpInfo (sess reqId : Nat)
  /-- R540: DUMP_READ. -/
  | dumpRead (sess reqId offset len : Nat)
  /-- R540: DUMP_RELEASE. -/
  | dumpRelease (sess reqId : Nat)
  /-- R525: PEER_SET. -/
  | peerSet (sess reqId index flags udpPort serial address : Nat)
  /-- R534: PEER_OPEN. -/
  | peerOpen (sess reqId index : Nat)
  /-- R525: PEER_CLOSE. -/
  | peerClose (sess reqId index : Nat)
  /-- R557: HANDOFF_OFFER. -/
  | handoffOffer (sess reqId obj peer dstPart dstObj : Nat)
  /-- R557: HANDOFF_EXPECT. -/
  | handoffExpect (sess reqId dstObj peer : Nat)
  /-- R557: HANDOFF_QUERY. -/
  | handoffQuery (sess reqId obj peer epoch : Nat)
  /-- R560: HANDOFF_RECLAIM. -/
  | handoffReclaim (sess reqId obj : Nat)
  /-- R536: PEER_MSG. -/
  | peerMsg (sess msgId : Nat) (msg : Bytes)
  /-- R535: MSG_ACK. -/
  | msgAck (sess msgId result : Nat)
  /-- R535: MSG_RESEND_TIMEOUT. -/
  | msgResendTimeout (peer msgId : Nat)
  /-- R559: HO_OFFER. -/
  | hoOffer (sess epoch dstObj size offset dstPart : Nat) (last : Bool) (crc : Nat) (bytes : Bytes)
  /-- R559: HO_ACCEPT. -/
  | hoAccept (sess epoch dstObj : Nat)
  /-- R560: HO_COMMIT. -/
  | hoCommit (sess epoch dstObj : Nat)
  /-- R558: HO_ACK. -/
  | hoAck (sess epoch dstObj acked result : Nat)
  /-- R559: HANDOFF_RESEND_TIMEOUT. -/
  | handoffResendTimeout (epoch : Nat)
  /-- R558: OFFERED_TIMEOUT. -/
  | offeredTimeout (epoch : Nat)
  /-- R558: TENTATIVE_TIMEOUT. -/
  | tentativeTimeout (epoch : Nat)
  /-- R280: RD_NC. -/
  | rdNc (port vc : Nat) (req : Req)
  /-- R401: RD_S. -/
  | rdS (port vc : Nat) (req : Req)
  /-- R401: RD_X. -/
  | rdX (port vc : Nat) (req : Req)
  /-- R280: WR. -/
  | wr (port vc : Nat) (req : Req)
  /-- R404: WB. -/
  | wb (port vc : Nat) (req : Req)
  /-- R401: EVICT. -/
  | evict (port vc : Nat) (req : Req)
  /-- R281: ATOMIC. -/
  | atomic (port vc : Nat) (req : Req)
  /-- R283: BSTORE. -/
  | bstore (port vc : Nat) (req : Req)
  /-- R283: TSTORE. -/
  | tstore (port vc : Nat) (req : Req)
  /-- R285: MSTORE. -/
  | mstore (port vc : Nat) (req : Req)
  /-- R286: REDUCE. -/
  | reduce (port vc : Nat) (req : Req)
  /-- R287: MSG. -/
  | msg (port vc : Nat) (req : Req)
  /-- R302: RSP. -/
  | rsp (port : Nat) (rsp : Rsp)
  /-- R302: RSP_TIMEOUT. -/
  | rspTimeout (req : Nat)
  /-- R403: SNP_RSP. -/
  | snpRsp (port : Nat) (rsp : SnpRsp)
  /-- R407: LINE_TRANSACTION_END. -/
  | lineTransactionEnd (line : Nat)
  /-- R407: RESERVATION_EXPIRY. -/
  | reservationExpiry (line : Nat)
  /-- R410: SNOOP_RESEND. -/
  | snoopResend (tag : Nat)
  /-- R411: SNOOP_TIMEOUT. -/
  | snoopTimeout (tag : Nat)
  /-- R411: SNOOP_FILTER_SWEEP_DONE. -/
  | snoopFilterSweepDone (node : Nat)
  /-- R350: SHARE_WAIT_RESUME. -/
  | shareWaitResume (part die : Nat)
  /-- R84: HELD_STORE_RELEASE. -/
  | heldStoreRelease (die : Nat)
  /-- R326: DATA_FLIT. -/
  | dataFlit (port : Nat) (flit : Bytes)
  /-- R324: IDLE_FLIT. -/
  | idleFlit (port : Nat) (hdr : FlitHdr)
  /-- R318: TRAIN_REC. -/
  | trainRec (port : Nat) (hdr : FlitHdr) (body : CtrlBody)
  /-- R318: TRAIN_ACK. -/
  | trainAck (port : Nat) (hdr : FlitHdr) (body : CtrlBody)
  /-- R329: RETRAIN_REQ. -/
  | retrainReq (port : Nat) (hdr : FlitHdr) (body : CtrlBody)
  /-- R329: WIDTH_REQ. -/
  | widthReq (port : Nat) (hdr : FlitHdr) (body : CtrlBody)
  /-- R329: ACCEPT. -/
  | accept (port : Nat) (hdr : FlitHdr) (body : CtrlBody)
  /-- R335: GOING_DOWN. -/
  | goingDown (port : Nat) (hdr : FlitHdr) (body : CtrlBody)
  /-- R322: CTRL_RESEND. -/
  | ctrlResend (port : Nat)
  /-- R326: ACK_TIMEOUT. -/
  | ackTimeout (port : Nat)
  /-- R328: FRAMING_LOCK_LOSS. -/
  | framingLockLoss (port lanes : Nat)
  /-- R328: FEC_UNCORRECTABLE. -/
  | fecUncorrectable (port : Nat) (symbols : List Nat)
  /-- R328: ERROR_WINDOW_END. -/
  | errorWindowEnd (port : Nat)
  /-- R318: LANE_LOCK. -/
  | laneLock (port lane : Nat)
  /-- R325: CREDIT_TIMEOUT. -/
  | creditTimeout (port vc : Nat)
  /-- R316: TRAIN_TIMEOUT. -/
  | trainTimeout (port : Nat)
  /-- R316: RETRAIN_TIMEOUT. -/
  | retrainTimeout (port : Nat)
  /-- R316: AUTO_RESTART. -/
  | autoRestart (port : Nat)
  /-- R316: RESTART. -/
  | restart (port : Nat)
  /-- R329: RETRAIN. -/
  | retrain (port : Nat)
  /-- R313: NARROW. -/
  | narrow (port lanes : Nat)
  /-- R316: DOWN. -/
  | down (port : Nat)
  /-- R334: TEST_ENTER. -/
  | testEnter (port : Nat)
  /-- R316: TEST_EXIT. -/
  | testExit (port : Nat)
  /-- R337: LNK_PORT_CFG_WRITE. -/
  | lnkPortCfgWrite (m : Master) (port : Nat) (value : Word)
  /-- R316: LNK_CTRL_WRITE. -/
  | lnkCtrlWrite (m : Master) (die : Nat) (value : Word)
  /-- R364: D2D_TRANSFER_ERROR. -/
  | d2dTransferError (die link : Nat)
  /-- R364: D2D_FAULT. -/
  | d2dFault (die link : Nat)
  /-- R359: AUDIT_START. -/
  | auditStart (die : Nat)
  /-- R359: MARK_PHASE_END. -/
  | markPhaseEnd (die : Nat)
  /-- R359: AUDIT_SWEEP_END. -/
  | auditSweepEnd (die : Nat)
  /-- R380: GATE_ENTRY_END. -/
  | gateEntryEnd (port : Nat)
  /-- R383: BANK_SWITCH_REQUEST. -/
  | bankSwitchRequest (m : Master) (port : Nat) (value : Word)
  /-- R389: QUEUE_SAMPLE. -/
  | queueSample (port : Nat)
  /-- R85: SET_TIMEOUT. -/
  | setTimeout (die window slot : Nat)
  /-- R95: KERNEL_LAUNCH. -/
  | kernelLaunch (die : Nat) (silent : List SilentErr)
  /-- R33: TILE_FILL_DONE. -/
  | tileFillDone (fill core : Nat)
  /-- R183: REFETCH_DONE. -/
  | refetchDone (fill core : Nat)
  /-- R96: KERNEL_RUN_END. -/
  | kernelRunEnd (launch : Nat)
  /-- R97: WATCHDOG. -/
  | watchdog (launch : Nat)
  /-- R63: RESIDUE_ERROR. -/
  | residueError (core ctx slot row col : Nat) (a b product : Nat) (mon : Monitors)
  /-- R64: CORE_STORE_ECC_ERROR. -/
  | coreStoreEccError (core ctx slot word : Nat) (correctable : Bool) (mon : Monitors)
  /-- R42: AUTO_SUBSTITUTION. -/
  | autoSubstitution (core : Nat)
  /-- R40: SCRUB_DONE. -/
  | scrubDone (core : Nat)
  /-- R114: BOWL_TIMEOUT. -/
  | bowlTimeout (launch : Nat)
  /-- R108: CHECK_RUN_END. -/
  | checkRunEnd (launch : Nat) (mon : List (Nat × Monitors))
  /-- R107: CHECK_TIMEOUT. -/
  | checkTimeout (launch : Nat)
  /-- R102: SERVICE_REPORT. -/
  | serviceReport (part : Nat)
  /-- R71: COR_CORE_STATE_WRITE. -/
  | corCoreStateWrite (m : Master) (core : Nat) (value : Word)
  /-- R78: COR_BOWL_DESC_WRITE. -/
  | corBowlDescWrite (m : Master) (bowl : Nat) (value : Word)
  /-- R80: WINDOW_ENTRY_WRITE. -/
  | windowEntryWrite (m : Master) (query : Bool) (window : Nat) (value : Word)
  /-- R244: INDEX_TABLE_WRITE. -/
  | indexTableWrite (m : Master) (index : Nat) (value : Word)
  /-- R135: OUTPUT_SEGMENT. -/
  | outputSegment (launch : Nat)
  /-- R135: STAGING_GRANTED. -/
  | stagingGranted (kind engine : Nat)
  /-- R137: OP_TIMEOUT. -/
  | opTimeout (op : Nat)
  /-- R160: ENG_CFG_WRITE. -/
  | engCfgWrite (m : Master) (kind engine : Nat) (value : Word)
  /-- R215: STACK_FAILED. -/
  | stackFailed (stack cause : Nat)
  /-- R213: DRAM_READ_ERROR. -/
  | dramReadError (pool : Nat) (corrected ricer otherBad : Bool) (flash : List FlashErr)
  /-- R227: MEM_FAIL_CMD. -/
  | memFailCmd (m : Master) (value : Word)
  /-- R217: MEM_CTRL_WRITE. -/
  | memCtrlWrite (m : Master) (value : Word)
  /-- R217: SPARE_INDUCTION. -/
  | spareInduction
  /-- R217: PASS1_END. -/
  | pass1End
  /-- R217: REBUILD_DONE. -/
  | rebuildDone
  /-- R214: FLASH_FAILED. -/
  | flashFailed (stack : Nat)
  /-- R238: SIFTER_OP_START. -/
  | sifterOpStart (bowl : Nat)
  /-- R247: SEARCH. -/
  | search (op : Nat)
  /-- R256: INSERT. -/
  | insert (op : Nat)
  /-- R256: DELETE. -/
  | delete (op : Nat)
  /-- R257: COMPACT. -/
  | compact (op : Nat)
  /-- R255: QUERY_TIMEOUT. -/
  | queryTimeout (op : Nat)
  /-- R436: REVOKE_RETIRE_DONE. -/
  | revokeRetireDone (slot : Nat)
  /-- R436: REVOKE_SLOW. -/
  | revokeSlow (slot : Nat)
  /-- R464: DRAIN_END. -/
  | drainEnd (part : Nat)
  /-- R464: DRAIN_TIMEOUT. -/
  | drainTimeout (part : Nat)
  /-- R415: PARTITION_SWEEP_DONE. -/
  | partitionSweepDone (part : Nat)
  /-- R471: IRQ_ACK. -/
  | irqAck (m : Master) (core : Nat)
  /-- R472: IRQ_EOI. -/
  | irqEoi (m : Master) (core : Nat) (value : Word)
  /-- R473: MOD_INT_EXPIRY. -/
  | modIntExpiry (core : Nat)
  /-- R484: IRQ_SW_SET. -/
  | irqSwSet (m : Master) (value : Word)
  /-- R470: IRQ_CORE_CFG_WRITE. -/
  | irqCoreCfgWrite (m : Master) (core : Nat) (value : Word)
  /-- R487: IRQ_VEC_CFG_WRITE. -/
  | irqVecCfgWrite (m : Master) (part vec : Nat) (value : Word)
  /-- R577: PMBUS_POLL. -/
  | pmbusPoll (rails : List RailPoll)
  /-- R574: CAP_LOOP_EVALUATION. -/
  | capLoopEvaluation
  /-- R578: THERM_WARN. -/
  | thermWarn (temps : List Nat)
  /-- R578: THERM_TRIP. -/
  | thermTrip (die temp : Nat)
  /-- R591: REGISTER_WRITE. -/
  | registerWrite (m : Master) (addr : Nat) (value : Word)
  /-- R599: COUNTER_LO_READ. -/
  | counterLoRead (m : Master) (addr : Nat)
  /-- R589: CONTROL_ACCESS_TIMEOUT. -/
  | controlAccessTimeout (m : Master) (addr : Nat) (write : Bool)
  /-- R603: DEV_SHD_HOLD_WRITE. -/
  | devShdHoldWrite (m : Master) (value : Word)
  /-- R603: SHD_HOLD_EXPIRY. -/
  | shdHoldExpiry
  /-- R595: TRI_PERIODIC_VOTE. -/
  | triPeriodicVote (upsets : List Upset)
  /-- R421: COH_PROBE. -/
  | cohProbe (m : Master) (die : Nat) (value : Word)
  /-- R419: COH_SHARER_WRITE. -/
  | cohSharerWrite (m : Master) (slot : Nat) (value : Word)
  /-- R308: GTX_STREAM_WRITE. -/
  | gtxStreamWrite (m : Master) (stream : Nat) (value : Word)
  /-- R307: GTX_NODE_WRITE. -/
  | gtxNodeWrite (m : Master) (node : Nat) (value : Word)
  /-- R349: SWC_PART_SHARE_WRITE. -/
  | swcPartShareWrite (m : Master) (die part : Nat) (value : Word)
  /-- R544: MGT_RX_CFG_WRITE. -/
  | mgtRxCfgWrite (m : Master) (part : Nat) (value : Word)
  /-- R321: FLIT_SEND. -/
  | flitSend (port : Nat)
  /-- R596: SHADOW_REFRESH. -/
  | shadowRefresh
  /-- R567: POWER_APPLIED. -/
  | powerApplied
  /-- R569: POWER_REMOVED. -/
  | powerRemoved
  /-- R572: CRYSTAL_STOPPED. -/
  | crystalStopped
  /-- R333: PATTERN_CHECKER_LOCK. -/
  | patternCheckerLock (die lane : Nat)
  /-- R215: CHANNEL_RETRAINING_ATTEMPT. -/
  | channelRetrainingAttempt (stack channel : Nat) (ok : Bool)
  /-- R543: ETH_LINK_DOWN. -/
  | ethLinkDown
  deriving DecidableEq, Repr

end Sys2Proof
end

