-- ==== Sys2Proof/Decode.lean ====
section
/-! DEFINITION. The command a table word spells. The opcode table of this block gives no row any
bits: commands come from outside as messages, register accesses and events. -/

namespace Sys2Proof

/-- No word spells a command (spec/opcode_table.json states no bits for any row). -/
def decodeTableWord (_nbits _w : Nat) : Option Instr := none

end Sys2Proof
end

