-- ==== Sys2Proof/Config.lean ====
section
/-! DEFINITION. What the spec leaves to cryptography, to the silicon or to chance: functions and
constants without a body. Nothing in Lean can evaluate one, so every claim holds for all of them. -/

namespace Sys2Proof.Config

/-- SHA-384 of a byte string: 48 bytes (R426). -/
opaque sha384 : Bytes → Bytes
/-- ECDSA P-384 verification: public key, digest, signature (R426). -/
opaque ecdsaVerify : Bytes → Bytes → Bytes → Bool
/-- LMS verification: public key, digest, signature (R426). -/
opaque lmsVerify : Bytes → Bytes → Bytes → Bool
/-- ECDSA P-384 signature with the identity key over a digest, with the nonce of a TRNG draw. -/
opaque ecdsaSign : Bytes → Bytes → Nat → Bytes
/-- LMS signature: tree seed, leaf, digest (R430). -/
opaque lmsSign : Bytes → Nat → Bytes → Bytes
/-- LMS public key of a tree seed. -/
opaque lmsPub : Bytes → Bytes
/-- AES-256-GCM seal: key, nonce, additional data, plaintext; ciphertext then tag. -/
opaque gcmSeal : Bytes → Bytes → Bytes → Bytes → Bytes
/-- AES-256-GCM open: key, nonce, additional data, ciphertext then tag; none when the tag fails. -/
opaque gcmOpen : Bytes → Bytes → Bytes → Bytes → Option Bytes
/-- HKDF-SHA-384: secret, salt, info; 32 bytes. -/
opaque hkdf : Bytes → Bytes → Bytes → Bytes
/-- HMAC-SHA-384: key, message (R434). -/
opaque hmac : Bytes → Bytes → Bytes
/-- ECDH P-384: private scalar, peer public key. -/
opaque ecdh : Bytes → Bytes → Bytes
/-- Public key of a P-384 private scalar, uncompressed SEC1. -/
opaque ecPub : Bytes → Bytes
/-- PUF correction (R498): majority response, helper data; the identity private scalar. -/
opaque pufKey : Bytes → Bytes → Bytes
/-- PUF enrolment (R499): fresh helper data of a majority read. -/
opaque pufHelper : Bytes → Bytes
/-- The n-th draw of the true random number generator, as a number. -/
opaque trng : Nat → Nat
/-- The n-th value that the spec leaves open where no other rule gives one. -/
opaque freeValue : Nat → Nat
/-- Transfer credits that a sending side holds on a die-to-die link (R372), which no rule gives: by
the link's key and the number of open values used so far. -/
opaque d2dCredits : Nat → Nat → Nat
/-- PAM4 symbol `n` of a test pattern of R333, which IEEE 802.3 defines: 0 PRBS13Q, 1 PRBS31Q, 2 SSPRQ. -/
opaque patternSymbol : Nat → Nat → Nat
/-- The two vendor root entries of the ROM: ECDSA and LMS public keys (R427). -/
opaque vendorEc : Nat → Bytes
opaque vendorLms : Nat → Bytes
/-- SHA-384 of the ROM (M_ROM, R431). -/
opaque romDigest : Bytes

/-- A kernel's code (R61 gives no instruction set): the next action of a leaf and where the code goes on.
It depends on nothing that R60 and R61 keep from a kernel. -/
opaque kernelStep : KernelView → CoreOp × Nat
/-- The 16 bytes that the array reads for a row of a panel that a tile does not hold, and the scale of a
row in a tile without scales: by the tile's header and 16 * panel + row. -/
opaque badPanel : Bytes → Nat → Nat
/-- What a kernel's code reads at a core-store offset outside the slots that its descriptor names. -/
opaque strayByte : Nat → Byte
opaque badScale : Bytes → Nat → Nat
/-- Number of the event that the saturation of the counter at an address raises (R13), which R479 does
not list. -/
opaque satEvent : Nat → Nat

end Sys2Proof.Config
end

