-- ==== Sys2Proof/Machine/RegTable.lean ====
section
/-! DEFINITION. The map of control space: every register with its block, dies, offset, strides,
fields and access codes, and every 64-bit counter, as the register tables of the chapters give
them (R585-R606 and the tables each constructor's comment names). -/

namespace Sys2Proof.Machine

/-- Access codes of R10. -/
inductive Acc where
  | rw | ro | w1c | rwd | mw | rc
  deriving DecidableEq, Repr

/-- One field: bits [hi:lo], access code, PRV, TRI, SHD, reset value. -/
structure FieldDef where
  hi : Nat
  lo : Nat
  acc : Acc
  prv : Bool
  tri : Bool
  shd : Bool
  rst : Nat
  deriving DecidableEq, Repr

/-- One register or register array: block, dies, offset, (stride, count) of each dimension. -/
structure RegDef where
  block : Nat
  dies : List Nat
  base : Nat
  dims : List (Nat × Nat)
  fields : List FieldDef
  deriving DecidableEq, Repr

/-- Every register of the device. -/
inductive Reg where
  /-- R600 (DEV_ID) -/
  | devId
  /-- R600 (DEV_ROM) -/
  | devRom
  /-- R600 (DEV_CAP0) -/
  | devCap0
  /-- R600 (DEV_CAP1) -/
  | devCap1
  /-- R601 (DEV_ERR_SUM) -/
  | devErrSum
  /-- R601 (DEV_SAT_SUM) -/
  | devSatSum
  /-- R601 (DEV_CAP_SUM) -/
  | devCapSum
  /-- R601 (DEV_DIE_SUM) -/
  | devDieSum
  /-- R602 (DEV_ACC_CAP) -/
  | devAccCap
  /-- R602 (DEV_ACC_ADDR_LO) -/
  | devAccAddrLo
  /-- R602 (DEV_ACC_ADDR_HI) -/
  | devAccAddrHi
  /-- R603 (DEV_SHD_HOLD) -/
  | devShdHold
  /-- R603 (DEV_SCRATCH) -/
  | devScratch
  /-- R509 (BOOT_CTRL) -/
  | bootCtrl
  /-- R509 (BOOT_CFG_IGN_ADDR) -/
  | bootCfgIgnAddr
  /-- R510 (BOOT_STAT) -/
  | bootStat
  /-- R511 (BOOT_IMG_FAIL) -/
  | bootImgFail
  /-- R511 (BOOT_SPI) -/
  | bootSpi
  /-- R511 (BOOT_LIST) -/
  | bootList
  /-- R512 (BOOT_TIME) -/
  | bootTime
  /-- R513 (BOOT_ENROL) -/
  | bootEnrol
  /-- R336 (LNK_CTRL) -/
  | lnkCtrl
  /-- R336 (LNK_CFG_IGN_ADDR) -/
  | lnkCfgIgnAddr
  /-- R336 (LNK_GLB) -/
  | lnkGlb
  /-- R336 (LNK_SERIAL_LO) -/
  | lnkSerialLo
  /-- R336 (LNK_SERIAL_HI) -/
  | lnkSerialHi
  /-- R337 (LNK_PORT_CFG) -/
  | lnkPortCfg
  /-- R338 (LNK_PORT_TMO) -/
  | lnkPortTmo
  /-- R338 (LNK_PORT_ERR_THR) -/
  | lnkPortErrThr
  /-- R338 (LNK_PORT_CMD) -/
  | lnkPortCmd
  /-- R339 (LNK_PORT_STAT) -/
  | lnkPortStat
  /-- R339 (LNK_PORT_WIN) -/
  | lnkPortWin
  /-- R339 (LNK_PEER_RANK_LO) -/
  | lnkPeerRankLo
  /-- R339 (LNK_PEER_RANK_HI) -/
  | lnkPeerRankHi
  /-- R340 (LNK_VC_CRED) -/
  | lnkVcCred
  /-- R342 (TST_CTRL) -/
  | tstCtrl
  /-- R342 (TST_CFG_IGN_ADDR) -/
  | tstCfgIgnAddr
  /-- R343 (TST_LANE_CFG) -/
  | tstLaneCfg
  /-- R344 (TST_FLIT_CFG) -/
  | tstFlitCfg
  /-- R305 (GTX_CTRL) -/
  | gtxCtrl
  /-- R306 (GTX_CFG_IGN_ADDR) -/
  | gtxCfgIgnAddr
  /-- R306 (GTX_GLB) -/
  | gtxGlb
  /-- R306 (GTX_CAPTURE) -/
  | gtxCapture
  /-- R306 (GTX_CAPTURE_ADDR_LO) -/
  | gtxCaptureAddrLo
  /-- R306 (GTX_CAPTURE_ADDR_HI) -/
  | gtxCaptureAddrHi
  /-- R307 (GTX_NODE) -/
  | gtxNode
  /-- R308 (GTX_STREAM) -/
  | gtxStream
  /-- R369 (SWC_CTRL) -/
  | swcCtrl
  /-- R369 (SWC_CFG_IGN_ADDR) -/
  | swcCfgIgnAddr
  /-- R369 (SWC_GLB) -/
  | swcGlb
  /-- R369 (SWC_BUF_STAT) -/
  | swcBufStat
  /-- R370 (SWC_PORT_CFG) -/
  | swcPortCfg
  /-- R370 (SWC_PORT_HELD) -/
  | swcPortHeld
  /-- R371 (SWC_PART_SHARE) -/
  | swcPartShare
  /-- R371 (SWC_PART_HELD) -/
  | swcPartHeld
  /-- R372 (SWC_D2D_STAT) -/
  | swcD2dStat
  /-- R391 (TSH_CTRL) -/
  | tshCtrl
  /-- R391 (TSH_CFG_IGN_ADDR) -/
  | tshCfgIgnAddr
  /-- R392 (TSH_PORT_CFG) -/
  | tshPortCfg
  /-- R392 (TSH_GATE_LEN) -/
  | tshGateLen
  /-- R392 (TSH_SAMPLE_CFG) -/
  | tshSampleCfg
  /-- R392 (TSH_CLASS_CFG) -/
  | tshClassCfg
  /-- R392 (TSH_POL_CFG) -/
  | tshPolCfg
  /-- R392 (TSH_POL_RATE) -/
  | tshPolRate
  /-- R392 (TSH_SAMP) -/
  | tshSamp
  /-- R392 (TSH_SAMPD) -/
  | tshSampd
  /-- R393 (TSH_GATE) -/
  | tshGate
  /-- R394 (TSH_PART_CFG) -/
  | tshPartCfg
  /-- R418 (COH_CTRL) -/
  | cohCtrl
  /-- R418 (COH_CFG_IGN_ADDR) -/
  | cohCfgIgnAddr
  /-- R418 (COH_GLB) -/
  | cohGlb
  /-- R418 (COH_GLB2) -/
  | cohGlb2
  /-- R419 (COH_SHARER) -/
  | cohSharer
  /-- R420 (COH_LOST_HEAD) -/
  | cohLostHead
  /-- R420 (COH_LOST_LOG) -/
  | cohLostLog
  /-- R421 (COH_SLICE_STAT) -/
  | cohSliceStat
  /-- R421 (COH_PROBE_ADDR_LO) -/
  | cohProbeAddrLo
  /-- R421 (COH_PROBE_ADDR_HI) -/
  | cohProbeAddrHi
  /-- R421 (COH_PROBE_RES) -/
  | cohProbeRes
  /-- R421 (COH_PROBE_SH_LO) -/
  | cohProbeShLo
  /-- R421 (COH_PROBE_SH_HI) -/
  | cohProbeShHi
  /-- R224 (MEM_CTRL) -/
  | memCtrl
  /-- R225 (MEM_CFG_IGN_ADDR) -/
  | memCfgIgnAddr
  /-- R226 (MEM_STAT) -/
  | memStat
  /-- R227 (MEM_UE_CFG) -/
  | memUeCfg
  /-- R227 (MEM_RATES) -/
  | memRates
  /-- R227 (MEM_REBUILD) -/
  | memRebuild
  /-- R227 (MEM_FAIL_CMD) -/
  | memFailCmd
  /-- R228 (MEM_STACK_MAP) -/
  | memStackMap
  /-- R229 (MEM_PART_CFG) -/
  | memPartCfg
  /-- R231 (MEM_OBJ) -/
  | memObj
  /-- R232 (MEM_STK_STAT) -/
  | memStkStat
  /-- R234 (FLS_CTRL) -/
  | flsCtrl
  /-- R234 (FLS_CFG_IGN_ADDR) -/
  | flsCfgIgnAddr
  /-- R234 (FLS_STAT) -/
  | flsStat
  /-- R67 (COR_CTRL) -/
  | corCtrl
  /-- R68 (COR_CFG_IGN_ADDR) -/
  | corCfgIgnAddr
  /-- R69 (COR_DIE_CNT) -/
  | corDieCnt
  /-- R70 (COR_TILE_CFG) -/
  | corTileCfg
  /-- R71 (COR_CORE_STATE) -/
  | corCoreState
  /-- R72 (COR_CORE_POS) -/
  | corCorePos
  /-- R73 (COR_RES_CAPTURE) -/
  | corResCapture
  /-- R76 (COR_BOWL_DESC) -/
  | corBowlDesc
  /-- R77 (COR_BOWL_CHILD) -/
  | corBowlChild
  /-- R116 (DSP_CTRL) -/
  | dspCtrl
  /-- R117 (DSP_CFG_IGN_ADDR) -/
  | dspCfgIgnAddr
  /-- R118 (DSP_GLB_TMO) -/
  | dspGlbTmo
  /-- R119 (DSP_GLB_LIMITS) -/
  | dspGlbLimits
  /-- R120 (DSP_TIME_UNIT) -/
  | dspTimeUnit
  /-- R121 (DSP_DIE_STAT) -/
  | dspDieStat
  /-- R122 (DSP_PART_CFG) -/
  | dspPartCfg
  /-- R123 (DSP_PART_RPT_HANDLE) -/
  | dspPartRptHandle
  /-- R123 (DSP_PART_RPT_OFF) -/
  | dspPartRptOff
  /-- R123 (DSP_PART_RPT_FIRST) -/
  | dspPartRptFirst
  /-- R123 (DSP_PART_RPT_COUNT) -/
  | dspPartRptCount
  /-- R125 (DSP_BOWL_SUSP) -/
  | dspBowlSusp
  /-- R126 (DSP_SUSP_HEAD). R126 gives the log's access and none of the register's own: that it is read-only, to
  privileged masters, is the model's choice (notes/assumptions/139.md). -/
  | dspSuspHead
  /-- R126 (DSP_SUSP_LOG) -/
  | dspSuspLog
  /-- R79 (DSP_WINDOW_W0) -/
  | dspWindowW0
  /-- R79 (DSP_WINDOW_W1) -/
  | dspWindowW1
  /-- R79 (DSP_WINDOW_W2) -/
  | dspWindowW2
  /-- R79 (DSP_WINDOW_W3) -/
  | dspWindowW3
  /-- R79 (DSP_WINDOW_W4) -/
  | dspWindowW4
  /-- R79 (DSP_WINDOW_W5) -/
  | dspWindowW5
  /-- R79 (DSP_WINDOW_W6) -/
  | dspWindowW6
  /-- R79 (DSP_WINDOW_W7) -/
  | dspWindowW7
  /-- R90 (DSP_DESC_W0) -/
  | dspDescW0
  /-- R90 (DSP_DESC_W1) -/
  | dspDescW1
  /-- R90 (DSP_DESC_W2) -/
  | dspDescW2
  /-- R90 (DSP_DESC_W3) -/
  | dspDescW3
  /-- R90 (DSP_DESC_W4) -/
  | dspDescW4
  /-- R90 (DSP_DESC_W5) -/
  | dspDescW5
  /-- R90 (DSP_DESC_W6) -/
  | dspDescW6
  /-- R90 (DSP_DESC_W7) -/
  | dspDescW7
  /-- R90 (DSP_DESC_W8) -/
  | dspDescW8
  /-- R90 (DSP_DESC_W9) -/
  | dspDescW9
  /-- R90 (DSP_DESC_W10) -/
  | dspDescW10
  /-- R90 (DSP_DESC_W11) -/
  | dspDescW11
  /-- R90 (DSP_DESC_W12) -/
  | dspDescW12
  /-- R90 (DSP_DESC_W13) -/
  | dspDescW13
  /-- R90 (DSP_DESC_W14) -/
  | dspDescW14
  /-- R90 (DSP_DESC_W15) -/
  | dspDescW15
  /-- R93 (DSP_BIND) -/
  | dspBind
  /-- R156 (WSK_CTRL) -/
  | wskCtrl
  /-- R157 (WSK_CFG_IGN_ADDR) -/
  | wskCfgIgnAddr
  /-- R158 (WSK_GLB) -/
  | wskGlb
  /-- R159 (WSK_FAIL_CAPTURE) -/
  | wskFailCapture
  /-- R160 (WSK_ENG_CFG) -/
  | wskEngCfg
  /-- R161 (WSK_ENG_STAT) -/
  | wskEngStat
  /-- R156 (TNG_CTRL) -/
  | tngCtrl
  /-- R157 (TNG_CFG_IGN_ADDR) -/
  | tngCfgIgnAddr
  /-- R158 (TNG_GLB) -/
  | tngGlb
  /-- R159 (TNG_FAIL_CAPTURE) -/
  | tngFailCapture
  /-- R160 (TNG_ENG_CFG) -/
  | tngEngCfg
  /-- R161 (TNG_ENG_STAT) -/
  | tngEngStat
  /-- R156 (CLD_CTRL) -/
  | cldCtrl
  /-- R157 (CLD_CFG_IGN_ADDR) -/
  | cldCfgIgnAddr
  /-- R158 (CLD_GLB) -/
  | cldGlb
  /-- R159 (CLD_FAIL_CAPTURE) -/
  | cldFailCapture
  /-- R160 (CLD_ENG_CFG) -/
  | cldEngCfg
  /-- R161 (CLD_ENG_STAT) -/
  | cldEngStat
  /-- R185 (CMP_CTRL) -/
  | cmpCtrl
  /-- R186 (CMP_CFG_IGN_ADDR) -/
  | cmpCfgIgnAddr
  /-- R187 (CMP_JOB_CFG) -/
  | cmpJobCfg
  /-- R189 (CMP_JOB_STAT) -/
  | cmpJobStat
  /-- R190 (CMP_CAPTURE) -/
  | cmpCapture
  /-- R188 (CMP_JOB_IN_HANDLE) -/
  | cmpJobInHandle
  /-- R188 (CMP_JOB_IN_OFF) -/
  | cmpJobInOff
  /-- R188 (CMP_JOB_IN_LEN) -/
  | cmpJobInLen
  /-- R188 (CMP_JOB_OUT_HANDLE) -/
  | cmpJobOutHandle
  /-- R188 (CMP_JOB_OUT_OFF) -/
  | cmpJobOutOff
  /-- R188 (CMP_JOB_OUT_LEN) -/
  | cmpJobOutLen
  /-- R190 (CMP_CAPTURE_OBJ) -/
  | cmpCaptureObj
  /-- R190 (CMP_CAPTURE_BLK) -/
  | cmpCaptureBlk
  /-- R263 (SFT_CTRL) -/
  | sftCtrl
  /-- R264 (SFT_CFG_IGN_ADDR) -/
  | sftCfgIgnAddr
  /-- R265 (SFT_GLB) -/
  | sftGlb
  /-- R266 (SFT_STAT) -/
  | sftStat
  /-- R267 (SFT_INDEX_W0) -/
  | sftIndexW0
  /-- R267 (SFT_INDEX_W1) -/
  | sftIndexW1
  /-- R267 (SFT_INDEX_W2) -/
  | sftIndexW2
  /-- R267 (SFT_INDEX_W3) -/
  | sftIndexW3
  /-- R267 (SFT_INDEX_W4) -/
  | sftIndexW4
  /-- R267 (SFT_INDEX_W5) -/
  | sftIndexW5
  /-- R267 (SFT_INDEX_W6) -/
  | sftIndexW6
  /-- R267 (SFT_INDEX_W7) -/
  | sftIndexW7
  /-- R267 (SFT_INDEX_W8) -/
  | sftIndexW8
  /-- R267 (SFT_INDEX_W9) -/
  | sftIndexW9
  /-- R267 (SFT_INDEX_W10) -/
  | sftIndexW10
  /-- R267 (SFT_INDEX_W11) -/
  | sftIndexW11
  /-- R267 (SFT_INDEX_W12) -/
  | sftIndexW12
  /-- R267 (SFT_INDEX_W13) -/
  | sftIndexW13
  /-- R267 (SFT_INDEX_W14) -/
  | sftIndexW14
  /-- R267 (SFT_INDEX_W15) -/
  | sftIndexW15
  /-- R250 (SFT_QWIN_W0) -/
  | sftQwinW0
  /-- R250 (SFT_QWIN_W1) -/
  | sftQwinW1
  /-- R250 (SFT_QWIN_W2) -/
  | sftQwinW2
  /-- R250 (SFT_QWIN_W3) -/
  | sftQwinW3
  /-- R250 (SFT_QWIN_W4) -/
  | sftQwinW4
  /-- R250 (SFT_QWIN_W5) -/
  | sftQwinW5
  /-- R250 (SFT_QWIN_W6) -/
  | sftQwinW6
  /-- R250 (SFT_QWIN_W7) -/
  | sftQwinW7
  /-- R284 (GTX_GROUP_W0) -/
  | gtxGroupW0
  /-- R284 (GTX_GROUP_RSV) -/
  | gtxGroupRsv
  /-- R284 (GTX_GROUP_BASE_LO) -/
  | gtxGroupBaseLo
  /-- R284 (GTX_GROUP_BASE_HI) -/
  | gtxGroupBaseHi
  /-- R284 (GTX_GROUP_HEK) -/
  | gtxGroupHek
  /-- R284 (GTX_GROUP_TRSV) -/
  | gtxGroupTrsv
  /-- R454 (SEC_CTRL) -/
  | secCtrl
  /-- R454 (SEC_CFG_IGN_ADDR) -/
  | secCfgIgnAddr
  /-- R454 (SEC_STAT) -/
  | secStat
  /-- R454 (SEC_GLB) -/
  | secGlb
  /-- R454 (SEC_TEST_NODE) -/
  | secTestNode
  /-- R455 (SEC_NODE_SESS) -/
  | secNodeSess
  /-- R456 (SEC_REGION) -/
  | secRegion
  /-- R456 (SEC_GRANT) -/
  | secGrant
  /-- R456 (SEC_BKEY) -/
  | secBkey
  /-- R481 (PRT_CTRL) -/
  | prtCtrl
  /-- R481 (PRT_CFG_IGN_ADDR) -/
  | prtCfgIgnAddr
  /-- R481 (PRT_GLB) -/
  | prtGlb
  /-- R482 (PRT_STATE) -/
  | prtState
  /-- R482 (PRT_CMD) -/
  | prtCmd
  /-- R482 (PRT_DRAIN) -/
  | prtDrain
  /-- R484 (IRQ_CTRL) -/
  | irqCtrl
  /-- R484 (IRQ_CFG_IGN_ADDR) -/
  | irqCfgIgnAddr
  /-- R484 (IRQ_SW_SET) -/
  | irqSwSet
  /-- R485 (IRQ_SRC_CFG) -/
  | irqSrcCfg
  /-- R485 (IRQ_SRC_PEND) -/
  | irqSrcPend
  /-- R486 (IRQ_CORE_CFG) -/
  | irqCoreCfg
  /-- R486 (IRQ_ACK) -/
  | irqAck
  /-- R486 (IRQ_EOI) -/
  | irqEoi
  /-- R486 (IRQ_RUN) -/
  | irqRun
  /-- R486 (IRQ_INFO) -/
  | irqInfo
  /-- R487 (IRQ_VEC_CFG) -/
  | irqVecCfg
  /-- R487 (IRQ_VEC_MASK) -/
  | irqVecMask
  /-- R487 (IRQ_VEC_SEQ) -/
  | irqVecSeq
  /-- R487 (IRQ_VEC_BASE) -/
  | irqVecBase
  /-- R543 (MGT_CTRL) -/
  | mgtCtrl
  /-- R543 (MGT_CFG_IGN_ADDR) -/
  | mgtCfgIgnAddr
  /-- R543 (MGT_GLB) -/
  | mgtGlb
  /-- R543 (MGT_GLB2) -/
  | mgtGlb2
  /-- R543 (MGT_MSG_CFG) -/
  | mgtMsgCfg
  /-- R543 (MGT_STAT) -/
  | mgtStat
  /-- R543 (MGT_DUMP_STAT) -/
  | mgtDumpStat
  /-- R544 (MGT_RX_CFG) -/
  | mgtRxCfg
  /-- R544 (MGT_RX_OFF) -/
  | mgtRxOff
  /-- R544 (MGT_MSGQ) -/
  | mgtMsgq
  /-- R545 (MGT_PEER) -/
  | mgtPeer
  /-- R545 (MGT_DUMP_WIN) -/
  | mgtDumpWin
  /-- R581 (PWR_CTRL) -/
  | pwrCtrl
  /-- R581 (PWR_CFG_IGN_ADDR) -/
  | pwrCfgIgnAddr
  /-- R581 (PWR_GLB) -/
  | pwrGlb
  /-- R581 (PWR_GLB2) -/
  | pwrGlb2
  /-- R581 (PWR_STAT) -/
  | pwrStat
  /-- R582 (PWR_RAIL_CFG) -/
  | pwrRailCfg
  /-- R582 (PWR_RAIL_STAT) -/
  | pwrRailStat
  /-- R583 (PWR_DIE_TEMP) -/
  | pwrDieTemp
  deriving DecidableEq, Repr

def dCore : List Nat := [0, 1, 2, 3, 4, 5, 6, 7]
def dPort : List Nat := [8, 9, 10, 11]
def dPkg : List Nat := [12]
def dCorePkg : List Nat := [0, 1, 2, 3, 4, 5, 6, 7, 12]
def dPortPkg : List Nat := [8, 9, 10, 11, 12]
def dAll : List Nat := [0, 1, 2, 3, 4, 5, 6, 7, 8, 9, 10, 11]

/-- A field without PRV, TRI or SHD. -/
def fPlain (hi lo : Nat) (a : Acc) (rst : Nat) : FieldDef := ⟨hi, lo, a, false, false, false, rst⟩
/-- A PRV field. -/
def fPrv (hi lo : Nat) (a : Acc) (rst : Nat) : FieldDef := ⟨hi, lo, a, true, false, false, rst⟩
/-- An SHD field (always RO, R596). -/
def fShd (hi lo rst : Nat) : FieldDef := ⟨hi, lo, .ro, false, false, true, rst⟩

/-- What the chapters' tables say of each register. -/
def Reg.info : Reg → RegDef
  | .devId => ⟨0, dPkg, 0x0, [],
      [fPlain 31 16 .ro 30501, fPlain 15 8 .ro 176]⟩
  | .devRom => ⟨0, dPkg, 0x4, [],
      [fPlain 15 0 .ro 770]⟩
  | .devCap0 => ⟨0, dPkg, 0x8, [],
      [fPlain 31 24 .ro 255, fPlain 23 16 .ro 64, fPlain 15 8 .ro 64, fPlain 7 4 .ro 4, fPlain 3 0 .ro 8]⟩
  | .devCap1 => ⟨0, dPkg, 0xc, [],
      [fPlain 31 16 .ro 3136, fPlain 15 8 .ro 16, fPlain 7 0 .ro 8]⟩
  | .devErrSum => ⟨0, dPkg, 0x10, [],
      [fShd 21 0 0]⟩
  | .devSatSum => ⟨0, dPkg, 0x14, [],
      [fShd 21 0 0]⟩
  | .devCapSum => ⟨0, dPkg, 0x18, [],
      [fShd 21 0 0]⟩
  | .devDieSum => ⟨0, dPkg, 0x1c, [],
      [fShd 12 0 0]⟩
  | .devAccCap => ⟨0, dPkg, 0x20, [],
      [fPrv 31 31 .w1c 0, fPlain 30 28 .ro 0, fPlain 27 24 .ro 0, fPlain 23 23 .ro 0]⟩
  | .devAccAddrLo => ⟨0, dPkg, 0x24, [],
      [fPlain 31 0 .ro 0]⟩
  | .devAccAddrHi => ⟨0, dPkg, 0x28, [],
      [fPlain 15 0 .ro 0]⟩
  | .devShdHold => ⟨0, dPkg, 0x40, [],
      [fPrv 31 31 .rw 0, fPrv 12 0 .rw 0]⟩
  | .devScratch => ⟨0, dPkg, 0x50, [(4, 4)],
      [fPrv 31 0 .mw 0]⟩
  | .bootCtrl => ⟨1, dPkg, 0x0, [],
      [fPlain 2 2 .w1c 0, fPrv 0 0 .rw 0]⟩
  | .bootCfgIgnAddr => ⟨1, dPkg, 0x4, [],
      [fPlain 31 0 .ro 0]⟩
  | .bootStat => ⟨1, dPkg, 0x8, [],
      [fPlain 31 28 .ro 1, fPlain 27 26 .ro 0, fPlain 25 24 .ro 0, fPlain 23 23 .ro 0, fPlain 22 22 .ro 0, fPlain 21 21 .ro 0, fPlain 20 20 .ro 0, fPlain 19 19 .ro 0, fPlain 18 18 .ro 0, fPlain 17 17 .ro 0, fPlain 16 16 .ro 0, fPlain 7 0 .ro 0]⟩
  | .bootImgFail => ⟨1, dPkg, 0xc, [],
      [fPlain 15 8 .ro 0, fPlain 7 0 .ro 0]⟩
  | .bootSpi => ⟨1, dPkg, 0x10, [],
      [fPlain 31 30 .ro 0, fPlain 4 0 .ro 0]⟩
  | .bootList => ⟨1, dPkg, 0x14, [],
      [fPlain 31 16 .ro 0, fPlain 15 0 .ro 65535]⟩
  | .bootTime => ⟨1, dPkg, 0x40, [(4, 12)],
      [fPlain 31 0 .ro 0]⟩
  | .bootEnrol => ⟨1, dPkg, 0x10000, [(4, 544)],
      [fPlain 31 0 .ro 0]⟩
  | .lnkCtrl => ⟨2, dPort, 0x0, [],
      [fPlain 2 2 .w1c 0, fPrv 0 0 .rw 0]⟩
  | .lnkCfgIgnAddr => ⟨2, dPort, 0x4, [],
      [fPlain 31 0 .ro 0]⟩
  | .lnkGlb => ⟨2, dPort, 0x8, [],
      [fPrv 31 16 .rwd 500, fPrv 15 0 .rwd 1000]⟩
  | .lnkSerialLo => ⟨2, dPort, 0x10, [],
      [fPlain 31 0 .ro 0]⟩
  | .lnkSerialHi => ⟨2, dPort, 0x14, [],
      [fPlain 23 0 .ro 0]⟩
  | .lnkPortCfg => ⟨2, dPort, 0x10000, [(256, 64)],
      [fPrv 31 31 .rw 0, fPrv 30 30 .rw 0, fPrv 29 28 .rw 0, fPrv 27 26 .rw 0, fPrv 23 0 .rw 156250]⟩
  | .lnkPortTmo => ⟨2, dPort, 0x10004, [(256, 64)],
      [fPrv 31 16 .rw 1250, fPrv 15 0 .rw 1024]⟩
  | .lnkPortErrThr => ⟨2, dPort, 0x10008, [(256, 64)],
      [fPrv 31 16 .rw 4096, fPrv 15 4 .rw 1024, fPrv 3 0 .rw 4]⟩
  | .lnkPortCmd => ⟨2, dPort, 0x1000c, [(256, 64)],
      [fPrv 31 31 .rw 0, fPrv 7 4 .rw 0, fPrv 2 0 .rw 0]⟩
  | .lnkPortStat => ⟨2, dPort, 0x10010, [(256, 64)],
      [fShd 31 28 0, fShd 27 24 0, fShd 23 22 0, fShd 21 18 0]⟩
  | .lnkPortWin => ⟨2, dPort, 0x10014, [(256, 64)],
      [fShd 31 16 0, fShd 15 0 0]⟩
  | .lnkPeerRankLo => ⟨2, dPort, 0x10018, [(256, 64)],
      [fPlain 31 0 .ro 0]⟩
  | .lnkPeerRankHi => ⟨2, dPort, 0x1001c, [(256, 64)],
      [fPlain 31 0 .ro 0]⟩
  | .lnkVcCred => ⟨2, dPort, 0x10020, [(256, 64), (4, 4)],
      [fShd 31 16 0, fShd 15 0 0]⟩
  | .tstCtrl => ⟨21, dPort, 0x0, [],
      [fPlain 2 2 .w1c 0, fPrv 0 0 .rw 0]⟩
  | .tstCfgIgnAddr => ⟨21, dPort, 0x4, [],
      [fPlain 31 0 .ro 0]⟩
  | .tstLaneCfg => ⟨21, dPort, 0x1000, [(32, 72)],
      [fPrv 31 31 .rw 0, fPrv 30 30 .rw 0, fPrv 29 28 .rw 0, fShd 27 27 0]⟩
  | .tstFlitCfg => ⟨21, dPort, 0x20000, [(64, 64)],
      [fPrv 31 31 .rw 0, fPrv 30 30 .rw 0, fPrv 29 28 .rw 0]⟩
  | .gtxCtrl => ⟨3, dPkg, 0x0, [],
      [fPlain 2 2 .w1c 0, fPrv 0 0 .rw 0]⟩
  | .gtxCfgIgnAddr => ⟨3, dPkg, 0x4, [],
      [fPlain 31 0 .ro 0]⟩
  | .gtxGlb => ⟨3, dPkg, 0x8, [],
      [fPrv 31 24 .rwd 3, fPrv 15 0 .rwd 100]⟩
  | .gtxCapture => ⟨3, dPkg, 0xc, [],
      [fPlain 31 31 .w1c 0, fPlain 30 27 .ro 0, fPlain 26 23 .ro 0, fPlain 19 8 .ro 0, fPlain 7 0 .ro 0]⟩
  | .gtxCaptureAddrLo => ⟨3, dPkg, 0x10, [],
      [fPlain 31 0 .ro 0]⟩
  | .gtxCaptureAddrHi => ⟨3, dPkg, 0x14, [],
      [fPlain 31 0 .ro 0]⟩
  | .gtxNode => ⟨3, dPkg, 0x10000, [(4, 4096)],
      [fPrv 31 30 .rw 0, fPrv 29 24 .rw 0, fPrv 15 8 .rw 0, fPrv 7 0 .rw 0]⟩
  | .gtxStream => ⟨3, dPkg, 0x20000, [(4, 1024)],
      [fPrv 31 31 .rw 0, fPlain 30 30 .ro 0, fPrv 29 24 .rw 0, fPrv 11 0 .rw 0]⟩
  | .swcCtrl => ⟨4, dAll, 0x0, [],
      [fPlain 2 2 .w1c 0, fPrv 0 0 .rw 0]⟩
  | .swcCfgIgnAddr => ⟨4, dAll, 0x4, [],
      [fPlain 31 0 .ro 0]⟩
  | .swcGlb => ⟨4, dAll, 0x8, [],
      [fPrv 31 16 .rwd 1000, fPrv 11 8 .rwd 8, fPrv 7 0 .rwd 16]⟩
  | .swcBufStat => ⟨4, dAll, 0xc, [],
      [fShd 30 16 0, fShd 1 0 0]⟩
  | .swcPortCfg => ⟨4, dAll, 0x10000, [(16, 64)],
      [fPrv 31 24 .rw 255, fPrv 13 0 .rw 8192]⟩
  | .swcPortHeld => ⟨4, dAll, 0x10004, [(16, 64)],
      [fShd 17 0 0]⟩
  | .swcPartShare => ⟨4, dAll, 0x20000, [(8, 64)],
      [fPrv 31 16 .rw 0, fPrv 15 0 .rw 14336]⟩
  | .swcPartHeld => ⟨4, dAll, 0x20004, [(8, 64)],
      [fShd 17 0 0]⟩
  | .swcD2dStat => ⟨4, dAll, 0x200, [(4, 10)],
      [fShd 31 31 0, fShd 15 0 0]⟩
  | .tshCtrl => ⟨5, dPortPkg, 0x0, [],
      [fPlain 2 2 .w1c 0, fPrv 0 0 .rw 0]⟩
  | .tshCfgIgnAddr => ⟨5, dPortPkg, 0x4, [],
      [fPlain 31 0 .ro 0]⟩
  | .tshPortCfg => ⟨5, dPort, 0x10000, [(1024, 64)],
      [fPrv 31 31 .rwd 0, fPrv 30 30 .rwd 0, fPrv 29 29 .rw 0, fPlain 28 28 .ro 0, fPrv 15 8 .rw 0, fPrv 7 0 .rw 1]⟩
  | .tshGateLen => ⟨5, dPort, 0x10004, [(1024, 64)],
      [fPrv 24 16 .rw 1, fPrv 8 0 .rw 1]⟩
  | .tshSampleCfg => ⟨5, dPort, 0x10008, [(1024, 64)],
      [fPrv 23 0 .rw 1562500]⟩
  | .tshClassCfg => ⟨5, dPort, 0x10010, [(1024, 64), (4, 8)],
      [fPrv 31 24 .rw 1, fPrv 12 0 .rw 4096]⟩
  | .tshPolCfg => ⟨5, dPort, 0x10040, [(1024, 64), (8, 8)],
      [fPrv 31 30 .rw 0, fPrv 29 27 .rw 0, fPrv 15 0 .rw 1024]⟩
  | .tshPolRate => ⟨5, dPort, 0x10044, [(1024, 64), (8, 8)],
      [fPrv 15 0 .rw 16384]⟩
  | .tshSamp => ⟨5, dPort, 0x10080, [(1024, 64), (8, 8)],
      [fPlain 31 16 .w1c 0, fShd 15 0 0]⟩
  | .tshSampd => ⟨5, dPort, 0x10084, [(1024, 64), (8, 8)],
      [fPlain 31 16 .ro 0, fShd 15 0 0]⟩
  | .tshGate => ⟨5, dPort, 0x100000, [(2048, 64), (1024, 2), (4, 256)],
      [fPrv 31 24 .rw 255, fPrv 23 0 .rw 1562500]⟩
  | .tshPartCfg => ⟨5, dPkg, 0x20000, [(4, 64)],
      [fPrv 10 8 .rw 0, fPrv 7 0 .rw 1]⟩
  | .cohCtrl => ⟨6, dCorePkg, 0x0, [],
      [fPlain 2 2 .w1c 0, fPrv 0 0 .rw 0]⟩
  | .cohCfgIgnAddr => ⟨6, dCorePkg, 0x4, [],
      [fPlain 31 0 .ro 0]⟩
  | .cohGlb => ⟨6, dPkg, 0x8, [],
      [fPrv 31 16 .rwd 200, fPrv 15 0 .rwd 60]⟩
  | .cohGlb2 => ⟨6, dPkg, 0xc, [],
      [fPrv 31 16 .rwd 20, fPrv 7 0 .rwd 32]⟩
  | .cohSharer => ⟨6, dPkg, 0x10000, [(4, 64)],
      [fPrv 31 31 .rw 0, fPlain 30 30 .ro 0, fPlain 29 29 .ro 0, fPrv 11 0 .rw 0]⟩
  | .cohLostHead => ⟨6, dPkg, 0x2fffc, [],
      [fPrv 7 0 .ro 0]⟩
  | .cohLostLog => ⟨6, dPkg, 0x30000, [(16, 256), (4, 4)],
      [fPrv 31 0 .ro 0]⟩
  | .cohSliceStat => ⟨6, dCore, 0x10, [],
      [fShd 31 19 0, fShd 18 9 0, fShd 8 8 0]⟩
  | .cohProbeAddrLo => ⟨6, dCore, 0x20, [],
      [fPrv 31 0 .rw 0]⟩
  | .cohProbeAddrHi => ⟨6, dCore, 0x24, [],
      [fPrv 7 0 .rw 0]⟩
  | .cohProbeRes => ⟨6, dCore, 0x28, [],
      [fPlain 31 31 .ro 0, fPlain 30 30 .ro 0, fPlain 29 28 .ro 0, fPlain 27 24 .ro 0, fPlain 23 20 .ro 0, fPlain 15 0 .ro 0]⟩
  | .cohProbeShLo => ⟨6, dCore, 0x2c, [],
      [fPlain 31 0 .ro 0]⟩
  | .cohProbeShHi => ⟨6, dCore, 0x30, [],
      [fPlain 31 0 .ro 0]⟩
  | .memCtrl => ⟨7, dPkg, 0x0, [],
      [fPrv 3 3 .rwd 1, fPlain 2 2 .w1c 0, fPrv 0 0 .rw 0]⟩
  | .memCfgIgnAddr => ⟨7, dPkg, 0x4, [],
      [fPlain 31 0 .ro 0]⟩
  | .memStat => ⟨7, dPkg, 0x8, [],
      [fShd 31 31 0, fShd 27 24 0, fShd 17 16 0, fShd 15 0 0]⟩
  | .memUeCfg => ⟨7, dPkg, 0xc, [],
      [fPrv 31 16 .rwd 1000, fPrv 7 0 .rwd 16]⟩
  | .memRates => ⟨7, dPkg, 0x10, [],
      [fPrv 31 16 .rwd 256, fPrv 15 0 .rwd 256]⟩
  | .memRebuild => ⟨7, dPkg, 0x14, [],
      [fShd 31 28 0, fShd 27 0 0]⟩
  | .memFailCmd => ⟨7, dPkg, 0x18, [],
      [fPrv 31 31 .rw 0, fPrv 3 0 .rw 0]⟩
  | .memStackMap => ⟨7, dPkg, 0x40, [(4, 15)],
      [⟨31, 31, .ro, false, true, false, 0⟩, ⟨3, 0, .ro, false, true, false, 0⟩]⟩
  | .memPartCfg => ⟨7, dPkg, 0x10000, [(32, 64)],
      [fPrv 15 8 .rw 255, fPlain 7 4 .ro 0, fPlain 0 0 .ro 0]⟩
  | .memObj => ⟨7, dPkg, 0x1000000, [(32, 262144), (4, 8)],
      [fPrv 31 0 .ro 0]⟩
  | .memStkStat => ⟨7, dCore, 0x100, [(4, 2)],
      [fShd 31 30 0, fShd 23 20 0, fShd 19 16 0]⟩
  | .flsCtrl => ⟨8, dCore, 0x0, [],
      [fPlain 2 2 .w1c 0, fPrv 0 0 .rw 0]⟩
  | .flsCfgIgnAddr => ⟨8, dCore, 0x4, [],
      [fPlain 31 0 .ro 0]⟩
  | .flsStat => ⟨8, dCore, 0x8, [],
      [fShd 31 30 0, fShd 12 0 0]⟩
  | .corCtrl => ⟨9, dCorePkg, 0x0, [],
      [fPlain 3 3 .ro 0, fPlain 2 2 .w1c 0, fPrv 1 1 .rwd 1, fPrv 0 0 .rw 0]⟩
  | .corCfgIgnAddr => ⟨9, dCorePkg, 0x4, [],
      [fPlain 31 0 .ro 0]⟩
  | .corDieCnt => ⟨9, dCore, 0x8, [],
      [fPlain 23 12 .ro 0, fPlain 11 0 .ro 3136]⟩
  | .corTileCfg => ⟨9, dCore, 0xf0000, [(4, 49)],
      [fPlain 14 8 .ro 64, fPrv 4 0 .rwd 0]⟩
  | .corCoreState => ⟨9, dCore, 0x100000, [(16384, 49), (256, 64)],
      [fPlain 7 4 .ro 0, fPlain 2 2 .w1c 0, ⟨1, 0, .rw, true, true, false, 3⟩]⟩
  | .corCorePos => ⟨9, dCore, 0x100004, [(16384, 49), (256, 64)],
      [fPlain 31 31 .ro 0, fPlain 28 16 .ro 0, fPlain 3 0 .ro 0]⟩
  | .corResCapture => ⟨9, dCore, 0x100008, [(16384, 49), (256, 64)],
      [fPlain 31 31 .w1c 0, fPlain 15 12 .ro 0, fPlain 11 8 .ro 0, fPlain 6 4 .ro 0, fPlain 1 0 .ro 0]⟩
  | .corBowlDesc => ⟨9, dPkg, 0x200000, [(64, 8192)],
      [fPrv 31 31 .rw 0, fPlain 30 30 .ro 0, fPrv 29 24 .rw 0, fPrv 23 21 .rw 0, fPrv 20 16 .rw 0, fPlain 15 15 .ro 0]⟩
  | .corBowlChild => ⟨9, dPkg, 0x200004, [(64, 8192), (4, 8)],
      [fPrv 31 16 .rw 0, fPrv 15 0 .rw 0]⟩
  | .dspCtrl => ⟨10, dCorePkg, 0x0, [],
      [fPlain 2 2 .w1c 0, fPrv 0 0 .rw 0]⟩
  | .dspCfgIgnAddr => ⟨10, dCorePkg, 0x4, [],
      [fPlain 31 0 .ro 0]⟩
  | .dspGlbTmo => ⟨10, dPkg, 0x8, [],
      [fPrv 31 16 .rwd 100, fPrv 15 0 .rwd 50]⟩
  | .dspGlbLimits => ⟨10, dPkg, 0xc, [],
      [fPrv 31 20 .rwd 10, fPrv 19 8 .rwd 10, fPrv 3 0 .rwd 2]⟩
  | .dspTimeUnit => ⟨10, dCore, 0x10, [],
      [fShd 31 28 0, fShd 27 24 0, fShd 15 0 0]⟩
  | .dspDieStat => ⟨10, dCore, 0x14, [],
      [fShd 26 16 0, fShd 11 0 0]⟩
  | .dspPartCfg => ⟨10, dPkg, 0x10000, [(32, 64)],
      [fPrv 15 8 .rw 25, fPrv 7 7 .rw 0, fPrv 5 4 .rw 0, fPrv 3 0 .rw 12]⟩
  | .dspPartRptHandle => ⟨10, dPkg, 0x10004, [(32, 64)],
      [fPrv 15 0 .rw 0]⟩
  | .dspPartRptOff => ⟨10, dPkg, 0x10008, [(32, 64)],
      [fPrv 31 0 .rw 0]⟩
  | .dspPartRptFirst => ⟨10, dPkg, 0x1000c, [(32, 64)],
      [fPrv 17 0 .rw 0]⟩
  | .dspPartRptCount => ⟨10, dPkg, 0x10010, [(32, 64)],
      [fPrv 17 0 .rw 0]⟩
  | .dspBowlSusp => ⟨10, dPkg, 0x20000, [(4, 8192)],
      [fPrv 16 16 .w1c 0, fPlain 15 0 .ro 0]⟩
  | .dspSuspHead => ⟨10, dPkg, 0x2fffc, [],
      [fPrv 7 0 .ro 0]⟩
  | .dspSuspLog => ⟨10, dPkg, 0x30000, [(32, 256), (4, 8)],
      [fPrv 31 0 .ro 0]⟩
  | .dspWindowW0 => ⟨10, dPkg, 0x1000000, [(32, 1024)],
      [fPrv 31 24 .rw 0, fPrv 23 16 .rw 0, fPrv 13 8 .rw 0, fPrv 1 1 .rw 0, fPrv 0 0 .rw 0]⟩
  | .dspWindowW1 => ⟨10, dPkg, 0x1000004, [(32, 1024)],
      [fPrv 31 16 .rw 0, fPrv 15 0 .rw 0]⟩
  | .dspWindowW2 => ⟨10, dPkg, 0x1000008, [(32, 1024)],
      [fPrv 31 0 .rw 0]⟩
  | .dspWindowW3 => ⟨10, dPkg, 0x100000c, [(32, 1024)],
      [fPrv 19 0 .rw 0]⟩
  | .dspWindowW4 => ⟨10, dPkg, 0x1000010, [(32, 1024)],
      [fPrv 31 24 .rw 0, fPrv 23 16 .rw 0, fPrv 15 0 .rw 0]⟩
  | .dspWindowW5 => ⟨10, dPkg, 0x1000014, [(32, 1024)],
      [fPrv 31 0 .rw 0]⟩
  | .dspWindowW6 => ⟨10, dPkg, 0x1000018, [(32, 1024)],
      [fPrv 31 16 .rw 0, fPrv 15 0 .rw 0]⟩
  | .dspWindowW7 => ⟨10, dPkg, 0x100001c, [(32, 1024)],
      []⟩
  | .dspDescW0 => ⟨10, dPkg, 0x2000000, [(64, 16384)],
      [fPrv 26 26 .rw 0, fPrv 25 25 .rw 0, fPrv 24 24 .rw 0, fPrv 21 16 .rw 0, fPrv 15 8 .rw 0, fPrv 7 0 .rw 0]⟩
  | .dspDescW1 => ⟨10, dPkg, 0x2000004, [(64, 16384)],
      [fPrv 31 16 .rw 0, fPrv 12 0 .rw 0]⟩
  | .dspDescW2 => ⟨10, dPkg, 0x2000008, [(64, 16384)],
      [fPrv 31 0 .rw 0]⟩
  | .dspDescW3 => ⟨10, dPkg, 0x200000c, [(64, 16384)],
      [fPrv 31 0 .rw 0]⟩
  | .dspDescW4 => ⟨10, dPkg, 0x2000010, [(64, 16384)],
      [fPrv 25 25 .rw 0, fPrv 24 24 .rw 0, fPrv 18 16 .rw 0, fPrv 10 8 .rw 0, fPrv 2 0 .rw 0]⟩
  | .dspDescW5 => ⟨10, dPkg, 0x2000014, [(64, 16384)],
      [fPrv 31 0 .rw 0]⟩
  | .dspDescW6 => ⟨10, dPkg, 0x2000018, [(64, 16384)],
      [fPrv 31 31 .rw 0, fPrv 26 24 .rw 0, fPrv 18 16 .rw 0, fPrv 15 12 .rw 0, fPrv 10 8 .rw 0, fPrv 7 0 .rw 0]⟩
  | .dspDescW7 => ⟨10, dPkg, 0x200001c, [(64, 16384)],
      [fPrv 15 14 .rw 0, fPrv 5 0 .rw 0]⟩
  | .dspDescW8 => ⟨10, dPkg, 0x2000020, [(64, 16384)],
      [fPrv 31 0 .rw 0]⟩
  | .dspDescW9 => ⟨10, dPkg, 0x2000024, [(64, 16384)],
      [fPrv 31 0 .rw 0]⟩
  | .dspDescW10 => ⟨10, dPkg, 0x2000028, [(64, 16384)],
      [fPrv 31 0 .rw 0]⟩
  | .dspDescW11 => ⟨10, dPkg, 0x200002c, [(64, 16384)],
      [fPrv 31 0 .rw 0]⟩
  | .dspDescW12 => ⟨10, dPkg, 0x2000030, [(64, 16384)],
      [fPrv 31 0 .rw 0]⟩
  | .dspDescW13 => ⟨10, dPkg, 0x2000034, [(64, 16384)],
      [fPrv 31 0 .rw 0]⟩
  | .dspDescW14 => ⟨10, dPkg, 0x2000038, [(64, 16384)],
      [fPrv 31 0 .rw 0]⟩
  | .dspDescW15 => ⟨10, dPkg, 0x200003c, [(64, 16384)],
      [fPrv 31 0 .rw 0]⟩
  | .dspBind => ⟨10, dPkg, 0x4000000, [(4, 262144)],
      [fPrv 31 31 .rw 0, fPrv 13 0 .rw 0]⟩
  | .wskCtrl => ⟨11, dPort, 0x0, [],
      [fPlain 2 2 .w1c 0, fPrv 0 0 .rw 0]⟩
  | .wskCfgIgnAddr => ⟨11, dPort, 0x4, [],
      [fPlain 31 0 .ro 0]⟩
  | .wskGlb => ⟨11, dPort, 0x8, [],
      [fPrv 15 0 .rwd 100]⟩
  | .wskFailCapture => ⟨11, dPort, 0xc, [],
      [fPlain 31 31 .w1c 0, fPlain 23 20 .ro 0, fPlain 19 16 .ro 0, fPlain 13 8 .ro 0, fPlain 3 0 .ro 0]⟩
  | .wskEngCfg => ⟨11, dPort, 0x100, [(16, 16)],
      [fPrv 31 31 .rw 0, fPlain 30 30 .ro 0, fPrv 29 24 .rw 0, fPrv 4 4 .rw 1, fPrv 3 3 .rw 0, fPrv 2 0 .rw 1]⟩
  | .wskEngStat => ⟨11, dPort, 0x104, [(16, 16)],
      [fShd 31 7 0, fShd 6 0 0]⟩
  | .tngCtrl => ⟨12, dPort, 0x0, [],
      [fPlain 2 2 .w1c 0, fPrv 0 0 .rw 0]⟩
  | .tngCfgIgnAddr => ⟨12, dPort, 0x4, [],
      [fPlain 31 0 .ro 0]⟩
  | .tngGlb => ⟨12, dPort, 0x8, [],
      [fPrv 15 0 .rwd 100]⟩
  | .tngFailCapture => ⟨12, dPort, 0xc, [],
      [fPlain 31 31 .w1c 0, fPlain 23 20 .ro 0, fPlain 19 16 .ro 0, fPlain 13 8 .ro 0, fPlain 3 0 .ro 0]⟩
  | .tngEngCfg => ⟨12, dPort, 0x100, [(16, 16)],
      [fPrv 31 31 .rw 0, fPlain 30 30 .ro 0, fPrv 29 24 .rw 0]⟩
  | .tngEngStat => ⟨12, dPort, 0x104, [(16, 16)],
      [fShd 31 7 0, fShd 6 0 0]⟩
  | .cldCtrl => ⟨13, dPort, 0x0, [],
      [fPlain 2 2 .w1c 0, fPrv 0 0 .rw 0]⟩
  | .cldCfgIgnAddr => ⟨13, dPort, 0x4, [],
      [fPlain 31 0 .ro 0]⟩
  | .cldGlb => ⟨13, dPort, 0x8, [],
      [fPrv 15 0 .rwd 100]⟩
  | .cldFailCapture => ⟨13, dPort, 0xc, [],
      [fPlain 31 31 .w1c 0, fPlain 23 20 .ro 0, fPlain 19 16 .ro 0, fPlain 13 8 .ro 0, fPlain 3 0 .ro 0]⟩
  | .cldEngCfg => ⟨13, dPort, 0x100, [(16, 16)],
      [fPrv 31 31 .rw 0, fPlain 30 30 .ro 0, fPrv 29 24 .rw 0]⟩
  | .cldEngStat => ⟨13, dPort, 0x104, [(16, 16)],
      [fShd 31 7 0, fShd 6 0 0]⟩
  | .cmpCtrl => ⟨14, dCore, 0x0, [],
      [fPlain 2 2 .w1c 0, fPlain 1 1 .ro 0, fPrv 0 0 .rw 0]⟩
  | .cmpCfgIgnAddr => ⟨14, dCore, 0x4, [],
      [fPlain 31 0 .ro 0]⟩
  | .cmpJobCfg => ⟨14, dCore, 0x10, [],
      [fPrv 31 31 .rw 0, fPrv 29 24 .rw 0, fPrv 23 16 .rw 0, fPrv 11 9 .rw 0, fPrv 8 8 .rw 0]⟩
  | .cmpJobStat => ⟨14, dCore, 0x2c, [],
      [fPlain 31 31 .w1c 0, fPlain 30 30 .w1c 0, fPlain 29 27 .ro 0, fPlain 26 24 .ro 0, fPlain 23 0 .ro 0]⟩
  | .cmpCapture => ⟨14, dCore, 0x40, [],
      [fPlain 31 31 .w1c 0, fPlain 30 30 .ro 0, fPlain 29 28 .ro 0, fPlain 27 22 .ro 0, fPlain 21 16 .ro 0]⟩
  | .cmpJobInHandle => ⟨14, dCore, 0x14, [],
      [fPrv 15 0 .rw 0]⟩
  | .cmpJobInOff => ⟨14, dCore, 0x18, [],
      [fPrv 31 0 .rw 0]⟩
  | .cmpJobInLen => ⟨14, dCore, 0x1c, [],
      [fPrv 23 0 .rw 0]⟩
  | .cmpJobOutHandle => ⟨14, dCore, 0x20, [],
      [fPrv 15 0 .rw 0]⟩
  | .cmpJobOutOff => ⟨14, dCore, 0x24, [],
      [fPrv 31 0 .rw 0]⟩
  | .cmpJobOutLen => ⟨14, dCore, 0x28, [],
      [fPrv 23 0 .rw 0]⟩
  | .cmpCaptureObj => ⟨14, dCore, 0x44, [],
      [fPlain 31 0 .ro 0]⟩
  | .cmpCaptureBlk => ⟨14, dCore, 0x48, [],
      [fPlain 31 0 .ro 0]⟩
  | .sftCtrl => ⟨15, dPkg, 0x0, [],
      [fPlain 2 2 .w1c 0, fPrv 0 0 .rw 0]⟩
  | .sftCfgIgnAddr => ⟨15, dPkg, 0x4, [],
      [fPlain 31 0 .ro 0]⟩
  | .sftGlb => ⟨15, dPkg, 0x8, [],
      [fPrv 15 0 .rwd 100]⟩
  | .sftStat => ⟨15, dPkg, 0xc, [],
      [fShd 30 17 0, fShd 16 0 0]⟩
  | .sftIndexW0 => ⟨15, dPkg, 0x1000000, [(64, 256)],
      [fPrv 31 16 .rw 0, fPrv 13 8 .rw 0, fPrv 3 2 .rw 0, fPrv 1 1 .rw 0, fPrv 0 0 .rw 0]⟩
  | .sftIndexW1 => ⟨15, dPkg, 0x1000004, [(64, 256)],
      [fPlain 31 16 .ro 0, fPrv 12 0 .rw 0]⟩
  | .sftIndexW2 => ⟨15, dPkg, 0x1000008, [(64, 256)],
      [fPrv 31 0 .rw 0]⟩
  | .sftIndexW3 => ⟨15, dPkg, 0x100000c, [(64, 256)],
      [fPrv 31 0 .rw 0]⟩
  | .sftIndexW4 => ⟨15, dPkg, 0x1000010, [(64, 256)],
      [fPrv 31 0 .rw 0]⟩
  | .sftIndexW5 => ⟨15, dPkg, 0x1000014, [(64, 256)],
      [fPrv 31 0 .rw 0]⟩
  | .sftIndexW6 => ⟨15, dPkg, 0x1000018, [(64, 256)],
      [fPlain 31 0 .ro 0]⟩
  | .sftIndexW7 => ⟨15, dPkg, 0x100001c, [(64, 256)],
      [fPlain 31 0 .ro 0]⟩
  | .sftIndexW8 => ⟨15, dPkg, 0x1000020, [(64, 256)],
      [fPlain 31 0 .ro 0]⟩
  | .sftIndexW9 => ⟨15, dPkg, 0x1000024, [(64, 256)],
      []⟩
  | .sftIndexW10 => ⟨15, dPkg, 0x1000028, [(64, 256)],
      []⟩
  | .sftIndexW11 => ⟨15, dPkg, 0x100002c, [(64, 256)],
      []⟩
  | .sftIndexW12 => ⟨15, dPkg, 0x1000030, [(64, 256)],
      []⟩
  | .sftIndexW13 => ⟨15, dPkg, 0x1000034, [(64, 256)],
      []⟩
  | .sftIndexW14 => ⟨15, dPkg, 0x1000038, [(64, 256)],
      []⟩
  | .sftIndexW15 => ⟨15, dPkg, 0x100003c, [(64, 256)],
      []⟩
  | .sftQwinW0 => ⟨15, dPkg, 0x2000000, [(32, 256)],
      [fPrv 31 24 .rw 0, fPrv 23 16 .rw 0, fPrv 13 8 .rw 0, fPrv 0 0 .rw 0]⟩
  | .sftQwinW1 => ⟨15, dPkg, 0x2000004, [(32, 256)],
      [fPrv 15 0 .rw 0]⟩
  | .sftQwinW2 => ⟨15, dPkg, 0x2000008, [(32, 256)],
      [fPrv 31 0 .rw 0]⟩
  | .sftQwinW3 => ⟨15, dPkg, 0x200000c, [(32, 256)],
      [fPrv 19 0 .rw 0]⟩
  | .sftQwinW4 => ⟨15, dPkg, 0x2000010, [(32, 256)],
      []⟩
  | .sftQwinW5 => ⟨15, dPkg, 0x2000014, [(32, 256)],
      []⟩
  | .sftQwinW6 => ⟨15, dPkg, 0x2000018, [(32, 256)],
      []⟩
  | .sftQwinW7 => ⟨15, dPkg, 0x200001c, [(32, 256)],
      []⟩
  | .gtxGroupW0 => ⟨3, dPkg, 0x1000000, [(256, 4096)],
      [fPrv 23 16 .rw 0, fPrv 13 8 .rw 0, fPrv 0 0 .rw 0]⟩
  | .gtxGroupRsv => ⟨3, dPkg, 0x1000004, [(256, 4096), (4, 3)],
      []⟩
  | .gtxGroupBaseLo => ⟨3, dPkg, 0x1000010, [(256, 4096), (16, 15)],
      [fPrv 31 0 .rw 0]⟩
  | .gtxGroupBaseHi => ⟨3, dPkg, 0x1000014, [(256, 4096), (16, 15)],
      [fPrv 31 0 .rw 0]⟩
  | .gtxGroupHek => ⟨3, dPkg, 0x1000018, [(256, 4096), (16, 15)],
      [fPrv 24 24 .rw 0, fPrv 23 16 .rw 0, fPrv 15 0 .rw 0]⟩
  | .gtxGroupTrsv => ⟨3, dPkg, 0x100001c, [(256, 4096), (16, 15)],
      []⟩
  | .secCtrl => ⟨16, dPkg, 0x0, [],
      [fPlain 2 2 .w1c 0, fPrv 0 0 .rw 0]⟩
  | .secCfgIgnAddr => ⟨16, dPkg, 0x4, [],
      [fPlain 31 0 .ro 0]⟩
  | .secStat => ⟨16, dPkg, 0x8, [],
      [fShd 31 31 0, fShd 30 30 0, fShd 29 29 0, fShd 28 28 0, fShd 27 19 0, fShd 10 0 0]⟩
  | .secGlb => ⟨16, dPkg, 0xc, [],
      [fPrv 31 16 .rwd 100]⟩
  | .secTestNode => ⟨16, dPkg, 0x10, [],
      [fPrv 31 31 .rw 0, fPrv 30 30 .rw 0, fPrv 11 0 .rw 0]⟩
  | .secNodeSess => ⟨16, dPkg, 0x10000, [(4, 4096)],
      [fPlain 31 31 .ro 0, fPlain 30 29 .ro 0, fPlain 28 28 .ro 0, fPlain 15 0 .ro 0]⟩
  | .secRegion => ⟨16, dPkg, 0x1000000, [(32, 4096), (4, 8)],
      [fPrv 31 0 .ro 0]⟩
  | .secGrant => ⟨16, dPkg, 0x2000000, [(16, 65536), (4, 4)],
      [fPrv 31 0 .ro 0]⟩
  | .secBkey => ⟨16, dPkg, 0x20000, [(8, 256), (4, 2)],
      [fPrv 31 0 .ro 0]⟩
  | .prtCtrl => ⟨18, dPkg, 0x0, [],
      [fPlain 2 2 .w1c 0, fPrv 0 0 .rw 0]⟩
  | .prtCfgIgnAddr => ⟨18, dPkg, 0x4, [],
      [fPlain 31 0 .ro 0]⟩
  | .prtGlb => ⟨18, dPkg, 0x8, [],
      [fPrv 15 0 .rwd 500]⟩
  | .prtState => ⟨18, dPkg, 0x10000, [(32, 64)],
      [fPlain 31 29 .ro 0, fPlain 28 26 .ro 0, fPlain 25 25 .ro 0, fPlain 11 0 .ro 0]⟩
  | .prtCmd => ⟨18, dPkg, 0x10004, [(32, 64)],
      [fPrv 31 31 .rw 0, fPrv 15 4 .rw 0, fPrv 2 0 .rw 0]⟩
  | .prtDrain => ⟨18, dPkg, 0x10008, [(32, 64)],
      [fShd 31 16 0, fShd 15 0 0]⟩
  | .irqCtrl => ⟨17, dPkg, 0x0, [],
      [fPlain 2 2 .w1c 0, fPrv 0 0 .rw 0]⟩
  | .irqCfgIgnAddr => ⟨17, dPkg, 0x4, [],
      [fPlain 31 0 .ro 0]⟩
  | .irqSwSet => ⟨17, dPkg, 0x8, [],
      [fPrv 31 31 .rw 0, fPrv 6 0 .rw 0]⟩
  | .irqSrcCfg => ⟨17, dPkg, 0x10000, [(4, 2048)],
      [fPrv 31 31 .rw 0, fPrv 30 30 .rw 0, fPrv 15 12 .rw 8, fPrv 7 0 .rw 15]⟩
  | .irqSrcPend => ⟨17, dPkg, 0x20000, [(4, 2048)],
      [fShd 31 31 0, fShd 30 30 0, fShd 29 27 0, fShd 8 0 0]⟩
  | .irqCoreCfg => ⟨17, dPkg, 0x30000, [(64, 8)],
      [fPrv 31 31 .rw 0, fPrv 30 30 .rw 1, fPlain 29 29 .ro 0, fPrv 15 0 .rw 0]⟩
  | .irqAck => ⟨17, dPkg, 0x30004, [(64, 8)],
      [fPlain 31 31 .ro 0, fPlain 30 27 .ro 0, fPlain 26 16 .ro 0, fPlain 15 10 .ro 0, fPlain 9 9 .ro 0, fPlain 8 0 .ro 0]⟩
  | .irqEoi => ⟨17, dPkg, 0x30018, [(64, 8)],
      [fPrv 31 0 .rw 0]⟩
  | .irqRun => ⟨17, dPkg, 0x3001c, [(64, 8)],
      [fPlain 31 27 .ro 0, fPlain 4 4 .ro 1, fPlain 3 0 .ro 0]⟩
  | .irqInfo => ⟨17, dPkg, 0x30008, [(64, 8), (4, 4)],
      [fPlain 31 0 .ro 0]⟩
  | .irqVecCfg => ⟨17, dPkg, 0x40000, [(256, 64), (32, 8)],
      [fPrv 31 31 .rw 0, fPrv 30 30 .rw 0, fPrv 27 24 .rw 4, fPrv 11 0 .rw 0]⟩
  | .irqVecMask => ⟨17, dPkg, 0x40004, [(256, 64), (32, 8)],
      [fPrv 15 0 .rw 0]⟩
  | .irqVecSeq => ⟨17, dPkg, 0x40010, [(256, 64), (32, 8)],
      [fShd 31 0 1]⟩
  | .irqVecBase => ⟨17, dPkg, 0x40008, [(256, 64), (32, 8), (4, 2)],
      [fPrv 31 0 .rw 0]⟩
  | .mgtCtrl => ⟨19, dPkg, 0x0, [],
      [fPlain 2 2 .w1c 0, fPrv 0 0 .rw 0]⟩
  | .mgtCfgIgnAddr => ⟨19, dPkg, 0x4, [],
      [fPlain 31 0 .ro 0]⟩
  | .mgtGlb => ⟨19, dPkg, 0x8, [],
      [fPrv 31 16 .rwd 100, fPrv 7 0 .rwd 3]⟩
  | .mgtGlb2 => ⟨19, dPkg, 0xc, [],
      [fPrv 31 16 .rwd 5, fPrv 15 0 .rwd 100]⟩
  | .mgtMsgCfg => ⟨19, dPkg, 0x14, [],
      [fPrv 31 16 .rwd 1000, fPrv 7 0 .rwd 8]⟩
  | .mgtStat => ⟨19, dPkg, 0x18, [],
      [fShd 31 31 0, fShd 30 30 0, fShd 29 29 0, fShd 28 28 0, fShd 27 21 0, fShd 20 16 0]⟩
  | .mgtDumpStat => ⟨19, dPkg, 0x1c, [],
      [fShd 31 31 0, fShd 30 30 0, fShd 29 29 0, fShd 28 27 0, fShd 15 0 0]⟩
  | .mgtRxCfg => ⟨19, dPkg, 0x10000, [(16, 64)],
      [fPrv 31 31 .rw 0, fPlain 30 30 .ro 0, fPrv 19 16 .rw 4, fPrv 15 0 .rw 0]⟩
  | .mgtRxOff => ⟨19, dPkg, 0x10004, [(16, 64)],
      [fPrv 31 0 .rw 0]⟩
  | .mgtMsgq => ⟨19, dPkg, 0x10008, [(16, 64)],
      [fShd 8 0 0]⟩
  | .mgtPeer => ⟨19, dPkg, 0x20000, [(4, 16)],
      [fShd 31 30 0, fShd 29 29 0]⟩
  | .mgtDumpWin => ⟨19, dPkg, 0x30000, [(4, 16384)],
      [fPlain 31 0 .ro 0]⟩
  | .pwrCtrl => ⟨20, dPkg, 0x0, [],
      [fPlain 2 2 .w1c 0, fPrv 0 0 .rw 0]⟩
  | .pwrCfgIgnAddr => ⟨20, dPkg, 0x4, [],
      [fPlain 31 0 .ro 0]⟩
  | .pwrGlb => ⟨20, dPkg, 0x8, [],
      [fPrv 31 16 .rwd 3200, fPrv 15 8 .rw 100, fPrv 7 0 .rwd 5]⟩
  | .pwrGlb2 => ⟨20, dPkg, 0xc, [],
      [fPrv 31 20 .rwd 850]⟩
  | .pwrStat => ⟨20, dPkg, 0x10, [],
      [fShd 31 16 0, fShd 15 8 0, fShd 7 0 0]⟩
  | .pwrRailCfg => ⟨20, dPkg, 0x100, [(16, 12)],
      [fPlain 31 31 .ro 0, fPrv 30 24 .rwd 0, fPrv 23 12 .rw 650, fPrv 11 0 .rw 750]⟩
  | .pwrRailStat => ⟨20, dPkg, 0x104, [(16, 12)],
      [fShd 31 20 0, fShd 19 8 0, fShd 3 0 0]⟩
  | .pwrDieTemp => ⟨20, dPkg, 0x200, [(4, 12)],
      [fShd 15 8 0, fShd 3 0 0]⟩

/-- The registers of each block (R586). -/
def blockRegs : Nat → List Reg
  | 0 => [.devId, .devRom, .devCap0, .devCap1, .devErrSum, .devSatSum, .devCapSum, .devDieSum, .devAccCap, .devAccAddrLo, .devAccAddrHi, .devShdHold, .devScratch]
  | 1 => [.bootCtrl, .bootCfgIgnAddr, .bootStat, .bootImgFail, .bootSpi, .bootList, .bootTime, .bootEnrol]
  | 2 => [.lnkCtrl, .lnkCfgIgnAddr, .lnkGlb, .lnkSerialLo, .lnkSerialHi, .lnkPortCfg, .lnkPortTmo, .lnkPortErrThr, .lnkPortCmd, .lnkPortStat, .lnkPortWin, .lnkPeerRankLo, .lnkPeerRankHi, .lnkVcCred]
  | 3 => [.gtxCtrl, .gtxCfgIgnAddr, .gtxGlb, .gtxCapture, .gtxCaptureAddrLo, .gtxCaptureAddrHi, .gtxNode, .gtxStream, .gtxGroupW0, .gtxGroupRsv, .gtxGroupBaseLo, .gtxGroupBaseHi, .gtxGroupHek, .gtxGroupTrsv]
  | 4 => [.swcCtrl, .swcCfgIgnAddr, .swcGlb, .swcBufStat, .swcPortCfg, .swcPortHeld, .swcPartShare, .swcPartHeld, .swcD2dStat]
  | 5 => [.tshCtrl, .tshCfgIgnAddr, .tshPortCfg, .tshGateLen, .tshSampleCfg, .tshClassCfg, .tshPolCfg, .tshPolRate, .tshSamp, .tshSampd, .tshGate, .tshPartCfg]
  | 6 => [.cohCtrl, .cohCfgIgnAddr, .cohGlb, .cohGlb2, .cohSharer, .cohLostHead, .cohLostLog, .cohSliceStat, .cohProbeAddrLo, .cohProbeAddrHi, .cohProbeRes, .cohProbeShLo, .cohProbeShHi]
  | 7 => [.memCtrl, .memCfgIgnAddr, .memStat, .memUeCfg, .memRates, .memRebuild, .memFailCmd, .memStackMap, .memPartCfg, .memObj, .memStkStat]
  | 8 => [.flsCtrl, .flsCfgIgnAddr, .flsStat]
  | 9 => [.corCtrl, .corCfgIgnAddr, .corDieCnt, .corTileCfg, .corCoreState, .corCorePos, .corResCapture, .corBowlDesc, .corBowlChild]
  | 10 => [.dspCtrl, .dspCfgIgnAddr, .dspGlbTmo, .dspGlbLimits, .dspTimeUnit, .dspDieStat, .dspPartCfg, .dspPartRptHandle, .dspPartRptOff, .dspPartRptFirst, .dspPartRptCount, .dspBowlSusp, .dspSuspHead, .dspSuspLog, .dspWindowW0, .dspWindowW1, .dspWindowW2, .dspWindowW3, .dspWindowW4, .dspWindowW5, .dspWindowW6, .dspWindowW7, .dspDescW0, .dspDescW1, .dspDescW2, .dspDescW3, .dspDescW4, .dspDescW5, .dspDescW6, .dspDescW7, .dspDescW8, .dspDescW9, .dspDescW10, .dspDescW11, .dspDescW12, .dspDescW13, .dspDescW14, .dspDescW15, .dspBind]
  | 11 => [.wskCtrl, .wskCfgIgnAddr, .wskGlb, .wskFailCapture, .wskEngCfg, .wskEngStat]
  | 12 => [.tngCtrl, .tngCfgIgnAddr, .tngGlb, .tngFailCapture, .tngEngCfg, .tngEngStat]
  | 13 => [.cldCtrl, .cldCfgIgnAddr, .cldGlb, .cldFailCapture, .cldEngCfg, .cldEngStat]
  | 14 => [.cmpCtrl, .cmpCfgIgnAddr, .cmpJobCfg, .cmpJobStat, .cmpCapture, .cmpJobInHandle, .cmpJobInOff, .cmpJobInLen, .cmpJobOutHandle, .cmpJobOutOff, .cmpJobOutLen, .cmpCaptureObj, .cmpCaptureBlk]
  | 15 => [.sftCtrl, .sftCfgIgnAddr, .sftGlb, .sftStat, .sftIndexW0, .sftIndexW1, .sftIndexW2, .sftIndexW3, .sftIndexW4, .sftIndexW5, .sftIndexW6, .sftIndexW7, .sftIndexW8, .sftIndexW9, .sftIndexW10, .sftIndexW11, .sftIndexW12, .sftIndexW13, .sftIndexW14, .sftIndexW15, .sftQwinW0, .sftQwinW1, .sftQwinW2, .sftQwinW3, .sftQwinW4, .sftQwinW5, .sftQwinW6, .sftQwinW7]
  | 16 => [.secCtrl, .secCfgIgnAddr, .secStat, .secGlb, .secTestNode, .secNodeSess, .secRegion, .secGrant, .secBkey]
  | 17 => [.irqCtrl, .irqCfgIgnAddr, .irqSwSet, .irqSrcCfg, .irqSrcPend, .irqCoreCfg, .irqAck, .irqEoi, .irqRun, .irqInfo, .irqVecCfg, .irqVecMask, .irqVecSeq, .irqVecBase]
  | 18 => [.prtCtrl, .prtCfgIgnAddr, .prtGlb, .prtState, .prtCmd, .prtDrain]
  | 19 => [.mgtCtrl, .mgtCfgIgnAddr, .mgtGlb, .mgtGlb2, .mgtMsgCfg, .mgtStat, .mgtDumpStat, .mgtRxCfg, .mgtRxOff, .mgtMsgq, .mgtPeer, .mgtDumpWin]
  | 20 => [.pwrCtrl, .pwrCfgIgnAddr, .pwrGlb, .pwrGlb2, .pwrStat, .pwrRailCfg, .pwrRailStat, .pwrDieTemp]
  | 21 => [.tstCtrl, .tstCfgIgnAddr, .tstLaneCfg, .tstFlitCfg]
  | _ => []

/-- Every 64-bit counter of the device. -/
inductive Cnt where
  /-- R74 -/
  | corResErr
  /-- R74 -/
  | corEccCe
  /-- R74 -/
  | corEccUe
  /-- R74 -/
  | corCtxSw
  /-- R74 -/
  | corNanToZero
  /-- R74 -/
  | corOvf
  /-- R124 -/
  | dspStall1
  /-- R124 -/
  | dspStall2
  /-- R124 -/
  | dspStall3
  /-- R124 -/
  | dspStall4
  /-- R124 -/
  | dspStall5
  /-- R124 -/
  | dspStall6
  /-- R124 -/
  | dspStall7
  /-- R124 -/
  | dspStall8
  /-- R124 -/
  | dspOverlap
  /-- R124 -/
  | dspSetTmo
  /-- R124 -/
  | dspBad
  /-- R124 -/
  | dspNoExpert
  /-- R124 -/
  | dspChecked
  /-- R124 -/
  | dspMismatch
  /-- R124 -/
  | dspSampleSkip
  /-- R124 -/
  | dspGivenUp
  /-- R124 -/
  | dspReportDrop
  /-- R162 -/
  | wskOpsDone
  /-- R162 -/
  | wskDiscarded
  /-- R162 -/
  | wskAbandoned
  /-- R162 -/
  | wskFailed
  /-- R162 -/
  | wskBadOp
  /-- R162 -/
  | wskStageWait
  /-- R162 -/
  | wskItems
  /-- R162 -/
  | tngOpsDone
  /-- R162 -/
  | tngDiscarded
  /-- R162 -/
  | tngAbandoned
  /-- R162 -/
  | tngFailed
  /-- R162 -/
  | tngBadOp
  /-- R162 -/
  | tngStageWait
  /-- R162 -/
  | tngItems
  /-- R162 -/
  | cldOpsDone
  /-- R162 -/
  | cldDiscarded
  /-- R162 -/
  | cldAbandoned
  /-- R162 -/
  | cldFailed
  /-- R162 -/
  | cldBadOp
  /-- R162 -/
  | cldStageWait
  /-- R162 -/
  | cldItems
  /-- R191 -/
  | cmpBlocks
  /-- R191 -/
  | cmpOvfReads
  /-- R191 -/
  | cmpCheckFail
  /-- R191 -/
  | cmpRewrite
  /-- R191 -/
  | cmpDataErr
  /-- R191 -/
  | cmpJobs
  /-- R230 -/
  | memStall1
  /-- R230 -/
  | memStall2
  /-- R230 -/
  | memStall3
  /-- R230 -/
  | memStall4
  /-- R230 -/
  | memStall5
  /-- R230 -/
  | memStall6
  /-- R230 -/
  | memStall7
  /-- R233 -/
  | memCe
  /-- R233 -/
  | memUe
  /-- R233 -/
  | memRetrain
  /-- R233 -/
  | memOtherCopy
  /-- R233 -/
  | memRepair
  /-- R235 -/
  | flsReadBytes
  /-- R235 -/
  | flsWriteBytes
  /-- R235 -/
  | flsCe
  /-- R235 -/
  | flsUe
  /-- R269 -/
  | sftSearches
  /-- R269 -/
  | sftInserts
  /-- R269 -/
  | sftDeletes
  /-- R269 -/
  | sftBad
  /-- R269 -/
  | sftFailed
  /-- R269 -/
  | sftTruncated
  /-- R269 -/
  | sftCandDrop
  /-- R269 -/
  | sftCompactWait
  /-- R310 -/
  | gtxLineReq
  /-- R310 -/
  | gtxBulkReq
  /-- R310 -/
  | gtxRefused
  /-- R310 -/
  | gtxReplayed
  /-- R310 -/
  | gtxStale
  /-- R310 -/
  | gtxReissued
  /-- R310 -/
  | gtxGivenUp
  /-- R310 -/
  | gtxNotLocal
  /-- R310 -/
  | gtxRspDrop
  /-- R310 -/
  | gtxBadSrc
  /-- R310 -/
  | gtxUnsup
  /-- R310 -/
  | gtxFwdDrop
  /-- R341 -/
  | lnkFlitsTx
  /-- R341 -/
  | lnkFlitsRx
  /-- R341 -/
  | lnkCrcErr
  /-- R341 -/
  | lnkReplay
  /-- R341 -/
  | lnkFecCorr
  /-- R341 -/
  | lnkFecUnc
  /-- R341 -/
  | lnkRetrain
  /-- R341 -/
  | lnkNarrow
  /-- R341 -/
  | lnkFail
  /-- R341 -/
  | lnkCredTmo
  /-- R341 -/
  | lnkLaneSym0
  /-- R341 -/
  | lnkLaneSym1
  /-- R341 -/
  | lnkLaneSym2
  /-- R341 -/
  | lnkLaneSym3
  /-- R345 -/
  | tstLaneBits
  /-- R345 -/
  | tstLaneErr
  /-- R345 -/
  | tstFlitTx
  /-- R345 -/
  | tstFlitRx
  /-- R345 -/
  | tstFlitErr
  /-- R373 -/
  | swcLeakZero
  /-- R373 -/
  | swcLeakUnheld
  /-- R373 -/
  | swcListBad
  /-- R373 -/
  | swcCountBad
  /-- R373 -/
  | swcCtTrunc
  /-- R373 -/
  | swcShareWait
  /-- R373 -/
  | swcAudits
  /-- R373 -/
  | swcD2dXfer
  /-- R373 -/
  | swcD2dErr
  /-- R373 -/
  | swcD2dRetry
  /-- R395 -/
  | tshSent
  /-- R395 -/
  | tshPoliced
  /-- R395 -/
  | tshDemoted
  /-- R395 -/
  | tshGateSkip
  /-- R395 -/
  | tshGateOverrun
  /-- R395 -/
  | tshSamples
  /-- R395 -/
  | tshDepthSum
  /-- R422 -/
  | cohLookups
  /-- R422 -/
  | cohSnoops
  /-- R422 -/
  | cohSnpResend
  /-- R422 -/
  | cohSnpTmo
  /-- R422 -/
  | cohBackInv
  /-- R422 -/
  | cohRetry
  /-- R422 -/
  | cohHeld
  /-- R422 -/
  | cohRsvExpired
  /-- R422 -/
  | cohStaleWb
  /-- R422 -/
  | cohLinesLost
  /-- R457 -/
  | secSigFail
  /-- R457 -/
  | secGrantTagFail
  /-- R457 -/
  | secChunkAuthFail
  /-- R457 -/
  | secRevokes
  /-- R457 -/
  | secQuotes
  /-- R457 -/
  | secReleaseFail
  /-- R457 -/
  | secPrvDrop
  /-- R483 -/
  | prtResets
  /-- R483 -/
  | prtDrainTmo
  /-- R483 -/
  | prtPartBusy
  /-- R483 -/
  | prtEnded
  /-- R483 -/
  | prtResetRefused
  /-- R488 -/
  | irqAccepted
  /-- R488 -/
  | irqCoalesced
  /-- R488 -/
  | irqDropped
  /-- R488 -/
  | irqNotifySent
  /-- R488 -/
  | irqNotifyDrop
  /-- R488 -/
  | irqEoiUnder
  /-- R546 -/
  | mgtEthDrop
  /-- R546 -/
  | mgtPauseRx
  /-- R546 -/
  | mgtRecordsRx
  /-- R546 -/
  | mgtTagFail
  /-- R546 -/
  | mgtReplayDrop
  /-- R546 -/
  | mgtHsFail
  /-- R546 -/
  | mgtCmds
  /-- R546 -/
  | mgtMsgSent
  /-- R546 -/
  | mgtMsgRx
  /-- R546 -/
  | mgtMsgDup
  /-- R546 -/
  | mgtMsgLost
  /-- R584 -/
  | pwrCapSteps
  /-- R584 -/
  | pwrFloorRaises
  /-- R584 -/
  | pwrWarns
  /-- R584 -/
  | pwrPmbusErr
  /-- R604 -/
  | devTriFix
  /-- R604 -/
  | devAccErr
  /-- R395 -/
  | tshDelaySum
  deriving DecidableEq, Repr

/-- Where a counter lies: block, dies, offset of its _LO half, its dimensions, the offset of the
SAT register, that register's dimensions, and its SAT bit. -/
structure CntDef where
  block : Nat
  dies : List Nat
  base : Nat
  dims : List (Nat × Nat)
  satBase : Nat
  satDims : List (Nat × Nat)
  bit : Nat
  deriving DecidableEq, Repr

def Cnt.info : Cnt → CntDef
  | .corResErr => ⟨9, dCore, 0x100020, [(16384, 49), (256, 64)], 0x100050, [(16384, 49), (256, 64)], 0⟩
  | .corEccCe => ⟨9, dCore, 0x100028, [(16384, 49), (256, 64)], 0x100050, [(16384, 49), (256, 64)], 1⟩
  | .corEccUe => ⟨9, dCore, 0x100030, [(16384, 49), (256, 64)], 0x100050, [(16384, 49), (256, 64)], 2⟩
  | .corCtxSw => ⟨9, dCore, 0x100038, [(16384, 49), (256, 64)], 0x100050, [(16384, 49), (256, 64)], 3⟩
  | .corNanToZero => ⟨9, dCore, 0x100040, [(16384, 49), (256, 64)], 0x100050, [(16384, 49), (256, 64)], 4⟩
  | .corOvf => ⟨9, dCore, 0x100048, [(16384, 49), (256, 64)], 0x100050, [(16384, 49), (256, 64)], 5⟩
  | .dspStall1 => ⟨10, dPkg, 0x80008, [(256, 64)], 0x800f8, [(256, 64)], 0⟩
  | .dspStall2 => ⟨10, dPkg, 0x80010, [(256, 64)], 0x800f8, [(256, 64)], 1⟩
  | .dspStall3 => ⟨10, dPkg, 0x80018, [(256, 64)], 0x800f8, [(256, 64)], 2⟩
  | .dspStall4 => ⟨10, dPkg, 0x80020, [(256, 64)], 0x800f8, [(256, 64)], 3⟩
  | .dspStall5 => ⟨10, dPkg, 0x80028, [(256, 64)], 0x800f8, [(256, 64)], 4⟩
  | .dspStall6 => ⟨10, dPkg, 0x80030, [(256, 64)], 0x800f8, [(256, 64)], 5⟩
  | .dspStall7 => ⟨10, dPkg, 0x80038, [(256, 64)], 0x800f8, [(256, 64)], 6⟩
  | .dspStall8 => ⟨10, dPkg, 0x80040, [(256, 64)], 0x800f8, [(256, 64)], 7⟩
  | .dspOverlap => ⟨10, dPkg, 0x80048, [(256, 64)], 0x800f8, [(256, 64)], 8⟩
  | .dspSetTmo => ⟨10, dPkg, 0x80050, [(256, 64)], 0x800f8, [(256, 64)], 9⟩
  | .dspBad => ⟨10, dPkg, 0x80058, [(256, 64)], 0x800f8, [(256, 64)], 10⟩
  | .dspNoExpert => ⟨10, dPkg, 0x80060, [(256, 64)], 0x800f8, [(256, 64)], 11⟩
  | .dspChecked => ⟨10, dPkg, 0x80068, [(256, 64)], 0x800f8, [(256, 64)], 12⟩
  | .dspMismatch => ⟨10, dPkg, 0x80070, [(256, 64)], 0x800f8, [(256, 64)], 13⟩
  | .dspSampleSkip => ⟨10, dPkg, 0x80078, [(256, 64)], 0x800f8, [(256, 64)], 14⟩
  | .dspGivenUp => ⟨10, dPkg, 0x80080, [(256, 64)], 0x800f8, [(256, 64)], 15⟩
  | .dspReportDrop => ⟨10, dPkg, 0x80088, [(256, 64)], 0x800f8, [(256, 64)], 16⟩
  | .wskOpsDone => ⟨11, dPort, 0x1000, [(128, 16)], 0x1078, [(128, 16)], 0⟩
  | .wskDiscarded => ⟨11, dPort, 0x1008, [(128, 16)], 0x1078, [(128, 16)], 1⟩
  | .wskAbandoned => ⟨11, dPort, 0x1010, [(128, 16)], 0x1078, [(128, 16)], 2⟩
  | .wskFailed => ⟨11, dPort, 0x1018, [(128, 16)], 0x1078, [(128, 16)], 3⟩
  | .wskBadOp => ⟨11, dPort, 0x1020, [(128, 16)], 0x1078, [(128, 16)], 4⟩
  | .wskStageWait => ⟨11, dPort, 0x1028, [(128, 16)], 0x1078, [(128, 16)], 5⟩
  | .wskItems => ⟨11, dPort, 0x1030, [(128, 16)], 0x1078, [(128, 16)], 6⟩
  | .tngOpsDone => ⟨12, dPort, 0x1000, [(128, 16)], 0x1078, [(128, 16)], 0⟩
  | .tngDiscarded => ⟨12, dPort, 0x1008, [(128, 16)], 0x1078, [(128, 16)], 1⟩
  | .tngAbandoned => ⟨12, dPort, 0x1010, [(128, 16)], 0x1078, [(128, 16)], 2⟩
  | .tngFailed => ⟨12, dPort, 0x1018, [(128, 16)], 0x1078, [(128, 16)], 3⟩
  | .tngBadOp => ⟨12, dPort, 0x1020, [(128, 16)], 0x1078, [(128, 16)], 4⟩
  | .tngStageWait => ⟨12, dPort, 0x1028, [(128, 16)], 0x1078, [(128, 16)], 5⟩
  | .tngItems => ⟨12, dPort, 0x1030, [(128, 16)], 0x1078, [(128, 16)], 6⟩
  | .cldOpsDone => ⟨13, dPort, 0x1000, [(128, 16)], 0x1078, [(128, 16)], 0⟩
  | .cldDiscarded => ⟨13, dPort, 0x1008, [(128, 16)], 0x1078, [(128, 16)], 1⟩
  | .cldAbandoned => ⟨13, dPort, 0x1010, [(128, 16)], 0x1078, [(128, 16)], 2⟩
  | .cldFailed => ⟨13, dPort, 0x1018, [(128, 16)], 0x1078, [(128, 16)], 3⟩
  | .cldBadOp => ⟨13, dPort, 0x1020, [(128, 16)], 0x1078, [(128, 16)], 4⟩
  | .cldStageWait => ⟨13, dPort, 0x1028, [(128, 16)], 0x1078, [(128, 16)], 5⟩
  | .cldItems => ⟨13, dPort, 0x1030, [(128, 16)], 0x1078, [(128, 16)], 6⟩
  | .cmpBlocks => ⟨14, dCore, 0x100, [], 0x130, [], 0⟩
  | .cmpOvfReads => ⟨14, dCore, 0x108, [], 0x130, [], 1⟩
  | .cmpCheckFail => ⟨14, dCore, 0x110, [], 0x130, [], 2⟩
  | .cmpRewrite => ⟨14, dCore, 0x118, [], 0x130, [], 3⟩
  | .cmpDataErr => ⟨14, dCore, 0x120, [], 0x130, [], 4⟩
  | .cmpJobs => ⟨14, dCore, 0x128, [], 0x130, [], 5⟩
  | .memStall1 => ⟨7, dPkg, 0x80000, [(128, 64)], 0x80078, [(128, 64)], 0⟩
  | .memStall2 => ⟨7, dPkg, 0x80008, [(128, 64)], 0x80078, [(128, 64)], 1⟩
  | .memStall3 => ⟨7, dPkg, 0x80010, [(128, 64)], 0x80078, [(128, 64)], 2⟩
  | .memStall4 => ⟨7, dPkg, 0x80018, [(128, 64)], 0x80078, [(128, 64)], 3⟩
  | .memStall5 => ⟨7, dPkg, 0x80020, [(128, 64)], 0x80078, [(128, 64)], 4⟩
  | .memStall6 => ⟨7, dPkg, 0x80028, [(128, 64)], 0x80078, [(128, 64)], 5⟩
  | .memStall7 => ⟨7, dPkg, 0x80030, [(128, 64)], 0x80078, [(128, 64)], 6⟩
  | .memCe => ⟨7, dCore, 0x200, [(128, 2)], 0x278, [(128, 2)], 0⟩
  | .memUe => ⟨7, dCore, 0x208, [(128, 2)], 0x278, [(128, 2)], 1⟩
  | .memRetrain => ⟨7, dCore, 0x210, [(128, 2)], 0x278, [(128, 2)], 2⟩
  | .memOtherCopy => ⟨7, dCore, 0x218, [(128, 2)], 0x278, [(128, 2)], 3⟩
  | .memRepair => ⟨7, dCore, 0x220, [(128, 2)], 0x278, [(128, 2)], 4⟩
  | .flsReadBytes => ⟨8, dCore, 0x100, [], 0x130, [], 0⟩
  | .flsWriteBytes => ⟨8, dCore, 0x108, [], 0x130, [], 1⟩
  | .flsCe => ⟨8, dCore, 0x110, [], 0x130, [], 2⟩
  | .flsUe => ⟨8, dCore, 0x118, [], 0x130, [], 3⟩
  | .sftSearches => ⟨15, dPkg, 0x80000, [(128, 64)], 0x80078, [(128, 64)], 0⟩
  | .sftInserts => ⟨15, dPkg, 0x80008, [(128, 64)], 0x80078, [(128, 64)], 1⟩
  | .sftDeletes => ⟨15, dPkg, 0x80010, [(128, 64)], 0x80078, [(128, 64)], 2⟩
  | .sftBad => ⟨15, dPkg, 0x80018, [(128, 64)], 0x80078, [(128, 64)], 3⟩
  | .sftFailed => ⟨15, dPkg, 0x80020, [(128, 64)], 0x80078, [(128, 64)], 4⟩
  | .sftTruncated => ⟨15, dPkg, 0x80028, [(128, 64)], 0x80078, [(128, 64)], 5⟩
  | .sftCandDrop => ⟨15, dPkg, 0x80030, [(128, 64)], 0x80078, [(128, 64)], 6⟩
  | .sftCompactWait => ⟨15, dPkg, 0x80038, [(128, 64)], 0x80078, [(128, 64)], 7⟩
  | .gtxLineReq => ⟨3, dPkg, 0x80000, [(128, 64)], 0x80078, [(128, 64)], 0⟩
  | .gtxBulkReq => ⟨3, dPkg, 0x80008, [(128, 64)], 0x80078, [(128, 64)], 1⟩
  | .gtxRefused => ⟨3, dPkg, 0x80010, [(128, 64)], 0x80078, [(128, 64)], 2⟩
  | .gtxReplayed => ⟨3, dPkg, 0x80018, [(128, 64)], 0x80078, [(128, 64)], 3⟩
  | .gtxStale => ⟨3, dPkg, 0x80020, [(128, 64)], 0x80078, [(128, 64)], 4⟩
  | .gtxReissued => ⟨3, dPkg, 0x80028, [(128, 64)], 0x80078, [(128, 64)], 5⟩
  | .gtxGivenUp => ⟨3, dPkg, 0x80030, [(128, 64)], 0x80078, [(128, 64)], 6⟩
  | .gtxNotLocal => ⟨3, dPkg, 0x100, [], 0x130, [], 0⟩
  | .gtxRspDrop => ⟨3, dPkg, 0x108, [], 0x130, [], 1⟩
  | .gtxBadSrc => ⟨3, dPkg, 0x110, [], 0x130, [], 2⟩
  | .gtxUnsup => ⟨3, dPkg, 0x118, [], 0x130, [], 3⟩
  | .gtxFwdDrop => ⟨3, dPkg, 0x120, [], 0x130, [], 4⟩
  | .lnkFlitsTx => ⟨2, dPort, 0x10040, [(256, 64)], 0x100f8, [(256, 64)], 0⟩
  | .lnkFlitsRx => ⟨2, dPort, 0x10048, [(256, 64)], 0x100f8, [(256, 64)], 1⟩
  | .lnkCrcErr => ⟨2, dPort, 0x10050, [(256, 64)], 0x100f8, [(256, 64)], 2⟩
  | .lnkReplay => ⟨2, dPort, 0x10058, [(256, 64)], 0x100f8, [(256, 64)], 3⟩
  | .lnkFecCorr => ⟨2, dPort, 0x10060, [(256, 64)], 0x100f8, [(256, 64)], 4⟩
  | .lnkFecUnc => ⟨2, dPort, 0x10068, [(256, 64)], 0x100f8, [(256, 64)], 5⟩
  | .lnkRetrain => ⟨2, dPort, 0x10070, [(256, 64)], 0x100f8, [(256, 64)], 6⟩
  | .lnkNarrow => ⟨2, dPort, 0x10078, [(256, 64)], 0x100f8, [(256, 64)], 7⟩
  | .lnkFail => ⟨2, dPort, 0x10080, [(256, 64)], 0x100f8, [(256, 64)], 8⟩
  | .lnkCredTmo => ⟨2, dPort, 0x10088, [(256, 64)], 0x100f8, [(256, 64)], 9⟩
  | .lnkLaneSym0 => ⟨2, dPort, 0x10090, [(256, 64)], 0x100f8, [(256, 64)], 10⟩
  | .lnkLaneSym1 => ⟨2, dPort, 0x10098, [(256, 64)], 0x100f8, [(256, 64)], 11⟩
  | .lnkLaneSym2 => ⟨2, dPort, 0x100a0, [(256, 64)], 0x100f8, [(256, 64)], 12⟩
  | .lnkLaneSym3 => ⟨2, dPort, 0x100a8, [(256, 64)], 0x100f8, [(256, 64)], 13⟩
  | .tstLaneBits => ⟨21, dPort, 0x1008, [(32, 72)], 0x101c, [(32, 72)], 0⟩
  | .tstLaneErr => ⟨21, dPort, 0x1010, [(32, 72)], 0x101c, [(32, 72)], 1⟩
  | .tstFlitTx => ⟨21, dPort, 0x20008, [(64, 64)], 0x2003c, [(64, 64)], 0⟩
  | .tstFlitRx => ⟨21, dPort, 0x20010, [(64, 64)], 0x2003c, [(64, 64)], 1⟩
  | .tstFlitErr => ⟨21, dPort, 0x20018, [(64, 64)], 0x2003c, [(64, 64)], 2⟩
  | .swcLeakZero => ⟨4, dAll, 0x100, [], 0x140, [], 0⟩
  | .swcLeakUnheld => ⟨4, dAll, 0x108, [], 0x140, [], 1⟩
  | .swcListBad => ⟨4, dAll, 0x110, [], 0x140, [], 2⟩
  | .swcCountBad => ⟨4, dAll, 0x118, [], 0x140, [], 3⟩
  | .swcCtTrunc => ⟨4, dAll, 0x120, [], 0x140, [], 4⟩
  | .swcShareWait => ⟨4, dAll, 0x128, [], 0x140, [], 5⟩
  | .swcAudits => ⟨4, dAll, 0x130, [], 0x140, [], 6⟩
  | .swcD2dXfer => ⟨4, dAll, 0x1000, [(64, 10)], 0x1038, [(64, 10)], 0⟩
  | .swcD2dErr => ⟨4, dAll, 0x1008, [(64, 10)], 0x1038, [(64, 10)], 1⟩
  | .swcD2dRetry => ⟨4, dAll, 0x1010, [(64, 10)], 0x1038, [(64, 10)], 2⟩
  | .tshSent => ⟨5, dPort, 0x80000, [(1024, 64), (64, 8)], 0x80038, [(1024, 64), (64, 8)], 0⟩
  | .tshPoliced => ⟨5, dPort, 0x80008, [(1024, 64), (64, 8)], 0x80038, [(1024, 64), (64, 8)], 1⟩
  | .tshDemoted => ⟨5, dPort, 0x80010, [(1024, 64), (64, 8)], 0x80038, [(1024, 64), (64, 8)], 2⟩
  | .tshGateSkip => ⟨5, dPort, 0x80018, [(1024, 64), (64, 8)], 0x80038, [(1024, 64), (64, 8)], 3⟩
  | .tshGateOverrun => ⟨5, dPort, 0x80020, [(1024, 64), (64, 8)], 0x80038, [(1024, 64), (64, 8)], 4⟩
  | .tshSamples => ⟨5, dPort, 0x80028, [(1024, 64), (64, 8)], 0x80038, [(1024, 64), (64, 8)], 5⟩
  | .tshDepthSum => ⟨5, dPort, 0x80030, [(1024, 64), (64, 8)], 0x80038, [(1024, 64), (64, 8)], 6⟩
  | .cohLookups => ⟨6, dCore, 0x100, [], 0x150, [], 0⟩
  | .cohSnoops => ⟨6, dCore, 0x108, [], 0x150, [], 1⟩
  | .cohSnpResend => ⟨6, dCore, 0x110, [], 0x150, [], 2⟩
  | .cohSnpTmo => ⟨6, dCore, 0x118, [], 0x150, [], 3⟩
  | .cohBackInv => ⟨6, dCore, 0x120, [], 0x150, [], 4⟩
  | .cohRetry => ⟨6, dCore, 0x128, [], 0x150, [], 5⟩
  | .cohHeld => ⟨6, dCore, 0x130, [], 0x150, [], 6⟩
  | .cohRsvExpired => ⟨6, dCore, 0x138, [], 0x150, [], 7⟩
  | .cohStaleWb => ⟨6, dCore, 0x140, [], 0x150, [], 8⟩
  | .cohLinesLost => ⟨6, dCore, 0x148, [], 0x150, [], 9⟩
  | .secSigFail => ⟨16, dPkg, 0x100, [], 0x140, [], 0⟩
  | .secGrantTagFail => ⟨16, dPkg, 0x108, [], 0x140, [], 1⟩
  | .secChunkAuthFail => ⟨16, dPkg, 0x110, [], 0x140, [], 2⟩
  | .secRevokes => ⟨16, dPkg, 0x118, [], 0x140, [], 3⟩
  | .secQuotes => ⟨16, dPkg, 0x120, [], 0x140, [], 4⟩
  | .secReleaseFail => ⟨16, dPkg, 0x128, [], 0x140, [], 5⟩
  | .secPrvDrop => ⟨16, dPkg, 0x130, [], 0x140, [], 6⟩
  | .prtResets => ⟨18, dPkg, 0x80000, [(64, 64)], 0x80038, [(64, 64)], 0⟩
  | .prtDrainTmo => ⟨18, dPkg, 0x80008, [(64, 64)], 0x80038, [(64, 64)], 1⟩
  | .prtPartBusy => ⟨18, dPkg, 0x80010, [(64, 64)], 0x80038, [(64, 64)], 2⟩
  | .prtEnded => ⟨18, dPkg, 0x80018, [(64, 64)], 0x80038, [(64, 64)], 3⟩
  | .prtResetRefused => ⟨18, dPkg, 0x80020, [(64, 64)], 0x80038, [(64, 64)], 4⟩
  | .irqAccepted => ⟨17, dPkg, 0x100, [], 0x130, [], 0⟩
  | .irqCoalesced => ⟨17, dPkg, 0x108, [], 0x130, [], 1⟩
  | .irqDropped => ⟨17, dPkg, 0x110, [], 0x130, [], 2⟩
  | .irqNotifySent => ⟨17, dPkg, 0x118, [], 0x130, [], 3⟩
  | .irqNotifyDrop => ⟨17, dPkg, 0x120, [], 0x130, [], 4⟩
  | .irqEoiUnder => ⟨17, dPkg, 0x128, [], 0x130, [], 5⟩
  | .mgtEthDrop => ⟨19, dPkg, 0x100, [], 0x160, [], 0⟩
  | .mgtPauseRx => ⟨19, dPkg, 0x108, [], 0x160, [], 1⟩
  | .mgtRecordsRx => ⟨19, dPkg, 0x110, [], 0x160, [], 2⟩
  | .mgtTagFail => ⟨19, dPkg, 0x118, [], 0x160, [], 3⟩
  | .mgtReplayDrop => ⟨19, dPkg, 0x120, [], 0x160, [], 4⟩
  | .mgtHsFail => ⟨19, dPkg, 0x128, [], 0x160, [], 5⟩
  | .mgtCmds => ⟨19, dPkg, 0x130, [], 0x160, [], 6⟩
  | .mgtMsgSent => ⟨19, dPkg, 0x138, [], 0x160, [], 7⟩
  | .mgtMsgRx => ⟨19, dPkg, 0x140, [], 0x160, [], 8⟩
  | .mgtMsgDup => ⟨19, dPkg, 0x148, [], 0x160, [], 9⟩
  | .mgtMsgLost => ⟨19, dPkg, 0x150, [], 0x160, [], 10⟩
  | .pwrCapSteps => ⟨20, dPkg, 0x400, [], 0x420, [], 0⟩
  | .pwrFloorRaises => ⟨20, dPkg, 0x408, [], 0x420, [], 1⟩
  | .pwrWarns => ⟨20, dPkg, 0x410, [], 0x420, [], 2⟩
  | .pwrPmbusErr => ⟨20, dPkg, 0x418, [], 0x420, [], 3⟩
  | .devTriFix => ⟨0, dPkg, 0x100, [], 0x130, [], 0⟩
  | .devAccErr => ⟨0, dPkg, 0x108, [], 0x130, [], 1⟩
  | .tshDelaySum => ⟨5, dPort, 0x80200, [(1024, 64), (8, 8)], 0x80038, [(1024, 64), (64, 8)], 7⟩

/-- The counters of each block. -/
def blockCnts : Nat → List Cnt
  | 0 => [.devTriFix, .devAccErr]
  | 2 => [.lnkFlitsTx, .lnkFlitsRx, .lnkCrcErr, .lnkReplay, .lnkFecCorr, .lnkFecUnc, .lnkRetrain, .lnkNarrow, .lnkFail, .lnkCredTmo, .lnkLaneSym0, .lnkLaneSym1, .lnkLaneSym2, .lnkLaneSym3]
  | 3 => [.gtxLineReq, .gtxBulkReq, .gtxRefused, .gtxReplayed, .gtxStale, .gtxReissued, .gtxGivenUp, .gtxNotLocal, .gtxRspDrop, .gtxBadSrc, .gtxUnsup, .gtxFwdDrop]
  | 4 => [.swcLeakZero, .swcLeakUnheld, .swcListBad, .swcCountBad, .swcCtTrunc, .swcShareWait, .swcAudits, .swcD2dXfer, .swcD2dErr, .swcD2dRetry]
  | 5 => [.tshSent, .tshPoliced, .tshDemoted, .tshGateSkip, .tshGateOverrun, .tshSamples, .tshDepthSum, .tshDelaySum]
  | 6 => [.cohLookups, .cohSnoops, .cohSnpResend, .cohSnpTmo, .cohBackInv, .cohRetry, .cohHeld, .cohRsvExpired, .cohStaleWb, .cohLinesLost]
  | 7 => [.memStall1, .memStall2, .memStall3, .memStall4, .memStall5, .memStall6, .memStall7, .memCe, .memUe, .memRetrain, .memOtherCopy, .memRepair]
  | 8 => [.flsReadBytes, .flsWriteBytes, .flsCe, .flsUe]
  | 9 => [.corResErr, .corEccCe, .corEccUe, .corCtxSw, .corNanToZero, .corOvf]
  | 10 => [.dspStall1, .dspStall2, .dspStall3, .dspStall4, .dspStall5, .dspStall6, .dspStall7, .dspStall8, .dspOverlap, .dspSetTmo, .dspBad, .dspNoExpert, .dspChecked, .dspMismatch, .dspSampleSkip, .dspGivenUp, .dspReportDrop]
  | 11 => [.wskOpsDone, .wskDiscarded, .wskAbandoned, .wskFailed, .wskBadOp, .wskStageWait, .wskItems]
  | 12 => [.tngOpsDone, .tngDiscarded, .tngAbandoned, .tngFailed, .tngBadOp, .tngStageWait, .tngItems]
  | 13 => [.cldOpsDone, .cldDiscarded, .cldAbandoned, .cldFailed, .cldBadOp, .cldStageWait, .cldItems]
  | 14 => [.cmpBlocks, .cmpOvfReads, .cmpCheckFail, .cmpRewrite, .cmpDataErr, .cmpJobs]
  | 15 => [.sftSearches, .sftInserts, .sftDeletes, .sftBad, .sftFailed, .sftTruncated, .sftCandDrop, .sftCompactWait]
  | 16 => [.secSigFail, .secGrantTagFail, .secChunkAuthFail, .secRevokes, .secQuotes, .secReleaseFail, .secPrvDrop]
  | 17 => [.irqAccepted, .irqCoalesced, .irqDropped, .irqNotifySent, .irqNotifyDrop, .irqEoiUnder]
  | 18 => [.prtResets, .prtDrainTmo, .prtPartBusy, .prtEnded, .prtResetRefused]
  | 19 => [.mgtEthDrop, .mgtPauseRx, .mgtRecordsRx, .mgtTagFail, .mgtReplayDrop, .mgtHsFail, .mgtCmds, .mgtMsgSent, .mgtMsgRx, .mgtMsgDup, .mgtMsgLost]
  | 20 => [.pwrCapSteps, .pwrFloorRaises, .pwrWarns, .pwrPmbusErr]
  | 21 => [.tstLaneBits, .tstLaneErr, .tstFlitTx, .tstFlitRx, .tstFlitErr]
  | _ => []

end Sys2Proof.Machine
end

