-- ==== Sys2Proof/Machine/State.lean ====
section
/-! DEFINITION. The state of the block as plain data, the reasons a step can stop, and the state
after reset. Every register lives in `Chip.regs` (a register not listed holds its reset value);
what is not a register has a structure of its own here. -/

namespace Sys2Proof.Machine

/-- No command of this block ends in a fault: every row of the table has an effect. The one
constructor is kept for a malformed queue entry and is raised by nothing (safe). -/
inductive Fault where
  | impossible
  deriving DecidableEq, Repr

/-- Why a step can be refused. -/
inductive Refusal where
  /-- The command has no meaning yet. Raised by an arm of `exec` only; safe. -/
  | notModelled (mnemonic : String)
  deriving DecidableEq, Repr

/-! ### Names shared by every chapter (R8) -/

/-- Device states in the order of R8; their code is the position. -/
inductive DevState where
  | off | reset | romboot | load | verify | bringup | waitOwner | service | degraded
  | recovery | test | dead
  deriving DecidableEq, Repr, Inhabited

inductive PartState where
  | free | building | active | draining | resetting
  deriving DecidableEq, Repr, Inhabited

inductive LinkState where
  | down | train | active | narrow | retrain | failed | test
  deriving DecidableEq, Repr, Inhabited

inductive CoreState where
  | enabled | suspect | fenced | spare
  deriving DecidableEq, Repr, Inhabited

/-! ### Pins, boot, steward, management complexes, dump (chapters 15-18) -/

/-- Pins and the power-up sequence (R567-R570). -/
structure Pins where
  powered : Bool := false
  powerOk : Bool := false
  resetN : Bool := false
  /-- POWER_OK has been high for 2 ms and the oscillator stable for 1 ms (R567). -/
  holdDone : Bool := false
  /-- A reset request acts as a RESET_N low pulse whose rising edge is still to come (R500). -/
  pulse : Bool := false
  crystal : Bool := false
  faultN : Bool := false
  /-- CR_EN of rails 0-11 driven high, low, or high-impedance. -/
  crDriven : Bool := false
  spiRstN : Bool := false
  deriving DecidableEq, Repr, Inhabited

/-- What the verified image leaves behind (R491-R496). -/
structure Image where
  ownerCert : Bytes := []
  devSigned : Bytes := []
  /-- SIG_EC, SIGLEN and SIG_LMS of the DEVICE section, as HELLO bodies need them. -/
  devSig : Bytes := []
  serial : Nat := 0
  digest : Bytes := []
  root : Nat := 0
  prodFence : List Nat := []
  ownerFence : List Nat := []
  regWrites : List RegEntry := []
  net : Bytes := []
  deriving DecidableEq, Repr, Inhabited

structure Boot where
  state : DevState := .off
  target : Nat := 0
  imageInForce : Nat := 0
  mcB : Bool := false
  listFail : Bool := false
  testAllow : Bool := false
  ethUp : Bool := false
  healthD2d : Bool := false
  healthFence : Bool := false
  healthFlash : Bool := false
  healthDram15 : Bool := false
  deadCause : Nat := 0
  priCause : Nat := 0
  altCause : Nat := 0
  spiMode : Nat := 0
  density : Nat := 0
  listApplied : Nat := 0
  listFailIdx : Nat := 0xFFFF
  /-- BOOT_TIMEs: tick of the last entry to state s (R512). -/
  times : KMap Nat := []
  /-- Enrolment window (R499, R513). -/
  enrol : Bytes := []
  /-- Image bytes in the boot buffer, and whether they are the alternate image's. -/
  buffer : Bytes := []
  alternate : Bool := false
  image : Image := {}
  /-- The step of R501 in progress within BRINGUP, and the jobs of R502 not yet ended. -/
  step : Nat := 0
  workLeft : List Nat := []
  calibFail : List Nat := []
  /-- 1 MHz management slow clock since ROMBOOT, and whether it runs. -/
  tick : Nat := 0
  running : Bool := false
  /-- A DEV_RESET response was sent at this tick (R525). -/
  devResetAt : Option Nat := none
  dramPs : Nat := 0
  deriving DecidableEq, Repr, Inhabited

/-- Management complexes (R529) and the steward (R552, R553). -/
structure Mcs where
  activeB : Bool := false
  standbyOk : Bool := false
  lastBeat : Nat := 0
  failedA : Bool := false
  failedB : Bool := false
  /-- The steward's own view. -/
  pulseA : Nat := 0
  pulseB : Nat := 0
  lostA : Bool := false
  lostB : Bool := false
  /-- Tick at which the steward's sequence started. -/
  stewardAt : Option Nat := none
  deriving DecidableEq, Repr, Inhabited

/-- Fatal dump and RECOVERY (R537-R540, R551). -/
structure Dump where
  valid : Bool := false
  writing : Bool := false
  released : Bool := false
  kind : Nat := 0
  len : Nat := 0
  /-- First 64 KiB, MGT_DUMP_WIN. -/
  win : Bytes := []
  cause : Nat := 0
  fromState : DevState := .off
  at_ : Nat := 0
  /-- 0 none, 2 draining, 4 writing, 5 done (steps of R551). -/
  step : Nat := 0
  deriving DecidableEq, Repr, Inhabited

/-! ### Registers and counters (chapter 19) -/

/-- Bits in which each of the three stored copies of a TRI register differs from the majority. -/
structure Copies where
  a : Word := 0
  b : Word := 0
  c : Word := 0
  deriving DecidableEq, Repr, Inhabited

structure Ctl where
  /-- Register words by control-space address; unlisted: the reset value. -/
  regs : KMap Word := []
  /-- Staging copies of multi-word entries (R598). -/
  stage : KMap Word := []
  /-- How the three stored copies of a TRI register differ from their bitwise majority (R595). -/
  tri : KMap Copies := []
  /-- 64-bit counters by _LO address. -/
  cnt : KMap Nat := []
  /-- SAT bits by address of the SAT register. -/
  sat : KMap Word := []
  /-- _LO latch: key master * 16 + die; the counter's address and its upper half (R599). -/
  latch : KMap (Nat × Nat) := []
  /-- DEV_SHD_HOLD was set at this tick. -/
  holdAt : Option Nat := none
  /-- Bus response of the last access: status code and value. -/
  lastStatus : Nat := 0
  lastValue : Word := 0
  /-- Last SMBus block and last JTAG capture. -/
  smbus : Bytes := []
  jtag : Word := 0
  /-- Counters whose saturation has raised an event that is not yet latched (R13). -/
  satEv : List Nat := []
  /-- Register writes held until their block allows them: (address, value). -/
  held : List (Nat × Word) := []
  deriving DecidableEq, Repr, Inhabited

/-! ### Cores (chapter 2) -/

structure CoreSt where
  st : CoreState := .spare
  fenceCause : Nat := 0
  illegalWr : Bool := false
  scrubbing : Bool := false
  /-- A charge under SUSP_POLICY RAISE has already raised its die's floor (R110). -/
  raised : Bool := false
  fillValid : BitVec 8 := 0
  /-- Core-store word addresses that met an uncorrectable ECC error (R64). -/
  eccWords : List Nat := []
  deriving DecidableEq, Repr, Inhabited

/-- Values that a leaf sent up the combining tree for one output position and that are not yet combined. -/
structure SendRec where
  pos : Nat := 0
  /-- Rank of the node at which the combination ends. -/
  rank : Nat := 1
  words : List Nat := []
  deriving DecidableEq, Repr, Inhabited

/-- What a context waits for (R35). -/
inductive CtxWait where
  | ready
  /-- A slot whose fill-valid bit is clear. -/
  | slot (s : Nat)
  /-- The answer to the request `req` of a remote read: `len` of its bytes from `skip` on go to a
  core-store offset. -/
  | remote (req dst skip len : Nat)
  /-- Credit towards the run's collective engine (R19, R35). -/
  | credit
  /-- STEP_BOUND steps have been issued and the code asks for another (R97). -/
  | bound
  /-- The code has ended. -/
  | ended
  deriving DecidableEq, Repr, Inhabited

/-- Where a column's reduction stands (R51-R53): tile slot and row group of its last group, the group of them
that is next, and whether the last group was short, so that no group follows it. -/
structure Reduction where
  slot : Nat := 0
  rg : Nat := 0
  next : Nat := 0
  isLast : Bool := false
  deriving DecidableEq, Repr, Inhabited

/-- One hardware context of a core while a run holds it (R31, R34): its accumulator bank, stationary-operand
registers and OVF flag, and where its code stands. -/
structure CtxSt where
  /-- The launch, or the launch of the check, that runs here, and the leaf's logical index. -/
  run : Nat := 0
  leaf : Nat := 0
  pc : Nat := 0
  /-- Accumulators (FP32 or INT32), number row * 16 + column; unlisted 0. -/
  acc : KMap Nat := []
  /-- The reduction of each column of the accumulators since they were last cleared. -/
  red : KMap Reduction := []
  /-- The 512 bytes of stationary-operand registers; unlisted 0. -/
  stat : KMap Byte := []
  ovf : Bool := false
  /-- Steps issued (R97). -/
  steps : Nat := 0
  wait : CtxWait := .ready
  /-- It has waited, or has not issued, since the array last issued from it (R36). -/
  waited : Bool := true
  /-- Output below this position is complete as far as this leaf goes. -/
  synced : Nat := 0
  sends : List SendRec := []
  /-- What the leaf sent into the combining tree, and the output bytes it wrote itself, in order (R106). -/
  sentVals : Bytes := []
  wrote : Bytes := []
  deriving DecidableEq, Repr, Inhabited

structure Cores where
  core : KMap CoreSt := []
  /-- Contexts that a run holds, key core * 4 + context. -/
  ctx : KMap CtxSt := []
  /-- The context whose steps the core's array issues, or issued last (R36). -/
  issuing : KMap Nat := []
  /-- The kernel image that a core's instruction cache holds, at most 16 KiB (R31). -/
  icache : KMap Bytes := []
  /-- Silent disturbances still to come. -/
  silent : List SilentErr := []
  /-- Core-store bytes, key core * 2^19 + byte; unlisted 0. -/
  store : KMap Byte := []
  /-- Scalar registers, key (core * 4 + context) * 32 + register; unlisted 0 (R31, R90). -/
  scalar : KMap (BitVec 64) := []
  /-- Fenced cores whose substitution waits, (core, bowl, child) (R42). -/
  subst : List (Nat × Nat × Nat) := []
  /-- Held bowl-table writes: bowl, its nine words (R66). -/
  bowlHeld : List (Nat × List Word) := []
  deriving DecidableEq, Repr, Inhabited

/-! ### Fabric requests in progress (chapters 8, 10, 12) -/

/-- Which operation a device-issued request belongs to. -/
inductive Owner where
  | engRead (op idx : Nat)
  | engWrite (op : Nat)
  | engFlag (op : Nat)
  | sftWrite (op : Nat)
  | sftFlag (op : Nat)
  | mTarget (mid idx : Nat)
  | notify (part vec : Nat)
  | report (part : Nat)
  | ring (part : Nat)
  | job (die : Nat)
  /-- The remote read that a context (key core * 4 + context) waits for, by its own number. -/
  | kernel (key req : Nat)
  /-- The home's access to a writable index object, for a run of a sifter operation. -/
  | sftMem (op run : Nat)
  /-- The home's read of a tile of a writable object, for a fill's core. -/
  | fill (id core tile : Nat)
  /-- The read of the kernel image for a launch, or for its check. -/
  | image (launch : Nat) (check : Bool)
  deriving DecidableEq, Repr, Inhabited

/-- Who is to be answered. -/
inductive Origin where
  /-- Arrived on a fabric port; `log` names the stream and slot of a logged request. -/
  | port (p : Nat) (log : Option (Nat × Nat))
  /-- Issued inside the module. -/
  | dev (o : Owner)
  deriving DecidableEq, Repr, Inhabited

/-- An admitted request being performed: the pool lines it still has to touch. -/
structure Pend where
  id : Nat := 0
  req : Req := {}
  origin : Origin := .port 0 none
  part : Nat := 0
  obj : Nat := 0
  region : Nat := 0
  /-- Object offset of the first byte. -/
  off : Nat := 0
  /-- Pool lines (copy A) still to do, and their object line numbers. -/
  lines : List (Nat × Nat) := []
  lost : Bool := false
  dataErr : Bool := false
  out : Bytes := []
  oldEpoch : Bool := false
  cells : List Nat := []
  /-- Link credits still held: arrival port, channel, flits (R84, R350). -/
  cred : Option (Nat × Nat × Nat) := none
  /-- Tier-stall causes already counted for the access (R212). -/
  causes : List Nat := []
  /-- Targets of an MSTORE as its group entry named them at admission (R309): BASE, HANDLE, EPOCH, KIND. -/
  group : List (Nat × Nat × Nat × Nat) := []
  /-- Payload bytes that have arrived, of a message handed over under cut-through whose tail is still to come (R353). -/
  got : Option Nat := none
  deriving DecidableEq, Repr, Inhabited

/-- A duplicate that waits for the entry of its original (R295): its port, its cells there and link credits, and, while
its own bytes still arrive, how many have. -/
structure Dup where
  id : Nat := 0
  port : Nat := 0
  req : Req := {}
  cells : List Nat := []
  cred : Option (Nat × Nat × Nat) := none
  got : Option Nat := none
  deriving DecidableEq, Repr, Inhabited

/-- One entry of a completion log (R294). -/
structure LogEnt where
  seq : Nat := 0
  done : Bool := false
  rsp : Rsp := {}
  /-- Duplicates that wait. -/
  waiters : List Dup := []
  deriving DecidableEq, Repr, Inhabited

structure Stream where
  h : Option Nat := none
  log : KMap LogEnt := []
  held : Option Word := none
  deriving DecidableEq, Repr, Inhabited

/-- A request the device issued towards an endpoint and that is not yet answered (R301). -/
structure DevReq where
  id : Nat := 0
  part : Nat := 0
  dst : Nat := 0
  req : Req := {}
  owner : Owner := .engWrite 0
  port : Option Nat := none
  issued : Nat := 0
  reissues : Nat := 0
  logged : Bool := false
  /-- Tier-stall causes already counted for the access (R212): it waits until its object is loaded (R146). -/
  causes : List Nat := []
  /-- Cells that a target of an MSTORE holds one reference to until a queue entry takes it over (R356, R357). -/
  cells : List Nat := []
  /-- It is to be sent again, and waits for cells in its partition's share (R350, R351). -/
  unsent : Bool := false
  deriving DecidableEq, Repr, Inhabited

/-- The answer to a device-issued request: its status (none: given up, R302) and data. -/
structure Ans where
  status : Option Nat := none
  info : Nat := 0
  tgt : Bool := false
  data : Bytes := []
  deriving DecidableEq, Repr, Inhabited

/-- A device-issued request to a LOCAL node still to be performed, or an answer still to be
reported to the block that issued the request. -/
structure LocalJob where
  req : DevReq := {}
  ans : Option Ans := none
  deriving DecidableEq, Repr, Inhabited

/-- An MSTORE whose targets are in progress (R285). -/
structure MStore where
  id : Nat := 0
  req : Req := {}
  origin : Origin := .port 0 none
  part : Nat := 0
  left : List Nat := []
  /-- (target, status, cause). -/
  failed : List (Nat × Nat × Nat) := []
  /-- Link credits kept while a trigger target of this module is not marked, and those targets (R84). -/
  cred : Option (Nat × Nat × Nat) := none
  trig : List Nat := []
  deriving DecidableEq, Repr, Inhabited

/-- A request waiting for its partition's share (R350). -/
structure ShareWait where
  die : Nat := 0
  pend : Pend := {}
  deriving DecidableEq, Repr, Inhabited

/-- A part of a TSTORE on its way to one die's scoreboard, or held at egress for it (R84). -/
structure HeldStore where
  die : Nat := 0
  query : Bool := false
  win : Nat := 0
  slot : Nat := 0
  off : Nat := 0
  bytes : Bytes := []
  pend : Nat := 0
  part : Nat := 0
  /-- Its offset within the store's payload. -/
  lo : Nat := 0
  /-- Port die that holds its cells, and the bowls on whose replication queues it has pointers (R19, R357), once
  those queues and REF have taken them (R358). -/
  src : Nat := 8
  bowls : List Nat := []
  queued : Bool := false
  deriving DecidableEq, Repr, Inhabited

/-- A trigger store whose parts are not yet all marked (R292), and whether it still holds the ingress's reference to
its cells (R356). -/
structure TStore where
  id : Nat := 0
  pend : Pend := {}
  ingress : Bool := true
  deriving DecidableEq, Repr, Inhabited

/-- News of a message handed over under cut-through (R353, R355): its payload bytes so far, the flits that brought
its tail, if it is whole, or that its arrival port has gone. -/
structure CutMsg where
  id : Nat := 0
  port : Nat := 0
  vc : Nat := 0
  bytes : Bytes := []
  whole : Option Nat := none
  gone : Bool := false
  deriving DecidableEq, Repr, Inhabited

structure Gtx where
  streams : KMap Stream := []
  devReqs : List DevReq := []
  devHeld : List DevReq := []
  /-- Requests to LOCAL nodes and answers that the same step still has to deal with. -/
  localQ : List LocalJob := []
  /-- Next TAG, key part * 4096 + dst (R301). -/
  nextTag : KMap Nat := []
  mstores : List MStore := []
  tstores : List TStore := []
  shareWait : List ShareWait := []
  held : List HeldStore := []
  pends : List Pend := []
  nextId : Nat := 1
  /-- News of messages handed over under cut-through that the same step still has to deal with. -/
  cuts : List CutMsg := []
  deriving DecidableEq, Repr, Inhabited

/-! ### Coherent home (chapter 12) -/

structure LineEnt where
  /-- 1 SHARED, 2 EXCL, 3 LOST (R400). -/
  st : Nat := 1
  sharers : BitVec 64 := 0
  way : Nat := 0
  seq : Nat := 0
  deriving DecidableEq, Repr, Inhabited

/-- A waiter of a line: a held or bulk request (its Pend id), or a reservation. -/
inductive Waiter where
  | pend (id : Nat)
  | rsv (src token : Nat)
  deriving DecidableEq, Repr, Inhabited

/-- What a BUSY line is waiting for. -/
structure LineTxn where
  /-- Pend being performed; 0 for a sweep or a back-invalidation. -/
  pend : Nat := 0
  snoops : List Nat := []
  /-- The pool line that waits on this one (back-invalidation for a new entry, R409). -/
  forLine : Option Nat := none
  kept : Bool := false
  /-- The transaction has ended; waiters take the line at LINE_TRANSACTION_END. -/
  ended : Bool := false
  /-- The request holds the line while it waits for the rebuild cursor, MEM_CTRL.ENABLE, a way of the set or a
  snoop index (R218, R224, R409, R416), and whether its snoops are answered already. -/
  stalled : Bool := false
  snooped : Bool := false
  deriving DecidableEq, Repr, Inhabited

structure LineQ where
  txn : Option LineTxn := none
  waiters : List Waiter := []
  /-- The line is reserved for the head reservation since this tick. -/
  reservedAt : Option Nat := none
  deriving DecidableEq, Repr, Inhabited

structure Snoop where
  tag : Nat := 0
  node : Nat := 0
  slot : Nat := 0
  line : Nat := 0
  addr : Nat := 0
  src : Nat := 0
  inv : Bool := true
  first : Nat := 0
  last : Nat := 0
  port : Nat := 0
  /-- Partition of the line, in whose requester queue it travels (R467). -/
  part : Nat := 0
  gotData : Bool := false
  /-- A returned line is written to memory (no: an object-level LOST discards it). -/
  keepData : Bool := true
  deriving DecidableEq, Repr, Inhabited

structure Rsv where
  slice : Nat := 0
  entry : Nat := 0
  gen : Nat := 1
  src : Nat := 0
  line : Nat := 0
  deriving DecidableEq, Repr, Inhabited

/-- Result registers of a probe (R421). -/
structure Probe where
  valid : Bool := false
  busy : Bool := false
  st : Nat := 0
  way : Nat := 0
  bank : Nat := 0
  set_ : Nat := 0
  sharers : BitVec 64 := 0
  deriving DecidableEq, Repr, Inhabited

structure Coh where
  /-- Snoop-filter entries by pool line number of copy A. -/
  ents : KMap LineEnt := []
  queues : KMap LineQ := []
  snoops : List Snoop := []
  rsvs : List Rsv := []
  /-- Generation last used, key slice * 4096 + entry. -/
  gens : KMap Nat := []
  /-- Nodes whose sweep runs (R411), and held COH_SHARER writes (slot, value). -/
  sweeps : List Nat := []
  lostNodes : List Nat := []
  heldWr : List (Nat × Word) := []
  /-- Partitions whose sweep runs, with the snoops it still waits for (R415). -/
  partSweeps : List (Nat × List Nat) := []
  /-- Snoops of lost objects that wait for a snoop index: slice, node's slot, line, object, offset (R416). -/
  late : List (Nat × Nat × Nat × Nat × Nat) := []
  seq : Nat := 0
  lostSeq : Nat := 0
  /-- Probe results of each die (R421). -/
  probes : KMap Probe := []
  deriving DecidableEq, Repr, Inhabited

/-! ### Shared buffer, die-to-die links (chapter 10) -/

structure Cell where
  free : Bool := true
  mark : Bool := false
  epoch : Bool := false
  /-- REF (R356). -/
  ref : BitVec 12 := 0
  account : Nat := 0
  deriving DecidableEq, Repr, Inhabited

/-- One direction of a die-to-die link (R364): the sequence number of its next transfer, that of the next one its
receiver takes, and the transfers not yet acknowledged: number, die they go to, hash. -/
structure D2dTx where
  seq : Nat := 0
  taken : Nat := 0
  out : List (Nat × Nat × Nat) := []
  deriving DecidableEq, Repr, Inhabited

structure Switch where
  /-- Cells, key die * 2^18 + index; die counts from 8. -/
  cells : KMap Cell := []
  epoch : KMap Bool := []
  /-- 0 idle, 1 mark, 2 sweep, by die. -/
  skim : KMap Nat := []
  auditAt : KMap Nat := []
  /-- DOWN links, key die * 16 + link. -/
  d2dDown : List Nat := []
  retries : KMap Nat := []
  /-- Transfers by link, key die * 16 + link (R364). -/
  d2dTx : KMap D2dTx := []
  /-- Weighted-deficit state of each arbiter child (R367). -/
  deficit : KMap Nat := []
  lastChild : KMap Nat := []
  deriving DecidableEq, Repr, Inhabited

/-! ### Fabric ports (chapters 9, 11) -/

/-- A message waiting at an egress port: its packed bytes, class, virtual channel and cells. -/
structure EMsg where
  vc : Nat := 0
  tc : Nat := 0
  bytes : Bytes := []
  payload : Nat := 0
  cells : List Nat := []
  /-- Cells of the port's die that hold the payload once it has crossed from another die (R347). -/
  xcells : List Nat := []
  since : Nat := 0
  /-- Device-issued request carried, for R302. -/
  dev : Option Nat := none
  /-- Destination node and its hash, to move it to the other port (R332). -/
  dst : Nat := 0
  hash : Nat := 0
  /-- Leaf of the egress tree that sent it: die * 256 + leaf (R365); of a snoop, its partition (R467). -/
  leaf : Nat := 0
  /-- Link credits a forwarded message returns when its cells are freed: port, channel, flits. -/
  cred : Option (Nat × Nat × Nat) := none
  /-- Die it comes from when it holds no cells, and the account of the port's die that takes the cells of a payload
  which comes from a home (R347, R348). -/
  home : Option Nat := none
  acct : Option Nat := none
  deriving DecidableEq, Repr, Inhabited

structure KFlit where
  seq : Nat := 0
  dvc : Nat := 0
  payload : Bytes := []
  /-- PCS time at which it was last put on the wire or its replay began (R326). -/
  sentAt : Nat := 0
  deriving DecidableEq, Repr, Inhabited

/-- A CTRL request of ours that is unanswered (R322). -/
structure OwnReq where
  ctype : Nat := 3
  lanes : Nat := 0
  width : Nat := 0
  reqId : Nat := 0
  cause : Nat := 0
  deriving DecidableEq, Repr, Inhabited

/-- A decoded message that DATA_FLIT delivered and whose own step is still to come. -/
inductive InMsg where
  /-- A request, its cells on the port account, and the flits whose credit it holds. -/
  | req (vc : Nat) (r : Req) (cells : List Nat) (flits : Nat)
  | rsp (r : Rsp) (cells : List Nat := []) (flits : Nat := 0)
  | snp (r : SnpRsp) (cells : List Nat := []) (flits : Nat := 0)
  /-- A request handed over under cut-through, of whose payload the first `got` bytes have arrived (R353). -/
  | cut (vc : Nat) (r : Req) (cells : List Nat) (got : Nat)
  deriving DecidableEq, Repr, Inhabited

/-- What becomes of the message that arrives on a channel. -/
inductive RxMode where
  /-- It is stored and handed over whole. -/
  | whole
  /-- It has been handed over and waits for its own step. -/
  | handed
  /-- Its bytes go to the request with this number, or, once that has ended, nowhere. -/
  | fed (id : Nat)
  deriving DecidableEq, Repr, Inhabited

/-- A bank's progress (R380). -/
structure Gate where
  bank : Nat := 0
  entry : Nat := 0
  start : Nat := 0
  switch : Bool := false
  deriving DecidableEq, Repr, Inhabited

structure Port where
  st : LinkState := .down
  lanes : Nat := 0
  width : Nat := 0
  /-- Width of the last full training; credits and buffers follow it. -/
  fullWidth : Nat := 0
  cause : Nat := 0
  peerRank : Nat := 0
  peerEnc : Bool := false
  /-- Since ROMBOOT tick and PCS stamp at which the present state was entered. -/
  enterTick : Nat := 0
  enterPcs : Nat := 0
  /-- PCS clock of the port, advanced by FLIT_SEND. -/
  pcs : Nat := 0
  locked : Nat := 0
  recSeen : Bool := false
  acked : Bool := false
  /-- Lanes the peer's last training record offered. -/
  peerLanes : Nat := 0
  /-- After a retrain: the kept flits are resent at the peer's first ACK (R327). -/
  resumeAck : Bool := false
  keepLanes : Nat := 0xF
  upOnce : Bool := false
  txSeq : Nat := 0
  expected : Nat := 0
  lastGood : Nat := 0xFFF
  nakPending : Bool := false
  sendNak : Bool := false
  kept : List KFlit := []
  resend : List Nat := []
  replaysRow : Nat := 0
  winFlits : Nat := 0
  winReplays : Nat := 0
  winUnc : Nat := 0
  hitReplay : Bool := false
  hitUnc : Bool := false
  laneSyms : List Nat := [0, 0, 0, 0]
  granted : List Nat := [0, 0, 0, 0]
  consumed : List Nat := [0, 0, 0, 0]
  freed : List Nat := [0, 0, 0, 0]
  extra : List Nat := [0, 0, 0, 0]
  credSince : List Nat := [0, 0, 0, 0]
  rxCount : List Nat := [0, 0, 0, 0]
  /-- Flits received on each channel since its last message ended. -/
  rxFlits : List Nat := [0, 0, 0, 0]
  cvc : Nat := 0
  own : Option OwnReq := none
  withdrawn : Option OwnReq := none
  nextReqId : Nat := 1
  lastCtrl : Nat := 0
  queue : List EMsg := []
  /-- Message in progress per channel: the bytes still to send. -/
  cur : List Bytes := [[], [], [], []]
  curMsg : List (Option EMsg) := [none, none, none, none]
  rx : List Bytes := [[], [], [], []]
  inbox : List InMsg := []
  /-- Last flit put on the wires, and the last CTRL flits sent: type and body. -/
  lastTx : Bytes := []
  ctrlTx : List (Nat × CtrlBody) := []
  rxCells : List (List Nat) := [[], [], [], []]
  /-- How the message that arrives on a channel is handed over, as set when its first cell was written (R353, R368). -/
  rxMode : List RxMode := [.whole, .whole, .whole, .whole]
  /-- Payload of a channel's flits that waits for cells of the port's account (R351). -/
  rxWait : List (List Bytes) := [[], [], [], []]
  /-- Shaping: virtual time, finish tags, last start tag, gates, policer tokens (flits * 65536). -/
  vtime : Nat := 0
  ftag : List Nat := [0, 0, 0, 0, 0, 0, 0, 0]
  stag : List Nat := [0, 0, 0, 0, 0, 0, 0, 0]
  headTag : List Bool := [false, false, false, false, false, false, false, false]
  /-- Weight of each class as its head was tagged (R379). -/
  headW : List Nat := [1, 1, 1, 1, 1, 1, 1, 1]
  lastF : Nat := 0
  gate : Gate := {}
  tokens : KMap Nat := []
  tokAt : KMap Nat := []
  sampAt : Nat := 0
  lastDepth : List Nat := [0, 0, 0, 0, 0, 0, 0, 0]
  lastDelay : List Nat := [0, 0, 0, 0, 0, 0, 0, 0]
  maxDepth : List Nat := [0, 0, 0, 0, 0, 0, 0, 0]
  maxDelay : List Nat := [0, 0, 0, 0, 0, 0, 0, 0]
  /-- Link keys in use (tx, rx), held for the next link-up or the present training (R442), and given while that training
  runs, for the link-up after it (R453). -/
  keys : Option (Bytes × Bytes) := none
  nextKeys : Option (Bytes × Bytes) := none
  laterKeys : Option (Bytes × Bytes) := none
  txCount : Nat := 0
  rxTotal : Nat := 0
  /-- PRBS31 state of the flit generator and checker (R334). -/
  prbsTx : Nat := 0x7FFFFFFF
  prbsRx : Nat := 0x7FFFFFFF
  deriving DecidableEq, Repr, Inhabited

structure Links where
  ports : KMap Port := []
  /-- Lanes whose pattern checker is locked, key die * 128 + lane. -/
  laneLocked : List Nat := []
  deriving DecidableEq, Repr, Inhabited

/-! ### Scoreboards and dispatch (chapter 3) -/

/-- One die's copy of a set slot, or a query slot (die 12). -/
structure SetCopy where
  /-- 0 IDLE, 1 OPEN, 2 CLOSED. -/
  phase : Nat := 0
  openTick : Nat := 0
  /-- Bytes present. -/
  bytes : KMap Byte := []
  cells : List Nat := []
  closeSeq : Nat := 0
  deriving DecidableEq, Repr, Inhabited

/-- A kernel launch, from its set's close to its end. -/
structure Launch where
  id : Nat := 0
  die : Nat := 0
  part : Nat := 0
  win : Nat := 0
  slot : Nat := 0
  /-- Binding that named the kernel, for service records. -/
  bind : Option Nat := none
  src : Nat := 0
  gate : Nat := 0
  routed : Bool := false
  /-- Engine operation it feeds, once known. -/
  op : Option Nat := none
  descIdx : Nat := 0
  desc : List Word := []
  stepTag : Nat := 0
  result : Nat := 0
  operands : Bytes := []
  cells : List Nat := []
  closeSeq : Nat := 0
  closeTick : Nat := 0
  /-- 0 waits, 1 runs, 2 failed and still running to its end, 3 its last segment is accepted: nothing
  can fail the run any more (R155). -/
  phase : Nat := 0
  ctx : Nat := 0
  reruns : Nat := 0
  /-- Its kernel image is being read. -/
  imageReq : Bool := false
  /-- Tick since which it waits on an unavailable bowl (R114). -/
  bowlWait : Option Nat := none
  /-- Stall causes already counted for it. -/
  causes : List Nat := []
  stream : Bool := false
  /-- Output bytes accepted so far, and, of a launch chosen for a check, the bytes themselves. -/
  sentBytes : Nat := 0
  output : Bytes := []
  selected : Bool := false
  deriving DecidableEq, Repr, Inhabited

/-- A check of sampled recomputation (R106-R108). -/
structure Check where
  launch : Nat := 0
  part : Nat := 0
  descIdx : Nat := 0
  desc : List Word := []
  stepTag : Nat := 0
  result : Nat := 0
  die : Nat := 0
  bowl0 : Nat := 0
  out0 : Bytes := []
  crc0 : List Nat := []
  node0 : List Nat := []
  /-- 0 waits for a check bowl, 1 check run, 2 waits for a tie-break bowl, 3 tie-break run. -/
  phase : Nat := 0
  bowl1 : Nat := 0
  ctx1 : Nat := 0
  out1 : Bytes := []
  crc1 : List Nat := []
  node1 : List Nat := []
  bowl2 : Nat := 0
  ctx2 : Nat := 0
  endTick : Nat := 0
  operands : Bytes := []
  cells : List Nat := []
  /-- The kernel image of its next run is being read. -/
  imageReq : Bool := false
  deriving DecidableEq, Repr, Inhabited

/-- A kernel run in progress, of a launch or of its check, by the launch's number. -/
structure Run where
  desc : List Word := []
  bowl : Nat := 0
  ctx : Nat := 0
  part : Nat := 0
  image : Bytes := []
  /-- Handles of the partition's regions and their epochs at the run's start (R435). -/
  epochs : List (Nat × Nat) := []
  /-- Output bytes written so far, by position; a position not listed has not been written (R131). -/
  outs : KMap Byte := []
  /-- What each node sent up (R106), key rank * 65536 + position in the rank. -/
  nodeSent : KMap Bytes := []
  deriving DecidableEq, Repr, Inhabited

/-- One tile that a fill still has to bring to one core's slot. -/
structure Deliver where
  tile : Nat := 0
  core : Nat := 0
  slot : Nat := 0
  deriving DecidableEq, Repr, Inhabited

/-- A residency record: slots `first .. first+count-1` of a bowl hold `obj` (R98). -/
structure Resid where
  bowl : Nat := 0
  first : Nat := 0
  count : Nat := 0
  obj : Nat := 0
  deriving DecidableEq, Repr, Inhabited

/-- A block that failed its check and is fetched again from flash on behalf of one core's tile (R182). -/
structure Refetch where
  core : Nat := 0
  tile : Nat := 0
  block : Nat := 0
  /-- Bytes of the tile's blocks before it. -/
  before : Bytes := []
  /-- The block itself, once it has come. -/
  data : Option Bytes := none
  deriving DecidableEq, Repr, Inhabited

/-- What a broadcast descriptor has read of its object (R209): `tag` is 0 for the header and the tables, t + 1
for bytes of tile t; no data where the read failed. -/
structure Got where
  tag : Nat := 0
  off : Nat := 0
  len : Nat := 0
  data : Option Bytes := none
  deriving DecidableEq, Repr, Inhabited

/-- A fill, stream or refill in progress, one per target bowl list. -/
structure Fill where
  id : Nat := 0
  obj : Nat := 0
  part : Nat := 0
  /-- Target bowls and first slots, and how many slots from there it takes. -/
  targets : List (Nat × Nat) := []
  count : Nat := 1
  /-- Tiles still to deliver, each to its core, ascending; empty while their number is not known. -/
  todo : List Deliver := []
  /-- 0 miss, 1 placement, 2 refill after a substitution, 3 stream. -/
  kind : Nat := 0
  whole : Bool := false
  /-- Core of a refill, and that it brings an object of no aborted run: it follows those that do (R113). -/
  core : Option Nat := none
  cold : Bool := false
  /-- The launch whose run it feeds, or the launch of the check. -/
  launch : Option Nat := none
  cmd : Option (Nat × Nat) := none
  /-- Waits for a running kernel's slots (FILL_BLOCKED), for a load (FLASH_LOAD), or, on the dies named, for
  the held write that turns their ricers off (R184). -/
  blocked : Bool := false
  onLoad : Bool := false
  waitEn : List Nat := []
  /-- Refetches in progress or just ended, and the (ricer, block) pairs that have had theirs. -/
  refetch : List Refetch := []
  refetched : List (Nat × Nat) := []
  /-- Tiles of a writable object that the home is reading (R402). -/
  reading : List Deliver := []
  /-- Bytes that a broadcast descriptor has read and still has targets for (R209). -/
  got : List Got := []
  /-- Bowls of an OBJ_FILL that later descriptors take, in order (R209). -/
  later : List (List (Nat × Nat)) := []
  deriving DecidableEq, Repr, Inhabited

/-- A service record's running counts (R102). -/
structure Service where
  part : Nat := 0
  launches : Nat := 0
  missFill : Nat := 0
  streamed : Nat := 0
  svcSum : Nat := 0
  svcMax : Nat := 0
  waitMax : Nat := 0
  reruns : Nat := 0
  lastCause : Nat := 0
  die : Nat := 0
  deriving DecidableEq, Repr, Inhabited

structure Dispatch where
  /-- Set copies, key (window * 64 + slot) * 16 + die. -/
  sets : KMap SetCopy := []
  launches : List Launch := []
  checks : List Check := []
  resid : List Resid := []
  fills : List Fill := []
  runs : KMap Run := []
  /-- The fill that each core tile's ricer (die * 49 + tile) served last (R100). -/
  ricerTurn : KMap Nat := []
  service : KMap Service := []
  periodSeq : KMap Nat := []
  /-- Tick at which a partition's present service period began (R102). -/
  periodAt : KMap Nat := []
  lfsr : KMap Nat := []
  suspSeq : Nat := 0
  closeSeq : Nat := 0
  nextId : Nat := 1
  deriving DecidableEq, Repr, Inhabited

/-! ### Collective engines (chapter 4) -/

/-- The operation block (R132) in decoded form. -/
structure OpBlk where
  ver : Nat := 1
  op : Nat := 0
  flags : Nat := 0
  fmt : Nat := 0
  src : Nat := 0
  sources : Nat := 1
  combineId : Nat := 0
  gate : Nat := 0
  stepTag : Nat := 0
  dst : Nat := 0
  flagAddr : Nat := 0
  count : Nat := 0
  size : Nat := 0
  handle : Nat := 0
  aux : Nat := 0
  limit : Nat := 0
  tableOff : Nat := 0
  constA : Nat := 0
  constB : Nat := 0
  deriving DecidableEq, Repr, Inhabited

structure Contrib where
  src : Nat := 0
  gate : Nat := 0
  launch : Nat := 0
  count : Nat := 0
  data : Bytes := []
  segs : Nat := 0
  committed : Bool := false
  deriving DecidableEq, Repr, Inhabited

structure EngOp where
  id : Nat := 0
  /-- 0 whisk, 1 tongs, 2 colander. -/
  kind : Nat := 0
  engine : Nat := 0
  part : Nat := 0
  routed : Bool := false
  /-- Declared sources (record positions of a ROUTED step). -/
  declared : List Nat := []
  blk : OpBlk := {}
  /-- Window of a ROUTED step. -/
  win : Nat := 0
  /-- 0 waits for staging, 1 open, 2 writing its result, 3 writing its flag, 4 described by the
  dispatcher and not yet open (R133), 5 opens, without a segment, once its engine accepts operations. -/
  phase : Nat := 1
  openTick : Nat := 0
  contribs : List Contrib := []
  /-- Sources in the order of their commits, and those that the accumulator already holds. -/
  order : List Nat := []
  added : List Nat := []
  acc : List Nat := []
  cells : List Nat := []
  /-- Result writes not yet issued, and those unanswered. -/
  writes : List (Nat × Bytes) := []
  outstanding : Nat := 0
  flagCount : Nat := 0
  overflow : Bool := false
  /-- Rows left to read and write (tongs). -/
  rows : List (Nat × Nat) := []
  /-- Handles of the owner's regions and their epochs at the opening (R435). -/
  epochs : List (Nat × Nat) := []
  failed : Bool := false
  deriving DecidableEq, Repr, Inhabited

structure Engines where
  ops : List EngOp := []
  nextId : Nat := 1
  deriving DecidableEq, Repr, Inhabited

/-! ### Compression (chapter 5) -/

structure CmpJob where
  die : Nat := 0
  part : Nat := 0
  ntM1 : Nat := 0
  cls : Nat := 0
  mode : Nat := 0
  inHandle : Nat := 0
  inOff : Nat := 0
  inLen : Nat := 0
  outHandle : Nat := 0
  outOff : Nat := 0
  outLen : Nat := 0
  inEpoch : Nat := 0
  outEpoch : Nat := 0
  cmd : Option (Nat × Nat) := none
  /-- 0 its passes run, 1 reads its input for the first passes, 2 writes its output, 3 writes the object
  header, 4 reads its input again to encode it. -/
  phase : Nat := 0
  /-- Input image of the first passes. -/
  input : Bytes := []
  /-- Object to write, its writes unanswered, and the class used. -/
  output : Bytes := []
  outstanding : Nat := 0
  chosen : Nat := 0
  deriving DecidableEq, Repr, Inhabited

/-! ### DRAM and flash tiers (chapter 6) -/

structure Obj where
  st : Nat := 0
  kind : Nat := 0
  part : Nat := 0
  writable : Bool := false
  compressed : Bool := false
  demand : Bool := false
  stalls : Nat := 0
  size : Nat := 0
  base : Nat := 0
  /-- Rows of its extent, by the lowest. -/
  row : Nat := 0
  rows : Nat := 0
  bundle : Nat := 0
  entry : Nat := 0
  lastStall : Nat := 0
  deriving DecidableEq, Repr, Inhabited

structure DStack where
  /-- 0 UNTRAINED, 1 ACTIVE, 2 SPARE, 3 FAILED (R232). -/
  st : Nat := 0
  cause : Nat := 0
  logical : Nat := 0
  ueTicks : List Nat := []
  chFails : KMap Nat := []
  deriving DecidableEq, Repr, Inhabited

/-- A load of an object from flash (R205, R211). -/
structure Load where
  obj : Nat := 0
  cmds : List (Nat × Nat) := []
  evict : List (Nat × Nat) := []
  deriving DecidableEq, Repr, Inhabited

/-- A bundle in flash or being delivered (R444, R526). -/
structure Bundle where
  num : Nat := 0
  stage : Nat := 0
  isOpen : Bool := false
  checked : Bool := false
  complete : Bool := false
  entries : Nat := 0
  chunks : Nat := 0
  /-- Header, manifest, tag table, signature block. -/
  meta_ : Bytes := []
  /-- Ciphertext bytes by chunk * 65536 + offset: present bytes. -/
  data : KMap Byte := []
  /-- Stacks its stripes use, in stripe order. -/
  stripes : List Nat := []
  deriving DecidableEq, Repr, Inhabited

structure Mem where
  dstack : KMap DStack := []
  /-- Flash stacks: 0 UNTRAINED, 1 ACTIVE, 3 FAILED. -/
  fstack : KMap Nat := []
  spare : Option Nat := none
  objs : KMap Obj := []
  /-- DRAM bytes by physical stack * 2^36 + channel * 2^31 + loc; unlisted 0 (R502). -/
  dram : KMap Byte := []
  bundles : KMap Bundle := []
  loads : List Load := []
  /-- 0 idle, 1 pass 1, 2 pass 2, 3 waits for REBUILD_AUTO or induction. -/
  rebuild : Nat := 0
  rebuildLs : Nat := 0
  cursor : Nat := 0
  /-- Pool granules whose next read meets an uncorrectable error in every copy (R213). -/
  badNext : List Nat := []
  /-- Requests (Pend ids) that wait at the rebuild cursor (R218), for MEM_CTRL.ENABLE (R224), for a way or a
  snoop index of their slice (R409, R416), or at a port die for its VC0 credit (R406). -/
  cursorWait : List Nat := []
  failTick : Nat := 0
  /-- What the spare holds of read-only objects (R219): object * 2^32 for a whole object,
  object * 2^32 + chunk + 1 for one of its chunks. -/
  reloaded : List Nat := []
  /-- Chunks (object * 2^32 + chunk + 1) that pass 2 could not read from flash: the inducted stack
  does not hold their bytes, and they stay flash-served. -/
  unloaded : List Nat := []
  jobs : List CmpJob := []
  /-- Entries of the DRAM channels' queues in use, key (stack * 32 + channel) * 2 + 1 for the line class's
  16, + 0 for the other 48 (R19). -/
  dramQ : KMap Nat := []
  /-- Errors that the next reads of bundle chunks meet (R214). -/
  flashNext : List FlashErr := []
  /-- Bytes that MIRROR_RATE and RELOAD_RATE have allowed and that their pass has not yet used (R217). -/
  mirrorRoom : Nat := 0
  reloadRoom : Nat := 0
  deriving DecidableEq, Repr, Inhabited

/-! ### Sifter (chapter 7) -/

structure SftOp where
  id : Nat := 0
  part : Nat := 0
  win : Nat := 0
  index : Nat := 0
  /-- Index entry words as read at the close (R258). -/
  entry : List Word := []
  bowl : Nat := 0
  record : Bytes := []
  snap : Nat := 0
  used : Nat := 0
  closeTick : Nat := 0
  seq : Nat := 0
  /-- 0 queued, 1 running, 2 writing its result, 3 writing its flag, 4 slot still CLOSED. -/
  phase : Nat := 0
  leaves : List Nat := []
  ctx : Nat := 0
  reruns : Nat := 0
  writes : List (Nat × Bytes) := []
  outstanding : Nat := 0
  count : Nat := 0
  compactWait : Bool := false
  /-- Home accesses of the present run that are unanswered, and the ranges of writable index objects that it has
  read: object, offset, length (R402). -/
  left : Nat := 0
  got : List (Nat × Nat × Nat) := []
  /-- The update's write is issued: the delta record it names or the number of records it keeps, and its commit epoch. -/
  commit : Option (Nat × Nat) := none
  /-- Tier-stall causes already counted for its present access (R212). -/
  causes : List Nat := []
  slot : Nat := 0
  /-- Handles of the partition's regions and their epochs at the close (R435). -/
  epochs : List (Nat × Nat) := []
  cells : List Nat := []
  deriving DecidableEq, Repr, Inhabited

structure Sft where
  ops : List SftOp := []
  nextId : Nat := 1
  deriving DecidableEq, Repr, Inhabited

/-! ### Security (chapter 13) -/

structure Region where
  valid : Bool := false
  revoking : Bool := false
  gen : Nat := 0
  part : Nat := 0
  epoch : Nat := 0
  obj : Nat := 0
  base : Nat := 0
  len : Nat := 0
  objOff : Nat := 0
  key : Bytes := []
  deriving DecidableEq, Repr, Inhabited

structure Grant where
  slot : Nat := 0
  node : Nat := 0
  rights : Nat := 0
  session : Nat := 0
  tag : Bytes := []
  deriving DecidableEq, Repr, Inhabited

structure NodeSess where
  valid : Bool := false
  mode : Nat := 0
  session : Nat := 0
  cert : Bytes := []
  secret : Bytes := []
  salt : Bytes := []
  deriving DecidableEq, Repr, Inhabited

/-- A revocation that waits for its old-epoch requests (R436). -/
structure Revoke where
  slot : Nat := 0
  start : Nat := 0
  /-- Command answered at step 4, and its OPC. -/
  cmd : Option (Nat × Nat × Nat) := none
  slow : Bool := false
  /-- The reset that asked for it. -/
  reset : Bool := false
  deriving DecidableEq, Repr, Inhabited

/-- A region command that waits for a revocation to end (R453). -/
structure RegionWait where
  slot : Nat := 0
  sess : Nat := 0
  reqId : Nat := 0
  opc : Nat := 0
  node : Nat := 0
  rights : Nat := 0
  deriving DecidableEq, Repr, Inhabited

structure Sec where
  idReady : Bool := false
  idKey : Bytes := []
  root : Nat := 0
  regions : KMap Region := []
  grants : KMap Grant := []
  nodes : KMap NodeSess := []
  /-- Bundle-key slots: (BUNDLE, key). -/
  bkeys : KMap (Nat × Bytes) := []
  treeSeed : Bytes := []
  /-- Identity signature over the tree (LMS_ENDORSE, R431). -/
  endorse : Bytes := []
  treeReady : Bool := false
  treeBusy : Bool := false
  treeAt : Nat := 0
  leaf : Nat := 0
  mBundles : Bytes := List.replicate 48 0
  quoteNonces : List Bytes := []
  quoteWait : List (Nat × Nat × Bytes) := []
  treeCmd : List (Nat × Nat) := []
  revokes : List Revoke := []
  waits : List RegionWait := []
  /-- Partition whose reset the security block served last, and the tick at which it is free for the next (R467). -/
  turn : Nat := 63
  turnAt : Nat := 0
  deriving DecidableEq, Repr, Inhabited

/-! ### Partitions and interrupts (chapter 14) -/

structure Part where
  st : PartState := .free
  step : Nat := 0
  deleting : Bool := false
  node : Nat := 0
  /-- State the reset started from. -/
  from_ : PartState := .free
  drainAt : Nat := 0
  timedOut : Bool := false
  /-- Regions still to revoke in step 3, and those of them whose turn has not come (R467). -/
  toRevoke : List Nat := []
  toStart : List Nat := []
  deriving DecidableEq, Repr, Inhabited

structure Latch where
  core : Option Nat := none
  part : Option Nat := none
  info0 : Nat := 0
  info1 : Nat := 0
  count : Nat := 1
  deriving DecidableEq, Repr, Inhabited

structure IrqCore where
  running : Option Nat := none
  stack : List (Option Nat) := []
  lastAccept : Option Nat := none
  info0 : Nat := 0
  info1 : Nat := 0
  sleep : Bool := false
  signalled : Bool := false
  deriving DecidableEq, Repr, Inhabited

structure Irq where
  latches : KMap Latch := []
  lastTarget : KMap Nat := []
  cores : KMap IrqCore := []
  /-- SEQ of the next record, key part * 8 + vector; unlisted 1. -/
  seq : KMap Nat := []
  deriving DecidableEq, Repr, Inhabited

/-! ### Rinlidal (chapter 16, 17) -/

/-- A command that runs past its own step. -/
structure Running where
  reqId : Nat := 0
  opc : Nat := 0
  arg : Nat := 0
  deriving DecidableEq, Repr, Inhabited

structure Partial where
  reqId : Nat := 0
  opc : Nat := 0
  segs : Nat := 0
  parts : KMap Bytes := []
  since : Nat := 0
  deriving DecidableEq, Repr, Inhabited

structure Session where
  id : Nat := 0
  /-- 0 OWNER, 1 AGENT, 2 PEER. -/
  kind : Nat := 0
  part : Nat := 0
  peer : Nat := 0
  addr : NetAddr := {}
  /-- The device is the initiator. -/
  init : Bool := false
  keyRx : Bytes := []
  keyTx : Bytes := []
  ephPriv : Bytes := []
  ephPub : Bytes := []
  txSeq : Nat := 0
  rxHigh : Nat := 0
  rxSeen : List Nat := []
  lastRx : Nat := 0
  partials : List Partial := []
  /-- Requests whose last segment arrived: reqId, opc, body; their own step performs them. -/
  ready : List (Nat × Nat × Bytes) := []
  running : List Running := []
  /-- Newest first: reqId and response (opc, status, detail, body). -/
  cache : List (Nat × Nat × Nat × Nat × Bytes) := []
  msgNext : Nat := 1
  delivered : List Nat := []
  deriving DecidableEq, Repr, Inhabited

structure Handshake where
  id : Nat := 0
  session : Nat := 0
  kind : Nat := 0
  addr : NetAddr := {}
  init : Bool := false
  peer : Nat := 0
  ephPriv : Bytes := []
  transcript : Bytes := []
  keyRx : Bytes := []
  keyTx : Bytes := []
  at_ : Nat := 0
  cmd : Option (Nat × Nat) := none
  /-- AUTH sent: waits for the responder's first DATA record. -/
  authSent : Bool := false
  deriving DecidableEq, Repr, Inhabited

/-- What the Ethernet port put on the wire. -/
inductive EthOut where
  | record (to_ : NetAddr) (type session seq : Nat) (body : Bytes)
  | arp (senderIp targetMac targetIp : Nat)
  | nd (senderIp targetMac targetIp : Nat)
  | echo (v6 : Bool) (dstIp : Nat) (data : Bytes)
  deriving DecidableEq, Repr

/-- Head of an IP datagram that the port sends (R515): the port's own address, the address that the frame goes to (the
destination's or the gateway's), TTL or hop limit, and IPv4's DF. -/
structure IpHead where
  v6 : Bool := false
  src : Nat := 0
  hop : Nat := 0
  ttl : Nat := 64
  df : Bool := false
  deriving DecidableEq, Repr, Inhabited

/-- A frame on the Ethernet wire: station address, VLAN tag, IP head (none for ARP), and what it carries (R514,
R515). -/
structure EthFrame where
  out : EthOut
  mac : Nat := 0
  vlan : Option Nat := none
  ip : Option IpHead := none
  deriving DecidableEq, Repr

/-- A message in a partition's queue (R535). -/
structure QMsg where
  part : Nat := 0
  peer : Nat := 0
  bytes : Bytes := []
  msgId : Nat := 0
  sentAt : Option Nat := none
  resends : Nat := 0
  sess : Nat := 0
  deriving DecidableEq, Repr, Inhabited

structure Peer where
  valid : Bool := false
  v6 : Bool := false
  udp : Nat := 0
  serial : Nat := 0
  address : Nat := 0
  /-- 0 NONE, 1 OPENING, 2 OPEN, 3 CLOSED. -/
  st : Nat := 0
  deriving DecidableEq, Repr, Inhabited

structure Handoff where
  epoch : Nat := 0
  sender : Bool := true
  /-- Codes of R558. -/
  st : Nat := 2
  obj : Nat := 0
  peer : Nat := 0
  dstPart : Nat := 0
  dstObj : Nat := 0
  size : Nat := 0
  cmd : Option (Nat × Nat) := none
  /-- Segment offsets not yet acknowledged (sender) or bytes present (receiver). -/
  unacked : List Nat := []
  got : List (Nat × Nat) := []
  crc : Nat := 0
  lastSeen : Bool := false
  /-- Receiver: HO_ACCEPT has been sent, and has been acknowledged. -/
  acceptSent : Bool := false
  acceptAcked : Bool := false
  resends : Nat := 0
  sentAt : Nat := 0
  since : Nat := 0
  /-- HO_EPOCH of the sender, on a receiver. -/
  peerEpoch : Nat := 0
  deriving DecidableEq, Repr, Inhabited

/-- A received message being written into a partition's ring (R536). -/
structure RingJob where
  part : Nat := 0
  sess : Nat := 0
  msgId : Nat := 0
  msg : Bytes := []
  /-- 0 waits for the job before it, 1 reads PROD and CONS, 2 writes the slot, 3 writes PROD. -/
  phase : Nat := 0
  prod : Nat := 0
  handle : Nat := 0
  epoch : Nat := 0
  /-- Global address of the ring. -/
  addr : Nat := 0
  deriving DecidableEq, Repr, Inhabited

/-- A placement command (R205) that waits for the earlier ones of its partition, or that has started and
waits for its end (R206). -/
structure PlaceCmd where
  sess : Nat := 0
  reqId : Nat := 0
  opc : Nat := 0
  /-- Kind and partition of the session that sent it. -/
  kind : Nat := 0
  sessPart : Nat := 0
  obj : Nat := 0
  /-- Its other operands, and its bowls with their first slots. -/
  args : List Nat := []
  bowls : List (Nat × Nat) := []
  part : Nat := 0
  started : Bool := false
  deriving DecidableEq, Repr, Inhabited

structure Mgt where
  sessions : List Session := []
  /-- Placement commands not yet completed, in the order received. -/
  place : List PlaceCmd := []
  handshakes : List Handshake := []
  nextSession : Nat := 1
  ethTx : List EthFrame := []
  queue : List QMsg := []
  peers : KMap Peer := []
  handoffs : List Handoff := []
  /-- Remembered committed handoffs: (peer, epoch, object). -/
  committed : List (Nat × Nat × Nat) := []
  hoEpoch : Nat := 0
  lastOwner : Option NetAddr := none
  /-- Received messages on their way into a ring, oldest first. -/
  rings : List RingJob := []
  heldRx : List (Nat × Word) := []
  deriving DecidableEq, Repr, Inhabited

/-! ### Power (chapter 18) -/

structure Rail where
  on : Bool := false
  command : Nat := 0
  pending : Bool := false
  vout : Nat := 0
  iout : Nat := 0
  pout : Nat := 0
  fault : Nat := 0
  bad : Nat := 0
  silent : Nat := 0
  wroteAt : Nat := 0
  deriving DecidableEq, Repr, Inhabited

structure Pwr where
  rails : KMap Rail := []
  capMv : Nat := 0
  coreW : Nat := 0
  warn : Bool := false
  overCap : Nat := 0
  /-- Ticks of the last poll of the regulators and of the last evaluation of the loop (R574). -/
  polledAt : Nat := 0
  evalAt : Nat := 0
  temps : KMap Nat := []
  /-- PMBus writes made, newest last: (address, command, value). -/
  pmbus : List (Nat × Nat × Nat) := []
  deriving DecidableEq, Repr, Inhabited

/-! ### The whole -/

/-- Every live value of the device. -/
structure Chip where
  pins : Pins := {}
  boot : Boot := {}
  mcs : Mcs := {}
  dump : Dump := {}
  ctl : Ctl := {}
  cores : Cores := {}
  gtx : Gtx := {}
  coh : Coh := {}
  swc : Switch := {}
  lnk : Links := {}
  dsp : Dispatch := {}
  eng : Engines := {}
  mem : Mem := {}
  sft : Sft := {}
  sec : Sec := {}
  parts : KMap Part := []
  irq : Irq := {}
  mgt : Mgt := {}
  pwr : Pwr := {}
  /-- The model's own counter of open values and TRNG draws, not the spec's. -/
  draws : Nat := 0
  deriving DecidableEq, Repr, Inhabited

/-- The state: the live values, the values the slow-domain copies of each die were taken from
at their last refresh (R596; unlisted: the reset values), and the commands that wait. -/
structure State where
  chip : Chip := {}
  snap : KMap Chip := []
  pending : List Instr := []
  deriving DecidableEq, Repr

/-- Right after power is applied and held in RESET: BOOT_STAT.STATE reads 1 (R510), every core
SPARE (R71), nothing listed anywhere, no command waiting. The rails of the board are up (R567). -/
def Chip.reset : Chip :=
  { pins := { powered := true, crystal := true },
    boot := { state := .reset } }

def State.reset : State := { chip := Chip.reset }

end Sys2Proof.Machine
end

