-- ==== Sys2Proof/Machine/Ops.lean ====
section
/-! DEFINITION. Operations over the state that every family shares: sparse tables, bit fields,
byte strings, stored register words, counters and open values. -/

namespace Sys2Proof.Machine

/-! ### Sparse tables -/

/-- The value stored under `k`. -/
def kfind? {α : Type} (m : KMap α) (k : Nat) : Option α :=
  match m with
  | [] => none
  | (k', v) :: t => if k' = k then some v else kfind? t k

/-- The value stored under `k`, or the value an unlisted key stands for. -/
def kgetD {α : Type} (m : KMap α) (k : Nat) (d : α) : α := (kfind? m k).getD d

/-- Store `v` under `k`, keeping the keys rising. -/
def kput {α : Type} (m : KMap α) (k : Nat) (v : α) : KMap α :=
  match m with
  | [] => [(k, v)]
  | (k', v') :: t =>
    if k < k' then (k, v) :: (k', v') :: t
    else if k = k' then (k, v) :: t
    else (k', v') :: kput t k v

/-- Remove `k`. -/
def kdel {α : Type} (m : KMap α) (k : Nat) : KMap α :=
  match m with
  | [] => []
  | (k', v') :: t => if k = k' then kdel t k else (k', v') :: kdel t k

/-- Store `v` under `k` in a table whose unlisted keys stand for `d`: storing `d` removes the
entry, so equal contents are equal tables. -/
def ksetD {α : Type} [DecidableEq α] (m : KMap α) (k : Nat) (d v : α) : KMap α :=
  if v = d then kdel m k else kput m k v

/-- Change the entry under `k`, taken as `d` when unlisted. -/
def kmod {α : Type} (m : KMap α) (k : Nat) (d : α) (f : α → α) : KMap α :=
  kput m k (f (kgetD m k d))

/-- Keys listed. -/
def kkeys {α : Type} (m : KMap α) : List Nat := m.map (·.1)

/-- Replace the n-th element. -/
def setNth {α : Type} (l : List α) (n : Nat) (v : α) : List α := l.set n v

/-- Change the n-th element, if there is one. -/
def modNth {α : Type} (l : List α) (n : Nat) (f : α → α) : List α := l.modify n f

/-- Change the first element that satisfies `p`. -/
def modFirst {α : Type} (p : α → Bool) (f : α → α) : List α → List α
  | [] => []
  | x :: t => if p x then f x :: t else x :: modFirst p f t

/-- Remove the first element that satisfies `p`. -/
def delFirst {α : Type} (p : α → Bool) : List α → List α
  | [] => []
  | x :: t => if p x then t else x :: delFirst p t

/-- Minimum of a list by a key, the earliest among equals. -/
def minBy? {α : Type} (key : α → Nat) : List α → Option α
  | [] => none
  | x :: t =>
    match minBy? key t with
    | none => some x
    | some y => if key y < key x then some y else some x

/-! ### Bit fields and bytes -/

/-- Bits [hi:lo] of `v`. -/
def bits (v hi lo : Nat) : Nat := v / 2 ^ lo % 2 ^ (hi + 1 - lo)

/-- Bit `i` of `v`. -/
def bit (v i : Nat) : Bool := v / 2 ^ i % 2 == 1

/-- `v` with bits [hi:lo] replaced by `x`. -/
def putBits (v hi lo x : Nat) : Nat :=
  v / 2 ^ (hi + 1) * 2 ^ (hi + 1) + x % 2 ^ (hi + 1 - lo) * 2 ^ lo + v % 2 ^ lo

def b2n (b : Bool) : Nat := if b then 1 else 0

/-- Little-endian value of a byte string. -/
def leNat : Bytes → Nat
  | [] => 0
  | b :: t => b.toNat + 256 * leNat t

/-- The low `n` bytes of `v`, lowest first. -/
def natLE : Nat → Nat → Bytes
  | 0, _ => []
  | n + 1, v => BitVec.ofNat 8 v :: natLE n (v / 256)

/-- `len` bytes at offset `off`. -/
def sliceB (b : Bytes) (off len : Nat) : Bytes := (b.drop off).take len

/-- The little-endian field of `len` bytes at `off`. -/
def fieldB (b : Bytes) (off len : Nat) : Nat := leNat (sliceB b off len)

def zerosB (n : Nat) : Bytes := List.replicate n 0

/-- `n` bytes drawn from a number. -/
def bytesOf (n v : Nat) : Bytes := natLE n v

/-- Overwrite `b` at `off` with `x`, where it fits. -/
def patchB (b : Bytes) (off : Nat) (x : Bytes) : Bytes :=
  b.take off ++ x ++ b.drop (off + x.length)

/-- Ceiling of a division. -/
def cdiv (a b : Nat) : Nat := (a + b - 1) / b

/-- Pieces of `n` elements, the last one shorter; `fuel` bounds their number. -/
def chunksOf {α : Type} (n : Nat) : Nat → List α → List (List α)
  | 0, _ => []
  | _, [] => []
  | fuel + 1, l => l.take n :: chunksOf n fuel (l.drop n)

/-- Position of the lowest set bit below `n`, if any. -/
def lowBit? (n v : Nat) : Option Nat := (List.range n).find? (fun i => bit v i)

/-- Number of set bits below `n`. -/
def popCount (n v : Nat) : Nat := ((List.range n).filter (fun i => bit v i)).length

/-! ### Stored register words (R585, R591) -/

/-- Offset of an array element: the base plus each index times its stride. -/
def strideSum : List (Nat × Nat) → List Nat → Nat
  | (s, _) :: d, i :: t => s * i + strideSum d t
  | _, _ => 0

/-- Control-space address of a die, block and offset (R585). -/
def ctlAddr (die block off : Nat) : Nat := die * 2 ^ 44 + block * 2 ^ 32 + off

def Reg.off (r : Reg) (idx : List Nat) : Nat := r.info.base + strideSum r.info.dims idx

def Reg.addr (r : Reg) (die : Nat) (idx : List Nat := []) : Nat :=
  ctlAddr die r.info.block (r.off idx)

/-- The word the fields' reset values make. -/
def fieldsReset (fs : List FieldDef) : Nat :=
  fs.foldl (fun w f => w + f.rst * 2 ^ f.lo) 0

/-- Event sources that go to partitions, as (first, last) of each run of R479's table; for all
other sources PART_NOTIFY is fixed at 0. -/
def partSources : List (Nat × Nat) :=
  [(0x000, 0x001), (0x080, 0x089), (0x100, 0x10B), (0x180, 0x183), (0x200, 0x206), (0x280, 0x284),
   (0x301, 0x302), (0x380, 0x385), (0x405, 0x405), (0x481, 0x482), (0x505, 0x505), (0x580, 0x582)]

def partSource (n : Nat) : Bool := partSources.any fun r => decide (r.1 ≤ n) && decide (n ≤ r.2)

/-- Reset word of one register element. PWR_RAIL_CFGn's PMB_ADDR is 0x40 + n (R582);
PART_NOTIFY is 1 exactly for the sources that go to partitions (R479). -/
def Reg.resetWord (r : Reg) (idx : List Nat) : Nat :=
  match r with
  | .pwrRailCfg => putBits (fieldsReset r.info.fields) 30 24 (0x40 + idx.headD 0)
  | .irqSrcCfg => putBits (fieldsReset r.info.fields) 30 30 (b2n (partSource (idx.headD 0)))
  | _ => fieldsReset r.info.fields

/-- The stored word of a register (R591); a TRI register's is the majority of its copies (R595). -/
def Chip.reg (c : Chip) (r : Reg) (die : Nat) (idx : List Nat := []) : Nat :=
  match kfind? c.ctl.regs (r.addr die idx) with
  | some w => w.toNat
  | none => r.resetWord idx

/-- Store a register's word; storing the reset word removes the entry. A write of a TRI register
stores all three copies (R595). -/
def Chip.setReg (c : Chip) (r : Reg) (die : Nat) (idx : List Nat) (v : Nat) : Chip :=
  { c with ctl := { c.ctl with
      regs := ksetD c.ctl.regs (r.addr die idx) (BitVec.ofNat 32 (r.resetWord idx)) (BitVec.ofNat 32 v)
      tri := kdel c.ctl.tri (r.addr die idx) } }

/-- A field of a stored word. -/
def Chip.fld (c : Chip) (r : Reg) (die : Nat) (idx : List Nat) (hi lo : Nat) : Nat :=
  bits (c.reg r die idx) hi lo

def Chip.setFld (c : Chip) (r : Reg) (die : Nat) (idx : List Nat) (hi lo x : Nat) : Chip :=
  c.setReg r die idx (putBits (c.reg r die idx) hi lo x)

/-! ### Counters (R13) -/

def Cnt.addr (k : Cnt) (die : Nat) (idx : List Nat := []) : Nat :=
  ctlAddr die k.info.block (k.info.base + strideSum k.info.dims idx)

def Cnt.satAddr (k : Cnt) (die : Nat) (idx : List Nat := []) : Nat :=
  ctlAddr die k.info.block (k.info.satBase + strideSum k.info.satDims idx)

def Chip.count (c : Chip) (k : Cnt) (die : Nat) (idx : List Nat := []) : Nat :=
  kgetD c.ctl.cnt (k.addr die idx) 0

/-- Add `n` to a counter. It saturates at all-ones; reaching all-ones sets its SAT bit and raises an event,
which is latched at the next edge of the management slow clock (notes/assumptions/94.md). -/
def Chip.bump (c : Chip) (k : Cnt) (die : Nat) (idx : List Nat := []) (n : Nat := 1) : Chip :=
  let a := k.addr die idx
  let v0 := kgetD c.ctl.cnt a 0
  let v := min (v0 + n) allOnes64
  let sat := if v = allOnes64 then
      let sa := k.satAddr die idx
      ksetD c.ctl.sat sa 0 (kgetD c.ctl.sat sa 0 ||| BitVec.ofNat 32 (2 ^ k.info.bit))
    else c.ctl.sat
  let ev := if v = allOnes64 ∧ v0 ≠ allOnes64 then c.ctl.satEv ++ [a] else c.ctl.satEv
  { c with ctl := { c.ctl with cnt := ksetD c.ctl.cnt a 0 v, sat := sat, satEv := ev } }

/-- Clear a counter and its SAT bit. -/
def Chip.clearCnt (c : Chip) (k : Cnt) (die : Nat) (idx : List Nat := []) : Chip :=
  let sa := k.satAddr die idx
  { c with ctl := { c.ctl with
      cnt := kdel c.ctl.cnt (k.addr die idx),
      sat := ksetD c.ctl.sat sa 0 (kgetD c.ctl.sat sa 0 &&& ~~~ BitVec.ofNat 32 (2 ^ k.info.bit)) } }

/-! ### What lies at a control-space address (R585-R587) -/

/-- Indices of an array element from its offset within the array. -/
def unstride : List (Nat × Nat) → Nat → Option (List Nat)
  | [], rel => if rel = 0 then some [] else none
  | (s, n) :: d, rel => if rel / s < n then (unstride d (rel % s)).map (rel / s :: ·) else none

/-- The register element at an address: register, die, indices. Lanes 64-71 exist on die 8 only (R342). -/
def regAt (addr : Nat) : Option (Reg × Nat × List Nat) :=
  let die := addr / 2 ^ 44
  let off := addr % 2 ^ 32
  let r := (blockRegs (addr / 2 ^ 32 % 4096)).findSome? fun r =>
    if r.info.dies.contains die ∧ r.info.base ≤ off then
      (unstride r.info.dims (off - r.info.base)).map fun i => (r, die, i)
    else none
  r.filter fun x => !(x.1 == .tstLaneCfg && decide (64 ≤ x.2.2.headD 0) && decide (die ≠ 8))

/-- A counter that exists: lane counters of a port group at s = 0 (R341), lanes 64-71 on die 8. -/
def cntExists (k : Cnt) (die : Nat) (idx : List Nat) : Bool :=
  if [Cnt.lnkLaneSym0, .lnkLaneSym1, .lnkLaneSym2, .lnkLaneSym3].contains k then decide (idx.headD 0 < 16)
  else if [Cnt.tstLaneBits, .tstLaneErr].contains k then decide (idx.headD 0 < 64) || decide (die = 8)
  else true

/-- The counter at an address: counter, die, indices, and whether its _HI half is named. -/
def cntAt (addr : Nat) : Option (Cnt × Nat × List Nat × Bool) :=
  let die := addr / 2 ^ 44
  let off := addr % 2 ^ 32
  (blockCnts (addr / 2 ^ 32 % 4096)).findSome? fun k =>
    if k.info.dies.contains die ∧ k.info.base ≤ off then
      match unstride (k.info.dims ++ [(4, 2)]) (off - k.info.base) with
      | some i => if cntExists k die i.dropLast then some (k, die, i.dropLast, i.getLastD 0 == 1) else none
      | none => none
    else none

/-- The counters whose SAT bits lie in the word at an address. -/
def satAt (addr : Nat) : List (Cnt × Nat × List Nat) :=
  let die := addr / 2 ^ 44
  let off := addr % 2 ^ 32
  (blockCnts (addr / 2 ^ 32 % 4096)).filterMap fun k =>
    if k.info.dies.contains die ∧ k.info.satBase ≤ off then
      match unstride k.info.satDims (off - k.info.satBase) with
      | some i => if cntExists k die i then some (k, die, i) else none
      | none => none
    else none

/-! ### Open values -/

/-- The next open value, and the state that has used it. -/
def Chip.draw (c : Chip) : Nat × Chip := (Config.freeValue c.draws, { c with draws := c.draws + 1 })

/-- The next draw of the true random number generator. -/
def Chip.drawRng (c : Chip) : Nat × Chip := (Config.trng c.draws, { c with draws := c.draws + 1 })

/-! ### Time and device state -/

/-- Ticks of the 1 MHz management slow clock since entry to ROMBOOT. -/
def Chip.tick (c : Chip) : Nat := c.boot.tick

/-- The timeout that started at `t0` and lasts `n` ticks has passed. -/
def Chip.due (c : Chip) (t0 n : Nat) : Bool := decide (t0 + n ≤ c.boot.tick)

/-- The device serves fabric and owner traffic: SERVICE or DEGRADED. -/
def Chip.inService (c : Chip) : Bool := c.boot.state = .service || c.boot.state = .degraded

/-- Do `f` when `p` holds. -/
def Chip.when (c : Chip) (p : Bool) (f : Chip → Chip) : Chip := if p then f c else c

/-- The result of a meaning that always completes. -/
def next (s : State) (c : Chip) : Host.Outcome State Fault Refusal := .next { s with chip := c }

end Sys2Proof.Machine
end

