-- ==== Sys2Proof/Machine/Arith.lean ====
section
/-! DEFINITION. The eight number formats and the arithmetic of cores, whisk and home (R45-R59,
R139-R142, R607). A floating-point value is NaN, an infinity, or an exact m * 2^e with a sign. -/

namespace Sys2Proof.Machine

/-- An exact value (R46, R55). -/
inductive Fp where
  | nan
  | inf (neg : Bool)
  | fin (neg : Bool) (m : Nat) (e : Int)
  deriving DecidableEq, Repr

/-- A floating-point format: exponent and mantissa bits, bias, largest finite code, whether it has
infinities, and its canonical NaN if any (R46, R56). -/
structure FpFmt where
  eb : Nat
  mb : Nat
  bias : Nat
  maxFin : Nat
  hasInf : Bool
  cnan : Option Nat
  deriving DecidableEq, Repr

/-- Formats 0 FP32, 1 BF16, 2 FP16, 3 FP8 E4M3, 4 FP8 E5M2, 5 FP4 E2M1 (R45, R46). -/
def fpFmt (code : Nat) : FpFmt :=
  match code with
  | 0 => ⟨8, 23, 127, 0x7F7FFFFF, true, some 0x7FC00000⟩
  | 1 => ⟨8, 7, 127, 0x7F7F, true, some 0x7FC0⟩
  | 2 => ⟨5, 10, 15, 0x7BFF, true, some 0x7E00⟩
  | 3 => ⟨4, 3, 7, 0x7E, false, some 0x7F⟩
  | 4 => ⟨5, 2, 15, 0x7B, true, some 0x7E⟩
  | _ => ⟨2, 1, 1, 7, false, none⟩

/-- Bits of one element of a format code of R45. -/
def elemBits (code : Nat) : Nat :=
  match code with
  | 0 => 32
  | 1 => 16
  | 2 => 16
  | 3 => 8
  | 4 => 8
  | 5 => 4
  | 6 => 8
  | _ => 4

def FpFmt.width (f : FpFmt) : Nat := 1 + f.eb + f.mb

/-- Value of a code. -/
def FpFmt.decode (f : FpFmt) (w : Nat) : Fp :=
  let neg := bit w (f.eb + f.mb)
  let ex := w / 2 ^ f.mb % 2 ^ f.eb
  let mant := w % 2 ^ f.mb
  let mag := w % 2 ^ (f.eb + f.mb)
  if f.maxFin < mag then
    if f.hasInf && decide (mant = 0) then .inf neg else .nan
  else if ex = 0 then .fin neg mant (1 - (f.bias : Int) - f.mb)
  else .fin neg (2 ^ f.mb + mant) ((ex : Int) - f.bias - f.mb)

/-- Round m * 2^s down by `sh` bits to nearest, ties to even. -/
def rneShift (m sh : Nat) : Nat :=
  let q := m / 2 ^ sh
  let r := m % 2 ^ sh
  if sh = 0 then m
  else if 2 ^ (sh - 1) < r then q + 1
  else if r < 2 ^ (sh - 1) then q
  else q + q % 2

/-- Magnitude code of m * 2^e rounded to nearest even, before the overflow rule (R57). -/
def FpFmt.roundMag (f : FpFmt) (m : Nat) (e : Int) : Nat :=
  if m = 0 then 0
  else
    let emin : Int := 1 - (f.bias : Int) - f.mb
    let len : Int := Nat.log2 m + 1
    let u : Int := max (e + len - (f.mb + 1)) emin
    let sig := if u ≤ e then m * 2 ^ (e - u).toNat else rneShift m (u - e).toNat
    (u - emin).toNat * 2 ^ f.mb + sig

/-- Code of a value in a format (R57): `sat` is SATMODE SATURATE. -/
def FpFmt.encode (f : FpFmt) (sat : Bool) (v : Fp) : Nat :=
  let sgn (neg : Bool) : Nat := b2n neg * 2 ^ (f.eb + f.mb)
  let ovf (neg : Bool) : Nat := if f.hasInf && !sat then sgn neg + f.maxFin + 1 else sgn neg + f.maxFin
  match v with
  | .nan => f.cnan.getD 0
  | .inf neg => if f.hasInf && !sat then sgn neg + (2 ^ f.eb - 1) * 2 ^ f.mb else sgn neg + f.maxFin
  | .fin neg m e =>
    let c := f.roundMag m e
    if f.maxFin < c then ovf neg else sgn neg + c

/-- Sum of two exact values; x + (-x) is +0 (R55). -/
def Fp.addX (a b : Fp) : Fp :=
  match a, b with
  | .nan, _ => .nan
  | _, .nan => .nan
  | .inf x, .inf y => if x = y then .inf x else .nan
  | .inf x, _ => .inf x
  | _, .inf y => .inf y
  | .fin n1 m1 e1, .fin n2 m2 e2 =>
    let e := min e1 e2
    let v1 : Int := (if n1 then -1 else 1) * (m1 * 2 ^ (e1 - e).toNat : Nat)
    let v2 : Int := (if n2 then -1 else 1) * (m2 * 2 ^ (e2 - e).toNat : Nat)
    let s := v1 + v2
    if s = 0 then .fin (n1 && n2 && decide (m1 = 0) && decide (m2 = 0)) 0 e
    else .fin (decide (s < 0)) s.natAbs e

/-- Product of two exact values; infinity times zero is NaN (R55). -/
def Fp.mulX (a b : Fp) : Fp :=
  match a, b with
  | .nan, _ => .nan
  | _, .nan => .nan
  | .inf x, .inf y => .inf (x != y)
  | .inf x, .fin y m _ => if m = 0 then .nan else .inf (x != y)
  | .fin y m _, .inf x => if m = 0 then .nan else .inf (x != y)
  | .fin n1 m1 e1, .fin n2 m2 e2 => .fin (n1 != n2) (m1 * m2) (e1 + e2)

def f32 : FpFmt := fpFmt 0

/-- One rounding to FP32, to nearest even; overflow is an infinity. -/
def rn32 (v : Fp) : Nat := f32.encode false v

def add32 (a b : Nat) : Nat := rn32 ((f32.decode a).addX (f32.decode b))
def mul32 (a b : Nat) : Nat := rn32 ((f32.decode a).mulX (f32.decode b))

def isNan32 (a : Nat) : Bool := f32.decode a == .nan

/-- Order of two non-NaN FP32 values, with -0 below +0 (R140). -/
def key32 (a : Nat) : Int := if bit a 31 then -((a % 2 ^ 31 : Nat) : Int) - 1 else (a % 2 ^ 31 : Nat)

def max32 (a b : Nat) : Nat :=
  if isNan32 a || isNan32 b then 0x7FC00000 else if key32 a ≤ key32 b then b else a
def min32 (a b : Nat) : Nat :=
  if isNan32 a || isNan32 b then 0x7FC00000 else if key32 a ≤ key32 b then a else b

/-- Convert an FP32 word to a floating-point format (R57). -/
def cvtFp (fmt : Nat) (sat : Bool) (w : Nat) : Nat := (fpFmt fmt).encode sat (f32.decode w)

/-- An element code of a floating-point format as an exact FP32 word. -/
def toF32 (fmt w : Nat) : Nat := rn32 ((fpFmt fmt).decode w)

/-! ### Whisk and home reduction (R139-R142) -/

/-- Term of an element: GATE x element for GSUM (op 3), the element otherwise. -/
def redTerm (op gate x : Nat) : Nat :=
  if op = 3 then mul32 gate x
  else if isNan32 x then 0x7FC00000 else x

/-- Combine the next term: 0 SUM, 1 MAX, 2 MIN, 3 GSUM. -/
def redCombine (op acc x : Nat) : Nat :=
  match op with
  | 1 => max32 acc x
  | 2 => min32 acc x
  | _ => add32 acc x

/-- Little-endian elements of `n` bytes each. -/
def elems (n : Nat) (b : Bytes) : List Nat := (chunksOf n b.length b).map leNat

/-- REDUCE of a payload into memory bytes, element by element (R144, R286). Formats of ATTR[3:2]
are those of R45: 0 FP32, 1 BF16, 2 FP16. -/
def reduceBytes (op fmt gate : Nat) (sat : Bool) (mem pay : Bytes) : Bytes :=
  let n := elemBits fmt / 8
  ((elems n mem).zip (elems n pay)).flatMap fun e =>
    let t := redTerm op gate (toF32 fmt e.2)
    natLE n (cvtFp fmt sat (redCombine op (toF32 fmt e.1) t))

/-! ### Integers -/

/-- Two's complement value of the low `n` bits. -/
def sInt (n w : Nat) : Int := if bit w (n - 1) then (w % 2 ^ n : Nat) - 2 ^ n else (w % 2 ^ n : Nat)

/-- The low `n` bits of an integer. -/
def wInt (n : Nat) (v : Int) : Nat := (v % 2 ^ n).toNat

/-- Saturate to n-bit two's complement. -/
def satInt (n : Nat) (v : Int) : Int :=
  if v < -(2 ^ (n - 1)) then -(2 ^ (n - 1)) else if 2 ^ (n - 1) - 1 < v then 2 ^ (n - 1) - 1 else v

/-- Saturating INT32 addition and whether it saturated (R52). -/
def addSat32 (a b : Nat) : Nat × Bool :=
  let s := sInt 32 a + sInt 32 b
  (wInt 32 (satInt 32 s), decide (satInt 32 s ≠ s))

/-- A value as an integer of n bits: nearest even, saturating; NaN is 0 (R58). -/
def fpInt (n : Nat) (v : Fp) : Nat :=
  match v with
  | .nan => 0
  | .inf neg => wInt n (if neg then -(2 ^ (n - 1)) else 2 ^ (n - 1) - 1)
  | .fin neg m e =>
    let r := if 0 ≤ e then m * 2 ^ e.toNat else rneShift m (-e).toNat
    wInt n (satInt n (if neg then -(r : Int) else r))

/-- FP32 to an integer of n bits (R58). -/
def cvtInt (n w : Nat) : Nat := fpInt n (f32.decode w)

/-- INT32 to FP32, to nearest even (R58). -/
def intToF32 (w : Nat) : Nat :=
  let v := sInt 32 w
  rn32 (.fin (decide (v < 0)) v.natAbs 0)

/-! ### Dot products (R50-R54) -/

/-- E8M0 scale (R59). -/
def scaleVal (x : Nat) : Fp := if x = 0xFF then .nan else .fin false 1 ((x : Int) - 127)

/-- Value of an element code of any format of R45. -/
def elemVal (fmt w : Nat) : Fp :=
  if fmt ≤ 5 then (fpFmt fmt).decode w
  else
    let v := sInt (elemBits fmt) w
    .fin (decide (v < 0)) v.natAbs 0

/-- Exact sum of the products of one group. -/
def groupSum (fa fb : Nat) (g : DotGroup) : Fp :=
  let ps := (g.a.zip g.b).map fun p => (elemVal fa p.1).mulX (elemVal fb p.2)
  match ps with
  | [] => .fin false 0 0
  | p :: t => t.foldl Fp.addX p

/-- One level of the balanced tree: pairs added, an odd last operand passes up. -/
def pairUp (add : Nat → Nat → Nat) : List Nat → List Nat
  | a :: b :: t => add a b :: pairUp add t
  | l => l

/-- The balanced tree over a list (R53, R54). -/
def treeSum (add : Nat → Nat → Nat) : Nat → List Nat → Nat
  | 0, l => l.headD 0
  | fuel + 1, l =>
    match l with
    | [] => 0
    | [x] => x
    | l => treeSum add fuel (pairUp add l)

/-- Pairs of one level of an INT32 tree whose sum saturates. -/
def pairSats : List Nat → Nat
  | a :: b :: t => b2n (addSat32 a b).2 + pairSats t
  | _ => 0

/-- The INT32 tree of R54 and how many of its additions saturated. -/
def treeSat : Nat → List Nat → Nat × Nat
  | 0, l => (l.headD 0, 0)
  | fuel + 1, l =>
    match l with
    | [] => (0, 0)
    | [x] => (x, 0)
    | l =>
      let r := treeSat fuel (pairUp (fun a b => (addSat32 a b).1) l)
      (r.1, r.2 + pairSats l)

/-- One group of the reduction added to an FP32 accumulator: FP32, BF16 and FP16 by R53, the others, a
scaled INT4 among them, by R51 and R52. An operand without a scale takes 1.0 (R59). -/
def accFp (fa fb acc : Nat) (g : DotGroup) : Nat :=
  if fa ≤ 2 then
    let ps := (g.a.zip g.b).map fun p => rn32 ((elemVal fa p.1).mulX (elemVal fb p.2))
    add32 acc (treeSum add32 ps.length ps)
  else
    let sa := (g.sa.map scaleVal).getD (.fin false 1 0)
    let sb := (g.sb.map scaleVal).getD (.fin false 1 0)
    add32 acc (rn32 (((groupSum fa fb g).mulX sa).mulX sb))

/-- One group added to an INT32 accumulator, and whether the addition saturated (R52). -/
def accInt (fa fb acc : Nat) (g : DotGroup) : Nat × Bool :=
  let s : Int := match groupSum fa fb g with
    | .fin neg m e => (if neg then -1 else 1) * ((m * 2 ^ e.toNat : Nat) : Int)
    | _ => 0
  let t := sInt 32 acc + s
  (wInt 32 (satInt 32 t), decide (satInt 32 t ≠ t))

/-- One word per position of a node's children, by the tree of R54, and how many additions saturated. -/
def nodeWords (isInt : Bool) (children : List (List Nat)) : List Nat × Nat :=
  let n := (children.map (·.length)).foldl min ((children.headD []).length)
  let cols := (List.range n).map fun j => children.map fun w => w.getD j 0
  if isInt then
    let rs := cols.map fun l => treeSat l.length l
    (rs.map (·.1), (rs.map (·.2)).sum)
  else (cols.map fun l => treeSum add32 l.length l, 0)

/-! ### The shape of the array and of an engine-ready tile (R45, R48, R49) -/

/-- Rows of a panel, which are the array's rows. -/
def panelRows (fmt : Nat) : Nat := if fmt = 0 then 8 else 16

/-- Columns of a panel: the reduction indices of one step. -/
def panelCols (fmt : Nat) : Nat :=
  match fmt with
  | 0 => 4
  | 1 => 8
  | 2 => 8
  | 5 => 32
  | 7 => 32
  | _ => 16

def panelBytes (fmt : Nat) : Nat := panelRows fmt * panelCols fmt * elemBits fmt / 8

/-- Multiply-accumulates of one step of one core. -/
def macsPerStep (fmt : Nat) : Nat := panelRows fmt * panelCols fmt

/-- Reduction indices that are summed before they meet the accumulator (R51-R53). -/
def groupLen (fmt : Nat) : Nat := if fmt ≤ 2 then 8 else 32

/-- Panels of one group. -/
def groupPanels (fmt : Nat) : Nat := groupLen fmt / panelCols fmt

/-- Most panels of a tile (R48). -/
def maxPanels (fmt : Nat) : Nat := 61440 / panelBytes fmt

/-- Byte of a tile at which row `r` of panel `p` starts, and at which its scale stands. -/
def rowOff (fmt p r : Nat) : Nat := 0x100 + p * panelBytes fmt + r * (panelBytes fmt / panelRows fmt)
def scaleOff (fmt p r : Nat) : Nat := 0xF100 + p * panelCols fmt / 32 * 16 + r

/-! ### The residue check (R62) -/

/-- Significand of an element code: with the implicit bit, or the magnitude of an integer. -/
def significand (fmt w : Nat) : Nat :=
  match elemVal fmt w with
  | .fin _ m _ => m
  | _ => w % 2 ^ (fpFmt fmt).mb

/-- The cell's product of two significands disagrees with their residues modulo 7. -/
def residueBad (fa fb a b product : Nat) : Bool :=
  product % 7 != significand fa a % 7 * (significand fb b % 7) % 7

/-! ### Conversion to MX (R59) -/

/-- Largest exponent of an element format. -/
def emaxElem (fmt : Nat) : Int :=
  match fmt with
  | 3 => 8
  | 4 => 15
  | _ => 2

/-- Formats that take a chosen scale. -/
def mxFmt (fmt : Nat) : Bool := fmt == 3 || fmt == 4 || fmt == 5 || fmt == 7

/-- Floor of the base-2 logarithm of a non-zero finite value. -/
def Fp.log? : Fp → Option Int
  | .fin _ m e => if m = 0 then none else some (Nat.log2 m + e)
  | _ => none

def Fp.finite : Fp → Bool
  | .fin _ _ _ => true
  | _ => false

/-- Scale and element codes of a block of FP32 values. -/
def mxBlock (fmt : Nat) (ws : List Nat) : Nat × List Nat :=
  let vs := ws.map f32.decode
  if vs.all Fp.finite then
    let x : Int := match (vs.filterMap Fp.log?).max? with
      | none => 0x7F
      | some lg => max 0 (min 254 (lg - emaxElem fmt + 127))
    let down (v : Fp) : Fp := v.mulX (.fin false 1 (127 - x))
    (x.toNat, vs.map fun v => if fmt ≤ 5 then (fpFmt fmt).encode true (down v) else fpInt 4 (down v))
  else (0xFF, ws.map fun _ => 0)

/-- Convert one FP32 accumulator to an output element code (R607). -/
def outElem (fmt : Nat) (sat : Bool) (w : Nat) : Nat :=
  if fmt ≤ 5 then cvtFp fmt sat w else cvtInt (elemBits fmt) w

/-- A NaN that the conversion turns to zero (R57, R58). -/
def nanToZero (fmt w : Nat) : Bool := decide (5 ≤ fmt) && isNan32 w

/-- Pack element codes, two to a byte for the 4-bit formats (R47). -/
def packElems (fmt : Nat) (cs : List Nat) : Bytes :=
  if elemBits fmt = 4 then
    (chunksOf 2 cs.length cs).map fun p => BitVec.ofNat 8 (p.headD 0 % 16 + 16 * (p.getD 1 0 % 16))
  else cs.flatMap fun x => natLE (elemBits fmt / 8) x

/-! ### CRC-64 (ECMA-182, R106, R319) -/

def crcStep (crc : Nat) : Nat → Nat
  | 0 => crc
  | n + 1 =>
    crcStep (if bit crc 63 then (crc * 2 % 2 ^ 64) ^^^ 0x42F0E1EBA9EA3693 else crc * 2 % 2 ^ 64) n

/-- CRC-64, most significant bit first, initial value and final XOR all ones. -/
def crc64 (b : Bytes) : Nat :=
  (b.foldl (fun crc x => crcStep (crc ^^^ (x.toNat * 2 ^ 56)) 8) allOnes64) ^^^ allOnes64

end Sys2Proof.Machine
end

