-- ==== Sys2Proof/Machine/Codec.lean ====
section
/-! DEFINITION. Fixed-slot compression (R164-R176, R179-R181): slots, planes, coder tables, the
decoder of a ricer and the encoder of the compressor. -/

namespace Sys2Proof.Machine

/-! ### Checks -/

def crc32Step (crc : Nat) : Nat → Nat
  | 0 => crc
  | n + 1 => crc32Step (if crc % 2 = 1 then (crc / 2) ^^^ 0x82F63B78 else crc / 2) n

/-- CRC-32C. -/
def crc32c (b : Bytes) : Nat :=
  (b.foldl (fun crc x => crc32Step (crc ^^^ x.toNat) 8) 0xFFFFFFFF) ^^^ 0xFFFFFFFF

def crc8Step (crc : Nat) : Nat → Nat
  | 0 => crc
  | n + 1 => crc8Step (if bit crc 7 then (crc * 2 % 256) ^^^ 0x07 else crc * 2 % 256) n

/-- CRC-8, polynomial 0x07, initial value 0 (R166). -/
def crc8 (b : Bytes) : Nat := b.foldl (fun crc x => crc8Step (crc ^^^ x.toNat) 8) 0

/-! ### Bit strings, most significant bit first (R170) -/

def msbBits (n v : Nat) : List Bool := (List.range n).map fun i => bit v (n - 1 - i)
def bitsOfBytes (b : Bytes) : List Bool := b.flatMap fun x => msbBits 8 x.toNat
def bitsNat (l : List Bool) : Nat := l.foldl (fun a b => 2 * a + b2n b) 0
/-- Bytes of a bit string, the last one padded with zero bits. -/
def packBits (l : List Bool) : Bytes :=
  (chunksOf 8 l.length l).map fun p => BitVec.ofNat 8 (bitsNat (p ++ List.replicate (8 - p.length) false))

/-! ### Object header (R164, R165) -/

structure CmpHdr where
  mode : Nat := 0
  cls : Nat := 1
  ntM1 : Nat := 0
  logLen : Nat := 0
  blocks : Nat := 0
  group : Nat := 1
  ovfCount : Nat := 0
  slotOff : Nat := 0
  ovfOff : Nat := 0
  totalLen : Nat := 0
  deriving DecidableEq, Repr

def slotSize (cls : Nat) : Nat := 512 * (cls + 1)
/-- Payload room of a class. -/
def payRoom (cls : Nat) : Nat := slotSize cls - 40

def roundUp (n v : Nat) : Nat := cdiv v n * n

/-- MODE bits: BYTES, format, SPLIT. -/
def CmpHdr.isBytes (h : CmpHdr) : Bool := bit h.mode 0
def CmpHdr.fmt (h : CmpHdr) : Nat := bits h.mode 3 1
def CmpHdr.split (h : CmpHdr) : Bool := bit h.mode 4

/-- Geometry of an object with the given blocks, tables, class and overflow blocks. -/
def CmpHdr.make (mode cls ntM1 logLen ovf : Nat) : CmpHdr :=
  let blocks := cdiv logLen 4096
  let slotOff := roundUp 4096 (0x1000 + (ntM1 + 1) * 1024)
  let ovfOff := roundUp 4096 (slotOff + blocks * slotSize cls)
  { mode := mode, cls := cls, ntM1 := ntM1, logLen := logLen, blocks := blocks,
    group := cdiv blocks (ntM1 + 1), ovfCount := ovf, slotOff := slotOff, ovfOff := ovfOff,
    totalLen := ovfOff + ovf * 4096 }

def CmpHdr.bytes (h : CmpHdr) : Bytes :=
  let b := natLE 4 0x31504D43 ++ natLE 1 1 ++ natLE 1 h.mode ++ natLE 1 h.cls ++ natLE 1 h.ntM1 ++
    natLE 8 h.logLen ++ natLE 4 h.blocks ++ natLE 4 h.group ++ natLE 4 h.ovfCount ++ zerosB 4 ++
    natLE 8 0x1000 ++ natLE 8 h.slotOff ++ natLE 8 h.ovfOff ++ natLE 8 h.totalLen ++ zerosB 4028
  b ++ natLE 4 (crc32c b)

/-- Header of a compressed object, if its MAGIC and HDR_CRC hold. -/
def parseHdr (b : Bytes) : Option CmpHdr :=
  if fieldB b 0 4 = 0x31504D43 ∧ fieldB b 0xFFC 4 = crc32c (b.take 0xFFC) then
    some { mode := fieldB b 5 1, cls := fieldB b 6 1, ntM1 := fieldB b 7 1, logLen := fieldB b 8 8,
           blocks := fieldB b 0x10 4, group := fieldB b 0x14 4, ovfCount := fieldB b 0x18 4,
           slotOff := fieldB b 0x28 8, ovfOff := fieldB b 0x30 8, totalLen := fieldB b 0x38 8 }
  else none

/-! ### Planes (R169, R170) -/

inductive Plane where
  | byte | se | mant | scale
  deriving DecidableEq, Repr

/-- Symbol count and first byte of a plane's lengths in a coder table (R172). -/
def Plane.size : Plane → Nat
  | .se => 512
  | _ => 256
def Plane.tableOff : Plane → Nat
  | .byte => 0
  | .se => 0x80
  | .mant => 0x180
  | .scale => 0x200

/-- Mantissa bits of a format. -/
def mantBits (fmt : Nat) : Nat := (fpFmt fmt).mb

/-- Planes of sub-stream j of block k, with their symbol counts. -/
def planesOf (h : CmpHdr) (k j : Nat) : List (Plane × Nat) :=
  let o := k % 16 * 4096 + 256 * j
  if h.isBytes || !h.split || decide (o < 0x100) then [(.byte, 256)]
  else if 0xF100 ≤ o then [(.scale, 256)]
  else if 6 ≤ h.fmt then [(.byte, 256)]
  else
    let n := 2048 / elemBits h.fmt
    [(.se, n), (.mant, cdiv (n * mantBits h.fmt) 8)]

/-- Element codes of a range, ascending address, low nibble first. -/
def rangeElems (fmt : Nat) (b : Bytes) : List Nat :=
  if elemBits fmt = 4 then b.flatMap fun x => [x.toNat % 16, x.toNat / 16] else elems (elemBits fmt / 8) b

/-- Symbols of each plane of a range. -/
def rangeSyms (h : CmpHdr) (k j : Nat) (b : Bytes) : List (Plane × List Nat) :=
  match planesOf h k j with
  | [(p, _)] => [(p, b.map (·.toNat))]
  | _ =>
    let es := rangeElems h.fmt b
    let m := mantBits h.fmt
    [(.se, es.map (· / 2 ^ m)),
     (.mant, (packBits (es.flatMap fun e => msbBits m (e % 2 ^ m))).map (·.toNat))]

/-- The range's bytes from its planes' symbols. -/
def rangeBytes (h : CmpHdr) (k j : Nat) (syms : List (List Nat)) : Bytes :=
  match planesOf h k j with
  | [_] => (syms.headD []).map (BitVec.ofNat 8)
  | _ =>
    let m := mantBits h.fmt
    let mb := bitsOfBytes ((syms.getD 1 []).map (BitVec.ofNat 8))
    let es := (syms.headD []).zipIdx.map fun e => e.1 * 2 ^ m + bitsNat ((mb.drop (e.2 * m)).take m)
    packElems h.fmt es

/-! ### Coder tables (R172, R173) -/

/-- Code lengths of a plane in a 1,024-byte table record. -/
def tableLens (t : Bytes) (p : Plane) : List Nat :=
  (List.range p.size).map fun s =>
    let x := fieldB t (p.tableOff + s / 2) 1
    if s % 2 = 0 then x % 16 else x / 16

/-- Canonical codes: (symbol, length, code) by ascending length, then symbol. -/
def canon (lens : List Nat) : List (Nat × Nat × Nat) :=
  let items := (List.range 16).flatMap fun L =>
    if L = 0 then [] else (lens.zipIdx.filter fun e => e.1 == L).map fun e => (e.2, L)
  (items.foldl (fun (acc : List (Nat × Nat × Nat) × Option (Nat × Nat)) it =>
    let code := match acc.2 with
      | none => 0
      | some (pl, pc) => (pc + 1) * 2 ^ (it.2 - pl)
    ((it.1, it.2, code) :: acc.1, some (it.2, code))) ([], none)).1.reverse

/-- Read one symbol; `fuel` bounds the code length. -/
def readSym (tab : List (Nat × Nat × Nat)) : Nat → Nat → Nat → List Bool → Option (Nat × List Bool)
  | 0, _, _, _ => none
  | _, _, _, [] => none
  | f + 1, len, code, b :: t =>
    let code := 2 * code + b2n b
    match tab.find? fun e => e.2.1 == len + 1 && e.2.2 == code with
    | some e => some (e.1, t)
    | none => readSym tab f (len + 1) code t

def readSyms (tab : List (Nat × Nat × Nat)) : Nat → List Bool → Option (List Nat × List Bool)
  | 0, bs => some ([], bs)
  | n + 1, bs =>
    match readSym tab 15 0 0 bs with
    | none => none
    | some (s, rest) => (readSyms tab n rest).map fun r => (s :: r.1, r.2)

/-- Decode a coded sub-stream: every plane full, and only zero padding left (R181). -/
def decodeSub (h : CmpHdr) (table : Bytes) (k j : Nat) (sub : Bytes) : Option Bytes :=
  let go := (planesOf h k j).foldl (fun (acc : Option (List (List Nat) × List Bool)) p =>
    acc.bind fun a => (readSyms (canon (tableLens table p.1)) p.2 a.2).map fun r => (a.1 ++ [r.1], r.2))
    (some ([], bitsOfBytes sub))
  go.bind fun a => if a.2.length < 8 ∧ a.2.all (!·) then some (rangeBytes h k j a.1) else none

/-! ### Slots (R166-R168, R179, R181) -/

/-- What a slot says. -/
inductive SlotKind where
  /-- Overflow: the raw block's object offset. -/
  | ovf (off : Nat)
  | coded
  /-- Failed check, with the cause of CMP_CAPTURE. -/
  | bad (cause : Nat)
  deriving DecidableEq, Repr

def slotKind (k : Nat) (s : Bytes) : SlotKind :=
  if crc8 (s.take 15) ≠ fieldB s 15 1 ∨ fieldB s 8 4 ≠ k % 2 ^ 32 then .bad 1
  else if bit (fieldB s 0 1) 3 then
    (if fieldB s 0x16 2 ≠ k % 65536 then .bad 1 else .ovf (fieldB s 0x10 6))
  else .coded

def slotCheck (s : Bytes) : Nat := fieldB s 4 4
def slotTable (s : Bytes) : Nat := fieldB s 1 1

/-- Lengths of the sixteen sub-streams. -/
def subLens (s : Bytes) : List Nat :=
  let d := fieldB s 0x10 24
  (List.range 16).map fun j => d / 2 ^ (12 * j) % 4096

/-- The block of a coded slot with its table record; the error's cause otherwise. -/
def decodeSlot (h : CmpHdr) (k : Nat) (s table : Bytes) : Except Nat Bytes :=
  let lens := subLens s
  let raw := fieldB s 2 2
  if lens.sum ≠ fieldB s 0xC 2 ∨ payRoom h.cls < lens.sum then .error 2
  else if raw ≠ 0xFFFF ∧ crc32c (table.take 0x3FC) ≠ fieldB table 0x3FC 4 then .error 2
  else
    let parts := (List.range 16).map fun j =>
      let off := 0x28 + (lens.take j).sum
      let sub := sliceB s off (lens.getD j 0)
      if bit raw j then (if sub.length = 256 then some sub else none) else decodeSub h table k j sub
    if parts.any (·.isNone) then .error 2
    else
      let b := parts.flatMap fun p => p.getD []
      if crc32c b = slotCheck s then .ok b else .error 0

/-! ### The compressor (R171-R176) -/

/-- Insert into a list kept by weight, after entries of equal weight. -/
def insW (e : Nat × List Nat) : List (Nat × List Nat) → List (Nat × List Nat)
  | [] => [e]
  | x :: t => if e.1 < x.1 then e :: x :: t else x :: insW e t

/-- Adjacent pairs as packages; an odd last entry is dropped. -/
def packages : List (Nat × List Nat) → List (Nat × List Nat)
  | a :: b :: t => (a.1 + b.1, a.2 ++ b.2) :: packages t
  | _ => []

/-- The lists of the package-merge algorithm, `n` levels. -/
def pmLevels (items : List (Nat × List Nat)) : Nat → List (Nat × List Nat)
  | 0 => []
  | n + 1 => (packages (pmLevels items n)).foldl (fun l p => insW p l) items

/-- Optimal prefix-code lengths with a limit of 15 bits for symbol counts (R173). -/
def codeLens (counts : List Nat) : List Nat :=
  let used := counts.zipIdx.filter fun e => decide (0 < e.1)
  match used with
  | [] => counts.map fun _ => 0
  | [u] => (List.range counts.length).map fun s => if s = u.2 then 1 else 0
  | _ =>
    let items := used.foldl (fun l e => insW (e.1, [e.2]) l) []
    let picked := ((pmLevels items 15).take (2 * used.length - 2)).flatMap (·.2)
    (List.range counts.length).map fun s => (picked.filter (· == s)).length

/-- Table record of a group's lengths (R172). -/
def tableBytes (byte se mant scale : List Nat) : Bytes :=
  let nib (l : List Nat) : Bytes := (chunksOf 2 l.length l).map fun p =>
    BitVec.ofNat 8 (p.headD 0 + 16 * p.getD 1 0)
  let b := nib byte ++ nib se ++ nib mant ++ nib scale ++ zerosB 380
  b ++ natLE 4 (crc32c b)

/-- Ranges of a block: (j, bytes). -/
def blockRanges (b : Bytes) : List (Nat × Bytes) := (List.range 16).map fun j => (j, sliceB b (256 * j) 256)

/-- Coder table of a group of blocks (R174). -/
def groupTable (h : CmpHdr) (blocks : List (Nat × Bytes)) : Bytes :=
  let all := blocks.flatMap fun kb => (blockRanges kb.2).flatMap fun r => rangeSyms h kb.1 r.1 r.2
  let lens (p : Plane) : List Nat :=
    let syms := (all.filter fun e => e.1 == p).flatMap (·.2)
    let counts := syms.foldl (fun l s => modNth l s (· + 1)) (List.replicate p.size 0)
    codeLens counts
  tableBytes (lens .byte) (lens .se) (lens .mant) (lens .scale)

/-- Codes of a range's symbols; none: a symbol has no code in the table. -/
def encodeSyms (table : Bytes) : List (Plane × List Nat) → Option (List Bool)
  | [] => some []
  | ps :: t =>
    let tab := canon (tableLens table ps.1)
    let codes := ps.2.map fun s => tab.find? fun e => e.1 == s
    if codes.all (·.isSome) then
      (encodeSyms table t).map fun r => (codes.flatMap fun e => msbBits ((e.map (·.2.1)).getD 0) ((e.map (·.2.2)).getD 0)) ++ r
    else none

/-- A sub-stream: coded, or raw when the code would take 256 bytes or more (R171), or when the image has changed
since its table was built and a symbol has no code (log 93). -/
def encodeSub (h : CmpHdr) (table : Bytes) (k j : Nat) (b : Bytes) : Bool × Bytes :=
  match encodeSyms table (rangeSyms h k j b) with
  | none => (true, b)
  | some code =>
    let c := packBits code
    if 256 ≤ c.length then (true, b) else (false, c)

/-- Sub-streams of a block. -/
def encodeBlock (h : CmpHdr) (table : Bytes) (k : Nat) (b : Bytes) : List (Bool × Bytes) :=
  (blockRanges b).map fun r => encodeSub h table k r.1 r.2

def payLen (subs : List (Bool × Bytes)) : Nat := (subs.map (·.2.length)).sum

/-- The slot of a block; `ovf` is the raw block's offset when it overflows (R166-R168). -/
def slotBytes (h : CmpHdr) (k t : Nat) (b : Bytes) (subs : List (Bool × Bytes)) (ovf : Option Nat) : Bytes :=
  let raw := ((subs.zipIdx.filter fun s => s.1.1).map fun s => 2 ^ s.2).sum
  let head := match ovf with
    | some _ => natLE 1 (h.cls + 8) ++ natLE 1 0 ++ natLE 2 0xFFFF
    | none => natLE 1 h.cls ++ natLE 1 t ++ natLE 2 raw
  let head := head ++ natLE 4 (crc32c b) ++ natLE 4 k ++ natLE 2 (if ovf.isSome then 0 else payLen subs) ++ zerosB 1
  let head := head ++ natLE 1 (crc8 head)
  let body := match ovf with
    | some o => natLE 6 o ++ natLE 2 k
    | none =>
      natLE 24 ((subs.zipIdx.map fun s => s.1.2.length * 2 ^ (12 * s.2)).sum) ++ subs.flatMap (·.2)
  let s := head ++ body
  s ++ zerosB (slotSize h.cls - s.length)

/-- Format a TILED image names in every tile header, if it obeys R177's cause 3. -/
def tiledFormat (img : Bytes) : Option Nat :=
  let tiles := chunksOf 65536 img.length img
  let f := fieldB img 0 1
  if img.length % 65536 = 0 ∧ tiles.all (fun t =>
      decide (fieldB t 0 1 = f) && decide (fieldB t 0 1 < 8) && decide (fieldB t 1 1 < 2) &&
      (sliceB t 4 252).all (· == 0)) then some f
  else none

/-- Blocks of an image, padded to whole ones, with their numbers. -/
def imageBlocks (img : Bytes) : List (Nat × Bytes) :=
  let padded := img ++ zerosB (roundUp 4096 img.length - img.length)
  (chunksOf 4096 padded.length padded).zipIdx.map fun b => (b.2, b.1)

/-- The compressed object of an image, and the class used; none: cause 3 of R177. The tables, and the class where it
is AUTO, come from the image `first` that the first passes read; the encode pass reads `img` (R175). -/
def compress (isBytes : Bool) (cls ntM1 : Nat) (first img : Bytes) : Option (Bytes × Nat) :=
  match if isBytes then some 0 else tiledFormat first with
  | none => none
  | some f =>
    if 6 ≤ cls then none
    else
      let mode := if isBytes then 1 else f * 2 + (if f ≤ 5 then 16 else 0)
      let h0 := CmpHdr.make mode 1 ntM1 img.length 0
      let tables := (List.range (ntM1 + 1)).map fun t =>
        groupTable h0 (((imageBlocks first).drop (t * h0.group)).take h0.group)
      let tab (k : Nat) : Nat := if h0.group = 0 then 0 else k / h0.group
      let subsOf (b : Bytes) : List ((Nat × Bytes) × List (Bool × Bytes)) :=
        (imageBlocks b).map fun kb => (kb, encodeBlock h0 (tables.getD (tab kb.1) []) kb.1 kb.2)
      let ovfs (subs : List ((Nat × Bytes) × List (Bool × Bytes))) (c : Nat) : Nat :=
        (subs.filter fun s => decide (payRoom c < payLen s.2)).length
      let total (c : Nat) : Nat := (CmpHdr.make mode c ntM1 first.length (ovfs (subsOf first) c)).totalLen
      let cl := if cls = 0 then (minBy? total [1, 2, 3, 4, 5]).getD 1 else cls
      let subs := subsOf img
      let h := CmpHdr.make mode cl ntM1 img.length (ovfs subs cl)
      let r := subs.foldl (fun (acc : List Bytes × List Bytes) s =>
        if payRoom cl < payLen s.2 then
          (slotBytes h s.1.1 0 s.1.2 s.2 (some (h.ovfOff + acc.2.length * 4096)) :: acc.1, s.1.2 :: acc.2)
        else (slotBytes h s.1.1 (tab s.1.1) s.1.2 s.2 none :: acc.1, acc.2)) ([], [])
      let slots := r.1.reverse.flatten
      let tabs := tables.flatten
      some (h.bytes ++ tabs ++ zerosB (h.slotOff - 0x1000 - tabs.length) ++ slots ++
        zerosB (h.ovfOff - h.slotOff - slots.length) ++ r.2.reverse.flatten, cl)

end Sys2Proof.Machine
end

