-- ==== Sys2Proof/Machine/Fabric.lean ====
section
/-! DEFINITION. The fabric's shared plumbing: node table, message formats, shared-buffer cells,
die-to-die paths, egress queues, responses, CFG_IGNORED and captures (chapters 8, 9, 10). -/

namespace Sys2Proof.Machine

/-! ### Ports and nodes -/

/-- Port die of a port: 8 + floor(g / 16) for lane group g (R312). -/
def portDie (p : Nat) : Nat := 8 + p % 64 / 16
/-- Local index j = s * 16 + l. -/
def portLocal (p : Nat) : Nat := p / 64 * 16 + p % 16

/-- Core die of core k. -/
def coresPerDie : Nat := 3136
def coreDie (k : Nat) : Nat := k / coresPerDie

/-- Die and local index of engine e (R128). -/
def engDie (e : Nat) : Nat := 8 + e / 16
def engLocal (e : Nat) : Nat := e % 16

/-- Port number of local port j of a die. -/
def portOf (die j : Nat) : Nat := (die - 8) * 16 + j % 16 + 64 * (j / 16)

def Chip.port (c : Chip) (p : Nat) : Port := kgetD c.lnk.ports p {}

def Chip.setPort (c : Chip) (p : Nat) (v : Port) : Chip :=
  { c with lnk := { c.lnk with ports := kput c.lnk.ports p v } }

def Chip.modPort (c : Chip) (p : Nat) (f : Port → Port) : Chip := c.setPort p (f (c.port p))

/-- Only ACTIVE and NARROW ports carry messages (R317). -/
def Chip.usable (c : Chip) (p : Nat) : Bool :=
  (c.port p).st = .active || (c.port p).st = .narrow

/-- SPLIT of the group of port p: 0 x4, 1 two x2, 2 four x1; 3 acts as 0 (R337). -/
def Chip.split (c : Chip) (p : Nat) : Nat :=
  match c.fld .lnkPortCfg (portDie p) [p % 16] 29 28 with
  | 1 => 1
  | 2 => 2
  | _ => 0

/-- The configured widths create port p. -/
def Chip.portExists (c : Chip) (p : Nat) : Bool :=
  decide (p < 256) &&
  match c.split p, p / 64 with
  | _, 0 => true
  | 1, 2 => true
  | 2, s => decide (s < 4)
  | _, _ => false

/-- What a node number is at this module (R271). -/
inductive NodeKind where
  | none
  | here (part : Nat)
  | ports (a b : Nat)
  deriving DecidableEq, Repr

def Chip.node (c : Chip) (n : Nat) : NodeKind :=
  let w := c.reg .gtxNode 12 [n]
  match bits w 31 30 with
  | 1 => .here (bits w 29 24)
  | 2 => .ports (bits w 7 0) (bits w 15 8)
  | _ => .none

/-- Indices of the stored elements of a one-dimensional register that satisfy `p`. -/
def Chip.idxs (c : Chip) (r : Reg) (die : Nat) (p : Nat → Bool) : List Nat :=
  let b := r.addr die
  let s := (r.info.dims.headD (4, 1)).1
  let n := (r.info.dims.headD (4, 1)).2
  c.ctl.regs.filterMap fun e =>
    let a := e.1
    if b ≤ a ∧ (a - b) % s = 0 ∧ (a - b) / s < n ∧ p e.2.toNat = true then some ((a - b) / s) else Option.none

/-- The partition's LOCAL node. -/
def Chip.localNode (c : Chip) (part : Nat) : Option Nat :=
  (c.idxs .gtxNode 12 fun w => bits w 31 30 == 1 && bits w 29 24 == part).head?

/-- The stream that binds a source node and a partition (R294). -/
def Chip.stream? (c : Chip) (src part : Nat) : Option Nat :=
  (c.idxs .gtxStream 12 fun w => bit w 31 && bits w 29 24 == part && bits w 11 0 == src).head?

/-- The sharer slot that names a node (R419). -/
def Chip.sharer? (c : Chip) (n : Nat) : Option Nat :=
  (c.idxs .cohSharer 12 fun w => bit w 31 && bits w 11 0 == n).head?

def nodeOf (addr : Nat) : Nat := addr / 2 ^ 52 % 4096
def offOf (addr : Nat) : Nat := addr % 2 ^ 52

/-- Path hash of R362. -/
def pathHash (addr tag src dst : Nat) : Nat :=
  let k := (addr / 128) ^^^ (tag * 2 ^ 29) ^^^ (src * 2 ^ 45) ^^^ (dst * 2 ^ 52 % 2 ^ 64)
  (k ^^^ (k / 2 ^ 16) ^^^ (k / 2 ^ 32) ^^^ (k / 2 ^ 48)) % 65536

/-- The port a message to node `n` leaves on (R273, R362). -/
def Chip.routePort (c : Chip) (n h : Nat) : Option Nat :=
  match c.node n with
  | .ports a b =>
    match c.usable a, c.usable b with
    | true, true => some (if h % 2 = 1 then b else a)
    | true, false => some a
    | false, true => some b
    | false, false => Option.none
  | _ => Option.none

/-! ### CFG_IGNORED (R591) and captures -/

/-- Control and ignored-address registers of a block. -/
def ctrlOf (block : Nat) : Option (Reg × Reg) :=
  match block with
  | 1 => some (.bootCtrl, .bootCfgIgnAddr)
  | 2 => some (.lnkCtrl, .lnkCfgIgnAddr)
  | 3 => some (.gtxCtrl, .gtxCfgIgnAddr)
  | 4 => some (.swcCtrl, .swcCfgIgnAddr)
  | 5 => some (.tshCtrl, .tshCfgIgnAddr)
  | 6 => some (.cohCtrl, .cohCfgIgnAddr)
  | 7 => some (.memCtrl, .memCfgIgnAddr)
  | 8 => some (.flsCtrl, .flsCfgIgnAddr)
  | 9 => some (.corCtrl, .corCfgIgnAddr)
  | 10 => some (.dspCtrl, .dspCfgIgnAddr)
  | 11 => some (.wskCtrl, .wskCfgIgnAddr)
  | 12 => some (.tngCtrl, .tngCfgIgnAddr)
  | 13 => some (.cldCtrl, .cldCfgIgnAddr)
  | 14 => some (.cmpCtrl, .cmpCfgIgnAddr)
  | 15 => some (.sftCtrl, .sftCfgIgnAddr)
  | 16 => some (.secCtrl, .secCfgIgnAddr)
  | 17 => some (.irqCtrl, .irqCfgIgnAddr)
  | 18 => some (.prtCtrl, .prtCfgIgnAddr)
  | 19 => some (.mgtCtrl, .mgtCfgIgnAddr)
  | 20 => some (.pwrCtrl, .pwrCfgIgnAddr)
  | 21 => some (.tstCtrl, .tstCfgIgnAddr)
  | _ => Option.none

/-- A write at `addr` was ignored: set the block's CFG_IGNORED, and capture the write's offset
when the flag was clear. -/
def Chip.ignored (c : Chip) (addr : Nat) : Chip :=
  let die := addr / 2 ^ 44
  match ctrlOf (addr / 2 ^ 32 % 4096) with
  | Option.none => c
  | some (k, a) =>
    if bit (c.reg k die) 2 then c
    else (c.setFld k die [] 2 2 1).setReg a die [] (addr % 2 ^ 32)

/-- ENABLE of the block that owns `r`, on `die`. A block without ENABLE counts as enabled. -/
def Chip.enabled (c : Chip) (block die : Nat) : Bool :=
  match ctrlOf block with
  | Option.none => true
  | some (k, _) => bit (c.reg k die) 0

/-- Load a capture register whose VALID is bit 31, unless it already holds one. -/
def Chip.capture (c : Chip) (r : Reg) (die : Nat) (idx : List Nat) (v : Nat)
    (more : List (Reg × Nat)) : Chip :=
  if bit (c.reg r die idx) 31 then c
  else more.foldl (fun c rv => c.setReg rv.1 die idx rv.2) (c.setReg r die idx (putBits v 31 31 1))

/-! ### Message formats (R277, R278, R282) -/

def packReq (r : Req) : Bytes :=
  natLE 1 r.opc ++ natLE 1 (r.tc + 8 * b2n r.re) ++ natLE 2 r.tag ++ natLE 2 r.src ++
  natLE 2 r.handle ++ natLE 8 r.addr ++ natLE 2 r.payload.length ++ natLE 1 r.epoch ++
  natLE 1 r.attr ++ natLE 4 r.opnd ++ natLE 2 r.rsv ++ zerosB 6 ++ r.payload

def unpackReq (b : Bytes) : Req :=
  { opc := fieldB b 0 1, tc := fieldB b 1 1 % 8, re := bit (fieldB b 1 1) 3,
    tag := fieldB b 2 2, src := fieldB b 4 2 % 4096, handle := fieldB b 6 2,
    addr := fieldB b 8 8, epoch := fieldB b 0x12 1, attr := fieldB b 0x13 1,
    opnd := fieldB b 0x14 4, rsv := fieldB b 0x18 2,
    payload := sliceB b 32 (fieldB b 0x10 2) }

def packRsp (r : Rsp) : Bytes :=
  natLE 1 (if r.data = [] then 0x20 else 0x21) ++
  natLE 1 (r.status + 16 * b2n r.replay + 32 * b2n r.tgt) ++ natLE 2 r.tag ++ natLE 2 r.dst ++
  natLE 2 r.src ++ natLE 2 r.data.length ++ natLE 2 r.info ++ zerosB 4 ++ r.data

def unpackRsp (b : Bytes) : Rsp :=
  { status := fieldB b 1 1 % 16, replay := bit (fieldB b 1 1) 4, tgt := bit (fieldB b 1 1) 5,
    tag := fieldB b 2 2, dst := fieldB b 4 2 % 4096, src := fieldB b 6 2 % 4096,
    info := fieldB b 0xA 2, data := sliceB b 16 (fieldB b 8 2) }

/-- SNP_INV (0x10) or SNP_SHR (0x11). -/
def packSnoop (s : Snoop) : Bytes :=
  natLE 1 (if s.inv then 0x10 else 0x11) ++ zerosB 1 ++ natLE 2 s.tag ++ natLE 2 s.node ++
  natLE 2 s.src ++ natLE 8 s.addr

def unpackSnpRsp (b : Bytes) : SnpRsp :=
  { data := bit (fieldB b 1 1) 0, kept := bit (fieldB b 1 1) 1, tag := fieldB b 2 2,
    dst := fieldB b 4 2 % 4096, src := fieldB b 6 2 % 4096, line := sliceB b 16 (fieldB b 8 2) }

/-- Virtual channel of a request opcode (R275, R279). -/
def opcVc (opc : Nat) : Nat := if opc ≤ 7 then 0 else 1

/-- Opcodes the completion log tracks (R279). -/
def opcLogged (opc : Nat) : Bool := [4, 5, 7, 8, 9, 10, 11, 12].contains opc

/-- 16-byte units of a message of `n` bytes (R320). -/
def units (n : Nat) : Nat := cdiv n 16

/-! ### Shared-buffer cells (R346-R360) -/

def cellKey (die i : Nat) : Nat := die * 2 ^ 18 + i
def cellDie (k : Nat) : Nat := k / 2 ^ 18

/-- The first `n` free cells from key `nxt` on and below `top`, given the listed cells from there. -/
def freeCells (top : Nat) : KMap Cell → Nat → Nat → List Nat
  | [], nxt, n => (List.range (min n (top - nxt))).map (nxt + ·)
  | (k, v) :: t, nxt, n =>
    if k < nxt then freeCells top t nxt n
    else if n ≤ k - nxt ∨ top ≤ k then (List.range (min n (top - nxt))).map (nxt + ·)
    else
      (List.range (k - nxt)).map (nxt + ·) ++
        (if v.free then k :: freeCells top t (k + 1) (n - (k - nxt) - 1) else freeCells top t (k + 1) (n - (k - nxt)))

/-- Cells held by an account on a die: 0-63 port accounts, 64 + p partition accounts. -/
def Chip.heldCells (c : Chip) (die acct : Nat) : Nat :=
  (c.swc.cells.filter fun e => cellDie e.1 == die && !e.2.free && e.2.account == acct).length

def Chip.cell (c : Chip) (k : Nat) : Cell := kgetD c.swc.cells k {}

def Chip.setCell (c : Chip) (k : Nat) (v : Cell) : Chip :=
  { c with swc := { c.swc with cells := ksetD c.swc.cells k {} v } }

/-- In the mark phase every take and release marks the cell it touches (R359). -/
def Chip.marking (c : Chip) (k : Nat) : Bool := kgetD c.swc.skim (cellDie k) 0 == 1

/-- Allocate `n` cells of a die's 262,144 to an account, with REF 1 (R346, R356). -/
def Chip.allocCells (c : Chip) (die n acct : Nat) : Chip × List Nat :=
  let ks := freeCells (cellKey (die + 1) 0) c.swc.cells (cellKey die 0) n
  let ep := kgetD c.swc.epoch die false
  (ks.foldl (fun c k => c.setCell k
    { free := false, mark := c.marking k, epoch := ep, ref := 1, account := acct }) c, ks)

/-- One more reference on each cell stays within REF's 12 bits (R358). -/
def Chip.refsFit (c : Chip) (ks : List Nat) (n : Nat) : Bool := ks.all fun k => decide ((c.cell k).ref.toNat + n ≤ 4095)

/-- Take one more reference on each cell. -/
def Chip.takeRefs (c : Chip) (ks : List Nat) : Chip :=
  ks.foldl (fun c k =>
    let e := c.cell k
    c.setCell k { e with ref := e.ref + 1, mark := e.mark || c.marking k }) c

/-- Release one reference of each cell; at 0 the cell is free again, and a release that finds REF
at 0 only counts (R356, R360). -/
def Chip.releaseCells (c : Chip) (ks : List Nat) : Chip :=
  ks.foldl (fun c k =>
    let e := c.cell k
    if e.free || e.ref == 0 then c.bump .swcCountBad (cellDie k)
    else if e.ref == 1 then c.setCell k {}
    else c.setCell k { e with ref := e.ref - 1, mark := e.mark || c.marking k }) c

/-- Move the cells' charge to another account (R350). -/
def Chip.chargeCells (c : Chip) (ks : List Nat) (acct : Nat) : Chip :=
  ks.foldl (fun c k => c.setCell k { c.cell k with account := acct }) c

/-- MIN and MAX of a partition on a die, in cells (R371). -/
def Chip.shareMin (c : Chip) (die part : Nat) : Nat := 16 * c.fld .swcPartShare die [part] 31 16
def Chip.shareMax (c : Chip) (die part : Nat) : Nat :=
  16 * min 14336 (c.fld .swcPartShare die [part] 15 0)

/-- Guaranteed cells of a local port account: 512 per lane of its width at full training. -/
def Chip.portGuarantee (c : Chip) (die j : Nat) : Nat := 512 * 2 ^ (c.port (portOf die j)).fullWidth

/-- Common cells of a die that no account holds (R348). -/
def Chip.commonFree (c : Chip) (die : Nat) : Nat :=
  let mins := ((List.range 64).map (c.shareMin die)).sum
  let overP := ((List.range 64).map fun p => c.heldCells die (64 + p) - c.shareMin die p).sum
  let overL := ((List.range 64).map fun j => c.heldCells die j - c.portGuarantee die j).sum
  229376 - mins - overP - overL

/-- The partition's account can take `n` more cells (R350). -/
def Chip.shareFits (c : Chip) (die part n : Nat) : Bool :=
  let h := c.heldCells die (64 + part)
  let mn := c.shareMin die part
  decide (n = 0) ||
  (decide (h + n ≤ c.shareMax die part) &&
   (decide (h + n ≤ mn) || decide (h + n - max h mn ≤ c.commonFree die)))

/-- PORT_MAX of a local port account (R370). -/
def Chip.portMax (c : Chip) (die j : Nat) : Nat := min 8192 (c.fld .swcPortCfg die [j] 13 0)

/-- The port account can take `n` more cells: its guarantee, and common cells up to PORT_MAX (R348, R351). -/
def Chip.portFits (c : Chip) (die j n : Nat) : Bool :=
  let h := c.heldCells die j
  let g := c.portGuarantee die j
  decide (n = 0) ||
  (decide (h + n ≤ g + c.portMax die j) && (decide (h + n ≤ g) || decide (h + n - max h g ≤ c.commonFree die)))

/-- Message descriptors of a port die that messages of its ports hold, of its 65,536 (R346). -/
def Chip.descUsed (c : Chip) (die : Nat) : Nat :=
  (c.lnk.ports.map fun e => if portDie e.1 = die then
      e.2.queue.length + (e.2.curMsg.filter Option.isSome).length + e.2.inbox.length +
        ((List.range 4).filter fun v => !(e.2.rx.getD v []).isEmpty && e.2.rxMode.getD v .whole == .whole).length
    else 0).sum +
  ((c.gtx.pends ++ c.gtx.tstores.map (·.pend) ++ c.gtx.shareWait.map (·.pend)).filter fun x => match x.origin with
    | .port p _ => portDie p == die
    | .dev _ => die == 8).length

/-! ### Die-to-die paths (R363, R364) -/

/-- Next and previous port die around the ring. -/
def ringNext (d : Nat) : Nat := 8 + (d - 8 + 1) % 4
def ringPrev (d : Nat) : Nat := 8 + (d - 8 + 3) % 4

/-- The link that leads from one die to an adjacent one. -/
def linkTo (a b : Nat) : Nat :=
  if 8 ≤ a then (if b < 8 then b else if b = ringNext a then 8 else 9) else b - 8

/-- Candidate paths between two dies, in the order R363 tries them, as lists of dies. -/
def diePaths (a b h : Nat) : List (List Nat) :=
  if a = b then [[a]]
  else if 8 ≤ a then
    if b < 8 then [[a, b], [a, ringNext a, b], [a, ringPrev a, b],
      [a, ringNext a, ringNext (ringNext a), b], [a, ringPrev a, ringPrev (ringPrev a), b]]
    else if b = ringNext a then [[a, b], [a, ringPrev a, ringPrev (ringPrev a), b]]
    else if b = ringPrev a then [[a, b], [a, ringNext a, ringNext (ringNext a), b]]
    else if bit h 1 then [[a, ringNext a, b], [a, ringPrev a, b]]
    else [[a, ringPrev a, b], [a, ringNext a, b]]
  else if 8 ≤ b then [[a, b], [a, ringNext b, b], [a, ringPrev b, b],
      [a, ringNext (ringNext b), ringNext b, b], [a, ringNext (ringNext b), ringPrev b, b]]
  else
    let via := (List.range 4).map fun i => 8 + (bits h 3 2 + i) % 4
    (via.map fun v => [a, v, b]) ++
    (via.flatMap fun v => [[a, v, ringNext v, b], [a, v, ringPrev v, b],
      [a, v, ringNext v, ringNext (ringNext v), b], [a, v, ringPrev v, ringPrev (ringPrev v), b]])

/-- Consecutive pairs of a path as (die, link). -/
def pathLinks : List Nat → List (Nat × Nat)
  | a :: b :: t => (a, linkTo a b) :: pathLinks (b :: t)
  | _ => []

def Chip.linkDown (c : Chip) (die link : Nat) : Bool := c.swc.d2dDown.contains (die * 16 + link)

/-- The path a transfer takes, if any path is left. -/
def Chip.diePath (c : Chip) (a b h : Nat) : Option (List (Nat × Nat)) :=
  ((diePaths a b h).map pathLinks).find? fun p => p.all fun l => !c.linkDown l.1 l.2

/-- The other end of a link. -/
def linkPeer (die link : Nat) : Nat × Nat :=
  if die < 8 then (8 + link, die)
  else if link < 8 then (link, die - 8)
  else if link = 8 then (ringNext die, 9)
  else (ringPrev die, 8)

/-- The receiver of a link takes a transfer, unless it has taken that number before: a second copy is discarded
(R364). -/
def D2dTx.take (t : D2dTx) (seq : Nat) : D2dTx := if seq < t.taken then t else { t with taken := seq + 1 }

/-- A transfer to die `b` leaves on a link under the next sequence number: it is outstanding until it is acknowledged,
which ends the run of retries of the one before (R364). -/
def Chip.crossed (c : Chip) (die link b h : Nat) : Chip :=
  let k := die * 16 + link
  let r := kdel c.swc.retries k
  let t := kgetD c.swc.d2dTx k {}
  let t := { t.take t.seq with seq := t.seq + 1, out := t.out ++ [(t.seq, b, h)] }
  ({ c with swc := { c.swc with retries := r, d2dTx := kput c.swc.d2dTx k t } }).bump .swcD2dXfer die [link]

/-- A message crosses from one die to another: one transfer on each link of its path. -/
def Chip.cross (c : Chip) (a b h : Nat) : Chip :=
  match c.diePath a b h with
  | Option.none => c
  | some p => p.foldl (fun c l => c.crossed l.1 l.2 b h) c

/-- The transfers of the links so far are acknowledged. -/
def Chip.ackTransfers (c : Chip) : Chip :=
  { c with swc := { c.swc with d2dTx := c.swc.d2dTx.map fun e => (e.1, { e.2 with out := [] }) } }

/-- A message can cross: a path is left, and the switch cores of its dies move messages (R363, R369). -/
def Chip.pathOpen (c : Chip) (a b h : Nat) : Bool :=
  match c.diePath a b h with
  | Option.none => false
  | some p => c.enabled 4 a && p.all fun l => c.enabled 4 (linkPeer l.1 l.2).1

/-- Hash of a pool granule, for traffic without a message header (R363). -/
def granHash (g : Nat) : Nat := (g ^^^ (g / 2 ^ 16) ^^^ (g / 2 ^ 32) ^^^ (g / 2 ^ 48)) % 65536

/-! ### Egress queues and responses -/

/-- Link credits of a port return to its peer (R323, R324). -/
def Chip.freeCred (c : Chip) (cr : Option (Nat × Nat × Nat)) : Chip :=
  match cr with
  | none => c
  | some (p, vc, n) => c.modPort p fun q => { q with freed := modNth q.freed vc (fun x => (x + n) % 65536) }

/-- Put a message on a port's egress queue; it waits from now on. -/
def Chip.enqueue (c : Chip) (p : Nat) (m : EMsg) : Chip :=
  c.modPort p fun q => { q with queue := q.queue ++ [{ m with since := q.pcs }] }

/-- Die from which a message comes to its egress port: that of its cells, or the one named, or else `d`. -/
def EMsg.dieOr (m : EMsg) (d : Nat) : Nat := (m.cells.head?.map cellDie).getD (m.home.getD d)

/-- A response of partition `part` from a die, as an egress message: its data enters cells of the egress port's die
and of the partition's share as it leaves (R346-R348; notes/assumptions/147.md). -/
def rspMsg (r : Rsp) (part : Nat := 0) (die : Option Nat := Option.none) : EMsg :=
  { vc := 3, bytes := packRsp r, payload := r.data.length, dst := r.dst,
    hash := pathHash 0 r.tag r.dst r.src, home := die, acct := some (64 + part) }

/-- Send a response of partition `part` from a die: on the arrival port when `via` names one (R272), else on the
route to its DST; without a usable port it is dropped and counted (R273). -/
def Chip.sendRsp (c : Chip) (via : Option Nat) (r : Rsp) (part : Nat := 0) (die : Option Nat := Option.none) : Chip :=
  match via with
  | some p => c.enqueue p (rspMsg r part die)
  | Option.none =>
    match c.routePort r.dst (pathHash 0 r.tag r.dst r.src) with
    | some p => c.enqueue p (rspMsg r part die)
    | Option.none => c.bump .gtxRspDrop 12

/-- Index, within the GTX_ event and counter tables, of what a status counts as (R310). -/
def Chip.countStatus (c : Chip) (part : Option Nat) (status info : Nat) : Chip :=
  let c := if status = 5 then c.bump .gtxNotLocal 12 else c
  let c := if status = 9 then c.bump .gtxUnsup 12 else c
  let c := if status = 2 ∧ info = 2 then c.bump .gtxBadSrc 12 else c
  match part with
  | Option.none => c
  | some p =>
    let c := if status = 0 then c else c.bump .gtxRefused 12 [p]
    if status = 8 then c.bump .prtPartBusy 12 [p] else c

/-- GTX_CAPTURE of the first refusal (R306). -/
def Chip.captureRefusal (c : Chip) (r : Req) (status info : Nat) : Chip :=
  if status = 0 then c
  else c.capture .gtxCapture 12 []
    (status * 2 ^ 27 + (if status = 2 then info % 16 else 0) * 2 ^ 23 + r.src * 2 ^ 8 + r.opc % 256)
    [(.gtxCaptureAddrLo, r.addr % 2 ^ 32), (.gtxCaptureAddrHi, r.addr / 2 ^ 32)]

/-- Answer an arrived request. -/
def Chip.answer (c : Chip) (via : Option Nat) (part : Option Nat) (r : Req)
    (status info : Nat) (data : Bytes := []) (tgt replay : Bool := false) (die : Option Nat := Option.none) : Chip :=
  let c := (c.countStatus part status (if tgt then 0 else info)).captureRefusal r status (if tgt then 0 else info)
  c.sendRsp via { status := status, replay := replay, tgt := tgt, tag := r.tag, dst := r.src,
                  src := nodeOf r.addr, info := info, data := data } (part.getD 0) die

end Sys2Proof.Machine
end

