-- ==== Sys2Proof/Machine/Arbiters.lean ====
section
/-! DEFINITION. Weighted deficit round robin and the two-level arbiter trees of the switch core (R365-R367, R376). -/

namespace Sys2Proof.Machine

/-- P_W of a partition (R376). -/
def Chip.partW (c : Chip) (part : Nat) : Nat := max 1 (c.fld .tshPartCfg 12 [part] 7 0)

/-- QUANTUM of a die in cells, 0 acting as 1; a core die, whose SWC_GLB holds no QUANTUM, has the reset value that
R367's example gives it (notes/assumptions/148.md). -/
def Chip.quantum (c : Chip) (die : Nat) : Nat := if die < 8 then 16 else max 1 (c.fld .swcGlb die [] 7 0)

/-- A child of an arbiter: its index, the sum of its active leaves' weights, and the cost in cells of what it would
send next, with its place. -/
structure Child where
  idx : Nat
  w : Nat
  at_ : Nat
  cost : Nat
  deriving DecidableEq, Repr

/-- Turns in order until a child's deficit covers the cost of its head. -/
def wdrrGo (q : Nat) : List Child → KMap Nat → Option Child × KMap Nat
  | [], d => (none, d)
  | ch :: t, d =>
    let v := kgetD d ch.idx 0 + ch.w * q
    let d := kput d ch.idx v
    if ch.cost ≤ v then (some ch, d) else wdrrGo q t d

/-- Weighted deficit round robin (R367) over the children that can send, by ascending index; the
child that holds the turn keeps it while its deficit lasts. Answers the child and the deficits. -/
def wdrr (q : Nat) (last : Nat) (d : KMap Nat) (cs : List Child) : Option Child × KMap Nat :=
  match cs.find? fun ch => ch.idx == last && decide (ch.cost ≤ kgetD d ch.idx 0) with
  | some ch => (some ch, d)
  | none =>
    let order := cs.filter (fun ch => decide (last < ch.idx)) ++ cs.filter (fun ch => decide (ch.idx ≤ last))
    wdrrGo q (List.replicate 257 order).flatten d

/-- A leaf of a tree: the die on whose arbiter it hangs, its index there, its weight, and the cost and place of what
it has at its head. -/
structure Leaf where
  die : Nat
  idx : Nat
  w : Nat
  at_ : Nat := 0
  cost : Nat := 1
  deriving DecidableEq, Repr

/-- Leaves in order of their indices, those of one index as they came. -/
def insLeaf (l : Leaf) : List Leaf → List Leaf
  | [] => [l]
  | x :: t => if l.idx ≤ x.idx then l :: x :: t else x :: insLeaf l t

def sortLeaves (ls : List Leaf) : List Leaf := ls.foldr insLeaf []

/-- One leaf per requester queue, with its first head, in order of their indices. -/
def oneEach (ls : List Leaf) : List Leaf :=
  sortLeaves (ls.foldl (fun (a : List Leaf) l => if a.any fun x => x.die == l.die && x.idx == l.idx then a else a ++ [l]) [])

/-- The same queue's leaf, with another head. -/
def Leaf.same (a b : Leaf) : Bool := a.die == b.die && a.idx == b.idx

/-- Indices of children stay below this. -/
def childMax : Nat := 8192

/-- Deficits of an arbiter, by child. -/
def Chip.deficits (c : Chip) (arb : Nat) : KMap Nat :=
  (c.swc.deficit.filter fun e => e.1 / childMax == arb).map fun e => (e.1 % childMax, e.2)

/-- Store an arbiter's deficits; a child that is not active has none. -/
def Chip.setDeficits (c : Chip) (arb : Nat) (active : List Nat) (d : KMap Nat) : Chip :=
  let others := c.swc.deficit.filter fun e => e.1 / childMax != arb
  let mine := d.filter fun e => active.contains e.1
  { c with swc := { c.swc with
      deficit := mine.foldl (fun m e => ksetD m (arb * childMax + e.1) 0 e.2) others } }

def Chip.setLast (c : Chip) (arb child : Nat) : Chip :=
  { c with swc := { c.swc with lastChild := kput c.swc.lastChild arb child } }

/-- One arbiter's choice among children. -/
def Chip.arbitrate (c : Chip) (arb die : Nat) (cs : List Child) : Option Child × KMap Nat :=
  wdrr (c.quantum die) (kgetD c.swc.lastChild arb (childMax - 1)) (c.deficits arb) cs

/-- The choice of a tree for a resource of die `top`: an arbiter on each die of a leaf, key `tree * 16` + die, and one
at the resource, key `tree * 16` + 15. `active` are its leaves with something that waits, `heads` those of them whose
head can go, in order of their indices. Answers the leaf, and the state after its turn. -/
def Chip.treePick (c : Chip) (tree top : Nat) (active heads : List Leaf) : Option (Leaf × Chip) :=
  let key (die : Nat) : Nat := tree * 16 + die
  let dies := [0, 1, 2, 3, 4, 5, 6, 7, 8, 9, 10, 11].filter fun d => active.any fun l => l.die == d
  let weight (d : Nat) : Nat := ((active.filter fun l => l.die == d).map (·.w)).sum
  let inner (d : Nat) : Option Child × KMap Nat :=
    c.arbitrate (key d) d ((heads.filter fun l => l.die == d).map fun l => { idx := l.idx, w := l.w, at_ := l.at_, cost := l.cost })
  let cs : List Child := dies.filterMap fun d => (inner d).1.map fun ch => { ch with idx := d, w := weight d }
  let outer := c.arbitrate (key 15) top cs
  outer.1.bind fun win =>
    let i := inner win.idx
    i.1.map fun ch =>
      let spend (d : KMap Nat) (k : Nat) : KMap Nat := kput d k (kgetD d k 0 - win.cost)
      let c := (c.setDeficits (key 15) dies (spend outer.2 win.idx)).setLast (key 15) win.idx
      let c := (c.setDeficits (key win.idx) ((active.filter fun l => l.die == win.idx).map (·.idx)) (spend i.2 ch.idx)).setLast
        (key win.idx) ch.idx
      ({ die := win.idx, idx := ch.idx, w := ch.w, at_ := ch.at_, cost := ch.cost }, c)

/-- Children of a tree that have nothing left that waits lose their deficits at once (R367, R368). -/
def Chip.treeIdle (c : Chip) (tree : Nat) (active : List Leaf) : Chip :=
  let keep (e : Nat × Nat) : Bool :=
    let arb := e.1 / childMax
    let ch := e.1 % childMax
    arb / 16 != tree || (if arb % 16 = 15 then active.any fun l => l.die == ch else active.any fun l => l.die == arb % 16 && l.idx == ch)
  { c with swc := { c.swc with deficit := c.swc.deficit.filter keep } }

/-! ### Trees: classes at egress ports, home slices, engines, snoops at egress ports -/

def portTree (p cls : Nat) : Nat := p * 8 + cls
def sliceTree (die : Nat) : Nat := 2048 + die
def engTree (kind e : Nat) : Nat := 2064 + kind * 64 + e
def snoopTree (p : Nat) : Nat := 2304 + p

end Sys2Proof.Machine
end

