-- ==== Sys2Proof/Machine/Wire.lean ====
section
/-! DEFINITION. Rinlidal records on the Ethernet port: sealing, sending and the response and
notification headers (R516-R530). -/

namespace Sys2Proof.Machine

/-- Big-endian bytes of a number. -/
def natBE (n v : Nat) : Bytes := (natLE n v).reverse
def beNat (b : Bytes) : Nat := leNat b.reverse

/-- ASCII bytes of a text. -/
def ascii (s : String) : Bytes := s.toList.map fun ch => BitVec.ofNat 8 ch.toNat

/-- The 24-byte record header (R516). -/
def recHeader (type len session seq : Nat) : Bytes :=
  natLE 4 0x31444C52 ++ natLE 1 1 ++ natLE 1 type ++ natLE 2 len ++ natLE 4 session ++ zerosB 4 ++
  natBE 8 seq

/-- GCM nonce of a record (R517): direction, three zero bytes, SEQ. -/
def recNonce (fromInit : Bool) (seq : Nat) : Bytes :=
  natLE 1 (if fromInit then 0 else 1) ++ zerosB 3 ++ natBE 8 seq

/-- The bytes of the NET section (R495). -/
def Chip.net (c : Chip) (off len : Nat) : Nat := fieldB c.boot.image.net off len

/-- Body bytes that fit one record to an address: MTU (capped, R515) less the IP and UDP headers
and the 24-byte record header. -/
def Chip.maxRecBody (c : Chip) (v6 : Bool) : Nat :=
  let cap := if bit (c.net 6 1) 2 then 9194 else 9198
  min (c.net 0xC 2) cap - (if v6 then 40 else 20) - 8 - 24

/-- Big-endian value of the first `p` bits of an address of `n` bytes; a NET address is the number whose byte 0 is the
address's first byte. -/
def addrPrefix (n p ip : Nat) : Nat := beNat (natLE n ip) / 2 ^ (8 * n - p)

/-- The destination lies in the prefix of NET, or is the limited broadcast or a multicast address, which no gateway
takes (notes/assumptions/40.md). -/
def Chip.onLink (c : Chip) (v6 : Bool) (ip : Nat) : Bool :=
  if v6 then addrPrefix 16 (c.net 0xF 1) ip == addrPrefix 16 (c.net 0xF 1) (c.net 0x14 16) || ip % 256 == 0xFF
  else addrPrefix 4 (c.net 0xE 1) ip == addrPrefix 4 (c.net 0xE 1) (c.net 0x10 4) || ip == 0xFFFFFFFF

def Chip.gateway (c : Chip) (v6 : Bool) : Nat := if v6 then c.net 0x24 16 else c.net 0x34 4

/-- Where the frame of a datagram goes: to the gateway when the destination lies outside the port's prefix and NET has
one (R495, R515). -/
def Chip.nextHop (c : Chip) (v6 : Bool) (ip : Nat) : Nat :=
  if c.onLink v6 ip || c.gateway v6 == 0 then ip else c.gateway v6

/-- The head of a datagram to an address: IPv4 with DF and TTL 64, IPv6 with hop limit 64 (R515). -/
def Chip.ipHead (c : Chip) (v6 : Bool) (dst : Nat) : IpHead :=
  { v6 := v6, src := if v6 then c.net 0x14 16 else c.net 0x10 4, hop := c.nextHop v6 dst, ttl := 64, df := !v6 }

/-- What the port sends travels from its station address, with the VLAN tag that NET sets (R495, R514). -/
def Chip.ethFrame (c : Chip) (o : EthOut) : EthFrame :=
  { out := o, mac := c.net 0 6, vlan := if bit (c.net 6 1) 2 then some (c.net 8 2 % 4096) else none
    ip := match o with
      | .record a _ _ _ _ => some (c.ipHead a.v6 a.ip)
      | .arp _ _ _ => none
      | .nd _ _ ip => some (c.ipHead true ip)
      | .echo v6 dst _ => some (c.ipHead v6 dst) }

/-- Put a frame on the Ethernet wire; a link that is down carries none (R543). -/
def Chip.ethSend (c : Chip) (o : EthOut) : Chip :=
  if c.boot.ethUp then { c with mgt := { c.mgt with ethTx := c.mgt.ethTx ++ [c.ethFrame o] } } else c

/-- Send a clear record. -/
def Chip.sendClear (c : Chip) (to_ : NetAddr) (type session : Nat) (body : Bytes) : Chip :=
  c.ethSend (.record to_ type session 0 body)

def Chip.session? (c : Chip) (id : Nat) : Option Session :=
  c.mgt.sessions.find? fun s => s.id == id

def Chip.modSession (c : Chip) (id : Nat) (f : Session → Session) : Chip :=
  { c with mgt := { c.mgt with sessions := modFirst (fun s => s.id == id) f c.mgt.sessions } }

/-- A protected record of a session with its next SEQ. -/
def sealRec (s : Session) (type : Nat) (body : Bytes) : EthOut :=
  let seq := s.txSeq + 1
  let aad := recHeader type (body.length + 16) (s.id % 2 ^ 32) seq
  .record s.addr type (s.id % 2 ^ 32) seq (Config.gcmSeal s.keyTx (recNonce s.init seq) aad body)

/-- Send a protected record on a session, if there is one. -/
def Chip.sendOn (c : Chip) (id type : Nat) (body : Bytes) : Chip :=
  match c.session? id with
  | none => c
  | some s => (c.ethSend (sealRec s type body)).modSession id fun s => { s with txSeq := s.txSeq + 1 }

/-- Response header of one segment (R522). -/
def rspHeader (opc status detail reqId len seg segs : Nat) (replay : Bool) (tick : Nat) : Bytes :=
  natLE 2 (opc + 0x8000) ++ natLE 1 status ++ natLE 1 detail ++ natLE 4 reqId ++ natLE 2 len ++
  natLE 1 seg ++ natLE 1 (segs + 128 * b2n replay) ++ natLE 4 (tick % 2 ^ 32)

/-- Send a response, divided into segments that fit one record each (R523). -/
def Chip.sendResponse (c : Chip) (id reqId opc status detail : Nat) (body : Bytes) (replay : Bool) : Chip :=
  match c.session? id with
  | none => c
  | some s =>
    let n := max 1 (c.maxRecBody s.addr.v6 - 16 - 16)
    let segs := if body = [] then [[]] else chunksOf n body.length body
    (segs.zipIdx).foldl (fun c p =>
      c.sendOn id 4 (rspHeader opc status detail reqId p.1.length p.2 segs.length replay c.tick ++ p.1)) c

/-- Header of a device-initiated record (R530): OPC, REQ_ID 0, SEGS 1. -/
def reqHeader (opc reqId seg segs len : Nat) : Bytes :=
  natLE 2 opc ++ natLE 1 seg ++ natLE 1 segs ++ natLE 4 reqId ++ natLE 2 len ++ zerosB 6

def Chip.ownerSession? (c : Chip) : Option Session := c.mgt.sessions.find? fun s => s.kind == 0
def Chip.agentSession? (c : Chip) (p : Nat) : Option Session :=
  c.mgt.sessions.find? fun s => s.kind == 1 && s.part == p

/-- NOTIFY on the partition's agent session, else on the owner session (R477, R530). -/
def Chip.sendNotify (c : Chip) (part : Nat) (rec : Bytes) : Chip :=
  let body := reqHeader 0xC001 0 0 1 rec.length ++ rec
  match c.agentSession? part, c.ownerSession? with
  | some s, _ => c.sendOn s.id 4 body
  | none, some s => c.sendOn s.id 4 body
  | none, none => c

end Sys2Proof.Machine
end

