-- ==== Sys2Proof/Machine/Irq.lean ====
section
/-! DEFINITION. Events: the master table (R479), latches and routing to management cores
(R468-R474), notification records (R475-R478), requests the device issues (R301, R302), and the
IRQ_ACK, IRQ_EOI, MOD_INT_EXPIRY commands. -/

namespace Sys2Proof.Machine

/-! ### Master event table (R479) -/

namespace Ev
def coreResidue := 0x000
def coreEccUe := 0x001
def setTimeout := 0x080
def badRecord := 0x081
def badDesc := 0x082
def watchdog := 0x083
def kernelFail := 0x084
def bowlTimeout := 0x085
def silentErr := 0x086
def noMajority := 0x087
def coreSuspect := 0x088
def coreFenced := 0x089
/-- Whisk 0x100, tongs 0x104, colander 0x108. -/
def badOp (kind : Nat) := 0x100 + 4 * kind
def opAbandoned (kind : Nat) := 0x101 + 4 * kind
def opTimeout (kind : Nat) := 0x102 + 4 * kind
def opFail (kind : Nat) := 0x103 + 4 * kind
def checkFail := 0x180
def cmpDataErr := 0x181
def jobDone := 0x182
def jobFail := 0x183
def stackFailed := 0x200
def spareInducted := 0x201
def rebuildDone := 0x202
def regionLost := 0x203
def objAbsent := 0x204
def loadDone := 0x205
def flashFailed := 0x206
def badQuery := 0x280
def queryFail := 0x281
def queryTimeout := 0x282
def deltaFull := 0x283
def compactDone := 0x284
def badSource := 0x300
def staleDrop := 0x301
def reqGivenUp := 0x302
def linkUp := 0x380
def linkRetrain := 0x381
def linkNarrow := 0x382
def linkFailed := 0x383
def credTimeout := 0x384
def rankEqual := 0x385
def cellLeak := 0x400
def freeListBad := 0x401
def d2dFault := 0x402
def policeExceed := 0x403
def gateOverrun := 0x404
def ownShareExceeded := 0x405
def snoopTimeout := 0x480
def nodeLost := 0x481
def lineLost := 0x482
def authFail := 0x500
def grantTagFail := 0x501
def treeExhausted := 0x502
def revokeSlow := 0x503
def keyNeeded := 0x504
def regionRevoked := 0x505
def resetDone := 0x580
def drainTimeout := 0x581
def partActive := 0x582
def notifyDrop := 0x583
def eoiUnderflow := 0x584
def devState := 0x600
def bringupFault := 0x601
def mcFailover := 0x680
def heartbeatLost := 0x681
def dumpDone := 0x682
def msgQueueFull := 0x683
def sessionEnd := 0x684
def thermWarn := 0x700
def thermTrip := 0x701
def railFault := 0x702
def floorRaised := 0x703
def sw (n : Nat) := 0x780 + n
end Ev

/-! ### Firmware path (R468-R474) -/

def Chip.irqCore (c : Chip) (k : Nat) : IrqCore := kgetD c.irq.cores k {}

def Chip.modIrqCore (c : Chip) (k : Nat) (f : IrqCore → IrqCore) : Chip :=
  { c with irq := { c.irq with cores := kmod c.irq.cores k {} f } }

/-- First core after the source's last target whose TARGET bit is set and whose EN is 1 (R470). -/
def Chip.routeCore (c : Chip) (src : Nat) : Option Nat :=
  let last := kgetD c.irq.lastTarget src 7
  let target := c.fld .irqSrcCfg 12 [src] 7 0
  ((List.range 8).map fun i => (last + 1 + i) % 8).find? fun k =>
    bit target k && bit (c.reg .irqCoreCfg 12 [k]) 31

/-- Priority of a latch that core `k` holds. -/
def Chip.prio (c : Chip) (src : Nat) : Nat := c.fld .irqSrcCfg 12 [src] 15 12

/-- The core's highest-priority latch above its running priority, lowest source first (R471). -/
def Chip.bestLatch (c : Chip) (k : Nat) : Option Nat :=
  let mine := (c.irq.latches.filter fun e => e.2.core == some k).map (·.1)
  let above := mine.filter fun s =>
    match (c.irqCore k).running with
    | none => true
    | some r => decide (r < c.prio s)
  minBy? (fun s => (15 - c.prio s) * 4096 + s) above

/-- The hold-off of R473 has ended. -/
def Chip.holdOff (c : Chip) (k : Nat) : Bool :=
  match (c.irqCore k).running, (c.irqCore k).lastAccept with
  | some _, some t => !c.due t (c.fld .irqCoreCfg 12 [k] 15 0)
  | _, _ => false

/-- Signal a core that may be signalled (R471, R473). -/
def Chip.resignal (c : Chip) (k : Nat) : Chip :=
  c.modIrqCore k fun q => { q with
    signalled := !bit (c.reg .irqCoreCfg 12 [k]) 30 && (c.bestLatch k).isSome && !c.holdOff k }

/-- Give a latch its target core, which wakes (R470, R474). -/
def Chip.routeLatch (c : Chip) (src : Nat) : Chip :=
  match kfind? c.irq.latches src with
  | none => c
  | some l =>
    match c.routeCore src with
    | none => { c with irq := { c.irq with latches := kput c.irq.latches src { l with core := none } } }
    | some k =>
      let c := { c with irq := { c.irq with
        latches := kput c.irq.latches src { l with core := some k },
        lastTarget := kput c.irq.lastTarget src k } }
      (c.modIrqCore k fun q => { q with sleep := false }).resignal k

/-- Set or coalesce a source's latch (R469). -/
def Chip.latchEvent (c : Chip) (src : Nat) (part : Option Nat) (i0 i1 : Nat) : Chip :=
  match kfind? c.irq.latches src with
  | some l =>
    { c with irq := { c.irq with
        latches := kput c.irq.latches src { l with count := min 511 (l.count + 1) } } }.bump
      .irqCoalesced 12
  | none =>
    ({ c with irq := { c.irq with
        latches := kput c.irq.latches src { part := part, info0 := i0, info1 := i1 } } }).routeLatch src

/-- An event's firmware path: nothing while the controller is off, a drop for a disabled source. -/
def Chip.fwEvent (c : Chip) (src : Nat) (part : Option Nat) (i0 i1 : Nat) : Chip :=
  if !c.enabled 0x11 12 then c
  else if !bit (c.reg .irqSrcCfg 12 [src]) 31 then c.bump .irqDropped 12
  else c.latchEvent src part i0 i1

/-! ### Requests the device issues (R301, R302) -/

/-- OUT_TC of a partition (R374, R394). -/
def Chip.outTc (c : Chip) (part : Nat) : Nat := c.fld .tshPartCfg 12 [part] 10 8

/-- Die in which a request of the device arises (R347): its engine's, the one an MSTORE came by, or that of its core,
launch or compressor; none where the spec names none. -/
def Chip.ownerDie? (c : Chip) (o : Owner) : Option Nat :=
  let eng (id : Nat) : Option Nat := (c.eng.ops.find? fun x => x.id == id).map fun x => engDie x.engine
  match o with
  | .engRead op _ => eng op
  | .engWrite op => eng op
  | .engFlag op => eng op
  | .mTarget mid _ => (c.gtx.mstores.find? fun x => x.id == mid).bind fun x => match x.origin with
    | .port p _ => some (portDie p)
    | .dev _ => none
  | .kernel key _ => some (coreDie (key / 4))
  | .fill _ core _ => some (coreDie core)
  | .image id _ => (c.dsp.launches.find? fun l => l.id == id).map (·.die)
  | .job die => some die
  | _ => none

/-- A device-issued request as an egress message. -/
def Chip.devMsg (c : Chip) (d : DevReq) (cells : List Nat) : EMsg :=
  { vc := opcVc d.req.opc, tc := d.req.tc, bytes := packReq d.req, payload := d.req.payload.length,
    cells := cells, dev := some d.id, dst := d.dst, home := c.ownerDie? d.owner
    hash := pathHash d.req.addr d.req.tag d.req.src d.dst }

def Chip.addDevReq (c : Chip) (d : DevReq) : Chip :=
  { c with gtx := { c.gtx with devReqs := c.gtx.devReqs ++ [d] } }

def Chip.holdDevReq (c : Chip) (d : DevReq) : Chip :=
  { c with gtx := { c.gtx with devHeld := c.gtx.devHeld ++ [d] } }

def Chip.addJob (c : Chip) (j : LocalJob) : Chip :=
  { c with gtx := { c.gtx with localQ := c.gtx.localQ ++ [j] } }

/-- A new logged request with this tag would lie 1,024 or more beyond an unanswered one of the partition
towards the destination (R297, R301). -/
def Chip.tagFar (c : Chip) (part dst tag : Nat) : Bool :=
  c.gtx.devReqs.any fun d => d.part == part && d.dst == dst && d.logged && decide (1024 ≤ (tag + 65536 - d.req.tag) % 65536)

/-- A tag for a request that the destination does not log: one far from the logged ones and not in use
(notes/assumptions/96.md). -/
def Chip.freeTag (c : Chip) (part dst tag : Nat) : Nat :=
  let used := (c.gtx.devReqs.filter fun d => d.part == part && d.dst == dst).map (·.req.tag)
  ((List.range (used.length + 1)).map fun i => (tag + 32768 + i) % 65536).find? (!used.contains ·) |>.getD tag

/-- Port die whose cells take a request's payload: the one where it arises, or, where that is none, its port's
(R347). -/
def Chip.cellDieOf (c : Chip) (d : DevReq) (p : Nat) : Nat := ((c.ownerDie? d.owner).filter fun x => decide (8 ≤ x)).getD (portDie p)

/-- New cells that a request takes there: none when it has a pointer to those of its MSTORE (R357). -/
def DevReq.newCells (d : DevReq) : Nat := if d.cells.isEmpty then cdiv d.req.payload.length 256 else 0

/-- The partition's share takes them (R350). -/
def Chip.devFits (c : Chip) (d : DevReq) (p : Nat) : Bool := c.shareFits (c.cellDieOf d p) d.part d.newCells

/-- Send a request on a port; the egress queue's entry takes over its pointer, or new cells (R356, R357). -/
def Chip.putOnPort (c : Chip) (d : DevReq) (p : Nat) : Chip :=
  let r := c.allocCells (c.cellDieOf d p) d.newCells (64 + d.part)
  (r.1.addDevReq { d with port := some p, issued := c.tick, cells := [], unsent := false }).enqueue p
    (r.1.devMsg d (d.cells ++ r.2))

/-- Send a request again: it waits while its share cannot take its cells (R350, R351), and with no usable port it
counts as sent now (R302). -/
def Chip.sendAgainOn (c : Chip) (d : DevReq) (port : Option Nat) : Chip :=
  match port with
  | none => c.addDevReq { d with port := none, issued := c.tick, unsent := false }
  | some p =>
    if c.devFits d p then c.putOnPort d p
    else
      let c := if d.unsent then c else c.bump .swcShareWait (c.cellDieOf d p)
      c.addDevReq { d with port := some p, issued := c.tick, unsent := true }

/-- Issue a request to a PORTS node: a logged one takes the next TAG (R301), and it leaves on a usable port;
it is held while its TAG is too far ahead (R297) or the share cannot take its cells (R350); with no usable
port it counts as sent now (R302). -/
def Chip.issueOut (c : Chip) (d : DevReq) : Chip :=
  let key := d.part * 4096 + d.dst
  let nxt := kgetD c.gtx.nextTag key 0
  if d.logged ∧ c.tagFar d.part d.dst nxt = true then c.holdDevReq d
  else
    let tag := if d.logged then nxt else c.freeTag d.part d.dst nxt
    let d' := { d with req := { d.req with tag := tag } }
    let c' := if d.logged then { c with gtx := { c.gtx with nextTag := kput c.gtx.nextTag key ((tag + 1) % 65536) } } else c
    match c.routePort d.dst (pathHash d.req.addr tag d.req.src d.dst) with
    | none => c'.addDevReq { d' with port := none, issued := c.tick }
    | some p =>
      if c.devFits d p then c'.putOnPort d' p
      else (c.holdDevReq d).bump .swcShareWait (c.cellDieOf d p)

/-- Give a request its route: out, performed here, or NOT_LOCAL, which is counted (R271, R274, R310). -/
def Chip.issueTo (c : Chip) (d : DevReq) : Chip :=
  match c.node d.dst with
  | .ports _ _ => c.issueOut d
  | .here _ => c.addJob { req := d }
  | .none => (c.bump .gtxNotLocal 12).addJob { req := d, ans := some { status := some 5 } }

def Chip.newDevReq (c : Chip) (part src : Nat) (o : Owner) (r : Req) : DevReq :=
  { id := c.gtx.nextId, part := part, dst := nodeOf r.addr, owner := o, logged := opcLogged r.opc,
    req := { r with src := src, tc := c.outTc part, re := false, rsv := 0 } }

def Chip.takeId (c : Chip) : Chip := { c with gtx := { c.gtx with nextId := c.gtx.nextId + 1 } }

/-! ### Partition path (R475-R478) -/

/-- The 32-byte notification record (R476). -/
def notifyRecord (seq src part : Nat) (reach : Bool) (i0 i1 tick : Nat) : Bytes :=
  natLE 4 seq ++ natLE 2 (src + 32768 * b2n reach) ++ natLE 1 part ++ zerosB 1 ++ natLE 8 i0 ++
  natLE 8 i1 ++ natLE 4 (tick % 2 ^ 32) ++ zerosB 4

/-- A record given up: counted, and NOTIFY_DROP to firmware (R477). -/
def Chip.notifyDropped (c : Chip) (part : Nat) : Chip :=
  ((c.bump .irqNotifyDrop 12).fwEvent Ev.notifyDrop none 0 0).bump .gtxGivenUp 12 [part]

/-- Deliver one record on one vector. A record that no LOCAL entry lets go cannot be told of by another one: its
REQ_GIVEN_UP goes to firmware only (notes/assumptions/151.md). -/
def Chip.notifyVec (c : Chip) (p v src : Nat) (reach : Bool) (i0 i1 : Nat) : Chip :=
  let cfg := c.reg .irqVecCfg 12 [p, v]
  let seq := kgetD c.irq.seq (p * 8 + v) 1
  let rec_ := notifyRecord seq src p reach i0 i1 c.tick
  let c := { c with irq := { c.irq with seq := ksetD c.irq.seq (p * 8 + v) 1 ((seq + 1) % 2 ^ 32) } }
  if bit cfg 30 then (c.sendNotify p rec_).bump .irqNotifySent 12
  else
    let base := c.reg .irqVecBase 12 [p, v, 0] + 2 ^ 32 * c.reg .irqVecBase 12 [p, v, 1]
    let ring := 2 ^ max 2 (bits cfg 27 24)
    match c.localNode p with
    | none => (c.notifyDropped p).fwEvent Ev.reqGivenUp (some p) (c.reg .gtxCapture 12) 0
    | some n =>
      let r : Req := { opc := 4, addr := base + (seq + 2 ^ 32 - 1) % 2 ^ 32 % ring * 32, payload := rec_ }
      let d := { c.newDevReq p n (.notify p v) r with dst := bits cfg 11 0 }
      (c.takeId.issueTo d).bump .irqNotifySent 12

/-- Deliver an occurrence to every selected vector of a partition (R475). -/
def Chip.notifyPart (c : Chip) (p src i0 i1 : Nat) (reach : List Nat) : Chip :=
  (List.range 8).foldl (fun c v =>
    let cfg := c.reg .irqVecCfg 12 [p, v]
    let byGrant := !bit cfg 30 && reach.contains (bits cfg 11 0)
    let byMask := bit (c.reg .irqVecMask 12 [p, v]) (src / 128)
    if bit cfg 31 && (byGrant || byMask) then c.notifyVec p v src byGrant i0 i1 else c) c

/-- An event occurs: firmware path, then the partition path when PART_NOTIFY is 1 (R468). -/
def Chip.raise (c : Chip) (src : Nat) (parts : List Nat) (i0 i1 : Nat := 0) (reach : List Nat := []) : Chip :=
  let c' := c.fwEvent src parts.head? i0 i1
  let w := c.reg .irqSrcCfg 12 [src]
  if c.enabled 0x11 12 && bit w 31 && bit w 30 then
    parts.foldl (fun c p => c.notifyPart p src i0 i1 reach) c'
  else c'

/-! ### Issuing on behalf of a block -/

/-- A request is given up: counted, raised to its partition, and reported to its block with no
status (R302). -/
def Chip.giveUp (c : Chip) (d : DevReq) : Chip :=
  match d.owner with
  | .notify p _ => (c.notifyDropped p).raise Ev.reqGivenUp [p] (c.reg .gtxCapture 12)
  | _ =>
    ((c.bump .gtxGivenUp 12 [d.part]).raise Ev.reqGivenUp [d.part] (c.reg .gtxCapture 12)).addJob
      { req := d, ans := some {} }

/-- Issue a request of a partition (R301), with its pointer to cells that hold its payload already; one without a
LOCAL node is given up at once (R302). -/
def Chip.issue (c : Chip) (part : Nat) (o : Owner) (r : Req) (cells : List Nat := []) : Chip :=
  match c.localNode part with
  | none => c.takeId.giveUp { c.newDevReq part 0 o r with cells := cells }
  | some n => c.takeId.issueTo { c.newDevReq part n o r with cells := cells }

/-- A request that was held is to be issued: from the partition's LOCAL node as it is now, or it is given up (R302). -/
def Chip.issueHeld (c : Chip) (d : DevReq) : Chip :=
  match c.localNode d.part with
  | none => c.giveUp d
  | some n => c.issueTo { d with req := { d.req with src := n } }

/-- A request that waits to be sent again tries once more. -/
def Chip.retryUnsent (c : Chip) (d : DevReq) : Chip :=
  let ds := c.gtx.devReqs.filter fun x => x.id != d.id
  ({ c with gtx := { c.gtx with devReqs := ds } }).sendAgainOn d
    (c.routePort d.dst (pathHash d.req.addr d.req.tag d.req.src d.dst))

/-- Retry, once each and in order, the requests that wait to be sent again, and those that were held. -/
def Chip.retryHeld (c : Chip) : Chip :=
  let c := (c.gtx.devReqs.filter (·.unsent)).foldl (fun c d => c.retryUnsent d) c
  let hs := c.gtx.devHeld
  hs.foldl (fun c d => c.issueHeld d) { c with gtx := { c.gtx with devHeld := [] } }

/-! ### Commands of the controller -/

/-- IRQ_ACK word (R486). -/
def ackWord (prio src : Nat) (part : Option Nat) (count : Nat) : Nat :=
  2 ^ 31 + prio * 2 ^ 27 + src * 2 ^ 16 + part.getD 0 * 2 ^ 10 + b2n part.isSome * 2 ^ 9 + count

/-- A read of IRQ_ACK by a management core's register: value and state (R471). -/
def Chip.irqAck (c : Chip) (k : Nat) : Nat × Chip :=
  match c.bestLatch k with
  | none => (0, c)
  | some s =>
    let l := kgetD c.irq.latches s {}
    let pr := c.prio s
    let c := { c with irq := { c.irq with latches := kdel c.irq.latches s } }
    let c := c.modIrqCore k fun q => { q with
      stack := q.running :: q.stack, running := some pr, lastAccept := some c.tick,
      info0 := l.info0, info1 := l.info1 }
    (ackWord pr s l.part l.count, (c.bump .irqAccepted 12).resignal k)

/-- A write of IRQ_EOI by a privileged master (R472). -/
def Chip.irqEoi (c : Chip) (k : Nat) : Chip :=
  match (c.irqCore k).stack with
  | [] => (c.bump .irqEoiUnder 12).fwEvent Ev.eoiUnderflow none 0 0
  | r :: t => (c.modIrqCore k fun q => { q with running := r, stack := t }).resignal k

/-- The MOD_INT hold-off of a core ends (R473). -/
def Chip.modIntExpiry (c : Chip) (k : Nat) : Chip := c.resignal k

/-- Route the latches that have no target, or whose target is among `lost` (R470, R480). -/
def Chip.reroute (c : Chip) (lost : List Nat) : Chip :=
  (kkeys (c.irq.latches.filter fun e => match e.2.core with
    | none => true
    | some k => lost.contains k)).foldl (fun c s => c.routeLatch s) c

end Sys2Proof.Machine
end

