-- ==== Sys2Proof/Machine/MemTiers.lean ====
section
/-! DEFINITION. The DRAM and flash tiers: pool addresses, copies, objects and extents, loads, the
spare stack and the rebuild (chapter 6). -/

namespace Sys2Proof.Machine

/-! ### Pool addresses (R195-R197) -/

/-- Where a pool address lies: logical stack, channel, byte within the channel. -/
structure PoolLoc where
  ls : Nat
  ch : Nat
  loc : Nat
  q : Nat
  deriving DecidableEq, Repr

/-- R195. -/
def poolLoc (p : Nat) : PoolLoc :=
  let g := p / 256
  let q := g / 15
  { ls := g % 15, q := q,
    ch := (q ^^^ (q / 32) ^^^ (q / 2 ^ 10) ^^^ (q / 2 ^ 15) ^^^ (q / 2 ^ 20) ^^^ (q / 2 ^ 25)) % 32,
    loc := q / 32 * 256 + p % 256 }

/-- Key of a DRAM byte of a physical stack. -/
def dramKey (phys ch loc : Nat) : Nat := phys * 2 ^ 36 + ch * 2 ^ 31 + loc

/-- Colour list of a partition, ascending (R203, R229). -/
def Chip.colours (c : Chip) (part : Nat) : List Nat :=
  let m := c.fld .memPartCfg 12 [part] 15 8
  let m := if m = 0 then 0xFF else m
  (List.range 8).filter fun i => bit m i

/-- Pool address of extent offset `x` (R203). -/
def placeX (base : Nat) (cols : List Nat) (x : Nat) : Nat :=
  let m := cols.length
  let j := x / 122880
  base + j / m * 983040 + cols.getD (j % m) 0 * 122880 + x % 122880

/-- Pool addresses of the copies of object offset `o`: two for a writable object, one otherwise. -/
def Chip.copies (c : Chip) (ob : Obj) (o : Nat) : Nat × Nat :=
  let cols := c.colours ob.part
  if ob.writable then
    let x := 512 * (o / 256) + o % 256
    (placeX ob.base cols x, placeX ob.base cols (x + 256))
  else (placeX ob.base cols o, placeX ob.base cols o)

/-! ### Stacks -/

/-- Physical stack bound to a logical one (R228). -/
def Chip.physOf (c : Chip) (ls : Nat) : Option Nat :=
  let w := c.reg .memStackMap 12 [ls]
  if bit w 31 then some (bits w 3 0) else none

def Chip.dstack (c : Chip) (n : Nat) : DStack := kgetD c.mem.dstack n {}

/-- The stack that serves a logical stack has not failed. -/
def Chip.lsUp (c : Chip) (ls : Nat) : Bool :=
  match c.physOf ls with
  | none => false
  | some n => (c.dstack n).st == 1

/-- Core die that homes a logical stack. -/
def Chip.homeDie (c : Chip) (ls : Nat) : Nat := ((c.physOf ls).getD 0) / 2

/-- Pass 1 of a rebuild runs on the logical stack (R217). -/
def Chip.inPass1 (c : Chip) (ls : Nat) : Bool := c.mem.rebuild == 1 && c.mem.rebuildLs == ls

/-- The copy at pool address `p` of a writable granule holds current data. -/
def Chip.copyGood (c : Chip) (p : Nat) : Bool :=
  let l := poolLoc p
  c.lsUp l.ls && !(c.inPass1 l.ls && decide (c.mem.cursor ≤ l.q))

/-! ### Raw DRAM bytes -/

def Chip.rdPool (c : Chip) (p n : Nat) : Bytes :=
  let l := poolLoc p
  match c.physOf l.ls with
  | none => zerosB n
  | some s => (List.range n).map fun i => kgetD c.mem.dram (dramKey s l.ch (l.loc + i)) 0

def putDram (m : KMap Byte) (k : Nat) (b : Bytes) : KMap Byte :=
  (b.zipIdx).foldl (fun m e => ksetD m (k + e.2) 0 e.1) m

def Chip.wrPool (c : Chip) (p : Nat) (b : Bytes) : Chip :=
  let l := poolLoc p
  match c.physOf l.ls with
  | none => c
  | some s => { c with mem := { c.mem with dram := putDram c.mem.dram (dramKey s l.ch l.loc) b } }

/-! ### Objects -/

def Chip.obj (c : Chip) (id : Nat) : Obj := kgetD c.mem.objs id {}

def Chip.setObj (c : Chip) (id : Nat) (o : Obj) : Chip :=
  { c with mem := { c.mem with objs := ksetD c.mem.objs id {} o } }

def tierCnt : Nat → Cnt
  | 1 => .memStall1
  | 2 => .memStall2
  | 3 => .memStall3
  | 4 => .memStall4
  | 5 => .memStall5
  | 6 => .memStall6
  | _ => .memStall7

/-- Tier-stall causes `new` of an access that already has `had`: each cause counted once for the partition,
the access once for the object, LAST_STALL the highest cause (R212). -/
def Chip.stallAgain (c : Chip) (id part : Nat) (had new : List Nat) : Chip :=
  let fresh := new.dedup.filter fun n => !had.contains n
  let c := fresh.foldl (fun c n => c.bump (tierCnt n) 12 [part]) c
  let o := c.obj id
  if fresh = [] then c
  else c.setObj id { o with stalls := if had = [] then min 0xFFFFFFFF (o.stalls + 1) else o.stalls,
                            lastStall := (had ++ fresh).foldl max 0 }

/-- Tier stalls of an access that has met none before. -/
def Chip.stall (c : Chip) (id part : Nat) (causes : List Nat) : Chip := c.stallAgain id part [] causes

/-! ### Flash and bundles (R194, R444-R446) -/

def Chip.bundle? (c : Chip) (n : Nat) : Option Bundle := kfind? c.mem.bundles n

/-- Entries, chunks and offsets of a bundle's header. -/
def Bundle.dataOff (b : Bundle) : Nat := fieldB b.meta_ 0x30 8
def Bundle.tagOff (b : Bundle) : Nat := fieldB b.meta_ 0x20 8
/-- Manifest entry e (R445). -/
def Bundle.entry (b : Bundle) (e : Nat) : Bytes := sliceB b.meta_ (0x1000 + 32 * e) 32

/-- Flash stack of a byte of the bundle: 1 MiB stripes in round robin (R194). -/
def Bundle.stackOf (b : Bundle) (off : Nat) : Option Nat :=
  if b.stripes = [] then none else b.stripes[off / 2 ^ 20 % b.stripes.length]?

def Chip.flashUp (c : Chip) (n : Nat) : Bool := kgetD c.mem.fstack n 0 == 1 && c.enabled 8 n

def Chip.bundleKey? (c : Chip) (n : Nat) : Option Bytes :=
  (c.sec.bkeys.find? fun e => e.2.1 == n).map (·.2.2)

/-- Present ciphertext bytes of chunk i. -/
def Bundle.cipher (b : Bundle) (i : Nat) : Bytes :=
  (List.range 65536).map fun k => kgetD b.data (i * 65536 + k) 0

/-- Plaintext of a chunk under the bundle's key, if its tag holds (R446). -/
def Bundle.openChunk (b : Bundle) (key : Bytes) (n i : Nat) : Option Bytes :=
  Config.gcmOpen key (natBE 4 n ++ natBE 8 i) [] (b.cipher i ++ sliceB b.meta_ (b.tagOff + 16 * i) 16)

/-- The error that awaits the next read of a chunk, if any: uncorrectable (true) or corrected. -/
def Chip.takeFlash (c : Chip) (n i : Nat) : Option Bool × Chip :=
  match c.mem.flashNext.find? fun e => e.bundle == n && e.chunk == i with
  | none => (none, c)
  | some e => (some (!e.corrected), { c with mem := { c.mem with flashNext := c.mem.flashNext.erase e } })

/-- Plaintext of chunk i: read from flash, authenticate, decrypt (R446). The read is counted, and an error
that awaits it is corrected, or answered DATA_ERR as one that `bad` announces (R214, R235). none: DATA_ERR. -/
def Chip.chunk (c : Chip) (n i : Nat) (bad : Bool) : Option Bytes × Chip :=
  match c.bundle? n with
  | none => (none, c)
  | some b =>
    match b.stackOf (b.dataOff + 65536 * i) with
    | none => (none, c)
    | some fs =>
      if !c.flashUp fs then (none, c)
      else
        let e := c.takeFlash n i
        let c := e.2
        if bad || e.1 == some true then (none, c.bump .flsUe fs)
        else
          let c := (c.when e.1.isSome fun c => c.bump .flsCe fs).bump .flsReadBytes fs [] 65536
          match c.bundleKey? n with
          | none => (none, c)
          | some key =>
            match b.openChunk key n i with
            | some p => (some p, c)
            | none => (none, c.bump .secChunkAuthFail 12)

/-- What a chunk holds, with no flash read made: how a launch learns the header of an object in flash. -/
def Chip.peekChunk (c : Chip) (n i : Nat) : Option Bytes :=
  match c.bundle? n, c.bundleKey? n with
  | some b, some key =>
    match b.stackOf (b.dataOff + 65536 * i) with
    | some fs => if c.flashUp fs then b.openChunk key n i else none
    | none => none
  | _, _ => none

/-- First chunk of an object within its bundle. -/
def Chip.firstChunk (c : Chip) (ob : Obj) : Nat :=
  match c.bundle? ob.bundle with
  | none => 0
  | some b => fieldB (b.entry ob.entry) 4 4

/-! ### Reading and writing object bytes -/

/-- The read-only byte at pool address `p` of object `id` must come from flash: its stack has
failed, or pass 2 has not brought it back (R219, R222). -/
def Chip.fromFlash (c : Chip) (id o p : Nat) : Bool :=
  let l := poolLoc p
  !c.lsUp l.ls ||
  (c.mem.rebuildLs == l.ls && c.mem.unloaded.contains (id * 2 ^ 32 + o / 65536 + 1)) ||
  ((c.mem.rebuild == 1 || c.mem.rebuild == 2) && c.mem.rebuildLs == l.ls &&
    !(c.mem.reloaded.contains (id * 2 ^ 32) || c.mem.reloaded.contains (id * 2 ^ 32 + o / 65536 + 1)))

/-- Write the bytes of a chunk that lie on logical stack `ls` to that stack. -/
def Chip.writeChunkOn (c : Chip) (ob : Obj) (k ls : Nat) (b : Bytes) : Chip :=
  (List.range 256).foldl (fun c i =>
    let o := k * 65536 + i * 256
    let p := (c.copies ob o).1
    if (poolLoc p).ls == ls && decide (o < (ob.size + 4095) / 4096 * 4096) then
      c.wrPool p (sliceB b (i * 256) 256) else c) c

/-- A flash-served read: the whole chunk is fetched, the bytes answered, and, where the byte's own stack is the
inducted one, the chunk's bytes on it written there (R219); without a spare nothing is written (R221). -/
def Chip.flashRead (c : Chip) (id : Nat) (ob : Obj) (o n : Nat) : Option Bytes × Chip :=
  let k := o / 65536
  match c.chunk ob.bundle (c.firstChunk ob + k) false with
  | (none, c) => (none, c)
  | (some pt, c) =>
    let ls := c.mem.rebuildLs
    let c := if (c.mem.rebuild = 1 ∨ c.mem.rebuild = 2) ∧ (poolLoc (c.copies ob o).1).ls = ls then
        let c := c.writeChunkOn ob k ls pt
        { c with mem := { c.mem with reloaded := c.mem.reloaded ++ [id * 2 ^ 32 + k + 1] } }
      else c
    (some (sliceB pt (o % 65536) n), c)

/-- Stack counter index: core die and local stack of a physical stack. -/
def Chip.bumpStack (c : Chip) (k : Cnt) (phys : Nat) : Chip := c.bump k (phys / 2) [phys % 2]

/-- A granule whose next read was announced as uncorrectable in every copy (R213). -/
def Chip.takeBad (c : Chip) (g : Nat) : Bool × Chip :=
  if c.mem.badNext.contains g then
    (true, { c with mem := { c.mem with badNext := c.mem.badNext.erase g } })
  else (false, c)

/-- Read `n` bytes at object offset `o`, all within one granule, with the tier-stall causes met (R204, R212,
R213, R219). -/
def Chip.rdGran (c : Chip) (id o n : Nat) : Option Bytes × List Nat × Chip :=
  let ob := c.obj id
  let cp := c.copies ob o
  match c.takeBad (cp.1 / 256) with
  | (true, c) => (none, [6], c)
  | (false, c) =>
    if ob.writable then
      let la := poolLoc cp.1
      let other := c.inPass1 la.ls || !c.copyGood cp.1
      if other && c.copyGood cp.2 then
        (some (c.rdPool cp.2 n), [], c.bumpStack .memOtherCopy ((c.physOf la.ls).getD 0))
      else (some (c.rdPool cp.1 n), [], c)
    else if c.fromFlash id o cp.1 then
      match c.flashRead id ob o n with
      | (none, c) => (none, [4, 6], c)
      | (some b, c) => (some b, [4], c)
    else (some (c.rdPool cp.1 n), [], c)

/-- Read a byte range, granule by granule; none when any part answers DATA_ERR. -/
def Chip.rdObj (c : Chip) (id : Nat) : Nat → Nat → Nat → Option Bytes × List Nat × Chip
  | 0, _, _ => (some [], [], c)
  | fuel + 1, o, n =>
    if n = 0 then (some [], [], c)
    else
      let k := min n (256 - o % 256)
      match c.rdGran id o k with
      | (none, e, c) => (none, e, c)
      | (some b, e, c) =>
        match Chip.rdObj c id fuel (o + k) (n - k) with
        | (some t, e', c) => (some (b ++ t), e ++ e', c)
        | (none, e', c) => (none, e ++ e', c)

/-- Read `n` bytes at object offset `o`, for an access that counts the causes itself. -/
def Chip.readPart (c : Chip) (id o n : Nat) : Option Bytes × List Nat × Chip := c.rdObj id (n / 256 + 2) o n

/-- Read `n` bytes at object offset `o`, as one access (R212). -/
def Chip.readObj (c : Chip) (id o n : Nat) : Option Bytes × Chip :=
  let r := c.readPart id o n
  (r.1, r.2.2.stall id (c.obj id).part r.2.1)

/-- The copy at `p` takes writes: its stack is up, and during pass 1 a copy on the rebuilt stack
only below the cursor (R218). -/
def Chip.copyWrites (c : Chip) (p : Nat) : Bool := c.copyGood p

/-- Write bytes of one granule of a writable object to every copy that takes writes. -/
def Chip.wrGran (c : Chip) (id o : Nat) (b : Bytes) : Chip :=
  let ob := c.obj id
  let cp := c.copies ob o
  let c1 := if c.copyWrites cp.1 then c.wrPool cp.1 b else c
  if c.copyWrites cp.2 then c1.wrPool cp.2 b else c1

/-- Write a byte range, granule by granule. -/
def Chip.wrObj (c : Chip) (id : Nat) : Nat → Nat → Bytes → Chip
  | 0, _, _ => c
  | fuel + 1, o, b =>
    if b = [] then c
    else
      let k := 256 - o % 256
      Chip.wrObj (c.wrGran id o (b.take k)) id fuel (o + k) (b.drop k)

def Chip.writeObj (c : Chip) (id o : Nat) (b : Bytes) : Chip := c.wrObj id (b.length / 256 + 2) o b

/-! ### The DRAM channels' queues (R19, R20, R212) -/

/-- Pool addresses at which DRAM serves a read, or takes a write, of an object's granule. -/
def Chip.tierPools (c : Chip) (id o : Nat) (rd : Bool) : List Nat :=
  let ob := c.obj id
  let cp := c.copies ob o
  if !rd then [cp.1, cp.2].filter c.copyWrites
  else if ob.writable then [if !c.inPass1 (poolLoc cp.1).ls && c.copyGood cp.1 then cp.1 else cp.2]
  else if c.fromFlash id o cp.1 then [] else [cp.1]

/-- Key of a class's entries of the channel that holds a pool address. -/
def Chip.dramEntries (c : Chip) (line : Bool) (p : Nat) : Nat :=
  let l := poolLoc p
  (((c.physOf l.ls).getD 0) * 32 + l.ch) * 2 + b2n line

/-- The class's entries of that channel are all in use. -/
def Chip.dramFull (c : Chip) (line : Bool) (p : Nat) : Bool :=
  decide ((if line then 16 else 48) ≤ kgetD c.mem.dramQ (c.dramEntries line p) 0)

/-- A request takes an entry, which it leaves with the next tick of the management slow clock
(notes/assumptions/98.md). -/
def Chip.dramTake (c : Chip) (line : Bool) (p : Nat) : Chip :=
  let k := c.dramEntries line p
  { c with mem := { c.mem with dramQ := kput c.mem.dramQ k (kgetD c.mem.dramQ k 0 + 1) } }

/-- The reads of a fill, granule by granule: it has come by the time that it is reported, so it only tells
whether it found a queue full (R212). -/
def Chip.dramBurst (c : Chip) (id off n : Nat) : List Nat × Chip :=
  ((List.range ((off + n + 255) / 256 - off / 256)).flatMap fun i => c.tierPools id ((off / 256 + i) * 256) true).foldl
    (fun r p => if r.2.dramFull false p then ([1], r.2) else (r.1, r.2.dramTake false p)) ([], c)

/-- A write to this granule waits for the rebuild cursor (R218). -/
def Chip.atCursor (c : Chip) (id o : Nat) : Bool :=
  let cp := c.copies (c.obj id) o
  [cp.1, cp.2].any fun p => let l := poolLoc p; c.inPass1 l.ls && l.q == c.mem.cursor

/-! ### Extents (R202) -/

def rowBytes : Nat := 983040
def rowCount : Nat := 1048576

/-- Rows an extent of `x` bytes takes with `m` colours. -/
def rowsFor (x m : Nat) : Nat := cdiv x (m * 122880)

/-- First-fit run of `n` rows from row 547 on. -/
def Chip.findRows (c : Chip) (n : Nat) : Option Nat :=
  let ext := (c.mem.objs.map fun e => (e.2.row, e.2.rows)).filter fun e => decide (0 < e.2)
  let fits (s : Nat) : Bool :=
    decide (s + n ≤ rowCount) && ext.all fun e => decide (s + n ≤ e.1) || decide (e.1 + e.2 ≤ s)
  minBy? id ((547 :: ext.map fun e => e.1 + e.2).filter fits)

/-- Zero every byte of an extent, on both copies (scrub). -/
def Chip.scrubExtent (c : Chip) (ob : Obj) : Chip :=
  let lo := ob.row * rowBytes
  let hi := (ob.row + ob.rows) * rowBytes
  let cols := c.colours ob.part
  -- a DRAM byte belongs to the extent when its pool address lies in its rows and colours
  let inv : List (Nat × Nat) := (List.range 15).filterMap fun ls => (c.physOf ls).map fun p => (p, ls)
  let poolOf (k : Nat) : Option Nat :=
    let phys := k / 2 ^ 36
    let ch := k / 2 ^ 31 % 32
    let loc := k % 2 ^ 31
    match inv.find? fun e => e.1 == phys with
    | none => none
    | some e =>
      let hiq := loc / 256
      let x := (hiq ^^^ (hiq / 32) ^^^ (hiq / 2 ^ 10) ^^^ (hiq / 2 ^ 15) ^^^ (hiq / 2 ^ 20)) % 32
      let q := hiq * 32 + (ch ^^^ x)
      some ((q * 15 + e.2) * 256 + loc % 256)
  let inExt (p : Nat) : Bool := decide (lo ≤ p) && decide (p < hi) && cols.contains (p / 122880 % 8)
  let keep := c.mem.dram.filter (fun e => !((poolOf e.1).any inExt))
  { c with mem := { c.mem with dram := keep } }

/-- Free an object's extent. -/
def Chip.freeExtent (c : Chip) (id : Nat) : Chip :=
  c.setObj id { c.obj id with base := 0, row := 0, rows := 0 }

/-- Give an object an extent of `x` bytes, if there is room. -/
def Chip.allocExtent (c : Chip) (id x : Nat) : Option Chip :=
  let ob := c.obj id
  let n := rowsFor x (c.colours ob.part).length
  (c.findRows n).map fun r => c.setObj id { ob with base := r * rowBytes, row := r, rows := n }

/-- The partition has an extent. -/
def Chip.hasExtent (c : Chip) (part : Nat) : Bool :=
  c.mem.objs.any fun e => e.2.part == part && decide (0 < e.2.rows)

/-! ### Loads (R205, R211, R609) -/

/-- The rebuild's record of an object ends with its extent. -/
def Chip.forgetLoads (c : Chip) (id : Nat) : Chip :=
  let keep (k : Nat) : Bool := decide (k / 2 ^ 32 ≠ id)
  { c with mem := { c.mem with reloaded := c.mem.reloaded.filter keep, unloaded := c.mem.unloaded.filter keep } }

/-- Start a load of a FLASH object. The extent is taken now; without room the load fails when it
ends. -/
def Chip.startLoad (c : Chip) (id : Nat) (cmd : Option (Nat × Nat)) : Chip :=
  let ob := c.obj id
  let c := (c.forgetLoads id).setObj id { ob with st := 2 }
  let c := (c.allocExtent id ((ob.size + 4095) / 4096 * 4096)).getD c
  { c with mem := { c.mem with loads := c.mem.loads ++ [{ obj := id, cmds := cmd.toList }] } }

/-- Stripes of an object's chunks: chunk numbers in its bundle. -/
def objChunks (ob : Obj) : Nat := cdiv ob.size 65536

/-- Read, authenticate and decrypt every chunk into the extent; none at the first failure. -/
def Chip.loadChunks (c : Chip) (id : Nat) (bad : List Nat) : List Nat → Bool × Chip
  | [] => (true, c)
  | k :: t =>
    let ob := c.obj id
    match c.chunk ob.bundle (c.firstChunk ob + k) (bad.contains k) with
    | (none, c) => (false, c)
    | (some pt, c) =>
      let n := min 65536 ((ob.size + 4095) / 4096 * 4096 - k * 65536)
      let c := (List.range (cdiv n 256)).foldl (fun c i =>
        c.wrPool (c.copies ob (k * 65536 + i * 256)).1 (sliceB pt (i * 256) 256)) c
      Chip.loadChunks c id bad t

/-! ### Stack failures (R215-R222) -/

/-- Partitions that have an extent (R215). -/
def Chip.extentParts (c : Chip) : List Nat := (List.range 64).filter fun p => c.hasExtent p

/-- Logical stack a physical stack serves, if any. -/
def Chip.lsOf (c : Chip) (phys : Nat) : Option Nat :=
  (List.range 15).find? fun ls => c.physOf ls == some phys

/-- Next q from `q` on at which an extent of an object has a granule on a logical stack, if any. -/
def Chip.nextQ (c : Chip) (ob : Obj) (ls q : Nat) : Option Nat :=
  let g := 15 * q + ls
  let cols := c.colours ob.part
  let row := g / 3840
  -- the chunk of g, then the first chunk of its row and of the next rows of the extent
  let starts := [row, row + 1, ob.row].flatMap fun r =>
    if ob.row ≤ r ∧ r < ob.row + ob.rows then cols.map fun k => r * 3840 + k * 480 else []
  let cands := starts.filterMap fun s =>
    if s + 480 ≤ g then none else some ((max s g + 14 - ls) / 15)
  minBy? id cands

/-- Granules of the mirrored dump region, the first of the pool (R202): 256 MiB and its copy. -/
def dumpGranules : Nat := 2 ^ 21

/-- Next q from `q` on at which a logical stack has a writable granule, of the mirrored dump region or of an
object; 2^28 if none. -/
def Chip.nextWritable (c : Chip) (ls q : Nat) : Nat :=
  let os := c.mem.objs.filter fun e => e.2.writable && decide (0 < e.2.rows)
  if 15 * q + ls < dumpGranules then q else (os.filterMap fun e => c.nextQ e.2 ls q).foldl min (2 ^ 28)

/-- Grant holders of the regions over an object: the nodes its events reach (R221, R475). -/
def Chip.grantNodes (c : Chip) (slots : List Nat) : List Nat :=
  ((c.sec.grants.filter fun e => slots.contains e.2.slot && decide (0 < e.2.rights)).map (·.2.node)).dedup

def Chip.regionsOver (c : Chip) (id : Nat) : List Nat :=
  kkeys (c.sec.regions.filter fun e => e.2.valid && e.2.obj == id)

def Chip.region (c : Chip) (slot : Nat) : Region := kgetD c.sec.regions slot {}

/-- Handle of a region slot (R432). -/
def Chip.handleOf (c : Chip) (slot : Nat) : Nat := (c.region slot).gen * 4096 + slot

end Sys2Proof.Machine
end

