-- ==== Sys2Proof/Machine/Home.lean ====
section
/-! DEFINITION. The coherent home: directory, snoops, waiter queues and reservations, and the
performance of admitted requests line by line (chapter 12). -/

namespace Sys2Proof.Machine

/-! ### Directory (R396-R400) -/

/-- Slice of a pool line: the core die whose stack serves its copy A (R396). -/
def Chip.lineDie (c : Chip) (pl : Nat) : Nat := c.homeDie (poolLoc (pl * 128)).ls

/-- Bank (physical stack) and set of a pool line (R397). -/
def Chip.lineSet (c : Chip) (pl : Nat) : Nat × Nat :=
  let l := poolLoc (pl * 128)
  ((c.physOf l.ls).getD 0, ((l.loc / 128) ^^^ (l.ch * 2048 % 65536) ^^^ (l.loc / 2 ^ 23)) % 65536)

/-- Object that owns a pool line, with the line's object offset. -/
def Chip.lineOwner (c : Chip) (pl : Nat) : Option (Nat × Nat) :=
  let p := pl * 128
  let row := p / rowBytes
  match c.mem.objs.find? fun e => decide (e.2.row ≤ row) && decide (row < e.2.row + e.2.rows) with
  | none => none
  | some (id, ob) =>
    let cols := c.colours ob.part
    let col := p / 122880 % 8
    match cols.findIdx? (· == col) with
    | none => none
    | some ci =>
      let j := (row - ob.row) * cols.length + ci
      let x := j * 122880 + p % 122880
      some (id, if ob.writable then x / 512 * 256 + x % 256 else x)

def Chip.ent? (c : Chip) (pl : Nat) : Option LineEnt := kfind? c.coh.ents pl

def Chip.setEnt (c : Chip) (pl : Nat) (e : LineEnt) : Chip :=
  { c with coh := { c.coh with ents := kput c.coh.ents pl e } }

def Chip.delEnt (c : Chip) (pl : Nat) : Chip :=
  { c with coh := { c.coh with ents := kdel c.coh.ents pl } }

def Chip.lineQ (c : Chip) (pl : Nat) : LineQ := kgetD c.coh.queues pl {}

def Chip.setLineQ (c : Chip) (pl : Nat) (q : LineQ) : Chip :=
  { c with coh := { c.coh with queues := ksetD c.coh.queues pl {} q } }

/-- A line is BUSY while its transaction has not ended (R400, R405). -/
def LineQ.busy (q : LineQ) : Bool := q.txn.any fun t => !t.ended

/-- Entries of the set of a line, by pool line. -/
def Chip.setEnts (c : Chip) (pl : Nat) : List (Nat × LineEnt) :=
  let s := c.lineSet pl
  c.coh.ents.filter fun e => c.lineSet e.1 == s

/-- Slots of a sharer vector, ascending. -/
def slotsOf (v : BitVec 64) : List Nat := (List.range 64).filter fun i => v.getLsbD i

def slotBit (i : Nat) : BitVec 64 := BitVec.ofNat 64 (2 ^ i)

def Chip.slotLost (c : Chip) (i : Nat) : Bool := bit (c.reg .cohSharer 12 [i]) 30
def Chip.slotNode (c : Chip) (i : Nat) : Nat := c.fld .cohSharer 12 [i] 11 0

/-! ### Snoops (R403, R410) -/

/-- Global address a snoop names: through the lowest region over the object that covers the line. -/
def Chip.snoopAddr (c : Chip) (id ol : Nat) : Nat × Option Nat :=
  let node := (c.localNode (c.obj id).part).getD 0
  let rs := c.sec.regions.find? fun e => e.2.valid && e.2.obj == id &&
    decide (e.2.objOff ≤ ol) && decide (ol < e.2.objOff + e.2.len)
  match rs with
  | none => (node * 2 ^ 52, none)
  | some (slot, r) => (node * 2 ^ 52 + r.base + (ol - r.objOff), some slot)

/-- Port a snoop goes out on: PORT_A, or PORT_B when PORT_A is not usable. -/
def Chip.snoopPort (c : Chip) (node : Nat) : Option Nat :=
  match c.node node with
  | .ports a b => if c.usable a then some a else if c.usable b then some b else none
  | _ => none

/-- First snoop index of a slice that is free (R416). -/
def Chip.freeSnoop (c : Chip) (die : Nat) : Option Nat :=
  let used := (c.coh.snoops.filter fun s => s.tag / 8192 == die).map fun s => s.tag % 8192
  (List.range (used.length + 1)).find? fun i => !used.contains i

/-- Snoops outstanding at a slice. -/
def Chip.snoopCount (c : Chip) (die : Nat) : Nat :=
  (c.coh.snoops.filter fun s => s.tag / 8192 == die).length

def Chip.putSnoop (c : Chip) (p : Option Nat) (s : Snoop) : Chip :=
  match p with
  | none => c
  | some p => c.enqueue p { vc := 2, bytes := packSnoop s, dst := s.node, leaf := s.part, home := some (s.tag / 8192) }

/-- Send one snoop; answers its tag. -/
def Chip.sendSnoop (c : Chip) (pl slot id ol : Nat) (inv keep : Bool) : Nat × Chip :=
  let die := c.lineDie pl
  let tag := die * 8192 + (c.freeSnoop die).getD 0
  let node := c.slotNode slot
  let port := c.snoopPort node
  let s : Snoop :=
    { tag := tag, node := node, slot := slot, line := pl, addr := (c.snoopAddr id ol).1,
      src := (c.localNode (c.obj id).part).getD 0, inv := inv, first := c.tick, last := c.tick,
      port := port.getD 0, part := (c.obj id).part, keepData := keep }
  let c := { c with coh := { c.coh with snoops := c.coh.snoops ++ [s] } }
  (tag, ((c.bump .cohSnoops die).putSnoop port s))

/-- Snoop each slot; answers the tags. -/
def Chip.sendSnoops (c : Chip) (pl : Nat) (slots : List Nat) (id ol : Nat) (inv keep : Bool) : List Nat × Chip :=
  slots.foldl (fun r i =>
    let t := r.2.sendSnoop pl i id ol inv keep
    (r.1 ++ [t.1], t.2)) ([], c)

/-- Snoop a holder of a lost object's line, or let it wait while the slice has 8,192 snoops outstanding (R416). -/
def Chip.sendOrWait (c : Chip) (pl slot id ol : Nat) : Chip :=
  let die := c.lineDie pl
  if c.snoopCount die < 8192 then (c.sendSnoop pl slot id ol true false).2
  else { c with coh := { c.coh with late := c.coh.late ++ [(die, slot, pl, id, ol)] } }

/-- A snoop index of a slice is free again: the next snoop that waits for one goes out. -/
def Chip.sendLate (c : Chip) (die : Nat) : Chip :=
  match c.coh.late.find? fun e => e.1 == die with
  | none => c
  | some (d, slot, pl, id, ol) =>
    let c := { c with coh := { c.coh with late := c.coh.late.erase (d, slot, pl, id, ol) } }
    if c.slotLost slot then c else c.sendOrWait pl slot id ol

/-! ### Loss (R411-R414, R221) -/

/-- The object enters LOST: its lines' holders are snooped, returned data is discarded, entries are
freed, and REGION_LOST goes to the owner and to the regions' grant holders. -/
def Chip.objectLost (c : Chip) (id : Nat) : Chip :=
  let ob := c.obj id
  if ob.st = 5 ∨ ob.st = 0 then c
  else
    let c := c.setObj id { ob with st := 5 }
    let lines : List (Nat × Nat × LineEnt) := c.coh.ents.filterMap (fun e =>
      ((c.lineOwner e.1).filter fun o => o.1 == id).map fun o => (e.1, o.2, e.2))
    let mine (l : Nat) : Bool := (c.lineOwner l).any fun o => o.1 == id
    let sn := c.coh.snoops.map (fun s => if mine s.line then { s with keepData := false } else s)
    let c := { c with coh := { c.coh with snoops := sn } }
    let c := lines.foldl (fun c l =>
      let live := (slotsOf l.2.2.sharers).filter fun i => !c.slotLost i
      (live.foldl (fun c i => c.sendOrWait l.1 i id l.2.1) c).delEnt l.1) c
    let rs : List Nat := c.regionsOver id
    if rs.isEmpty then c.raise Ev.regionLost [ob.part] (id * 2 ^ 32) 0
    else rs.foldl (fun c s =>
      c.raise Ev.regionLost [ob.part] (c.handleOf s + id * 2 ^ 32) 0 (c.grantNodes [s])) c

/-- Append to the lost-line log (R420). -/
def Chip.lostLog (c : Chip) (pl part node : Nat) (escalated : Bool) : Chip :=
  let h := c.reg .cohLostHead 12
  let seq := c.coh.lostSeq + 1
  let addr := pl * 128
  let c := { c with coh := { c.coh with lostSeq := seq } }
  let c := c.setReg .cohLostLog 12 [h, 0] seq
  let c := c.setReg .cohLostLog 12 [h, 1] (c.tick % 2 ^ 32)
  let c := c.setReg .cohLostLog 12 [h, 2] (addr % 2 ^ 32)
  let c := c.setReg .cohLostLog 12 [h, 3] (addr / 2 ^ 32 + part * 256 + b2n escalated * 2 ^ 14 + node * 65536)
  c.setReg .cohLostHead 12 [] ((h + 1) % 256)

/-- A line enters LOST (R412); the 13th LOST way of a set loses the object instead. -/
def Chip.lineLost (c : Chip) (pl node : Nat) : Chip :=
  match c.lineOwner pl, c.ent? pl with
  | some (id, ol), some e =>
    let ob := c.obj id
    let others := ((c.setEnts pl).filter fun x => x.1 != pl && x.2.st == 3).length
    if 12 ≤ others then (c.objectLost id).lostLog pl ob.part node true
    else
      let sl := (c.snoopAddr id ol).2
      let c := ((c.setEnt pl { e with st := 3, sharers := 0 }).lostLog pl ob.part node false).bump
        .cohLinesLost (c.lineDie pl)
      match sl with
      | none => c.raise Ev.lineLost [ob.part]
      | some s => c.raise Ev.lineLost [ob.part] (c.handleOf s) (ol - (c.region s).objOff) (c.grantNodes [s])
  | _, _ => c

/-- What a lookup finds: a line whose holders were lost is settled first (R411). -/
def Chip.settleEnt (c : Chip) (pl : Nat) : Chip :=
  match c.ent? pl with
  | none => c
  | some e =>
    let lost := (slotsOf e.sharers).filter fun i => c.slotLost i
    if lost = [] then c
    else if e.st = 2 then c.lineLost pl (c.slotNode (lost.headD 0))
    else
      let v := lost.foldl (fun v i => v &&& ~~~ slotBit i) e.sharers
      if v = 0 then c.delEnt pl else c.setEnt pl { e with sharers := v }

/-! ### Requests at the home -/

/-- Opcode of a range read that the device makes for itself; it never leaves the module. -/
def opcDevRead : Nat := 0x80

def isRead (opc : Nat) : Bool := opc == 1 || opc == 2 || opc == 3 || opc == opcDevRead

/-- Bytes the request reads or writes. -/
def reqLen (r : Req) : Nat :=
  if r.opc = opcDevRead then r.opnd
  else if r.opc ≤ 3 ∨ r.opc = 6 then 128
  else if r.opc = 7 then (if bit r.attr 7 then 4 else 8)
  else r.payload.length

def Chip.pend? (c : Chip) (id : Nat) : Option Pend := c.gtx.pends.find? fun p => p.id == id

def Chip.setPend (c : Chip) (p : Pend) : Chip :=
  let ps := if c.gtx.pends.any (fun q => q.id == p.id) then
      modFirst (fun q => q.id == p.id) (fun _ => p) c.gtx.pends
    else c.gtx.pends ++ [p]
  { c with gtx := { c.gtx with pends := ps } }

def Chip.delPend (c : Chip) (id : Nat) : Chip :=
  { c with gtx := { c.gtx with pends := delFirst (fun q => q.id == id) c.gtx.pends } }

/-- New value of an atomic (R281); none: refused as UNSUPPORTED. -/
def atomicNew (op w m v cmp : Nat) : Option Nat :=
  let n := 8 * w
  match op with
  | 0 => some ((m + v) % 2 ^ n)
  | 1 => some (m &&& v)
  | 2 => some (m ||| v)
  | 3 => some (m ^^^ v)
  | 4 => some v
  | 5 => some (if m = cmp then v else m)
  | 6 => some (if sInt n m < sInt n v then v else m)
  | 7 => some (if sInt n v < sInt n m then v else m)
  | 8 => some (max m v)
  | 9 => some (min m v)
  | 10 => if w = 4 then some (add32 m v) else none
  | _ => none

/-- Pool lines of a byte range of an object, with their object offsets. -/
def Chip.poolLines (c : Chip) (obj off n : Nat) : List (Nat × Nat) :=
  let ob := c.obj obj
  (List.range ((off + n - 1) / 128 - off / 128 + 1)).map fun i =>
    let ol := (off / 128 + i) * 128
    ((c.copies ob ol).1 / 128, ol)

/-- The part of the request's bytes that lies in the object line at `ol`: (offset, length). -/
def lineSpan (p : Pend) (ol : Nat) : Nat × Nat :=
  let lo := max p.off ol
  let hi := min (p.off + reqLen p.req) (ol + 128)
  (lo, hi - lo)

/-- Tier stalls of an admitted request, each cause once however many lines meet it (R212). -/
def Chip.accessStall (c : Chip) (p : Pend) (new : List Nat) : Chip × Pend :=
  (c.stallAgain p.obj p.part p.causes new, { p with causes := p.causes ++ new.dedup.filter fun n => !p.causes.contains n })

/-- The request reads `n` bytes at object offset `o`. -/
def Chip.accessRead (c : Chip) (p : Pend) (o n : Nat) : Option Bytes × Chip × Pend :=
  let r := c.readPart p.obj o n
  (r.1, r.2.2.accessStall p r.2.1)

/-- The elements of a REDUCE on one line (R286). -/
def Chip.reduceLine (c : Chip) (p : Pend) (o n : Nat) (b : Bytes) : Chip :=
  c.writeObj p.obj o (reduceBytes (p.req.attr % 4) (bits p.req.attr 3 2) p.req.opnd (bit p.req.attr 4) b
    (sliceB p.req.payload (o - p.off) n))

/-- A REDUCE reaches a line. It reads all of its bytes before it combines the first: one that cannot be read
is not performed on any line (R290). A granule that fails only later is read again (R213). -/
def Chip.reduceEffect (c : Chip) (p : Pend) (o n : Nat) : Chip × Pend :=
  let a := if o = p.off then c.accessRead p p.off p.req.payload.length else (some [], c, p)
  match a with
  | (none, c, p) => (c, { p with dataErr := true })
  | (some _, c, p) =>
    match c.accessRead p o n with
    | (some b, c, p) => (c.reduceLine p o n b, p)
    | (none, c, p) =>
      match c.accessRead p o n with
      | (some b, c, p) => (c.reduceLine p o n b, p)
      | (none, c, p) => (c, { p with dataErr := true })

/-- The request uses the line class's entries of the DRAM queues: a line-class request, or a device's read of one
line (R19). -/
def Pend.lineClass (p : Pend) : Bool :=
  match p.origin with
  | .port _ _ => opcVc p.req.opc == 0
  | .dev _ => isRead p.req.opc && decide (p.off % 128 + reqLen p.req ≤ 128)

/-- The request takes its entries of the DRAM queues for one line. -/
def Chip.takeDram (c : Chip) (p : Pend) (ol : Nat) : Chip :=
  (c.tierPools p.obj ol (isRead p.req.opc)).foldl (fun c a => c.dramTake p.lineClass a) c

/-- What keeps a request from the tier at one line: the rebuild cursor (R218), or its class's full entries of a
channel's queue (R19); the cause of R212. -/
def Chip.tierStall (c : Chip) (p : Pend) (ol : Nat) : Option Nat :=
  if !isRead p.req.opc && (c.obj p.obj).writable && c.atCursor p.obj ol then some 5
  else if (c.tierPools p.obj ol (isRead p.req.opc)).any fun a => c.dramFull p.lineClass a then some 1
  else none

/-- Memory effect of the request on one line (R280, R281, R286). -/
def Chip.lineEffect (c : Chip) (p : Pend) (ol : Nat) : Chip × Pend :=
  let c := c.takeDram p ol
  let sp := lineSpan p ol
  if isRead p.req.opc then
    match c.accessRead p sp.1 sp.2 with
    | (none, c, p) => (c, { p with dataErr := true })
    | (some b, c, p) => (c, { p with out := p.out ++ b })
  else if p.req.opc = 7 then
    let w := reqLen p.req
    match c.accessRead p p.off w with
    | (none, c, p) => (c, { p with dataErr := true })
    | (some b, c, p) =>
      let cas := p.req.attr % 16 = 5
      let v := fieldB p.req.payload (if cas then w else 0) w
      match atomicNew (p.req.attr % 16) w (leNat b) v (fieldB p.req.payload 0 w) with
      | none => (c, p)
      | some x => (c.writeObj p.obj p.off (natLE w x), { p with out := b })
  else if p.req.opc = 11 then c.reduceEffect p sp.1 sp.2
  else (c.writeObj p.obj sp.1 (sliceB p.req.payload (sp.1 - p.off) sp.2), p)

/-- What the directory asks for (R401). -/
inductive DirAct where
  /-- Nothing to snoop. -/
  | go
  /-- Snoop these slots first. -/
  | snoop (slots : List Nat) (inv : Bool)
  /-- A new entry is needed. -/
  | alloc
  deriving DecidableEq, Repr

/-- Row of R401 for a request: S is its sharer slot. -/
def dirAct (opc : Nat) (dev : Bool) (s : Option Nat) (e : Option LineEnt) : DirAct :=
  let opc := if dev && isRead opc then 1 else opc
  match e with
  | none => if opc = 2 ∨ opc = 3 then .alloc else .go
  | some e =>
    let hs := slotsOf e.sharers
    if e.st = 3 then .go
    else if e.st = 1 then
      if opc = 1 ∨ opc = 2 ∨ opc = opcDevRead then .go
      else if opc = 3 then
        match hs.filter fun i => some i != s with
        | [] => .go
        | l => .snoop l true
      else if hs = [] then .go else .snoop hs true
    else
      let own := hs.headD 0
      if opc = 1 ∨ opc = 2 ∨ opc = opcDevRead then
        if s = some own ∧ dev = false then .go else .snoop [own] false
      else if opc = 3 then (if s = some own then .go else .snoop [own] true)
      else .snoop [own] true

/-- Directory state after the request on a line whose snoops are answered. -/
def Chip.dirAfter (c : Chip) (pl opc : Nat) (dev : Bool) (s : Option Nat) (kept : Bool) : Chip :=
  let opc := if dev && isRead opc then 1 else opc
  match c.ent? pl with
  | none => c
  | some e =>
    if e.st = 3 then c
    else match opc with
    | 1 =>
      if e.st = 2 ∧ (s ≠ some ((slotsOf e.sharers).headD 0) ∨ dev = true) then
        (if kept then c.setEnt pl { e with st := 1 } else c.delEnt pl)
      else c
    | 2 =>
      let own := (slotsOf e.sharers).headD 0
      let me := (s.map slotBit).getD 0
      if e.st = 2 then
        c.setEnt pl { e with st := 1, sharers := me ||| (if kept ∧ s ≠ some own then slotBit own else 0) }
      else c.setEnt pl { e with sharers := e.sharers ||| me }
    | 3 => c.setEnt pl { e with st := 2, sharers := (s.map slotBit).getD 0 }
    | _ => c.delEnt pl

/-- Effect on a line whose snoops are answered: LOST lines first (R413). -/
def Chip.doLine (c : Chip) (p : Pend) (pl ol : Nat) (kept : Bool) : Chip × Pend :=
  let dev := match p.origin with
    | .dev _ => true
    | .port _ _ => false
  let s := c.sharer? p.req.src
  let isLost := (c.ent? pl).any fun e => e.st == 3
  if (c.obj p.obj).st = 5 then (c, { p with lost := true })
  else if isLost then
    if isRead p.req.opc ∨ p.req.opc = 7 ∨ p.req.opc = 11 then (c, { p with lost := true })
    else if (lineSpan p ol).2 = 128 then
      let r := (c.delEnt pl).lineEffect p ol
      (r.1, { r.2 with lost := true })
    else (c, { p with lost := true })
  else (c.dirAfter pl p.req.opc dev s kept).lineEffect p ol

/-! ### Waiters and reservations (R405-R408) -/

/-- A reservation's token. -/
def Rsv.token (r : Rsv) : Nat := r.gen * 4096 + r.entry

def Chip.quota (c : Chip) : Nat := max 1 (c.fld .cohGlb2 12 [] 7 0)

/-- Take a reservation entry for a source on a line, if the slice has one and the quota allows. -/
def Chip.reserve (c : Chip) (pl src : Nat) : Option (Nat × Chip) :=
  let sl := c.lineDie pl
  let mine := c.coh.rsvs.filter fun r => r.slice == sl
  if c.quota ≤ (mine.filter fun r => r.src == src).length ∨ 4096 ≤ mine.length then none
  else
    match (List.range (mine.length + 1)).find? fun i => mine.all fun r => r.entry != i with
    | none => none
    | some i =>
      let g := kgetD c.coh.gens (sl * 4096 + i) 0 % 15 + 1
      let r : Rsv := { slice := sl, entry := i, gen := g, src := src, line := pl }
      some (r.token, { c with coh := { c.coh with
        rsvs := c.coh.rsvs ++ [r], gens := kput c.coh.gens (sl * 4096 + i) g } })

/-- The live reservation a request's RSV names. -/
def Chip.liveRsv (c : Chip) (pl src tok : Nat) : Bool :=
  c.coh.rsvs.any fun r => r.token == tok && r.src == src && r.line == pl && r.slice == c.lineDie pl

def Chip.dropRsv (c : Chip) (pl src tok : Nat) : Chip :=
  { c with coh := { c.coh with
      rsvs := delFirst (fun r => r.token == tok && r.src == src && r.line == pl) c.coh.rsvs } }

def Chip.addWaiter (c : Chip) (pl : Nat) (w : Waiter) : Chip :=
  let q := c.lineQ pl
  c.setLineQ pl { q with waiters := q.waiters ++ [w] }

/-- The completion log stores a final response, or clears the slot of a status that is not logged
(R290, R295); duplicates that waited are answered with REPLAY. -/
def statusLogged (status info : Nat) : Bool :=
  !(status == 1 || status == 5 || status == 9 || (status == 2 && (info == 2 || info == 5)))

def Chip.stream (c : Chip) (s : Nat) : Stream := kgetD c.gtx.streams s {}

def Chip.setStream (c : Chip) (s : Nat) (v : Stream) : Chip :=
  { c with gtx := { c.gtx with streams := ksetD c.gtx.streams s {} v } }

/-- A held GTX_STREAM write takes effect once no entry is IN_PROGRESS (R304). -/
def Chip.streamWrite (c : Chip) (s : Nat) (w : Word) : Chip :=
  (c.setStream s {}).setReg .gtxStream 12 [s] (putBits w.toNat 30 30 0)

def Chip.settleStream (c : Chip) (s : Nat) : Chip :=
  let st := c.stream s
  match st.held with
  | none => c
  | some w => if st.log.all fun e => e.2.done then c.streamWrite s w else c

/-- A duplicate that waited is answered from its original's entry: its own cells and credits return (R295). -/
def Chip.answerDup (c : Chip) (part : Nat) (rsp : Rsp) (x : Dup) : Chip :=
  (((c.releaseCells x.cells).freeCred x.cred).bump .gtxReplayed 12 [part]).sendRsp none
    { rsp with replay := true, tag := x.req.tag } part (some (portDie x.port))

def Chip.logDone (c : Chip) (part : Nat) (log : Option (Nat × Nat)) (rsp : Rsp) (info : Nat) : Chip :=
  match log with
  | none => c
  | some (s, k) =>
    let st := c.stream s
    match kfind? st.log k with
    | none => c
    | some e =>
      let log := if statusLogged rsp.status info then
          kput st.log k { e with done := true, rsp := rsp, waiters := [] }
        else kdel st.log k
      let c := c.setStream s { st with log := log }
      (e.waiters.foldl (fun c x => c.answerDup part rsp x) c).settleStream s

/-- Requests of the compute plane, which are scheduled and charged as those of a fabric port (R18). -/
def Owner.charged : Owner → Bool
  | .mTarget _ _ => false
  | .notify _ _ => false
  | .ring _ => false
  | .fill _ _ _ => false
  | .sftMem _ _ => false
  | _ => true

/-- The refusal of such a request is counted and captured as an arriving one's. -/
def Chip.devRefused (c : Chip) (o : Owner) (part : Nat) (r : Req) (status info : Nat) : Chip :=
  if o.charged then
    (c.countStatus (some part) status info).captureRefusal (if r.opc = opcDevRead then { r with opc := 1 } else r) status info
  else c

/-- Die that answers a performed request: the home of its first line for the line class, else the die by which it came
(notes/assumptions/147.md). -/
def Chip.answerDie (c : Chip) (p : Pend) (via status : Nat) : Nat :=
  if status = 0 ∧ opcVc p.req.opc = 0 then c.lineDie ((c.copies (c.obj p.obj) (p.off / 128 * 128)).1 / 128) else portDie via

/-- A request crosses from a die to the homes of its lines (R363). -/
def Chip.lineCrossings (c : Chip) (p : Pend) (die : Nat) : Chip :=
  ((p.lines.map fun l => c.lineDie l.1).dedup).foldl (fun c d =>
    c.cross die d (pathHash p.req.addr p.req.tag p.req.src (nodeOf p.req.addr))) c

/-- What a request of the device has read crosses to it from the homes of its lines. -/
def Chip.readCrossings (c : Chip) (o : Owner) (p : Pend) : Chip :=
  match c.ownerDie? o with
  | none => c
  | some die => (((c.poolLines p.obj p.off (reqLen p.req)).map fun l => c.lineDie l.1).dedup).foldl (fun c d =>
      c.cross d die (pathHash 0 p.req.tag p.req.src (nodeOf p.req.addr))) c

/-- Report a request's end to whoever issued it. -/
def Chip.reply (c : Chip) (p : Pend) (status info : Nat) (data : Bytes) (tgt : Bool := false) : Chip :=
  match p.origin with
  | .port via log =>
    let c := c.answer none (some p.part) p.req status info data tgt false (some (c.answerDie p via status))
    let rsp : Rsp :=
      { status := status, tgt := tgt, tag := p.req.tag, dst := p.req.src,
        src := nodeOf p.req.addr, info := info, data := data }
    c.logDone p.part log rsp (if tgt then 0 else info)
  | .dev o =>
    let c := if status = 0 ∧ isRead p.req.opc = true then c.readCrossings o p else c
    (c.devRefused o p.part p.req status info).addJob {
      req := { owner := o, part := p.part, req := p.req }
      ans := some { status := some status, info := info, tgt := tgt, data := data } }

/-- Every line is done: release the cells and answer (R292). -/
def Chip.complete (c : Chip) (p : Pend) : Chip :=
  let c := (c.delPend p.id).releaseCells p.cells
  let status := if p.lost then 4 else if p.dataErr then 6 else 0
  let c := if p.lost then (c.accessStall p [7]).1 else c
  c.reply p status 0 (if status = 0 then p.out else [])

/-- A request waits until it is tried again: for the rebuild cursor, until home agents admit pool accesses
(R218, R224), or at a port die while its slice grants no VC0 credit (R406). -/
def Chip.waitTier (c : Chip) (p : Pend) : Chip :=
  let c := c.setPend p
  { c with mem := { c.mem with cursorWait := c.mem.cursorWait ++ [p.id] } }

/-- The same for a request that has taken a line: it holds the line meanwhile, so that none passes it (R408). -/
def Chip.stallLine (c : Chip) (p : Pend) (pl : Nat) (snooped kept : Bool) : Chip :=
  let c := c.waitTier p
  c.setLineQ pl { c.lineQ pl with txn := some { pend := p.id, kept := kept, stalled := true, snooped := snooped } }

/-- The request holds one of its lines while it waits. -/
def Chip.stalledAt (c : Chip) (p : Pend) : Option LineTxn :=
  p.lines.head?.bind fun l => (c.lineQ l.1).txn.filter fun t => t.stalled && t.pend == p.id

/-- Line-class requests of ports in a slice's hold queue. -/
def Chip.sliceHeld (c : Chip) (die : Nat) : Nat :=
  let line (id : Nat) : Bool := (c.pend? id).any fun p => opcVc p.req.opc == 0 && match p.origin with
    | .port _ _ => true
    | .dev _ => false
  (c.coh.queues.map fun e =>
    if c.lineDie e.1 = die then (e.2.waiters.filter fun w => match w with
      | .pend id => line id
      | .rsv _ _ => false).length else 0).sum

/-- A line-class request of a port: it comes to its slice on VC0 credit. -/
def Pend.onVc0 (p : Pend) : Bool :=
  opcVc p.req.opc == 0 && match p.origin with
    | .port _ _ => true
    | .dev _ => false

/-- A request waits at its port die for VC0 credit of the line's slice (R406): the hold queue has no free entry, or
an earlier request to the slice waits so. -/
def Chip.noVc0 (c : Chip) (p : Pend) (pl : Nat) : Bool :=
  p.onVc0 && (decide (512 ≤ c.sliceHeld (c.lineDie pl)) || c.mem.cursorWait.any fun id => (c.pend? id).any fun q =>
    q.onVc0 && (c.stalledAt q).isNone && q.lines.head?.any fun l => c.lineDie l.1 == c.lineDie pl)

/-- A line-class request meets a BUSY or reserved line (R406): RETRY with a token, or held. -/
def Chip.joinLine (c : Chip) (p : Pend) (pl : Nat) : Chip :=
  match p.origin with
  | .dev _ => (c.setPend p).addWaiter pl (.pend p.id)
  | .port _ _ =>
    if opcVc p.req.opc ≠ 0 then (c.setPend p).addWaiter pl (.pend p.id)
    else if c.liveRsv pl p.req.src p.req.rsv then
      -- its reservation still waits in the queue: the same token again
      (((c.delPend p.id).releaseCells p.cells).bump .cohRetry (c.lineDie pl)).reply p 1 p.req.rsv []
    else
      match c.reserve pl p.req.src with
      | some (tok, c) =>
        ((((c.delPend p.id).releaseCells p.cells).addWaiter pl (.rsv p.req.src tok)).bump .cohRetry
          (c.lineDie pl)).reply p 1 tok []
      | none => ((c.setPend p).addWaiter pl (.pend p.id)).bump .cohHeld (c.lineDie pl)

/-- End a line's transaction: waiters, if any, take it at LINE_TRANSACTION_END. -/
def Chip.endTxn (c : Chip) (pl : Nat) : Chip :=
  let q := c.lineQ pl
  c.setLineQ pl { q with txn := if q.waiters = [] then none else some { ended := true } }

/-- A free way of the line's set. -/
def Chip.freeWay (c : Chip) (pl : Nat) : Option Nat :=
  let es := c.setEnts pl
  (List.range 16).find? fun w => es.all fun e => e.2.way != w

/-- Make a new entry in a free way. -/
def Chip.newEnt (c : Chip) (pl : Nat) : Chip :=
  let c := { c with coh := { c.coh with seq := c.coh.seq + 1 } }
  c.setEnt pl { st := 1, sharers := 0, way := (c.freeWay pl).getD 0, seq := c.coh.seq }

/-- Victim of a back-invalidation: the oldest way neither BUSY nor LOST (R409). -/
def Chip.victim (c : Chip) (pl : Nat) : Option (Nat × LineEnt) :=
  minBy? (fun e => e.2.seq) ((c.setEnts pl).filter fun e => e.2.st != 3 && !(c.lineQ e.1).busy)

/-- Hold the line for a request until its snoops are answered. -/
def Chip.holdLine (c : Chip) (p : Pend) (pl : Nat) (tags : List Nat) : Chip :=
  let q := c.lineQ pl
  (c.setPend p).setLineQ pl { q with txn := some { pend := p.id, snoops := tags } }

/-- Outcome of a request at one line. -/
inductive LineStep where
  /-- The line is done. -/
  | done (c : Chip) (p : Pend)
  /-- The request waits; it is stored. -/
  | wait (c : Chip)

/-- Look for a way of the line's set (R409, R411): a victim whose holders were lost is settled when it is looked
up, which frees its way, or makes it LOST and no victim. Answers the victim to invalidate, if one is needed. -/
def Chip.findWay (c : Chip) (pl : Nat) : Nat → Option (Nat × LineEnt) × Chip
  | 0 => (none, c)
  | n + 1 =>
    if (c.freeWay pl).isSome then (none, c)
    else
      match c.victim pl with
      | none => (none, c)
      | some v => if (c.settleEnt v.1).ent? v.1 = some v.2 then (some v, c) else (c.settleEnt v.1).findWay pl n

/-- The request needs a new entry (R409). -/
def Chip.takeWay (c : Chip) (p : Pend) (pl ol : Nat) : LineStep :=
  let w := c.findWay pl 17
  let c := w.2
  if (c.obj p.obj).st = 5 then .done c { p with lost := true }
  else if (c.freeWay pl).isSome then
    let r := (c.newEnt pl).doLine p pl ol false
    .done r.1 r.2
  else
    match w.1 with
    | none => .wait (c.stallLine p pl false false)
    | some (vl, ve) =>
      let own := (c.lineOwner vl).getD (0, 0)
      let hs := slotsOf ve.sharers
      if 8192 < c.snoopCount (c.lineDie vl) + hs.length then .wait (c.stallLine p pl false false)
      else
        let t := (c.bump .cohBackInv (c.lineDie pl)).sendSnoops vl hs own.1 own.2 true true
        let q := t.2.lineQ vl
        .wait ((t.2.setLineQ vl { q with txn := some { snoops := t.1, forLine := some pl } }).holdLine p pl [])

/-- Payload bytes of a request that the home may use: whole cells, while its message still arrives (R353). -/
def Pend.arrived (p : Pend) : Nat := match p.got with
  | none => p.req.payload.length
  | some g => g / 256 * 256

/-- The request's bytes of a line have not all arrived. -/
def Pend.awaits (p : Pend) (ol : Nat) : Bool :=
  p.got.isSome && decide (p.arrived < (lineSpan p ol).1 + (lineSpan p ol).2 - p.off)

/-- The request can come to a line's home: the switch cores on the way move messages, and a path is open (R363,
R369). -/
def Chip.lineOpen (c : Chip) (p : Pend) (pl : Nat) : Bool :=
  let home := c.lineDie pl
  let src := match p.origin with
    | .port a _ => some (portDie a)
    | .dev o => c.ownerDie? o
  c.enabled 4 home && src.all fun d => c.pathOpen d home (pathHash p.req.addr p.req.tag p.req.src (nodeOf p.req.addr))

/-- The request has the line: act on the directory (R401). -/
def Chip.useLine (c : Chip) (p : Pend) (pl ol : Nat) : LineStep :=
  let dev := match p.origin with
    | .dev _ => true
    | .port _ _ => false
  let c := c.settleEnt pl
  if (c.obj p.obj).st = 5 then .done c { p with lost := true }
  else if !c.enabled 7 12 then .wait (c.stallLine p pl false false)
  else
    match c.tierStall p ol with
    | some k =>
      let r := c.accessStall p [k]
      .wait (r.1.stallLine r.2 pl false false)
    | none =>
      match dirAct p.req.opc dev (c.sharer? p.req.src) (c.ent? pl) with
      | .go => let r := c.doLine p pl ol false; .done r.1 r.2
      | .snoop slots inv =>
        if 8192 < c.snoopCount (c.lineDie pl) + slots.length then .wait (c.stallLine p pl false false)
        else
          let t := c.sendSnoops pl slots p.obj ol inv true
          .wait (t.2.holdLine p pl t.1)
      | .alloc => c.takeWay p pl ol

/-- The request takes the line. -/
def Chip.takeLine (c : Chip) (p : Pend) (pl ol : Nat) : LineStep := (c.bump .cohLookups (c.lineDie pl)).useLine p pl ol

/-- A request reaches one of its lines. `head`: it is the waiter whose turn has come. Under cut-through it stands
still until the line's bytes have arrived (R353). -/
def Chip.tryLine (c : Chip) (p : Pend) (pl ol : Nat) (head : Bool) : LineStep :=
  let ob := c.obj p.obj
  let q := c.lineQ pl
  if p.awaits ol then .wait (c.setPend p)
  else if ob.st = 5 then .done c { p with lost := true }
  else if head then c.takeLine p pl ol
  else if !c.lineOpen p pl || c.noVc0 p pl then .wait (c.waitTier p)
  else if !ob.writable || !c.enabled 6 (c.lineDie pl) then
    if !c.enabled 7 12 then .wait (c.waitTier p)
    else
      match c.tierStall p ol with
      | some k =>
        let r := c.accessStall p [k]
        .wait (r.1.waitTier r.2)
      | none =>
        let r := c.lineEffect p ol
        .done r.1 r.2
  else if q.reservedAt.isSome && !q.busy then
    match q.waiters with
    | .rsv src tok :: t =>
      if src = p.req.src ∧ tok = p.req.rsv then
        let c := (c.dropRsv pl src tok).setLineQ pl { q with reservedAt := none, waiters := t, txn := none }
        match c.takeLine p pl ol with
        | .done c p => .done (c.endTxn pl) p
        | w => w
      else .wait (c.joinLine p pl)
    | _ => .wait (c.joinLine p pl)
  else if !c.enabled 7 12 then .wait (c.waitTier p)
  else if q.txn.isSome || !q.waiters.isEmpty then .wait (c.joinLine p pl)
  else c.takeLine p pl ol

/-- Perform the request on its remaining lines, as far as it gets. -/
def Chip.runLines (c : Chip) (p : Pend) (head : Bool) : List (Nat × Nat) → Chip
  | [] => c.complete p
  | l :: rest =>
    match c.tryLine { p with lines := l :: rest } l.1 l.2 head with
    | .wait c => c
    | .done c p =>
      if p.req.opc = 11 ∧ p.dataErr = true then c.complete p
      else Chip.runLines c { p with lines := rest } false rest

/-- A line is done: the request goes on to its other lines, but a REDUCE that could not read ends. -/
def Chip.afterLine (c : Chip) (p : Pend) (rest : List (Nat × Nat)) : Chip :=
  if p.req.opc = 11 ∧ p.dataErr = true then c.complete p else c.runLines { p with lines := rest } false rest

/-- The request that holds a line looks at the directory again: what kept it may have gone. -/
def Chip.retake (c : Chip) (pl : Nat) : Chip :=
  let q := c.lineQ pl
  match q.txn.bind fun t => c.pend? t.pend with
  | none => c.endTxn pl
  | some p =>
    match p.lines with
    | [] => c.endTxn pl
    | l :: rest =>
      match (c.setLineQ pl { q with txn := none }).useLine p pl l.2 with
      | .wait c => c
      | .done c p => (c.endTxn pl).afterLine p rest

/-- The transaction of a line has every answer it waited for. A write whose granule the rebuild has reached waits
for it (R218); a request whose entry went meanwhile needs a new one. -/
def Chip.lineReady (c : Chip) (pl : Nat) : Chip :=
  match (c.lineQ pl).txn with
  | none => c
  | some t =>
    match c.pend? t.pend with
    | none => c.endTxn pl
    | some p =>
      match p.lines with
      | [] => c.endTxn pl
      | l :: rest =>
        if (c.obj p.obj).st = 5 then (c.endTxn pl).runLines { p with lost := true, lines := rest } false rest
        else
          match c.tierStall p l.2 with
          | some k =>
            let r := c.accessStall p [k]
            r.1.stallLine r.2 pl true t.kept
          | none =>
            if (c.ent? pl).isNone && (p.req.opc == 2 || p.req.opc == 3) then c.retake pl
            else
              let r := c.doLine p pl l.2 t.kept
              (r.1.endTxn pl).afterLine r.2 rest

/-- A victim or swept line has its answers: its way is free, unless it is LOST, and the request that needed a way
looks for one again. -/
def Chip.sweptReady (c : Chip) (pl : Nat) (forLine : Option Nat) : Chip :=
  let c := match c.ent? pl with
    | some e => if e.st = 3 then c else c.delEnt pl
    | none => c
  let c := c.endTxn pl
  match forLine with
  | none => c
  | some l => c.retake l

/-- A snoop is settled, answered or not: take it off the lines that wait for it (R403). -/
def Chip.snoopDone (c : Chip) (s : Snoop) (kept : Bool) : Chip :=
  let sn := delFirst (fun x => x.tag == s.tag) c.coh.snoops
  let ps := c.coh.partSweeps.map (fun e => (e.1, e.2.erase s.tag))
  let c := { c with coh := { c.coh with snoops := sn, partSweeps := ps } }
  let q := c.lineQ s.line
  match q.txn with
  | none => c
  | some t =>
    if t.snoops.contains s.tag then
      let t := { t with snoops := t.snoops.erase s.tag, kept := t.kept || (kept && !s.inv) }
      let c := c.setLineQ s.line { q with txn := some t }
      if t.snoops = [] then
        (if t.pend = 0 then c.sweptReady s.line t.forLine else c.lineReady s.line)
      else c
    else c

/-- The same, and the snoop's index is free again. -/
def Chip.endSnoop (c : Chip) (s : Snoop) (kept : Bool) : Chip := (c.snoopDone s kept).sendLate (s.tag / 8192)

/-- Next waiter of a line takes it (R407). -/
def Chip.nextWaiter (c : Chip) (pl : Nat) : Chip :=
  let q := c.lineQ pl
  match q.waiters with
  | [] => c.setLineQ pl { q with txn := none, reservedAt := none }
  | .rsv _ _ :: _ => c.setLineQ pl { q with txn := none, reservedAt := some c.tick }
  | .pend id :: t =>
    let c := c.setLineQ pl { q with txn := none, reservedAt := none, waiters := t }
    match c.pend? id with
    | none => c
    | some p => c.runLines p true p.lines

/-- WB and EVICT never wait for a line (R401, R404). -/
def Chip.wbEvict (c : Chip) (p : Pend) (pl : Nat) : Chip :=
  let c := (c.bump .cohLookups (c.lineDie pl)).settleEnt pl
  let s := c.sharer? p.req.src
  match c.ent? pl with
  | none => if p.req.opc = 5 then c.bump .cohStaleWb (c.lineDie pl) else c
  | some e =>
    let mine := s.any fun i => e.sharers.getLsbD i
    if p.req.opc = 5 then
      if e.st = 2 ∧ mine then ((c.delEnt pl).takeDram p p.off).writeObj p.obj p.off p.req.payload
      else c.bump .cohStaleWb (c.lineDie pl)
    else if mine ∧ e.st = 2 then c.delEnt pl
    else if mine ∧ e.st = 1 then
      let v := e.sharers &&& ~~~ slotBit (s.getD 0)
      if v = 0 then c.delEnt pl else c.setEnt pl { e with sharers := v }
    else c

/-- A WB or EVICT comes to the home: it waits only for what every access waits for, VC0 credit and
MEM_CTRL.ENABLE, and a WB that writes for the rebuild cursor (R218, R224, R406). -/
def Chip.runWb (c : Chip) (p : Pend) (pl : Nat) : Chip :=
  let writes := p.req.opc == 5 && (c.ent? pl).any fun e =>
    e.st == 2 && (c.sharer? p.req.src).any fun i => e.sharers.getLsbD i
  if !c.lineOpen p pl || c.noVc0 p pl || !c.enabled 7 12 then c.waitTier p
  else
    match if writes then c.tierStall p p.off else none with
    | some k =>
      let r := c.accessStall p [k]
      r.1.waitTier r.2
    | none => (c.wbEvict p pl).complete p

/-- A waiting request is tried again. -/
def Chip.tryAgain (c : Chip) (p : Pend) : Chip :=
  match p.lines with
  | [] => c.runLines p false []
  | l :: _ =>
    match c.stalledAt p with
    | some t => if t.snooped then c.lineReady l.1 else c.retake l.1
    | none => if p.req.opc = 5 ∨ p.req.opc = 6 then c.runWb p l.1 else c.runLines p false p.lines

/-- Requests that wait are tried again, in order. -/
def Chip.wakeCursor (c : Chip) : Chip :=
  let ids := c.mem.cursorWait
  ids.foldl (fun c id =>
    match c.pend? id with
    | none => c
    | some p => c.tryAgain p) { c with mem := { c.mem with cursorWait := [] } }

/-! ### Events of the home -/

/-- A snoop response arrives (R403): its first DATA is written to memory. -/
def Chip.snpRsp (c : Chip) (r : SnpRsp) : Chip :=
  match c.coh.snoops.find? fun s => s.tag == r.tag && s.node == r.src with
  | none => c
  | some s =>
    let c := if r.data && s.keepData then
        match c.lineOwner s.line with
        | some (id, ol) => c.writeObj id ol r.line
        | none => c
      else c
    c.endSnoop s r.kept

/-- LINE_TRANSACTION_END (R407): an ended transaction hands the line to its head waiter. -/
def Chip.lineEnd (c : Chip) (pl : Nat) : Chip :=
  let q := c.lineQ pl
  if q.busy || q.reservedAt.isSome || q.waiters.isEmpty then c else (c.nextWaiter pl).wakeCursor

/-- RESERVATION_EXPIRY (R407). -/
def Chip.rsvExpiry (c : Chip) (pl : Nat) : Chip :=
  let q := c.lineQ pl
  match q.reservedAt, q.waiters with
  | some t0, .rsv src tok :: t =>
    if c.due t0 (max 1 (c.fld .cohGlb2 12 [] 31 16)) then
      (((c.dropRsv pl src tok).setLineQ pl { q with reservedAt := none, waiters := t }).bump
        .cohRsvExpired (c.lineDie pl)).nextWaiter pl |>.wakeCursor
    else c
  | _, _ => c

/-- SNOOP_RESEND (R410): the same TAG on the other usable port; a lost node gets no more snoops (R411). -/
def Chip.snoopResend (c : Chip) (tag : Nat) : Chip :=
  match c.coh.snoops.find? fun s => s.tag == tag with
  | none => c
  | some s =>
    if c.due s.last (max 1 (c.fld .cohGlb 12 [] 15 0)) && !c.coh.lostNodes.contains s.node then
      let port := match c.node s.node with
        | .ports a b =>
          let other := if s.port = a then b else a
          if c.usable other then some other else if c.usable s.port then some s.port else none
        | _ => none
      let s' := { s with last := c.tick, port := port.getD s.port }
      let c := { c with coh := { c.coh with snoops := modFirst (fun x => x.tag == tag) (fun _ => s') c.coh.snoops } }
      (c.bump .cohSnpResend (tag / 8192)).putSnoop port s'
    else c

/-- Partitions that have a stream from a node (R411). -/
def Chip.streamParts (c : Chip) (node : Nat) : List Nat :=
  ((c.idxs .gtxStream 12 fun w => bit w 31 && bits w 11 0 == node).map fun s =>
    c.fld .gtxStream 12 [s] 29 24).dedup

/-- SNOOP_TIMEOUT (R410, R411): the node is lost at every slice. -/
def Chip.snoopTimeout (c : Chip) (tag : Nat) : Chip :=
  match c.coh.snoops.find? fun s => s.tag == tag with
  | none => c
  | some s =>
    if c.due s.first (max 1 (c.fld .cohGlb 12 [] 31 16)) then
      let c := (c.bump .cohSnpTmo (tag / 8192)).raise Ev.snoopTimeout []
      let c := if c.coh.lostNodes.contains s.node then c else
        let c := match c.sharer? s.node with
          | some i => c.setFld .cohSharer 12 [i] 30 30 1
          | none => c
        let c := { c with coh := { c.coh with
          lostNodes := c.coh.lostNodes ++ [s.node], sweeps := c.coh.sweeps ++ [s.node] } }
        c.raise Ev.nodeLost (c.streamParts s.node) s.node 0
      (c.settleEnt s.line).endSnoop s false
    else c

/-- SNOOP_FILTER_SWEEP_DONE (R411): every entry of the lost node is settled, then a held
COH_SHARER write takes effect. -/
def Chip.sweepDone (c : Chip) (node : Nat) : Chip :=
  if c.coh.sweeps.contains node then
    let c := (kkeys c.coh.ents).foldl (fun c pl => c.settleEnt pl) c
    let held := c.coh.heldWr.filter (fun h => c.slotNode h.1 == node || h.2.toNat % 4096 == node)
    let rest := c.coh.heldWr.filter (fun h => !(held.contains h))
    let c := { c with coh := { c.coh with sweeps := c.coh.sweeps.erase node, heldWr := rest } }
    held.foldl (fun c h =>
      let c := { c with coh := { c.coh with lostNodes := c.coh.lostNodes.erase node } }
      c.setReg .cohSharer 12 [h.1] (putBits h.2.toNat 30 12 0)) c
  else c

/-- Entries of a partition's extents that a sweep has to free: pool line, object, offset. -/
def Chip.partEnts (c : Chip) (part : Nat) : List (Nat × Nat × Nat) :=
  c.coh.ents.filterMap fun e => match c.lineOwner e.1 with
    | some (i, ol) => if (c.obj i).part = part ∧ e.2.st ≠ 3 then some (e.1, i, ol) else none
    | none => none

/-- One entry of a partition sweep: its holders are snooped, and it is free when they have answered. An entry whose
line is BUSY, or for which no snoop index is left, is met again by the next pass. -/
def Chip.sweepEnt (c : Chip) (l : Nat × Nat × Nat) : List Nat × Chip :=
  let c := c.settleEnt l.1
  match c.ent? l.1 with
  | none => ([], c)
  | some e =>
    let q := c.lineQ l.1
    let hs := slotsOf e.sharers
    if e.st = 3 ∨ q.busy = true ∨ 8192 < c.snoopCount (c.lineDie l.1) + hs.length then ([], c)
    else if hs = [] then ([], c.delEnt l.1)
    else
      let t := c.sendSnoops l.1 hs l.2.1 l.2.2 true true
      (t.1, t.2.setLineQ l.1 { t.2.lineQ l.1 with txn := some { snoops := t.1 } })

/-- Partition sweep (R415): snoop every holder of every entry of the partition's extents, as far as the slices'
snoop indices go (R416). -/
def Chip.partSweep (c : Chip) (part : Nat) : Chip :=
  let r := (c.partEnts part).foldl (fun r l =>
    let t := r.2.sweepEnt l
    (r.1 ++ t.1, t.2)) (([] : List Nat), c)
  { r.2 with coh := { r.2.coh with partSweeps := r.2.coh.partSweeps ++ [(part, r.1)] } }

/-- COH_PROBE (R421). -/
def Chip.probe (c : Chip) (die : Nat) : Chip :=
  let pl := (c.reg .cohProbeAddrLo die + 2 ^ 32 * c.fld .cohProbeAddrHi die [] 7 0) / 128
  let s := c.lineSet pl
  let e := c.ent? pl
  let pr : Probe :=
    { valid := e.isSome, busy := (c.lineQ pl).busy, st := (e.map (·.st)).getD 0,
      way := (e.map (·.way)).getD 0, bank := s.1, set_ := s.2, sharers := (e.map (·.sharers)).getD 0 }
  { c with coh := { c.coh with probes := kput c.coh.probes die pr } }

end Sys2Proof.Machine
end

