-- ==== Sys2Proof/Machine/Cores.lean ====
section
/-! DEFINITION. Cores, bowls, fencing evidence and the bowl table (chapter 2): core states,
composition, scrubs, the suspicion log and floor raises. -/

namespace Sys2Proof.Machine

/-! ### Cores -/

def coreTile (k : Nat) : Nat := k % coresPerDie / 64
def corePos (k : Nat) : Nat := k % 64
/-- First core of the tile of core `k`. -/
def tileBase (k : Nat) : Nat := coreDie k * coresPerDie + coreTile k * 64
/-- Register index of a core within its die. -/
def coreIdx (k : Nat) : List Nat := [coreTile k, corePos k]

def Chip.core (c : Chip) (k : Nat) : CoreSt := kgetD c.cores.core k {}

/-- Store a core's state; a change of STATE stores all three of its copies (R595). -/
def Chip.setCore (c : Chip) (k : Nat) (v : CoreSt) : Chip :=
  let tri := if v.st = (c.core k).st then c.ctl.tri
    else kdel c.ctl.tri ((Reg.corCoreState).addr (coreDie k) (coreIdx k))
  { c with cores := { c.cores with core := ksetD c.cores.core k {} v }, ctl := { c.ctl with tri := tri } }

def Chip.modCore (c : Chip) (k : Nat) (f : CoreSt → CoreSt) : Chip := c.setCore k (f (c.core k))

def CoreState.code : CoreState → Nat
  | .enabled => 0
  | .suspect => 1
  | .fenced => 2
  | .spare => 3

/-- A core that can run kernels. -/
def CoreState.runs : CoreState → Bool
  | .enabled => true
  | .suspect => true
  | _ => false

/-- Key of a core-store byte. -/
def storeKey (core off : Nat) : Nat := core * 2 ^ 19 + off

/-- Core store and every context register zero, accumulators and stationary operands among them; every slot
empty (R40). -/
def Chip.wipeCore (c : Chip) (k : Nat) : Chip :=
  let st := c.cores.store.filter (fun e => e.1 / 2 ^ 19 != k)
  let sc := c.cores.scalar.filter (fun e => e.1 / 128 != k)
  let cx := c.cores.ctx.filter (fun e => e.1 / 4 != k)
  let c := { c with cores := { c.cores with store := st, scalar := sc, ctx := cx, issuing := kdel c.cores.issuing k,
                                            icache := kdel c.cores.icache k } }
  c.modCore k fun x => { x with fillValid := 0, eccWords := [] }

/-- Write bytes of a core store. -/
def Chip.wrStore (c : Chip) (core off : Nat) (b : Bytes) : Chip :=
  { c with cores := { c.cores with store := putDram c.cores.store (storeKey core off) b } }

/-! ### Multi-word entries (R598) -/

/-- The word of a table entry that the next write of its first word makes effective. -/
def Chip.staged (c : Chip) (r : Reg) (idx : List Nat) : Nat :=
  match kfind? c.ctl.stage (r.addr 12 idx) with
  | some w => w.toNat
  | none => c.reg r 12 idx

def Chip.putStage (c : Chip) (addr : Nat) (v : Word) : Chip :=
  { c with ctl := { c.ctl with stage := kput c.ctl.stage addr v } }

def Chip.dropStage (c : Chip) (addrs : List Nat) : Chip :=
  { c with ctl := { c.ctl with stage := addrs.foldl kdel c.ctl.stage } }

/-! ### Bowls (R37, R38, R76, R77) -/

/-- The nine words of a bowl-table entry. -/
def Chip.bowlWords (c : Chip) (b : Nat) : List Nat :=
  c.reg .corBowlDesc 12 [b] :: (List.range 8).map fun n => c.reg .corBowlChild 12 [b, n]

def Chip.setBowlWords (c : Chip) (b : Nat) (ws : List Nat) : Chip :=
  (List.range 8).foldl (fun c n => c.setReg .corBowlChild 12 [b, n] (ws.getD (n + 1) 0))
    (c.setReg .corBowlDesc 12 [b] (ws.headD 0))

def bwRank (w : Nat) : Nat := bits w 23 21
def bwCnt (w : Nat) : Nat := bits w 20 16
def bwPart (w : Nat) : Nat := bits w 29 24
/-- The first word describes a bowl. -/
def bwOk (w : Nat) : Bool :=
  bit w 31 && decide (1 ≤ bwRank w) && decide (bwRank w ≤ 4) && decide (1 ≤ bwCnt w) && decide (bwCnt w ≤ 16)

/-- Children of an entry's words, by logical index. -/
def bwChildren (ws : List Nat) : List Nat :=
  (List.range (bwCnt (ws.headD 0))).map fun i =>
    let w := ws.getD (i / 2 + 1) 0
    if i % 2 = 0 then bits w 15 0 else bits w 31 16

def Chip.bowlW (c : Chip) (b : Nat) : Nat := c.reg .corBowlDesc 12 [b]
def Chip.bowlOk (c : Chip) (b : Nat) : Bool := bwOk (c.bowlW b)
def Chip.bowlPart (c : Chip) (b : Nat) : Nat := bwPart (c.bowlW b)
def Chip.bowlRank (c : Chip) (b : Nat) : Nat := bwRank (c.bowlW b)
def Chip.children (c : Chip) (b : Nat) : List Nat := bwChildren (c.bowlWords b)

/-- Leaf cores of a bowl by logical order; `fuel` 4 covers every rank. -/
def Chip.leavesN (c : Chip) : Nat → Nat → List Nat
  | 0, _ => []
  | f + 1, b => if c.bowlRank b = 1 then c.children b else (c.children b).flatMap (Chip.leavesN c f)

def Chip.leaves (c : Chip) (b : Nat) : List Nat := c.leavesN 4 b

/-- Every leaf ENABLED or SUSPECT and every child available (R76). -/
def Chip.availN (c : Chip) : Nat → Nat → Bool
  | 0, _ => false
  | f + 1, b =>
    c.bowlOk b &&
    if c.bowlRank b = 1 then (c.children b).all fun k => (c.core k).st.runs
    else (c.children b).all (Chip.availN c f)

def Chip.bowlAvail (c : Chip) (b : Nat) : Bool := c.availN 4 b

/-- Child counts from the top rank down. -/
def Chip.shapeN (c : Chip) : Nat → Nat → List Nat
  | 0, _ => []
  | f + 1, b =>
    bwCnt (c.bowlW b) :: (if c.bowlRank b = 1 then [] else Chip.shapeN c f ((c.children b).headD 0))

def Chip.shape (c : Chip) (b : Nat) : List Nat := c.shapeN 4 b

/-- Nodes of a bowl by ascending rank, then logical order; the bowl itself last. -/
def Chip.nodesN (c : Chip) : Nat → List Nat → List Nat
  | 0, _ => []
  | f + 1, bs =>
    (match bs with
     | [] => []
     | b :: _ => if c.bowlRank b = 1 then [] else Chip.nodesN c f (bs.flatMap c.children)) ++ bs

def Chip.bowlNodes (c : Chip) (b : Nat) : List Nat := c.nodesN 4 [b]

/-- Logical leaf 0, and the die that launches the bowl (R82). -/
def Chip.leaf0 (c : Chip) (b : Nat) : Nat := (c.leaves b).headD 0
def Chip.launchDie (c : Chip) (b : Nat) : Nat := coreDie (c.leaf0 b)

/-- Valid entries of the bowl table. -/
def Chip.bowls (c : Chip) : List Nat := c.idxs .corBowlDesc 12 bwOk

/-- Rank-1 bowls that hold a core, lowest index first. -/
def Chip.bowlsOf (c : Chip) (k : Nat) : List Nat :=
  c.bowls.filter fun b => c.bowlRank b == 1 && (c.children b).contains k

/-- Bowls of any rank that contain a core. -/
def Chip.bowlsWith (c : Chip) (k : Nat) : List Nat := c.bowls.filter fun b => (c.leaves b).contains k

/-- A valid entry obeys R37, R38 and R23. -/
def Chip.entryOk (c : Chip) (b : Nat) : Bool :=
  let w := c.bowlW b
  let ch := c.children b
  let rk := bwRank w
  decide (ch.Nodup) &&
  if rk = 1 then
    ch.all (fun k => decide (k < 8 * coresPerDie) && tileBase k == tileBase (ch.headD 0) &&
      -- a core belongs to at most one partition (R23)
      (c.bowlsOf k).all fun b' => b' == b || c.bowlPart b' == bwPart w)
  else
    let sh := c.shape (ch.headD 0)
    ch.all (fun x => decide (x < 8192) && x != b && c.bowlOk x && decide (c.bowlRank x + 1 = rk) &&
      c.bowlPart x == bwPart w && c.shape x == sh) &&
    -- the leaves of a rank-2 bowl lie on one core die (R38)
    (decide (rk ≠ 2) || (ch.flatMap c.leaves).all fun k => coreDie k == coreDie ((ch.flatMap c.leaves).headD 0))

/-- Valid entries that have the bowl among their nodes. -/
def Chip.bowlsAbove (c : Chip) (b : Nat) : List Nat :=
  c.bowls.filter fun p => p != b && decide (1 < c.bowlRank p) && (c.bowlNodes p).contains b

/-- An entry's new words break neither its own rules nor those of a valid bowl above it (R37, R38, R23). R76 has
a RANK of 0 or 5-7 and a CHILD_CNT of 0 or 17-31 make an entry invalid, and R37 has a bowl break its rules: that such
words with VALID 1 take effect, as an entry that describes no bowl, and set no CFG_IGNORED is the model's choice
(notes/assumptions/133.md). -/
def Chip.bowlLegal (c : Chip) (b : Nat) (ws : List Nat) : Bool :=
  let c' := c.setBowlWords b ws
  (!bwOk (ws.headD 0) || c'.entryOk b) && (c.bowlsAbove b).all fun p => c'.entryOk p

/-- Running contexts (core, context): kernels, check runs and searches. -/
def Chip.busyCtx (c : Chip) : List (Nat × Nat) :=
  let ls := c.dsp.launches.filter fun l => l.phase == 1 || l.phase == 2 || l.phase == 3
  let ck (bowl ctx : Nat) := (c.leaves bowl).map fun k => (k, ctx)
  let a := ls.flatMap fun l => (c.leaves (bits (l.desc.getD 1 0).toNat 12 0)).map fun k => (k, l.ctx)
  let b := c.dsp.checks.flatMap fun k =>
    if k.phase = 1 then ck k.bowl1 k.ctx1 else if k.phase = 3 then ck k.bowl2 k.ctx2 else []
  let d := (c.sft.ops.filter fun o => o.phase == 1).flatMap fun o => o.leaves.map fun k => (k, o.ctx)
  a ++ b ++ d

/-- Some context of the bowl runs. -/
def Chip.bowlRuns (c : Chip) (b : Nat) : Bool :=
  let ls := c.leaves b
  c.busyCtx.any fun e => ls.contains e.1

/-- An entry takes effect. A SPARE core that a rank-1 entry names becomes ENABLED; a core that no
rank-1 bowl holds any more is scrubbed and becomes SPARE (R40, R71). -/
def Chip.bowlEffect (c : Chip) (b : Nat) (ws : List Nat) : Chip :=
  if c.bowlLegal b ws then
    let old := if c.bowlOk b && c.bowlRank b == 1 then c.children b else []
    let c := c.setBowlWords b ws
    let new_ := if c.bowlOk b && c.bowlRank b == 1 then c.children b else []
    let c := new_.foldl (fun c k => if (c.core k).st = .spare then c.modCore k fun x => { x with st := .enabled } else c) c
    let gone := old.filter fun k => (c.bowlsOf k).isEmpty && (c.core k).st != .fenced
    gone.foldl (fun c k => c.modCore k fun x => { x with scrubbing := true }) c
  else c.ignored (Reg.addr .corBowlDesc 12 [b])

/-- Held writes whose bowl has stopped running take effect (R66). -/
def Chip.bowlRelease (c : Chip) : Chip :=
  let ready := c.cores.bowlHeld.filter (fun h => !c.bowlRuns h.1)
  let rest := c.cores.bowlHeld.filter (fun h => c.bowlRuns h.1)
  ready.foldl (fun c h => c.bowlEffect h.1 (h.2.map (·.toNat))) { c with cores := { c.cores with bowlHeld := rest } }

/-- A write of COR_BOWL_DESC makes its entry take effect, or is held while the bowl runs; a later
write replaces a held one (R66, R598). -/
def Chip.bowlWrite (c : Chip) (b v : Nat) : Chip :=
  let v := putBits (putBits v 30 30 0) 15 0 0
  let ws := v :: (List.range 8).map fun n => c.staged .corBowlChild [b, n]
  let c := c.dropStage ((List.range 8).map fun n => Reg.addr .corBowlChild 12 [b, n])
  if c.bowlOk b && c.bowlRuns b then
    let held := (c.cores.bowlHeld.filter fun h => h.1 != b) ++ [(b, ws.map (BitVec.ofNat 32))]
    { c with cores := { c.cores with bowlHeld := held } }
  else c.bowlEffect b ws

/-! ### Composition at BRINGUP (R39) -/

/-- Compose one tile. On a composition after a restart of BRINGUP (R508) the entries and spares of the one before it
are written anew. -/
def Chip.composeTile (c : Chip) (die tile : Nat) : Chip :=
  let base := die * coresPerDie + tile * 64
  let live := ((List.range 64).map (base + ·)).filter fun k => (c.core k).st != .fenced
  let m := live.length
  let r := min m (min 16 (c.fld .corTileCfg die [tile] 4 0))
  let b := (m - r) / 16
  let c := (live.take (16 * b)).foldl (fun c k => c.modCore k fun x => { x with st := .enabled }) c
  let c := (live.drop (16 * b)).foldl (fun c k => c.modCore k fun x => { x with st := .spare }) c
  (List.range 4).foldl (fun c j =>
    let ch := (live.drop (16 * j)).take 16
    let words := (2 ^ 31 + 2 ^ 21 + 16 * 2 ^ 16) :: (List.range 8).map fun n =>
      ch.getD (2 * n) 0 + ch.getD (2 * n + 1) 0 * 65536
    c.setBowlWords (die * 196 + tile * 4 + j) (if j < b then words else [])) c

/-- Compose every tile of every core die. -/
def Chip.compose (c : Chip) : Chip :=
  (List.range 8).foldl (fun c d => (List.range 49).foldl (fun c t => c.composeTile d t) c) c

/-! ### Scrubs -/

def Chip.startScrub (c : Chip) (ks : List Nat) : Chip :=
  ks.foldl (fun c k => c.modCore k fun x => { x with scrubbing := true }) c

/-- A scrub ends (R40): zeros everywhere; a core of no bowl becomes SPARE unless it is fenced. -/
def Chip.scrubDone (c : Chip) (k : Nat) : Chip :=
  if (c.core k).scrubbing then
    let free := (c.bowlsOf k).isEmpty
    (c.wipeCore k).modCore k fun x =>
      { x with scrubbing := false, st := if x.st ≠ .fenced ∧ free = true then .spare else x.st }
  else c

/-! ### The suspicion log and floors (R110, R111, R126, R576) -/

/-- Junction bucket of R111. -/
def tempBucket (t : Nat) : Nat := min 15 ((t - 40) / 5)

/-- What a log entry says about the run. -/
structure Evidence where
  bowl : Nat := 0
  part : Nat := 0
  desc : Nat := 0
  stepTag : Nat := 0
  mon : Monitors := {}

/-- SET_MV and FLOOR_MV outside 650-850 act as the nearer limit (R582). -/
def clampMv (v : Nat) : Nat := max 650 (min 850 v)

def Chip.floorMv (c : Chip) (n : Nat) : Nat := clampMv (c.fld .pwrRailCfg 12 [n] 23 12)
def Chip.setMv (c : Chip) (n : Nat) : Nat := clampMv (c.fld .pwrRailCfg 12 [n] 11 0)
/-- Rail n's regulator. -/
def Chip.rail (c : Chip) (n : Nat) : Rail := kgetD c.pwr.rails n {}
/-- A rail's VOUT by R574. -/
def Chip.voutOf (c : Chip) (n : Nat) : Nat := clampMv (max (c.floorMv n) (c.setMv n - c.pwr.capMv))

/-- Append to the suspicion log; answers the entry's SEQ. RAIL_MV is the setpoint in force. -/
def Chip.suspLog (c : Chip) (core cause action : Nat) (e : Evidence) : Nat × Chip :=
  let h := c.fld .dspSuspHead 12 [] 7 0
  let seq := c.dsp.suspSeq + 1
  let rail := (c.rail (coreDie core)).command
  let c := { c with dsp := { c.dsp with suspSeq := seq } }
  let words := [seq, c.tick % 2 ^ 32, core + e.bowl * 65536,
    cause + action * 256 + e.part * 65536 + tempBucket e.mon.tj * 2 ^ 24,
    e.mon.rate % 65536 + e.mon.droop % 65536 * 65536, rail + e.desc * 65536, e.stepTag, 0]
  let c := (words.zipIdx).foldl (fun c w => c.setReg .dspSuspLog 12 [h, w.2] w.1) c
  (seq, c.setReg .dspSuspHead 12 [] ((h + 1) % 256))

/-- Raise the floor of a die's core rail; none when it would pass FLOOR_MAX (R576). -/
def Chip.raiseFloor (c : Chip) (die mv : Nat) : Option Chip :=
  let f := clampMv (c.fld .pwrRailCfg 12 [die] 23 12) + mv
  if min 850 (c.fld .pwrGlb2 12 [] 31 20) < f then none
  else some (((c.setFld .pwrRailCfg 12 [die] 23 12 f).bump .pwrFloorRaises 12).raise
    Ev.floorRaised [] (die + f * 65536))

/-- INFO0 of CORE_SUSPECT and CORE_FENCED (R478). -/
def Chip.coreInfo (c : Chip) (k cause : Nat) : Nat :=
  k + (c.bowlsOf k).headD 0 * 65536 + cause * 2 ^ 32

/-- COR_RES_CAPTURE of a core, as its events carry it (R478). -/
def Chip.resCapture (c : Chip) (k : Nat) : Nat := c.reg .corResCapture (coreDie k) (coreIdx k)

end Sys2Proof.Machine
end

