-- ==== Sys2Proof/Machine/Windows.lean ====
section
/-! DEFINITION. Trigger windows and query windows: table entries, their ranges, and what a write
of an entry must satisfy (R79, R80, R250). -/

namespace Sys2Proof.Machine

/-! ### Table words -/

def winRegs : List Reg := [.dspWindowW0, .dspWindowW1, .dspWindowW2, .dspWindowW3, .dspWindowW4,
  .dspWindowW5, .dspWindowW6, .dspWindowW7]
def qwinRegs : List Reg := [.sftQwinW0, .sftQwinW1, .sftQwinW2, .sftQwinW3, .sftQwinW4, .sftQwinW5,
  .sftQwinW6, .sftQwinW7]
def descRegs : List Reg := [.dspDescW0, .dspDescW1, .dspDescW2, .dspDescW3, .dspDescW4, .dspDescW5,
  .dspDescW6, .dspDescW7, .dspDescW8, .dspDescW9, .dspDescW10, .dspDescW11, .dspDescW12, .dspDescW13,
  .dspDescW14, .dspDescW15]
def indexRegs : List Reg := [.sftIndexW0, .sftIndexW1, .sftIndexW2, .sftIndexW3, .sftIndexW4,
  .sftIndexW5, .sftIndexW6, .sftIndexW7, .sftIndexW8, .sftIndexW9, .sftIndexW10, .sftIndexW11,
  .sftIndexW12, .sftIndexW13, .sftIndexW14, .sftIndexW15]

/-- Words of a table entry in effect. -/
def Chip.entryW (c : Chip) (rs : List Reg) (i : Nat) : List Nat := rs.map fun r => c.reg r 12 [i]

/-- Words of an entry that a write of `v` to its first word makes effective (R598). -/
def Chip.entryNew (c : Chip) (rs : List Reg) (i v : Nat) : List Nat :=
  v :: rs.tail.map fun r => c.staged r [i]

def Chip.setEntry (c : Chip) (rs : List Reg) (i : Nat) (ws : List Nat) : Chip :=
  (rs.zip ws).foldl (fun c e => c.setReg e.1 12 [i] e.2) c

def Chip.dropEntryStage (c : Chip) (rs : List Reg) (i : Nat) : Chip :=
  c.dropStage (rs.map fun r => r.addr 12 [i])

/-- Bytes of an entry's words. -/
def wordBytes (ws : List Nat) : Bytes := ws.flatMap (natLE 4)

/-! ### Decoded windows -/

structure Win where
  query : Bool := false
  idx : Nat := 0
  valid : Bool := false
  part : Nat := 0
  sets : Nat := 0
  setBytes : Nat := 0
  base : Nat := 0
  dieMask : Nat := 0
  routed : Bool := false
  rrOff : Nat := 0
  desc : Nat := 0
  whisk : Nat := 0
  modIdx : Nat := 0
  bindBase : Nat := 0
  bindCount : Nat := 0
  stride : Nat := 0
  /-- Index served by a query window. -/
  index : Nat := 0
  deriving DecidableEq, Repr, Inhabited

/-- R79. -/
def winOf (i : Nat) (b : Bytes) : Win :=
  { idx := i, valid := bit (fieldB b 0 1) 0, routed := bit (fieldB b 0 1) 1, part := fieldB b 1 1 % 64,
    sets := fieldB b 2 1, dieMask := fieldB b 3 1, setBytes := fieldB b 4 2, rrOff := fieldB b 6 2,
    base := fieldB b 8 8 % 2 ^ 52, desc := fieldB b 0x10 2, whisk := fieldB b 0x12 1,
    modIdx := fieldB b 0x13 1, bindBase := fieldB b 0x14 4, bindCount := fieldB b 0x18 2,
    stride := fieldB b 0x1A 2 }

/-- R250. A query slot has one copy, at die 12. -/
def qwinOf (i : Nat) (b : Bytes) : Win :=
  { query := true, idx := i, valid := bit (fieldB b 0 1) 0, part := fieldB b 1 1 % 64,
    sets := fieldB b 2 1, index := fieldB b 3 1, setBytes := fieldB b 4 2,
    base := fieldB b 8 8 % 2 ^ 52 }

def Chip.win (c : Chip) (i : Nat) : Win := winOf i (wordBytes (c.entryW winRegs i))
def Chip.qwin (c : Chip) (i : Nat) : Win := qwinOf i (wordBytes (c.entryW qwinRegs i))

def Win.size (w : Win) : Nat := w.sets * w.setBytes

/-- Valid windows of a partition, trigger windows first. -/
def Chip.windows (c : Chip) (part : Nat) : List Win :=
  (((c.idxs .dspWindowW0 12 fun w => bit w 0).map c.win) ++
   ((c.idxs .sftQwinW0 12 fun w => bit w 0).map c.qwin)).filter fun w => w.part == part

/-- Window that holds a byte of the partition's offset space. -/
def Chip.windowAt (c : Chip) (part off : Nat) : Option Win :=
  (c.windows part).find? fun w => decide (w.base ≤ off) && decide (off < w.base + w.size)

def rangesMeet (a alen b blen : Nat) : Bool := decide (a < b + blen) && decide (b < a + alen)

/-- No region of the partition meets the range, and no window but the one named. -/
def Chip.rangeFree (c : Chip) (part base len : Nat) (but : Option (Bool × Nat)) : Bool :=
  (c.sec.regions.all fun e => !(e.2.valid && e.2.part == part && rangesMeet base len e.2.base e.2.len)) &&
  (c.windows part).all fun w => some (w.query, w.idx) == but || !rangesMeet base len w.base w.size

/-! ### Scoreboard slots -/

/-- Dies that keep a copy of the window's sets. -/
def Win.dies (w : Win) : List Nat :=
  if w.query then [12] else (List.range 8).filter fun d => bit w.dieMask d

def slotKey (win slot die : Nat) : Nat := (win * 64 + slot) * 16 + die
def Win.key (w : Win) (slot die : Nat) : Nat := slotKey w.idx slot die

def Chip.slot (c : Chip) (key : Nat) : SetCopy := kgetD c.dsp.sets key {}

def Chip.setSlot (c : Chip) (key : Nat) (v : SetCopy) : Chip :=
  { c with dsp := { c.dsp with sets := ksetD c.dsp.sets key {} v } }

/-- Global addresses of the trigger stores that an admitted request makes at this module. -/
def Pend.triggers (p : Pend) : List Nat :=
  if p.req.opc = 9 then [p.req.addr]
  else (p.group.filter fun t => t.2.2.2 == 1).map fun t => (t.1 + offOf p.req.addr) % 2 ^ 64

/-- An admitted store to the window waits for its partition's share (R350), or still arrives (R353). -/
def Chip.storeWaits (c : Chip) (w : Win) : Bool :=
  (c.gtx.shareWait.map (·.pend) ++ c.gtx.tstores.map (·.pend)).any fun x => x.triggers.any fun a =>
    c.node (nodeOf a) == .here w.part && decide (w.base ≤ offOf a) && decide (offOf a < w.base + w.size)

/-- The window has an OPEN or CLOSED slot, or an admitted store not yet marked or discarded (R80). -/
def Chip.winBusy (c : Chip) (w : Win) : Bool :=
  (c.dsp.sets.any fun e => (e.1 % 16 == 12) == w.query && e.1 / 1024 == w.idx && e.2.phase != 0) ||
  (c.gtx.held.any fun h => h.query == w.query && h.win == w.idx) || (w.valid && c.storeWaits w)

/-- Fields of an entry obey R79 or R250, and its range obeys R80. -/
def Chip.winLegal (c : Chip) (w : Win) (rawBase : Nat) : Bool :=
  decide (1 ≤ w.sets) && decide (w.sets ≤ 64) && decide (w.setBytes % 64 = 0) &&
  decide (rawBase % 4096 = 0) && decide (w.base + w.size ≤ 2 ^ 52) &&
  (if w.query then
    let dim := c.fld .sftIndexW0 12 [w.index] 31 16
    decide (192 ≤ w.setBytes) && decide (w.setBytes ≤ 16512) && decide (128 + 4 * dim ≤ w.setBytes)
   else
    decide (64 ≤ w.setBytes) && decide (w.setBytes ≤ 16384) &&
    (if w.routed then
      decide (w.rrOff % 64 = 0) && decide (w.rrOff + 64 ≤ w.setBytes) && decide (w.whisk < 64) &&
      decide (1 ≤ w.bindCount) && decide (w.bindCount ≤ 4096) && decide (w.bindBase + w.bindCount ≤ 262144)
     else decide (w.desc < 16384))) &&
  c.rangeFree w.part w.base w.size (some (w.query, w.idx))

/-- A window entry's words with the field that its MODE reserves reading zero: RR_OFFSET of a FIXED window, DESC of a
ROUTED one (R12, R79). -/
def maskReserved (ws : List Nat) : List Nat :=
  if bit (ws.headD 0) 1 then ws.set 4 (putBits (ws.getD 4 0) 15 0 0) else ws.set 1 (putBits (ws.getD 1 0) 31 16 0)

/-- WINDOW_ENTRY_WRITE: the first word of an entry is written (R80, R250, R598). That an entry with VALID 0 takes
effect whatever its other fields are is the model's choice (notes/assumptions/117.md). -/
def Chip.winWrite (c : Chip) (query : Bool) (i v : Nat) : Chip :=
  let rs := if query then qwinRegs else winRegs
  let ws := if query then c.entryNew rs i v else maskReserved (c.entryNew rs i v)
  let b := wordBytes ws
  let w := if query then qwinOf i b else winOf i b
  let old := if query then c.qwin i else c.win i
  if c.winBusy old || (w.valid && !c.winLegal w (fieldB b 8 8 % 2 ^ 52)) then
    c.ignored ((rs.headD .dspWindowW0).addr 12 [i])
  else (c.setEntry rs i ws).dropEntryStage rs i

/-! ### Regions and what the device issues for a partition (R18, R435) -/

/-- Slot of the region that a handle names (R432). -/
def Chip.regionOf (c : Chip) (h : Nat) : Option Nat :=
  let s := h % 4096
  let r := c.region s
  if r.valid ∧ r.gen = h / 4096 then some s else none

/-- Handles and epochs of a partition's regions, as an operation takes them when it begins. -/
def Chip.epochsOf (c : Chip) (part : Nat) : List (Nat × Nat) :=
  (c.sec.regions.filter fun e => e.2.valid && e.2.part == part).map fun e =>
    (e.2.gen * 4096 + e.1, e.2.epoch)

/-- A write that the device makes for a partition: a bulk store, or a trigger store when it falls
in a window of that partition (R147). A write to a LOCAL node names the region over it and the
epoch that region had when the operation began (R435). -/
def Chip.devWrite (c : Chip) (part : Nat) (eps : List (Nat × Nat)) (opc addr : Nat) (b : Bytes) : Req :=
  let off := offOf addr
  match c.node (nodeOf addr) with
  | .here p =>
    if opc = 8 ∧ p = part ∧ (c.windowAt part off).isSome then
      let e := eps.headD (0, 0)
      { opc := 9, addr := addr, payload := b, handle := e.1, epoch := e.2 }
    else
      let e := (eps.find? fun e => match c.regionOf e.1 with
        | some s => decide ((c.region s).base ≤ off) && decide (off < (c.region s).base + (c.region s).len)
        | none => false).getD (0, 0)
      { opc := opc, addr := addr, payload := b, handle := e.1, epoch := e.2 }
  | _ => { opc := opc, addr := addr, payload := b }

/-- Pieces of a write that stay within one 4 KiB block each. -/
def pieces (addr : Nat) : Nat → Bytes → List (Nat × Bytes)
  | 0, _ => []
  | fuel + 1, b =>
    if b = [] then []
    else
      let n := 4096 - addr % 4096
      (addr, b.take n) :: pieces (addr + n) fuel (b.drop n)

def splitWrite (addr : Nat) (b : Bytes) : List (Nat × Bytes) := pieces addr (b.length / 4096 + 2) b

end Sys2Proof.Machine
end

