-- ==== Sys2Proof/Machine/Engines.lean ====
section
/-! DEFINITION. Whisk, tongs and colander (chapter 4): operation blocks, contributions, results,
completion flags, abandonment and failure. Kinds: 0 whisk, 1 tongs, 2 colander. -/

namespace Sys2Proof.Machine

/-! ### Registers of a kind -/

def engCtrlReg (kind : Nat) : Reg := match kind with
  | 0 => .wskCtrl
  | 1 => .tngCtrl
  | _ => .cldCtrl
def engGlbReg (kind : Nat) : Reg := match kind with
  | 0 => .wskGlb
  | 1 => .tngGlb
  | _ => .cldGlb
def engCapReg (kind : Nat) : Reg := match kind with
  | 0 => .wskFailCapture
  | 1 => .tngFailCapture
  | _ => .cldFailCapture
def engCfgReg (kind : Nat) : Reg := match kind with
  | 0 => .wskEngCfg
  | 1 => .tngEngCfg
  | _ => .cldEngCfg

def cntDone (kind : Nat) : Cnt := match kind with
  | 0 => .wskOpsDone
  | 1 => .tngOpsDone
  | _ => .cldOpsDone
def cntDiscarded (kind : Nat) : Cnt := match kind with
  | 0 => .wskDiscarded
  | 1 => .tngDiscarded
  | _ => .cldDiscarded
def cntAbandoned (kind : Nat) : Cnt := match kind with
  | 0 => .wskAbandoned
  | 1 => .tngAbandoned
  | _ => .cldAbandoned
def cntEngFailed (kind : Nat) : Cnt := match kind with
  | 0 => .wskFailed
  | 1 => .tngFailed
  | _ => .cldFailed
def cntBadOp (kind : Nat) : Cnt := match kind with
  | 0 => .wskBadOp
  | 1 => .tngBadOp
  | _ => .cldBadOp
def cntStageWait (kind : Nat) : Cnt := match kind with
  | 0 => .wskStageWait
  | 1 => .tngStageWait
  | _ => .cldStageWait
def cntItems (kind : Nat) : Cnt := match kind with
  | 0 => .wskItems
  | 1 => .tngItems
  | _ => .cldItems

def Chip.engBump (c : Chip) (k : Cnt) (e : Nat) (n : Nat := 1) : Chip := c.bump k (engDie e) [engLocal e] n
def Chip.engCfg (c : Chip) (kind e : Nat) : Nat := c.reg (engCfgReg kind) (engDie e) [engLocal e]
/-- The engine belongs to the partition (R129). -/
def Chip.engOwned (c : Chip) (kind e part : Nat) : Bool :=
  bit (c.engCfg kind e) 31 && decide (bits (c.engCfg kind e) 29 24 = part)

/-- Open operations an engine may hold (R130). -/
def engDepth (kind : Nat) : Nat := if kind = 0 then 64 else 16

/-! ### The operation table -/

def Chip.op? (c : Chip) (id : Nat) : Option EngOp := c.eng.ops.find? fun o => o.id == id

def Chip.setOp (c : Chip) (o : EngOp) : Chip :=
  { c with eng := { c.eng with ops := modFirst (fun x => x.id == o.id) (fun _ => o) c.eng.ops } }

def Chip.addOp (c : Chip) (o : EngOp) : Chip :=
  { c with eng := { c.eng with ops := c.eng.ops ++ [{ o with id := c.eng.nextId }], nextId := c.eng.nextId + 1 } }

/-- The operation is open or waits for its staging (R135: open from the first segment on). -/
def EngOp.isOpen (o : EngOp) : Bool := o.phase != 4 && o.phase != 5

/-- Open operations of an engine. -/
def Chip.openOps (c : Chip) (kind e : Nat) : List EngOp :=
  c.eng.ops.filter fun o => o.kind == kind && o.engine == e && o.isOpen

/-- The engine takes a new operation now (R130, R155, R156). -/
def Chip.engAccepts (c : Chip) (kind e : Nat) : Bool :=
  bit (c.reg (engCtrlReg kind) (engDie e)) 0 &&
  decide ((c.openOps kind e).length < engDepth kind) &&
  c.ctl.held.all fun h => h.1 != (engCfgReg kind).addr (engDie e) [engLocal e]

/-- Bytes of one declared contribution. -/
def contribBytes (kind : Nat) (b : OpBlk) : Nat :=
  match kind with
  | 0 => b.count * (elemBits (b.fmt % 8) / 8)
  | 1 => b.count * 4
  | _ => b.count * b.size

/-- Staging cells of the declared contributions that the accumulator does not yet hold, and of the
accumulator (R135, R141). -/
def EngOp.stageCells (o : EngOp) : Nat :=
  let n := (o.declared.length - o.added.length) * contribBytes o.kind o.blk
  cdiv (n + if o.kind = 0 ∧ bit o.blk.flags 0 = false then o.blk.count * 4 else 0) 256

/-- An opening takes the staging of the whole operation, or waits for it (R135). -/
def Chip.engStage (c : Chip) (o : EngOp) : Chip × EngOp :=
  if c.shareFits (engDie o.engine) o.part o.stageCells then
    let r := c.allocCells (engDie o.engine) o.stageCells (64 + o.part)
    (r.1, { o with phase := 1, cells := r.2 })
  else (c.engBump (cntStageWait o.kind) o.engine, { o with phase := 0 })

/-! ### Ends without a flag (R134, R137, R146, R153, R159) -/

/-- FAIL_CAPTURE of the die. -/
def Chip.engCapture (c : Chip) (kind e part cause status : Nat) : Chip :=
  c.capture (engCapReg kind) (engDie e) [] (status * 2 ^ 20 + cause * 2 ^ 16 + part * 256 + engLocal e) []

def Chip.engEvent (c : Chip) (kind e ev : Nat) (parts : List Nat) (tag : Nat) : Chip :=
  c.raise ev parts (c.reg (engCapReg kind) (engDie e)) tag

/-- Owner of an engine, if it has one (R129). -/
def Chip.engOwner (c : Chip) (kind e : Nat) : List Nat :=
  if bit (c.engCfg kind e) 31 then [bits (c.engCfg kind e) 29 24] else []

/-- A refusal: counted as refused and abandoned, and raised to the engine's owner; the capture of an engine
without one names the run's partition (R134, R159). -/
def Chip.engRefuse (c : Chip) (kind e part tag : Nat) : Chip :=
  let own := c.engOwner kind e
  let c := ((c.engCapture kind e (own.headD part) 1 0).engBump (cntBadOp kind) e).engBump (cntAbandoned kind) e
  (c.engEvent kind e (Ev.badOp kind) own tag).engEvent kind e (Ev.opAbandoned kind) own tag

/-! ### Flags and openings that wait (R143, R152, R155) -/

/-- The completion flag (R152). -/
def flagWord (engine : Nat) (ovf : Bool) (count tag : Nat) : Nat :=
  2 ^ 63 + engine * 2 ^ 58 + b2n ovf * 2 ^ 56 + count % 2 ^ 24 * 2 ^ 32 + tag % 2 ^ 32

/-- Write the flag: one 8-byte line-class write. -/
def Chip.engFlag (c : Chip) (o : EngOp) : Chip :=
  let w := flagWord o.kind o.overflow o.flagCount o.blk.stepTag
  (c.setOp { o with phase := 3, writes := [], outstanding := 1 }).issue o.part (.engFlag o.id)
    (c.devWrite o.part o.epochs 4 o.blk.flagAddr (natLE 8 w))

def Chip.delOp (c : Chip) (o : EngOp) : Chip :=
  { c with eng := { c.eng with ops := delFirst (fun x => x.id == o.id) c.eng.ops } }

/-- An opening without a segment, of an empty combine (R143) or of a step that no die launches (R82), takes
effect once its engine accepts operations. -/
def Chip.engWakeOne (c : Chip) (o : EngOp) : Chip :=
  if !c.engAccepts o.kind o.engine then c
  else if !c.engOwned o.kind o.engine o.part then (c.delOp o).engRefuse o.kind o.engine o.part o.blk.stepTag
  else
    let o := { o with openTick := c.tick, epochs := c.epochsOf o.part }
    if o.declared = [] then c.engFlag o
    else
      let r := c.engStage o
      r.1.setOp r.2

def Chip.engWake (c : Chip) : Chip :=
  (c.eng.ops.filter fun o => o.phase == 5).foldl (fun c o => c.engWakeOne o) c

/-- Held writes whose engine, or whose die's engines of the kind, are idle take effect, and openings that
waited for them go on (R155, R156). -/
def Chip.engRelease (c : Chip) : Chip :=
  let ready (h : Nat × Word) : Bool := [0, 1, 2].any fun k => [8, 9, 10, 11].any fun d =>
    (h.1 == (engCtrlReg k).addr d && (c.eng.ops.all fun o => o.kind != k || engDie o.engine != d || !o.isOpen)) ||
    (List.range 16).any fun l => h.1 == (engCfgReg k).addr d [l] && (c.openOps k ((d - 8) * 16 + l)).isEmpty
  let go := c.ctl.held.filter ready
  let rest := c.ctl.held.filter (fun h => !ready h)
  (go.foldl (fun (c : Chip) (h : Nat × Word) => match regAt h.1 with
    | some (r, die, []) => c.setFld r die [] 0 0 (h.2.toNat % 2)
    | some (r, die, i) => c.setReg r die i h.2.toNat
    | none => c) { c with ctl := { c.ctl with held := rest } }).engWake

/-- Remove an operation: its staging is freed. -/
def Chip.endOp (c : Chip) (o : EngOp) : Chip :=
  ((c.delOp o).releaseCells o.cells).engRelease

/-- Abandon an operation (R137): cause 1 refused, 2 launch given up, 3 OP_TMO. -/
def Chip.abandon (c : Chip) (o : EngOp) (cause : Nat) : Chip :=
  -- a refusal goes to the owner under which the operation was open, before a held write names another (R155)
  if cause = 1 then (c.engRefuse o.kind o.engine o.part o.blk.stepTag).endOp o
  else
    let c := c.endOp o
    let c := (c.engCapture o.kind o.engine o.part cause 0).engBump (cntAbandoned o.kind) o.engine
    let c := c.engEvent o.kind o.engine (Ev.opAbandoned o.kind) [o.part] o.blk.stepTag
    if cause = 3 then c.engEvent o.kind o.engine (Ev.opTimeout o.kind) [o.part] o.blk.stepTag else c

/-- An operation ends by a failed read (5) or write (4). -/
def Chip.engFail (c : Chip) (o : EngOp) (cause status : Nat) : Chip :=
  let c := ((c.endOp o).engCapture o.kind o.engine o.part cause status).engBump (cntEngFailed o.kind) o.engine
  c.engEvent o.kind o.engine (Ev.opFail o.kind) [o.part] o.blk.stepTag

/-- A launch is given up: every operation it feeds is abandoned (R137). -/
def Chip.engGiveUp (c : Chip) (launch : Nat) : Chip :=
  (c.eng.ops.filter fun o => o.phase != 2 && o.phase != 3 && o.contribs.any fun k => k.launch == launch).foldl
    (fun c o => c.abandon o 2) c

/-- A run was aborted or failed: its uncommitted segments are freed (R136). -/
def Chip.engDiscard (c : Chip) (launch : Nat) : Chip :=
  c.eng.ops.foldl (fun c o =>
    let n := ((o.contribs.filter fun k => k.launch == launch && !k.committed).map (·.segs)).sum
    if n = 0 then c
    else
      let ks := o.contribs.map (fun k =>
        if k.launch == launch && !k.committed then { k with data := [], segs := 0 } else k)
      (c.setOp { o with contribs := ks }).engBump (cntDiscarded o.kind) o.engine n) c

/-! ### Operation blocks (R132, R134) -/

/-- The block as an engine of a kind takes it: reserved bits and the fields of other kinds of engine are
ignored (R12, R132). -/
def parseBlk (kind : Nat) (b : Bytes) : OpBlk :=
  let only (ks : List Nat) (v : Nat) : Nat := if ks.contains kind then v else 0
  { ver := fieldB b 0 1, op := fieldB b 1 1, flags := only [0] (fieldB b 2 1 % 2) + fieldB b 2 1 / 2 % 2 * 2,
    fmt := only [0, 2] (fieldB b 3 1 % 8) + only [0] (fieldB b 3 1 / 16 % 8) * 16,
    src := fieldB b 4 1, sources := fieldB b 5 1, combineId := fieldB b 6 2, gate := only [0] (fieldB b 8 4),
    stepTag := fieldB b 0xC 4, dst := fieldB b 0x10 8, flagAddr := fieldB b 0x18 8,
    count := fieldB b 0x20 4, size := only [1, 2] (fieldB b 0x24 4), handle := only [1] (fieldB b 0x28 2),
    aux := only [2] (fieldB b 0x2A 2 % 64 + fieldB b 0x2A 2 / 256 % 16 * 256),
    limit := only [1, 2] (fieldB b 0x2C 4), tableOff := only [1] (fieldB b 0x30 8),
    constA := only [2] (fieldB b 0x38 4), constB := only [2] (fieldB b 0x3C 4) }

def OpBlk.ordered (b : OpBlk) : Bool := bit b.flags 0
def OpBlk.sat (b : OpBlk) : Bool := bit b.flags 1
def OpBlk.inFmt (b : OpBlk) : Nat := b.fmt % 8
def OpBlk.outFmt (b : OpBlk) : Nat := b.fmt / 16 % 8
/-- Byte offset of a record's key. -/
def OpBlk.keyOff (b : OpBlk) : Nat := b.aux % 64 * 4
def OpBlk.cmp (b : OpBlk) : Nat := b.aux / 256 % 16

/-- The fields of the block obey R132. -/
def blkOk (kind : Nat) (b : OpBlk) : Bool :=
  decide (b.ver = 1) && decide (b.src ≤ 63) && decide (1 ≤ b.sources) && decide (b.sources ≤ 64) &&
  decide (b.dst % 128 = 0) && decide (b.flagAddr % 8 = 0) &&
  match kind with
  | 0 => decide (b.op ≤ 3) && decide (b.inFmt ≤ 2) && decide (b.outFmt ≤ 2)
  | 1 => decide (b.op = 0) && decide (b.sources = 1) && decide (1 ≤ b.count) && decide (b.count ≤ 4096) &&
      decide (64 ≤ b.size) && decide (b.size ≤ 65536) && decide (b.size % 64 = 0)
  | _ => decide (b.op ≤ 4) && decide (b.inFmt ≤ 2) && decide (8 ≤ b.size) && decide (b.size ≤ 256) &&
      decide (b.size % 8 = 0) && decide (b.cmp ≤ 7) && decide (b.keyOff + 4 ≤ b.size) && decide (1 ≤ b.limit) &&
      (if 3 ≤ b.op then decide (b.limit ≤ 1024) else decide (b.limit < 2 ^ 24))

/-- A later block agrees with the operation's first one (R134). -/
def blkSame (kind : Nat) (a b : OpBlk) : Bool :=
  decide ({ a with src := 0, gate := 0, count := if kind = 2 then 0 else a.count } =
          { b with src := 0, gate := 0, count := if kind = 2 then 0 else b.count })

/-! ### Results -/

/-- `n` bytes of a contribution; what it does not hold is open. -/
def Chip.padOpen (c : Chip) (b : Bytes) (n : Nat) : Bytes × Chip :=
  if n ≤ b.length then (b.take n, c)
  else
    let d := c.draw
    (b ++ bytesOf (n - b.length) d.1, d.2)

/-- FP32 terms of a committed whisk contribution. -/
def terms (blk : OpBlk) (gate : Nat) (b : Bytes) : List Nat :=
  (elems (elemBits blk.inFmt / 8) b).map fun w => redTerm blk.op gate (toF32 blk.inFmt w)

/-- Order key of a colander record; none for NaN (R149, R151). -/
def cldKey (ty w : Nat) : Option Int :=
  match ty with
  | 0 => if isNan32 w then none else some (if bit w 31 then -((w % 2 ^ 31 : Nat) : Int) else (w % 2 ^ 31 : Nat))
  | 1 => some (sInt 32 w)
  | _ => some (w : Int)

/-- Compare codes of R149. -/
def cldTest (code : Nat) (k a b : Option Int) : Bool :=
  let lt (x y : Option Int) : Bool := match x, y with
    | some x, some y => decide (x < y)
    | _, _ => false
  let eq (x y : Option Int) : Bool := match x, y with
    | some x, some y => decide (x = y)
    | _, _ => false
  let le (x y : Option Int) : Bool := lt x y || eq x y
  match code with
  | 0 => lt k a
  | 1 => le k a
  | 2 => eq k a
  | 3 => !eq k a
  | 4 => le a k
  | 5 => lt a k
  | 6 => le a k && le k b
  | _ => !(le a k && le k b)

/-- Rank of a key: numbers by order, NaN last (R151). -/
def rankBefore (hi : Bool) (x y : Option Int) : Bool :=
  match x, y with
  | some x, some y => if hi then decide (y < x) else decide (x < y)
  | some _, none => true
  | _, _ => false

/-- Insert a record keeping rank order, after its equals. -/
def insRank (hi : Bool) (r : Option Int × Bytes) : List (Option Int × Bytes) → List (Option Int × Bytes)
  | [] => [r]
  | x :: t => if rankBefore hi r.1 x.1 then r :: x :: t else x :: insRank hi r t

/-- Records a colander operation writes, and whether records were dropped (R150, R151). -/
def cldRun (b : OpBlk) (recs : List Bytes) : List Bytes × Bool :=
  let key (r : Bytes) : Nat := fieldB r b.keyOff 4
  let k (w : Nat) := cldKey b.inFmt w
  let hit (r : Bytes) : Bool := cldTest b.cmp (k (key r)) (k b.constA) (k b.constB)
  match b.op with
  | 0 => let l := recs.filter hit; (l.take b.limit, decide (b.limit < l.length))
  | 1 => let l := recs.filter (fun r => key r &&& b.constA == b.constB); (l.take b.limit, decide (b.limit < l.length))
  | 2 => (recs.map fun r => if hit r then patchB r b.keyOff (natLE 4 b.constB) else r, false)
  | _ =>
    let s := recs.foldl (fun acc r => insRank (b.op == 3) (k (key r), r) acc) []
    ((s.take b.limit).map (·.2), false)

/-- Issue the next result write, or the flag after the last OK (R153). -/
def Chip.engNext (c : Chip) (o : EngOp) : Chip :=
  match o.writes with
  | [] => c.engFlag o
  | w :: t =>
    (c.setOp { o with phase := 2, writes := t, outstanding := 1 }).issue o.part (.engWrite o.id)
      (c.devWrite o.part o.epochs 8 w.1 w.2)

/-! ### Tongs rows (R145, R146) -/

/-- Request that reads row `n` of the table through the home agent. -/
def rowRead (o : EngOp) (base : Nat) (node n : Nat) : Req :=
  { opc := opcDevRead, addr := node * 2 ^ 52 + base + o.blk.tableOff + n * o.blk.size, opnd := o.blk.size,
    handle := o.blk.handle, epoch := ((o.epochs.find? fun e => e.1 == o.blk.handle).map (·.2)).getD 0 }

/-- Next row: a zero row is written, another row is read first. -/
def Chip.tngNext (c : Chip) (o : EngOp) : Chip :=
  match o.rows with
  | [] => c.engFlag { o with flagCount := o.blk.count }
  | (i, n) :: _ =>
    let node := (c.localNode o.part).getD 0
    if n = 0xFFFFFFFF then
      c.engNext { o with writes := splitWrite (o.blk.dst + i * o.blk.size) (zerosB o.blk.size) }
    else
      match c.regionOf o.blk.handle with
      | none => c.engFail o 5 2
      | some s =>
        (c.setOp { o with phase := 2, outstanding := 1 }).issue o.part (.engRead o.id i)
          (rowRead o (c.region s).base node n)

/-- Every index lies below LIMIT and its row within the owner's region (R145). -/
def Chip.rowsOk (c : Chip) (o : EngOp) (idx : List Nat) : Bool :=
  match c.regionOf o.blk.handle with
  | none => false
  | some s =>
    let r := c.region s
    r.part == o.part && idx.all fun n => n == 0xFFFFFFFF ||
      (decide (n < o.blk.limit) && decide (o.blk.tableOff + (n + 1) * o.blk.size ≤ r.len))

/-! ### Commit and start -/

/-- Committed contributions by ascending source. -/
def insSrc (k : Contrib) : List Contrib → List Contrib
  | [] => [k]
  | x :: t => if k.src < x.src then k :: x :: t else x :: insSrc k t

def EngOp.bySource (o : EngOp) : List Contrib := o.contribs.foldl (fun l k => insSrc k l) []

/-- Combine two term lists element by element. -/
def combineTerms (op : Nat) (a b : List Nat) : List Nat := (a.zip b).map fun p => redCombine op p.1 p.2

/-- Every declared source has committed: compute the result and start writing it. -/
def Chip.engStart (c : Chip) (o : EngOp) : Chip :=
  match o.kind with
  | 0 =>
    let all := o.bySource.map fun k => terms o.blk k.gate k.data
    let acc := if o.blk.ordered then (match all with
        | [] => []
        | t :: ts => ts.foldl (combineTerms o.blk.op) t) else o.acc
    let n := elemBits o.blk.outFmt / 8
    let b := acc.flatMap fun w => natLE n (cvtFp o.blk.outFmt o.blk.sat w)
    let srcs := o.declared.length
    (if o.blk.ordered then c.engBump .wskItems o.engine (o.blk.count * srcs) else c).engNext
      { o with writes := splitWrite o.blk.dst b, flagCount := srcs }
  | 1 =>
    let idx := elems 4 ((o.contribs.headD {}).data)
    if c.rowsOk o idx then c.tngNext { o with rows := idx.zipIdx.map fun p => (p.2, p.1) }
    else c.abandon o 1
  | _ =>
    let recs := o.bySource.flatMap fun k => (chunksOf o.blk.size k.count k.data).take k.count
    let r := cldRun o.blk recs
    (c.engBump .cldItems o.engine recs.length).engNext
      { o with writes := splitWrite o.blk.dst r.1.flatten, flagCount := r.1.length, overflow := r.2 }

/-- An open operation with every declared source committed starts (R131, R141, R148). -/
def Chip.engTry (c : Chip) (o : EngOp) : Chip :=
  if o.phase = 1 ∧ o.contribs.length = o.declared.length ∧ o.contribs.all (·.committed) then c.engStart o
  else c.setOp o

/-- Arrival mode: a committed contribution of an open operation is added to the accumulator and counted, and
its staging is freed (R141, R162). -/
def Chip.engAdd (c : Chip) (o : EngOp) (k : Contrib) : Chip × EngOp :=
  let t := terms o.blk k.gate k.data
  let o' := { o with
    acc := if o.added = [] then t else combineTerms o.blk.op o.acc t
    added := o.added ++ [k.src]
    contribs := o.contribs.map (fun (x : Contrib) => if x.src == k.src then { x with data := [] } else x) }
  ((c.engBump .wskItems o.engine o.blk.count).releaseCells (o.cells.drop o'.stageCells),
   { o' with cells := o.cells.take o'.stageCells })

/-- An open arrival-mode whisk operation adds what has committed, in commit order. -/
def Chip.engAbsorb (c : Chip) (o : EngOp) : Chip × EngOp :=
  if o.kind = 0 ∧ o.blk.ordered = false ∧ o.phase = 1 then
    ((o.order.filterMap fun s => o.contribs.find? fun k => k.src == s && !o.added.contains s)).foldl
      (fun r k => r.1.engAdd r.2 k) (c, o)
  else (c, o)

/-- A contribution commits (R131). One of an operation that still waits for staging stays in the input queue. -/
def Chip.engCommit (c : Chip) (o : EngOp) (launch : Nat) : Chip :=
  match o.contribs.find? fun k => k.launch == launch && !k.committed with
  | none => c.setOp o
  | some k =>
    let p := c.padOpen k.data (contribBytes o.kind { o.blk with count := k.count })
    let done := { k with data := p.1, committed := true }
    let r := p.2.engAbsorb { o with contribs := o.contribs.map (fun x => if x.launch == launch then done else x),
                                    order := o.order ++ [k.src] }
    r.1.engTry r.2

/-- Staging for an operation that waits for it, and what committed while it waited (R135). -/
def Chip.engReserve (c : Chip) (o : EngOp) : Option Chip :=
  if c.shareFits (engDie o.engine) o.part o.stageCells then
    let s := c.engStage o
    let r := s.1.engAbsorb s.2
    some (r.1.engTry r.2)
  else none

/-- STAGING_GRANTED: the oldest waiting opening of the engine. -/
def Chip.stagingGranted (c : Chip) (kind e : Nat) : Chip :=
  match c.eng.ops.find? fun o => o.kind == kind && o.engine == e && o.phase == 0 with
  | none => c
  | some o => (c.engReserve o).getD c

/-- OP_TIMEOUT (R137). -/
def Chip.opTimeout (c : Chip) (id : Nat) : Chip :=
  match c.op? id with
  | none => c
  | some o =>
    let tmo := max 1 (c.fld (engGlbReg o.kind) (engDie o.engine) [] 15 0)
    if (o.phase = 0 ∨ o.phase = 1) ∧ c.due o.openTick tmo then c.abandon o 3 else c

/-! ### Answers to what an engine issued -/

/-- Answer to a row read: the row is written, or the operation fails (R146). -/
def Chip.engReadAns (c : Chip) (id i : Nat) (a : Ans) : Chip :=
  match c.op? id with
  | none => c
  | some o =>
    if a.status = some 0 then
      c.engNext { o with writes := splitWrite (o.blk.dst + i * o.blk.size) a.data }
    else c.engFail o 5 (a.status.getD 0)

/-- Answer to a result write: the next write, the next row or the flag (R153). -/
def Chip.engWriteAns (c : Chip) (id : Nat) (a : Ans) : Chip :=
  match c.op? id with
  | none => c
  | some o =>
    if a.status = some 0 then
      if o.kind = 1 ∧ o.writes = [] then
        (c.engBump .tngItems o.engine).tngNext { o with rows := o.rows.tail }
      else c.engNext o
    else c.engFail o 4 (a.status.getD 0)

/-- Answer to the flag write: the operation is done. -/
def Chip.engFlagAns (c : Chip) (id : Nat) (a : Ans) : Chip :=
  match c.op? id with
  | none => c
  | some o =>
    if a.status = some 0 then (c.endOp o).engBump (cntDone o.kind) o.engine
    else c.engFail o 4 (a.status.getD 0)

/-! ### Segments (R131, R133-R135) -/

/-- Engine of a launch: a window's whisk for a ROUTED run, the descriptor's OUT_ENGINE otherwise. -/
def launchEngine (l : Launch) (w : Win) : Nat × Nat :=
  if l.routed then (0, w.whisk)
  else
    let oe := (l.desc.getD 7 0).toNat
    (bits oe 15 14, bits oe 5 0)

/-- Open an operation at its first segment: reserve its staging or wait for it (R135). That an opening whose
staging fits passes an older one of its engine that still waits is the model's choice (notes/assumptions/136.md). -/
def Chip.engOpen (c : Chip) (o : EngOp) : Chip :=
  let r := c.engStage o
  r.1.setOp r.2

/-- Segments that wait in an engine's input queue behind an opening (R130, R135). -/
def Chip.engQueued (c : Chip) (kind e : Nat) : Nat :=
  ((c.eng.ops.filter fun o => o.kind == kind && o.engine == e && o.phase == 0).map fun o =>
    (o.contribs.map (·.segs)).sum).sum

/-- Store a segment's bytes in its contribution. -/
def putSeg (o : EngOp) (launch : Nat) (b : Bytes) : EngOp :=
  { o with contribs := o.contribs.map (fun k =>
      if k.launch == launch && !k.committed then { k with data := k.data ++ b, segs := k.segs + 1 } else k) }

/-- An operation that a ROUTED set describes to its whisk (R133). -/
def routedOp (l : Launch) (w : Win) (cfg : Nat) (declared : List Nat) (dst : Nat) (fmt count : Nat)
    (eps : List (Nat × Nat)) : EngOp :=
  let rf := bits cfg 2 0
  { kind := 0, engine := w.whisk, part := w.part, routed := true, declared := declared, win := w.idx, phase := 4,
    epochs := eps,
    blk := { op := 3, flags := b2n (bit cfg 4) + 2 * b2n (bit cfg 3),
             fmt := fmt + 16 * (if 3 ≤ rf then 1 else rf), stepTag := l.stepTag, dst := dst,
             flagAddr := dst + w.stride * 128 - 8, count := count, sources := declared.length } }

/-- Result of offering a segment: refused by a full or closed engine, or taken; `op` 0 means that
the run's output is dropped from now on. -/
structure SegTaken where
  chip : Chip
  op : Nat

/-- The engine's input queue takes no segment of an opening that waits (R19, R130). -/
def Chip.queueFull (c : Chip) (kind e : Nat) : Bool := decide (256 ≤ c.engQueued kind e)

/-- First segment of a run with an operation block: join or open its operation (R134, R135). The spec leaves open,
and the model settles (notes/assumptions/136.md), that the sources which SOURCES declares are 0 to SOURCES - 1, also
for the first contribution; that a COMBINE_ID whose operation already writes its result names a new operation; and
that the entry in force refuses a run of another partition while a write of it is held (R155). -/
def Chip.firstSeg (c : Chip) (l : Launch) (kind e : Nat) (b : Bytes) : Option SegTaken :=
  let blk := parseBlk kind b
  let refuse (c : Chip) : Option SegTaken := some { chip := c, op := 0 }
  if kind = 3 ∨ !c.engOwned kind e l.part ∨ b.length < 64 ∨ !blkOk kind blk then
    -- a block that fits an open operation of the run abandons that operation
    match c.eng.ops.find? fun o => o.kind == kind && o.engine == e && !o.routed && o.part == l.part &&
        o.blk.combineId == blk.combineId && (o.phase == 0 || o.phase == 1) with
    | some o => if b.length < 64 then refuse (c.engRefuse kind e l.part blk.stepTag) else refuse (c.abandon o 1)
    | none => refuse (c.engRefuse kind e l.part blk.stepTag)
  else
    let k : Contrib := { src := blk.src, gate := blk.gate, launch := l.id, count := blk.count,
                         data := b.drop 64, segs := 1 }
    match c.eng.ops.find? fun o => o.kind == kind && o.engine == e && !o.routed && o.part == l.part &&
        o.blk.combineId == blk.combineId && (o.phase == 0 || o.phase == 1) with
    | some o =>
      let others := o.contribs.filter fun x => x.launch != l.id
      if others.any (fun x => x.src == blk.src) || !o.declared.contains blk.src || !blkSame kind o.blk blk then
        refuse (c.abandon o 1)
      else if o.phase = 0 && c.queueFull kind e then none
      -- a rerun delivers its contribution again (R136)
      else if o.contribs.any (fun x => x.launch == l.id) then
        some { chip := c.setOp { o with contribs := o.contribs.map (fun x => if x.launch == l.id then k else x) }, op := o.id }
      else some { chip := c.setOp { o with contribs := o.contribs ++ [k] }, op := o.id }
    | none =>
      if !(List.range blk.sources).contains blk.src then refuse (c.engRefuse kind e l.part blk.stepTag)
      else if c.engAccepts kind e && !c.queueFull kind e then
        let o : EngOp := { id := c.eng.nextId, kind := kind, engine := e, part := l.part, blk := blk,
                           declared := List.range blk.sources, openTick := c.tick, contribs := [k],
                           epochs := c.epochsOf l.part }
        some { chip := (c.addOp o).engOpen o, op := o.id }
      else none

/-- First segment of a ROUTED run: its described operation opens (R133, R135). -/
def Chip.firstRouted (c : Chip) (l : Launch) (b : Bytes) : Option SegTaken :=
  match c.eng.ops.find? fun o => some o.id == l.op with
  | none => some { chip := c, op := 0 }
  | some o =>
    let o' := putSeg o l.id b
    if o.phase = 4 then
      if !c.engOwned 0 o.engine l.part then some { chip := c.abandon o 1, op := 0 }
      else if c.engAccepts 0 o.engine && !c.queueFull 0 o.engine then
        some { chip := c.engOpen { o' with openTick := c.tick, phase := 1, epochs := c.epochsOf l.part }, op := o.id }
      else none
    else if o.phase = 0 && c.queueFull 0 o.engine then none
    else some { chip := c.setOp o', op := o.id }

/-- Offer one segment of a run; `none`: the engine does not take it now. The segments of an operation that has its
staging always pass (R135). -/
def Chip.offerSeg (c : Chip) (l : Launch) (kind e : Nat) (b : Bytes) : Option SegTaken :=
  if l.op = some 0 then some { chip := c, op := 0 }
  else if l.sentBytes = 0 then
    if l.routed then c.firstRouted l b else c.firstSeg l kind e b
  else
    match c.eng.ops.find? fun o => some o.id == l.op with
    | none => some { chip := c, op := 0 }
    | some o =>
      if o.phase = 0 && c.queueFull kind e then none else some { chip := c.setOp (putSeg o l.id b), op := o.id }

/-- The last segment of a run has been accepted: its contribution commits. -/
def Chip.commitRun (c : Chip) (l : Launch) : Chip :=
  match c.eng.ops.find? fun o => some o.id == l.op with
  | none => c
  | some o => c.engCommit o l.id

/-- Empty combine (R89, R143): the flag alone, with COUNT 0, once the whisk accepts operations. -/
def Chip.emptyCombine (c : Chip) (part whisk dst flagAddr tag : Nat) : Chip :=
  if !c.engOwned 0 whisk part then c.engRefuse 0 whisk part tag
  else
    let o : EngOp := { id := c.eng.nextId, kind := 0, engine := whisk, part := part, routed := true,
                       blk := { op := 3, stepTag := tag, dst := dst, flagAddr := flagAddr },
                       phase := 5, openTick := c.tick, epochs := c.epochsOf part }
    (c.addOp o).engWakeOne o

end Sys2Proof.Machine
end

