-- ==== Sys2Proof/Machine/Shaping.lean ====
section
/-! DEFINITION. Classes, time gates and policing (chapter 11) and the arbiter tree in front of an
egress port (R365-R367). -/

namespace Sys2Proof.Machine

/-! ### Registers of a port -/

def Chip.portReg (c : Chip) (r : Reg) (p : Nat) (idx : List Nat := []) : Nat :=
  c.reg r (portDie p) (portLocal p :: idx)
def Chip.portFld (c : Chip) (r : Reg) (p hi lo : Nat) : Nat := bits (c.portReg r p) hi lo
def Chip.portBump (c : Chip) (k : Cnt) (p : Nat) (n : Nat := 1) : Chip := c.bump k (portDie p) [portLocal p] n
def Chip.classBump (c : Chip) (k : Cnt) (p cls : Nat) (n : Nat := 1) : Chip :=
  c.bump k (portDie p) [portLocal p, cls] n

/-- TSH_CTRL.ENABLE of the port's die. -/
def Chip.tshOn (c : Chip) (p : Nat) : Bool := c.enabled 5 (portDie p)

/-- PCS clock cycles of a flit at a width (R314). -/
def flitCycles (w : Nat) : Nat := 16 / 2 ^ w

/-- Units that one DATA flit carries: 15, or 14 with link keys in force (R321). -/
def Port.unitsPer (q : Port) : Nat := if q.keys.isSome then 14 else 15

/-- DATA flits of a message (R375). -/
def Port.flitsOf (q : Port) (bytes : Nat) : Nat := cdiv (units bytes) q.unitsPer

/-- Credits available on a channel (R324). -/
def Port.avail (q : Port) (vc : Nat) : Nat :=
  (q.granted.getD vc 0 + 65536 - q.consumed.getD vc 0) % 65536

/-! ### Policers (R387, R388) -/

/-- What a policer does with a request. -/
inductive Policed where
  | pass
  | retry
  | demote (tc : Nat)
  deriving DecidableEq, Repr

/-- Spend tokens for a request of class `tc` and `bytes` bytes, or apply ACTION to it. -/
def Chip.police (c : Chip) (p tc bytes : Nat) : Policed × Chip :=
  let cfg := c.portReg .tshPolCfg p [tc]
  let act := bits cfg 31 30
  if !c.tshOn p || act == 0 then (.pass, c)
  else
    let q := c.port p
    let burst := max 1 (bits cfg 15 0) * 65536
    let t0 := kgetD q.tokens tc burst
    let t := min burst (t0 + bits (c.portReg .tshPolRate p [tc]) 15 0 * (q.pcs - kgetD q.tokAt tc q.pcs))
    let cost := q.flitsOf bytes * 65536
    let spent := decide (cost ≤ t)
    let left := if spent then t - cost else t
    let c := c.setPort p { q with tokens := kput q.tokens tc left, tokAt := kput q.tokAt tc q.pcs }
    if spent then (.pass, c)
    else
      let c := (c.classBump .tshPoliced p tc).fwEvent Ev.policeExceed none 0 0
      match act with
      | 1 => (.pass, c)
      | 2 => (.demote (bits cfg 29 27), c.classBump .tshDemoted p tc)
      | _ => (.retry, c)

/-- A policer was reconfigured: T is the new BURST (R390). -/
def Chip.policerSet (c : Chip) (p tc : Nat) : Chip :=
  c.modPort p fun q => { q with tokens := kdel q.tokens tc, tokAt := kput q.tokAt tc q.pcs }

/-! ### Time gates (R380-R386) -/

/-- The port's active bank gates the classes. -/
def Chip.gated (c : Chip) (p : Nat) : Bool :=
  let w := c.portReg .tshPortCfg p
  c.tshOn p && (bit w 31 || bit w 30)

def Chip.fixedSlot (c : Chip) (p : Nat) : Bool := c.tshOn p && bit (c.portReg .tshPortCfg p) 30

def Chip.gateLen (c : Chip) (p bank : Nat) : Nat :=
  let w := c.portReg .tshGateLen p
  max 1 (min 256 (if bank = 0 then bits w 8 0 else bits w 24 16))

/-- MASK and DURATION of an entry. -/
def Chip.gateEnt (c : Chip) (p bank e : Nat) : Nat × Nat :=
  let w := c.portReg .tshGate p [bank, e]
  (bits w 31 24, max 1 (bits w 23 0))

/-- The running entry. -/
def Chip.gateNow (c : Chip) (p : Nat) : Nat × Nat :=
  c.gateEnt p (c.port p).gate.bank (c.port p).gate.entry

/-- Cycles left of the running entry. -/
def Chip.entryLeft (c : Chip) (p : Nat) : Nat :=
  let q := c.port p
  q.gate.start + (c.gateNow p).2 - q.pcs

/-- The entries that follow the running one, for one whole cycle of the bank that comes next. -/
def Chip.gateAfter (c : Chip) (p : Nat) : List (Nat × Nat) :=
  let g := (c.port p).gate
  let nb := if g.switch then 1 - g.bank else g.bank
  ((List.range (c.gateLen p g.bank)).drop (g.entry + 1)).map (c.gateEnt p g.bank) ++
    (List.range (c.gateLen p nb)).map (c.gateEnt p nb)

/-- Length of the run of entries open to a class; none when it never closes. -/
def openRun (cls : Nat) : List (Nat × Nat) → Option Nat
  | [] => none
  | (m, d) :: t => if bit m cls then (openRun cls t).map (d + ·) else some 0

/-- Cycles before the class's gate next closes: 0 when it is closed, none when it never closes. -/
def Chip.gateLeft (c : Chip) (p cls : Nat) : Option Nat :=
  if bit (c.gateNow p).1 cls then (openRun cls (c.gateAfter p)).map (c.entryLeft p + ·) else some 0

/-- The class's gate is open. -/
def Chip.gateOpen (c : Chip) (p cls : Nat) : Bool := !c.gated p || bit (c.gateNow p).1 cls

def Chip.maxLen (c : Chip) (p cls : Nat) : Nat := min 4096 (bits (c.portReg .tshClassCfg p [cls]) 12 0)

/-- Guard band G_c (R381). -/
def Chip.guardBand (c : Chip) (p cls : Nat) : Nat :=
  let q := c.port p
  (q.flitsOf (32 + c.maxLen p cls) + 1) * flitCycles q.width

/-- A message of `f` flits of a class may start under R381; an entry shorter than the guard band starts none (R382). -/
def Chip.gateAllows (c : Chip) (p cls f : Nat) : Bool :=
  !c.gated p || (decide (c.guardBand p cls ≤ (c.gateNow p).2) &&
  match c.gateLeft p cls with
  | none => true
  | some l => decide (max (c.guardBand p cls) (f * flitCycles (c.port p).width) ≤ l))

/-- Start a cycle of the running bank (R380). -/
def Chip.gateRestart (c : Chip) (p : Nat) : Chip :=
  c.modPort p fun q => let g := q.gate; { q with gate := { g with entry := 0, start := q.pcs } }

/-- Every entry of a bank opens exactly one class (R385). -/
def Chip.bankFixed (c : Chip) (p bank : Nat) : Bool :=
  (List.range (c.gateLen p bank)).all fun e => popCount 8 (c.gateEnt p bank e).1 == 1

/-- The bank that is not running may become active. -/
def Chip.switchLegal (c : Chip) (p : Nat) : Bool :=
  !bit (c.portReg .tshPortCfg p) 30 || c.bankFixed p (1 - (c.port p).gate.bank)

/-- Make the other bank the active one. -/
def Chip.doSwitch (c : Chip) (p : Nat) : Chip :=
  (c.modPort p fun q => let g := q.gate; { q with gate := { g with bank := 1 - g.bank, switch := false } }).gateRestart p

/-- BANK_SWITCH_REQUEST (R383, R385): at the end of the cycle in progress, or at once where no
bank runs. -/
def Chip.bankSwitch (c : Chip) (p : Nat) : Chip :=
  if !c.switchLegal p then c.ignored ((Reg.tshPortCfg).addr (portDie p) [portLocal p])
  else if c.gated p then c.modPort p fun q => let g := q.gate; { q with gate := { g with switch := true } }
  else c.doSwitch p

/-- Classes of the VC0 and VC1 messages that have started and not ended. -/
def Port.startedClasses (q : Port) : List Nat :=
  [0, 1].filterMap fun v => (q.curMsg.getD v none).map (·.tc)

/-! ### Arbiter trees (R365-R367) -/

/-- IN_W of a port. -/
def Chip.portW (c : Chip) (p : Nat) : Nat := max 1 (c.portFld .tshPortCfg p 7 0)

/-- Leaf of an ingress port. -/
def Chip.portLeaf (c : Chip) (p : Nat) : Nat × Nat × Nat := (portDie p, portLocal p, c.portW p)

/-- Sending die, leaf and weight of a message that waits at an egress port: ingress ports are
leaves 0-63, engines 64-111, and the requesters that R365 does not name share leaf 128. -/
def Chip.leafOf (c : Chip) (p : Nat) (m : EMsg) : Nat × Nat × Nat :=
  match m.dev with
  | none => (m.leaf / 256, m.leaf % 256, c.portW (portOf (m.leaf / 256) (m.leaf % 256)))
  | some id =>
    match c.gtx.devReqs.find? fun d => d.id == id with
    | none => (portDie p, 128, 1)
    | some d =>
      let eng (op : Nat) := match c.op? op with
        | some o => (engDie o.engine, 64 + 16 * o.kind + engLocal o.engine, c.partW d.part)
        | none => (portDie p, 128, 1)
      match d.owner with
      | .engRead op _ => eng op
      | .engWrite op => eng op
      | .engFlag op => eng op
      | .mTarget mid _ =>
        match c.gtx.mstores.find? fun x => x.id == mid with
        | some x => match x.origin with
          | .port a _ => c.portLeaf a
          | .dev _ => (portDie p, 128, 1)
        | none => (portDie p, 128, 1)
      | _ => (portDie p, 128, 1)

/-- Cost of a message in cells, 1 without payload (R367). -/
def EMsg.cost (m : EMsg) : Nat := max 1 (cdiv m.payload 256)

/-- The messages of a class that wait on a port, with their places. -/
def Chip.classMsgs (c : Chip) (p cls : Nat) : List (Nat × EMsg) :=
  ((c.port p).queue.zipIdx.filter fun e => decide (e.1.vc ≤ 1) && e.1.tc == cls).map fun e => (e.2, e.1)

/-- Die on which a message waits for an egress port (R347). -/
def Chip.sendDie (c : Chip) (p : Nat) (m : EMsg) : Nat := m.dieOr (if m.vc ≤ 1 then (c.leafOf p m).1 else portDie p)

/-- Account of the port's die that takes the cells of a message from another die: its partition's, or, of one that is
forwarded, the port's, which is the model's choice (notes/assumptions/144.md). -/
def Chip.crossAcct (c : Chip) (p : Nat) (m : EMsg) : Nat :=
  match m.acct, m.cells.head?.map fun k => (c.cell k).account with
  | some a, _ => a
  | none, some a => if 64 ≤ a then a else portLocal p
  | none, none => portLocal p

/-- Cells of the port's die that a message takes as it starts: those of a response's data, and of a payload that
crosses. -/
def Chip.crossCells (c : Chip) (p : Nat) (m : EMsg) : Nat :=
  if m.cells.isEmpty && m.acct.isSome then cdiv m.payload 256
  else if c.sendDie p m = portDie p then 0 else m.cells.length

/-- The message can come to the port: a path is open, and its cells there fit (R347, R351, R363). -/
def Chip.crossFits (c : Chip) (p : Nat) (m : EMsg) : Bool :=
  let d := portDie p
  let a := c.crossAcct p m
  c.pathOpen (c.sendDie p m) d m.hash &&
    (if 64 ≤ a then c.shareFits d (a - 64) (c.crossCells p m) else c.portFits d a (c.crossCells p m))

/-- The message comes to the port, into cells of its die (R347). -/
def Chip.crossTo (c : Chip) (p : Nat) (m : EMsg) : Chip × EMsg :=
  let a := (c.cross (c.sendDie p m) (portDie p) m.hash).allocCells (portDie p) (c.crossCells p m) (c.crossAcct p m)
  (a.1, { m with xcells := a.2 })

/-- A VC0 or VC1 message could start but for its gate: it reaches the port through switch cores that move messages,
and it has credit for all its flits (R369, R375). -/
def Chip.couldStart (c : Chip) (p : Nat) (m : EMsg) : Bool :=
  let q := c.port p
  c.crossFits p m && decide (q.flitsOf m.bytes.length ≤ q.avail m.vc)

/-- It may start now. -/
def Chip.mayStart (c : Chip) (p : Nat) (m : EMsg) : Bool :=
  c.couldStart p m && c.gateAllows p m.tc ((c.port p).flitsOf m.bytes.length)

/-- First message of each virtual channel of a leaf that may start, VC0 before VC1. -/
def Chip.leafHead (c : Chip) (p : Nat) (ms : List (Nat × EMsg)) : Option (Nat × EMsg) :=
  let head (v : Nat) := (ms.find? fun e => e.2.vc == v).filter fun e => c.mayStart p e.2
  (head 0).or (head 1)

/-- A class that is closing has a head which only the closing keeps from starting (R381). -/
def Chip.headWaits (c : Chip) (p cls : Nat) : Bool :=
  let ms := c.classMsgs p cls
  [0, 1].any fun v => ms.any fun e => e.2.vc == v && c.couldStart p e.2 &&
    (ms.find? fun x => x.2.vc == v && c.leafOf p x.2 == c.leafOf p e.2).any fun x => x.1 == e.1

/-- GATE_ENTRY_END (R380, R382): an entry too short for a class is counted, and so is the start that a class's head
was refused at the closing (R395). -/
def Chip.gateEntryEnd (c : Chip) (p : Nat) : Chip :=
  if !c.gated p || !c.usable p && (c.port p).st != .retrain || c.entryLeft p != 0 then c
  else
    let q := c.port p
    let old := c.gateNow p
    let last := decide (c.gateLen p q.gate.bank ≤ q.gate.entry + 1)
    let open_ := (List.range 8).filter fun k => bit old.1 k
    -- the next entry
    let g := q.gate
    let c' := if last then
        (if g.switch then
          (if c.switchLegal p then
            c.modPort p fun q => { q with gate := { bank := 1 - g.bank, entry := 0, start := g.start + old.2 } }
          else (c.modPort p fun q => { q with gate := { g with entry := 0, start := g.start + old.2, switch := false } }).ignored
            ((Reg.tshPortCfg).addr (portDie p) [portLocal p]))
        else c.modPort p fun q => { q with gate := { g with entry := 0, start := g.start + old.2 } })
      else c.modPort p fun q => { q with gate := { g with entry := g.entry + 1, start := g.start + old.2 } }
    let closing := open_.filter fun k => !bit (c'.gateNow p).1 k
    -- entries too short, starts refused, and closings passed
    let skips := (open_.filter fun k => decide (old.2 < c.guardBand p k)) ++ closing.filter fun k => c.headWaits p k
    let overs := closing.filter fun k => q.startedClasses.contains k
    let c' := skips.foldl (fun c k => c.classBump .tshGateSkip p k) c'
    overs.foldl (fun c k => (c.classBump .tshGateOverrun p k).fwEvent Ev.gateOverrun none 0 0) c'

/-- Leaves of a class's tree with a message for the port. -/
def Chip.classLeaves (c : Chip) (p cls : Nat) : List Leaf :=
  sortLeaves (((c.classMsgs p cls).map fun e => c.leafOf p e.2).dedup.map fun l => { die := l.1, idx := l.2.1, w := l.2.2 })

/-- The next message of a class by the two levels of arbiters (R365), with the state they leave. -/
def Chip.pickMsg (c : Chip) (p cls : Nat) : Option (Nat × Chip) :=
  let active := c.classLeaves p cls
  let heads := active.filterMap fun l =>
    (c.leafHead p ((c.classMsgs p cls).filter fun e => c.leafOf p e.2 == (l.die, l.idx, l.w))).map fun e =>
      { l with at_ := e.1, cost := e.2.cost }
  (c.treePick (portTree p cls) (portDie p) active heads).map fun r => (r.1.at_, r.2)

/-- Children of the class's arbiters that have no message left lose their deficits (R367). -/
def Chip.idleChildren (c : Chip) (p cls : Nat) : Chip := c.treeIdle (portTree p cls) (c.classLeaves p cls)

/-! ### Snoops and responses at an egress port (R467) -/

/-- The snoops that wait on a port, with their places. -/
def Chip.snoopMsgs (c : Chip) (p : Nat) : List (Nat × EMsg) :=
  ((c.port p).queue.zipIdx.filter fun e => e.1.vc == 2).map fun e => (e.2, e.1)

/-- Leaf of the partition that a snoop is for, at the home that sends it (R376, R467). -/
def Chip.snoopLeaf (c : Chip) (p : Nat) (e : Nat × EMsg) : Leaf :=
  { die := e.2.dieOr (portDie p), idx := e.2.leaf, w := c.partW e.2.leaf, at_ := e.1 }

/-- Leaves with a snoop that waits on a port. -/
def Chip.snoopLeaves (c : Chip) (p : Nat) : List Leaf := oneEach ((c.snoopMsgs p).map (c.snoopLeaf p))

/-- The next message of VC2 or VC3, with the state after its turn: a snoop by its partition's requester queues, a
response in order, each past those that cannot come to the port. -/
def Chip.pickLow (c : Chip) (p vc : Nat) : Option (Nat × Chip) :=
  if vc = 2 then
    (c.treePick (snoopTree p) (portDie p) (c.snoopLeaves p)
      (oneEach (((c.snoopMsgs p).filter fun e => c.crossFits p e.2).map (c.snoopLeaf p)))).map fun r => (r.1.at_, r.2)
  else ((c.port p).queue.findIdx? fun m => m.vc == vc && c.crossFits p m).map fun i => (i, c)

/-- Requester queues of a port that have no snoop left lose their deficits (R367). -/
def Chip.idleSnoops (c : Chip) (p : Nat) : Chip := c.treeIdle (snoopTree p) (c.snoopLeaves p)

/-! ### Classes at an egress port (R377-R379) -/

def Chip.classW (c : Chip) (p cls : Nat) : Nat :=
  if c.tshOn p then max 1 (bits (c.portReg .tshClassCfg p [cls]) 31 24) else 1

def Chip.strict (c : Chip) (p cls : Nat) : Bool :=
  c.tshOn p && bit (c.portReg .tshPortCfg p) (8 + cls)

/-- `a` precedes `b` modulo 2^48. -/
def precedes (a b : Nat) : Bool :=
  let d := (b + 2 ^ 48 - a % 2 ^ 48) % 2 ^ 48
  decide (1 ≤ d) && decide (d < 2 ^ 47)

/-- The class is eligible: the arbiters find a head that may start (R375). -/
def Chip.classReady (c : Chip) (p cls : Nat) : Bool := (c.pickMsg p cls).isSome

/-- Tag the head of a non-strict class that has none yet: woken at V, or following its last (R378). -/
def Chip.tagHead (c : Chip) (p cls : Nat) (woke : Bool) : Chip :=
  let q := c.port p
  if (c.classMsgs p cls).isEmpty || q.headTag.getD cls false || c.strict p cls then c
  else
    let f0 := q.ftag.getD cls 0
    let s := if woke && precedes f0 q.vtime then q.vtime else f0
    c.setPort p { q with
      stag := q.stag.set cls s, headTag := q.headTag.set cls true, headW := q.headW.set cls (c.classW p cls) }

/-- Finish tag of the head that the arbiters would send next: its start tag and its cost over the weight (R378). -/
def Chip.headF (c : Chip) (p cls : Nat) : Nat :=
  let q := c.port p
  let n := ((c.pickMsg p cls).bind fun r => q.queue[r.1]?).map fun m => q.flitsOf m.bytes.length
  (q.stag.getD cls 0 + cdiv (n.getD 0 * 65536) (max 1 (q.headW.getD cls 1))) % 2 ^ 48

/-- Tag every class that has woken and whose gate is open (R378, R390). -/
def Chip.wakeClasses (c : Chip) (p : Nat) : Chip :=
  (List.range 8).foldl (fun c k => if c.gateOpen p k then c.tagHead p k true else c) c

/-- The V of a port that has nothing to send catches up with the latest F it has served (R379). -/
def Chip.idleV (c : Chip) (p : Nat) : Chip :=
  let q := c.port p
  if (q.queue.all fun m => decide (2 ≤ m.vc)) && q.startedClasses.isEmpty then c.setPort p { q with vtime := q.lastF } else c

/-- The class to serve next: strict classes first, highest number first, then the earliest finish
tag, the higher class among equals. -/
def Chip.pickClass (c : Chip) (p : Nat) : Option Nat :=
  let ready := [7, 6, 5, 4, 3, 2, 1, 0].filter fun k => c.classReady p k
  match ready.find? fun k => c.strict p k with
  | some k => some k
  | none =>
    let f (k : Nat) := c.headF p k
    ready.find? fun k => ready.all fun j => j == k || !precedes (f j) (f k) && (j < k || f j != f k)

/-- Start a message of a class on its virtual channel. -/
def Chip.startMsg (c : Chip) (p cls : Nat) : Chip :=
  match c.pickMsg p cls with
  | none => c
  | some (i, c') =>
    match (c.port p).queue[i]? with
    | none => c
    | some m =>
      let big := c.gated p && decide (c.maxLen p cls < m.payload)
      let wfq := !c.strict p cls
      let tagF := c.headF p cls
      let x := c'.crossTo p m
      let c' := x.1
      let m := x.2
      let q := c'.port p
      let q' := { q with
        queue := q.queue.eraseIdx i
        cur := q.cur.set m.vc (m.bytes ++ zerosB (16 * units m.bytes.length - m.bytes.length))
        curMsg := q.curMsg.set m.vc (some m)
        headTag := q.headTag.set cls false
        ftag := if wfq then q.ftag.set cls tagF else q.ftag
        vtime := if wfq then q.stag.getD cls 0 else q.vtime
        lastF := if wfq && precedes q.lastF tagF then tagF else q.lastF }
      let c := ((c'.setPort p q').idleChildren p cls).classBump .tshSent p cls
      let c := if big then
          (c.classBump .tshGateOverrun p cls).fwEvent Ev.gateOverrun none 0 0
        else c
      c.tagHead p cls false

/-! ### Sampling (R389) -/

/-- Sample one class of a port. -/
def Chip.sampleClass (c : Chip) (p cls : Nat) : Chip :=
  let q := c.port p
  let ms := (c.classMsgs p cls).map (·.2)
  let depth := (ms.map fun m => cdiv m.payload 256).sum
  let delay := ((ms.head?.map fun m => q.pcs - m.since).getD 0) / 64
  let d := min 0xFFFF depth
  let y := min 0xFFFF delay
  let q' := { q with
    lastDepth := q.lastDepth.set cls d
    lastDelay := q.lastDelay.set cls y
    maxDepth := q.maxDepth.set cls (max d (q.maxDepth.getD cls 0))
    maxDelay := q.maxDelay.set cls (max y (q.maxDelay.getD cls 0)) }
  (((c.setPort p q').classBump .tshSamples p cls).classBump .tshDepthSum p cls depth).bump
    .tshDelaySum (portDie p) [portLocal p, cls] delay

/-- QUEUE_SAMPLE. -/
def Chip.queueSample (c : Chip) (p : Nat) : Chip :=
  let q := c.port p
  let int := max 1 (c.portFld .tshSampleCfg p 23 0)
  if c.portExists p && decide (q.sampAt + int ≤ q.pcs) then
    (List.range 8).foldl (fun c k => c.sampleClass p k) (c.modPort p fun q => { q with sampAt := q.sampAt + int })
  else c

end Sys2Proof.Machine
end

