-- ==== Sys2Proof/Machine/Link.lean ====
section
/-! DEFINITION. The link layer of a fabric port (chapter 9): states, training, flits, credits,
replay, error windows, failover, link encryption and the test generators. -/

namespace Sys2Proof.Machine

/-! ### Lanes and widths (R312, R313) -/

/-- Configured width of a port, and the lanes of its group that it owns. -/
def Chip.portWidth (c : Chip) (p : Nat) : Nat := 2 - c.split p
def Chip.portLanes (c : Chip) (p : Nat) : Nat :=
  match c.split p with
  | 0 => 0xF
  | 1 => if p / 64 < 2 then 0x3 else 0xC
  | _ => 2 ^ (p / 64)

/-- Lane sets of R313 with their widths, widest first and the lower lanes first. -/
def laneSets : List (Nat × Nat) := [(0xF, 2), (0x3, 1), (0xC, 1), (1, 0), (2, 0), (4, 0), (8, 0)]

/-- The widest lane set within `lanes`. -/
def bestSet (lanes : Nat) : Option (Nat × Nat) := laneSets.find? fun s => s.1 &&& lanes == s.1

def Chip.minWidth (c : Chip) (p : Nat) : Nat := min 2 (c.portFld .lnkPortCfg p 27 26)

/-- Lanes that may train: those of the port without the ones calibration lost (R503). -/
def Chip.goodLanes (c : Chip) (p : Nat) : Nat :=
  (c.boot.calibFail.filter fun l => l / 4 == p % 64).foldl (fun m l => m &&& (0xF ^^^ 2 ^ (l % 4)))
    (c.portLanes p)

/-- Replay buffer in flits (R326). -/
def Chip.replayRoom (c : Chip) (p : Nat) : Nat := 64 * 2 ^ c.portWidth p

/-- Initial credits at a width (R323). -/
def initCredits (w : Nat) : List Nat := [128, 320, 16, 48].map (· * 2 ^ w)

/-- Link rank of a port (R330). -/
def Chip.rank (c : Chip) (p : Nat) : Nat := c.boot.image.serial % 2 ^ 56 * 256 + p

/-- Timers and thresholds, where 0 acts as 1 (R337, R338). -/
def Chip.credTmo (c : Chip) (p : Nat) : Nat := max 1 (c.portFld .lnkPortCfg p 23 0)
def Chip.retrainTmo (c : Chip) (p : Nat) : Nat := max 1 (c.portFld .lnkPortTmo p 31 16) * 64
def Chip.ackTmo (c : Chip) (p : Nat) : Nat := max 1 (c.portFld .lnkPortTmo p 15 0)
def Chip.replayThr (c : Chip) (p : Nat) : Nat := max 1 (c.portFld .lnkPortErrThr p 31 16)
def Chip.uncThr (c : Chip) (p : Nat) : Nat := max 1 (c.portFld .lnkPortErrThr p 15 4)
def Chip.replayMax (c : Chip) (p : Nat) : Nat := max 1 (c.portFld .lnkPortErrThr p 3 0)

/-! ### Events (R345) -/

/-- Partitions with a stream whose source node names the port. -/
def Chip.portParts (c : Chip) (p : Nat) : List Nat :=
  ((c.idxs .gtxStream 12 fun w => bit w 31 &&
    (match c.node (bits w 11 0) with
    | .ports a b => a == p || b == p
    | _ => false)).map fun s => c.fld .gtxStream 12 [s] 29 24).dedup

def Chip.linkEvent (c : Chip) (ev p : Nat) : Chip :=
  c.raise ev (c.portParts p) (p + (c.port p).cause * 256) 0

/-- The node whose PORTS entry names the port, and its MODE (R442). -/
def Chip.portNode (c : Chip) (p : Nat) : Option Nat :=
  (c.idxs .gtxNode 12 fun w => bits w 31 30 == 2 && (bits w 7 0 == p || bits w 15 8 == p)).head?

def Chip.authEnc (c : Chip) (p : Nat) : Bool :=
  match c.portNode p with
  | none => false
  | some n =>
    let s := kgetD c.sec.nodes n {}
    s.valid && s.mode == 2

/-! ### Flit formats (R319, R322) -/

/-- Header fields of the next flit a port sends. -/
structure TxHdr where
  ftype : Nat
  seq : Nat
  dvc : Nat := 0

/-- CCUM of a channel (R324). -/
def Port.ccum (q : Port) (vc : Nat) : Nat :=
  ((initCredits q.fullWidth).getD vc 0 + q.freed.getD vc 0 + q.extra.getD vc 0) % 65536

/-- The 256 bytes of a flit around its 240 payload bytes. -/
def Port.flitBytes (q : Port) (h : TxHdr) (payload : Bytes) : Bytes :=
  let b := natLE 1 (h.ftype + 16 * q.cvc + 64 * b2n q.sendNak) ++ natLE 2 h.seq ++ natLE 2 q.lastGood ++
    natLE 2 (q.ccum q.cvc) ++ natLE 1 h.dvc ++ payload ++ zerosB (240 - payload.length)
  b ++ natLE 8 (crc64 b)

/-- Body of a CTRL flit. -/
def ctrlBytes (t : Nat) (b : CtrlBody) : Bytes :=
  natLE 1 t ++ natLE 1 b.lanes ++ natLE 1 b.width ++ natLE 1 (b2n b.enc) ++ natLE 2 b.reqId ++ zerosB 2 ++
  natLE 8 b.rank ++ (List.range 4).flatMap (fun i => natLE 2 (b.initCred.getD i 0)) ++ natLE 2 b.replayFlits

/-- A CTRL body of this port. -/
def Chip.ctrlBody (c : Chip) (p lanes width reqId : Nat) : CtrlBody :=
  { lanes := lanes, width := width, enc := true, reqId := reqId, rank := c.rank p,
    initCred := initCredits width, replayFlits := c.replayRoom p }

/-- Queue a CTRL flit; it leaves at the port's next flit time. -/
def Chip.sendCtrl (c : Chip) (p t lanes width reqId : Nat) : Chip :=
  let b := c.ctrlBody p lanes width reqId
  c.modPort p fun q => { q with ctrlTx := q.ctrlTx ++ [(t, b)] }

/-! ### Pattern generators and checkers of the lanes (R333) -/

/-- Port that a fabric lane belongs to, by its group's split (R312). -/
def Chip.lanePort (c : Chip) (die k : Nat) : Nat :=
  let l := k / 4
  let p := portOf die l
  p + 64 * (match c.split p with
    | 1 => k % 4 / 2 * 2
    | 2 => k % 4
    | _ => 0)

/-- A lane's port is DOWN or TEST; the port of the Ethernet lanes is DOWN while its link is not up. -/
def Chip.laneIdle (c : Chip) (die k : Nat) : Bool :=
  if 64 ≤ k then !c.boot.ethUp
  else
    let st := (c.port (c.lanePort die k)).st
    st == .down || st == .test

/-- The generator and the checker of a lane may run. -/
def Chip.laneRuns (c : Chip) (die k : Nat) : Bool :=
  (regAt ((Reg.tstLaneCfg).addr die [k])).isSome && c.enabled 21 die && c.laneIdle die k

/-- PATTERN of a lane: 0 PRBS13Q, 1 PRBS31Q, 2 SSPRQ; 3 acts as 0 (R343). -/
def Chip.lanePattern (c : Chip) (die k : Nat) : Nat := bits (c.reg .tstLaneCfg die [k]) 29 28 % 3

/-- What a lane's generator transmits: the `n`-th PAM4 symbol of its pattern; none while it does not run. -/
def Chip.laneSends (c : Chip) (die k n : Nat) : Option Nat :=
  if c.laneRuns die k && bit (c.reg .tstLaneCfg die [k]) 31 then some (Config.patternSymbol (c.lanePattern die k) n % 4) else none

/-- A lane's checker runs: it is enabled, and its lane may run one. -/
def Chip.laneChecks (c : Chip) (die k : Nat) : Bool := c.laneRuns die k && bit (c.reg .tstLaneCfg die [k]) 30

/-- A checker that has stopped is no longer locked. -/
def Chip.dropLocks (c : Chip) : Chip :=
  let ls := c.lnk.laneLocked.filter fun x => c.laneChecks (x / 128) (x % 128)
  { c with lnk := { c.lnk with laneLocked := ls } }

/-- A locked checker compares the bits that came in since the last tick: an open number of them, and of errors
among them. -/
def Chip.compareBits (c : Chip) (x : Nat) : Chip :=
  let a := c.draw
  let b := a.2.draw
  (b.2.bump .tstLaneBits (x / 128) [x % 128] a.1).bump .tstLaneErr (x / 128) [x % 128] (b.1 % (a.1 + 1))

/-- A tick of the locked checkers. -/
def Chip.checkersTick (c : Chip) : Chip :=
  (c.lnk.laneLocked.filter fun x => c.laneChecks (x / 128) (x % 128)).foldl Chip.compareBits c

/-! ### States (R316) -/

/-- Credit of a dead link no longer returns. -/
def dropCred (p : Nat) (cr : Option (Nat × Nat × Nat)) : Option (Nat × Nat × Nat) :=
  cr.filter fun x => x.1 != p

/-- Messages of a port no longer hold credits of port `p`. -/
def Port.stripCred (p : Nat) (q : Port) : Port :=
  let msg (m : EMsg) : EMsg := { m with cred := dropCred p m.cred }
  { q with queue := q.queue.map msg, curMsg := q.curMsg.map fun m => m.map msg }

def Chip.stripCred (c : Chip) (p : Nat) : Chip :=
  let g := c.gtx
  let pends := g.pends.map fun x => { x with cred := dropCred p x.cred }
  let ts := g.tstores.map fun x => let y := x.pend; { x with pend := { y with cred := dropCred p y.cred } }
  let sw := g.shareWait.map fun x => let y := x.pend; { x with pend := { y with cred := dropCred p y.cred } }
  let ms := g.mstores.map fun x => { x with cred := dropCred p x.cred }
  let dup (l : LogEnt) : LogEnt := { l with waiters := l.waiters.map fun x => { x with cred := dropCred p x.cred } }
  let ss := g.streams.map fun e => let y := e.2; (e.1, { y with log := y.log.map fun l => (l.1, dup l.2) })
  let ports := c.lnk.ports.map fun e => (e.1, e.2.stripCred p)
  { c with gtx := { g with pends := pends, tstores := ts, shareWait := sw, mstores := ms, streams := ss }, lnk := { c.lnk with ports := ports } }

/-- Start a full training: DOWN or FAILED to TRAIN, or to TEST (R316, R318, R334). -/
def Chip.startTrain (c : Chip) (p : Nat) (st : LinkState) : Chip :=
  let keep := c.goodLanes p
  let w := c.portWidth p
  (c.modPort p fun q => { q with
    st := st, lanes := 0, width := w, enterTick := c.tick, enterPcs := q.pcs, locked := 0, recSeen := false, acked := false,
    peerLanes := 0, keepLanes := keep, lastCtrl := 0, ctrlTx := [], own := none, withdrawn := none,
    resumeAck := false, prbsTx := 0x7FFFFFFF, prbsRx := 0x7FFFFFFF }).dropLocks

/-- Enter RETRAIN from ACTIVE or NARROW, offering at most the lanes of `keep`. -/
def Chip.enterRetrain (c : Chip) (p cause keep : Nat) : Chip :=
  if !c.usable p then c
  else
    let c := c.modPort p fun q => { q with
      st := .retrain, cause := cause, enterTick := c.tick, enterPcs := q.pcs, recSeen := false, acked := false,
      peerLanes := 0, keepLanes := keep, lastCtrl := 0, own := none, resend := [] }
    (c.portBump .lnkRetrain p).linkEvent Ev.linkRetrain p

/-- The other usable port of the route to a node. -/
def Chip.buddy (c : Chip) (n p : Nat) : Option Nat :=
  match c.node n with
  | .ports a b =>
    let o := if a = p then b else a
    if o ≠ p ∧ c.usable o = true then some o else none
  | _ => none

/-- A message queued for a port that has gone moves to the other port of its route, or is dropped
(R332). -/
def Chip.moveMsg (c : Chip) (p : Nat) (m : EMsg) : Chip :=
  match c.buddy m.dst p with
  | some o =>
    let c := match m.dev with
      | none => c
      | some id =>
        let ds := modFirst (fun (d : DevReq) => d.id == id) (fun d => { d with port := some o }) c.gtx.devReqs
        { c with gtx := { c.gtx with devReqs := ds } }
    c.enqueue o m
  | none =>
    let c := (c.releaseCells m.cells).freeCred m.cred
    match m.dev with
    | some _ => c
    | none => if m.vc = 3 then c.bump .gtxRspDrop 12 else if m.vc ≤ 1 then c.bump .gtxFwdDrop 12 else c

/-- Reissue one of the module's own requests that went out on a failed port (R332). -/
def Chip.reissueOn (c : Chip) (d : DevReq) (p : Nat) : Chip :=
  match c.buddy d.dst p with
  | none => c
  | some o =>
    let r := d.req
    let d' := { d with reissues := d.reissues + 1, req := { r with re := true } }
    let ds := c.gtx.devReqs.filter fun x => x.id != d.id
    ({ c with gtx := { c.gtx with devReqs := ds } }).sendAgainOn d' (some o)

/-- News to the requests that a port which goes was feeding: their messages are truncated (R355). -/
def Port.cutMsgs (q : Port) (p : Nat) : List CutMsg :=
  (List.range 4).filterMap fun vc => match q.rxMode.getD vc .whole with
    | .fed id => some { id := id, port := p, vc := vc, gone := true }
    | _ => none

/-- A message that waits at its port stays whole, without the credits of a link that has gone; one handed over under
cut-through and not yet begun is truncated (R355). -/
def InMsg.stays : InMsg → Option InMsg
  | .req vc r cells _ => some (.req vc r cells 0)
  | .rsp r cells _ => some (.rsp r cells)
  | .snp r cells _ => some (.snp r cells)
  | .cut _ _ _ _ => none

/-- Cells of such a truncated message. -/
def InMsg.lost : InMsg → Option (List Nat)
  | .cut _ _ cells _ => some cells
  | _ => none

/-- A port enters FAILED or DOWN (R327, R332, R355, R442). A port that carried messages and goes DOWN is handled
as one that fails (R335). -/
def Chip.portGone (c : Chip) (p : Nat) (failed : Bool) (cause : Nat) : Chip :=
  let q := c.port p
  let queued := q.queue
  let unsent := queued.filterMap fun m => m.dev
  let held := (q.curMsg.filterMap id)
  let enc := c.authEnc p && (q.st != .down && q.st != .failed)
  let again := failed || c.usable p || q.st == .retrain
  let q' := { q with
    st := if failed then .failed else .down, cause := cause, enterTick := c.tick, enterPcs := q.pcs,
    lanes := 0, locked := 0, recSeen := false, acked := false, resumeAck := false, kept := [], resend := [],
    own := none, withdrawn := none, ctrlTx := [], queue := [], cur := [[], [], [], []],
    curMsg := [none, none, none, none], rx := [[], [], [], []], rxCells := [[], [], [], []],
    rxMode := List.replicate 4 .whole, rxWait := [[], [], [], []], rxFlits := [0, 0, 0, 0], nakPending := false, sendNak := false, keys := none, nextKeys := none, laterKeys := none,
    headTag := List.replicate 8 false
    inbox := q.inbox.filterMap InMsg.stays }
  let c := (c.setPort p q').stripCred p
  let c := { c with gtx := { c.gtx with cuts := c.gtx.cuts ++ q.cutMsgs p } }
  let lost := q.inbox.filterMap InMsg.lost
  let c := ((c.releaseCells q.rxCells.flatten).releaseCells lost.flatten).bump .swcCtTrunc (portDie p) [] lost.length
  let c := c.releaseCells (held.map fun m => m.cells ++ m.xcells).flatten
  let c := held.foldl (fun c m => c.freeCred (dropCred p m.cred)) c
  let c := if failed then (c.portBump .lnkFail p).linkEvent Ev.linkFailed p else c
  let c := if enc then c.fwEvent Ev.keyNeeded none 0 0 else c
  let out := c.gtx.devReqs.filter fun d => d.port == some p && !unsent.contains d.id
  let c := queued.foldl (fun c m => c.moveMsg p m) c
  let c := ((List.range 8).foldl (fun c k => c.idleChildren p k) c).idleSnoops p
  if again then out.foldl (fun c d => c.reissueOn d p) c else c

/-- Enter FAILED. -/
def Chip.portFailed (c : Chip) (p cause : Nat) : Chip := c.portGone p true cause

/-- Equal ranks (R330): RANK_EQUAL, and FAILED unless the port is in TEST, where training goes on. -/
def Chip.rankEqual (c : Chip) (p : Nat) : Chip :=
  let c := (c.modPort p fun q => { q with cause := 8 }).linkEvent Ev.rankEqual p
  if (c.port p).st = .test then c else c.portFailed p 8

/-- Enter DOWN, with GOING_DOWN sent first from a port that carries messages (R335). -/
def Chip.portDown (c : Chip) (p : Nat) : Chip :=
  let q := c.port p
  if q.st = .down then c
  else
    let c := if c.usable p then
        (c.modPort p fun q => { q with
          lastTx := q.flitBytes { ftype := 2, seq := q.txSeq } (ctrlBytes 6 (c.ctrlBody p q.lanes q.width 0)) }).portBump
          .lnkFlitsTx p
      else c
    c.portGone p false 10

/-- The configured enables let the port leave DOWN (R316); in DEAD the ports stay DOWN (R439). -/
def Chip.linkOn (c : Chip) (p : Nat) : Bool :=
  bit (c.portReg .lnkPortCfg p) 31 && c.enabled 2 (portDie p) && c.portExists p && c.boot.state != .dead

/-! ### Retrain requests (R329-R331) -/

/-- Start a request of our own and send it. -/
def Chip.startReq (c : Chip) (p : Nat) (o : OwnReq) : Chip :=
  let q := c.port p
  if !c.usable p || q.own.isSome then c
  else
    let id := q.nextReqId
    let o := { o with reqId := id }
    (c.modPort p fun q => { q with own := some o, nextReqId := (id + 1) % 65536, lastCtrl := q.pcs }).sendCtrl
      p o.ctype o.lanes o.width id

/-- Enter RETRAIN at once: the request that says so stands until it is answered, and is sent again every 256
cycles (R322, R329). -/
def Chip.retrainNow (c : Chip) (p cause : Nat) : Chip :=
  let q := c.port p
  let c := c.startReq p { ctype := 3, lanes := q.lanes, width := q.width, cause := cause }
  let own := (c.port p).own
  (c.enterRetrain p cause q.lanes).modPort p fun q => { q with own := own }

/-- Lane set left when the set of R313 that holds the worst lane is dropped: the lane with the most
corrected symbols, the highest-numbered among equals (R328). -/
def worstDropped (lanes : Nat) (syms : List Nat) : Nat :=
  let mine := [3, 2, 1, 0].filter fun i => bit lanes i
  let worst := (minBy? (fun i => 2 ^ 64 - syms.getD i 0) mine).getD 0
  if lanes = 0xF then (if worst < 2 then 0xC else 0x3)
  else if lanes = 0x3 ∨ lanes = 0xC then lanes ^^^ 2 ^ worst
  else 0

/-- A threshold is reached: the first time retrain at the present width, again in the window narrow. -/
def Chip.threshold (c : Chip) (p cause : Nat) (again : Bool) : Chip :=
  let q := c.port p
  if again then
    let keep := worstDropped q.lanes q.laneSyms
    match bestSet keep with
    | none => c.portFailed p 11
    | some s =>
      if s.2 < c.minWidth p then c.portFailed p 11
      else c.startReq p { ctype := 4, lanes := s.1, width := s.2, cause := cause }
  else c.startReq p { ctype := 3, lanes := q.lanes, width := q.width, cause := cause }

/-- One replay happened (R326-R328). -/
def Chip.countReplay (c : Chip) (p : Nat) : Chip :=
  let win := b2n (c.usable p)
  let c := (c.portBump .lnkReplay p).modPort p fun q => { q with
    replaysRow := q.replaysRow + 1, winReplays := q.winReplays + win }
  let q := c.port p
  if !c.usable p then c
  else if c.replayMax p ≤ q.replaysRow then (c.modPort p fun q => { q with replaysRow := 0 }).retrainNow p 4
  else if q.winReplays = c.replayThr p then
    (c.modPort p fun q => { q with hitReplay := true }).threshold p 2 q.hitReplay
  else c

/-- Resend every kept flit (R326). -/
def Chip.resendKept (c : Chip) (p : Nat) : Chip :=
  c.modPort p fun q => { q with resend := q.kept.map (·.seq), kept := q.kept.map fun k => { k with sentAt := q.pcs } }

/-! ### Reception (R324, R326) -/

/-- A port in TEST has trained, and its flits work as in service (R334). -/
def Chip.testUp (c : Chip) (p : Nat) : Bool := (c.port p).st = .test && (c.port p).lanes != 0

def Chip.carries (c : Chip) (p : Nat) : Bool := c.usable p || (c.port p).st = .retrain || c.testUp p

/-- ACK of a good flit. -/
def Port.takeAck (q : Port) (a : Nat) : Port :=
  let left := q.kept.filter fun k => decide (0x800 ≤ (a + 4096 - k.seq) % 4096)
  let q' := { q with kept := left, resend := q.resend.filter fun s => left.any fun k => k.seq == s }
  if left.length < q.kept.length then { q' with replaysRow := 0 } else q'

/-- CCUM of a good flit. -/
def Port.takeCcum (q : Port) (vc v : Nat) : Port :=
  let g := q.granted.getD vc 0
  let d := (v + 65536 - g) % 65536
  if d ≠ 0 ∧ d < 0x8000 then
    { q with granted := q.granted.set vc v, credSince := q.credSince.set vc q.pcs }
  else q

/-- A flit is counted, in the error window too. -/
def Chip.countFlit (c : Chip) (p : Nat) : Chip :=
  let c := c.portBump .lnkFlitsRx p
  if c.usable p then c.modPort p fun q => { q with winFlits := q.winFlits + 1 } else c

/-- The ACK and the credits of a header. -/
def Port.takeHdr (h : FlitHdr) (q : Port) : Port := (q.takeAck h.ack).takeCcum (h.cvc % 4) (h.ccum % 65536)

/-- The ACK and the credits of a header, and the resend of R327 that its first ACK starts. -/
def Chip.takeHdr (c : Chip) (p : Nat) (h : FlitHdr) : Chip :=
  let c := c.modPort p (Port.takeHdr h)
  if (c.port p).resumeAck && c.usable p then (c.modPort p fun q => { q with resumeAck := false }).resendKept p else c

/-- A flit with a good CRC arrives: counts, ACK, credits, the resend of R327, and a NAK; nothing is replayed in
RETRAIN (R332). -/
def Chip.rxHdr (c : Chip) (p : Nat) (h : FlitHdr) : Chip :=
  if (c.port p).st = .down || (c.port p).st = .failed then c
  else
    let c := c.countFlit p
    if !c.carries p then c
    else
      let c := c.takeHdr p h
      if h.nak && (c.port p).st != .retrain then (c.resendKept p).countReplay p else c

/-- A flit is discarded for its CRC or tag: NAK once (R326). Before the link is up it is only counted. -/
def Chip.rxBad (c : Chip) (p : Nat) : Chip :=
  if (c.port p).st = .down || (c.port p).st = .failed then c
  else
    let c := c.portBump .lnkCrcErr p
    if !c.carries p then c
    else c.modPort p fun q => if q.nakPending then q else { q with nakPending := true, sendNak := true }

/-- Request opcodes of R279. -/
def knownReq (opc : Nat) : Bool := decide (1 ≤ opc) && decide (opc ≤ 12)

/-- The message has the format of a request: any on VC0 and VC1, and one with a request's opcode on a wrong
channel (R279). -/
def reqMsg (vc : Nat) (b : Bytes) : Bool := decide (vc ≤ 1) || knownReq (fieldB b 0 1)

/-- Bytes of the message that starts at the head of a channel's stream; none while its header is
not complete. -/
def msgLen (vc : Nat) (b : Bytes) : Option Nat :=
  if reqMsg vc b then (if b.length < 32 then none else some (32 + fieldB b 0x10 2))
  else if b.length < 16 then none
  else if vc = 2 then some 16
  else some (16 + fieldB b 8 2)

/-- The request of `n` bytes that begins with `b`, its payload filled with zeros as far as it has not come. -/
def reqSoFar (b : Bytes) (n : Nat) : Req := unpackReq (b ++ zerosB (n - b.length))

/-- News to a request that has been handed over: the payload that has arrived, and the flits of a whole message. -/
def Chip.cutNews (c : Chip) (m : CutMsg) : Chip := { c with gtx := { c.gtx with cuts := c.gtx.cuts ++ [m] } }

/-- A message that was handed over goes on arriving: `n` bytes in all, of which `b` have come; `flits` of a whole one. -/
def Chip.feedMsg (c : Chip) (p vc n : Nat) (b : Bytes) (flits : Option Nat) : Chip :=
  match (c.port p).rxMode.getD vc .whole with
  | .whole => c
  | .handed => c.modPort p fun q => { q with inbox := q.inbox.map fun m => match m with
      | .cut v r cells g =>
        if v ≠ vc then .cut v r cells g
        else match flits with
          | some k => .req vc (reqSoFar b n) cells k
          | none => .cut vc (reqSoFar b n) cells (b.length - 32)
      | m => m }
  | .fed id =>
    if flits.isSome || (b.length - 32) % 256 == 0 then
      c.cutNews { id := id, port := p, vc := vc, bytes := b.drop 32, whole := flits }
    else c

/-- A channel's message has ended: the next one begins. -/
def Port.nextMsg (q : Port) (vc : Nat) : Port :=
  { q with rx := q.rx.set vc [], rxCells := q.rxCells.set vc [], rxMode := q.rxMode.set vc .whole, rxFlits := q.rxFlits.set vc 0 }

/-- The last byte of a message has arrived: it waits for its own step, or, where no row is its own, for
`Chip.strays`. -/
def Chip.deliverMsg (c : Chip) (p vc : Nat) (b : Bytes) : Chip :=
  let q := c.port p
  let cells := q.rxCells.getD vc []
  let n := q.rxFlits.getD vc 0
  let wait (m : InMsg) : Chip := c.setPort p { q.nextMsg vc with inbox := q.inbox ++ [m] }
  if q.rxMode.getD vc .whole ≠ .whole then (c.feedMsg p vc b.length b (some n)).modPort p fun q => q.nextMsg vc
  else if reqMsg vc b then wait (.req vc (unpackReq b) cells n)
  else if fieldB b 0 1 = 0x20 ∨ fieldB b 0 1 = 0x21 then wait (.rsp (unpackRsp b) cells n)
  else if fieldB b 0 1 = 0x22 then wait (.snp (unpackSnpRsp b) cells n)
  else ((c.setPort p (q.nextMsg vc)).releaseCells cells).freeCred (some (p, vc, n))

/-- Under cut-through a BSTORE or TSTORE of more than one cell, to a partition of this module, is handed over once
its first cell is written (R353, R354); a WR or WB has one cell, and MSTORE and the others are handed over whole. -/
def Chip.handsOver (c : Chip) (p vc n : Nat) (b : Bytes) : Bool :=
  (c.port p).rxMode.getD vc .whole == .whole && decide (vc ≤ 1) && (fieldB b 0 1 == 8 || fieldB b 0 1 == 9) &&
  b.length == 288 && decide (288 < n) && bit (c.fld .swcPortCfg (portDie p) [portLocal p] 31 24) (fieldB b 1 1 % 8) &&
  match c.node (nodeOf (fieldB b 8 8)) with
  | .here _ => true
  | _ => false

/-- Hand a message of `n` bytes over, of which `b` have come. -/
def Chip.handOver (c : Chip) (p vc n : Nat) (b : Bytes) : Chip :=
  c.modPort p fun q => { q with
    rxMode := q.rxMode.set vc .handed, rxCells := q.rxCells.set vc []
    inbox := q.inbox ++ [.cut vc (reqSoFar b n) (q.rxCells.getD vc []) (b.length - 32)] }

/-- What becomes of a unit. -/
inductive RxRes where
  | taken (c : Chip)
  /-- The rest of the flit is padding. -/
  | padding
  /-- It waits for a cell or a descriptor (R351). -/
  | full

/-- Cells of the port's account that a message of `n` bytes needs once `b` of it has come: payload cells are written
as they arrive (R346), and all of them are taken when it is handed over under cut-through (notes/assumptions/146.md). -/
def Chip.rxNeed (c : Chip) (p vc n : Nat) (b : Bytes) : Nat :=
  if (c.port p).rxMode.getD vc .whole ≠ .whole then 0
  else
    let h := if reqMsg vc b then 32 else 16
    cdiv ((if c.handsOver p vc n b then n else min n b.length) - h) 256 - ((c.port p).rxCells.getD vc []).length

/-- The unit finds the cells it needs, and a message that begins a descriptor; a response or a snoop response never
waits for them (R276, R351). -/
def Chip.rxFits (c : Chip) (p vc need : Nat) (first : Bool) : Bool :=
  decide (2 ≤ vc) || (c.portFits (portDie p) (portLocal p) need && !(first && decide (65536 ≤ c.descUsed (portDie p))))

/-- One 16-byte unit of a channel's stream (R320). -/
def Chip.rxUnit (c : Chip) (p vc : Nat) (u : Bytes) : RxRes :=
  let b0 := (c.port p).rx.getD vc []
  let b := b0 ++ u
  if b0.isEmpty && fieldB u 0 1 == 0 then .padding
  else
    let need := ((msgLen vc b).map fun n => c.rxNeed p vc n b).getD 0
    if !c.rxFits p vc need b0.isEmpty then .full
    else
      let r := c.allocCells (portDie p) need (portLocal p)
      let c := r.1.modPort p fun q => { q with rx := q.rx.set vc b, rxCells := q.rxCells.set vc (q.rxCells.getD vc [] ++ r.2) }
      match msgLen vc b with
      | none => .taken c
      | some n =>
        if n ≤ b.length then .taken (c.deliverMsg p vc (b.take n))
        else if c.handsOver p vc n b then .taken (c.handOver p vc n b)
        else .taken (c.feedMsg p vc n b none)

/-- The units of one DATA flit, with those that must wait. -/
def Chip.rxUnits (c : Chip) (p vc : Nat) : List Bytes → Chip × List Bytes
  | [] => (c, [])
  | u :: t =>
    match c.rxUnit p vc u with
    | .taken c => Chip.rxUnits c p vc t
    | .padding => (c, [])
    | .full => (c, u :: t)

/-- Flits of a channel in order, until a unit must wait; one that started no message returns its credit at once. -/
def Chip.rxFlits (c : Chip) (p vc : Nat) : List Bytes → Chip
  | [] => c.modPort p fun q => { q with rxWait := q.rxWait.set vc [] }
  | f :: t =>
    let before := ((c.port p).rx.getD vc []).isEmpty
    let r := c.rxUnits p vc (chunksOf 16 15 f)
    let q := r.1.port p
    if !r.2.isEmpty then r.1.modPort p fun q => { q with rxWait := q.rxWait.set vc (r.2.flatten :: t) }
    else if before && (q.rx.getD vc []).isEmpty && q.rxFlits.getD vc 0 != 0 && t.isEmpty then
      ((r.1.freeCred (some (p, vc, q.rxFlits.getD vc 0))).modPort p fun q => { q with rxFlits := q.rxFlits.set vc 0 }).rxFlits p vc t
    else r.1.rxFlits p vc t

/-- Payload that waits at a port for cells tries again. -/
def Chip.drainRx (c : Chip) (p : Nat) : Chip :=
  (List.range 4).foldl (fun c vc =>
    if ((c.port p).rxWait.getD vc []).isEmpty then c else c.rxFlits p vc ((c.port p).rxWait.getD vc [])) c

/-! ### PRBS31 of the flit generator and checker (R334) -/

/-- One bit of x^31 + x^28 + 1. -/
def prbsBit (s : Nat) : Nat × Nat :=
  let b := (s / 2 ^ 30 + s / 2 ^ 27) % 2
  (b, s * 2 % 2 ^ 31 + b)

/-- The next byte, its first bit lowest. -/
def prbsByte (s : Nat) : Nat → Nat × Nat
  | 0 => (0, s)
  | n + 1 =>
    let r := prbsBit s
    let t := prbsByte r.2 n
    (r.1 + 2 * t.1, t.2)

def prbsBytes (s : Nat) : Nat → Bytes × Nat
  | 0 => ([], s)
  | n + 1 =>
    let r := prbsByte s 8
    let t := prbsBytes r.2 n
    (BitVec.ofNat 8 r.1 :: t.1, t.2)

/-- A delivered flit in TEST: the checker compares it. -/
def Chip.checkFlit (c : Chip) (p vc : Nat) (payload : Bytes) : Chip :=
  let r := prbsBytes (c.port p).prbsRx payload.length
  let c := c.modPort p fun q => { q with prbsRx := r.2 }
  let c := c.freeCred (some (p, vc, 1))
  if bit (c.portReg .tstFlitCfg p) 30 && c.enabled 0x15 (portDie p) then
    let c := c.portBump .tstFlitRx p
    if r.1 = payload then c else c.portBump .tstFlitErr p
  else c

/-- Additional data and nonce of an encrypted flit (R443). -/
def flitAad (seq dvc : Nat) : Bytes := natLE 2 seq ++ natLE 1 dvc
def flitNonce (dir p count : Nat) : Bytes := natLE 1 dir ++ natLE 1 p ++ zerosB 2 ++ ((natLE 8 count).reverse)

/-- Payload of a DATA flit; none when its tag fails. -/
def Port.openFlit (q : Port) (p : Nat) (f : Bytes) : Option Bytes :=
  match q.keys with
  | none => some (sliceB f 8 240)
  | some k =>
    let d := (fieldB f 1 2 % 4096 + 4096 - q.expected) % 4096
    let count := if d < 0x800 then q.rxTotal + d else q.rxTotal + d - 4096
    Config.gcmOpen k.2 (flitNonce 1 p count) (sliceB f 1 2 ++ sliceB f 7 1) (sliceB f 8 240)

/-- DATA_FLIT: the 256 bytes of a received flit. -/
def Chip.dataFlit (c : Chip) (p : Nat) (f : Bytes) : Chip :=
  if !c.portExists p || f.length != 256 then c
  else
    let isData := fieldB f 0 1 % 16 = 1
    let pl := if isData then (c.port p).openFlit p f else some []
    match fieldB f 0xF8 8 = crc64 (f.take 0xF8) && pl.isSome with
    | false => c.rxBad p
    | true =>
      let b0 := fieldB f 0 1
      let c := c.rxHdr p { cvc := bits b0 5 4, nak := bit b0 6, seq := fieldB f 1 2 % 4096, ack := fieldB f 3 2 % 4096, ccum := fieldB f 5 2 }
      let q := c.port p
      if !isData || !c.carries p then c
      else
        let d := (fieldB f 1 2 % 4096 + 4096 - q.expected) % 4096
        let vc := fieldB f 7 1 % 4
        if d = 0 then
          let c := c.setPort p { q with
            lastGood := q.expected, expected := (q.expected + 1) % 4096, nakPending := false, rxTotal := q.rxTotal + 1
            rxCount := modNth q.rxCount vc (· + 1) }
          let body := pl.getD []
          if q.st = .test then c.checkFlit p vc body
          else (c.modPort p fun q => { q with rxFlits := modNth q.rxFlits vc (· + 1) }).rxFlits p vc (q.rxWait.getD vc [] ++ [body])
        else if d < 0x800 then
          c.modPort p fun q => if q.nakPending then q else { q with nakPending := true, sendNak := true }
        else c

/-- IDLE_FLIT. -/
def Chip.idleFlit (c : Chip) (p : Nat) (h : FlitHdr) : Chip := if c.portExists p then c.rxHdr p h else c

/-! ### Training (R318) -/

/-- The port is exchanging training records. -/
def Chip.training (c : Chip) (p : Nat) : Bool :=
  let q := c.port p
  q.st = .train || q.st = .retrain || (q.st = .test && q.lanes == 0)

/-- Lanes the port offers. -/
def Port.offer (q : Port) : Nat := q.locked &&& q.keepLanes

/-- Keys let a full training go on (R442). -/
def Chip.keysOk (c : Chip) (p : Nat) (peerEnc : Bool) : Bool :=
  (c.port p).st = .retrain || !c.authEnc p || ((c.port p).nextKeys.isSome && peerEnc)

/-- A training record or acknowledgement offers lanes and a rank: choose the width (R318 step 4). A record that
comes after the acknowledgement is acknowledged again, since that one may be lost. -/
def Chip.chooseWidth (c : Chip) (p : Nat) (b : CtrlBody) : Chip :=
  let c := c.modPort p fun q => { q with recSeen := true, peerLanes := b.lanes % 16, peerRank := b.rank, peerEnc := b.enc }
  let q := c.port p
  if q.offer = 0 then c
  else
    -- LNK_PEER_RANK holds the rank of the last training
    let same := b.rank == c.rank p
    if same && q.st != .test then c.rankEqual p
    else
      let c := if same && !q.acked then c.rankEqual p else c
      match bestSet (q.offer &&& (b.lanes % 16)) with
      | none => if q.st = .test then c else c.portFailed p 11
      | some s =>
        if s.2 < c.minWidth p ∧ q.st ≠ .test then c.portFailed p 11
        else if !c.keysOk p b.enc then c
        else (c.modPort p fun q => { q with acked := true }).sendCtrl p 2 s.1 s.2 b.reqId

/-- TRAIN_REC. -/
def Chip.trainRec (c : Chip) (p : Nat) (h : FlitHdr) (b : CtrlBody) : Chip :=
  if !c.portExists p then c
  else
    let c := c.rxHdr p h
    let q := c.port p
    if c.training p then c.chooseWidth p b
    else if (c.usable p || c.testUp p) && q.acked then c.sendCtrl p 2 q.lanes q.width b.reqId
    else c

/-- Counts, credits and replay after a full training; GRANTED takes the peer's INIT_CRED. -/
def Port.freshLink (q : Port) (w : Nat) (ic : List Nat) (keys : Option (Bytes × Bytes)) : Port :=
  { q with
    fullWidth := w, txSeq := 0, expected := 0, lastGood := 0xFFF, nakPending := false, sendNak := false
    kept := [], resend := [], replaysRow := 0, granted := (List.range 4).map fun i => ic.getD i 0 % 65536
    consumed := [0, 0, 0, 0], freed := [0, 0, 0, 0], extra := [0, 0, 0, 0], rxCount := [0, 0, 0, 0]
    rxFlits := [0, 0, 0, 0], winFlits := 0, winReplays := 0, winUnc := 0, hitReplay := false, hitUnc := false
    laneSyms := [0, 0, 0, 0], keys := keys, nextKeys := q.laterKeys, laterKeys := none, txCount := 0, rxTotal := 0 }

/-- Step 6: the training or retrain ends at the chosen lanes, which lanes lost since may have made too few. -/
def Chip.trained (c : Chip) (p : Nat) (b : CtrlBody) : Chip :=
  let q := c.port p
  match bestSet (q.offer &&& q.peerLanes) with
  | none => c
  | some s =>
    if s.2 < c.minWidth p ∧ q.st ≠ .test then c.portFailed p 11
    else
    let keys := if c.authEnc p then q.nextKeys else none
    let q1 := if q.st = .retrain then { q with winReplays := 0, winUnc := 0, resumeAck := true, replaysRow := 0 }
      else q.freshLink s.2 b.initCred keys
    let st : LinkState := if q.st = .test then .test else if s.2 = c.portWidth p then .active else .narrow
    let c := c.setPort p { q1 with
      st := st, lanes := s.1, width := s.2, enterTick := c.tick, enterPcs := q.pcs
      kept := q1.kept.map fun k => { k with sentAt := q.pcs }, own := none, credSince := [q.pcs, q.pcs, q.pcs, q.pcs], upOnce := true }
    match q.st with
    | .train =>
      let c := c.gateRestart p
      let c := c.linkEvent Ev.linkUp p
      if st = .narrow then c.linkEvent Ev.linkNarrow p else c
    | .retrain =>
      let narrowed := decide (s.2 < q.width)
      let c := if narrowed then (c.portBump .lnkNarrow p).linkEvent Ev.linkNarrow p else c
      -- a withdrawn request starts again while its reason holds (R331)
      match q.withdrawn with
      | some o =>
        let c := c.modPort p fun q => { q with withdrawn := none }
        if o.ctype = 4 ∧ o.width < s.2 then c.startReq p o else c
      | none => c
    | _ => c

/-- TRAIN_ACK: it also offers lanes, so it stands for a record that was lost. -/
def Chip.trainAck (c : Chip) (p : Nat) (h : FlitHdr) (b : CtrlBody) : Chip :=
  if !c.portExists p then c
  else
    let c := c.rxHdr p h
    if !c.training p then c
    else
      let c := if (c.port p).acked then c else c.chooseWidth p b
      if c.training p && (c.port p).acked then c.trained p b else c

/-! ### Requests from the peer (R329, R330, R335) -/

/-- Accept a request and enter RETRAIN with cause PEER. -/
def Chip.acceptReq (c : Chip) (p : Nat) (b : CtrlBody) (keep : Nat) : Chip :=
  ((c.sendCtrl p 5 (c.port p).lanes (c.port p).width b.reqId).modPort p fun q => { q with own := none }).enterRetrain p 9 keep

/-- RETRAIN_REQ or WIDTH_REQ. -/
def Chip.peerReq (c : Chip) (p : Nat) (h : FlitHdr) (b : CtrlBody) (width : Bool) : Chip :=
  if !c.portExists p then c
  else
    let c := c.rxHdr p h
    let q := c.port p
    let keep := if width then c.goodLanes p &&& (b.lanes % 16) else c.goodLanes p
    if !c.usable p && q.st != .retrain then c
    else
      match q.own with
      | none => if q.st = .retrain then c.sendCtrl p 5 q.lanes q.width b.reqId else c.acceptReq p b keep
      | some o =>
        if b.rank = c.rank p then c.rankEqual p
        else if b.rank < c.rank p then c
        else (c.modPort p fun q => { q with withdrawn := some o }).acceptReq p b keep

/-- ACCEPT. -/
def Chip.acceptFlit (c : Chip) (p : Nat) (h : FlitHdr) (b : CtrlBody) : Chip :=
  if !c.portExists p then c
  else
    let c := c.rxHdr p h
    match (c.port p).own with
    | none => c
    | some o =>
      if o.reqId = b.reqId then
        let keep := if o.ctype = 4 ∨ o.cause ≠ 10 then o.lanes else c.goodLanes p
        let late := decide ((c.port p).st = .retrain)
        (c.modPort p fun q => { q with own := none, keepLanes := if late then q.keepLanes &&& keep else q.keepLanes }).enterRetrain
          p o.cause keep
      else c

/-- GOING_DOWN. -/
def Chip.goingDown (c : Chip) (p : Nat) (h : FlitHdr) : Chip :=
  if !c.portExists p then c
  else
    let c := c.rxHdr p h
    if c.usable p || (c.port p).st = .retrain || (c.port p).st = .train then c.portFailed p 9 else c

/-- CTRL_RESEND (R322): an unanswered request, and a training record, again. -/
def Chip.ctrlResend (c : Chip) (p : Nat) : Chip :=
  let q := c.port p
  if !c.portExists p || q.pcs < q.lastCtrl + 256 then c
  else
    let c := match q.own with
      | some o =>
        if c.usable p || q.st = .retrain then
          (c.modPort p fun q => { q with lastCtrl := q.pcs }).sendCtrl p o.ctype o.lanes o.width o.reqId
        else c
      | none => c
    if c.training p && q.offer != 0 then
      let s := (bestSet q.offer).getD (0, 0)
      (c.modPort p fun q => { q with lastCtrl := q.pcs }).sendCtrl p 1 q.offer s.2 0
    else c

/-! ### Timers and errors -/

/-- ACK_TIMEOUT (R326). -/
def Chip.ackTimeout (c : Chip) (p : Nat) : Chip :=
  let q := c.port p
  if (c.usable p || c.testUp p) && q.kept.head?.any (fun k => decide (k.sentAt + c.ackTmo p ≤ q.pcs)) then
    (c.resendKept p).countReplay p
  else c

/-- FRAMING_LOCK_LOSS (R328). -/
def Chip.lockLoss (c : Chip) (p lanes : Nat) : Chip :=
  if !c.portExists p then c
  else
    let q := c.port p
    let left := q.locked &&& (0xF ^^^ (lanes % 16))
    let c := c.modPort p fun q => { q with locked := left }
    if c.usable p && (q.lanes &&& (lanes % 16)) != 0 then c.retrainNow p 1 else c

/-- FEC symbols corrected on the lanes of a port's group: the counters of R341, and in service those of the error
window (R328). -/
def Chip.laneSymbols (c : Chip) (p : Nat) (symbols : List Nat) : Chip :=
  let syms := (List.range 4).map fun i => symbols.getD i 0
  let base := portOf (portDie p) (p % 16)
  let lane (c : Chip) (k : Cnt) (i : Nat) : Chip :=
    if syms.getD i 0 = 0 then c else c.portBump k base (syms.getD i 0)
  let c := lane (lane (lane (lane c .lnkLaneSym0 0) .lnkLaneSym1 1) .lnkLaneSym2 2) .lnkLaneSym3 3
  if !c.usable p then c
  else c.modPort p fun q => { q with laneSyms := (List.range 4).map fun i => q.laneSyms.getD i 0 + syms.getD i 0 }

/-- What the FEC of a link corrected since the last tick (R341): an open number of codewords, each with up to
15 symbols, on its lanes. -/
def Chip.fecTick (c : Chip) (p : Nat) : Chip :=
  if !c.carries p then c
  else
    let n := c.draw
    let s := (List.range 4).foldl (fun (a : List Nat × Chip) i =>
      let d := a.2.draw
      (a.1 ++ [if bit (c.port p).lanes i then d.1 % (15 * n.1 + 1) else 0], d.2)) ([], n.2)
    (s.2.portBump .lnkFecCorr p n.1).laneSymbols p s.1

/-- A tick of the lines: corrected codewords, and the bits that pattern checkers compare. -/
def Chip.linesTick (c : Chip) : Chip := ((kkeys c.lnk.ports).foldl Chip.fecTick c).checkersTick

/-- FEC_UNCORRECTABLE (R328), with the symbols corrected on each lane beside those of the ticks. -/
def Chip.fecUncorrectable (c : Chip) (p : Nat) (symbols : List Nat) : Chip :=
  if !c.portExists p || (c.port p).st = .down then c
  else
    let c := (c.portBump .lnkFecUnc p).laneSymbols p symbols
    if !c.usable p then c
    else
      let c := c.modPort p fun q => { q with winUnc := q.winUnc + 1 }
      let q := c.port p
      if q.winUnc = c.uncThr p then (c.modPort p fun q => { q with hitUnc := true }).threshold p 3 q.hitUnc
      else c

/-- ERROR_WINDOW_END (R328). -/
def Chip.windowEnd (c : Chip) (p : Nat) : Chip :=
  if (c.port p).winFlits < 2 ^ 30 then c
  else c.modPort p fun q => { q with
    winFlits := q.winFlits - 2 ^ 30, winReplays := 0, winUnc := 0, hitReplay := false, hitUnc := false
    laneSyms := [0, 0, 0, 0] }

/-- LANE_LOCK: a lane of the group locks. -/
def Chip.laneLock (c : Chip) (p lane : Nat) : Chip :=
  if c.portExists p && bit (c.goodLanes p) lane && (c.port p).st != .down && (c.port p).st != .failed then
    c.modPort p fun q => { q with locked := q.locked ||| 2 ^ lane }
  else c

/-- CREDIT_TIMEOUT (R325). -/
def Chip.creditTimeout (c : Chip) (p vc : Nat) : Chip :=
  let q := c.port p
  if c.usable p && decide (vc < 4) && q.avail vc == 0 && decide (q.credSince.getD vc 0 + c.credTmo p ≤ q.pcs) then
    let c := c.modPort p fun q => { q with cause := 5 }
    ((c.portBump .lnkCredTmo p).linkEvent Ev.credTimeout p).portFailed p 5
  else c

/-- TRAIN_TIMEOUT. -/
def Chip.trainTimeout (c : Chip) (p : Nat) : Chip :=
  let q := c.port p
  if q.st = .train && c.due q.enterTick (max 1 (c.fld .lnkGlb (portDie p) [] 31 16) * 1000) then c.portFailed p 6 else c

/-- RETRAIN_TIMEOUT. -/
def Chip.retrainTimeout (c : Chip) (p : Nat) : Chip :=
  let q := c.port p
  if q.st = .retrain && decide (q.enterPcs + c.retrainTmo p ≤ q.pcs) then c.portFailed p 7 else c

/-- AUTO_RESTART. -/
def Chip.autoRestart (c : Chip) (p : Nat) : Chip :=
  let q := c.port p
  if q.st = .failed && c.linkOn p && bit (c.portReg .lnkPortCfg p) 30 &&
      c.due q.enterTick (max 1 (c.fld .lnkGlb (portDie p) [] 15 0) * 1000) then
    c.startTrain p .train
  else c

/-! ### Commands of LNK_PORT_CMD (R338) -/

/-- A command not allowed in the present state. -/
def Chip.cmdIgnored (c : Chip) (p : Nat) : Chip :=
  c.ignored ((Reg.lnkPortCmd).addr (portDie p) [portLocal p])

def Chip.cmdRestart (c : Chip) (p : Nat) : Chip :=
  if c.linkOn p && (c.port p).st = .failed then c.startTrain p .train else c.cmdIgnored p

def Chip.cmdRetrain (c : Chip) (p : Nat) : Chip :=
  let q := c.port p
  if c.portExists p && c.usable p then c.startReq p { ctype := 3, lanes := q.lanes, width := q.width, cause := 10 }
  else c.cmdIgnored p

/-- NARROW (R313): `lanes` is the set to keep. -/
def Chip.cmdNarrow (c : Chip) (p lanes : Nat) : Chip :=
  let q := c.port p
  match laneSets.find? fun s => s.1 == lanes with
  | none => c.cmdIgnored p
  | some s =>
    if c.portExists p && c.usable p && s.1 &&& q.lanes == s.1 && decide (s.2 < q.width) then
      if s.2 < c.minWidth p then (c.modPort p fun q => { q with cause := 11 }).portFailed p 11
      else c.startReq p { ctype := 4, lanes := s.1, width := s.2, cause := 10 }
    else c.cmdIgnored p

def Chip.cmdDown (c : Chip) (p : Nat) : Chip :=
  if c.portExists p && (c.port p).st != .down then c.portDown p else c.cmdIgnored p

def Chip.cmdTestEnter (c : Chip) (p : Nat) : Chip :=
  if c.portExists p && c.enabled 2 (portDie p) && c.boot.state != .dead && ((c.port p).st = .down || (c.port p).st = .failed) then
    c.startTrain p .test
  else c.cmdIgnored p

def Chip.cmdTestExit (c : Chip) (p : Nat) : Chip :=
  if c.portExists p && (c.port p).st = .test then c.portDown p else c.cmdIgnored p

/-- R316's first row: a port that is DOWN and enabled trains. -/
def Chip.leaveDown (c : Chip) (p : Nat) : Chip :=
  if c.linkOn p && (c.port p).st == .down then c.startTrain p .train else c

/-- A write of LNK_PORT_CFG (R337); `v` has its read-only bits cleared. -/
def Chip.writePortCfg (c : Chip) (p v : Nat) : Chip :=
  let old := c.portReg .lnkPortCfg p
  let v := if 64 ≤ p then putBits v 29 28 0 else v
  let group := [p % 64, p % 64 + 64, p % 64 + 128, p % 64 + 192]
  let idle (x : Nat) : Bool := (c.port x).st = .down || (c.port x).st = .failed
  let split := bits v 29 28 != bits old 29 28
  if (putBits v 31 31 0 != putBits old 31 31 0 && !idle p) || (split && !group.all idle) then
    c.ignored ((Reg.lnkPortCfg).addr (portDie p) [portLocal p])
  else
    let c := c.setReg .lnkPortCfg (portDie p) [portLocal p] v
    -- ports that the new split does not create are gone
    let c := if split then
        ((group.filter fun x => !c.portExists x).foldl (fun c x => c.portDown x) c).dropLocks
      else c
    let c := (group.filter fun x => x != p && split).foldl (fun c x => c.leaveDown x) c
    -- EN written 0
    if bit v 31 then c.leaveDown p else if c.portExists p then c.portDown p else c

/-- The write rule of R337 for LNK_PORT_TMO and LNK_PORT_ERR_THR. -/
def Chip.writePortTmo (c : Chip) (r : Reg) (p v : Nat) : Chip :=
  if v != c.portReg r p && (c.port p).st != .down && (c.port p).st != .failed then
    c.ignored (r.addr (portDie p) [portLocal p])
  else c.setReg r (portDie p) [portLocal p] v

/-- LNK_CTRL.ENABLE of a die has been written. -/
def Chip.linkDieEnable (c : Chip) (die : Nat) (on : Bool) : Chip :=
  (List.range 64).foldl (fun c j =>
    let p := portOf die j
    if !c.portExists p then c else if on then c.leaveDown p else c.portDown p) c

/-! ### FLIT_SEND (R321) -/

/-- The port's flit time passes, and `b` is on its wires. -/
def Chip.onWire (c : Chip) (p : Nat) (b : Bytes) : Chip :=
  (c.portBump .lnkFlitsTx p).modPort p fun q => { q with
    lastTx := b, cvc := (q.cvc + 1) % 4, sendNak := false, pcs := q.pcs + flitCycles q.width }

/-- Further credits of R323: an open number of them, while common cells, the port account's cap and free descriptors
allow (R346, R348, R351). -/
def Chip.grantExtra (c : Chip) (p : Nat) : Chip :=
  let q := c.port p
  let vc := q.cvc
  let granted := (initCredits q.fullWidth).getD vc 0 + q.freed.getD vc 0 + q.extra.getD vc 0
  let outst := (granted + 65536 - q.rxCount.getD vc 0 % 65536) % 65536
  let die := portDie p
  let j := portLocal p
  let cap := c.portGuarantee die j + c.portMax die j - c.heldCells die j
  let room := min (min (8192 - outst) cap) (min (c.commonFree die) (65536 - c.descUsed die))
  if room = 0 || !c.usable p then c
  else
    let r := c.draw
    r.2.modPort p fun q => { q with extra := modNth q.extra vc (fun x => (x + r.1 % (room + 1)) % 65536) }

/-- Put one DATA flit of new payload on the wire (R324, R326, R443). -/
def Chip.sendData (c : Chip) (p vc : Nat) (payload : Bytes) : Chip :=
  let q := c.port p
  let body := match q.keys with
    | none => payload ++ zerosB (240 - payload.length)
    | some k => Config.gcmSeal k.1 (flitNonce 0 p q.txCount) (flitAad q.txSeq vc)
        (payload ++ zerosB (224 - payload.length))
  let flit := q.flitBytes { ftype := 1, seq := q.txSeq, dvc := vc } body
  let used := (q.consumed.getD vc 0 + 1) % 65536
  let q' := { q with
    txSeq := (q.txSeq + 1) % 4096, txCount := q.txCount + 1, consumed := q.consumed.set vc used
    kept := q.kept ++ [{ seq := q.txSeq, dvc := vc, payload := body, sentAt := q.pcs }] }
  let q' := if q'.avail vc = 0 then { q' with credSince := q'.credSince.set vc q.pcs } else q'
  (c.setPort p q').onWire p flit

/-- Send the next flit of the message in progress on a channel; its last flit releases its cells. -/
def Chip.sendCur (c : Chip) (p vc : Nat) : Chip :=
  let q := c.port p
  let b := q.cur.getD vc []
  let n := 16 * q.unitsPer
  let c := c.sendData p vc (b.take n)
  if b.length ≤ n then
    let m := (q.curMsg.getD vc none).getD {}
    let c := c.modPort p fun q => { q with cur := q.cur.set vc [], curMsg := q.curMsg.set vc none }
    (c.releaseCells (m.cells ++ m.xcells)).freeCred m.cred
  else c.modPort p fun q => { q with cur := q.cur.set vc (b.drop n) }

/-- An IDLE flit. -/
def Chip.sendIdle (c : Chip) (p : Nat) : Chip :=
  let q := c.port p
  c.onWire p (q.flitBytes { ftype := 0, seq := q.txSeq } [])

/-- A kept flit goes out again, with a new header and CRC (R324, R326). -/
def Chip.sendAgain (c : Chip) (p s : Nat) (rest : List Nat) : Chip :=
  let c := c.modPort p fun q => { q with
    resend := rest, kept := modFirst (fun k => k.seq == s) (fun k => { k with sentAt := q.pcs }) q.kept }
  match (c.port p).kept.find? fun k => k.seq == s with
  | some k => c.onWire p ((c.port p).flitBytes { ftype := 1, seq := k.seq, dvc := k.dvc } k.payload)
  | none => c.sendIdle p

/-- VC2 or VC3 may send: a message is in progress, or one can come to the port, with a credit. -/
def Chip.lowReady (c : Chip) (p vc : Nat) : Bool :=
  let q := c.port p
  decide (q.avail vc ≠ 0) && (!(q.cur.getD vc []).isEmpty || q.queue.any fun m => m.vc == vc && c.crossFits p m)

/-- Start the next message of VC2 or VC3 that can, unless one is in progress, and send its next flit. -/
def Chip.sendLow (c : Chip) (p vc : Nat) : Chip :=
  let q := c.port p
  if !(q.cur.getD vc []).isEmpty then c.sendCur p vc
  else
    match c.pickLow p vc with
    | none => c.sendIdle p
    | some (i, c) =>
      match (c.port p).queue[i]? with
      | none => c.sendIdle p
      | some m =>
        let x := c.crossTo p m
        ((x.1.setPort p { q with
          queue := q.queue.eraseIdx i
          cur := q.cur.set vc (m.bytes ++ zerosB (16 * units m.bytes.length - m.bytes.length))
          curMsg := q.curMsg.set vc (some x.2) }).idleSnoops p).sendCur p vc

/-- Snoops and responses leave while the die's switch core moves messages (R369); in fixed-slot mode only in the
guard band of the running entry (R385). -/
def Chip.lowAllowed (c : Chip) (p : Nat) : Bool :=
  c.enabled 4 (portDie p) && (!c.fixedSlot p || decide (c.entryLeft p ≤ c.guardBand p ((lowBit? 8 (c.gateNow p).1).getD 0)))

/-- The channel in progress among VC0 and VC1. -/
def Port.highCur (q : Port) : Option Nat := [0, 1].find? fun v => !(q.cur.getD v []).isEmpty

/-- What an ACTIVE or NARROW port sends next (R321, R377, R382); after a retrain nothing but IDLE flits until the
peer's first ACK (R327). -/
def Chip.sendNext (c : Chip) (p : Nat) : Chip :=
  let q := c.port p
  let seqs := if q.resumeAck then [] else q.resend
  match seqs with
  | s :: t => c.sendAgain p s t
  | [] =>
    if q.resumeAck || c.replayRoom p ≤ q.kept.length then c.sendIdle p
    else
      match q.highCur, c.gated p with
      | some v, true => if q.avail v = 0 then c.sendIdle p else c.sendCur p v
      | cur, _ =>
        if c.lowAllowed p && c.lowReady p 3 then c.sendLow p 3
        else if c.lowAllowed p && c.lowReady p 2 then c.sendLow p 2
        else
          match cur with
          | some v => if q.avail v = 0 then c.sendIdle p else c.sendCur p v
          | none =>
            let c := c.wakeClasses p
            match c.pickClass p with
            | none => c.sendIdle p
            | some k =>
              let c := c.startMsg p k
              match (c.port p).highCur with
              | some v => c.sendCur p v
              | none => c.sendIdle p

/-- What a port in TEST sends once it has trained (R334). -/
def Chip.sendTest (c : Chip) (p : Nat) : Chip :=
  let q := c.port p
  let w := c.portReg .tstFlitCfg p
  let vc := bits w 29 28
  match q.resend with
  | s :: t => c.sendAgain p s t
  | [] =>
    if bit w 31 && c.enabled 0x15 (portDie p) && decide (q.avail vc ≠ 0) && decide (q.kept.length < c.replayRoom p) then
      let r := prbsBytes q.prbsTx (16 * q.unitsPer)
      ((c.modPort p fun q => { q with prbsTx := r.2 }).sendData p vc r.1).portBump .tstFlitTx p
    else c.sendIdle p

/-- FLIT_SEND: one flit time of a port. A port that a command has put DOWN and whose enables stand leaves
DOWN at its next flit time (R316; notes/assumptions/70.md). -/
def Chip.flitSend (c : Chip) (p : Nat) : Chip :=
  let q := c.port p
  if !c.portExists p || q.st = .failed then c
  else if q.st = .down then c.leaveDown p
  else
    match q.ctrlTx with
    | (t, b) :: rest =>
      (c.modPort p fun q => { q with ctrlTx := rest }).onWire p
        (q.flitBytes { ftype := 2, seq := q.txSeq } (ctrlBytes t b))
    | [] =>
      if c.training p then
        if q.offer != 0 && (q.lastCtrl = 0 || decide (q.lastCtrl + 256 ≤ q.pcs)) then
          let s := (bestSet q.offer).getD (0, 0)
          let c := match q.own with
            | some o => if q.lastCtrl = 0 then c else c.sendCtrl p o.ctype o.lanes o.width o.reqId
            | none => c
          (c.modPort p fun q => { q with lastCtrl := max 1 q.pcs }).onWire p
            (q.flitBytes { ftype := 2, seq := q.txSeq } (ctrlBytes 1 (c.ctrlBody p q.offer s.2 0)))
        else c.modPort p fun q => { q with pcs := q.pcs + flitCycles q.width }
      else
        let c := (c.drainRx p).grantExtra p
        if q.st = .test then c.sendTest p else (c.sendNext p).idleV p

end Sys2Proof.Machine
end

