-- ==== Sys2Proof/Machine/Sessions.lean ====
section
/-! DEFINITION. Certificates and signatures (R425-R429), protected records (R517, R518), and what
every Rinlidal command shares: roles, replies, the reply cache (R522-R528). -/

namespace Sys2Proof.Machine

/-! ### Signatures and certificates -/

/-- Length of an LMS signature of a tree of height 5, 10, 15, 20 or 25 (R426). -/
def lmsLenOk (n : Nat) : Bool := [5, 10, 15, 20, 25].any fun h => n == 2188 + 32 * h

/-- Both signatures over one digest verify (R426). -/
def dualOk (ec lms digest sigEc sigLms : Bytes) : Bool :=
  lmsLenOk sigLms.length && Config.ecdsaVerify ec digest sigEc && Config.lmsVerify lms digest sigLms

/-- A vendor root entry under which both signatures verify (R427). -/
def vendorRoot? (digest sigEc sigLms : Bytes) : Option Nat :=
  [0, 1].find? fun r => dualOk (Config.vendorEc r) (Config.vendorLms r) digest sigEc sigLms

/-- Length of a certificate that begins at the front of `b` (R428). -/
def certLen (b : Bytes) : Nat := 0x110 + fieldB b 0xAC 2
def certEc (b : Bytes) : Bytes := sliceB b 0x10 97
def certLms (b : Bytes) : Bytes := sliceB b 0x74 56
def certRole (b : Bytes) : Nat := fieldB b 5 1
def certPart (b : Bytes) : Nat := fieldB b 6 1 % 64
def certDigest (b : Bytes) : Bytes := Config.sha384 (b.take 0xB0)
def certSigEc (b : Bytes) : Bytes := sliceB b 0xB0 96
def certSigLms (b : Bytes) : Bytes := b.drop 0x110

/-- MAGIC, VER and length of a certificate. -/
def certShape (b : Bytes) : Bool :=
  fieldB b 0 4 == 0x31545243 && fieldB b 4 1 == 1 && decide (0x110 ≤ b.length) && b.length == certLen b

/-- SERIAL_BIND names this device or any device (R428). -/
def certBound (b : Bytes) (serial : Nat) : Bool :=
  let n := fieldB b 8 7
  n == 0 || n == serial

/-- Signatures of a certificate under the keys of its issuer. -/
def certSigned (issuer b : Bytes) : Bool :=
  dualOk (certEc issuer) (certLms issuer) (certDigest b) (certSigEc b) (certSigLms b)

/-- An item that fails its dual signature: counted, and AUTH_FAIL to firmware (R426). -/
def Chip.sigFail (c : Chip) : Chip := (c.bump .secSigFail 12).raise Ev.authFail []

/-- A leaf certificate of a role, issued by the OWNER of the verified image (R427, R429). -/
def Chip.certOk (c : Chip) (role : Nat) (b : Bytes) : Bool :=
  certShape b && certRole b == role && certBound b c.boot.image.serial &&
  certSigned c.boot.image.ownerCert b

/-- Serial of a public key: the first 7 bytes of its digest, big-endian (R425). -/
def serialOf (pub : Bytes) : Nat := beNat ((Config.sha384 pub).take 7)

/-- Both signatures of a device certificate verify under one vendor root entry (R427, R493). -/
def devCertSigned (signed sigs : Bytes) : Bool :=
  (vendorRoot? (Config.sha384 signed) (sigs.take 96) (sigs.drop 96)).isSome

/-- A device certificate (R493): its form, both signatures, and its serial. -/
def devCertOk (signed sigs : Bytes) : Bool :=
  signed.length == 0x130 && fieldB signed 0 4 == 0x31564544 && fieldB signed 4 1 == 1 &&
  decide (96 ≤ sigs.length) && sigs.length == 96 + fieldB signed 0x128 2 &&
  devCertSigned signed sigs &&
  serialOf (sliceB signed 0x10 97) == fieldB signed 8 7

/-- `n` random bytes. -/
def Chip.rngBytes (c : Chip) (n : Nat) : Bytes × Chip :=
  let r := c.drawRng
  (bytesOf n r.1, r.2)

/-- An identity-key signature over a digest, with a fresh k (R429). -/
def Chip.idSign (c : Chip) (digest : Bytes) : Bytes × Chip :=
  let r := c.drawRng
  (Config.ecdsaSign c.sec.idKey digest r.1, r.2)

/-! ### Protected records -/

/-- Record keys of a session (R517): initiator to responder, and back. -/
def sessionKeys (priv pub nonceI nonceR : Bytes) : Bytes × Bytes :=
  let z := Config.ecdh priv pub
  let salt := nonceI ++ nonceR
  (Config.hkdf z salt (ascii "rinlidal-i2r"), Config.hkdf z salt (ascii "rinlidal-r2i"))

/-- Plaintext of a protected record that arrived under a key; `fromInit`: the initiator sent it. -/
def openRec (key : Bytes) (fromInit : Bool) (type : Nat) (r : Record) : Option Bytes :=
  Config.gcmOpen key (recNonce fromInit r.seq) (recHeader type r.body.length r.session r.seq) r.body

/-- The session a record belongs to, with its plaintext (R518). Sessions that the device opened
have their number above 2^32, so that two responders may give the same number. -/
def Chip.openAny (c : Chip) (type : Nat) (r : Record) : Option (Session × Bytes) :=
  c.mgt.sessions.findSome? fun s =>
    if s.id % 2 ^ 32 = r.session then (openRec s.keyRx (!s.init) type r).map fun b => (s, b) else none

/-- SEQ has not been accepted and is no more than 63 below the highest accepted (R518). -/
def Session.fresh (s : Session) (seq : Nat) : Bool :=
  decide (1 ≤ seq) && decide (s.rxHigh ≤ seq + 63) && !s.rxSeen.contains seq

/-- Accept a SEQ. -/
def Session.accept (s : Session) (seq tick : Nat) : Session :=
  let hi := max s.rxHigh seq
  { s with rxHigh := hi, lastRx := tick,
           rxSeen := (seq :: s.rxSeen).filter fun n => decide (hi ≤ n + 63) }

/-! ### Commands (R522-R528) -/

/-- How a command ends its own step. -/
inductive CmdRes where
  /-- Completed, with STATUS, DETAIL and response body. -/
  | done (c : Chip) (status detail : Nat) (body : Bytes)
  /-- Goes on running; `arg` names what it waits for. -/
  | run (c : Chip) (arg : Nat)

/-- A command completes: counted when performed, answered, and kept in the reply cache of 256
(R528). The response of a session that has ended is dropped (R521); BUSY is not a completion. -/
def Chip.finishCmd (c : Chip) (id reqId opc status detail : Nat) (body : Bytes) : Chip :=
  let c := c.when (status == 0) fun c => c.bump .mgtCmds 12
  let c := c.modSession id fun s => { s with
    running := s.running.filter (fun r => r.reqId != reqId),
    cache := if status = 1 then s.cache
      else ((reqId, opc, status, detail, body) :: s.cache).take 256 }
  c.sendResponse id reqId opc status detail body false

/-- A running command (session, REQ_ID) completes; nothing when it is not running any more. -/
def Chip.endCmd (c : Chip) (cmd : Nat × Nat) (status detail : Nat) (body : Bytes := []) : Chip :=
  match c.session? cmd.1 with
  | none => c.when (status == 0) fun c => c.bump .mgtCmds 12
  | some s =>
    match s.running.find? fun r => r.reqId == cmd.2 with
    | none => c
    | some r => c.finishCmd cmd.1 cmd.2 r.opc status detail body

/-- Complete every running command of an opcode and argument. -/
def Chip.endCmds (c : Chip) (opc arg status detail : Nat) (body : Bytes := []) : Chip :=
  let who : List (Nat × Nat) := c.mgt.sessions.flatMap fun s =>
    (s.running.filter fun r => r.opc == opc && r.arg == arg).map fun r => (s.id, r.reqId)
  who.foldl (fun c k => c.endCmd k status detail body) c

/-- Bytes `off` to `off + len - 1` are zero. -/
def zeroAt (b : Bytes) (off len : Nat) : Bool := (sliceB b off len).all fun x => x == 0

/-- Length of a request body and its reserved bytes (R525, R557): opcode, bytes, reserved ranges. -/
def bodyForms : List (Nat × Nat × List (Nat × Nat)) :=
  [(0x0001, 0, []), (0x0002, 0, []), (0x0003, 0, []), (0x0004, 0, []), (0x0005, 0, []),
   (0x0101, 48, []), (0x0102, 0, []), (0x0201, 8, []), (0x0203, 4, []), (0x0205, 4, []),
   (0x0206, 4, []), (0x0208, 4, []), (0x0301, 12, []), (0x0302, 16, [(6, 2)]), (0x0303, 4, []),
   (0x0304, 4, []), (0x0306, 8, [(6, 2)]), (0x0307, 4, []), (0x0308, 8, [(5, 3)]), (0x0309, 4, []),
   (0x0401, 32, [(1, 3)]), (0x0402, 2, []), (0x0403, 2, []), (0x0404, 8, [(5, 3)]), (0x0405, 4, []),
   (0x0407, 4, [(3, 1)]), (0x0501, 4, [(1, 1)]), (0x0502, 1, []), (0x0503, 1, []), (0x0504, 1, []),
   (0x0601, 32, [(1, 3)]), (0x0801, 0, []), (0x0802, 16, [(12, 4)]), (0x0803, 0, []),
   (0x0901, 32, [(4, 4)]), (0x0902, 1, []), (0x0903, 1, []),
   (0x0A01, 16, [(6, 2), (12, 4)]), (0x0A02, 8, [(5, 3)]), (0x0A03, 12, [(5, 3)]), (0x0A04, 4, [])]

/-- The body has the length its opcode and counts give it, and its reserved bytes are 0. -/
def bodyOk (opc : Nat) (b : Bytes) : Bool :=
  match bodyForms.find? fun f => f.1 == opc with
  | some (_, n, zs) => b.length == n && zs.all fun z => zeroAt b z.1 z.2
  | none =>
    match opc with
    | 0x0202 => decide (16 < b.length) && zeroAt b 4 4
    | 0x0204 => decide (16 ≤ b.length) && b.length == 16 + 16 * fieldB b 10 2 && zeroAt b 12 4
    | 0x0207 =>
      let k := b.drop 224
      let t := k.drop (certLen k)
      decide (0x110 ≤ k.length) && decide (104 ≤ t.length) && t.length == 104 + fieldB t 96 2 &&
      zeroAt t 98 6 && zeroAt b 4 4 && zeroAt b 0x99 7 && zeroAt b 0xAC 4
    | 0x0305 => decide (8 ≤ b.length) && b.length == 8 + 4 * fieldB b 4 1 && zeroAt b 5 3 &&
        (List.range (fieldB b 4 1)).all fun i => zeroAt b (8 + 4 * i + 3) 1
    | 0x0406 =>
      let k := b.drop 229
      decide (0x110 ≤ k.length) && k.length == certLen k && zeroAt b 3 1
    | 0x0702 => decide (8 ≤ b.length) && b.length == 8 + 16 * fieldB b 0 2 && zeroAt b 2 6
    | 0x0701 => decide (8 ≤ b.length) && b.length == 8 + 8 * fieldB b 0 2 && zeroAt b 2 6
    | 0x0703 => decide (8 ≤ b.length) && b.length == 8 + 8 * fieldB b 0 2 && zeroAt b 2 6
    | 0x0704 => decide (8 ≤ b.length) && b.length == 8 + 8 * fieldB b 0 2 && zeroAt b 2 6
    | _ => false

/-- Opcodes an agent session may use (R525). -/
def agentOpcs : List Nat :=
  [0x0001, 0x0002, 0x0101, 0x0303, 0x0304, 0x0305, 0x0306, 0x0309, 0x0701, 0x0703, 0x0704]

/-- Opcodes the owner session may use in TEST and RECOVERY (R525). -/
def quietOpcs : List Nat := [0x0001, 0x0002, 0x0005, 0x0101, 0x0102, 0x0701, 0x0703, 0x0801, 0x0802, 0x0803]

/-- Perform a command that is neither a duplicate nor one too many. -/
def Chip.performCmd (c : Chip) (s : Session) (reqId opc : Nat) (f : Chip → Session → CmdRes) : Chip :=
  let fin (st : Nat) : Chip := c.finishCmd s.id reqId opc st 0 []
  if s.kind = 1 ∧ agentOpcs.contains opc = false then fin 3
  else if s.kind = 0 ∧ (c.boot.state = .test ∨ c.boot.state = .recovery) ∧
      quietOpcs.contains opc = false then fin 2
  else
    match f c s with
    | .done c st d b => c.finishCmd s.id reqId opc st d b
    | .run c arg => c.modSession s.id fun s =>
        { s with running := s.running ++ [{ reqId := reqId, opc := opc, arg := arg }] }

/-- A duplicate of a completed or running REQ_ID is answered from the cache or with IN_PROGRESS
(R528); a session that runs 64 commands answers BUSY (R524). -/
def Chip.startCmd (c : Chip) (s : Session) (reqId opc : Nat) (f : Chip → Session → CmdRes) : Chip :=
  match s.cache.find? fun e => e.1 == reqId with
  | some (_, o, st, d, b) => c.sendResponse s.id reqId o st d b true
  | none =>
    if s.running.any (fun r => r.reqId == reqId) then c.sendResponse s.id reqId opc 9 0 [] false
    else if 64 ≤ s.running.length then c.sendResponse s.id reqId opc 1 0 [] false
    else c.performCmd s reqId opc f

/-- A command request on an owner or agent session. A request whose segments a DATA record brought
is taken in the order of their arrival (R527) when its body is `want`; one whose body has a wrong
length or a reserved byte set is answered MALFORMED. -/
def Chip.command (c : Chip) (id reqId opc : Nat) (want : Bytes) (f : Chip → Session → CmdRes) : Chip :=
  match c.session? id with
  | none => c
  | some s =>
    if s.kind = 2 then c
    else
      match s.ready with
      | [] => c.startCmd s reqId opc f
      | (r, o, b) :: t =>
        if r = reqId ∧ o = opc ∧ (b = want ∨ bodyOk opc b = false) then
          let c := c.modSession id fun s => { s with ready := t }
          let s := { s with ready := t }
          if bodyOk opc b then c.startCmd s reqId opc f
          else c.startCmd s reqId opc fun c _ => .done c 4 0 []
        else c

/-- A command for a partition on a session: an agent reaches only its own partition (R525). -/
def Session.mayTouch (s : Session) (part : Nat) : Bool := s.kind != 1 || s.part == part

end Sys2Proof.Machine
end

