-- ==== Sys2Proof/Machine/Messages.lean ====
section
/-! DEFINITION. The message engine: partition queues, MSG and MSG_ACK records of peer sessions, and
receive rings (R532-R536). -/

namespace Sys2Proof.Machine

/-- A device-initiated request record, in as many segments as its body needs. -/
def Chip.sendReq (c : Chip) (id opc reqId : Nat) (body : Bytes) : Chip :=
  match c.session? id with
  | none => c
  | some s =>
    let n := max 1 (c.maxRecBody s.addr.v6 - 16 - 16)
    let segs := chunksOf n body.length body
    (segs.zipIdx).foldl (fun c p => c.sendOn id 4 (reqHeader opc reqId p.2 segs.length p.1.length ++ p.1)) c

def Chip.peer (c : Chip) (i : Nat) : Peer := kgetD c.mgt.peers i {}

def Chip.setPeer (c : Chip) (i : Nat) (p : Peer) : Chip :=
  { c with mgt := { c.mgt with peers := kput c.mgt.peers i p } }

/-- Open session with peer-table entry `i`. -/
def Chip.peerSession? (c : Chip) (i : Nat) : Option Session :=
  c.mgt.sessions.find? fun s => s.kind == 2 && s.peer == i

/-! ### Sending (R533-R535) -/

def Chip.setQueue (c : Chip) (q : List QMsg) : Chip := { c with mgt := { c.mgt with queue := q } }

/-- Messages in a partition's queue. -/
def Chip.queued (c : Chip) (part : Nat) : List QMsg := c.mgt.queue.filter fun q => q.part == part

/-- The message as it travels: its routing header names the destination partition in PART and, in
the byte that held the sender's own peer index, the sending partition (notes/assumptions/61.md). -/
def wireMsg (q : QMsg) : Bytes := patchB q.bytes 2 (natLE 1 q.part)

/-- Send a queued message with the next MSG_ID of its peer session. -/
def Chip.sendMsg (c : Chip) (s : Session) (q : QMsg) : Chip × QMsg :=
  let id := ((c.session? s.id).getD s).msgNext
  let c := c.modSession s.id fun s => { s with msgNext := s.msgNext + 1 }
  (c.sendReq s.id 0xC101 (id % 2 ^ 32) (natLE 8 id ++ wireMsg q),
   { q with msgId := id, sess := s.id, sentAt := some c.tick })

/-- Send every message of a peer's entry that no record of its open session carries yet (R535). -/
def Chip.pumpMsgs (c : Chip) (i : Nat) : Chip :=
  match c.peerSession? i with
  | none => c
  | some s =>
    if !c.enabled 0x13 12 then c
    else
      let r := c.mgt.queue.foldl (fun (r : Chip × List QMsg) q =>
        if q.peer = i ∧ (q.sentAt = none ∨ q.sess ≠ s.id) then
          let t := r.1.sendMsg s q
          (t.1, r.2 ++ [t.2])
        else (r.1, r.2 ++ [q])) (c, [])
      r.1.setQueue r.2

/-- Put a message into a partition's queue (R287). A queue that fills raises MSG_QUEUE_FULL once. -/
def Chip.queueMsg (c : Chip) (part : Nat) (b : Bytes) : Chip :=
  let peer := fieldB b 2 1 % 16
  let c := c.setQueue (c.mgt.queue ++ [{ part := part, peer := peer, bytes := b }])
  let c := c.when ((c.queued part).length == 256) fun c => c.raise Ev.msgQueueFull []
  c.pumpMsgs peer

/-- MSG_ACK (R535). -/
def Chip.takeAck (c : Chip) (sess msgId result : Nat) : Chip :=
  match c.mgt.queue.find? fun q => q.sess == sess && q.msgId == msgId && q.sentAt.isSome with
  | none => c
  | some q =>
    if result = 0 then (c.setQueue (c.mgt.queue.erase q)).bump .mgtMsgSent 12
    else if result = 2 then (c.setQueue (c.mgt.queue.erase q)).bump .mgtMsgLost 12
    else c

/-- MSG_RESEND_TIMEOUT (R535): again with the same MSG_ID, or discarded after MSG_RETRY resends. -/
def Chip.msgResend (c : Chip) (peer msgId : Nat) : Chip :=
  match c.mgt.queue.find? fun q => q.peer == peer && q.msgId == msgId && q.sentAt.isSome with
  | none => c
  | some q =>
    if !c.enabled 0x13 12 || !c.due (q.sentAt.getD 0) (max 1 (c.fld .mgtMsgCfg 12 [] 31 16)) then c
    else if c.fld .mgtMsgCfg 12 [] 7 0 ≤ q.resends then
      (c.setQueue (c.mgt.queue.erase q)).bump .mgtMsgLost 12
    else
      let q' := { q with resends := q.resends + 1, sentAt := some c.tick }
      (c.setQueue (modFirst (fun x => decide (x = q)) (fun _ => q') c.mgt.queue)).sendReq q.sess 0xC101
        (q.msgId % 2 ^ 32) (natLE 8 q.msgId ++ wireMsg q)

/-! ### Receiving (R536) -/

/-- Answer a received message. -/
def Chip.ackMsg (c : Chip) (sess msgId result : Nat) : Chip :=
  c.sendReq sess 0xC102 0 (natLE 8 msgId ++ natLE 1 result)

def Chip.setRings (c : Chip) (r : List RingJob) : Chip := { c with mgt := { c.mgt with rings := r } }

/-- Slots of a partition's ring. -/
def Chip.ringSlots (c : Chip) (part : Nat) : Nat := 2 ^ max 1 (c.fld .mgtRxCfg 12 [part] 19 16)

/-- A request of the ring's partition on the ring's region (R435). -/
def RingJob.req (j : RingJob) (opc off : Nat) (b : Bytes) : Req :=
  { opc := opc, addr := j.addr + off, handle := j.handle, epoch := j.epoch, payload := b }

/-- Put a held MGT_RX_CFG write into effect (R542). -/
def Chip.releaseRx (c : Chip) (part : Nat) : Chip :=
  if c.mgt.rings.any (fun j => j.part == part && decide (1 ≤ j.phase)) then c
  else
    let hs := c.mgt.heldRx.filter fun h => h.1 == part
    let rest := c.mgt.heldRx.filter fun h => h.1 != part
    hs.foldl (fun c h => c.setReg .mgtRxCfg 12 [part] (putBits h.2.toNat 30 30 0))
      { c with mgt := { c.mgt with heldRx := rest } }

/-- Begin the first job of a partition that has none in progress: read PROD and CONS. A ring
without VALID, or one whose handle names no region of the partition, answers NO_RING. -/
def Chip.ringStart (c : Chip) (part fuel : Nat) : Chip :=
  match fuel with
  | 0 => c
  | fuel + 1 =>
    if c.mgt.rings.any (fun j => j.part == part && decide (1 ≤ j.phase)) then c
    else
      match c.mgt.rings.find? fun j => j.part == part with
      | none => c
      | some j =>
        let h := c.fld .mgtRxCfg 12 [part] 15 0
        match c.regionOf h, c.localNode part with
        | some s, some n =>
          let r := c.region s
          if bit (c.reg .mgtRxCfg 12 [part]) 31 && r.part == part then
            let j' := { j with
              phase := 1, handle := h, epoch := r.epoch,
              addr := n * 2 ^ 52 + r.base + c.reg .mgtRxOff 12 [part] * 4096 }
            (c.setRings (modFirst (fun x => decide (x = j)) (fun _ => j') c.mgt.rings)).issue part (.ring part)
              { j'.req opcDevRead 0 [] with opnd := 128 }
          else Chip.ringStart ((c.setRings (c.mgt.rings.erase j)).ackMsg j.sess j.msgId 2) part fuel
        | _, _ => Chip.ringStart ((c.setRings (c.mgt.rings.erase j)).ackMsg j.sess j.msgId 2) part fuel

/-- A job ends with an acknowledgement; the next one of the partition begins. -/
def Chip.ringEnd (c : Chip) (j : RingJob) (result : Nat) : Chip :=
  let c := (c.setRings (c.mgt.rings.erase j)).ackMsg j.sess j.msgId result
  let c := if result = 0 then
      (c.bump .mgtMsgRx 12).modSession j.sess fun s =>
        { s with delivered := (j.msgId :: s.delivered).take 1024 }
    else c
  (c.releaseRx j.part).ringStart j.part (c.mgt.rings.length + 1)

def Chip.setJob (c : Chip) (j j' : RingJob) : Chip :=
  c.setRings (modFirst (fun x => decide (x = j)) (fun _ => j') c.mgt.rings)

/-- An answer to a request of the ring reaches the message engine. -/
def Chip.ringAns (c : Chip) (part : Nat) (a : Ans) : Chip :=
  match c.mgt.rings.find? fun j => j.part == part && decide (1 ≤ j.phase) with
  | none => c
  | some j =>
    if a.status ≠ some 0 then c.ringEnd j 2
    else if j.phase = 1 then
      let prod := fieldB a.data 0 8
      let cons := fieldB a.data 0x40 8
      let n := c.ringSlots part
      if (prod + 2 ^ 64 - cons) % 2 ^ 64 = n then c.ringEnd j 1
      else
        let j' := { j with phase := 2, prod := prod }
        (c.setJob j j').issue part (.ring part) (j'.req 8 (0x1000 + prod % n * 4096) j.msg)
    else if j.phase = 2 then
      let j' := { j with phase := 3 }
      (c.setJob j j').issue part (.ring part) (j'.req 4 0 (natLE 8 (j.prod + 1)))
    else c.ringEnd j 0

/-- The message with its delivered routing header (R533). -/
def deliveredMsg (peer : Nat) (msg : Bytes) : Bytes :=
  natLE 1 1 ++ zerosB 1 ++ natLE 1 peer ++ natLE 1 (fieldB msg 2 1 % 64) ++ natLE 2 msg.length ++
  zerosB 2 ++ sliceB msg 8 4 ++ zerosB 4 ++ msg.drop 16

/-- A MSG record (R535, R536). -/
def Chip.takeMsg (c : Chip) (s : Session) (msgId : Nat) (msg : Bytes) : Chip :=
  if !c.enabled 0x13 12 then c
  else if s.delivered.contains msgId then (c.bump .mgtMsgDup 12).ackMsg s.id msgId 0
  else
    let part := fieldB msg 3 1 % 64
    if (kgetD c.parts part {}).st ≠ .active then c.ackMsg s.id msgId 2
    else if c.mgt.rings.any (fun j => j.sess == s.id && j.msgId == msgId) then c
    else
      let j : RingJob := { part := part, sess := s.id, msgId := msgId, msg := deliveredMsg s.peer msg }
      (c.setRings (c.mgt.rings ++ [j])).ringStart part (c.mgt.rings.length + 2)

end Sys2Proof.Machine
end

