-- ==== Sys2Proof/Machine/Handoff.lean ====
section
/-! DEFINITION. Session-state handoff: the owner's commands, the records of peer sessions, and the
states of both sides (R557-R560). -/

namespace Sys2Proof.Machine

/-- Handoffs in progress; a RELEASED sender is final. -/
def Chip.liveHandoffs (c : Chip) : List Handoff := c.mgt.handoffs.filter fun h => h.st != 6

def Chip.inHandoff (c : Chip) (obj : Nat) : Bool := c.liveHandoffs.any fun h => h.obj == obj

def Chip.setHandoffs (c : Chip) (l : List Handoff) : Chip := { c with mgt := { c.mgt with handoffs := l } }

def Chip.setHandoff (c : Chip) (h h' : Handoff) : Chip :=
  c.setHandoffs (modFirst (fun x => decide (x = h)) (fun _ => h') c.mgt.handoffs)

/-- The handoff ends; its command, if it still runs, is answered with HO_EPOCH. -/
def Chip.endHandoff (c : Chip) (h : Handoff) (status detail : Nat) : Chip :=
  let ep := if h.sender then h.epoch else h.peerEpoch
  let c := c.setHandoffs (c.mgt.handoffs.erase h)
  match h.cmd with
  | none => c
  | some k => c.endCmd k status detail (natLE 4 ep)

/-- The sender holds the state again (OWNED). -/
def Chip.handoffOwned (c : Chip) (h : Handoff) : Chip := c.endHandoff h 2 1

/-- The receiver discards the bytes and the expectation ends. -/
def Chip.handoffDiscard (c : Chip) (h : Handoff) : Chip :=
  (c.scrubExtent (c.obj h.obj)).endHandoff h 2 1

/-! ### Records -/

/-- Send a handoff record on the peer's open session, if there is one. -/
def Chip.sendPeer (c : Chip) (peer opc : Nat) (body : Bytes) : Chip :=
  match c.peerSession? peer with
  | none => c
  | some s => c.sendReq s.id opc 0 body

/-- Object bytes of one OFFER segment: what one record holds, at most 8,192. -/
def Chip.segBytes (c : Chip) (peer : Nat) : Nat :=
  match c.peerSession? peer with
  | none => 1024
  | some s => min 8192 (c.maxRecBody s.addr.v6 - 16 - 16 - 32)

/-- Send the OFFER segment at an offset; one segment is outstanding at a time, because HO_ACK names
no offset. -/
def Chip.sendOffer (c : Chip) (h : Handoff) : Chip :=
  match h.unacked with
  | [] => c
  | off :: rest =>
    let last := rest.isEmpty
    let next := rest.headD h.size
    match c.readObj h.obj off (next - off) with
    | (none, c) => c
    | (some b, c) =>
      let crc : Nat × Chip := if last then
          match c.readObj h.obj 0 h.size with
          | (some all, c) => (crc32c all, c)
          | (none, c) => (0, c)
        else (0, c)
      crc.2.sendPeer h.peer 0xC111
        (natLE 4 h.epoch ++ natLE 4 h.dstObj ++ natLE 8 h.size ++ natLE 8 off ++ natLE 1 h.dstPart ++
         natLE 1 (b2n last) ++ zerosB 2 ++ natLE 4 crc.1 ++ b)

/-- HO_ACCEPT and HO_COMMIT have one body. -/
def Chip.sendHo (c : Chip) (peer opc epoch dstObj : Nat) : Chip :=
  c.sendPeer peer opc (natLE 4 epoch ++ natLE 4 dstObj)

/-- HO_ACK on the session the record came on. -/
def Chip.sendHoAck (c : Chip) (sess epoch dstObj acked result : Nat) : Chip :=
  c.sendReq sess 0xC114 0 (natLE 4 epoch ++ natLE 4 dstObj ++ natLE 2 acked ++ natLE 1 result ++ zerosB 1)

/-! ### Commands (R557) -/

def pinnedWritable (o : Obj) : Bool := o.st == 4 && o.writable

/-- Common refusals of OFFER and EXPECT. -/
def Chip.handoffRefusal (c : Chip) (obj peer : Nat) : Option Nat :=
  let o := c.obj obj
  if o.st = 0 then some 5
  else if ¬ pinnedWritable o = true then some 2
  else if ¬ (c.regionsOver obj).isEmpty = true ∨ c.inHandoff obj = true then some 2
  else if (c.peer peer).valid = false then some 5
  else if 64 ≤ c.liveHandoffs.length then some 1
  else none

/-- Offsets 0, n, 2n, ... below `size`. -/
def segOffsets (size n : Nat) : List Nat := (List.range (cdiv size (max 1 n))).map (· * max 1 n)

def Chip.handoffOffer (c : Chip) (cmd : Nat × Nat) (obj peer dstPart dstObj : Nat) : CmdRes :=
  match c.handoffRefusal obj peer with
  | some st => .done c st 0 []
  | none =>
    let o := c.obj obj
    match c.readObj obj 0 o.size with
    | (none, c) => .done c 10 0 []
    | (some _, _) =>
      let ep := (c.mgt.hoEpoch + 1) % 2 ^ 32
      let kept := c.mgt.handoffs.filter fun h => h.obj != obj
      let h : Handoff :=
        { epoch := ep, sender := true, st := 2, obj := obj, peer := peer, dstPart := dstPart,
          dstObj := dstObj, size := o.size, cmd := some cmd, since := c.tick, sentAt := c.tick,
          unacked := segOffsets o.size (c.segBytes peer) }
      let c := { c with mgt := { c.mgt with hoEpoch := ep, handoffs := kept ++ [h] } }
      .run (c.sendOffer h) ep

def Chip.handoffExpect (c : Chip) (cmd : Nat × Nat) (dstObj peer : Nat) : CmdRes :=
  match c.handoffRefusal dstObj peer with
  | some st => .done c st 0 []
  | none =>
    if 4096 ≤ c.mgt.committed.length then .done c 6 0 []
    else
      let o := c.obj dstObj
      let kept := c.mgt.handoffs.filter fun h => h.obj != dstObj
      let h : Handoff :=
        { sender := false, st := 7, obj := dstObj, peer := peer, size := o.size, cmd := some cmd,
          dstPart := o.part, dstObj := dstObj, since := c.tick }
      .run (c.setHandoffs (kept ++ [h])) dstObj

/-- HANDOFF_QUERY: ROLE, STATE and HO_EPOCH. -/
def Chip.handoffQuery (c : Chip) (obj peer epoch : Nat) : CmdRes :=
  let ans (role st ep : Nat) : CmdRes := .done c 0 0 (natLE 1 role ++ natLE 1 st ++ zerosB 2 ++ natLE 4 ep)
  if c.mgt.committed.any (fun e => e.1 == peer && e.2.1 == epoch && e.2.2 == obj) then ans 2 9 epoch
  else
    match c.mgt.handoffs.find? fun h => h.obj == obj && h.peer == peer &&
        (h.st == 7 || (if h.sender then h.epoch else h.peerEpoch) == epoch) with
    | some h => ans (if h.sender then 1 else 2) h.st (if h.sender then h.epoch else h.peerEpoch)
    | none => ans 0 0 epoch

def Chip.handoffReclaim (c : Chip) (obj : Nat) : CmdRes :=
  if (c.obj obj).st = 0 then .done c 5 0 []
  else
    match c.mgt.handoffs.find? fun h => h.sender && h.obj == obj && h.st == 5 with
    | none => .done c 2 0 []
    | some h =>
      let ep := (c.mgt.hoEpoch + 1) % 2 ^ 32
      .done { c with mgt := { c.mgt with hoEpoch := ep, handoffs := c.mgt.handoffs.erase h } } 0 0 (natLE 4 ep)

/-! ### Receiver (R558, R559) -/

/-- Bytes 0 to size - 1 have all arrived. -/
def covered (size : Nat) (got : List (Nat × Nat)) : Bool :=
  (got.foldl (fun (n : Nat) _ =>
    match got.find? (fun g => decide (g.1 ≤ n) && decide (n < g.1 + g.2)) with
    | some g => g.1 + g.2
    | none => n) 0) ≥ size

/-- LAST has arrived: when every byte is present, the CRC decides. Answers the HO_ACK result. -/
def Chip.offerCheck (c : Chip) (h : Handoff) : Nat × Chip :=
  if !h.lastSeen || !covered h.size h.got then (0, c)
  else
    match c.readObj h.obj 0 h.size with
    | (some b, c) =>
      if crc32c b = h.crc then
        let h' := { h with acceptSent := true, sentAt := c.tick, resends := 0 }
        (0, c.setHandoff h h')
      else (1, c.handoffDiscard h)
    | (none, c) => (1, c.handoffDiscard h)

/-- HO_OFFER: the segment is written into both copies before it is acknowledged. -/
def Chip.hoOffer (c : Chip) (s : Session) (epoch dstObj size off dstPart : Nat) (last : Bool)
    (crc : Nat) (b : Bytes) : Chip :=
  let ack (c : Chip) (r : Nat) : Chip := c.sendHoAck s.id epoch dstObj 0xC111 r
  if c.mgt.committed.contains (s.peer, epoch, dstObj) then ack c 0
  else
    match c.mgt.handoffs.find? fun h => !h.sender && h.obj == dstObj && h.peer == s.peer &&
        (h.st == 7 || (h.st == 8 && h.peerEpoch == epoch)) with
    | none => ack c 2
    | some h =>
      if size ≠ h.size ∨ dstPart ≠ h.dstPart ∨ b.length = 0 ∨ 8192 < b.length ∨ size < off + b.length then ack c 1
      else if h.acceptSent then ack c 0
      else
        let h' := { h with
          st := 8, peerEpoch := epoch, since := if h.st = 7 then c.tick else h.since,
          got := (off, b.length) :: h.got, lastSeen := h.lastSeen || last,
          crc := if last then crc else h.crc }
        let r := ((c.writeObj h.obj off b).setHandoff h h').offerCheck h'
        let c := ack r.2 r.1
        c.when (r.2.mgt.handoffs.any fun x => x.obj == dstObj && x.acceptSent) fun c =>
          c.sendHo s.peer 0xC112 epoch dstObj

/-- HO_COMMIT: COMMITTED, remembered, and the EXPECT answered OK. -/
def Chip.hoCommit (c : Chip) (s : Session) (epoch dstObj : Nat) : Chip :=
  let ack (c : Chip) (r : Nat) : Chip := c.sendHoAck s.id epoch dstObj 0xC113 r
  if c.mgt.committed.contains (s.peer, epoch, dstObj) then ack c 0
  else
    match c.mgt.handoffs.find? fun h => !h.sender && h.obj == dstObj && h.peer == s.peer &&
        h.st == 8 && h.peerEpoch == epoch with
    | none => ack c 2
    | some h =>
      if h.acceptSent then
        let c := { c with mgt := { c.mgt with committed := c.mgt.committed ++ [(s.peer, epoch, dstObj)] } }
        ack (c.endHandoff h 0 0) 0
      else ack c 1

/-! ### Sender (R558, R559) -/

/-- The sender's live handoff of an epoch with a peer. -/
def Chip.sending? (c : Chip) (peer epoch dstObj : Nat) : Option Handoff :=
  c.mgt.handoffs.find? fun h => h.sender && h.st != 6 && h.peer == peer && h.epoch == epoch && h.dstObj == dstObj

/-- HO_ACCEPT. -/
def Chip.hoAccept (c : Chip) (s : Session) (epoch dstObj : Nat) : Chip :=
  let ack (c : Chip) (r : Nat) : Chip := c.sendHoAck s.id epoch dstObj 0xC112 r
  match c.sending? s.peer epoch dstObj with
  | none => ack c 2
  | some h =>
    if h.st = 3 then
      let h' := { h with st := 4, resends := 0, sentAt := c.tick }
      (ack (c.setHandoff h h') 0).sendHo s.peer 0xC113 epoch dstObj
    else if h.st = 2 then c
    else ack c 0

/-- HO_ACK. -/
def Chip.hoAck (c : Chip) (s : Session) (epoch dstObj acked result : Nat) : Chip :=
  if acked = 0xC112 then
    match c.mgt.handoffs.find? fun h => !h.sender && h.obj == dstObj && h.peer == s.peer &&
        h.st == 8 && h.peerEpoch == epoch && h.acceptSent with
    | none => c
    | some h =>
      if result = 0 then c.setHandoff h { h with acceptAcked := true }
      else if result = 2 then c.handoffDiscard h
      else c
  else
    match c.sending? s.peer epoch dstObj with
    | none => c
    | some h =>
      if acked = 0xC111 ∧ h.st = 2 then
        if result ≠ 0 then c.handoffOwned h
        else
          match h.unacked with
          | [] => c
          | [_] => c.setHandoff h { h with st := 3, unacked := [], since := c.tick }
          | _ :: t =>
            let h' := { h with unacked := t, resends := 0, sentAt := c.tick }
            (c.setHandoff h h').sendOffer h'
      else if acked = 0xC113 ∧ (h.st = 4 ∨ h.st = 5) then
        if result = 0 then
          let c := c.scrubExtent (c.obj h.obj)
          let c := match h.cmd with
            | some k => c.endCmd k 0 0 (natLE 4 h.epoch)
            | none => c
          c.setHandoff h { h with st := 6, cmd := none }
        else if result = 2 ∨ h.st = 4 then c.handoffOwned h
        else c
      else c

/-- The outcome of a COMMIT stays open: IN_DOUBT, and the OFFER is answered STATE, DETAIL 2. -/
def Chip.handoffDoubt (c : Chip) (h : Handoff) : Chip :=
  let c := match h.cmd with
    | some k => c.endCmd k 2 2 (natLE 4 h.epoch)
    | none => c
  c.setHandoff h { h with st := 5, cmd := none }

/-! ### Timers and the peer session -/

def Chip.msgRto (c : Chip) : Nat := max 1 (c.fld .mgtMsgCfg 12 [] 31 16)
def Chip.msgRetry (c : Chip) : Nat := c.fld .mgtMsgCfg 12 [] 7 0

/-- HANDOFF_RESEND_TIMEOUT. -/
def Chip.handoffResend (c : Chip) (epoch : Nat) : Chip :=
  match c.mgt.handoffs.find? fun h =>
      (h.sender && h.epoch == epoch && (h.st == 2 || h.st == 4)) ||
      (!h.sender && h.peerEpoch == epoch && h.st == 8 && h.acceptSent && !h.acceptAcked) with
  | none => c
  | some h =>
    if !c.due h.sentAt c.msgRto then c
    else if c.msgRetry ≤ h.resends then
      (if h.st = 2 then c.handoffOwned h else if h.st = 4 then c.handoffDoubt h else c)
    else
      let h' := { h with resends := h.resends + 1, sentAt := c.tick }
      let c := c.setHandoff h h'
      if h.st = 2 then c.sendOffer h'
      else if h.st = 4 then c.sendHo h.peer 0xC113 epoch h.dstObj
      else c.sendHo h.peer 0xC112 epoch h.obj

/-- OFFERED_TIMEOUT. -/
def Chip.offeredTimeout (c : Chip) (epoch : Nat) : Chip :=
  match c.mgt.handoffs.find? fun h => h.sender && h.epoch == epoch && h.st == 3 with
  | none => c
  | some h => if c.due h.since (c.msgRto * (c.msgRetry + 1)) then c.handoffOwned h else c

/-- Handshake and reassembly limit in ticks (R543). -/
def Chip.hsTmo (c : Chip) : Nat := 1000 * max 1 (c.fld .mgtGlb2 12 [] 15 0)

/-- TENTATIVE_TIMEOUT. -/
def Chip.tentativeTimeout (c : Chip) (epoch : Nat) : Chip :=
  match c.mgt.handoffs.find? fun h => !h.sender && h.peerEpoch == epoch && h.st == 8 with
  | none => c
  | some h => if c.due h.since c.hsTmo then c.handoffDiscard h else c

/-- A peer session opens: waiting messages go out, and COMMITs in doubt are sent again. -/
def Chip.peerOpened (c : Chip) (i : Nat) : Chip :=
  let c := c.pumpMsgs i
  (c.mgt.handoffs.filter fun h => h.sender && h.peer == i && h.st == 5).foldl
    (fun c h => c.sendHo i 0xC113 h.epoch h.dstObj) c

/-- A peer session ends: a COMMIT without its answer is in doubt, and tentative bytes go. -/
def Chip.peerEnded (c : Chip) (i : Nat) : Chip :=
  (c.mgt.handoffs.filter fun h => h.peer == i).foldl (fun c h =>
    if h.sender ∧ h.st = 4 then c.handoffDoubt h
    else if h.sender = false ∧ h.st = 8 then c.handoffDiscard h
    else c) c

end Sys2Proof.Machine
end

