-- ==== Sys2Proof/Machine/Handshake.lean ====
section
/-! DEFINITION. Sessions: handshakes, DATA and CLOSE records, their timeouts, and the peer-table
commands (R516-R525, R534). -/

namespace Sys2Proof.Machine

/-- The Ethernet port takes Rinlidal records: the link is up, MGT_ is enabled, a management complex
runs, and the state is one of R439. -/
def Chip.rinlidal (c : Chip) : Bool :=
  c.boot.ethUp && c.enabled 0x13 12 && !(c.mcs.failedA && c.mcs.failedB) && c.mcs.stewardAt.isNone &&
  [DevState.waitOwner, .service, .degraded, .test, .recovery].contains c.boot.state

/-- Device states that take a KIND (R520). -/
def kindState (kind : Nat) (st : DevState) : Bool :=
  if kind = 0 then [DevState.waitOwner, .service, .degraded, .test, .recovery].contains st
  else [DevState.service, .degraded].contains st

/-! ### Ends of sessions and handshakes -/

def Chip.setSessions (c : Chip) (l : List Session) : Chip := { c with mgt := { c.mgt with sessions := l } }
def Chip.setHandshakes (c : Chip) (l : List Handshake) : Chip := { c with mgt := { c.mgt with handshakes := l } }

/-- A session ends (R521): its keys go, SESSION_END to firmware. The nonces of an owner session's
quotes lapse with it (R448); a peer session's messages and handoffs are settled (R542, R558). -/
def Chip.endSession (c : Chip) (id : Nat) : Chip :=
  match c.session? id with
  | none => c
  | some s =>
    let c := (c.setSessions (c.mgt.sessions.filter fun x => x.id != id)).raise Ev.sessionEnd []
    if s.kind = 0 then { c with sec := { c.sec with quoteNonces := [] } }
    else if s.kind = 2 then
      (c.setPeer s.peer { c.peer s.peer with st := 3 }).peerEnded s.peer
    else c

/-- End a session from this side with a CLOSE. -/
def Chip.closeSession (c : Chip) (id cause : Nat) : Chip := (c.sendOn id 5 (natLE 1 cause)).endSession id

/-- A handshake of the device ends without a session: the PEER_OPEN that started it is answered. -/
def Chip.dropHandshake (c : Chip) (h : Handshake) (status : Nat) : Chip :=
  let c := c.setHandshakes (c.mgt.handshakes.filter fun x => x.id != h.id)
  if h.init then
    let c := c.setPeer h.peer { c.peer h.peer with st := 3 }
    match h.cmd with
    | some k => c.endCmd k status 0
    | none => c
  else c

/-- End every session and handshake whose KIND the state excludes (R521). -/
def Chip.admitSessions (c : Chip) : Chip :=
  let c := (c.mgt.sessions.filter fun s => !kindState s.kind c.boot.state).foldl
    (fun c s => c.closeSession s.id 1) c
  (c.mgt.handshakes.filter fun h => !kindState h.kind c.boot.state).foldl (fun c h => c.dropHandshake h 2) c

/-- A check of a handshake fails: CLOSE with its cause, counted (R519). `keyed`: the keys exist. -/
def Chip.failHandshake (c : Chip) (h : Handshake) (cause status : Nat) : Chip :=
  let s : Session := { id := h.session, addr := h.addr, init := h.init, keyTx := h.keyTx }
  ((c.ethSend (sealRec s 5 (natLE 1 cause))).bump .mgtHsFail 12).dropHandshake h status

/-! ### Responder (R519, R520) -/

/-- Limits of R520 that a HELLO of a KIND meets. -/
def Chip.helloOk (c : Chip) (kind : Nat) : Bool :=
  let n (k : Nat) : Nat := (c.mgt.sessions.filter fun s => s.kind == k).length
  decide (kind ≤ 2) && kindState kind c.boot.state &&
  (if kind = 0 then n 0 == 0 && c.mgt.handshakes.all fun h => h.kind != 0
   else if kind = 1 then decide (n 1 < 64) else decide (n 2 < 16))

/-- The device certificate as it travels: the signed part and its two signatures (R493). -/
def Chip.devCert (c : Chip) : Bytes := c.boot.image.devSigned ++ c.boot.image.devSig

def Chip.takeHello (c : Chip) (src : NetAddr) (kind : Nat) (pub nonce : Bytes) : Chip :=
  if !c.rinlidal || pub.length != 97 || nonce.length != 32 then c
  else if 8 ≤ c.mgt.handshakes.length then c
  else if !c.helloOk kind then (c.sendClear src 5 0 (natLE 1 1)).bump .mgtHsFail 12
  else
    let (priv, c) := c.rngBytes 48
    let (nr, c) := c.rngBytes 32
    let sid := c.mgt.nextSession
    let my := Config.ecPub priv
    let fields := natLE 4 sid ++ my ++ nr ++ natLE 8 c.boot.image.serial ++ c.devCert
    let tr := natLE 1 kind ++ pub ++ nonce ++ fields
    let (sig, c) := c.idSign (Config.sha384 tr)
    let ks := sessionKeys priv pub nonce nr
    let h : Handshake :=
      { id := sid, session := sid, kind := kind, addr := src, ephPriv := priv, transcript := tr,
        keyRx := ks.1, keyTx := ks.2, at_ := c.tick }
    let c := { c with mgt := { c.mgt with
      nextSession := sid + 1, handshakes := c.mgt.handshakes ++ [h] } }
    c.sendClear src 2 0 (fields ++ sig)

/-- Cause byte of the first check of R520 that an AUTH fails, with the partition or peer it binds. -/
def Chip.authCheck (c : Chip) (h : Handshake) (cert sig : Bytes) : Sum Nat Nat :=
  let digest := Config.sha384 (h.transcript ++ cert)
  if h.kind = 2 then
    let serial := fieldB cert 8 7
    match (List.range 16).find? fun i => (c.peer i).valid && (c.peer i).serial == serial with
    | none => .inl 2
    | some i =>
      if !devCertOk (cert.take 0x130) (cert.drop 0x130) then .inl 2
      else if !Config.ecdsaVerify (sliceB cert 0x10 97) digest sig then .inl 3
      else if 16 ≤ (c.mgt.sessions.filter fun s => s.kind == 2).length then .inl 1
      else .inr i
  else if !c.certOk (if h.kind = 0 then 3 else 6) cert then .inl 2
  else if !Config.ecdsaVerify (certEc cert) digest sig then .inl 3
  else
    let p := certPart cert
    if h.kind = 0 then (if c.ownerSession?.isSome then .inl 1 else .inr 0)
    else if (kgetD c.parts p {}).st = .free ∨ (c.agentSession? p).isSome ∨
        64 ≤ (c.mgt.sessions.filter fun s => s.kind == 1).length then .inl 1
    else .inr p

/-- The session of a finished handshake. -/
def Handshake.session' (h : Handshake) (who tick rxSeq : Nat) : Session :=
  { id := h.id, kind := h.kind, part := if h.kind = 1 then who else 0,
    peer := if h.kind = 2 then who else 0, addr := h.addr, init := h.init, keyRx := h.keyRx,
    keyTx := h.keyTx, ephPriv := h.ephPriv, ephPub := Config.ecPub h.ephPriv, rxHigh := rxSeq,
    rxSeen := [rxSeq], lastRx := tick, txSeq := if h.init then 1 else 0 }

/-- Admit the session of a handshake. -/
def Chip.openSession (c : Chip) (h : Handshake) (who rxSeq : Nat) : Chip :=
  let c := c.setHandshakes (c.mgt.handshakes.filter fun x => x.id != h.id)
  let c := c.setSessions (c.mgt.sessions ++ [h.session' who c.tick rxSeq])
  let c := if h.kind = 0 then { c with mgt := { c.mgt with lastOwner := some h.addr } } else c
  if h.kind = 2 then c.setPeer who { c.peer who with st := 2 } else c

/-- AUTH: SEQ 1 of the initiator's direction (R517). -/
def Chip.takeAuth (c : Chip) (r : Record) : Chip :=
  if !c.rinlidal then c
  else
    match c.mgt.handshakes.find? fun h => !h.init && h.session == r.session with
    | none => c.bump .mgtTagFail 12
    | some h =>
      match openRec h.keyRx true 3 r with
      | none => c.bump .mgtTagFail 12
      | some b =>
        if r.seq ≠ 1 then c.bump .mgtReplayDrop 12
        else
          let c := c.bump .mgtRecordsRx 12
          let cert := b.take (b.length - 96)
          let sig := b.drop (b.length - 96)
          -- a certificate whose own signatures fail is an item of R426
          let bad := if h.kind = 2 then !devCertSigned (cert.take 0x130) (cert.drop 0x130)
            else !certSigned c.boot.image.ownerCert cert
          let c := c.when bad fun c => c.sigFail
          if !kindState h.kind c.boot.state then c.failHandshake h 1 2
          else
            match c.authCheck h cert sig with
            | .inl cause => c.failHandshake h cause 7
            | .inr who =>
              let c := (c.openSession h who 1).sendResponse h.id 0 0 0 0 [] false
              if h.kind = 2 then c.peerOpened who else c

/-! ### Initiator (R534) -/

/-- PEER_OPEN: a HELLO to the entry's address. The command is answered when the session is open. -/
def Chip.peerOpen (c : Chip) (cmd : Nat × Nat) (i : Nat) : CmdRes :=
  let p := c.peer i
  if 16 ≤ i then .done c 4 0 []
  else if !p.valid then .done c 5 0 []
  else if p.st = 1 ∨ p.st = 2 then .done c 2 0 []
  else if !kindState 2 c.boot.state then .done c 2 0 []
  else if 8 ≤ c.mgt.handshakes.length ∨ 16 ≤ (c.mgt.sessions.filter fun s => s.kind == 2).length then .done c 1 0 []
  else
    let (priv, c) := c.rngBytes 48
    let (ni, c) := c.rngBytes 32
    let body := natLE 1 2 ++ Config.ecPub priv ++ ni
    let addr : NetAddr := { v6 := p.v6, ip := p.address, port := p.udp }
    let h : Handshake :=
      { id := 2 ^ 32 * (i + 1), kind := 2, addr := addr, init := true, peer := i, ephPriv := priv,
        transcript := body, at_ := c.tick, cmd := some cmd }
    let c := { c with mgt := { c.mgt with handshakes := c.mgt.handshakes ++ [h] } }
    .run ((c.setPeer i { p with st := 1 }).sendClear addr 1 0 body) i

/-- HELLO_REPLY to a handshake the module initiated: its certificate is checked under the vendor
roots, its serial against the peer entry, and AUTH is sent. -/
def Chip.takeHelloReply (c : Chip) (src : NetAddr) (session : Nat) (pub nonce : Bytes) (serial : Nat)
    (devSigned devSig sig : Bytes) : Chip :=
  if !c.rinlidal then c
  else
    match c.mgt.handshakes.find? fun h => h.init && !h.authSent && h.addr == src with
    | none => c
    | some h =>
      let tr := h.transcript ++ natLE 4 session ++ pub ++ nonce ++ natLE 8 serial ++ devSigned ++ devSig
      let ks := sessionKeys h.ephPriv pub (h.transcript.drop 98) nonce
      let h' := { h with session := session, transcript := tr, keyTx := ks.1, keyRx := ks.2,
                         id := h.id + session, authSent := true }
      let c := c.setHandshakes (c.mgt.handshakes.map fun x => if x.id = h.id then h' else x)
      let c := c.when (!devCertSigned devSigned devSig) Chip.sigFail
      if !devCertOk devSigned devSig then c.failHandshake h' 2 7
      else if fieldB devSigned 8 7 ≠ serial % 2 ^ 56 ∨ (c.peer h.peer).serial ≠ serial % 2 ^ 56 then
        c.failHandshake h' 2 7
      else if !Config.ecdsaVerify (sliceB devSigned 0x10 97) (Config.sha384 tr) sig then
        c.failHandshake h' 3 7
      else
        let cert := c.devCert
        let (mine, c) := c.idSign (Config.sha384 (tr ++ cert))
        let s : Session := { id := session, addr := h.addr, init := true, keyTx := ks.1 }
        c.ethSend (sealRec s 3 (cert ++ mine))

/-- The responder's first protected record opens a session the module initiated. -/
def Chip.firstData (c : Chip) (h : Handshake) : Chip :=
  let c := (c.openSession h h.peer 1).peerOpened h.peer
  match h.cmd with
  | some k => c.endCmd k 0 0
  | none => c

/-! ### DATA (R518, R522, R523) -/

/-- Opcodes a record may carry to this device on a session of a kind. -/
def knownOpc (kind opc : Nat) : Bool :=
  if kind = 2 then [0xC101, 0xC102, 0xC111, 0xC112, 0xC113, 0xC114].contains opc
  else bodyForms.any (fun f => f.1 == opc) ||
    [0x0202, 0x0204, 0x0207, 0x0305, 0x0406, 0x0701, 0x0702, 0x0703, 0x0704].contains opc

/-- Every segment of a request has arrived: it waits for its own step. A request of an opcode that
the table does not have, or of more than 64 KiB (R523), is answered MALFORMED. -/
def Chip.requestReady (c : Chip) (s : Session) (reqId opc : Nat) (body : Bytes) : Chip :=
  if knownOpc s.kind opc && decide (body.length ≤ 65536) then
    c.modSession s.id fun s => { s with ready := s.ready ++ [(reqId, opc, body)] }
  else if s.kind = 2 then c
  else c.sendResponse s.id reqId opc 4 0 [] false

/-- Take one segment. -/
def Chip.takeSegment (c : Chip) (s : Session) (b : Bytes) : Chip :=
  let opc := fieldB b 0 2
  let seg := fieldB b 2 1
  let segs := fieldB b 3 1
  let reqId := fieldB b 4 4
  let data := b.drop 16
  if b.length < 16 ∨ 0x8000 ≤ opc ∧ opc < 0xC000 then c
  else if segs = 0 ∨ 64 < segs ∨ segs ≤ seg ∨ fieldB b 8 2 ≠ data.length ∨ zeroAt b 10 6 = false ∨
      (s.kind ≠ 2 ∧ reqId = 0) then
    (if s.kind = 2 then c else c.sendResponse s.id reqId (opc % 0x8000) 4 0 [] false)
  else if segs = 1 then c.requestReady s reqId opc data
  else
    let old := (s.partials.find? fun p => p.reqId == reqId && p.opc == opc).getD
      { reqId := reqId, opc := opc, segs := segs, since := c.tick }
    let p := { old with parts := kput old.parts seg data }
    let rest := s.partials.filter fun q => !(q.reqId == reqId && q.opc == opc)
    if (List.range p.segs).all fun i => (kfind? p.parts i).isSome then
      let body := (List.range p.segs).flatMap fun i => kgetD p.parts i []
      (c.modSession s.id fun s => { s with partials := rest }).requestReady s reqId opc body
    else c.modSession s.id fun s => { s with partials := rest ++ [p] }

/-- DATA: accepted when its tag verifies and its SEQ is fresh. -/
def Chip.takeData (c : Chip) (r : Record) : Chip :=
  if !c.rinlidal then c
  else
    match c.openAny 4 r with
    | some (s, b) =>
      if s.fresh r.seq then
        ((c.bump .mgtRecordsRx 12).modSession s.id fun s => s.accept r.seq c.tick).takeSegment s b
      else c.bump .mgtReplayDrop 12
    | none =>
      match c.mgt.handshakes.find? fun h => h.authSent && h.session == r.session &&
          (openRec h.keyRx false 4 r).isSome with
      | some h => (c.bump .mgtRecordsRx 12).firstData h
      | none => c.bump .mgtTagFail 12

/-- CLOSE (R521). A clear CLOSE for session 0 answers a HELLO of this module. -/
def Chip.takeClose (c : Chip) (r : Record) : Chip :=
  if !c.rinlidal then c
  else
    match c.openAny 5 r with
    | some (s, _) =>
      if s.fresh r.seq then (c.bump .mgtRecordsRx 12).endSession s.id else c.bump .mgtReplayDrop 12
    | none =>
      match c.mgt.handshakes.find? fun h =>
          (h.authSent && h.session == r.session && (openRec h.keyRx false 5 r).isSome) ||
          (!h.init && h.session == r.session && (openRec h.keyRx true 5 r).isSome) ||
          (h.init && !h.authSent && r.session == 0 && r.seq == 0) with
      | some h => c.dropHandshake h 2
      | none => c.bump .mgtTagFail 12

/-! ### Timeouts -/

def Chip.handshakeTimeout (c : Chip) (id : Nat) : Chip :=
  match c.mgt.handshakes.find? fun h => h.id == id with
  | none => c
  | some h => if c.due h.at_ c.hsTmo then c.dropHandshake h 2 else c

def Chip.idleTimeout (c : Chip) (id : Nat) : Chip :=
  match c.session? id with
  | none => c
  | some s =>
    if c.due s.lastRx (1000 * max 1 (c.fld .mgtGlb2 12 [] 31 16)) then c.closeSession id 4 else c

def Chip.reassemblyTimeout (c : Chip) (id reqId : Nat) : Chip :=
  match c.session? id with
  | none => c
  | some s =>
    c.modSession id fun _ => { s with
      partials := s.partials.filter fun p => !(p.reqId == reqId && c.due p.since c.hsTmo) }

/-! ### Peer table (R525) -/

/-- PEER_SET. The entry's STATE stays that of its session. -/
def Chip.peerSet (c : Chip) (i flags udp serial address : Nat) : CmdRes :=
  if 16 ≤ i ∨ 4 ≤ flags ∨ 2 ^ 56 ≤ serial then .done c 4 0 []
  else
    let v6 := bit flags 1
    .done (c.setPeer i { c.peer i with valid := bit flags 0, v6 := v6, udp := udp, serial := serial,
                                       address := if v6 then address else address % 2 ^ 32 }) 0 0 []

/-- PEER_CLOSE. -/
def Chip.peerClose (c : Chip) (i : Nat) : CmdRes :=
  if 16 ≤ i then .done c 4 0 []
  else if !(c.peer i).valid then .done c 5 0 []
  else
    match c.peerSession? i with
    | some s => .done (c.closeSession s.id 0) 0 0 []
    | none => .done c 2 0 []

end Sys2Proof.Machine
end

