-- ==== Sys2Proof/Machine/Contexts.lean ====
section
/-! DEFINITION. Kernel descriptors, and what runs on a core: its contexts and how the array switches between
them, the MAC array's groups, the combining tree and the outputs of a run (chapter 2, R90-R92). -/

namespace Sys2Proof.Machine

/-! ### Descriptors (R90) -/

structure Desc where
  part : Nat := 0
  sat : Bool := false
  nondet : Bool := false
  valid : Bool := false
  bowl : Nat := 0
  imgHandle : Nat := 0
  imgOff : Nat := 0
  stream : Nat := 0
  stat : Nat := 0
  out : Nat := 0
  scaleA : Bool := false
  scaleB : Bool := false
  obj : Nat := 0
  policy : Nat := 0
  wtCount : Nat := 0
  wtFirst : Nat := 0
  io : Nat := 0
  strm : Nat := 0
  ring : Bool := false
  outKind : Nat := 0
  outBytes : Nat := 0
  stepBound : Nat := 0
  args : List Nat := []
  deriving DecidableEq, Repr

def descOf (b : Bytes) : Desc :=
  let fl := fieldB b 3 1
  { part := fieldB b 2 1 % 64, sat := bit fl 0, nondet := bit fl 1, valid := bit fl 2,
    bowl := fieldB b 4 2 % 8192, imgHandle := fieldB b 6 2, imgOff := fieldB b 8 8,
    stream := fieldB b 0x10 1 % 8, stat := fieldB b 0x11 1 % 8, out := fieldB b 0x12 1 % 8,
    scaleA := bit (fieldB b 0x13 1) 0, scaleB := bit (fieldB b 0x13 1) 1,
    obj := fieldB b 0x14 4, policy := fieldB b 0x18 1,
    wtCount := fieldB b 0x19 1 / 16, wtFirst := fieldB b 0x19 1 % 8, io := fieldB b 0x1A 1 % 8,
    strm := fieldB b 0x1B 1 % 8, ring := bit (fieldB b 0x1B 1) 7, outKind := fieldB b 0x1C 2 / 2 ^ 14,
    outBytes := fieldB b 0x20 4, stepBound := fieldB b 0x24 4,
    args := [fieldB b 0x28 8, fieldB b 0x30 8, fieldB b 0x38 8] }

def Chip.descWords (c : Chip) (d : Nat) : List Word := (c.entryW descRegs d).map (BitVec.ofNat 32)
def descOfWords (ws : List Word) : Desc := descOf (wordBytes (ws.map (·.toNat)))
def Chip.desc (c : Chip) (d : Nat) : Desc := descOfWords (c.descWords d)
def Launch.d (l : Launch) : Desc := descOfWords l.desc
def Launch.bowl (l : Launch) : Nat := l.d.bowl
def Run.d (r : Run) : Desc := descOfWords r.desc

/-- Streamed and stationary formats that pair (R45). -/
def pairOk (a b : Nat) : Bool :=
  match a with
  | 0 => b == 0
  | 1 => b == 1 || b == 2
  | 2 => b == 1 || b == 2
  | 3 => b == 3 || b == 4
  | 4 => b == 3 || b == 4
  | 5 => b == 5 || b == 3 || b == 4
  | 6 => b == 6
  | _ => b == 7 || b == 6

/-- The descriptor names a microscaled INT8, which the cores do not support (R59). -/
def Desc.mxInt8 (d : Desc) : Bool := (d.scaleA && d.stream == 6) || (d.scaleB && d.stat == 6)

/-- The accumulators are INT32: integer operands without a scale (R50, R52). -/
def Desc.intPath (d : Desc) : Bool := decide (6 ≤ d.stream) && !d.scaleA && !d.scaleB

/-- Weight, IO and ring slots of a descriptor. -/
def Desc.slots (d : Desc) : List Nat :=
  (List.range d.wtCount).map (d.wtFirst + ·) ++ [d.io] ++ (if d.ring then [d.strm] else [])

/-! ### Contexts (R31, R34) -/

def ctxKey (core ctx : Nat) : Nat := core * 4 + ctx

def Chip.ctx? (c : Chip) (key : Nat) : Option CtxSt := kfind? c.cores.ctx key
def Chip.setCtx (c : Chip) (key : Nat) (x : CtxSt) : Chip :=
  { c with cores := { c.cores with ctx := kput c.cores.ctx key x } }
def Chip.modCtx (c : Chip) (key : Nat) (f : CtxSt → CtxSt) : Chip :=
  match c.ctx? key with
  | some x => c.setCtx key (f x)
  | none => c

def Chip.run? (c : Chip) (id : Nat) : Option Run := kfind? c.dsp.runs id
def Chip.setRun (c : Chip) (id : Nat) (r : Run) : Chip :=
  { c with dsp := { c.dsp with runs := kput c.dsp.runs id r } }

/-- A run's contexts, by logical leaf. -/
def Chip.runCtxs (c : Chip) (r : Run) : List (Nat × CtxSt) :=
  (c.leaves r.bowl).filterMap fun k => (c.ctx? (ctxKey k r.ctx)).map fun x => (k, x)

/-- A run's contexts are free, and nothing of it is kept. -/
def Chip.endRun (c : Chip) (id : Nat) : Chip :=
  { c with cores := { c.cores with ctx := c.cores.ctx.filter (fun e => e.2.run != id) },
           dsp := { c.dsp with runs := kdel c.dsp.runs id } }

def regKey (key reg : Nat) : Nat := key * 32 + reg % 32
def Chip.scalarReg (c : Chip) (key reg : Nat) : BitVec 64 := kgetD c.cores.scalar (regKey key reg) 0
def Chip.setScalar (c : Chip) (key reg : Nat) (v : BitVec 64) : Chip :=
  { c with cores := { c.cores with scalar := ksetD c.cores.scalar (regKey key reg) 0 v } }

/-! ### Core store -/

def storeBytes : Nat := 524288

/-- Where a core-store offset that a kernel's code names lies: of the IO slot each context has its own quarter
(R92), so that no offset leads to another context's operands (R60, R61). -/
def Desc.place (d : Desc) (ctx off : Nat) : Nat :=
  let o := off % storeBytes
  if o / 65536 = d.io then d.io * 65536 + ctx % 4 * 16384 + o % 16384 else o

/-- Bytes of a core store; offsets wrap at its end. -/
def Chip.rdStore (c : Chip) (core off n : Nat) : Bytes :=
  (List.range n).map fun i => kgetD c.cores.store (storeKey core ((off + i) % storeBytes)) 0

def Chip.slotValid (c : Chip) (core slot : Nat) : Bool := (c.core core).fillValid.getLsbD slot

def Chip.setValid (c : Chip) (core slot : Nat) (v : Bool) : Chip :=
  c.modCore core fun x => { x with fillValid :=
    if v then x.fillValid ||| BitVec.ofNat 8 (2 ^ slot) else x.fillValid &&& ~~~ BitVec.ofNat 8 (2 ^ slot) }

/-- A fill of the run's own object into the slot has not begun to write: what the slot still holds is
another object's (R98). -/
def Chip.fillPending (c : Chip) (r : Run) (slot : Nat) : Bool :=
  let d := r.d
  c.dsp.fills.any fun f => (f.blocked || f.onLoad) && f.obj == d.obj && f.kind != 2 &&
    (f.targets.any fun t => t.1 == r.bowl) &&
    (if f.kind == 3 then slot == d.strm else decide (d.wtFirst ≤ slot) && decide (slot < d.wtFirst + d.wtCount))

/-- A read of the slot returns data to the run (R33). -/
def Chip.slotReady (c : Chip) (r : Run) (core slot : Nat) : Bool :=
  c.slotValid core slot && !c.fillPending r slot

/-- First slot of the run that a read of `n` bytes touches and that is not ready. -/
def Chip.notReady (c : Chip) (r : Run) (core off n : Nat) : Option Nat :=
  if n = 0 then none
  else
    ((List.range ((off % 65536 + n + 65535) / 65536)).map fun i => (off / 65536 + i) % 8).find? fun s =>
      r.d.slots.contains s && !c.slotReady r core s

/-- What a run's code reads from the core store: of a slot that its descriptor does not name, which may be another
context's, it reads open bytes that depend on nothing (R60, R61; notes/assumptions/134.md). -/
def Chip.kernelRead (c : Chip) (r : Run) (core off n : Nat) : Bytes :=
  (List.range n).map fun i =>
    let o := (off + i) % storeBytes
    if r.d.slots.contains (o / 65536) then kgetD c.cores.store (storeKey core (r.d.place r.ctx o)) 0
    else Config.strayByte o

/-- What a run's code, its outputs and its remote reads write: in its own quarter of the IO slot, and nowhere else
(R60, R92; notes/assumptions/134.md). -/
def Chip.kernelWrite (c : Chip) (r : Run) (core off : Nat) (b : Bytes) : Chip :=
  b.zipIdx.foldl (fun c e =>
    let o := (off + e.2) % storeBytes
    if o / 65536 = r.d.io then c.wrStore core (r.d.place r.ctx o) [e.1] else c) c

/-! ### Silent disturbances -/

/-- Words that a core sends as a leaf (rank 0) or from a node, with a disturbance that awaits it. -/
def Chip.disturb (c : Chip) (core rank : Nat) (ws : List Nat) : List Nat × Chip :=
  match c.cores.silent.find? fun e => e.core == core && e.rank == rank, ws with
  | some e, w :: t =>
    (((w ^^^ e.mask.toNat) :: t), { c with cores := { c.cores with silent := c.cores.silent.erase e } })
  | _, _ => (ws, c)

/-- Bytes that a leaf writes itself, disturbed likewise in their first four. -/
def Chip.disturbBytes (c : Chip) (core : Nat) (b : Bytes) : Bytes × Chip :=
  let r := c.disturb core 0 [leNat (b.take 4)]
  if b = [] then (b, c) else (natLE (min 4 b.length) (r.1.headD 0) ++ b.drop 4, r.2)

/-! ### The MAC array (R49, R51-R53, R62, R608) -/

/-- The tile with header `hdr` holds panel `p` of a format: it is of that format, and its PANELS is one of R48's. -/
def holdsPanel (hdr : Bytes) (fmt p : Nat) : Bool :=
  decide (fieldB hdr 0 1 % 8 = fmt) && decide (fieldB hdr 2 2 ≤ maxPanels fmt) && decide (p < fieldB hdr 2 2)

/-- Elements of one panel row of the tile in a slot; a panel that the tile does not hold, or of another
format than the streamed operand's, gives open bytes. -/
def Chip.panelRow (c : Chip) (core slot fmt p r : Nat) : List Nat :=
  let base := slot * 65536
  let hdr := c.rdStore core base 256
  let b := if holdsPanel hdr fmt p then c.rdStore core (base + rowOff fmt p r) (panelBytes fmt / panelRows fmt)
    else natLE (panelBytes fmt / panelRows fmt) (Config.badPanel hdr (16 * p + r))
  rangeElems fmt b

/-- E8M0 scale of a panel row; open in a tile without scales. -/
def Chip.panelScale (c : Chip) (core slot fmt p r : Nat) : Nat :=
  let base := slot * 65536
  let hdr := c.rdStore core base 256
  if bit (fieldB hdr 1 1) 0 && holdsPanel hdr fmt p then ((c.rdStore core (base + scaleOff fmt p r) 1).headD 0).toNat
  else Config.badScale hdr (16 * p + r) % 256

/-- Stationary elements `first .. first + len - 1` of a context's registers. -/
def CtxSt.statElems (x : CtxSt) (fmt first len : Nat) : List Nat :=
  let byte (i : Nat) : Nat := (kgetD x.stat (i % 512) 0).toNat
  (List.range len).map fun i =>
    let e := first + i
    if elemBits fmt = 4 then byte (e / 2) / 16 ^ (e % 2) % 16
    else ((List.range (elemBits fmt / 8)).map fun j => byte (e * (elemBits fmt / 8) + j) * 256 ^ j).sum

/-- Panels of group `grp` of row group `rg`, whose row groups have `per` panels. -/
def groupOf (fmt rg per grp : Nat) : List Nat :=
  ((List.range (groupPanels fmt)).filter fun j => decide (grp * groupPanels fmt + j < per)).map fun j =>
    rg * per + grp * groupPanels fmt + j

/-- The operands of one row of a group (R49). -/
def Chip.rowGroup (c : Chip) (core : Nat) (x : CtxSt) (d : Desc) (slot r len stat sc : Nat) (ps : List Nat) : DotGroup :=
  { a := (ps.flatMap fun p => c.panelRow core slot d.stream p r).take len
    b := x.statElems d.stat stat len
    sa := if d.scaleA then some (c.panelScale core slot d.stream (ps.headD 0) r) else none
    sb := if d.scaleB then some (kgetD x.stat (sc % 512) 0).toNat else none }

/-- The group that an action adds to a column: the next one of the row group of its tile, or the first of another
tile or row group, so that groups ascend (R51-R53). -/
def CtxSt.nextGroup (x : CtxSt) (slot rg col : Nat) : Nat :=
  match kfind? x.red (col % 16) with
  | some r => if r.slot = slot ∧ r.rg = rg then r.next else 0
  | none => 0

/-- The column's reduction has had its last group: one of fewer elements than a full group (R51-R53). -/
def CtxSt.reduced (x : CtxSt) (col : Nat) : Bool := (kfind? x.red (col % 16)).any (·.isLast)

/-- The next group of every row of a panel, added to column `col` of the accumulators. A group holds its full
number of elements unless it is the last of the reduction; after a shorter one nothing is added until the
accumulators are cleared (notes/assumptions/135.md). -/
def Chip.mac (c : Chip) (core key : Nat) (x : CtxSt) (d : Desc) (slot rg per len col stat sc : Nat) : Chip :=
  let grp := x.nextGroup slot rg col
  let ps := groupOf d.stream rg per grp
  let n := min (min len (groupLen d.stream)) (ps.length * panelCols d.stream)
  if n = 0 ∨ x.reduced col = true then c
  else
    let c := c.modCtx key fun y => { y with
      red := kput y.red (col % 16) { slot := slot, rg := rg, next := grp + 1, isLast := decide (n < groupLen d.stream) } }
    let r := (List.range (panelRows d.stream)).foldl (fun (a : KMap Nat × Nat) r =>
      let i := r * 16 + col % 16
      let g := c.rowGroup core x d slot r n stat sc ps
      let old := kgetD a.1 i 0
      if d.intPath then
        let v := accInt d.stream d.stat old g
        (ksetD a.1 i 0 v.1, a.2 + b2n v.2)
      else (ksetD a.1 i 0 (accFp d.stream d.stat old g), a.2)) (x.acc, 0)
    let c := c.modCtx key fun y => { y with acc := r.1, ovf := y.ovf || decide (0 < r.2) }
    if r.2 = 0 then c else c.bump .corOvf (coreDie core) (coreIdx core) r.2

/-! ### Outputs (R57-R59, R92, R131, R607) -/

/-- Accumulator words as the FP32 words that a conversion starts from. R607 gives no rounding of an INT32
accumulator to a format narrower than FP32: that it is rounded to FP32 first is the model's choice
(notes/assumptions/118.md). -/
def Desc.asFp32 (d : Desc) (ws : List Nat) : List Nat := if d.intPath then ws.map intToF32 else ws

/-- Output bytes of accumulators, and the NaNs that became zero. -/
def Desc.convert (d : Desc) (ws : List Nat) : Bytes × Nat :=
  let ws := d.asFp32 ws
  (packElems d.out (ws.map fun w => outElem d.out d.sat w), (ws.filter fun w => nanToZero d.out w).length)

def Chip.countNans (c : Chip) (core n : Nat) : Chip :=
  if n = 0 then c else c.bump .corNanToZero (coreDie core) (coreIdx core) n

/-- Bytes of a run's output; beyond OUT_BYTES nothing is kept. -/
def Chip.putOut (c : Chip) (id pos : Nat) (b : Bytes) : Chip :=
  match c.run? id with
  | none => c
  | some r =>
    let m := b.zipIdx.foldl (fun m e => if pos + e.2 < r.d.outBytes then kput m (pos + e.2) e.1 else m) r.outs
    c.setRun id { r with outs := m }

/-- A leaf writes output bytes itself (R106). -/
def Chip.leafOut (c : Chip) (core key id pos : Nat) (b : Bytes) : Chip :=
  let t := c.disturbBytes core b
  (t.2.putOut id pos t.1).modCtx key fun x => { x with wrote := x.wrote ++ t.1 }

/-- What the code may see (R60, R61). -/
def Chip.kernelView (c : Chip) (key : Nat) (x : CtxSt) (r : Run) : KernelView :=
  { image := r.image, desc := r.desc, shape := c.shape r.bowl, leaf := x.leaf, pc := x.pc,
    regs := (List.range 32).map fun i => c.scalarReg key i, ovf := x.ovf }

/-- Steps of one action: a step for each panel of a group, one for anything else (R97). -/
def opSteps (fmt : Nat) (x : CtxSt) : CoreOp → Nat
  | .mac slot rg per _ col _ _ => max 1 (groupOf fmt rg per (x.nextGroup (slot % 8) rg col)).length
  | _ => 1

/-- Slot that an action reads and that is not ready (R33). -/
def Chip.opBlocked (c : Chip) (r : Run) (core : Nat) : CoreOp → Option Nat
  | .loadReg _ off => c.notReady r core off 8
  | .loadStat _ len (.store off) => c.notReady r core off (min 512 len)
  | .outBytes _ off len => c.notReady r core off (min storeBytes len)
  | .mac slot _ _ _ _ _ _ => if c.slotReady r core (slot % 8) then none else some (slot % 8)
  | _ => none

/-- The action gives output. -/
def opOutputs : CoreOp → Bool
  | .outBytes _ _ _ => true
  | .outAcc _ _ _ _ _ => true
  | .outMx _ _ _ _ _ => true
  | _ => false

/-- Output bytes [pos, pos + n) of a run; bytes not written are zero (R131). -/
def Chip.outRange (c : Chip) (id pos n : Nat) : Bytes :=
  let m := ((c.run? id).map (·.outs)).getD []
  (List.range n).map fun i => kgetD m (pos + i) 0

/-- The launch's output goes to an operation that has its staging, or nowhere (R134, R135). -/
def Chip.feedsOpen (c : Chip) (l : Launch) (kind e : Nat) : Bool :=
  match l.op with
  | some id => (c.op? id).all fun o => o.phase != 0 && o.phase != 4 && o.phase != 5
  | none =>
    let id := (parseBlk kind (c.outRange l.id 0 64)).combineId
    c.eng.ops.any fun o => o.kind == kind && o.engine == e && !o.routed && o.part == l.part && o.blk.combineId == id && o.phase == 1

/-- A run has no credit towards its collective engine: the engine's input queue is full, and the run feeds no
operation whose segments pass it (R19, R35, R135). A check run feeds no engine (R138). -/
def Chip.noCredit (c : Chip) (id : Nat) : Bool :=
  c.dsp.launches.any fun l => l.id == id && l.phase != 3 &&
    let ke := launchEngine l (c.win l.win)
    c.queueFull ke.1 ke.2 && !c.feedsOpen l ke.1 ke.2

/-- A remote read: a region of this module under R18, or one line of another node's. -/
def Chip.remoteRead (c : Chip) (key : Nat) (r : Run) (addr handle epoch len dst : Nat) : Chip :=
  let req := c.gtx.nextId
  let wait (skip n : Nat) : Chip := c.modCtx key fun y => { y with wait := .remote req dst skip n, waited := true }
  match c.node (nodeOf addr) with
  | .here _ =>
    let ep := ((r.epochs.find? fun e => e.1 == handle).map (·.2)).getD 0
    let n := max 1 (min 65536 len)
    (wait 0 n).issue r.part (.kernel key req) { opc := opcDevRead, addr := addr, opnd := n, handle := handle, epoch := ep }
  | _ =>
    (wait (addr % 128) (min len (128 - addr % 128))).issue r.part (.kernel key req)
      { opc := 1, addr := addr / 128 * 128, handle := handle, epoch := epoch }

/-- The effect of one action on the context that issues it. -/
def Chip.doOp (c : Chip) (core key : Nat) (x : CtxSt) (r : Run) : CoreOp → Chip
  | .setReg reg v => c.setScalar key reg v
  | .loadReg reg off => c.setScalar key reg (BitVec.ofNat 64 (leNat (c.kernelRead r core off 8)))
  | .write off b => c.kernelWrite r core off b
  | .remote addr handle epoch len dst => c.remoteRead key r addr handle epoch len dst
  | .loadStat dst len src =>
    let b := match src with
      | .store off => c.kernelRead r core off (min 512 len)
      | .scalar reg => natLE (min 8 len) (c.scalarReg key reg).toNat
    c.modCtx key fun y => { y with stat := b.zipIdx.foldl (fun m e => ksetD m ((dst + e.2) % 512) 0 e.1) y.stat }
  | .clearAcc => c.modCtx key fun y => { y with acc := [], red := [] }
  | .mac slot rg per len col stat sc => c.mac core key x r.d (slot % 8) rg per len col stat sc
  | .consume slot =>
    if slot == r.d.strm && c.dsp.fills.any fun f => f.kind == 3 && f.launch == some x.run then c.setValid core slot false else c
  | .outBytes pos off len => c.leafOut core key x.run pos (c.kernelRead r core off (min storeBytes len))
  | .outAcc pos first n rank off =>
    let ws := (List.range (min 256 n)).map fun i => kgetD x.acc ((first + i) % 256) 0
    if rank = 0 then
      let o := r.d.convert ws
      ((c.countNans core o.2).kernelWrite r core off o.1).leafOut core key x.run pos o.1
    else
      let t := c.disturb core 0 ws
      t.2.modCtx key fun y => { y with sends := y.sends ++ [{ pos := pos, rank := min rank (c.shape r.bowl).length, words := t.1 }],
                                       sentVals := y.sentVals ++ t.1.flatMap (natLE 4) }
  | .outMx pos scalePos first n fmt =>
    if mxFmt fmt then
      let ws := r.d.asFp32 ((List.range (min 32 n)).map fun i => kgetD x.acc ((first + i) % 256) 0)
      let m := mxBlock fmt ws
      (c.leafOut core key x.run pos (packElems fmt m.2)).leafOut core key x.run scalePos (natLE 1 m.1)
    else c
  | .sync n => c.modCtx key fun y => { y with synced := max y.synced n }
  | .done => c.modCtx key fun y => { y with wait := .ended, waited := true }

/-- A run waits for output credit: counted for its launch once (R101). -/
def Chip.creditStall (c : Chip) (id : Nat) : Chip :=
  match c.dsp.launches.find? fun l => l.id == id with
  | none => c
  | some l =>
    if l.causes.contains 6 then c
    else
      let ls := modFirst (fun x => x.id == id) (fun _ => { l with causes := l.causes ++ [6] }) c.dsp.launches
      let c := ({ c with dsp := { c.dsp with launches := ls } }).bump .dspStall6 12 [l.part]
      match l.bind with
      | none => c
      | some b => { c with dsp := { c.dsp with service := kmod c.dsp.service b {} fun s => { s with lastCause := 6, part := l.part } } }

/-- The issuing context takes its next action, or finds that it must wait (R33, R35, R97). -/
def Chip.issueOne (c : Chip) (core key : Nat) (x : CtxSt) : Chip :=
  let wait (w : CtxWait) : Chip := c.modCtx key fun y => { y with wait := w, waited := true }
  match c.run? x.run with
  | none => wait .ended
  | some r =>
    let o := Config.kernelStep (c.kernelView key x r)
    match c.opBlocked r core o.1 with
    | some s => wait (.slot s)
    | none =>
      let n := opSteps r.d.stream x o.1
      if r.d.stepBound < x.steps + n ∧ o.1 ≠ .done then wait .bound
      else if opOutputs o.1 && c.noCredit x.run then (wait .credit).creditStall x.run
      else
        let x := { x with pc := o.2, steps := x.steps + n, waited := false }
        (c.setCtx key x).doOp core key x r o.1

/-! ### Switching contexts (R36) -/

def CtxSt.isReady (x : CtxSt) : Bool := x.wait == .ready

/-- The context to issue from: the issuing one until it waits, then the first ready one after it. -/
def Chip.pickCtx (c : Chip) (core : Nat) : Option Nat :=
  let i := kgetD c.cores.issuing core 3
  let goesOn := (c.ctx? (ctxKey core i)).any fun x => x.isReady && !x.waited
  if goesOn then some i
  else ((List.range 4).map fun j => (i + 1 + j) % 4).find? fun x => (c.ctx? (ctxKey core x)).any CtxSt.isReady

/-- The array issues from a context; a change from the one that issued last is a switch. -/
def Chip.switchTo (c : Chip) (core x : Nat) : Chip :=
  let img := ((c.ctx? (ctxKey core x)).bind fun y => (c.run? y.run).map (·.image)).getD []
  let old := kfind? c.cores.issuing core
  if old = some x then c
  else
    let c := { c with cores := { c.cores with issuing := kput c.cores.issuing core x, icache := ksetD c.cores.icache core [] (img.take 16384) } }
    if old.isSome then c.bump .corCtxSw (coreDie core) (coreIdx core) else c

/-- A core's array issues until no context is ready; what `n` actions leave undone goes on later. -/
def Chip.runCore (c : Chip) (core : Nat) : Nat → Chip
  | 0 => c
  | n + 1 =>
    match c.pickCtx core with
    | none => c
    | some i =>
      let c := c.switchTo core i
      match c.ctx? (ctxKey core i) with
      | none => c
      | some x => Chip.runCore (c.issueOne core (ctxKey core i) x) core n

/-- A wait whose condition has cleared ends (R35). -/
def Chip.wakeCtx (c : Chip) (key : Nat) (x : CtxSt) : Chip :=
  let ready (b : Bool) : Chip := if b then c.setCtx key { x with wait := .ready } else c
  match x.wait with
  | .slot s => ready ((c.run? x.run).any fun r => c.slotReady r (key / 4) s)
  | .credit => ready (!c.noCredit x.run)
  | _ => c

/-! ### The combining tree (R54, R106) -/

/-- One rank of a combination: groups of the values below it, in logical order. -/
def Chip.combineRank (c : Chip) (id rank cnt base : Nat) (isInt : Bool) (key : Nat → Nat)
    (vals : List (Nat × List Nat)) : List (Nat × List Nat) × Chip :=
  ((chunksOf (max 1 cnt) vals.length vals).zipIdx).foldl (fun acc g =>
    let c := acc.2
    let core := (g.1.headD (0, [])).1
    let r := nodeWords isInt (g.1.map (·.2))
    let c := if r.2 = 0 then c
      else (c.bump .corOvf (coreDie core) (coreIdx core) r.2).modCtx (key core) fun x => { x with ovf := true }
    let t := c.disturb core rank r.1
    let c := match t.2.run? id with
      | none => t.2
      | some q =>
        let k := rank * 65536 + base + g.2
        t.2.setRun id { q with nodeSent := kput q.nodeSent k (kgetD q.nodeSent k [] ++ t.1.flatMap (natLE 4)) }
    (acc.1 ++ [(core, t.1)], c)) ([], c)

/-- Ranks 1 to `rank` of a combination at node `n` of that rank; `counts` are the child counts from rank 1 up. -/
def Chip.combine (c : Chip) (id n : Nat) (isInt : Bool) (key : Nat → Nat) :
    List Nat → Nat → List (Nat × List Nat) → List (Nat × List Nat) × Chip
  | [], _, vals => (vals, c)
  | cnt :: up, rank, vals =>
    let r := c.combineRank id rank cnt (n * up.prod) isInt key vals
    Chip.combine r.2 id n isInt key up (rank + 1) r.1

/-- The output position whose values every leaf below node `n` of a rank has sent: they are combined, and
the node's combining core converts the result (R109, R607). -/
def Chip.gatherAt (c : Chip) (id rank n pos : Nat) : Chip :=
  match c.run? id with
  | none => c
  | some r =>
    let counts := (c.shape r.bowl).reverse.take rank
    let size := counts.prod
    let ls := ((c.leaves r.bowl).drop (n * size)).take size
    let key (k : Nat) : Nat := ctxKey k r.ctx
    let recOf (k : Nat) : Option SendRec := (c.ctx? (key k)).bind fun x => x.sends.find? fun s => s.pos == pos && s.rank == rank
    let vals := ls.filterMap fun k => (recOf k).map fun s => (k, s.words)
    if vals.length < size ∨ size = 0 then c
    else
      let c := ls.foldl (fun c k => c.modCtx (key k) fun x =>
        { x with sends := delFirst (fun s => s.pos == pos && s.rank == rank) x.sends }) c
      let t := c.combine id n r.d.intPath key counts 1 vals
      match t.1 with
      | (core, ws) :: _ =>
        let o := r.d.convert ws
        (t.2.countNans core o.2).putOut id pos o.1
      | [] => t.2

/-- Combine everything that a run's leaves have sent. -/
def Chip.gather (c : Chip) (id : Nat) : Chip :=
  match c.run? id with
  | none => c
  | some r =>
    let counts := (c.shape r.bowl).reverse
    let ls := c.leaves r.bowl
    (List.range counts.length).foldl (fun c k =>
      let size := (counts.take (k + 1)).prod
      (List.range (ls.length / max 1 size)).foldl (fun c n =>
        let first := (c.ctx? (ctxKey (ls.getD (n * size) 0) r.ctx)).map (·.sends)
        ((first.getD []).filter fun s => s.rank == k + 1).foldl (fun c s => c.gatherAt id (k + 1) n s.pos) c) c) c

/-- Every core goes on as far as it can, and what it sent is combined. -/
def Chip.advance (c : Chip) : Chip :=
  let c := c.cores.ctx.foldl (fun c e => match c.ctx? e.1 with
    | some x => c.wakeCtx e.1 x
    | none => c) c
  let c := ((kkeys c.cores.ctx).map (· / 4)).dedup.foldl (fun c k => c.runCore k 65536) c
  (kkeys c.dsp.runs).foldl (fun c id => c.gather id) c

/-! ### The start of a run (R60, R90-R92) -/

/-- The read of a run's kernel image, up to 16 KiB from IMG_OFFSET on: a request of the device for the partition, which
meets the checks, the share, the home and the object's tier as one that arrived at a port would (R18, R211, R402). An
IMG_OFFSET beyond the region asks for bytes outside it. -/
def Chip.readImage (c : Chip) (part : Nat) (o : Owner) (d : Desc) : Chip :=
  let g := ((c.regionOf d.imgHandle).map c.region).getD {}
  let off := min (g.base + d.imgOff) (2 ^ 52 - 1)
  c.issue part o
    { opc := opcDevRead, addr := ((c.localNode part).getD 0) * 2 ^ 52 + off, handle := d.imgHandle, epoch := g.epoch
      opnd := if d.imgOff < g.len then min 16384 (g.len - d.imgOff) else 2 }

/-- Operands and ARGS reach every leaf (R90, R92): the context's other registers start at zero. -/
def Chip.fanIn (c : Chip) (d : Desc) (bowl ctx : Nat) (operands : Bytes) : Chip :=
  (c.leaves bowl).foldl (fun c k =>
    let c := (c.wrStore k (d.io * 65536 + ctx * 16384) (operands.take 16384)).setValid k d.io true
    let key := ctxKey k ctx
    let sc := c.cores.scalar.filter (fun e => e.1 / 32 != key)
    let c := { c with cores := { c.cores with scalar := sc } }
    (d.args.zipIdx).foldl (fun c a => c.setScalar key (a.2 + 1) (BitVec.ofNat 64 a.1)) c) c

/-- A run takes a context of every leaf of a bowl. -/
def Chip.startRun (c : Chip) (id part bowl ctx : Nat) (desc : List Word) (operands image : Bytes) : Chip :=
  let c := c.fanIn (descOfWords desc) bowl ctx operands
  let c := (c.leaves bowl).zipIdx.foldl (fun c k => c.setCtx (ctxKey k.1 ctx) { run := id, leaf := k.2 }) c
  c.setRun id { desc := desc, bowl := bowl, ctx := ctx, part := part, image := image, epochs := c.epochsOf part }

/-! ### What the row of a run's end and of a segment wait for -/

/-- Every leaf has ended. -/
def Chip.runEnded (c : Chip) (id : Nat) : Bool :=
  match c.run? id with
  | none => true
  | some r => (c.runCtxs r).all fun e => e.2.wait == .ended

/-- No leaf writes any more output below position `n`. -/
def Chip.outputDone (c : Chip) (id n : Nat) : Bool :=
  match c.run? id with
  | none => true
  | some r => (c.runCtxs r).all fun e => e.2.wait == .ended || decide (n ≤ e.2.synced)

/-- Some leaf has issued STEP_BOUND steps (R97). -/
def Chip.atBound (c : Chip) (id : Nat) : Bool :=
  match c.run? id with
  | none => false
  | some r => (c.runCtxs r).any fun e => e.2.wait == .bound

/-- CRCs of a run's leaves, and of its nodes by ascending rank (R106). -/
def Chip.leafCrcs (c : Chip) (id : Nat) : List Nat :=
  match c.run? id with
  | none => []
  | some r => (c.runCtxs r).map fun e => crc64 (e.2.sentVals ++ e.2.wrote)

def Chip.nodeCrcs (c : Chip) (id : Nat) : List Nat :=
  match c.run? id with
  | none => []
  | some r =>
    let counts := (c.shape r.bowl).reverse
    (List.range counts.length).flatMap fun k =>
      (List.range (counts.drop (k + 1)).prod).map fun n => crc64 (kgetD r.nodeSent ((k + 1) * 65536 + n) [])

end Sys2Proof.Machine
end

