-- ==== Sys2Proof/Machine/Kernels.lean ====
section
/-! DEFINITION. The dispatcher (chapter 3): descriptors, launches, contexts, residency and fills,
aborts, reruns, fences and charges. -/

namespace Sys2Proof.Machine

/-! ### Descriptors at launch (R91) -/

/-- Tiles of a weight object, where its size or header tells. -/
def Chip.tileCount (c : Chip) (id : Nat) : Option Nat :=
  let ob := c.obj id
  if !ob.compressed then some (cdiv ob.size 65536)
  else
    let head := if ob.st = 3 ∨ ob.st = 4 then (c.readObj id 0 4096).1
      else (c.peekChunk ob.bundle (c.firstChunk ob)).map (·.take 4096)
    (head.bind parseHdr).map fun h => cdiv h.logLen 65536

/-- A launch of the descriptor from a window of `part` is refused (R91, R59). -/
def Chip.descRefused (c : Chip) (d : Desc) (part : Nat) (routed : Bool) : Bool :=
  let n := (c.leaves d.bowl).length
  !d.valid || d.stepBound == 0 || !c.bowlOk d.bowl || d.part != part || c.bowlPart d.bowl != d.part ||
  !pairOk d.stream d.stat || d.mxInt8 || !decide d.slots.Nodup || decide (8 < d.wtFirst + d.wtCount) ||
  (d.obj != 0 && d.wtCount != 0 && (c.tileCount d.obj).any fun t => decide (d.wtCount < cdiv t n)) ||
  (d.obj != 0 && d.wtCount == 0 && !(d.policy == 1 && d.ring)) ||
  (!routed && d.outKind == 3)

/-! ### Bookkeeping -/

def Chip.launch? (c : Chip) (id : Nat) : Option Launch := c.dsp.launches.find? fun l => l.id == id

def Chip.setLaunch (c : Chip) (l : Launch) : Chip :=
  { c with dsp := { c.dsp with launches := modFirst (fun x => x.id == l.id) (fun _ => l) c.dsp.launches } }

def Chip.delLaunch (c : Chip) (id : Nat) : Chip :=
  { c with dsp := { c.dsp with launches := delFirst (fun x => x.id == id) c.dsp.launches } }

def Launch.runs (l : Launch) : Bool := l.phase == 1 || l.phase == 2

/-- The counts of a launch's binding change. -/
def Chip.modService (c : Chip) (l : Launch) (f : Service → Service) : Chip :=
  match l.bind with
  | none => c
  | some b => { c with dsp := { c.dsp with service := kmod c.dsp.service b {} fun s => { f s with part := l.part } } }

def stallCnt (n : Nat) : Cnt := match n with
  | 1 => .dspStall1
  | 2 => .dspStall2
  | 3 => .dspStall3
  | 4 => .dspStall4
  | 5 => .dspStall5
  | 6 => .dspStall6
  | 7 => .dspStall7
  | _ => .dspStall8

/-- A stall cause of R101, counted once for each run. A rerun is a run of its own, so that a second rerun counts
RERUN again: the model's choice (notes/assumptions/115.md). -/
def Chip.launchStall (c : Chip) (id cause : Nat) : Chip :=
  match c.launch? id with
  | none => c
  | some l =>
    if l.causes.contains cause then c
    else ((c.setLaunch { l with causes := l.causes ++ [cause] }).bump (stallCnt cause) 12 [l.part]).modService
      l fun s => { s with lastCause := cause }

/-- Some DRAM stack is ACTIVE, so that service times are measured (R103). -/
def Chip.timed (c : Chip) : Bool := c.mem.dstack.any fun e => e.2.st == 1

/-- A measured time, in cycles of the timing stack: open, and 0 when no stack measures it. -/
def Chip.measure (c : Chip) : Nat × Chip := if c.timed then c.draw else (0, c)

/-- Kernels avoid search bowls (R236). -/
def Chip.searchBowl (c : Chip) (b : Nat) : Bool :=
  (c.idxs .sftIndexW0 12 fun w => bit w 0).any fun i => c.fld .sftIndexW1 12 [i] 12 0 == b

def Chip.kernelBowl (c : Chip) (b : Nat) : Bool := c.bowlAvail b && !c.searchBowl b

/-- COR_CTRL.ENABLE of every die the bowl has a leaf on (R67), and no leaf is being scrubbed: that a run waits for
a scrub of a leaf to end, of a core that its partition's reset scrubs or that joins a bowl again before it is
SPARE, is the model's choice (notes/assumptions/137.md). -/
def Chip.coresOn (c : Chip) (b : Nat) : Bool :=
  (c.leaves b).all fun k => c.enabled 9 (coreDie k) && !(c.core k).scrubbing

/-- Lowest context number free on every leaf (R34, R94). -/
def Chip.freeCtx (c : Chip) (ks : List Nat) : Option Nat :=
  let busy := c.busyCtx
  (List.range 4).find? fun x => ks.all fun k => !busy.contains (k, x)

def launchBefore (a b : Launch) : Bool :=
  decide (a.closeSeq < b.closeSeq) || (a.closeSeq == b.closeSeq && decide (a.src < b.src)) ||
  (a.closeSeq == b.closeSeq && a.src == b.src && decide (a.id < b.id))

/-! ### Queries that wait for a context (R238, R256, R257) -/

/-- Fields of an operation's index entry, as read at its close (R258, R267), and its opcode (R252). -/
def SftOp.e (o : SftOp) : Bytes := wordBytes (o.entry.map (·.toNat))
def SftOp.graph (o : SftOp) : Bool := bit (fieldB o.e 0 1) 1
def SftOp.opc (o : SftOp) : Nat := fieldB o.record 1 1

/-- A COMPACT of the index holds a context, so that no SEARCH of it is admitted. -/
def Chip.compacting (c : Chip) (i : Nat) : Bool :=
  c.sft.ops.any fun o => o.index == i && o.phase == 1 && o.opc == 3

/-- The queued operation is held back by nothing but contexts: not by an unavailable bowl (a GRAPH query
takes any one live leaf), an older update of its index, or a compaction, unless the compaction waits for this
SEARCH to run again (R257, R260). -/
def Chip.sftReady (c : Chip) (o : SftOp) : Bool :=
  o.phase == 0 && c.bowlOk o.bowl && c.coresOn o.bowl &&
  (c.bowlAvail o.bowl || !(o.opc == 0 && !o.graph)) &&
  if o.opc = 0 then !c.compacting o.index || decide (0 < o.reruns)
  else !c.sft.ops.any fun x => x.index == o.index && x.id != o.id && x.opc != 0 && x.opc ≤ 3 &&
    (x.phase == 1 || x.phase == 2 || x.phase == 3 || decide (x.seq < o.seq))

/-- Leaves and context number an operation can take now: a FLAT search the same number on every leaf, any
other one context of the first live leaf that has one. -/
def Chip.sftCtx (c : Chip) (o : SftOp) : Option (List Nat × Nat) :=
  let ls := c.leaves o.bowl
  if o.opc = 0 && !o.graph then (c.freeCtx ls).map fun x => (ls, x)
  else ((ls.filter fun k => (c.core k).st.runs && !(c.core k).scrubbing).findSome? fun k =>
    (c.freeCtx [k]).map fun x => ([k], x))

/-! ### Waiting (R95, R101, R114) -/

/-- A launch or query whose set closed before `l`'s waits for contexts on a core of `ks` (R95, R238). -/
def Chip.olderWaits (c : Chip) (l : Launch) : Bool :=
  let ks := c.leaves l.bowl
  let meets (b : Nat) : Bool := (c.leaves b).any fun k => ks.contains k
  (c.dsp.launches.any fun o => o.phase == 0 && launchBefore o l && c.kernelBowl o.bowl && meets o.bowl) ||
  c.sft.ops.any fun o => decide (o.seq < l.closeSeq) && c.sftReady o && meets o.bowl

/-- One of those has no context free, so that what frees is reserved for it. -/
def Chip.reserved (c : Chip) (l : Launch) : Bool :=
  let ks := c.leaves l.bowl
  let meets (b : Nat) : Bool := (c.leaves b).any fun k => ks.contains k
  (c.dsp.launches.any fun o => o.phase == 0 && launchBefore o l && c.kernelBowl o.bowl && meets o.bowl &&
    (c.freeCtx (c.leaves o.bowl)).isNone) ||
  c.sft.ops.any fun o => decide (o.seq < l.closeSeq) && c.sftReady o && meets o.bowl && (c.sftCtx o).isNone

/-- A refill of the object on the launch's bowl is unfinished (R113). -/
def Chip.refilling (c : Chip) (l : Launch) : Bool :=
  c.dsp.fills.any fun f => f.kind == 2 && f.obj == l.d.obj && f.targets.any fun t => t.1 == l.bowl

/-- The launch could start now, contexts apart. -/
def Chip.launchReady (c : Chip) (l : Launch) : Bool :=
  c.kernelBowl l.bowl && c.coresOn l.bowl &&
  (if l.reruns = 0 then c.refsFit (c.slot (slotKey l.win l.slot l.die)).cells 1 else !c.refilling l)

/-- Waiting launches note what they wait for: an unavailable bowl (R114) or a context (R95). -/
def Chip.noteWaits (c : Chip) : Chip :=
  (c.dsp.launches.filter fun l => l.phase == 0).foldl (fun c l =>
    let l := (c.launch? l.id).getD l
    if !c.kernelBowl l.bowl then
      (c.setLaunch { l with bowlWait := some (l.bowlWait.getD c.tick) }).launchStall l.id 4
    else
      let c := c.setLaunch { l with bowlWait := none }
      if c.reserved l || (c.freeCtx (c.leaves l.bowl)).isNone then c.launchStall l.id 3 else c) c

/-- A slot whose every launch has been made returns to IDLE (R81, R96). -/
def Chip.settleSlot (c : Chip) (win slot die : Nat) : Chip :=
  let key := slotKey win slot die
  let sc := c.slot key
  if sc.phase = 2 ∧ (c.dsp.launches.all fun l =>
      !(l.win == win && l.slot == slot && l.die == die && l.closeSeq == sc.closeSeq && l.phase == 0 && l.reruns == 0)) then
    (c.releaseCells sc.cells).setSlot key {}
  else c

/-! ### Residency and fills (R98-R100, R113, R207, R211) -/

/-- Core and slot of tile t of an object on a bowl (R92). -/
def Chip.tilePlace (c : Chip) (bowl first t : Nat) : Nat × Nat :=
  let ls := c.leaves bowl
  (ls.getD (t % max 1 ls.length) 0, first + t / max 1 ls.length)

/-- The object is resident on the bowl at a slot range. -/
def Chip.resident (c : Chip) (bowl first obj : Nat) : Bool :=
  (c.dsp.resid.any fun r => r.bowl == bowl && r.first == first && r.obj == obj) &&
  match c.tileCount obj with
  | none => (c.leaves bowl).all fun k => c.slotValid k first
  | some n => (List.range n).all fun t =>
    let p := c.tilePlace bowl first t
    c.slotValid p.1 p.2

/-- Slots of `bowl` from `first`, `count` of them, meet a record's. -/
def Chip.residMeets (c : Chip) (bowl first count : Nat) (r : Resid) : Bool :=
  (r.bowl == bowl || (c.leaves r.bowl).any fun k => (c.leaves bowl).contains k) &&
  rangesMeet first count r.first r.count

/-- Record an object on a bowl, evicting whatever held those slots. -/
def Chip.putResid (c : Chip) (bowl first count obj : Nat) : Chip :=
  let keep := c.dsp.resid.filter (fun r => !c.residMeets bowl first count r)
  { c with dsp := { c.dsp with resid := keep ++ [{ bowl := bowl, first := first, count := count, obj := obj }] } }

def Chip.delResid (c : Chip) (bowl obj : Nat) : Chip :=
  { c with dsp := { c.dsp with resid := c.dsp.resid.filter (fun r => !(r.bowl == bowl && r.obj == obj)) } }

/-- Core dies with a leaf of a partition's bowls (R207). -/
def Chip.span (c : Chip) (part : Nat) : Nat :=
  (((c.bowls.filter fun b => c.bowlPart b == part).flatMap c.leaves).map coreDie).dedup.length

/-- Slots that an object takes on a bowl (R92). -/
def Chip.slotCount (c : Chip) (obj bowl : Nat) : Nat :=
  max 1 (cdiv ((c.tileCount obj).getD 1) (max 1 (c.leaves bowl).length))

/-- Slots that a fill takes on one of its bowls. -/
def Chip.fillCount (c : Chip) (f : Fill) (bowl : Nat) : Nat := if f.kind = 1 then c.slotCount f.obj bowl else f.count

/-- A started run waits for a fill of its own object to begin, and reads nothing of its weight slots yet (R98). -/
def Chip.awaitsFill (c : Chip) (r : Run) : Bool :=
  c.dsp.fills.any fun f => (f.blocked || f.onLoad) && f.obj == r.d.obj && f.kind != 2 && f.targets.any fun t => t.1 == r.bowl

/-- A running kernel, or an earlier fill, uses the slots (R98, R115). -/
def Chip.slotsInUse (c : Chip) (bowl first count : Nat) (but : Option Nat) (earlier : List Fill) : Bool :=
  let ks := c.leaves bowl
  let meets (b : Nat) : Bool := b == bowl || (c.leaves b).any fun k => ks.contains k
  (c.dsp.runs.any fun e =>
    let d := e.2.d
    some e.1 != but && meets e.2.bowl && d.obj != 0 && !c.awaitsFill e.2 &&
    (rangesMeet first count d.wtFirst d.wtCount || (d.ring && rangesMeet first count d.strm 1))) ||
  earlier.any fun f => f.kind != 2 && f.targets.any fun t => meets t.1 && rangesMeet first count t.2 (c.fillCount f t.1)

def Chip.addFill (c : Chip) (f : Fill) : Chip :=
  { c with dsp := { c.dsp with fills := c.dsp.fills ++ [{ f with id := c.dsp.nextId }], nextId := c.dsp.nextId + 1 } }

def Chip.setFill (c : Chip) (f : Fill) : Chip :=
  { c with dsp := { c.dsp with fills := modFirst (fun x => x.id == f.id) (fun _ => f) c.dsp.fills } }

def Chip.delFill (c : Chip) (id : Nat) : Chip :=
  { c with dsp := { c.dsp with fills := delFirst (fun x => x.id == id) c.dsp.fills } }

/-- A fill takes slots that a running kernel, or an earlier fill, uses. -/
def Chip.fillBlocked (c : Chip) (f : Fill) (earlier : List Fill) : Bool :=
  f.kind != 2 && f.targets.any fun t => c.slotsInUse t.1 t.2 (c.fillCount f t.1) f.launch earlier

/-- What a fill has to deliver, by ascending tile: to each target bowl the core and slot of R92, or the ring
slot of a stream. A refill serves one core; a fenced core takes nothing. -/
def Chip.deliveries (c : Chip) (f : Fill) : List Deliver :=
  (List.range ((c.tileCount f.obj).getD 1)).flatMap fun t =>
    (f.targets.map fun g =>
      let p := if f.kind = 3 then ((c.tilePlace g.1 0 t).1, g.2) else c.tilePlace g.1 g.2 t
      ({ tile := t, core := p.1, slot := p.2 } : Deliver)).filter fun x =>
      (c.core x.core).st != .fenced && (f.core.isNone || f.core == some x.core)

/-- A fill starts to be written: its slots are invalid from now on (R33), and a residency miss records its
object, evicting what those slots held (R98). -/
def Chip.beginFill (c : Chip) (f : Fill) : Chip :=
  let c := if f.kind = 2 then f.todo.foldl (fun c x => c.setValid x.core x.slot false) c
    else f.targets.foldl (fun c t => (c.leaves t.1).foldl (fun c k =>
      (List.range (c.fillCount f t.1)).foldl (fun c i => c.setValid k (t.2 + i) false) c) c) c
  if f.kind = 0 then f.targets.foldl (fun c t => c.putResid t.1 t.2 f.count f.obj) c else c

/-- Fills whose slots have become free start, in order (R98, R115). -/
def Chip.unblockFills (c : Chip) : Chip :=
  (c.dsp.fills.filter (·.blocked)).foldl (fun c f =>
    let earlier := c.dsp.fills.takeWhile fun x => x.id != f.id
    if c.fillBlocked f earlier then c
    else
      let f := { f with blocked := false }
      (c.setFill f).beginFill f) c

/-- Streams of a run end with it. -/
def Chip.endStreams (c : Chip) (id : Nat) : Chip :=
  let fs := c.dsp.fills.filter (fun f => !(f.kind == 3 && f.launch == some id))
  { c with dsp := { c.dsp with fills := fs } }

/-! ### Ends of launches and checks -/

/-- A check is dropped (R107, R115). -/
def Chip.dropCheck (c : Chip) (k : Check) : Chip :=
  ((({ c with dsp := { c.dsp with checks := delFirst (fun x => x.launch == k.launch) c.dsp.checks } }).endRun
    k.launch).endStreams k.launch |>.releaseCells k.cells).bump .dspSampleSkip 12 [k.part]

/-- The engine has taken a run's last segment (R96, R103, R155): its service time counts, its operand cells go
unless a check needs them, and nothing can fail it any more. -/
def Chip.lastAccepted (c : Chip) (l : Launch) : Chip :=
  let m := c.measure
  let c := m.2.modService l fun s =>
    { s with svcSum := min allOnes64 (s.svcSum + m.1), svcMax := max s.svcMax m.1 }
  let c := if l.selected then c else c.releaseCells l.cells
  c.setLaunch { l with phase := 3, cells := if l.selected then l.cells else [] }

/-- A completed run (R106): its context is free, and a launch that is selected leaves its operands, outputs
and CRCs for the check. -/
def Chip.finishRun (c : Chip) (l : Launch) : Chip :=
  let d := l.d
  let crc := c.leafCrcs l.id
  let node := c.nodeCrcs l.id
  let c := ((c.delLaunch l.id).endRun l.id).endStreams l.id
  if l.selected then
    let r := c.allocCells 8 (cdiv d.outBytes 256) (64 + l.part)
    let k : Check := {
      launch := l.id, part := l.part, descIdx := l.descIdx, desc := l.desc, stepTag := l.stepTag,
      result := l.result, die := l.die, bowl0 := d.bowl, out0 := l.output, operands := l.operands,
      crc0 := crc, node0 := node, endTick := c.tick, cells := l.cells ++ r.2 }
    let c := r.1
    { c with dsp := { c.dsp with checks := c.dsp.checks ++ [k] } }
  else c.releaseCells l.cells

/-- A launch is given up (R97, R112, R114, R183, R211): its cells and its engine's operation go. One whose
last segment the engine has taken is complete instead (R155). -/
def Chip.dropLaunch (c : Chip) (l : Launch) : Chip :=
  if l.phase = 3 then (c.finishRun l).unblockFills.bowlRelease
  else
    let c := (((c.delLaunch l.id).endRun l.id).endStreams l.id).bump .dspGivenUp 12 [l.part]
    (((c.engGiveUp l.id).releaseCells l.cells).settleSlot l.win l.slot l.die).unblockFills.bowlRelease

/-! ### Starts of fills (R98, R184, R211) -/

/-- How a fill's object is met (R211). -/
inductive FillStart where
  | go
  | onLoad
  | absent
  | lost

/-- Object states: 0 FREE, 1 FLASH, 2 LOADING, 3 DRAM, 4 PINNED, 5 LOST. -/
def Chip.meetObj (c : Chip) (id : Nat) : FillStart × Chip :=
  let ob := c.obj id
  match ob.st with
  | 1 =>
    if ob.demand then (.onLoad, (c.startLoad id none).stall id ob.part [2])
    else (.absent, (c.stall id ob.part [3]).raise Ev.objAbsent [ob.part])
  | 2 => (.onLoad, c.stall id ob.part [2])
  | 3 => (.go, c)
  | 4 => (.go, c)
  | 5 => (.lost, c.stall id ob.part [7])
  | _ => (.lost, c)

/-- A write that turns the ricers of a core's die off is held (R184). -/
def Chip.cmpClosing (c : Chip) (die : Nat) : Bool := c.ctl.held.any fun h => h.1 == (Reg.cmpCtrl).addr die

/-- A core's ricer, that of its tile (R100). -/
def ricerOf (core : Nat) : Nat := coreDie core * 49 + coreTile core

/-- A residency miss takes over the refetches that a placement fill of the same object has in progress, and
a refill those of the core that the spare replaces (R184). -/
def Chip.takeRefetches (c : Chip) (f : Fill) : Fill × Chip :=
  let mine (g : Fill) (r : Refetch) : Bool :=
    r.data.isNone && g.obj == f.obj && f.todo.any fun x => x.tile == r.tile &&
      (if f.kind == 0 then g.kind == 1 else
        f.kind == 2 && (c.core r.core).st == .fenced && tileBase r.core == tileBase x.core)
  let took := c.dsp.fills.flatMap fun g => g.refetch.filter (mine g)
  let own (r : Refetch) : Refetch :=
    match f.todo.find? fun x => x.tile == r.tile && tileBase x.core == tileBase r.core with
    | some x => { r with core := x.core }
    | none => { r with core := ((f.todo.find? fun x => x.tile == r.tile).map (·.core)).getD r.core }
  let fs := c.dsp.fills.map (fun g => { g with refetch := g.refetch.filter (fun r => !mine g r) })
  let took := took.map own
  ({ f with refetch := f.refetch ++ took, refetched := f.refetched ++ took.map fun r => (ricerOf r.core, r.block) },
    { c with dsp := { c.dsp with fills := fs } })

/-- Start a fill, refill or stream; none: its object is absent or lost. -/
def Chip.startFill (c : Chip) (f : Fill) : Option Chip × Chip :=
  match c.meetObj f.obj with
  | (.absent, c) => (none, c)
  | (.lost, c) => (none, c)
  | (how, c) =>
    let wait := match how with
      | .onLoad => true
      | _ => false
    let blk := c.fillBlocked f c.dsp.fills
    let todo := if f.todo = [] then c.deliveries f else f.todo
    let f := { f with todo := todo, whole := f.whole || decide (3 ≤ c.span f.part), onLoad := wait, blocked := blk,
                      waitEn := ((todo.map fun x => coreDie x.core).dedup).filter fun d => c.cmpClosing d }
    let t := c.takeRefetches f
    let c := t.2.addFill t.1
    let c := if blk then (match f.launch with
        | some l => c.launchStall l 5
        | none => c) else c.beginFill f
    (some c, c)

/-! ### Starting a launch (R91, R94-R96, R98, R99, R105) -/

/-- One step of the sampling LFSR (R105), x^32 + x^22 + x^2 + x + 1. -/
def lfsrNext (x : Nat) : Nat :=
  (x * 2 % 2 ^ 32) + ((x / 2 ^ 31) ^^^ (x / 2 ^ 21) ^^^ (x / 2) ^^^ x) % 2

/-- Sampling decision of a launch (R105). R113 has a rerun launch too; that a rerun steps no LFSR and keeps the
selection of its launch is the model's choice (notes/assumptions/138.md). -/
def Chip.sample (c : Chip) (l : Launch) : Bool × Chip :=
  if l.d.nondet || decide (0 < l.reruns) then (l.selected, c)
  else
    let x := lfsrNext (kgetD c.dsp.lfsr l.part 0)
    let n := min 12 (c.fld .dspPartCfg 12 [l.part] 3 0)
    (decide (x % 2 ^ n = 0), { c with dsp := { c.dsp with lfsr := kput c.dsp.lfsr l.part x } })

/-- The weights of a run that misses its object: a stream through the ring slot where the policy or the check
asks for it and there is one, else a fill into its weight slots unless one is on its way (R98, R99, R107).
None: the object is absent or lost. -/
def Chip.fetchWeights (c : Chip) (id part bowl : Nat) (d : Desc) (stream : Bool) : Option Chip × Chip :=
  let inProg := !stream && c.dsp.fills.any fun f => f.obj == d.obj && f.kind != 3 && f.kind != 2 &&
    f.targets.any fun t => t.1 == bowl && t.2 == d.wtFirst
  if inProg then (some c, c)
  else
    c.startFill { obj := d.obj, part := part, targets := [(bowl, if stream then d.strm else d.wtFirst)],
                  count := if stream then 1 else d.wtCount, kind := if stream then 3 else 0, launch := some id }

/-- Weights of a starting launch: resident, filled, or streamed (R98, R99). -/
def Chip.weights (c : Chip) (l : Launch) : Chip :=
  let d := l.d
  if d.obj = 0 ∨ (d.wtCount ≠ 0 ∧ c.resident d.bowl d.wtFirst d.obj) then c
  else
    let stream := decide (d.policy = 1) && d.ring
    let c := if stream then (c.launchStall l.id 2).modService l fun s => { s with streamed := s.streamed + 1 }
      else (c.launchStall l.id 1).modService l fun s => { s with missFill := s.missFill + 1 }
    match c.fetchWeights l.id l.part d.bowl d stream with
    | (some c, _) => c
    | (none, c) =>
      match c.launch? l.id with
      | some l => c.dropLaunch l
      | none => c

/-- A run stopped without a result is queued to run again, or its launch is given up (R112). Each run
counts its own stall causes (R101). -/
def Chip.rerun (c : Chip) (l : Launch) : Chip :=
  let c := ((c.engDiscard l.id).endRun l.id).endStreams l.id
  if c.fld .dspGlbLimits 12 [] 3 0 ≤ l.reruns then
    (c.dropLaunch { l with phase := 0 }).raise Ev.kernelFail [l.part]
  else
    let c := c.setLaunch { l with phase := 0, reruns := l.reruns + 1, sentBytes := 0, output := [], causes := [] }
    ((c.launchStall l.id 8).modService l fun s => { s with reruns := s.reruns + 1 }).unblockFills.bowlRelease

/-- A launch starts on a context: its own reference to the operand cells, fan-in, weights. -/
def Chip.startLaunch (c : Chip) (l : Launch) (ctx : Nat) (image : Bytes) : Chip :=
  let sc := c.slot (slotKey l.win l.slot l.die)
  let firstRun := l.reruns = 0
  let c := if firstRun then c.takeRefs sc.cells else c
  let s := c.sample l
  let w := s.2.measure
  let l := { l with phase := 1, ctx := ctx, selected := s.1, sentBytes := 0, output := [],
                    cells := if firstRun then sc.cells else l.cells, bowlWait := none }
  let c := (w.2.setLaunch l).startRun l.id l.part l.bowl ctx l.desc l.operands image
  let c := c.modService l fun s => { s with launches := s.launches + 1, die := l.die,
                                                 waitMax := if firstRun then max s.waitMax w.1 else s.waitMax }
  (c.weights l).settleSlot l.win l.slot l.die

/-- A launch whose image cannot be read ends as a failed run does (R112; notes/assumptions/100.md). -/
def Chip.imageRefused (c : Chip) (l : Launch) : Chip :=
  let sc := c.slot (slotKey l.win l.slot l.die)
  let firstRun := l.reruns = 0
  let c := if firstRun then c.takeRefs sc.cells else c
  (c.rerun { l with cells := if firstRun then sc.cells else l.cells, bowlWait := none }).settleSlot l.win l.slot l.die

/-- Insert keeping launch order (R95). -/
def insLaunch (l : Launch) : List Launch → List Launch
  | [] => [l]
  | x :: t => if launchBefore l x then l :: x :: t else x :: insLaunch l t

/-- The launch can take a context of every leaf now (R94, R95). -/
def Chip.canLaunch (c : Chip) (l : Launch) : Bool :=
  c.launchReady l && !c.olderWaits l && (c.freeCtx (c.leaves l.bowl)).isSome

/-- The kernel image of a launch has been read: it starts if it still can, and else waits; or it has no image. -/
def Chip.launchImage (c : Chip) (id : Nat) (a : Ans) : Chip :=
  match c.launch? id with
  | none => c
  | some l =>
    if l.phase ≠ 0 ∨ l.imageReq = false then c
    else
      let l := { l with imageReq := false }
      if a.status ≠ some 0 then (c.imageRefused l).noteWaits.advance
      else if c.canLaunch l then (c.startLaunch l ((c.freeCtx (c.leaves l.bowl)).getD 0) a.data).noteWaits.advance
      else c.setLaunch l

/-- KERNEL_LAUNCH: the oldest launch of the die that can start does, with its kernel image (R94, R95). A set that closes while
the die's ENABLE is 0 launches nothing there (R82, R116); that a launch made before ENABLE was cleared, and a rerun,
still start is the model's choice (notes/assumptions/116.md). -/
def Chip.kernelLaunch (c : Chip) (die : Nat) : Chip :=
  let c := c.noteWaits
  let ws := (c.dsp.launches.filter fun l => l.phase == 0 && l.die == die).foldl (fun a l => insLaunch l a) []
  match ws.find? fun l => !l.imageReq && c.canLaunch l with
  -- none can start: those that an older one of another die holds back wait for a context too (R95, R101)
  | none => (ws.filter fun l => c.launchReady l && !l.imageReq && c.olderWaits l).foldl (fun c l => c.launchStall l.id 3) c
  | some l => (c.setLaunch { l with imageReq := true }).readImage l.part (.image l.id false) l.d

/-- KERNEL_LAUNCH, with the silent disturbances that are to come. -/
def Chip.launchRow (c : Chip) (die : Nat) (silent : List SilentErr) : Chip :=
  ({ c with cores := { c.cores with silent := c.cores.silent ++ silent } }).kernelLaunch die

/-! ### Ends of runs (R96, R97, R112) -/

/-- WATCHDOG (R97): the run has issued STEP_BOUND steps and is not at its end. -/
def Chip.watchdog (c : Chip) (id : Nat) : Chip :=
  match c.launch? id with
  | none => c
  | some l =>
    if l.runs && c.atBound id then ((c.engDiscard l.id).dropLaunch l).raise Ev.watchdog [l.part] else c

/-- BOWL_TIMEOUT (R114): an availability that already holds wins. -/
def Chip.bowlTimeout (c : Chip) (id : Nat) : Chip :=
  match c.launch? id with
  | none => c
  | some l =>
    match l.bowlWait with
    | none => c
    | some t0 =>
      if l.phase = 0 ∧ c.kernelBowl l.bowl = false ∧ c.due t0 (c.fld .dspGlbTmo 12 [] 31 16) then
        (c.dropLaunch l).raise Ev.bowlTimeout [l.part]
      else c

/-- A held disable of the sifter takes effect once no operation is running or queued (R263). -/
def Chip.sftRelease (c : Chip) : Chip :=
  let a := Reg.addr .sftCtrl 12
  if (c.sft.ops.all fun o => o.phase == 4) && c.ctl.held.any (fun h => h.1 == a) then
    let c' := c.setFld .sftCtrl 12 [] 0 0 0
    { c' with ctl := { c'.ctl with held := c'.ctl.held.filter fun h => h.1 != a } }
  else c

/-! ### Fences, charges, substitution (R41-R43, R108-R113, R260) -/

/-- A query's context failed: it runs again from its record, or is given up (R260). -/
def Chip.rerunQuery (c : Chip) (o : SftOp) : Chip :=
  if c.fld .dspGlbLimits 12 [] 3 0 ≤ o.reruns then
    let ops := delFirst (fun x => x.id == o.id) c.sft.ops
    (({ c with sft := { c.sft with ops := ops } }).releaseCells o.cells).sftRelease.bump .sftFailed 12 [o.part]
  else
    let ops := modFirst (fun x => x.id == o.id) (fun x =>
      { x with phase := 0, leaves := [], reruns := x.reruns + 1, left := 0, got := [], commit := none }) c.sft.ops
    { c with sft := { c.sft with ops := ops } }

/-- Everything that runs on a core stops (R41, R115, R260); a run whose last segment its engine has taken
is complete (R155). -/
def Chip.abortOn (c : Chip) (core : Nat) : Chip :=
  let hits (b : Nat) : Bool := (c.leaves b).contains core
  let ls := c.dsp.launches.filter fun l => (l.runs || l.phase == 3) && hits l.bowl
  let ks := c.dsp.checks.filter fun k => (k.phase == 1 && hits k.bowl1) || (k.phase == 3 && hits k.bowl2)
  let qs := c.sft.ops.filter fun o => o.phase == 1 && o.leaves.contains core
  let c := ls.foldl (fun c l => if l.phase = 3 then c.dropLaunch l else c.rerun l) c
  let c := ks.foldl (fun c k => c.dropCheck k) c
  qs.foldl (fun c o => c.rerunQuery o) c

/-- A fenced core takes no tile any more; a refetch made for it goes on (R184). -/
def Chip.dropDeliveries (c : Chip) (core : Nat) : Chip :=
  let fs := c.dsp.fills.map (fun f => { f with todo := f.todo.filter (fun x => x.core != core) })
  { c with dsp := { c.dsp with fills := fs } }

/-- Fence a core (R41): FENCE_CAUSE, the log entry's SEQ, the event, and a substitution to come. R42 gives the
spare the core's bowl and index; that it takes them in every rank-1 bowl that holds the core, where several do,
is the model's choice (notes/assumptions/112.md). -/
def Chip.fence (c : Chip) (core cause seq : Nat) : Chip :=
  if (c.core core).st = .fenced then c
  else
    let bs := c.bowlsOf core
    let at_ := bs.map fun b => (core, b, ((c.children b).findIdx? (· == core)).getD 0)
    let c := c.modCore core fun x => { x with st := .fenced, fenceCause := cause }
    let c := (c.dropDeliveries core).abortOn core
    let c := if bit (c.reg .corCtrl (coreDie core)) 1 then
        { c with cores := { c.cores with subst := c.cores.subst ++ at_ } }
      else c
    (c.raise Ev.coreFenced (bs.map c.bowlPart).dedup (c.coreInfo core cause) seq).noteWaits.bowlRelease

/-- A charge (R110): log cause 1 residue error, 2 loss in a tie-break. -/
def Chip.charge (c : Chip) (core cause : Nat) (e : Evidence) : Chip :=
  let s := c.core core
  let fenceIt (c : Chip) : Chip :=
    let r := c.suspLog core cause 2 e
    r.2.fence core (if cause = 1 then 3 else 4) r.1
  match s.st with
  | .enabled =>
    let r := (c.modCore core fun x => { x with st := .suspect }).suspLog core cause 1 e
    r.2.raise Ev.coreSuspect [e.part] (r.2.coreInfo core 0) r.1
  | .suspect =>
    if c.fld .dspPartCfg 12 [e.part] 5 4 = 1 ∧ s.raised = false then
      -- the entry holds the voltage at the event, which the raise changes at the next evaluation (R576)
      let logged := (c.suspLog core cause 3 e).2
      match logged.raiseFloor (coreDie core) (c.fld .dspPartCfg 12 [e.part] 15 8) with
      | some c => c.modCore core fun x => { x with raised := true }
      | none => fenceIt c
    else fenceIt c
  | _ => c

/-- A placement fill in progress brings a leaf that has joined one of its bowls all its tiles (R113). -/
def Chip.joinFill (c : Chip) (core : Nat) (f : Fill) : Fill :=
  if f.kind = 1 then
    let all := f.todo ++ c.deliveries { f with core := some core }
    { f with todo := (List.range ((c.tileCount f.obj).getD 1)).flatMap fun t => all.filter fun x => x.tile == t }
  else f

/-- Tiles of a resident object that a core holds: refill them (R113). -/
def Chip.refillCore (c : Chip) (core : Nat) : Chip :=
  let fs := c.dsp.fills.map (c.joinFill core)
  let c := { c with dsp := { c.dsp with fills := fs } }
  let recs := c.dsp.resid.filter fun r => (c.leaves r.bowl).contains core
  let hot := c.dsp.launches.filter fun l => l.phase == 0 && decide (0 < l.reruns)
  let isHot (r : Resid) : Bool := hot.any fun l => l.bowl == r.bowl && l.d.obj == r.obj
  (recs.filter isHot ++ recs.filter fun r => !isHot r).foldl (fun c r =>
    let f : Fill := { obj := r.obj, part := c.bowlPart r.bowl, targets := [(r.bowl, r.first)], count := r.count,
                      kind := 2, core := some core, cold := !isHot r }
    if c.deliveries f = [] then c else (c.startFill f).2) c

/-- A core takes a fenced core's place as a child of a rank-1 bowl. -/
def Chip.putChild (c : Chip) (b i k : Nat) : Chip :=
  let w := c.reg .corBowlChild 12 [b, i / 2]
  c.setReg .corBowlChild 12 [b, i / 2] (if i % 2 = 0 then putBits w 15 0 k else putBits w 31 16 k)

/-- AUTO_SUBSTITUTION (R42, R66): the lowest SPARE of the tile takes the place of the lowest fenced
core that waits for one, in every bowl that still holds that core. -/
def Chip.autoSubst (c : Chip) (core : Nat) : Chip :=
  let mine := c.cores.subst.filter fun s => s.1 == core
  if mine = [] ∨ c.cores.subst.any (fun s => tileBase s.1 == tileBase core && decide (s.1 < core)) then c
  else
    let rest := c.cores.subst.filter (fun s => s.1 != core)
    let c := { c with cores := { c.cores with subst := rest } }
    let base := tileBase core
    -- where a write that the fence released has put the core, if it is still in a bowl
    let at_ : List (Nat × Nat × Nat) := (c.bowlsOf core).map fun b => (core, b, ((c.children b).findIdx? (· == core)).getD 0)
    match ((List.range 64).map (base + ·)).find? fun k => (c.core k).st == .spare && !(c.core k).scrubbing with
    | none => c.noteWaits
    | some k =>
      if at_.isEmpty then c.noteWaits
      else
        let c := at_.foldl (fun c s => c.putChild s.2.1 s.2.2 k) c
        ((c.modCore k fun x => { x with st := .enabled }).refillCore k).noteWaits

/-- What runs on a context of a core. -/
inductive Runner where
  | kernel (l : Launch)
  | check (k : Check)
  | query (o : SftOp)
  | idle

def Chip.runner (c : Chip) (core ctx : Nat) : Runner :=
  match c.dsp.launches.find? fun l => (l.runs || l.phase == 3) && l.ctx == ctx && (c.leaves l.bowl).contains core with
  | some l => .kernel l
  | none =>
    match c.dsp.checks.find? fun k =>
        (k.phase == 1 && k.ctx1 == ctx && (c.leaves k.bowl1).contains core) ||
        (k.phase == 3 && k.ctx2 == ctx && (c.leaves k.bowl2).contains core) with
    | some k => .check k
    | none =>
      match c.sft.ops.find? fun o => o.phase == 1 && o.ctx == ctx && o.leaves.contains core with
      | some o => .query o
      | none => .idle

/-- The run on a context fails (R63, R64), unless its last segment is accepted (R155); answers its partition
and the evidence for a charge. -/
def Chip.failRun (c : Chip) (core ctx : Nat) (mon : Monitors) : Evidence × Chip :=
  let b := (c.bowlsOf core).headD 0
  match c.runner core ctx with
  | .kernel l =>
    ({ bowl := b, part := l.part, desc := l.descIdx, stepTag := l.stepTag, mon := mon },
     if l.phase = 3 then c else c.setLaunch { l with phase := 2 })
  | .check k =>
    ({ bowl := b, part := k.part, desc := k.descIdx, stepTag := k.stepTag, mon := mon }, c.dropCheck k)
  | .query o => ({ bowl := b, part := o.part, mon := mon }, c.rerunQuery o)
  | .idle => ({ bowl := b, part := c.bowlPart b, mon := mon }, c)

/-- Formats of the operands that a context multiplies: a query's are FP32 (R245). -/
def Runner.formats : Runner → Nat × Nat
  | .kernel l => (l.d.stream, l.d.stat)
  | .check k => ((descOfWords k.desc).stream, (descOfWords k.desc).stat)
  | _ => (0, 0)

/-- A residue error is counted, captured and raised (R63, R73). -/
def Chip.noteResidue (c : Chip) (core ctx slot row col : Nat) : Chip :=
  (c.bump .corResErr (coreDie core) (coreIdx core)).capture .corResCapture (coreDie core) (coreIdx core)
    (col * 4096 + row * 256 + slot * 16 + ctx) []

/-- RESIDUE_ERROR (R62, R63, R73, R110): a cell multiplied significands of `a` and `b` and got `product`. A
core that the same step fences still counts it (R66). -/
def Chip.residueError (c : Chip) (core ctx slot row col a b product : Nat) (mon : Monitors) : Chip :=
  match c.runner core ctx with
  | .idle =>
    if (c.core core).st = .fenced then c.noteResidue core ctx slot row col else c
  | r =>
    if residueBad r.formats.1 r.formats.2 a b product then
      let c := c.noteResidue core ctx slot row col
      let r := c.failRun core ctx mon
      let c := r.2.raise Ev.coreResidue [r.1.part] (r.2.resCapture core)
      c.charge core 1 r.1
    else c

/-- The tile that a fill brought to a core's slot last, if it has brought one and none is to come there yet but
those of a stream (R99). -/
def Chip.lastBrought (c : Chip) (f : Fill) (core slot : Nat) : Option Deliver :=
  if f.blocked || f.onLoad then none
  else ((c.deliveries f).filter fun x => x.core == core && x.slot == slot && !f.todo.contains x &&
    f.todo.all fun y => y.core != core || y.slot != slot || decide (x.tile < y.tile)).getLast?

/-- A stream's last tile on a core, once its fill has brought every tile: the run that streams it, with a fill for
that tile alone. -/
def Chip.lastStreamed (c : Chip) (core slot : Nat) : Option Fill :=
  (c.dsp.runs.find? fun e => e.2.d.ring && e.2.d.obj != 0 && e.2.d.strm == slot && (c.leaves e.2.bowl).contains core &&
      !(e.2.d.wtCount != 0 && c.resident e.2.bowl e.2.d.wtFirst e.2.d.obj) &&
      !c.dsp.fills.any fun f => f.kind == 3 && f.launch == some e.1).bind fun e =>
    let f : Fill := { obj := e.2.d.obj, part := e.2.part, targets := [(e.2.bowl, slot)], kind := 3, launch := some e.1 }
    (((c.deliveries f).filter fun x => x.core == core).getLast?).map fun x => { f with todo := [x] }

/-- Insert a tile among those still to come, by ascending tile (R100). -/
def insTile (x : Deliver) : List Deliver → List Deliver
  | [] => [x]
  | y :: t => if x.tile ≤ y.tile then x :: y :: t else y :: insTile x t

/-- The tile of a slot that an uncorrectable error spoiled is fetched again, once (R64, R66): by the fill or stream
that brought it, while it is in progress, else by a fill for the resident object or for the run that streams.
None: the slot holds no tile. -/
def Chip.refetchSlot (c : Chip) (core slot part : Nat) : Option Chip :=
  if c.dsp.fills.any fun g => g.kind != 3 && g.todo.any fun d => d.core == core && d.slot == slot then some c
  else
    match c.dsp.fills.findSome? fun f => (c.lastBrought f core slot).map fun x => (f, x) with
    | some (f, x) => some (c.setFill { f with todo := insTile x f.todo })
    | none =>
      match c.dsp.resid.find? fun x => (c.leaves x.bowl).contains core && decide (x.first ≤ slot) && decide (slot < x.first + x.count) with
      | some x =>
        let f : Fill := { obj := x.obj, part := part, targets := [(x.bowl, x.first)], count := x.count, kind := 2, core := some core }
        let todo := (c.deliveries f).filter fun d => d.slot == slot
        if todo = [] then none else some (c.startFill { f with todo := todo }).2
      | none => (c.lastStreamed core slot).map fun f => (c.startFill f).2

/-- CORE_STORE_ECC_ERROR (R64): corrected, or the slot is invalid, the run fails, the tile is
refetched; a second error at the same word, met after a refill, fences the core. A context that met the error
of a slot already invalid shares that error (R66). -/
def Chip.eccError (c : Chip) (core ctx slot word : Nat) (correctable : Bool) (mon : Monitors) : Chip :=
  match c.runner core ctx with
  | .idle => c
  | _ =>
    if correctable then c.bump .corEccCe (coreDie core) (coreIdx core)
    else
      let known := (c.core core).eccWords.contains word
      let shared := known && !c.slotValid core slot
      let again := known && !shared
      let c := if shared then c else (c.bump .corEccUe (coreDie core) (coreIdx core)).setValid core slot false
      let c := c.modCore core fun x => { x with eccWords := if known then x.eccWords else x.eccWords ++ [word] }
      let lid := match c.runner core ctx with
        | .kernel l => some l.id
        | _ => none
      let r := c.failRun core ctx mon
      let c := r.2.raise Ev.coreEccUe [r.1.part] (r.2.resCapture core)
      if again then
        let s := c.suspLog core 0 2 r.1
        s.2.fence core 5 s.1
      else
        match c.refetchSlot core slot r.1.part with
        | none => c
        | some c =>
          match lid with
          | some id => c.launchStall id 7
          | none => c.bump .dspStall7 12 [r.1.part]

/-! ### Remote reads (R18, R35) -/

/-- The answer to a context's remote read: its bytes go into the core store, or its run fails. -/
def Chip.kernelAns (c : Chip) (key req : Nat) (a : Ans) : Chip :=
  match c.ctx? key with
  | none => c
  | some x =>
    match x.wait with
    | .remote q dst skip n =>
      if q ≠ req then c
      else
        let c := c.setCtx key { x with wait := .ready }
        if a.status = some 0 then
          let b := (a.data.drop skip).take n
          (match c.run? x.run with
           | some r => c.kernelWrite r (key / 4) dst b
           | none => c).advance
        else (c.failRun (key / 4) (key % 4) {}).2.advance
    | _ => c

/-- A write of COR_CORE_STATE (R71): STATE for a privileged master; ILLEGAL_WR is W1C. -/
def Chip.coreStateWrite (c : Chip) (core v : Nat) (prv : Bool) (mon : Monitors) : Chip :=
  let st := (c.core core).st
  let want := v % 4
  let c := if bit v 2 then c.modCore core fun x => { x with illegalWr := false } else c
  if !prv || want == st.code then c
  else if want = 2 then
    let b := (c.bowlsOf core).headD 0
    let r := c.suspLog core 0 2 { bowl := b, part := c.bowlPart b, mon := mon }
    r.2.fence core 6 r.1
  else if want = 1 ∧ st = .enabled then
    (c.modCore core fun x => { x with st := .suspect }).raise Ev.coreSuspect
      ((c.bowlsOf core).map c.bowlPart).dedup (c.coreInfo core 0) 0
  else if want = 0 ∧ st = .suspect then c.modCore core fun x => { x with st := .enabled }
  else c.modCore core fun x => { x with illegalWr := true }

end Sys2Proof.Machine
end

