-- ==== Sys2Proof/Machine/Scoreboard.lean ====
section
/-! DEFINITION. Scoreboards and the expert step (chapter 3): marking, set close, launches made,
run ends, sampled recomputation, service reports; and the closing of query slots (R250, R251). -/

namespace Sys2Proof.Machine

/-! ### Query slots (R250, R251) -/

/-- Words of an index entry; DIM, EPOCH, DELTA_USED, GEN. -/
def Chip.indexW (c : Chip) (i : Nat) : List Nat := c.entryW indexRegs i

/-- Operations queued at a search bowl. -/
def Chip.bowlQueue (c : Chip) (b : Nat) : Nat :=
  (c.sft.ops.filter fun o => o.bowl == b && o.phase == 0).length

/-- Bytes of a query record that the sifter takes: header and vector; the rest is ignored (R250). -/
def Chip.queryBytes (c : Chip) (w : Win) : Nat := 128 + 4 * c.fld .sftIndexW0 12 [w.index] 31 16

/-- A query slot's close: the snapshot, the index entry and the record are taken; the slot stays CLOSED until
the operation is admitted (R251, R258). -/
def Chip.closeQuery (c : Chip) (w : Win) (slot seq : Nat) : Chip :=
  let sc := c.slot (w.key slot 12)
  let ws := c.indexW w.index
  let e := wordBytes ws
  let op : SftOp := {
    id := c.sft.nextId, part := w.part, win := w.idx, index := w.index, entry := ws.map (BitVec.ofNat 32),
    bowl := fieldB e 4 2 % 8192, record := (List.range w.setBytes).map fun i => kgetD sc.bytes i 0,
    snap := fieldB e 0x18 8, used := fieldB e 0x20 4, closeTick := c.tick, seq := seq, phase := 4,
    slot := slot, epochs := c.epochsOf w.part }
  { c with sft := { c.sft with ops := c.sft.ops ++ [op], nextId := c.sft.nextId + 1 } }

/-- The slot of a closed operation returns to IDLE. -/
def Chip.freeQuerySlot (c : Chip) (o : SftOp) : Chip :=
  let key := slotKey o.win o.slot 12
  (c.releaseCells (c.slot key).cells).setSlot key {}

/-- A closed operation is admitted: its record goes to cells of the partition's share. It waits while the
sifter is off, the bowl's queue is full, the share has no room, or an older one of the bowl, or one of the
partition that only the share keeps, waits (R251). One whose index entry is not valid is refused. -/
def Chip.admitQuery (c : Chip) (o : SftOp) : Chip :=
  let n := cdiv o.record.length 256
  let older := c.sft.ops.any fun x => x.phase == 4 && decide (x.seq < o.seq) &&
    (x.bowl == o.bowl || (x.part == o.part && decide (c.bowlQueue x.bowl < 1024)))
  if !c.enabled 15 12 || decide (1024 ≤ c.bowlQueue o.bowl) || !c.shareFits 8 o.part n || older then c
  else
    let c := c.freeQuerySlot o
    if !bit (fieldB o.e 0 1) 0 then
      let ops := delFirst (fun x => x.id == o.id) c.sft.ops
      (({ c with sft := { c.sft with ops := ops } }).bump .sftBad 12 [o.part]).raise Ev.badQuery [o.part]
    else
      let r := c.allocCells 8 n (64 + o.part)
      let ops := modFirst (fun x => x.id == o.id) (fun x => { x with phase := 0, cells := r.2 }) r.1.sft.ops
      { r.1 with sft := { r.1.sft with ops := ops } }

def Chip.setSft (c : Chip) (o : SftOp) : Chip :=
  { c with sft := { c.sft with ops := modFirst (fun x => x.id == o.id) (fun _ => o) c.sft.ops } }

/-- A search waits for a compaction and has not been counted for it. -/
def Chip.newWait (c : Chip) (o : SftOp) : Bool :=
  o.phase == 0 && o.opc == 0 && o.reruns == 0 && !o.compactWait && c.compacting o.index

/-- Searches that wait for a compaction are counted once each (R257). -/
def Chip.markCompactWaits (c : Chip) : Chip :=
  (c.sft.ops.filter c.newWait).foldl
    (fun c o => (c.setSft { o with compactWait := true }).bump .sftCompactWait 12 [o.part]) c

/-- Closed operations are admitted, oldest first. -/
def Chip.admitQueries (c : Chip) : Chip :=
  ((c.sft.ops.filter fun o => o.phase == 4).foldl (fun c o => c.admitQuery o) c).markCompactWaits

/-- A query slot closes once its header is present and, for SEARCH and INSERT, its vector. -/
def Chip.queryFull (c : Chip) (w : Win) (sc : SetCopy) : Bool :=
  let have_ (n : Nat) : Bool := (List.range n).all fun i => (kfind? sc.bytes i).isSome
  let op := (kgetD sc.bytes 1 0).toNat
  have_ 128 && (if op = 0 ∨ op = 1 then have_ (c.queryBytes w) else true)

/-! ### Set close (R82, R86-R89, R94, R133, R134) -/

/-- The set's bytes go and the slot returns to IDLE. -/
def Chip.discardSet (c : Chip) (key : Nat) : Chip := (c.releaseCells (c.slot key).cells).setSlot key {}

/-- A kernel the set names: source index, gate, binding, descriptor index. -/
structure Named where
  src : Nat := 0
  gate : Nat := 0
  bind : Option Nat := none
  desc : Nat := 0

/-- Fields of a routing record (R86). -/
def recCount (r : Bytes) : Nat := fieldB r 1 1
def recExpert (r : Bytes) (i : Nat) : Nat := fieldB r (8 + 2 * i) 2 % 4096
def recGate (r : Bytes) (i : Nat) : Nat := fieldB r (0x18 + 4 * i) 4
def recTag (r : Bytes) : Nat := fieldB r 4 4
def recBase (r : Bytes) : Nat := fieldB r 0x38 8

/-- The record is accepted (R88). -/
def recOk (w : Win) (r : Bytes) : Bool :=
  let n := recCount r
  let es := (List.range n).map (recExpert r)
  decide (fieldB r 0 1 = 1) && decide (1 ≤ n) && decide (n ≤ 8) &&
  es.all (fun e => decide (e < w.bindCount)) && decide es.Nodup

/-- HELD experts of a record, ascending position (R87). -/
def Chip.heldExperts (c : Chip) (w : Win) (r : Bytes) : List Named :=
  (List.range (recCount r)).filterMap fun i =>
    let b := w.bindBase + recExpert r i
    let e := c.reg .dspBind 12 [b]
    if bit e 31 then some { src := i, gate := recGate r i, bind := some b, desc := e % 16384 } else none

/-- Result slot of the module (R87). -/
def resultSlot (w : Win) (r : Bytes) : Nat := (recBase r + w.modIdx * w.stride * 128) % 2 ^ 64

/-- A ROUTED operation is refused (R134). -/
def Chip.routedRefused (c : Chip) (w : Win) (ks : List Named) (dst : Nat) : Bool :=
  let ds := ks.map fun k => c.desc k.desc
  let d0 := ds.headD {}
  let cfg := c.engCfg 0 w.whisk
  let rf := if 3 ≤ bits cfg 2 0 then 1 else bits cfg 2 0
  let count := d0.outBytes / (elemBits d0.out / 8)
  !c.engOwned 0 w.whisk w.part || ds.any (fun d => d.out != d0.out || d.outBytes != d0.outBytes) ||
  decide (2 < d0.out) || decide (w.stride * 128 - 128 < count * (elemBits rf / 8)) || decide (dst % 128 ≠ 0)

/-- Describe a ROUTED operation to the window's whisk, or find what another die described (R133). -/
def Chip.describe (c : Chip) (w : Win) (ks mine : List Named) (l : Launch) : Nat × Chip :=
  let d0 := c.desc (ks.headD {}).desc
  let o := routedOp l w (c.engCfg 0 w.whisk) (ks.map (·.src)) l.result d0.out
    (d0.outBytes / (elemBits d0.out / 8)) (c.epochsOf w.part)
  match c.eng.ops.find? fun x => x.routed && x.engine == w.whisk && x.win == w.idx && x.part == w.part &&
      x.declared == o.declared && decide (x.blk = o.blk) && (x.isOpen || x.phase == 4 || x.phase == 5) && x.phase != 2 && x.phase != 3 &&
      x.contribs.all fun k => mine.all fun m => m.src != k.src with
  | some x => (x.id, c)
  | none => (c.eng.nextId, c.addOp o)

/-- Dies that will launch one of the named kernels. -/
def Chip.launchDies (c : Chip) (ks : List Named) : List Nat := (ks.map fun k => c.launchDie (c.desc k.desc).bowl).dedup

/-- Make the launches of a die from a set (R94). -/
def Chip.makeLaunches (c : Chip) (w : Win) (slot die : Nat) (b : Bytes) (seq : Nat)
    (ks : List Named) (tag dst : Nat) : Chip :=
  let mine := if c.enabled 10 die then ks.filter fun k => c.launchDie (c.desc k.desc).bowl == die else []
  let proto : Launch := { die := die, part := w.part, win := w.idx, slot := slot, routed := w.routed,
                          stepTag := tag, result := dst, operands := b, closeSeq := seq, closeTick := c.tick }
  let dead := (c.launchDies ks).all fun d => !c.enabled 10 d
  let r := if w.routed && (!mine.isEmpty || dead) then c.describe w ks mine proto else (0, c)
  let c := mine.foldl (fun c k =>
    let id := c.dsp.nextId
    let l := { proto with id := id, bind := k.bind, src := k.src, gate := k.gate, descIdx := k.desc,
                          desc := c.descWords k.desc, op := if w.routed then some r.1 else none }
    let c := { c with dsp := { c.dsp with launches := c.dsp.launches ++ [l], nextId := id + 1 } }
    match c.op? r.1 with
    | some o =>
      if w.routed then
        c.setOp { o with contribs := o.contribs ++ [{ src := k.src, gate := k.gate, launch := id, count := o.blk.count }] }
      else c
    | none => c) r.2
  -- a step none of whose dies launches opens now, so that OP_TMO ends it (R82)
  if w.routed && dead then
    match c.op? r.1 with
    | some o => if o.phase = 4 then (c.setOp { o with phase := 5 }).engWakeOne { o with phase := 5 } else c
    | none => c
  else c

/-- A trigger-window set closes on a die (R82). -/
def Chip.closeTrigger (c : Chip) (w : Win) (slot die seq : Nat) : Chip :=
  let key := w.key slot die
  let sc := c.slot key
  let b := (List.range w.setBytes).map fun i => kgetD sc.bytes i 0
  let first := decide (w.dies.head? = some die)
  let r := sliceB b w.rrOff 64
  let bad (ev : Nat) : Chip :=
    let c := c.discardSet key
    if first then (c.bump .dspBad 12 [w.part]).raise ev [w.part] else c
  if w.routed && !recOk w r then bad Ev.badRecord
  else
    let ks := if w.routed then c.heldExperts w r else [{ desc := w.desc }]
    let dst := if w.routed then resultSlot w r else 0
    let tag := if w.routed then recTag r else 0
    if ks.isEmpty then
      let c := c.discardSet key
      if first then (c.bump .dspNoExpert 12 [w.part]).emptyCombine w.part w.whisk dst (dst + w.stride * 128 - 8) tag
      else c
    else if ks.any fun k => c.descRefused (c.desc k.desc) w.part w.routed then bad Ev.badDesc
    else if (c.launchDies ks).any fun d => !w.dies.contains d then bad Ev.badDesc
    else if w.routed && c.routedRefused w ks dst then
      let c := c.discardSet key
      if first then c.engRefuse 0 w.whisk w.part tag else c
    else
      let c := c.setSlot key { sc with phase := 2, closeSeq := seq }
      ((c.makeLaunches w slot die b seq ks tag dst).settleSlot w.idx slot die).noteWaits

/-- A slot's set closes. -/
def Chip.closeSet (c : Chip) (w : Win) (slot die : Nat) : Chip :=
  let seq := c.dsp.closeSeq + 1
  let c := { c with dsp := { c.dsp with closeSeq := seq } }
  if w.query then
    let key := w.key slot 12
    (c.setSlot key { c.slot key with phase := 2, closeSeq := seq }).closeQuery w slot seq
  else c.closeTrigger w slot die seq

/-! ### Marking (R81-R84) -/

/-- Open sets of a die (R19). -/
def Chip.openSets (c : Chip) (die : Nat) : Nat := (c.dsp.sets.filter fun e => e.1 % 16 == die && e.2.phase == 1).length

/-- A store part waits at egress: its slot is CLOSED, or a new set finds 1,024 open (R84). -/
def Chip.partHeld (c : Chip) (w : Win) (slot die : Nat) : Bool :=
  let sc := c.slot (w.key slot die)
  sc.phase == 2 || (sc.phase == 0 && decide (1024 ≤ c.openSets die))

/-- Bytes not yet present are marked; the rest is overlap. -/
def markBytes (m : KMap Byte) (off : Nat) : Bytes → KMap Byte × Nat
  | [] => (m, 0)
  | b :: t =>
    match kfind? m off with
    | some _ => let r := markBytes m (off + 1) t; (r.1, r.2 + 1)
    | none => markBytes (kput m off b) (off + 1) t

/-- Mark one part of a store on one die's scoreboard (R82, R83). -/
def Chip.markPart (c : Chip) (w : Win) (slot die off : Nat) (b : Bytes) (cells : List Nat) : Chip :=
  let key := w.key slot die
  let sc := c.slot key
  let sc := if sc.phase = 0 then { sc with phase := 1, openTick := c.tick } else sc
  let r := markBytes sc.bytes off b
  let sc := { sc with bytes := r.1, cells := sc.cells ++ cells }
  let c := (c.takeRefs cells).setSlot key sc
  let c := if r.2 ≠ 0 ∧ w.dies.head? = some die then c.bump .dspOverlap 12 [w.part] r.2 else c
  let full := if w.query then c.queryFull w sc else decide (sc.bytes.length = w.setBytes)
  if full then c.closeSet w slot die else c

/-- Parts of a store to a window: (slot, offset in the slot, bytes). -/
def storeParts (w : Win) : Nat → Nat → Bytes → List (Nat × Nat × Bytes)
  | 0, _, _ => []
  | fuel + 1, off, b =>
    if b = [] then []
    else
      let n := w.setBytes - off % w.setBytes
      (off / w.setBytes, off % w.setBytes, b.take n) :: storeParts w fuel (off + n) (b.drop n)

/-- The parts that a scoreboard marks: of a query slot, no byte beyond its record (R250). -/
def Chip.markedParts (c : Chip) (w : Win) (off : Nat) (b : Bytes) : List (Nat × Nat × Bytes) :=
  let ps := storeParts w (b.length + 1) off b
  if w.query then (ps.map fun t => (t.1, t.2.1, t.2.2.take (c.queryBytes w - t.2.1))).filter fun t => !t.2.2.isEmpty
  else ps

/-- SET_TIMEOUT (R85). -/
def Chip.setTimeout (c : Chip) (die win slot : Nat) : Chip :=
  let w := if die = 12 then c.qwin win else c.win win
  let key := w.key slot die
  let sc := c.slot key
  if sc.phase = 1 ∧ die ≤ 12 ∧ c.due sc.openTick (max 1 (c.fld .dspGlbTmo 12 [] 15 0)) then
    let c := c.discardSet key
    if w.dies.any fun d => d != die && (c.slot (w.key slot d)).phase == 1 then c
    else (c.bump .dspSetTmo 12 [w.part]).raise Ev.setTimeout [w.part]
  else c

/-! ### Output segments (R131, R135) -/

/-- Bytes of a run's next segment: at most 4 KiB, none while some leaf is not past it (R131). -/
def Chip.nextSeg (c : Chip) (l : Launch) : Option Bytes :=
  let n := min 4096 (l.d.outBytes - l.sentBytes)
  if !l.runs || n == 0 || !c.outputDone l.id (l.sentBytes + n) then none else some (c.outRange l.id l.sentBytes n)

/-- The engine that a launch feeds. -/
def Chip.feeds (c : Chip) (l : Launch) : Nat × Nat := launchEngine l (c.win l.win)

/-- Leaf of a bowl at an engine input (R365, R376). -/
def Chip.segLeaf (c : Chip) (l : Launch) (b : Bytes) : Leaf :=
  { die := l.die, idx := l.bowl, w := c.partW l.part * (c.leaves l.bowl).length, cost := max 1 (cdiv b.length 256) }

/-- Leaves of an engine's tree whose bowl has a segment that the engine would take now. -/
def Chip.segLeaves (c : Chip) (k : Nat × Nat) : List Leaf :=
  oneEach (c.dsp.launches.filterMap fun x => (c.nextSeg x).bind fun b =>
    if decide (c.feeds x = k) && (c.offerSeg x k.1 k.2 b).isSome then some (c.segLeaf x b) else none)

/-- The trees at the launch's engine give its bowl the turn (R365): the state after it. -/
def Chip.segTurn (c : Chip) (l : Launch) (b : Bytes) : Option Chip :=
  let k := c.feeds l
  let mine := c.segLeaf l b
  let ls := (c.segLeaves k).map fun x => if x.same mine then mine else x
  (c.treePick (engTree k.1 k.2) (engDie k.2) ls ls).bind fun r => if r.1.same mine then some r.2 else none

/-- An accepted segment crosses from its bowl's die to its engine's (R363). -/
def Chip.segAccepted (c : Chip) (l : Launch) (b : Bytes) (t : SegTaken) : Chip :=
  let l' := { (t.chip.launch? l.id).getD l with
    op := some t.op, sentBytes := l.sentBytes + b.length, output := if l.selected then l.output ++ b else [] }
  let c := ((t.chip.setLaunch l').cross l.die (engDie (c.feeds l).2) 0)
  let c := (if l'.sentBytes = l.d.outBytes ∧ l'.phase = 1 then (c.lastAccepted l').commitRun l' else c).advance
  let k := c.feeds l
  c.treeIdle (engTree k.1 k.2) (c.segLeaves k)

/-- OUTPUT_SEGMENT: the next segment of a running kernel, of at most 4 KiB, once every leaf is past it and its bowl
has the turn at its engine (R131, R135, R365). -/
def Chip.outputSegment (c : Chip) (id : Nat) : Chip :=
  match c.launch? id with
  | none => c
  | some l =>
    match c.nextSeg l with
    | none => c
    | some b =>
      let ke := c.feeds l
      if (c.offerSeg l ke.1 ke.2 b).isNone then c.launchStall id 6
      else
        match c.segTurn l b with
        | none => c
        | some c =>
          match c.offerSeg l ke.1 ke.2 b with
          | none => c.launchStall id 6
          | some t => c.segAccepted l b t

/-! ### Sampled recomputation (R106-R109, R111) -/

/-- The next bowl, from `b` on and wrapping, that can repeat its work (R107). -/
def Chip.checkBowl (c : Chip) (b part : Nat) (but : List Nat) : Option Nat :=
  let sh := c.shape b
  let taken := but.flatMap c.leaves
  let ok (x : Nat) : Bool := c.kernelBowl x && c.bowlPart x == part && c.shape x == sh &&
    (c.leaves x).all fun k => !taken.contains k
  let bs := c.bowls
  ((bs.filter fun x => decide (b < x)) ++ bs.filter fun x => decide (x < b)).find? ok

/-- A context that no waiting launch needs (R107). -/
def Chip.spareCtx (c : Chip) (b : Nat) : Option Nat :=
  let ks := c.leaves b
  if c.dsp.launches.any fun l => l.phase == 0 && c.kernelBowl l.bowl && (c.leaves l.bowl).any fun k => ks.contains k
  then none
  else if c.coresOn b then c.freeCtx ks else none

def Chip.setCheck (c : Chip) (k : Check) : Chip :=
  { c with dsp := { c.dsp with checks := modFirst (fun x => x.launch == k.launch) (fun _ => k) c.dsp.checks } }

def Chip.delCheck (c : Chip) (k : Check) : Chip :=
  ({ c with dsp := { c.dsp with checks := delFirst (fun x => x.launch == k.launch) c.dsp.checks } }).releaseCells k.cells

/-- A check cannot run: it is dropped, or its tie-break decides nothing (R107, R108). -/
def Chip.noCheck (c : Chip) (k : Check) : Chip :=
  if k.phase = 0 then c.dropCheck k else (c.delCheck k).bump .dspChecked 12 [k.part]

/-- A check run takes a context: the image, the operands and ARGS, and the weights by STREAM unless the object
is resident there (R107). -/
def Chip.startCheck (c : Chip) (k : Check) (b x : Nat) (image : Bytes) : Chip :=
  let d := descOfWords k.desc
  let c := (c.setCheck (if k.phase = 0 then { k with phase := 1, bowl1 := b, ctx1 := x }
    else { k with phase := 3, bowl2 := b, ctx2 := x })).startRun k.launch k.part b x k.desc k.operands image
  if d.obj = 0 ∨ (d.wtCount ≠ 0 ∧ c.resident b d.wtFirst d.obj) then c
  else
    match c.fetchWeights k.launch k.part b d d.ring with
    | (some c, _) => c
    | (none, c) => (c.endRun k.launch).noCheck k

/-- A check or tie-break run has yet to start. -/
def Check.waits (k : Check) : Bool := (k.phase == 0 || k.phase == 2) && !k.imageReq

/-- The bowl that repeats the work next: of a check run, of a tie-break run. -/
def Chip.nextBowl (c : Chip) (k : Check) : Option Nat :=
  c.checkBowl k.bowl0 k.part (if k.phase = 0 then [k.bowl0] else [k.bowl0, k.bowl1])

/-- Waiting check and tie-break runs read their image where a bowl and a context are free; one without an
eligible bowl is dropped, or its tie-break cannot run (R107, R108). -/
def Chip.startChecks (c : Chip) : Chip :=
  (c.dsp.checks.filter Check.waits).foldl (fun c k =>
    match c.nextBowl k with
    | none => c.noCheck k
    | some b =>
      if (c.spareCtx b).isNone then c
      else (c.setCheck { k with imageReq := true }).readImage k.part (.image k.launch true) (descOfWords k.desc)) c

/-- The image of a check or tie-break run has been read: it starts if it still can, and else waits. -/
def Chip.checkImage (c : Chip) (id : Nat) (a : Ans) : Chip :=
  match c.dsp.checks.find? fun k => k.launch == id with
  | none => c
  | some k =>
    if k.imageReq = false then c
    else
      let k := { k with imageReq := false }
      if a.status ≠ some 0 then (c.setCheck k).noCheck k
      else
        match c.nextBowl k with
        | none => (c.setCheck k).noCheck k
        | some b =>
          match c.spareCtx b with
          | none => c.setCheck k
          | some x => (c.startCheck k b x a.data).advance

/-- The monitors' readings at a core: as reported, else open (R111). -/
def Chip.monOf (c : Chip) (mon : List (Nat × Monitors)) (core : Nat) : Monitors × Chip :=
  match mon.find? fun m => m.1 == core with
  | some m => (m.2, c)
  | none =>
    let a := c.draw
    let b := a.2.draw
    let d := b.2.draw
    ({ rate := a.1 % 65536, tj := b.1 % 256, droop := d.1 % 65536 }, d.2)

/-- Leaves whose CRC differs between loser and winner, or the combining cores of differing nodes
(R109), on the losing bowl. DESIGN CHOICE (log 109): of several nodes that differ, each one's core is charged. -/
def Chip.differing (c : Chip) (loser : Nat) (crcL nodeL crcW nodeW : List Nat) : List Nat :=
  let ls := c.leaves loser
  let d := (ls.zipIdx.filter fun e => crcL.getD e.2 0 != crcW.getD e.2 0).map (·.1)
  if d ≠ [] then d
  else
    (((c.bowlNodes loser).zipIdx.filter fun e => nodeL.getD e.2 0 != nodeW.getD e.2 0).map fun e => c.leaf0 e.1).dedup

/-- A mismatch counts against a bowl (R108, R125); the count's saturation raises its event as any counter's does
(R13). -/
def Chip.suspect (c : Chip) (b : Nat) : Chip :=
  let n := c.fld .dspBowlSusp 12 [b] 15 0
  let m := min 0xFFFF (n + 1)
  let c := c.setFld .dspBowlSusp 12 [b] 15 0 m
  if m < 0xFFFF then c
  else
    let c := c.setFld .dspBowlSusp 12 [b] 16 16 1
    if n = 0xFFFF then c else { c with ctl := { c.ctl with satEv := c.ctl.satEv ++ [Reg.addr .dspBowlSusp 12 [b]] } }

/-- The evidence of an entry for a core of a check (R111). -/
def Chip.evidence (c : Chip) (k : Check) (bowl core : Nat) (mon : List (Nat × Monitors)) : Evidence × Chip :=
  let m := c.monOf mon core
  ({ bowl := bowl, part := k.part, desc := k.descIdx, stepTag := k.stepTag, mon := m.1 }, m.2)

/-- A log entry about a bowl, at its logical leaf 0. -/
def Chip.logBowl (c : Chip) (k : Check) (bowl cause : Nat) (mon : List (Nat × Monitors)) : Chip :=
  let e := c.evidence k bowl (c.leaf0 bowl) mon
  (e.2.suspLog (c.leaf0 bowl) cause 0 e.1).2

/-- The losing bowl's differing cores are charged (R108-R110). -/
def Chip.chargeAll (c : Chip) (k : Check) (bowl : Nat) (cores : List Nat) (mon : List (Nat × Monitors)) : Chip :=
  cores.foldl (fun c x =>
    let e := c.evidence k bowl x mon
    e.2.charge x 2 e.1) c

/-- CHECK_RUN_END (R108): every leaf of the check or tie-break run has ended. DESIGN CHOICE (log 109): the
loser's CRCs are compared with those of the tie-break run, which agrees with the winner. -/
def Chip.checkRunEnd (c : Chip) (id : Nat) (mon : List (Nat × Monitors)) : Chip :=
  match c.dsp.checks.find? fun k => k.launch == id with
  | none => c
  | some k =>
    if (k.phase ≠ 1 ∧ k.phase ≠ 3) ∨ c.runEnded id = false then c
    else
      let out := c.outRange id 0 (descOfWords k.desc).outBytes
      let crc := c.leafCrcs id
      let node := c.nodeCrcs id
      let c := (c.endRun id).endStreams id
      let c :=
        if k.phase = 1 then
          if out = k.out0 then (c.delCheck k).bump .dspChecked 12 [k.part]
          else
            let c := ((c.bump .dspMismatch 12 [k.part]).suspect k.bowl0).suspect k.bowl1
            ((c.logBowl k k.bowl0 3 mon).logBowl k k.bowl1 3 mon).setCheck
              { k with phase := 2, out1 := out, crc1 := crc, node1 := node }
        else
          let c := (c.delCheck k).bump .dspChecked 12 [k.part]
          if out = k.out0 then c.chargeAll k k.bowl1 (c.differing k.bowl1 k.crc1 k.node1 crc node) mon
          else if out = k.out1 then
            (c.chargeAll k k.bowl0 (c.differing k.bowl0 k.crc0 k.node0 crc node) mon).raise
              Ev.silentErr [k.part] k.result k.stepTag
          else (c.logBowl k k.bowl0 4 mon).raise Ev.noMajority [k.part]
      c.unblockFills.noteWaits.bowlRelease.advance

/-- CHECK_TIMEOUT (R107, R119). -/
def Chip.checkTimeout (c : Chip) (id : Nat) : Chip :=
  match c.dsp.checks.find? fun k => k.launch == id with
  | none => c
  | some k =>
    if c.due k.endTick (1000 * max 1 (c.fld .dspGlbLimits 12 [] 19 8)) then (c.dropCheck k).unblockFills.noteWaits.bowlRelease.advance
    else c

/-- KERNEL_RUN_END (R96, R112): the last segment has been accepted and every leaf has ended. -/
def Chip.kernelRunEnd (c : Chip) (id : Nat) : Chip :=
  match c.launch? id with
  | none => c
  | some l =>
    if !(l.runs || l.phase == 3) || l.sentBytes != l.d.outBytes || !c.runEnded id then c
    else if l.phase = 2 then (c.rerun l).noteWaits.advance
    else
      let c := if l.phase = 1 then c.lastAccepted l else c
      (c.finishRun ((c.launch? id).getD l)).unblockFills.bowlRelease.noteWaits.advance

/-! ### Service records (R102-R104, R123) -/

/-- The 32-byte record of a binding. DESIGN CHOICE (log 108): R86 has LAYER echoed in the report, but the record
of R102 has no field for it, and it is dropped. -/
def serviceRec (s : Service) (timed : Bool) (seq : Nat) : Bytes :=
  let t (v : Nat) : Nat := if timed then v else 0
  natLE 4 (min 0xFFFFFFFF s.launches) ++ natLE 2 (min 0xFFFF s.missFill) ++ natLE 2 (min 0xFFFF s.streamed) ++
  natLE 8 (t (min allOnes64 s.svcSum)) ++ natLE 4 (t (min 0xFFFFFFFF s.svcMax)) ++ natLE 4 (t (min 0xFFFFFFFF s.waitMax)) ++
  natLE 2 (min 0xFFFF s.reruns) ++ natLE 1 s.lastCause ++ natLE 1 s.die ++ natLE 4 seq

/-- A partition's service period ends: its counts start from zero (R102). -/
def Chip.endPeriod (c : Chip) (part : Nat) : Chip :=
  let seq := kgetD c.dsp.periodSeq part 0
  { c with dsp := { c.dsp with
      service := c.dsp.service.filter (fun e => e.2.part != part)
      periodSeq := kput c.dsp.periodSeq part ((seq + 1) % 2 ^ 32)
      periodAt := kput c.dsp.periodAt part c.tick } }

/-- The records of a partition's report: one line-class write per 128-byte line (R102, R104, R123). -/
def Chip.writeReport (c : Chip) (part : Nat) : Chip :=
  let h := c.fld .dspPartRptHandle 12 [part] 15 0
  let off := c.reg .dspPartRptOff 12 [part] * 4096
  let first := c.fld .dspPartRptFirst 12 [part] 17 0
  let n := c.fld .dspPartRptCount 12 [part] 17 0
  let rg := c.regionOf h
  let len := match rg with
    | some s => if (c.region s).part = part then (c.region s).len else 0
    | none => 0
  let fit := min n ((len - off) / 32)
  let c := if fit < n then c.bump .dspReportDrop 12 [part] (n - fit) else c
  let recs := (List.range fit).flatMap fun i =>
    let s := kgetD c.dsp.service (first + i) {}
    serviceRec (if s.part = part then s else {}) c.timed (kgetD c.dsp.periodSeq part 0)
  let base := (c.localNode part).getD 0 * 2 ^ 52 + (rg.map fun s => (c.region s).base).getD 0 + off
  let ep := (rg.map fun s => (c.region s).epoch).getD 0
  ((chunksOf 128 recs.length recs).zipIdx).foldl (fun c b =>
    c.issue part (.report part) { opc := 4, addr := base + b.2 * 128, payload := b.1, handle := h, epoch := ep }) c

/-- SERVICE_REPORT: the end of a partition's service period (R102, R119). -/
def Chip.serviceReport (c : Chip) (part : Nat) : Chip :=
  if !c.due (kgetD c.dsp.periodAt part 0) (100 * max 1 (c.fld .dspGlbLimits 12 [] 31 20)) then c
  else (if bit (c.reg .dspPartCfg 12 [part]) 7 then c.writeReport part else c).endPeriod part

end Sys2Proof.Machine
end

