-- ==== Sys2Proof/Machine/Gtx.lean ====
section
/-! DEFINITION. Gyori transactions at the module (chapter 8): admission, the completion log,
multicast and trigger stores, messages, forwarding, and the answers to the device's own requests. -/

namespace Sys2Proof.Machine

/-! ### Check 1 (R279, R399) -/

/-- Within one 4 KiB block of the offset space. -/
def inBlock (addr n : Nat) : Bool := decide (offOf addr % 4096 + n ≤ 4096)

/-- Opcode, channel, LEN, alignment and reserved encodings. R279 names no reserved ATTR encodings beyond the
operations 11-15 and the format 3: that ATTR[6:4] of ATOMIC and ATTR[7:5] of REDUCE are such encodings, and
that the unused ATTR bits of the other opcodes are ignored, is the model's choice (notes/assumptions/95.md). -/
def formOk (vc : Nat) (r : Req) : Bool :=
  let n := r.payload.length
  let o := offOf r.addr
  decide (opcVc r.opc = vc) &&
  match r.opc with
  | 1 | 2 | 3 | 6 => n == 0 && o % 128 == 0
  | 4 => decide (8 ≤ n) && decide (n ≤ 128) && n % 8 == 0 && o % 8 == 0 && decide (o % 128 + n ≤ 128)
  | 5 => n == 128 && o % 128 == 0
  | 7 =>
    let w := if bit r.attr 7 then 4 else 8
    let op := r.attr % 16
    decide (op ≤ 10) && bits r.attr 6 4 == 0 && !(op == 10 && w == 8) && o % w == 0 &&
      n == (if op = 5 then 2 * w else w)
  | 8 | 9 | 10 => decide (1 ≤ n) && decide (n ≤ 4096) && inBlock r.addr n
  | 11 =>
    let e := if bits r.attr 3 2 = 0 then 4 else 2
    bits r.attr 3 2 != 3 && bits r.attr 7 5 == 0 && decide (2 ≤ n) && decide (n ≤ 4096) && n % e == 0 && o % e == 0 &&
      inBlock r.addr n
  | 12 => decide (16 ≤ n) && decide (n ≤ 4096) && o == 0
  | _ => false

/-- Opcodes that only a caching endpoint may use (R399). -/
def needsSharer (opc : Nat) : Bool := opc == 2 || opc == 3 || opc == 5 || opc == 6

/-- The source's sharer slot is marked LOST (R411). -/
def Chip.srcLost (c : Chip) (src : Nat) : Bool := (c.sharer? src).any fun i => c.slotLost i

/-! ### Checks 7 to 10 (R288, R434, R440) -/

/-- On whose behalf a request passes checks 7 to 10. -/
inductive Who where
  /-- A fabric source: its grants. -/
  | fabric
  /-- The test node: regions by address, checks 7 and 8 not made. -/
  | tester
  /-- The device for the partition itself: no grant. -/
  | device
  /-- A notification: the region by address. -/
  | notify
  deriving DecidableEq, Repr

/-- Where an admitted request lands, or the status that refuses it. -/
inductive Verdict where
  | ok (region obj off : Nat)
  | refuse (status info : Nat)
  deriving DecidableEq, Repr

/-- The 9-byte message a grant's TAG covers. -/
def grantMsg (slot gen epoch node rights session : Nat) : Bytes :=
  natLE 2 slot ++ natLE 1 gen ++ natLE 1 epoch ++ natLE 2 node ++ natLE 1 rights ++ natLE 2 session

def grantTag (r : Region) (slot node rights session : Nat) : Bytes :=
  (Config.hmac r.key (grantMsg slot r.gen r.epoch node rights session)).take 8

/-- A valid grant of the region names the node with the right, in its current session; an entry
whose tag does not verify is absent, counted and raised. -/
def Chip.grantOk (c : Chip) (slot node : Nat) (write : Bool) : Bool × Chip :=
  let ns := kgetD c.sec.nodes node {}
  let r := c.region slot
  let es := c.sec.grants.filter fun e => e.2.slot == slot && e.2.node == node &&
    bit e.2.rights (if write then 1 else 0) && ns.valid && e.2.session == ns.session
  let good := es.filter fun e => e.2.tag == grantTag r slot node e.2.rights e.2.session
  let bad := es.length - good.length
  let c := (List.range bad).foldl (fun c _ => (c.bump .secGrantTagFail 12).fwEvent Ev.grantTagFail none 0 0) c
  (!good.isEmpty, c)

/-- Any region of the partition grants the node the right. -/
def Chip.anyGrant (c : Chip) (part node : Nat) (write : Bool) : Bool × Chip :=
  (kkeys (c.sec.regions.filter fun e => e.2.valid && e.2.part == part)).foldl (fun r s =>
    let t := r.2.grantOk s node write
    (r.1 || t.1, t.2)) (false, c)

def isWrite (opc : Nat) : Bool := !(opc == 1 || opc == 2 || opc == 6 || opc == opcDevRead)

/-- Region that a request names. -/
def Chip.regionFor (c : Chip) (who : Who) (part : Nat) (r : Req) : Option Nat :=
  match who with
  | .tester | .notify =>
    (kkeys (c.sec.regions.filter fun e => e.2.valid && e.2.part == part && decide (e.2.base ≤ offOf r.addr) &&
      decide (offOf r.addr < e.2.base + e.2.len))).head?
  | _ => (c.regionOf r.handle).filter fun s => (c.region s).part == part

/-- Check 10: the object under the region (R193, R211, R221). -/
def Chip.checkObject (c : Chip) (s part : Nat) (r : Req) : Verdict × Chip :=
  let g := c.region s
  let o := c.obj g.obj
  if o.st = 5 then (.refuse 4 0, c.stall g.obj part [7])
  else if isWrite r.opc && !o.writable then (.refuse 2 4, c)
  else if o.st = 2 then (.refuse 1 0, c.stall g.obj part [2])
  else if o.st = 1 && o.demand then (.refuse 1 0, (c.stall g.obj part [2]).startLoad g.obj none)
  else if o.st = 1 || o.st = 0 then (.refuse 2 6, (c.stall g.obj part [3]).raise Ev.objAbsent [part])
  else (.ok s g.obj (g.objOff + offOf r.addr - g.base), c)

/-- Checks 7 to 10. -/
def Chip.checks (c : Chip) (who : Who) (part : Nat) (r : Req) : Verdict × Chip :=
  let off := offOf r.addr
  let n := reqLen r
  let reg := c.regionFor who part r
  let wr := isWrite r.opc
  let g : Bool × Chip := match who, reg with
    | .fabric, some s => if r.opc = 9 then c.anyGrant part r.src true else c.grantOk s r.src wr
    | .fabric, none => (false, c)
    | .device, x => (x.isSome, c)
    | _, _ => (true, c)
  let c := g.2
  if !(c.enabled 0x10 12) && who != .tester then (.refuse 2 1, c)
  else if !g.1 then (.refuse 2 1, c)
  else if (who == .fabric || who == .device) && (reg.map fun s => (c.region s).epoch) != some r.epoch then (.refuse 3 0, c)
  else if r.opc = 9 then
    match c.windowAt part off with
    | some w => if off + n ≤ w.base + w.size then (.ok (reg.getD 0) 0 0, c) else (.refuse 9 0, c)
    | none => (.refuse 9 0, c)
  else if who != .tester && (c.windows part).any fun w => rangesMeet off n w.base w.size then (.refuse 9 0, c)
  else
    match reg with
    | none => (.refuse 2 3, c)
    | some s =>
      let g := c.region s
      if g.base ≤ off ∧ off + n ≤ g.base + g.len then c.checkObject s part r else (.refuse 2 3, c)

/-! ### Performance of admitted requests -/

/-- Cells that hold payload bytes [lo, lo + n) of a message. -/
def cellsOf (cells : List Nat) (lo n : Nat) : List Nat :=
  (cells.drop (lo / 256)).take ((lo + n - 1) / 256 - lo / 256 + 1)

/-- References that a part holds to each of its cells: one for each bowl's queue entry, or one where the die has none
of the window's bowls (R356, R357). -/
def HeldStore.refs (h : HeldStore) (cells : List Nat) : List Nat :=
  (List.replicate (max 1 h.bowls.length) (cellsOf cells h.lo h.bytes.length)).flatten

/-- Pointers of a part on one bowl's queue: one for each of its cells. -/
def HeldStore.pointers (h : HeldStore) : Nat := (h.lo + h.bytes.length - 1) / 256 - h.lo / 256 + 1

/-- Pointers on the replication queue of a bowl at a port die, of its 512 (R19). -/
def Chip.replUsed (c : Chip) (src bowl : Nat) : Nat :=
  ((c.gtx.held.filter fun h => h.queued && h.src == src && h.bowls.contains bowl).map (·.pointers)).sum

/-- Bowls that a window names on a die (R357): the one of a FIXED window's descriptor, those of a ROUTED window's HELD
bindings, and the search bowl of a query window's index. -/
def Chip.winBowls (c : Chip) (w : Win) (die : Nat) : List Nat :=
  if w.query then [c.fld .sftIndexW1 12 [w.index] 12 0]
  else
    let ds := if w.routed then
        ((c.idxs .dspBind 12 fun e => bit e 31).filter fun b => decide (w.bindBase ≤ b) && decide (b < w.bindBase + w.bindCount)).map
          fun b => c.reg .dspBind 12 [b] % 16384
      else [w.desc]
    ((ds.map fun d => (c.desc d).bowl).filter fun b => c.launchDie b == die).dedup

/-- A part takes its queue entries, when the queues have room for all of them, and REF for them and for the set that
the part opens (R19, R358). -/
def Chip.queuePart (c : Chip) (h : HeldStore) (cells : List Nat) : Chip × HeldStore :=
  if (h.bowls.all fun b => decide (c.replUsed h.src b + h.pointers ≤ 512)) &&
      c.refsFit (cellsOf cells h.lo h.bytes.length) (max 1 h.bowls.length + 1) then
    (c.takeRefs (h.refs cells), { h with queued := true })
  else (c, h)

/-- Mark one die's part of a trigger store: its queue entries go. -/
def Chip.markHeld (c : Chip) (h : HeldStore) (cells : List Nat) : Chip :=
  let w := if h.query then c.qwin h.win else c.win h.win
  (c.markPart w h.slot (if h.query then 12 else h.die) h.off h.bytes (cellsOf cells h.lo h.bytes.length)).releaseCells
    (h.refs cells)

/-- A part must wait: its slot cannot take it, an earlier part for that slot waits (R84), or the switch cores do not
bring it to the die (R363, R369). -/
def Chip.mustHold (c : Chip) (h : HeldStore) (before : List HeldStore) : Bool :=
  let w := if h.query then c.qwin h.win else c.win h.win
  c.partHeld w h.slot (if h.query then 12 else h.die) || (!h.query && !c.pathOpen h.src h.die 0) ||
    before.any fun x => x.query == h.query && x.win == h.win && x.slot == h.slot && x.die == h.die

/-- A part comes to its queues: it is marked, or held. -/
def Chip.bringPart (c : Chip) (h : HeldStore) (cells : List Nat) : Chip :=
  let r := c.queuePart h cells
  if !r.2.queued || r.1.mustHold r.2 r.1.gtx.held then { r.1 with gtx := { r.1.gtx with held := r.1.gtx.held ++ [r.2] } }
  else r.1.markHeld r.2 cells

/-- Parts of the bytes from `lo` to `hi` of a trigger store, for each of its window's dies. -/
def Chip.rangeParts (c : Chip) (p : Pend) (lo hi : Nat) : List HeldStore :=
  let off := offOf p.req.addr
  match c.windowAt p.part off with
  | none => []
  | some w =>
    (c.markedParts w (off - w.base + lo) (sliceB p.req.payload lo (hi - lo))).flatMap fun t => w.dies.map fun d =>
      { die := d, query := w.query, win := w.idx, slot := t.1, off := t.2.1, bytes := t.2.2, pend := p.id, part := p.part
        lo := t.1 * w.setBytes + t.2.1 - (off - w.base), src := ((p.cells.head?).map cellDie).getD 8
        bowls := c.winBowls w d }

/-- The bytes from `lo` to `hi` of a trigger store go to the scoreboards. -/
def Chip.storeRange (c : Chip) (p : Pend) (lo hi : Nat) : Chip :=
  (c.rangeParts p lo hi).foldl (fun c h => c.bringPart h p.cells) c

def Chip.tstore? (c : Chip) (id : Nat) : Option TStore := c.gtx.tstores.find? fun t => t.id == id

/-- A trigger store whose parts all have their queue entries gives up the ingress's reference (R356); once they are
all marked, it is answered (R292). -/
def Chip.tstoreEnd (c : Chip) (id : Nat) : Chip :=
  match c.tstore? id with
  | none => c
  | some t =>
    let mine := c.gtx.held.filter fun h => h.pend == id
    let p := t.pend
    if p.got.isSome then c
    else if mine.isEmpty then
      let ts := c.gtx.tstores.filter fun x => x.id != id
      (({ c with gtx := { c.gtx with tstores := ts } }).freeCred p.cred).complete
        { p with cred := none, cells := if t.ingress then p.cells else [] }
    else if t.ingress && mine.all (·.queued) then
      let ts := modFirst (fun x => x.id == id) (fun x => { x with ingress := false }) c.gtx.tstores
      ({ c with gtx := { c.gtx with tstores := ts } }).releaseCells p.cells
    else c

/-- TSTORE: every part that has arrived is marked on each of the window's dies, or held at egress. -/
def Chip.tstore (c : Chip) (p : Pend) : Chip :=
  let t : TStore := { id := p.id, pend := p }
  let ts := c.gtx.tstores.filter fun x => x.id != p.id
  let c := { c with gtx := { c.gtx with tstores := ts ++ [t] } }
  (c.storeRange p 0 p.arrived).tstoreEnd p.id

/-- Parts without queue entries try again, in order (R358). -/
def Chip.requeue (c : Chip) : Chip :=
  let c := (c.gtx.held.filter fun h => !h.queued).foldl (fun c h =>
    match c.tstore? h.pend with
    | none => c
    | some t =>
      let r := c.queuePart h t.pend.cells
      { r.1 with gtx := { r.1.gtx with held := modFirst (fun x => x == h) (fun _ => r.2) r.1.gtx.held } }) c
  (c.gtx.tstores.filter (·.ingress)).foldl (fun c t => c.tstoreEnd t.id) c

/-- First held store of a die that can go: no earlier one for its slot waits. -/
def Chip.releasable (c : Chip) (die : Nat) : List HeldStore → List HeldStore → Option HeldStore
  | _, [] => none
  | seen, h :: t =>
    if h.die = die ∧ h.queued = true ∧ c.mustHold h seen = false then some h else Chip.releasable c die (seen ++ [h]) t

/-- HELD_STORE_RELEASE (R84). -/
def Chip.heldRelease (c : Chip) (die : Nat) : Chip :=
  let c := c.requeue
  match c.releasable die [] c.gtx.held with
  | none => c
  | some h =>
    let c := { c with gtx := { c.gtx with held := c.gtx.held.erase h } }
    match c.tstore? h.pend with
    | none => c
    | some t => ((c.markHeld h t.pend.cells).requeue).tstoreEnd h.pend

/-! ### MSTORE (R284, R285, R357) -/

/-- An entry of the group table: CTRL, PART, COUNT. -/
def Chip.groupHead (c : Chip) (g : Nat) : Nat × Nat × Nat :=
  let w := c.reg .gtxGroupW0 12 [g]
  (bits w 7 0, bits w 13 8, bits w 23 16)

/-- Target i of a group: BASE, HANDLE, EPOCH, KIND. -/
def Chip.groupTarget (c : Chip) (g i : Nat) : Nat × Nat × Nat × Nat :=
  let w := c.reg .gtxGroupHek 12 [g, i]
  (c.reg .gtxGroupBaseLo 12 [g, i] + 2 ^ 32 * c.reg .gtxGroupBaseHi 12 [g, i], bits w 15 0, bits w 23 16, bits w 24 24)

/-- A group entry as an MSTORE reads it whole at its admission, with R285's two refusals in place of checks
7 to 10. -/
def Chip.groupRead (c : Chip) (part : Nat) (r : Req) : Except (Nat × Nat) (List (Nat × Nat × Nat × Nat)) :=
  let g := r.opnd % 4096
  let h := c.groupHead g
  if !bit h.1 0 || h.2.2 == 0 || decide (15 < h.2.2) then .error (9, 0)
  else if h.2.1 ≠ part then .error (2, 1)
  else .ok ((List.range h.2.2).map (c.groupTarget g))

/-- Every target of an MSTORE has ended: answer it. -/
def Chip.mFinish (c : Chip) (x : MStore) : Chip :=
  let c := ({ c with gtx := { c.gtx with mstores := c.gtx.mstores.filter fun y => y.id != x.id } }).freeCred x.cred
  let p : Pend := { id := x.id, req := x.req, origin := x.origin, part := x.part }
  match minBy? (fun (f : Nat × Nat × Nat) => f.1) x.failed with
  | none => c.reply p 0 0 []
  | some f => c.reply p f.2.1 ((x.failed.map fun g => 2 ^ g.1).sum) [] true

/-- The answer to one target. -/
def Chip.mTargetAns (c : Chip) (mid i : Nat) (a : Ans) : Chip :=
  match c.gtx.mstores.find? fun x => x.id == mid with
  | none => c
  | some x =>
    let st := a.status.getD 4
    let trig := x.trig.erase i
    let c := if trig = [] then c.freeCred x.cred else c
    let x' := { x with
      left := x.left.erase i, failed := if st = 0 then x.failed else x.failed ++ [(i, st, a.info)]
      trig := trig, cred := if trig = [] then none else x.cred }
    if x'.left = [] then c.mFinish x'
    else { c with gtx := { c.gtx with mstores := modFirst (fun y => y.id == mid) (fun _ => x') c.gtx.mstores } }

/-- Start one target: a request of its own, local or out, with its pointer to the payload (R357). -/
def Chip.mTarget (c : Chip) (p : Pend) (i : Nat) : Chip :=
  let t := p.group.getD i (0, 0, 0, 0)
  let addr := (t.1 + offOf p.req.addr) % 2 ^ 64
  let r : Req := { opc := if t.2.2.2 = 1 then 9 else 8, addr := addr, handle := t.2.1, epoch := t.2.2.1, payload := p.req.payload }
  let d : DevReq := { id := c.gtx.nextId, part := p.part, owner := .mTarget p.id i, req := r, cells := p.cells }
  match c.node (nodeOf addr) with
  | .ports _ _ => c.issue p.part (.mTarget p.id i) r p.cells
  | .none => c.takeId.addJob { req := d, ans := some { status := some 5 } }
  | .here _ =>
    c.takeId.addJob { req := { d with dst := nodeOf addr, req := { r with src := p.req.src, tc := p.req.tc } } }

/-- The trigger targets of an MSTORE that are windows of this module. -/
def Chip.localTriggers (c : Chip) (p : Pend) : List Nat :=
  (List.range p.group.length).filter fun i =>
    let t := p.group.getD i (0, 0, 0, 0)
    t.2.2.2 == 1 && match c.node (nodeOf ((t.1 + offOf p.req.addr) % 2 ^ 64)) with
      | .here _ => true
      | _ => false

/-- MSTORE: every target that its group entry named takes one reference to the payload's cells and goes its own way,
and the ingress gives its own up (R356, R357): at most 15 targets, so that REF stays far below its limit. The link
credits return once no trigger store of it is held here. -/
def Chip.mstore (c : Chip) (p : Pend) : Chip :=
  let ts := List.range p.group.length
  let trig := c.localTriggers p
  let c := if trig = [] then c.freeCred p.cred else c
  let x : MStore := { id := p.id, req := p.req, origin := p.origin, part := p.part, left := ts
                      cred := if trig = [] then none else p.cred, trig := trig }
  let c := { c with gtx := { c.gtx with mstores := c.gtx.mstores ++ [x] } }
  let c := (c.takeRefs (ts.flatMap fun _ => p.cells)).releaseCells p.cells
  ts.foldl (fun c i => c.mTarget p i) c

/-- Perform an admitted request (check 11). -/
def Chip.perform (c : Chip) (p : Pend) : Chip :=
  match p.req.opc with
  | 5 | 6 =>
    match p.lines with
    | [] => c.complete p
    | l :: _ => c.runWb p l.1
  | 9 => c.tstore p
  | 10 => c.mstore p
  | 12 =>
    if 256 ≤ (c.queued p.part).length then (c.releaseCells p.cells).reply p 1 0 []
    else (c.queueMsg p.part p.req.payload).complete p
  | _ => c.runLines p false p.lines

/-- An admitted request crosses from the die where it arose or arrived to the homes of its lines, or to its window's
dies. -/
def Chip.crossings (c : Chip) (p : Pend) (die : Nat) : Chip :=
  let die := match p.origin with
    | .port _ _ => die
    | .dev o => (c.ownerDie? o).getD die
  if p.req.opc = 9 then
    (((c.windowAt p.part (offOf p.req.addr)).map fun w => if w.query then [] else w.dies).getD []).foldl (fun c d =>
      c.cross die d (pathHash p.req.addr p.req.tag p.req.src (nodeOf p.req.addr))) c
  else c.lineCrossings p die

/-! ### Admission of a fabric request (R288) -/

/-- Where a response goes that is due on the port by which its request came: there, or, where that port
carries no messages, on the route to the source (R272, R304). -/
def Chip.backPort (c : Chip) (p : Nat) (r : Req) : Option Nat :=
  if c.usable p then some p
  else if (c.port p).st = .retrain ∧ (c.routePort r.src (pathHash 0 r.tag r.src (nodeOf r.addr))).isNone then some p
  else none

/-- Refuse a request before check 3 has passed, on the port it came by. -/
def Chip.refuseAt (c : Chip) (p : Nat) (cells : List Nat) (cred : Option (Nat × Nat × Nat)) (part : Option Nat) (r : Req) (status info : Nat) : Chip :=
  ((c.releaseCells cells).freeCred cred).answer (c.backPort p r) part r status info

/-- Check 3 fails: refused, and BAD_SOURCE goes to firmware with GTX_CAPTURE (R288, R478). -/
def Chip.badSource (c : Chip) (p : Nat) (cells : List Nat) (cred : Option (Nat × Nat × Nat)) (part : Option Nat) (r : Req) : Chip :=
  let c := c.refuseAt p cells cred part r 2 2
  c.raise Ev.badSource [] (c.reg .gtxCapture 12)

/-- End an admitted or refused request with a status, on the route to its source. -/
def Chip.refusePend (c : Chip) (x : Pend) (status info : Nat) : Chip :=
  ((c.releaseCells x.cells).freeCred x.cred).reply { x with cells := [], cred := none } status info []

/-- Forward a request unchanged (R273, R354). -/
def Chip.forward (c : Chip) (p vc : Nat) (r : Req) (cells : List Nat) (cred : Option (Nat × Nat × Nat)) : Chip :=
  let dst := nodeOf r.addr
  let h := pathHash r.addr r.tag r.src dst
  match c.routePort dst h with
  | none => ((c.releaseCells cells).freeCred cred).bump .gtxFwdDrop 12
  | some q =>
    c.enqueue q
      { vc := vc, tc := r.tc, bytes := packReq r, payload := r.payload.length, cells := cells, dst := dst, hash := h,
        leaf := portDie p * 256 + portLocal p, cred := cred }

/-- Result of the log check. -/
inductive LogRes where
  | new (c : Chip)
  | replay (e : LogEnt)
  | wait (c : Chip)
  | stale
  deriving Inhabited

/-- Log check of R295 for tag `t` of stream `s`; a duplicate that waits does so as `x`. -/
def Chip.logCheck (c : Chip) (s t : Nat) (x : Dup) : LogRes :=
  let st := c.stream s
  let ext := match st.h with
    | none => 0x10000 + t
    | some h =>
      let d := (t + 0x10000 - h % 0x10000) % 0x10000
      if d < 0x8000 then h + d else h + d - 0x10000
  let h := st.h.getD ext
  if st.h.isSome ∧ ext + 1024 ≤ h then .stale
  else
    let k := ext % 1024
    match kfind? st.log k with
    | some e =>
      if e.seq = ext then
        if e.done then .replay e
        else .wait (c.setStream s { st with log := kput st.log k { e with waiters := e.waiters ++ [x] } })
      else .new (c.setStream s { st with h := some (max ext h), log := kput st.log k { seq := ext } })
    | none => .new (c.setStream s { st with h := some (max ext h), log := kput st.log k { seq := ext } })

/-- Checks 7 to 10, or what stands in their place (R285, R287), with the group that an MSTORE read. -/
def Chip.lateChecks (c : Chip) (tester : Bool) (part : Nat) (r : Req) : Verdict × List (Nat × Nat × Nat × Nat) × Chip :=
  if r.opc = 12 then (.ok 4096 0 0, [], c)
  else if r.opc = 10 then
    match c.groupRead part r with
    | .error e => (.refuse e.1 e.2, [], c)
    | .ok g => (.ok 4096 0 0, g, c)
  else
    let v := c.checks (if tester then .tester else .fabric) part r
    (v.1, [], v.2)

/-- A request waits for its partition's share on a die: it does not fit, or an older one of its class waits
(R20, R350). -/
def Chip.shareWaits (c : Chip) (die part opc n : Nat) : Bool :=
  n != 0 && ((c.gtx.shareWait.any fun w => w.die == die && w.pend.part == part && opcVc w.pend.req.opc == opcVc opc) ||
    !c.shareFits die part n)

/-- The request waits there, and is counted. -/
def Chip.waitShare (c : Chip) (die : Nat) (x : Pend) : Chip :=
  let w : ShareWait := { die := die, pend := x }
  ({ c with gtx := { c.gtx with shareWait := c.gtx.shareWait ++ [w] } }).bump .swcShareWait die

/-- Stores to windows keep their link credits until they are marked (R84); others return them here. -/
def Chip.startAdmitted (c : Chip) (x : Pend) (die : Nat) : Chip :=
  let keep := decide (x.req.opc = 9 ∨ x.req.opc = 10)
  let c := if keep then c else c.freeCred x.cred
  (c.crossings x die).perform { x with cred := if keep then x.cred else none }

/-- Checks 5 to 10, the counts, the move to the partition's share, and the performance. -/
def Chip.admitOne (c : Chip) (p : Nat) (x : Pend) : Chip :=
  let r := x.req
  let tester := c.boot.state = .test &&
    (let w := c.reg .secTestNode 12; bit w 31 && bits w 11 0 == r.src)
  if !(c.inService || tester) || c.mcs.stewardAt.isSome || c.srcLost r.src then c.refusePend x 7 0
  else
    match (kgetD c.parts x.part {}).st with
    | .draining => c.refusePend x 8 0
    | .resetting => c.refusePend x 8 0
    | .building => c.refusePend x 2 7
    | .free => c.refusePend x 2 7
    | .active =>
      match c.lateChecks tester x.part r with
      | (.refuse status info, _, c) => c.refusePend x status info
      | (.ok region obj off, group, c) =>
        let x := { x with
          region := region, obj := obj, off := off, group := group
          lines := if r.opc = 9 ∨ r.opc = 10 ∨ r.opc = 12 then [] else c.poolLines obj off (reqLen r) }
        let c := c.bump (if opcVc r.opc = 0 then .gtxLineReq else .gtxBulkReq) 12 [x.part]
        let die := portDie p
        if c.shareWaits die x.part r.opc x.cells.length then c.waitShare die x
        else (c.chargeCells x.cells (64 + x.part)).startAdmitted x die

/-- A request to a LOCAL node after check 3: the log check, then the rest. `cut`: the number that a message handed over
under cut-through has, and its payload bytes that have arrived. -/
def Chip.toLocal (c : Chip) (p part : Nat) (r : Req) (cells : List Nat) (cred : Option (Nat × Nat × Nat))
    (cut : Option (Nat × Option Nat) := none) : Chip :=
  let id := (cut.map (·.1)).getD c.gtx.nextId
  let got := cut.bind (·.2)
  let x : Pend := { id := id, req := r, origin := .port p none, part := part, cells := cells, cred := cred, got := got }
  if !opcLogged r.opc then c.takeId.admitOne p x
  else
    match c.stream? r.src part with
    | none => c.refusePend x 2 5
    | some s =>
      let home := match c.node r.src with
        | .ports a _ => portDie a
        | _ => portDie p
      let c := c.cross (portDie p) home (pathHash r.addr r.tag r.src (nodeOf r.addr))
      let drop (c : Chip) : Chip := (c.releaseCells cells).freeCred cred
      match c.logCheck s r.tag { id := id, port := p, req := r, cells := cells, cred := cred, got := got } with
      | .stale => ((drop c).bump .gtxStale 12 [part]).raise Ev.staleDrop [part] (c.reg .gtxCapture 12)
      | .replay e =>
        let a := e.rsp
        ((drop c).bump .gtxReplayed 12 [part]).sendRsp none { a with replay := true, tag := r.tag } part (some home)
      | .wait c => c.takeId
      | .new c =>
        let k := r.tag % 1024
        c.takeId.admitOne p { x with origin := .port p (some (s, k)) }

/-- A request arrives at a port (or waits there whole): the policer, the node type, the source. -/
def Chip.arrive (c : Chip) (p vc : Nat) (r : Req) (cells : List Nat) (cred : Option (Nat × Nat × Nat))
    (cut : Option (Nat × Option Nat) := none) : Chip :=
  let kind := c.node (nodeOf r.addr)
  let part := match kind with
    | .here q => some q
    | _ => none
  let c := match part with
    | some q => if r.re then c.bump .gtxReissued 12 [q] else c
    | none => c
  if !c.enabled 3 12 then c.refuseAt p cells cred part r 7 0
  else
    let fwd := match kind with
      | .ports _ _ => true
      | _ => false
    if !fwd && !(formOk vc r && (!needsSharer r.opc || (c.enabled 6 12 && (c.sharer? r.src).isSome))) then c.refuseAt p cells cred part r 9 0
    else
      let pol := c.police p r.tc (32 + r.payload.length)
      let c := pol.2
      match pol.1 with
      | .retry =>
        let c := match part with
          | some q => c.raise Ev.ownShareExceeded [q]
          | none => c
        c.refuseAt p cells cred part r 1 0
      | dm =>
        let r := match dm with
          | .demote tc => { r with tc := tc }
          | _ => r
        let srcOk := match c.node r.src with
          | .ports a b => a == p || b == p
          | _ => false
        match kind with
        | .none => c.refuseAt p cells cred none r 5 0
        | .here q =>
          if srcOk then c.toLocal p q r cells cred cut
          else c.badSource p cells cred (some q) r
        | .ports _ _ =>
          if srcOk then c.forward p vc r cells cred
          else c.badSource p cells cred none r

/-- A held GTX_STREAM write makes new requests of its stream wait; a duplicate of a logged one does not (R304). -/
def Chip.streamWaits (c : Chip) (r : Req) : Bool :=
  match c.node (nodeOf r.addr) with
  | .here q => opcLogged r.opc && ((c.stream? r.src q).any fun s => (c.stream s).held.isSome &&
      match c.logCheck s r.tag {} with
      | .new _ => true
      | _ => false)
  | _ => false

/-- The switch core of the port's die moves messages (R369). -/
def Chip.moves (c : Chip) (p : Nat) : Bool := c.enabled 4 (portDie p)

/-- A request that waits at its port. -/
structure Found where
  msg : InMsg
  cells : List Nat
  cred : Option (Nat × Nat × Nat) := none
  /-- Payload bytes that have arrived of one handed over under cut-through. -/
  got : Option Nat := none

/-- The entry of a port's inbox that a request row names. -/
def Port.findReq (q : Port) (p vc : Nat) (r : Req) : Option Found :=
  q.inbox.findSome? fun m => match m with
    | .req v x cells n => if v = vc ∧ x = r then some { msg := m, cells := cells, cred := if n = 0 then none else some (p, vc, n) } else none
    | .cut v x cells g => if v = vc ∧ x = r then some { msg := m, cells := cells, got := some g } else none
    | _ => none

/-- A message to a node that is not LOCAL is stored whole first (R354). -/
def Chip.cutHeld (c : Chip) (r : Req) (f : Found) : Bool :=
  f.got.isSome && match c.node (nodeOf r.addr) with
    | .here _ => false
    | _ => true

/-- Home slice that a request goes to first, and the partition in whose requester queue it stands (R365, R376). -/
def Chip.sliceOf (c : Chip) (r : Req) : Option (Nat × Nat) :=
  match c.node (nodeOf r.addr) with
  | .here q =>
    if r.opc = 9 ∨ r.opc = 10 ∨ r.opc = 12 then none
    else (c.regionFor .fabric q r).map fun s =>
      let g := c.region s
      (c.lineDie ((c.copies (c.obj g.obj) ((g.objOff + offOf r.addr - g.base) / 128 * 128)).1 / 128), q)
  | _ => none

/-- Leaf of a requester queue at a home slice. -/
def Chip.reqLeaf (c : Chip) (p q : Nat) (r : Req) : Leaf :=
  { die := portDie p, idx := q, w := c.partW q, cost := max 1 (cdiv r.payload.length 256) }

/-- Leaves of a slice's tree with a request that waits at a port and could go. -/
def Chip.reqLeaves (c : Chip) (slice : Nat) : List Leaf :=
  let req (m : InMsg) : Option Req := match m with
    | .req _ r _ _ => some r
    | .cut _ r _ _ => some r
    | _ => none
  let ls := c.lnk.ports.flatMap fun e => (e.2.inbox.filterMap req).filterMap fun r =>
    (c.sliceOf r).bind fun d => if d.1 = slice ∧ c.moves e.1 = true ∧ c.streamWaits r = false then some (c.reqLeaf e.1 d.2 r) else none
  oneEach ls

/-- The trees at its home slice give a request that waits at a port the turn (R365): the state after it; one that
goes to no slice needs none. -/
def Chip.homeTurn (c : Chip) (p : Nat) (r : Req) : Option Chip :=
  match c.sliceOf r with
  | none => some c
  | some (slice, q) =>
    let mine := c.reqLeaf p q r
    let ls := (c.reqLeaves slice).map fun x => if x.same mine then mine else x
    (c.treePick (sliceTree slice) slice ls ls).bind fun t => if t.1.same mine then some t.2 else none

/-- A requester queue that has nothing left loses its deficit (R367). -/
def Chip.homeIdle (c : Chip) (r : Req) : Chip :=
  match c.sliceOf r with
  | none => c
  | some (slice, _) => c.treeIdle (sliceTree slice) (c.reqLeaves slice)

/-- A request row: the message waits at its port, whole or handed over under cut-through (R353), or arrives now on a
usable port. -/
def Chip.request (c : Chip) (p vc opc : Nat) (r : Req) : Chip :=
  let r := { r with opc := opc }
  match (c.port p).findReq p vc r with
  | some f =>
    if c.streamWaits r || !c.moves p || c.cutHeld r f then c
    else
      match c.homeTurn p r with
      | none => c
      | some c =>
      let c := (c.modPort p fun q => { q with inbox := delFirst (fun m => decide (m = f.msg)) q.inbox }).homeIdle r
      match f.got with
      | none => c.arrive p vc r f.cells f.cred
      | some g =>
        let id := c.gtx.nextId
        (c.takeId.modPort p fun q => { q with rxMode := q.rxMode.set vc (.fed id) }).arrive p vc r f.cells none (some (id, some g))
  | none =>
    if !c.portExists p || !c.usable p then c
    else
      let a := c.allocCells (portDie p) (cdiv r.payload.length 256) (portLocal p)
      if a.1.streamWaits r || !c.moves p then a.1.modPort p fun q => { q with inbox := q.inbox ++ [.req vc r a.2 0] }
      else a.1.arrive p vc r a.2 none

/-- Requests whose opcode or channel has no row of its own are dealt with as they arrive. -/
def Chip.strays (c : Chip) (p : Nat) : Chip :=
  (c.port p).inbox.foldl (fun c m => match m with
    | .req vc r cells n =>
      if (2 ≤ vc ∨ knownReq r.opc = false) ∧ c.moves p then
        (c.modPort p fun q => { q with inbox := delFirst (fun x => decide (x = m)) q.inbox }).arrive p vc r cells
          (if n = 0 then none else some (p, vc, n))
      else c
    | _ => c) c

/-- Cells that an admitted request needs: those it holds, or, of the device's own, those of its payload. -/
def Pend.need (x : Pend) : Nat :=
  match x.origin with
  | .port _ _ => x.cells.length
  | .dev _ => cdiv x.req.payload.length 256

/-- A request that its share can take goes on. -/
def Chip.takeShare (c : Chip) (die : Nat) (x : Pend) : Chip :=
  match x.origin with
  | .port _ _ => (c.chargeCells x.cells (64 + x.part)).startAdmitted x die
  | .dev _ =>
    let a := c.allocCells die x.need (64 + x.part)
    a.1.startAdmitted { x with cells := a.2 } die

/-- SHARE_WAIT_RESUME (R350): of each class the oldest request that waits for the share goes on when it fits;
else the requests of the device that are held try again. -/
def Chip.shareResume (c : Chip) (part die : Nat) : Chip :=
  let head (vc : Nat) := c.gtx.shareWait.find? fun w => w.die == die && w.pend.part == part && opcVc w.pend.req.opc == vc
  match ([head 0, head 1].filterMap id).find? fun w => c.shareFits die part w.pend.need with
  | none => c.retryHeld
  | some w => ({ c with gtx := { c.gtx with shareWait := c.gtx.shareWait.erase w } }).takeShare die w.pend

/-! ### Messages handed over under cut-through (R353, R355) -/

/-- What has come of a request, the rest zero. -/
def CutMsg.into (m : CutMsg) (r : Req) : Req := { r with payload := m.bytes ++ zerosB (r.payload.length - m.bytes.length) }
def CutMsg.got (m : CutMsg) : Option Nat := if m.whole.isSome then none else some m.bytes.length
def CutMsg.cred (m : CutMsg) : Option (Nat × Nat × Nat) := m.whole.map fun n => (m.port, m.vc, n)

/-- The same into an admitted request that keeps its link credits. -/
def CutMsg.pend (m : CutMsg) (p : Pend) : Pend :=
  { p with req := m.into p.req, got := m.got, cred := if m.whole.isSome then m.cred else p.cred }

def CutMsg.dup (m : CutMsg) (x : Dup) : Dup :=
  if x.id = m.id then { x with req := m.into x.req, got := m.got, cred := if m.whole.isSome then m.cred else x.cred } else x

/-- A duplicate with the number waits. -/
def Chip.dup? (c : Chip) (id : Nat) : Option Dup :=
  (c.gtx.streams.flatMap fun e => e.2.log.flatMap fun l => l.2.waiters).find? fun x => x.id == id

/-- Change the duplicates that wait. -/
def Chip.modDups (c : Chip) (f : List Dup → List Dup) : Chip :=
  let log (l : LogEnt) : LogEnt := { l with waiters := f l.waiters }
  let ss := c.gtx.streams.map fun e => let y := e.2; (e.1, { y with log := y.log.map fun l => (l.1, log l.2) })
  { c with gtx := { c.gtx with streams := ss } }

/-- More of a message has come: the home and the scoreboards go on with it (R353). -/
def Chip.feedCut (c : Chip) (m : CutMsg) : Chip :=
  match c.pend? m.id, c.tstore? m.id, c.gtx.shareWait.find? (fun w => w.pend.id == m.id), c.dup? m.id with
  | some p, _, _, _ =>
    let p' := { p with req := m.into p.req, got := m.got }
    let c := (c.setPend p').freeCred m.cred
    if p.lines.head?.any fun l => p.awaits l.2 then c.runLines p' false p'.lines else c
  | none, some t, _, _ =>
    let p := m.pend t.pend
    let ts := modFirst (fun x => x.id == m.id) (fun x => { x with pend := p }) c.gtx.tstores
    (({ c with gtx := { c.gtx with tstores := ts } }).storeRange p t.pend.arrived p.arrived).tstoreEnd m.id
  | none, none, some _, _ =>
    let ws := modFirst (fun x => x.pend.id == m.id) (fun x => { x with pend := m.pend x.pend }) c.gtx.shareWait
    { c with gtx := { c.gtx with shareWait := ws } }
  | none, none, none, some _ => c.modDups fun l => l.map m.dup
  | none, none, none, none => c.freeCred m.cred

/-- The log slot of a truncated request is cleared, and the duplicates that wait on it are checked as new (R355). -/
def Chip.clearSlot (c : Chip) (p : Pend) : Chip :=
  match p.origin with
  | .port _ (some (s, k)) =>
    let st := c.stream s
    let ws := ((kfind? st.log k).map (·.waiters)).getD []
    let c := c.setStream s { st with log := kdel st.log k }
    (ws.foldl (fun c x => c.toLocal x.port p.part x.req x.cells x.cred (some (x.id, x.got))) c).settleStream s
  | _ => c

/-- A truncated request ends: what it has performed stays (R355). -/
def Chip.truncated (c : Chip) (m : CutMsg) (cells : List Nat) : Chip := (c.releaseCells cells).bump .swcCtTrunc (portDie m.port)

/-- The arrival port of a message handed over under cut-through has gone before its tail came (R355). -/
def Chip.abortCut (c : Chip) (m : CutMsg) : Chip :=
  match c.pend? m.id, c.tstore? m.id, c.gtx.shareWait.find? (fun w => w.pend.id == m.id), c.dup? m.id with
  | some p, _, _, _ =>
    let c := match p.lines.head?, c.stalledAt p with
      | some l, some _ => c.endTxn l.1
      | _, _ => c
    ((c.delPend m.id).truncated m p.cells).clearSlot p
  | none, some t, _, _ =>
    let mine := c.gtx.held.filter fun h => h.pend == m.id
    let rest := c.gtx.held.filter fun h => h.pend != m.id
    let ts := c.gtx.tstores.filter fun x => x.id != m.id
    let ks := ((mine.filter (·.queued)).map fun h => h.refs t.pend.cells).flatten
    (({ c with gtx := { c.gtx with held := rest, tstores := ts } }).truncated m
      (ks ++ if t.ingress then t.pend.cells else [])).clearSlot t.pend
  | none, none, some w, _ =>
    (({ c with gtx := { c.gtx with shareWait := c.gtx.shareWait.erase w } }).truncated m w.pend.cells).clearSlot w.pend
  | none, none, none, some x => (c.modDups fun l => l.filter fun y => y.id != m.id).truncated m x.cells
  | none, none, none, none => c

/-- News of the step about messages handed over under cut-through. -/
def Chip.cutAll (c : Chip) : Chip :=
  c.gtx.cuts.foldl (fun c m => if m.gone then c.abortCut m else c.feedCut m) { c with gtx := { c.gtx with cuts := [] } }

/-! ### Requests of the device to LOCAL nodes (R301, R402, R435) -/

/-- Port die whose buffer holds a request of the device on its way to a LOCAL node: the engine's (R347), the
one an MSTORE came by, or PD0 where the spec names none (notes/assumptions/97.md). -/
def Chip.ownerDie (c : Chip) (o : Owner) : Nat := ((c.ownerDie? o).filter fun d => decide (8 ≤ d)).getD 8

/-- A request that met an object on its way from flash waits for its load (R146); the object, if it does. -/
def Chip.loadHolds (c : Chip) (d : DevReq) (who : Who) (q : Nat) : Option Nat :=
  if d.causes.contains 2 then
    ((c.regionFor who q d.req).map fun s => (c.region s).obj).filter fun o =>
      (c.obj o).st == 2 || ((c.obj o).st == 1 && (c.obj o).demand)
  else none

/-- Perform a device-issued request to a LOCAL node, or answer it. It is counted, charged and made to wait
as one that arrived at a port (R18); one answered RETRY because its object is being loaded is issued again
once the load has ended (R146, R177). -/
def Chip.performLocal (c : Chip) (d : DevReq) (q : Nat) : Chip :=
  let r := d.req
  let fail (c : Chip) (status info : Nat) : Chip :=
    (c.devRefused d.owner q r status info).addJob { req := d, ans := some { status := some status, info := info } }
  let isNotify := match d.owner with
    | .notify _ _ => true
    | _ => false
  let isTarget := match d.owner with
    | .mTarget _ _ => true
    | _ => false
  let st := (kgetD c.parts q {}).st
  if !c.enabled 4 (c.ownerDie d.owner) then c.holdDevReq d
  else if isTarget && q != d.part then fail c 2 1
  else if (st = .resetting ∨ (st = .draining ∧ d.part ≠ q)) ∧ isNotify = false then fail c 8 0
  else if (st = .building ∨ st = .free) ∧ isNotify = false then fail c 2 7
  else
    let who : Who := if isNotify then .notify
      else if isTarget then (if c.boot.state = .test then .tester else .fabric)
      else if q = d.part then .device else .fabric
    match c.loadHolds d who q with
    | some o => (if (c.obj o).st = 1 then c.startLoad o none else c).holdDevReq d
    | none =>
      match c.checks who q r with
      | (.refuse status info, c) =>
        if status = 1 ∧ isTarget = false then (c.devRefused d.owner q r 1 info).holdDevReq { d with causes := [2] }
        else fail c status info
      | (.ok region obj off, c) =>
        let x : Pend := {
          id := c.gtx.nextId, req := r, origin := .dev d.owner, part := q, region := region, obj := obj, off := off
          lines := if r.opc = 9 then [] else c.poolLines obj off (reqLen r), cells := d.cells, causes := d.causes }
        let die := c.ownerDie d.owner
        let c := c.takeId
        if d.owner.charged then
          let c := c.bump (if opcVc r.opc = 0 ∨ r.opc = opcDevRead then .gtxLineReq else .gtxBulkReq) 12 [q]
            (if r.opc = opcDevRead then x.lines.length else 1)
          if c.shareWaits die q r.opc x.need then c.waitShare die x else c.takeShare die x
        else (c.crossings x die).perform x

/-! ### Responses (R273, R290, R301, R302) -/

/-- RETRY to one of the module's own requests: the same request again, with RSV set. -/
def Chip.devRetry (c : Chip) (d : DevReq) (rsv : Nat) : Chip :=
  let q := d.req
  c.retryUnsent { d with unsent := false, req := { q with rsv := rsv } }

/-- The entry of a port's inbox that an RSP row names, with its cells and flits. -/
def Port.findRsp (q : Port) (r : Rsp) : Option (InMsg × List Nat × Nat) :=
  q.inbox.findSome? fun m => match m with
    | .rsp x cells n => if x = r then some (m, cells, n) else none
    | _ => none

/-- Forward a response; it stays on its port account until its cells are freed (R273, R350). -/
def Chip.forwardRsp (c : Chip) (p : Nat) (r : Rsp) (cells : List Nat) (cred : Option (Nat × Nat × Nat)) : Chip :=
  match c.routePort r.dst (pathHash 0 r.tag r.dst r.src) with
  | none => ((c.releaseCells cells).freeCred cred).bump .gtxRspDrop 12
  | some q =>
    let m := rspMsg r
    c.enqueue q { m with cells := cells, cred := cred, home := some (portDie p), acct := none }

/-- A response is dealt with: what it brought is used, or it goes on. -/
def Chip.takeRsp (c : Chip) (p : Nat) (r : Rsp) (cells : List Nat) (cred : Option (Nat × Nat × Nat)) : Chip :=
  let drop (c : Chip) : Chip := (c.releaseCells cells).freeCred cred
  match c.node r.dst with
  | .none => (drop c).bump .gtxRspDrop 12
  | .ports _ _ => c.forwardRsp p r cells cred
  | .here q =>
    let c := drop c
    match c.gtx.devReqs.find? fun d => d.part == q && d.dst == r.src && d.req.tag == r.tag with
    | none => c
    | some d =>
      let c := ((c.ownerDie? d.owner).map fun x => c.cross (portDie p) x (pathHash 0 r.tag r.dst r.src)).getD c
      if r.status = 1 then c.devRetry d r.info
      else
        let ds := c.gtx.devReqs.filter fun x => x.id != d.id
        (({ c with gtx := { c.gtx with devReqs := ds } }).addJob
          { req := d, ans := some { status := some r.status, info := r.info, tgt := r.tgt, data := r.data } }).retryHeld

/-- RSP: a response waits at its port, or arrives now on a usable port. -/
def Chip.response (c : Chip) (p : Nat) (r : Rsp) : Chip :=
  match (c.port p).findRsp r with
  | some (m, cells, n) =>
    if !c.moves p then c
    else (c.modPort p fun q => { q with inbox := delFirst (fun x => decide (x = m)) q.inbox }).takeRsp p r cells
      (if n = 0 then none else some (p, 3, n))
  | none =>
    if !(c.portExists p && c.usable p) then c
    else
      let a := c.allocCells (portDie p) (cdiv r.data.length 256) (portLocal p)
      if c.moves p then a.1.takeRsp p r a.2 none
      else a.1.modPort p fun q => { q with inbox := q.inbox ++ [.rsp r a.2] }

/-- RSP_TIMEOUT (R302). -/
def Chip.rspTimeout (c : Chip) (id : Nat) : Chip :=
  match c.gtx.devReqs.find? fun d => d.id == id with
  | none => c
  | some d =>
    if !c.due d.issued (max 1 (c.fld .gtxGlb 12 [] 15 0)) then c
    else
      let put (d : DevReq) : Chip :=
        { c with gtx := { c.gtx with devReqs := modFirst (fun x => x.id == id) (fun _ => d) c.gtx.devReqs } }
      let retraining := d.port.any fun p => (c.port p).st == .retrain
      if retraining then put { d with issued := c.tick }
      else if c.fld .gtxGlb 12 [] 31 24 ≤ d.reissues then
        let ds := c.gtx.devReqs.filter fun x => x.id != id
        (({ c with gtx := { c.gtx with devReqs := ds } }).giveUp d).retryHeld
      else
        let q := d.req
        let d' := { d with reissues := d.reissues + 1, issued := c.tick, req := { q with re := true } }
        let other := match c.node d.dst, d.port with
          | .ports a b, some p =>
            let o := if p = a then b else a
            if c.usable o then some o else if c.usable p then some p else none
          | .ports _ _, none => c.routePort d.dst (pathHash q.addr q.tag q.src d.dst)
          | _, _ => none
        match other with
        | none => put { d' with port := none, unsent := false }
        | some o =>
          let ds := c.gtx.devReqs.filter fun x => x.id != id
          ({ c with gtx := { c.gtx with devReqs := ds } }).sendAgainOn d' (some o)

/-- The entry of a port's inbox that an SNP_RSP row names, with its cells and flits. -/
def Port.findSnp (q : Port) (r : SnpRsp) : Option (InMsg × List Nat × Nat) :=
  q.inbox.findSome? fun m => match m with
    | .snp x cells n => if x = r then some (m, cells, n) else none
    | _ => none

/-- A snoop response crosses to the home that sent the snoop. -/
def Chip.takeSnp (c : Chip) (p : Nat) (r : SnpRsp) : Chip :=
  (c.cross (portDie p) (r.tag / 8192) (pathHash 0 r.tag r.dst r.src)).snpRsp r

/-- SNP_RSP: a snoop response waits at its port, or arrives now on a usable port (R403). -/
def Chip.snoopAnswer (c : Chip) (p : Nat) (r : SnpRsp) : Chip :=
  match (c.port p).findSnp r with
  | some (m, cells, n) =>
    if !c.moves p then c
    else
      let c := c.modPort p fun q => { q with inbox := delFirst (fun x => decide (x = m)) q.inbox }
      ((c.releaseCells cells).freeCred (if n = 0 then none else some (p, 3, n))).takeSnp p r
  | none =>
    if !(c.portExists p && c.usable p) then c
    else if c.moves p then c.takeSnp p r
    else
      let a := c.allocCells (portDie p) (cdiv r.line.length 256) (portLocal p)
      a.1.modPort p fun q => { q with inbox := q.inbox ++ [.snp r a.2] }

end Sys2Proof.Machine
end

