-- ==== Sys2Proof/Machine/Placement.lean ====
section
/-! DEFINITION. Placement commands, loads, tile fills, refetches and compressor jobs (R175-R191,
R205-R211, R609). -/

namespace Sys2Proof.Machine

/-! ### Object table (R201) -/

/-- The 32-byte entry of an object. -/
def objEntry (o : Obj) : Bytes :=
  natLE 1 o.st ++ natLE 1 o.kind ++ natLE 1 o.part ++
  natLE 1 (b2n o.writable + 2 * b2n o.compressed + 4 * b2n o.demand) ++ natLE 4 o.stalls ++
  natLE 8 o.size ++ natLE 8 o.base ++ natLE 4 o.bundle ++ natLE 2 o.entry ++ natLE 1 o.lastStall ++ zerosB 1

def objIdOk (id : Nat) : Bool := decide (1 ≤ id) && decide (id < 262144)

def Chip.partOf (c : Chip) (p : Nat) : Part := kgetD c.parts p {}

/-- The partition takes placement, table, region and grant commands: BUILDING or ACTIVE (R459, R463). -/
def Chip.partTakes (c : Chip) (p : Nat) : Bool :=
  (c.partOf p).st = .building || (c.partOf p).st = .active

/-- Refusal of a command that names an existing object: NOT_FOUND, DENIED or STATE. -/
def Chip.objRefusal (c : Chip) (s : Session) (id : Nat) : Option Nat :=
  let o := c.obj id
  if ¬ objIdOk id ∨ o.st = 0 then some 5
  else if ¬ s.mayTouch o.part then some 3
  else if ¬ c.enabled 7 12 ∨ ¬ c.partTakes o.part then some 2
  else none

/-- OBJ_REGISTER (R205): from the authenticated manifest of a completed bundle. -/
def Chip.objRegister (c : Chip) (id bundle entry part demand : Nat) : CmdRes :=
  if ¬ objIdOk id ∨ 64 ≤ part ∨ 2 ≤ demand then .done c 4 0 []
  else if (c.obj id).st ≠ 0 ∨ ¬ c.enabled 7 12 ∨ ¬ c.partTakes part then .done c 2 0 []
  else
    match c.bundle? bundle with
    | none => .done c 5 0 []
    | some b =>
      if ¬ b.complete then .done c 2 0 []
      else if b.entries ≤ entry then .done c 5 0 []
      else
        let e := b.entry entry
        .done (c.setObj id
          { st := 1, kind := fieldB e 0 1, part := part, compressed := bit (fieldB e 1 1) 1,
            demand := demand == 1, size := fieldB e 8 8, bundle := bundle, entry := entry }) 0 0 []

/-- OBJ_CREATE (R205): a mirrored extent of zeros. -/
def Chip.objCreate (c : Chip) (id part kind size : Nat) : CmdRes :=
  if ¬ objIdOk id ∨ 64 ≤ part ∨ 4 ≤ kind ∨ size = 0 then .done c 4 0 []
  else if (c.obj id).st ≠ 0 ∨ ¬ c.enabled 7 12 ∨ ¬ c.partTakes part then .done c 2 0 []
  else
    let c1 := c.setObj id { st := 4, kind := kind, part := part, writable := true, size := size }
    match c1.allocExtent id (2 * ((size + 4095) / 4096 * 4096)) with
    | none => .done c 6 0 []
    | some c2 => .done (c2.scrubExtent (c2.obj id)) 0 0 (natLE 8 (c2.obj id).base)

/-- OBJ_LOAD (R205, R449). A demand load in progress completes it too (R223). -/
def Chip.objLoad (c : Chip) (s : Session) (reqId id : Nat) : CmdRes :=
  match c.objRefusal s id with
  | some st => .done c st 0 []
  | none =>
    let o := c.obj id
    if o.st = 2 ∧ c.mem.loads.any (fun l => l.obj == id && l.cmds.isEmpty) then
      let ls := modFirst (fun l => l.obj == id) (fun l => { l with cmds := [(s.id, reqId)] }) c.mem.loads
      .run { c with mem := { c.mem with loads := ls } } id
    else if o.st ≠ 1 ∨ (c.bundleKey? o.bundle).isNone then .done c 2 0 []
    else .run (c.startLoad id (some (s.id, reqId))) id

/-- OBJ_EVICT (R205, R223). It completes when nothing of the object is in progress. -/
def Chip.objEvict (c : Chip) (s : Session) (id : Nat) : CmdRes :=
  match c.objRefusal s id with
  | some st => .done c st 0 []
  | none =>
    let o := c.obj id
    let demandLoad := o.st == 2 && c.mem.loads.any fun l => l.obj == id && l.cmds.isEmpty
    if o.st = 3 ∨ demandLoad = true then .run c id else .done c 2 0 []

/-- Target bowls of an OBJ_FILL by descriptor: in WHOLE mode up to 16 bowls each, in ascending table index; in
TILE mode each bowl by itself (R208, R209). -/
def Chip.fillGroups (c : Chip) (part : Nat) (bowls : List (Nat × Nat)) : List (List (Nat × Nat)) :=
  if c.span part < 3 then bowls.map fun b => [b]
  else
    let ins (b : Nat × Nat) (l : List (Nat × Nat)) : List (Nat × Nat) :=
      (l.filter fun x => decide (x.1 ≤ b.1)) ++ [b] ++ l.filter fun x => decide (b.1 < x.1)
    let sorted := bowls.foldl (fun l b => ins b l) []
    chunksOf 16 sorted.length sorted

/-- Start a placement fill: in WHOLE mode the first descriptor, the others after it (R209). -/
def Chip.startPlacement (c : Chip) (cmd : Nat × Nat) (id part : Nat) (bowls : List (Nat × Nat)) : Chip :=
  let f : Fill := { obj := id, part := part, kind := 1, cmd := some cmd }
  let gs := c.fillGroups part bowls
  if c.span part < 3 then gs.foldl (fun c g => (c.startFill { f with targets := g }).2) c
  else (c.startFill { f with targets := gs.headD [], later := gs.tail }).2

/-- OBJ_FILL (R205). -/
def Chip.objFill (c : Chip) (s : Session) (reqId id : Nat) (bowls : List (Nat × Nat)) : CmdRes :=
  match c.objRefusal s id with
  | some st => .done c st 0 []
  | none =>
    let o := c.obj id
    if bowls = [] ∨ 64 < bowls.length then .done c 4 0 []
    else if bowls.any (fun b => decide (8192 ≤ b.1) || !c.bowlOk b.1) then .done c 5 0 []
    else if bowls.any (fun b => c.bowlPart b.1 != o.part) then .done c 3 0 []
    else if bowls.any (fun b => decide (8 < b.2 + c.slotCount id b.1)) then .done c 4 0 []
    else if o.st = 3 ∨ (o.st = 1 ∧ o.demand = true) then
      .run (c.startPlacement (s.id, reqId) id o.part bowls) id
    else .done c 2 0 []

/-- OBJ_DROP (R205). -/
def Chip.objDrop (c : Chip) (s : Session) (id bowl : Nat) : CmdRes :=
  match c.objRefusal s id with
  | some st => .done c st 0 []
  | none =>
    if 8192 ≤ bowl then .done c 4 0 []
    else if ¬ s.mayTouch (c.bowlPart bowl) then .done c 3 0 []
    else if c.dsp.resid.any (fun r => r.bowl == bowl && r.obj == id) then .run c (id * 8192 + bowl)
    else .done c 2 0 []

/-- OBJ_DELETE (R205): the extent is scrubbed and freed, and its directory entries go with it (R412). -/
def Chip.objDelete (c : Chip) (s : Session) (id : Nat) : CmdRes :=
  match c.objRefusal s id with
  | some st => .done c st 0 []
  | none =>
    let o := c.obj id
    if o.st = 2 ∨ ¬ (c.regionsOver id).isEmpty = true then .done c 2 0 []
    else
      let keep := c.coh.ents.filter fun e => !((c.lineOwner e.1).any fun x => x.1 == id)
      let c := { c with coh := { c.coh with ents := keep } }
      let c := { c with dsp := { c.dsp with resid := c.dsp.resid.filter fun r => r.obj != id } }
      let c := if 0 < o.rows then c.scrubExtent o else c
      .done (c.setObj id {}) 0 0 []

/-- OBJ_DEMAND (R525). -/
def Chip.objDemand (c : Chip) (s : Session) (id demand : Nat) : CmdRes :=
  match c.objRefusal s id with
  | some st => .done c st 0 []
  | none =>
    if 2 ≤ demand then .done c 4 0 []
    else .done (c.setObj id { c.obj id with demand := demand == 1 }) 0 0 []

/-- OBJ_QUERY (R525). -/
def Chip.objQuery (c : Chip) (s : Session) (id : Nat) : CmdRes :=
  let o := c.obj id
  if ¬ objIdOk id ∨ o.st = 0 then .done c 5 0 []
  else if ¬ s.mayTouch o.part then .done c 3 0 []
  else .done c 0 0 (objEntry o)

/-! ### The order of placement commands (R206, R527) -/

/-- Perform a placement command. -/
def Chip.placeRun (c : Chip) (p : PlaceCmd) : CmdRes :=
  let s : Session := { id := p.sess, kind := p.kind, part := p.sessPart }
  let a (i : Nat) : Nat := p.args.getD i 0
  match p.opc with
  | 0x0301 => c.objRegister p.obj (a 0) (a 1) (a 2) (a 3)
  | 0x0302 => c.objCreate p.obj (a 0) (a 1) (a 2)
  | 0x0303 => c.objLoad s p.reqId p.obj
  | 0x0304 => c.objEvict s p.obj
  | 0x0305 => c.objFill s p.reqId p.obj p.bowls
  | 0x0306 => c.objDrop s p.obj (a 0)
  | 0x0307 => c.objDelete s p.obj
  | 0x0308 => c.objDemand s p.obj (a 0)
  | _ => .done c 4 0 []

/-- Partition that a placement command concerns: the one it names for a new object, else the object's, which
an earlier command may still have to enter; 64 for none. -/
def Chip.placePart (c : Chip) (p : PlaceCmd) : Nat :=
  if p.opc = 0x0301 then p.args.getD 2 64
  else if p.opc = 0x0302 then p.args.getD 0 64
  else if (c.obj p.obj).st ≠ 0 then (c.obj p.obj).part
  else ((c.mgt.place.find? fun q => q.obj == p.obj).map fun q => q.part).getD 64

/-- A command received before its partition's reset began goes on through the drain, as in the state before
(R463). -/
def Chip.placeBegun (c : Chip) (p : PlaceCmd) : CmdRes :=
  let v := c.partOf p.part
  if v.st = .draining then
    let was : Chip := { c with parts := ksetD c.parts p.part {} { v with st := v.from_ } }
    match was.placeRun p with
    | .done x st d b => .done { x with parts := c.parts } st d b
    | .run x arg => .run { x with parts := c.parts } arg
  else c.placeRun p

/-- A placement command takes effect at once, or after the earlier ones of its partition. -/
def Chip.place (c : Chip) (s : Session) (p : PlaceCmd) : CmdRes :=
  let p := { p with sess := s.id, kind := s.kind, sessPart := s.part, part := c.placePart p }
  let wait (c : Chip) (p : PlaceCmd) : Chip := { c with mgt := { c.mgt with place := c.mgt.place ++ [p] } }
  if c.partTakes p.part && c.mgt.place.any fun q => q.part == p.part then .run (wait c p) p.obj
  else
    match c.placeRun p with
    | .run c arg => .run (wait c { p with started := true }) arg
    | r => r

/-- A fill, stream or refill of the object is in progress (into a bowl, if one is named). -/
def Chip.filling (c : Chip) (id : Nat) (bowl : Option Nat) : Bool :=
  c.dsp.fills.any fun f => f.obj == id && (bowl.isNone || f.targets.any fun t => some t.1 == bowl)

/-- A placement command has ended: it is answered and leaves the order. -/
def Chip.endPlace (c : Chip) (p : PlaceCmd) (status : Nat) : Chip :=
  ({ c with mgt := { c.mgt with place := c.mgt.place.erase p } }).endCmd (p.sess, p.reqId) status 0

/-- An OBJ_EVICT whose object is still: it frees the extent. -/
def Chip.tryEvict (c : Chip) (p : PlaceCmd) : Chip :=
  let o := c.obj p.obj
  if o.st = 1 then c.endPlace p 0
  else if o.st = 3 then
    (if c.filling p.obj none || c.gtx.pends.any (fun x => x.obj == p.obj) then c
     else ((c.freeExtent p.obj).setObj p.obj { (c.freeExtent p.obj).obj p.obj with st := 1 }).endPlace p 0)
  else if o.st = 2 then c
  else c.endPlace p 2

/-- An OBJ_DROP with no fill of the object into its bowl in progress: it clears the bowl's record. -/
def Chip.tryDrop (c : Chip) (p : PlaceCmd) : Chip :=
  let bowl := p.args.getD 0 0
  if c.filling p.obj (some bowl) then c else (c.delResid bowl p.obj).endPlace p 0

/-- A started command goes on: a load or fill that has ended, and been answered, leaves the order. -/
def Chip.tryPlace (c : Chip) (p : PlaceCmd) : Chip :=
  let k := (p.sess, p.reqId)
  let drop : Chip := { c with mgt := { c.mgt with place := c.mgt.place.erase p } }
  if !p.started then c
  else
    match p.opc with
    | 0x0304 => c.tryEvict p
    | 0x0306 => c.tryDrop p
    | 0x0303 => if c.mem.loads.any fun l => l.cmds.contains k then c else drop
    | _ => if c.dsp.fills.any fun f => f.cmd == some k then c else drop

/-- The next command of a partition starts when the earlier ones have ended. -/
def Chip.startPlace (c : Chip) (p : PlaceCmd) : Chip :=
  if p.started || ((c.mgt.place.takeWhile (· != p)).any fun q => q.part == p.part) then c
  else
    match c.placeBegun p with
    | .done c st d b =>
      ({ c with mgt := { c.mgt with place := c.mgt.place.erase p } }).finishCmd p.sess p.reqId p.opc st d b
    | .run c _ =>
      { c with mgt := { c.mgt with place := modFirst (· == p) (fun p => { p with started := true }) c.mgt.place } }

/-- Placement commands in order: those under way end where they can, and the next ones start. -/
def Chip.placeRound (c : Chip) : Chip :=
  let c := c.mgt.place.foldl (fun c p => c.tryPlace p) c
  c.mgt.place.foldl (fun c p => c.startPlace p) c

/-- The ricers of a die end their last fill, one that began before the write that turns them off (R184). -/
def Chip.cmpIdle (c : Chip) (die : Nat) : Bool :=
  !(c.mem.jobs.any fun j => j.die == die) &&
  !(c.dsp.fills.any fun f => !f.waitEn.contains die && ((f.todo.any fun x => coreDie x.core == die) ||
    f.refetch.any fun r => r.data.isNone && coreDie r.core == die))

/-- A CMP_CTRL write that turns ENABLE off takes effect when the die's last fill and job have ended (R184). -/
def Chip.cmpRelease (c : Chip) : Chip :=
  (c.ctl.held.filter fun h => (List.range 8).any fun d => h.1 == (Reg.cmpCtrl).addr d).foldl
    (fun c h =>
      let d := h.1 / 2 ^ 44
      if c.cmpIdle d then
        let fs := c.dsp.fills.map fun (f : Fill) => { f with waitEn := f.waitEn.erase d }
        ({ c with ctl := { c.ctl with held := c.ctl.held.erase h }, dsp := { c.dsp with fills := fs } }).setFld
          .cmpCtrl d [] 0 0 (h.2.toNat % 2)
      else c) c

/-! ### Ends of fills -/

/-- A placement fill's command completes with the last of its fills, or with the first that fails. -/
def Chip.fillCmd (c : Chip) (f : Fill) (status : Nat) : Chip :=
  match f.cmd with
  | none => c
  | some k =>
    if status = 0 then (if c.dsp.fills.any fun x => x.cmd == some k then c else c.endCmd k 0 0)
    else
      let fs := c.dsp.fills.map (fun (x : Fill) => if x.cmd = some k then { x with cmd := none } else x)
      ({ c with dsp := { c.dsp with fills := fs } }).endCmd k status 0

/-- The fill brings the weights of a run on a bowl (R183). -/
def Fill.serves (f : Fill) (bowl launch : Nat) (d : Desc) : Bool :=
  if f.kind == 3 then f.launch == some launch
  else d.obj == f.obj && f.targets.any fun t => t.1 == bowl && t.2 == d.wtFirst

/-- Runs that wait on a fill's slots. -/
def Chip.fillRuns (c : Chip) (f : Fill) : List Launch :=
  c.dsp.launches.filter fun l => l.runs && f.serves l.bowl l.id l.d

/-- Check runs that wait on a fill's slots. -/
def Chip.fillChecks (c : Chip) (f : Fill) : List Check :=
  c.dsp.checks.filter fun k => (k.phase == 1 && f.serves k.bowl1 k.launch (descOfWords k.desc)) ||
    (k.phase == 3 && f.serves k.bowl2 k.launch (descOfWords k.desc))

/-- The object is not recorded resident in the slots that a fill left without it. -/
def Chip.dropResid (c : Chip) (f : Fill) : Chip :=
  let here (r : Resid) : Bool := f.kind != 3 && r.obj == f.obj && f.targets.contains (r.bowl, r.first)
  { c with dsp := { c.dsp with resid := c.dsp.resid.filter fun r => !here r } }

/-- A fill ends without its object: its runs are given up, its checks dropped, and nothing is recorded
resident (R183, R609). -/
def Chip.failFill (c : Chip) (f : Fill) (status : Nat) : Chip :=
  let runs := c.fillRuns f
  let checks := c.fillChecks f
  let c := (c.delFill f.id).dropResid f
  let c := runs.foldl (fun c l => if (c.launch? l.id).isSome then c.dropLaunch l else c) c
  let c := checks.foldl (fun c k => c.dropCheck k) c
  ((c.fillCmd f status).unblockFills).noteWaits

/-- The last tile is in place: a placement fill records its object resident, and its next descriptor starts. -/
def Chip.endFill (c : Chip) (f : Fill) : Chip :=
  let c := c.delFill f.id
  let c := if f.kind = 1 then f.targets.foldl (fun c t => c.putResid t.1 t.2 (c.fillCount f t.1) f.obj) c else c
  let c := match f.later with
    | [] => c.fillCmd f 0
    | g :: rest =>
      match c.startFill { obj := f.obj, part := f.part, kind := 1, cmd := f.cmd, whole := f.whole, targets := g, later := rest } with
      | (some c, _) => c
      | (none, c) => c.fillCmd f 10
  c.unblockFills.noteWaits

/-- A refetch of the fill is in progress. -/
def Fill.refetching (f : Fill) : Bool := f.refetch.any fun r => r.data.isNone

/-- Nothing is left to bring: no tile, no refetch, no wait for a load or for the slots. -/
def Fill.over (f : Fill) : Bool := f.todo == [] && !f.refetching && !f.onLoad && !f.blocked

/-- Fills with nothing left to bring end. -/
def Chip.settleFills (c : Chip) : Chip := (c.dsp.fills.filter (·.over)).foldl (fun c f => c.endFill f) c

/-- Placement commands and held writes that waited for a fill, load or read to end. -/
def Chip.settlePlacement (c : Chip) : Chip :=
  let c := c.settleFills
  ((List.range (c.mgt.place.length + 1)).foldl (fun c _ => c.placeRound) c).cmpRelease

/-! ### LOAD_DONE (R205, R211, R609) -/

/-- Fills that waited for a load go on, or end with it; a wait that ends so is one access (R212). -/
def Chip.wakeFills (c : Chip) (id : Nat) (ok : Bool) : Chip :=
  (c.dsp.fills.filter fun f => f.obj == id && f.onLoad).foldl (fun c f =>
    if ok then
      let f' := { f with onLoad := false }
      let f' := { f' with todo := if f.kind = 2 ∧ f.todo ≠ [] then f.todo else c.deliveries f' }
      let c := c.setFill f'
      if f'.blocked then c else c.beginFill f'
    else (c.stallAgain id f.part [2] [6]).failFill f 10) c

/-- LOAD_DONE: `bad` are chunks whose flash read was uncorrectable. -/
def Chip.loadDone (c : Chip) (id : Nat) (bad : List Nat) : Chip :=
  match c.mem.loads.find? fun l => l.obj == id with
  | none => c
  | some l =>
    let ob := c.obj id
    let c := { c with mem := { c.mem with loads := c.mem.loads.filter fun x => x.obj != id } }
    let room := decide (0 < ob.rows)
    let r := if room then c.loadChunks id bad (List.range (objChunks ob)) else (false, c)
    let ok := r.1
    let c := if ok then
        let c := r.2.setObj id { r.2.obj id with st := 3 }
        -- a load that ends during a rebuild has written the spare itself
        if c.mem.rebuild = 1 ∨ c.mem.rebuild = 2 then
          { c with mem := { c.mem with reloaded := c.mem.reloaded ++ [id * 2 ^ 32] } }
        else c
      else
        let c := if room then (r.2.scrubExtent ob).freeExtent id else r.2
        c.setObj id { c.obj id with st := 1 }
    let c := l.cmds.foldl (fun c k => c.endCmd k (if ok then 0 else if room then 10 else 6) 0) c
    let c := c.wakeFills id ok
    ((c.raise Ev.loadDone [ob.part] ((if ok then 0 else 6) + id * 2 ^ 32))).retryHeld

/-! ### TILE_FILL_DONE and REFETCH_DONE (R33, R179-R183) -/

/-- Chunk `k0 + i` of a flash object follows those read so far; after one that cannot be read none is read. -/
def Chip.addChunk (ob : Obj) (k0 : Nat) (acc : Option Bytes × Chip) (i : Nat) : Option Bytes × Chip :=
  match acc.1 with
  | none => acc
  | some b =>
    let t := acc.2.chunk ob.bundle (acc.2.firstChunk ob + k0 + i) false
    (t.1.map fun x => b ++ x, t.2)

/-- A source of an object's bytes: the DRAM copy, or the bundle in flash. -/
def Chip.flashObj (c : Chip) (id off n : Nat) : Option Bytes × Chip :=
  let ks := List.range ((off + n + 65535) / 65536 - off / 65536)
  let r := ks.foldl (Chip.addChunk (c.obj id) (off / 65536)) (some [], c)
  (r.1.map fun b => sliceB b (off % 65536) n, r.2)

/-- The reads of one tile's delivery: what its fill has read of the object, and the tier-stall causes met. -/
structure Reads where
  got : List Got := []
  causes : List Nat := []
  /-- Die to which the bytes cross, unless a later delivery of the descriptor takes them there. -/
  to_ : Option Nat := none
  deriving DecidableEq, Repr, Inhabited

/-- Granules of an object cross from their stacks to a die, each under the hash of its pool granule (R363). -/
def Chip.crossGranules (c : Chip) (id off n die : Nat) : Chip :=
  (List.range ((off + n + 255) / 256 - off / 256)).foldl (fun c i =>
    (c.tierPools id ((off / 256 + i) * 256) true).foldl (fun c p =>
      c.cross (c.homeDie (poolLoc p).ls) die (granHash (p / 256))) c) c

/-- Bytes of a fill's object: those that its descriptor has read before are not read again (R209). -/
def Chip.fillRead (c : Chip) (id tag off n : Nat) (r : Reads) : Option Bytes × Reads × Chip :=
  let c := (r.to_.map fun d => c.crossGranules id off n d).getD c
  match r.got.find? fun g => g.off == off && g.len == n with
  | some g => (g.data, r, c)
  | none =>
    let q := c.dramBurst id off n
    let x := q.2.readPart id off n
    (x.1, { r with got := r.got ++ [{ tag := tag, off := off, len := n, data := x.1 }], causes := r.causes ++ q.1 ++ x.2.1 }, x.2.2)

def Chip.objBytes (c : Chip) (flash : Bool) (id tag off n : Nat) (r : Reads) : Option Bytes × Reads × Chip :=
  if flash then ((c.flashObj id off n).1, r, (c.flashObj id off n).2) else c.fillRead id tag off n r

/-- A decoded block, with what its slot and raw block were (for a rewrite). -/
structure Block where
  data : Bytes := []
  slot : Bytes := []
  raw : Option (Nat × Bytes) := none

/-- Block k of a compressed object, or the cause of its failed check, and whether its raw block was read (R179,
R181). A refetch reads the slot and the raw block from flash; its table is the one the ricer holds. That a table
whose read fails gives the block a failed check of CAUSE 3 is the model's choice (notes/assumptions/141.md). -/
def Chip.block (c : Chip) (flash : Bool) (id : Nat) (h : CmpHdr) (k : Nat) (r : Reads) :
    Except Nat Block × Bool × Reads × Chip :=
  match c.objBytes flash id (k / 16 + 1) (h.slotOff + k * slotSize h.cls) (slotSize h.cls) r with
  | (none, r, c) => (.error 3, false, r, c)
  | (some s, r, c) =>
    match slotKind k s with
    | .bad e => (.error e, false, r, c)
    | .ovf off =>
      match c.objBytes flash id (k / 16 + 1) off 4096 r with
      | (none, r, c) => (.error 3, true, r, c)
      | (some b, r, c) =>
        (if crc32c b = slotCheck s then .ok { data := b, slot := s, raw := some (off, b) } else .error 0, true, r, c)
    | .coded =>
      match c.fillRead id 0 (0x1000 + slotTable s * 1024) 1024 r with
      | (none, r, c) => (.error 3, false, r, c)
      | (some t, r, c) =>
        (match decodeSlot h k s t with
         | .ok b => .ok { data := b, slot := s }
         | .error e => .error e, false, r, c)

/-- Blocks of tile t that the object has. -/
def tileBlocks (h : CmpHdr) (t : Nat) : List Nat :=
  ((List.range 16).map fun i => 16 * t + i).filter fun k => decide (k < h.blocks)

/-- What a ricer made of some blocks of a tile: the bytes up to the first block that fails, with that block and
its cause; overflow blocks read (R191), and the reads. -/
structure Decoded where
  bytes : Bytes := []
  ovf : Nat := 0
  bad : Option (Nat × Nat) := none
  reads : Reads := {}
  deriving DecidableEq, Repr

def Chip.tileBytes (c : Chip) (id : Nat) (h : CmpHdr) : List Nat → Decoded → Decoded × Chip
  | [], r => (r, c)
  | k :: t, r =>
    match c.block false id h k r.reads with
    | (.error e, o, s, c) => ({ r with ovf := r.ovf + b2n o, bad := some (k, e), reads := s }, c)
    | (.ok b, o, s, c) =>
      Chip.tileBytes c id h t { r with bytes := r.bytes ++ b.data, ovf := r.ovf + b2n o, reads := s }

/-- A block fails its check (R182): counted, captured and raised, and a refetch begins. -/
def Chip.checkFail (c : Chip) (f : Fill) (x : Deliver) (k cause : Nat) (before : Bytes) : Chip :=
  let d := coreDie x.core
  let c := c.bump .cmpCheckFail d
  let c := c.capture .cmpCapture d []
    (cause * 2 ^ 28 + f.part * 2 ^ 22 + coreTile x.core * 2 ^ 16)
    [(.cmpCaptureObj, f.obj), (.cmpCaptureBlk, k % 2 ^ 32)]
  let c := c.raise Ev.checkFail [f.part] (c.reg .cmpCapture d)
  let old := f.refetch.filter fun r => !(r.core == x.core && r.tile == x.tile)
  c.setFill { f with refetch := old ++ [{ core := x.core, tile := x.tile, block := k, before := before }],
                     refetched := f.refetched ++ [(ricerOf x.core, k)] }

/-- The tile's bytes are in the slot: fill-valid is set (R33). That the slot's bytes beyond a last tile of fewer
than 16 blocks are written zero is the model's choice (notes/assumptions/142.md). -/
def Chip.placeTile (c : Chip) (f : Fill) (x : Deliver) (b : Bytes) : Chip :=
  let c := (c.wrStore x.core (x.slot * 65536) (b ++ zerosB (65536 - b.length))).setValid x.core x.slot true
  let f' := { f with todo := f.todo.erase x,
                     refetch := f.refetch.filter fun r => !(r.core == x.core && r.tile == x.tile) }
  let c := c.setFill f'
  if f'.todo = [] ∧ f'.refetching = false then c.endFill f' else c

/-- A fill ends with DATA_ERR (R183) at a core's tile; `k` is a block whose refetch failed, which the capture
shows when it holds that failure (R190). -/
def Chip.fillDataErr (c : Chip) (f : Fill) (core : Nat) (k : Option Nat) : Chip :=
  let d := coreDie core
  let w := c.reg .cmpCapture d
  let c := match k with
    | some k =>
      if bit w 31 ∧ bits w 21 16 = coreTile core ∧ c.reg .cmpCaptureObj d = f.obj ∧ c.reg .cmpCaptureBlk d = k % 2 ^ 32 then
        c.setFld .cmpCapture d [] 30 30 1
      else c
    | none => c
  ((c.bump .cmpDataErr d).failFill f 10).raise Ev.cmpDataErr [f.part] (c.reg .cmpCapture d)

/-- The object a fill reads has left the pool: the fill ends (R212, R221). -/
def Chip.fillGone (c : Chip) (f : Fill) : Option Chip :=
  let st := (c.obj f.obj).st
  if st = 5 then some ((c.stall f.obj f.part [7]).failFill f 10)
  else if st = 3 ∨ st = 4 then none
  else some (c.failFill f 10)

/-- What a fill knows of its object when a tile's turn comes: a broadcast descriptor all that it has read and still
has targets for (R209), a fill in TILE mode nothing. -/
def Fill.reads (f : Fill) : Reads :=
  { got := if f.whole then f.got.filter fun g => g.tag == 0 || f.todo.any fun y => y.tile + 1 == g.tag else [] }

/-- The same for one delivery. A broadcast brings a tile to each die once, with the last of its cores there. -/
def Fill.readsTo (f : Fill) (x : Deliver) : Reads :=
  let more := f.whole && f.todo.any fun y => y != x && y.tile == x.tile && coreDie y.core == coreDie x.core
  { f.reads with to_ := if more then none else some (coreDie x.core) }

/-- The reads of a delivery are over: one access, with the causes it met (R212), and what a broadcast descriptor
keeps of them. -/
def Chip.endReads (c : Chip) (f : Fill) (r : Reads) : Fill × Chip :=
  let f := if f.whole then { f with got := r.got } else f
  (f, (c.stall f.obj (c.obj f.obj).part r.causes).setFill f)

/-- A tile of a writable object, which is never compressed: the home reads it, as RD_NC, so that a copy which an
endpoint has modified is seen (R402); a broadcast descriptor reads it once (R209). -/
def Chip.homeTile (c : Chip) (f : Fill) (x : Deliver) : Chip :=
  let n := min 65536 ((c.obj f.obj).size - x.tile * 65536)
  match f.reads.got.find? fun g => g.off == x.tile * 65536 && g.len == n with
  | some g => match g.data with
    | some b => c.placeTile f x b
    | none => c.fillDataErr f x.core none
  | none =>
    let c := c.setFill { f with reading := f.reading ++ [x] }
    let p : Pend :=
      { id := c.gtx.nextId, req := { opc := opcDevRead, opnd := n }, origin := .dev (.fill f.id x.core x.tile), part := f.part,
        obj := f.obj, off := x.tile * 65536, lines := c.poolLines f.obj (x.tile * 65536) n }
    (c.takeId.lineCrossings p (coreDie x.core)).runLines p false p.lines

/-- The home's answer for a tile. -/
def Chip.fillAns (c : Chip) (id core tile : Nat) (a : Ans) : Chip :=
  match c.dsp.fills.find? fun f => f.id == id with
  | none => c
  | some f =>
    match f.reading.find? fun x => x.core == core && x.tile == tile with
    | none => c
    | some x =>
      let b := if a.status = some 0 then some a.data else none
      let g : Got := { tag := tile + 1, off := tile * 65536, len := min 65536 ((c.obj f.obj).size - tile * 65536), data := b }
      let f := { f with reading := f.reading.erase x, got := if f.whole then f.reads.got ++ [g] else [] }
      (match b with
       | some b => c.placeTile f x b
       | none => if a.status = some 4 then c.failFill f 10 else c.fillDataErr f core none).advance

/-- A ricer brings one tile to one core's slot (R33, R179, R182). A tile with a refetched block goes on from that
block. That a header which cannot be read, or fails its MAGIC or HDR_CRC, ends the fill with DATA_ERR, without a
refetch and without CHECK_FAIL, is the model's choice: R181 names blocks only (notes/assumptions/140.md). -/
def Chip.deliver (c : Chip) (f : Fill) (x : Deliver) : Chip :=
  let ob := c.obj f.obj
  match c.fillGone f with
  | some c => c
  | none =>
    if ob.writable then c.homeTile f x
    else if !ob.compressed then
      let r := c.fillRead f.obj (x.tile + 1) (x.tile * 65536) (min 65536 (ob.size - x.tile * 65536)) (f.readsTo x)
      let e := r.2.2.endReads f r.2.1
      match r.1 with
      | none => e.2.fillDataErr e.1 x.core none
      | some b => e.2.placeTile e.1 x b
    else
      let r := c.fillRead f.obj 0 0 4096 (f.readsTo x)
      match r.1.bind parseHdr with
      | none =>
        let e := r.2.2.endReads f r.2.1
        e.2.fillDataErr e.1 x.core none
      | some h =>
        let ks := tileBlocks h x.tile
        let t := match f.refetch.find? fun r => r.core == x.core && r.tile == x.tile with
          | some a => r.2.2.tileBytes f.obj h (ks.filter fun k => decide (a.block < k))
              { bytes := a.before ++ a.data.getD [], reads := r.2.1 }
          | none => r.2.2.tileBytes f.obj h ks { reads := r.2.1 }
        let d := coreDie x.core
        let e := (t.2.bump .cmpOvfReads d [] t.1.ovf).endReads f t.1.reads
        match t.1.bad with
        | none => (e.2.bump .cmpBlocks d [] ks.length).placeTile e.1 x t.1.bytes
        | some (k, cause) =>
          if f.refetched.contains (ricerOf x.core, k) then e.2.fillDataErr e.1 x.core (some k)
          else e.2.checkFail e.1 x k cause t.1.bytes

/-- A tile of the fill waits for a refetch: one of its own, or one that another fill of the object has taken over
(R184). -/
def Chip.tileWaits (c : Chip) (f : Fill) (x : Deliver) : Bool :=
  c.dsp.fills.any fun g => g.obj == f.obj && g.refetch.any fun r => r.data.isNone && r.tile == x.tile &&
    if g.id == f.id then ricerOf r.core == ricerOf x.core else f.refetched.contains (ricerOf x.core, r.block)

/-- The tile that a fill has next for a ricer: tiles reach it in ascending number (R100). -/
def Fill.nextAt (f : Fill) (ricer : Nat) : Option Deliver := f.todo.find? fun x => ricerOf x.core == ricer

/-- A spare's refill with the objects of aborted runs comes first (R113). -/
def Chip.refillWaits (c : Chip) (f : Fill) : Bool :=
  f.cold && c.dsp.fills.any fun g => g.kind == 2 && !g.cold && g.core == f.core && !g.todo.isEmpty

/-- The tile can come now: the fill runs, its ricer and the tier are on, no refetch holds it up, the ring slot of a
stream is free again (R99), and in WHOLE mode no earlier tile is still to be sent (R209). -/
def Chip.canDeliver (c : Chip) (f : Fill) (x : Deliver) : Bool :=
  let die := coreDie x.core
  !f.blocked && !f.onLoad && !c.refillWaits f && c.enabled 14 die && c.enabled 7 12 && !(f.waitEn.contains die && c.cmpClosing die) &&
  !c.tileWaits f x && !f.reading.contains x && !(f.kind == 3 && c.slotValid x.core x.slot) &&
  !(f.whole && f.todo.any fun y => decide (y.tile < x.tile) && !c.tileWaits f y)

/-- The fill whose turn it is at a ricer: round robin, one tile a turn, placement fills after the others (R100,
R205). -/
def Chip.ricerNext (c : Chip) (ricer : Nat) : Option Fill :=
  let can := c.dsp.fills.filter fun f => match f.nextAt ricer with
    | some x => c.canDeliver f x
    | none => false
  let fs := if can.any fun f => f.kind != 1 then can.filter fun f => f.kind != 1 else can
  match fs.find? fun f => decide (kgetD c.dsp.ricerTurn ricer 0 < f.id) with
  | some f => some f
  | none => fs.head?

/-- TILE_FILL_DONE: the fill's next tile has come to the core, if it is the turn of that fill at the core's
ricer. -/
def Chip.tileFillDone (c : Chip) (id core : Nat) : Chip :=
  let ricer := ricerOf core
  match c.ricerNext ricer with
  | none => c
  | some f =>
    match f.nextAt ricer with
    | none => c
    | some x =>
      if f.id ≠ id ∨ x.core ≠ core then c
      else
        let c := { c with dsp := { c.dsp with ricerTurn := kput c.dsp.ricerTurn ricer id } }
        ((c.setFill f).deliver f x).advance

/-- A refetched block replaces its DRAM bytes: its slot, and its raw block (R182). -/
def Chip.rewriteBlock (c : Chip) (id : Nat) (h : CmpHdr) (k : Nat) (b : Block) : Chip :=
  let c := c.writeObj id (h.slotOff + k * slotSize h.cls) b.slot
  match b.raw with
  | some (off, raw) => c.writeObj id off raw
  | none => c

/-- The refetched block of a fill's record: it goes to the core's tile if that is still to come. -/
def Fill.refetchedBlock (f : Fill) (r : Refetch) (b : Bytes) : Fill :=
  let rest := f.refetch.erase r
  if f.todo.any fun x => x.core == r.core && x.tile == r.tile then { f with refetch := rest ++ [{ r with data := some b }] }
  else { f with refetch := rest }

/-- REFETCH_DONE (R182, R183): the block comes from flash and replaces the DRAM bytes, or the fill ends. -/
def Chip.refetchDone (c : Chip) (id core : Nat) : Chip :=
  match c.dsp.fills.find? fun f => f.id == id with
  | none => c
  | some f =>
    match f.refetch.find? fun r => r.core == core && r.data.isNone with
    | none => c
    | some r =>
      match c.fillGone f with
      | some c => c
      | none =>
        let hd := c.fillRead f.obj 0 0 4096 f.reads
        match hd.1.bind parseHdr with
        | none =>
          let e := hd.2.2.endReads f hd.2.1
          e.2.fillDataErr e.1 core (some r.block)
        | some h =>
          match hd.2.2.block true f.obj h r.block hd.2.1 with
          | (.error e, _, rd, c) =>
            let x := c.endReads f { rd with causes := rd.causes ++ if e = 3 then [6] else [] }
            x.2.fillDataErr x.1 core (some r.block)
          | (.ok b, _, rd, c) =>
            let x := c.endReads f rd
            ((x.2.rewriteBlock f.obj h r.block b).bump .cmpRewrite (coreDie core)).setFill (x.1.refetchedBlock r b.data)

/-! ### Compressor jobs (R175-R177, R187-R189) -/

def Chip.job? (c : Chip) (die : Nat) : Option CmpJob := c.mem.jobs.find? fun j => j.die == die

def Chip.setJobs (c : Chip) (l : List CmpJob) : Chip := { c with mem := { c.mem with jobs := l } }
def Chip.putJob (c : Chip) (j : CmpJob) : Chip :=
  c.setJobs (modFirst (fun x => x.die == j.die) (fun _ => j) c.mem.jobs)

/-- Start a job from the seven job registers' words (R187, R188). -/
def Chip.startJob (c : Chip) (die : Nat) (ws : List Nat) (cmd : Option (Nat × Nat)) : Chip :=
  let cfg := ws.getD 0 0
  let w (i : Nat) : Nat := ws.getD i 0
  let ep (h : Nat) : Nat := ((c.regionOf h).map fun s => (c.region s).epoch).getD 0
  c.setJobs (c.mem.jobs ++ [
    { die := die, part := bits cfg 29 24, ntM1 := bits cfg 23 16, cls := bits cfg 11 9, mode := bits cfg 8 8,
      inHandle := w 1 % 65536, inOff := w 2 * 4096, inLen := w 3 % 2 ^ 24 * 4096,
      outHandle := w 4 % 65536, outOff := w 5 * 4096, outLen := w 6 % 2 ^ 24 * 4096,
      inEpoch := ep (w 1 % 65536), outEpoch := ep (w 4 % 65536), cmd := cmd }])

/-- The job ends: status register, event, response (R177, R189). cause 0: done. -/
def Chip.endJob (c : Chip) (j : CmpJob) (cause : Nat) : Chip :=
  let used := if cause = 0 then j.output.length / 4096 else bits (c.reg .cmpJobStat j.die) 23 0
  let word := (if cause = 0 then 2 else 1) * 2 ^ 30 + cause * 2 ^ 27 + j.chosen * 2 ^ 24 + used % 2 ^ 24
  let c := ((c.setJobs (c.mem.jobs.filter fun x => x.die != j.die)).setReg .cmpJobStat j.die [] word).bump .cmpJobs j.die
  let c := c.raise (if cause = 0 then Ev.jobDone else Ev.jobFail) [j.part] (c.reg .cmpCapture j.die)
  match j.cmd with
  | some k => c.endCmd k 0 0 (natLE 4 word)
  | none => c

/-- A request of a job on one of its regions (R435). -/
def Chip.jobReq (c : Chip) (j : CmpJob) (h epoch opc off : Nat) (b : Bytes) : Req :=
  let base := ((c.regionOf h).map fun s => (c.region s).base).getD 0
  { opc := opc, addr := ((c.localNode j.part).getD 0) * 2 ^ 52 + base + off, handle := h, epoch := epoch, payload := b }

/-- A pass reads the input through its region (R18, R175). -/
def Chip.jobRead (c : Chip) (j : CmpJob) : Chip :=
  (c.putJob j).issue j.part (.job j.die) { c.jobReq j j.inHandle j.inEpoch opcDevRead j.inOff [] with opnd := j.inLen }

/-- Issue the pieces of a job's output that start at an object offset. -/
def Chip.jobWrites (c : Chip) (j : CmpJob) (off : Nat) (b : Bytes) : Chip :=
  let ps := splitWrite (j.outOff + off) b
  let c := c.putJob { j with outstanding := ps.length }
  ps.foldl (fun c p => c.issue j.part (.job j.die) (c.jobReq j j.outHandle j.outEpoch 8 p.1 p.2)) c

/-- The encode pass (R175): `first` is the image of the first passes, `img` the image read again. -/
def Chip.jobEncode (c : Chip) (j : CmpJob) (first img : Bytes) : Chip :=
  match compress (j.mode == 1) j.cls j.ntM1 first img with
  | none => c.endJob j 3
  | some (out, cl) =>
    let j := { j with input := [], output := out, chosen := cl }
    if j.outLen < out.length then c.endJob j 2
    else if (c.regionOf j.outHandle).isNone then c.endJob j 4
    else c.jobWrites { j with phase := 2 } 4096 (out.drop 4096)

/-- JOB_END: the passes are over; the input is read for the first ones, then for the encode pass, then the object is
written, its header last. An empty image needs no read. -/
def Chip.jobEnd (c : Chip) (die : Nat) : Chip :=
  match c.job? die with
  | none => c
  | some j =>
    if j.phase ≠ 0 then c
    else if j.inLen = 0 then c.jobEncode j [] []
    else if (c.regionOf j.inHandle).isNone then c.endJob j 1
    else c.jobRead { j with phase := 1 }

/-- An answer reaches the compressor; a request answered RETRY has gone again before (R177). -/
def Chip.jobAns (c : Chip) (die : Nat) (a : Ans) : Chip :=
  match c.job? die with
  | none => c
  | some j =>
    if j.phase = 1 ∨ j.phase = 4 then
      if a.status ≠ some 0 then c.endJob j 1
      else if j.phase = 1 then
        (if (c.regionOf j.inHandle).isNone then c.endJob j 1 else c.jobRead { j with phase := 4, input := a.data })
      else c.jobEncode j j.input a.data
    else if a.status ≠ some 0 then c.endJob j 4
    else
      let j := { j with outstanding := j.outstanding - 1 }
      if 0 < j.outstanding then c.putJob j
      else if j.phase = 2 then c.jobWrites { j with phase := 3 } 0 (j.output.take 4096)
      else c.endJob j 0

/-- The die's compressor takes a job: it is enabled, and no write that turns it off is held (R184). -/
def Chip.cmpTakes (c : Chip) (die : Nat) : Bool := c.enabled 14 die && !c.cmpClosing die

/-- CMP_JOB (R525). -/
def Chip.cmpJob (c : Chip) (cmd : Nat × Nat) (die : Nat) (ws : List Nat) : CmdRes :=
  if 8 ≤ die ∨ ws.length ≠ 7 then .done c 4 0 []
  else if (c.job? die).isSome then .done c 1 0 []
  else if !c.cmpTakes die || !c.partTakes (bits (ws.getD 0 0) 29 24) then .done c 2 0 []
  else .run (c.startJob die ws (some cmd)) die

end Sys2Proof.Machine
end

