-- ==== Sys2Proof/Machine/Security.lean ====
section
/-! DEFINITION. Quotes and the quote tree, regions, grants, revocations, link sessions, bundles and
bundle keys (chapter 13, R526). -/

namespace Sys2Proof.Machine

/-- Device state code (R8). -/
def DevState.code : DevState → Nat
  | .off => 0
  | .reset => 1
  | .romboot => 2
  | .load => 3
  | .verify => 4
  | .bringup => 5
  | .waitOwner => 6
  | .service => 7
  | .degraded => 8
  | .recovery => 9
  | .test => 10
  | .dead => 11

/-! ### Attestation (R430, R431) -/

/-- Cores that are FENCED, ascending. -/
def Chip.fencedCores (c : Chip) : List Nat := kkeys (c.cores.core.filter fun e => e.2.st == .fenced)

/-- 8 bits as a byte, lowest first. -/
def byteOf (f : Nat → Bool) : Byte := BitVec.ofNat 8 (((List.range 8).map fun i => b2n (f i) * 2 ^ i).sum)

/-- FENCED_MAP: one bit per core. -/
def Chip.fencedMap (c : Chip) : Bytes :=
  let f := c.fencedCores
  (List.range 3136).map fun b => byteOf fun i => f.contains (8 * b + i)

/-- Bit n is set for each n below `k` that satisfies `p`. -/
def maskOf (k : Nat) (p : Nat → Bool) : Nat := ((List.range k).map fun n => b2n (p n) * 2 ^ n).sum

/-- Bytes 0x0000-0x0E4F of a report. -/
def Chip.report (c : Chip) (nonce : Bytes) : Bytes :=
  let im := c.boot.image
  natLE 4 0x51545441 ++ natLE 2 1 ++ natLE 2 6268 ++ natLE 1 0xB0 ++ natLE 1 c.boot.state.code ++
  natLE 2 0x0302 ++ zerosB 4 ++ natLE 8 im.serial ++ nonce ++ Config.romDigest ++ im.digest ++
  Config.sha384 im.ownerCert ++ c.sec.mBundles ++
  ((c.ownerSession?).map (·.ephPub)).getD (zerosB 97) ++ zerosB 7 ++ Config.lmsPub c.sec.treeSeed ++
  c.sec.endorse ++ natLE 4 (25088 - c.fencedCores.length) ++
  natLE 2 (maskOf 16 fun n => (c.dstack n).st == 3) ++
  natLE 1 (maskOf 8 fun n => kgetD c.mem.fstack n 0 == 3) ++ zerosB 1 ++ c.fencedMap

/-- Sign a quote: the leaf counter advances before the signature is released. A quote of the owner
session makes its nonce good for key releases (R448). -/
def Chip.signQuote (c : Chip) (s : Session) (nonce : Bytes) : Bytes × Chip :=
  let leaf := c.sec.leaf
  let c := { c with sec := { c.sec with leaf := leaf + 1 } }
  let r := c.report nonce
  let d := Config.sha384 r
  let (sig, c) := c.idSign d
  let c := c.bump .secQuotes 12
  let c := if s.kind = 0 then { c with sec := { c.sec with quoteNonces := c.sec.quoteNonces ++ [nonce] } } else c
  (r ++ sig ++ Config.lmsSign c.sec.treeSeed leaf d, c)

/-- QUOTE (R430). It waits while a tree is generated. -/
def Chip.quoteCmd (c : Chip) (s : Session) (reqId : Nat) (nonce : Bytes) : CmdRes :=
  if c.sec.treeBusy then
    .run { c with sec := { c.sec with quoteWait := c.sec.quoteWait ++ [(s.id, reqId, nonce)] } } 0
  else if !c.sec.treeReady || decide (1024 ≤ c.sec.leaf) then .done (c.raise Ev.treeExhausted []) 2 0 []
  else
    let r := c.signQuote s nonce
    .done r.2 0 0 r.1

/-- TREE_NEW (R430). -/
def Chip.treeNewCmd (c : Chip) (s : Session) (reqId : Nat) : CmdRes :=
  if c.sec.treeBusy then .done c 1 0 []
  else
    .run { c with sec := { c.sec with treeBusy := true, treeAt := c.tick, treeCmd := [(s.id, reqId)] } } 0

/-- A new tree: seed from the PUF seed and a TRNG nonce, leaf 0, endorsed by the identity key. -/
def Chip.newTree (c : Chip) : Chip :=
  let (n, c) := c.rngBytes 32
  let seed := Config.hmac c.sec.idKey n
  let d := Config.sha384 (natLE 8 c.boot.image.serial ++ Config.romDigest ++ Config.lmsPub seed)
  let (e, c) := c.idSign d
  { c with sec := { c.sec with treeSeed := seed, endorse := e, leaf := 0, treeReady := true, treeBusy := false } }

/-- QUOTE_TREE_READY: generation took 120,000 ticks; waiting commands complete. -/
def Chip.treeDone (c : Chip) : Chip :=
  if c.sec.treeBusy && c.boot.state != .bringup && c.due c.sec.treeAt 120000 then
    let cmds := c.sec.treeCmd
    let waits := c.sec.quoteWait
    let c := c.newTree
    let c := { c with sec := { c.sec with treeCmd := [], quoteWait := [] } }
    let c := cmds.foldl (fun c k => c.endCmd k 0 0) c
    waits.foldl (fun c w =>
      match c.session? w.1 with
      | none => c
      | some s =>
        if 1024 ≤ c.sec.leaf then (c.raise Ev.treeExhausted []).endCmd (w.1, w.2.1) 2 0
        else
          let r := c.signQuote s w.2.2
          r.2.endCmd (w.1, w.2.1) 0 0 r.1) c
  else c

/-! ### Regions (R432, R433, R610) -/

def Chip.setRegion (c : Chip) (slot : Nat) (r : Region) : Chip :=
  { c with sec := { c.sec with regions := ksetD c.sec.regions slot {} r } }

def Chip.setGrants (c : Chip) (g : KMap Grant) : Chip := { c with sec := { c.sec with grants := g } }

/-- REGION_CREATE. -/
def Chip.regionCreate (c : Chip) (part obj base len objOff : Nat) : CmdRes :=
  let o := c.obj obj
  if 64 ≤ part then .done c 4 0 []
  else if ¬ objIdOk obj ∨ o.st = 0 then .done c 5 0 []
  else if o.part ≠ part then .done c 3 0 []
  else if base % 4096 ≠ 0 ∨ len % 4096 ≠ 0 ∨ objOff % 4096 ≠ 0 ∨ 2 ^ 52 < base + len ∨
      (o.size + 4095) / 4096 * 4096 < objOff + len ∨ c.rangeFree part base len none = false then .done c 4 0 []
  else if c.inHandoff obj then .done c 2 0 []
  else
    match (List.range 4096).find? fun s => !(c.region s).valid with
    | none => .done c 6 0 []
    | some s =>
      let g := (c.region s).gen
      let (key, c) := c.rngBytes 32
      let c := c.setRegion s
        { valid := true, gen := if g = 15 then 1 else g + 1, part := part, obj := obj, base := base, len := len,
          objOff := objOff, key := key }
      .done c 0 0 (natLE 2 (c.handleOf s) ++ natLE 1 0 ++ zerosB 1)

/-- Remove a region and its grants; its slot keeps the generation. -/
def Chip.regionRemove (c : Chip) (slot : Nat) : Chip :=
  (c.setRegion slot { gen := (c.region slot).gen }).setGrants (c.sec.grants.filter fun e => e.2.slot != slot)

/-! ### Revocation (R436, R437) -/

/-- Admitted requests of a region that carry an epoch older than its present one. -/
def Chip.oldCount (c : Chip) (slot : Nat) : Nat :=
  let old (p : Pend) : Bool := p.oldEpoch && p.region == slot
  (c.gtx.pends.filter old).length + (c.gtx.shareWait.filter fun w => old w.pend).length +
  (c.gtx.tstores.filter fun t => old t.pend).length

/-- Steps 1 and 2: a new key and epoch, removed grants cleared, the others tagged anew; requests
admitted before are counted as old. -/
def Chip.revokeStart (c : Chip) (rv : Revoke) (node : Option Nat) : Chip :=
  let slot := rv.slot
  let (key, c) := c.rngBytes 32
  let r := c.region slot
  let r := { r with revoking := true, key := key, epoch := (r.epoch + 1) % 256 }
  let keep := c.sec.grants.filter fun e => !(e.2.slot == slot && some e.2.node == node)
  let tagged := keep.map fun e =>
    if e.2.slot = slot then (e.1, { e.2 with tag := grantTag r slot e.2.node e.2.rights e.2.session }) else e
  let mark (p : Pend) : Pend := if p.region = slot then { p with oldEpoch := true } else p
  let c := (c.setRegion slot r).setGrants tagged
  let pends := c.gtx.pends.map mark
  let waits := c.gtx.shareWait.map fun w => { w with pend := mark w.pend }
  let ts := c.gtx.tstores.map fun t => { t with pend := mark t.pend }
  let c := { c with gtx := { c.gtx with pends := pends, shareWait := waits, tstores := ts } }
  { c with sec := { c.sec with revokes := c.sec.revokes ++ [{ rv with start := c.tick }] } }

/-- Add a grant, replacing the node's earlier one on the region. -/
def Chip.addGrant (c : Chip) (slot node rights : Nat) : Option Chip :=
  let r := c.region slot
  let session := (kgetD c.sec.nodes node {}).session
  let g : Grant := { slot := slot, node := node, rights := rights, session := session,
                     tag := grantTag r slot node rights session }
  let same := kkeys (c.sec.grants.filter fun e => e.2.slot == slot && e.2.node == node)
  let free := if c.sec.grants.length < 65536 then
      (List.range (c.sec.grants.length + 1)).find? fun k => (kfind? c.sec.grants k).isNone
    else none
  match same, free with
  | k :: _, _ => some (c.setGrants (kput c.sec.grants k g))
  | [], some k => some (c.setGrants (kput c.sec.grants k g))
  | [], none => none

/-- A command on a region that is being revoked waits (R453). -/
def Chip.regionHold (c : Chip) (w : RegionWait) : CmdRes :=
  .run { c with sec := { c.sec with waits := c.sec.waits ++ [w] } } w.slot

/-- REGION_REVOKE, and GRANT_REMOVE with its node; the command is answered at step 4. -/
def Chip.revokeCmd (c : Chip) (s : Session) (reqId opc slot : Nat) (node : Option Nat) : CmdRes :=
  if (c.region slot).revoking then
    c.regionHold { slot := slot, sess := s.id, reqId := reqId, opc := opc, node := node.getD 4096 }
  else .run (c.revokeStart { slot := slot, cmd := some (s.id, reqId, opc) } node) slot

def Chip.regionRevoke (c : Chip) (s : Session) (reqId handle : Nat) : CmdRes :=
  match c.regionOf handle with
  | none => .done c 5 0 []
  | some slot => c.revokeCmd s reqId 0x0402 slot none

def Chip.hasGrant (c : Chip) (slot node : Nat) : Bool := c.sec.grants.any fun e => e.2.slot == slot && e.2.node == node

def Chip.grantRemove (c : Chip) (s : Session) (reqId handle node : Nat) : CmdRes :=
  match c.regionOf handle with
  | none => .done c 5 0 []
  | some slot =>
    if 4096 ≤ node then .done c 4 0 []
    else if !c.hasGrant slot node then .done c 5 0 []
    else c.revokeCmd s reqId 0x0405 slot (some node)

def Chip.regionDelete (c : Chip) (s : Session) (reqId handle : Nat) : CmdRes :=
  match c.regionOf handle with
  | none => .done c 5 0 []
  | some slot =>
    if (c.region slot).revoking then c.regionHold { slot := slot, sess := s.id, reqId := reqId, opc := 0x0403 }
    else .done (c.regionRemove slot) 0 0 []

/-- GRANT_ADD (R434): a node without a link session can hold no grant (R441). -/
def Chip.grantAdd (c : Chip) (s : Session) (reqId handle node rights : Nat) : CmdRes :=
  match c.regionOf handle with
  | none => .done c 5 0 []
  | some slot =>
    if 4096 ≤ node ∨ rights = 0 ∨ 3 < rights then .done c 4 0 []
    else if !(kgetD c.sec.nodes node {}).valid then .done c 2 0 []
    else if (c.region slot).revoking then
      c.regionHold { slot := slot, sess := s.id, reqId := reqId, opc := 0x0404, node := node, rights := rights }
    else
      match c.addGrant slot node rights with
      | none => .done c 6 0 []
      | some c => .done c 0 0 []

/-- A command that waited for a revocation of its region. OPC 0 is a partition reset's. -/
def Chip.regionResume (c : Chip) (w : RegionWait) : Chip :=
  let cmd := (w.sess, w.reqId)
  let slot := w.slot
  let start (node : Option Nat) : Chip := c.revokeStart
    { slot := slot, cmd := if w.opc = 0 then none else some (w.sess, w.reqId, w.opc), reset := w.opc == 0 } node
  if !(c.region slot).valid then c.endCmd cmd 5 0
  else if w.opc = 0 ∨ w.opc = 0x0402 then start none
  else if w.opc = 0x0405 then (if c.hasGrant slot w.node then start (some w.node) else c.endCmd cmd 5 0)
  else if w.opc = 0x0403 then (c.regionRemove slot).endCmd cmd 0 0
  else
    match c.addGrant slot w.node w.rights with
    | none => c.endCmd cmd 6 0
    | some c => c.endCmd cmd 0 0

/-- The commands that waited go on in order, until one starts a revocation again. -/
def Chip.regionWake (c : Chip) (slot : Nat) : Chip :=
  let ws := c.sec.waits.filter fun w => w.slot == slot
  ws.foldl (fun c w =>
    if (c.region slot).revoking then c
    else ({ c with sec := { c.sec with waits := delFirst (fun x => decide (x = w)) c.sec.waits } }).regionResume w) c

/-- REVOKE_RETIRE_DONE, step 4: no old-epoch request is left. -/
def Chip.revokeRetire (c : Chip) (slot : Nat) : Chip :=
  match c.sec.revokes.find? fun rv => rv.slot == slot with
  | none => c
  | some rv =>
    if c.oldCount slot ≠ 0 then c
    else
      let r := c.region slot
      let c := c.setRegion slot { r with revoking := false }
      let c := { c with sec := { c.sec with revokes := c.sec.revokes.filter fun x => x.slot != slot } }
      let c := (c.bump .secRevokes 12).raise Ev.regionRevoked [r.part] (c.handleOf slot + r.epoch * 65536) 0
        (c.grantNodes [slot])
      let c := match rv.cmd with
        | none => c
        | some k => c.endCmd (k.1, k.2.1) 0 0 (natLE 1 r.epoch)
      let c := if rv.reset then
          { c with parts := kmod c.parts r.part {} fun p => { p with toRevoke := p.toRevoke.erase slot } }
        else c
      c.regionWake slot

/-- REVOKE_SLOW (R436): once for each revocation that outlasts REVOKE_TMO. -/
def Chip.revokeSlow (c : Chip) (slot : Nat) : Chip :=
  match c.sec.revokes.find? fun rv => rv.slot == slot with
  | none => c
  | some rv =>
    if !rv.slow && c.due rv.start (1000 * max 1 (c.fld .secGlb 12 [] 31 16)) then
      let rs := modFirst (fun x : Revoke => x.slot == slot) (fun x => { x with slow := true }) c.sec.revokes
      ({ c with sec := { c.sec with revokes := rs } }).raise Ev.revokeSlow []
    else c

/-! ### Link sessions (R441, R442) -/

/-- Link keys of a port from a node's exchange: module to endpoint, and back. -/
def linkKeys (secret salt : Bytes) (node port : Nat) : Bytes × Bytes :=
  let k (dir : Nat) := Config.hkdf secret salt (ascii "gyori-link" ++ natLE 2 node ++ natLE 1 port ++ natLE 1 dir)
  (k 0, k 1)

/-- The ports of a node's PORTS entry hold the keys of its latest exchange for their next link-up; a full training
under way keeps the keys that it holds (R453). -/
def Chip.giveKeys (c : Chip) (node : Nat) (secret salt : Bytes) : Chip :=
  match c.node node with
  | .ports a b => [a, b].dedup.foldl (fun c p =>
      let k := some (linkKeys secret salt node p)
      c.modPort p fun q =>
        if (q.st = .train ∨ (q.st = .test ∧ q.lanes = 0)) ∧ q.nextKeys.isSome = true then { q with laterKeys := k }
        else { q with nextKeys := k }) c
  | _ => c

/-- What each end of an exchange signs: serial, node, its public key and nonce. -/
def exchangeText (serial node : Nat) (pub nonce : Bytes) : Bytes := natLE 8 serial ++ natLE 2 node ++ pub ++ nonce

/-- LINK_EXCHANGE. -/
def Chip.linkExchange (c : Chip) (node kind : Nat) (pub nonce sig cert : Bytes) : CmdRes :=
  let ns := kgetD c.sec.nodes node {}
  let serial := c.boot.image.serial
  if 4096 ≤ node ∨ 2 ≤ kind then .done c 4 0 []
  else if !c.certOk 5 cert then .done (c.when (!certSigned c.boot.image.ownerCert cert) Chip.sigFail) 7 0 []
  else if !Config.ecdsaVerify (certEc cert) (Config.sha384 (exchangeText serial node pub nonce)) sig then .done c 7 0 []
  else if kind = 1 ∧ !ns.valid then .done c 2 0 []
  else if kind = 1 ∧ ns.cert ≠ cert then .done c 7 0 []
  else
    let (priv, c) := c.rngBytes 48
    let (dn, c) := c.rngBytes 32
    let dpub := Config.ecPub priv
    let (dsig, c) := c.idSign (Config.sha384 (exchangeText serial node dpub dn))
    let sid := if kind = 1 then ns.session else if ns.session = 0xFFFF then 1 else ns.session + 1
    let secret := Config.ecdh priv pub
    let ns' : NodeSess := { valid := true, mode := if ns.mode = 0 then 1 else ns.mode, session := sid, cert := cert,
                            secret := secret, salt := dn ++ nonce }
    let c := { c with sec := { c.sec with nodes := kput c.sec.nodes node ns' } }
    .done (c.giveKeys node secret (dn ++ nonce)) 0 0 (dpub ++ dn ++ dsig ++ natLE 2 sid)

/-- LINK_MODE (R455). -/
def Chip.linkMode (c : Chip) (node mode : Nat) : CmdRes :=
  let ns := kgetD c.sec.nodes node {}
  if 4096 ≤ node ∨ 3 ≤ mode then .done c 4 0 []
  else if !ns.valid then .done c 2 0 []
  else .done { c with sec := { c.sec with nodes := kput c.sec.nodes node { ns with mode := mode } } } 0 0 []

/-! ### Bundles (R194, R444-R447, R526) -/

def Chip.setBundle (c : Chip) (b : Bundle) : Chip :=
  { c with mem := { c.mem with bundles := kput c.mem.bundles b.num b } }

/-- A bundle that is open and named by a command: NOT_FOUND or STATE otherwise. -/
def Chip.openBundle (c : Chip) (n : Nat) : Except Nat Bundle :=
  match c.bundle? n with
  | none => .error 5
  | some b => if b.isOpen then .ok b else .error 2

/-- BUNDLE_OPEN. -/
def Chip.bundleOpen (c : Chip) (n stage : Nat) : CmdRes :=
  let o := c.obj stage
  if n = 0 then .done c 4 0 []
  else if ¬ objIdOk stage ∨ o.st = 0 then .done c 5 0 []
  else if o.st ≠ 4 ∨ o.writable = false ∨ (c.bundle? n).isSome then .done c 2 0 []
  else if 4 ≤ (c.mem.bundles.filter fun e => e.2.isOpen).length then .done c 1 0 []
  else .done (c.setBundle { num := n, stage := stage, isOpen := true }) 0 0 []

/-- BUNDLE_META: bytes into the staging object. -/
def Chip.bundleMeta (c : Chip) (n off : Nat) (b : Bytes) : CmdRes :=
  match c.openBundle n with
  | .error st => .done c st 0 []
  | .ok x =>
    let o := c.obj x.stage
    if x.checked ∨ o.st = 0 then .done c 2 0 []
    else if o.st = 5 then .done c 10 0 []
    else if o.size < off + b.length then .done c 4 0 []
    else if c.enabled 7 12 = false ∨ (List.range (b.length / 256 + 2)).any (fun i => c.atCursor x.stage ((off / 256 + i) * 256)) then .done c 1 0 []
    else .done (c.writeObj x.stage off b) 0 0 []

/-- Header fields of a bundle (R444). -/
def bundleHdrOk (n : Nat) (h : Bytes) : Bool :=
  let e := fieldB h 0xC 4
  let k := fieldB h 0x10 4
  fieldB h 0 4 == 0x4C444E42 && fieldB h 4 1 == 1 && fieldB h 8 4 == n && decide (1 ≤ e) && decide (e ≤ 65536) &&
  fieldB h 0x18 8 == 0x1000 && fieldB h 0x20 8 == 0x1000 + 32 * e && fieldB h 0x28 8 == 0x1000 + 32 * e + 16 * k &&
  fieldB h 0x30 8 % 65536 == 0 && decide (fieldB h 0x28 8 ≤ fieldB h 0x30 8)

/-- Both signatures of a signature block under its certificate, over the bytes before it: an ECDSA signature, then an
LMS signature of one of the five lengths of R426. -/
def blockSigned (signed block : Bytes) : Bool :=
  let n := certLen block
  let cert := block.take n
  let rest := block.drop n
  let d := Config.sha384 signed
  [5, 10, 15, 20, 25].any fun h =>
    dualOk (certEc cert) (certLms cert) d (rest.take 96) ((rest.drop 96).take (2188 + 32 * h))

/-- The MANIFEST certificate at the front of a signature block, and the block's signatures (R444). -/
def Chip.bundleSigned (c : Chip) (signed block : Bytes) : Bool :=
  c.certOk 2 (block.take (certLen block)) && blockSigned signed block

/-- A signature of the block, or of its certificate, does not verify (R426). -/
def Chip.bundleForged (c : Chip) (signed block : Bytes) : Bool :=
  !certSigned c.boot.image.ownerCert (block.take (certLen block)) || !blockSigned signed block

/-- Stripes of a bundle: the flash stacks from FS(BUNDLE mod 8) on that have not failed (R214). -/
def Chip.stripesFor (c : Chip) (n : Nat) : List Nat :=
  ((List.range 8).map fun i => (n + i) % 8).filter fun f => kgetD c.mem.fstack f 0 == 1

/-- 1 MiB stripes of a bundle on a stack. -/
def Bundle.onStack (b : Bundle) (f : Nat) : Nat :=
  let n := cdiv (b.dataOff + 65536 * b.chunks) (2 ^ 20)
  ((b.stripes.zipIdx.filter fun e => e.1 == f).map fun e => (n + b.stripes.length - 1 - e.2) / b.stripes.length).sum

/-- Every stack keeps within its 4 TiB with the bundle added. -/
def Chip.flashRoom (c : Chip) (b : Bundle) : Bool :=
  decide (b.stripes ≠ []) && b.stripes.all fun f =>
    decide (((c.mem.bundles.filter fun e => e.2.checked && e.1 != b.num).map fun e => e.2.onStack f).sum + b.onStack f
      ≤ 2 ^ 22)

/-- The stacks that hold a bundle's metadata take writes (R234). -/
def Chip.metaUp (c : Chip) (b : Bundle) : Bool :=
  (List.range (cdiv b.meta_.length (2 ^ 20))).all fun i => (b.stripes[i % b.stripes.length]?).all c.flashUp

/-- Bytes of the bundle's metadata that lie on a flash stack (R194). -/
def Bundle.metaOn (b : Bundle) (f : Nat) : Nat :=
  (((List.range (cdiv b.meta_.length (2 ^ 20))).filter fun i => b.stripes[i % b.stripes.length]? == some f).map fun i =>
    min (2 ^ 20) (b.meta_.length - i * 2 ^ 20)).sum

/-- BUNDLE_CHECK (R447): the metadata is written to flash and M_BUNDLES extended. -/
def Chip.bundleCheck (c : Chip) (n : Nat) : CmdRes :=
  match c.openBundle n with
  | .error st => .done c st 0 []
  | .ok x =>
    if x.checked then .done c 2 0 []
    else if c.enabled 7 12 = false then .done c 1 0 []
    else
      match c.readObj x.stage 0 0x1000 with
      | (none, c) => .done c 10 0 []
      | (some h, c) =>
        if !bundleHdrOk n h || decide ((c.obj x.stage).size < fieldB h 0x28 8) then .done c 4 0 []
        else
          let sigOff := fieldB h 0x28 8
          match c.readObj x.stage 0 (min (fieldB h 0x30 8) (c.obj x.stage).size) with
          | (none, c) => .done c 10 0 []
          | (some m, c) =>
            if !c.bundleSigned (m.take sigOff) (m.drop sigOff) then
              .done (c.when (c.bundleForged (m.take sigOff) (m.drop sigOff)) Chip.sigFail) 7 0 []
            else
              let b := { x with checked := true, entries := fieldB h 0xC 4, chunks := fieldB h 0x10 4, meta_ := m,
                                stripes := c.stripesFor n }
              if !c.flashRoom b then .done c 6 0 []
              else if !c.metaUp b then .done c 10 0 []
              else
                let mb := Config.sha384 (c.sec.mBundles ++ Config.sha384 (m.take sigOff))
                let c := b.stripes.foldl (fun c f => c.bump .flsWriteBytes f [] (b.metaOn f)) c
                .done { c.setBundle b with sec := { c.sec with mBundles := mb } } 0 0 []

/-- BUNDLE_DATA: ciphertext straight to its flash stripe. -/
def Chip.bundleData (c : Chip) (n chunk off16 len16 : Nat) (b : Bytes) : CmdRes :=
  match c.openBundle n with
  | .error st => .done c st 0 []
  | .ok x =>
    if !x.checked then .done c 2 0 []
    else if x.chunks ≤ chunk ∨ len16 = 0 ∨ 512 < len16 ∨ 4096 < off16 + len16 ∨ b.length ≠ 16 * len16 then .done c 4 0 []
    else
      match x.stackOf (x.dataOff + 65536 * chunk) with
      | none => .done c 10 0 []
      | some f =>
        if !c.flashUp f then .done c 10 0 []
        else
          let data := b.zipIdx.foldl (fun m e => kput m (chunk * 65536 + 16 * off16 + e.2) e.1) x.data
          .done ((c.setBundle { x with data := data }).bump .flsWriteBytes f [] b.length) 0 0 []

/-- Chunks not yet wholly written. -/
def Bundle.missing (b : Bundle) : Nat :=
  ((List.range b.chunks).filter fun i =>
    decide ((b.data.filter fun e => e.1 / 65536 == i).length < 65536)).length

/-- BUNDLE_CLOSE. -/
def Chip.bundleClose (c : Chip) (n : Nat) : CmdRes :=
  match c.openBundle n with
  | .error st => .done c st 0 []
  | .ok x =>
    if !x.checked then .done c 2 0 []
    else
      let m := x.missing
      if m = 0 ∧ c.metaUp x = false then .done c 10 0 []
      else .done (if m = 0 then c.setBundle { x with complete := true, isOpen := false } else c) 0 0 (natLE 4 m)

/-- BUNDLE_DELETE. -/
def Chip.bundleDelete (c : Chip) (n : Nat) : CmdRes :=
  match c.bundle? n with
  | none => .done c 5 0 []
  | some _ =>
    if c.mem.objs.any (fun e => e.2.st != 0 && !e.2.writable && e.2.bundle == n) then .done c 2 0 []
    else .done { c with mem := { c.mem with bundles := kdel c.mem.bundles n } } 0 0 []

/-! ### Bundle keys (R448, R449) -/

/-- The bundle key that a release unwraps to, if the release is acceptable. -/
def Chip.unwrap (c : Chip) (s : Session) (body : Bytes) : Option Bytes :=
  let nonce := sliceB body 8 48
  let kek := Config.hkdf (Config.ecdh s.ephPriv (sliceB body 0x38 97)) nonce
    (ascii "gyori-bkey" ++ body.take 4 ++ natLE 8 c.boot.image.serial)
  if c.sec.quoteNonces.contains nonce then
    Config.gcmOpen kek (sliceB body 0xA0 12) (body.take 0xA0) (sliceB body 0xB0 48)
  else none

/-- KEY_RELEASE. -/
def Chip.keyRelease (c : Chip) (s : Session) (body : Bytes) : CmdRes :=
  let rest := body.drop 224
  let cert := rest.take (certLen rest)
  let sigs := rest.drop (certLen rest)
  let ec := sigs.take 96
  let lms := (sigs.drop 104).take (fieldB sigs 96 2)
  let n := fieldB body 0 4
  let refuse (c : Chip) : CmdRes := .done (c.bump .secReleaseFail 12) 7 0 []
  if !c.certOk 4 cert || !dualOk (certEc cert) (certLms cert) (Config.sha384 (body.take 0xE0)) ec lms then
    refuse (c.when (!certSigned c.boot.image.ownerCert cert ||
      !dualOk (certEc cert) (certLms cert) (Config.sha384 (body.take 0xE0)) ec lms) Chip.sigFail)
  else
    match c.unwrap s body with
    | none => refuse c
    | some key =>
      let slot := match (c.sec.bkeys.find? fun e => e.2.1 == n) with
        | some e => some e.1
        | none => (List.range 256).find? fun k => (kfind? c.sec.bkeys k).isNone
      match slot with
      | none => .done c 6 0 []
      | some k => .done { c with sec := { c.sec with bkeys := kput c.sec.bkeys k (n, key) } } 0 0 (natLE 1 k)

/-- BUNDLE_KEY_DROP. -/
def Chip.bundleKeyDrop (c : Chip) (n : Nat) : CmdRes :=
  match c.sec.bkeys.find? fun e => e.2.1 == n with
  | none => .done c 5 0 []
  | some e => .done { c with sec := { c.sec with bkeys := kdel c.sec.bkeys e.1 } } 0 0 []

end Sys2Proof.Machine
end

