-- ==== Sys2Proof/Machine/Sifter.lean ====
section
/-! DEFINITION. The sifter (chapter 7): FP32 distances, graph and flat searches, updates, results
and flags, starts and ends of operations, and index-table writes. -/

namespace Sys2Proof.Machine

/-! ### Distances (R245) -/

/-- Quotient of two FP32 words, rounded once. -/
def div32 (a b : Nat) : Nat :=
  rn32 (match f32.decode a, f32.decode b with
    | .nan, _ => .nan
    | _, .nan => .nan
    | .inf _, .inf _ => .nan
    | .inf x, .fin y _ _ => .inf (x != y)
    | .fin x _ _, .inf y => .fin (x != y) 0 0
    | .fin x m e, .fin y n f =>
      if n = 0 then (if m = 0 then .nan else .inf (x != y))
      else
        let q := m * 2 ^ 64 / n
        let r := m * 2 ^ 64 % n
        .fin (x != y) (2 * q + (if r = 0 then 0 else 1)) (e - f - 65))

/-- Square root of an FP32 word, rounded once. -/
def sqrt32 (a : Nat) : Nat :=
  rn32 (match f32.decode a with
    | .nan => .nan
    | .inf neg => if neg then .nan else .inf false
    | .fin neg m e =>
      if m = 0 then .fin neg 0 0
      else if neg then .nan
      else
        let odd := decide (e % 2 = 1)
        let m' := (if odd then 2 * m else m) * 2 ^ 64
        let e' := if odd then e - 1 else e
        let s := Nat.sqrt m'
        .fin false (2 * s + (if s * s = m' then 0 else 1)) (e' / 2 - 33))

/-- Sign flip; a NaN stays the canonical NaN (R56). -/
def neg32 (a : Nat) : Nat := if isNan32 a then 0x7FC00000 else a ^^^ 2 ^ 31

/-- The sixteen-lane accumulation of R245. -/
def sftAcc (sq : Bool) (a b : List Nat) : Nat :=
  let term (p : Nat × Nat) : Nat :=
    if sq then
      let t := add32 p.1 (neg32 p.2)
      mul32 t t
    else mul32 p.1 p.2
  let ps := (a.zip b).zipIdx
  let lane (l : Nat) : Nat := (ps.filter fun p => p.2 % 16 == l).foldl (fun s p => add32 s (term p.1)) 0
  treeSum add32 5 ((List.range 16).map lane)

/-- Distance of a vector from the query: metric 0 L2, 1 IP, 2 COS. -/
def sftDist (metric : Nat) (q x : List Nat) : Nat :=
  match metric with
  | 0 => sftAcc true q x
  | 1 => neg32 (sftAcc false q x)
  | _ =>
    let den := mul32 (sqrt32 (sftAcc false q q)) (sqrt32 (sftAcc false x x))
    if den % 2 ^ 31 = 0 then 0x3F800000
    else add32 0x3F800000 (neg32 (div32 (sftAcc false q x) den))

/-! ### Ranking (R246) -/

/-- A node met by a search. -/
structure Hit where
  dist : Nat := 0
  node : Nat := 0
  label : Nat := 0
  deriving DecidableEq, Repr, Inhabited

/-- Key (dist, node): equal distances, both zeros among them, rank by node; NaN ranks last. -/
def Hit.before (a b : Hit) : Bool :=
  let x := cldKey 0 a.dist
  let y := cldKey 0 b.dist
  if x = y then decide (a.node < b.node) else rankBefore false x y

def insHit (h : Hit) : List Hit → List Hit
  | [] => [h]
  | x :: t => if h.before x then h :: x :: t else x :: insHit h t

/-! ### Reading an index (R240-R243) -/

/-- Header of a base segment. -/
structure BaseHdr where
  kind : Nat
  dim : Nat
  deg : Nat
  count : Nat
  entry : Nat
  recB : Nat
  deriving DecidableEq, Repr

/-- The header, if it obeys R240. -/
def parseBase (b : Bytes) : Option BaseHdr :=
  let kind := fieldB b 5 1
  let dim := fieldB b 6 2
  let deg := fieldB b 8 1
  let n := fieldB b 0xC 4
  let recB := fieldB b 0x14 4
  let ok := b.length == 64 && fieldB b 0 4 == 0x31584449 && fieldB b 4 1 == 1 && decide (kind ≤ 1) &&
    decide (1 ≤ dim) && decide (dim ≤ 4096) && (if kind = 1 then decide (1 ≤ deg) && decide (deg ≤ 64) else deg == 0) &&
    decide (1 ≤ n) && decide (n < 2 ^ 31) && (kind != 1 || decide (fieldB b 0x10 4 < n)) &&
    recB == cdiv (4 * dim + 4 * deg + 8) 64 * 64
  if ok then some { kind := kind, dim := dim, deg := deg, count := n, entry := fieldB b 0x10 4, recB := recB } else none

/-- Bytes of a delta record. -/
def deltaRec (dim : Nat) : Nat := cdiv (4 * dim + 24) 64 * 64

/-- Fields of an operation's index entry, as read at its close (R258, R267). -/
def SftOp.metric (o : SftOp) : Nat := bits (fieldB o.e 0 1) 3 2
def SftOp.dim (o : SftOp) : Nat := fieldB o.e 2 2
def SftOp.baseObj (o : SftOp) : Nat := fieldB o.e 8 4
def SftOp.tombObj (o : SftOp) : Nat := fieldB o.e 0xC 4
def SftOp.deltaObj (o : SftOp) : Nat := fieldB o.e 0x10 4
def SftOp.deltaCap (o : SftOp) : Nat := fieldB o.e 0x14 4

/-- Fields of the query record (R252). -/
def SftOp.k (o : SftOp) : Nat := fieldB o.record 2 2
def SftOp.ef (o : SftOp) : Nat := fieldB o.record 4 2
def SftOp.maxHops (o : SftOp) : Nat := fieldB o.record 6 1
def SftOp.tag (o : SftOp) : Nat := fieldB o.record 8 4
def SftOp.result (o : SftOp) : Nat := fieldB o.record 0x10 8
def SftOp.flagAddr (o : SftOp) : Nat := fieldB o.record 0x18 8
def SftOp.label (o : SftOp) : Nat := fieldB o.record 0x20 8
def SftOp.node (o : SftOp) : Nat := fieldB o.record 0x28 4
def SftOp.gen (o : SftOp) : Nat := fieldB o.record 0x2C 2
def SftOp.vec (o : SftOp) : List Nat := elems 4 (sliceB o.record 0x80 (4 * o.dim))

/-- The index's sifter-maintained EPOCH, DELTA_USED and GEN. -/
def Chip.sftEpoch (c : Chip) (i : Nat) : Nat := c.reg .sftIndexW6 12 [i] + c.reg .sftIndexW7 12 [i] * 2 ^ 32
def Chip.sftUsed (c : Chip) (i : Nat) : Nat := c.reg .sftIndexW8 12 [i]
def Chip.sftGen (c : Chip) (i : Nat) : Nat := c.fld .sftIndexW1 12 [i] 31 16

def Chip.sftSet (c : Chip) (i epoch used gen : Nat) : Chip :=
  (((c.setReg .sftIndexW6 12 [i] (epoch % 2 ^ 32)).setReg .sftIndexW7 12 [i] (epoch / 2 ^ 32 % 2 ^ 32)).setReg
    .sftIndexW8 12 [i] used).setFld .sftIndexW1 12 [i] 31 16 gen

/-- How an index object answers a read: OK, RETRY while it loads, or another status (R255). -/
inductive ObjAns where
  | ok
  | retry
  | bad
  deriving DecidableEq, Repr

/-- A read of an index object: one that its owner marked DEMAND starts its load (R211). OBJ_ID 0
names no object. A wait is counted once, when it begins (R212). -/
def Chip.sftObj (c : Chip) (o : SftOp) (id : Nat) : ObjAns × Chip :=
  let ob := c.obj id
  let wait (c : Chip) : Chip := c.stallAgain id o.part o.causes [2]
  if id = 0 then (.ok, c)
  else if ob.st = 3 ∨ ob.st = 4 then (.ok, c)
  else if ob.st = 2 then (.retry, wait c)
  else if ob.st = 1 ∧ ob.demand then (.retry, (wait c).startLoad id none)
  else if ob.st = 5 then (.bad, c.stall id o.part [7])
  else (.bad, (c.stall id o.part [3]).raise Ev.objAbsent [o.part])

/-- The objects that an operation reads or writes. -/
def SftOp.objs (o : SftOp) : List Nat :=
  let delta := if o.opc = 0 ∧ o.used = 0 then [] else [o.deltaObj]
  match o.opc with
  | 0 => [o.baseObj, o.tombObj] ++ delta
  | 2 => if o.node < 2 ^ 31 then [o.baseObj, o.tombObj] else [o.deltaObj]
  | _ => [o.deltaObj]

/-- How they answer; the worst answer. -/
def Chip.sftObjs (c : Chip) (o : SftOp) : ObjAns × Chip :=
  o.objs.foldl (fun a id =>
    match a.1, a.2.sftObj o id with
    | .bad, _ => a
    | _, (.bad, c) => (.bad, c)
    | .retry, (_, c) => (.retry, c)
    | .ok, r => r) (.ok, c)

/-! ### Writable index objects through the home (R402) -/

/-- Ranges that the operation's present run has not yet read. -/
def SftOp.lacks (o : SftOp) (rs : List (Nat × Nat × Nat)) : List (Nat × Nat × Nat) :=
  rs.filter fun r => r.2.2 != 0 && !o.got.any fun g =>
    g.1 == r.1 && decide (g.2.1 ≤ r.2.1) && decide (r.2.1 + r.2.2 ≤ g.2.1 + g.2.2)

/-- The home reads a range for the operation, as RD_NC, or writes it, as a home write. -/
def Chip.sftHome (c : Chip) (o : SftOp) (r : Nat × Nat × Nat) (wr : Option Bytes) : Chip :=
  let p : Pend :=
    { id := c.gtx.nextId, origin := .dev (.sftMem o.id o.reruns), part := o.part, obj := r.1, off := r.2.1
      req := { opc := if wr.isSome then 8 else opcDevRead, opnd := r.2.2, payload := wr.getD [] }
      lines := c.poolLines r.1 r.2.1 r.2.2 }
  c.takeId.runLines p false p.lines

/-- The operation's context waits for these reads (R35, R239). -/
def Chip.sftFetch (c : Chip) (o : SftOp) (rs : List (Nat × Nat × Nat)) : Chip :=
  rs.foldl (fun c r => c.sftHome o r none) (c.setSft { o with left := rs.length, got := o.got ++ rs })

/-- An update writes its bytes; it commits when the home has answered (R256). -/
def Chip.sftUpdate (c : Chip) (o : SftOp) (n epoch obj off : Nat) (b : Bytes) : Chip :=
  (c.setSft { o with left := 1, commit := some (n, epoch) }).sftHome o (obj, off, b.length) (some b)

/-- The tombstone of a base node. -/
def SftOp.tombRange (o : SftOp) (n : Nat) : List (Nat × Nat × Nat) :=
  if o.tombObj = 0 then [] else [(o.tombObj, 8 * n, 8)]

/-- DEL_EPOCH of a base node; an index without a tombstone array has no deletion. -/
def Chip.tombOf (c : Chip) (o : SftOp) (n : Nat) : Option Nat × Chip :=
  if o.tombObj = 0 then (some 0, c)
  else
    let r := c.readObj o.tombObj (8 * n) 8
    (r.1.map leNat, r.2)

/-- A node of the index: its distance and label, and whether it is visible at the snapshot. The
distance under the reserved metric code is open. -/
def Chip.sftNode (c : Chip) (o : SftOp) (h : BaseHdr) (n : Nat) : Option (Hit × Bool) × Chip :=
  let isBase := decide (n < 2 ^ 31)
  let i := n % 2 ^ 31
  let at_ := if isBase then 0x40 + i * h.recB else i * deltaRec h.dim
  let len := if isBase then h.recB else deltaRec h.dim
  match c.readObj (if isBase then o.baseObj else o.deltaObj) at_ len with
  | (none, c) => (none, c)
  | (some b, c) =>
    let v := elems 4 (b.take (4 * h.dim))
    let d := if o.metric = 3 then
        let r := c.draw
        (r.1 % 2 ^ 32, r.2)
      else (sftDist o.metric o.vec v, c)
    let label := fieldB b (4 * h.dim + if isBase then 4 * h.deg else 0) 8
    let hit : Hit := { dist := d.1, node := n, label := label }
    if isBase then
      match d.2.tombOf o i with
      | (none, c) => (none, c)
      | (some t, c) => (some (hit, t == 0 || decide (o.snap < t)), c)
    else
      let ins := fieldB b (4 * h.dim + 8) 8
      let del := fieldB b (4 * h.dim + 16) 8
      (some (hit, decide (ins ≤ o.snap) && (del == 0 || decide (o.snap < del))), d.2)

/-- The vector of a node, as it is staged in the core store (R239). -/
def SftOp.nodeBytes (o : SftOp) (h : BaseHdr) (n : Nat) (c : Chip) : Bytes :=
  let at_ := if n < 2 ^ 31 then 0x40 + n * h.recB else n % 2 ^ 31 * deltaRec h.dim
  ((c.readObj (if n < 2 ^ 31 then o.baseObj else o.deltaObj) at_ (4 * h.dim)).1).getD []

/-! ### Searches (R247-R249) -/

structure Trav where
  chip : Chip
  cand : List Hit := []
  visited : List Nat := []
  best : List Hit := []
  hops : Nat := 0
  trunc : Bool := false
  drop : Bool := false
  fail : Bool := false
  /-- Ranges that the home must read before the search can go on, and what was read last. -/
  need : List (Nat × Nat × Nat) := []
  staged : Bytes := []

/-- Meet node `n`: it enters `cand`, and `best` when visible, if it ranks before the worst. -/
def Trav.meet (t : Trav) (o : SftOp) (h : BaseHdr) (n : Nat) : Trav :=
  let rs := o.lacks (o.tombRange n)
  if t.fail then t
  else if rs ≠ [] then { t with need := t.need ++ rs }
  else
    match t.chip.sftNode o h n with
    | (none, c) => { t with chip := c, fail := true }
    | (some (hit, vis), c) =>
      let t := { t with chip := c, visited := n :: t.visited, staged := (o.nodeBytes h n t.chip) }
      let better := match t.best.getLast? with
        | some w => decide (t.best.length < o.ef) || hit.before w
        | none => true
      if better then
        let cand := insHit hit t.cand
        let best := if vis then (insHit hit t.best).take o.ef else t.best
        { t with cand := cand.take 2048, drop := t.drop || decide (2048 < cand.length), best := best }
      else t

/-- Expand candidates until none is left or one of the rules of R247 stops the search. -/
def traverse (o : SftOp) (h : BaseHdr) : Nat → Trav → Trav
  | 0, t => t
  | fuel + 1, t =>
    match t.cand with
    | [] => t
    | x :: rest =>
      let t := { t with cand := rest }
      let stop := match t.best.getLast? with
        | some w => t.best.length == o.ef && w.before x
        | none => false
      if t.fail || !t.need.isEmpty || stop then t
      else if t.hops = o.maxHops then { t with trunc := true }
      else
        match t.chip.readObj o.baseObj (0x40 + x.node * h.recB + 4 * h.dim) (4 * h.deg) with
        | (none, c) => { t with chip := c, fail := true }
        | (some b, c) =>
          let t := { t with chip := c, hops := t.hops + 1 }
          traverse o h fuel ((elems 4 b).foldl (fun t n =>
            if decide (h.count ≤ n) || t.visited.contains n then t else t.meet o h n) t)

/-- Merge every visible node of a list into `best`, without the EF limit. -/
def Trav.scan (t : Trav) (o : SftOp) (h : BaseHdr) (ns : List Nat) : Trav :=
  ns.foldl (fun t n =>
    if t.fail then t
    else
      match t.chip.sftNode o h n with
      | (none, c) => { t with chip := c, fail := true }
      | (some (hit, vis), c) =>
        { t with chip := c, best := if vis then insHit hit t.best else t.best, staged := o.nodeBytes h n t.chip }) t

/-- Delta nodes below U. -/
def deltaNodes (u : Nat) : List Nat := (List.range u).map (2 ^ 31 + ·)

/-- One leaf's part of a FLAT search: its base nodes and delta records, the first K visible ones (R249). -/
def Trav.leafScan (t : Trav) (o : SftOp) (h : BaseHdr) (leaves l : Nat) : Trav :=
  let mine (n : Nat) : List Nat := (List.range n).filter fun i => i % leaves == l
  let r := { t with best := [] }.scan o h (mine h.count ++ (mine o.used).map (2 ^ 31 + ·))
  { r with best := r.best.take o.k }

/-- What a search leaves on each of its leaves, in order, and its result: best nodes in rank order. It stops where
the home still has to read for it. -/
def Chip.sftSearch (c : Chip) (o : SftOp) (h : BaseHdr) : List Trav × Trav :=
  let t : Trav := { chip := c }
  let delta : List (Nat × Nat × Nat) := [(o.deltaObj, 0, o.used * deltaRec h.dim)]
  if o.graph then
    let t := traverse o h (o.maxHops + 1) (t.meet o h h.entry)
    let t := if t.need = [] then { t with need := o.lacks delta } else t
    let t := if t.need = [] then t.scan o h (deltaNodes o.used) else t
    ([t], t)
  else if o.lacks ((if o.tombObj = 0 then [] else [(o.tombObj, 0, 8 * h.count)]) ++ delta) ≠ [] then
    ([], { t with need := o.lacks ((if o.tombObj = 0 then [] else [(o.tombObj, 0, 8 * h.count)]) ++ delta) })
  else
    (List.range o.leaves.length).foldl (fun (acc : List Trav × Trav) l =>
      let r := acc.2.leafScan o h o.leaves.length l
      (acc.1 ++ [r], { r with best := (r.best.foldl (fun l x => insHit x l) acc.2.best).take o.k })) ([], t)

/-! ### The context's tile slots (R239) -/

/-- Where a search context keeps what R239 names: DESIGN CHOICE (log 111), as no rule gives a layout. The visited
set fills slot 2c; slot 2c + 1 holds the query vector, `cand`, `best` and the staging, a quarter each. The staging
holds the vector that was read last. -/
def Chip.sftStore (c : Chip) (core ctx part : Nat) (b : Bytes) : Chip :=
  let size := if part = 0 then 65536 else 16384
  let off := if part = 0 then 2 * ctx * 65536 else (2 * ctx + 1) * 65536 + (part - 1) * 16384
  c.wrStore core off (b.take size)

/-- Key of a list entry. -/
def hitKey (h : Hit) : Bytes := natLE 4 h.dist ++ natLE 4 h.node

/-- A leaf's context has searched: its sets and lists, and the vector it read last, stand in its slots, and its
core's array issued from it. R239 has the context wait for each read, which lets others issue meanwhile; that a search
counts at most one context switch on each leaf is the model's choice (notes/assumptions/143.md). -/
def Chip.sftLeft (c : Chip) (o : SftOp) (core : Nat) (t : Trav) : Chip :=
  let x := o.ctx
  (((((c.switchTo core x).sftStore core x 0 (t.visited.reverse.flatMap (natLE 4))).sftStore core x 1
    (o.vec.flatMap (natLE 4))).sftStore core x 2 (t.cand.flatMap hitKey)).sftStore core x 3 (t.best.flatMap hitKey)).sftStore core x 4 t.staged

/-! ### Results, flag and ends (R254, R255, R260) -/

def Chip.sft? (c : Chip) (id : Nat) : Option SftOp := c.sft.ops.find? fun o => o.id == id

/-- What an ended operation frees: held bowl writes and a held disable take effect. -/
def Chip.sftFreed (c : Chip) : Chip := c.bowlRelease.noteWaits.sftRelease

/-- The operation ends; its cells, or the slot that still holds its record, are freed. -/
def Chip.sftEnd (c : Chip) (o : SftOp) : Chip :=
  let c := if o.phase = 4 then c.freeQuerySlot o else c
  (({ c with sft := { c.sft with ops := delFirst (fun x => x.id == o.id) c.sft.ops } }).releaseCells o.cells).sftFreed

/-- It ends without a flag. -/
def Chip.sftFail (c : Chip) (o : SftOp) : Chip :=
  ((c.sftEnd o).bump .sftFailed 12 [o.part]).raise Ev.queryFail [o.part]

/-- The record is refused (R253). -/
def Chip.sftRefuse (c : Chip) (o : SftOp) : Chip :=
  ((c.sftEnd o).bump .sftBad 12 [o.part]).raise Ev.badQuery [o.part]

/-- Issue the next result write, or the flag after the last OK (R153, R255). -/
def Chip.sftNext (c : Chip) (o : SftOp) : Chip :=
  match o.writes with
  | [] =>
    (c.setSft { o with phase := 3, outstanding := 1 }).issue o.part (.sftFlag o.id)
      (c.devWrite o.part o.epochs 4 o.flagAddr (natLE 8 (flagWord 3 false o.count o.tag)))
  | w :: t =>
    (c.setSft { o with phase := 2, writes := t, outstanding := 1 }).issue o.part (.sftWrite o.id)
      (c.devWrite o.part o.epochs 8 w.1 w.2)

/-- One result record. -/
def hitBytes (h : Hit) : Bytes := natLE 4 h.dist ++ natLE 4 h.node ++ natLE 8 h.label

/-- GEN of the result's head: a SEARCH gives the value read at its close (R258, R259), an update the index's. -/
def Chip.sftHeadGen (c : Chip) (o : SftOp) : Nat := if o.opc = 0 then fieldB o.e 6 2 else c.sftGen o.index

/-- The run is over: its context is freed and the result area is written. -/
def Chip.sftFinish (c : Chip) (o : SftOp) (epoch : Nat) (hits : List Hit) (flags : Nat) : Chip :=
  let head := natLE 8 epoch ++ natLE 4 hits.length ++ natLE 2 (c.sftHeadGen o) ++ natLE 1 flags ++ natLE 1 0
  (c.sftNext { o with writes := splitWrite o.result (head ++ hits.flatMap hitBytes), count := hits.length }).sftFreed

/-- Answer to a result write. -/
def Chip.sftWriteAns (c : Chip) (id : Nat) (a : Ans) : Chip :=
  match c.sft? id with
  | none => c
  | some o => if a.status = some 0 then c.sftNext o else c.sftFail o

/-- Answer to the flag write: the operation is done. -/
def Chip.sftFlagAns (c : Chip) (id : Nat) (a : Ans) : Chip :=
  match c.sft? id with
  | none => c
  | some o =>
    if a.status = some 0 then (c.sftEnd o).when (o.opc == 0) fun c => c.bump .sftSearches 12 [o.part]
    else c.sftFail o

/-- QUERY_TIMEOUT (R255). -/
def Chip.queryTimeout (c : Chip) (id : Nat) : Chip :=
  match c.sft? id with
  | none => c
  | some o =>
    if c.due o.closeTick (100 * max 1 (c.fld .sftGlb 12 [] 15 0)) then
      (c.sftFail o).raise Ev.queryTimeout [o.part]
    else c

/-! ### Starts (R238, R256, R257) -/

/-- An older query or launch waits for a context on one of the operation's leaves (R95, R238). -/
def Chip.olderQuery (c : Chip) (o : SftOp) : Bool :=
  let ks := c.leaves o.bowl
  let meets (b : Nat) : Bool := (c.leaves b).any fun k => ks.contains k
  (c.sft.ops.any fun x => x.id != o.id && decide (x.seq < o.seq) && c.sftReady x && meets x.bowl) ||
  c.dsp.launches.any fun l => l.phase == 0 && decide (l.closeSeq < o.seq) && c.launchReady l && meets l.bowl

/-- SIFTER_OP_START: the oldest ready operation of the bowl takes its context, if no older one waits
for a leaf of it (R238, R95); a record with a bad VER or OP is refused (R253). -/
def Chip.sftStart (c : Chip) (bowl : Nat) : Chip :=
  let c := c.markCompactWaits
  match minBy? (·.seq) (c.sft.ops.filter fun o => o.bowl == bowl && c.sftReady o) with
  | none => c
  | some o =>
    if fieldB o.record 0 1 ≠ 1 ∨ 3 < o.opc then c.sftRefuse o
    else if c.olderQuery o then c
    else
      match c.sftCtx o with
      | some (ls, x) =>
        -- the context's two tile slots become its own (R239)
        let c := ls.foldl (fun c k => (c.setValid k (2 * x) false).setValid k (2 * x + 1) false) c
        (c.setSft { o with phase := 1, leaves := ls, ctx := x }).markCompactWaits
      | none => c

/-! ### Runs -/

/-- A running operation of the given kind whose objects can be read; `f` runs it. While the pool takes no access, or
home accesses of it are unanswered, it waits (R224, R239). -/
def Chip.sftRun (c : Chip) (id opc : Nat) (f : Chip → SftOp → Chip) : Chip :=
  match c.sft? id with
  | none => c
  | some o =>
    if o.phase ≠ 1 ∨ o.opc ≠ opc ∨ c.enabled 7 12 = false ∨ 0 < o.left then c
    else
      match c.sftObjs o with
      | (.bad, c) => c.sftFail o
      | (.retry, c) => c.setSft { o with causes := (o.causes ++ [2]).dedup }
      | (.ok, c) => f c o

/-- The base header of the operation's index; an operation that cannot read it fails. -/
def Chip.sftBase (c : Chip) (o : SftOp) (f : Chip → BaseHdr → Chip) : Chip :=
  match c.readObj o.baseObj 0 64 with
  | (none, c) => c.sftFail o
  | (some b, c) =>
    match parseBase b with
    | none => c.sftFail o
    | some h => f c h

/-- SEARCH (R247-R249, R253, R254). It goes as far as the home has read for it. -/
def Chip.sftDoSearch (c : Chip) (id : Nat) : Chip :=
  c.sftRun id 0 fun c0 o => c0.sftBase o fun c h =>
    let bad := decide (o.k < 1) || decide (1024 < o.k) ||
      (o.graph && (decide (o.ef < o.k) || decide (1024 < o.ef) || o.maxHops == 0))
    if bad then c.sftRefuse o
    else
      let r := c.sftSearch o h
      let t := r.2
      if t.need ≠ [] then c0.sftFetch o t.need.dedup
      else
        let c := (o.leaves.zip r.1).foldl (fun c e => c.sftLeft o e.1 e.2) t.chip
        if t.fail then c.sftFail o
        else
          let c := c.when t.trunc fun c => c.bump .sftTruncated 12 [o.part]
          let c := c.when t.drop fun c => c.bump .sftCandDrop 12 [o.part]
          c.sftFinish o o.snap (t.best.take o.k) (b2n t.trunc + 2 * b2n t.drop)

/-- INSERT (R253, R256). -/
def Chip.sftDoInsert (c : Chip) (id : Nat) : Chip :=
  c.sftRun id 1 fun c o =>
    match o.commit with
    | some (used, e) =>
      ((c.sftSet o.index e (used + 1) (c.sftGen o.index)).bump .sftInserts 12 [o.part]).sftFinish o e
        [{ dist := 0, node := 2 ^ 31 + used, label := o.label }] 0
    | none =>
      let used := c.sftUsed o.index
      if used = o.deltaCap then (c.sftRefuse o).raise Ev.deltaFull [o.part]
      else
        let e := c.sftEpoch o.index + 1
        c.sftUpdate o used e o.deltaObj (used * deltaRec o.dim) (sliceB o.record 0x80 (4 * o.dim) ++ natLE 8 o.label ++ natLE 8 e)

/-- A DELETE whose node exists: `obj` holds its DEL_EPOCH at `off`, `lobj` its LABEL at `loff`. The DIST of its
record is open. -/
def Chip.sftErase (c : Chip) (o : SftOp) (obj off lobj loff : Nat) : Chip :=
  let need := o.lacks ((obj, off, 8) :: if lobj = o.deltaObj then [(lobj, loff, 8)] else [])
  if obj = 0 then c.sftFail o
  else if need ≠ [] then c.sftFetch o need
  else
    match c.readObj lobj loff 8 with
    | (none, c) => c.sftFail o
    | (some label, c) =>
      match o.commit with
      | some (_, e) =>
        let c := c.sftSet o.index e (c.sftUsed o.index) (c.sftGen o.index)
        let d := (c.bump .sftDeletes 12 [o.part]).draw
        d.2.sftFinish o e [{ dist := d.1 % 2 ^ 32, node := o.node, label := leNat label }] 0
      | none =>
        match c.readObj obj off 8 with
        | (none, c) => c.sftFail o
        | (some old, c) =>
          if leNat old ≠ 0 then c.sftFinish o o.snap [] 0
          else
            let e := c.sftEpoch o.index + 1
            c.sftUpdate o 0 e obj off (natLE 8 e)

/-- DELETE (R253, R254, R256). -/
def Chip.sftDoDelete (c : Chip) (id : Nat) : Chip :=
  c.sftRun id 2 fun c o =>
    let i := o.node % 2 ^ 31
    if o.node < 2 ^ 31 then
      c.sftBase o fun c h =>
        if h.count ≤ i then c.sftRefuse o
        else c.sftErase o o.tombObj (8 * i) o.baseObj (0x40 + i * h.recB + 4 * h.dim + 4 * h.deg)
    else if c.sftUsed o.index ≤ i ∨ c.sftGen o.index ≠ o.gen then c.sftRefuse o
    else
      let at_ := i * deltaRec o.dim + 4 * o.dim
      c.sftErase o o.deltaObj (at_ + 16) o.deltaObj at_

/-- Every delta record, in index order; none when a read fails. -/
def Chip.deltaRecs (c : Chip) (obj len : Nat) : List Nat → Option (List Bytes) × Chip
  | [] => (some [], c)
  | i :: t =>
    match c.readObj obj (i * len) len with
    | (none, c) => (none, c)
    | (some b, c) =>
      match Chip.deltaRecs c obj len t with
      | (none, c) => (none, c)
      | (some bs, c) => (some (b :: bs), c)

/-- A SEARCH of the index runs, or has to run again (R257, R260). -/
def Chip.searching (c : Chip) (i : Nat) : Bool :=
  c.sft.ops.any fun x => x.index == i && x.opc == 0 && (x.phase == 1 || (x.phase == 0 && decide (0 < x.reruns)))

/-- COMPACT, once no SEARCH of the index runs (R257). -/
def Chip.sftDoCompact (c : Chip) (id : Nat) : Chip :=
  c.sftRun id 3 fun c o =>
    let c := c.markCompactWaits
    let used := c.sftUsed o.index
    let len := deltaRec o.dim
    let finish (c : Chip) (n e : Nat) : Chip :=
      ((c.sftSet o.index e n ((c.sftGen o.index + 1) % 2 ^ 16)).raise Ev.compactDone [o.part]).sftFinish o e [] 0
    match o.commit with
    | some (n, e) => finish c n e
    | none =>
      let need := o.lacks [(o.deltaObj, 0, used * len)]
      let e := c.sftEpoch o.index + 1
      if c.searching o.index then c
      else if used = 0 then finish c 0 e
      else if need ≠ [] then c.sftFetch o need
      else
        match c.deltaRecs o.deltaObj len (List.range used) with
        | (none, c) => c.sftFail o
        | (some recs, c) =>
          let keep := recs.filter fun b => fieldB b (4 * o.dim + 16) 8 == 0
          c.sftUpdate o keep.length e o.deltaObj 0 (keep.flatten ++ zerosB ((used - keep.length) * len))

/-- The home has answered an access of an operation's run: after the last answer the run goes on; one that was not
answered OK ends the operation (R255). -/
def Chip.sftMemAns (c : Chip) (id run : Nat) (a : Ans) : Chip :=
  match c.sft? id with
  | none => c
  | some o =>
    if o.phase ≠ 1 ∨ o.reruns ≠ run ∨ o.left = 0 then c
    else if a.status ≠ some 0 then c.sftFail o
    else
      let c := c.setSft { o with left := o.left - 1 }
      if o.left ≠ 1 then c
      else
        match o.opc with
        | 0 => c.sftDoSearch id
        | 1 => c.sftDoInsert id
        | 2 => c.sftDoDelete id
        | _ => c.sftDoCompact id

/-! ### Index-table writes (R237, R244, R258, R267, R598) -/

/-- Distinct leaf cores of the search bowls of every entry but those of a list. -/
def Chip.searchCores (c : Chip) (but : List Nat := []) : List Nat :=
  (((c.idxs .sftIndexW0 12 fun w => bit w 0).filter fun i => !but.contains i).flatMap fun i => c.leaves (c.fld .sftIndexW1 12 [i] 12 0)).dedup

/-- An object the entry names suits it: it is the partition's, uncompressed, and WRITABLE or not. -/
def Chip.sftObjOk (c : Chip) (id part : Nat) (wr : Bool) (size : Nat) : Bool :=
  let o := c.obj id
  if id = 0 then decide (size = 0)
  else decide (o.st ≠ 0) && o.part == part && !o.compressed && o.writable == wr && decide (size ≤ o.size)

/-- The base header of an object that can be read now. -/
def Chip.sftHeader (c : Chip) (id : Nat) : Option BaseHdr :=
  let o := c.obj id
  if o.st = 3 ∨ o.st = 4 then (c.readObj id 0 64).1.bind parseBase else none

/-- The new words of entry `i` make a legal index. -/
def Chip.indexLegal (c : Chip) (i : Nat) (ws : List Nat) : Bool :=
  let e := wordBytes ws
  let part := fieldB e 1 1 % 64
  let dim := fieldB e 2 2
  let bowl := fieldB e 4 2 % 8192
  match c.sftHeader (fieldB e 8 4) with
  | none => false
  | some h =>
    decide (h.kind = b2n (bit (fieldB e 0 1) 1)) && h.dim == dim && c.sftObjOk (fieldB e 8 4) part false 64 &&
    (fieldB e 0xC 4 == 0 || c.sftObjOk (fieldB e 0xC 4) part true (8 * h.count)) &&
    c.sftObjOk (fieldB e 0x10 4) part true (fieldB e 0x14 4 * deltaRec dim) &&
    decide (fieldB e 0x14 4 < 2 ^ 31) && c.bowlOk bowl && c.bowlPart bowl == part &&
    -- the number of distinct leaf cores would not rise above 16,384 (R237)
    (let now := c.searchCores
     let new_ := (c.searchCores [i] ++ c.leaves bowl).dedup
     decide (new_.length ≤ 16384) || decide (new_.length ≤ now.length))

/-- INDEX_TABLE_WRITE: the first word of an entry is written. -/
def Chip.indexWrite (c : Chip) (i v : Nat) : Chip :=
  let v := putBits (putBits v 15 14 0) 7 4 0
  let ws := c.entryNew indexRegs i v
  let old := c.entryW indexRegs i
  let fresh := bit v 0 && !bit (old.headD 0) 0
  -- sifter-maintained words keep their values; they are zero when the entry becomes valid
  let keep (n : Nat) : Nat := if fresh then 0 else old.getD n 0
  let ws := ws.set 1 (putBits (ws.getD 1 0) 31 16 (bits (keep 1) 31 16))
  let ws := ((ws.set 6 (keep 6)).set 7 (keep 7)).set 8 (keep 8)
  if bit v 0 && !c.indexLegal i ws then c.ignored (Reg.addr .sftIndexW0 12 [i])
  else ((c.setEntry indexRegs i ws).dropEntryStage indexRegs i).noteWaits

end Sys2Proof.Machine
end

