-- ==== Sys2Proof/Machine/Partitions.lean ====
section
/-! DEFINITION. Partitions: create, activate, reset, delete, the drain and what ends unfinished work
(R458-R467). -/

namespace Sys2Proof.Machine

def Chip.setPart (c : Chip) (p : Nat) (v : Part) : Chip := { c with parts := ksetD c.parts p {} v }

def PartState.code : PartState → Nat
  | .free => 0
  | .building => 1
  | .active => 2
  | .draining => 3
  | .resetting => 4

/-! ### Outstanding work (R463, R482) -/

def isNotifyOwner : Owner → Bool
  | .notify _ _ => true
  | _ => false

/-- The request is a notification write, which a reset never refuses. -/
def Pend.notify (p : Pend) : Bool :=
  match p.origin with
  | .dev o => isNotifyOwner o
  | .port _ _ => false

/-- Admitted requests of the partition, and device-issued ones that await a response. -/
def Chip.workReqs (c : Chip) (p : Nat) : Nat :=
  let mine (x : Pend) : Bool := x.part == p && !x.notify
  (c.gtx.pends.filter mine).length + (c.gtx.shareWait.filter fun w => mine w.pend).length +
  (c.gtx.tstores.filter fun t => mine t.pend).length + (c.gtx.mstores.filter fun m => m.part == p).length +
  ((c.gtx.devReqs ++ c.gtx.devHeld).filter fun d => d.part == p && !isNotifyOwner d.owner).length

/-- Window of a scoreboard slot's key. -/
def Chip.slotWin (c : Chip) (key : Nat) : Win := if key % 16 = 12 then c.qwin (key / 1024) else c.win (key / 1024)

/-- Slots of the partition that are not IDLE. -/
def Chip.openSlots (c : Chip) (p : Nat) : List Nat :=
  kkeys (c.dsp.sets.filter fun e => e.2.phase != 0 && (c.slotWin e.1).part == p)

/-- Loads of the partition's objects. -/
def Chip.partLoads (c : Chip) (p : Nat) : List Load := c.mem.loads.filter fun l => (c.obj l.obj).part == p

/-- Other work of the partition. -/
def Chip.workOther (c : Chip) (p : Nat) : Nat :=
  (c.openSlots p).length + (c.dsp.launches.filter fun l => l.part == p).length +
  (c.eng.ops.filter fun o => o.part == p).length + (c.sft.ops.filter fun o => o.part == p).length +
  (c.dsp.fills.filter fun f => f.part == p).length + (c.mem.jobs.filter fun j => j.part == p).length +
  (c.partLoads p).length + (c.mgt.place.filter fun q => q.part == p && !(q.started && (q.opc == 0x0303 || q.opc == 0x0305))).length

/-- What an RSP_TIMEOUT or a late response of an ended operation finds: nothing. A request is taken
out of the line queues it waits in. -/
def Chip.abortPend (c : Chip) (id : Nat) : Chip :=
  let qs := c.coh.queues.map fun e =>
    let ws := e.2.waiters.filter fun w => decide (w ≠ .pend id)
    -- a line that it held while it waited is free for the next waiter
    let held := e.2.txn.any fun t => t.stalled && t.pend == id
    (e.1, { e.2 with waiters := ws, txn := if held then (if ws = [] then none else some { ended := true }) else e.2.txn })
  let c := { c with coh := { c.coh with queues := qs }, mem := { c.mem with cursorWait := c.mem.cursorWait.erase id } }
  c.delPend id

/-- Placement commands of the partition complete if they can, or are refused (R463); a load or fill that waited its
turn does not begin. -/
def Chip.endPlaces (c : Chip) (p : Nat) : Chip :=
  let mine (q : PlaceCmd) : Bool := q.part == p
  let c := (c.mgt.place.filter fun q => mine q && !q.started && (q.opc == 0x0303 || q.opc == 0x0305)).foldl
    (fun c q => c.endPlace q 2) c
  let c := (List.range (c.mgt.place.length + 1)).foldl (fun c _ => c.placeRound) c
  (c.mgt.place.filter mine).foldl (fun c q => c.endPlace q 2) c

/-- Messages of ended requests leave the egress queues with their cells; of one whose flits are going out already, the
cells are released (R465). -/
def Chip.dropMsgs (c : Chip) (ids : List Nat) : Chip :=
  let mine (m : EMsg) : Bool := m.dev.any ids.contains
  (kkeys c.lnk.ports).foldl (fun c p =>
    let q := c.port p
    let gone := (q.queue.filter mine).flatMap fun m => m.cells ++ m.xcells
    let going := ((q.curMsg.filterMap id).filter mine).flatMap fun m => m.cells ++ m.xcells
    let strip (m : EMsg) : EMsg := if mine m then { m with cells := [], xcells := [] } else m
    if (q.queue ++ q.curMsg.filterMap id).any mine then
      let q := { q with queue := q.queue.filter fun m => !mine m, curMsg := q.curMsg.map (·.map strip) }
      (List.range 8).foldl (fun c k => c.idleChildren p k) ((c.setPort p q).releaseCells (gone ++ going))
    else c) c

/-- A trigger store's parts end unmarked, and with them their references to its cells (R356, R463). -/
def Chip.endTstore (c : Chip) (t : TStore) : Chip :=
  let mine := c.gtx.held.filter fun h => h.pend == t.id
  let rest := c.gtx.held.filter fun h => h.pend != t.id
  let ts := c.gtx.tstores.filter fun x => x.id != t.id
  let ks := ((mine.filter (·.queued)).map fun h => h.refs t.pend.cells).flatten
  let p := t.pend
  (({ c with gtx := { c.gtx with held := rest, tstores := ts } }).releaseCells ks).refusePend
    { p with cells := if t.ingress then p.cells else [] } 8 0

/-- A request of the device ends: one that waits for an object, or a target of an MSTORE that has not gone out, has not
been performed and is answered PART_BUSY; another is given up (R285, R463). -/
def Chip.endDevReq (c : Chip) (unsent : Bool) (d : DevReq) : Chip :=
  let target := match d.owner with
    | .mTarget _ _ => true
    | _ => false
  if d.causes ≠ [] ∨ (unsent && target) = true then c.addJob { req := d, ans := some { status := some 8 } } else c.giveUp d

/-- Last column of R463: whatever is unfinished ends, each piece counted in PRT_ENDED. -/
def Chip.endWork (c : Chip) (p : Nat) : Chip :=
  let mine (x : Pend) : Bool := x.part == p && !x.notify
  let n := c.workReqs p + c.workOther p
  -- sets and launches
  let c := (c.openSlots p).foldl (fun c k => c.discardSet k) c
  let c := (c.dsp.launches.filter fun l => l.part == p).foldl (fun c l => c.dropLaunch l) c
  -- collective operations
  let c := (c.eng.ops.filter fun o => o.part == p).foldl (fun c o =>
    match c.op? o.id with
    | some o => c.abandon o 2
    | none => c) c
  -- sifter operations
  let c := (c.sft.ops.filter fun o => o.part == p).foldl (fun c o => (c.sftEnd o).bump .sftFailed 12 [p]) c
  -- fills, loads, compressor jobs
  let c := (c.dsp.fills.filter fun f => f.part == p).foldl (fun c f =>
    ((c.delFill f.id).dropResid f).fillCmd f 2) c
  let c := (c.partLoads p).foldl (fun c l =>
    let ls := delFirst (fun x => x.obj == l.obj) c.mem.loads
    let c := ({ c with mem := { c.mem with loads := ls } }).freeExtent l.obj
    let c := c.setObj l.obj { c.obj l.obj with st := 1 }
    l.cmds.foldl (fun c k => c.endCmd k 2 0) c) c
  let c := (c.mem.jobs.filter fun j => j.part == p).foldl (fun c j => c.endJob j 4) c
  -- requests
  let c := (c.gtx.pends.filter mine).foldl (fun c x => (c.abortPend x.id).refusePend x 8 0) c
  let ws := c.gtx.shareWait.filter fun w => mine w.pend
  let c := { c with gtx := { c.gtx with shareWait := c.gtx.shareWait.filter fun w => !mine w.pend } }
  let c := ws.foldl (fun c w => c.refusePend w.pend 8 0) c
  let ts := c.gtx.tstores.filter fun t => mine t.pend
  let c := ts.foldl (fun c t => c.endTstore t) c
  let work (d : DevReq) : Bool := d.part == p && !isNotifyOwner d.owner
  let out := c.gtx.devReqs.filter work
  let held := c.gtx.devHeld.filter work
  let keep (d : DevReq) : Bool := d.part != p || isNotifyOwner d.owner
  let c := { c with gtx := { c.gtx with devReqs := c.gtx.devReqs.filter keep, devHeld := c.gtx.devHeld.filter keep } }
  let c := c.dropMsgs (out.map (·.id))
  let c := held.foldl (fun c d => c.endDevReq true d) (out.foldl (fun c d => c.endDevReq false d) c)
  -- messages not acknowledged (R542)
  let q := (c.mgt.queue.filter fun m => m.part == p).length
  let c := { c with mgt := { c.mgt with queue := c.mgt.queue.filter fun m => m.part != p } }
  let c := c.when (q != 0) fun c => c.bump .mgtMsgLost 12 [] q
  (c.endPlaces p).when (n != 0) (fun c => c.bump .prtEnded 12 [p] n) |>.unblockFills.bowlRelease.noteWaits.settlePlacement

/-! ### Commands (R458-R462) -/

/-- Outcome of a partition command: the refusal's status, or the state after it. -/
abbrev PartRes := Except Nat Chip

def Chip.prtOn (c : Chip) : Bool := c.enabled 0x12 12

/-- The numbering of a new partition's logged requests starts at TAG 0 towards every node (R301). -/
def Chip.freshTags (c : Chip) (p : Nat) : Chip :=
  let t := c.gtx.nextTag.filter fun e => e.1 / 4096 != p
  { c with gtx := { c.gtx with nextTag := t } }

/-- PART_CREATE (R459). A partition has exactly one LOCAL entry (R271, R307): one that a node entry names
already gets no second. -/
def Chip.partCreate (c : Chip) (p n : Nat) : PartRes :=
  if 64 ≤ p ∨ 4096 ≤ n then .error 4
  else if !c.prtOn || (c.partOf p).st != .free || c.node n != .none || (c.localNode p).isSome then .error 2
  else .ok (((c.setReg .gtxNode 12 [n] (2 ^ 30 + p * 2 ^ 24)).freshTags p).setPart p { st := .building, node := n })

/-- A seed of the sampling LFSR (R105, R460). -/
def Chip.seedLfsr (c : Chip) (p : Nat) : Chip :=
  let r := c.drawRng
  { r.2 with dsp := { r.2.dsp with lfsr := kput r.2.dsp.lfsr p (r.1 % 2 ^ 32) } }

/-- PART_ACTIVATE (R460). -/
def Chip.partActivate (c : Chip) (p : Nat) : PartRes :=
  if 64 ≤ p then .error 4
  else
    let share := [8, 9, 10, 11].all fun d => c.fld .swcPartShare d [p] 31 16 != 0
    let vec := (List.range 8).any fun v => bit (c.reg .irqVecCfg 12 [p, v]) 31
    if !c.prtOn || (c.partOf p).st != .building || !share || !vec then .error 2
    else .ok (((c.setPart p { c.partOf p with st := .active }).seedLfsr p).raise Ev.partActive [p])

/-- Step 1 of a reset (R462). -/
def Chip.startReset (c : Chip) (p : Nat) (del : Bool) : Chip :=
  let v := c.partOf p
  let c := c.setPart p { v with st := .draining, step := 2, deleting := del, from_ := v.st, drainAt := c.tick,
                                timedOut := false, toRevoke := [], toStart := [] }
  ((c.dsp.checks.filter fun k => k.part == p).foldl (fun c k => c.dropCheck k) c).bowlRelease.noteWaits

/-- PART_RESET (R461). -/
def Chip.partReset (c : Chip) (p : Nat) : PartRes × Chip :=
  let st := (c.partOf p).st
  if 64 ≤ p then (.error 4, c)
  else if !c.prtOn || st == .free then (.error 2, c)
  else if st = .draining ∨ st = .resetting then (.error 2, c.bump .prtResetRefused 12 [p])
  else (.ok (c.startReset p false), c)

/-- The partition owns a region or an object. -/
def Chip.ownsAny (c : Chip) (p : Nat) : Bool :=
  (c.sec.regions.any fun e => e.2.valid && e.2.part == p) || c.mem.objs.any fun e => e.2.st != 0 && e.2.part == p

/-- PART_DELETE (R466). -/
def Chip.partDelete (c : Chip) (p : Nat) : PartRes × Chip :=
  let st := (c.partOf p).st
  if 64 ≤ p then (.error 4, c)
  else if !c.prtOn || st == .free then (.error 2, c)
  else if st = .draining ∨ st = .resetting then (.error 2, c.bump .prtResetRefused 12 [p])
  else if c.ownsAny p then (.error 2, c)
  else (.ok (c.startReset p true), c)

/-- A partition command's result as a command's. -/
def partCmd (r : PartRes × Chip) : CmdRes :=
  match r with
  | (.ok c, _) => .done c 0 0 []
  | (.error st, c) => .done c st 0 []

/-! ### Steps 3 to 6 -/

/-- Bowls of a partition and their leaves. -/
def Chip.partBowls (c : Chip) (p : Nat) : List Nat := c.bowls.filter fun b => c.bowlPart b == p

/-- Clear the words of an entry to their reset values. -/
def Chip.clearEntry (c : Chip) (rs : List Reg) (idx : List Nat) : Chip :=
  rs.foldl (fun c r => c.setReg r 12 idx (r.resetWord idx)) c

def groupRegs : List Reg := [.gtxGroupW0, .gtxGroupBaseLo, .gtxGroupBaseHi, .gtxGroupHek]

/-- Table entries of a deleted partition (R466). A binding is the partition's when one of its windows
reaches it or its descriptor is the partition's. -/
def Chip.clearTables (c : Chip) (p : Nat) : Chip :=
  let ws := (c.windows p)
  let descs := c.idxs .dspDescW0 12 fun w => bits w 21 16 == p
  let binds := c.idxs .dspBind 12 fun w => decide (w ≠ 0)
  let mineB (b : Nat) : Bool := descs.contains (c.fld .dspBind 12 [b] 13 0) ||
    ws.any fun w => w.routed && decide (w.bindBase ≤ b) && decide (b < w.bindBase + w.bindCount)
  let mineBinds := binds.filter mineB
  let c := mineBinds.foldl (fun c b => c.clearEntry [.dspBind] [b]) c
  let c := ws.foldl (fun c w => c.clearEntry (if w.query then qwinRegs else winRegs) [w.idx]) c
  let c := (c.idxs .sftIndexW0 12 fun w => bits w 13 8 == p).foldl (fun c i => c.clearEntry indexRegs [i]) c
  let c := descs.foldl (fun c i => c.clearEntry descRegs [i]) c
  let c := (c.idxs .gtxGroupW0 12 fun w => bits w 13 8 == p).foldl (fun c g =>
    (List.range 15).foldl (fun c i => c.clearEntry [.gtxGroupBaseLo, .gtxGroupBaseHi, .gtxGroupHek] [g, i])
      (c.clearEntry [.gtxGroupW0] [g])) c
  let c := (c.idxs .gtxStream 12 fun w => bits w 29 24 == p).foldl (fun c s =>
    (c.setStream s {}).clearEntry [.gtxStream] [s]) c
  let c := c.clearEntry [.gtxNode] [(c.partOf p).node]
  let c := [0, 1, 2].foldl (fun c k => (List.range 64).foldl (fun c e =>
    if c.engOwned k e p then c.setFld (engCfgReg k) (engDie e) [engLocal e] 31 31 0 else c) c) c
  let c := (c.partBowls p).foldl (fun c b =>
    if 2 ≤ c.bowlRank b then c.setFld .corBowlDesc 12 [b] 31 31 0 else c) c
  (List.range 8).foldl (fun c v => c.setFld .irqVecCfg 12 [p, v] 31 31 0) c

/-- Step 5: leaf cores scrubbed, residency cleared. Step 6: the partition returns. -/
def Chip.finishReset (c : Chip) (p : Nat) : Chip :=
  let bs := c.partBowls p
  let c := ((bs.flatMap c.leaves).dedup).foldl (fun c k => c.wipeCore k) c
  let rs := c.dsp.resid.filter fun r => !bs.contains r.bowl
  let c := { c with dsp := { c.dsp with resid := rs } }
  let v := c.partOf p
  let back : PartState := if v.deleting then .free else v.from_
  let c := c.setPart p (if v.deleting then {} else { st := back, node := v.node })
  let c := if back = .active then c.seedLfsr p else c
  let c := (c.bump .prtResets 12 [p]).raise Ev.resetDone [p] (b2n v.timedOut + 2 * b2n v.deleting) 0
  if v.deleting then (c.setPart p v).clearTables p |>.setPart p {} else c

/-- Step 4 begins once every region of step 3 is revoked. -/
def Chip.resetStep (c : Chip) (p : Nat) : Chip :=
  let v := c.partOf p
  if v.st = .resetting ∧ v.step = 3 ∧ v.toRevoke = [] then (c.setPart p { v with step := 4 }).partSweep p else c

/-- A fatal error supersedes the resets that run (R562). -/
def Chip.resetsRun (c : Chip) : Bool := c.boot.state ≠ .recovery && c.boot.state ≠ .dead

/-- The next partition with a region to revoke, after the one served last (R467). -/
def Chip.nextTurn (c : Chip) : Option Nat :=
  ((List.range 64).map fun i => (c.sec.turn + 1 + i) % 64).find? fun p => !(c.partOf p).toStart.isEmpty

/-- Step 3, one region of one partition: its revocation starts when the security block is free, which it is 10 ticks,
and one for each 64 surviving grants, after the one before (R462). One whose revocation runs already is revoked again
after it. -/
def Chip.serveRevoke (c : Chip) : Chip :=
  if c.tick < c.sec.turnAt ∨ c.resetsRun = false then c
  else
    match c.nextTurn with
    | none => c
    | some p =>
      let v := c.partOf p
      let s := v.toStart.headD 0
      let r := c.region s
      let grants := (c.sec.grants.filter fun e => e.2.slot == s).length
      if r.valid && r.part == p then
        let c := c.setPart p { v with toStart := v.toStart.tail }
        let c := { c with sec := { c.sec with turn := p, turnAt := c.tick + 10 + cdiv grants 64 } }
        if r.revoking then { c with sec := { c.sec with waits := { slot := s, opc := 0 } :: c.sec.waits } }
        else c.revokeStart { slot := s, reset := true } none
      else (c.setPart p { v with toStart := v.toStart.tail, toRevoke := v.toRevoke.erase s }).resetStep p

/-- Step 3: every region of the partition is revoked, in ascending slot, as the security block's turns come. -/
def Chip.startRevokes (c : Chip) (p : Nat) : Chip :=
  let slots := kkeys (c.sec.regions.filter fun e => e.2.valid && e.2.part == p)
  let c := c.setPart p { c.partOf p with st := .resetting, step := 3, toRevoke := slots, toStart := slots }
  (c.resetStep p).serveRevoke

/-- DRAIN_END (R464): nothing of R463 is left. -/
def Chip.drainEnd (c : Chip) (p : Nat) : Chip :=
  if (c.partOf p).st = .draining ∧ c.resetsRun ∧ c.workReqs p + c.workOther p = 0 then
    (c.endWork p).startRevokes p
  else c

/-- DRAIN_TIMEOUT (R464). -/
def Chip.drainTimeout (c : Chip) (p : Nat) : Chip :=
  let v := c.partOf p
  if v.st = .draining ∧ c.resetsRun ∧ c.due v.drainAt (max 1 (c.fld .prtGlb 12 [] 15 0)) then
    let c := (c.setPart p { v with timedOut := true }).bump .prtDrainTmo 12 [p]
    let c := c.raise Ev.drainTimeout [p] (1 + 2 * b2n v.deleting) 0
    (c.endWork p).startRevokes p
  else c

/-- REVOKE_RETIRE_DONE: the revocation completes, and with it maybe a reset's step 3. -/
def Chip.retireDone (c : Chip) (slot : Nat) : Chip :=
  let p := (c.region slot).part
  (c.revokeRetire slot).resetStep p

/-- PARTITION_SWEEP_DONE: the last snoop of step 4 is settled, and the sweep goes on or ends. -/
def Chip.partSwept (c : Chip) (p : Nat) : Chip :=
  let v := c.partOf p
  if v.st = .resetting ∧ v.step = 4 ∧ c.resetsRun ∧ c.coh.partSweeps.contains (p, []) then
    let c := { c with coh := { c.coh with partSweeps := c.coh.partSweeps.erase (p, []) } }
    if c.partEnts p = [] then c.finishReset p else c.partSweep p
  else c

end Sys2Proof.Machine
end

