-- ==== Sys2Proof/Machine/Device.lean ====
section
/-! DEFINITION. Device states, DEGRADED, fatal errors and RECOVERY, the steward, and the management
complexes (R500-R506, R529, R541, R550-R553). -/

namespace Sys2Proof.Machine

/-! ### Device state -/

/-- Enter a device state: its BOOT_TIME is the present tick (ROMBOOT's stays 0, R512), DEV_STATE is
raised once BOOT_ is enabled (R509, R513), the tester is forgotten on leaving TEST (R440), and the sessions that the
state excludes end (R521). -/
def Chip.devTo (c : Chip) (st : DevState) : Chip :=
  let old := c.boot.state
  let times := if 3 ≤ st.code then kput c.boot.times st.code c.tick else c.boot.times
  let c := { c with boot := { c.boot with state := st, times := times } }
  let c := c.when (old == .test) fun c => c.setReg .secTestNode 12 [] 0
  let c := c.when (bit (c.reg .bootCtrl 12) 0) fun c => c.raise Ev.devState [] (st.code + 16 * old.code) 0
  c.admitSessions

/-- What moves a device in SERVICE to DEGRADED; before SERVICE the target becomes DEGRADED (R503). -/
def Chip.degrade (c : Chip) : Chip :=
  match c.boot.state with
  | .service => c.devTo .degraded
  | .waitOwner => { c with boot := { c.boot with target := 2 } }
  | .bringup => { c with boot := { c.boot with target := 2 } }
  | _ => c

/-! ### DEVICE_LOST and DEAD (R506, R541) -/

def Chip.udpPort (c : Chip) : Nat := if c.net 0xA 2 = 0 then 18967 else c.net 0xA 2

/-- Where DEVICE_LOST goes: the last owner session, else the IPv4 limited broadcast or the IPv6
all-nodes address. An address is the number whose byte 0 is the address's first byte. -/
def Chip.lostAddr (c : Chip) : NetAddr :=
  match c.mgt.lastOwner with
  | some a => a
  | none =>
    if bit (c.net 6 1) 0 then { ip := 0xFFFFFFFF, port := c.udpPort }
    else { v6 := true, ip := 0xFF + 0x200 + 2 ^ 120, port := c.udpPort }

/-- The steward's unprotected record of TYPE 6. -/
def Chip.deviceLost (c : Chip) (cause : Nat) : Chip :=
  c.sendClear c.lostAddr 6 0 (natLE 8 c.boot.image.serial ++ natLE 1 cause ++ natLE 1 c.boot.state.code ++
    zerosB 2 ++ natLE 4 (c.tick % 2 ^ 32))

def Chip.assertFault (c : Chip) : Chip := { c with pins := { c.pins with faultN := true } }

/-- DEAD from a boot state: the ports are DOWN, the ROM asserts FAULT_N and asks the steward for the record, which
needs a trained Ethernet port (R30, R439, R506). -/
def Chip.bootDead (c : Chip) (cause : Nat) : Chip :=
  let c := (kkeys c.lnk.ports).foldl (fun c p => c.portDown p) c
  (({ c with boot := { c.boot with deadCause := cause } }.assertFault).devTo .dead).deviceLost cause

/-! ### Fatal errors (R550, R551) -/

/-- A fatal error, by its event. In RECOVERY a second one changes nothing while the first is being
handled; after that it starts the sequence again. -/
def Chip.fatal (c : Chip) (ev : Nat) : Chip :=
  let st := c.boot.state
  let ready := [DevState.waitOwner, .service, .degraded, .test].contains st ||
    (st == .recovery && c.dump.step == 5)
  if !ready then c
  else
    let d := { c.dump with cause := ev, fromState := st, at_ := c.tick, step := 2 }
    let c := ({ c with dump := d }.assertFault)
    let c := c.when (decide (st ≠ .recovery)) fun c => c.devTo .recovery
    (c.dsp.checks.foldl (fun c k => c.dropCheck k) c).bowlRelease.noteWaits

/-- Partitions with work of R463. -/
def Chip.anyWork (c : Chip) : Bool := (List.range 64).any fun p => decide (c.workReqs p + c.workOther p ≠ 0)

/-- A valid dump that has not been released keeps its place (R537). -/
def Chip.dumpKept (c : Chip) : Bool := c.dump.valid && !c.dump.released

/-- RECOVERY_DRAIN_END, steps 2 and 3 of R551: nothing is left, or DRAIN_TMO has passed; what is
unfinished ends, and the dump's writing starts unless one is held. -/
def Chip.recoveryDrainEnd (c : Chip) : Chip :=
  let tmo := max 1 (c.fld .prtGlb 12 [] 15 0)
  if c.boot.state = .recovery ∧ c.dump.step = 2 ∧ (c.anyWork = false ∨ c.due c.dump.at_ tmo = true) then
    let c := (List.range 64).foldl (fun c p => c.endWork p) c
    let d := if c.dumpKept then { c.dump with step := 5 }
      else { c.dump with step := 4, writing := true, valid := false, released := false }
    { c with dump := d }
  else c

/-- The homes send no snoops after step 3 of R551. -/
def Chip.homesQuiet (c : Chip) : Bool := c.boot.state = .recovery && decide (3 ≤ c.dump.step)

/-! ### The steward (R552, R553) -/

/-- Device states in which the steward acts: from ROMBOOT onwards. -/
def Chip.stewardWatches (c : Chip) : Bool :=
  decide (2 ≤ c.boot.state.code) && c.boot.state != .dead

/-- A management complex runs: not failed, and the crystal has not stopped (R572). -/
def Chip.mcRuns (c : Chip) (b : Bool) : Bool :=
  c.boot.running && c.pins.crystal && !(if b then c.mcs.failedB else c.mcs.failedA)

/-- STEWARD_PULSE restarts a complex's loss timer; a complex counted as lost stays lost. -/
def Chip.stewardPulse (c : Chip) (b : Bool) : Chip :=
  if c.stewardWatches && c.mcRuns b then
    { c with mcs := if b then { c.mcs with pulseB := c.tick } else { c.mcs with pulseA := c.tick } }
  else c

/-- The steward counts a complex as lost; with both lost its sequence starts, except that a DEAD from
a boot state is the ROM's (R553). -/
def Chip.countLost (c : Chip) (b : Bool) : Chip :=
  let m := if b then { c.mcs with lostB := true } else { c.mcs with lostA := true }
  { c with mcs := { m with stewardAt := if m.lostA && m.lostB && m.stewardAt.isNone then some c.tick else m.stewardAt } }

/-- STEWARD_COMPLEX_LOST: 1,000 ticks without a pulse. With the crystal stopped no tick passes, and
the steward's own oscillator has counted them. -/
def Chip.stewardComplexLost (c : Chip) (b : Bool) : Chip :=
  let lost := if b then c.mcs.lostB else c.mcs.lostA
  let last := if b then c.mcs.pulseB else c.mcs.pulseA
  if c.stewardWatches && !lost && (c.due last 1000 || !c.pins.crystal) then c.countLost b else c

/-- Nothing that was admitted runs on: no flag is written, no snoop sent. -/
def Chip.stopWork (c : Chip) : Chip :=
  { c with
    dsp := { c.dsp with sets := [], launches := [], checks := [], fills := [], runs := [] }
    cores := { c.cores with ctx := [], bowlHeld := [], subst := [] }
    eng := { c.eng with ops := [] }
    sft := { c.sft with ops := [] }
    mem := { c.mem with jobs := [], loads := [], cursorWait := [] }
    gtx := { c.gtx with pends := [], mstores := [], tstores := [], shareWait := [], held := [],
                        devReqs := [], devHeld := [], localQ := [], cuts := [] }
    coh := { c.coh with snoops := [], queues := [], rsvs := [], late := [] }
    mgt := { c.mgt with rings := [], place := [] } }

/-! ### Management complexes (R529, R480) -/

def Chip.hbPeriod (c : Chip) : Nat := max 1 (c.fld .mgtGlb 12 [] 31 16)
def Chip.hbMiss (c : Chip) : Nat := max 1 (c.fld .mgtGlb 12 [] 7 0)

/-- HEARTBEAT_SEND: the active complex, every HB_PERIOD ticks. -/
def Chip.heartbeatSend (c : Chip) : Chip :=
  if c.mcRuns c.mcs.activeB && c.due c.mcs.lastBeat c.hbPeriod then
    { c with mcs := { c.mcs with lastBeat := c.tick } }
  else c

/-- A complex is marked failed: its cores' EN becomes 0, their stacks are emptied and their latches
rerouted (R480). -/
def Chip.failMc (c : Chip) (b : Bool) : Chip :=
  let ks := (List.range 4).map fun i => if b then 4 + i else i
  let c := { c with mcs := if b then { c.mcs with failedB := true } else { c.mcs with failedA := true } }
  let c := ks.foldl (fun c k =>
    (c.setFld .irqCoreCfg 12 [k] 31 31 0).modIrqCore k fun _ => {}) c
  c.reroute ks

/-- Every command that was running or copied and had not completed is answered INTERRUPTED: DETAIL 1
for one that had started, 0 for one that had not (R529). What such a command started goes on. -/
def Chip.interruptCmds (c : Chip) : Chip :=
  let running := c.mgt.sessions.flatMap fun s => s.running.map fun r => (s.id, r.reqId)
  let ready := (c.mgt.sessions.filter fun s => s.kind != 2).flatMap fun s => s.ready.map fun r => (s.id, r.1, r.2.1)
  let c := running.foldl (fun c k => c.endCmd k 8 1) c
  let c := ready.foldl (fun c k => c.finishCmd k.1 k.2.1 k.2.2 8 0 []) c
  c.setSessions (c.mgt.sessions.map fun s => if s.kind = 2 then s else { s with ready := [] })

/-- The standby restarts the boot at ROMBOOT; the tick count continues, and every CR_EN is low again
(R508, R568). -/
def Chip.bootRestart (c : Chip) : Chip :=
  let b := c.boot
  let rails := c.pwr.rails.map fun e => (e.1, { e.2 with on := false })
  { c with
    boot := { state := .romboot, tick := b.tick, running := true, times := b.times, ethUp := b.ethUp, step := 1 }
    sec := { c.sec with treeBusy := false }
    pwr := { c.pwr with rails := rails }
    pins := { c.pins with crDriven := true } }

/-- MC_FAILOVER: the standby has missed HB_MISS heartbeats in a row. -/
def Chip.mcFailover (c : Chip) : Chip :=
  let a := c.mcs.activeB
  let booting := [DevState.load, .verify, .bringup].contains c.boot.state ||
    (c.boot.state == .romboot && decide (1 < c.boot.step))
  if c.mcs.standbyOk && c.mcRuns (!a) && (booting || decide (6 ≤ c.boot.state.code)) && c.boot.state != .dead &&
      c.due c.mcs.lastBeat (c.hbPeriod * c.hbMiss) then
    let c := c.failMc a
    let c := { c with mcs := { c.mcs with activeB := !a, standbyOk := false, lastBeat := c.tick } }
    if booting then c.bootRestart else c.interruptCmds.raise Ev.mcFailover []
  else c

/-- HEARTBEAT_LOST: the standby does not answer any more. -/
def Chip.heartbeatLost (c : Chip) : Chip :=
  if c.mcs.standbyOk && c.mcRuns c.mcs.activeB then
    ({ c with mcs := { c.mcs with standbyOk := false } }).raise Ev.heartbeatLost []
  else c

/-! ### Reset (R500, R569, R606) -/

/-- What RESET keeps: the pins, and the bundles in flash that were delivered whole; everything else
returns to its reset value. A bundle without its completion mark is refused at the next BRINGUP. -/
def Chip.toReset (c : Chip) (pulse : Bool) : Chip :=
  { Chip.reset with
    pins := { c.pins with faultN := false, crDriven := false, spiRstN := false, pulse := pulse }
    mem := { bundles := c.mem.bundles }
    draws := c.draws }

end Sys2Proof.Machine
end

