-- ==== Sys2Proof/Machine/Stacks.lean ====
section
/-! DEFINITION. DRAM read errors, stack failures, the spare and the rebuild, flash failures
(R213-R223, R549). -/

namespace Sys2Proof.Machine

/-! ### The rebuild cursor (R217, R218) -/

/-- REBUILD_AUTO lets the rebuild go on. -/
def Chip.rebuildAuto (c : Chip) : Bool := bit (c.reg .memCtrl 12) 3

/-- Bytes that a pass may take in one tick: a rate of 1 GB/s is 1,000 bytes (R227). -/
def Chip.mirrorTick (c : Chip) : Nat := 1000 * max 1 (c.fld .memRates 12 [] 15 0)
def Chip.reloadTick (c : Chip) : Nat := 1000 * max 1 (c.fld .memRates 12 [] 31 16)

/-- Copy the granule at the cursor from its other copy, and move the cursor to the next one. The two
copies of a granule lie at an even pool granule and the next one (R203). -/
def Chip.copyGranule (c : Chip) : Chip :=
  let g := 15 * c.mem.cursor + c.mem.rebuildLs
  let o := if g % 2 = 0 then g + 1 else g - 1
  let c := if c.lsUp (o % 15) then
      (c.wrPool (g * 256) (c.rdPool (o * 256) 256)).cross (c.homeDie (o % 15)) (c.homeDie (g % 15)) (granHash g)
    else c
  { c with mem := { c.mem with cursor := c.nextWritable c.mem.rebuildLs (c.mem.cursor + 1),
                               mirrorRoom := c.mem.mirrorRoom - 256 } }

/-- Copy at most `n` granules. -/
def Chip.copyGranules (c : Chip) : Nat → Chip
  | 0 => c
  | n + 1 => if c.mem.rebuild = 1 ∧ c.mem.cursor < 2 ^ 28 then Chip.copyGranules c.copyGranule n else c

/-- Reload one chunk of a read-only object's bytes on the logical stack; one that cannot be read stays
flash-served. -/
def Chip.reloadChunk (c : Chip) (id k : Nat) : Chip :=
  let key := id * 2 ^ 32 + k + 1
  let ob := c.obj id
  let c := { c with mem := { c.mem with reloadRoom := c.mem.reloadRoom - 65536 } }
  match c.chunk ob.bundle (c.firstChunk ob + k) false with
  | (none, c) => { c with mem := { c.mem with unloaded := c.mem.unloaded ++ [key] } }
  | (some pt, c) =>
    let c := c.writeChunkOn ob k c.mem.rebuildLs pt
    { c with mem := { c.mem with reloaded := c.mem.reloaded ++ [key] } }

/-- Read-only objects with an extent that the load in progress does not write itself, by ascending OBJ_ID. -/
def Chip.reloads (c : Chip) : List Nat :=
  kkeys (c.mem.objs.filter fun e => !e.2.writable && e.2.st == 3 && decide (0 < e.2.rows) &&
    !c.mem.reloaded.contains (e.1 * 2 ^ 32))

/-- Chunks of an object that have bytes on the logical stack under rebuild and that pass 2 still has to read. -/
def Chip.chunksLeft (c : Chip) (id : Nat) : List (Nat × Nat) :=
  let ob := c.obj id
  ((List.range (objChunks ob)).filter fun k =>
    !c.mem.reloaded.contains (id * 2 ^ 32 + k + 1) && !c.mem.unloaded.contains (id * 2 ^ 32 + k + 1) &&
    (List.range 256).any fun i => decide (k * 65536 + i * 256 < (ob.size + 4095) / 4096 * 4096) &&
      (poolLoc (c.copies ob (k * 65536 + i * 256)).1).ls == c.mem.rebuildLs).map fun k => (id, k)

/-- What pass 2 still has to read, in order (R217, R219). -/
def Chip.pass2Left (c : Chip) : List (Nat × Nat) := c.reloads.flatMap c.chunksLeft

/-- Reload at most `n` chunks. -/
def Chip.reloadChunks (c : Chip) (n : Nat) : Chip :=
  (c.pass2Left.take n).foldl (fun c x => c.reloadChunk x.1 x.2) c

/-- One tick of the rebuild: some number of granules or chunks, at most what the rates have allowed since the
pass began and it has not used. -/
def Chip.rebuildTick (c : Chip) : Chip :=
  if !c.rebuildAuto then c
  else if c.mem.rebuild = 1 then
    let c := { c with mem := { c.mem with mirrorRoom := c.mem.mirrorRoom + c.mirrorTick } }
    let r := c.draw
    r.2.copyGranules (r.1 % (c.mem.mirrorRoom / 256 + 1))
  else if c.mem.rebuild = 2 then
    let c := { c with mem := { c.mem with reloadRoom := c.mem.reloadRoom + c.reloadTick } }
    let r := c.draw
    r.2.reloadChunks (r.1 % (c.mem.reloadRoom / 65536 + 1))
  else c

/-! ### Stack failure (R215-R222, R549) -/

/-- Some granule of a writable object has its copy A on `la` and lies at q or above there (`onA`), or has
its copy B on `la` so (not `onA`). A copy on logical stack ls at q is copy A when 15 q + ls is even. -/
def Chip.hasCopyFrom (c : Chip) (ob : Obj) (onA : Bool) (la : Nat) : Nat → Nat → Bool
  | 0, _ => false
  | fuel + 1, q =>
    match c.nextQ ob la q with
    | none => false
    | some q' => ((15 * q' + la) % 2 == 0) == onA || Chip.hasCopyFrom c ob onA la fuel (q' + 1)

/-- First q from which a logical stack's copies are not good: 0 for a failed one, the cursor for one
under pass 1; none when all of its copies are good. -/
def Chip.badFrom (c : Chip) (ls : Nat) : Option Nat :=
  if !c.lsUp ls then some 0 else if c.inPass1 ls then some c.mem.cursor else none

/-- The object has a writable granule whose copies lie on two logical stacks neither of which holds it
(R220, R549). -/
def Chip.losesGranule (c : Chip) (ob : Obj) : Bool :=
  (List.range 15).any fun la =>
    match c.badFrom la, c.badFrom ((la + 1) % 15) with
    | some a, some b =>
      -- copy B of a granule with copy A at q lies at the same q, or at q + 1 when la is 14
      c.hasCopyFrom ob true la 4 (max a (if la = 14 then b - 1 else b))
    | _, _ => false

/-- Objects that a failure loses, in ascending OBJ_ID. -/
def Chip.loseObjects (c : Chip) : Chip :=
  let ids := kkeys (c.mem.objs.filter fun e => e.2.writable && decide (0 < e.2.rows) && c.losesGranule e.2)
  ids.foldl (fun c id => c.objectLost id) c

def Chip.setStack (c : Chip) (n : Nat) (d : DStack) : Chip :=
  { c with mem := { c.mem with dstack := kput c.mem.dstack n d } }

/-- A DRAM stack enters FAILED (R215). CAUSE: 2 PHY loss, 3 UE_LIMIT, 4 command. In BRINGUP, 14 or fewer
stacks left end the boot (R503). -/
def Chip.failStack (c : Chip) (n cause : Nat) : Chip :=
  let d := c.dstack n
  if d.st ≠ 1 ∧ d.st ≠ 2 then c
  else
    let c := c.setStack n { d with st := 3, cause := cause }
    let c :=
      if d.st = 2 then
        -- R216: the spare
        let c := { c with mem := { c.mem with spare := none, rebuild := if c.mem.rebuild = 3 then 0 else c.mem.rebuild } }
        (c.raise Ev.stackFailed []).degrade
      else
        let ls := (c.lsOf n).getD d.logical
        let again := c.inPass1 ls || (c.mem.rebuild == 2 && c.mem.rebuildLs == ls)
        let c := c.raise Ev.stackFailed c.extentParts
        let c := c.loseObjects
        if again then ({ c with mem := { c.mem with rebuild := 0 } }).wakeCursor.degrade
        else if c.mem.rebuild = 3 ∧ c.mem.failTick = c.tick ∧ n < (c.physOf c.mem.rebuildLs).getD 0 then
          -- R223: of two that fail in one tick the lower number takes the spare
          ({ c with mem := { c.mem with rebuildLs := ls } }).degrade
        else if c.mem.spare.isSome ∧ c.mem.rebuild = 0 then
          { c with mem := { c.mem with rebuild := 3, rebuildLs := ls, failTick := c.tick, unloaded := [], reloaded := [] } }
        else c.degrade
    let live := (List.range 16).filter fun k => (c.dstack k).st == 1 || (c.dstack k).st == 2
    if c.boot.state = .bringup ∧ live.length ≤ 14 then c.bootDead 3 else c

/-- STACK_FAILED. -/
def Chip.stackFailed (c : Chip) (n cause : Nat) : Chip := if n < 16 then c.failStack n cause else c

/-- CHANNEL_RETRAINING_ATTEMPT: counted; the third failure in a row fails the stack. -/
def Chip.channelRetrain (c : Chip) (n ch : Nat) (ok : Bool) : Chip :=
  let d := c.dstack n
  if 16 ≤ n ∨ 32 ≤ ch ∨ (d.st ≠ 1 ∧ d.st ≠ 2) then c
  else
    let k := if ok then 0 else kgetD d.chFails ch 0 + 1
    let c := (c.setStack n { d with chFails := ksetD d.chFails ch 0 k }).bumpStack .memRetrain n
    if 3 ≤ k then c.failStack n 2 else c

/-- An uncorrectable read of a stack, counted in its window (R215). -/
def Chip.countUe (c : Chip) (n : Nat) : Chip :=
  let d := c.dstack n
  let win := 1000 * max 1 (c.fld .memUeCfg 12 [] 31 16)
  let ts := (d.ueTicks.filter fun t => decide (c.tick < t + win)) ++ [c.tick]
  let c := (c.setStack n { d with ueTicks := ts }).bumpStack .memUe n
  if max 1 (c.fld .memUeCfg 12 [] 7 0) ≤ ts.length then c.failStack n 3 else c

/-- The next read of the granule is answered DATA_ERR (R213). -/
def Chip.setBad (c : Chip) (g : Nat) : Chip :=
  { c with mem := { c.mem with badNext := if c.mem.badNext.contains g then c.mem.badNext else c.mem.badNext ++ [g] } }

/-- Uncorrectable read of one copy of a writable granule: the bad copy is rewritten from the good one. -/
def Chip.repairCopy (c : Chip) (g : Nat) (otherBad : Bool) : Chip :=
  let o := if g % 2 = 0 then g + 1 else g - 1
  let n := (c.physOf (g % 15)).getD 0
  if !otherBad && c.copyGood (o * 256) then
    ((c.wrPool (g * 256) (c.rdPool (o * 256) 256)).bumpStack .memRepair n).bumpStack .memOtherCopy n
  else
    let c := if otherBad && c.copyGood (o * 256) then c.countUe ((c.physOf (o % 15)).getD 0) else c
    c.setBad (g - g % 2)

/-- Uncorrectable read of a read-only granule: refetched once from flash. -/
def Chip.refetchGranule (c : Chip) (id o g : Nat) : Chip :=
  let ob := c.obj id
  match c.chunk ob.bundle (c.firstChunk ob + o / 65536) false with
  | (none, c) => c.setBad g
  | (some pt, c) => c.wrPool (g * 256) (sliceB pt (o % 65536 / 256 * 256) 256)

/-- Errors that the next flash reads meet (R214). -/
def Chip.flashErrors (c : Chip) (l : List FlashErr) : Chip :=
  { c with mem := { c.mem with flashNext := c.mem.flashNext ++ l } }

/-- An uncorrectable read by the object's kind (R213): a ricer's read of a compressed object fails its block
check instead (R182). -/
def Chip.granuleError (c : Chip) (g id o : Nat) (ricer otherBad : Bool) : Chip :=
  let ob := c.obj id
  if ob.writable then c.repairCopy g otherBad
  else if ricer && ob.compressed then c.setBad g
  else c.refetchGranule id o g

/-- DRAM_READ_ERROR at a pool address (R213). -/
def Chip.dramReadError (c : Chip) (pool : Nat) (corrected ricer otherBad : Bool) (flash : List FlashErr) : Chip :=
  let g := pool / 256
  let c := c.flashErrors flash
  match c.physOf (g % 15) with
  | none => c
  | some n =>
    if !c.lsUp (g % 15) || decide (0xF000000000 ≤ pool) then c
    else if corrected then c.bumpStack .memCe n
    else
      let c := match c.lineOwner (pool / 128) with
        | none => c
        | some (id, o) => c.granuleError g id o ricer otherBad
      c.countUe n

/-- MEM_FAIL_CMD with GO (R227). -/
def Chip.memFail (c : Chip) (n : Nat) : Chip := c.failStack n 4

/-! ### Induction and the two passes -/

/-- SPARE_INDUCTION, step 3 of R217; with REBUILD_AUTO at 0 it waits. -/
def Chip.spareInduction (c : Chip) : Chip :=
  match c.mem.spare with
  | none => c
  | some n =>
    if c.mem.rebuild = 3 ∧ c.rebuildAuto = true then
      let ls := c.mem.rebuildLs
      let c := c.setReg .memStackMap 12 [ls] (2 ^ 31 + n)
      let c := c.setStack n { c.dstack n with st := 1, logical := ls }
      ({ c with mem := { c.mem with spare := none, rebuild := 1, cursor := c.nextWritable ls 0, mirrorRoom := 0 } }).raise
        Ev.spareInducted []
    else c

/-- PASS1_END: every writable granule of the logical stack has been copied, as MIRROR_RATE allows. -/
def Chip.pass1End (c : Chip) : Chip :=
  if c.mem.rebuild = 1 ∧ c.rebuildAuto = true then
    let d := c.copyGranules ((c.mem.mirrorRoom + c.mirrorTick) / 256)
    if d.mem.cursor < 2 ^ 28 then c
    else ({ d with mem := { d.mem with rebuild := 2, reloadRoom := 0 } }).wakeCursor
  else c

/-- REBUILD_DONE: pass 2 has reloaded every read-only object, as RELOAD_RATE allows. -/
def Chip.rebuildDone (c : Chip) : Chip :=
  if c.mem.rebuild = 2 ∧ c.rebuildAuto = true ∧
      c.pass2Left.length * 65536 ≤ c.mem.reloadRoom + c.reloadTick then
    let c := c.reloadChunks c.pass2Left.length
    ({ c with mem := { c.mem with rebuild := 0, reloaded := [] } }).raise Ev.rebuildDone []
  else c

/-! ### Flash (R214) -/

/-- FLASH_FAILED. -/
def Chip.flashFailed (c : Chip) (n : Nat) : Chip :=
  if n < 8 ∧ kgetD c.mem.fstack n 0 = 1 then
    (({ c with mem := { c.mem with fstack := kput c.mem.fstack n 3 } }).raise Ev.flashFailed []).degrade
  else c

end Sys2Proof.Machine
end

