-- ==== Sys2Proof/Machine/Switch.lean ====
section
/-! DEFINITION. The skimmer's audit passes and the die-to-die links (R356-R364). -/

namespace Sys2Proof.Machine

/-! ### Audit passes (R359-R361) -/

def Chip.skim (c : Chip) (die : Nat) : Nat := kgetD c.swc.skim die 0
def Chip.swcEpoch (c : Chip) (die : Nat) : Bool := kgetD c.swc.epoch die false

def Chip.setSkim (c : Chip) (die n : Nat) : Chip :=
  { c with swc := { c.swc with skim := ksetD c.swc.skim die 0 n } }

/-- Port dies carry the skimmer; it runs while the die's ENABLE is 1. -/
def Chip.skimRuns (c : Chip) (die : Nat) : Bool := decide (8 ≤ die) && decide (die < 12) && c.enabled 4 die

/-- AUDIT_START: AUDIT_PERIOD ticks after the last start, and not before that pass has ended. -/
def Chip.auditStart (c : Chip) (die : Nat) : Chip :=
  if c.skimRuns die && c.skim die == 0 &&
      c.due (kgetD c.swc.auditAt die 0) (max 1 (c.fld .swcGlb die [] 31 16)) then
    let ep := ksetD c.swc.epoch die false (!c.swcEpoch die)
    let at_ := kput c.swc.auditAt die c.tick
    ({ c with swc := { c.swc with epoch := ep, auditAt := at_ } }).setSkim die 1
  else c

/-- Cells that a message at a port holds. -/
def InMsg.cells : InMsg → List Nat
  | .req _ _ ks _ => ks
  | .rsp _ ks _ => ks
  | .snp _ ks _ => ks
  | .cut _ _ ks _ => ks

def Port.cells (q : Port) : List Nat :=
  q.queue.flatMap (·.cells) ++ q.curMsg.flatMap (fun m => (m.map fun m => m.cells ++ m.xcells).getD []) ++ q.rxCells.flatten ++
  q.inbox.flatMap InMsg.cells

/-- Every cell that some holder of R356 holds. -/
def Chip.cellsInUse (c : Chip) : List Nat :=
  c.lnk.ports.flatMap (fun e => e.2.cells) ++ c.gtx.pends.flatMap (·.cells) ++
  c.gtx.tstores.flatMap (·.pend.cells) ++ c.gtx.shareWait.flatMap (·.pend.cells) ++
  (c.gtx.devReqs ++ c.gtx.devHeld ++ c.gtx.localQ.map (·.req)).flatMap (·.cells) ++
  c.gtx.streams.flatMap (fun e => e.2.log.flatMap fun l => l.2.waiters.flatMap (·.cells)) ++
  c.dsp.sets.flatMap (fun e => e.2.cells) ++ c.dsp.launches.flatMap (·.cells) ++ c.dsp.checks.flatMap (·.cells) ++
  c.eng.ops.flatMap (·.cells) ++ c.sft.ops.flatMap (·.cells)

/-- MARK_PHASE_END: every holder has set MARK on each cell it holds; the sweep starts. -/
def Chip.markPhaseEnd (c : Chip) (die : Nat) : Chip :=
  if c.skimRuns die && c.skim die == 1 then
    let mine := c.cellsInUse.filter fun k => cellDie k == die && !(c.cell k).free
    (mine.foldl (fun c k => c.setCell k { c.cell k with mark := true }) c).setSkim die 2
  else c

/-- The sweep's first row that holds for one cell; then MARK is cleared. -/
def Chip.sweepCell (c : Chip) (die k : Nat) : Chip :=
  let e := c.cell k
  let old := e.epoch != c.swcEpoch die
  let c :=
    if e.free then
      (if e.ref = 0 then c
       else ((c.setCell k { e with free := false }).bump .swcListBad die).raise Ev.freeListBad [])
    else if !e.mark && old && e.ref == 0 then ((c.setCell k {}).bump .swcLeakZero die).raise Ev.cellLeak []
    else if !e.mark && old then ((c.setCell k {}).bump .swcLeakUnheld die).raise Ev.cellLeak []
    else if e.mark && e.ref == 0 then (c.setCell k { e with ref := 1 }).bump .swcCountBad die
    else c
  c.setCell k { c.cell k with mark := false }

/-- AUDIT_SWEEP_END: every cell has been examined in ascending index, and the pass counts. -/
def Chip.auditSweepEnd (c : Chip) (die : Nat) : Chip :=
  if c.skimRuns die && c.skim die == 2 then
    let ks := (kkeys c.swc.cells).filter fun k => cellDie k == die
    ((ks.foldl (fun c k => c.sweepCell die k) c).setSkim die 0).bump .swcAudits die
  else c

/-! ### Die-to-die links (R363, R364) -/

def linkExists (die link : Nat) : Bool := if die < 8 then decide (link < 4) else decide (die < 12) && decide (link < 10)

/-- A link goes DOWN in both directions until power-up. -/
def Chip.takeLinkDown (c : Chip) (die link : Nat) : Chip :=
  let o := linkPeer die link
  let d := (c.swc.d2dDown ++ [die * 16 + link, o.1 * 16 + o.2]).dedup
  { c with swc := { c.swc with d2dDown := d } }

/-- Some path of R363 is left between every pair of dies. -/
def Chip.allReach (c : Chip) : Bool :=
  (List.range 12).all fun a => (List.range 12).all fun b => (c.diePath a b 0).isSome

/-- Consecutive failures of the transfer that each end of the link is sending. -/
def Chip.linkRetries (c : Chip) (die link : Nat) : Nat :=
  let o := linkPeer die link
  max (kgetD c.swc.retries (die * 16 + link) 0) (kgetD c.swc.retries (o.1 * 16 + o.2) 0)

/-- D2D_TRANSFER_ERROR: die `die` receives a transfer in error on its link; its sender retries. R17 counts a
link's errors and retries in the sending die's block, R373 names the counter "transfers received in error"; that
both are counted at the sending end is the model's choice (notes/assumptions/110.md). -/
def Chip.d2dError (c : Chip) (die link : Nat) : Chip :=
  if linkExists die link && !c.linkDown die link then
    let o := linkPeer die link
    let k := o.1 * 16 + o.2
    let r := kmod c.swc.retries k 0 (· + 1)
    (({ c with swc := { c.swc with retries := r } }).bump .swcD2dErr o.1 [o.2]).bump .swcD2dRetry o.1 [o.2]
  else c

/-- The transfers outstanding on a link that has gone DOWN are resent on another path; their receiver discards a
copy whose number it has taken before (R364). -/
def Chip.resendOn (c : Chip) (die link : Nat) : Chip :=
  let k := die * 16 + link
  let t := kgetD c.swc.d2dTx k {}
  let c := { c with swc := { c.swc with d2dTx := kput c.swc.d2dTx k (t.out.foldl (fun t x => t.take x.1) { t with out := [] }) } }
  t.out.foldl (fun c x => c.cross die x.2.1 x.2.2) c

/-- D2D_FAULT: the D2D_RETRY_MAX-th consecutive retry fails. The transfers outstanding in both directions are resent,
and later ones take another path (R364). Without a path for some pair of dies the error is fatal (R550), otherwise
the device is DEGRADED (R548). -/
def Chip.d2dFault (c : Chip) (die link : Nat) : Chip :=
  let maxR := max 1 (c.fld .swcGlb die [] 11 8)
  if linkExists die link && !c.linkDown die link && decide (maxR ≤ c.linkRetries die link) then
    let o := linkPeer die link
    let c := (((c.takeLinkDown die link).resendOn die link).resendOn o.1 o.2).raise Ev.d2dFault []
    if c.allReach then c.degrade else c.fatal Ev.d2dFault
  else c

end Sys2Proof.Machine
end

