-- ==== Sys2Proof/Machine/Views.lean ====
section
/-! DEFINITION. What each status register shows: the live value of every register whose fields the
hardware maintains (the RO and SHD fields of the chapters' register tables). -/

namespace Sys2Proof.Machine

/-- Bits of a register's fields that satisfy `p`. -/
def Reg.mask (r : Reg) (p : FieldDef → Bool) : Nat :=
  r.info.fields.foldl (fun m f => if p f then m ||| ((2 ^ (f.hi + 1 - f.lo) - 1) * 2 ^ f.lo) else m) 0

def LinkState.code : LinkState → Nat
  | .down => 0
  | .train => 1
  | .active => 2
  | .narrow => 3
  | .retrain => 4
  | .failed => 5
  | .test => 6

/-! ### Summary registers (R601) -/

/-- Capture registers: their VALID is bit 31. -/
def captureRegs : List Reg :=
  [.devAccCap, .gtxCapture, .corResCapture, .wskFailCapture, .tngFailCapture, .cldFailCapture, .cmpCapture]

/-- Some CFG_IGNORED flag of block `b` is set on a die of `dies`. -/
def Chip.cfgFlag (c : Chip) (b : Nat) (dies : List Nat) : Bool :=
  match ctrlOf b with
  | none => false
  | some (k, _) => (k.info.dies.filter dies.contains).any fun d => bit (c.reg k d) 2

/-- Some SAT bit of block `b` is set on a die of `dies`; DSP_BOWL_SUSP keeps its own (R125). -/
def Chip.satFlag (c : Chip) (b : Nat) (dies : List Nat) : Bool :=
  (c.ctl.sat.any fun e => e.1 / 2 ^ 32 % 4096 == b && dies.contains (e.1 / 2 ^ 44) && e.2 != 0) ||
  (b == 10 && dies.contains 12 && !(c.idxs .dspBowlSusp 12 fun w => bit w 16).isEmpty)

def Chip.capFlag (c : Chip) (b : Nat) (dies : List Nat) : Bool :=
  c.ctl.regs.any fun e => e.1 / 2 ^ 32 % 4096 == b && dies.contains (e.1 / 2 ^ 44) && bit e.2.toNat 31 &&
    (match regAt e.1 with
     | some (r, _) => captureRegs.contains r
     | none => false)

def allDies : List Nat := List.range 13

/-! ### Chapters 2 to 5 -/

/-- Cores of a die that are listed in a state other than SPARE, and those in a given state. -/
def Chip.dieCores (c : Chip) (die : Nat) (p : CoreSt → Bool) : Nat :=
  (c.cores.core.filter fun e => coreDie e.1 == die && p e.2).length

def Chip.coreWord (c : Chip) (k : Nat) : Nat :=
  let x := c.core k
  x.fenceCause * 16 + b2n x.illegalWr * 4 + x.st.code

/-- COR_CORE_POS (R72): the rank-1 bowl of a core and its logical index there. A core may be a child of several
(R37), and R72 does not say which one shows: that it is the lowest is the model's choice
(notes/assumptions/113.md). -/
def Chip.posWord (c : Chip) (k : Nat) : Nat :=
  match c.bowlsOf k with
  | [] => 0
  | b :: _ => 2 ^ 31 + b * 65536 + (c.children b).idxOf k % 16

/-- DSP_TIME_UNIT (R103, R120): the die's timing stack. With no ACTIVE stack R120 gives TICK_PS 0 alone; that
STACK and PHYS read 0 as well is the model's choice (notes/assumptions/114.md). -/
def Chip.timeUnit (c : Chip) (die : Nat) : Nat :=
  let up (n : Nat) : Bool := (c.dstack n).st == 1
  if up (2 * die) then 2 * die * 2 ^ 24 + c.boot.dramPs % 65536
  else if up (2 * die + 1) then 2 ^ 28 + (2 * die + 1) * 2 ^ 24 + c.boot.dramPs % 65536
  else
    match (List.range 16).find? up with
    | some n => 2 * 2 ^ 28 + n * 2 ^ 24 + c.boot.dramPs % 65536
    | none => 0

/-- xxx_ENG_STAT (R161). -/
def Chip.engStat (c : Chip) (kind e : Nat) : Nat :=
  let ops := c.openOps kind e
  (ops.map fun o => o.cells.length).sum / 16 * 128 + min 64 ops.length

/-- A write of the register is held. -/
def Chip.heldAt (c : Chip) (addr : Nat) : Bool := c.ctl.held.any fun h => h.1 == addr

def Chip.engCfgView (c : Chip) (r : Reg) (die : Nat) (idx : List Nat) : Nat :=
  putBits (c.reg r die idx) 30 30 (b2n (c.heldAt (r.addr die idx)))

/-! ### Chapters 6 and 7 -/

def Chip.memStat (c : Chip) : Nat :=
  (match c.mem.spare with
   | some n => 2 ^ 31 + n * 2 ^ 24
   | none => 0) +
  -- 3 only while REBUILD_AUTO is 0 (R226)
  (if c.mem.rebuild = 3 ∧ bit (c.reg .memCtrl 12) 3 then 0 else c.mem.rebuild % 4) * 65536 + maskOf 16 fun n => (c.dstack n).st == 3

/-- FLS_STAT (R234): the capacity that bundle stripes hold, in GiB, rounded up. -/
def Chip.flsStat (c : Chip) (n : Nat) : Nat :=
  kgetD c.mem.fstack n 0 * 2 ^ 30 + min 4096 (cdiv ((c.mem.bundles.map fun e => e.2.onStack n).sum) 1024)

/-- SFT_STAT (R266). -/
def Chip.sftStat (c : Chip) : Nat :=
  let run := (c.sft.ops.filter fun o => o.phase == 1).map fun o => o.leaves.length
  cdiv c.searchCores.length 2 % 16384 * 2 ^ 17 + min 65536 run.sum

/-! ### Chapters 8 to 12 -/

def Chip.portStat (c : Chip) (p : Nat) : Nat :=
  let q := c.port p
  q.st.code * 2 ^ 28 + q.lanes % 16 * 2 ^ 24 + q.width % 4 * 2 ^ 22 + q.cause % 16 * 2 ^ 18

/-- SWC_BUF_STAT (R369). -/
def Chip.bufStat (c : Chip) (die : Nat) : Nat :=
  let used := (c.swc.cells.filter fun e => cellDie e.1 == die && !e.2.free).length
  (262144 - used) / 16 * 65536 + c.skim die % 4

/-- SWC_D2D_STAT (R372). The credits that a side holds are an open value. -/
def Chip.d2dStat (c : Chip) (die link : Nat) : Nat :=
  b2n (c.linkDown die link) * 2 ^ 31 + Config.d2dCredits (die * 16 + link) c.draws % 65536

/-- COH_SLICE_STAT (R421): SWEEP covers node and partition sweeps and the bank copy of an induction. -/
def Chip.sliceStat (c : Chip) (die : Nat) : Nat :=
  min 4096 (c.coh.rsvs.filter fun r => r.slice == die).length * 2 ^ 19 +
  min 512 (c.sliceHeld die) * 512 +
  b2n (!c.coh.sweeps.isEmpty || !c.coh.partSweeps.isEmpty) * 256

def Chip.probeOf (c : Chip) (die : Nat) : Probe := kgetD c.coh.probes die {}

def Chip.probeRes (c : Chip) (die : Nat) : Nat :=
  let p := c.probeOf die
  b2n p.valid * 2 ^ 31 + b2n p.busy * 2 ^ 30 + p.st % 4 * 2 ^ 28 + p.way % 16 * 2 ^ 24 + p.bank % 16 * 2 ^ 20 +
    p.set_ % 65536

/-! ### Chapters 13 and 14 -/

/-- SEC_STAT (R454). -/
def Chip.secStat (c : Chip) : Nat :=
  b2n c.sec.idReady * 2 ^ 31 + b2n c.sec.treeBusy * 2 ^ 30 + b2n c.ownerSession?.isSome * 2 ^ 29 +
  c.sec.root % 2 * 2 ^ 28 + min 256 c.sec.bkeys.length * 2 ^ 19 + if c.sec.treeReady then 1024 - c.sec.leaf else 0

/-- SEC_NODE_SESS (R455). -/
def Chip.nodeSess (c : Chip) (n : Nat) : Nat :=
  let x := kgetD c.sec.nodes n {}
  let ready := match c.node n with
    | .ports a b => (c.port a).nextKeys.isSome || (c.port b).nextKeys.isSome
    | _ => false
  b2n x.valid * 2 ^ 31 + x.mode % 4 * 2 ^ 29 + b2n ready * 2 ^ 28 + x.session % 65536

/-- A region entry's 32 bytes (R433). -/
def regionEntry (r : Region) : Bytes :=
  natLE 1 (b2n r.valid + 2 * b2n r.revoking + 16 * (r.gen % 16)) ++ natLE 1 r.part ++ natLE 1 r.epoch ++ zerosB 1 ++
  natLE 4 r.obj ++ natLE 8 r.base ++ natLE 8 r.len ++ natLE 8 r.objOff

/-- A grant entry's 16 bytes (R434). -/
def grantEntry (g : Grant) : Bytes :=
  natLE 2 (2 ^ 15 + g.slot % 4096) ++ natLE 2 (g.node % 4096 + g.rights % 4 * 4096) ++ natLE 4 (g.session % 65536) ++
  (g.tag ++ zerosB 8).take 8

/-- Word `w` of an entry's bytes. -/
def entryWord (b : Bytes) (w : Nat) : Nat := fieldB b (4 * w) 4

/-- PRT_STATE (R482). -/
def Chip.prtState (c : Chip) (p : Nat) : Nat :=
  let x := c.partOf p
  x.st.code * 2 ^ 29 + x.step % 8 * 2 ^ 26 + b2n x.deleting * 2 ^ 25 + x.node % 4096

def Chip.srcPend (c : Chip) (n : Nat) : Nat :=
  match kfind? c.irq.latches n with
  | none => 0
  | some l => 2 ^ 31 + b2n l.core.isSome * 2 ^ 30 + l.core.getD 0 % 8 * 2 ^ 27 + min 511 l.count

/-- IRQ_RUN (R486). -/
def Chip.irqRun (c : Chip) (k : Nat) : Nat :=
  let q := c.irqCore k
  q.stack.length % 32 * 2 ^ 27 + match q.running with
    | none => 16
    | some p => p % 16

def Chip.irqInfo (c : Chip) (k i : Nat) : Nat :=
  let q := c.irqCore k
  (if i < 2 then q.info0 else q.info1) / 2 ^ (32 * (i % 2)) % 2 ^ 32

/-! ### Chapters 15, 16 and 18 -/

/-- BOOT_STAT (R510). TARGET reads 0 until BRINGUP has decided it. -/
def Chip.bootStat (c : Chip) : Nat :=
  let b := c.boot
  b.state.code * 2 ^ 28 + (if (kfind? b.times 6).isSome then b.target % 4 else 0) * 2 ^ 26 + b.imageInForce % 4 * 2 ^ 24 +
  b2n b.mcB * 2 ^ 23 + b2n b.listFail * 2 ^ 22 + b2n b.testAllow * 2 ^ 21 + b2n b.ethUp * 2 ^ 20 + b2n b.healthD2d * 2 ^ 19 +
  b2n b.healthFence * 2 ^ 18 + b2n b.healthFlash * 2 ^ 17 + b2n b.healthDram15 * 2 ^ 16 + b.deadCause % 256

/-- The enrolment window (R513). -/
def Chip.enrolWord (c : Chip) (w : Nat) : Nat :=
  if c.boot.state = .dead ∧ c.boot.deadCause = 1 then entryWord c.boot.enrol w else 0

/-- MGT_STAT and MGT_DUMP_STAT (R543). -/
def Chip.mgtStat (c : Chip) : Nat :=
  b2n c.mcs.activeB * 2 ^ 31 + b2n c.mcs.standbyOk * 2 ^ 30 + b2n c.ownerSession?.isSome * 2 ^ 29 + b2n c.boot.ethUp * 2 ^ 28 +
  (c.mgt.sessions.filter fun s => s.kind == 1).length % 128 * 2 ^ 21 +
  (c.mgt.sessions.filter fun s => s.kind == 2).length % 32 * 2 ^ 16

def Chip.dumpStat (c : Chip) : Nat :=
  b2n c.dump.valid * 2 ^ 31 + b2n c.dump.writing * 2 ^ 30 + b2n c.dump.released * 2 ^ 29 + c.dump.kind % 4 * 2 ^ 27 +
    cdiv c.dump.len 8192 % 65536

def Chip.rxCfg (c : Chip) (p : Nat) : Nat :=
  putBits (c.reg .mgtRxCfg 12 [p]) 30 30 (b2n (c.mgt.heldRx.any fun h => h.1 == p))

def Chip.peerWord (c : Chip) (i : Nat) : Nat := (c.peer i).st % 4 * 2 ^ 30 + b2n (c.peer i).valid * 2 ^ 29

def Chip.dieTemp (c : Chip) (d : Nat) : Nat := kgetD c.pwr.temps d 0
/-- Temperature of the hottest die. -/
def Chip.tjMax (c : Chip) : Nat := ((List.range 12).map c.dieTemp).foldl max 0

def Chip.pwrStat (c : Chip) : Nat := c.pwr.coreW % 65536 * 65536 + c.pwr.capMv % 256 * 256 + c.tjMax % 256

def Chip.railStat (c : Chip) (n : Nat) : Nat :=
  let r := c.rail n
  r.vout % 4096 * 2 ^ 20 + r.iout % 4096 * 256 + r.fault % 16

/-! ### Every register -/

/-- The live word of a register element. -/
def Chip.view (c : Chip) (r : Reg) (die : Nat) (idx : List Nat := []) : Nat :=
  let i := idx.getD 0 0
  let j := idx.getD 1 0
  match r with
  | .devErrSum => maskOf 22 fun b => c.cfgFlag b allDies
  | .devSatSum => maskOf 22 fun b => c.satFlag b allDies
  | .devCapSum => maskOf 22 fun b => c.capFlag b allDies
  | .devDieSum => maskOf 13 fun d => (List.range 22).any fun b => c.cfgFlag b [d] || c.satFlag b [d] || c.capFlag b [d]
  | .bootStat => c.bootStat
  | .bootImgFail => c.boot.altCause % 256 * 256 + c.boot.priCause % 256
  | .bootSpi => c.boot.spiMode % 4 * 2 ^ 30 + c.boot.density % 32
  | .bootList => min 65535 c.boot.listApplied * 65536 + c.boot.listFailIdx % 65536
  | .bootTime => if i < 3 then 0 else kgetD c.boot.times i 0 % 2 ^ 32
  | .bootEnrol => c.enrolWord i
  | .lnkPortStat => c.portStat (portOf die i)
  | .lnkPortWin => min 65535 (c.port (portOf die i)).winReplays * 65536 + min 65535 (c.port (portOf die i)).winUnc
  | .lnkPeerRankLo => (c.port (portOf die i)).peerRank % 2 ^ 32
  | .lnkPeerRankHi => (c.port (portOf die i)).peerRank / 2 ^ 32 % 2 ^ 32
  | .lnkVcCred => (c.port (portOf die i)).granted.getD j 0 % 65536 * 65536 + (c.port (portOf die i)).consumed.getD j 0 % 65536
  | .tstLaneCfg => putBits (c.reg r die idx) 27 27 (b2n (c.lnk.laneLocked.contains (die * 128 + i)))
  | .swcBufStat => c.bufStat die
  | .swcPortHeld => c.heldCells die i
  | .swcPartHeld => c.heldCells die (64 + i)
  | .swcD2dStat => c.d2dStat die i
  | .tshPortCfg =>
    putBits (putBits (c.reg r die idx) 28 28 (c.port (portOf die i)).gate.bank) 29 29 (b2n (c.port (portOf die i)).gate.switch)
  | .tshSamp => (c.port (portOf die i)).maxDepth.getD j 0 % 65536 * 65536 + (c.port (portOf die i)).lastDepth.getD j 0 % 65536
  | .tshSampd => (c.port (portOf die i)).maxDelay.getD j 0 % 65536 * 65536 + (c.port (portOf die i)).lastDelay.getD j 0 % 65536
  | .gtxStream => putBits (c.reg r die idx) 30 30 (b2n (c.stream i).held.isSome)
  | .cohSharer => putBits (c.reg r die idx) 29 29 (b2n (c.coh.heldWr.any fun h => h.1 == i))
  | .cohSliceStat => c.sliceStat die
  | .cohProbeRes => c.probeRes die
  | .cohProbeShLo => (c.probeOf die).sharers.toNat % 2 ^ 32
  | .cohProbeShHi => (c.probeOf die).sharers.toNat / 2 ^ 32
  | .memStat => c.memStat
  | .memRebuild => c.mem.rebuildLs % 16 * 2 ^ 28 + c.mem.cursor % 2 ^ 28
  | .memPartCfg => putBits (c.reg r die idx) 7 0 (c.span i * 16 + b2n (decide (3 ≤ c.span i)))
  | .memObj => entryWord (objEntry (c.obj i)) j
  | .memStkStat =>
    let s := c.dstack (2 * die + i)
    s.st % 4 * 2 ^ 30 + s.cause % 16 * 2 ^ 20 + s.logical % 16 * 65536
  | .flsStat => c.flsStat die
  | .corCtrl => putBits (c.reg r die idx) 3 3 (b2n (c.cores.core.any fun e => coreDie e.1 == die && e.2.scrubbing))
  | .corDieCnt =>
    c.dieCores die (fun x => x.st == .fenced) * 4096 + (coresPerDie - c.dieCores die fun x => x.st != .spare)
  | .corTileCfg =>
    let used := (c.cores.core.filter fun e => coreDie e.1 == die && coreTile e.1 == i && e.2.st != .spare).length
    putBits (c.reg r die idx) 14 8 (64 - used)
  | .corCoreState => c.coreWord (die * coresPerDie + i * 64 + j)
  | .corCorePos => c.posWord (die * coresPerDie + i * 64 + j)
  | .corBowlDesc =>
    putBits (putBits (c.reg r die idx) 30 30 (b2n (c.bowlOk i && c.bowlAvail i))) 15 15
      (b2n (c.cores.bowlHeld.any fun h => h.1 == i))
  | .dspTimeUnit => c.timeUnit die
  | .dspDieStat =>
    c.openSets die % 2048 * 65536 + min 4095 (c.dsp.launches.filter fun l => l.phase == 0 && l.die == die).length
  | .wskEngCfg => c.engCfgView r die idx
  | .tngEngCfg => c.engCfgView r die idx
  | .cldEngCfg => c.engCfgView r die idx
  | .wskEngStat => c.engStat 0 ((die - 8) * 16 + i)
  | .tngEngStat => c.engStat 1 ((die - 8) * 16 + i)
  | .cldEngStat => c.engStat 2 ((die - 8) * 16 + i)
  | .cmpCtrl => putBits (c.reg r die idx) 1 1 (b2n (c.job? die).isSome)
  | .cmpJobCfg => putBits (c.reg r die idx) 31 31 (b2n (c.job? die).isSome)
  | .sftStat => c.sftStat
  | .secStat => c.secStat
  | .secNodeSess => c.nodeSess i
  | .secRegion => entryWord (regionEntry (c.region i)) j
  | .secGrant => match kfind? c.sec.grants i with
    | some g => entryWord (grantEntry g) j
    | none => 0
  | .secBkey => match kfind? c.sec.bkeys i with
    | some k => if j = 0 then k.1 % 2 ^ 32 else 2 ^ 31
    | none => 0
  | .prtState => c.prtState i
  | .prtDrain => min 65535 (c.workReqs i) * 65536 + min 65535 (c.workOther i)
  | .irqSrcPend => c.srcPend i
  | .irqCoreCfg => putBits (c.reg r die idx) 29 29 (b2n (c.irqCore i).sleep)
  | .irqRun => c.irqRun i
  | .irqInfo => c.irqInfo i j
  | .irqVecSeq => kgetD c.irq.seq (i * 8 + j) 1 % 2 ^ 32
  | .mgtStat => c.mgtStat
  | .mgtDumpStat => c.dumpStat
  | .mgtRxCfg => c.rxCfg i
  | .mgtMsgq => (c.queued i).length % 512
  | .mgtPeer => c.peerWord i
  | .mgtDumpWin => entryWord c.dump.win i
  | .pwrStat => c.pwrStat
  | .pwrRailCfg => putBits (c.reg r die idx) 31 31 (b2n (c.rail i).on)
  | .pwrRailStat => c.railStat i
  | .pwrDieTemp => c.dieTemp i % 256 * 256 + tempBucket (c.dieTemp i)
  | _ => c.reg r die idx

/-- The word a register reads: live fields, and SHD fields from the copy of the last refresh (R596);
before the first refresh the copies hold their reset values (R606). -/
def readWord (snap : Option Chip) (c : Chip) (r : Reg) (die : Nat) (idx : List Nat) : Nat :=
  let m := r.mask (·.shd)
  if m = 0 then c.view r die idx
  else
    let old := match snap with
      | some s => s.view r die idx
      | none => r.resetWord idx
    (c.view r die idx &&& (2 ^ 32 - 1 - m)) ||| (old &&& m)

end Sys2Proof.Machine
end

