-- ==== Sys2Proof/Machine/Registers.lean ====
section
/-! DEFINITION. Accesses to control space (R585-R606): who reaches what, how an access completes,
what each access code does, and what a write of each register starts in its block. -/

namespace Sys2Proof.Machine

/-! ### Masters (R588, R593) -/

/-- Privileged masters: management cores and the owner session (R11). -/
def prvOf (m : Master) : Bool := decide (m.code ≤ 8)

/-- A number for each master, agents apart by partition. -/
def keyOf (m : Master) : Nat := m.code + 16 * (if m.code = 9 then m.part else 0)

/-- Registers of one partition, which its agent reads as they are (R450). -/
def partRegs : List Reg :=
  [.dspPartCfg, .dspPartRptHandle, .dspPartRptOff, .dspPartRptFirst, .dspPartRptCount, .memPartCfg, .prtState, .prtCmd,
   .prtDrain, .irqVecCfg, .irqVecMask, .irqVecSeq, .irqVecBase, .mgtRxCfg, .mgtRxOff, .mgtMsgq, .swcPartShare,
   .swcPartHeld, .tshPartCfg]

/-- Counters of one partition. -/
def partCnts : List Cnt :=
  [.dspStall1, .dspStall2, .dspStall3, .dspStall4, .dspStall5, .dspStall6, .dspStall7, .dspStall8, .dspOverlap, .dspSetTmo,
   .dspBad, .dspNoExpert, .dspChecked, .dspMismatch, .dspSampleSkip, .dspGivenUp, .dspReportDrop, .memStall1, .memStall2,
   .memStall3, .memStall4, .memStall5, .memStall6, .memStall7, .gtxLineReq, .gtxBulkReq, .gtxRefused, .gtxReplayed,
   .gtxStale, .gtxReissued, .gtxGivenUp, .prtResets, .prtDrainTmo, .prtPartBusy, .prtEnded, .prtResetRefused,
   .sftSearches, .sftInserts, .sftDeletes, .sftBad, .sftFailed, .sftTruncated, .sftCandDrop, .sftCompactWait]

/-- What lies at an address. -/
inductive Slot where
  | reg (r : Reg) (die : Nat) (idx : List Nat)
  | cnt (k : Cnt) (die : Nat) (idx : List Nat) (hi : Bool)
  | sat (ks : List (Cnt × Nat × List Nat))
  | unmapped
  deriving DecidableEq, Repr

def slotAt (addr : Nat) : Slot :=
  match regAt addr with
  | some (r, die, i) => .reg r die i
  | none =>
    match cntAt addr with
    | some (k, die, i, hi) => .cnt k die i hi
    | none =>
      match satAt addr with
      | [] => .unmapped
      | ks => .sat ks

/-- Partition that owns a per-partition word. -/
def Slot.part : Slot → Option Nat
  | .reg r _ i => if partRegs.contains r then i.head? else none
  | .cnt k _ i _ => if partCnts.contains k then i.head? else none
  | .sat ((k, _, i) :: _) => if partCnts.contains k then i.head? else none
  | _ => none

/-- The telemetry set of the SMBus target (R594). -/
def telemetry : Slot → Bool
  | .reg r _ _ => r.info.block == 0 || [Reg.bootStat, .bootImgFail, .bootEnrol, .mgtDumpWin, .pwrStat, .pwrRailStat,
      .pwrDieTemp].contains r
  | .cnt k _ _ _ => k.info.block == 0
  | .sat ((k, _, _) :: _) => k.info.block == 0
  | _ => false

/-- The master reads zero from every field of the word (R450, R593, R594). -/
def blindTo (m : Master) (x : Slot) : Bool :=
  if m.code = 9 then
    !(x.part == some m.part || match x with
      | .reg r _ _ => [Reg.devId, .devRom, .devCap0, .devCap1].contains r
      | _ => false)
  else if m.code = 10 then !telemetry x
  else false

/-- A mapped word that reads zero and ignores writes: the registers of a sub-port that SPLIT does not
create (R335, R336), the registers that a core die's switch does not carry (R368, R369). -/
def Chip.inert (c : Chip) (x : Slot) : Bool :=
  match x with
  | .reg r die i =>
    match r.info.block with
    | 2 => r.info.dims.length != 0 && !c.portExists (portOf die (i.headD 0))
    | 4 => decide (die < 8) && !(r == .swcCtrl || r == .swcCfgIgnAddr || r == .swcGlb || (r == .swcD2dStat && decide (i.headD 0 < 4)))
    | 21 => r == .tstFlitCfg && !c.portExists (portOf die (i.headD 0))
    | _ => false
  | .cnt k die i _ =>
    match k.info.block with
    | 2 => !c.portExists (portOf die (i.headD 0))
    | 4 => decide (die < 8) && (i.isEmpty || decide (4 ≤ i.headD 0))
    | 21 => i.length == 1 && k.info.base ≥ 0x20000 && !c.portExists (portOf die (i.headD 0))
    | _ => false
  | .sat ((k, die, i) :: _) =>
    match k.info.block with
    | 2 => !c.portExists (portOf die (i.headD 0))
    | 4 => decide (die < 8) && (i.isEmpty || decide (4 ≤ i.headD 0))
    | _ => false
  | _ => false

/-- Fields that do not exist in this instance of a register and read zero: at die 12 SCRUB_BUSY and
AUTO_SUBST (R67), on core dies all of SWC_GLB but D2D_RETRY_MAX, at s > 0 SPLIT (R337). -/
def absentMask (r : Reg) (die : Nat) (idx : List Nat) : Nat :=
  match r with
  | .corCtrl => if die = 12 then 0xA else 0
  | .swcGlb => if die < 8 then 0xFFFF00FF else 0
  | .lnkPortCfg => if 16 ≤ idx.headD 0 then 3 * 2 ^ 28 else 0
  | _ => 0

def clearMask (v m : Nat) : Nat := v &&& (2 ^ 32 - 1 - m % 2 ^ 32)

/-! ### Completions (R589) -/

/-- The die has no die-to-die path left (R363). -/
def Chip.dieCut (c : Chip) (d : Nat) : Bool :=
  decide (d < 12) && (List.range 10).all fun k => !linkExists d k || c.linkDown d k

/-- An access that completes other than OK is counted and captured (R589, R602). -/
def Chip.accErr (c : Chip) (m : Master) (addr status : Nat) (write : Bool) : Chip :=
  let w := status * 2 ^ 28 + m.code % 16 * 2 ^ 24 + b2n write * 2 ^ 23
  (c.bump .devAccErr 12).capture .devAccCap 12 [] w
    [(.devAccAddrLo, addr % 2 ^ 32), (.devAccAddrHi, addr / 2 ^ 32 % 65536)]

/-- Words of tables that are RW as a whole (R127, R267, R268, R309): a write to a reserved or
hardware-maintained word of one is ignored and completes OK. -/
def rwTable (r : Reg) : Bool :=
  winRegs.contains r || qwinRegs.contains r || indexRegs.contains r || r == .gtxGroupRsv || r == .gtxGroupTrsv

/-- A write cannot reach any field of the word. -/
def Slot.noWrite : Slot → Bool
  | .reg r _ _ => !rwTable r && r.info.fields.all fun f => f.acc == .ro || f.acc == .rc
  | .cnt _ _ _ _ => true
  | _ => false

/-- Status of an access before it is performed: 2 ALIGN, 1 UNMAPPED, 4 TIMEOUT, 3 NOWRITE, 0 OK. -/
def Chip.accStatus (c : Chip) (m : Master) (addr : Nat) (write : Bool) : Nat :=
  let x := slotAt addr
  if addr % 4 ≠ 0 then 2
  else if x = .unmapped then 1
  else if c.dieCut (addr / 2 ^ 44) then 4
  else if write && x.noWrite && !(m.code == 9 && x.part != some m.part) && !c.inert x then 3
  else 0

/-! ### TRI fields (R595) -/

def Reg.triMask (r : Reg) : Nat := r.mask (·.tri)

def coreStateOf : Nat → CoreState
  | 0 => .enabled
  | 1 => .suspect
  | 2 => .fenced
  | _ => .spare

/-- The TRI fields' present value. -/
def Chip.triValue (c : Chip) (r : Reg) (die : Nat) (idx : List Nat) : Nat := c.view r die idx &&& r.triMask

/-- Give the TRI fields a value in all three copies. -/
def Chip.setTri (c : Chip) (r : Reg) (die : Nat) (idx : List Nat) (v : Nat) : Chip :=
  match r with
  | .corCoreState =>
    c.modCore (die * coresPerDie + idx.getD 0 0 * 64 + idx.getD 1 0) fun x => { x with st := coreStateOf (v % 4) }
  | _ => c.setReg r die idx (clearMask (c.reg r die idx) r.triMask ||| (v &&& r.triMask))

/-- Bitwise majority of three words. -/
def maj3 (a b c : Nat) : Nat := (a &&& b) ||| (a &&& c) ||| (b &&& c)

/-- One copy of a TRI register is disturbed; the fields then hold the new majority of the copies. -/
def Chip.upset (c : Chip) (u : Upset) : Chip :=
  match regAt u.addr with
  | none => c
  | some (r, die, idx) =>
    let m := r.triMask
    if m = 0 then c
    else
      let v := c.triValue r die idx
      let old := kgetD c.ctl.tri u.addr {}
      let flip (k : Nat) (d : Word) : Nat := (v ^^^ (if u.copy = k then u.mask.toNat &&& m else 0)) ^^^ d.toNat
      let a := flip 0 old.a
      let b := flip 1 old.b
      let d := flip 2 old.c
      let w := maj3 a b d
      let c := if w = v then c else c.setTri r die idx w
      let cp : Copies :=
        { a := BitVec.ofNat 32 (a ^^^ w), b := BitVec.ofNat 32 (b ^^^ w), c := BitVec.ofNat 32 (d ^^^ w) }
      { c with ctl := { c.ctl with tri := ksetD c.ctl.tri u.addr {} cp } }

/-- Disagreeing copies of one register are corrected and counted. -/
def Chip.vote (c : Chip) (addr : Nat) : Chip :=
  match kfind? c.ctl.tri addr with
  | none => c
  | some _ => ({ c with ctl := { c.ctl with tri := kdel c.ctl.tri addr } }).bump .devTriFix 12

/-- TRI_PERIODIC_VOTE: the disturbances since the last vote, and the vote at a multiple of 1,000 ticks. -/
def Chip.triVote (c : Chip) (us : List Upset) : Chip :=
  let c := us.foldl (fun c u => c.upset u) c
  if c.boot.running && c.pins.crystal && decide (c.tick % 1000 = 0) then (kkeys c.ctl.tri).foldl (fun c a => c.vote a) c else c

/-! ### Reads -/

/-- A counter's _LO word; the upper half is latched for the master on the die (R599). -/
def Chip.readLo (c : Chip) (m : Master) (k : Cnt) (die : Nat) (idx : List Nat) : Nat × Chip :=
  let v := c.count k die idx
  (v % 2 ^ 32, { c with ctl := { c.ctl with
    latch := kput c.ctl.latch (keyOf m * 16 + die) (k.addr die idx, v / 2 ^ 32) } })

/-- Its _HI word. -/
def Chip.readHi (c : Chip) (m : Master) (k : Cnt) (die : Nat) (idx : List Nat) : Nat :=
  match kfind? c.ctl.latch (keyOf m * 16 + die) with
  | some (a, h) => if a = k.addr die idx then h else c.count k die idx / 2 ^ 32
  | none => c.count k die idx / 2 ^ 32

/-- A read that is performed: value and state. -/
def Chip.readSlot (c : Chip) (snaps : KMap Chip) (m : Master) (x : Slot) : Nat × Chip :=
  match x with
  | .reg r die idx =>
    if r = .irqAck then c.irqAck (idx.headD 0)
    else
      let c := if r.triMask = 0 then c else c.vote (r.addr die idx)
      let w := clearMask (readWord (kfind? snaps die) c r die idx) (absentMask r die idx)
      let w := if prvOf m || m.code == 9 then w else clearMask w (r.mask (·.prv))
      (w, c)
  | .cnt k die idx hi => if hi then (c.readHi m k die idx, c) else c.readLo m k die idx
  | .sat ks =>
    match ks with
    | [] => (0, c)
    | (k, die, idx) :: _ => ((kgetD c.ctl.sat (k.satAddr die idx) 0).toNat, c)
  | .unmapped => (0, c)

/-- A read of control space: status, value, state. -/
def Chip.ctlRead (c : Chip) (snaps : KMap Chip) (m : Master) (addr : Nat) : Nat × Nat × Chip :=
  let st := c.accStatus m addr false
  let x := slotAt addr
  if st ≠ 0 then (st, 0, c.accErr m addr st false)
  else if blindTo m x || c.inert x then (0, 0, c)
  else
    let r := c.readSlot snaps m x
    (0, r.1, r.2)

/-! ### Access codes (R591, R592, R597) -/

structure FieldRes where
  word : Nat
  /-- An RWD field was left unchanged. -/
  ignored : Bool := false
  /-- A PRV field was dropped. -/
  dropped : Bool := false
  deriving DecidableEq, Repr

/-- One field of a written word. -/
def writeField (prv en : Bool) (v : Nat) (s : FieldRes) (f : FieldDef) : FieldRes :=
  let new_ := bits v f.hi f.lo
  let old := bits s.word f.hi f.lo
  if f.prv && !prv then { s with dropped := true }
  else
    match f.acc with
    | .rw => { s with word := putBits s.word f.hi f.lo new_ }
    | .rwd =>
      if en && new_ != old then { s with ignored := true } else { s with word := putBits s.word f.hi f.lo new_ }
    | .w1c => { s with word := putBits s.word f.hi f.lo (old &&& (2 ^ 32 - 1 - new_)) }
    | .mw => { s with word := putBits s.word f.hi f.lo ((old &&& (65535 - new_ / 65536)) ||| (new_ % 65536 &&& new_ / 65536)) }
    | .ro => s
    | .rc => s

/-- The word that a write leaves, by the codes of its fields. -/
def Chip.codes (c : Chip) (r : Reg) (die : Nat) (idx : List Nat) (v : Nat) (prv : Bool) : FieldRes :=
  r.info.fields.foldl (writeField prv (c.enabled r.info.block die) v) { word := c.reg r die idx }

/-! ### What a write starts in its block -/

/-- Non-first words of multi-word table entries, which a write only stages (R598). -/
def stagedReg (r : Reg) : Bool :=
  r == .corBowlChild || winRegs.tail.contains r || qwinRegs.tail.contains r || indexRegs.tail.contains r ||
  descRegs.tail.contains r || [Reg.gtxGroupBaseLo, .gtxGroupBaseHi, .gtxGroupHek].contains r

/-- The first word of a descriptor makes the entry effective (R90, R598). -/
def Chip.descWrite (c : Chip) (d w : Nat) : Chip := (c.setEntry descRegs d (c.entryNew descRegs d w)).dropEntryStage descRegs d

/-- The first word of a multicast group makes the entry effective (R284, R598). -/
def Chip.groupWrite (c : Chip) (g w : Nat) : Chip :=
  let es : List (Reg × List Nat) :=
    [Reg.gtxGroupBaseLo, .gtxGroupBaseHi, .gtxGroupHek].flatMap fun r => (List.range 15).map fun i => (r, [g, i])
  (es.foldl (fun c e => c.setReg e.1 12 e.2 (c.staged e.1 e.2)) (c.setReg .gtxGroupW0 12 [g] w)).dropStage
    (es.map fun e => e.1.addr 12 e.2)

/-- GTX_NODE_WRITE (R307): a second LOCAL entry of a partition, or a port that does not exist, is refused. -/
def Chip.nodeWrite (c : Chip) (n w : Nat) : Chip :=
  let ty := bits w 31 30
  let bad :=
    if ty = 1 then (c.localNode (bits w 29 24)).any (· != n)
    else ty == 2 && !(c.portExists (bits w 15 8) && c.portExists (bits w 7 0))
  if bad then c.ignored ((Reg.gtxNode).addr 12 [n]) else c.setReg .gtxNode 12 [n] w

def Chip.isPorts (c : Chip) (n : Nat) : Bool := match c.node n with
  | .ports _ _ => true
  | _ => false

/-- GTX_STREAM_WRITE (R304, R308). -/
def Chip.streamSet (c : Chip) (s w : Nat) : Chip :=
  let w := putBits w 30 30 0
  let src := bits w 11 0
  let bad := bit w 31 && (!c.isPorts src || (c.stream? src (bits w 29 24)).any (· != s))
  if bad then c.ignored ((Reg.gtxStream).addr 12 [s])
  else (c.setStream s { c.stream s with held := some (BitVec.ofNat 32 w) }).settleStream s

/-- COH_SHARER_WRITE (R417, R419). An accepted write clears LOST and readmits the node. -/
def Chip.sharerWrite (c : Chip) (i w : Nat) : Chip :=
  let w := putBits w 30 12 0
  let n := bits w 11 0
  let bad := bit w 31 && (!c.isPorts n || (c.sharer? n).any (· != i))
  if bad then c.ignored ((Reg.cohSharer).addr 12 [i])
  else if c.coh.sweeps.contains n || (bit (c.reg .cohSharer 12 [i]) 31 && c.coh.sweeps.contains (c.slotNode i)) then
    let held := (c.coh.heldWr.filter fun h => h.1 != i) ++ [(i, BitVec.ofNat 32 w)]
    { c with coh := { c.coh with heldWr := held } }
  else
    let lost := (c.coh.lostNodes.erase n).erase (c.slotNode i)
    ({ c with coh := { c.coh with lostNodes := lost } }).setReg .cohSharer 12 [i] w

/-- SWC_PART_SHARE_WRITE (R349). -/
def Chip.shareWrite (c : Chip) (die p w : Nat) : Chip :=
  let mn := bits w 31 16
  let others := (((List.range 64).filter (· != p)).map (c.shareMin die)).sum
  if die < 8 then c
  else if 196608 < others + 16 * mn ∨ min 14336 (bits w 15 0) < mn then c.ignored ((Reg.swcPartShare).addr die [p])
  else c.setReg .swcPartShare die [p] w

/-- LNK_PORT_CMD (R338). -/
def Chip.portCmd (c : Chip) (p w : Nat) : Chip :=
  match bits w 2 0 with
  | 1 => c.cmdRestart p
  | 2 => c.cmdRetrain p
  | 3 => c.cmdNarrow p (bits w 7 4)
  | 4 => c.cmdDown p
  | 5 => c.cmdTestEnter p
  | 6 => c.cmdTestExit p
  | _ => c

/-- TST_LANE_CFG (R333): GEN_EN and CHK_EN change only while the lane's port is DOWN or TEST. A checker
that stops loses its lock. -/
def Chip.laneWrite (c : Chip) (die k w : Nat) : Chip :=
  let old := c.reg .tstLaneCfg die [k]
  if bits w 31 30 ≠ bits old 31 30 ∧ c.laneIdle die k = false then c.ignored ((Reg.tstLaneCfg).addr die [k])
  else (c.setReg .tstLaneCfg die [k] (putBits w 27 27 0)).dropLocks

/-- TSH_PORT_CFG (R380, R383, R385, R386, R392): `w` by the access codes, `v` as a privileged master wrote it. A write
of GATE_EN 1 starts a cycle. That FIXED_SLOT 1 starts one too where no bank ran, and is refused, as a switch is, on a
bank with an entry that opens more or fewer classes than one, is the model's choice (notes/assumptions/145.md). -/
def Chip.shapeWrite (c : Chip) (die j w v : Nat) : Chip :=
  let p := portOf die j
  let old := c.reg .tshPortCfg die [j]
  if bit w 30 && !bit old 30 && !c.bankFixed p (c.port p).gate.bank then c.ignored ((Reg.tshPortCfg).addr die [j])
  else
    let c := c.setReg .tshPortCfg die [j] (putBits w 29 28 0)
    let c := if (bit w 31 && bit v 31) || (bit w 30 && !bit old 30 && !bit old 31) then c.gateRestart p else c
    if bit v 29 then c.bankSwitch p else c

/-- TSH_GATE_LEN (R383): the active bank's length does not change. -/
def Chip.gateLenWrite (c : Chip) (die j w : Nat) : Chip :=
  let old := c.reg .tshGateLen die [j]
  let b := (c.port (portOf die j)).gate.bank
  let hi := if b = 0 then 8 else 24
  let lo := if b = 0 then 0 else 16
  let c' := c.setReg .tshGateLen die [j] (putBits w hi lo (bits old hi lo))
  if bits w hi lo = bits old hi lo then c' else c'.ignored ((Reg.tshGateLen).addr die [j])

/-- TSH_SAMP (R392): bit 31 written 1 clears both MAX fields of the class. -/
def Chip.sampWrite (c : Chip) (die j k v : Nat) : Chip :=
  if bit v 31 then
    c.modPort (portOf die j) fun q => { q with maxDepth := setNth q.maxDepth k 0, maxDelay := setNth q.maxDelay k 0 }
  else c

/-- PRT_CMD (R482): a refused command sets CFG_IGNORED (R481). -/
def Chip.prtWrite (c : Chip) (p w : Nat) : Chip :=
  let r : PartRes × Chip := match bits w 2 0 with
    | 1 => (c.partCreate p (bits w 15 4), c)
    | 2 => (c.partActivate p, c)
    | 3 => c.partReset p
    | 4 => c.partDelete p
    | _ => (.ok c, c)
  match r with
  | (.ok c, _) => c
  | (.error _, c) => c.ignored ((Reg.prtCmd).addr 12 [p])

/-- IRQ_VEC_CFG (R487): any accepted write restarts SEQ at 1. -/
def Chip.vecWrite (c : Chip) (p v w : Nat) : Chip :=
  let base := c.reg .irqVecBase 12 [p, v, 0] + 2 ^ 32 * c.reg .irqVecBase 12 [p, v, 1]
  let ring := 32 * 2 ^ max 2 (bits w 27 24)
  if bit w 31 && (base % max 128 ring != 0 || (!bit w 30 && !c.isPorts (bits w 11 0))) then
    c.ignored ((Reg.irqVecCfg).addr 12 [p, v])
  else ({ c with irq := { c.irq with seq := kdel c.irq.seq (p * 8 + v) } }).setReg .irqVecCfg 12 [p, v] w

/-- IRQ_CORE_CFG (R470): enabling a core routes the latches that have no target. -/
def Chip.coreCfgWrite (c : Chip) (k w : Nat) : Chip :=
  let on := bit w 31 && !bit (c.reg .irqCoreCfg 12 [k]) 31
  let c := c.setReg .irqCoreCfg 12 [k] (putBits w 29 29 0)
  (if on then c.reroute [] else c).resignal k

/-- MGT_RX_CFG (R542): held while a slot of the ring is being written. -/
def Chip.rxWrite (c : Chip) (p w : Nat) : Chip :=
  let held := (c.mgt.heldRx.filter fun h => h.1 != p) ++ [(p, BitVec.ofNat 32 w)]
  ({ c with mgt := { c.mgt with heldRx := held } }).releaseRx p

/-- Hold a write until its block allows it; a later write replaces an earlier one. -/
def Chip.hold (c : Chip) (addr w : Nat) : Chip :=
  let h := (c.ctl.held.filter fun e => e.1 != addr) ++ [(addr, BitVec.ofNat 32 w)]
  { c with ctl := { c.ctl with held := h } }

/-- A CTRL register whose ENABLE 0 waits until `release` lets it act (R156, R184, R263); its other fields act at once.
A write that may not write ENABLE leaves a held one as it is. -/
def Chip.disableWhen (c : Chip) (r : Reg) (die w : Nat) (prv : Bool) (release : Chip → Chip) : Chip :=
  if !prv then c.setReg r die [] w
  else
  let a := r.addr die
  let old := c.reg r die
  let c := { c with ctl := { c.ctl with held := c.ctl.held.filter fun e => e.1 != a } }
  if bit old 0 && !bit w 0 then release ((c.setReg r die [] (putBits w 0 0 1)).hold a w)
  else c.setReg r die [] w

def engKind (r : Reg) : Nat := if r = .wskCtrl ∨ r = .wskEngCfg then 0 else if r = .tngCtrl ∨ r = .tngEngCfg then 1 else 2

/-- xxx_ENG_CFG (R155, R160). -/
def Chip.engCfgWrite (c : Chip) (r : Reg) (die l w : Nat) : Chip := (c.hold (r.addr die [l]) (putBits w 30 30 0)).engRelease

/-- Compressor job registers (R185, R187): ignored while a job runs; GO starts one. -/
def cmpJobRegs : List Reg :=
  [.cmpJobCfg, .cmpJobInHandle, .cmpJobInOff, .cmpJobInLen, .cmpJobOutHandle, .cmpJobOutOff, .cmpJobOutLen]

def Chip.cmpJobWrite (c : Chip) (r : Reg) (die w : Nat) : Chip :=
  if (c.job? die).isSome then c.ignored (r.addr die)
  else
    let c := c.setReg r die [] (if r = .cmpJobCfg then putBits w 31 31 0 else w)
    if r = .cmpJobCfg ∧ bit w 31 = true ∧ c.cmpTakes die = true then
      c.startJob die (cmpJobRegs.map fun r => c.reg r die) none
    else c

/-- Readings of the monitors that no command brings: open values (R111). -/
def Chip.openMon (c : Chip) : Monitors × Chip :=
  let a := c.draw
  let b := a.2.draw
  let d := b.2.draw
  ({ rate := a.1 % 65536, tj := b.1 % 256, droop := d.1 % 65536 }, d.2)

def Chip.coreWrite (c : Chip) (k v : Nat) (prv : Bool) : Chip :=
  let m := c.openMon
  m.2.coreStateWrite k v prv m.1

/-- Effect of a written word: `w` by the access codes, `v` as written. -/
def Chip.regEffect (c : Chip) (r : Reg) (die : Nat) (idx : List Nat) (w v : Nat) (prv : Bool) : Chip :=
  let i := idx.getD 0 0
  let j := idx.getD 1 0
  let go := bit v 31 && prv
  let set := c.setReg r die idx w
  let noGo := c.setReg r die idx (putBits w 31 31 0)
  if stagedReg r then (if prv then c.putStage (r.addr die idx) (BitVec.ofNat 32 w) else c)
  else
    match r with
    | .devShdHold =>
      { set with ctl := { set.ctl with holdAt := if bit w 31 then some c.tick else none } }
    | .lnkCtrl => set.linkDieEnable die (bit w 0)
    | .tstCtrl => set.dropLocks
    | .swcCtrl => if bit w 0 && !bit (c.reg r die) 0 then set.retryHeld else set
    | .lnkPortCfg => c.writePortCfg (portOf die i) w
    | .lnkPortTmo => c.writePortTmo r (portOf die i) w
    | .lnkPortErrThr => c.writePortTmo r (portOf die i) w
    | .lnkPortCmd => if go then noGo.portCmd (portOf die i) w else noGo
    | .tstLaneCfg => c.laneWrite die i w
    | .gtxNode => c.nodeWrite i w
    | .gtxStream => c.streamSet i w
    | .gtxGroupW0 => c.groupWrite i w
    | .swcPartShare => c.shareWrite die i w
    | .tshPortCfg => c.shapeWrite die i w (if prv then v else 0)
    | .tshGateLen => c.gateLenWrite die i w
    | .tshGate => if j = (c.port (portOf die i)).gate.bank then c.ignored (r.addr die idx) else set
    | .tshPolCfg => set.policerSet (portOf die i) j
    | .tshPolRate => set.policerSet (portOf die i) j
    | .tshSamp => c.sampWrite die i j v
    | .cohSharer => c.sharerWrite i w
    | .cohProbeAddrHi => set.probe die
    | .memCtrl => if bit w 0 && !bit (c.reg r die) 0 then set.wakeCursor else set
    | .memFailCmd => if go then noGo.memFail (bits w 3 0) else noGo
    | .memPartCfg => if bits w 15 8 ≠ bits (c.reg r die idx) 15 8 ∧ c.hasExtent i = true then c.ignored (r.addr die idx) else set
    | .corCoreState => c.coreWrite (die * coresPerDie + i * 64 + j) v prv
    | .corBowlDesc => c.bowlWrite i w
    | .dspBowlSusp => c.setReg r die idx (if bit v 16 && prv then 0 else c.reg r die idx)
    | .dspWindowW0 => c.winWrite false i w
    | .sftQwinW0 => c.winWrite true i w
    | .dspDescW0 => c.descWrite i w
    | .sftIndexW0 => c.indexWrite i w
    | .wskCtrl => (c.disableWhen r die w prv (·.engRelease)).engWake
    | .tngCtrl => (c.disableWhen r die w prv (·.engRelease)).engWake
    | .cldCtrl => (c.disableWhen r die w prv (·.engRelease)).engWake
    | .cmpCtrl => c.disableWhen r die w prv (·.cmpRelease)
    | .sftCtrl => c.disableWhen r die w prv (·.sftRelease)
    | .wskEngCfg => c.engCfgWrite r die i w
    | .tngEngCfg => c.engCfgWrite r die i w
    | .cldEngCfg => c.engCfgWrite r die i w
    | .cmpJobCfg => c.cmpJobWrite r die w
    | .cmpJobInHandle => c.cmpJobWrite r die w
    | .cmpJobInOff => c.cmpJobWrite r die w
    | .cmpJobInLen => c.cmpJobWrite r die w
    | .cmpJobOutHandle => c.cmpJobWrite r die w
    | .cmpJobOutOff => c.cmpJobWrite r die w
    | .cmpJobOutLen => c.cmpJobWrite r die w
    | .secTestNode => if c.boot.state = .test then set else c.ignored (r.addr die)
    | .irqSwSet => if go then noGo.fwEvent (Ev.sw (bits w 6 0)) none 0 0 else noGo
    | .irqSrcCfg =>
      let c := c.setReg r die idx (if partSource i then w else putBits w 30 30 0)
      match (kfind? c.irq.latches i).bind (·.core) with
      | some k => c.resignal k
      | none => c
    | .irqCoreCfg => c.coreCfgWrite i w
    | .irqEoi => if prv then c.irqEoi i else c
    | .irqVecCfg => c.vecWrite i j w
    | .prtCmd => if go then noGo.prtWrite i w else noGo
    | .mgtRxCfg => c.rxWrite i w
    | _ => set

/-! ### Writes -/

/-- BOOT_'s CFG_IGNORED records a write to an RO field of the block (R509). -/
def Chip.bootRo (c : Chip) (r : Reg) (die : Nat) (idx : List Nat) (v : Nat) : Chip :=
  if r.info.block = 1 ∧ clearMask v (r.mask fun f => f.acc != .ro) ≠ 0 then c.ignored (r.addr die idx) else c

/-- A write that reaches a register. -/
def Chip.writeReg (c : Chip) (r : Reg) (die : Nat) (idx : List Nat) (v : Nat) (prv : Bool) : Chip :=
  -- an absent field keeps what it holds
  let a := absentMask r die idx
  let v := clearMask v a ||| (c.reg r die idx &&& a)
  let f := c.codes r die idx v prv
  let f : FieldRes := if stagedReg r then { f with word := v &&& r.mask (fun f => f.acc != .ro) } else f
  let c := c.when f.dropped fun c => c.bump .secPrvDrop 12
  let c := if f.dropped && !r.info.fields.any (fun f => !f.prv && f.acc != .ro) then c
    else c.regEffect r die idx f.word v prv
  (c.when f.ignored fun c => c.ignored (r.addr die idx)).bootRo r die idx v

/-- A write of a SAT word clears the bits written 1 and their counters. -/
def Chip.writeSat (c : Chip) (ks : List (Cnt × Nat × List Nat)) (v : Nat) : Chip :=
  ks.foldl (fun c k => if bit v k.1.info.bit then c.clearCnt k.1 k.2.1 k.2.2 else c) c

/-- A write of control space: status and state. -/
def Chip.ctlWrite (c : Chip) (m : Master) (addr : Nat) (v : Word) : Nat × Chip :=
  let st := c.accStatus m addr true
  let x := slotAt addr
  if st ≠ 0 then
    -- the BOOT_ block notes a write to an RO field even where the access completes NOWRITE
    let c := match st, x with
      | 3, .reg r die idx => if r.info.block = 1 then c.ignored (r.addr die idx) else c
      | _, _ => c
    (st, c.accErr m addr st true)
  else if m.code = 10 then (0, c)
  else if m.code = 9 ∧ x.part ≠ some m.part then (0, c.bump .secPrvDrop 12)
  else if c.inert x then (0, c)
  else
    match x with
    | .reg r die idx => (0, c.writeReg r die idx v.toNat (prvOf m))
    | .sat ks => (0, c.writeSat ks v.toNat)
    | _ => (0, c)

/-! ### Management-core and debug accesses -/

/-- An access keeps its bus response (R589). -/
def Chip.busResp (c : Chip) (status value : Nat) : Chip :=
  { c with ctl := { c.ctl with lastStatus := status, lastValue := BitVec.ofNat 32 value } }

def Chip.busWrite (c : Chip) (m : Master) (addr : Nat) (v : Word) : Chip :=
  let r := c.ctlWrite m addr v
  r.2.busResp r.1 0

def Chip.busRead (c : Chip) (snaps : KMap Chip) (m : Master) (addr : Nat) : Chip :=
  let r := c.ctlRead snaps m addr
  r.2.2.busResp r.1 r.2.1

/-- CONTROL_ACCESS_TIMEOUT: the addressed die lost its last path while the access was in flight (R605). -/
def Chip.ctlTimeout (c : Chip) (m : Master) (addr : Nat) (write : Bool) : Chip :=
  if addr % 4 = 0 ∧ slotAt addr ≠ .unmapped ∧ addr / 2 ^ 44 < 12 then (c.accErr m addr 4 write).busResp 4 0 else c

/-- SHD_HOLD_EXPIRY (R603): HOLD clears itself. -/
def Chip.holdExpiry (c : Chip) : Chip :=
  match c.ctl.holdAt with
  | some t => if c.due t 1000 then
      let c := c.setFld .devShdHold 12 [] 31 31 0
      { c with ctl := { c.ctl with holdAt := none } }
    else c
  | none => c

/-- Dies whose SHD copies are held. -/
def Chip.shdHeld (c : Chip) (d : Nat) : Bool := bit (c.reg .devShdHold 12) 31 && bit (c.reg .devShdHold 12) d

end Sys2Proof.Machine
end

