-- ==== Sys2Proof/Machine/Settle.lean ====
section
/-! DEFINITION. What one step still has to deal with inside the module: requests of the device to its own
nodes and the answers to requests of its blocks (R301, R402). -/

namespace Sys2Proof.Machine

/-- The answer to a device-issued request reaches the block that issued it. -/
def Chip.deliverAns (c : Chip) (o : Owner) (a : Ans) : Chip :=
  match o with
  | .engRead op i => c.engReadAns op i a
  | .engWrite op => c.engWriteAns op a
  | .engFlag op => c.engFlagAns op a
  | .sftWrite op => c.sftWriteAns op a
  | .sftFlag op => c.sftFlagAns op a
  | .mTarget mid i => c.mTargetAns mid i a
  | .notify _ _ => c
  | .report _ => c
  | .ring p => c.ringAns p a
  | .job d => c.jobAns d a
  | .kernel key req => c.kernelAns key req a
  | .image id check => if check then c.checkImage id a else c.launchImage id a
  | .sftMem op run => c.sftMemAns op run a
  | .fill id core tile => c.fillAns id core tile a

/-- One entry of the module's own queue. -/
def Chip.doLocal (c : Chip) (j : LocalJob) : Chip :=
  match j.ans with
  | some a => (c.releaseCells j.req.cells).deliverAns j.req.owner a
  | none =>
    match c.node j.req.dst with
    | .here q => c.performLocal j.req q
    | _ => ((c.bump .gtxNotLocal 12).releaseCells j.req.cells).deliverAns j.req.owner { status := some 5 }

/-- Deal with the queue, oldest first, up to `n` entries; entries beyond them stay for the next step. -/
def Chip.settleN (c : Chip) : Nat → Chip
  | 0 => c
  | n + 1 =>
    match c.gtx.localQ with
    | [] => c
    | j :: t => Chip.settleN ({ c with gtx := { c.gtx with localQ := t } }.doLocal j) n

/-- Checks and tie-breaks that wait for a bowl or a context try again (R107, R108). -/
def Chip.settleChecks (c : Chip) : Chip :=
  if c.dsp.checks.any Check.waits then c.startChecks else c

/-- A context waits for output credit. -/
def CtxSt.wantsCredit (x : CtxSt) : Bool := x.wait == .credit

/-- Contexts whose output has credit again go on (R35). -/
def Chip.settleCredit (c : Chip) : Chip :=
  if c.cores.ctx.any fun e => e.2.wantsCredit && !c.noCredit e.2.run then c.advance else c

/-- The step's own consequences, in order: truncated messages, requests to LOCAL nodes and answers, queries,
placement commands, checks and contexts that can go on, and the requests that these make. -/
def Chip.settle (c : Chip) : Chip :=
  ((c.cutAll.settleN 65536).admitQueries.settleN 65536).settlePlacement.settleChecks.settleCredit.settleN 65536

/-- The result of a meaning that may end in RESET or OFF, where the SHD copies hold their reset values as
the fields they copy do (R606). -/
def actReset (s : State) (c : Chip) : Host.Outcome State Fault Refusal :=
  .next { s with chip := c.settle, snap := if c.boot.state.code ≤ 1 then [] else s.snap }

/-- The result of a meaning: the state after it, with the device's own requests dealt with. -/
def act (s : State) (c : Chip) : Host.Outcome State Fault Refusal := next s c.settle

end Sys2Proof.Machine
end

