-- ==== Sys2Proof/Machine/Boot.lean ====
section
/-! DEFINITION. Power, reset and the boot sequence from RESET_N to WAIT_OWNER (R489-R504, R567-R569,
R572). -/

namespace Sys2Proof.Machine

/-! ### Pins and RESET (R500, R567, R569, R572) -/

/-- Entry to ROMBOOT: tick 0, every CR_EN driven low (R568), HO_EPOCH drawn from the TRNG (R558). -/
def Chip.romboot (c : Chip) : Chip :=
  let r := c.drawRng
  let c := r.2
  { c with
    boot := { state := .romboot, running := true, step := 1 }
    pins := { c.pins with crDriven := true, pulse := false }
    mgt := { c.mgt with hoEpoch := r.1 % 2 ^ 32 } }

/-- A rising edge of RESET_N takes the device out of RESET once the holds of R567 have passed. -/
def Chip.leaveReset (c : Chip) : Chip :=
  if c.boot.state = .reset ∧ c.pins.powerOk = true ∧ c.pins.holdDone = true ∧ c.pins.resetN = true ∧ c.pins.pulse = false then
    c.romboot
  else c

def Chip.setPins (c : Chip) (p : Pins) : Chip := { c with pins := p }

def Chip.powerOkRise (c : Chip) : Chip :=
  if c.pins.powered then c.setPins { c.pins with powerOk := true } else c

def Chip.resetHoldEnd (c : Chip) : Chip :=
  if c.pins.powered && c.pins.powerOk && c.pins.crystal then (c.setPins { c.pins with holdDone := true }).leaveReset
  else c

def Chip.powerOkFall (c : Chip) : Chip :=
  if c.pins.powered then
    let c := c.toReset false
    c.setPins { c.pins with powerOk := false, holdDone := false }
  else c

def Chip.resetNFall (c : Chip) : Chip :=
  if c.pins.powered then
    let c := c.toReset false
    c.setPins { c.pins with resetN := false }
  else c

/-- The rising edge of the pin, or the end of the 100 µs pulse of a reset request. -/
def Chip.resetNRise (c : Chip) : Chip :=
  if c.pins.powered then (c.setPins { c.pins with resetN := true, pulse := false }).leaveReset else c

/-- A reset request acts as a RESET_N low pulse from every state but OFF (R500, R594). -/
def Chip.smbusReset (c : Chip) (cmd dat : Nat) : Chip :=
  if cmd = 0x2F ∧ dat = 0x5A ∧ c.pins.powered = true then c.toReset true else c

/-- The board's rails are up: the device leaves OFF and holds itself in RESET. -/
def Chip.powerApplied (c : Chip) : Chip :=
  if c.pins.powered then c
  else { c.toReset false with pins := { powered := true, crystal := true } }

/-- OFF keeps nothing but the bundles in flash (R507). -/
def Chip.powerRemoved (c : Chip) : Chip :=
  let c := c.toReset false
  { c with pins := {}, boot := {} }

/-- The management slow clock and both complexes stop; the oscillator has to run stably again before
RESET_N acts. -/
def Chip.crystalStopped (c : Chip) : Chip := c.setPins { c.pins with crystal := false, holdDone := false }

/-! ### ROMBOOT and LOAD (R489, R501) -/

/-- The booting complex runs. -/
def Chip.bootRuns (c : Chip) : Bool := c.mcRuns c.mcs.activeB

/-- ROMBOOT_SELF_CHECK_DONE. A complex that has failed before, or whose check fails, is lost to the
steward (R552). -/
def Chip.selfCheckDone (c : Chip) (mcA mcB : Bool) : Chip :=
  if c.boot.state = .romboot ∧ c.boot.step = 1 ∧ c.pins.crystal = true then
    let a := mcA && !c.mcs.failedA
    let b := mcB && !c.mcs.failedB
    let m := c.mcs
    let m := { m with failedA := !a, failedB := !b, lostA := m.lostA || !a, lostB := m.lostB || !b,
                      activeB := !a, standbyOk := a && b, lastBeat := c.tick, pulseA := c.tick, pulseB := c.tick }
    let c := { c with mcs := m }
    if !a && !b then c.bootDead 2
    else { c with boot := { c.boot with mcB := !a, step := 2 }, pins := { c.pins with spiRstN := true } }
  else c

/-- The enrolment record from one read of the PUF array (R499). -/
def enrolment (maj : Bytes) : Bytes :=
  let helper := Config.pufHelper maj
  let pub := Config.ecPub (Config.pufKey maj helper)
  natLE 4 0x314C524E ++ natLE 1 1 ++ zerosB 3 ++ natLE 8 (serialOf pub) ++ (pub ++ zerosB 97).take 97 ++ zerosB 15 ++
    (helper ++ zerosB 2048).take 2048

/-- No image is left to try: DEAD with the enrolment window filled. -/
def Chip.noImage (c : Chip) (maj : Bytes) : Chip :=
  ({ c with boot := { c.boot with enrol := enrolment maj } }).bootDead 1

/-- SFDP_READ_DONE: mode 1 quad, 2 octal; the density as log2 of bytes. The PUF read of the enrolment
that a failure starts is an open value. -/
def Chip.sfdpDone (c : Chip) (valid : Bool) (mode density : Nat) : Chip :=
  if c.boot.state = .romboot ∧ c.boot.step = 2 ∧ c.bootRuns = true then
    if valid = true ∧ (mode = 1 ∨ mode = 2) then
      ({ c with boot := { c.boot with spiMode := mode, density := density, step := 3 } }).devTo .load
    else
      let c := { c with boot := { c.boot with priCause := 1 } }
      let r := c.draw
      r.2.noImage (bytesOf 64 r.1)
  else c

/-- IMAGE_LOAD_DONE: the image's bytes as the NOR holds them from the image base on. -/
def Chip.imageLoaded (c : Chip) (image : Bytes) : Chip :=
  if c.boot.state = .load ∧ c.bootRuns = true then
    ({ c with boot := { c.boot with buffer := image, step := 4 } }).devTo .verify
  else c

/-! ### VERIFY (R491-R498) -/

/-- Bitwise majority of three reads. -/
def majority (a b c : Bytes) : Bytes :=
  (a.zip (b.zip c)).map fun x => (x.1 &&& x.2.1) ||| (x.1 &&& x.2.2) ||| (x.2.1 &&& x.2.2)

/-- Section table: (TYPE, OFFSET, LENGTH). -/
def imgSections (b : Bytes) : List (Nat × Nat × Nat) :=
  (List.range (fieldB b 9 1)).map fun i =>
    (fieldB b (0x40 + 16 * i) 2, fieldB b (0x44 + 16 * i) 4, fieldB b (0x48 + 16 * i) 4)

def imgSection (b : Bytes) (t : Nat) : Bytes :=
  match (imgSections b).find? fun s => s.1 == t with
  | some s => sliceB b s.2.1 s.2.2
  | none => []

def signedLen (b : Bytes) : Nat := fieldB b 0xC 4

/-- MAGIC, VER, HDR_CRC and SIGNED_LEN; `room` is what the NOR holds from the image base on. -/
def imgHeaderOk (b : Bytes) (room : Nat) : Bool :=
  fieldB b 0 4 == 0x31474D49 && fieldB b 4 1 == 1 && fieldB b 0xFFC 4 == crc32c (b.take 0xFFC) &&
  signedLen b % 4096 == 0 && decide (signedLen b ≤ min (2 ^ 24) room)

/-- Section table under R492 and the IP flags of R495. -/
def imgSectionsOk (b : Bytes) : Bool :=
  let ss := imgSections b
  decide (3 ≤ ss.length) && decide (ss.length ≤ 32) &&
  (ss.all fun s => decide (1 ≤ s.1) && decide (s.1 ≤ 5) && decide (0x1000 ≤ s.2.1) && s.2.1 % 4096 == 0 &&
    decide (s.2.1 + s.2.2 ≤ signedLen b)) &&
  decide ((ss.map (·.1)).Nodup) && ([1, 2, 3].all fun t => ss.any fun s => s.1 == t) &&
  (ss.all fun s => ss.all fun t => s.1 == t.1 || decide (s.2.1 + s.2.2 ≤ t.2.1) || decide (t.2.1 + t.2.2 ≤ s.2.1)) &&
  fieldB (imgSection b 3) 6 1 % 4 != 0

def imgOwner (b : Bytes) : Bytes :=
  let ch := imgSection b 2
  ch.take (certLen ch)

def imgLeaf (b : Bytes) : Bytes :=
  let ch := imgSection b 2
  let r := ch.drop (certLen ch)
  r.take (certLen r)

/-- Root entry under which the OWNER certificate verifies. -/
def ownerRoot? (b : Bytes) : Option Nat :=
  let o := imgOwner b
  vendorRoot? (certDigest o) (certSigEc o) (certSigLms o)

def imgDigest (b : Bytes) : Bytes := Config.sha384 (b.take (signedLen b))

/-- The image's two signatures of R496. -/
def imgSigned (b : Bytes) : Bool :=
  let s := b.drop (signedLen b)
  let leaf := imgLeaf b
  dualOk (certEc leaf) (certLms leaf) (imgDigest b) (s.take 96) (sliceB s 104 (fieldB s 96 2))

/-- The DEVICE section's signed part, its signatures (R493), and its helper data. -/
def imgDevSigned (b : Bytes) : Bytes := (imgSection b 1).take 0x130
def imgDevSig (b : Bytes) : Bytes := sliceB (imgSection b 1) 0x130 (96 + fieldB (imgSection b 1) 0x128 2)
def imgHelper (b : Bytes) : Bytes := sliceB (imgSection b 1) (0x190 + fieldB (imgSection b 1) 0x128 2) 2048
def imgSerial (b : Bytes) : Nat := fieldB (imgSection b 1) 8 7

/-- The first check of R497 that fails names the cause; 0 when all pass. -/
def imgCause (b : Bytes) (room : Nat) (maj : Bytes) : Nat :=
  let magic := fieldB b 0 4
  let o := imgOwner b
  let leaf := imgLeaf b
  if magic = 0xFFFFFFFF ∨ magic = 0 then 2
  else if !imgHeaderOk b room then 3
  else if fieldB b 8 1 ≠ 0xB0 ∨ 0x0302 < fieldB b 6 2 then 4
  else if !imgSectionsOk b then 5
  else if !(certShape o && certRole o == 0 && (ownerRoot? b).isSome) then 6
  else if !(certShape leaf && certRole leaf == 1 && certSigned o leaf) then 7
  else if !imgSigned b then 8
  else if !devCertOk (imgDevSigned b) (imgDevSig b) then 9
  else if Config.ecPub (Config.pufKey maj (imgHelper b)) ≠ sliceB (imgSection b 1) 0x10 97 then 10
  else if !(certBound o (imgSerial b) && certBound leaf (imgSerial b)) then 11
  else 0

/-- The check that failed is a signature pair that does not verify (R426). -/
def imgForged (b : Bytes) (cause : Nat) : Bool :=
  match cause with
  | 6 => (ownerRoot? b).isNone
  | 7 => !certSigned (imgOwner b) (imgLeaf b)
  | 8 => true
  | 9 => !devCertSigned (imgDevSigned b) (imgDevSig b)
  | _ => false

def parseEntry (b : Bytes) : RegEntry :=
  { addr := fieldB b 0 6, phase := fieldB b 6 1 % 2, value := BitVec.ofNat 32 (fieldB b 8 4), mask := BitVec.ofNat 32 (fieldB b 12 4) }

/-- What a verified image leaves behind. -/
def imgRecord (b : Bytes) : Image :=
  let dev := imgSection b 1
  let own := imgSection b 5
  { ownerCert := imgOwner b, devSigned := imgDevSigned b, devSig := imgDevSig b, serial := imgSerial b,
    digest := imgDigest b, root := (ownerRoot? b).getD 0,
    prodFence := (List.range (min 88 (fieldB dev 0x74 2))).map fun i => fieldB dev (0x78 + 2 * i) 2,
    ownerFence := (List.range (min 4096 (fieldB own 0 2))).map fun i => fieldB own (2 + 2 * i) 2,
    regWrites := (chunksOf 16 65535 (imgSection b 4)).map parseEntry, net := imgSection b 3 }

/-! ### Register-write entries (R494) -/

/-- The ROM runs on a core of the booting complex, a privileged master (R588). -/
def Chip.romMaster (c : Chip) : Master := { code := if c.boot.mcB then 4 else 0 }

/-- One entry: whether it was applied. CFG_IGNORED of the target block is cleared before and checked
after. -/
def Chip.applyEntry (c : Chip) (snaps : KMap Chip) (m : Master) (e : RegEntry) : Bool × Chip :=
  let die := e.addr / 2 ^ 44
  let ctrl := (ctrlOf (e.addr / 2 ^ 32 % 4096)).map (·.1)
  let c := match ctrl with
    | some k => if (slotAt e.addr) = .unmapped then c else c.setFld k die [] 2 2 0
    | none => c
  let r : Nat × Nat × Chip :=
    if e.mask = 0xFFFFFFFF then (0, e.value.toNat, c) else c.ctlRead snaps m e.addr
  if r.1 ≠ 0 then (false, r.2.2)
  else
    let w := (BitVec.ofNat 32 r.2.1 &&& ~~~ e.mask) ||| (e.value &&& e.mask)
    let x := r.2.2.ctlWrite m e.addr w
    let bad := match ctrl with
      | some k => bit (x.2.reg k die) 2
      | none => false
    (x.1 == 0 && !bad, x.2)

def Chip.bootListWord (c : Chip) : Nat := min 65535 c.boot.listApplied * 65536 + c.boot.listFailIdx % 65536

/-- Apply entries in order; the first that fails stops the list for good. -/
def Chip.applyList (c : Chip) (snaps : KMap Chip) (es : List (RegEntry × Nat)) : Chip :=
  es.foldl (fun c e =>
    if c.boot.listFail then c
    else
      let r := c.applyEntry snaps c.romMaster e.1
      let c := r.2
      if r.1 then { c with boot := { c.boot with listApplied := min 65535 (c.boot.listApplied + 1) } }
      else
        let c := { c with boot := { c.boot with listFail := true, listFailIdx := e.2 } }
        c.when (bit (c.reg .bootCtrl 12) 0) fun c => c.raise Ev.bringupFault [] c.bootListWord) c

/-- Entries of a phase, those of the PWR_ block or the others. -/
def Chip.entries (c : Chip) (phase : Nat) (p : Bool → Bool) : List (RegEntry × Nat) :=
  c.boot.image.regWrites.zipIdx.filter fun e => e.1.phase == phase && p (e.1.addr / 2 ^ 32 % 4096 == 0x14)

/-! ### VERIFY_DONE -/

/-- PMBus command code of VOUT_COMMAND (PRESUMED, the PMBus standard's; the spec names it only). -/
def voutCommand : Nat := 0x21

def Chip.setRail (c : Chip) (n : Nat) (r : Rail) : Chip := { c with pwr := { c.pwr with rails := kput c.pwr.rails n r } }

/-- Write a rail's regulator (R568, R574). -/
def Chip.writeVout (c : Chip) (n mv : Nat) : Chip :=
  let c := c.setRail n { c.rail n with command := mv, pending := false, wroteAt := c.tick }
  let a := c.fld .pwrRailCfg 12 [n] 30 24
  { c with pwr := { c.pwr with pmbus := c.pwr.pmbus ++ [(a, voutCommand, mv)] } }

/-- 750 mV to all twelve regulators, then every CR_EN high at once (R568). -/
def Chip.railsUp (c : Chip) : Chip :=
  let c := (List.range 12).foldl (fun c n => c.writeVout n 750) c
  (List.range 12).foldl (fun c n => c.setRail n { c.rail n with on := true }) c

/-- A verified image takes effect: step 5 of the boot begins. -/
def Chip.imagePass (c : Chip) (snaps : KMap Chip) (maj : Bytes) : Chip :=
  let b := c.boot.buffer
  let im := imgRecord b
  let boot := { c.boot with image := im, imageInForce := if c.boot.alternate then 2 else 1,
                            testAllow := bit (fieldB b 5 1) 0, buffer := [], step := 5 }
  let sec := { c.sec with idReady := true, idKey := Config.pufKey maj (imgHelper b), root := im.root }
  let c := ({ c with boot := boot, sec := sec }).devTo .bringup
  (c.applyList snaps (c.entries 0 id)).railsUp

/-- VERIFY_DONE: three reads of the PUF array. An item whose signatures fail is counted (R426). -/
def Chip.verifyDone (c : Chip) (snaps : KMap Chip) (p0 p1 p2 : Bytes) : Chip :=
  if c.boot.state = .verify ∧ c.bootRuns = true then
    let maj := majority p0 p1 p2
    let half := 2 ^ c.boot.density / 2
    let room := if c.boot.alternate then half else 2 ^ c.boot.density
    let cause := imgCause c.boot.buffer room maj
    if cause = 0 then c.imagePass snaps maj
    else
      let c := c.when (imgForged c.boot.buffer cause) Chip.sigFail
      if c.boot.alternate then ({ c with boot := { c.boot with altCause := cause, buffer := [] } }).noImage maj
      else
        let c := { c with boot := { c.boot with priCause := cause, buffer := [] } }
        if 25 ≤ c.boot.density then ({ c with boot := { c.boot with alternate := true, step := 3 } }).devTo .load
        else c.noImage maj
  else c

/-! ### BRINGUP (R198, R502-R504, R568) -/

/-- HEALTH: D2D, FENCE_OVER, FLASH (R503). DRAM_15 is set when the stacks have trained. -/
def Chip.health (c : Chip) : Chip :=
  { c with boot := { c.boot with
      healthD2d := !c.swc.d2dDown.isEmpty
      healthFence := decide (88 < c.fencedCores.length)
      healthFlash := c.mem.fstack.any fun e => e.2 == 3 } }

/-- Take every link of a die down. -/
def Chip.cutDie (c : Chip) (die : Nat) : Chip :=
  (List.range (if die < 8 then 4 else 10)).foldl (fun c l => c.takeLinkDown die l) c

/-- Some path joins a port die and a core die. -/
def Chip.reaches (c : Chip) (p d : Nat) : Bool := (c.diePath p d 0).isSome

/-- A port die that reaches no core die (R503). -/
def Chip.portCut (c : Chip) : Bool := (List.range 4).any fun p => (List.range 8).all fun d => !c.reaches (8 + p) d

/-- CORE_RAIL_CHECK: each rail's READ_VOUT, 500 ticks after CR_EN rose; then the other phase-0 entries. -/
def Chip.railCheck (c : Chip) (snaps : KMap Chip) (vout : List Nat) : Chip :=
  if c.boot.state = .bringup ∧ c.boot.step = 5 ∧ c.bootRuns = true ∧ c.due (c.rail 0).wroteAt 500 = true then
    let c := (List.range 12).foldl (fun c n =>
      let v := vout.getD n 0
      let r := { c.rail n with vout := v }
      if 710 ≤ v ∧ v ≤ 790 then c.setRail n r
      else
        let c := c.setRail n { r with on := false, fault := 4 }
        if n < 8 then c.cutDie n else c) c
    if ((List.range 4).any fun p => !(c.rail (8 + p)).on) || c.portCut then c.bootDead 4
    else
      let c := c.applyList snaps (c.entries 0 not)
      let c := { c with boot := { c.boot with step := 6, workLeft := List.range 7 }, sec := { c.sec with treeBusy := true, treeAt := c.tick } }
      c.health
  else c

/-- Fence cores at BRINGUP; a core that is fenced already keeps its cause. -/
def Chip.bootFence (c : Chip) (ks : List Nat) (cause : Nat) : Chip :=
  (ks.filter fun k => decide (k < 25088)).foldl (fun c k =>
    if (c.core k).st = .fenced then c else c.modCore k fun x => { x with st := .fenced, fenceCause := cause }) c

/-- Once the links and the cores are known: the cores of a die that no port die reaches are fenced, and
the rank-1 bowls composed (R39, R503). -/
def Chip.bootCompose (c : Chip) : Chip :=
  let cut := (List.range 8).filter fun d => (List.range 4).all fun p => !c.reaches (8 + p) d
  (cut.foldl (fun c d => c.bootFence ((List.range coresPerDie).map (d * coresPerDie + ·)) 2) c).compose

/-- The stacks train for the first time since power-up: scrubbed to zero, the stack map set (R198). -/
def Chip.firstDram (c : Chip) (trained : List Nat) (ps : Nat) : Chip :=
  let ok := (List.range 16).filter trained.contains
  let spare := if ok.length = 16 then some 15 else none
  let c := { c with
    mem := { c.mem with dram := [], spare := spare }
    boot := { c.boot with dramPs := ps, healthDram15 := ok.length == 15 } }
  let c := (List.range 16).foldl (fun c n =>
    c.setStack n (if !ok.contains n then { st := 3, cause := 1 } else if spare = some n then { st := 2 }
      else { st := 1, logical := (ok.idxOf n) })) c
  if ok.length ≤ 14 then c.bootDead 3
  else (ok.take 15).zipIdx.foldl (fun c e => c.setReg .memStackMap 12 [e.2] (2 ^ 31 + e.1)) c

/-- They train again, after a restart of the boot: a FAILED stack stays FAILED and the map as it is; a stack
that does not train fails (R200). -/
def Chip.againDram (c : Chip) (trained : List Nat) (ps : Nat) : Chip :=
  let live (c : Chip) : List Nat := (List.range 16).filter fun n => (c.dstack n).st == 1 || (c.dstack n).st == 2
  let c := { c with mem := { c.mem with dram := [] }, boot := { c.boot with dramPs := ps } }
  let c := ((live c).filter fun n => !trained.contains n).foldl (fun c n => c.failStack n 1) c
  { c with boot := { c.boot with healthDram15 := (live c).length == 15 } }

/-- DRAM trained and scrubbed to zero, the stack map set (R198, R200). -/
def Chip.bootDram (c : Chip) (trained : List Nat) (ps : Nat) : Chip :=
  if c.mem.dstack.all fun e => e.2.st == 0 then c.firstDram trained ps else c.againDram trained ps

/-- Re-accept one bundle in flash, or free its stripes (R504). Its metadata is read first (R235); a stripe of it on a
FAILED stack is not. -/
def Chip.reaccept (c : Chip) (b : Bundle) : Chip :=
  let c := (b.stripes.filter fun f => kgetD c.mem.fstack f 0 == 1).foldl (fun c f => c.bump .flsReadBytes f [] (b.metaOn f)) c
  let sigOff := fieldB b.meta_ 0x28 8
  let free : Chip := { c with mem := { c.mem with bundles := kdel c.mem.bundles b.num } }
  if !b.complete || !bundleHdrOk b.num b.meta_ || b.stripes.any (fun f => kgetD c.mem.fstack f 0 != 1) then free
  else if !c.bundleSigned (b.meta_.take sigOff) (b.meta_.drop sigOff) then
    free.when (c.bundleForged (b.meta_.take sigOff) (b.meta_.drop sigOff)) Chip.sigFail
  else
    let mb := Config.sha384 (c.sec.mBundles ++ Config.sha384 (b.meta_.take sigOff))
    { c.setBundle { b with isOpen := false } with sec := { c.sec with mBundles := mb } }

/-- The serial on every port die, the quote tree, the bundles in ascending BUNDLE. -/
def Chip.bootSecurity (c : Chip) : Chip :=
  let s := c.boot.image.serial
  let c := (List.range 4).foldl (fun c p =>
    (c.setReg .lnkSerialLo (8 + p) [] (s % 2 ^ 32)).setReg .lnkSerialHi (8 + p) [] (s / 2 ^ 32)) c
  let c := { c with sec := { c.sec with mBundles := List.replicate 48 0 } }.newTree
  c.mem.bundles.foldl (fun c e => c.reaccept e.2) c

/-- Step 7: every block's ENABLE, die by die, in the order of R586. -/
def Chip.enableAll (c : Chip) : Chip :=
  (List.range 13).foldl (fun c die =>
    (List.range 22).foldl (fun c b =>
      match ctrlOf b with
      | some (k, _) =>
        if k.info.dies.contains die then
          let c := c.setFld k die [] 0 0 1
          if b = 2 then c.linkDieEnable die true else c
        else c
      | none => c) c) c

/-- Steps 7 to 9: ENABLE, the phase-1 entries, the target state, WAIT_OWNER. -/
def Chip.bootFinish (c : Chip) (snaps : KMap Chip) : Chip :=
  let c := c.enableAll
  let c := (c.applyList snaps (c.entries 1 fun _ => true)).health
  let b := c.boot
  let bad := b.target == 2 || b.healthD2d || b.healthFence || b.healthFlash || b.healthDram15
  ({ c with boot := { c.boot with target := if bad then 2 else 1, step := 0 } }).devTo .waitOwner

/-- Work number of the table of R502. -/
def workNo : BringupWork → Nat
  | .d2d _ => 0
  | .dram _ _ => 1
  | .flash _ => 2
  | .cores _ => 3
  | .lanes _ => 4
  | .ethernet => 5
  | .security => 6

/-- What a work leaves. -/
def Chip.workEffect (c : Chip) (w : BringupWork) : Chip :=
  match w with
  | .d2d down =>
    let c := (down.filter fun l => linkExists l.1 l.2).foldl (fun c l => c.takeLinkDown l.1 l.2) c
    if c.portCut then c.bootDead 4 else c
  | .dram trained ps => c.bootDram trained ps
  | .flash trained =>
    let fs : KMap Nat := (List.range 8).map fun n => (n, if trained.contains n then 1 else 3)
    { c with mem := { c.mem with fstack := fs } }
  | .cores failed =>
    -- a core that phase 0 or an earlier start of this power-up has fenced stays so (R44)
    let fenced := c.cores.core.filterMap fun e =>
      if e.2.st = .fenced then some (e.1, ({ st := .fenced, fenceCause := e.2.fenceCause, illegalWr := e.2.illegalWr } : CoreSt)) else none
    let c := { c with cores := { core := fenced } }
    ((c.bootFence c.boot.image.prodFence 1).bootFence failed 2).bootFence c.boot.image.ownerFence 6
  | .lanes failed => { c with boot := { c.boot with calibFail := failed } }
  | .ethernet => c
  | .security => c.bootSecurity

/-- A work has ended; with the last one the boot goes on. -/
def Chip.workEnd (c : Chip) (snaps : KMap Chip) (n : Nat) : Chip :=
  if c.boot.state ≠ .bringup then c
  else
    let left := c.boot.workLeft.erase n
    let c := { c with boot := { c.boot with workLeft := left } }
    let c := if (n = 0 ∨ n = 3) ∧ !left.contains 0 ∧ !left.contains 3 then c.bootCompose else c
    let c := c.health
    if left.isEmpty then c.bootFinish snaps else c

/-- BRINGUP_WORK_DONE. The bundles are read after the flash stacks have trained, and the quote tree takes 120,000 ticks
(R430). -/
def Chip.workDone (c : Chip) (snaps : KMap Chip) (w : BringupWork) : Chip :=
  let n := workNo w
  if c.boot.state = .bringup ∧ c.boot.step = 6 ∧ c.bootRuns = true ∧ c.boot.workLeft.contains n = true ∧
      (n = 6 → c.boot.workLeft.contains 2 = false ∧ c.due c.sec.treeAt 120000 = true) then
    (c.workEffect w).workEnd snaps n
  else c

/-! ### The Ethernet link (R502, R543) -/

/-- States in which the port's link can train. -/
def Chip.ethPowered (c : Chip) : Bool := decide (5 ≤ c.boot.state.code) && c.boot.state != .dead

/-- ETH_LINK_UP; in BRINGUP the Ethernet work ends with it. -/
def Chip.ethLinkUp (c : Chip) (snaps : KMap Chip) : Chip :=
  if c.ethPowered && !c.boot.ethUp then
    let c := ({ c with boot := { c.boot with ethUp := true } }).dropLocks
    if c.boot.state = .bringup ∧ c.boot.workLeft.contains 5 = true then c.workEnd snaps 5 else c
  else c

def Chip.ethLinkDown (c : Chip) : Chip := { c with boot := { c.boot with ethUp := false } }

/-! ### DEV_START, DEV_TEST, DEV_RESET (R505, R525) -/

/-- DEV_START, to the target state. -/
def Chip.devStart (c : Chip) : CmdRes :=
  if c.boot.state = .waitOwner then
    .done (c.devTo (if c.boot.target = 2 then .degraded else .service)) 0 0 []
  else .done c 2 0 []

/-- DEV_TEST, only when the verified image allows it. -/
def Chip.devTest (c : Chip) : CmdRes :=
  if c.boot.state = .waitOwner ∧ c.boot.testAllow = true then .done (c.devTo .test) 0 0 [] else .done c 2 0 []

/-- DEV_RESET: the reset follows 1,000 ticks after the response. -/
def Chip.devReset (c : Chip) : CmdRes :=
  .done { c with boot := { c.boot with devResetAt := some c.tick } } 0 0 []

/-- DEV_RESET_DELAY_EXPIRY. -/
def Chip.devResetExpiry (c : Chip) : Chip :=
  match c.boot.devResetAt with
  | some t => if c.due t 1000 then c.toReset true else c
  | none => c

end Sys2Proof.Machine
end

