-- ==== Sys2Proof/Machine/Board.lean ====
section
/-! DEFINITION. The Ethernet port's own frames (R514, R515), SMBus and JTAG (R440, R594), the pattern
checkers (R333), and the edge of the management slow clock (R596). -/

namespace Sys2Proof.Machine

/-! ### Ethernet frames that are not records -/

/-- The port handles frames: its link is up and the device is not DEAD (R439). -/
def Chip.ethOn (c : Chip) : Bool := c.boot.ethUp && c.ethPowered

/-- The frame's VLAN tag is the one that NET asks for (R514). -/
def Chip.vlanOk (c : Chip) (tagged : Option Nat) : Bool :=
  if bit (c.net 6 1) 2 then tagged == some (c.net 8 2 % 4096) else tagged == none

def Chip.pauseFrame (c : Chip) : Chip := if c.ethOn then c.bump .mgtPauseRx 12 else c

def Chip.ethDiscard (c : Chip) : Chip := if c.ethOn then c.bump .mgtEthDrop 12 else c

/-- A frame that the port answers when `ok` holds and discards otherwise. -/
def Chip.ethAnswer (c : Chip) (ok : Bool) (o : EthOut) : Chip :=
  if !c.ethOn then c else if ok then c.ethSend o else c.bump .mgtEthDrop 12

def Chip.arpRequest (c : Chip) (tagged : Option Nat) (targetIp senderMac senderIp : Nat) : Chip :=
  c.ethAnswer (c.vlanOk tagged && bit (c.net 6 1) 0 && targetIp == c.net 0x10 4) (.arp targetIp senderMac senderIp)

def Chip.neighborSolicitation (c : Chip) (tagged : Option Nat) (targetIp senderMac senderIp : Nat) : Chip :=
  c.ethAnswer (c.vlanOk tagged && bit (c.net 6 1) 1 && targetIp == c.net 0x14 16) (.nd targetIp senderMac senderIp)

/-- ICMP and ICMPv6 echo. A reply that does not fit MTU is not sent. -/
def Chip.icmpEcho (c : Chip) (tagged : Option Nat) (v6 : Bool) (dstIp srcIp : Nat) (echo : Bytes) : Chip :=
  let mine := if v6 then bit (c.net 6 1) 1 && dstIp == c.net 0x14 16 else bit (c.net 6 1) 0 && dstIp == c.net 0x10 4
  if c.vlanOk tagged && mine && decide (c.maxRecBody v6 + 24 < echo.length) then c
  else c.ethAnswer (c.vlanOk tagged && mine) (.echo v6 srcIp echo)

/-! ### SMBus and JTAG -/

/-- SMBus telemetry answers from ROMBOOT on (R439). -/
def Chip.smbusOn (c : Chip) : Bool := decide (2 ≤ c.boot.state.code)

/-- SMBUS_BLOCK_READ: four bytes and the PEC over the message (address 0x5A, command, count, data). A read outside the
telemetry set returns zero and completes OK (R594). -/
def Chip.smbusRead (c : Chip) (snaps : KMap Chip) (addr : Nat) : Chip :=
  if c.smbusOn then
    let r : Nat × Chip :=
      if addr % 4 ≠ 0 ∨ telemetry (slotAt addr) = false then (0, c) else (c.ctlRead snaps { code := 10 } addr).2
    let b := natLE 4 r.1
    let pec := crc8 ([0xB4, 0x20, 0xB5, 0x04] ++ b)
    { r.2 with ctl := { r.2.ctl with smbus := b ++ natLE 1 pec } }
  else c

/-- JTAG debug reaches control space only in TEST with JTAG_DBG 1 (R440). -/
def Chip.jtagDebug (c : Chip) : Bool := c.boot.state == .test && bit (c.reg .secTestNode 12) 30

def Chip.jtagOut (c : Chip) (v : Word) : Chip := { c with ctl := { c.ctl with jtag := v } }

/-- JTAG_INSTRUCTION. What IDCODE and a boundary scan shift out is open; BYPASS shifts out zeros. -/
def Chip.jtagOp (c : Chip) (snaps : KMap Chip) (op : JtagOp) : Chip :=
  let open_ : Chip := let r := c.draw; r.2.jtagOut (BitVec.ofNat 32 r.1)
  if !c.pins.powered then c
  else
    match op with
    | .idcode => open_
    | .bypass => c.jtagOut 0
    | .extest => if c.boot.state = .reset ∨ c.boot.state = .test then open_ else c.jtagOut 0
    | .debugRead a =>
      if c.jtagDebug then
        let r := c.ctlRead snaps { code := 11 } a
        r.2.2.jtagOut (BitVec.ofNat 32 r.2.1)
      else c.jtagOut 0
    | .debugWrite a v => if c.jtagDebug then (c.busWrite { code := 11 } a v).jtagOut 0 else c.jtagOut 0

/-- An access by a master; JTAG debug makes none outside TEST with JTAG_DBG 1 (R588). -/
def Chip.busStore (c : Chip) (m : Master) (addr : Nat) (v : Word) : Chip :=
  if m.code = 11 ∧ c.jtagDebug = false then c else c.busWrite m addr v

def Chip.busLoad (c : Chip) (snaps : KMap Chip) (m : Master) (addr : Nat) : Chip :=
  if m.code = 11 ∧ c.jtagDebug = false then c else c.busRead snaps m addr

/-! ### Pattern checkers (R333) -/

/-- PATTERN_CHECKER_LOCK: an enabled checker of a lane whose port is DOWN or in TEST locks. -/
def Chip.checkerLock (c : Chip) (die lane : Nat) : Chip :=
  if c.laneChecks die lane && !c.lnk.laneLocked.contains (die * 128 + lane) then
    { c with lnk := { c.lnk with laneLocked := c.lnk.laneLocked ++ [die * 128 + lane] } }
  else c

/-! ### The edge of the management slow clock -/

/-- The clock runs: from ROMBOOT on, while the crystal does (R501, R572). -/
def Chip.clockRuns (c : Chip) : Bool := c.boot.running && c.pins.crystal

/-- The capture register of a counter's block, where the block has one (R478). -/
def Chip.blockCapture (c : Chip) (k : Cnt) (die : Nat) (idx : List Nat) : Nat :=
  let b := k.info.block
  if b = (Reg.corResCapture).info.block then c.reg .corResCapture die idx
  else if b = (Reg.wskFailCapture).info.block then c.reg .wskFailCapture die
  else if b = (Reg.tngFailCapture).info.block then c.reg .tngFailCapture die
  else if b = (Reg.cldFailCapture).info.block then c.reg .cldFailCapture die
  else if b = (Reg.cmpCapture).info.block then c.reg .cmpCapture die
  else if b = (Reg.gtxCapture).info.block then c.reg .gtxCapture 12
  else 0

/-- INFO0 of the event that a counter's saturation raises. -/
def Chip.satInfo (c : Chip) (addr : Nat) : Nat :=
  match cntAt addr with
  | some (k, die, idx, _) => c.blockCapture k die idx
  | none => 0

/-- The events of the counters that have reached all-ones since the last tick go to firmware (R13). -/
def Chip.raiseSats (c : Chip) : Chip :=
  c.ctl.satEv.foldl (fun c a => c.fwEvent (Config.satEvent a % 2048) none (c.satInfo a) 0) { c with ctl := { c.ctl with satEv := [] } }

/-- One tick passes; a rebuild copies on, DRAM has served what its queues held, the next region of a partition reset has
its turn, and requests that wait at the home try again. -/
def Chip.clockEdge (c : Chip) : Chip :=
  ({ c with boot := { c.boot with tick := c.boot.tick + 1 }, mem := { c.mem with dramQ := [] } }).ackTransfers.raiseSats.rebuildTick.linesTick.serveRevoke.wakeCursor

/-- The copies of every die that is not held are taken anew. -/
def Chip.refresh (c : Chip) (snaps : KMap Chip) : KMap Chip :=
  (List.range 13).foldl (fun m d => if c.shdHeld d then m else kput m d c) snaps

end Sys2Proof.Machine
end

