-- ==== Sys2Proof/Machine/Dump.lean ====
section
/-! DEFINITION. The fatal dump and the steward's sequence (R537-R541, R551, R553). -/

namespace Sys2Proof.Machine

/-! ### Register images and counters -/

/-- Every index tuple of an array. -/
def allIdx : List (Nat × Nat) → List (List Nat)
  | [] => [[]]
  | (_, n) :: d => (List.range n).flatMap fun i => (allIdx d).map (i :: ·)

/-- One register as firmware reads it; a dump's reads clear nothing (R591). -/
def Chip.imageWord (c : Chip) (snaps : KMap Chip) (r : Reg) (die : Nat) (idx : List Nat) : Nat :=
  if c.inert (.reg r die idx) then 0
  else clearMask (readWord (kfind? snaps die) c r die idx) (absentMask r die idx)

/-- A 12-byte entry of a register image. -/
def Chip.image12 (c : Chip) (snaps : KMap Chip) (r : Reg) (die : Nat) (idx : List Nat := []) : Bytes :=
  natLE 8 (r.addr die idx) ++ natLE 4 (c.imageWord snaps r die idx)

/-- Section 1: BOOT_STAT, BOOT_IMG_FAIL, the ten BOOT_TIMEs of states 2 to 11, MGT_STAT. -/
def Chip.dumpBoot (c : Chip) (snaps : KMap Chip) : Bytes :=
  c.image12 snaps .bootStat 12 ++ c.image12 snaps .bootImgFail 12 ++
  ((List.range 10).flatMap fun s => c.image12 snaps .bootTime 12 [s + 2]) ++ c.image12 snaps .mgtStat 12

/-- Section 2: CTRL, CFG_IGN_ADDR and capture registers, by die and block. -/
def Chip.dumpCtrl (c : Chip) (snaps : KMap Chip) : Bytes :=
  let caps := captureRegs ++ [.devAccAddrLo, .devAccAddrHi, .gtxCaptureAddrLo, .gtxCaptureAddrHi, .cmpCaptureObj, .cmpCaptureBlk]
  (List.range 13).flatMap fun die => (List.range 22).flatMap fun b =>
    let ctl := match ctrlOf b with
      | some (k, a) => [k, a]
      | none => []
    ((ctl ++ caps.filter fun r => r.info.block == b).filter fun r => r.info.dies.contains die).flatMap fun r =>
      (allIdx r.info.dims).flatMap fun i => c.image12 snaps r die i

/-- Section 3: every counter, in control-space order. -/
def Chip.dumpCounters (c : Chip) : Bytes :=
  let all : List (Nat × Nat) := (List.range 13).flatMap fun die => (List.range 22).flatMap fun b =>
    ((blockCnts b).filter fun k => k.info.dies.contains die).flatMap fun k =>
      ((allIdx k.info.dims).filter fun i => cntExists k die i).map fun i => (k.addr die i, c.count k die i)
  (all.mergeSort fun a b => decide (a.1 ≤ b.1)).flatMap fun e => natLE 8 e.1 ++ natLE 8 e.2

/-- A whole register array on die 12. -/
def Chip.dumpArray (c : Chip) (snaps : KMap Chip) (r : Reg) : Bytes :=
  (allIdx r.info.dims).flatMap fun i => c.image12 snaps r 12 i

/-- Section 6: every pending source, and IRQ_RUN of each core. -/
def Chip.dumpIrq (c : Chip) (snaps : KMap Chip) : Bytes :=
  ((kkeys c.irq.latches).flatMap fun n => c.image12 snaps .irqSrcPend 12 [n]) ++
  (List.range 8).flatMap fun k => c.image12 snaps .irqRun 12 [k]

/-- Section 8: state, window and credits of every port that exists. -/
def Chip.dumpPorts (c : Chip) (snaps : KMap Chip) : Bytes :=
  ((List.range 256).filter c.portExists).flatMap fun p =>
    let d := portDie p
    let j := portLocal p
    c.image12 snaps .lnkPortStat d [j] ++ c.image12 snaps .lnkPortWin d [j] ++
    (List.range 4).flatMap fun v => c.image12 snaps .lnkVcCred d [j, v]

/-- The sections of a FATAL dump, by TYPE; `trace` is the active complex's firmware trace. -/
def Chip.dumpSections (c : Chip) (snaps : KMap Chip) (trace : Bytes) : List (Nat × Bytes) :=
  [(1, c.dumpBoot snaps), (2, c.dumpCtrl snaps), (3, c.dumpCounters),
   (4, c.image12 snaps .dspSuspHead 12 ++ c.dumpArray snaps .dspSuspLog),
   (5, c.image12 snaps .cohLostHead 12 ++ c.dumpArray snaps .cohLostLog),
   (6, c.dumpIrq snaps), (7, c.dumpArray snaps .prtState ++ c.dumpArray snaps .gtxNode), (8, c.dumpPorts snaps),
   (9, trace.drop (trace.length - 2 ^ 24))]

/-! ### The dump (R538) -/

/-- Section table: each section directly after the one before it, from 0x1000. -/
def sectTable : Nat → List (Nat × Bytes) → Bytes
  | _, [] => []
  | off, (t, b) :: rest =>
    natLE 2 t ++ zerosB 2 ++ natLE 4 off ++ natLE 4 b.length ++ natLE 4 (crc32c b) ++ sectTable (off + b.length) rest

/-- Header and sections. -/
def Chip.dumpBytes (c : Chip) (kind state at_ cause : Nat) (ss : List (Nat × Bytes)) : Bytes :=
  let data := ss.flatMap (·.2)
  let tbl := sectTable 0x1000 ss
  let hdr := natLE 4 0x504D5544 ++ natLE 1 1 ++ natLE 1 kind ++ natLE 1 state ++ zerosB 1 ++ natLE 8 c.boot.image.serial ++
    natLE 4 (at_ % 2 ^ 32) ++ natLE 2 cause ++ natLE 2 ss.length ++ natLE 4 (0x1000 + data.length) ++ zerosB 4 ++ tbl ++
    zerosB (1024 - tbl.length) ++ zerosB 3036
  hdr ++ natLE 4 (crc32c hdr) ++ data

/-- Pool address of copy A of a granule of the dump region: POOL_BASE 0, all colours (R202, R203). -/
def dumpPool (g : Nat) : Nat := 512 * g

/-- Write the dump to both copies of the mirrored region. -/
def Chip.writeDump (c : Chip) (b : Bytes) : Chip :=
  (chunksOf 256 b.length b).zipIdx.foldl (fun c e =>
    let p := dumpPool e.2
    let c := if c.copyGood p then c.wrPool p e.1 else c
    if c.copyGood (p + 256) then c.wrPool (p + 256) e.1 else c) c

/-- One granule of the dump, from a copy that is good. -/
def Chip.dumpGranule (c : Chip) (g : Nat) : Option Bytes × Chip :=
  let p := dumpPool g
  let ls := (poolLoc p).ls
  if c.copyGood p && !c.inPass1 ls then (some (c.rdPool p 256), c)
  else if c.copyGood (p + 256) then (some (c.rdPool (p + 256) 256), c.bumpStack .memOtherCopy ((c.physOf ls).getD 0))
  else (none, c)

/-- Granules in a row; none when one has no good copy. -/
def Chip.dumpGranules (c : Chip) : Nat → Nat → Option Bytes × Chip
  | 0, _ => (some [], c)
  | n + 1, g =>
    match c.dumpGranule g with
    | (none, c) => (none, c)
    | (some a, c) => let r := Chip.dumpGranules c n (g + 1); (r.1.map fun b => a ++ b, r.2)

/-- Bytes of the dump, through the mirror (R204, R540). -/
def Chip.readDump (c : Chip) (off len : Nat) : Option Bytes × Chip :=
  let r := c.dumpGranules (cdiv (off % 256 + len) 256) (off / 256)
  (r.1.map fun b => sliceB b (off % 256) len, r.2)

/-- A dump becomes valid; its first 64 KiB stand in MGT_DUMP_WIN. -/
def Chip.setDump (c : Chip) (kind step : Nat) (b : Bytes) : Chip :=
  { c.writeDump b with dump := { c.dump with
      valid := true, writing := false, released := false, kind := kind, len := b.length, win := b.take 65536, step := step } }

/-- DUMP_DONE: step 4 of R551 has ended. -/
def Chip.dumpDone (c : Chip) (snaps : KMap Chip) (trace : Bytes) : Chip :=
  if c.boot.state = .recovery ∧ c.dump.step = 4 ∧ c.dump.writing = true ∧ c.bootRuns = true then
    let b := c.dumpBytes 1 c.dump.fromState.code c.dump.at_ c.dump.cause (c.dumpSections snaps trace)
    (c.setDump 1 5 b).raise Ev.dumpDone []
  else c

/-! ### Dump commands (R540) -/

def Chip.dumpHeld (c : Chip) : Bool := c.dump.valid && !c.dump.writing

def Chip.dumpInfo (c : Chip) : CmdRes :=
  if c.dumpHeld then
    match c.readDump 0 4096 with
    | (some b, c) => .done c 0 0 b
    | (none, c) => .done c 10 0 []
  else .done c 2 0 []

def Chip.dumpRead (c : Chip) (off len : Nat) : CmdRes :=
  if !c.dumpHeld then .done c 2 0 []
  else if len = 0 ∨ 8192 < len then .done c 4 0 []
  else if c.dump.len < off + len then .done c 5 0 []
  else
    match c.readDump off len with
    | (some b, c) => .done c 0 0 b
    | (none, c) => .done c 10 0 []

def Chip.dumpRelease (c : Chip) : CmdRes :=
  if c.dumpHeld then .done { c with dump := { c.dump with released := true } } 0 0 [] else .done c 2 0 []

/-! ### The steward's sequence (R553) -/

/-- Step 3: a MINIMAL dump, unless a valid one is held. -/
def Chip.minimalDump (c : Chip) (snaps : KMap Chip) (at_ : Nat) : Chip :=
  if c.dumpKept then c
  else
    c.setDump 2 c.dump.step
      (c.dumpBytes 2 c.boot.state.code at_ 0x7FF [(1, c.dumpBoot snaps), (6, c.dumpIrq snaps)])

/-- STEWARD_DRAIN_END: steps 3 to 5. The complexes are lost, so no session is closed by a record. -/
def Chip.stewardDrainEnd (c : Chip) (snaps : KMap Chip) : Chip :=
  match c.mcs.stewardAt with
  | none => c
  | some t =>
    if c.stewardWatches && (c.due t 2000 || !c.pins.crystal) then
      let c := (c.minimalDump snaps t).deviceLost 5
      let c := ((List.range 256).filter c.portExists).foldl (fun c p => c.portDown p) c
      let c := (c.mgt.sessions.map (·.id)).foldl (fun c i => c.endSession i) c
      (c.stopWork.setHandshakes []).assertFault.devTo .dead
    else c

end Sys2Proof.Machine
end

