-- ==== Sys2Proof/Machine/BootRows.lean ====
section
/-! DEFINITION. The rows of power, reset, boot, the management complexes, the steward and the dump: one definition for each. -/

namespace Sys2Proof.Machine

/-- POWER_OK_RISE (R567). -/
def execPowerOkRise (s : State) : Host.Outcome State Fault Refusal :=
  actReset s (s.chip.powerOkRise)

/-- RESET_HOLD_END (R567). -/
def execResetHoldEnd (s : State) : Host.Outcome State Fault Refusal :=
  actReset s (s.chip.resetHoldEnd)

/-- POWER_OK_FALL (R569). -/
def execPowerOkFall (s : State) : Host.Outcome State Fault Refusal :=
  actReset s (s.chip.powerOkFall)

/-- RESET_N_FALL (R500). -/
def execResetNFall (s : State) : Host.Outcome State Fault Refusal :=
  actReset s (s.chip.resetNFall)

/-- RESET_N_RISE (R500). -/
def execResetNRise (s : State) : Host.Outcome State Fault Refusal :=
  actReset s (s.chip.resetNRise)

/-- SMBUS_RESET_REQUEST (R594). -/
def execSmbusResetRequest (cmd dat : Nat) (s : State) : Host.Outcome State Fault Refusal :=
  actReset s (s.chip.smbusReset cmd dat)

/-- SMBUS_BLOCK_READ (R594). -/
def execSmbusBlockRead (addr : Nat) (s : State) : Host.Outcome State Fault Refusal :=
  act s (s.chip.smbusRead s.snap addr)

/-- JTAG_INSTRUCTION (R440). -/
def execJtagInstruction (op : JtagOp) (s : State) : Host.Outcome State Fault Refusal :=
  act s (s.chip.jtagOp s.snap op)

/-- ROMBOOT_SELF_CHECK_DONE (R501). -/
def execRombootSelfCheckDone (mcA mcB : Bool) (s : State) : Host.Outcome State Fault Refusal :=
  act s (s.chip.selfCheckDone mcA mcB)

/-- SFDP_READ_DONE (R489). -/
def execSfdpReadDone (valid : Bool) (mode density : Nat) (s : State) : Host.Outcome State Fault Refusal :=
  act s (s.chip.sfdpDone valid mode density)

/-- IMAGE_LOAD_DONE (R501). -/
def execImageLoadDone (image : Bytes) (s : State) : Host.Outcome State Fault Refusal :=
  act s (s.chip.imageLoaded image)

/-- VERIFY_DONE (R497). -/
def execVerifyDone (puf0 puf1 puf2 : Bytes) (s : State) : Host.Outcome State Fault Refusal :=
  act s (s.chip.verifyDone s.snap puf0 puf1 puf2)

/-- CORE_RAIL_CHECK (R568). -/
def execCoreRailCheck (vout : List Nat) (s : State) : Host.Outcome State Fault Refusal :=
  act s (s.chip.railCheck s.snap vout)

/-- BRINGUP_WORK_DONE (R502). -/
def execBringupWorkDone (work : BringupWork) (s : State) : Host.Outcome State Fault Refusal :=
  act s (s.chip.workDone s.snap work)

/-- ETH_LINK_UP (R502). -/
def execEthLinkUp (s : State) : Host.Outcome State Fault Refusal :=
  act s (s.chip.ethLinkUp s.snap)

/-- HEARTBEAT_SEND (R529). -/
def execHeartbeatSend (s : State) : Host.Outcome State Fault Refusal :=
  act s (s.chip.heartbeatSend)

/-- MC_FAILOVER (R529). -/
def execMcFailover (s : State) : Host.Outcome State Fault Refusal :=
  act s (s.chip.mcFailover)

/-- HEARTBEAT_LOST (R529). -/
def execHeartbeatLost (s : State) : Host.Outcome State Fault Refusal :=
  act s (s.chip.heartbeatLost)

/-- STEWARD_PULSE (R552). -/
def execStewardPulse (mc : Bool) (s : State) : Host.Outcome State Fault Refusal :=
  act s (s.chip.stewardPulse mc)

/-- STEWARD_COMPLEX_LOST (R552). -/
def execStewardComplexLost (mc : Bool) (s : State) : Host.Outcome State Fault Refusal :=
  act s (s.chip.stewardComplexLost mc)

/-- STEWARD_DRAIN_END (R553). -/
def execStewardDrainEnd (s : State) : Host.Outcome State Fault Refusal :=
  act s (s.chip.stewardDrainEnd s.snap)

/-- RECOVERY_DRAIN_END (R551). -/
def execRecoveryDrainEnd (s : State) : Host.Outcome State Fault Refusal :=
  act s (s.chip.recoveryDrainEnd)

/-- DUMP_DONE (R537). -/
def execDumpDone (trace : Bytes) (s : State) : Host.Outcome State Fault Refusal :=
  act s (s.chip.dumpDone s.snap trace)

/-- DEV_RESET_DELAY_EXPIRY (R525). -/
def execDevResetDelayExpiry (s : State) : Host.Outcome State Fault Refusal :=
  actReset s (s.chip.devResetExpiry)

/-- POWER_APPLIED (R567). -/
def execPowerApplied (s : State) : Host.Outcome State Fault Refusal :=
  actReset s (s.chip.powerApplied)

/-- POWER_REMOVED (R569). -/
def execPowerRemoved (s : State) : Host.Outcome State Fault Refusal :=
  actReset s (s.chip.powerRemoved)

/-- CRYSTAL_STOPPED (R572). -/
def execCrystalStopped (s : State) : Host.Outcome State Fault Refusal :=
  act s (s.chip.crystalStopped)

/-- ETH_LINK_DOWN (R543). -/
def execEthLinkDown (s : State) : Host.Outcome State Fault Refusal :=
  act s (s.chip.ethLinkDown)

end Sys2Proof.Machine
end

