-- ==== Sys2Proof/Machine/Commands.lean ====
section
/-! DEFINITION. The device, register and counter commands (R525, R531, R532). -/

namespace Sys2Proof.Machine

/-- DEV_INFO. -/
def Chip.devInfo (c : Chip) : CmdRes :=
  .done c 0 0 (natLE 4 c.bootStat ++ natLE 4 (c.view .bootImgFail 12) ++ natLE 8 c.boot.image.serial)

/-- The master that a session's register commands act as (R588). -/
def Session.master (s : Session) : Master := if s.kind = 1 then { code := 9, part := s.part } else { code := 8 }

/-- Command status of an access that completed other than OK (R589): UNMAPPED, ALIGN, NOWRITE, TIMEOUT. -/
def accCmd : Nat → Nat
  | 0 => 0
  | 1 => 5
  | 2 => 4
  | 3 => 4
  | _ => 2

/-- COUNT lies from 1 to 1,024. -/
def countOk (n : Nat) : Bool := decide (1 ≤ n) && decide (n ≤ 1024)

/-- Read a list in order by `f`; each value takes `w` bytes. A read that fails gives zero, and the first
failure is the command's status. -/
def Chip.readList (c : Chip) (w : Nat) (addrs : List Nat) (f : Chip → Nat → Nat × Nat × Chip) : CmdRes :=
  if !countOk addrs.length then .done c 4 0 []
  else
    let r := addrs.foldl (fun (a : Nat × Bytes × Chip) x =>
      let y := f a.2.2 x
      (if a.1 = 0 then y.1 else a.1, a.2.1 ++ natLE w y.2.1, y.2.2)) (0, [], c)
    .done r.2.2 r.1 0 (natLE 4 (c.tick % 2 ^ 32) ++ zerosB 4 ++ r.2.1)

/-- REG_READ. -/
def Chip.regReadCmd (c : Chip) (snaps : KMap Chip) (s : Session) (addrs : List Nat) : CmdRes :=
  c.readList 4 addrs fun c a =>
    let r := c.ctlRead snaps s.master a
    (accCmd r.1, r.2.1, r.2.2)

/-- One counter of CNT_READ or CNT_CLEAR, by its _LO address: one access, without the latch (R532). An
address of something else is MALFORMED. -/
def Chip.cntAccess (c : Chip) (m : Master) (clear : Bool) (a : Nat) : Nat × Nat × Chip :=
  let st := c.accStatus m a false
  let x := slotAt a
  if st ≠ 0 then (accCmd st, 0, c.accErr m a st false)
  else
    match x with
    | .cnt k die idx false =>
      let v := if blindTo m x || c.inert x then 0 else c.count k die idx
      let c :=
        if !clear then c
        else if m.code = 9 ∧ x.part ≠ some m.part then c.bump .secPrvDrop 12
        else c.clearCnt k die idx
      (0, v, c)
    | _ => (4, 0, c)

def Chip.cntReadCmd (c : Chip) (s : Session) (addrs : List Nat) : CmdRes :=
  c.readList 8 addrs fun c a => c.cntAccess s.master false a

def Chip.cntClearCmd (c : Chip) (s : Session) (addrs : List Nat) : CmdRes :=
  c.readList 8 addrs fun c a => c.cntAccess s.master true a

/-- Why a register-write entry failed, as a command status: its access's, or STATE when CFG_IGNORED. -/
def Chip.entryStatus (c : Chip) (snaps : KMap Chip) (m : Master) (e : RegEntry) : Nat :=
  let w := c.accStatus m e.addr true
  let r := (c.ctlRead snaps m e.addr).1
  if e.mask ≠ 0xFFFFFFFF ∧ r ≠ 0 then accCmd r
  else if w ≠ 0 then accCmd w
  else 2

/-- Entries in order until the first that fails: status, entries applied, state. -/
def Chip.writeEntries (c : Chip) (snaps : KMap Chip) (m : Master) : List RegEntry → Nat → Nat × Nat × Chip
  | [], n => (0, n, c)
  | e :: es, n =>
    let r := c.applyEntry snaps m e
    if r.1 then Chip.writeEntries r.2 snaps m es (n + 1) else (c.entryStatus snaps m e, n, r.2)

/-- REG_WRITE, under the failure rule of R494. -/
def Chip.regWriteCmd (c : Chip) (snaps : KMap Chip) (s : Session) (es : List RegEntry) : CmdRes :=
  if !countOk es.length then .done c 4 0 []
  else
    let r := c.writeEntries snaps s.master es 0
    .done r.2.2 r.1 0 (natLE 2 r.2.1 ++ zerosB 2)

end Sys2Proof.Machine
end

