-- ==== Sys2Proof/Machine/CommandRows.lean ====
section
/-! DEFINITION. The rows of Rinlidal commands: one definition for each. -/

namespace Sys2Proof.Machine

/-- The 16 bytes of a register-write entry (R494). -/
def entryBytes (e : RegEntry) : Bytes :=
  natLE 6 e.addr ++ natLE 1 e.phase ++ zerosB 1 ++ natLE 4 e.value.toNat ++ natLE 4 e.mask.toNat

/-- NOP (R525). -/
def execNop (sess reqId : Nat) (s : State) : Host.Outcome State Fault Refusal :=
  act s (s.chip.command sess reqId 0x0001 [] fun c _ => .done c 0 0 [])

/-- DEV_INFO (R525). -/
def execDevInfo (sess reqId : Nat) (s : State) : Host.Outcome State Fault Refusal :=
  act s (s.chip.command sess reqId 0x0002 [] fun c _ => c.devInfo)

/-- DEV_START (R505). -/
def execDevStart (sess reqId : Nat) (s : State) : Host.Outcome State Fault Refusal :=
  act s (s.chip.command sess reqId 0x0003 [] fun c _ => c.devStart)

/-- DEV_TEST (R505). -/
def execDevTest (sess reqId : Nat) (s : State) : Host.Outcome State Fault Refusal :=
  act s (s.chip.command sess reqId 0x0004 [] fun c _ => c.devTest)

/-- DEV_RESET (R525). -/
def execDevReset (sess reqId : Nat) (s : State) : Host.Outcome State Fault Refusal :=
  act s (s.chip.command sess reqId 0x0005 [] fun c _ => c.devReset)

/-- QUOTE (R430). -/
def execQuote (sess reqId : Nat) (nonce : Bytes) (s : State) : Host.Outcome State Fault Refusal :=
  act s (s.chip.command sess reqId 0x0101 nonce fun c x => c.quoteCmd x reqId nonce)

/-- TREE_NEW (R430). -/
def execTreeNew (sess reqId : Nat) (s : State) : Host.Outcome State Fault Refusal :=
  act s (s.chip.command sess reqId 0x0102 [] fun c x => c.treeNewCmd x reqId)

/-- QUOTE_TREE_READY (R430). -/
def execQuoteTreeReady (s : State) : Host.Outcome State Fault Refusal :=
  act s (s.chip.treeDone)

/-- BUNDLE_OPEN (R526). -/
def execBundleOpen (sess reqId bundle stageObj : Nat) (s : State) : Host.Outcome State Fault Refusal :=
  act s (s.chip.command sess reqId 0x0201 (natLE 4 bundle ++ natLE 4 stageObj) fun c _ => c.bundleOpen bundle
      stageObj)

/-- BUNDLE_META (R526). -/
def execBundleMeta (sess reqId bundle offset : Nat) (bytes : Bytes) (s : State) : Host.Outcome State Fault Refusal :=
  act s (s.chip.command sess reqId 0x0202 (natLE 4 bundle ++ zerosB 4 ++ natLE 8 offset ++ bytes) fun c _ =>
      c.bundleMeta bundle offset bytes)

/-- BUNDLE_CHECK (R447). -/
def execBundleCheck (sess reqId bundle : Nat) (s : State) : Host.Outcome State Fault Refusal :=
  act s (s.chip.command sess reqId 0x0203 (natLE 4 bundle) fun c _ => c.bundleCheck bundle)

/-- BUNDLE_DATA (R526). -/
def execBundleData (sess reqId bundle chunk off16 len16 : Nat) (bytes : Bytes) (s : State) : Host.Outcome State Fault Refusal :=
  act s (s.chip.command sess reqId 0x0204 (natLE 4 bundle ++ natLE 4 chunk ++ natLE 2 off16 ++ natLE 2 len16 ++
      zerosB 4 ++ bytes) fun c _ => c.bundleData bundle chunk off16 len16 bytes)

/-- BUNDLE_CLOSE (R526). -/
def execBundleClose (sess reqId bundle : Nat) (s : State) : Host.Outcome State Fault Refusal :=
  act s (s.chip.command sess reqId 0x0205 (natLE 4 bundle) fun c _ => c.bundleClose bundle)

/-- BUNDLE_DELETE (R526). -/
def execBundleDelete (sess reqId bundle : Nat) (s : State) : Host.Outcome State Fault Refusal :=
  act s (s.chip.command sess reqId 0x0206 (natLE 4 bundle) fun c _ => c.bundleDelete bundle)

/-- KEY_RELEASE (R448). -/
def execKeyRelease (sess reqId : Nat) (body : Bytes) (s : State) : Host.Outcome State Fault Refusal :=
  act s (s.chip.command sess reqId 0x0207 body fun c x => c.keyRelease x body)

/-- BUNDLE_KEY_DROP (R449). -/
def execBundleKeyDrop (sess reqId bundle : Nat) (s : State) : Host.Outcome State Fault Refusal :=
  act s (s.chip.command sess reqId 0x0208 (natLE 4 bundle) fun c _ => c.bundleKeyDrop bundle)

/-- OBJ_REGISTER (R205). -/
def execObjRegister (sess reqId obj bundle entry part demand : Nat) (s : State) : Host.Outcome State Fault Refusal :=
  act s (s.chip.command sess reqId 0x0301 (natLE 4 obj ++ natLE 4 bundle ++ natLE 2 entry ++ natLE 1 part ++ natLE
      1 demand) fun c x => c.place x { opc := 0x0301, reqId := reqId, obj := obj, args := [bundle, entry, part, demand] })

/-- OBJ_CREATE (R205). -/
def execObjCreate (sess reqId obj part kind size : Nat) (s : State) : Host.Outcome State Fault Refusal :=
  act s (s.chip.command sess reqId 0x0302 (natLE 4 obj ++ natLE 1 part ++ natLE 1 kind ++ zerosB 2 ++ natLE 8 size)
      fun c x => c.place x { opc := 0x0302, reqId := reqId, obj := obj, args := [part, kind, size] })

/-- OBJ_LOAD (R205). -/
def execObjLoad (sess reqId obj : Nat) (s : State) : Host.Outcome State Fault Refusal :=
  act s (s.chip.command sess reqId 0x0303 (natLE 4 obj) fun c x => c.place x { opc := 0x0303, reqId := reqId, obj := obj })

/-- OBJ_EVICT (R205). -/
def execObjEvict (sess reqId obj : Nat) (s : State) : Host.Outcome State Fault Refusal :=
  act s (s.chip.command sess reqId 0x0304 (natLE 4 obj) fun c x => c.place x { opc := 0x0304, reqId := reqId, obj := obj })

/-- OBJ_FILL (R205). -/
def execObjFill (sess reqId obj : Nat) (bowls : List (Nat × Nat)) (s : State) : Host.Outcome State Fault Refusal :=
  act s (s.chip.command sess reqId 0x0305 (natLE 4 obj ++ natLE 1 bowls.length ++ zerosB 3 ++ bowls.flatMap fun b
      => natLE 2 b.1 ++ natLE 1 b.2 ++ zerosB 1) fun c x =>
        c.place x { opc := 0x0305, reqId := reqId, obj := obj, bowls := bowls })

/-- OBJ_DROP (R205). -/
def execObjDrop (sess reqId obj bowl : Nat) (s : State) : Host.Outcome State Fault Refusal :=
  act s (s.chip.command sess reqId 0x0306 (natLE 4 obj ++ natLE 2 bowl ++ zerosB 2) fun c x =>
      c.place x { opc := 0x0306, reqId := reqId, obj := obj, args := [bowl] })

/-- OBJ_DELETE (R205). -/
def execObjDelete (sess reqId obj : Nat) (s : State) : Host.Outcome State Fault Refusal :=
  act s (s.chip.command sess reqId 0x0307 (natLE 4 obj) fun c x => c.place x { opc := 0x0307, reqId := reqId, obj := obj })

/-- OBJ_DEMAND (R525). -/
def execObjDemand (sess reqId obj demand : Nat) (s : State) : Host.Outcome State Fault Refusal :=
  act s (s.chip.command sess reqId 0x0308 (natLE 4 obj ++ natLE 1 demand ++ zerosB 3) fun c x =>
      c.place x { opc := 0x0308, reqId := reqId, obj := obj, args := [demand] })

/-- OBJ_QUERY (R525). -/
def execObjQuery (sess reqId obj : Nat) (s : State) : Host.Outcome State Fault Refusal :=
  act s (s.chip.command sess reqId 0x0309 (natLE 4 obj) fun c x => c.objQuery x obj)

/-- REGION_CREATE (R610). -/
def execRegionCreate (sess reqId part obj base len objOff : Nat) (s : State) : Host.Outcome State Fault Refusal :=
  act s (s.chip.command sess reqId 0x0401 (natLE 1 part ++ zerosB 3 ++ natLE 4 obj ++ natLE 8 base ++ natLE 8 len
      ++ natLE 8 objOff) fun c _ => c.regionCreate part obj base len objOff)

/-- REGION_REVOKE (R436). -/
def execRegionRevoke (sess reqId handle : Nat) (s : State) : Host.Outcome State Fault Refusal :=
  act s (s.chip.command sess reqId 0x0402 (natLE 2 handle) fun c x => c.regionRevoke x reqId handle)

/-- REGION_DELETE (R433). -/
def execRegionDelete (sess reqId handle : Nat) (s : State) : Host.Outcome State Fault Refusal :=
  act s (s.chip.command sess reqId 0x0403 (natLE 2 handle) fun c x => c.regionDelete x reqId handle)

/-- GRANT_ADD (R434). -/
def execGrantAdd (sess reqId handle node rights : Nat) (s : State) : Host.Outcome State Fault Refusal :=
  act s (s.chip.command sess reqId 0x0404 (natLE 2 handle ++ natLE 2 node ++ natLE 1 rights ++ zerosB 3) fun c x =>
      c.grantAdd x reqId handle node rights)

/-- GRANT_REMOVE (R436). -/
def execGrantRemove (sess reqId handle node : Nat) (s : State) : Host.Outcome State Fault Refusal :=
  act s (s.chip.command sess reqId 0x0405 (natLE 2 handle ++ natLE 2 node) fun c x => c.grantRemove x reqId handle
      node)

/-- LINK_EXCHANGE (R441). -/
def execLinkExchange (sess reqId node kind : Nat) (pub nonce sig cert : Bytes) (s : State) : Host.Outcome State Fault Refusal :=
  act s (s.chip.command sess reqId 0x0406 (natLE 2 node ++ natLE 1 kind ++ zerosB 1 ++ pub ++ nonce ++ sig ++ cert)
      fun c _ => c.linkExchange node kind pub nonce sig cert)

/-- LINK_MODE (R455). -/
def execLinkMode (sess reqId node mode : Nat) (s : State) : Host.Outcome State Fault Refusal :=
  act s (s.chip.command sess reqId 0x0407 (natLE 2 node ++ natLE 1 mode ++ zerosB 1) fun c _ => c.linkMode node mode)

/-- PART_CREATE (R459). -/
def execPartCreate (sess reqId part node : Nat) (s : State) : Host.Outcome State Fault Refusal :=
  act s (s.chip.command sess reqId 0x0501 (natLE 1 part ++ zerosB 1 ++ natLE 2 node) fun c _ => partCmd
      (c.partCreate part node, c))

/-- PART_ACTIVATE (R460). -/
def execPartActivate (sess reqId part : Nat) (s : State) : Host.Outcome State Fault Refusal :=
  act s (s.chip.command sess reqId 0x0502 (natLE 1 part) fun c _ => partCmd (c.partActivate part, c))

/-- PART_RESET (R462). -/
def execPartReset (sess reqId part : Nat) (s : State) : Host.Outcome State Fault Refusal :=
  act s (s.chip.command sess reqId 0x0503 (natLE 1 part) fun c _ => partCmd (c.partReset part))

/-- PART_DELETE (R466). -/
def execPartDelete (sess reqId part : Nat) (s : State) : Host.Outcome State Fault Refusal :=
  act s (s.chip.command sess reqId 0x0504 (natLE 1 part) fun c _ => partCmd (c.partDelete part))

/-- CMP_JOB (R175). -/
def execCmpJob (sess reqId die : Nat) (words : List Word) (s : State) : Host.Outcome State Fault Refusal :=
  act s (s.chip.command sess reqId 0x0601 (natLE 1 die ++ zerosB 3 ++ words.flatMap fun w => natLE 4 w.toNat) fun c
      _ => c.cmpJob (sess, reqId) die (words.map fun w => w.toNat))

/-- REG_READ (R531). -/
def execRegRead (sess reqId : Nat) (addrs : List Nat) (s : State) : Host.Outcome State Fault Refusal :=
  act s (s.chip.command sess reqId 0x0701 (natLE 2 addrs.length ++ zerosB 6 ++ addrs.flatMap fun a => natLE 8 a)
      fun c x => c.regReadCmd s.snap x addrs)

/-- REG_WRITE (R525). -/
def execRegWrite (sess reqId : Nat) (entries : List RegEntry) (s : State) : Host.Outcome State Fault Refusal :=
  act s (s.chip.command sess reqId 0x0702 (natLE 2 entries.length ++ zerosB 6 ++ entries.flatMap entryBytes) fun c
      x => c.regWriteCmd s.snap x entries)

/-- CNT_READ (R532). -/
def execCntRead (sess reqId : Nat) (addrs : List Nat) (s : State) : Host.Outcome State Fault Refusal :=
  act s (s.chip.command sess reqId 0x0703 (natLE 2 addrs.length ++ zerosB 6 ++ addrs.flatMap fun a => natLE 8 a)
      fun c x => c.cntReadCmd x addrs)

/-- CNT_CLEAR (R532). -/
def execCntClear (sess reqId : Nat) (addrs : List Nat) (s : State) : Host.Outcome State Fault Refusal :=
  act s (s.chip.command sess reqId 0x0704 (natLE 2 addrs.length ++ zerosB 6 ++ addrs.flatMap fun a => natLE 8 a)
      fun c x => c.cntClearCmd x addrs)

/-- DUMP_INFO (R540). -/
def execDumpInfo (sess reqId : Nat) (s : State) : Host.Outcome State Fault Refusal :=
  act s (s.chip.command sess reqId 0x0801 [] fun c _ => c.dumpInfo)

/-- DUMP_READ (R540). -/
def execDumpRead (sess reqId offset len : Nat) (s : State) : Host.Outcome State Fault Refusal :=
  act s (s.chip.command sess reqId 0x0802 (natLE 8 offset ++ natLE 4 len ++ zerosB 4) fun c _ => c.dumpRead offset
      len)

/-- DUMP_RELEASE (R540). -/
def execDumpRelease (sess reqId : Nat) (s : State) : Host.Outcome State Fault Refusal :=
  act s (s.chip.command sess reqId 0x0803 [] fun c _ => c.dumpRelease)

/-- PEER_SET (R525). -/
def execPeerSet (sess reqId index flags udpPort serial address : Nat) (s : State) : Host.Outcome State Fault Refusal :=
  act s (s.chip.command sess reqId 0x0901 (natLE 1 index ++ natLE 1 flags ++ natLE 2 udpPort ++ zerosB 4 ++ natLE 8
      serial ++ natLE 16 address) fun c _ => c.peerSet index flags udpPort serial address)

/-- PEER_OPEN (R534). -/
def execPeerOpen (sess reqId index : Nat) (s : State) : Host.Outcome State Fault Refusal :=
  act s (s.chip.command sess reqId 0x0902 (natLE 1 index) fun c _ => c.peerOpen (sess, reqId) index)

/-- PEER_CLOSE (R525). -/
def execPeerClose (sess reqId index : Nat) (s : State) : Host.Outcome State Fault Refusal :=
  act s (s.chip.command sess reqId 0x0903 (natLE 1 index) fun c _ => c.peerClose index)

/-- HANDOFF_OFFER (R557). -/
def execHandoffOffer (sess reqId obj peer dstPart dstObj : Nat) (s : State) : Host.Outcome State Fault Refusal :=
  act s (s.chip.command sess reqId 0x0A01 (natLE 4 obj ++ natLE 1 peer ++ natLE 1 dstPart ++ zerosB 2 ++ natLE 4
      dstObj ++ zerosB 4) fun c _ => c.handoffOffer (sess, reqId) obj peer dstPart dstObj)

/-- HANDOFF_EXPECT (R557). -/
def execHandoffExpect (sess reqId dstObj peer : Nat) (s : State) : Host.Outcome State Fault Refusal :=
  act s (s.chip.command sess reqId 0x0A02 (natLE 4 dstObj ++ natLE 1 peer ++ zerosB 3) fun c _ => c.handoffExpect
      (sess, reqId) dstObj peer)

/-- HANDOFF_QUERY (R557). -/
def execHandoffQuery (sess reqId obj peer epoch : Nat) (s : State) : Host.Outcome State Fault Refusal :=
  act s (s.chip.command sess reqId 0x0A03 (natLE 4 obj ++ natLE 1 peer ++ zerosB 3 ++ natLE 4 epoch) fun c _ =>
      c.handoffQuery obj peer epoch)

/-- HANDOFF_RECLAIM (R560). -/
def execHandoffReclaim (sess reqId obj : Nat) (s : State) : Host.Outcome State Fault Refusal :=
  act s (s.chip.command sess reqId 0x0A04 (natLE 4 obj) fun c _ => c.handoffReclaim obj)

end Sys2Proof.Machine
end

