-- ==== Sys2Proof/Machine/ComputeRows.lean ====
section
/-! DEFINITION. The rows of scoreboards, kernels, cores, bowls and collective engines: one definition for each. -/

namespace Sys2Proof.Machine

/-- SET_TIMEOUT (R85). -/
def execSetTimeout (die window slot : Nat) (s : State) : Host.Outcome State Fault Refusal :=
  act s (s.chip.setTimeout die window slot)

/-- KERNEL_LAUNCH (R95). -/
def execKernelLaunch (die : Nat) (silent : List SilentErr) (s : State) : Host.Outcome State Fault Refusal :=
  act s (s.chip.launchRow die silent)

/-- KERNEL_RUN_END (R96). -/
def execKernelRunEnd (launch : Nat) (s : State) : Host.Outcome State Fault Refusal :=
  act s (s.chip.kernelRunEnd launch)

/-- WATCHDOG (R97). -/
def execWatchdog (launch : Nat) (s : State) : Host.Outcome State Fault Refusal :=
  act s (s.chip.watchdog launch)

/-- RESIDUE_ERROR (R63). -/
def execResidueError (core ctx slot row col a b product : Nat) (mon : Monitors) (s : State) : Host.Outcome State Fault Refusal :=
  act s (s.chip.residueError core ctx slot row col a b product mon)

/-- CORE_STORE_ECC_ERROR (R64). -/
def execCoreStoreEccError (core ctx slot word : Nat) (correctable : Bool) (mon : Monitors) (s : State) : Host.Outcome State Fault Refusal :=
  act s (s.chip.eccError core ctx slot word correctable mon)

/-- AUTO_SUBSTITUTION (R42). -/
def execAutoSubstitution (core : Nat) (s : State) : Host.Outcome State Fault Refusal :=
  act s (s.chip.autoSubst core)

/-- SCRUB_DONE (R40). -/
def execScrubDone (core : Nat) (s : State) : Host.Outcome State Fault Refusal :=
  act s (s.chip.scrubDone core)

/-- BOWL_TIMEOUT (R114). -/
def execBowlTimeout (launch : Nat) (s : State) : Host.Outcome State Fault Refusal :=
  act s (s.chip.bowlTimeout launch)

/-- CHECK_RUN_END (R108). -/
def execCheckRunEnd (launch : Nat) (mon : List (Nat × Monitors)) (s : State) : Host.Outcome State Fault Refusal :=
  act s (s.chip.checkRunEnd launch mon)

/-- CHECK_TIMEOUT (R107). -/
def execCheckTimeout (launch : Nat) (s : State) : Host.Outcome State Fault Refusal :=
  act s (s.chip.checkTimeout launch)

/-- SERVICE_REPORT (R102). -/
def execServiceReport (part : Nat) (s : State) : Host.Outcome State Fault Refusal :=
  act s (s.chip.serviceReport part)

/-- COR_CORE_STATE_WRITE (R71). -/
def execCorCoreStateWrite (m : Master) (core : Nat) (value : Word) (s : State) : Host.Outcome State Fault Refusal :=
  act s (s.chip.busStore m ((Reg.corCoreState).addr (coreDie core) (coreIdx core)) value)

/-- COR_BOWL_DESC_WRITE (R78). -/
def execCorBowlDescWrite (m : Master) (bowl : Nat) (value : Word) (s : State) : Host.Outcome State Fault Refusal :=
  act s (s.chip.busStore m ((Reg.corBowlDesc).addr 12 [bowl]) value)

/-- WINDOW_ENTRY_WRITE (R80). -/
def execWindowEntryWrite (m : Master) (query : Bool) (window : Nat) (value : Word) (s : State) : Host.Outcome State Fault Refusal :=
  act s (s.chip.busStore m ((if query then Reg.sftQwinW0 else .dspWindowW0).addr 12 [window]) value)

/-- OUTPUT_SEGMENT (R135). -/
def execOutputSegment (launch : Nat) (s : State) : Host.Outcome State Fault Refusal :=
  act s (s.chip.outputSegment launch)

/-- STAGING_GRANTED (R135). -/
def execStagingGranted (kind engine : Nat) (s : State) : Host.Outcome State Fault Refusal :=
  act s (s.chip.stagingGranted kind engine)

/-- OP_TIMEOUT (R137). -/
def execOpTimeout (op : Nat) (s : State) : Host.Outcome State Fault Refusal :=
  act s (s.chip.opTimeout op)

/-- ENG_CFG_WRITE (R160). -/
def execEngCfgWrite (m : Master) (kind engine : Nat) (value : Word) (s : State) : Host.Outcome State Fault Refusal :=
  act s (s.chip.busStore m ((engCfgReg kind).addr (8 + engine / 16) [engine % 16]) value)

end Sys2Proof.Machine
end

