-- ==== Sys2Proof/Machine/EthRows.lean ====
section
/-! DEFINITION. The rows of Ethernet frames, Rinlidal records and the sessions' timers: one definition for each. -/

namespace Sys2Proof.Machine

/-- PAUSE_FRAME (R514). -/
def execPauseFrame (s : State) : Host.Outcome State Fault Refusal :=
  act s (s.chip.pauseFrame)

/-- ARP_REQUEST (R515). -/
def execArpRequest (tagged : Option Nat) (targetIp senderMac senderIp : Nat) (s : State) : Host.Outcome State Fault Refusal :=
  act s (s.chip.arpRequest tagged targetIp senderMac senderIp)

/-- NEIGHBOR_SOLICITATION (R515). -/
def execNeighborSolicitation (tagged : Option Nat) (targetIp senderMac senderIp : Nat) (s : State) : Host.Outcome State Fault Refusal :=
  act s (s.chip.neighborSolicitation tagged targetIp senderMac senderIp)

/-- ICMP_ECHO (R515). -/
def execIcmpEcho (tagged : Option Nat) (v6 : Bool) (dstIp srcIp : Nat) (echo : Bytes) (s : State) : Host.Outcome State Fault Refusal :=
  act s (s.chip.icmpEcho tagged v6 dstIp srcIp echo)

/-- ETH_FRAME_DISCARD (R515). -/
def execEthFrameDiscard (s : State) : Host.Outcome State Fault Refusal :=
  act s (s.chip.ethDiscard)

/-- HELLO (R519). -/
def execHello (src : NetAddr) (kind : Nat) (pub nonce : Bytes) (s : State) : Host.Outcome State Fault Refusal :=
  act s (s.chip.takeHello src kind pub nonce)

/-- HELLO_REPLY (R519). -/
def execHelloReply (src : NetAddr) (session : Nat) (pub nonce : Bytes) (serial : Nat) (devSigned devSig sig : Bytes) (s : State) : Host.Outcome State Fault Refusal :=
  act s (s.chip.takeHelloReply src session pub nonce serial devSigned devSig sig)

/-- AUTH (R520). -/
def execAuth (rec : Record) (s : State) : Host.Outcome State Fault Refusal :=
  act s (s.chip.takeAuth rec)

/-- DATA (R518). -/
def execData (rec : Record) (s : State) : Host.Outcome State Fault Refusal :=
  act s (s.chip.takeData rec)

/-- CLOSE (R521). -/
def execClose (rec : Record) (s : State) : Host.Outcome State Fault Refusal :=
  act s (s.chip.takeClose rec)

/-- HANDSHAKE_TIMEOUT (R519). -/
def execHandshakeTimeout (hs : Nat) (s : State) : Host.Outcome State Fault Refusal :=
  act s (s.chip.handshakeTimeout hs)

/-- SESSION_IDLE_TIMEOUT (R521). -/
def execSessionIdleTimeout (sess : Nat) (s : State) : Host.Outcome State Fault Refusal :=
  act s (s.chip.idleTimeout sess)

/-- REASSEMBLY_TIMEOUT (R523). -/
def execReassemblyTimeout (sess reqId : Nat) (s : State) : Host.Outcome State Fault Refusal :=
  act s (s.chip.reassemblyTimeout sess reqId)

end Sys2Proof.Machine
end

