-- ==== Sys2Proof/Machine/FabricRows.lean ====
section
/-! DEFINITION. The rows of Gyori requests and responses, the coherent home, the switch: one definition for each. -/

namespace Sys2Proof.Machine

/-- RD_NC (R280). -/
def execRdNc (port vc : Nat) (req : Req) (s : State) : Host.Outcome State Fault Refusal :=
  act s (s.chip.request port vc 0x01 req)

/-- RD_S (R401). -/
def execRdS (port vc : Nat) (req : Req) (s : State) : Host.Outcome State Fault Refusal :=
  act s (s.chip.request port vc 0x02 req)

/-- RD_X (R401). -/
def execRdX (port vc : Nat) (req : Req) (s : State) : Host.Outcome State Fault Refusal :=
  act s (s.chip.request port vc 0x03 req)

/-- WR (R280). -/
def execWr (port vc : Nat) (req : Req) (s : State) : Host.Outcome State Fault Refusal :=
  act s (s.chip.request port vc 0x04 req)

/-- WB (R404). -/
def execWb (port vc : Nat) (req : Req) (s : State) : Host.Outcome State Fault Refusal :=
  act s (s.chip.request port vc 0x05 req)

/-- EVICT (R401). -/
def execEvict (port vc : Nat) (req : Req) (s : State) : Host.Outcome State Fault Refusal :=
  act s (s.chip.request port vc 0x06 req)

/-- ATOMIC (R281). -/
def execAtomic (port vc : Nat) (req : Req) (s : State) : Host.Outcome State Fault Refusal :=
  act s (s.chip.request port vc 0x07 req)

/-- BSTORE (R283). -/
def execBstore (port vc : Nat) (req : Req) (s : State) : Host.Outcome State Fault Refusal :=
  act s (s.chip.request port vc 0x08 req)

/-- TSTORE (R283). -/
def execTstore (port vc : Nat) (req : Req) (s : State) : Host.Outcome State Fault Refusal :=
  act s (s.chip.request port vc 0x09 req)

/-- MSTORE (R285). -/
def execMstore (port vc : Nat) (req : Req) (s : State) : Host.Outcome State Fault Refusal :=
  act s (s.chip.request port vc 0x0A req)

/-- REDUCE (R286). -/
def execReduce (port vc : Nat) (req : Req) (s : State) : Host.Outcome State Fault Refusal :=
  act s (s.chip.request port vc 0x0B req)

/-- MSG (R287). -/
def execMsg (port vc : Nat) (req : Req) (s : State) : Host.Outcome State Fault Refusal :=
  act s (s.chip.request port vc 0x0C req)

/-- RSP (R302). -/
def execRsp (port : Nat) (rsp : Rsp) (s : State) : Host.Outcome State Fault Refusal :=
  act s (s.chip.response port rsp)

/-- RSP_TIMEOUT (R302). -/
def execRspTimeout (req : Nat) (s : State) : Host.Outcome State Fault Refusal :=
  act s (s.chip.rspTimeout req)

/-- SNP_RSP (R403). -/
def execSnpRsp (port : Nat) (rsp : SnpRsp) (s : State) : Host.Outcome State Fault Refusal :=
  act s (s.chip.snoopAnswer port rsp)

/-- LINE_TRANSACTION_END (R407). -/
def execLineTransactionEnd (line : Nat) (s : State) : Host.Outcome State Fault Refusal :=
  act s (s.chip.lineEnd line)

/-- RESERVATION_EXPIRY (R407). -/
def execReservationExpiry (line : Nat) (s : State) : Host.Outcome State Fault Refusal :=
  act s (s.chip.rsvExpiry line)

/-- SNOOP_RESEND (R410). -/
def execSnoopResend (tag : Nat) (s : State) : Host.Outcome State Fault Refusal :=
  act s (if s.chip.homesQuiet then s.chip else s.chip.snoopResend tag)

/-- SNOOP_TIMEOUT (R411). -/
def execSnoopTimeout (tag : Nat) (s : State) : Host.Outcome State Fault Refusal :=
  act s (s.chip.snoopTimeout tag)

/-- SNOOP_FILTER_SWEEP_DONE (R411). -/
def execSnoopFilterSweepDone (node : Nat) (s : State) : Host.Outcome State Fault Refusal :=
  act s (s.chip.sweepDone node)

/-- SHARE_WAIT_RESUME (R350). -/
def execShareWaitResume (part die : Nat) (s : State) : Host.Outcome State Fault Refusal :=
  act s (s.chip.shareResume part die)

/-- HELD_STORE_RELEASE (R84). -/
def execHeldStoreRelease (die : Nat) (s : State) : Host.Outcome State Fault Refusal :=
  act s (s.chip.heldRelease die)

/-- COH_PROBE (R421). -/
def execCohProbe (m : Master) (die : Nat) (value : Word) (s : State) : Host.Outcome State Fault Refusal :=
  act s (s.chip.busStore m ((Reg.cohProbeAddrHi).addr die []) value)

/-- COH_SHARER_WRITE (R419). -/
def execCohSharerWrite (m : Master) (slot : Nat) (value : Word) (s : State) : Host.Outcome State Fault Refusal :=
  act s (s.chip.busStore m ((Reg.cohSharer).addr 12 [slot]) value)

/-- GTX_STREAM_WRITE (R308). -/
def execGtxStreamWrite (m : Master) (stream : Nat) (value : Word) (s : State) : Host.Outcome State Fault Refusal :=
  act s (s.chip.busStore m ((Reg.gtxStream).addr 12 [stream]) value)

/-- GTX_NODE_WRITE (R307). -/
def execGtxNodeWrite (m : Master) (node : Nat) (value : Word) (s : State) : Host.Outcome State Fault Refusal :=
  act s (s.chip.busStore m ((Reg.gtxNode).addr 12 [node]) value)

/-- SWC_PART_SHARE_WRITE (R349). -/
def execSwcPartShareWrite (m : Master) (die part : Nat) (value : Word) (s : State) : Host.Outcome State Fault Refusal :=
  act s (s.chip.busStore m ((Reg.swcPartShare).addr die [part]) value)

end Sys2Proof.Machine
end

