-- ==== Sys2Proof/Machine/LinkRows.lean ====
section
/-! DEFINITION. The rows of flits, link states, shaping and die-to-die links: one definition for each. -/

namespace Sys2Proof.Machine

/-- DATA_FLIT (R326). -/
def execDataFlit (port : Nat) (flit : Bytes) (s : State) : Host.Outcome State Fault Refusal :=
  act s ((s.chip.dataFlit port flit).strays port)

/-- IDLE_FLIT (R324). -/
def execIdleFlit (port : Nat) (hdr : FlitHdr) (s : State) : Host.Outcome State Fault Refusal :=
  act s (s.chip.idleFlit port hdr)

/-- TRAIN_REC (R318). -/
def execTrainRec (port : Nat) (hdr : FlitHdr) (body : CtrlBody) (s : State) : Host.Outcome State Fault Refusal :=
  act s (s.chip.trainRec port hdr body)

/-- TRAIN_ACK (R318). -/
def execTrainAck (port : Nat) (hdr : FlitHdr) (body : CtrlBody) (s : State) : Host.Outcome State Fault Refusal :=
  act s (s.chip.trainAck port hdr body)

/-- RETRAIN_REQ (R329). -/
def execRetrainReq (port : Nat) (hdr : FlitHdr) (body : CtrlBody) (s : State) : Host.Outcome State Fault Refusal :=
  act s (s.chip.peerReq port hdr body false)

/-- WIDTH_REQ (R329). -/
def execWidthReq (port : Nat) (hdr : FlitHdr) (body : CtrlBody) (s : State) : Host.Outcome State Fault Refusal :=
  act s (s.chip.peerReq port hdr body true)

/-- ACCEPT (R329). -/
def execAccept (port : Nat) (hdr : FlitHdr) (body : CtrlBody) (s : State) : Host.Outcome State Fault Refusal :=
  act s (s.chip.acceptFlit port hdr body)

/-- GOING_DOWN (R335). -/
def execGoingDown (port : Nat) (hdr : FlitHdr) (_body : CtrlBody) (s : State) : Host.Outcome State Fault Refusal :=
  act s (s.chip.goingDown port hdr)

/-- CTRL_RESEND (R322). -/
def execCtrlResend (port : Nat) (s : State) : Host.Outcome State Fault Refusal :=
  act s (s.chip.ctrlResend port)

/-- ACK_TIMEOUT (R326). -/
def execAckTimeout (port : Nat) (s : State) : Host.Outcome State Fault Refusal :=
  act s (s.chip.ackTimeout port)

/-- FRAMING_LOCK_LOSS (R328). -/
def execFramingLockLoss (port lanes : Nat) (s : State) : Host.Outcome State Fault Refusal :=
  act s (s.chip.lockLoss port lanes)

/-- FEC_UNCORRECTABLE (R328). -/
def execFecUncorrectable (port : Nat) (symbols : List Nat) (s : State) : Host.Outcome State Fault Refusal :=
  act s (s.chip.fecUncorrectable port symbols)

/-- ERROR_WINDOW_END (R328). -/
def execErrorWindowEnd (port : Nat) (s : State) : Host.Outcome State Fault Refusal :=
  act s (s.chip.windowEnd port)

/-- LANE_LOCK (R318). -/
def execLaneLock (port lane : Nat) (s : State) : Host.Outcome State Fault Refusal :=
  act s (s.chip.laneLock port lane)

/-- CREDIT_TIMEOUT (R325). -/
def execCreditTimeout (port vc : Nat) (s : State) : Host.Outcome State Fault Refusal :=
  act s (s.chip.creditTimeout port vc)

/-- TRAIN_TIMEOUT (R316). -/
def execTrainTimeout (port : Nat) (s : State) : Host.Outcome State Fault Refusal :=
  act s (s.chip.trainTimeout port)

/-- RETRAIN_TIMEOUT (R316). -/
def execRetrainTimeout (port : Nat) (s : State) : Host.Outcome State Fault Refusal :=
  act s (s.chip.retrainTimeout port)

/-- AUTO_RESTART (R316). -/
def execAutoRestart (port : Nat) (s : State) : Host.Outcome State Fault Refusal :=
  act s (s.chip.autoRestart port)

/-- RESTART (R316). -/
def execRestart (port : Nat) (s : State) : Host.Outcome State Fault Refusal :=
  act s (s.chip.cmdRestart port)

/-- RETRAIN (R329). -/
def execRetrain (port : Nat) (s : State) : Host.Outcome State Fault Refusal :=
  act s (s.chip.cmdRetrain port)

/-- NARROW (R313). -/
def execNarrow (port lanes : Nat) (s : State) : Host.Outcome State Fault Refusal :=
  act s (s.chip.cmdNarrow port lanes)

/-- DOWN (R316). -/
def execDown (port : Nat) (s : State) : Host.Outcome State Fault Refusal :=
  act s (s.chip.cmdDown port)

/-- TEST_ENTER (R334). -/
def execTestEnter (port : Nat) (s : State) : Host.Outcome State Fault Refusal :=
  act s (s.chip.cmdTestEnter port)

/-- TEST_EXIT (R316). -/
def execTestExit (port : Nat) (s : State) : Host.Outcome State Fault Refusal :=
  act s (s.chip.cmdTestExit port)

/-- LNK_PORT_CFG_WRITE (R337). -/
def execLnkPortCfgWrite (m : Master) (port : Nat) (value : Word) (s : State) : Host.Outcome State Fault Refusal :=
  act s (s.chip.busStore m ((Reg.lnkPortCfg).addr (portDie port) [portLocal port]) value)

/-- LNK_CTRL_WRITE (R316). -/
def execLnkCtrlWrite (m : Master) (die : Nat) (value : Word) (s : State) : Host.Outcome State Fault Refusal :=
  act s (s.chip.busStore m ((Reg.lnkCtrl).addr die []) value)

/-- D2D_TRANSFER_ERROR (R364). -/
def execD2dTransferError (die link : Nat) (s : State) : Host.Outcome State Fault Refusal :=
  act s (s.chip.d2dError die link)

/-- D2D_FAULT (R364). -/
def execD2dFault (die link : Nat) (s : State) : Host.Outcome State Fault Refusal :=
  act s (s.chip.d2dFault die link)

/-- AUDIT_START (R359). -/
def execAuditStart (die : Nat) (s : State) : Host.Outcome State Fault Refusal :=
  act s (s.chip.auditStart die)

/-- MARK_PHASE_END (R359). -/
def execMarkPhaseEnd (die : Nat) (s : State) : Host.Outcome State Fault Refusal :=
  act s (s.chip.markPhaseEnd die)

/-- AUDIT_SWEEP_END (R359). -/
def execAuditSweepEnd (die : Nat) (s : State) : Host.Outcome State Fault Refusal :=
  act s (s.chip.auditSweepEnd die)

/-- GATE_ENTRY_END (R380). -/
def execGateEntryEnd (port : Nat) (s : State) : Host.Outcome State Fault Refusal :=
  act s (s.chip.gateEntryEnd port)

/-- BANK_SWITCH_REQUEST (R383). -/
def execBankSwitchRequest (m : Master) (port : Nat) (value : Word) (s : State) : Host.Outcome State Fault Refusal :=
  act s (s.chip.busStore m ((Reg.tshPortCfg).addr (portDie port) [portLocal port]) value)

/-- QUEUE_SAMPLE (R389). -/
def execQueueSample (port : Nat) (s : State) : Host.Outcome State Fault Refusal :=
  act s (s.chip.queueSample port)

/-- FLIT_SEND (R321). -/
def execFlitSend (port : Nat) (s : State) : Host.Outcome State Fault Refusal :=
  act s (s.chip.flitSend port)

/-- PATTERN_CHECKER_LOCK (R333). -/
def execPatternCheckerLock (die lane : Nat) (s : State) : Host.Outcome State Fault Refusal :=
  act s (s.chip.checkerLock die lane)

end Sys2Proof.Machine
end

