-- ==== Sys2Proof/Machine/MemoryRows.lean ====
section
/-! DEFINITION. The rows of placement, compression, DRAM, flash and the sifter: one definition for each. -/

namespace Sys2Proof.Machine

/-- LOAD_DONE (R609). -/
def execLoadDone (obj : Nat) (unreadable : List Nat) (s : State) : Host.Outcome State Fault Refusal :=
  act s (s.chip.loadDone obj unreadable)

/-- JOB_END (R177). -/
def execJobEnd (die : Nat) (s : State) : Host.Outcome State Fault Refusal :=
  act s (s.chip.jobEnd die)

/-- TILE_FILL_DONE (R33). -/
def execTileFillDone (fill core : Nat) (s : State) : Host.Outcome State Fault Refusal :=
  act s (s.chip.tileFillDone fill core)

/-- REFETCH_DONE (R183). -/
def execRefetchDone (fill core : Nat) (s : State) : Host.Outcome State Fault Refusal :=
  act s (s.chip.refetchDone fill core)

/-- INDEX_TABLE_WRITE (R244). -/
def execIndexTableWrite (m : Master) (index : Nat) (value : Word) (s : State) : Host.Outcome State Fault Refusal :=
  act s (s.chip.busStore m ((Reg.sftIndexW0).addr 12 [index]) value)

/-- STACK_FAILED (R215). -/
def execStackFailed (stack cause : Nat) (s : State) : Host.Outcome State Fault Refusal :=
  act s (s.chip.stackFailed stack cause)

/-- DRAM_READ_ERROR (R213). -/
def execDramReadError (pool : Nat) (corrected ricer otherBad : Bool) (flash : List FlashErr) (s : State) : Host.Outcome State Fault Refusal :=
  act s (s.chip.dramReadError pool corrected ricer otherBad flash)

/-- MEM_FAIL_CMD (R227). -/
def execMemFailCmd (m : Master) (value : Word) (s : State) : Host.Outcome State Fault Refusal :=
  act s (s.chip.busStore m ((Reg.memFailCmd).addr 12 []) value)

/-- MEM_CTRL_WRITE (R217). -/
def execMemCtrlWrite (m : Master) (value : Word) (s : State) : Host.Outcome State Fault Refusal :=
  act s (s.chip.busStore m ((Reg.memCtrl).addr 12 []) value)

/-- SPARE_INDUCTION (R217). -/
def execSpareInduction (s : State) : Host.Outcome State Fault Refusal :=
  act s (s.chip.spareInduction)

/-- PASS1_END (R217). -/
def execPass1End (s : State) : Host.Outcome State Fault Refusal :=
  act s (s.chip.pass1End)

/-- REBUILD_DONE (R217). -/
def execRebuildDone (s : State) : Host.Outcome State Fault Refusal :=
  act s (s.chip.rebuildDone)

/-- FLASH_FAILED (R214). -/
def execFlashFailed (stack : Nat) (s : State) : Host.Outcome State Fault Refusal :=
  act s (s.chip.flashFailed stack)

/-- SIFTER_OP_START (R238). -/
def execSifterOpStart (bowl : Nat) (s : State) : Host.Outcome State Fault Refusal :=
  act s (s.chip.sftStart bowl)

/-- SEARCH (R247). -/
def execSearch (op : Nat) (s : State) : Host.Outcome State Fault Refusal :=
  act s (s.chip.sftDoSearch op)

/-- INSERT (R256). -/
def execInsert (op : Nat) (s : State) : Host.Outcome State Fault Refusal :=
  act s (s.chip.sftDoInsert op)

/-- DELETE (R256). -/
def execDelete (op : Nat) (s : State) : Host.Outcome State Fault Refusal :=
  act s (s.chip.sftDoDelete op)

/-- COMPACT (R257). -/
def execCompact (op : Nat) (s : State) : Host.Outcome State Fault Refusal :=
  act s (s.chip.sftDoCompact op)

/-- QUERY_TIMEOUT (R255). -/
def execQueryTimeout (op : Nat) (s : State) : Host.Outcome State Fault Refusal :=
  act s (s.chip.queryTimeout op)

/-- CHANNEL_RETRAINING_ATTEMPT (R215). -/
def execChannelRetrainingAttempt (stack channel : Nat) (ok : Bool) (s : State) : Host.Outcome State Fault Refusal :=
  act s (s.chip.channelRetrain stack channel ok)

end Sys2Proof.Machine
end

