-- ==== Sys2Proof/Machine/PeerRows.lean ====
section
/-! DEFINITION. The rows of records of peer sessions: messages and handoffs: one definition for each. -/

namespace Sys2Proof.Machine

/-- Length of a peer record's body (R534, R559). -/
def peerBodyOk (opc : Nat) (b : Bytes) : Bool :=
  match opc with
  | 0xC101 => decide (24 ≤ b.length) && decide (b.length ≤ 4104)
  | 0xC102 => b.length == 9
  | 0xC111 => decide (33 ≤ b.length) && decide (b.length ≤ 8224)
  | 0xC112 => b.length == 8
  | 0xC113 => b.length == 8
  | 0xC114 => b.length == 12
  | _ => false

/-- A record of a peer session. One that a DATA record brought is taken in the order of arrival, when its
body is `want`; one whose body has a wrong length is dropped. -/
def Chip.peerRecord (c : Chip) (id opc : Nat) (want : Bytes) (f : Chip → Session → Chip) : Chip :=
  match c.session? id with
  | none => c
  | some s =>
    if s.kind ≠ 2 then c
    else
      match s.ready with
      | [] => f c s
      | (_, o, b) :: t =>
        if o = opc ∧ (b = want ∨ peerBodyOk opc b = false) then
          let c := c.modSession id fun s => { s with ready := t }
          if peerBodyOk opc b then f c { s with ready := t } else c
        else c

/-- PEER_MSG (R536). -/
def execPeerMsg (sess msgId : Nat) (msg : Bytes) (s : State) : Host.Outcome State Fault Refusal :=
  act s (s.chip.peerRecord sess 0xC101 (natLE 8 msgId ++ msg) fun c x => c.takeMsg x msgId msg)

/-- MSG_ACK (R535). -/
def execMsgAck (sess msgId result : Nat) (s : State) : Host.Outcome State Fault Refusal :=
  act s (s.chip.peerRecord sess 0xC102 (natLE 8 msgId ++ natLE 1 result) fun c x => c.takeAck x.id msgId result)

/-- MSG_RESEND_TIMEOUT (R535). -/
def execMsgResendTimeout (peer msgId : Nat) (s : State) : Host.Outcome State Fault Refusal :=
  act s (s.chip.msgResend peer msgId)

/-- HO_OFFER (R559). -/
def execHoOffer (sess epoch dstObj size offset dstPart : Nat) (last : Bool) (crc : Nat) (bytes : Bytes) (s : State) : Host.Outcome State Fault Refusal :=
  act s (s.chip.peerRecord sess 0xC111 (natLE 4 epoch ++ natLE 4 dstObj ++ natLE 8 size ++ natLE 8 offset ++ natLE
      1 dstPart ++ natLE 1 (b2n last) ++ zerosB 2 ++ natLE 4 crc ++ bytes) fun c x => c.hoOffer x epoch dstObj size
      offset dstPart last crc bytes)

/-- HO_ACCEPT (R559). -/
def execHoAccept (sess epoch dstObj : Nat) (s : State) : Host.Outcome State Fault Refusal :=
  act s (s.chip.peerRecord sess 0xC112 (natLE 4 epoch ++ natLE 4 dstObj) fun c x => c.hoAccept x epoch dstObj)

/-- HO_COMMIT (R560). -/
def execHoCommit (sess epoch dstObj : Nat) (s : State) : Host.Outcome State Fault Refusal :=
  act s (s.chip.peerRecord sess 0xC113 (natLE 4 epoch ++ natLE 4 dstObj) fun c x => c.hoCommit x epoch dstObj)

/-- HO_ACK (R558). -/
def execHoAck (sess epoch dstObj acked result : Nat) (s : State) : Host.Outcome State Fault Refusal :=
  act s (s.chip.peerRecord sess 0xC114 (natLE 4 epoch ++ natLE 4 dstObj ++ natLE 2 acked ++ natLE 1 result ++
      zerosB 1) fun c x => c.hoAck x epoch dstObj acked result)

/-- HANDOFF_RESEND_TIMEOUT (R559). -/
def execHandoffResendTimeout (epoch : Nat) (s : State) : Host.Outcome State Fault Refusal :=
  act s (s.chip.handoffResend epoch)

/-- OFFERED_TIMEOUT (R558). -/
def execOfferedTimeout (epoch : Nat) (s : State) : Host.Outcome State Fault Refusal :=
  act s (s.chip.offeredTimeout epoch)

/-- TENTATIVE_TIMEOUT (R558). -/
def execTentativeTimeout (epoch : Nat) (s : State) : Host.Outcome State Fault Refusal :=
  act s (s.chip.tentativeTimeout epoch)

end Sys2Proof.Machine
end

