-- ==== Sys2Proof/Machine/Power.lean ====
section
/-! DEFINITION. The core-rail control loop, PMBus polls, temperatures (R574-R578). -/

namespace Sys2Proof.Machine

/-- The complex that drives the PMBus runs. -/
def Chip.pmbusRuns (c : Chip) : Bool := c.mcRuns c.mcs.activeB

/-- New VOUTs wait to be written to their regulators. -/
def Chip.setVouts (c : Chip) : Chip :=
  (List.range 12).foldl (fun c n =>
    let r := c.rail n
    if r.on && c.voutOf n != r.command then c.setRail n { r with command := c.voutOf n, pending := true } else c) c

def Chip.pcap (c : Chip) : Nat := min 3200 (c.fld .pwrGlb 12 [] 31 16)

/-- Every rail at its floor with CORE_W above PCAP: THERM_WARN with INFO0 bit [8] at each hundredth
evaluation in a row at which both hold (R575, notes/assumptions/152.md). -/
def Chip.overCap (c : Chip) : Chip :=
  let at_ := decide (c.pcap < c.pwr.coreW) && (List.range 12).all fun n => c.voutOf n == c.floorMv n
  if !at_ then { c with pwr := { c.pwr with overCap := 0 } }
  else if c.pwr.overCap + 1 < 100 then { c with pwr := { c.pwr with overCap := c.pwr.overCap + 1 } }
  else (({ c with pwr := { c.pwr with overCap := 0 } }).bump .pwrWarns 12).raise Ev.thermWarn [] 256

/-- CAP_LOOP_EVALUATION, every 100 ticks (R574). -/
def Chip.capLoop (c : Chip) : Chip :=
  if c.pmbusRuns && c.enabled 0x14 12 && c.due c.pwr.evalAt 100 then
    let step := max 1 (c.fld .pwrGlb 12 [] 7 0)
    let cap := c.pwr.capMv
    let up := (decide (c.pcap < c.pwr.coreW) || c.pwr.warn) && decide (cap < 200)
    let down := decide (c.pwr.coreW + 100 < c.pcap) && !c.pwr.warn
    let cap' := if up then min 200 (cap + step) else if down then cap - step else cap
    let c := { c with pwr := { c.pwr with capMv := cap', evalAt := c.tick } }
    ((c.when up fun c => c.bump .pwrCapSteps 12).setVouts).overCap
  else c

/-- Cause of a rail's fault by its last poll: 3 three silent polls, 2 its STATUS_WORD, 1 two polls in a
row out of its window; 0 none (R577). A rail that is off is in no window (R568). -/
def railCause (r : Rail) (status : Bool) : Nat :=
  if 3 ≤ r.silent then 3 else if status then 2 else if 2 ≤ r.bad then 1 else 0

/-- One rail's poll: READ_VOUT, READ_IOUT, READ_POUT, STATUS_WORD, and a VOUT write that waits. -/
def Chip.pollRail (c : Chip) (n : Nat) (x : RailPoll) : Chip :=
  let r := c.rail n
  let r' :=
    if x.answered then
      let far := decide (r.command + 40 < x.vout) || decide (x.vout + 40 < r.command)
      let judged := !r.pending && c.due r.wroteAt 200
      { r with vout := x.vout, iout := x.iout, pout := x.pout, silent := 0,
               bad := if judged then (if far then r.bad + 1 else 0) else r.bad }
    else { r with silent := r.silent + 1 }
  let cause := if !r.on then r.fault else railCause r' (x.answered && x.statusFault)
  let c := c.setRail n { r' with fault := cause }
  let c :=
    if x.answered then (if r.pending then c.writeVout n r.command else c)
    else c.bump .pwrPmbusErr 12 [] (1 + b2n r.pending)
  if cause ≠ 0 ∧ cause ≠ r.fault then
    let c := c.raise Ev.railFault [] (n + 65536 * cause)
    if c.inService then c.fatal Ev.railFault else c
  else c

/-- PMBUS_POLL, every 50 ticks (R574). -/
def Chip.pmbusPoll (c : Chip) (rails : List RailPoll) : Chip :=
  if c.pmbusRuns && c.due c.pwr.polledAt 50 then
    let c := (rails.take 12).zipIdx.foldl (fun c e => c.pollRail e.2 e.1) c
    let w := ((List.range 12).map fun n => (c.rail n).pout).sum
    { c with pwr := { c.pwr with coreW := w, polledAt := c.tick } }
  else c

def Chip.warnC (c : Chip) : Nat := min 110 (c.fld .pwrGlb 12 [] 15 8)

/-- The dies' temperatures: WARN is 1 from WARN_C until WARN_C - 5 (R574, R578). -/
def Chip.thermWarn (c : Chip) (temps : List Nat) : Chip :=
  if c.pmbusRuns then
    let ts : KMap Nat := (temps.take 12).zipIdx.map fun e => (e.2, e.1)
    let c := { c with pwr := { c.pwr with temps := ts } }
    if c.pwr.warn then
      (if c.tjMax + 5 ≤ c.warnC then { c with pwr := { c.pwr with warn := false } } else c)
    else if c.warnC ≤ c.tjMax then
      (({ c with pwr := { c.pwr with warn := true } }).bump .pwrWarns 12).raise Ev.thermWarn []
    else c
  else c

/-- THERM_TRIP: CAP_MV 200 at once, and fatal. -/
def Chip.thermTrip (c : Chip) (die temp : Nat) : Chip :=
  if c.pmbusRuns && decide (die < 12) && decide (115 ≤ temp) then
    let ts := kput c.pwr.temps die temp
    let c := { c with pwr := { c.pwr with temps := ts, capMv := 200 } }
    let c := if c.enabled 0x14 12 then c.setVouts else c
    (c.raise Ev.thermTrip []).fatal Ev.thermTrip
  else c

end Sys2Proof.Machine
end

