-- ==== Sys2Proof/Machine/SystemRows.lean ====
section
/-! DEFINITION. The rows of security and partition timers, interrupts, power, control space and the slow clock: one definition for each. -/

namespace Sys2Proof.Machine

/-- REVOKE_RETIRE_DONE (R436). -/
def execRevokeRetireDone (slot : Nat) (s : State) : Host.Outcome State Fault Refusal :=
  act s (s.chip.retireDone slot)

/-- REVOKE_SLOW (R436). -/
def execRevokeSlow (slot : Nat) (s : State) : Host.Outcome State Fault Refusal :=
  act s (s.chip.revokeSlow slot)

/-- DRAIN_END (R464). -/
def execDrainEnd (part : Nat) (s : State) : Host.Outcome State Fault Refusal :=
  act s (s.chip.drainEnd part)

/-- DRAIN_TIMEOUT (R464). -/
def execDrainTimeout (part : Nat) (s : State) : Host.Outcome State Fault Refusal :=
  act s (s.chip.drainTimeout part)

/-- PARTITION_SWEEP_DONE (R415). -/
def execPartitionSweepDone (part : Nat) (s : State) : Host.Outcome State Fault Refusal :=
  act s (s.chip.partSwept part)

/-- IRQ_ACK (R471). -/
def execIrqAck (m : Master) (core : Nat) (s : State) : Host.Outcome State Fault Refusal :=
  act s (s.chip.busLoad s.snap m ((Reg.irqAck).addr 12 [core]))

/-- IRQ_EOI (R472). -/
def execIrqEoi (m : Master) (core : Nat) (value : Word) (s : State) : Host.Outcome State Fault Refusal :=
  act s (s.chip.busStore m ((Reg.irqEoi).addr 12 [core]) value)

/-- MOD_INT_EXPIRY (R473). -/
def execModIntExpiry (core : Nat) (s : State) : Host.Outcome State Fault Refusal :=
  act s (s.chip.modIntExpiry core)

/-- IRQ_SW_SET (R484). -/
def execIrqSwSet (m : Master) (value : Word) (s : State) : Host.Outcome State Fault Refusal :=
  act s (s.chip.busStore m ((Reg.irqSwSet).addr 12 []) value)

/-- IRQ_CORE_CFG_WRITE (R470). -/
def execIrqCoreCfgWrite (m : Master) (core : Nat) (value : Word) (s : State) : Host.Outcome State Fault Refusal :=
  act s (s.chip.busStore m ((Reg.irqCoreCfg).addr 12 [core]) value)

/-- IRQ_VEC_CFG_WRITE (R487). -/
def execIrqVecCfgWrite (m : Master) (part vec : Nat) (value : Word) (s : State) : Host.Outcome State Fault Refusal :=
  act s (s.chip.busStore m ((Reg.irqVecCfg).addr 12 [part, vec]) value)

/-- PMBUS_POLL (R577). -/
def execPmbusPoll (rails : List RailPoll) (s : State) : Host.Outcome State Fault Refusal :=
  act s (s.chip.pmbusPoll rails)

/-- CAP_LOOP_EVALUATION (R574). -/
def execCapLoopEvaluation (s : State) : Host.Outcome State Fault Refusal :=
  act s (s.chip.capLoop)

/-- THERM_WARN (R578). -/
def execThermWarn (temps : List Nat) (s : State) : Host.Outcome State Fault Refusal :=
  act s (s.chip.thermWarn temps)

/-- THERM_TRIP (R578). -/
def execThermTrip (die temp : Nat) (s : State) : Host.Outcome State Fault Refusal :=
  act s (s.chip.thermTrip die temp)

/-- REGISTER_WRITE (R591). -/
def execRegisterWrite (m : Master) (addr : Nat) (value : Word) (s : State) : Host.Outcome State Fault Refusal :=
  act s (s.chip.busStore m addr value)

/-- COUNTER_LO_READ (R599). -/
def execCounterLoRead (m : Master) (addr : Nat) (s : State) : Host.Outcome State Fault Refusal :=
  act s (s.chip.busLoad s.snap m addr)

/-- CONTROL_ACCESS_TIMEOUT (R589). -/
def execControlAccessTimeout (m : Master) (addr : Nat) (write : Bool) (s : State) : Host.Outcome State Fault Refusal :=
  act s (s.chip.ctlTimeout m addr write)

/-- DEV_SHD_HOLD_WRITE (R603). -/
def execDevShdHoldWrite (m : Master) (value : Word) (s : State) : Host.Outcome State Fault Refusal :=
  act s (s.chip.busStore m ((Reg.devShdHold).addr 12 []) value)

/-- SHD_HOLD_EXPIRY (R603). -/
def execShdHoldExpiry (s : State) : Host.Outcome State Fault Refusal :=
  act s (s.chip.holdExpiry)

/-- TRI_PERIODIC_VOTE (R595). -/
def execTriPeriodicVote (upsets : List Upset) (s : State) : Host.Outcome State Fault Refusal :=
  act s (s.chip.triVote upsets)

/-- MGT_RX_CFG_WRITE (R544). -/
def execMgtRxCfgWrite (m : Master) (part : Nat) (value : Word) (s : State) : Host.Outcome State Fault Refusal :=
  act s (s.chip.busStore m ((Reg.mgtRxCfg).addr 12 [part]) value)

/-- SHADOW_REFRESH (R596). -/
def execShadowRefresh (s : State) : Host.Outcome State Fault Refusal :=
  if s.chip.clockRuns then
    let c := s.chip.clockEdge.settle
    .next { s with chip := c, snap := c.refresh s.snap }
  else .next s

end Sys2Proof.Machine
end

