-- ==== Sys2Proof/Machine/Dispatch.lean ====
section
/-! DEFINITION. One arm per command: the direct call of its meaning. -/

namespace Sys2Proof.Machine

/-- The effect of one command on everything but the queue. -/
def exec (i : Instr) (s : State) : Host.Outcome State Fault Refusal :=
  match i with
  | .powerOkRise => Sys2Proof.Machine.execPowerOkRise s
  | .resetHoldEnd => Sys2Proof.Machine.execResetHoldEnd s
  | .powerOkFall => Sys2Proof.Machine.execPowerOkFall s
  | .resetNFall => Sys2Proof.Machine.execResetNFall s
  | .resetNRise => Sys2Proof.Machine.execResetNRise s
  | .smbusResetRequest cmd dat => Sys2Proof.Machine.execSmbusResetRequest cmd dat s
  | .smbusBlockRead addr => Sys2Proof.Machine.execSmbusBlockRead addr s
  | .jtagInstruction op => Sys2Proof.Machine.execJtagInstruction op s
  | .rombootSelfCheckDone mcA mcB => Sys2Proof.Machine.execRombootSelfCheckDone mcA mcB s
  | .sfdpReadDone valid mode density => Sys2Proof.Machine.execSfdpReadDone valid mode density s
  | .imageLoadDone image => Sys2Proof.Machine.execImageLoadDone image s
  | .verifyDone puf0 puf1 puf2 => Sys2Proof.Machine.execVerifyDone puf0 puf1 puf2 s
  | .coreRailCheck vout => Sys2Proof.Machine.execCoreRailCheck vout s
  | .bringupWorkDone work => Sys2Proof.Machine.execBringupWorkDone work s
  | .ethLinkUp => Sys2Proof.Machine.execEthLinkUp s
  | .heartbeatSend => Sys2Proof.Machine.execHeartbeatSend s
  | .mcFailover => Sys2Proof.Machine.execMcFailover s
  | .heartbeatLost => Sys2Proof.Machine.execHeartbeatLost s
  | .stewardPulse mc => Sys2Proof.Machine.execStewardPulse mc s
  | .stewardComplexLost mc => Sys2Proof.Machine.execStewardComplexLost mc s
  | .stewardDrainEnd => Sys2Proof.Machine.execStewardDrainEnd s
  | .recoveryDrainEnd => Sys2Proof.Machine.execRecoveryDrainEnd s
  | .dumpDone trace => Sys2Proof.Machine.execDumpDone trace s
  | .pauseFrame => Sys2Proof.Machine.execPauseFrame s
  | .arpRequest tagged targetIp senderMac senderIp => Sys2Proof.Machine.execArpRequest tagged targetIp senderMac senderIp s
  | .neighborSolicitation tagged targetIp senderMac senderIp => Sys2Proof.Machine.execNeighborSolicitation tagged targetIp senderMac senderIp s
  | .icmpEcho tagged v6 dstIp srcIp echo => Sys2Proof.Machine.execIcmpEcho tagged v6 dstIp srcIp echo s
  | .ethFrameDiscard => Sys2Proof.Machine.execEthFrameDiscard s
  | .hello src kind pub nonce => Sys2Proof.Machine.execHello src kind pub nonce s
  | .helloReply src session pub nonce serial devSigned devSig sig => Sys2Proof.Machine.execHelloReply src session pub nonce serial devSigned devSig sig s
  | .auth rec => Sys2Proof.Machine.execAuth rec s
  | .data rec => Sys2Proof.Machine.execData rec s
  | .close rec => Sys2Proof.Machine.execClose rec s
  | .handshakeTimeout hs => Sys2Proof.Machine.execHandshakeTimeout hs s
  | .sessionIdleTimeout sess => Sys2Proof.Machine.execSessionIdleTimeout sess s
  | .reassemblyTimeout sess reqId => Sys2Proof.Machine.execReassemblyTimeout sess reqId s
  | .nop sess reqId => Sys2Proof.Machine.execNop sess reqId s
  | .devInfo sess reqId => Sys2Proof.Machine.execDevInfo sess reqId s
  | .devStart sess reqId => Sys2Proof.Machine.execDevStart sess reqId s
  | .devTest sess reqId => Sys2Proof.Machine.execDevTest sess reqId s
  | .devReset sess reqId => Sys2Proof.Machine.execDevReset sess reqId s
  | .devResetDelayExpiry => Sys2Proof.Machine.execDevResetDelayExpiry s
  | .quote sess reqId nonce => Sys2Proof.Machine.execQuote sess reqId nonce s
  | .treeNew sess reqId => Sys2Proof.Machine.execTreeNew sess reqId s
  | .quoteTreeReady => Sys2Proof.Machine.execQuoteTreeReady s
  | .bundleOpen sess reqId bundle stageObj => Sys2Proof.Machine.execBundleOpen sess reqId bundle stageObj s
  | .bundleMeta sess reqId bundle offset bytes => Sys2Proof.Machine.execBundleMeta sess reqId bundle offset bytes s
  | .bundleCheck sess reqId bundle => Sys2Proof.Machine.execBundleCheck sess reqId bundle s
  | .bundleData sess reqId bundle chunk off16 len16 bytes => Sys2Proof.Machine.execBundleData sess reqId bundle chunk off16 len16 bytes s
  | .bundleClose sess reqId bundle => Sys2Proof.Machine.execBundleClose sess reqId bundle s
  | .bundleDelete sess reqId bundle => Sys2Proof.Machine.execBundleDelete sess reqId bundle s
  | .keyRelease sess reqId body => Sys2Proof.Machine.execKeyRelease sess reqId body s
  | .bundleKeyDrop sess reqId bundle => Sys2Proof.Machine.execBundleKeyDrop sess reqId bundle s
  | .objRegister sess reqId obj bundle entry part demand => Sys2Proof.Machine.execObjRegister sess reqId obj bundle entry part demand s
  | .objCreate sess reqId obj part kind size => Sys2Proof.Machine.execObjCreate sess reqId obj part kind size s
  | .objLoad sess reqId obj => Sys2Proof.Machine.execObjLoad sess reqId obj s
  | .loadDone obj unreadable => Sys2Proof.Machine.execLoadDone obj unreadable s
  | .objEvict sess reqId obj => Sys2Proof.Machine.execObjEvict sess reqId obj s
  | .objFill sess reqId obj bowls => Sys2Proof.Machine.execObjFill sess reqId obj bowls s
  | .objDrop sess reqId obj bowl => Sys2Proof.Machine.execObjDrop sess reqId obj bowl s
  | .objDelete sess reqId obj => Sys2Proof.Machine.execObjDelete sess reqId obj s
  | .objDemand sess reqId obj demand => Sys2Proof.Machine.execObjDemand sess reqId obj demand s
  | .objQuery sess reqId obj => Sys2Proof.Machine.execObjQuery sess reqId obj s
  | .regionCreate sess reqId part obj base len objOff => Sys2Proof.Machine.execRegionCreate sess reqId part obj base len objOff s
  | .regionRevoke sess reqId handle => Sys2Proof.Machine.execRegionRevoke sess reqId handle s
  | .regionDelete sess reqId handle => Sys2Proof.Machine.execRegionDelete sess reqId handle s
  | .grantAdd sess reqId handle node rights => Sys2Proof.Machine.execGrantAdd sess reqId handle node rights s
  | .grantRemove sess reqId handle node => Sys2Proof.Machine.execGrantRemove sess reqId handle node s
  | .linkExchange sess reqId node kind pub nonce sig cert => Sys2Proof.Machine.execLinkExchange sess reqId node kind pub nonce sig cert s
  | .linkMode sess reqId node mode => Sys2Proof.Machine.execLinkMode sess reqId node mode s
  | .partCreate sess reqId part node => Sys2Proof.Machine.execPartCreate sess reqId part node s
  | .partActivate sess reqId part => Sys2Proof.Machine.execPartActivate sess reqId part s
  | .partReset sess reqId part => Sys2Proof.Machine.execPartReset sess reqId part s
  | .partDelete sess reqId part => Sys2Proof.Machine.execPartDelete sess reqId part s
  | .cmpJob sess reqId die words => Sys2Proof.Machine.execCmpJob sess reqId die words s
  | .jobEnd die => Sys2Proof.Machine.execJobEnd die s
  | .regRead sess reqId addrs => Sys2Proof.Machine.execRegRead sess reqId addrs s
  | .regWrite sess reqId entries => Sys2Proof.Machine.execRegWrite sess reqId entries s
  | .cntRead sess reqId addrs => Sys2Proof.Machine.execCntRead sess reqId addrs s
  | .cntClear sess reqId addrs => Sys2Proof.Machine.execCntClear sess reqId addrs s
  | .dumpInfo sess reqId => Sys2Proof.Machine.execDumpInfo sess reqId s
  | .dumpRead sess reqId offset len => Sys2Proof.Machine.execDumpRead sess reqId offset len s
  | .dumpRelease sess reqId => Sys2Proof.Machine.execDumpRelease sess reqId s
  | .peerSet sess reqId index flags udpPort serial address => Sys2Proof.Machine.execPeerSet sess reqId index flags udpPort serial address s
  | .peerOpen sess reqId index => Sys2Proof.Machine.execPeerOpen sess reqId index s
  | .peerClose sess reqId index => Sys2Proof.Machine.execPeerClose sess reqId index s
  | .handoffOffer sess reqId obj peer dstPart dstObj => Sys2Proof.Machine.execHandoffOffer sess reqId obj peer dstPart dstObj s
  | .handoffExpect sess reqId dstObj peer => Sys2Proof.Machine.execHandoffExpect sess reqId dstObj peer s
  | .handoffQuery sess reqId obj peer epoch => Sys2Proof.Machine.execHandoffQuery sess reqId obj peer epoch s
  | .handoffReclaim sess reqId obj => Sys2Proof.Machine.execHandoffReclaim sess reqId obj s
  | .peerMsg sess msgId msg => Sys2Proof.Machine.execPeerMsg sess msgId msg s
  | .msgAck sess msgId result => Sys2Proof.Machine.execMsgAck sess msgId result s
  | .msgResendTimeout peer msgId => Sys2Proof.Machine.execMsgResendTimeout peer msgId s
  | .hoOffer sess epoch dstObj size offset dstPart last crc bytes => Sys2Proof.Machine.execHoOffer sess epoch dstObj size offset dstPart last crc bytes s
  | .hoAccept sess epoch dstObj => Sys2Proof.Machine.execHoAccept sess epoch dstObj s
  | .hoCommit sess epoch dstObj => Sys2Proof.Machine.execHoCommit sess epoch dstObj s
  | .hoAck sess epoch dstObj acked result => Sys2Proof.Machine.execHoAck sess epoch dstObj acked result s
  | .handoffResendTimeout epoch => Sys2Proof.Machine.execHandoffResendTimeout epoch s
  | .offeredTimeout epoch => Sys2Proof.Machine.execOfferedTimeout epoch s
  | .tentativeTimeout epoch => Sys2Proof.Machine.execTentativeTimeout epoch s
  | .rdNc port vc req => Sys2Proof.Machine.execRdNc port vc req s
  | .rdS port vc req => Sys2Proof.Machine.execRdS port vc req s
  | .rdX port vc req => Sys2Proof.Machine.execRdX port vc req s
  | .wr port vc req => Sys2Proof.Machine.execWr port vc req s
  | .wb port vc req => Sys2Proof.Machine.execWb port vc req s
  | .evict port vc req => Sys2Proof.Machine.execEvict port vc req s
  | .atomic port vc req => Sys2Proof.Machine.execAtomic port vc req s
  | .bstore port vc req => Sys2Proof.Machine.execBstore port vc req s
  | .tstore port vc req => Sys2Proof.Machine.execTstore port vc req s
  | .mstore port vc req => Sys2Proof.Machine.execMstore port vc req s
  | .reduce port vc req => Sys2Proof.Machine.execReduce port vc req s
  | .msg port vc req => Sys2Proof.Machine.execMsg port vc req s
  | .rsp port rsp => Sys2Proof.Machine.execRsp port rsp s
  | .rspTimeout req => Sys2Proof.Machine.execRspTimeout req s
  | .snpRsp port rsp => Sys2Proof.Machine.execSnpRsp port rsp s
  | .lineTransactionEnd line => Sys2Proof.Machine.execLineTransactionEnd line s
  | .reservationExpiry line => Sys2Proof.Machine.execReservationExpiry line s
  | .snoopResend tag => Sys2Proof.Machine.execSnoopResend tag s
  | .snoopTimeout tag => Sys2Proof.Machine.execSnoopTimeout tag s
  | .snoopFilterSweepDone node => Sys2Proof.Machine.execSnoopFilterSweepDone node s
  | .shareWaitResume part die => Sys2Proof.Machine.execShareWaitResume part die s
  | .heldStoreRelease die => Sys2Proof.Machine.execHeldStoreRelease die s
  | .dataFlit port flit => Sys2Proof.Machine.execDataFlit port flit s
  | .idleFlit port hdr => Sys2Proof.Machine.execIdleFlit port hdr s
  | .trainRec port hdr body => Sys2Proof.Machine.execTrainRec port hdr body s
  | .trainAck port hdr body => Sys2Proof.Machine.execTrainAck port hdr body s
  | .retrainReq port hdr body => Sys2Proof.Machine.execRetrainReq port hdr body s
  | .widthReq port hdr body => Sys2Proof.Machine.execWidthReq port hdr body s
  | .accept port hdr body => Sys2Proof.Machine.execAccept port hdr body s
  | .goingDown port hdr body => Sys2Proof.Machine.execGoingDown port hdr body s
  | .ctrlResend port => Sys2Proof.Machine.execCtrlResend port s
  | .ackTimeout port => Sys2Proof.Machine.execAckTimeout port s
  | .framingLockLoss port lanes => Sys2Proof.Machine.execFramingLockLoss port lanes s
  | .fecUncorrectable port symbols => Sys2Proof.Machine.execFecUncorrectable port symbols s
  | .errorWindowEnd port => Sys2Proof.Machine.execErrorWindowEnd port s
  | .laneLock port lane => Sys2Proof.Machine.execLaneLock port lane s
  | .creditTimeout port vc => Sys2Proof.Machine.execCreditTimeout port vc s
  | .trainTimeout port => Sys2Proof.Machine.execTrainTimeout port s
  | .retrainTimeout port => Sys2Proof.Machine.execRetrainTimeout port s
  | .autoRestart port => Sys2Proof.Machine.execAutoRestart port s
  | .restart port => Sys2Proof.Machine.execRestart port s
  | .retrain port => Sys2Proof.Machine.execRetrain port s
  | .narrow port lanes => Sys2Proof.Machine.execNarrow port lanes s
  | .down port => Sys2Proof.Machine.execDown port s
  | .testEnter port => Sys2Proof.Machine.execTestEnter port s
  | .testExit port => Sys2Proof.Machine.execTestExit port s
  | .lnkPortCfgWrite m port value => Sys2Proof.Machine.execLnkPortCfgWrite m port value s
  | .lnkCtrlWrite m die value => Sys2Proof.Machine.execLnkCtrlWrite m die value s
  | .d2dTransferError die link => Sys2Proof.Machine.execD2dTransferError die link s
  | .d2dFault die link => Sys2Proof.Machine.execD2dFault die link s
  | .auditStart die => Sys2Proof.Machine.execAuditStart die s
  | .markPhaseEnd die => Sys2Proof.Machine.execMarkPhaseEnd die s
  | .auditSweepEnd die => Sys2Proof.Machine.execAuditSweepEnd die s
  | .gateEntryEnd port => Sys2Proof.Machine.execGateEntryEnd port s
  | .bankSwitchRequest m port value => Sys2Proof.Machine.execBankSwitchRequest m port value s
  | .queueSample port => Sys2Proof.Machine.execQueueSample port s
  | .setTimeout die window slot => Sys2Proof.Machine.execSetTimeout die window slot s
  | .kernelLaunch die silent => Sys2Proof.Machine.execKernelLaunch die silent s
  | .tileFillDone fill core => Sys2Proof.Machine.execTileFillDone fill core s
  | .refetchDone fill core => Sys2Proof.Machine.execRefetchDone fill core s
  | .kernelRunEnd launch => Sys2Proof.Machine.execKernelRunEnd launch s
  | .watchdog launch => Sys2Proof.Machine.execWatchdog launch s
  | .residueError core ctx slot row col a b product mon => Sys2Proof.Machine.execResidueError core ctx slot row col a b product mon s
  | .coreStoreEccError core ctx slot word correctable mon => Sys2Proof.Machine.execCoreStoreEccError core ctx slot word correctable mon s
  | .autoSubstitution core => Sys2Proof.Machine.execAutoSubstitution core s
  | .scrubDone core => Sys2Proof.Machine.execScrubDone core s
  | .bowlTimeout launch => Sys2Proof.Machine.execBowlTimeout launch s
  | .checkRunEnd launch mon => Sys2Proof.Machine.execCheckRunEnd launch mon s
  | .checkTimeout launch => Sys2Proof.Machine.execCheckTimeout launch s
  | .serviceReport part => Sys2Proof.Machine.execServiceReport part s
  | .corCoreStateWrite m core value => Sys2Proof.Machine.execCorCoreStateWrite m core value s
  | .corBowlDescWrite m bowl value => Sys2Proof.Machine.execCorBowlDescWrite m bowl value s
  | .windowEntryWrite m query window value => Sys2Proof.Machine.execWindowEntryWrite m query window value s
  | .indexTableWrite m index value => Sys2Proof.Machine.execIndexTableWrite m index value s
  | .outputSegment launch => Sys2Proof.Machine.execOutputSegment launch s
  | .stagingGranted kind engine => Sys2Proof.Machine.execStagingGranted kind engine s
  | .opTimeout op => Sys2Proof.Machine.execOpTimeout op s
  | .engCfgWrite m kind engine value => Sys2Proof.Machine.execEngCfgWrite m kind engine value s
  | .stackFailed stack cause => Sys2Proof.Machine.execStackFailed stack cause s
  | .dramReadError pool corrected ricer otherBad flash => Sys2Proof.Machine.execDramReadError pool corrected ricer otherBad flash s
  | .memFailCmd m value => Sys2Proof.Machine.execMemFailCmd m value s
  | .memCtrlWrite m value => Sys2Proof.Machine.execMemCtrlWrite m value s
  | .spareInduction => Sys2Proof.Machine.execSpareInduction s
  | .pass1End => Sys2Proof.Machine.execPass1End s
  | .rebuildDone => Sys2Proof.Machine.execRebuildDone s
  | .flashFailed stack => Sys2Proof.Machine.execFlashFailed stack s
  | .sifterOpStart bowl => Sys2Proof.Machine.execSifterOpStart bowl s
  | .search op => Sys2Proof.Machine.execSearch op s
  | .insert op => Sys2Proof.Machine.execInsert op s
  | .delete op => Sys2Proof.Machine.execDelete op s
  | .compact op => Sys2Proof.Machine.execCompact op s
  | .queryTimeout op => Sys2Proof.Machine.execQueryTimeout op s
  | .revokeRetireDone slot => Sys2Proof.Machine.execRevokeRetireDone slot s
  | .revokeSlow slot => Sys2Proof.Machine.execRevokeSlow slot s
  | .drainEnd part => Sys2Proof.Machine.execDrainEnd part s
  | .drainTimeout part => Sys2Proof.Machine.execDrainTimeout part s
  | .partitionSweepDone part => Sys2Proof.Machine.execPartitionSweepDone part s
  | .irqAck m core => Sys2Proof.Machine.execIrqAck m core s
  | .irqEoi m core value => Sys2Proof.Machine.execIrqEoi m core value s
  | .modIntExpiry core => Sys2Proof.Machine.execModIntExpiry core s
  | .irqSwSet m value => Sys2Proof.Machine.execIrqSwSet m value s
  | .irqCoreCfgWrite m core value => Sys2Proof.Machine.execIrqCoreCfgWrite m core value s
  | .irqVecCfgWrite m part vec value => Sys2Proof.Machine.execIrqVecCfgWrite m part vec value s
  | .pmbusPoll rails => Sys2Proof.Machine.execPmbusPoll rails s
  | .capLoopEvaluation => Sys2Proof.Machine.execCapLoopEvaluation s
  | .thermWarn temps => Sys2Proof.Machine.execThermWarn temps s
  | .thermTrip die temp => Sys2Proof.Machine.execThermTrip die temp s
  | .registerWrite m addr value => Sys2Proof.Machine.execRegisterWrite m addr value s
  | .counterLoRead m addr => Sys2Proof.Machine.execCounterLoRead m addr s
  | .controlAccessTimeout m addr write => Sys2Proof.Machine.execControlAccessTimeout m addr write s
  | .devShdHoldWrite m value => Sys2Proof.Machine.execDevShdHoldWrite m value s
  | .shdHoldExpiry => Sys2Proof.Machine.execShdHoldExpiry s
  | .triPeriodicVote upsets => Sys2Proof.Machine.execTriPeriodicVote upsets s
  | .cohProbe m die value => Sys2Proof.Machine.execCohProbe m die value s
  | .cohSharerWrite m slot value => Sys2Proof.Machine.execCohSharerWrite m slot value s
  | .gtxStreamWrite m stream value => Sys2Proof.Machine.execGtxStreamWrite m stream value s
  | .gtxNodeWrite m node value => Sys2Proof.Machine.execGtxNodeWrite m node value s
  | .swcPartShareWrite m die part value => Sys2Proof.Machine.execSwcPartShareWrite m die part value s
  | .mgtRxCfgWrite m part value => Sys2Proof.Machine.execMgtRxCfgWrite m part value s
  | .flitSend port => Sys2Proof.Machine.execFlitSend port s
  | .shadowRefresh => Sys2Proof.Machine.execShadowRefresh s
  | .powerApplied => Sys2Proof.Machine.execPowerApplied s
  | .powerRemoved => Sys2Proof.Machine.execPowerRemoved s
  | .crystalStopped => Sys2Proof.Machine.execCrystalStopped s
  | .patternCheckerLock die lane => Sys2Proof.Machine.execPatternCheckerLock die lane s
  | .channelRetrainingAttempt stack channel ok => Sys2Proof.Machine.execChannelRetrainingAttempt stack channel ok s
  | .ethLinkDown => Sys2Proof.Machine.execEthLinkDown s

end Sys2Proof.Machine
end

