-- ==== Sys2Proof/Safety.lean ====
section
/-! DEFINITION. What a safe run is, and the words the statements use: a step that goes on, the canonical
form of the sparse tables, a state with nothing left over from earlier steps, a session that asks, the
device as a reset leaves it. -/

namespace Sys2Proof

open Machine

/-- A step that goes on. -/
def Runs (s : State) : Prop := ∃ t, step s = .next t

/-- The keys of a sparse table rise strictly. -/
abbrev Rising {α : Type} (m : KMap α) : Prop := (m.map (·.1)).Pairwise (· < ·)

/-- The canonical form of a byte memory: addresses strictly rising, no entry equal to what an unlisted
address reads as. -/
abbrev Memory.wf (m : KMap Byte) : Prop := Rising m ∧ ∀ e ∈ m, e.2 ≠ 0

namespace Machine

/-- No query set waits for admission, and no search for a compaction uncounted. -/
@[reducible] def Chip.Admitted (c : Chip) : Prop := ∀ o ∈ c.sft.ops, o.phase ≠ 4 ∧ c.newWait o = false

/-- No fill has nothing left to bring, no check run waits for a bowl, and no context for output credit. -/
@[reducible] def Chip.Rested (c : Chip) : Prop :=
  (∀ f ∈ c.dsp.fills, f.over = false) ∧ (∀ k ∈ c.dsp.checks, k.waits = false) ∧
  ∀ e ∈ c.cores.ctx, e.2.wantsCredit = false

/-- Nothing waits that a step would deal with besides its command: no request of the device to its own
nodes, no news of a message handed over early, no query set, fill, check run or context that might go on, no
held CMP_CTRL write, no placement command in progress. -/
@[reducible] def Chip.Still (c : Chip) : Prop :=
  c.gtx.localQ = [] ∧ (∀ h ∈ c.ctl.held, ∀ d < 8, h.1 ≠ (Reg.cmpCtrl).addr d) ∧ c.mgt.place = [] ∧ c.gtx.cuts = [] ∧
  c.Admitted ∧ c.Rested

/-- As `Still`, but the placement commands `ps` are in progress. -/
@[reducible] def Chip.StillWith (c : Chip) (ps : List PlaceCmd) : Prop :=
  c.mgt.place = ps ∧ ({ c with mgt := { c.mgt with place := [] } } : Chip).Still

/-- No work of R463 is in progress, and no write waits for it. -/
@[reducible] def Chip.Idle (c : Chip) : Prop :=
  c.Still ∧ c.dsp.launches = [] ∧ c.dsp.sets = [] ∧ c.dsp.checks = [] ∧ c.dsp.fills = [] ∧ c.eng.ops = [] ∧
  c.sft.ops = [] ∧ c.mem.loads = [] ∧ c.mem.jobs = [] ∧ c.gtx.pends = [] ∧ c.gtx.shareWait = [] ∧
  c.gtx.tstores = [] ∧ c.gtx.held = [] ∧ c.gtx.mstores = [] ∧ c.gtx.devReqs = [] ∧ c.gtx.devHeld = [] ∧
  c.mgt.queue = [] ∧ c.cores.bowlHeld = []

/-- What a fatal error leaves besides its event: step 2 of R551 in RECOVERY. -/
def Chip.recovering (c : Chip) (ev : Nat) : Chip :=
  { c with
    dump := { c.dump with cause := ev, fromState := c.boot.state, at_ := c.tick, step := 2 }
    pins := { c.pins with faultN := true }
    boot := { c.boot with state := .recovery, times := kput c.boot.times 9 c.tick } }

/-- The boot has not yet set BOOT_CTRL.ENABLE (step 7 of R501), and no session exists. -/
@[reducible] def Chip.Booting (c : Chip) : Prop :=
  c.Still ∧ bit (c.reg .bootCtrl 12) 0 = false ∧ c.mgt.sessions = [] ∧ c.mgt.handshakes = []

/-- What RESET leaves: the pins given, the bundles in flash, and the model's own counter of open values. -/
def Chip.inReset (c : Chip) (p : Pins) : Chip :=
  { Chip.reset with pins := p, mem := { bundles := c.mem.bundles }, draws := c.draws }

/-- The owner session `x` asks for `opc` under a new REQ_ID: no request of it waits, fewer than 64 run,
and the device state allows the opcode (R525, R527, R528). -/
@[reducible] def Chip.Asks (c : Chip) (sess reqId opc : Nat) (x : Session) : Prop :=
  c.session? sess = some x ∧ x.kind = 0 ∧ x.ready = [] ∧ (x.cache.find? fun e => e.1 == reqId) = none ∧
  (x.running.any fun r => r.reqId == reqId) = false ∧ x.running.length < 64 ∧
  ((c.boot.state = .test ∨ c.boot.state = .recovery) → quietOpcs.contains opc = true)

/-- The newest entry of a session's reply cache: REQ_ID, opcode, STATUS, DETAIL, body (R528). -/
def Chip.lastReply (c : Chip) (sess : Nat) : Option (Nat × Nat × Nat × Nat × Bytes) :=
  (c.session? sess).bind fun x => x.cache.head?

/-- `c` with the sessions' and the counters' part of `d`: what answering a command may change. -/
def Chip.answering (c d : Chip) : Chip :=
  { c with mgt := d.mgt, ctl := { c.ctl with cnt := d.ctl.cnt, sat := d.ctl.sat, satEv := d.ctl.satEv } }

/-- `c` with the interrupt controller and the counters of `d`: what an event to firmware may change. -/
def Chip.raising (c d : Chip) : Chip :=
  { c with irq := d.irq, ctl := { c.ctl with cnt := d.ctl.cnt, sat := d.ctl.sat, satEv := d.ctl.satEv } }

/-- `c` with the interrupt controller, the sessions and the counters of `d`: what an event of a partition
may change while no vector writes a ring. -/
def Chip.noting (c d : Chip) : Chip :=
  { c with irq := d.irq, mgt := d.mgt, ctl := { c.ctl with cnt := d.ctl.cnt, sat := d.ctl.sat, satEv := d.ctl.satEv } }

/-- Every armed vector notifies through Rinlidal, none through a ring in an endpoint's memory (R475). -/
@[reducible] def Chip.NoRings (c : Chip) : Prop :=
  ∀ p < 64, ∀ v < 8, bit (c.reg .irqVecCfg 12 [p, v]) 31 = true → bit (c.reg .irqVecCfg 12 [p, v]) 30 = true

/-- The word that a privileged master's write of `v` leaves in a register, by its fields' access codes (R591). -/
@[reducible] def Chip.written (c : Chip) (r : Reg) (die : Nat) (i : List Nat) (v : Word) : Nat := (c.codes r die i v.toNat true).word

/-- The command answers the next state whose module is `c`, the SHD copies and the queue as they were. -/
def Becomes (s : State) (i : Instr) (c : Chip) : Prop := exec i s = .next { s with chip := c }

/-- The command answers the next state whose module is `c` once what `c` leaves over is dealt with. -/
def Settles (s : State) (i : Instr) (c : Chip) : Prop := exec i s = .next { s with chip := c.settle }

/-- The port holds no message of its own: none queued, in progress or arriving, and no request of the module went
out on it. -/
@[reducible] def Chip.LinkEmpty (c : Chip) (p : Nat) : Prop :=
  (c.port p).queue = [] ∧ (∀ m ∈ (c.port p).curMsg, m = none) ∧ (∀ k ∈ (c.port p).rxCells, k = []) ∧
  ((∀ k ∈ (c.port p).rxMode, k = .whole) ∧ ∀ m ∈ (c.port p).inbox, m.lost = none) ∧
  ∀ d ∈ c.gtx.devReqs, d.port ≠ some p

/-- No message waits for the port: the children of its arbiters have lost their deficits (R367). -/
def Chip.portIdle (c : Chip) (p : Nat) : Chip :=
  let tree (e : Nat × Nat) : Nat := e.1 / childMax / 16
  { c with swc := { c.swc with deficit := c.swc.deficit.filter fun e => tree e / 8 != p && tree e != snoopTree p } }

/-- A port that held no message has entered FAILED or DOWN (R316, R327, R332): its lanes, training, replay
and keys are gone, and link credit that messages from it still hold returns to nobody. -/
def Chip.linkGone (c : Chip) (p : Nat) (st : LinkState) (cause : Nat) : Chip :=
  ((c.modPort p fun q => { q with
    st := st, cause := cause, enterTick := c.tick, enterPcs := q.pcs, lanes := 0, locked := 0, recSeen := false
    acked := false, resumeAck := false, kept := [], resend := [], own := none, withdrawn := none, ctrlTx := []
    queue := [], cur := [[], [], [], []], curMsg := [none, none, none, none], rx := [[], [], [], []]
    rxCells := [[], [], [], []]
    rxMode := List.replicate 4 .whole, rxWait := [[], [], [], []]
    rxFlits := [0, 0, 0, 0], nakPending := false, sendNak := false, keys := none, nextKeys := none, laterKeys := none
    headTag := List.replicate 8 false
    inbox := q.inbox.filterMap InMsg.stays }).stripCred p).portIdle p

/-- Every message that waits whole at the port has a row of its own (R279). -/
@[reducible] def Chip.NoStrays (c : Chip) (p : Nat) : Prop :=
  ∀ vc r k n, InMsg.req vc r k n ∈ (c.port p).inbox → vc < 2 ∧ knownReq r.opc = true

/-- The command answers a next state in which its session has the answer `st` with body `b`, and all but
the sessions and counters is as `c` says of that state. -/
def CompletesWith (s : State) (i : Instr) (sess reqId opc st : Nat) (b : Bytes) (c : Chip → Chip) : Prop :=
  ∃ t, exec i s = .next t ∧ t.chip.lastReply sess = some (reqId, opc, st, 0, b) ∧
    t.chip = (c t.chip).answering t.chip ∧ t.snap = s.snap ∧ t.pending = s.pending

/-- The command answers a next state that is `c` but for the interrupt controller and counters: an event went
to firmware. -/
def RaisesTo (s : State) (i : Instr) (c : Chip) : Prop :=
  ∃ t, exec i s = .next t ∧ t.chip = c.raising t.chip ∧ t.snap = s.snap ∧ t.pending = s.pending

/-- The command answers a next state that is `c` but for the interrupt controller, the sessions and counters:
an event went to firmware and to partitions. -/
def NotesTo (s : State) (i : Instr) (c : Chip) : Prop :=
  ∃ t, exec i s = .next t ∧ t.chip = c.noting t.chip ∧ t.snap = s.snap ∧ t.pending = s.pending

/-- The command answers a next state in which it goes on running on its session with argument `arg`. -/
def RunsOn (s : State) (i : Instr) (sess reqId opc arg : Nat) (c : Chip) : Prop :=
  exec i s = .next { s with chip := c.modSession sess fun x =>
    { x with running := x.running ++ [{ reqId := reqId, opc := opc, arg := arg }] } }

/-! ### Gyori requests -/

/-- The node is reached over port `p`. -/
def NodeKind.through (k : NodeKind) (p : Nat) : Bool :=
  match k with
  | .ports a b => a == p || b == p
  | _ => false

/-- The source is the test node of a device in TEST (R440). -/
@[reducible] def Chip.tests (c : Chip) (src : Nat) : Bool :=
  c.boot.state = .test && (let w := c.reg .secTestNode 12; bit w 31 && bits w 11 0 == src)

/-- Checks 1 to 6 take request `r` of a source behind port `p` to partition `q` (R279, R288, R399), no copy of it
waits at the port and the port's policers are off. -/
@[reducible] def Chip.Takes (c : Chip) (p q : Nat) (r : Req) : Prop :=
  c.portExists p = true ∧ c.usable p = true ∧ (c.port p).findReq p (opcVc r.opc) r = none ∧ c.moves p = true ∧ c.enabled 3 12 = true ∧ c.tshOn p = false ∧
  formOk (opcVc r.opc) r = true ∧ (needsSharer r.opc = true → c.enabled 6 12 = true ∧ (c.sharer? r.src).isSome = true) ∧
  c.node (nodeOf r.addr) = .here q ∧ (c.node r.src).through p = true ∧
  (c.inService = true ∨ c.tests r.src = true) ∧ c.mcs.stewardAt = none ∧ c.srcLost r.src = false ∧
  (kgetD c.parts q {}).st = .active

/-- A reissue is counted (R303). -/
def Chip.reissued (c : Chip) (q : Nat) (r : Req) : Chip := if r.re then c.bump .gtxReissued 12 [q] else c

/-- Extended sequence number of a TAG (R295). -/
def extSeq (h : Option Nat) (t : Nat) : Nat :=
  match h with
  | none => 0x10000 + t
  | some h =>
    let d := (t + 0x10000 - h % 0x10000) % 0x10000
    if d < 0x8000 then h + d else h + d - 0x10000

/-- A logged request has arrived: its payload is in cells of its port, it has crossed to the die that holds
its stream's log, and its slot of the log of stream `i` is in progress (R295, R296). -/
def Chip.logs (c : Chip) (p q i : Nat) (r : Req) : Chip :=
  let a := c.allocCells (portDie p) (cdiv r.payload.length 256) (portLocal p)
  let home := match c.node r.src with
    | .ports a _ => portDie a
    | _ => portDie p
  let d := (a.1.reissued q r).cross (portDie p) home (pathHash r.addr r.tag r.src (nodeOf r.addr))
  let st := c.stream i
  let e := extSeq st.h r.tag
  (d.setStream i { st with h := some (max (st.h.getD e) e), log := kput st.log (e % 1024) { seq := e } }).takeId

/-- The TAG is neither stale nor in the log of its stream (R295). -/
@[reducible] def Chip.FreshTag (c : Chip) (i : Nat) (r : Req) : Prop :=
  let st := c.stream i
  let e := extSeq st.h r.tag
  st.held = none ∧ st.h.getD e < e + 1024 ∧ (kfind? st.log (e % 1024)).all (fun x => x.seq != e) = true

/-- A request that check 10 let through: it is counted, its cells pass to its partition's share, and it has
crossed to the dies that hold its lines (R288, R310, R350). -/
def Chip.admitted (c : Chip) (p : Nat) (x : Pend) : Chip :=
  ((c.bump (if opcVc x.req.opc = 0 then .gtxLineReq else .gtxBulkReq) 12 [x.part]).chargeCells x.cells (64 + x.part)).crossings
    x (portDie p)

/-- The partition's share takes the request's cells on the die of port `p`, and none of its class waits for it
there (R20, R350). -/
@[reducible] def Chip.Fits (c : Chip) (p q opc n : Nat) : Prop := c.shareWaits (portDie p) q opc n = false

/-- The coherent home acts on the line: the object is writable and its die's slice enabled (R396). -/
@[reducible] def Chip.homes (c : Chip) (x : Pend) (pl : Nat) : Bool := (c.obj x.obj).writable && c.enabled 6 (c.lineDie pl)

/-- The switch cores bring the request to the line's home, which gives it VC0 credit, and home agents admit pool
accesses (R224, R363, R369, R406). -/
@[reducible] def Chip.Reaches (c : Chip) (x : Pend) (pl : Nat) : Prop :=
  c.lineOpen x pl = true ∧ c.noVc0 x pl = false ∧ c.enabled 7 12 = true

/-- The request has its bytes of the line and reaches it (R353), nothing of the tier keeps it waiting (R19, R218), no
transaction, waiter or reservation stands on the line, and no sharer has it. -/
@[reducible] def Chip.FreeLine (c : Chip) (x : Pend) (l : Nat × Nat) : Prop :=
  x.awaits l.2 = false ∧ c.Reaches x l.1 ∧ (c.obj x.obj).st ≠ 5 ∧ c.tierStall x l.2 = none ∧
  (c.homes x l.1 = true → c.lineQ l.1 = {} ∧ c.ent? l.1 = none)

/-- The request's effect on one such line, looked up in the home's directory. -/
def Chip.onLine (c : Chip) (x : Pend) (l : Nat × Nat) : Chip × Pend :=
  (if c.homes x l.1 then c.bump .cohLookups (c.lineDie l.1) else c).lineEffect x l.2

/-- A REDUCE that has met data it cannot read goes no further (R290). -/
@[reducible] def Pend.broken (x : Pend) : Prop := x.req.opc = 11 ∧ x.dataErr = true

/-- The effect on lines, in order. -/
def Chip.onLines (c : Chip) (x : Pend) : List (Nat × Nat) → Chip × Pend
  | [] => (c, { x with lines := [] })
  | l :: t =>
    let r := c.onLine { x with lines := l :: t } l
    if r.2.broken then r else r.1.onLines r.2 t

/-- Each line is free when the request comes to it. -/
@[reducible] def Chip.FreeLines (c : Chip) (x : Pend) : List (Nat × Nat) → Prop
  | [] => True
  | l :: t => c.FreeLine x l ∧ (let r := c.onLine { x with lines := l :: t } l; r.2.broken ∨ r.1.FreeLines r.2 t)

/-- The part for die `k` of a trigger store that lies in one set of window `w`, with its queue entries (R357). -/
def Chip.wholePart (c : Chip) (x : Pend) (w : Win) (k : Nat) : HeldStore :=
  let a := offOf x.req.addr - w.base
  { die := k, win := w.idx, slot := a / w.setBytes, off := a % w.setBytes, bytes := x.req.payload, pend := x.id, part := x.part
    src := ((x.cells.head?).map cellDie).getD 8, bowls := c.winBowls w k }

/-- A part has been marked: it took its queue entries' references to the store's cells, was marked, and gave them up
(R82, R356). -/
def Chip.partMarked (c : Chip) (w : Win) (cells : List Nat) (h : HeldStore) : Chip :=
  ((c.takeRefs (h.refs cells)).markPart w h.slot h.die h.off h.bytes (cellsOf cells 0 h.bytes.length)).releaseCells
    (h.refs cells)

/-- Each part is taken at once: REF has room for it, its slot is not CLOSED, the die has room for one more open set,
the switch cores bring it there, and it does not fill the set (R82, R84, R358, R363). -/
@[reducible] def Chip.Marks (w : Win) (cells : List Nat) (c : Chip) : List HeldStore → Prop
  | [] => True
  | h :: t =>
    let d := c.takeRefs (h.refs cells)
    c.refsFit (cellsOf cells 0 h.bytes.length) (max 1 h.bowls.length + 1) = true ∧
    d.partHeld w h.slot h.die = false ∧ d.pathOpen h.src h.die 0 = true ∧
    (markBytes (d.slot (w.key h.slot h.die)).bytes h.off h.bytes).1.length ≠ w.setBytes ∧
    Chip.Marks w cells (c.partMarked w cells h) t

/-! ### Kernels -/

/-- A launch that feeds no engine is given up: its run and streams end, it is counted, its cells are freed, its
slot settled (R97, R114). -/
def Chip.droppedLaunch (c : Chip) (l : Launch) : Chip :=
  (((((c.delLaunch l.id).endRun l.id).endStreams l.id).bump .dspGivenUp 12 [l.part]).releaseCells l.cells).settleSlot
    l.win l.slot l.die

end Machine

end Sys2Proof
end

