-- ==== Sys2Proof/Certificates/Slice0/Obligations.lean ====
section
/-! DEFINITION. Statements for the provers. A statement about an owner's command, a row of the fabric or an event says of
every state, that meets the hypotheses written, that the command answers a next state, and gives it whole: `Becomes`
(this module and nothing else), `RaisesTo` and `NotesTo` (this module but for the event it raises), `CompletesWith` and
`RunsOn` (and this answer of its session); see Sys2Proof/Safety.lean. What they do not name is therefore unchanged. -/

set_option maxRecDepth 100000

open Sys2Proof Sys2Proof.Machine

/-- With command i at the front of the queue, step of the state is exec of i on the state with the queue's rest. -/
def Obligations.StepRunsFront : Prop :=
  ∀ (s : State) (i : Instr), step { s with pending := i :: s.pending } = exec i s

/-- From every state a step answers a next state (no fault, no refusal), whose queue is the old queue without its
front command; on an empty queue the state is unchanged. That the empty queue idles is the model's choice (log
entry 5). -/
def Obligations.EveryStepGoesOn : Prop :=
  ∀ s : State, ∃ t, step s = .next t ∧ t.pending = s.pending.tail ∧ (s.pending = [] → t = s)

/-- In the state after reset every core reads SPARE, the device state is RESET, no memory, session, port, region or
partition is in use, every block's ENABLE and DEV_SCRATCH read 0, DEV_ID holds part 0x7725 stepping 0xB0,
DSP_GLB_TMO holds BOWL_TMO 100 and SET_TMO 50, every register holds its table's reset word and every counter 0,
the queue is empty and no slow-domain copy is held. (R2, R8, R71, R118, R510, R600, R606) -/
def Obligations.ResetValues : Prop :=
  let c := State.reset.chip
  State.reset.pending = [] ∧ State.reset.snap = [] ∧ c.boot.state = .reset ∧ c.boot.running = false ∧
  (∀ k, (c.core k).st = .spare) ∧ (∀ p, (c.port p).st = .down) ∧ (∀ p, (c.partOf p).st = .free) ∧
  (∀ n, (c.obj n).st = 0) ∧ (∀ k, (c.region k).valid = false) ∧ (∀ n, c.node n = .none) ∧
  c.mgt.sessions = [] ∧ c.mgt.handshakes = [] ∧ c.dsp.launches = [] ∧ c.eng.ops = [] ∧ c.sft.ops = [] ∧ c.gtx.pends = [] ∧
  c.coh.ents = [] ∧ c.irq.latches = [] ∧ c.mem.dram = [] ∧ Memory.wf c.mem.dram ∧
  (∀ b die, 1 ≤ b → b ≤ 21 → c.enabled b die = false) ∧
  (∀ r die i, c.reg r die i = r.resetWord i) ∧ (∀ k die i, c.count k die i = 0) ∧
  (Reg.devId).resetWord [] = 0x7725B000 ∧ (Reg.devScratch).resetWord [0] = 0 ∧ (Reg.bootCtrl).resetWord [] = 0 ∧
  (Reg.dspGlbTmo).resetWord [] = 100 * 65536 + 50 ∧ (Reg.corCoreState).resetWord [0] % 4 = 3 ∧ (Reg.irqCtrl).resetWord [] = 0

/-- For every state whose table of slow-domain copies (R596) has strictly rising die numbers below 13, every next
state of a step has such a table too. (R585, R596, R603) -/
def Obligations.HeldCopiesInOrder : Prop :=
  ∀ s t : State, (Rising s.snap ∧ ∀ e ∈ s.snap, e.1 < 13) → step s = .next t → Rising t.snap ∧ ∀ e ∈ t.snap, e.1 < 13

/-- For every request whose fields fit the widths of the request layout and whose payload is at most 65,535 bytes,
reading the bytes of its message gives the request back, and a response read back from its bytes likewise.
(R278, R279) -/
def Obligations.RequestWireRoundTrip : Prop :=
  (∀ (r : Req) (pad : Bytes), r.opc < 2 ^ 8 → r.tc < 2 ^ 3 → r.tag < 2 ^ 16 → r.src < 2 ^ 12 → r.handle < 2 ^ 16 →
    r.addr < 2 ^ 64 → r.epoch < 2 ^ 8 → r.attr < 2 ^ 8 → r.opnd < 2 ^ 32 → r.rsv < 2 ^ 16 → r.payload.length < 2 ^ 16 →
    unpackReq (packReq r ++ pad) = r) ∧
  (∀ (r : Rsp) (pad : Bytes), r.status < 2 ^ 4 → r.tag < 2 ^ 16 → r.dst < 2 ^ 12 → r.src < 2 ^ 12 → r.info < 2 ^ 16 →
    r.data.length < 2 ^ 16 → unpackRsp (packRsp r ++ pad) = r)

/-- A privileged master's write of v to DEV_SCRATCHn answers a next state in which bit i (0 to 15) of the register
is bit i of v where bit 16 + i of v is 1 and the old bit elsewhere; a read then returns bits [15:0] of the
stored value and zero in [31:16]; 0x00A5 written with 0x00F0_0030 reads 0x0035. (R592) -/
def Obligations.MaskedWriteChangesChosenBits : Prop :=
  ∀ (s : State) (m : Master) (v : Word), s.chip.Still → m.code ≤ 8 → ∀ i < 4,
    let a := (Reg.devScratch).addr 12 [i]
    ∃ t w, exec (.registerWrite m a v) s = .next t ∧ t = { s with chip := (s.chip.setReg .devScratch 12 [i] w).busResp 0 0 } ∧
      (∀ b < 32, bit (t.chip.reg .devScratch 12 [i]) b =
        (b < 16 && if bit v.toNat (16 + b) then bit v.toNat b else bit (s.chip.reg .devScratch 12 [i]) b)) ∧
      t.chip.ctlRead t.snap m a = (0, t.chip.reg .devScratch 12 [i], t.chip) ∧
      (s.chip.reg .devScratch 12 [i] = 0x00A5 → v = 0x00F00030#32 → t.chip.reg .devScratch 12 [i] = 0x0035)

/-- CNT_READ of 1 to 1,024 counters returns each counter's 64-bit value (all-ones when saturated) and leaves the
module, the _LO/_HI latches among it, unchanged; CNT_CLEAR of one counter returns its value, leaves the counter
0 and its SAT bit clear, the latches unchanged, and an increment after it leaves 1. (R532) -/
def Obligations.CounterAccessesLoseNothing : Prop :=
  ∀ (s : State) (sess reqId : Nat) (x : Session), s.chip.Still →
    let now := natLE 4 (s.chip.boot.tick % 2 ^ 32) ++ zerosB 4
    (s.chip.Asks sess reqId 0x0703 x → ∀ (addrs : List Nat) (val : Nat → Nat), 1 ≤ addrs.length → addrs.length ≤ 1024 →
      (∀ a ∈ addrs, s.chip.accStatus { code := 8 } a false = 0 ∧
        ∃ k die i, slotAt a = .cnt k die i false ∧ s.chip.inert (slotAt a) = false ∧ val a = s.chip.count k die i) →
      ∃ t, exec (.cntRead sess reqId addrs) s = .next t ∧
        t.chip.lastReply sess = some (reqId, 0x0703, 0, 0, now ++ addrs.flatMap fun a => natLE 8 (val a)) ∧
        t.chip = { s.chip.bump .mgtCmds 12 with mgt := t.chip.mgt } ∧ t.snap = s.snap ∧ t.pending = s.pending) ∧
    (s.chip.Asks sess reqId 0x0704 x → ∀ a k die i, s.chip.accStatus { code := 8 } a false = 0 → slotAt a = .cnt k die i false →
      s.chip.inert (slotAt a) = false →
      ∃ t, exec (.cntClear sess reqId [a]) s = .next t ∧
        t.chip.lastReply sess = some (reqId, 0x0704, 0, 0, now ++ natLE 8 (s.chip.count k die i)) ∧
        t.chip = { (s.chip.clearCnt k die i).bump .mgtCmds 12 with mgt := t.chip.mgt } ∧ t.snap = s.snap ∧ t.pending = s.pending) ∧
    ∀ (c : Chip) k die i, Rising c.ctl.cnt →
      (c.clearCnt k die i).count k die i = 0 ∧ bit (kgetD (c.clearCnt k die i).ctl.sat (k.satAddr die i) 0).toNat k.info.bit = false ∧
      (c.clearCnt k die i).ctl.latch = c.ctl.latch ∧ ((c.clearCnt k die i).bump k die i).count k die i = 1 ∧
      (c.bump k die i allOnes64).count k die i = allOnes64 ∧
      ∀ a, a ≠ k.addr die i → kgetD (c.clearCnt k die i).ctl.cnt a 0 = kgetD c.ctl.cnt a 0

/-- POWER_OK falling, RESET_N falling, an SMBus reset request, power applied or removed and the expiry of a
DEV_RESET delay put the module in the state of reset: all fields at their reset values but the board's pins, the
bundles in flash and the model's own counter of open values; power removal returns the boot record too. (R500,
R569, R594) -/
def Obligations.ResetsReturnEverything : Prop :=
  ∀ s : State,
    (s.chip.pins.powered = true →
      exec .powerOkFall s = .next { s with
        chip := s.chip.inReset { s.chip.pins with
          powerOk := false, holdDone := false, faultN := false, crDriven := false, spiRstN := false, pulse := false }
        snap := [] } ∧
      exec .resetNFall s = .next { s with
        chip := s.chip.inReset { s.chip.pins with
          resetN := false, faultN := false, crDriven := false, spiRstN := false, pulse := false }
        snap := [] } ∧
      exec (.smbusResetRequest 0x2F 0x5A) s = .next { s with
        chip := s.chip.inReset { s.chip.pins with faultN := false, crDriven := false, spiRstN := false, pulse := true }
        snap := [] }) ∧
    (s.chip.pins.powered = false →
      exec .powerApplied s = .next { s with
        chip := s.chip.inReset { powered := true, crystal := true }
        snap := [] }) ∧
    exec .powerRemoved s = .next { s with
      chip := { s.chip.inReset {} with boot := {} }
      snap := [] } ∧
    (∀ t, s.chip.boot.devResetAt = some t → t + 1000 ≤ s.chip.boot.tick →
      exec .devResetDelayExpiry s = .next { s with
        chip := s.chip.inReset { s.chip.pins with faultN := false, crDriven := false, spiRstN := false, pulse := true }
        snap := [] })

/-- In RESET with power on: POWER_OK rising sets the pin; a stopped crystal ends the hold; the end of the hold is
recorded while RESET_N is low; RESET_N rising after it, or one that has risen before it, enters ROMBOOT at tick 0 with the reset outputs as the
boot chapter says and a fresh handoff epoch from the TRNG. (R500, R501, R567, R568) -/
def Obligations.PowerUpReachesRomboot : Prop :=
  ∀ s : State, s.chip.Still → s.chip.boot.state = .reset → s.chip.pins.powered = true →
    exec .powerOkRise s = .next { s with
      chip := { s.chip with pins := { s.chip.pins with powerOk := true } }, snap := [] } ∧
    exec .crystalStopped s = .next { s with
      chip := { s.chip with pins := { s.chip.pins with crystal := false, holdDone := false } } } ∧
    (s.chip.pins.powerOk = true → s.chip.pins.crystal = true → s.chip.pins.resetN = false →
      exec .resetHoldEnd s = .next { s with
        chip := { s.chip with pins := { s.chip.pins with holdDone := true } }, snap := [] }) ∧
    (s.chip.pins.powerOk = true → s.chip.pins.crystal = true → s.chip.pins.resetN = true → s.chip.pins.pulse = false →
      exec .resetHoldEnd s = .next { s with
        chip := { s.chip with
          boot := { state := .romboot, running := true, step := 1 }
          pins := { s.chip.pins with holdDone := true, crDriven := true, pulse := false }
          mgt := { s.chip.mgt with hoEpoch := Config.trng s.chip.draws % 2 ^ 32 }
          draws := s.chip.draws + 1 } }) ∧
    (s.chip.pins.powerOk = true → s.chip.pins.holdDone = true →
      exec .resetNRise s = .next { s with
        chip := { s.chip with
          boot := { state := .romboot, running := true, step := 1 }
          pins := { s.chip.pins with resetN := true, crDriven := true, pulse := false }
          mgt := { s.chip.mgt with hoEpoch := Config.trng s.chip.draws % 2 ^ 32 }
          draws := s.chip.draws + 1 } })

/-- With the complexes' self-checks passed the SPI NOR's reset is released and complex A (B when A failed) runs;
both failed ends in DEAD; a valid SFDP reply enters LOAD with its mode and density, an invalid one DEAD with the
cause; the loaded image enters VERIFY. (R489, R501) -/
def Obligations.BootReachesVerify : Prop :=
  ∀ s : State, s.chip.Booting →
    (s.chip.boot.state = .romboot → s.chip.boot.step = 1 → s.chip.pins.crystal = true →
      s.chip.mcs.failedA = false → s.chip.mcs.failedB = false →
      exec (.rombootSelfCheckDone true true) s = .next { s with chip := { s.chip with
        mcs := { s.chip.mcs with activeB := false, standbyOk := true, failedA := false, failedB := false,
                                 lastBeat := s.chip.boot.tick, pulseA := s.chip.boot.tick, pulseB := s.chip.boot.tick }
        boot := { s.chip.boot with mcB := false, step := 2 }
        pins := { s.chip.pins with spiRstN := true } } } ∧
      exec (.rombootSelfCheckDone false true) s = .next { s with chip := { s.chip with
        mcs := { s.chip.mcs with activeB := true, standbyOk := false, failedA := true, failedB := false,
                                 lostA := true,
                                 lastBeat := s.chip.boot.tick, pulseA := s.chip.boot.tick, pulseB := s.chip.boot.tick }
        boot := { s.chip.boot with mcB := true, step := 2 }
        pins := { s.chip.pins with spiRstN := true } } } ∧
      ∃ t, exec (.rombootSelfCheckDone false false) s = .next t ∧ t.chip.boot.state = .dead ∧
        t.chip.boot.deadCause = 2 ∧ t.chip.pins.faultN = true) ∧
    (s.chip.boot.state = .romboot → s.chip.boot.step = 2 → s.chip.bootRuns = true →
      (∀ mode density, mode = 1 ∨ mode = 2 →
        exec (.sfdpReadDone true mode density) s = .next { s with chip := { s.chip with
          boot := { s.chip.boot with state := .load, spiMode := mode, density := density, step := 3,
                                     times := kput s.chip.boot.times 3 s.chip.boot.tick } } }) ∧
      ∃ t, exec (.sfdpReadDone false 0 0) s = .next t ∧ t.chip.boot.state = .dead ∧ t.chip.boot.deadCause = 1 ∧
        t.chip.boot.priCause = 1) ∧
    (s.chip.boot.state = .load → s.chip.bootRuns = true → ∀ image,
      exec (.imageLoadDone image) s = .next { s with chip := { s.chip with
        boot := { s.chip.boot with state := .verify, buffer := image, step := 4,
                                   times := kput s.chip.boot.times 4 s.chip.boot.tick } } })

/-- VERIFY of an image goes by the cause that the checks give it: none enters BRINGUP with the image in force, its
identity ready and the twelve core rails commanded on at 750 mV; a cause on the primary image of a NOR large
enough for an alternate returns to LOAD of the alternate with PRI_CAUSE set; otherwise DEAD with the enrolment
data kept. (R497) -/
def Obligations.VerifyTakesFirstFailure : Prop :=
  ∀ (s : State) (p0 p1 p2 : Bytes), s.chip.Booting → s.chip.boot.state = .verify → s.chip.bootRuns = true →
    ((imgRecord s.chip.boot.buffer).regWrites.all fun e => e.phase != 0 || e.addr / 2 ^ 32 % 4096 != 0x14) = true →
    ∀ room cause,
      room = (if s.chip.boot.alternate then 2 ^ s.chip.boot.density / 2 else 2 ^ s.chip.boot.density) →
      cause = imgCause s.chip.boot.buffer room (majority p0 p1 p2) →
      ∃ t, exec (.verifyDone p0 p1 p2) s = .next t ∧
        (cause = 0 → t.chip.boot.state = .bringup ∧ t.chip.boot.step = 5 ∧
          t.chip.boot.image = imgRecord s.chip.boot.buffer ∧
          t.chip.boot.imageInForce = (if s.chip.boot.alternate then 2 else 1) ∧
          t.chip.sec.idReady = true ∧
          ∀ n < 12, (t.chip.rail n).on = true ∧ (t.chip.rail n).command = 750) ∧
        (cause ≠ 0 → s.chip.boot.alternate = false → 25 ≤ s.chip.boot.density →
          t.chip.boot.state = .load ∧ t.chip.boot.alternate = true ∧ t.chip.boot.priCause = cause) ∧
        (cause ≠ 0 → (s.chip.boot.alternate = true ∨ s.chip.boot.density < 25) →
          t.chip.boot.state = .dead ∧ t.chip.boot.deadCause = 1 ∧
          t.chip.boot.enrol = enrolment (majority p0 p1 p2))

/-- At 500 ticks after the rails' command, each of the twelve rails read between 710 and 790 mV stays as it was and
any other is cut with its fault and its die's links DOWN; with all port-die rails on and
every port die reaching some core die, BRINGUP goes on to its works, the quote tree's generation begun, else DEAD. (R503, R568) -/
def Obligations.RailCheckCutsWhatFails : Prop :=
  ∀ (s : State) (vout : List Nat), s.chip.Booting → s.chip.boot.state = .bringup → s.chip.boot.step = 5 →
    s.chip.bootRuns = true → (s.chip.rail 0).wroteAt + 500 ≤ s.chip.boot.tick →
    (s.chip.boot.image.regWrites.all fun e => e.phase != 0 || e.addr / 2 ^ 32 % 4096 == 0x14) = true →
    ∃ t, exec (.coreRailCheck vout) s = .next t ∧
      (∀ n < 12, (t.chip.rail n).vout = vout.getD n 0 ∧
        if 710 ≤ vout.getD n 0 ∧ vout.getD n 0 ≤ 790 then
          (t.chip.rail n).on = (s.chip.rail n).on ∧ (t.chip.rail n).fault = (s.chip.rail n).fault
        else (t.chip.rail n).on = false ∧ (t.chip.rail n).fault = 4 ∧
          (n < 8 → ∀ l < 4, t.chip.linkDown n l = true ∧ t.chip.linkDown (8 + l) n = true)) ∧
      ((∀ p < 4, (t.chip.rail (8 + p)).on = true) → (∀ p < 4, ∃ d < 8, t.chip.reaches (8 + p) d = true) →
        t.chip.boot.state = .bringup ∧ t.chip.boot.step = 6 ∧ t.chip.boot.workLeft = [0, 1, 2, 3, 4, 5, 6] ∧
        t.chip.sec.treeBusy = true ∧ t.chip.sec.treeAt = s.chip.boot.tick) ∧
      ((∃ p < 4, (t.chip.rail (8 + p)).on = false ∨ ∀ d < 8, t.chip.reaches (8 + p) d = false) →
        t.chip.boot.state = .dead ∧ t.chip.boot.deadCause = 4 ∧ t.chip.pins.faultN = true)

/-- Each of the Ethernet, lane, flash, DRAM, core, die-to-die and security works of BRINGUP records what it found (flash and DRAM stacks trained or FAILED, the stack map and spare, fenced
cores with their causes, links DOWN, the seeded quote tree, 120,000 ticks after its generation began, and cleared
M_BUNDLES, the serial numbers on the ports) and ends; with the last one the boot goes on to WAIT_OWNER; too few DRAM stacks or a port die no core die reaches end in DEAD. (R198, R430, R501, R502) -/
def Obligations.BringupWorksEnd : Prop :=
  ∀ s : State, s.chip.Booting → s.chip.boot.state = .bringup → s.chip.boot.step = 6 → s.chip.bootRuns = true →
    (s.chip.boot.workLeft.contains 5 = true → s.chip.boot.workLeft.erase 5 ≠ [] →
      let done := { s.chip with boot := { s.chip.boot with workLeft := s.chip.boot.workLeft.erase 5 } }
      let lit := { s.chip with boot := { s.chip.boot with ethUp := true } }
      let up := { s.chip with
        boot := { s.chip.boot with ethUp := true, workLeft := s.chip.boot.workLeft.erase 5 }
        lnk := { s.chip.lnk with laneLocked := s.chip.lnk.laneLocked.filter fun x => lit.laneChecks (x / 128) (x % 128) } }
      exec (.bringupWorkDone .ethernet) s = .next { s with chip := done.health } ∧
      (s.chip.boot.ethUp = false → exec .ethLinkUp s = .next { s with chip := up.health })) ∧
    (s.chip.boot.workLeft.contains 4 = true → s.chip.boot.workLeft.erase 4 ≠ [] → ∀ lanes,
      let c := { s.chip with boot := { s.chip.boot with calibFail := lanes, workLeft := s.chip.boot.workLeft.erase 4 } }
      exec (.bringupWorkDone (.lanes lanes)) s = .next { s with chip := c.health }) ∧
    (s.chip.boot.workLeft.contains 2 = true → s.chip.boot.workLeft.erase 2 ≠ [] → ∀ trained,
      let fs := (List.range 8).map fun n => (n, if trained.contains n then 1 else 3)
      let c := { s.chip with mem := { s.chip.mem with fstack := fs }
                             boot := { s.chip.boot with workLeft := s.chip.boot.workLeft.erase 2 } }
      exec (.bringupWorkDone (.flash trained)) s = .next { s with chip := c.health }) ∧
    (s.chip.boot.workLeft.contains 1 = true → s.chip.boot.workLeft.erase 1 ≠ [] → ∀ trained ps,
      ((∃ e ∈ s.chip.mem.dstack, e.2.st ≠ 0) → (∀ n < 16, (s.chip.dstack n).st = 1 ∨ (s.chip.dstack n).st = 2 → trained.contains n = true) →
        let c : Chip := { s.chip with
          mem := { s.chip.mem with dram := [] }
          boot := { s.chip.boot with
            dramPs := ps, workLeft := s.chip.boot.workLeft.erase 1
            healthDram15 := ((List.range 16).filter fun n => (s.chip.dstack n).st == 1 || (s.chip.dstack n).st == 2).length == 15 } }
        exec (.bringupWorkDone (.dram trained ps)) s = .next { s with chip := c.health }) ∧
      ((∀ e ∈ s.chip.mem.dstack, e.2.st = 0) →
      ∃ t, exec (.bringupWorkDone (.dram trained ps)) s = .next t ∧ t.chip.mem.dram = [] ∧
        (∀ n < 16, trained.contains n = false → (t.chip.dstack n).st = 3) ∧
        (14 < ((List.range 16).filter trained.contains).length →
          t.chip.boot.state = .bringup ∧ t.chip.boot.workLeft = s.chip.boot.workLeft.erase 1 ∧
          ∀ l < 15, t.chip.physOf l = ((List.range 16).filter trained.contains)[l]?) ∧
        (((List.range 16).filter trained.contains).length = 16 → t.chip.mem.spare = some 15) ∧
        (((List.range 16).filter trained.contains).length ≤ 14 →
          t.chip.boot.state = .dead ∧ t.chip.boot.deadCause = 3))) ∧
    (s.chip.boot.workLeft.contains 3 = true → s.chip.boot.workLeft.contains 0 = true → Rising s.chip.cores.core → ∀ failed,
      ∃ t, exec (.bringupWorkDone (.cores failed)) s = .next t ∧ t.chip.boot.workLeft = s.chip.boot.workLeft.erase 3 ∧
        ∀ k < 25088,
          t.chip.core k = (
            if (s.chip.core k).st = .fenced then
              { st := .fenced, fenceCause := (s.chip.core k).fenceCause, illegalWr := (s.chip.core k).illegalWr }
            else if s.chip.boot.image.prodFence.contains k then { st := .fenced, fenceCause := 1 }
            else if failed.contains k then { st := .fenced, fenceCause := 2 }
            else if s.chip.boot.image.ownerFence.contains k then { st := .fenced, fenceCause := 6 }
            else {})) ∧
    (s.chip.boot.workLeft.contains 0 = true → s.chip.boot.workLeft.contains 3 = true → ∀ down : List (Nat × Nat),
      ∃ t, exec (.bringupWorkDone (.d2d down)) s = .next t ∧
        (∀ l ∈ down, linkExists l.1 l.2 = true → t.chip.linkDown l.1 l.2 = true) ∧
        ((∃ p < 4, ∀ d < 8, t.chip.reaches (8 + p) d = false) →
          t.chip.boot.state = .dead ∧ t.chip.boot.deadCause = 4) ∧
        ((∀ p < 4, ∃ d < 8, t.chip.reaches (8 + p) d = true) →
          t.chip.boot.state = .bringup ∧ t.chip.boot.workLeft = s.chip.boot.workLeft.erase 0)) ∧
    (s.chip.boot.workLeft.contains 6 = true → s.chip.boot.workLeft.contains 2 = false → s.chip.boot.workLeft.erase 6 ≠ [] →
      s.chip.sec.treeAt + 120000 ≤ s.chip.boot.tick → s.chip.mem.bundles = [] → s.chip.boot.image.serial < 2 ^ 64 →
      ∃ t, exec (.bringupWorkDone .security) s = .next t ∧ t.chip.boot.workLeft = s.chip.boot.workLeft.erase 6 ∧
        t.chip.sec.treeReady = true ∧ t.chip.sec.treeBusy = false ∧ t.chip.sec.leaf = 0 ∧ t.chip.sec.mBundles = List.replicate 48 0 ∧
        ∀ p < 4, t.chip.reg .lnkSerialLo (8 + p) = s.chip.boot.image.serial % 2 ^ 32 ∧
          t.chip.reg .lnkSerialHi (8 + p) = s.chip.boot.image.serial / 2 ^ 32) ∧
    (∀ w, s.chip.boot.workLeft = [workNo w] → (workNo w = 6 → s.chip.sec.treeAt + 120000 ≤ s.chip.boot.tick) → (s.chip.workEffect w).boot.state = .bringup →
      (s.chip.workEffect w).boot.workLeft = [workNo w] →
      let e := s.chip.workEffect w
      let d : Chip := { e with boot := { e.boot with workLeft := [] } }
      Settles s (.bringupWorkDone w) ((if workNo w = 0 ∨ workNo w = 3 then d.bootCompose else d).health.bootFinish s.snap))

/-- Asked by the owner session: NOP answers OK and changes nothing; DEV_INFO returns BOOT_STAT, BOOT_IMG_FAIL and
the serial; DEV_START in WAIT_OWNER enters SERVICE or DEGRADED by the target; DEV_TEST there with TEST_ALLOW
enters TEST; DEV_RESET answers OK and starts the reset delay. (R505, R525) -/
def Obligations.DeviceCommandsComplete : Prop :=
  ∀ (s : State) (sess reqId : Nat) (x : Session), s.chip.Still →
    (s.chip.Asks sess reqId 0x0001 x →
      CompletesWith s (.nop sess reqId) sess reqId 0x0001 0 [] fun _ => s.chip) ∧
    (s.chip.Asks sess reqId 0x0002 x →
      CompletesWith s (.devInfo sess reqId) sess reqId 0x0002 0
        (natLE 4 (s.chip.view .bootStat 12) ++ natLE 4 (s.chip.view .bootImgFail 12) ++ natLE 8 s.chip.boot.image.serial)
        fun _ => s.chip) ∧
    (s.chip.Asks sess reqId 0x0003 x → s.chip.boot.state = .waitOwner →
      CompletesWith s (.devStart sess reqId) sess reqId 0x0003 0 [] fun t =>
        let st := if s.chip.boot.target = 2 then DevState.degraded else .service
        let c := s.chip.raising t
        { c with boot := { s.chip.boot with state := st, times := kput s.chip.boot.times st.code s.chip.boot.tick } }) ∧
    (s.chip.Asks sess reqId 0x0004 x → s.chip.boot.state = .waitOwner → s.chip.boot.testAllow = true →
      (∀ y ∈ s.chip.mgt.sessions, y.kind = 0) → (∀ h ∈ s.chip.mgt.handshakes, h.kind = 0) →
      CompletesWith s (.devTest sess reqId) sess reqId 0x0004 0 [] fun t =>
        let c := s.chip.raising t
        { c with boot := { s.chip.boot with state := .test, times := kput s.chip.boot.times 10 s.chip.boot.tick } }) ∧
    (s.chip.Asks sess reqId 0x0005 x →
      CompletesWith s (.devReset sess reqId) sess reqId 0x0005 0 [] fun _ =>
        { s.chip with boot := { s.chip.boot with devResetAt := some s.chip.boot.tick } })

/-- A heartbeat of the active complex is recorded when its period has passed; a watching steward records a pulse of
either running complex, and marks one lost after 1,000 ticks without a pulse, noting when both are; a lost
standby is raised to firmware. (R529, R552) -/
def Obligations.ComplexesWatchEachOther : Prop :=
  ∀ s : State, s.chip.Still →
    (s.chip.mcRuns s.chip.mcs.activeB = true → s.chip.mcs.lastBeat + s.chip.hbPeriod ≤ s.chip.boot.tick →
      exec .heartbeatSend s = .next { s with chip := { s.chip with
        mcs := { s.chip.mcs with lastBeat := s.chip.boot.tick } } }) ∧
    (s.chip.stewardWatches = true →
      (s.chip.mcRuns false = true → exec (.stewardPulse false) s = .next { s with chip := { s.chip with
        mcs := { s.chip.mcs with pulseA := s.chip.boot.tick } } }) ∧
      (s.chip.mcRuns true = true → exec (.stewardPulse true) s = .next { s with chip := { s.chip with
        mcs := { s.chip.mcs with pulseB := s.chip.boot.tick } } }) ∧
      (s.chip.mcs.lostA = false → s.chip.mcs.pulseA + 1000 ≤ s.chip.boot.tick → s.chip.mcs.stewardAt = none →
        exec (.stewardComplexLost false) s = .next { s with chip := { s.chip with
          mcs := { s.chip.mcs with lostA := true
                                   stewardAt := if s.chip.mcs.lostB then some s.chip.boot.tick else none } } }) ∧
      (s.chip.mcs.lostB = false → s.chip.mcs.pulseB + 1000 ≤ s.chip.boot.tick → s.chip.mcs.stewardAt = none →
        exec (.stewardComplexLost true) s = .next { s with chip := { s.chip with
          mcs := { s.chip.mcs with lostB := true
                                   stewardAt := if s.chip.mcs.lostA then some s.chip.boot.tick else none } } })) ∧
    (s.chip.mcs.standbyOk = true → s.chip.mcRuns s.chip.mcs.activeB = true →
      RaisesTo s .heartbeatLost { s.chip with mcs := { s.chip.mcs with standbyOk := false } })

/-- When complex A has missed its heartbeats and B runs as standby, B takes over: before WAIT_OWNER the boot starts
again at ROMBOOT with the rails off, memory kept; later the device state, memory, fabric and dispatcher stay,
cores 0 to 3's interrupt enables fall, and a command that was running is answered INTERRUPTED. (R508, R529) -/
def Obligations.FailoverTakesOver : Prop :=
  ∀ s : State, s.chip.Still → s.chip.mcs.standbyOk = true → s.chip.mcs.activeB = false → s.chip.mcRuns true = true →
    s.chip.mcs.lastBeat + s.chip.hbPeriod * s.chip.hbMiss ≤ s.chip.boot.tick →
    (s.chip.boot.state = .load ∨ s.chip.boot.state = .verify ∨ s.chip.boot.state = .bringup →
      ∃ t, exec .mcFailover s = .next t ∧
        t.chip.mcs = { s.chip.mcs with activeB := true, failedA := true, standbyOk := false, lastBeat := s.chip.boot.tick } ∧
        t.chip.boot = { state := .romboot, step := 1, running := true, tick := s.chip.boot.tick, times := s.chip.boot.times,
                        ethUp := s.chip.boot.ethUp } ∧
        t.chip.pins = { s.chip.pins with crDriven := true } ∧ (∀ e ∈ t.chip.pwr.rails, e.2.on = false) ∧
        t.chip.mem = s.chip.mem) ∧
    (s.chip.boot.state = .service ∨ s.chip.boot.state = .degraded ∨ s.chip.boot.state = .waitOwner →
      ∃ t, exec .mcFailover s = .next t ∧
        t.chip.mcs = { s.chip.mcs with activeB := true, failedA := true, standbyOk := false, lastBeat := s.chip.boot.tick } ∧
        t.chip.boot = s.chip.boot ∧ t.chip.mem = s.chip.mem ∧ t.chip.gtx = s.chip.gtx ∧ t.chip.dsp = s.chip.dsp ∧
        (∀ k < 4, bit (t.chip.reg .irqCoreCfg 12 [k]) 31 = false) ∧
        ∀ x r, s.chip.mgt.sessions = [x] → x.running = [r] → x.ready = [] →
          t.chip.lastReply x.id = some (r.reqId, r.opc, 8, 1, []))

/-- In RECOVERY, the drain's end starts the dump (or skips it where an unreleased valid dump is held); the dump's
end leaves it valid and unreleased, its bytes written and its first 64 KiB in the dump window, and raises its
event. (R537, R538, R551) -/
def Obligations.RecoveryWritesTheDump : Prop :=
  ∀ s : State, s.chip.boot.state = .recovery →
    (s.chip.Idle → s.chip.dump.step = 2 → 
      exec .recoveryDrainEnd s = .next { s with chip := { s.chip with
        dump := if s.chip.dump.valid = true ∧ s.chip.dump.released = false then { s.chip.dump with step := 5 }
          else { s.chip.dump with step := 4, writing := true, valid := false, released := false } } }) ∧
    (s.chip.Still → s.chip.dump.step = 4 → s.chip.dump.writing = true → s.chip.bootRuns = true → ∀ trace,
      let b := s.chip.dumpBytes 1 s.chip.dump.fromState.code s.chip.dump.at_ s.chip.dump.cause (s.chip.dumpSections s.snap trace)
      RaisesTo s (.dumpDone trace) { s.chip.writeDump b with
        dump := { s.chip.dump with valid := true, writing := false, released := false, kind := 1, len := b.length,
                                   win := b.take 65536, step := 5 } })

/-- With a valid dump not being written DUMP_INFO returns its first 4,096 bytes, DUMP_READ its bytes for a LEN of 1
to 8,192 within it, MALFORMED for another LEN and NOT_FOUND beyond its end, and DUMP_RELEASE marks it released;
with no valid dump DUMP_INFO and DUMP_RELEASE answer STATE. (R540) -/
def Obligations.DumpCommandsComplete : Prop :=
  ∀ (s : State) (sess reqId : Nat) (x : Session), s.chip.Still →
    (s.chip.dump.valid = true → s.chip.dump.writing = false →
      (s.chip.Asks sess reqId 0x0801 x → ∀ b, ∀ c, s.chip.readDump 0 4096 = (some b, c) →
        CompletesWith s (.dumpInfo sess reqId) sess reqId 0x0801 0 b fun _ => c) ∧
      (s.chip.Asks sess reqId 0x0802 x → ∀ off len b, 0 < len → len ≤ 8192 → off + len ≤ s.chip.dump.len →
        ∀ c, s.chip.readDump off len = (some b, c) →
        CompletesWith s (.dumpRead sess reqId off len) sess reqId 0x0802 0 b fun _ => c) ∧
      (s.chip.Asks sess reqId 0x0802 x → ∀ off len, 0 < len → len ≤ 8192 → s.chip.dump.len < off + len →
        CompletesWith s (.dumpRead sess reqId off len) sess reqId 0x0802 5 [] fun _ => s.chip) ∧
      (s.chip.Asks sess reqId 0x0802 x → ∀ off len, len = 0 ∨ 8192 < len →
        CompletesWith s (.dumpRead sess reqId off len) sess reqId 0x0802 4 [] fun _ => s.chip) ∧
      (s.chip.Asks sess reqId 0x0803 x →
        CompletesWith s (.dumpRelease sess reqId) sess reqId 0x0803 0 [] fun _ =>
          { s.chip with dump := { s.chip.dump with released := true } })) ∧
    (s.chip.dump.valid = false →
      (s.chip.Asks sess reqId 0x0801 x → CompletesWith s (.dumpInfo sess reqId) sess reqId 0x0801 2 [] fun _ => s.chip) ∧
      (s.chip.Asks sess reqId 0x0803 x → CompletesWith s (.dumpRelease sess reqId) sess reqId 0x0803 2 [] fun _ => s.chip))

/-- When the steward has had 2,000 ticks since both complexes were lost, the device enters DEAD with FAULT_N driven
and no launch, set, engine or sifter operation, device request or snoop left; an unreleased valid dump is kept,
else a minimal dump is valid. (R553) -/
def Obligations.StewardEndsInDead : Prop :=
  ∀ (s : State) (t0 : Nat), s.chip.Still → s.chip.mcs.stewardAt = some t0 → t0 + 2000 ≤ s.chip.boot.tick →
    s.chip.stewardWatches = true → s.chip.mgt.sessions = [] → s.chip.mgt.handshakes = [] →
    (∀ p < 256, (s.chip.port p).st = .down) →
    ∃ t, exec .stewardDrainEnd s = .next t ∧ t.chip.boot.state = .dead ∧ t.chip.pins.faultN = true ∧
      t.chip.dsp.launches = [] ∧ t.chip.dsp.sets = [] ∧ t.chip.eng.ops = [] ∧ t.chip.sft.ops = [] ∧
      t.chip.gtx.devReqs = [] ∧ t.chip.coh.snoops = [] ∧
      (if s.chip.dump.valid = true ∧ s.chip.dump.released = false then t.chip.dump = s.chip.dump
       else t.chip.dump.valid = true ∧ t.chip.dump.kind = 2)

/-- With the Ethernet port on: PAUSE is counted in MGT_PAUSE_RX and a discarded frame in MGT_ETH_DROP; ARP, Neighbor
Discovery and echo for the port's own addresses on its VLAN are answered, from its station address, on its VLAN, with DF
and TTL 64 or hop limit 64, and by the gateway where the port's prefix asks for it; any other is counted in MGT_ETH_DROP.
(R495, R514, R515) -/
def Obligations.EthernetPortAnswersItself : Prop :=
  ∀ s : State, s.chip.Still → s.chip.ethOn = true → ∀ tag : Option Nat,
    let drop := { s with chip := s.chip.bump .mgtEthDrop 12 }
    let sends := fun (o : EthOut) (ip : Option IpHead) => { s with chip := { s.chip with mgt := { s.chip.mgt with
      ethTx := s.chip.mgt.ethTx ++ [{ out := o, mac := s.chip.net 0 6, ip := ip
                                      vlan := if bit (s.chip.net 6 1) 2 then some (s.chip.net 8 2 % 4096) else none }] } } }
    let head4 := fun dst : Nat => some { v6 := false, src := s.chip.net 0x10 4, hop := s.chip.nextHop false dst, ttl := 64, df := true }
    let head6 := fun dst : Nat => some { v6 := true, src := s.chip.net 0x14 16, hop := s.chip.nextHop true dst, ttl := 64, df := false }
    exec .pauseFrame s = .next { s with chip := s.chip.bump .mgtPauseRx 12 } ∧
    exec .ethFrameDiscard s = .next drop ∧
    (∀ ip mac sip, exec (.arpRequest tag ip mac sip) s = .next (
      if s.chip.vlanOk tag = true ∧ bit (s.chip.net 6 1) 0 = true ∧ ip = s.chip.net 0x10 4 then sends (.arp ip mac sip) none
      else drop)) ∧
    (∀ ip mac sip, exec (.neighborSolicitation tag ip mac sip) s = .next (
      if s.chip.vlanOk tag = true ∧ bit (s.chip.net 6 1) 1 = true ∧ ip = s.chip.net 0x14 16 then sends (.nd ip mac sip) (head6 sip)
      else drop)) ∧
    (∀ dst src echo, echo.length ≤ s.chip.maxRecBody false + 24 →
      exec (.icmpEcho tag false dst src echo) s = .next (
        if s.chip.vlanOk tag = true ∧ bit (s.chip.net 6 1) 0 = true ∧ dst = s.chip.net 0x10 4 then sends (.echo false src echo) (head4 src)
        else drop)) ∧
    (∀ dst src echo, echo.length ≤ s.chip.maxRecBody true + 24 →
      exec (.icmpEcho tag true dst src echo) s = .next (
        if s.chip.vlanOk tag = true ∧ bit (s.chip.net 6 1) 1 = true ∧ dst = s.chip.net 0x14 16 then sends (.echo true src echo) (head6 src)
        else drop))

/-- The Ethernet link comes up outside BRINGUP, which unlocks the checkers of its lanes, and goes down. From ROMBOOT on an
SMBus block read returns the word of a telemetry register with its PEC, and zero outside the telemetry set; before,
nothing. BYPASS shifts zero, and so do EXTEST outside RESET and TEST and a debug access outside TEST with JTAG_DBG; a
debug access there reads or writes control space; what IDCODE and a boundary scan shift out is open (the spec gives no
value: the model's choice, log entry 25). An enabled checker that is not locked locks while its lane's port is DOWN or
in TEST, that of an Ethernet lane while the link is not up (the model's choice, log entry 73), and at no other time.
(R333, R440, R588, R594) -/
def Obligations.BoardSignalsAnswer : Prop :=
  ∀ s : State, s.chip.Still →
    let c := s.chip
    Becomes s .ethLinkDown { c with boot := { c.boot with ethUp := false } } ∧
    (c.ethPowered = true → c.boot.ethUp = false → c.boot.state ≠ .bringup →
      let up : Chip := { c with boot := { c.boot with ethUp := true } }
      Becomes s .ethLinkUp { up with lnk := { c.lnk with
        laneLocked := c.lnk.laneLocked.filter fun x => up.laneChecks (x / 128) (x % 128) } }) ∧
    (∀ addr,
      let m : Master := { code := 10 }
      let answer (v : Nat) (d : Chip) : Chip := { d with
        ctl := { d.ctl with smbus := natLE 4 v ++ natLE 1 (crc8 ([0xB4, 0x20, 0xB5, 0x04] ++ natLE 4 v)) } }
      (c.boot.state.code < 2 → Becomes s (.smbusBlockRead addr) c) ∧
      (2 ≤ c.boot.state.code → addr % 4 ≠ 0 ∨ telemetry (slotAt addr) = false → Becomes s (.smbusBlockRead addr) (answer 0 c)) ∧
      (2 ≤ c.boot.state.code → ∀ r i, addr = r.addr 12 i → slotAt addr = .reg r 12 i → telemetry (.reg r 12 i) = true → r.triMask = 0 →
        Becomes s (.smbusBlockRead addr)
          (answer (clearMask (clearMask (readWord (kfind? s.snap 12) c r 12 i) (absentMask r 12 i)) (r.mask (·.prv))) c)) ∧
      (2 ≤ c.boot.state.code → addr % 4 = 0 → telemetry (slotAt addr) = true → c.dieCut (addr / 2 ^ 44) = false →
        c.inert (slotAt addr) = false →
        let r := c.readSlot s.snap m (slotAt addr)
        Settles s (.smbusBlockRead addr) (answer r.1 r.2))) ∧
    (c.pins.powered = false → ∀ op, Becomes s (.jtagInstruction op) c) ∧
    (c.pins.powered = true →
      let open_ : Chip := { c with
        draws := c.draws + 1
        ctl := { c.ctl with jtag := BitVec.ofNat 32 (Config.freeValue c.draws) } }
      let shift (v : Word) (d : Chip) : Chip := { d with ctl := { d.ctl with jtag := v } }
      let m : Master := { code := 11 }
      Becomes s (.jtagInstruction .bypass) (shift 0 c) ∧
      Becomes s (.jtagInstruction .idcode) open_ ∧
      (c.boot.state = .reset ∨ c.boot.state = .test → Becomes s (.jtagInstruction .extest) open_) ∧
      (c.boot.state ≠ .reset → c.boot.state ≠ .test → Becomes s (.jtagInstruction .extest) (shift 0 c)) ∧
      (c.boot.state ≠ .test ∨ bit (c.reg .secTestNode 12) 30 = false → ∀ a v,
        Becomes s (.jtagInstruction (.debugRead a)) (shift 0 c) ∧ Becomes s (.jtagInstruction (.debugWrite a v)) (shift 0 c)) ∧
      (c.boot.state = .test → bit (c.reg .secTestNode 12) 30 = true → ∀ a v,
        (let r := c.ctlRead s.snap m a
         Settles s (.jtagInstruction (.debugRead a)) (shift (BitVec.ofNat 32 r.2.1) r.2.2)) ∧
        Settles s (.jtagInstruction (.debugWrite a v)) (shift 0 (c.busWrite m a v)))) ∧
    (∀ die ∈ [8, 9, 10, 11], ∀ lane < 72, (64 ≤ lane → die = 8) →
      let idle := if lane < 64 then (c.port (c.lanePort die lane)).st = .down ∨ (c.port (c.lanePort die lane)).st = .test
        else c.boot.ethUp = false
      let runs := c.enabled 21 die = true ∧ bit (c.reg .tstLaneCfg die [lane]) 30 = true ∧ idle
      (runs → c.lnk.laneLocked.contains (die * 128 + lane) = false → Becomes s (.patternCheckerLock die lane) { c with
        lnk := { c.lnk with laneLocked := c.lnk.laneLocked ++ [die * 128 + lane] } }) ∧
      (¬ runs ∨ c.lnk.laneLocked.contains (die * 128 + lane) = true → Becomes s (.patternCheckerLock die lane) c))

/-- A read of IRQ_ACK takes the core's highest latch above its running priority, lowest source first, or returns
VALID 0 and changes nothing; IRQ_EOI pops the stack, on an empty stack it is counted and raised; the signal
obeys MASK, the hold-off and the best latch; IRQ_SW_SET sets or coalesces its source's latch, or counts it
dropped. (R471, R472, R473, R484) -/
def Obligations.InterruptCoresAcceptAndEnd : Prop :=
  ∀ (s : State) (m : Master) (k : Nat), s.chip.Still → m.code ≤ 8 → k < 8 →
    let c := s.chip
    let q := c.irqCore k
    let takes := fun src l => kfind? c.irq.latches src = some l ∧ l.core = some k ∧ ∀ r, q.running = some r → r < c.prio src
    (∀ src l, Rising c.irq.latches → (∀ e ∈ c.irq.latches, e.1 < 2048) → takes src l →
      (∀ src' l', takes src' l' → c.prio src' < c.prio src ∨ c.prio src' = c.prio src ∧ src ≤ src') →
      Becomes s (.irqAck m k) ((((({ c with irq := { c.irq with latches := kdel c.irq.latches src } } : Chip).modIrqCore k fun q => { q with
        stack := q.running :: q.stack, running := some (c.prio src), lastAccept := some c.tick, info0 := l.info0, info1 := l.info1 }).bump
          .irqAccepted 12).resignal k).busResp 0 (ackWord (c.prio src) src l.part l.count))) ∧
    ((∀ src l, ¬ takes src l) → Rising c.irq.latches → Becomes s (.irqAck m k) (c.busResp 0 0)) ∧
    (∀ v r t, q.stack = r :: t →
      Becomes s (.irqEoi m k v) (((c.modIrqCore k fun q => { q with running := r, stack := t }).resignal k).busResp 0 0)) ∧
    (∀ v, q.stack = [] →
      Becomes s (.irqEoi m k v) (((c.bump .irqEoiUnder 12).fwEvent Ev.eoiUnderflow none 0 0).busResp 0 0)) ∧
    (∀ sig : Bool, (bit (c.reg .irqCoreCfg 12 [k]) 30 = true → sig = false) →
      (∀ t, q.running.isSome = true → q.lastAccept = some t → c.tick < t + c.fld .irqCoreCfg 12 [k] 15 0 → sig = false) →
      (bit (c.reg .irqCoreCfg 12 [k]) 30 = false →
        (∀ t, q.running.isSome = true → q.lastAccept = some t → t + c.fld .irqCoreCfg 12 [k] 15 0 ≤ c.tick) →
        sig = (c.bestLatch k).isSome) →
      Becomes s (.modIntExpiry k) (c.modIrqCore k fun q => { q with signalled := sig })) ∧
    (∀ v : Word, bit v.toNat 31 = true →
      let b := c.setReg .irqSwSet 12 [] (putBits (c.written .irqSwSet 12 [] v) 31 31 0)
      let src := Ev.sw (bits (c.written .irqSwSet 12 [] v) 6 0)
      (b.enabled 17 12 = false → Becomes s (.irqSwSet m v) (b.busResp 0 0)) ∧
      (b.enabled 17 12 = true → bit (b.reg .irqSrcCfg 12 [src]) 31 = false →
        Becomes s (.irqSwSet m v) ((b.bump .irqDropped 12).busResp 0 0)) ∧
      (b.enabled 17 12 = true → bit (b.reg .irqSrcCfg 12 [src]) 31 = true →
        (∀ l, kfind? c.irq.latches src = some l → Becomes s (.irqSwSet m v)
          ((({ b with irq := { b.irq with latches := kput b.irq.latches src { l with count := min 511 (l.count + 1) } } } : Chip).bump
            .irqCoalesced 12).busResp 0 0)) ∧
        (kfind? c.irq.latches src = none → Becomes s (.irqSwSet m v)
          ((({ b with irq := { b.irq with latches := kput b.irq.latches src {} } } : Chip).routeLatch src).busResp 0 0))))

/-- A privileged write of GTX_NODE, GTX_STREAM, COH_SHARER or SWC_PART_SHARE takes effect, is held back while the
old entry is in use, or is ignored with CFG_IGNORED under the chapter's conditions; a COH_PROBE write reads the
home's directory. (R307, R308, R349, R417, R419, R421) -/
def Obligations.FabricTableWritesAct : Prop :=
  ∀ (s : State) (m : Master) (v : Word), s.chip.Still → m.code ≤ 8 →
    let c := s.chip
    (∀ n < 4096, let w := c.written .gtxNode 12 [n] v
      ((bits w 31 30 = 1 → ∀ k, c.localNode (bits w 29 24) = some k → k = n) →
        (bits w 31 30 = 2 → c.portExists (bits w 15 8) = true ∧ c.portExists (bits w 7 0) = true) →
        Becomes s (.gtxNodeWrite m n v) ((c.setReg .gtxNode 12 [n] w).busResp 0 0)) ∧
      ((bits w 31 30 = 1 ∧ ∃ k, k ≠ n ∧ c.localNode (bits w 29 24) = some k) ∨
        (bits w 31 30 = 2 ∧ ¬ (c.portExists (bits w 15 8) = true ∧ c.portExists (bits w 7 0) = true)) →
        Becomes s (.gtxNodeWrite m n v) ((c.ignored ((Reg.gtxNode).addr 12 [n])).busResp 0 0))) ∧
    (∀ i < 1024, let w := putBits (c.written .gtxStream 12 [i] v) 30 30 0
      let free := bit w 31 = true → (∃ a b, c.node (bits w 11 0) = .ports a b) ∧ ∀ k, c.stream? (bits w 11 0) (bits w 29 24) = some k → k = i
      (free → (∀ e ∈ (c.stream i).log, e.2.done = true) →
        Becomes s (.gtxStreamWrite m i v)
          (((c.setStream i {}).setReg .gtxStream 12 [i] (putBits (BitVec.ofNat 32 w).toNat 30 30 0)).busResp 0 0)) ∧
      (free → (∃ e ∈ (c.stream i).log, e.2.done = false) →
        Becomes s (.gtxStreamWrite m i v)
          ((c.setStream i { c.stream i with held := some (BitVec.ofNat 32 w) }).busResp 0 0)) ∧
      (¬ free → Becomes s (.gtxStreamWrite m i v) ((c.ignored ((Reg.gtxStream).addr 12 [i])).busResp 0 0))) ∧
    (∀ i < 64, let w := putBits (c.written .cohSharer 12 [i] v) 30 12 0
      let free := bit w 31 = true → (∃ a b, c.node (bits w 11 0) = .ports a b) ∧ ∀ k, c.sharer? (bits w 11 0) = some k → k = i
      let sweeps := bits w 11 0 ∈ c.coh.sweeps ∨ bit (c.reg .cohSharer 12 [i]) 31 = true ∧ c.slotNode i ∈ c.coh.sweeps
      (free → ¬ sweeps → Becomes s (.cohSharerWrite m i v)
        ((({ c with coh := { c.coh with lostNodes := (c.coh.lostNodes.erase (bits w 11 0)).erase (c.slotNode i) } } : Chip).setReg
          .cohSharer 12 [i] w).busResp 0 0)) ∧
      (free → sweeps → Becomes s (.cohSharerWrite m i v)
        (({ c with coh := { c.coh with heldWr := (c.coh.heldWr.filter fun h => h.1 != i) ++ [(i, BitVec.ofNat 32 w)] } } : Chip).busResp 0 0)) ∧
      (¬ free → Becomes s (.cohSharerWrite m i v) ((c.ignored ((Reg.cohSharer).addr 12 [i])).busResp 0 0))) ∧
    (∀ die, 8 ≤ die → die < 12 → c.dieCut die = false → ∀ p < 64, let w := c.written .swcPartShare die [p] v
      let others := (((List.range 64).filter (· != p)).map (c.shareMin die)).sum
      (others + 16 * bits w 31 16 ≤ 196608 → bits w 31 16 ≤ min 14336 (bits w 15 0) →
        Becomes s (.swcPartShareWrite m die p v) ((c.setReg .swcPartShare die [p] w).busResp 0 0)) ∧
      (196608 < others + 16 * bits w 31 16 ∨ min 14336 (bits w 15 0) < bits w 31 16 →
        Becomes s (.swcPartShareWrite m die p v) ((c.ignored ((Reg.swcPartShare).addr die [p])).busResp 0 0))) ∧
    (∀ die < 8, c.dieCut die = false → Becomes s (.cohProbe m die v)
      (((c.setReg .cohProbeAddrHi die [] (c.written .cohProbeAddrHi die [] v)).probe die).busResp 0 0))

/-- Writes of DEV_SCRATCH, unaligned and unmapped accesses, a partition agent's write outside its registers, the _LO
read that latches, access timeouts, SHD_HOLD and its expiry, the refresh edge (no rebuild, line, saturation or
revocation having its turn) and the periodic vote over triplicated fields each leave the state the control chapter gives;
that the edge also empties the DRAM queues and acknowledges the die-to-die transfers is the model's choice (log entries 98
and 149). (R589, R591, R593, R595, R596, R599, R603,
R605) -/
def Obligations.ControlAccessesAct : Prop :=
  ∀ (s : State) (m : Master) (v : Word) (addr : Nat), s.chip.Still →
    let c := s.chip
    (m.code ≤ 8 → ∀ i < 4, let old := c.reg .devScratch 12 [i]
      Becomes s (.registerWrite m ((Reg.devScratch).addr 12 [i]) v) ((c.setReg .devScratch 12 [i]
        (putBits old 31 0 ((bits old 31 0 &&& (65535 - v.toNat / 65536)) ||| (v.toNat % 65536 &&& v.toNat / 65536)))).busResp 0 0)) ∧
    (m.code ≤ 10 → addr % 4 ≠ 0 → Becomes s (.registerWrite m addr v) ((c.accErr m addr 2 true).busResp 2 0)) ∧
    (m.code ≤ 10 → addr % 4 = 0 → slotAt addr = .unmapped → Becomes s (.registerWrite m addr v) ((c.accErr m addr 1 true).busResp 1 0)) ∧
    (m.code = 9 → c.accStatus m addr true = 0 → (slotAt addr).part ≠ some m.part →
      Becomes s (.registerWrite m addr v) ((c.bump .secPrvDrop 12).busResp 0 0)) ∧
    (∀ k die i, m.code ≤ 8 → addr % 4 = 0 → slotAt addr = .cnt k die i false → c.dieCut (addr / 2 ^ 44) = false →
      c.inert (slotAt addr) = false → Becomes s (.counterLoRead m addr)
        (({ c with ctl := { c.ctl with latch := kput c.ctl.latch (keyOf m * 16 + die) (k.addr die i, c.count k die i / 2 ^ 32) } } : Chip).busResp
          0 (c.count k die i % 2 ^ 32))) ∧
    (∀ wr, addr % 4 = 0 → slotAt addr ≠ .unmapped → addr / 2 ^ 44 < 12 →
      Becomes s (.controlAccessTimeout m addr wr) ((c.accErr m addr 4 wr).busResp 4 0)) ∧
    (m.code ≤ 8 → let set := c.setReg .devShdHold 12 [] (c.written .devShdHold 12 [] v)
      Becomes s (.devShdHoldWrite m v) (({ set with ctl := { set.ctl with
        holdAt := if bit (c.written .devShdHold 12 [] v) 31 then some c.tick else none } } : Chip).busResp 0 0)) ∧
    (∀ t, c.ctl.holdAt = some t → t + 1000 ≤ c.tick →
      let d := c.setFld .devShdHold 12 [] 31 31 0
      Becomes s .shdHoldExpiry { d with ctl := { d.ctl with holdAt := none } }) ∧
    (c.boot.running = true → c.pins.crystal = true → c.mem.rebuild ≠ 1 → c.mem.rebuild ≠ 2 → c.mem.cursorWait = [] → c.ctl.satEv = [] →
      (∀ p ∈ kkeys c.lnk.ports, c.carries p = false) → c.lnk.laneLocked = [] → (∀ p < 64, (c.partOf p).toStart = []) →
      let edge : Chip := { c with
        boot := { c.boot with tick := c.boot.tick + 1 }
        mem := { c.mem with dramQ := [] }
        swc := { c.swc with d2dTx := c.swc.d2dTx.map fun e => (e.1, { e.2 with out := [] }) } }
      ∃ t, exec .shadowRefresh s = .next t ∧ t.chip = edge ∧ t.pending = s.pending ∧
        ∀ d, kfind? t.snap d = if d < 13 ∧ c.shdHeld d = false then some t.chip else kfind? s.snap d) ∧
    (c.boot.running = true → c.pins.crystal = true → c.tick % 1000 = 0 → Rising c.ctl.tri → ∀ n, c.count .devTriFix 12 + c.ctl.tri.length = n → n < allOnes64 →
      ∃ t, exec (.triPeriodicVote []) s = .next t ∧ t.chip.ctl.tri = [] ∧ t.chip.count .devTriFix 12 = n ∧ t.snap = s.snap ∧ t.pending = s.pending ∧
        t.chip = { c with ctl := { c.ctl with tri := [], cnt := t.chip.ctl.cnt, sat := t.chip.ctl.sat, satEv := t.chip.ctl.satEv } })

/-- A privileged write of IRQ_CORE_CFG sets the core (and routes a waiting latch when it becomes enabled); of
IRQ_VEC_CFG takes effect when the ring's base is aligned and its node has ports, else sets CFG_IGNORED; of
MGT_RX_CFG takes effect at once or waits for a delivery in progress. (R470, R487, R542) -/
def Obligations.NotificationTablesAct : Prop :=
  ∀ (s : State) (m : Master) (v : Word), s.chip.Still → m.code ≤ 8 →
    let c := s.chip
    (∀ k < 8, let w := putBits (c.written .irqCoreCfg 12 [k] v) 29 29 0
      let d := c.setReg .irqCoreCfg 12 [k] w
      (bit (c.written .irqCoreCfg 12 [k] v) 31 = false ∨ bit (c.reg .irqCoreCfg 12 [k]) 31 = true ∨ (∀ e ∈ c.irq.latches, e.2.core.isSome = true) →
        Becomes s (.irqCoreCfgWrite m k v) ((d.resignal k).busResp 0 0)) ∧
      (∀ src l, bit (c.written .irqCoreCfg 12 [k] v) 31 = true → bit (c.reg .irqCoreCfg 12 [k]) 31 = false →
        c.irq.latches.filter (fun e => e.2.core.isNone) = [(src, l)] →
        Becomes s (.irqCoreCfgWrite m k v) (((d.routeLatch src).resignal k).busResp 0 0))) ∧
    (∀ p < 64, ∀ i < 8, let w := c.written .irqVecCfg 12 [p, i] v
      let base := c.reg .irqVecBase 12 [p, i, 0] + 2 ^ 32 * c.reg .irqVecBase 12 [p, i, 1]
      let ok := bit w 31 = true → base % max 128 (32 * 2 ^ max 2 (bits w 27 24)) = 0 ∧
        (bit w 30 = false → ∃ a b, c.node (bits w 11 0) = .ports a b)
      (ok → Becomes s (.irqVecCfgWrite m p i v)
        ((({ c with irq := { c.irq with seq := kdel c.irq.seq (p * 8 + i) } } : Chip).setReg .irqVecCfg 12 [p, i] w).busResp 0 0)) ∧
      (¬ ok → Becomes s (.irqVecCfgWrite m p i v) ((c.ignored ((Reg.irqVecCfg).addr 12 [p, i])).busResp 0 0))) ∧
    (∀ p < 64, let w := c.written .mgtRxCfg 12 [p] v
      let others := c.mgt.heldRx.filter fun h => h.1 != p
      ((∀ j ∈ c.mgt.rings, j.part = p → j.phase = 0) → Becomes s (.mgtRxCfgWrite m p v)
        ((({ c with mgt := { c.mgt with heldRx := others } } : Chip).setReg .mgtRxCfg 12 [p] (putBits (BitVec.ofNat 32 w).toNat 30 30 0)).busResp 0 0)) ∧
      ((∃ j ∈ c.mgt.rings, j.part = p ∧ 1 ≤ j.phase) → Becomes s (.mgtRxCfgWrite m p v)
        (({ c with mgt := { c.mgt with heldRx := others ++ [(p, BitVec.ofNat 32 w)] } } : Chip).busResp 0 0)))

/-- Training, retrain and credit timeouts, GOING_DOWN from the peer, the end of a test and a DOWN command put an
empty port in FAILED or DOWN with the cause of the link chapter, all its link state gone. (R316, R318, R325,
R327, R335, R338) -/
def Obligations.LinksFailAndGoDown : Prop :=
  ∀ (s : State) (p : Nat) (h : FlitHdr) (b : CtrlBody), s.chip.Still → s.chip.NoRings →
    let c := s.chip
    let q := c.port p
    (c.LinkEmpty p →
      (q.st = .train → q.enterTick + max 1 (c.fld .lnkGlb (portDie p) [] 31 16) * 1000 ≤ c.tick →
        NotesTo s (.trainTimeout p) (c.linkGone p .failed 6)) ∧
      (q.st = .retrain → q.enterPcs + c.retrainTmo p ≤ q.pcs → NotesTo s (.retrainTimeout p) (c.linkGone p .failed 7)) ∧
      (∀ vc < 4, c.usable p = true → q.avail vc = 0 → q.credSince.getD vc 0 + c.credTmo p ≤ q.pcs →
        NotesTo s (.creditTimeout p vc) (c.linkGone p .failed 5)) ∧
      (c.portExists p = true → q.st = .train → NotesTo s (.goingDown p h b) (c.linkGone p .failed 9)) ∧
      (c.portExists p = true → q.st = .test → NotesTo s (.testExit p) (c.linkGone p .down 10)) ∧
      (c.portExists p = true → q.st = .failed → NotesTo s (.down p) (c.linkGone p .down 10)) ∧
      (c.portExists p = true → c.usable p = true → NotesTo s (.down p)
        ((c.modPort p fun q => { q with lastTx := q.flitBytes { ftype := 2, seq := q.txSeq } (ctrlBytes 6 (c.ctrlBody p q.lanes q.width 0)) }).linkGone
          p .down 10))) ∧
    ((c.rxHdr p h).LinkEmpty p → c.portExists p = true → c.usable p = true → h.nak = false →
      NotesTo s (.goingDown p h b) ((c.rxHdr p h).linkGone p .failed 9))

/-- Lane lock, restart and auto-restart of a FAILED port, test entry, the configuration write that starts training,
the first TRAIN_REC and the TRAIN_ACK that ends training at the best common width act as the link chapter says; a pattern
checker whose lane's port leaves DOWN for TRAIN is no longer locked, and equal ranks do not end the training of a port in
TEST. In DEAD no port leaves DOWN.
(R316, R318, R330, R333, R334, R337, R338, R439) -/
def Obligations.LinksTrain : Prop :=
  ∀ (s : State) (p : Nat) (h : FlitHdr) (b : CtrlBody), s.chip.Still → s.chip.portExists p = true →
    let c := s.chip
    let q := c.port p
    let start := fun (c : Chip) (st : LinkState) => (c.modPort p fun q => { q with
      st := st, lanes := 0, width := c.portWidth p, enterTick := c.tick, enterPcs := q.pcs, locked := 0, recSeen := false
      acked := false, peerLanes := 0, keepLanes := c.goodLanes p, lastCtrl := 0, ctrlTx := [], own := none, withdrawn := none
      resumeAck := false, prbsTx := 0x7FFFFFFF, prbsRx := 0x7FFFFFFF }).dropLocks
    (∀ lane, bit (c.goodLanes p) lane = true → q.st ≠ .down → q.st ≠ .failed →
      Becomes s (.laneLock p lane) (c.modPort p fun q => { q with locked := q.locked ||| 2 ^ lane })) ∧
    (q.st = .failed → c.linkOn p = true →
      Becomes s (.restart p) (start c .train) ∧
      (bit (c.portReg .lnkPortCfg p) 30 = true → q.enterTick + max 1 (c.fld .lnkGlb (portDie p) [] 15 0) * 1000 ≤ c.tick →
        Becomes s (.autoRestart p) (start c .train))) ∧
    (q.st = .failed ∨ q.st = .down → c.enabled 2 (portDie p) = true → c.boot.state ≠ .dead →
      Becomes s (.testEnter p) (start c .test)) ∧
    (c.boot.state = .dead → c.linkOn p = false ∧ (q.st = .down → Becomes s (.testEnter p) (c.cmdIgnored p))) ∧
    (∀ (m : Master) (v : Word), m.code ≤ 8 → p < 64 → c.dieCut (portDie p) = false → q.st = .down →
      let w := c.written .lnkPortCfg (portDie p) [portLocal p] v
      let d := c.setReg .lnkPortCfg (portDie p) [portLocal p] w
      bits w 29 28 = bits (c.portReg .lnkPortCfg p) 29 28 → d.portExists p = true →
      Becomes s (.lnkPortCfgWrite m p v) ((if d.linkOn p then start d .train else d).busResp 0 0)) ∧
    (q.st = .down → c.linkOn p = true → Becomes s (.flitSend p) (start c .train)) ∧
    (q.st = .train → q.offer ≠ 0 → c.keysOk p b.enc = true → b.rank ≠ c.rank p →
      ∀ l w, bestSet (q.offer &&& (b.lanes % 16)) = some (l, w) → c.minWidth p ≤ w →
      Becomes s (.trainRec p h b) ((c.modPort p fun q => { q with
        recSeen := true, peerLanes := b.lanes % 16, peerRank := b.rank, peerEnc := b.enc, acked := true
        ctrlTx := q.ctrlTx ++ [(2, c.ctrlBody p l w b.reqId)] }).portBump .lnkFlitsRx p)) ∧
    (s.chip.NoRings → q.st = .test → q.lanes = 0 → q.offer ≠ 0 → c.keysOk p b.enc = true → b.rank = c.rank p → q.acked = false →
      ∀ l w, bestSet (q.offer &&& (b.lanes % 16)) = some (l, w) →
      NotesTo s (.trainRec p h b) (c.modPort p fun q => { q with
        recSeen := true, peerLanes := b.lanes % 16, peerRank := b.rank, peerEnc := b.enc, cause := 8, acked := true
        ctrlTx := q.ctrlTx ++ [(2, c.ctrlBody p l w b.reqId)] })) ∧
    (s.chip.NoRings → q.st = .train → q.acked = true → ∀ l w, bestSet (q.offer &&& q.peerLanes) = some (l, w) →
      (w < c.minWidth p → c.LinkEmpty p → NotesTo s (.trainAck p h b) (c.linkGone p .failed 11)) ∧
      (c.minWidth p ≤ w → NotesTo s (.trainAck p h b) (c.modPort p fun q => { q.freshLink w b.initCred (if c.authEnc p then q.nextKeys else none) with
        st := if w = c.portWidth p then .active else .narrow
        lanes := l, width := w, enterTick := c.tick, enterPcs := q.pcs, own := none
        credSince := [q.pcs, q.pcs, q.pcs, q.pcs], upOnce := true
        gate := { q.gate with entry := 0, start := q.pcs } })))

/-- The commands RETRAIN and NARROW, the resending of a control message, loss of framing lock, the peer's
RETRAIN_REQ and WIDTH_REQ and its ACCEPT act as the link chapter says, keeping the reason of the end that began.
(R313, R322, R328, R329, R330, R338) -/
def Obligations.LinksRetrain : Prop :=
  ∀ (s : State) (p : Nat) (h : FlitHdr) (b : CtrlBody), s.chip.Still → s.chip.NoRings → s.chip.portExists p = true →
    s.chip.usable p = true → h.nak = false →
    let c := s.chip
    let q := c.port p
    let asks := fun (o : OwnReq) => c.modPort p fun q => { q with
      own := some { o with reqId := q.nextReqId }, nextReqId := (q.nextReqId + 1) % 65536, lastCtrl := q.pcs
      ctrlTx := q.ctrlTx ++ [(o.ctype, c.ctrlBody p o.lanes o.width q.nextReqId)] }
    let retrains := fun (c : Chip) (cause keep : Nat) => c.modPort p fun q => { q with
      st := .retrain, cause := cause, enterTick := c.tick, enterPcs := q.pcs, recSeen := false, acked := false
      peerLanes := 0, keepLanes := keep, lastCtrl := 0, own := none, resend := [] }
    let sends := fun (c : Chip) (t l w r : Nat) => c.modPort p fun q => { q with ctrlTx := q.ctrlTx ++ [(t, c.ctrlBody p l w r)] }
    (q.own = none → Becomes s (.retrain p) (asks { ctype := 3, lanes := q.lanes, width := q.width, cause := 10 })) ∧
    (q.own = none → ∀ l w, (l, w) ∈ laneSets → l &&& q.lanes = l → w < q.width → c.minWidth p ≤ w →
      Becomes s (.narrow p l) (asks { ctype := 4, lanes := l, width := w, cause := 10 })) ∧
    (∀ o, q.own = some o → q.lastCtrl + 256 ≤ q.pcs →
      Becomes s (.ctrlResend p) (sends (c.modPort p fun q => { q with lastCtrl := q.pcs }) o.ctype o.lanes o.width o.reqId)) ∧
    (∀ lanes, q.lanes &&& (lanes % 16) ≠ 0 → q.own = none →
      NotesTo s (.framingLockLoss p lanes) ((retrains (sends (c.modPort p fun q => { q with
          locked := q.locked &&& (0xF ^^^ (lanes % 16)) }) 3 q.lanes q.width q.nextReqId) 1 q.lanes).modPort p fun r => { r with
        own := some { ctype := 3, lanes := q.lanes, width := q.width, cause := 1, reqId := q.nextReqId }
        nextReqId := (q.nextReqId + 1) % 65536 })) ∧
    (let d := c.rxHdr p h;
      (d.port p).own = none →
        NotesTo s (.retrainReq p h b) (retrains (sends d 5 (d.port p).lanes (d.port p).width b.reqId) 9 (c.goodLanes p)) ∧
        NotesTo s (.widthReq p h b) (retrains (sends d 5 (d.port p).lanes (d.port p).width b.reqId) 9 (c.goodLanes p &&& (b.lanes % 16)))) ∧
    (let d := c.rxHdr p h;
      ∀ o, (d.port p).own = some o → o.reqId = b.reqId →
        NotesTo s (.accept p h b) (retrains d o.cause (if o.ctype = 4 ∨ o.cause ≠ 10 then o.lanes else c.goodLanes p)))

/-- Every 100 ticks an evaluation of the cap loop raises or lowers the cap by a step, sets each rail that is on between
its floor and its setting, to be written at the next poll, leaves a rail that is off, and counts the evaluations in a row
with every rail at its floor above the cap. Every 50 ticks a poll of the twelve rails records each one's voltage, current
and power, or one more silence, writes a setpoint that waits, judges the rail that is on by its last polls (not within 200
ticks of a write), and sums the powers; a rail newly in fault is raised, and in service ends in RECOVERY. A poll or an
evaluation before its time does nothing. (R574, R575, R577) -/
def Obligations.PowerIsPolledAndCapped : Prop :=
  ∀ s : State, s.chip.Still →
    let c := s.chip
    let step := max 1 (c.fld .pwrGlb 12 [] 7 0)
    (c.pmbusRuns = false ∨ c.enabled 0x14 12 = false ∨ c.tick < c.pwr.evalAt + 100 → Becomes s .capLoopEvaluation c) ∧
    (c.pmbusRuns = true → c.enabled 0x14 12 = true → c.pwr.evalAt + 100 ≤ c.tick →
      ∃ t, exec .capLoopEvaluation s = .next t ∧ t.snap = s.snap ∧ t.pending = s.pending ∧
        t.chip = ({ c with pwr := { c.pwr with
          rails := t.chip.pwr.rails, capMv := t.chip.pwr.capMv, overCap := t.chip.pwr.overCap, evalAt := c.tick } } : Chip).raising t.chip ∧
        t.chip.pwr.capMv = (
          if (c.pcap < c.pwr.coreW ∨ c.pwr.warn = true) ∧ c.pwr.capMv < 200 then min 200 (c.pwr.capMv + step)
          else if c.pwr.coreW + 100 < c.pcap ∧ c.pwr.warn = false then c.pwr.capMv - step
          else c.pwr.capMv) ∧
        (∀ n < 12,
          let v := clampMv (max (c.floorMv n) (c.setMv n - t.chip.pwr.capMv))
          t.chip.rail n = if (c.rail n).on = true ∧ (c.rail n).command ≠ v then { c.rail n with command := v, pending := true } else c.rail n) ∧
        t.chip.pwr.overCap = (
          if c.pcap < c.pwr.coreW ∧ ∀ n < 12, clampMv (max (c.floorMv n) (c.setMv n - t.chip.pwr.capMv)) = c.floorMv n then
            (if c.pwr.overCap + 1 < 100 then c.pwr.overCap + 1 else 0)
          else 0)) ∧
    (∀ xs : List RailPoll, xs.length = 12 →
      (c.pmbusRuns = false ∨ c.tick < c.pwr.polledAt + 50 → Becomes s (.pmbusPoll xs) c) ∧
      (c.pmbusRuns = true → c.pwr.polledAt + 50 ≤ c.tick →
        let x (n : Nat) := xs.getD n {}
        let far (n : Nat) : Prop := (c.rail n).command + 40 < (x n).vout ∨ (x n).vout + 40 < (c.rail n).command
        let bad (n : Nat) : Nat := if (c.rail n).pending = false ∧ (c.rail n).wroteAt + 200 ≤ c.tick then
          (if far n then (c.rail n).bad + 1 else 0) else (c.rail n).bad
        let silent (n : Nat) : Nat := if (x n).answered = true then 0 else (c.rail n).silent + 1
        let fault (n : Nat) : Nat :=
          if (c.rail n).on = false then (c.rail n).fault
          else if 3 ≤ silent n then 3
          else if (x n).answered = true ∧ (x n).statusFault = true then 2
          else if 2 ≤ (if (x n).answered = true then bad n else (c.rail n).bad) then 1 else 0
        let polled (n : Nat) : Rail :=
          if (x n).answered = true then
            { c.rail n with vout := (x n).vout, iout := (x n).iout, pout := (x n).pout, silent := 0, bad := bad n, fault := fault n
                            pending := false, wroteAt := if (c.rail n).pending = true then c.tick else (c.rail n).wroteAt }
          else { c.rail n with silent := silent n, fault := fault n }
        (c.inService = false ∨ (∀ n < 12, fault n = 0 ∨ fault n = (c.rail n).fault) →
          ∃ t, exec (.pmbusPoll xs) s = .next t ∧ t.snap = s.snap ∧ t.pending = s.pending ∧
            t.chip = ({ c with pwr := { c.pwr with
              rails := t.chip.pwr.rails, pmbus := t.chip.pwr.pmbus, coreW := t.chip.pwr.coreW, polledAt := c.tick } } : Chip).raising t.chip ∧
            (∀ n < 12, t.chip.rail n = polled n) ∧ (∀ n, 12 ≤ n → t.chip.rail n = c.rail n) ∧
            t.chip.pwr.coreW = ((List.range 12).map fun n => (polled n).pout).sum) ∧
        (c.inService = true → c.Idle → (∀ y ∈ c.mgt.sessions, y.kind = 0) → (∀ y ∈ c.mgt.handshakes, y.kind = 0) →
          (∃ n < 12, fault n ≠ 0 ∧ fault n ≠ (c.rail n).fault) →
          ∃ t, exec (.pmbusPoll xs) s = .next t ∧ t.chip.boot.state = .recovery ∧ t.chip.dump.cause = Ev.railFault ∧
            t.chip.pins.faultN = true ∧ ∀ n < 12, t.chip.rail n = polled n)))

/-- THERM_WARN records the die temperatures, raises the warning at the threshold and clears it 5 degrees below; a
die at 115 or more, with nothing in progress, takes the module to RECOVERY with the cap at its deepest step.
(R550, R578) -/
def Obligations.TemperatureActs : Prop :=
  ∀ s : State, s.chip.Still → s.chip.pmbusRuns = true →
    (∀ temps : List Nat,
      let ts : KMap Nat := (temps.take 12).zipIdx.map fun e => (e.2, e.1)
      let seen : Chip := { s.chip with pwr := { s.chip.pwr with temps := ts } }
      (s.chip.pwr.warn = false → s.chip.warnC ≤ seen.tjMax →
        RaisesTo s (.thermWarn temps) { s.chip with pwr := { s.chip.pwr with temps := ts, warn := true } }) ∧
      (s.chip.pwr.warn = false → seen.tjMax < s.chip.warnC → exec (.thermWarn temps) s = .next { s with chip := seen }) ∧
      (s.chip.pwr.warn = true → s.chip.warnC < seen.tjMax + 5 → exec (.thermWarn temps) s = .next { s with chip := seen }) ∧
      (s.chip.pwr.warn = true → seen.tjMax + 5 ≤ s.chip.warnC →
        exec (.thermWarn temps) s = .next { s with chip := { s.chip with pwr := { s.chip.pwr with temps := ts, warn := false } } })) ∧
    (∀ die temp, die < 12 → 115 ≤ temp → s.chip.Idle → s.chip.enabled 0x14 12 = false →
      (s.chip.boot.state = .service ∨ s.chip.boot.state = .degraded ∨ s.chip.boot.state = .waitOwner) →
      (∀ y ∈ s.chip.mgt.sessions, y.kind = 0) → (∀ y ∈ s.chip.mgt.handshakes, y.kind = 0) →
      RaisesTo s (.thermTrip die temp) (({ s.chip with
        pwr := { s.chip.pwr with temps := kput s.chip.pwr.temps die temp, capMv := 200 } } : Chip).recovering Ev.thermTrip))

/-- REG_READ of 1 to 1,024 addresses reads them in list order, each as a privileged access, and returns the tick, the
words (zero where an access fails) and the status of the first that failed: for registers that are mapped and reached,
their words, the module as it was. REG_WRITE writes 1 to 1,024 entries in order until one fails, and returns how many it
applied: for one good word of DEV_SCRATCH, one. CNT_READ returns the time and the counters; CNT_CLEAR the value it
cleared. Lists of no or more than 1,024 entries are MALFORMED. (R494, R531, R532) -/
def Obligations.RegisterCommandsComplete : Prop :=
  ∀ (s : State) (sess reqId : Nat) (x : Session), s.chip.Still →
    let now := natLE 4 (s.chip.boot.tick % 2 ^ 32) ++ zerosB 4
    let owner : Master := { code := 8 }
    (s.chip.Asks sess reqId 0x0701 x → ∀ addrs : List Nat, 1 ≤ addrs.length → addrs.length ≤ 1024 →
      (let r := addrs.foldl (fun (a : Nat × Bytes × Chip) k =>
        let y := a.2.2.ctlRead s.snap owner k
        (if a.1 = 0 then accCmd y.1 else a.1, a.2.1 ++ natLE 4 y.2.1, y.2.2)) (0, [], s.chip)
       Settles s (.regRead sess reqId addrs) (r.2.2.finishCmd sess reqId 0x0701 r.1 0 (now ++ r.2.1))) ∧
      ∀ val : Nat → Nat, (∀ a ∈ addrs, a % 4 = 0 ∧ s.chip.dieCut (a / 2 ^ 44) = false ∧ s.chip.inert (slotAt a) = false ∧
          ∃ r die i, slotAt a = .reg r die i ∧ r ≠ .irqAck ∧ r.triMask = 0 ∧
            val a = clearMask (readWord (kfind? s.snap die) s.chip r die i) (absentMask r die i)) →
        CompletesWith s (.regRead sess reqId addrs) sess reqId 0x0701 0 (now ++ addrs.flatMap fun a => natLE 4 (val a))
          fun _ => s.chip) ∧
    (s.chip.Asks sess reqId 0x0703 x → ∀ (addrs : List Nat) (val : Nat → Nat), 1 ≤ addrs.length → addrs.length ≤ 1024 →
      (∀ a ∈ addrs, s.chip.accStatus owner a false = 0 ∧
        ∃ k die idx, slotAt a = .cnt k die idx false ∧ s.chip.inert (slotAt a) = false ∧ val a = s.chip.count k die idx) →
      CompletesWith s (.cntRead sess reqId addrs) sess reqId 0x0703 0 (now ++ addrs.flatMap fun a => natLE 8 (val a))
        fun _ => s.chip) ∧
    (s.chip.Asks sess reqId 0x0704 x → ∀ a k die idx, s.chip.accStatus owner a false = 0 → slotAt a = .cnt k die idx false →
      s.chip.inert (slotAt a) = false →
      CompletesWith s (.cntClear sess reqId [a]) sess reqId 0x0704 0 (now ++ natLE 8 (s.chip.count k die idx))
        fun _ => s.chip.clearCnt k die idx) ∧
    (s.chip.Asks sess reqId 0x0702 x → ∀ es : List RegEntry,
      (1 ≤ es.length → es.length ≤ 1024 →
        let r := s.chip.writeEntries s.snap owner es 0
        Settles s (.regWrite sess reqId es) (r.2.2.finishCmd sess reqId 0x0702 r.1 0 (natLE 2 r.2.1 ++ zerosB 2))) ∧
      (es.length = 0 ∨ 1024 < es.length →
        CompletesWith s (.regWrite sess reqId es) sess reqId 0x0702 4 [] fun _ => s.chip) ∧
      (∀ i < 4, ∀ v : Word, es = [{ addr := (Reg.devScratch).addr 12 [i], value := v, mask := 0xFFFFFFFF }] →
        let old := s.chip.reg .devScratch 12 [i]
        CompletesWith s (.regWrite sess reqId es) sess reqId 0x0702 0 (natLE 2 1 ++ zerosB 2) fun _ =>
          s.chip.setReg .devScratch 12 [i] (putBits old 31 0
            ((bits old 31 0 &&& (65535 - v.toNat / 65536)) ||| (v.toNat % 65536 &&& v.toNat / 65536))))) ∧
    (∀ n : Nat, n = 0 ∨ 1024 < n → ∀ a,
      (s.chip.Asks sess reqId 0x0701 x →
        CompletesWith s (.regRead sess reqId (List.replicate n a)) sess reqId 0x0701 4 [] fun _ => s.chip) ∧
      (s.chip.Asks sess reqId 0x0703 x →
        CompletesWith s (.cntRead sess reqId (List.replicate n a)) sess reqId 0x0703 4 [] fun _ => s.chip))

/-- REGION_CREATE takes the lowest free slot with the next generation and a key from the TRNG, or answers MALFORMED
or DENIED; DELETE removes a region (or waits for its revocation); GRANT_ADD adds the node's grant; REGION_REVOKE
and GRANT_REMOVE start the revocation that runs on. (R432, R433, R434, R610) -/
def Obligations.RegionCommandsComplete : Prop :=
  ∀ (s : State) (sess reqId : Nat) (x : Session), s.chip.Still →
    (s.chip.Asks sess reqId 0x0401 x → ∀ part obj base len objOff,
      (64 ≤ part → CompletesWith s (.regionCreate sess reqId part obj base len objOff) sess reqId 0x0401 4 [] fun _ => s.chip) ∧
      (part < 64 → objIdOk obj = true → (s.chip.obj obj).st ≠ 0 →
        ((s.chip.obj obj).part ≠ part →
          CompletesWith s (.regionCreate sess reqId part obj base len objOff) sess reqId 0x0401 3 [] fun _ => s.chip) ∧
        ((s.chip.obj obj).part = part → base % 4096 = 0 → len % 4096 = 0 → objOff % 4096 = 0 → base + len ≤ 2 ^ 52 →
          objOff + len ≤ ((s.chip.obj obj).size + 4095) / 4096 * 4096 → s.chip.rangeFree part base len none = true →
          s.chip.inHandoff obj = false → ∀ slot gen, ((List.range 4096).find? fun k => !(s.chip.region k).valid) = some slot →
          gen = (if (s.chip.region slot).gen = 15 then 1 else (s.chip.region slot).gen + 1) →
          CompletesWith s (.regionCreate sess reqId part obj base len objOff) sess reqId 0x0401 0
            (natLE 2 (gen * 4096 + slot) ++ natLE 1 0 ++ zerosB 1) fun _ =>
            let r : Region := { valid := true, gen := gen, part := part, obj := obj, base := base, len := len, objOff := objOff,
                                key := bytesOf 32 (Config.trng s.chip.draws) }
            { s.chip with draws := s.chip.draws + 1, sec := { s.chip.sec with regions := ksetD s.chip.sec.regions slot {} r } }))) ∧
    ∀ handle slot, s.chip.regionOf handle = some slot →
      ((s.chip.region slot).revoking = false →
        (s.chip.Asks sess reqId 0x0403 x →
          CompletesWith s (.regionDelete sess reqId handle) sess reqId 0x0403 0 [] fun _ => s.chip.regionRemove slot) ∧
        (s.chip.Asks sess reqId 0x0404 x → ∀ node rights c, node < 4096 → rights = 1 ∨ rights = 2 ∨ rights = 3 →
          (kgetD s.chip.sec.nodes node {}).valid = true → s.chip.addGrant slot node rights = some c →
          CompletesWith s (.grantAdd sess reqId handle node rights) sess reqId 0x0404 0 [] fun _ => c) ∧
        (s.chip.Asks sess reqId 0x0402 x →
          RunsOn s (.regionRevoke sess reqId handle) sess reqId 0x0402 slot
            (s.chip.revokeStart { slot := slot, cmd := some (sess, reqId, 0x0402) } none)) ∧
        (s.chip.Asks sess reqId 0x0405 x → ∀ node, node < 4096 → s.chip.hasGrant slot node = true →
          RunsOn s (.grantRemove sess reqId handle node) sess reqId 0x0405 slot
            (s.chip.revokeStart { slot := slot, cmd := some (sess, reqId, 0x0405) } (some node)))) ∧
      ((s.chip.region slot).revoking = true → s.chip.Asks sess reqId 0x0403 x →
        RunsOn s (.regionDelete sess reqId handle) sess reqId 0x0403 slot { s.chip with
          sec := { s.chip.sec with waits := s.chip.sec.waits ++ [{ slot := slot, sess := sess, reqId := reqId, opc := 0x0403 }] } })

/-- A revocation older than its limit raises REVOKE_SLOW once; when no old-epoch request is left the region leaves
REVOKING, and the command that began it is answered OK with the new epoch. (R436) -/
def Obligations.RevocationsRetire : Prop :=
  ∀ (s : State) (slot : Nat) (rv : Revoke), s.chip.Still → (s.chip.sec.revokes.find? fun r => r.slot == slot) = some rv →
    (rv.slow = false → rv.start + 1000 * max 1 (s.chip.fld .secGlb 12 [] 31 16) ≤ s.chip.boot.tick →
      let rs := modFirst (fun r : Revoke => r.slot == slot) (fun r => { r with slow := true }) s.chip.sec.revokes
      RaisesTo s (.revokeSlow slot) { s.chip with sec := { s.chip.sec with revokes := rs } }) ∧
    (s.chip.oldCount slot = 0 → s.chip.NoRings → (s.chip.region slot).part < 64 → rv.reset = false → s.chip.sec.waits = [] →
      (s.chip.partOf (s.chip.region slot).part).st ≠ .resetting →
      let c : Chip := { s.chip with sec := { s.chip.sec with
        regions := ksetD s.chip.sec.regions slot {} { s.chip.region slot with revoking := false }
        revokes := s.chip.sec.revokes.filter fun r => r.slot != slot } }
      (rv.cmd = none → NotesTo s (.revokeRetireDone slot) c) ∧
      (∀ sess reqId opc x run, rv.cmd = some (sess, reqId, opc) → s.chip.session? sess = some x →
        (x.running.find? fun r => r.reqId == reqId) = some run →
        ∃ t, exec (.revokeRetireDone slot) s = .next t ∧ t.chip = c.noting t.chip ∧
          t.chip.lastReply sess = some (reqId, run.opc, 0, 0, natLE 1 (s.chip.region slot).epoch)))

/-- PART_CREATE of a FREE partition on a NONE node enters BUILDING and writes the node's entry, else STATE; ACTIVATE
of a BUILDING one with shares and a vector enters ACTIVE and seeds its LFSR; RESET and DELETE enter DRAINING,
DELETE of one that owns anything answers STATE; a reset of a draining or resetting partition is refused and
counted. (R458, R459, R460, R461, R462, R466) -/
def Obligations.PartitionCommandsComplete : Prop :=
  ∀ (s : State) (sess reqId p : Nat) (x : Session), s.chip.Still → s.chip.prtOn = true → p < 64 →
    (s.chip.Asks sess reqId 0x0501 x → ∀ n, n < 4096 →
      ((s.chip.partOf p).st = .free → s.chip.node n = .none → s.chip.localNode p = none →
        CompletesWith s (.partCreate sess reqId p n) sess reqId 0x0501 0 [] fun _ =>
          ((s.chip.setReg .gtxNode 12 [n] (2 ^ 30 + p * 2 ^ 24)).freshTags p).setPart p { st := .building, node := n }) ∧
      ((s.chip.partOf p).st ≠ .free ∨ s.chip.node n ≠ .none ∨ s.chip.localNode p ≠ none → CompletesWith s (.partCreate sess reqId p n) sess reqId 0x0501 2 [] fun _ => s.chip)) ∧
    (s.chip.Asks sess reqId 0x0502 x → (s.chip.partOf p).st = .building → s.chip.NoRings →
      (∀ d ∈ [8, 9, 10, 11], s.chip.fld .swcPartShare d [p] 31 16 ≠ 0) →
      (∃ v < 8, bit (s.chip.reg .irqVecCfg 12 [p, v]) 31 = true) →
      CompletesWith s (.partActivate sess reqId p) sess reqId 0x0502 0 [] fun t =>
        ((s.chip.setPart p { s.chip.partOf p with st := .active }).seedLfsr p).noting t) ∧
    (s.chip.Asks sess reqId 0x0502 x → (s.chip.partOf p).st ≠ .building →
      CompletesWith s (.partActivate sess reqId p) sess reqId 0x0502 2 [] fun _ => s.chip) ∧
    ((s.chip.partOf p).st = .building ∨ (s.chip.partOf p).st = .active →
      (s.chip.Asks sess reqId 0x0503 x →
        Settles s (.partReset sess reqId p) ((s.chip.startReset p false).finishCmd sess reqId 0x0503 0 0 [])) ∧
      (s.chip.Asks sess reqId 0x0504 x → s.chip.ownsAny p = false →
        Settles s (.partDelete sess reqId p) ((s.chip.startReset p true).finishCmd sess reqId 0x0504 0 0 []))) ∧
    ((s.chip.partOf p).st = .building ∨ (s.chip.partOf p).st = .active → s.chip.Idle →
      let v := s.chip.partOf p
      (s.chip.Asks sess reqId 0x0503 x →
        CompletesWith s (.partReset sess reqId p) sess reqId 0x0503 0 [] fun _ =>
          s.chip.setPart p { v with st := .draining, step := 2, deleting := false, from_ := v.st, drainAt := s.chip.boot.tick,
                                    timedOut := false, toRevoke := [], toStart := [] }) ∧
      (s.chip.Asks sess reqId 0x0504 x → s.chip.ownsAny p = false →
        CompletesWith s (.partDelete sess reqId p) sess reqId 0x0504 0 [] fun _ =>
          s.chip.setPart p { v with st := .draining, step := 2, deleting := true, from_ := v.st, drainAt := s.chip.boot.tick,
                                    timedOut := false, toRevoke := [], toStart := [] }) ∧
      (s.chip.Asks sess reqId 0x0504 x → s.chip.ownsAny p = true →
        CompletesWith s (.partDelete sess reqId p) sess reqId 0x0504 2 [] fun _ => s.chip)) ∧
    ((s.chip.partOf p).st = .draining ∨ (s.chip.partOf p).st = .resetting → s.chip.Asks sess reqId 0x0503 x →
      CompletesWith s (.partReset sess reqId p) sess reqId 0x0503 2 [] fun _ => s.chip.bump .prtResetRefused 12 [p])

/-- With nothing in progress, no region of the partition and no revocation having its turn, the drain's end or its
timeout passes a DRAINING partition to RESETTING and starts the directory sweep, and the sweep's end returns it to the
state it came from, memory and security unchanged. (R415, R464, R465) -/
def Obligations.PartitionResetsRun : Prop :=
  ∀ (s : State) (p : Nat), s.chip.Idle → s.chip.NoRings → p < 64 → s.chip.resetsRun = true → s.chip.coh.ents = [] →
    (∀ e ∈ s.chip.sec.regions, e.2.part ≠ p) → (∀ q < 64, q ≠ p → (s.chip.partOf q).toStart = []) →
    let v := s.chip.partOf p
    (v.st = .draining →
      exec (.drainEnd p) s = .next { s with chip := { s.chip with
        parts := ksetD (ksetD s.chip.parts p {} { v with st := .resetting, step := 3, toRevoke := [], toStart := [] }) p {}
          { v with st := .resetting, step := 4, toRevoke := [], toStart := [] }
        coh := { s.chip.coh with partSweeps := s.chip.coh.partSweeps ++ [(p, [])] } } }) ∧
    (v.st = .draining → v.drainAt + max 1 (s.chip.fld .prtGlb 12 [] 15 0) ≤ s.chip.boot.tick →
      ∃ t, exec (.drainTimeout p) s = .next t ∧ (t.chip.partOf p).st = .resetting ∧ (t.chip.partOf p).step = 4 ∧
        (t.chip.partOf p).timedOut = true ∧
        t.chip.coh = { s.chip.coh with partSweeps := s.chip.coh.partSweeps ++ [(p, [])] } ∧
        t.chip.dsp = s.chip.dsp ∧ t.chip.mem = s.chip.mem) ∧
    (v.st = .resetting → v.step = 4 → s.chip.coh.partSweeps.contains (p, []) = true → v.deleting = false → s.chip.bowls = [] →
      ∃ t, exec (.partitionSweepDone p) s = .next t ∧ (t.chip.partOf p) = { st := v.from_, node := v.node } ∧
        t.chip.coh = { s.chip.coh with partSweeps := s.chip.coh.partSweeps.erase (p, []) } ∧
        t.chip.mem = s.chip.mem ∧ t.chip.sec = s.chip.sec)

/-- QUOTE returns the report with both signatures and uses one leaf; with the tree used up it answers STATE, while a
tree is built it waits; TREE_NEW starts a build, whose end leaves a fresh seeded tree at leaf 0 and answers the
command. (R430, R431, R448) -/
def Obligations.QuotesAndTrees : Prop :=
  ∀ (s : State) (sess reqId : Nat) (x : Session), s.chip.Still →
    (s.chip.Asks sess reqId 0x0101 x → ∀ nonce : Bytes,
      (s.chip.sec.treeBusy = false → s.chip.sec.treeReady = true → s.chip.sec.leaf < 1024 →
        let r := s.chip.report nonce
        let d := Config.sha384 r
        CompletesWith s (.quote sess reqId nonce) sess reqId 0x0101 0
          (r ++ Config.ecdsaSign s.chip.sec.idKey d (Config.trng s.chip.draws) ++
            Config.lmsSign s.chip.sec.treeSeed s.chip.sec.leaf d) fun _ =>
          { s.chip with
            draws := s.chip.draws + 1
            sec := { s.chip.sec with leaf := s.chip.sec.leaf + 1, quoteNonces := s.chip.sec.quoteNonces ++ [nonce] } }) ∧
      (s.chip.sec.treeBusy = false → 1024 ≤ s.chip.sec.leaf →
        CompletesWith s (.quote sess reqId nonce) sess reqId 0x0101 2 [] fun t => s.chip.raising t) ∧
      (s.chip.sec.treeBusy = true →
        RunsOn s (.quote sess reqId nonce) sess reqId 0x0101 0 { s.chip with
          sec := { s.chip.sec with quoteWait := s.chip.sec.quoteWait ++ [(sess, reqId, nonce)] } })) ∧
    (s.chip.Asks sess reqId 0x0102 x →
      (s.chip.sec.treeBusy = false →
        RunsOn s (.treeNew sess reqId) sess reqId 0x0102 0 { s.chip with
          sec := { s.chip.sec with treeBusy := true, treeAt := s.chip.boot.tick, treeCmd := [(sess, reqId)] } })) ∧
    (∀ run, s.chip.session? sess = some x → (x.running.find? fun r => r.reqId == reqId) = some run →
      s.chip.boot.state ≠ .bringup → s.chip.sec.treeBusy = true → s.chip.sec.treeAt + 120000 ≤ s.chip.boot.tick → s.chip.sec.treeCmd = [(sess, reqId)] →
      s.chip.sec.quoteWait = [] →
      ∃ t, exec .quoteTreeReady s = .next t ∧ t.chip.sec.treeReady = true ∧ t.chip.sec.treeBusy = false ∧
        t.chip.sec.leaf = 0 ∧ t.chip.sec.treeSeed = Config.hmac s.chip.sec.idKey (bytesOf 32 (Config.trng s.chip.draws)) ∧
        t.chip.lastReply sess = some (reqId, run.opc, 0, 0, []))

/-- LINK_MODE sets a node's mode, answers STATE with no session and MALFORMED for bad operands; a NEW LINK_EXCHANGE
whose certificate and signature verify gives the node a new session number and secret, any other answers AUTH
and leaves the security block as it was. (R441, R442, R455) -/
def Obligations.LinkSessionsComplete : Prop :=
  ∀ (s : State) (sess reqId : Nat) (x : Session), s.chip.Still →
    (s.chip.Asks sess reqId 0x0407 x → ∀ node mode,
      (node < 4096 → mode < 3 → (kgetD s.chip.sec.nodes node {}).valid = true →
        CompletesWith s (.linkMode sess reqId node mode) sess reqId 0x0407 0 [] fun _ => { s.chip with
          sec := { s.chip.sec with nodes := kput s.chip.sec.nodes node { kgetD s.chip.sec.nodes node {} with mode := mode } } }) ∧
      (node < 4096 → mode < 3 → (kgetD s.chip.sec.nodes node {}).valid = false →
        CompletesWith s (.linkMode sess reqId node mode) sess reqId 0x0407 2 [] fun _ => s.chip) ∧
      (4096 ≤ node ∨ 3 ≤ mode →
        CompletesWith s (.linkMode sess reqId node mode) sess reqId 0x0407 4 [] fun _ => s.chip)) ∧
    (s.chip.Asks sess reqId 0x0406 x → ∀ (node kind : Nat) (pub nonce sig cert : Bytes),
      (4096 ≤ node ∨ 2 ≤ kind →
        CompletesWith s (.linkExchange sess reqId node kind pub nonce sig cert) sess reqId 0x0406 4 [] fun _ => s.chip) ∧
      (node < 4096 → kind = 0 →
        ∃ t st b, exec (.linkExchange sess reqId node kind pub nonce sig cert) s = .next t ∧
          t.chip.lastReply sess = some (reqId, 0x0406, st, 0, b) ∧
          if s.chip.certOk 5 cert = true ∧
              Config.ecdsaVerify (certEc cert) (Config.sha384 (exchangeText s.chip.boot.image.serial node pub nonce)) sig = true then
            let old := kgetD s.chip.sec.nodes node {}
            let n := kgetD t.chip.sec.nodes node {}
            st = 0 ∧ n.valid = true ∧ n.cert = cert ∧ n.session = (if old.session = 0xFFFF then 1 else old.session + 1) ∧
              n.secret = Config.ecdh (bytesOf 48 (Config.trng s.chip.draws)) pub
          else st = 7 ∧ t.chip.sec = s.chip.sec))

/-- BUNDLE_OPEN opens a bundle on its staging object; META and DATA write bytes in range of an open bundle, else
MALFORMED; CLOSE returns how many chunks miss and closes a complete one; DELETE removes a bundle no object uses;
each answers NOT_FOUND for an unknown bundle. (R194, R526) -/
def Obligations.BundleTransfersComplete : Prop :=
  ∀ (s : State) (sess reqId : Nat) (x : Session), s.chip.Still → ∀ n,
    (s.chip.Asks sess reqId 0x0201 x → ∀ stage,
      (n = 0 → CompletesWith s (.bundleOpen sess reqId n stage) sess reqId 0x0201 4 [] fun _ => s.chip) ∧
      (n ≠ 0 → objIdOk stage = true → (s.chip.obj stage).st = 4 → (s.chip.obj stage).writable = true → s.chip.bundle? n = none →
        (s.chip.mem.bundles.filter fun e => e.2.isOpen).length < 4 →
        CompletesWith s (.bundleOpen sess reqId n stage) sess reqId 0x0201 0 [] fun _ => { s.chip with
          mem := { s.chip.mem with bundles := kput s.chip.mem.bundles n { num := n, stage := stage, isOpen := true } } })) ∧
    (s.chip.bundle? n = none →
      (s.chip.Asks sess reqId 0x0202 x → ∀ off b,
        CompletesWith s (.bundleMeta sess reqId n off b) sess reqId 0x0202 5 [] fun _ => s.chip) ∧
      (s.chip.Asks sess reqId 0x0204 x → ∀ chunk off16 len16 b,
        CompletesWith s (.bundleData sess reqId n chunk off16 len16 b) sess reqId 0x0204 5 [] fun _ => s.chip) ∧
      (s.chip.Asks sess reqId 0x0205 x →
        CompletesWith s (.bundleClose sess reqId n) sess reqId 0x0205 5 [] fun _ => s.chip) ∧
      (s.chip.Asks sess reqId 0x0206 x →
        CompletesWith s (.bundleDelete sess reqId n) sess reqId 0x0206 5 [] fun _ => s.chip)) ∧
    ∀ y, s.chip.bundle? n = some y →
      (s.chip.Asks sess reqId 0x0206 x →
        (s.chip.mem.objs.any (fun e => e.2.st != 0 && !e.2.writable && e.2.bundle == n) = false →
          CompletesWith s (.bundleDelete sess reqId n) sess reqId 0x0206 0 [] fun _ => { s.chip with
            mem := { s.chip.mem with bundles := kdel s.chip.mem.bundles n } }) ∧
        (s.chip.mem.objs.any (fun e => e.2.st != 0 && !e.2.writable && e.2.bundle == n) = true →
          CompletesWith s (.bundleDelete sess reqId n) sess reqId 0x0206 2 [] fun _ => s.chip)) ∧
      (y.isOpen = true →
        (s.chip.Asks sess reqId 0x0202 x → ∀ off b, y.checked = false → 1 ≤ (s.chip.obj y.stage).st → (s.chip.obj y.stage).st ≤ 4 →
          (off + b.length ≤ (s.chip.obj y.stage).size → s.chip.enabled 7 12 = true →
            ((List.range (b.length / 256 + 2)).any fun i => s.chip.atCursor y.stage ((off / 256 + i) * 256)) = false →
            CompletesWith s (.bundleMeta sess reqId n off b) sess reqId 0x0202 0 [] fun _ => s.chip.writeObj y.stage off b) ∧
          ((s.chip.obj y.stage).size < off + b.length →
            CompletesWith s (.bundleMeta sess reqId n off b) sess reqId 0x0202 4 [] fun _ => s.chip)) ∧
        (s.chip.Asks sess reqId 0x0204 x → ∀ chunk off16 len16 b, y.checked = true →
          (∀ f, chunk < y.chunks → 1 ≤ len16 → len16 ≤ 512 → off16 + len16 ≤ 4096 → b.length = 16 * len16 →
            y.stackOf (y.dataOff + 65536 * chunk) = some f → s.chip.flashUp f = true →
            let data := b.zipIdx.foldl (fun m e => kput m (chunk * 65536 + 16 * off16 + e.2) e.1) y.data
            CompletesWith s (.bundleData sess reqId n chunk off16 len16 b) sess reqId 0x0204 0 [] fun _ => { s.chip with
              mem := { s.chip.mem with bundles := kput s.chip.mem.bundles y.num { y with data := data } } }) ∧
          (y.chunks ≤ chunk ∨ len16 = 0 ∨ 512 < len16 ∨ 4096 < off16 + len16 ∨ b.length ≠ 16 * len16 →
            CompletesWith s (.bundleData sess reqId n chunk off16 len16 b) sess reqId 0x0204 4 [] fun _ => s.chip)) ∧
        (s.chip.Asks sess reqId 0x0205 x → y.checked = true → y.missing = 0 → s.chip.metaUp y = false →
          CompletesWith s (.bundleClose sess reqId n) sess reqId 0x0205 10 [] fun _ => s.chip) ∧
        (s.chip.Asks sess reqId 0x0205 x → y.checked = true → y.missing ≠ 0 ∨ s.chip.metaUp y = true →
          CompletesWith s (.bundleClose sess reqId n) sess reqId 0x0205 0 (natLE 4 y.missing) fun _ =>
            if y.missing = 0 then { s.chip with
              mem := { s.chip.mem with bundles := kput s.chip.mem.bundles y.num { y with complete := true, isOpen := false } } }
            else s.chip))

/-- BUNDLE_CHECK of readable metadata answers AUTH where the signatures fail, NO_ROOM where flash lacks room, else
it records the bundle and extends M_BUNDLES; KEY_RELEASE stores an unwrapped key in the lowest free slot or
answers AUTH; BUNDLE_KEY_DROP removes a held key. (R426, R447, R448, R449) -/
def Obligations.BundleSecurityCompletes : Prop :=
  ∀ (s : State) (sess reqId : Nat) (x : Session), s.chip.Still →
    (s.chip.Asks sess reqId 0x0203 x → ∀ n y h m, s.chip.bundle? n = some y → y.isOpen = true → y.checked = false →
      s.chip.enabled 7 12 = true → s.chip.readObj y.stage 0 0x1000 = (some h, s.chip) → bundleHdrOk n h = true → fieldB h 0x28 8 ≤ (s.chip.obj y.stage).size →
      s.chip.readObj y.stage 0 (min (fieldB h 0x30 8) (s.chip.obj y.stage).size) = (some m, s.chip) →
      let z := { y with checked := true, entries := fieldB h 0xC 4, chunks := fieldB h 0x10 4, meta_ := m, stripes := s.chip.stripesFor n }
      let signed := s.chip.bundleSigned (m.take (fieldB h 0x28 8)) (m.drop (fieldB h 0x28 8))
      (signed = false → CompletesWith s (.bundleCheck sess reqId n) sess reqId 0x0203 7 [] fun t => s.chip.raising t) ∧
      (signed = true → s.chip.flashRoom z = false →
        CompletesWith s (.bundleCheck sess reqId n) sess reqId 0x0203 6 [] fun _ => s.chip) ∧
      (signed = true → s.chip.flashRoom z = true → s.chip.metaUp z = false →
        CompletesWith s (.bundleCheck sess reqId n) sess reqId 0x0203 10 [] fun _ => s.chip) ∧
      (signed = true → s.chip.flashRoom z = true → s.chip.metaUp z = true →
        CompletesWith s (.bundleCheck sess reqId n) sess reqId 0x0203 0 [] fun _ => { s.chip with
          mem := { s.chip.mem with bundles := kput s.chip.mem.bundles y.num z }
          sec := { s.chip.sec with
            mBundles := Config.sha384 (s.chip.sec.mBundles ++ Config.sha384 (m.take (fieldB h 0x28 8))) } })) ∧
    (s.chip.Asks sess reqId 0x0207 x → ∀ body,
      let rest := body.drop 224
      let cert := rest.take (certLen rest)
      let sigs := rest.drop (certLen rest)
      let dual := dualOk (certEc cert) (certLms cert) (Config.sha384 (body.take 0xE0)) (sigs.take 96)
        ((sigs.drop 104).take (fieldB sigs 96 2))
      (s.chip.certOk 4 cert = false ∨ dual = false ∨ s.chip.unwrap x body = none →
        CompletesWith s (.keyRelease sess reqId body) sess reqId 0x0207 7 [] fun t => s.chip.raising t) ∧
      (∀ key k, s.chip.certOk 4 cert = true → dual = true → s.chip.unwrap x body = some key →
        s.chip.sec.bkeys.find? (fun e => e.2.1 == fieldB body 0 4) = none →
        ((List.range 256).find? fun k => (kfind? s.chip.sec.bkeys k).isNone) = some k →
        CompletesWith s (.keyRelease sess reqId body) sess reqId 0x0207 0 (natLE 1 k) fun _ => { s.chip with
          sec := { s.chip.sec with bkeys := kput s.chip.sec.bkeys k (fieldB body 0 4, key) } })) ∧
    (s.chip.Asks sess reqId 0x0208 x → ∀ n,
      (s.chip.sec.bkeys.find? (fun e => e.2.1 == n) = none →
        CompletesWith s (.bundleKeyDrop sess reqId n) sess reqId 0x0208 5 [] fun _ => s.chip) ∧
      (∀ e, s.chip.sec.bkeys.find? (fun e => e.2.1 == n) = some e →
        CompletesWith s (.bundleKeyDrop sess reqId n) sess reqId 0x0208 0 [] fun _ => { s.chip with
          sec := { s.chip.sec with bkeys := kdel s.chip.sec.bkeys e.1 } }))

/-- OBJ_REGISTER, CREATE, LOAD, EVICT, FILL, DROP, DELETE, DEMAND and QUERY of an object in the right state take the
effect of the placement chapter: the table entry, the first-fit extent, the load or fill begun, the residency
dropped, or the refusal named. (R201, R202, R205, R412) -/
def Obligations.ObjectCommandsComplete : Prop :=
  ∀ (s : State) (sess reqId : Nat) (x : Session), s.chip.Still → ∀ id,
    (objIdOk id = false → s.chip.Asks sess reqId 0x0303 x →
      CompletesWith s (.objLoad sess reqId id) sess reqId 0x0303 5 [] fun _ => s.chip) ∧
    (objIdOk id = true → s.chip.enabled 7 12 = true → (s.chip.obj id).st = 0 → ∀ part, part < 64 → s.chip.partTakes part = true →
      (s.chip.Asks sess reqId 0x0301 x → ∀ n entry demand b, demand < 2 → s.chip.bundle? n = some b → b.complete = true →
        entry < b.entries →
        let e := b.entry entry
        CompletesWith s (.objRegister sess reqId id n entry part demand) sess reqId 0x0301 0 [] fun _ => s.chip.setObj id
          { st := 1, kind := fieldB e 0 1, part := part, compressed := bit (fieldB e 1 1) 1, demand := demand == 1,
            size := fieldB e 8 8, bundle := n, entry := entry }) ∧
      (s.chip.Asks sess reqId 0x0302 x → ∀ kind size, kind < 4 → size ≠ 0 →
        let o : Obj := { st := 4, kind := kind, part := part, writable := true, size := size }
        let n := rowsFor (2 * ((size + 4095) / 4096 * 4096)) (s.chip.colours part).length
        (∀ row, (s.chip.setObj id o).findRows n = some row →
          let o := { o with base := row * rowBytes, row := row, rows := n }
          CompletesWith s (.objCreate sess reqId id part kind size) sess reqId 0x0302 0 (natLE 8 (row * rowBytes)) fun _ =>
            (s.chip.setObj id o).scrubExtent o) ∧
        ((s.chip.setObj id o).findRows n = none →
          CompletesWith s (.objCreate sess reqId id part kind size) sess reqId 0x0302 6 [] fun _ => s.chip))) ∧
    (objIdOk id = true → s.chip.enabled 7 12 = true → (s.chip.obj id).st ≠ 0 → s.chip.partTakes (s.chip.obj id).part = true →
      (s.chip.Asks sess reqId 0x0303 x → (s.chip.obj id).st = 1 → (s.chip.bundleKey? (s.chip.obj id).bundle).isSome = true →
        let c := s.chip.startLoad id (some (sess, reqId))
        RunsOn s (.objLoad sess reqId id) sess reqId 0x0303 id { c with mgt := { c.mgt with place :=
          [{ sess := sess, reqId := reqId, opc := 0x0303, sessPart := x.part, obj := id, part := (s.chip.obj id).part,
             started := true }] } }) ∧
      (s.chip.Asks sess reqId 0x0304 x → (s.chip.obj id).st = 3 → s.chip.filling id none = false →
        s.chip.gtx.pends.any (fun p => p.obj == id) = false →
        CompletesWith s (.objEvict sess reqId id) sess reqId 0x0304 0 [] fun _ =>
          s.chip.setObj id { s.chip.obj id with st := 1, base := 0, row := 0, rows := 0 }) ∧
      (s.chip.Asks sess reqId 0x0305 x → (s.chip.obj id).st = 3 → ∀ b first, b < 8192 → s.chip.bowlOk b = true →
        s.chip.bowlPart b = (s.chip.obj id).part →
        first + s.chip.slotCount id b ≤ 8 →
        let c := s.chip.startPlacement (sess, reqId) id (s.chip.obj id).part [(b, first)]
        let p : PlaceCmd := { sess := sess, reqId := reqId, opc := 0x0305, sessPart := x.part, obj := id,
                              bowls := [(b, first)], part := (s.chip.obj id).part, started := true }
        Settles s (.objFill sess reqId id [(b, first)]) (Chip.modSession { c with mgt := { c.mgt with place := c.mgt.place ++ [p] } }
          sess fun y => { y with running := y.running ++ [{ reqId := reqId, opc := 0x0305, arg := id }] })) ∧
      (s.chip.Asks sess reqId 0x0306 x → ∀ b, b < 8192 → s.chip.dsp.resid.any (fun r => r.bowl == b && r.obj == id) = true →
        s.chip.filling id (some b) = false →
        CompletesWith s (.objDrop sess reqId id b) sess reqId 0x0306 0 [] fun _ => s.chip.delResid b id) ∧
      (s.chip.Asks sess reqId 0x0307 x →
        ((s.chip.obj id).st ≠ 2 → s.chip.regionsOver id = [] →
          CompletesWith s (.objDelete sess reqId id) sess reqId 0x0307 0 [] fun _ =>
            let c : Chip := { s.chip with
              coh := { s.chip.coh with
                ents := s.chip.coh.ents.filter fun e => !((s.chip.lineOwner e.1).any fun x => x.1 == id) }
              dsp := { s.chip.dsp with resid := s.chip.dsp.resid.filter fun r => r.obj != id } }
            (if 0 < (s.chip.obj id).rows then c.scrubExtent (s.chip.obj id) else c).setObj id {}) ∧
        ((s.chip.obj id).st = 2 ∨ s.chip.regionsOver id ≠ [] →
          CompletesWith s (.objDelete sess reqId id) sess reqId 0x0307 2 [] fun _ => s.chip)) ∧
      (s.chip.Asks sess reqId 0x0308 x → ∀ demand,
        (demand < 2 → CompletesWith s (.objDemand sess reqId id demand) sess reqId 0x0308 0 [] fun _ =>
          s.chip.setObj id { s.chip.obj id with demand := demand == 1 }) ∧
        (2 ≤ demand → CompletesWith s (.objDemand sess reqId id demand) sess reqId 0x0308 4 [] fun _ => s.chip)) ∧
      (s.chip.Asks sess reqId 0x0309 x →
        CompletesWith s (.objQuery sess reqId id) sess reqId 0x0309 0 (objEntry (s.chip.obj id)) fun _ => s.chip))

/-- A load whose chunks all pass leaves the object in DRAM; one with a failing chunk scrubs and frees the extent and
returns the object to FLASH; the OBJ_LOAD that began it is answered OK or DATA_ERR. (R205, R211, R609) -/
def Obligations.LoadsEnd : Prop :=
  ∀ (s : State) (id : Nat) (bad : List Nat) (l : Load), s.chip.NoRings →
    (s.chip.mem.loads.find? fun l => l.obj == id) = some l →
    let ob := s.chip.obj id
    let c0 : Chip := { s.chip with mem := { s.chip.mem with loads := s.chip.mem.loads.filter fun x => x.obj != id } }
    let r := c0.loadChunks id bad (List.range (objChunks ob))
    let done : Chip := if r.1 then r.2.setObj id { r.2.obj id with st := 3 }
      else ((r.2.scrubExtent ob).freeExtent id).setObj id { ((r.2.scrubExtent ob).freeExtent id).obj id with st := 1 }
    s.chip.dsp.fills = [] → s.chip.gtx.devHeld = [] → ob.part < 64 → 0 < ob.rows → s.chip.mem.rebuild = 0 →
    (l.cmds = [] → s.chip.Still → NotesTo s (.loadDone id bad) done) ∧
    (∀ sess reqId x run ps, l.cmds = [(sess, reqId)] → s.chip.StillWith ps →
      (∀ p ∈ ps, p.started = true ∧ p.opc = 0x0303 ∧ p.sess = sess ∧ p.reqId = reqId) → s.chip.session? sess = some x →
      (x.running.find? fun r => r.reqId == reqId) = some run →
      ∃ t, exec (.loadDone id bad) s = .next t ∧ t.chip = done.noting t.chip ∧
        t.chip.lastReply sess = some (reqId, run.opc, if r.1 then 0 else 10, 0, []))

/-- The next tile of the fill whose turn it is at a core's ricer comes: a raw one, or one decoded block by block, is
written with zero padding into the core's slot and marked valid, while a tile of a writable object is asked of its home;
the first block that fails its check begins a refetch, the next failure ends the fill; a refetched block is rewritten from
flash; the last tile of a placement fill ends it and answers OBJ_FILL. (R33, R100, R179, R181, R182) -/
def Obligations.TileFillsEnd : Prop :=
  (∀ (s : State) (id core : Nat) (f : Fill) (x : Deliver), f.id = id → s.chip.ricerNext (ricerOf core) = some f →
    f.nextAt (ricerOf core) = some x → x.core = core →
    let ob := s.chip.obj f.obj
    let die := coreDie core
    let len := min 65536 (ob.size - x.tile * 65536)
    let c0 := ({ s.chip with dsp := { s.chip.dsp with ricerTurn := kput s.chip.dsp.ricerTurn (ricerOf core) id } }).setFill f
    let done := fun (f : Fill) => { f with
      todo := f.todo.erase x, refetch := f.refetch.filter fun r => !(r.core == core && r.tile == x.tile) }
    let store (c : Chip) (b : Bytes) : Chip :=
      (c.wrStore core (x.slot * 65536) (b ++ zerosB (65536 - b.length))).setValid core x.slot true
    let again := f.refetch.find? fun r => r.core == core && r.tile == x.tile
    (ob.st = 3 ∨ ob.st = 4) →
    (ob.writable = false → ob.compressed = false → ∀ r rd c,
      c0.fillRead f.obj (x.tile + 1) (x.tile * 65536) len (f.readsTo x) = (r, rd, c) →
      let e := c.endReads f rd
      (∀ b, r = some b → f.todo.erase x ≠ [] → Settles s (.tileFillDone id core) ((store e.2 b).setFill (done e.1)).advance) ∧
      (r = none → Settles s (.tileFillDone id core) (e.2.fillDataErr e.1 core none).advance)) ∧
    (ob.writable = true → f.reads.got = [] →
      let p : Pend := { id := s.chip.gtx.nextId, req := { opc := opcDevRead, opnd := len }, origin := .dev (.fill id core x.tile)
                        part := f.part, obj := f.obj, off := x.tile * 65536, lines := s.chip.poolLines f.obj (x.tile * 65536) len }
      Settles s (.tileFillDone id core)
        (((((c0.setFill { f with reading := f.reading ++ [x] }).takeId.lineCrossings p die).runLines p false p.lines)).advance)) ∧
    (ob.writable = false → ob.compressed = true → ∀ hb h rd c,
      c0.fillRead f.obj 0 0 4096 (f.readsTo x) = (some hb, rd, c) → parseHdr hb = some h →
      ∀ r c2, (again = none ∧ c.tileBytes f.obj h (tileBlocks h x.tile) { reads := rd } = (r, c2)) ∨
          (∃ rf, again = some rf ∧ c.tileBytes f.obj h ((tileBlocks h x.tile).filter fun k => decide (rf.block < k))
            { bytes := rf.before ++ rf.data.getD [], reads := rd } = (r, c2)) →
      let e := (c2.bump .cmpOvfReads die [] r.ovf).endReads f r.reads
      (r.bad = none → f.todo.erase x ≠ [] → Settles s (.tileFillDone id core)
        ((store (e.2.bump .cmpBlocks die [] (tileBlocks h x.tile).length) r.bytes).setFill (done e.1)).advance) ∧
      (∀ k cause, r.bad = some (k, cause) →
        Settles s (.tileFillDone id core) (if f.refetched.contains (ricerOf core, k) then e.2.fillDataErr e.1 core (some k)
          else e.2.checkFail e.1 x k cause r.bytes).advance)) ∧
    (∀ b rd c sess reqId y run ps, f.todo = [x] → f.later = [] → f.refetch = [] → s.chip.dsp.fills = [f] → s.chip.dsp.launches = [] →
      s.chip.dsp.runs = [] → s.chip.cores.ctx = [] → f.kind = 1 → ob.writable = false → ob.compressed = false →
      f.cmd = some (sess, reqId) →
      s.chip.StillWith ps → (∀ p ∈ ps, p.started = true ∧ p.opc = 0x0305 ∧ p.sess = sess ∧ p.reqId = reqId) →
      s.chip.session? sess = some y → (y.running.find? fun r => r.reqId == reqId) = some run →
      c0.fillRead f.obj (x.tile + 1) (x.tile * 65536) len (f.readsTo x) = (some b, rd, c) →
      ∃ u, exec (.tileFillDone id core) s = .next u ∧ u.chip.dsp.fills = [] ∧ u.chip.cores = (store c b).cores ∧
        u.chip.lastReply sess = some (reqId, run.opc, 0, 0, []))) ∧
  ∀ (s : State) (id core : Nat) (f : Fill) rf hb h rd b o rd' c c',
    (s.chip.dsp.fills.find? fun f => f.id == id) = some f → (s.chip.obj f.obj).st = 3 ∨ (s.chip.obj f.obj).st = 4 →
    (f.refetch.find? fun r => r.core == core && r.data.isNone) = some rf →
    s.chip.fillRead f.obj 0 0 4096 f.reads = (some hb, rd, c) → parseHdr hb = some h →
    c.block true f.obj h rf.block rd = (.ok b, o, rd', c') →
    let e := c'.endReads f rd'
    Settles s (.refetchDone id core) (((e.2.rewriteBlock f.obj h rf.block b).bump .cmpRewrite (coreDie core)).setFill
      (e.1.refetchedBlock rf b.data))

/-- CMP_JOB on a free compressor of an enabled core die starts the job that its seven words name, answers MALFORMED
for a bad die or length and STATE for a disabled one; the job's begin issues its read of the input region.
(R175, R177, R187, R188, R189) -/
def Obligations.CompressorJobsRun : Prop :=
  ∀ (s : State), s.chip.Still → ∀ die,
    (∀ sess reqId x (ws : List Word), s.chip.Asks sess reqId 0x0601 x →
      let part := bits ((ws.map fun w => w.toNat).getD 0 0) 29 24
      (8 ≤ die ∨ ws.length ≠ 7 → CompletesWith s (.cmpJob sess reqId die ws) sess reqId 0x0601 4 [] fun _ => s.chip) ∧
      (die < 8 → ws.length = 7 → s.chip.job? die = none → s.chip.cmpTakes die = true → s.chip.partTakes part = true →
        RunsOn s (.cmpJob sess reqId die ws) sess reqId 0x0601 die (s.chip.startJob die (ws.map fun w => w.toNat) (some (sess, reqId)))) ∧
      (die < 8 → ws.length = 7 → s.chip.job? die = none → (s.chip.cmpTakes die = false ∨ s.chip.partTakes part = false) →
        CompletesWith s (.cmpJob sess reqId die ws) sess reqId 0x0601 2 [] fun _ => s.chip)) ∧
    ∀ j, s.chip.job? die = some j → j.phase = 0 →
      (∀ slot, s.chip.regionOf j.inHandle = some slot → j.inLen ≠ 0 →
        Settles s (.jobEnd die) ((s.chip.putJob { j with phase := 1 }).issue j.part (.job die)
          { s.chip.jobReq j j.inHandle j.inEpoch opcDevRead j.inOff [] with opnd := j.inLen })) ∧
      (s.chip.regionOf j.inHandle = none → j.inLen ≠ 0 → Settles s (.jobEnd die) (s.chip.endJob j 1)) ∧
      (j.inLen = 0 → Settles s (.jobEnd die) (s.chip.jobEncode j [] []))

/-- PEER_SET writes the peer entry or answers MALFORMED; PEER_OPEN sends HELLO and runs on, or answers NOT_FOUND or
STATE; PEER_CLOSE ends the session; HANDOFF_OFFER, EXPECT, QUERY and RECLAIM begin, expect, report and take back
a handoff. (R525, R534, R557, R558, R560) -/
def Obligations.PeerCommandsComplete : Prop :=
  ∀ (s : State) (sess reqId : Nat) (x : Session), s.chip.Still →
    (s.chip.Asks sess reqId 0x0901 x → ∀ i flags udp serial address,
      (i < 16 → flags < 4 → serial < 2 ^ 56 →
        CompletesWith s (.peerSet sess reqId i flags udp serial address) sess reqId 0x0901 0 [] fun t => { s.chip with mgt := t.mgt }) ∧
      (i < 16 → flags < 4 → serial < 2 ^ 56 →
        ∃ t, exec (.peerSet sess reqId i flags udp serial address) s = .next t ∧ t.chip.peer i =
          { s.chip.peer i with valid := bit flags 0, v6 := bit flags 1, udp := udp, serial := serial,
                               address := if bit flags 1 then address else address % 2 ^ 32 }) ∧
      (16 ≤ i ∨ 4 ≤ flags ∨ 2 ^ 56 ≤ serial →
        CompletesWith s (.peerSet sess reqId i flags udp serial address) sess reqId 0x0901 4 [] fun _ => s.chip)) ∧
    (s.chip.Asks sess reqId 0x0902 x → ∀ i, i < 16 →
      ((s.chip.peer i).valid = false → CompletesWith s (.peerOpen sess reqId i) sess reqId 0x0902 5 [] fun _ => s.chip) ∧
      ((s.chip.peer i).valid = true → (s.chip.peer i).st = 1 ∨ (s.chip.peer i).st = 2 →
        CompletesWith s (.peerOpen sess reqId i) sess reqId 0x0902 2 [] fun _ => s.chip) ∧
      ((s.chip.peer i).valid = true → (s.chip.peer i).st ≠ 1 → (s.chip.peer i).st ≠ 2 → kindState 2 s.chip.boot.state = true →
        s.chip.mgt.handshakes.length < 8 → (s.chip.mgt.sessions.filter fun s => s.kind == 2).length < 16 →
        let priv := bytesOf 48 (Config.trng s.chip.draws)
        let p := s.chip.peer i
        let body := natLE 1 2 ++ Config.ecPub priv ++ bytesOf 32 (Config.trng (s.chip.draws + 1))
        let h : Handshake :=
          { id := 2 ^ 32 * (i + 1), kind := 2, addr := { v6 := p.v6, ip := p.address, port := p.udp }, init := true, peer := i,
            ephPriv := priv, transcript := body, at_ := s.chip.boot.tick, cmd := some (sess, reqId) }
        RunsOn s (.peerOpen sess reqId i) sess reqId 0x0902 i
          (({ s.chip with
              draws := s.chip.draws + 2
              mgt := { s.chip.mgt with
                handshakes := s.chip.mgt.handshakes ++ [h]
                peers := kput s.chip.mgt.peers i { p with st := 1 } } } : Chip).sendClear h.addr 1 0 body))) ∧
    (s.chip.Asks sess reqId 0x0903 x → ∀ i, i < 16 → (s.chip.peer i).valid = true →
      (s.chip.peerSession? i = none → CompletesWith s (.peerClose sess reqId i) sess reqId 0x0903 2 [] fun _ => s.chip) ∧
      (∀ p, s.chip.peerSession? i = some p → p.id ≠ sess → s.chip.session? p.id = some p → s.chip.mgt.handoffs = [] →
        ∃ t, exec (.peerClose sess reqId i) s = .next t ∧ t.chip.lastReply sess = some (reqId, 0x0903, 0, 0, []) ∧
          t.chip.session? p.id = none ∧ t.chip.peer i = { s.chip.peer i with st := 3 })) ∧
    (∀ obj peer, pinnedWritable (s.chip.obj obj) = true → s.chip.regionsOver obj = [] → s.chip.inHandoff obj = false →
      (s.chip.peer peer).valid = true → s.chip.liveHandoffs.length < 64 →
      (s.chip.Asks sess reqId 0x0A01 x → ∀ dstPart dstObj b c, s.chip.readObj obj 0 (s.chip.obj obj).size = (some b, c) →
        let ep := (s.chip.mgt.hoEpoch + 1) % 2 ^ 32
        let h : Handoff :=
          { epoch := ep, sender := true, st := 2, obj := obj, peer := peer, dstPart := dstPart, dstObj := dstObj,
            size := (s.chip.obj obj).size, cmd := some (sess, reqId), since := s.chip.boot.tick, sentAt := s.chip.boot.tick,
            unacked := segOffsets (s.chip.obj obj).size (s.chip.segBytes peer) }
        RunsOn s (.handoffOffer sess reqId obj peer dstPart dstObj) sess reqId 0x0A01 ep
          (Chip.sendOffer { s.chip with mgt := { s.chip.mgt with
            hoEpoch := ep, handoffs := (s.chip.mgt.handoffs.filter fun h => h.obj != obj) ++ [h] } } h)) ∧
      (s.chip.Asks sess reqId 0x0A02 x → s.chip.mgt.committed.length < 4096 →
        RunsOn s (.handoffExpect sess reqId obj peer) sess reqId 0x0A02 obj { s.chip with mgt := { s.chip.mgt with
          handoffs := (s.chip.mgt.handoffs.filter fun h => h.obj != obj) ++
            [{ sender := false, st := 7, obj := obj, peer := peer, size := (s.chip.obj obj).size, cmd := some (sess, reqId),
               dstPart := (s.chip.obj obj).part, dstObj := obj, since := s.chip.boot.tick }] } })) ∧
    (s.chip.Asks sess reqId 0x0A03 x → ∀ obj peer epoch,
      (s.chip.mgt.committed.any (fun e => e.1 == peer && e.2.1 == epoch && e.2.2 == obj) = true →
        CompletesWith s (.handoffQuery sess reqId obj peer epoch) sess reqId 0x0A03 0
          (natLE 1 2 ++ natLE 1 9 ++ zerosB 2 ++ natLE 4 epoch) fun _ => s.chip) ∧
      (s.chip.mgt.committed.any (fun e => e.1 == peer && e.2.1 == epoch && e.2.2 == obj) = false →
        s.chip.mgt.handoffs.find? (fun h => h.obj == obj && h.peer == peer &&
          (h.st == 7 || (if h.sender then h.epoch else h.peerEpoch) == epoch)) = none →
        CompletesWith s (.handoffQuery sess reqId obj peer epoch) sess reqId 0x0A03 0
          (natLE 1 0 ++ natLE 1 0 ++ zerosB 2 ++ natLE 4 epoch) fun _ => s.chip)) ∧
    (s.chip.Asks sess reqId 0x0A04 x → ∀ obj, (s.chip.obj obj).st ≠ 0 →
      (s.chip.mgt.handoffs.find? (fun h => h.sender && h.obj == obj && h.st == 5) = none →
        CompletesWith s (.handoffReclaim sess reqId obj) sess reqId 0x0A04 2 [] fun _ => s.chip) ∧
      (∀ h, s.chip.mgt.handoffs.find? (fun h => h.sender && h.obj == obj && h.st == 5) = some h →
        let ep := (s.chip.mgt.hoEpoch + 1) % 2 ^ 32
        ∃ t, exec (.handoffReclaim sess reqId obj) s = .next t ∧ t.chip.lastReply sess = some (reqId, 0x0A04, 0, 0, natLE 4 ep) ∧
          t.chip.mgt.handoffs = s.chip.mgt.handoffs.erase h ∧ t.chip.mgt.hoEpoch = ep))

/-- An acknowledgement with RESULT 0 or 2 takes the message off the queue as sent or lost; a message from the peer
is a duplicate, undeliverable, or its delivery begins with the read of its ring; an unacknowledged message is
resent up to its limit, then lost. (R535, R536) -/
def Obligations.PeerMessagesAct : Prop :=
  ∀ (s : State) (msgId : Nat), s.chip.Still →
    (∀ (sess : Nat) (x : Session), s.chip.session? sess = some x → x.kind = 2 → x.ready = [] →
      (∀ result q, (s.chip.mgt.queue.find? fun q => q.sess == x.id && q.msgId == msgId && q.sentAt.isSome) = some q →
        (result = 0 → Becomes s (.msgAck sess msgId result) ((s.chip.setQueue (s.chip.mgt.queue.erase q)).bump .mgtMsgSent 12)) ∧
        (result = 2 → Becomes s (.msgAck sess msgId result) ((s.chip.setQueue (s.chip.mgt.queue.erase q)).bump .mgtMsgLost 12)) ∧
        (result ≠ 0 → result ≠ 2 → Becomes s (.msgAck sess msgId result) s.chip)) ∧
      (∀ msg, s.chip.enabled 0x13 12 = true →
        let part := fieldB msg 3 1 % 64
        (x.delivered.contains msgId = true → Becomes s (.peerMsg sess msgId msg) ((s.chip.bump .mgtMsgDup 12).ackMsg x.id msgId 0)) ∧
        (x.delivered.contains msgId = false → (kgetD s.chip.parts part {}).st ≠ .active → Becomes s (.peerMsg sess msgId msg) (s.chip.ackMsg x.id msgId 2)) ∧
        (x.delivered.contains msgId = false → (kgetD s.chip.parts part {}).st = .active → s.chip.mgt.rings = [] →
          ∀ slot n, s.chip.regionOf (s.chip.fld .mgtRxCfg 12 [part] 15 0) = some slot → s.chip.localNode part = some n →
          bit (s.chip.reg .mgtRxCfg 12 [part]) 31 = true → (s.chip.region slot).part = part →
          let j : RingJob :=
            { part := part, sess := x.id, msgId := msgId, msg := deliveredMsg x.peer msg, phase := 1,
              handle := s.chip.fld .mgtRxCfg 12 [part] 15 0, epoch := (s.chip.region slot).epoch,
              addr := n * 2 ^ 52 + (s.chip.region slot).base + s.chip.reg .mgtRxOff 12 [part] * 4096 }
          Becomes s (.peerMsg sess msgId msg) (Chip.settle ((s.chip.setRings [j]).issue part (.ring part)
            { j.req opcDevRead 0 [] with opnd := 128 }))))) ∧
    (∀ peer q, (s.chip.mgt.queue.find? fun q => q.peer == peer && q.msgId == msgId && q.sentAt.isSome) = some q →
      s.chip.enabled 0x13 12 = true → (q.sentAt.getD 0) + max 1 (s.chip.fld .mgtMsgCfg 12 [] 31 16) ≤ s.chip.boot.tick →
      (s.chip.fld .mgtMsgCfg 12 [] 7 0 ≤ q.resends → Becomes s (.msgResendTimeout peer msgId) ((s.chip.setQueue (s.chip.mgt.queue.erase q)).bump .mgtMsgLost 12)) ∧
      (q.resends < s.chip.fld .mgtMsgCfg 12 [] 7 0 → Becomes s (.msgResendTimeout peer msgId) ((s.chip.setQueue (modFirst (fun x => decide (x = q))
          (fun _ => { q with resends := q.resends + 1, sentAt := some s.chip.boot.tick }) s.chip.mgt.queue)).sendReq q.sess 0xC101
            (q.msgId % 2 ^ 32) (natLE 8 q.msgId ++ wireMsg q))))

/-- Each record of a handoff and each of its timeouts moves the sender or receiver through the states of the handoff
chapter, with the acknowledgement or resending it calls for; a committed epoch is acknowledged again and nothing
else. (R558, R559, R560) -/
def Obligations.HandoffRecordsAct : Prop :=
  ∀ (s : State) (epoch : Nat), s.chip.Still →
    (∀ (sess dstObj : Nat) (x : Session), s.chip.session? sess = some x → x.kind = 2 → x.ready = [] →
      let ack (c : Chip) (opc r : Nat) : Chip := c.sendHoAck x.id epoch dstObj opc r
      (s.chip.mgt.committed.contains (x.peer, epoch, dstObj) = true →
        (∀ size off part last crc b, Becomes s (.hoOffer sess epoch dstObj size off part last crc b) (ack s.chip 0xC111 0)) ∧
        Becomes s (.hoCommit sess epoch dstObj) (ack s.chip 0xC113 0)) ∧
      (s.chip.mgt.committed.contains (x.peer, epoch, dstObj) = false →
        (∀ h off crc b, (s.chip.mgt.handoffs.find? fun h => !h.sender && h.obj == dstObj && h.peer == x.peer &&
            (h.st == 7 || (h.st == 8 && h.peerEpoch == epoch))) = some h →
          1 ≤ b.length → b.length ≤ 8192 → off + b.length ≤ h.size → h.acceptSent = false → h.lastSeen = false →
          let h' := { h with st := 8, peerEpoch := epoch, since := if h.st = 7 then s.chip.boot.tick else h.since, got := (off, b.length) :: h.got }
          (((s.chip.writeObj h.obj off b).setHandoff h h').mgt.handoffs.any fun y => y.obj == dstObj && y.acceptSent) = false →
          Becomes s (.hoOffer sess epoch dstObj h.size off h.dstPart false crc b) (ack ((s.chip.writeObj h.obj off b).setHandoff h h') 0xC111 0)) ∧
        (∀ h, (s.chip.mgt.handoffs.find? fun h => !h.sender && h.obj == dstObj && h.peer == x.peer &&
            h.st == 8 && h.peerEpoch == epoch) = some h →
          (h.acceptSent = true → Becomes s (.hoCommit sess epoch dstObj) (ack (Chip.endHandoff { s.chip with
            mgt := { s.chip.mgt with committed := s.chip.mgt.committed ++ [(x.peer, epoch, dstObj)] } } h 0 0) 0xC113 0)) ∧
          (h.acceptSent = false → Becomes s (.hoCommit sess epoch dstObj) (ack s.chip 0xC113 1)))) ∧
      (∀ h, s.chip.sending? x.peer epoch dstObj = some h →
        (h.st = 3 → Becomes s (.hoAccept sess epoch dstObj) ((ack (s.chip.setHandoff h { h with st := 4, resends := 0, sentAt := s.chip.boot.tick }) 0xC112 0).sendHo x.peer 0xC113 epoch dstObj)) ∧
        (h.st = 2 → ∀ a, h.unacked = [a] → Becomes s (.hoAck sess epoch dstObj 0xC111 0) (s.chip.setHandoff h { h with st := 3, unacked := [], since := s.chip.boot.tick })) ∧
        (h.st = 2 → ∀ a b t, h.unacked = a :: b :: t → Becomes s (.hoAck sess epoch dstObj 0xC111 0) ((s.chip.setHandoff h { h with unacked := b :: t, resends := 0, sentAt := s.chip.boot.tick }).sendOffer
            { h with unacked := b :: t, resends := 0, sentAt := s.chip.boot.tick })) ∧
        (h.st = 2 → ∀ r, r ≠ 0 → Becomes s (.hoAck sess epoch dstObj 0xC111 r) (s.chip.handoffOwned h)) ∧
        (h.st = 4 ∨ h.st = 5 → h.cmd = none → Becomes s (.hoAck sess epoch dstObj 0xC113 0) ((s.chip.scrubExtent (s.chip.obj h.obj)).setHandoff h { h with st := 6, cmd := none })) ∧
        (h.st = 4 ∨ h.st = 5 → Becomes s (.hoAck sess epoch dstObj 0xC113 2) (s.chip.handoffOwned h)))) ∧
    (∀ h, (s.chip.mgt.handoffs.find? fun h => (h.sender && h.epoch == epoch && (h.st == 2 || h.st == 4)) ||
        (!h.sender && h.peerEpoch == epoch && h.st == 8 && h.acceptSent && !h.acceptAcked)) = some h →
      h.sentAt + s.chip.msgRto ≤ s.chip.boot.tick →
      let h' := { h with resends := h.resends + 1, sentAt := s.chip.boot.tick }
      (h.resends < s.chip.msgRetry →
        (h.st = 2 → Becomes s (.handoffResendTimeout epoch) ((s.chip.setHandoff h h').sendOffer h')) ∧
        (h.st = 4 → Becomes s (.handoffResendTimeout epoch) ((s.chip.setHandoff h h').sendHo h.peer 0xC113 epoch h.dstObj)) ∧
        (h.st = 8 → Becomes s (.handoffResendTimeout epoch) ((s.chip.setHandoff h h').sendHo h.peer 0xC112 epoch h.obj))) ∧
      (s.chip.msgRetry ≤ h.resends →
        (h.st = 2 → Becomes s (.handoffResendTimeout epoch) (s.chip.handoffOwned h)) ∧
        (h.st = 4 → Becomes s (.handoffResendTimeout epoch) (s.chip.handoffDoubt h)))) ∧
    (∀ h, (s.chip.mgt.handoffs.find? fun h => h.sender && h.epoch == epoch && h.st == 3) = some h →
      h.since + s.chip.msgRto * (s.chip.msgRetry + 1) ≤ s.chip.boot.tick →
      Becomes s (.offeredTimeout epoch) (s.chip.handoffOwned h)) ∧
    (∀ h, (s.chip.mgt.handoffs.find? fun h => !h.sender && h.peerEpoch == epoch && h.st == 8) = some h →
      h.since + s.chip.hsTmo ≤ s.chip.boot.tick →
      Becomes s (.tentativeTimeout epoch) (s.chip.handoffDiscard h))

/-- HELLO is answered with HELLO_REPLY and keys, or refused and counted; a verified HELLO_REPLY is answered with
AUTH; AUTH opens the session it authenticates, or fails, a bad tag or sequence is counted; a handshake older
than its limit is dropped. (R517, R519, R520, R534) -/
def Obligations.HandshakesAct : Prop :=
  ∀ s : State, s.chip.Still →
    (s.chip.rinlidal = true →
      (∀ src kind (pub nonce : Bytes), pub.length = 97 → nonce.length = 32 → s.chip.mgt.handshakes.length < 8 →
        (s.chip.helloOk kind = false →
          Becomes s (.hello src kind pub nonce) ((s.chip.sendClear src 5 0 (natLE 1 1)).bump .mgtHsFail 12)) ∧
        (s.chip.helloOk kind = true →
          let priv := bytesOf 48 (Config.trng s.chip.draws)
          let nr := bytesOf 32 (Config.trng (s.chip.draws + 1))
          let sid := s.chip.mgt.nextSession
          let fields := natLE 4 sid ++ Config.ecPub priv ++ nr ++ natLE 8 s.chip.boot.image.serial ++ s.chip.devCert
          let tr := natLE 1 kind ++ pub ++ nonce ++ fields
          let h : Handshake :=
            { id := sid, session := sid, kind := kind, addr := src, ephPriv := priv, transcript := tr,
              keyRx := (sessionKeys priv pub nonce nr).1, keyTx := (sessionKeys priv pub nonce nr).2, at_ := s.chip.boot.tick }
          let c : Chip := { s.chip with
            draws := s.chip.draws + 3
            mgt := { s.chip.mgt with nextSession := sid + 1, handshakes := s.chip.mgt.handshakes ++ [h] } }
          Becomes s (.hello src kind pub nonce)
            (c.sendClear src 2 0 (fields ++ Config.ecdsaSign s.chip.sec.idKey (Config.sha384 tr) (Config.trng (s.chip.draws + 2)))))) ∧
      (∀ src session pub nonce serial devSigned devSig sig h,
        (s.chip.mgt.handshakes.find? fun h => h.init && !h.authSent && h.addr == src) = some h →
        devCertOk devSigned devSig = true → fieldB devSigned 8 7 = serial % 2 ^ 56 → (s.chip.peer h.peer).serial = serial % 2 ^ 56 →
        let tr := h.transcript ++ natLE 4 session ++ pub ++ nonce ++ natLE 8 serial ++ devSigned ++ devSig
        let ks := sessionKeys h.ephPriv pub (h.transcript.drop 98) nonce
        let h' := { h with session := session, transcript := tr, keyTx := ks.1, keyRx := ks.2, id := h.id + session, authSent := true }
        let c := s.chip.setHandshakes (s.chip.mgt.handshakes.map fun x => if x.id = h.id then h' else x)
        (Config.ecdsaVerify (sliceB devSigned 0x10 97) (Config.sha384 tr) sig = true →
          Becomes s (.helloReply src session pub nonce serial devSigned devSig sig)
            (({ c with draws := c.draws + 1 } : Chip).ethSend (sealRec { id := session, addr := h.addr, init := true, keyTx := ks.1 } 3
              (s.chip.devCert ++ Config.ecdsaSign s.chip.sec.idKey (Config.sha384 (tr ++ s.chip.devCert)) (Config.trng s.chip.draws))))) ∧
        (Config.ecdsaVerify (sliceB devSigned 0x10 97) (Config.sha384 tr) sig = false →
          Becomes s (.helloReply src session pub nonce serial devSigned devSig sig) (c.failHandshake h' 3 7))) ∧
      (∀ r : Record, (s.chip.mgt.handshakes.find? fun h => !h.init && h.session == r.session) = none →
        Becomes s (.auth r) (s.chip.bump .mgtTagFail 12)) ∧
      (∀ (r : Record) h, (s.chip.mgt.handshakes.find? fun h => !h.init && h.session == r.session) = some h →
        (openRec h.keyRx true 3 r = none → Becomes s (.auth r) (s.chip.bump .mgtTagFail 12)) ∧
        (∀ b, openRec h.keyRx true 3 r = some b →
          (r.seq ≠ 1 → Becomes s (.auth r) (s.chip.bump .mgtReplayDrop 12)) ∧
          (r.seq = 1 → kindState h.kind s.chip.boot.state = true →
            let cert := b.take (b.length - 96)
            let c := s.chip.bump .mgtRecordsRx 12
            (if h.kind = 2 then devCertSigned (cert.take 0x130) (cert.drop 0x130) else certSigned s.chip.boot.image.ownerCert cert) = true →
            (∀ cause, c.authCheck h cert (b.drop (b.length - 96)) = .inl cause → Becomes s (.auth r) (c.failHandshake h cause 7)) ∧
            (∀ who, c.authCheck h cert (b.drop (b.length - 96)) = .inr who →
              (h.kind ≠ 2 → Becomes s (.auth r) ((c.openSession h who 1).sendResponse h.id 0 0 0 0 [] false)) ∧
              (h.kind = 2 → Becomes s (.auth r) (((c.openSession h who 1).sendResponse h.id 0 0 0 0 [] false).peerOpened who))))))) ∧
    (∀ id h, (s.chip.mgt.handshakes.find? fun h => h.id == id) = some h → h.at_ + s.chip.hsTmo ≤ s.chip.boot.tick →
      Becomes s (.handshakeTimeout id) (s.chip.dropHandshake h 2))

/-- A DATA record whose tag verifies and whose sequence is fresh queues its request; a replayed or unverified record
is counted and dropped; CLOSE ends a session (an owner's nonces with it); an idle session is closed and overdue
partial requests are dropped. (R518, R521, R522, R523) -/
def Obligations.RecordsAct : Prop :=
  ∀ s : State, s.chip.Still →
    (s.chip.rinlidal = true → ∀ r : Record,
      (∀ x b, s.chip.openAny 4 r = some (x, b) →
        (x.fresh r.seq = false → Becomes s (.data r) (s.chip.bump .mgtReplayDrop 12)) ∧
        (x.fresh r.seq = true → fieldB b 0 2 < 0x8000 → 16 ≤ b.length → fieldB b 3 1 = 1 → fieldB b 2 1 = 0 →
          fieldB b 8 2 = b.length - 16 → zeroAt b 10 6 = true → fieldB b 4 4 ≠ 0 → x.kind ≠ 2 → knownOpc x.kind (fieldB b 0 2) = true →
          Becomes s (.data r) (((s.chip.bump .mgtRecordsRx 12).modSession x.id fun y => y.accept r.seq s.chip.boot.tick).modSession x.id
            fun y => { y with ready := y.ready ++ [(fieldB b 4 4, fieldB b 0 2, b.drop 16)] }))) ∧
      (s.chip.openAny 4 r = none →
        (s.chip.mgt.handshakes.find? fun h => h.authSent && h.session == r.session && (openRec h.keyRx false 4 r).isSome) = none →
        Becomes s (.data r) (s.chip.bump .mgtTagFail 12)) ∧
      (∀ x b, s.chip.openAny 5 r = some (x, b) →
        (x.fresh r.seq = false → Becomes s (.close r) (s.chip.bump .mgtReplayDrop 12)) ∧
        (x.fresh r.seq = true → s.chip.session? x.id = some x → x.kind = 0 →
          RaisesTo s (.close r) { s.chip with
            mgt := { s.chip.mgt with sessions := s.chip.mgt.sessions.filter fun y => y.id != x.id }
            sec := { s.chip.sec with quoteNonces := [] } }) ∧
        (x.fresh r.seq = true → s.chip.session? x.id = some x → x.kind = 1 →
          RaisesTo s (.close r) { s.chip with
            mgt := { s.chip.mgt with sessions := s.chip.mgt.sessions.filter fun y => y.id != x.id } }))) ∧
    (∀ id x, s.chip.session? id = some x →
      (x.lastRx + 1000 * max 1 (s.chip.fld .mgtGlb2 12 [] 31 16) ≤ s.chip.boot.tick →
        Becomes s (.sessionIdleTimeout id) (s.chip.closeSession id 4)) ∧
      (∀ reqId, Becomes s (.reassemblyTimeout id reqId) (s.chip.modSession id fun _ => { x with
        partials := x.partials.filter fun p => !(p.reqId == reqId && s.chip.due p.since s.chip.hsTmo) })))

/-- An IDLE flit's acknowledgement and credit are taken; a DATA flit with a bad CRC is counted and NAKed, a good one
in sequence brings its response, which waits for its own step with its flits' credit; control and replayed flits are sent
in order; ACK timeouts (in the error window while the link carries traffic, in TEST outside it), FEC errors and the error
window are counted. (R319, R320, R322, R324, R326, R328, R334) -/
def Obligations.FlitsMove : Prop :=
  ∀ (s : State) (p : Nat), s.chip.Still → s.chip.portExists p = true →
    let c := s.chip
    let q := c.port p
    (∀ h : FlitHdr, c.usable p = true → h.nak = false → q.resumeAck = false →
      Becomes s (.idleFlit p h) ((c.modPort p fun q =>
        ({ q with winFlits := q.winFlits + 1 }.takeAck h.ack).takeCcum (h.cvc % 4) (h.ccum % 65536)).portBump .lnkFlitsRx p)) ∧
    (∀ f : Bytes, c.NoStrays p → f.length = 256 → c.usable p = true → fieldB f 0 1 % 16 = 1 → fieldB f 0xF8 8 ≠ crc64 (f.take 0xF8) →
      Becomes s (.dataFlit p f) ((c.portBump .lnkCrcErr p).modPort p fun q =>
        if q.nakPending then q else { q with nakPending := true, sendNak := true })) ∧
    (∀ f : Bytes, c.NoStrays p → f.length = 256 → c.usable p = true → fieldB f 0 1 % 16 = 1 → bit (fieldB f 0 1) 6 = false →
      fieldB f 0xF8 8 = crc64 (f.take 0xF8) → q.keys = none → fieldB f 1 2 % 4096 = q.expected → fieldB f 7 1 % 4 = 3 →
      q.rx = [[], [], [], []] → q.rxCells = [[], [], [], []] → q.rxMode = List.replicate 4 .whole → q.rxWait = [[], [], [], []] →
      (fieldB f 8 1 = 0x20 ∨ fieldB f 8 1 = 0x21) → fieldB f 16 2 = 0 → fieldB f 24 1 = 0 →
      let h : FlitHdr := { cvc := bits (fieldB f 0 1) 5 4, nak := false, seq := fieldB f 1 2 % 4096, ack := fieldB f 3 2 % 4096, ccum := fieldB f 5 2 }
      let n := (modNth (c.rxHdr p h |>.port p).rxFlits 3 (· + 1)).getD 3 0
      Becomes s (.dataFlit p f) ((c.rxHdr p h).modPort p fun q => { q with
        lastGood := q.expected, expected := (q.expected + 1) % 4096, nakPending := false, rxTotal := q.rxTotal + 1
        rxCount := modNth q.rxCount 3 (· + 1), rxFlits := (modNth q.rxFlits 3 (· + 1)).set 3 0
        inbox := q.inbox ++ [.rsp (unpackRsp (sliceB f 8 16)) [] n] })) ∧
    (∀ t b rest, q.st ≠ .down → q.st ≠ .failed → q.ctrlTx = (t, b) :: rest →
      Becomes s (.flitSend p) ((c.modPort p fun q => { q with
        ctrlTx := rest, lastTx := q.flitBytes { ftype := 2, seq := q.txSeq } (ctrlBytes t b), cvc := (q.cvc + 1) % 4, sendNak := false
        pcs := q.pcs + flitCycles q.width }).portBump .lnkFlitsTx p)) ∧
    (∀ s0 t k, c.usable p = true → q.ctrlTx = [] → q.resumeAck = false → (∀ w ∈ q.rxWait, w = []) → q.resend = s0 :: t → q.kept.find? (fun k => k.seq == s0) = some k →
      let d := c.grantExtra p
      Becomes s (.flitSend p) ((d.modPort p fun q => { q with
        resend := t, kept := modFirst (fun k => k.seq == s0) (fun k => { k with sentAt := q.pcs }) q.kept, lastTx := q.flitBytes { ftype := 1, seq := k.seq, dvc := k.dvc } k.payload, cvc := (q.cvc + 1) % 4, sendNak := false
        pcs := q.pcs + flitCycles q.width }).portBump .lnkFlitsTx p |>.idleV p)) ∧
    (∀ k0 rest, q.st = .test → q.lanes ≠ 0 → q.kept = k0 :: rest → k0.sentAt + c.ackTmo p ≤ q.pcs →
      Becomes s (.ackTimeout p) ((c.modPort p fun q => { q with
        resend := q.kept.map (·.seq), kept := q.kept.map fun k => { k with sentAt := q.pcs }
        replaysRow := q.replaysRow + 1 }).portBump .lnkReplay p)) ∧
    (∀ k0 rest, c.usable p = true → q.kept = k0 :: rest → k0.sentAt + c.ackTmo p ≤ q.pcs → q.replaysRow + 1 < c.replayMax p → q.winReplays + 1 ≠ c.replayThr p →
      Becomes s (.ackTimeout p) ((c.modPort p fun q => { q with
        resend := q.kept.map (·.seq), kept := q.kept.map fun k => { k with sentAt := q.pcs }
        replaysRow := q.replaysRow + 1, winReplays := q.winReplays + 1 }).portBump .lnkReplay p)) ∧
    (∀ symbols : List Nat, c.usable p = true → q.winUnc + 1 ≠ c.uncThr p →
      let syms := (List.range 4).map fun i => symbols.getD i 0
      let counted := ([(.lnkLaneSym0, 0), (.lnkLaneSym1, 1), (.lnkLaneSym2, 2), (.lnkLaneSym3, 3)] : List (Cnt × Nat)).foldl (fun c e =>
        if syms.getD e.2 0 = 0 then c else c.portBump e.1 (portOf (portDie p) (p % 16)) (syms.getD e.2 0)) (c.portBump .lnkFecUnc p)
      Becomes s (.fecUncorrectable p symbols) (counted.modPort p fun q => { q with
        winUnc := q.winUnc + 1, laneSyms := (List.range 4).map fun i => q.laneSyms.getD i 0 + syms.getD i 0 })) ∧
    (2 ^ 30 ≤ q.winFlits → Becomes s (.errorWindowEnd p) (c.modPort p fun q => { q with
      winFlits := q.winFlits - 2 ^ 30, winReplays := 0, winUnc := 0, hitReplay := false, hitUnc := false, laneSyms := [0, 0, 0, 0] }))

/-- The audit of a port die starts, marks the cells in use, and sweeps: unmarked old cells are freed, marked ones
kept; a transfer error and its retry are counted at its link's sender
(model's choice, log entry 110); a link past its retry limit goes DOWN, what is outstanding on it is resent on
another path, and the fault is raised, degrading a device in SERVICE. (R359, R360, R364) -/
def Obligations.AuditsAndDieLinksAct : Prop :=
  ∀ (s : State) (die link : Nat), s.chip.Still →
    let c := s.chip
    (8 ≤ die → die < 12 → c.enabled 4 die = true →
      (c.skim die = 0 → kgetD c.swc.auditAt die 0 + max 1 (c.fld .swcGlb die [] 31 16) ≤ c.tick →
        Becomes s (.auditStart die) { c with swc := { c.swc with
          epoch := ksetD c.swc.epoch die false (!c.swcEpoch die), auditAt := kput c.swc.auditAt die c.tick
          skim := ksetD c.swc.skim die 0 1 } }) ∧
      (c.skim die = 1 → ∃ t, exec (.markPhaseEnd die) s = .next t ∧ t.chip.skim die = 2 ∧
        (∀ k, t.chip.cell k = if k ∈ c.cellsInUse ∧ cellDie k = die ∧ (c.cell k).free = false then { c.cell k with mark := true } else c.cell k) ∧
        t.chip = { c with swc := { c.swc with cells := t.chip.swc.cells, skim := t.chip.swc.skim } } ∧ t.snap = s.snap ∧ t.pending = s.pending) ∧
      (c.skim die = 2 → Rising c.swc.cells → ∃ t, exec (.auditSweepEnd die) s = .next t ∧ t.chip.skim die = 0 ∧
        (∀ k, cellDie k = die →
          let e := c.cell k
          let left := if e.free then (if e.ref = 0 then e else { e with free := false })
            else if e.mark = false ∧ e.epoch ≠ c.swcEpoch die then {}
            else if e.mark = true ∧ e.ref = 0 then { e with ref := 1 } else e
          t.chip.cell k = { left with mark := false }) ∧
        (∀ k, cellDie k ≠ die → t.chip.cell k = c.cell k) ∧
        t.chip = ({ c with swc := { c.swc with cells := t.chip.swc.cells, skim := t.chip.swc.skim } } : Chip).raising t.chip ∧
        t.snap = s.snap ∧ t.pending = s.pending)) ∧
    (linkExists die link = true → c.linkDown die link = false →
      let o := linkPeer die link
      Becomes s (.d2dTransferError die link) ((({ c with swc := { c.swc with
        retries := kput c.swc.retries (o.1 * 16 + o.2) (kgetD c.swc.retries (o.1 * 16 + o.2) 0 + 1) } } : Chip).bump .swcD2dErr o.1 [o.2]).bump
          .swcD2dRetry o.1 [o.2]) ∧
      let d := ((c.takeLinkDown die link).resendOn die link).resendOn o.1 o.2
      (max 1 (c.fld .swcGlb die [] 11 8) ≤ c.linkRetries die link → d.allReach = true →
        (c.boot.state = .degraded → RaisesTo s (.d2dFault die link) d) ∧
        (c.boot.state = .service → RaisesTo s (.d2dFault die link) { d with
          boot := { c.boot with state := .degraded, times := kput c.boot.times DevState.degraded.code c.tick } })))

/-- A gate entry's end moves to the next entry, the first, or the other bank; a legal switch request is recorded or
done at once on an ungated port, and GATE_EN written 1 starts a cycle; a queue sample records depths, delays and their
maxima, its next one due a whole interval after the time of this one; LNK_CTRL's ENABLE
starts training of the ports it enables. (R316, R380, R383, R385, R389) -/
def Obligations.ShapingRowsAct : Prop :=
  ∀ (s : State) (p : Nat), s.chip.Still →
    let c := s.chip
    let q := c.port p
    let g := q.gate
    (c.gated p = true → c.usable p = true ∨ q.st = .retrain → c.entryLeft p = 0 →
      let next := g.start + (c.gateNow p).2
      (g.entry + 1 < c.gateLen p g.bank →
        RaisesTo s (.gateEntryEnd p) (c.modPort p fun q => { q with gate := { g with entry := g.entry + 1, start := next } })) ∧
      (c.gateLen p g.bank ≤ g.entry + 1 → g.switch = false →
        RaisesTo s (.gateEntryEnd p) (c.modPort p fun q => { q with gate := { g with entry := 0, start := next } })) ∧
      (c.gateLen p g.bank ≤ g.entry + 1 → g.switch = true → c.switchLegal p = true →
        RaisesTo s (.gateEntryEnd p) (c.modPort p fun q => { q with gate := { bank := 1 - g.bank, entry := 0, start := next } }))) ∧
    (∀ (m : Master) (v : Word), m.code ≤ 8 → p < 256 → c.dieCut (portDie p) = false →
      let w := c.written .tshPortCfg (portDie p) [portLocal p] v
      let d := c.setReg .tshPortCfg (portDie p) [portLocal p] (putBits w 29 28 0)
      (c.codes .tshPortCfg (portDie p) [portLocal p] v.toNat true).ignored = false →
      (bit w 31 = true → bit (c.portReg .tshPortCfg p) 31 = true) → (bit w 30 = true → bit (c.portReg .tshPortCfg p) 30 = true) →
      bit v.toNat 29 = true → d.switchLegal p = true →
      let e := if bit w 31 = true ∧ bit v.toNat 31 = true then d.modPort p fun q => { q with gate := { q.gate with entry := 0, start := q.pcs } }
        else d
      (d.gated p = true → Becomes s (.bankSwitchRequest m p v)
        ((e.modPort p fun q => { q with gate := { q.gate with switch := true } }).busResp 0 0)) ∧
      (d.gated p = false → Becomes s (.bankSwitchRequest m p v)
        ((e.modPort p fun q => { q with gate := { bank := 1 - q.gate.bank, entry := 0, start := q.pcs, switch := false } }).busResp 0 0))) ∧
    (c.portExists p = true → q.sampAt + max 1 (c.portFld .tshSampleCfg p 23 0) ≤ q.pcs → q.lastDepth.length = 8 → q.lastDelay.length = 8 →
      q.maxDepth.length = 8 → q.maxDelay.length = 8 →
      ∃ t, exec (.queueSample p) s = .next t ∧ t.snap = s.snap ∧ t.pending = s.pending ∧
        (let r := t.chip.port p
         r.sampAt = q.sampAt + max 1 (c.portFld .tshSampleCfg p 23 0) ∧ (∀ k < 8,
          let waits := (c.classMsgs p k).map (·.2)
          let depth := min 0xFFFF (waits.map fun m => cdiv m.payload 256).sum
          let delay := min 0xFFFF (((waits.head?.map fun m => q.pcs - m.since).getD 0) / 64)
          r.lastDepth.getD k 0 = depth ∧ r.lastDelay.getD k 0 = delay ∧
          r.maxDepth.getD k 0 = max depth (q.maxDepth.getD k 0) ∧ r.maxDelay.getD k 0 = max delay (q.maxDelay.getD k 0)) ∧
         t.chip = { c.setPort p { q with sampAt := r.sampAt, lastDepth := r.lastDepth, lastDelay := r.lastDelay, maxDepth := r.maxDepth, maxDelay := r.maxDelay } with
          ctl := { c.ctl with cnt := t.chip.ctl.cnt, sat := t.chip.ctl.sat, satEv := t.chip.ctl.satEv } })) ∧
    (∀ (m : Master) (v : Word) (die : Nat), m.code ≤ 8 → 8 ≤ die → die < 12 → c.dieCut die = false →
      let w := c.written .lnkCtrl die [] v
      let d := c.setReg .lnkCtrl die [] w
      (bit w 0 = false → (∀ j < 64, (c.port (portOf die j)).st = .down) → Becomes s (.lnkCtrlWrite m die v) (d.busResp 0 0)) ∧
      (bit w 0 = true → Becomes s (.lnkCtrlWrite m die v) (((List.range 64).foldl (fun e j =>
          if d.linkOn (portOf die j) && (c.port (portOf die j)).st == .down then e.startTrain (portOf die j) .train else e) d).busResp 0 0)))

/-- A request that passes the checks, with its lines free, is counted and charged, has its effect on the lines'
bytes and directory entries, and is answered: reads, copies taken shared or exclusive, evictions and
write-backs, and the logged stores. (R280, R281, R283, R286, R288, R292, R401, R404) -/
def Obligations.RequestsComplete : Prop :=
  ∀ (s : State) (p q region obj off : Nat) (r : Req), s.chip.Still → s.chip.Takes p q r →
    let c := s.chip
    let who := if c.tests r.src then Who.tester else Who.fabric
    let x : Pend := { id := c.gtx.nextId, req := r, part := q, region := region, obj := obj, off := off }
    (opcLogged r.opc = false →
      let d := (c.reissued q r).takeId
      let y := { x with origin := .port p none, lines := d.poolLines obj off 128 }
      let e := d.admitted p y
      d.checks who q r = (.ok region obj off, d) →
      (r.opc = 1 → e.FreeLines y y.lines →
        let t := e.onLines y y.lines
        Becomes s (.rdNc p 0 r) (t.1.complete t.2)) ∧
      (∀ l i w, y.lines = [l] → c.sharer? r.src = some i →
        let f := e.bump .cohLookups (e.lineDie l.1)
        (e.FreeLine y l → e.homes y l.1 = true → f.freeWay l.1 = some w →
          let g := { f with coh := { f.coh with seq := f.coh.seq + 1 } }
          let ent (st : Nat) : LineEnt := { st := st, sharers := slotBit i, way := w, seq := f.coh.seq + 1 }
          (r.opc = 2 →
            let t := (g.setEnt l.1 (ent 1)).lineEffect y l.2
            Becomes s (.rdS p 0 r) (t.1.complete { t.2 with lines := [] })) ∧
          (r.opc = 3 →
            let t := (g.setEnt l.1 (ent 2)).lineEffect y l.2
            Becomes s (.rdX p 0 r) (t.1.complete { t.2 with lines := [] }))) ∧
        (r.opc = 6 → e.Reaches y l.1 → e.tierStall y off = none → ∀ en, e.ent? l.1 = some en → en.sharers.getLsbD i = true → (∀ j ∈ slotsOf en.sharers, e.slotLost j = false) →
          (en.st = 2 → Becomes s (.evict p 0 r) ((f.delEnt l.1).complete y)) ∧
          (en.st = 1 →
            let v := en.sharers &&& ~~~ slotBit i
            Becomes s (.evict p 0 r) ((if v = 0 then f.delEnt l.1 else f.setEnt l.1 { en with sharers := v }).complete y))))) ∧
    (opcLogged r.opc = true → ∀ i, c.stream? r.src q = some i → c.FreshTag i r →
      let d := c.logs p q i r
      let cells := (c.allocCells (portDie p) (cdiv r.payload.length 256) (portLocal p)).2
      let y := { x with origin := .port p (some (i, r.tag % 1024)), lines := d.poolLines obj off (reqLen r), cells := cells }
      let e := d.admitted p y
      d.Fits p q r.opc cells.length → d.checks who q r = (.ok region obj off, d) →
      (e.FreeLines y y.lines →
        let t := e.onLines y y.lines
        (r.opc = 4 → Becomes s (.wr p 0 r) (t.1.complete t.2)) ∧ (r.opc = 7 → Becomes s (.atomic p 0 r) (t.1.complete t.2)) ∧
        (r.opc = 8 → Becomes s (.bstore p 1 r) (t.1.complete t.2)) ∧ (r.opc = 11 → Becomes s (.reduce p 1 r) (t.1.complete t.2))) ∧
      (r.opc = 5 → ∀ l j en, y.lines = [l] → e.Reaches y l.1 → e.tierStall y off = none → c.sharer? r.src = some j → e.ent? l.1 = some en → en.st = 2 → en.sharers.getLsbD j = true →
        (∀ j ∈ slotsOf en.sharers, e.slotLost j = false) →
        Becomes s (.wb p 0 r)
          (((((e.bump .cohLookups (e.lineDie l.1)).delEnt l.1).takeDram y off).writeObj obj off r.payload).complete y)))

/-- A TSTORE into a window's set marks its bytes on every die of the window, each part under its own references to the
store's cells, and is answered; an MSTORE issues one store per target of its group, each with a reference to the payload's
cells, or is refused where the group is not valid or another partition's; a MSG joins its partition's queue, is pumped to
its peer and answered. (R82, R283, R284, R285, R287, R288, R292, R357) -/
def Obligations.StoresAndMessagesComplete : Prop :=
  ∀ (s : State) (p q i region : Nat) (r : Req), s.chip.Still → s.chip.Takes p q r → s.chip.stream? r.src q = some i → s.chip.FreshTag i r →
    let c := s.chip
    let who := if c.tests r.src then Who.tester else Who.fabric
    let d := c.logs p q i r
    let cells := (c.allocCells (portDie p) (cdiv r.payload.length 256) (portLocal p)).2
    let x (region : Nat) : Pend := { id := c.gtx.nextId, req := r, origin := .port p (some (i, r.tag % 1024)), part := q, region := region, cells := cells }
    d.Fits p q r.opc cells.length →
    (r.opc = 9 → d.checks who q r = (.ok region 0 0, d) → c.gtx.held = [] → ∀ w,
      let e := d.admitted p (x region)
      e.windowAt q (offOf r.addr) = some w → w.query = false →
      let e1 : Chip := { e with gtx := { e.gtx with
        tstores := (e.gtx.tstores.filter fun t => t.id != c.gtx.nextId) ++ [{ id := c.gtx.nextId, pend := x region }] } }
      let parts := w.dies.map (e.wholePart (x region) w)
      let f := parts.foldl (fun f h => f.partMarked w cells h) e1
      (offOf r.addr - w.base) % w.setBytes + r.payload.length ≤ w.setBytes → Chip.Marks w cells e1 parts →
      Becomes s (.tstore p 1 r)
        (({ f with gtx := { f.gtx with tstores := f.gtx.tstores.filter fun t => t.id != c.gtx.nextId } } : Chip).complete (x region))) ∧
    (let e := d.admitted p (x 4096)
     (r.opc = 10 →
      let g := r.opnd % 4096
      let h := d.groupHead g
      let addr (k : Nat) := ((d.groupTarget g k).1 + offOf r.addr) % 2 ^ 64
      ((bit h.1 0 = false ∨ h.2.2 = 0 ∨ 15 < h.2.2) → Becomes s (.mstore p 1 r) (d.refusePend { x 0 with region := 0 } 9 0)) ∧
      (bit h.1 0 = true → h.2.1 ≠ q → 1 ≤ h.2.2 → h.2.2 ≤ 15 →
        Becomes s (.mstore p 1 r) (d.refusePend { x 0 with region := 0 } 2 1)) ∧
      (bit h.1 0 = true → h.2.1 = q → 1 ≤ h.2.2 → h.2.2 ≤ 15 →
      (∀ k < h.2.2, ∃ a b, e.node (nodeOf (addr k)) = .ports a b) →
      let m : MStore := { id := c.gtx.nextId, req := r, origin := (x 4096).origin, part := q, left := List.range h.2.2 }
      Becomes s (.mstore p 1 r) ((List.range h.2.2).foldl (fun e' k =>
        let t := d.groupTarget g k
        e'.issue q (.mTarget c.gtx.nextId k)
          { opc := if t.2.2.2 = 1 then 9 else 8, addr := addr k, handle := t.2.1, epoch := t.2.2.1, payload := r.payload } cells)
        ((({ e with gtx := { e.gtx with mstores := e.gtx.mstores ++ [m] } } : Chip).takeRefs
          ((List.range h.2.2).flatMap fun _ => cells)).releaseCells cells)))) ∧
     (r.opc = 12 → (e.queued q).length < 255 →
      let peer := fieldB r.payload 2 1 % 16
      Becomes s (.msg p 1 r)
        (((e.setQueue (e.mgt.queue ++ [{ part := q, peer := peer, bytes := r.payload }])).pumpMsgs peer).complete (x 4096))))

/-- A response for no node is dropped and counted, for another node forwarded with its data's cells, for a request of the
module it ends or reissues it; an overdue request is reissued on the buddy port, where its share has room, or waits; a
request that waited for its partition's share, and a held store, go on when they may. On which die a response's data
takes its cells is the model's choice (log entry 147). (R84, R273, R301, R302, R350) -/
def Obligations.ResponsesAct : Prop :=
  ∀ (s : State), s.chip.Still →
    let c := s.chip
    let without (id : Nat) : Chip := { c with gtx := { c.gtx with devReqs := c.gtx.devReqs.filter fun x => x.id != id } }
    (∀ (p : Nat) (r : Rsp), c.portExists p = true → c.usable p = true → (c.port p).findRsp r = none → c.moves p = true →
      let a := c.allocCells (portDie p) (cdiv r.data.length 256) (portLocal p)
      let d := a.1.releaseCells a.2
      (c.node r.dst = .none → Becomes s (.rsp p r) (d.bump .gtxRspDrop 12)) ∧
      (∀ m n, c.node r.dst = .ports m n →
        (∀ o, c.routePort r.dst (pathHash 0 r.tag r.dst r.src) = some o →
          Becomes s (.rsp p r) (a.1.enqueue o { rspMsg r with cells := a.2, cred := none, home := some (portDie p), acct := none })) ∧
        (c.routePort r.dst (pathHash 0 r.tag r.dst r.src) = none → Becomes s (.rsp p r) (d.bump .gtxRspDrop 12))) ∧
      (∀ q, c.node r.dst = .here q →
        let m := c.gtx.devReqs.find? fun d => d.part == q && d.dst == r.src && d.req.tag == r.tag
        (m = none → Becomes s (.rsp p r) d) ∧
        (∀ x, m = some x →
          let e := ((d.ownerDie? x.owner).map fun y => d.cross (portDie p) y (pathHash 0 r.tag r.dst r.src)).getD d
          (r.status = 1 → Becomes s (.rsp p r) (e.retryUnsent { x with unsent := false, req := { x.req with rsv := r.info } })) ∧
          (∀ w v, r.status ≠ 1 → x.owner = .notify w v → c.gtx.devHeld = [] → (∀ y ∈ c.gtx.devReqs, y.unsent = false) →
            Becomes s (.rsp p r)
              (({ e with gtx := { e.gtx with devReqs := e.gtx.devReqs.filter fun y => y.id != x.id } } : Chip).releaseCells x.cells))))) ∧
    (∀ (id : Nat) (d : DevReq), (c.gtx.devReqs.find? fun d => d.id == id) = some d → c.due d.issued (max 1 (c.fld .gtxGlb 12 [] 15 0)) = true →
      let put (d : DevReq) : Chip := { c with gtx := { c.gtx with devReqs := modFirst (fun x => x.id == id) (fun _ => d) c.gtx.devReqs } }
      (∀ p, d.port = some p → (c.port p).st = .retrain → Becomes s (.rspTimeout id) (put { d with issued := c.tick })) ∧
      ((∀ p, d.port = some p → (c.port p).st ≠ .retrain) → d.reissues < c.fld .gtxGlb 12 [] 31 24 → ∀ a b, c.node d.dst = .ports a b →
        let d' := { d with reissues := d.reissues + 1, issued := c.tick, req := { d.req with re := true } }
        let out (o : Nat) : Prop :=
          ((without id).devFits d' o = true → Becomes s (.rspTimeout id) ((without id).putOnPort d' o)) ∧
          ((without id).devFits d' o = false → Becomes s (.rspTimeout id)
            ((if d.unsent then without id else (without id).bump .swcShareWait (c.cellDieOf d' o)).addDevReq
              { d' with port := some o, unsent := true }))
        let stays : Prop := Becomes s (.rspTimeout id) (put { d' with port := none, unsent := false })
        (∀ p, d.port = some p →
          let o := if p = a then b else a
          (c.usable o = true → out o) ∧ (c.usable o = false → c.usable p = true → out p) ∧
          (c.usable o = false → c.usable p = false → stays)) ∧
        (d.port = none →
          let o := c.routePort d.dst (pathHash d.req.addr d.req.tag d.req.src d.dst)
          (∀ q, o = some q → out q) ∧ (o = none → stays)))) ∧
    (∀ (q die : Nat) (w : ShareWait),
      let head (vc : Nat) := c.gtx.shareWait.find? fun w => w.die == die && w.pend.part == q && opcVc w.pend.req.opc == vc
      (([head 0, head 1].filterMap fun h => h).find? fun w => c.shareFits die q w.pend.need) = some w →
      (w.pend.req.opc = 4 ∨ w.pend.req.opc = 7 ∨ w.pend.req.opc = 8 ∨ w.pend.req.opc = 11) → (∃ p k, w.pend.origin = .port p k) →
      let x := { w.pend with cred := none }
      let e := ((({ c with gtx := { c.gtx with shareWait := c.gtx.shareWait.erase w } } : Chip).chargeCells x.cells (64 + q)).freeCred w.pend.cred).crossings w.pend die
      e.FreeLines x x.lines → Becomes s (.shareWaitResume q die) (let t := e.onLines x x.lines; t.1.complete t.2)) ∧
    (∀ (h : HeldStore) (rest : List HeldStore) (t : TStore), c.gtx.held = h :: rest → (∀ x ∈ c.gtx.held, x.queued = true) →
      (∀ t ∈ c.gtx.tstores, t.ingress = false) → c.mustHold h [] = false → h.query = false →
      (c.gtx.tstores.find? fun t => t.id == h.pend) = some t → t.pend.got = none → (∃ p k, t.pend.origin = .port p k) →
      let w := c.win h.win
      let e := (({ c with gtx := { c.gtx with held := rest } } : Chip).markPart w h.slot h.die h.off h.bytes
        (cellsOf t.pend.cells h.lo h.bytes.length)).releaseCells (h.refs t.pend.cells)
      (markBytes (c.slot (w.key h.slot h.die)).bytes h.off h.bytes).1.length ≠ w.setBytes →
      ((∀ x ∈ rest, x.pend ≠ h.pend) → Becomes s (.heldStoreRelease h.die)
        ((({ e with gtx := { e.gtx with tstores := e.gtx.tstores.filter fun x => x.id != h.pend } } : Chip).freeCred t.pend.cred).complete
          { t.pend with cred := none, cells := [] })) ∧
      ((∃ x ∈ rest, x.pend = h.pend) → Becomes s (.heldStoreRelease h.die) e))

/-- A snoop response is taken off with its data written back and moves its line's transaction on; the next waiter of
a line is served or its reservation starts or expires; overdue snoops are resent or their node declared lost;
the sweep of a lost node ends. (R403, R405, R407, R408, R410, R411, R419) -/
def Obligations.SnoopsAct : Prop :=
  ∀ (s : State), s.chip.Still →
    let c := s.chip
    c.coh.late = [] → c.mem.cursorWait = [] →
    (∀ (p : Nat) (r : SnpRsp) (n : Snoop), c.portExists p = true → c.usable p = true → (c.port p).findSnp r = none → c.moves p = true →
      (c.coh.snoops.find? fun x => x.tag == r.tag && x.node == r.src) = some n →
      let b := c.cross (portDie p) (r.tag / 8192) (pathHash 0 r.tag r.dst r.src)
      let d := if r.data && n.keepData then match b.lineOwner n.line with
          | some o => b.writeObj o.1 o.2 r.line
          | none => b
        else b
      let w : Chip := { d with coh := { c.coh with snoops := delFirst (fun x => x.tag == n.tag) c.coh.snoops, partSweeps := c.coh.partSweeps.map fun e => (e.1, e.2.erase n.tag) } }
      ((c.lineQ n.line).txn = none → Becomes s (.snpRsp p r) w) ∧
      (∀ t, (c.lineQ n.line).txn = some t → t.snoops.contains n.tag = true →
        let kept := t.kept || (r.kept && !n.inv)
        let f := w.setLineQ n.line { c.lineQ n.line with txn := some { t with snoops := t.snoops.erase n.tag, kept := kept } }
        (t.snoops.erase n.tag ≠ [] → Becomes s (.snpRsp p r) f) ∧
        (t.snoops.erase n.tag = [] → t.pend = 0 → t.forLine = none → (∃ e, c.ent? n.line = some e ∧ e.st ≠ 3) →
          Becomes s (.snpRsp p r) ((f.delEnt n.line).endTxn n.line)) ∧
        (t.snoops.erase n.tag = [] → t.pend ≠ 0 → (c.ent? n.line).isSome = true → ∀ x o, c.pend? t.pend = some x → x.lines = [(n.line, o)] → (∃ p k, x.origin = .port p k) →
          (c.obj x.obj).st ≠ 5 → f.tierStall x o = none →
          Becomes s (.snpRsp p r)
            (let g := f.doLine x n.line o kept
             (g.1.endTxn n.line).complete { g.2 with lines := [] })))) ∧
    (∀ line,
      let q := c.lineQ line
      (∀ src tok t, q.busy = false → q.reservedAt = none → q.waiters = .rsv src tok :: t →
        Becomes s (.lineTransactionEnd line) (c.setLineQ line { q with txn := none, reservedAt := some c.tick })) ∧
      (∀ id t x l, q.busy = false → q.reservedAt = none → q.waiters = .pend id :: t → c.pend? id = some x → x.lines = [l] → (∃ p k, x.origin = .port p k) →
        x.req.opc ≠ 2 → x.req.opc ≠ 3 → x.awaits l.2 = false → c.enabled 7 12 = true → (c.obj x.obj).st ≠ 5 → c.homes x l.1 = true →
        c.tierStall x l.2 = none → c.ent? l.1 = none →
        let g := (c.setLineQ line { q with txn := none, reservedAt := none, waiters := t }).onLine x l
        Becomes s (.lineTransactionEnd line) (g.1.complete { g.2 with lines := [] })) ∧
      (∀ t0 src tok t, q.reservedAt = some t0 → q.waiters = .rsv src tok :: t → c.due t0 (max 1 (c.fld .cohGlb2 12 [] 31 16)) = true →
        let f := ((c.dropRsv line src tok).setLineQ line { q with reservedAt := none, waiters := t }).bump .cohRsvExpired (c.lineDie line)
        (t = [] → Becomes s (.reservationExpiry line) (f.setLineQ line {})) ∧
        (∀ src' tok' t', t = .rsv src' tok' :: t' → Becomes s (.reservationExpiry line) (f.setLineQ line { waiters := t, reservedAt := some c.tick })))) ∧
    (∀ tag n, (c.coh.snoops.find? fun x => x.tag == tag) = some n →
      (∀ a b, c.homesQuiet = false → c.coh.lostNodes.contains n.node = false → c.due n.last (max 1 (c.fld .cohGlb 12 [] 15 0)) = true → c.node n.node = .ports a b →
        let o := if n.port = a then b else a
        c.usable o = true →
        let n' := { n with last := c.tick, port := o }
        Becomes s (.snoopResend tag)
          ((({ c with coh := { c.coh with snoops := modFirst (fun x => x.tag == tag) (fun _ => n') c.coh.snoops } } : Chip).bump .cohSnpResend (tag / 8192)).enqueue o
            { vc := 2, bytes := packSnoop n', dst := n'.node, leaf := n'.part, home := some (n'.tag / 8192) })) ∧
      (∀ i, c.NoRings → (∀ q ∈ (c.setFld .cohSharer 12 [i] 30 30 1).streamParts n.node, q < 64) → c.due n.first (max 1 (c.fld .cohGlb 12 [] 31 16)) = true → c.coh.lostNodes.contains n.node = false →
        c.sharer? n.node = some i → c.ent? n.line = none → (c.lineQ n.line).txn = none →
        let d := c.setFld .cohSharer 12 [i] 30 30 1
        NotesTo s (.snoopTimeout tag) { d with coh := { c.coh with
          lostNodes := c.coh.lostNodes ++ [n.node], sweeps := c.coh.sweeps ++ [n.node]
          snoops := delFirst (fun x => x.tag == n.tag) c.coh.snoops, partSweeps := c.coh.partSweeps.map fun e => (e.1, e.2.erase n.tag) } })) ∧
    (∀ node, c.coh.sweeps.contains node = true → (∀ pl ∈ kkeys c.coh.ents, ∀ e, c.ent? pl = some e → ∀ j ∈ slotsOf e.sharers, c.slotLost j = false) →
      (∀ h ∈ c.coh.heldWr, c.slotNode h.1 ≠ node ∧ h.2.toNat % 4096 ≠ node) →
      Becomes s (.snoopFilterSweepDone node) { c with coh := { c.coh with sweeps := c.coh.sweeps.erase node } })

/-- The oldest launch that can start asks for its image, and its answer starts it: it takes the lowest context, its cells
and its operands. A segment that every leaf has passed, on its bowl's turn, goes to its engine's operation or opens one,
or is stalled; a run's end accounts it and leaves its check or rerun; watchdog and bowl timeouts give it up; an overdue
OPEN set is discarded. (R85, R94, R95, R96, R97, R102, R105, R112, R114, R131, R135) -/
def Obligations.KernelRowsAct : Prop :=
  ∀ (s : State) (id : Nat) (l : Launch), l.part < 64 →
    (∀ die silent,
      let c := Chip.noteWaits { s.chip with cores := { s.chip.cores with silent := s.chip.cores.silent ++ silent } }
      let waiting := c.dsp.launches.filter fun l => l.phase == 0 && l.die == die
      (waiting = [] → Settles s (.kernelLaunch die silent) c) ∧
      (waiting = [l] → l.imageReq = false → c.launchReady l = true → c.olderWaits l = false → (c.freeCtx (c.leaves l.bowl)).isSome = true →
        let g := ((c.regionOf l.d.imgHandle).map c.region).getD {}
        let off := min (g.base + l.d.imgOff) (2 ^ 52 - 1)
        Settles s (.kernelLaunch die silent) ((c.setLaunch { l with imageReq := true }).issue l.part (.image l.id false)
          { opc := opcDevRead, addr := ((c.localNode l.part).getD 0) * 2 ^ 52 + off, handle := l.d.imgHandle, epoch := g.epoch
            opnd := if l.d.imgOff < g.len then min 16384 (g.len - l.d.imgOff) else 2 }))) ∧
    (∀ (c : Chip) x image, c.launch? id = some { l with imageReq := true } → l.phase = 0 → l.imageReq = false →
      c.launchReady l = true → c.olderWaits l = false → c.freeCtx (c.leaves l.bowl) = some x →
      let first : Bool := l.reruns = 0
      let cells := if first then (c.slot (slotKey l.win l.slot l.die)).cells else l.cells
      let g := (c.when first fun c => c.takeRefs cells).sample l
      let m := g.2.measure
      let l' := { l with phase := 1, ctx := x, selected := g.1, sentBytes := 0, output := [], cells := cells, bowlWait := none }
      let d := ((m.2.setLaunch l').startRun l.id l.part l.bowl x l.desc l.operands image).modService l' fun v =>
        { v with launches := v.launches + 1, die := l.die, waitMax := if first then max v.waitMax m.1 else v.waitMax }
      c.launchImage id { status := some 0, data := image } = (((d.weights l').settleSlot l.win l.slot l.die).noteWaits.advance)) ∧
    (let c := s.chip
     c.launch? id = some l →
     (l.runs = true → l.sentBytes < l.d.outBytes →
      let n := min 4096 (l.d.outBytes - l.sentBytes)
      let b := c.outRange id l.sentBytes n
      let k := launchEngine l (c.win l.win)
      let sent (d : Chip) (op : Nat) : Chip :=
        let l' := { (d.launch? id).getD l with
          op := some op, sentBytes := l.sentBytes + b.length, output := if l.selected then l.output ++ b else [] }
        let d := (d.setLaunch l').cross l.die (engDie k.2) 0
        let d := Chip.advance (if l'.sentBytes = l.d.outBytes ∧ l'.phase = 1 then (d.lastAccepted l').commitRun l' else d)
        d.treeIdle (engTree (d.feeds l).1 (d.feeds l).2) (d.segLeaves (d.feeds l))
      (c.outputDone id (l.sentBytes + n) = false → Settles s (.outputSegment id) c) ∧
      (c.outputDone id (l.sentBytes + n) = true →
        (l.op = some 0 → ∀ e, c.segTurn l b = some e → Settles s (.outputSegment id) (sent e 0)) ∧
        (∀ i, l.sentBytes ≠ 0 → l.op = some i → i ≠ 0 → ∀ p, (c.eng.ops.find? fun q => some q.id == some i) = some p →
          (p.phase = 0 → 256 ≤ c.engQueued k.1 k.2 → Settles s (.outputSegment id) (c.launchStall id 6)) ∧
          (p.phase ≠ 0 ∨ c.engQueued k.1 k.2 < 256 → ∀ e, c.segTurn l b = some e →
            Settles s (.outputSegment id) (sent (e.setOp (putSeg p id b)) i))) ∧
        (l.sentBytes = 0 → l.op = none → l.routed = false → k.1 ≠ 3 → c.engOwned k.1 k.2 l.part = true → 64 ≤ b.length →
          let blk := parseBlk k.1 b
          blkOk k.1 blk = true → blk.src < blk.sources → c.eng.ops = [] →
          let op : EngOp := { id := c.eng.nextId, kind := k.1, engine := k.2, part := l.part, blk := blk,
                              declared := List.range blk.sources, openTick := c.tick,
                              contribs := [{ src := blk.src, gate := blk.gate, launch := id, count := blk.count, data := b.drop 64, segs := 1 }],
                              epochs := c.epochsOf l.part }
          (c.engAccepts k.1 k.2 = true → ∀ e, c.segTurn l b = some e →
            (c.shareFits (engDie k.2) l.part op.stageCells = true →
              let a := (e.addOp op).allocCells (engDie k.2) op.stageCells (64 + l.part)
              Settles s (.outputSegment id) (sent (a.1.setOp { op with phase := 1, cells := a.2 }) op.id)) ∧
            (c.shareFits (engDie k.2) l.part op.stageCells = false →
              Settles s (.outputSegment id)
                (sent (((e.addOp op).engBump (cntStageWait k.1) k.2).setOp { op with phase := 0 }) op.id))) ∧
          (c.engAccepts k.1 k.2 = false → Settles s (.outputSegment id) (c.launchStall id 6))))) ∧
     (l.sentBytes = l.d.outBytes →
      (c.runEnded id = false → Settles s (.kernelRunEnd id) c) ∧
      (c.runEnded id = true →
       (l.phase = 3 →
        let d := ((c.delLaunch id).endRun id).endStreams id
        let after (d : Chip) : Chip := d.unblockFills.bowlRelease.noteWaits.advance
        (l.selected = false → Settles s (.kernelRunEnd id) (after (d.releaseCells l.cells))) ∧
        (l.selected = true →
          let r := d.allocCells 8 (cdiv l.d.outBytes 256) (64 + l.part)
          Settles s (.kernelRunEnd id) (after { r.1 with dsp := { r.1.dsp with checks := r.1.dsp.checks ++ [{
            launch := id, part := l.part, descIdx := l.descIdx, desc := l.desc, stepTag := l.stepTag, result := l.result, die := l.die,
            bowl0 := l.d.bowl, out0 := l.output, operands := l.operands, crc0 := c.leafCrcs id, node0 := c.nodeCrcs id,
            endTick := c.tick, cells := l.cells ++ r.2 }] } }))) ∧
       (l.phase = 2 → l.reruns < c.fld .dspGlbLimits 12 [] 3 0 →
        let d := (((c.engDiscard id).endRun id).endStreams id).setLaunch
          { l with phase := 0, reruns := l.reruns + 1, sentBytes := 0, output := [], causes := [] }
        Settles s (.kernelRunEnd id) (((d.launchStall id 8).modService l fun v =>
          { v with reruns := v.reruns + 1 }).unblockFills.bowlRelease.noteWaits.advance)))) ∧
     (s.chip.Still → s.chip.NoRings → c.dsp.launches = [l] → c.dsp.fills = [] → c.cores.bowlHeld = [] → c.eng.ops = [] →
      (l.runs = true → c.atBound id = true → NotesTo s (.watchdog id) (c.droppedLaunch l)) ∧
      (l.runs = true → c.atBound id = false → Becomes s (.watchdog id) c) ∧
      (∀ t, l.phase = 0 → l.bowlWait = some t → c.kernelBowl l.bowl = false → c.due t (c.fld .dspGlbTmo 12 [] 31 16) = true →
        NotesTo s (.bowlTimeout id) (c.droppedLaunch l)))) ∧
    (s.chip.Still → s.chip.NoRings →
     let c := s.chip
     ∀ die win slot, die ≤ 12 →
      let w := if die = 12 then c.qwin win else c.win win
      let sc := c.slot (w.key slot die)
      sc.phase = 1 → c.due sc.openTick (max 1 (c.fld .dspGlbTmo 12 [] 15 0)) = true → w.part < 64 →
      let d := c.discardSet (w.key slot die)
      ((w.dies.any fun x => x != die && (d.slot (w.key slot x)).phase == 1) = true → Becomes s (.setTimeout die win slot) d) ∧
      ((w.dies.any fun x => x != die && (d.slot (w.key slot x)).phase == 1) = false → NotesTo s (.setTimeout die win slot) d))

/-- Writes of COR_CORE_STATE, COR_BOWL_DESC, trigger-window entries, ENG_CFG, the index table, MEM_FAIL_CMD and
MEM_CTRL take effect, are held, or are ignored, under the conditions of their chapters. (R66, R71, R78, R80,
R155, R160, R227, R244, R250, R598) -/
def Obligations.ComputeTableWritesAct : Prop :=
  ∀ (s : State) (m : Master) (v : Word), s.chip.Still → s.chip.NoRings → m.code ≤ 8 →
    let c := s.chip
    (∀ k, k < 8 * coresPerDie → c.dieCut (coreDie k) = false →
      let d := (if bit v.toNat 2 then c.openMon.2.modCore k fun x => { x with illegalWr := false } else c.openMon.2)
      let st := (c.core k).st
      let want := v.toNat % 4
      (want = st.code → Becomes s (.corCoreStateWrite m k v) (d.busResp 0 0)) ∧
      (want = 1 → st = .enabled →
        NotesTo s (.corCoreStateWrite m k v) ((d.modCore k fun x => { x with st := .suspect }).busResp 0 0)) ∧
      (want = 0 → st = .suspect → Becomes s (.corCoreStateWrite m k v) ((d.modCore k fun x => { x with st := .enabled }).busResp 0 0)) ∧
      (want ≠ st.code → want ≠ 2 → ¬ (want = 1 ∧ st = .enabled) → ¬ (want = 0 ∧ st = .suspect) →
        Becomes s (.corCoreStateWrite m k v) ((d.modCore k fun x => { x with illegalWr := true }).busResp 0 0)) ∧
      (want = 2 → st ≠ .fenced → c.dsp.launches = [] → c.dsp.checks = [] → c.sft.ops = [] → c.cores.bowlHeld = [] →
        (∀ f ∈ c.dsp.fills, ∀ x ∈ f.todo, x.core ≠ k) →
        let b := (d.bowlsOf k).headD 0
        let r := d.suspLog k 0 2 { bowl := b, part := d.bowlPart b, mon := c.openMon.1 }
        let f := r.2.modCore k fun x => { x with st := .fenced, fenceCause := 6 }
        let at_ := (r.2.bowlsOf k).map fun b => (k, b, ((r.2.children b).findIdx? (· == k)).getD 0)
        NotesTo s (.corCoreStateWrite m k v) ((if bit (f.reg .corCtrl (coreDie k)) 1 then
          { f with cores := { f.cores with subst := f.cores.subst ++ at_ } } else f).busResp 0 0))) ∧
    (∀ b < 8192, let w := putBits (putBits (c.written .corBowlDesc 12 [b] v) 30 30 0) 15 0 0
      let ws := w :: (List.range 8).map fun n => c.staged .corBowlChild [b, n]
      let d := c.dropStage ((List.range 8).map fun n => Reg.addr .corBowlChild 12 [b, n])
      ((c.bowlOk b && c.bowlRuns b) = true → Becomes s (.corBowlDescWrite m b v)
        (({ d with cores := { d.cores with bowlHeld := (d.cores.bowlHeld.filter fun h => h.1 != b) ++ [(b, ws.map (BitVec.ofNat 32))] } } : Chip).busResp 0 0)) ∧
      ((c.bowlOk b && c.bowlRuns b) = false → d.bowlLegal b ws = false →
        Becomes s (.corBowlDescWrite m b v) ((d.ignored (Reg.addr .corBowlDesc 12 [b])).busResp 0 0)) ∧
      ((c.bowlOk b && c.bowlRuns b) = false → d.bowlLegal b ws = true →
        let old := if c.bowlOk b && c.bowlRank b == 1 then c.children b else []
        let e := d.setBowlWords b ws
        let new_ := if e.bowlOk b && e.bowlRank b == 1 then e.children b else []
        let f := new_.foldl (fun c k => if (c.core k).st = .spare then c.modCore k fun x => { x with st := .enabled } else c) e
        let gone := old.filter fun k => (f.bowlsOf k).isEmpty && (f.core k).st != .fenced
        Becomes s (.corBowlDescWrite m b v)
          ((gone.foldl (fun c k => c.modCore k fun x => { x with scrubbing := true }) f).busResp 0 0))) ∧
    (∀ (q : Bool) i, i < (if q then 256 else 1024) →
      let r := if q then Reg.sftQwinW0 else .dspWindowW0
      let rs := if q then qwinRegs else winRegs
      let ws := if q then c.entryNew rs i (c.written r 12 [i] v) else maskReserved (c.entryNew rs i (c.written r 12 [i] v))
      let w := if q then qwinOf i (wordBytes ws) else winOf i (wordBytes ws)
      let bad := c.winBusy (if q then c.qwin i else c.win i) || (w.valid && !c.winLegal w (fieldB (wordBytes ws) 8 8 % 2 ^ 52))
      (bad = true → Becomes s (.windowEntryWrite m q i v) ((c.ignored (r.addr 12 [i])).busResp 0 0)) ∧
      (bad = false → Becomes s (.windowEntryWrite m q i v) (((c.setEntry rs i ws).dropEntryStage rs i).busResp 0 0))) ∧
    (∀ k < 3, ∀ e < 64, c.dieCut (8 + e / 16) = false → c.ctl.held = [] → (∀ o ∈ c.eng.ops, o.phase ≠ 5) →
      let w := putBits (c.written (engCfgReg k) (8 + e / 16) [e % 16] v) 30 30 0
      (c.openOps k e = [] → Becomes s (.engCfgWrite m k e v) ((c.setReg (engCfgReg k) (8 + e / 16) [e % 16] (BitVec.ofNat 32 w).toNat).busResp 0 0)) ∧
      (c.openOps k e ≠ [] → Becomes s (.engCfgWrite m k e v) ((c.hold ((engCfgReg k).addr (8 + e / 16) [e % 16]) w).busResp 0 0))) ∧
    (∀ i < 256, let w := putBits (putBits (c.written .sftIndexW0 12 [i] v) 15 14 0) 7 4 0
      let ws := c.entryNew indexRegs i w
      let old := c.entryW indexRegs i
      let keep (n : Nat) : Nat := if bit w 0 && !bit (old.headD 0) 0 then 0 else old.getD n 0
      let ws := (((ws.set 1 (putBits (ws.getD 1 0) 31 16 (bits (keep 1) 31 16))).set 6 (keep 6)).set 7 (keep 7)).set 8 (keep 8)
      ((bit w 0 && !c.indexLegal i ws) = true → Becomes s (.indexTableWrite m i v) ((c.ignored (Reg.addr .sftIndexW0 12 [i])).busResp 0 0)) ∧
      ((bit w 0 && !c.indexLegal i ws) = false →
        Becomes s (.indexTableWrite m i v) (((c.setEntry indexRegs i ws).dropEntryStage indexRegs i).noteWaits.busResp 0 0))) ∧
    (let w := c.written .memFailCmd 12 [] v
      let d := c.setReg .memFailCmd 12 [] (putBits w 31 31 0)
      (bit v.toNat 31 = false ∨ ((c.dstack (bits w 3 0)).st ≠ 1 ∧ (c.dstack (bits w 3 0)).st ≠ 2) →
        Becomes s (.memFailCmd m v) (d.busResp 0 0)) ∧
      (bit v.toNat 31 = true → Settles s (.memFailCmd m v) ((d.failStack (bits w 3 0) 4).busResp 0 0)) ∧
      (bit v.toNat 31 = true → c.boot.state = .degraded → (c.dstack (bits w 3 0)).st = 2 → c.mem.rebuild ≠ 3 →
        let e := d.setStack (bits w 3 0) { d.dstack (bits w 3 0) with st := 3, cause := 4 }
        RaisesTo s (.memFailCmd m v) (({ e with mem := { e.mem with spare := none } } : Chip).busResp 0 0))) ∧
    (let w := c.written .memCtrl 12 [] v
      let d := c.setReg .memCtrl 12 [] w
      (bit (c.reg .memCtrl 12) 0 = true → bits v.toNat 3 3 = bits (c.reg .memCtrl 12) 3 3 → Becomes s (.memCtrlWrite m v) (d.busResp 0 0)) ∧
      (bit (c.reg .memCtrl 12) 0 = false →
        Settles s (.memCtrlWrite m v) ((if bit w 0 then d.wakeCursor else d).busResp 0 0)) ∧
      (bit (c.reg .memCtrl 12) 0 = true → bits v.toNat 3 3 ≠ bits (c.reg .memCtrl 12) 3 3 →
        Becomes s (.memCtrlWrite m v) ((d.ignored ((Reg.memCtrl).addr 12 [])).busResp 0 0)))

/-- A corrected read is counted; an uncorrectable one repairs a writable granule from its good copy, fails a ricer's
block, or refetches a read-only granule, and is counted. A stack that fails takes the spare, restarts a rebuild's
redundancy or degrades; a third failed retraining fails it; the spare is inducted and the two passes end as the rates
allow, while REBUILD_AUTO is 1; a flash stack fails once. (R213, R214, R215, R216, R217, R549) -/
def Obligations.MemoryTiersAct : Prop :=
  ∀ s : State,
    let c := s.chip
    (∀ pool n ricer otherBad flash, pool < 0xF000000000 → c.lsUp (pool / 256 % 15) = true → c.physOf (pool / 256 % 15) = some n →
      let g := pool / 256
      let e : Chip := { c with mem := { c.mem with flashNext := c.mem.flashNext ++ flash } }
      let o := if g % 2 = 0 then g + 1 else g - 1
      Settles s (.dramReadError pool true ricer otherBad flash) (e.bumpStack .memCe n) ∧
      (e.lineOwner (pool / 128) = none → Settles s (.dramReadError pool false ricer otherBad flash) (e.countUe n)) ∧
      (∀ id off, e.lineOwner (pool / 128) = some (id, off) →
        ((e.obj id).writable = true → otherBad = false → e.copyGood (o * 256) = true →
          Settles s (.dramReadError pool false ricer otherBad flash)
            ((((e.wrPool (g * 256) (e.rdPool (o * 256) 256)).bumpStack .memRepair n).bumpStack .memOtherCopy n).countUe n)) ∧
        ((e.obj id).writable = true → e.copyGood (o * 256) = false →
          Settles s (.dramReadError pool false ricer otherBad flash) ((e.setBad (g - g % 2)).countUe n)) ∧
        ((e.obj id).writable = false → (ricer && (e.obj id).compressed) = true →
          Settles s (.dramReadError pool false ricer otherBad flash) ((e.setBad g).countUe n)) ∧
        ((e.obj id).writable = false → (ricer && (e.obj id).compressed) = false →
          Settles s (.dramReadError pool false ricer otherBad flash) ((e.refetchGranule id off g).countUe n)))) ∧
    (∀ n cause, n < 16 →
      let d := c.dstack n
      let e := c.setStack n { d with st := 3, cause := cause }
      (d.st ≠ 1 → d.st ≠ 2 → Settles s (.stackFailed n cause) c) ∧
      (d.st = 2 → c.mem.rebuild ≠ 3 →
        let r := (({ e with mem := { e.mem with spare := none } } : Chip).raise Ev.stackFailed []).degrade
        r.boot.state ≠ .bringup → Settles s (.stackFailed n cause) r) ∧
      (d.st = 1 →
        let ls := (e.lsOf n).getD d.logical
        let f := (e.raise Ev.stackFailed e.extentParts).loseObjects
        (e.inPass1 ls = true →
          let r := ({ f with mem := { f.mem with rebuild := 0 } } : Chip).wakeCursor.degrade
          r.boot.state ≠ .bringup → Settles s (.stackFailed n cause) r) ∧
        (e.inPass1 ls = false → c.mem.rebuild = 0 → f.mem.rebuild = 0 → f.boot.state ≠ .bringup →
          (f.mem.spare.isSome = true →
            Settles s (.stackFailed n cause) { f with mem := { f.mem with
              rebuild := 3, rebuildLs := ls, failTick := f.tick, unloaded := [], reloaded := [] } }) ∧
          (f.mem.spare = none → f.degrade.boot.state ≠ .bringup → Settles s (.stackFailed n cause) f.degrade)))) ∧
    (∀ n ch ok, n < 16 → ch < 32 → (c.dstack n).st = 1 ∨ (c.dstack n).st = 2 →
      let d := c.dstack n
      let k := if ok then 0 else kgetD d.chFails ch 0 + 1
      let e := (c.setStack n { d with chFails := ksetD d.chFails ch 0 k }).bumpStack .memRetrain n
      (k < 3 → Settles s (.channelRetrainingAttempt n ch ok) e) ∧
      (3 ≤ k → Settles s (.channelRetrainingAttempt n ch ok) (e.failStack n 2))) ∧
    (∀ n, c.mem.spare = some n → c.mem.rebuild = 3 → c.rebuildAuto = true →
      let e := c.setReg .memStackMap 12 [c.mem.rebuildLs] (2 ^ 31 + n)
      let f := e.setStack n { e.dstack n with st := 1, logical := c.mem.rebuildLs }
      Settles s .spareInduction (({ f with mem := { f.mem with
        spare := none, rebuild := 1, cursor := f.nextWritable c.mem.rebuildLs 0, mirrorRoom := 0 } } : Chip).raise Ev.spareInducted [])) ∧
    (c.rebuildAuto = false → Settles s .spareInduction c ∧ Settles s .pass1End c ∧ Settles s .rebuildDone c) ∧
    (c.mem.rebuild = 1 → c.rebuildAuto = true →
      let d := c.copyGranules ((c.mem.mirrorRoom + c.mirrorTick) / 256)
      (d.mem.cursor < 2 ^ 28 → Settles s .pass1End c) ∧
      (2 ^ 28 ≤ d.mem.cursor →
        Settles s .pass1End ({ d with mem := { d.mem with rebuild := 2, reloadRoom := 0 } } : Chip).wakeCursor)) ∧
    (c.mem.rebuild = 2 → c.rebuildAuto = true →
      (c.mem.reloadRoom + c.reloadTick < c.pass2Left.length * 65536 → Settles s .rebuildDone c) ∧
      (c.pass2Left.length * 65536 ≤ c.mem.reloadRoom + c.reloadTick →
        let d := c.reloadChunks c.pass2Left.length
        Settles s .rebuildDone (({ d with mem := { d.mem with rebuild := 0, reloaded := [] } } : Chip).raise Ev.rebuildDone []))) ∧
    (∀ n < 8,
      (kgetD c.mem.fstack n 0 = 1 → Settles s (.flashFailed n)
        ((({ c with mem := { c.mem with fstack := kput c.mem.fstack n 3 } } : Chip).raise Ev.flashFailed []).degrade)) ∧
      (kgetD c.mem.fstack n 0 ≠ 1 → Settles s (.flashFailed n) c))

/-- The oldest ready operation of a bowl is refused, waits for an older one, or takes its context and tile slots; a
SEARCH with legal fields writes its hits, an INSERT or DELETE its record at the next epoch, a COMPACT the records that
are not deleted; one whose objects load waits; an overdue operation fails. (R238, R239, R247, R253, R254, R255, R256, R257) -/
def Obligations.SifterOperationsRun : Prop :=
  ∀ s : State,
    let c := s.chip
    (∀ bowl,
      let m := c.markCompactWaits
      let next_ := minBy? (·.seq) (m.sft.ops.filter fun o => o.bowl == bowl && m.sftReady o)
      (next_ = none → Settles s (.sifterOpStart bowl) m) ∧
      (∀ o, next_ = some o →
        (fieldB o.record 0 1 ≠ 1 ∨ 3 < o.opc → Settles s (.sifterOpStart bowl) (m.sftRefuse o)) ∧
        (fieldB o.record 0 1 = 1 → o.opc ≤ 3 →
          (m.olderQuery o = true ∨ m.sftCtx o = none → Settles s (.sifterOpStart bowl) m) ∧
          (∀ ls x, m.olderQuery o = false → m.sftCtx o = some (ls, x) →
            let d := ls.foldl (fun c k => (c.setValid k (2 * x) false).setValid k (2 * x + 1) false) m
            Settles s (.sifterOpStart bowl) (d.setSft { o with phase := 1, leaves := ls, ctx := x }).markCompactWaits)))) ∧
    (∀ id o, c.sft? id = some o →
      let due := c.due o.closeTick (100 * max 1 (c.fld .sftGlb 12 [] 15 0))
      (due = true → Settles s (.queryTimeout id) ((((c.sftEnd o).bump .sftFailed 12 [o.part]).raise Ev.queryFail [o.part]).raise
        Ev.queryTimeout [o.part])) ∧
      (due = false → Settles s (.queryTimeout id) c) ∧
      (o.phase = 1 → c.enabled 7 12 = true → o.left = 0 → ∀ d,
        (c.sftObjs o = (.bad, d) →
          let e := d.sftFail o
          (o.opc = 0 → Settles s (.search id) e) ∧ (o.opc = 1 → Settles s (.insert id) e) ∧
          (o.opc = 2 → Settles s (.delete id) e) ∧ (o.opc = 3 → Settles s (.compact id) e)) ∧
        (c.sftObjs o = (.retry, d) →
          let e := d.setSft { o with causes := (o.causes ++ [2]).dedup }
          (o.opc = 0 → Settles s (.search id) e) ∧ (o.opc = 1 → Settles s (.insert id) e) ∧
          (o.opc = 2 → Settles s (.delete id) e) ∧ (o.opc = 3 → Settles s (.compact id) e)) ∧
        (c.sftObjs o = (.ok, d) →
          (∀ b e h, o.opc = 0 → d.readObj o.baseObj 0 64 = (some b, e) → parseBase b = some h →
            let legal : Prop := 1 ≤ o.k ∧ o.k ≤ 1024 ∧ (o.graph = true → o.k ≤ o.ef ∧ o.ef ≤ 1024 ∧ o.maxHops ≠ 0)
            (¬ legal → Settles s (.search id) (e.sftRefuse o)) ∧
            (legal →
              let r := e.sftSearch o h
              let t := r.2
              let f := (o.leaves.zip r.1).foldl (fun c x => c.sftLeft o x.1 x.2) t.chip
              (t.need ≠ [] → Settles s (.search id) (d.sftFetch o t.need.dedup)) ∧
              (t.need = [] → t.fail = true → Settles s (.search id) (f.sftFail o)) ∧
              (t.need = [] → t.fail = false → t.drop = false →
                (t.trunc = false → Settles s (.search id) (f.sftFinish o o.snap (t.best.take o.k) 0)) ∧
                (t.trunc = true → Settles s (.search id)
                  ((f.bump .sftTruncated 12 [o.part]).sftFinish o o.snap (t.best.take o.k) 1))) ∧
              (t.need = [] → t.fail = false → t.trunc = false → t.drop = true → Settles s (.search id)
                ((f.bump .sftCandDrop 12 [o.part]).sftFinish o o.snap (t.best.take o.k) 2)) ∧
              (t.need = [] → t.fail = false → t.trunc = true → t.drop = true → Settles s (.search id)
                (((f.bump .sftTruncated 12 [o.part]).bump .sftCandDrop 12 [o.part]).sftFinish o o.snap (t.best.take o.k) 3)))) ∧
          (o.opc = 1 →
            let used := d.sftUsed o.index
            let ep := d.sftEpoch o.index + 1
            (o.commit = none → used = o.deltaCap → Settles s (.insert id) ((d.sftRefuse o).raise Ev.deltaFull [o.part])) ∧
            (o.commit = none → used ≠ o.deltaCap → Settles s (.insert id)
              ((d.setSft { o with left := 1, commit := some (used, ep) }).sftHome o
                (o.deltaObj, used * deltaRec o.dim, (sliceB o.record 0x80 (4 * o.dim) ++ natLE 8 o.label ++ natLE 8 ep).length)
                (some (sliceB o.record 0x80 (4 * o.dim) ++ natLE 8 o.label ++ natLE 8 ep)))) ∧
            (∀ n e, o.commit = some (n, e) →
              let f := d.sftSet o.index e (n + 1) (d.sftGen o.index)
              Settles s (.insert id)
                ((f.bump .sftInserts 12 [o.part]).sftFinish o e [{ dist := 0, node := 2 ^ 31 + n, label := o.label }] 0))) ∧
          (o.opc = 2 → 2 ^ 31 ≤ o.node →
            let i := o.node % 2 ^ 31
            let at_ := i * deltaRec o.dim + 4 * o.dim
            let need := o.lacks [(o.deltaObj, at_ + 16, 8), (o.deltaObj, at_, 8)]
            (d.sftUsed o.index ≤ i ∨ d.sftGen o.index ≠ o.gen → Settles s (.delete id) (d.sftRefuse o)) ∧
            (i < d.sftUsed o.index → d.sftGen o.index = o.gen → o.deltaObj ≠ 0 →
              (need ≠ [] → Settles s (.delete id) (d.sftFetch o need)) ∧
              (∀ label e, need = [] → d.readObj o.deltaObj at_ 8 = (some label, e) →
                (∀ n ep, o.commit = some (n, ep) →
                  let g := (e.sftSet o.index ep (e.sftUsed o.index) (e.sftGen o.index)).bump .sftDeletes 12 [o.part]
                  Settles s (.delete id)
                    (g.draw.2.sftFinish o ep [{ dist := g.draw.1 % 2 ^ 32, node := o.node, label := leNat label }] 0)) ∧
                (∀ old f, o.commit = none → e.readObj o.deltaObj (at_ + 16) 8 = (some old, f) →
                  (leNat old ≠ 0 → Settles s (.delete id) (f.sftFinish o o.snap [] 0)) ∧
                  (leNat old = 0 → Settles s (.delete id)
                    (f.sftUpdate o 0 (f.sftEpoch o.index + 1) o.deltaObj (at_ + 16) (natLE 8 (f.sftEpoch o.index + 1)))))))) ∧
          (o.opc = 2 → o.node < 2 ^ 31 → ∀ b e h, d.readObj o.baseObj 0 64 = (some b, e) → parseBase b = some h →
            (h.count ≤ o.node → Settles s (.delete id) (e.sftRefuse o)) ∧
            (o.node < h.count → o.tombObj = 0 → Settles s (.delete id) (e.sftFail o))) ∧
          (o.opc = 3 →
            let m := d.markCompactWaits
            let used := m.sftUsed o.index
            let len := deltaRec o.dim
            let need := o.lacks [(o.deltaObj, 0, used * len)]
            let moved (c : Chip) (n e : Nat) : Chip :=
              ((c.sftSet o.index e n ((c.sftGen o.index + 1) % 2 ^ 16)).raise Ev.compactDone [o.part]).sftFinish o e [] 0
            (∀ n e, o.commit = some (n, e) → Settles s (.compact id) (moved m n e)) ∧
            (o.commit = none → m.searching o.index = true → Settles s (.compact id) m) ∧
            (o.commit = none → m.searching o.index = false →
              (used = 0 → Settles s (.compact id) (moved m 0 (m.sftEpoch o.index + 1))) ∧
              (used ≠ 0 → need ≠ [] → Settles s (.compact id) (m.sftFetch o need)) ∧
              (∀ recs e, used ≠ 0 → need = [] → m.deltaRecs o.deltaObj len (List.range used) = (some recs, e) →
                let keep := recs.filter fun b => fieldB b (4 * o.dim + 16) 8 == 0
                Settles s (.compact id) (e.sftUpdate o keep.length (m.sftEpoch o.index + 1) o.deltaObj 0
                  (keep.flatten ++ zerosB ((used - keep.length) * len)))))))))

/-- A residue mismatch or an uncorrectable word of a core store fails what runs on the context, is counted, raised and
charged or refetched; the lowest spare of the tile replaces a fenced core in its bowls; a scrub ends in zeros and, without a
bowl, in SPARE; a check run's end agrees, differs and waits for its tie-break, or decides it, and an overdue check is
dropped; a period's report is written and its counts start anew; a waiting opening gets its staging, an overdue operation is
abandoned. (R40, R42, R62, R63, R64, R102, R107, R108, R109, R135, R137) -/
def Obligations.ComputeEventsAct : Prop :=
  ∀ s : State,
    let c := s.chip
    (∀ core ctx slot row col a b product mon,
      let n := (c.bump .corResErr (coreDie core) (coreIdx core)).capture .corResCapture (coreDie core) (coreIdx core)
        (col * 4096 + row * 256 + slot * 16 + ctx) []
      (c.runner core ctx = .idle → (c.core core).st ≠ .fenced → Settles s (.residueError core ctx slot row col a b product mon) c) ∧
      (c.runner core ctx = .idle → (c.core core).st = .fenced → Settles s (.residueError core ctx slot row col a b product mon) n) ∧
      (∀ r, c.runner core ctx = r → r ≠ .idle →
        let bad := product % 7 != significand r.formats.1 a % 7 * (significand r.formats.2 b % 7) % 7
        (bad = false → Settles s (.residueError core ctx slot row col a b product mon) c) ∧
        (bad = true →
          let f := n.failRun core ctx mon
          Settles s (.residueError core ctx slot row col a b product mon)
            ((f.2.raise Ev.coreResidue [f.1.part] (f.2.resCapture core)).charge core 1 f.1)))) ∧
    (∀ core ctx slot word mon r, c.runner core ctx = r → r ≠ .idle →
      Settles s (.coreStoreEccError core ctx slot word true mon) (c.bump .corEccCe (coreDie core) (coreIdx core)) ∧
      ((c.core core).eccWords.contains word = false →
        let d := ((c.bump .corEccUe (coreDie core) (coreIdx core)).setValid core slot false).modCore core fun x =>
          { x with eccWords := x.eccWords ++ [word] }
        let f := d.failRun core ctx mon
        let e := f.2.raise Ev.coreEccUe [f.1.part] (f.2.resCapture core)
        (e.refetchSlot core slot f.1.part = none → Settles s (.coreStoreEccError core ctx slot word false mon) e) ∧
        (∀ g, e.refetchSlot core slot f.1.part = some g →
          (∀ l, d.runner core ctx = .kernel l → Settles s (.coreStoreEccError core ctx slot word false mon) (g.launchStall l.id 7)) ∧
          ((∀ l, d.runner core ctx ≠ .kernel l) →
            Settles s (.coreStoreEccError core ctx slot word false mon) (g.bump .dspStall7 12 [f.1.part])))) ∧
      ((c.core core).eccWords.contains word = true → c.slotValid core slot = true →
        let d := ((c.bump .corEccUe (coreDie core) (coreIdx core)).setValid core slot false).modCore core fun x =>
          { x with eccWords := x.eccWords }
        let f := d.failRun core ctx mon
        let g := (f.2.raise Ev.coreEccUe [f.1.part] (f.2.resCapture core)).suspLog core 0 2 f.1
        Settles s (.coreStoreEccError core ctx slot word false mon) (g.2.fence core 5 g.1))) ∧
    (∀ core,
      let mine := c.cores.subst.filter fun x => x.1 == core
      let d : Chip := { c with cores := { c.cores with subst := c.cores.subst.filter fun x => x.1 != core } }
      let at_ : List (Nat × Nat × Nat) := (d.bowlsOf core).map fun b => (core, b, ((d.children b).findIdx? (· == core)).getD 0)
      let spare := ((List.range 64).map (tileBase core + ·)).find? fun k => (d.core k).st == .spare && !(d.core k).scrubbing
      (mine = [] → Settles s (.autoSubstitution core) c) ∧
      (mine ≠ [] → (∀ x ∈ c.cores.subst, tileBase x.1 = tileBase core → core ≤ x.1) →
        (spare = none ∨ at_ = [] → Settles s (.autoSubstitution core) d.noteWaits) ∧
        (∀ k, spare = some k → at_ ≠ [] →
          Settles s (.autoSubstitution core) ((((at_.foldl (fun c x => c.putChild x.2.1 x.2.2 k) d).modCore k fun x =>
            { x with st := .enabled }).refillCore k).noteWaits))) ∧
      ((c.core core).scrubbing = false → Settles s (.scrubDone core) c) ∧
      ((c.core core).scrubbing = true → Settles s (.scrubDone core) ((c.wipeCore core).modCore core fun x =>
        { x with scrubbing := false, st := if x.st ≠ .fenced ∧ (c.bowlsOf core).isEmpty = true then .spare else x.st }))) ∧
    (∀ id k mon, (c.dsp.checks.find? fun k => k.launch == id) = some k →
      let late := c.due k.endTick (1000 * max 1 (c.fld .dspGlbLimits 12 [] 19 8))
      (late = false → Settles s (.checkTimeout id) c) ∧
      (late = true → Settles s (.checkTimeout id) ((c.dropCheck k).unblockFills.noteWaits.bowlRelease.advance)) ∧
      (c.runEnded id = false → Settles s (.checkRunEnd id mon) c) ∧
      (c.runEnded id = true →
        let out := c.outRange id 0 (descOfWords k.desc).outBytes
        let crc := c.leafCrcs id
        let node := c.nodeCrcs id
        let d := (c.endRun id).endStreams id
        let e := (d.delCheck k).bump .dspChecked 12 [k.part]
        let after (d : Chip) : Chip := d.unblockFills.noteWaits.bowlRelease.advance
        (k.phase = 1 → out = k.out0 → Settles s (.checkRunEnd id mon) (after e)) ∧
        (k.phase = 1 → out ≠ k.out0 → Settles s (.checkRunEnd id mon)
          (after ((((((d.bump .dspMismatch 12 [k.part]).suspect k.bowl0).suspect k.bowl1).logBowl k k.bowl0 3 mon).logBowl k k.bowl1 3 mon).setCheck
            { k with phase := 2, out1 := out, crc1 := crc, node1 := node }))) ∧
        (k.phase = 3 → out = k.out0 → Settles s (.checkRunEnd id mon)
          (after (e.chargeAll k k.bowl1 (e.differing k.bowl1 k.crc1 k.node1 crc node) mon))) ∧
        (k.phase = 3 → out ≠ k.out0 → out = k.out1 → Settles s (.checkRunEnd id mon)
          (after ((e.chargeAll k k.bowl0 (e.differing k.bowl0 k.crc0 k.node0 crc node) mon).raise Ev.silentErr [k.part] k.result k.stepTag))) ∧
        (k.phase = 3 → out ≠ k.out0 → out ≠ k.out1 → Settles s (.checkRunEnd id mon)
          (after ((e.logBowl k k.bowl0 4 mon).raise Ev.noMajority [k.part]))))) ∧
    (∀ part,
      let due := c.due (kgetD c.dsp.periodAt part 0) (100 * max 1 (c.fld .dspGlbLimits 12 [] 31 20))
      let anew (d : Chip) : Chip := { d with dsp := { d.dsp with
        service := d.dsp.service.filter fun e => e.2.part != part
        periodSeq := kput d.dsp.periodSeq part ((kgetD d.dsp.periodSeq part 0 + 1) % 2 ^ 32)
        periodAt := kput d.dsp.periodAt part d.tick } }
      (due = false → Settles s (.serviceReport part) c) ∧
      (due = true → bit (c.reg .dspPartCfg 12 [part]) 7 = false → Settles s (.serviceReport part) (anew c)) ∧
      (due = true → bit (c.reg .dspPartCfg 12 [part]) 7 = true → Settles s (.serviceReport part) (anew (c.writeReport part)))) ∧
    (∀ kind e,
      let next_ := c.eng.ops.find? fun o => o.kind == kind && o.engine == e && o.phase == 0
      (next_ = none → Settles s (.stagingGranted kind e) c) ∧
      (∀ o, next_ = some o →
        (c.shareFits (engDie o.engine) o.part o.stageCells = false → Settles s (.stagingGranted kind e) c) ∧
        (c.shareFits (engDie o.engine) o.part o.stageCells = true →
          let g := c.engStage o
          let a := g.1.engAbsorb g.2
          Settles s (.stagingGranted kind e) (a.1.engTry a.2)))) ∧
    (∀ id o, c.op? id = some o →
      let due := c.due o.openTick (max 1 (c.fld (engGlbReg o.kind) (engDie o.engine) [] 15 0))
      ((o.phase = 0 ∨ o.phase = 1) → due = true → Settles s (.opTimeout id) (c.abandon o 3)) ∧
      ((o.phase ≠ 0 ∧ o.phase ≠ 1) ∨ due = false → Settles s (.opTimeout id) c))
end

