-- ==== Sys2Proof/Laws/KMap.lean ====
section
/-! SUPPORT. Sparse tables: a read after a write, and the canonical form that every memory operation
keeps. -/

namespace Sys2Proof.Machine

section
variable {α : Type}

@[simp] theorem kfind_kput_self (m : KMap α) (k : Nat) (v : α) : kfind? (kput m k v) k = some v := by
  induction m with
  | nil => simp [kput, kfind?]
  | cons e t ih =>
    obtain ⟨a, b⟩ := e
    unfold kput
    split
    · simp [kfind?]
    · split
      · simp [kfind?]
      · next h => simp [kfind?, Ne.symm h, ih]

theorem kfind_kput_ne (m : KMap α) (k j : Nat) (v : α) (h : j ≠ k) : kfind? (kput m k v) j = kfind? m j := by
  induction m with
  | nil => simp [kput, kfind?, Ne.symm h]
  | cons e t ih =>
    obtain ⟨a, b⟩ := e
    unfold kput
    split
    · simp [kfind?, Ne.symm h]
    · split
      · next e => subst e; simp [kfind?, Ne.symm h]
      · simp only [kfind?, ih]

@[simp] theorem kgetD_kput_self (m : KMap α) (k : Nat) (v d : α) : kgetD (kput m k v) k d = v := by
  simp [kgetD]

theorem kgetD_kput_ne (m : KMap α) (k j : Nat) (v d : α) (h : j ≠ k) : kgetD (kput m k v) j d = kgetD m j d := by
  simp [kgetD, kfind_kput_ne m k j v h]

theorem kfind_kdel_ne (m : KMap α) (k j : Nat) (h : j ≠ k) : kfind? (kdel m k) j = kfind? m j := by
  induction m with
  | nil => rfl
  | cons e t ih =>
    obtain ⟨a, b⟩ := e
    unfold kdel
    split
    · next e => subst e; simp [kfind?, Ne.symm h, ih]
    · simp only [kfind?, ih]

theorem rising_cons {e : Nat × α} {t : KMap α} : Rising (e :: t) ↔ (∀ x ∈ t, e.1 < x.1) ∧ Rising t := by
  simp [Rising, List.pairwise_cons]

@[simp] theorem kfind_kdel_self (m : KMap α) (k : Nat) : kfind? (kdel m k) k = none := by
  induction m with
  | nil => rfl
  | cons e t ih =>
    obtain ⟨a, b⟩ := e
    unfold kdel
    split
    · exact ih
    · next e => simp [kfind?, Ne.symm e, ih]

theorem mem_kput (m : KMap α) (k : Nat) (v : α) : ∀ e ∈ kput m k v, e = (k, v) ∨ e ∈ m := by
  induction m with
  | nil => intro e he; simp [kput] at he; exact .inl he
  | cons x t ih =>
    obtain ⟨a, b⟩ := x
    intro e he
    unfold kput at he
    split at he
    · rcases List.mem_cons.mp he with h | h
      · exact .inl h
      · exact .inr h
    · split at he
      · rcases List.mem_cons.mp he with h | h
        · exact .inl h
        · exact .inr (List.mem_cons_of_mem _ h)
      · rcases List.mem_cons.mp he with h | h
        · exact .inr (h ▸ List.mem_cons_self)
        · rcases ih e h with g | g
          · exact .inl g
          · exact .inr (List.mem_cons_of_mem _ g)

theorem mem_kdel (m : KMap α) (k : Nat) : ∀ e ∈ kdel m k, e ∈ m := by
  induction m with
  | nil => intro e he; exact he
  | cons x t ih =>
    obtain ⟨a, b⟩ := x
    intro e he
    unfold kdel at he
    split at he
    · exact List.mem_cons_of_mem _ (ih e he)
    · rcases List.mem_cons.mp he with h | h
      · exact h ▸ List.mem_cons_self
      · exact List.mem_cons_of_mem _ (ih e h)

/-- Storing keeps the keys rising. -/
theorem rising_kput (m : KMap α) (k : Nat) (v : α) (h : Rising m) : Rising (kput m k v) := by
  induction m with
  | nil => simp [kput, Rising]
  | cons x t ih =>
    obtain ⟨a, b⟩ := x
    obtain ⟨h1, h2⟩ := rising_cons.mp h
    unfold kput
    split
    · next g =>
      refine rising_cons.mpr ⟨fun x hx => ?_, h⟩
      rcases List.mem_cons.mp hx with e | e
      · subst e; exact g
      · exact Nat.lt_trans g (h1 x e)
    · split
      · next e => subst e; exact rising_cons.mpr ⟨h1, h2⟩
      · next g1 g2 =>
        refine rising_cons.mpr ⟨fun x hx => ?_, ih h2⟩
        rcases mem_kput t k v x hx with e | e
        · subst e; dsimp; omega
        · exact h1 x e

/-- Removing keeps the keys rising. -/
theorem rising_kdel (m : KMap α) (k : Nat) (h : Rising m) : Rising (kdel m k) := by
  induction m with
  | nil => exact h
  | cons x t ih =>
    obtain ⟨a, b⟩ := x
    obtain ⟨h1, h2⟩ := rising_cons.mp h
    unfold kdel
    split
    · exact ih h2
    · exact rising_cons.mpr ⟨fun x hx => h1 x (mem_kdel t k x hx), ih h2⟩

variable [DecidableEq α]

/-- A read after a write of a table whose unlisted keys stand for `d`. -/
@[simp] theorem kgetD_ksetD_self (m : KMap α) (k : Nat) (d v : α) : kgetD (ksetD m k d v) k d = v := by
  unfold ksetD
  split
  · next e => simp [kgetD, e]
  · simp

theorem kgetD_ksetD_ne (m : KMap α) (k j : Nat) (d v e : α) (h : j ≠ k) :
    kgetD (ksetD m k d v) j e = kgetD m j e := by
  unfold ksetD
  split
  · simp [kgetD, kfind_kdel_ne m k j h]
  · exact kgetD_kput_ne m k j v e h

theorem rising_ksetD (m : KMap α) (k : Nat) (d v : α) (h : Rising m) : Rising (ksetD m k d v) := by
  unfold ksetD
  split
  · exact rising_kdel m k h
  · exact rising_kput m k v h

theorem listed_ksetD (m : KMap α) (k : Nat) (d v : α) (h : ∀ e ∈ m, e.2 ≠ d) : ∀ e ∈ ksetD m k d v, e.2 ≠ d := by
  unfold ksetD
  split
  · exact fun e he => h e (mem_kdel m k e he)
  · next g =>
    intro e he
    rcases mem_kput m k v e he with q | q
    · subst q; exact g
    · exact h e q

end

/-! ### Byte memories -/

/-- One byte stored keeps the canonical form. -/
theorem wf_ksetD (m : KMap Byte) (k : Nat) (v : Byte) (h : Memory.wf m) : Memory.wf (ksetD m k 0 v) :=
  ⟨rising_ksetD m k 0 v h.1, listed_ksetD m k 0 v h.2⟩

theorem wf_puts (l : List (Byte × Nat)) (m : KMap Byte) (k : Nat) (h : Memory.wf m) :
    Memory.wf (l.foldl (fun m e => ksetD m (k + e.2) 0 e.1) m) := by
  induction l generalizing m with
  | nil => exact h
  | cons e t ih => exact ih _ (wf_ksetD m (k + e.2) e.1 h)

/-- A run of bytes stored keeps the canonical form. -/
theorem wf_putDram (m : KMap Byte) (k : Nat) (b : Bytes) (h : Memory.wf m) : Memory.wf (putDram m k b) :=
  wf_puts _ m k h

/-- A write to pool memory keeps the canonical form of DRAM. -/
theorem wf_wrPool (c : Chip) (p : Nat) (b : Bytes) (h : Memory.wf c.mem.dram) : Memory.wf (c.wrPool p b).mem.dram := by
  unfold Chip.wrPool
  dsimp only
  split
  · exact h
  · exact wf_putDram _ _ _ h

theorem gets_puts (b : Bytes) (m : KMap Byte) (k n j : Nat) :
    kgetD ((b.zipIdx n).foldl (fun m e => ksetD m (k + e.2) 0 e.1) m) j 0 =
      if k + n ≤ j ∧ j < k + n + b.length then b.getD (j - k - n) 0 else kgetD m j 0 := by
  induction b generalizing m n with
  | nil => simp
  | cons x t ih =>
    simp only [List.zipIdx_cons, List.foldl_cons]
    rw [ih]
    by_cases e : j = k + n
    · subst e
      rw [kgetD_ksetD_self, if_neg (by omega), if_pos (by simp)]
      have : k + n - k - n = 0 := by omega
      rw [this]; rfl
    · rw [kgetD_ksetD_ne _ _ _ _ _ _ e]
      by_cases g : k + (n + 1) ≤ j ∧ j < k + (n + 1) + t.length
      · rw [if_pos g, if_pos (by simp; omega)]
        have : j - k - n = (j - k - (n + 1)) + 1 := by omega
        rw [this, List.getD_cons_succ]
      · rw [if_neg g, if_neg (by simp; omega)]

/-- Every byte after a run of bytes was stored at `k`. -/
theorem kgetD_putDram (m : KMap Byte) (k j : Nat) (b : Bytes) :
    kgetD (putDram m k b) j 0 = if k ≤ j ∧ j < k + b.length then b.getD (j - k) 0 else kgetD m j 0 := by
  simpa [putDram] using gets_puts b m k 0 j

/-- Dropping entries keeps the canonical form (a freed extent). -/
theorem wf_filter (m : KMap Byte) (p : Nat × Byte → Bool) (h : Memory.wf m) : Memory.wf (m.filter p) :=
  ⟨List.Pairwise.sublist (List.filter_sublist.map _) h.1, fun e he => h.2 e (List.mem_of_mem_filter he)⟩

/-! ### Registers -/

theorem fieldsReset_lt (r : Reg) : fieldsReset r.info.fields < 2 ^ 32 := by cases r <;> decide

theorem resetWord_lt (r : Reg) (i : List Nat) : r.resetWord i < 2 ^ 32 := by
  have h := fieldsReset_lt r
  unfold Reg.resetWord
  split
  · unfold putBits; omega
  · unfold putBits; omega
  · exact h

/-- A register reads what was stored in it. -/
theorem reg_setReg_self (c : Chip) (r : Reg) (die : Nat) (i : List Nat) (v : Nat) (h : v < 2 ^ 32) :
    (c.setReg r die i v).reg r die i = v := by
  unfold Chip.reg Chip.setReg ksetD
  have g := resetWord_lt r i
  dsimp only
  by_cases e : BitVec.ofNat 32 v = BitVec.ofNat 32 (r.resetWord i)
  · rw [if_pos e, kfind_kdel_self]
    have := congrArg BitVec.toNat e
    simp only [BitVec.toNat_ofNat, Nat.mod_eq_of_lt h, Nat.mod_eq_of_lt g] at this
    exact this.symm
  · rw [if_neg e, kfind_kput_self]
    exact Nat.mod_eq_of_lt h

/-- Other registers keep their words. -/
theorem reg_setReg_ne (c : Chip) (r q : Reg) (die d : Nat) (i j : List Nat) (v : Nat) (h : q.addr d j ≠ r.addr die i) :
    (c.setReg r die i v).reg q d j = c.reg q d j := by
  have e : kfind? (ksetD c.ctl.regs (r.addr die i) (BitVec.ofNat 32 (r.resetWord i)) (BitVec.ofNat 32 v)) (q.addr d j) =
      kfind? c.ctl.regs (q.addr d j) := by
    unfold ksetD
    split
    · exact kfind_kdel_ne _ _ _ h
    · exact kfind_kput_ne _ _ _ _ h
  unfold Chip.reg Chip.setReg
  simp only [e]

/-- Reset memory lists nothing. -/
theorem wf_reset : Memory.wf State.reset.chip.mem.dram := by decide

end Sys2Proof.Machine
end

