-- ==== Sys2Proof/Laws/Settle.lean ====
section
/-! SUPPORT. When a step has nothing to deal with besides its command. -/

namespace Sys2Proof.Machine

theorem Chip.settleN_nil (c : Chip) (n : Nat) (h : c.gtx.localQ = []) : c.settleN n = c := by
  cases n with
  | zero => rfl
  | succ n => simp only [Chip.settleN, h]

theorem Chip.cmpRelease_nil (c : Chip) (h : ∀ x ∈ c.ctl.held, ∀ d < 8, x.1 ≠ (Reg.cmpCtrl).addr d) :
    c.cmpRelease = c := by
  have e : (c.ctl.held.filter fun x => (List.range 8).any fun d => x.1 == (Reg.cmpCtrl).addr d) = [] := by
    apply List.filter_eq_nil_iff.mpr
    intro x hx hc
    obtain ⟨d, hd, he⟩ := List.any_eq_true.mp hc
    exact h x hx d (List.mem_range.mp hd) (by simpa using he)
  simp only [Chip.cmpRelease, e, List.foldl_nil]

theorem Chip.placeRound_nil (c : Chip) (h : c.mgt.place = []) : c.placeRound = c := by
  simp only [Chip.placeRound, h, List.foldl_nil]

theorem Chip.settleFills_nil (c : Chip) (h : ∀ f ∈ c.dsp.fills, f.over = false) : c.settleFills = c := by
  have e : c.dsp.fills.filter (·.over) = [] := List.filter_eq_nil_iff.mpr fun f hf => by simp [h f hf]
  simp only [Chip.settleFills, e, List.foldl_nil]

theorem Chip.settlePlacement_nil (c : Chip) (h : ∀ x ∈ c.ctl.held, ∀ d < 8, x.1 ≠ (Reg.cmpCtrl).addr d)
    (g : c.mgt.place = []) (f : ∀ f ∈ c.dsp.fills, f.over = false) : c.settlePlacement = c := by
  have e : (List.range (c.mgt.place.length + 1)).foldl (fun c _ => c.placeRound) c = c := by
    rw [g]
    exact c.placeRound_nil g
  simp only [Chip.settlePlacement, c.settleFills_nil f, e]
  exact c.cmpRelease_nil h

theorem Chip.cutAll_nil (c : Chip) (h : c.gtx.cuts = []) : c.cutAll = c := by
  have e : ({ c with gtx := { c.gtx with cuts := [] } } : Chip) = c := by rw [← h]
  simp only [Chip.cutAll, h, List.foldl_nil, e]

theorem Chip.markCompactWaits_nil (c : Chip) (h : ∀ o ∈ c.sft.ops, c.newWait o = false) : c.markCompactWaits = c := by
  have e : c.sft.ops.filter c.newWait = [] := List.filter_eq_nil_iff.mpr fun o ho => by simp [h o ho]
  simp only [Chip.markCompactWaits, e, List.foldl_nil]

theorem Chip.admitQueries_nil (c : Chip) (h : c.Admitted) : c.admitQueries = c := by
  have e : (c.sft.ops.filter fun o => o.phase == 4) = [] :=
    List.filter_eq_nil_iff.mpr fun o ho => by simpa using (h o ho).1
  simp only [Chip.admitQueries, e, List.foldl_nil]
  exact c.markCompactWaits_nil fun o ho => (h o ho).2

theorem Chip.settleChecks_nil (c : Chip) (h : ∀ k ∈ c.dsp.checks, k.waits = false) : c.settleChecks = c := by
  have e : c.dsp.checks.any Check.waits = false := List.any_eq_false.mpr fun k hk => by simp [h k hk]
  simp only [Chip.settleChecks, e, Bool.false_eq_true, if_false]

theorem Chip.settleCredit_nil (c : Chip) (h : ∀ e ∈ c.cores.ctx, e.2.wantsCredit = false) : c.settleCredit = c := by
  have e : (c.cores.ctx.any fun e => e.2.wantsCredit && !c.noCredit e.2.run) = false :=
    List.any_eq_false.mpr fun k hk hc => by
      rw [h k hk, Bool.false_and] at hc
      cases hc
  simp only [Chip.settleCredit, e, Bool.false_eq_true, if_false]

/-- A state with nothing left over is settled. -/
theorem Chip.settle_still (c : Chip) (h : c.Still) : c.settle = c := by
  obtain ⟨h1, h2, h3, h4, h5, h6, h7, h8⟩ := h
  rw [Chip.settle, c.cutAll_nil h4, c.settleN_nil _ h1, c.admitQueries_nil h5, c.settleN_nil _ h1, c.settlePlacement_nil h2 h3 h6,
    c.settleChecks_nil h7, c.settleCredit_nil h8, c.settleN_nil _ h1]

theorem act_still (s : State) (c : Chip) (h : c.Still) : act s c = .next { s with chip := c } := by
  simp only [act, next, c.settle_still h]

theorem actReset_still (s : State) (c : Chip) (h : c.Still) :
    actReset s c = .next { s with chip := c, snap := if c.boot.state.code ≤ 1 then [] else s.snap } := by
  simp only [actReset, c.settle_still h]

end Sys2Proof.Machine
end

