-- ==== Sys2Proof/Laws/Frames.lean ====
section
/-! SUPPORT. What counting, answering, queueing and raising an event leave unchanged, said once for each
shared operation. -/

namespace Sys2Proof.Machine

/-- `d` differs from `c` at most in the requests and streams of the fabric, the cells, the ports, the
interrupt controller, the sessions, the counters and their SAT bits. -/
structure Kept (c d : Chip) : Prop where
  pins : d.pins = c.pins
  boot : d.boot = c.boot
  mcs : d.mcs = c.mcs
  dump : d.dump = c.dump
  cores : d.cores = c.cores
  coh : d.coh = c.coh
  dsp : d.dsp = c.dsp
  eng : d.eng = c.eng
  mem : d.mem = c.mem
  sft : d.sft = c.sft
  sec : d.sec = c.sec
  parts : d.parts = c.parts
  pwr : d.pwr = c.pwr
  draws : d.draws = c.draws
  regs : d.ctl.regs = c.ctl.regs
  stage : d.ctl.stage = c.ctl.stage
  tri : d.ctl.tri = c.ctl.tri
  latch : d.ctl.latch = c.ctl.latch
  holdAt : d.ctl.holdAt = c.ctl.holdAt
  held : d.ctl.held = c.ctl.held

theorem Kept.rfl' (c : Chip) : Kept c c := by constructor <;> rfl

theorem Kept.trans {a b c : Chip} (h : Kept a b) (g : Kept b c) : Kept a c := by
  constructor
  · exact g.pins.trans h.pins
  · exact g.boot.trans h.boot
  · exact g.mcs.trans h.mcs
  · exact g.dump.trans h.dump
  · exact g.cores.trans h.cores
  · exact g.coh.trans h.coh
  · exact g.dsp.trans h.dsp
  · exact g.eng.trans h.eng
  · exact g.mem.trans h.mem
  · exact g.sft.trans h.sft
  · exact g.sec.trans h.sec
  · exact g.parts.trans h.parts
  · exact g.pwr.trans h.pwr
  · exact g.draws.trans h.draws
  · exact g.regs.trans h.regs
  · exact g.stage.trans h.stage
  · exact g.tri.trans h.tri
  · exact g.latch.trans h.latch
  · exact g.holdAt.trans h.holdAt
  · exact g.held.trans h.held

theorem Kept.foldl {α : Type} (f : Chip → α → Chip) (h : ∀ c x, Kept c (f c x)) (l : List α) (c : Chip) :
    Kept c (l.foldl f c) := by
  induction l generalizing c with
  | nil => exact .rfl' c
  | cons x t ih => exact (h c x).trans (ih _)

theorem Kept.reg {c d : Chip} (h : Kept c d) (r : Reg) (die : Nat) (i : List Nat) : d.reg r die i = c.reg r die i := by
  simp only [Chip.reg, h.regs]

theorem Kept.enabled {c d : Chip} (h : Kept c d) (b die : Nat) : d.enabled b die = c.enabled b die := by
  simp only [Chip.enabled, h.reg]

theorem Kept.tick {c d : Chip} (h : Kept c d) : d.tick = c.tick := by simp only [Chip.tick, h.boot]

theorem kept_bump (c : Chip) (k : Cnt) (die : Nat) (i : List Nat) (n : Nat) : Kept c (c.bump k die i n) := by
  constructor <;> rfl
theorem kept_when (c : Chip) (p : Bool) (f : Chip → Chip) (h : Kept c (f c)) : Kept c (c.when p f) := by
  unfold Chip.when; split
  · exact h
  · exact .rfl' c
theorem kept_ite (c : Chip) (p : Prop) [Decidable p] (a b : Chip) (h : Kept c a) (g : Kept c b) :
    Kept c (if p then a else b) := by split <;> assumption

theorem kept_modIrqCore (c : Chip) (k : Nat) (f : IrqCore → IrqCore) : Kept c (c.modIrqCore k f) := by
  constructor <;> rfl
theorem kept_resignal (c : Chip) (k : Nat) : Kept c (c.resignal k) := kept_modIrqCore _ _ _
theorem kept_irq (c : Chip) (i : Irq) : Kept c { c with irq := i } := by constructor <;> rfl
theorem kept_routeLatch (c : Chip) (src : Nat) : Kept c (c.routeLatch src) := by
  unfold Chip.routeLatch
  split
  · exact .rfl' c
  · split
    · exact kept_irq _ _
    · exact ((kept_irq c _).trans (kept_modIrqCore _ _ _)).trans (kept_resignal _ _)
theorem kept_latchEvent (c : Chip) (src : Nat) (p : Option Nat) (a b : Nat) : Kept c (c.latchEvent src p a b) := by
  unfold Chip.latchEvent
  split
  · exact (kept_irq c _).trans (kept_bump _ _ _ _ _)
  · exact (kept_irq c _).trans (kept_routeLatch _ _)
theorem kept_fwEvent (c : Chip) (src : Nat) (p : Option Nat) (a b : Nat) : Kept c (c.fwEvent src p a b) := by
  unfold Chip.fwEvent
  split
  · exact .rfl' c
  · split
    · exact kept_bump _ _ _ _ _
    · exact kept_latchEvent _ _ _ _ _

theorem kept_mgt (c : Chip) (m : Mgt) : Kept c { c with mgt := m } := by constructor <;> rfl
theorem kept_gtx (c : Chip) (m : Gtx) : Kept c { c with gtx := m } := by constructor <;> rfl
theorem kept_swc (c : Chip) (m : Switch) : Kept c { c with swc := m } := by constructor <;> rfl
theorem kept_lnk (c : Chip) (m : Links) : Kept c { c with lnk := m } := by constructor <;> rfl
theorem kept_ethSend (c : Chip) (o : EthOut) : Kept c (c.ethSend o) := by
  unfold Chip.ethSend; split
  · exact kept_mgt _ _
  · exact .rfl' c
theorem kept_modSession (c : Chip) (i : Nat) (f : Session → Session) : Kept c (c.modSession i f) := kept_mgt _ _
theorem kept_sendOn (c : Chip) (i t : Nat) (b : Bytes) : Kept c (c.sendOn i t b) := by
  unfold Chip.sendOn; split
  · exact .rfl' c
  · exact (kept_ethSend _ _).trans (kept_modSession _ _ _)
theorem kept_sendResponse (c : Chip) (i r o s d : Nat) (b : Bytes) (x : Bool) : Kept c (c.sendResponse i r o s d b x) := by
  unfold Chip.sendResponse; split
  · exact .rfl' c
  · exact Kept.foldl _ (fun _ _ => kept_sendOn _ _ _ _) _ _
theorem kept_finishCmd (c : Chip) (i r o s d : Nat) (b : Bytes) : Kept c (c.finishCmd i r o s d b) := by
  unfold Chip.finishCmd
  exact ((kept_when _ _ _ (kept_bump _ _ _ _ _)).trans (kept_modSession _ _ _)).trans (kept_sendResponse _ _ _ _ _ _ _ _)
theorem kept_endCmd (c : Chip) (k : Nat × Nat) (s d : Nat) (b : Bytes) : Kept c (c.endCmd k s d b) := by
  unfold Chip.endCmd
  split
  · exact kept_when _ _ _ (kept_bump _ _ _ _ _)
  · split
    · exact .rfl' c
    · exact kept_finishCmd _ _ _ _ _ _ _
theorem kept_endCmds (c : Chip) (o a s d : Nat) (b : Bytes) : Kept c (c.endCmds o a s d b) :=
  Kept.foldl _ (fun _ _ => kept_endCmd _ _ _ _ _) _ _
theorem kept_sendNotify (c : Chip) (p : Nat) (b : Bytes) : Kept c (c.sendNotify p b) := by
  unfold Chip.sendNotify
  split
  · exact kept_sendOn _ _ _ _
  · exact kept_sendOn _ _ _ _
  · exact .rfl' c

theorem kept_setCell (c : Chip) (k : Nat) (v : Cell) : Kept c (c.setCell k v) := kept_swc _ _
theorem kept_setPort (c : Chip) (p : Nat) (v : Port) : Kept c (c.setPort p v) := kept_lnk _ _
theorem kept_modPort (c : Chip) (p : Nat) (f : Port → Port) : Kept c (c.modPort p f) := kept_lnk _ _
theorem kept_enqueue (c : Chip) (p : Nat) (m : EMsg) : Kept c (c.enqueue p m) := kept_lnk _ _
theorem kept_allocCells (c : Chip) (d n a : Nat) : Kept c (c.allocCells d n a).1 :=
  Kept.foldl _ (fun _ _ => kept_setCell _ _ _) _ _
theorem kept_takeRefs (c : Chip) (ks : List Nat) : Kept c (c.takeRefs ks) :=
  Kept.foldl _ (fun _ _ => kept_setCell _ _ _) _ _
theorem kept_releaseCells (c : Chip) (ks : List Nat) : Kept c (c.releaseCells ks) := by
  refine Kept.foldl _ (fun c k => ?_) _ _
  dsimp only
  split
  · exact kept_bump _ _ _ _ _
  · split <;> exact kept_setCell _ _ _
theorem kept_addJob (c : Chip) (j : LocalJob) : Kept c (c.addJob j) := kept_gtx _ _
theorem kept_addDevReq (c : Chip) (d : DevReq) : Kept c (c.addDevReq d) := kept_gtx _ _
theorem kept_holdDevReq (c : Chip) (d : DevReq) : Kept c (c.holdDevReq d) := kept_gtx _ _
theorem kept_takeId (c : Chip) : Kept c c.takeId := kept_gtx _ _
theorem kept_putOnPort (c : Chip) (d : DevReq) (p : Nat) : Kept c (c.putOnPort d p) := by
  unfold Chip.putOnPort
  exact ((kept_allocCells _ _ _ _).trans (kept_addDevReq _ _)).trans (kept_enqueue _ _ _)
theorem kept_issueOut (c : Chip) (d : DevReq) : Kept c (c.issueOut d) := by
  unfold Chip.issueOut
  dsimp only
  split
  · exact kept_holdDevReq _ _
  · split
    · exact (kept_ite _ _ _ _ (kept_gtx _ _) (.rfl' _)).trans (kept_addDevReq _ _)
    · split
      · exact (kept_ite _ _ _ _ (kept_gtx _ _) (.rfl' _)).trans (kept_putOnPort _ _ _)
      · exact (kept_holdDevReq _ _).trans (kept_bump _ _ _ _ _)
theorem kept_issueTo (c : Chip) (d : DevReq) : Kept c (c.issueTo d) := by
  unfold Chip.issueTo
  split
  · exact kept_issueOut _ _
  · exact kept_addJob _ _
  · exact (kept_bump _ _ _ _ _).trans (kept_addJob _ _)
theorem kept_notifyDropped (c : Chip) (p : Nat) : Kept c (c.notifyDropped p) := by
  unfold Chip.notifyDropped
  exact ((kept_bump _ _ _ _ _).trans (kept_fwEvent _ _ _ _ _)).trans (kept_bump _ _ _ _ _)
theorem kept_notifyVec (c : Chip) (p v s : Nat) (r : Bool) (a b : Nat) : Kept c (c.notifyVec p v s r a b) := by
  unfold Chip.notifyVec
  dsimp only
  split
  · exact ((kept_irq _ _).trans (kept_sendNotify _ _ _)).trans (kept_bump _ _ _ _ _)
  · split
    · exact ((kept_irq _ _).trans (kept_notifyDropped _ _)).trans (kept_fwEvent _ _ _ _ _)
    · exact (((kept_irq _ _).trans (kept_takeId _)).trans (kept_issueTo _ _)).trans (kept_bump _ _ _ _ _)
theorem kept_notifyPart (c : Chip) (p s a b : Nat) (r : List Nat) : Kept c (c.notifyPart p s a b r) := by
  refine Kept.foldl _ (fun c v => ?_) _ _
  dsimp only
  split
  · exact kept_notifyVec _ _ _ _ _ _ _
  · exact .rfl' c
/-- An event changes only the interrupt controller, what leaves the device, and counters. -/
theorem kept_raise (c : Chip) (s : Nat) (ps : List Nat) (a b : Nat) (r : List Nat) : Kept c (c.raise s ps a b r) := by
  unfold Chip.raise
  dsimp only
  split
  · exact (kept_fwEvent _ _ _ _ _).trans (Kept.foldl _ (fun _ _ => kept_notifyPart _ _ _ _ _ _) _ _)
  · exact kept_fwEvent _ _ _ _ _
theorem kept_giveUp (c : Chip) (d : DevReq) : Kept c (c.giveUp d) := by
  unfold Chip.giveUp
  split
  · exact (kept_notifyDropped _ _).trans (kept_raise _ _ _ _ _ _)
  · exact ((kept_bump _ _ _ _ _).trans (kept_raise _ _ _ _ _ _)).trans (kept_addJob _ _)
theorem kept_issue (c : Chip) (p : Nat) (o : Owner) (r : Req) (k : List Nat) : Kept c (c.issue p o r k) := by
  unfold Chip.issue
  split
  · exact (kept_takeId _).trans (kept_giveUp _ _)
  · exact (kept_takeId _).trans (kept_issueTo _ _)

end Sys2Proof.Machine
end

