-- ==== Sys2Proof/Laws/Commands.lean ====
section
/-! SUPPORT. What a Rinlidal command does on a session that asks, and what its answer leaves. -/

namespace Sys2Proof.Machine

/-- A command that its session may ask for is performed at once. -/
theorem command_asks (c : Chip) (id reqId opc : Nat) (want : Bytes) (f : Chip → Session → CmdRes) (x : Session)
    (h : c.Asks id reqId opc x) :
    c.command id reqId opc want f =
      match f c x with
      | .done c st d b => c.finishCmd id reqId opc st d b
      | .run c arg => c.modSession id fun s => { s with running := s.running ++ [{ reqId := reqId, opc := opc, arg := arg }] } := by
  obtain ⟨h1, h2, h3, h4, h5, h6, h7⟩ := h
  have hid : x.id = id := by
    have := List.find?_some h1
    simpa using this
  have h8 : ¬ (64 ≤ x.running.length) := by omega
  rw [Chip.command, h1]
  simp only [h2, h3, Chip.startCmd, h4, h5, h8, if_false, Chip.performCmd, Bool.false_eq_true]
  rw [if_neg (by decide), if_neg (by rintro ⟨h, _⟩; cases h),
    if_neg (by rintro ⟨_, hb, hc⟩; rw [h7 hb] at hc; cases hc), hid]
  all_goals (cases f c x <;> rfl)

/-- `d` is `c` but for its sessions and counters. -/
def Answered (c d : Chip) : Prop := d = c.answering d

theorem Answered.rfl' (c : Chip) : Answered c c := rfl
theorem Answered.trans {a b c : Chip} (h : Answered a b) (g : Answered b c) : Answered a c := by
  unfold Answered at *
  rw [g, h]; rfl
theorem Answered.foldl {α : Type} (f : Chip → α → Chip) (h : ∀ c x, Answered c (f c x)) (l : List α) (c : Chip) :
    Answered c (l.foldl f c) := by
  induction l generalizing c with
  | nil => exact .rfl' c
  | cons x t ih => exact (h c x).trans (ih _)
theorem answered_bump (c : Chip) (k : Cnt) (die : Nat) (i : List Nat) (n : Nat) : Answered c (c.bump k die i n) := rfl
theorem answered_when (c : Chip) (p : Bool) (f : Chip → Chip) (h : Answered c (f c)) : Answered c (c.when p f) := by
  unfold Chip.when; split
  · exact h
  · exact .rfl' c
theorem answered_mgt (c : Chip) (m : Mgt) : Answered c { c with mgt := m } := rfl
theorem answered_ethSend (c : Chip) (o : EthOut) : Answered c (c.ethSend o) := by
  unfold Chip.ethSend; split
  · exact answered_mgt _ _
  · exact .rfl' c
theorem answered_modSession (c : Chip) (i : Nat) (f : Session → Session) : Answered c (c.modSession i f) := answered_mgt _ _
theorem answered_sendOn (c : Chip) (i t : Nat) (b : Bytes) : Answered c (c.sendOn i t b) := by
  unfold Chip.sendOn; split
  · exact .rfl' c
  · exact (answered_ethSend _ _).trans (answered_modSession _ _ _)
theorem answered_sendResponse (c : Chip) (i r o s d : Nat) (b : Bytes) (x : Bool) :
    Answered c (c.sendResponse i r o s d b x) := by
  unfold Chip.sendResponse; split
  · exact .rfl' c
  · exact Answered.foldl _ (fun _ _ => answered_sendOn _ _ _ _) _ _
/-- A completion changes the session, what leaves on Ethernet, and counters. -/
theorem answered_finishCmd (c : Chip) (i r o s d : Nat) (b : Bytes) : Answered c (c.finishCmd i r o s d b) := by
  unfold Chip.finishCmd
  exact ((answered_when _ _ _ (answered_bump _ _ _ _ _)).trans (answered_modSession _ _ _)).trans
    (answered_sendResponse _ _ _ _ _ _ _ _)

/-! ### Sessions one by one -/

theorem modFirst_find {α : Type} (p : α → Bool) (f : α → α) (hf : ∀ x, p x = true → p (f x) = true) (l : List α) :
    (modFirst p f l).find? p = (l.find? p).map f := by
  induction l with
  | nil => rfl
  | cons x t ih =>
    unfold modFirst
    split
    · next h => simp [h, hf x h]
    · next h => simp [h, ih]

theorem modSession_session (c : Chip) (i : Nat) (f : Session → Session) (hf : ∀ x, (f x).id = x.id) :
    (c.modSession i f).session? i = (c.session? i).map f := by
  unfold Chip.session? Chip.modSession
  exact modFirst_find _ _ (fun x h => by simpa [hf x] using h) _

theorem ethSend_sessions (c : Chip) (o : EthOut) : (c.ethSend o).mgt.sessions = c.mgt.sessions := by
  unfold Chip.ethSend; split <;> rfl

theorem sendOn_session (c : Chip) (i t : Nat) (b : Bytes) :
    (c.sendOn i t b).session? i = (c.session? i).map fun x => { x with txSeq := x.txSeq + 1 } := by
  unfold Chip.sendOn
  split
  · next h => rw [h]; rfl
  · next x h =>
    rw [modSession_session _ _ _ (by intro; rfl)]
    unfold Chip.session?; rw [ethSend_sessions]

theorem sendOns_session {α : Type} (i t : Nat) (g : Chip → α → Bytes) (l : List α) (c : Chip) :
    (l.foldl (fun c p => c.sendOn i t (g c p)) c).session? i =
      (c.session? i).map fun x => { x with txSeq := x.txSeq + l.length } := by
  induction l generalizing c with
  | nil => simp
  | cons a t' ih =>
    rw [List.foldl_cons, ih, sendOn_session]
    simp only [Option.map_map, List.length_cons]
    congr 1; funext x; simp only [Function.comp]; congr 1; omega

theorem sendResponse_session (c : Chip) (i r o s d : Nat) (b : Bytes) (w : Bool) :
    ∃ n, (c.sendResponse i r o s d b w).session? i = (c.session? i).map fun x => { x with txSeq := x.txSeq + n } := by
  unfold Chip.sendResponse
  split
  · next h => exact ⟨0, by rw [h]; rfl⟩
  · exact ⟨_, sendOns_session i 4 _ _ c⟩

/-- The session after a completion: the answer heads its cache, its REQ_ID runs no more. -/
theorem finishCmd_session (c : Chip) (i r o s d : Nat) (b : Bytes) :
    ∃ n, (c.finishCmd i r o s d b).session? i = (c.session? i).map fun x => { x with
      running := x.running.filter (fun y => y.reqId != r)
      cache := if s = 1 then x.cache else ((r, o, s, d, b) :: x.cache).take 256
      txSeq := x.txSeq + n } := by
  unfold Chip.finishCmd
  obtain ⟨n, h⟩ := sendResponse_session
    ((c.when (s == 0) fun c => c.bump .mgtCmds 12).modSession i fun x => { x with
      running := x.running.filter (fun y => y.reqId != r),
      cache := if s = 1 then x.cache else ((r, o, s, d, b) :: x.cache).take 256 }) i r o s d b false
  refine ⟨n, ?_⟩
  rw [h, modSession_session _ _ _ (by intro; rfl), Option.map_map]
  have : (c.when (s == 0) fun c => c.bump .mgtCmds 12).session? i = c.session? i := by
    unfold Chip.when; split <;> rfl
  rw [this]; rfl

theorem finishCmd_lastReply (c : Chip) (i r o s d : Nat) (b : Bytes) (x : Session) (h : c.session? i = some x)
    (hs : s ≠ 1) : (c.finishCmd i r o s d b).lastReply i = some (r, o, s, d, b) := by
  obtain ⟨n, g⟩ := finishCmd_session c i r o s d b
  rw [Chip.lastReply, g, h]
  simp [hs]

/-! ### What runs after an answer -/

/-- The placement commands in progress are those of `c`. -/
def NoMore (c d : Chip) : Prop := d.mgt.place = c.mgt.place

theorem NoMore.rfl' (c : Chip) : NoMore c c := rfl
theorem NoMore.trans {a b c : Chip} (h : NoMore a b) (g : NoMore b c) : NoMore a c := Eq.trans g h

theorem noMore_modSession (c : Chip) (i : Nat) (f : Session → Session) : NoMore c (c.modSession i f) := rfl
theorem noMore_ethSend (c : Chip) (o : EthOut) : NoMore c (c.ethSend o) := by
  unfold Chip.ethSend; split <;> rfl

theorem noMore_sendOn (c : Chip) (i t : Nat) (b : Bytes) : NoMore c (c.sendOn i t b) := by
  unfold Chip.sendOn
  split
  · exact .rfl' c
  · exact (noMore_ethSend _ _).trans (noMore_modSession _ _ _)

theorem NoMore.foldl {α : Type} (f : Chip → α → Chip) (h : ∀ c x, NoMore c (f c x)) (l : List α) (c : Chip) :
    NoMore c (l.foldl f c) := by
  induction l generalizing c with
  | nil => exact .rfl' c
  | cons x t ih => exact (h c x).trans (ih _)

theorem noMore_sendResponse (c : Chip) (i r o s d : Nat) (b : Bytes) (w : Bool) :
    NoMore c (c.sendResponse i r o s d b w) := by
  unfold Chip.sendResponse
  split
  · exact .rfl' c
  · exact NoMore.foldl _ (fun _ _ => noMore_sendOn _ _ _ _) _ _

theorem noMore_finishCmd (c : Chip) (i r o s d : Nat) (b : Bytes) : NoMore c (c.finishCmd i r o s d b) := by
  unfold Chip.finishCmd
  refine (NoMore.trans ?_ (noMore_modSession _ _ _)).trans (noMore_sendResponse _ _ _ _ _ _ _ _)
  unfold Chip.when; split <;> rfl

theorem Chip.Still.of {c d : Chip} (h : c.Still) (g1 : d.gtx.localQ = c.gtx.localQ) (g2 : d.ctl.held = c.ctl.held)
    (g3 : NoMore c d) (g4 : d.gtx.cuts = c.gtx.cuts) (g5 : c.Admitted → d.Admitted)
    (g6 : c.Rested → d.Rested) : d.Still := by
  obtain ⟨h1, h2, h3, h4, h5, h6⟩ := h
  exact ⟨g1.trans h1, by rw [g2]; exact h2, Eq.trans g3 h3, g4.trans h4, g5 h5, g6 h6⟩

theorem Answered.still {c d : Chip} (h : Answered c d) (g : c.Still) (m : NoMore c d) : d.Still := by
  unfold Answered at h
  exact g.of (by rw [h]; rfl) (by rw [h]; rfl) m (by rw [h]; rfl) (by rw [h]; exact id) (by rw [h]; exact id)

theorem still_finishCmd (c : Chip) (h : c.Still) (i r o s d : Nat) (b : Bytes) : (c.finishCmd i r o s d b).Still :=
  (answered_finishCmd c i r o s d b).still h (noMore_finishCmd c i r o s d b)

/-- A command that completes at once, on a state with nothing left over. -/
theorem command_completes (s : State) (i : Instr) (id reqId opc : Nat) (want : Bytes) (f : Chip → Session → CmdRes)
    (x : Session) (h : s.chip.Asks id reqId opc x) (hi : exec i s = act s (s.chip.command id reqId opc want f))
    (c : Chip) (st : Nat) (b : Bytes) (hf : f s.chip x = .done c st 0 b)
    (hc : c.Still) (y : Session) (hx : c.session? id = some y) (hst : st ≠ 1) (g : Chip → Chip)
    (hg : (g (c.finishCmd id reqId opc st 0 b)).answering (c.finishCmd id reqId opc st 0 b) =
      c.answering (c.finishCmd id reqId opc st 0 b)) :
    CompletesWith s i id reqId opc st b g := by
  have e : s.chip.command id reqId opc want f = c.finishCmd id reqId opc st 0 b := by
    rw [command_asks s.chip id reqId opc want f x h, hf]
  refine ⟨{ s with chip := c.finishCmd id reqId opc st 0 b }, ?_, finishCmd_lastReply c id reqId opc st 0 b y hx hst, ?_, rfl, rfl⟩
  · rw [hi, e, act_still _ _ (still_finishCmd c hc _ _ _ _ _ _)]
  · show _ = (g (c.finishCmd id reqId opc st 0 b)).answering _
    rw [hg]; exact answered_finishCmd c id reqId opc st 0 b

theorem command_runs (s : State) (i : Instr) (id reqId opc : Nat) (want : Bytes) (f : Chip → Session → CmdRes)
    (x : Session) (h : s.chip.Asks id reqId opc x) (hi : exec i s = act s (s.chip.command id reqId opc want f))
    (c : Chip) (arg : Nat) (hf : f s.chip x = .run c arg) (hc : c.Still) :
    RunsOn s i id reqId opc arg c := by
  have e : s.chip.command id reqId opc want f = c.modSession id fun s =>
      { s with running := s.running ++ [{ reqId := reqId, opc := opc, arg := arg }] } := by
    rw [command_asks s.chip id reqId opc want f x h, hf]
  unfold RunsOn
  rw [hi, e, act_still]
  exact hc

end Sys2Proof.Machine
end

