-- ==== Sys2Proof/Laws/Events.lean ====
section
/-! SUPPORT. What an event changes: without partitions the interrupt controller and counters alone, with
them also the sessions, as long as no vector writes a ring. -/

namespace Sys2Proof.Machine

/-- `d` is `c` but for the interrupt controller and counters. -/
def Raised (c d : Chip) : Prop := d = c.raising d
theorem Raised.rfl' (c : Chip) : Raised c c := rfl
theorem Raised.trans {a b c : Chip} (h : Raised a b) (g : Raised b c) : Raised a c := by
  unfold Raised at *
  rw [g, h]; rfl
theorem raised_bump (c : Chip) (k : Cnt) (die : Nat) (i : List Nat) (n : Nat) : Raised c (c.bump k die i n) := rfl
theorem raised_irq (c : Chip) (i : Irq) : Raised c { c with irq := i } := rfl
theorem raised_routeLatch (c : Chip) (src : Nat) : Raised c (c.routeLatch src) := by
  unfold Chip.routeLatch
  split
  · exact .rfl' c
  · split <;> rfl
theorem raised_latchEvent (c : Chip) (src : Nat) (p : Option Nat) (a b : Nat) : Raised c (c.latchEvent src p a b) := by
  unfold Chip.latchEvent
  split
  · rfl
  · exact (raised_irq c _).trans (raised_routeLatch _ _)
/-- The firmware path of an event. -/
theorem raised_fwEvent (c : Chip) (src : Nat) (p : Option Nat) (a b : Nat) : Raised c (c.fwEvent src p a b) := by
  unfold Chip.fwEvent
  split
  · exact .rfl' c
  · split
    · rfl
    · exact raised_latchEvent _ _ _ _ _
/-- An event of no partition. -/
theorem raised_raise (c : Chip) (src : Nat) (a b : Nat) (r : List Nat) : Raised c (c.raise src [] a b r) := by
  unfold Chip.raise
  dsimp only
  split
  · exact raised_fwEvent _ _ _ _ _
  · exact raised_fwEvent _ _ _ _ _

/-- `d` is `c` but for the interrupt controller, the sessions and counters; no session or running command is new. -/
structure Noted (c d : Chip) : Prop where
  eq : d = c.noting d
  more : NoMore c d
  sess : ∀ i x, c.session? i = some x → ∃ n, d.session? i = some { x with txSeq := n }
  queue : d.mgt.queue = c.mgt.queue

theorem Noted.rfl' (c : Chip) : Noted c c := ⟨rfl, .rfl' c, fun _ x h => ⟨x.txSeq, h⟩, rfl⟩
theorem Noted.trans {a b c : Chip} (h : Noted a b) (g : Noted b c) : Noted a c := by
  refine ⟨?_, h.more.trans g.more, fun i x hx => ?_, g.queue.trans h.queue⟩
  · have e := g.eq; rw [h.eq] at e
    rw [e]; rfl
  · obtain ⟨n, e⟩ := h.sess i x hx
    obtain ⟨m, e'⟩ := g.sess i _ e
    exact ⟨m, e'⟩
theorem Noted.foldl {α : Type} (f : Chip → α → Chip) (l : List α) (c : Chip)
    (h : ∀ c', Noted c c' → ∀ x ∈ l, Noted c' (f c' x)) : Noted c (l.foldl f c) := by
  induction l generalizing c with
  | nil => exact .rfl' c
  | cons x t ih =>
    have h0 := h c (.rfl' c) x List.mem_cons_self
    exact h0.trans (ih (f c x) fun c' hc y hy => h c' (h0.trans hc) y (List.mem_cons_of_mem _ hy))
theorem Raised.noted {c d : Chip} (h : Raised c d) : Noted c d := by
  unfold Raised at h
  refine ⟨by rw [h]; rfl, by rw [h]; rfl, fun i x hx => ⟨x.txSeq, ?_⟩, by rw [h]; rfl⟩
  rw [h]; exact hx
theorem Noted.reg {c d : Chip} (h : Noted c d) (r : Reg) (die : Nat) (i : List Nat) : d.reg r die i = c.reg r die i := by
  rw [h.eq]; rfl

theorem noted_sendOn (c : Chip) (i t : Nat) (b : Bytes) : Noted c (c.sendOn i t b) := by
  refine ⟨?_, noMore_sendOn _ _ _ _, fun j x hx => ?_, ?_⟩
  rotate_left 2
  · unfold Chip.sendOn Chip.ethSend; split
    · rfl
    · split <;> rfl
  · rw [answered_sendOn c i t b]; rfl
  · by_cases e : j = i
    · subst e
      exact ⟨_, by rw [sendOn_session, hx]; rfl⟩
    · refine ⟨x.txSeq, ?_⟩
      unfold Chip.sendOn
      split
      · exact hx
      · unfold Chip.session? Chip.modSession at *
        simp only [ethSend_sessions]
        rw [← hx]
        generalize c.mgt.sessions = l
        clear hx
        induction l with
        | nil => rfl
        | cons y t ih =>
          unfold modFirst
          split
          · next hy =>
            have : (y.id == j) = false := by
              have := beq_iff_eq.mp hy
              simp only [this]; exact beq_eq_false_iff_ne.mpr (fun q => e q.symm)
            simp [this]
          · simp only [List.find?_cons]
            split
            · rfl
            · exact ih

theorem noted_sendNotify (c : Chip) (p : Nat) (b : Bytes) : Noted c (c.sendNotify p b) := by
  unfold Chip.sendNotify
  dsimp only
  split
  · exact noted_sendOn _ _ _ _
  · exact noted_sendOn _ _ _ _
  · exact .rfl' c

theorem noted_notifyVec (c : Chip) (p v s : Nat) (r : Bool) (a b : Nat)
    (h : bit (c.reg .irqVecCfg 12 [p, v]) 30 = true) : Noted c (c.notifyVec p v s r a b) := by
  unfold Chip.notifyVec
  dsimp only
  rw [if_pos h]
  exact ((raised_irq c _).noted.trans (noted_sendNotify _ _ _)).trans (raised_bump _ _ _ _ _).noted

theorem noted_notifyPart (c : Chip) (p s a b : Nat) (r : List Nat) (hp : p < 64) (h : c.NoRings) :
    Noted c (c.notifyPart p s a b r) := by
  refine Noted.foldl _ _ _ fun c' hc v hv => ?_
  dsimp only
  split
  · next g =>
    have g1 : bit (c'.reg .irqVecCfg 12 [p, v]) 31 = true := by
      simp only [Bool.and_eq_true] at g; exact g.1
    refine noted_notifyVec _ _ _ _ _ _ _ ?_
    rw [hc.reg] at g1 ⊢
    exact h p hp v (List.mem_range.mp hv) g1
  · exact .rfl' c'

/-- An event, while no vector writes a ring. -/
theorem noted_raise (c : Chip) (s : Nat) (ps : List Nat) (a b : Nat) (r : List Nat) (hp : ∀ p ∈ ps, p < 64)
    (h : c.NoRings) : Noted c (c.raise s ps a b r) := by
  unfold Chip.raise
  dsimp only
  have h0 := (raised_fwEvent c s ps.head? a b).noted
  split
  · refine h0.trans (Noted.foldl _ _ _ fun c' hc p hpp => noted_notifyPart _ _ _ _ _ _ (hp p hpp) ?_)
    intro q hq v hv
    rw [(h0.trans hc).reg]; exact h q hq v hv
  · exact h0

theorem Noted.still {c d : Chip} (h : Noted c d) (g : c.Still) : d.Still :=
  g.of (by rw [h.eq]; rfl) (by rw [h.eq]; rfl) h.more (by rw [h.eq]; rfl) (by rw [h.eq]; exact id) (by rw [h.eq]; exact id)

/-- An event leaves a state without work without work. -/
theorem Noted.idle {c d : Chip} (h : Noted c d) (g : c.Idle) : d.Idle := by
  obtain ⟨g0, g⟩ := g
  refine ⟨h.still g0, ?_⟩
  rw [h.queue, h.eq]
  exact g

theorem Raised.still {c d : Chip} (h : Raised c d) (g : c.Still) : d.Still := h.noted.still g

theorem raised_when (c : Chip) (p : Bool) (f : Chip → Chip) (h : Raised c (f c)) : Raised c (c.when p f) := by
  unfold Chip.when; split
  · exact h
  · exact .rfl' c

/-- A change of the device state from another one than TEST that ends no session and no handshake. -/
theorem raised_devTo (c : Chip) (st : DevState) (ht : c.boot.state ≠ .test) (h2 : ∀ y ∈ c.mgt.sessions, kindState y.kind st = true)
    (h3 : ∀ y ∈ c.mgt.handshakes, kindState y.kind st = true) :
    Raised { c with boot := { c.boot with state := st, times := if 3 ≤ st.code then kput c.boot.times st.code c.tick else c.boot.times } }
      (c.devTo st) := by
  unfold Chip.devTo
  dsimp only
  rw [show (c.boot.state == DevState.test) = false from by simpa using ht,
    show ∀ (d : Chip) f, d.when false f = d from fun _ _ => rfl]
  have hd := raised_when { c with boot := { c.boot with state := st, times := if 3 ≤ st.code then kput c.boot.times st.code c.tick else c.boot.times } }
    (bit (c.reg .bootCtrl 12) 0) (fun d => d.raise Ev.devState [] (st.code + 16 * c.boot.state.code) 0) (raised_raise _ _ _ _ _)
  generalize hX : (Chip.when _ _ _) = X at hd
  have hX' : (Chip.when _ _ _) = X := hX
  have m : X.mgt = c.mgt := by rw [hd]; rfl
  have b : X.boot.state = st := by rw [hd]; rfl
  have e1 : (X.mgt.sessions.filter fun s => !kindState s.kind X.boot.state) = [] := by
    apply List.filter_eq_nil_iff.mpr
    intro y hy; rw [m] at hy; simp [b, h2 y hy]
  have e2 : (X.mgt.handshakes.filter fun s => !kindState s.kind X.boot.state) = [] := by
    apply List.filter_eq_nil_iff.mpr
    intro y hy; rw [m] at hy; simp [b, h3 y hy]
  have e : X.admitSessions = X := by
    unfold Chip.admitSessions
    simp only [e1, List.foldl_nil, e2]
  have z : ∀ Y, Y = X → Raised { c with boot := { c.boot with state := st, times := if 3 ≤ st.code then kput c.boot.times st.code c.tick else c.boot.times } } Y.admitSessions := by
    rintro Y rfl; rw [e]; exact hd
  exact z _ hX'

/-- A command whose effect is `c` and an event to firmware. -/
theorem raisesTo (s : State) (i : Instr) (c d : Chip) (hi : exec i s = act s d) (hr : Raised c d) (hs : c.Still) :
    RaisesTo s i c :=
  ⟨_, hi.trans (act_still s d (hr.still hs)), hr, rfl, rfl⟩

/-- A command whose effect is `c` and an event to firmware and partitions. -/
theorem notesTo (s : State) (i : Instr) (c d : Chip) (hi : exec i s = act s d) (hr : Noted c d) (hs : c.Still) :
    NotesTo s i c :=
  ⟨_, hi.trans (act_still s d (hr.still hs)), hr.eq, rfl, rfl⟩

end Sys2Proof.Machine
end

