-- ==== Sys2Proof/Laws/Idle.lean ====
section
/-! SUPPORT. With no work in progress the operations that end work change nothing. -/

namespace Sys2Proof.Machine
theorem foldl_same {α : Type} (f : Chip → α → Chip) (h : ∀ c x, f c x = c) (l : List α) (c : Chip) : l.foldl f c = c := by
  induction l with
  | nil => rfl
  | cons x t ih => rw [List.foldl_cons, h, ih]
theorem gtx_eta (g : Gtx) (h1 : g.shareWait = []) (h2 : g.tstores = []) (h3 : g.held = []) (h4 : g.devReqs = []) (h5 : g.devHeld = []) (h6 : g.pends = []) :
   { g with pends := [], shareWait := [], tstores := [], held := [], devReqs := [], devHeld := [] } = g := by
  cases g; simp_all
theorem bowlRelease_nil (c : Chip) (h : c.cores.bowlHeld = []) : c.bowlRelease = c := by
  unfold Chip.bowlRelease
  simp only [h, List.filter_nil, List.foldl_nil]
  have : { c.cores with bowlHeld := [] } = c.cores := by rw [← h]
  rw [this]
theorem unblockFills_nil (c : Chip) (h : c.dsp.fills = []) : c.unblockFills = c := by
  unfold Chip.unblockFills; simp only [h, List.filter_nil, List.foldl_nil]
theorem noteWaits_nil (c : Chip) (h : c.dsp.launches = []) : c.noteWaits = c := by
  unfold Chip.noteWaits; simp only [h, List.filter_nil, List.foldl_nil]
theorem idle_work (c : Chip) (h : c.Idle) (p : Nat) : c.workReqs p = 0 ∧ c.workOther p = 0 ∧ c.openSlots p = [] := by
  obtain ⟨hs, q1, q2, q3, q4, q5, q6, q7, q8, q9, q10, q11, q12, q13, q14, q15, q16, q17⟩ := h
  refine ⟨?_, ?_, ?_⟩
  · simp [Chip.workReqs, q9, q10, q11, q13, q14, q15]
  · simp [Chip.workOther, Chip.openSlots, Chip.partLoads, q1, q2, q4, q5, q6, q7, q8, hs.2.2.1, kkeys]
  · simp [Chip.openSlots, q2, kkeys]
theorem endPlaces_nil (c : Chip) (h : c.mgt.place = []) (p : Nat) : c.endPlaces p = c := by
  have e : (List.range (c.mgt.place.length + 1)).foldl (fun c _ => c.placeRound) c = c := by
    rw [h]
    exact c.placeRound_nil h
  simp only [Chip.endPlaces, h, List.filter_nil, List.foldl_nil] at e ⊢
  rw [e, h]
  rfl
theorem dropMsgs_nil (c : Chip) : c.dropMsgs [] = c := by
  have e : ∀ m : EMsg, m.dev.any ([] : List Nat).contains = false := fun m => by cases m.dev <;> rfl
  unfold Chip.dropMsgs
  refine foldl_same _ (fun c p => if_neg ?_) _ _
  simp only [List.any_eq_true, e]
  rintro ⟨_, _, h⟩
  cases h
/-- With no work in progress, ending a partition's work changes nothing. -/
theorem endWork_idle (c : Chip) (h : c.Idle) (p : Nat) : c.endWork p = c := by
  obtain ⟨i1, i2, i3⟩ := idle_work c h p
  obtain ⟨hs, q1, q2, q3, q4, q5, q6, q7, q8, q9, q10, q11, q12, q13, q14, q15, q16, q17⟩ := h
  have e5 := gtx_eta c.gtx q10 q11 q12 q14 q15 q9
  have e4 : ({ c.mgt with queue := [] } : Mgt) = c.mgt := by rw [← q16]
  unfold Chip.endWork Chip.partLoads
  simp only [i1, i2, i3, q1, q4, q5, q6, q7, q8, q9, q10, q11, q12, q14, q15, q16, List.filter_nil, List.foldl_nil, List.map_nil, dropMsgs_nil,
    e4, e5, List.length_nil, bne_self_eq_false, Chip.when, Nat.add_zero, Bool.false_eq_true, if_false]
  rw [endPlaces_nil _ hs.2.2.1, unblockFills_nil _ q4, bowlRelease_nil _ q17, noteWaits_nil _ q1, Chip.settlePlacement_nil _ hs.2.1 hs.2.2.1 hs.2.2.2.2.2.1]
theorem endWorks_idle (c : Chip) (h : c.Idle) (l : List Nat) : l.foldl (fun c p => c.endWork p) c = c := by
  induction l with
  | nil => rfl
  | cons a t ih => rw [List.foldl_cons, endWork_idle c h]; exact ih
/-- A fatal error with no work in progress: RECOVERY, whatever the state it started from. -/
theorem raised_fatal (c : Chip) (h : c.Idle) (ev : Nat)
    (hs : c.boot.state = .service ∨ c.boot.state = .degraded ∨ c.boot.state = .waitOwner)
    (h2 : ∀ y ∈ c.mgt.sessions, y.kind = 0) (h3 : ∀ y ∈ c.mgt.handshakes, y.kind = 0) :
    Raised (c.recovering ev) (c.fatal ev) := by
  have k : ∀ n, n = 0 → kindState n .recovery = true := by rintro _ rfl; rfl
  have r := raised_devTo
    ({ c with dump := { c.dump with cause := ev, fromState := c.boot.state, at_ := c.tick, step := 2 }
              pins := { c.pins with faultN := true } }) .recovery (by rcases hs with hs | hs | hs <;> simp [hs]) (fun y hy => k _ (h2 y hy)) (fun y hy => k _ (h3 y hy))
  have e : c.fatal ev = ({ c with dump := { c.dump with cause := ev, fromState := c.boot.state, at_ := c.tick, step := 2 }
                                  pins := { c.pins with faultN := true } } : Chip).devTo .recovery := by
    have a : ([DevState.waitOwner, .service, .degraded, .test].contains c.boot.state) = true := by
      rcases hs with hs | hs | hs <;> rw [hs] <;> rfl
    have b : decide (c.boot.state ≠ .recovery) = true := by
      rcases hs with hs | hs | hs <;> rw [hs] <;> rfl
    unfold Chip.fatal
    dsimp only
    rw [a, b, Bool.true_or, Bool.not_true, if_neg (by decide), Chip.when, if_pos rfl]
    unfold Chip.assertFault
    generalize ({ c with dump := { c.dump with cause := ev, fromState := c.boot.state, at_ := c.tick, step := 2 }
                         pins := { c.pins with faultN := true } } : Chip).devTo .recovery = d at r
    have d1 : d.dsp = c.dsp := by rw [r]; rfl
    have d2 : d.cores = c.cores := by rw [r]; rfl
    obtain ⟨-, q1, -, q3, -, -, -, -, -, -, -, -, -, -, -, -, -, q17⟩ := h
    have z : d.dsp.checks = [] := by rw [d1]; exact q3
    rw [z, List.foldl_nil, bowlRelease_nil d (by rw [d2]; exact q17), noteWaits_nil d (by rw [d1]; exact q1)]
  rw [e]
  exact r

end Sys2Proof.Machine
end

