-- ==== Sys2Proof/Laws/Work.lean ====
section
/-! SUPPORT. What the work of core stores, loads and object accesses changes: cores, memory and counters, and
nothing else. -/

namespace Sys2Proof.Machine

/-- `d` is `c` but for the cores' stores and states, the memory tiers and the counters. -/
def Worked (c d : Chip) : Prop :=
  d = { c with cores := { d.cores with ctx := c.cores.ctx }, mem := d.mem, ctl := { c.ctl with cnt := d.ctl.cnt, sat := d.ctl.sat, satEv := d.ctl.satEv, tri := d.ctl.tri } }

theorem Worked.rfl' (c : Chip) : Worked c c := rfl
theorem Worked.trans {a b c : Chip} (h : Worked a b) (g : Worked b c) : Worked a c := by
  unfold Worked at *
  rw [g, h]
theorem Worked.foldl {α : Type} (f : Chip → α → Chip) (h : ∀ c x, Worked c (f c x)) (l : List α) (c : Chip) :
    Worked c (l.foldl f c) := by
  induction l generalizing c with
  | nil => exact .rfl' c
  | cons x t ih => exact (h c x).trans (ih _)
theorem Worked.still {c d : Chip} (h : Worked c d) (g : c.Still) : d.Still := by
  unfold Worked at h; rw [h]; exact g
theorem Worked.reg {c d : Chip} (h : Worked c d) (r : Reg) (die : Nat) (i : List Nat) : d.reg r die i = c.reg r die i := by
  unfold Worked at h; rw [h]; rfl
theorem Worked.session {c d : Chip} (h : Worked c d) (i : Nat) : d.session? i = c.session? i := by
  unfold Worked at h; rw [h]; rfl
theorem Worked.noRings {c d : Chip} (h : Worked c d) (g : c.NoRings) : d.NoRings := by
  intro p hp v hv; rw [h.reg]; exact g p hp v hv
theorem worked_bump (c : Chip) (k : Cnt) (die : Nat) (i : List Nat) (n : Nat) : Worked c (c.bump k die i n) := rfl
theorem worked_mem (c : Chip) (m : Mem) : Worked c { c with mem := m } := rfl
theorem worked_cores (c : Chip) (m : Cores) (h : m.ctx = c.cores.ctx) : Worked c { c with cores := m } := by
  unfold Worked; dsimp only; rw [← h]
theorem worked_setCore (c : Chip) (k : Nat) (v : CoreSt) : Worked c (c.setCore k v) := rfl
theorem worked_modCore (c : Chip) (k : Nat) (f : CoreSt → CoreSt) : Worked c (c.modCore k f) := rfl
theorem worked_setValid (c : Chip) (k s : Nat) (v : Bool) : Worked c (c.setValid k s v) := rfl
theorem worked_wrStore (c : Chip) (k o : Nat) (b : Bytes) : Worked c (c.wrStore k o b) := rfl
theorem worked_setObj (c : Chip) (k : Nat) (v : Obj) : Worked c (c.setObj k v) := rfl
theorem worked_wrPool (c : Chip) (p : Nat) (b : Bytes) : Worked c (c.wrPool p b) := by
  unfold Chip.wrPool; dsimp only; split <;> rfl
theorem worked_when (c : Chip) (p : Bool) (f : Chip → Chip) (h : Worked c (f c)) : Worked c (c.when p f) := by
  unfold Chip.when; split
  · exact h
  · exact .rfl' c
theorem worked_stallAgain (c : Chip) (i p : Nat) (l m : List Nat) : Worked c (c.stallAgain i p l m) := by
  unfold Chip.stallAgain; dsimp only
  split
  · exact Worked.foldl _ (fun _ _ => worked_bump _ _ _ _ _) _ _
  · exact (Worked.foldl _ (fun _ _ => worked_bump _ _ _ _ _) _ _).trans (worked_setObj _ _ _)
theorem worked_stall (c : Chip) (i p : Nat) (l : List Nat) : Worked c (c.stall i p l) := worked_stallAgain _ _ _ _ _
theorem worked_takeFlash (c : Chip) (n i : Nat) : Worked c (c.takeFlash n i).2 := by
  unfold Chip.takeFlash; split
  · exact .rfl' c
  · exact worked_mem _ _
theorem worked_chunk (c : Chip) (n i : Nat) (b : Bool) : Worked c (c.chunk n i b).2 := by
  unfold Chip.chunk; dsimp only
  split
  · exact .rfl' c
  · split
    · exact .rfl' c
    · next fs _ =>
      split
      · exact .rfl' c
      · refine (worked_takeFlash c n i).trans ?_
        split
        · exact worked_bump _ _ _ _ _
        · refine Worked.trans ((worked_when _ (c.takeFlash n i).1.isSome (fun c => c.bump .flsCe fs) (worked_bump _ _ _ _ _)).trans
            (worked_bump _ .flsReadBytes fs [] 65536)) ?_
          split
          · exact .rfl' _
          · split
            · exact .rfl' _
            · exact worked_bump _ _ _ _ _
theorem worked_loadChunks (id : Nat) (bad l : List Nat) (c : Chip) : Worked c (c.loadChunks id bad l).2 := by
  induction l generalizing c with
  | nil => exact .rfl' c
  | cons k t ih =>
    unfold Chip.loadChunks; dsimp only
    have h := worked_chunk c (c.obj id).bundle (c.firstChunk (c.obj id) + k) (bad.contains k)
    split
    · next e => rw [e] at h; exact h
    · next e =>
      rw [e] at h
      exact (h.trans (Worked.foldl _ (fun _ _ => worked_wrPool _ _ _) _ _)).trans (ih _)
theorem worked_startLoad (c : Chip) (id : Nat) (cmd : Option (Nat × Nat)) : Worked c (c.startLoad id cmd) := by
  unfold Chip.startLoad Chip.allocExtent; dsimp only
  refine Worked.trans (b := (c.forgetLoads id).setObj id { c.obj id with st := 2 }) rfl (Worked.trans ?_ (worked_mem _ _))
  cases Chip.findRows _ _ with
  | none => exact .rfl' _
  | some r => exact worked_setObj _ _ _
theorem worked_writeChunkOn (c : Chip) (ob : Obj) (k ls : Nat) (b : Bytes) : Worked c (c.writeChunkOn ob k ls b) := by
  unfold Chip.writeChunkOn
  refine Worked.foldl _ (fun c i => ?_) _ _
  dsimp only
  split
  · exact worked_wrPool _ _ _
  · exact .rfl' c
theorem worked_flashRead (c : Chip) (id : Nat) (ob : Obj) (o n : Nat) : Worked c (c.flashRead id ob o n).2 := by
  unfold Chip.flashRead; dsimp only
  have h := worked_chunk c ob.bundle (c.firstChunk ob + o / 65536) false
  split
  · next e => rw [e] at h; exact h
  · next pt c1 e =>
    rw [e] at h
    dsimp only
    split
    · exact h.trans ((worked_writeChunkOn c1 ob (o / 65536) c1.mem.rebuildLs pt).trans (worked_mem _ _))
    · exact h
theorem worked_takeBad (c : Chip) (g : Nat) : Worked c (c.takeBad g).2 := by
  unfold Chip.takeBad; split <;> rfl
theorem worked_rdGran (c : Chip) (id o n : Nat) : Worked c (c.rdGran id o n).2.2 := by
  unfold Chip.rdGran; dsimp only
  have h := worked_takeBad c ((c.copies (c.obj id) o).1 / 256)
  split
  · next e => rw [e] at h; exact h
  · next c1 e =>
    rw [e] at h
    refine Worked.trans (b := c1) h ?_
    split
    · split
      · exact worked_bump _ _ _ _ _
      · exact .rfl' _
    · split
      · have h2 := worked_flashRead c1 id (c.obj id) o n
        split
        · next e => rw [e] at h2; exact h2
        · next e => rw [e] at h2; exact h2
      · exact .rfl' _
theorem worked_rdObj (id n : Nat) : ∀ (c : Chip) (o k : Nat), Worked c (c.rdObj id n o k).2.2 := by
  induction n with
  | zero => intro c o k; exact .rfl' c
  | succ n ih =>
    intro c o k
    unfold Chip.rdObj; dsimp only
    split
    · exact .rfl' c
    · have h := worked_rdGran c id o (min k (256 - o % 256))
      split
      · next e => rw [e] at h; exact h
      · next c1 e =>
        rw [e] at h
        refine h.trans ?_
        have := ih c1 (o + min k (256 - o % 256)) (k - min k (256 - o % 256))
        split
        · next e => exact (congrArg (Worked _) (congrArg (fun x => x.2.2) e)).mp this
        · next e => exact (congrArg (Worked _) (congrArg (fun x => x.2.2) e)).mp this
theorem worked_readPart (c : Chip) (id o n : Nat) : Worked c (c.readPart id o n).2.2 := worked_rdObj _ _ _ _ _
theorem worked_readObj (c : Chip) (id o n : Nat) : Worked c (c.readObj id o n).2 :=
  (worked_readPart c id o n).trans (worked_stall _ _ _ _)
theorem worked_wrGran (c : Chip) (id o : Nat) (b : Bytes) : Worked c (c.wrGran id o b) := by
  unfold Chip.wrGran; dsimp only
  have h : Worked c (if c.copyWrites (c.copies (c.obj id) o).1 then c.wrPool (c.copies (c.obj id) o).1 b else c) := by
    split
    · exact worked_wrPool _ _ _
    · exact .rfl' c
  split
  · exact h.trans (worked_wrPool _ _ _)
  · exact h
theorem worked_wrObj (id n : Nat) : ∀ (c : Chip) (o : Nat) (b : Bytes), Worked c (c.wrObj id n o b) := by
  induction n with
  | zero => intro c o b; exact .rfl' c
  | succ n ih =>
    intro c o b
    unfold Chip.wrObj; dsimp only
    split
    · exact .rfl' c
    · exact (worked_wrGran _ _ _ _).trans (ih _ _ _)
theorem worked_writeObj (c : Chip) (id o : Nat) (b : Bytes) : Worked c (c.writeObj id o b) := worked_wrObj _ _ _ _ _

end Sys2Proof.Machine
end

