-- ==== Sys2Proof/Laws/Quiet.lean ====
section
/-! SUPPORT. Operations that leave a state with nothing left over so: they add no request of the device to
itself, hold no write and start no command. -/

namespace Sys2Proof.Machine

/-- `d` has no more left over than `c`. -/
structure Quiet (c d : Chip) : Prop where
  localQ : d.gtx.localQ = c.gtx.localQ
  held : d.ctl.held = c.ctl.held
  more : NoMore c d
  cuts : d.gtx.cuts = c.gtx.cuts
  ops : c.Admitted → d.Admitted
  rest : c.Rested → d.Rested

theorem Quiet.rfl' (c : Chip) : Quiet c c := ⟨rfl, rfl, .rfl' c, rfl, id, id⟩
theorem Quiet.trans {a b c : Chip} (h : Quiet a b) (g : Quiet b c) : Quiet a c :=
  ⟨g.localQ.trans h.localQ, g.held.trans h.held, h.more.trans g.more, g.cuts.trans h.cuts, g.ops ∘ h.ops, g.rest ∘ h.rest⟩
theorem Quiet.still {c d : Chip} (h : Quiet c d) (g : c.Still) : d.Still := g.of h.localQ h.held h.more h.cuts h.ops h.rest
theorem Quiet.foldl {α : Type} (f : Chip → α → Chip) (h : ∀ c x, Quiet c (f c x)) (l : List α) (c : Chip) :
    Quiet c (l.foldl f c) := by
  induction l generalizing c with
  | nil => exact .rfl' c
  | cons x t ih => exact (h c x).trans (ih _)
theorem quiet_of (c d : Chip) (h1 : d.gtx.localQ = c.gtx.localQ) (h2 : d.ctl.held = c.ctl.held)
    (h3 : d.mgt.place = c.mgt.place) (h4 : d.gtx.cuts = c.gtx.cuts) (h5 : c.Admitted → d.Admitted)
    (h6 : c.Rested → d.Rested) : Quiet c d := ⟨h1, h2, h3, h4, h5, h6⟩
theorem Answered.quiet {c d : Chip} (h : Answered c d) (m : NoMore c d) : Quiet c d := by
  unfold Answered at h
  exact ⟨by rw [h]; rfl, by rw [h]; rfl, m, by rw [h]; rfl, by rw [h]; exact id, by rw [h]; exact id⟩
theorem quiet_bump (c : Chip) (k : Cnt) (die : Nat) (i : List Nat) (n : Nat) : Quiet c (c.bump k die i n) :=
  quiet_of _ _ rfl rfl rfl rfl (fun h => h) fun h => h
theorem quiet_when (c : Chip) (p : Bool) (f : Chip → Chip) (h : Quiet c (f c)) : Quiet c (c.when p f) := by
  unfold Chip.when; split
  · exact h
  · exact .rfl' c
theorem Worked.quiet {c d : Chip} (h : Worked c d) : Quiet c d := by
  unfold Worked at h
  exact ⟨by rw [h], by rw [h], by rw [h]; rfl, by rw [h], by rw [h]; exact id, by rw [h]; exact id⟩
theorem Noted.quiet {c d : Chip} (h : Noted c d) : Quiet c d :=
  ⟨by rw [h.eq]; rfl, by rw [h.eq]; rfl, h.more, by rw [h.eq]; rfl, by rw [h.eq]; exact id, by rw [h.eq]; exact id⟩
theorem Raised.quiet {c d : Chip} (h : Raised c d) : Quiet c d := h.noted.quiet
theorem quiet_raise (c : Chip) (e a b : Nat) (r : List Nat) : Quiet c (c.raise e [] a b r) := (raised_raise _ _ _ _ _).quiet
theorem quiet_modSession (c : Chip) (i : Nat) (f : Session → Session) : Quiet c (c.modSession i f) := quiet_of _ _ rfl rfl rfl rfl (fun h => h) fun h => h
theorem quiet_setSessions (c : Chip) (p : Session → Bool) : Quiet c (c.setSessions (c.mgt.sessions.filter p)) :=
  quiet_of _ _ rfl rfl rfl rfl (fun h => h) fun h => h
theorem quiet_ethSend (c : Chip) (o : EthOut) : Quiet c (c.ethSend o) := (answered_ethSend c o).quiet (noMore_ethSend _ _)
theorem quiet_sendOn (c : Chip) (i t : Nat) (b : Bytes) : Quiet c (c.sendOn i t b) :=
  (answered_sendOn c i t b).quiet (noMore_sendOn _ _ _ _)
theorem quiet_sendResponse (c : Chip) (i r o s d : Nat) (b : Bytes) (x : Bool) : Quiet c (c.sendResponse i r o s d b x) :=
  (answered_sendResponse c i r o s d b x).quiet (noMore_sendResponse _ _ _ _ _ _ _ _)
theorem quiet_finishCmd (c : Chip) (i r o s d : Nat) (b : Bytes) : Quiet c (c.finishCmd i r o s d b) :=
  (answered_finishCmd c i r o s d b).quiet (noMore_finishCmd _ _ _ _ _ _ _)
theorem quiet_endCmd (c : Chip) (k : Nat × Nat) (s d : Nat) (b : Bytes) : Quiet c (c.endCmd k s d b) := by
  unfold Chip.endCmd
  split
  · exact quiet_when _ _ _ (quiet_bump _ _ _ _ _)
  · split
    · exact .rfl' c
    · exact quiet_finishCmd _ _ _ _ _ _ _
theorem quiet_sendReq (c : Chip) (id opc r : Nat) (b : Bytes) : Quiet c (c.sendReq id opc r b) := by
  unfold Chip.sendReq
  split
  · exact .rfl' c
  · exact Quiet.foldl _ (fun _ _ => quiet_sendOn _ _ _ _) _ _
theorem quiet_sendClear (c : Chip) (a : NetAddr) (t q : Nat) (b : Bytes) : Quiet c (c.sendClear a t q b) :=
  quiet_ethSend _ _
theorem quiet_sendPeer (c : Chip) (p o : Nat) (b : Bytes) : Quiet c (c.sendPeer p o b) := by
  unfold Chip.sendPeer
  split
  · exact .rfl' c
  · exact quiet_sendReq _ _ _ _ _
theorem quiet_setHandoffs (c : Chip) (l : List Handoff) : Quiet c (c.setHandoffs l) := quiet_of _ _ rfl rfl rfl rfl (fun h => h) fun h => h
theorem quiet_setPeer (c : Chip) (i : Nat) (p : Peer) : Quiet c (c.setPeer i p) := quiet_of _ _ rfl rfl rfl rfl (fun h => h) fun h => h
theorem quiet_setQueue (c : Chip) (q : List QMsg) : Quiet c (c.setQueue q) := quiet_of _ _ rfl rfl rfl rfl (fun h => h) fun h => h
theorem quiet_sendOffer (c : Chip) (h : Handoff) : Quiet c (c.sendOffer h) := by
  unfold Chip.sendOffer
  split
  · exact .rfl' c
  · next off rest _ =>
    dsimp only
    have w := worked_readObj c h.obj off (rest.headD h.size - off)
    split
    · next e => rw [e] at w; exact w.quiet
    · next b c1 e =>
      rw [e] at w
      refine w.quiet.trans (Quiet.trans ?_ (quiet_sendPeer _ _ _ _))
      by_cases hl : rest.isEmpty = true
      · rw [if_pos hl]
        have w2 := worked_readObj c1 h.obj 0 h.size
        split
        · next e2 => rw [e2] at w2; exact w2.quiet
        · next e2 => rw [e2] at w2; exact w2.quiet
      · rw [if_neg hl]; exact .rfl' _
theorem quiet_endHandoff (c : Chip) (h : Handoff) (s d : Nat) : Quiet c (c.endHandoff h s d) := by
  unfold Chip.endHandoff
  dsimp only
  split
  · exact quiet_setHandoffs _ _
  · exact (quiet_setHandoffs _ _).trans (quiet_endCmd _ _ _ _ _)
theorem quiet_handoffDiscard (c : Chip) (h : Handoff) : Quiet c (c.handoffDiscard h) :=
  (quiet_of c (c.scrubExtent (c.obj h.obj)) rfl rfl rfl rfl (fun h => h) fun h => h).trans (quiet_endHandoff _ _ _ _)
theorem quiet_handoffDoubt (c : Chip) (h : Handoff) : Quiet c (c.handoffDoubt h) := by
  unfold Chip.handoffDoubt
  split
  · exact (quiet_endCmd _ _ _ _ _).trans (quiet_setHandoffs _ _)
  · exact quiet_setHandoffs _ _

/-- A row whose meaning adds nothing left over completes as it says. -/
theorem act_quiet (s : State) (c : Chip) (h : Quiet s.chip c) (hs : s.chip.Still) : act s c = .next { s with chip := c } :=
  act_still s c (h.still hs)

/-- A row completes as its meaning says. -/
theorem becomes (s : State) (i : Instr) (c d : Chip) (hi : exec i s = act s d) (e : d = c) (q : Quiet s.chip c)
    (hs : s.chip.Still) : Becomes s i c := by
  unfold Becomes
  rw [hi, e, act_quiet s c q hs]

end Sys2Proof.Machine
end

