-- ==== Sys2Proof/Laws/Addr.lean ====
section
/-! SUPPORT. What lies at the addresses of control space, and what a privileged master's access does there. -/

namespace Sys2Proof.Machine

/-- The element of `r` at an offset of its block, if there is one. -/
def regHas (die o : Nat) (r : Reg) : Option (Reg × Nat × List Nat) :=
  if r.info.dies.contains die ∧ r.info.base ≤ o then (unstride r.info.dims (o - r.info.base)).map fun i => (r, die, i) else none

theorem regAt_ctl (die b o : Nat) (x : Reg × Nat × List Nat) (hb : b < 4096) (ho : o < 2 ^ 32) (hx : x.1 ≠ .tstLaneCfg)
    (h : (blockRegs b).findSome? (regHas die o) = some x) : regAt (ctlAddr die b o) = some x := by
  have g : ctlAddr die b o / 2 ^ 44 = die ∧ ctlAddr die b o / 2 ^ 32 % 4096 = b ∧ ctlAddr die b o % 2 ^ 32 = o := by
    unfold ctlAddr; omega
  unfold regAt
  rw [g.1, g.2.1, g.2.2]
  show ((blockRegs b).findSome? (regHas die o)).filter _ = _
  rw [h]
  simp [hx]

theorem fs_hit {α β : Type} {f : α → Option β} {r : α} {t : List α} {x : β} (h : f r = some x) : (r :: t).findSome? f = some x := by
  rw [List.findSome?, h]

theorem fs_skip {α β : Type} {f : α → Option β} {r : α} {t : List α} {x : Option β} (h : f r = none) (g : t.findSome? f = x) :
    (r :: t).findSome? f = x := by
  rw [List.findSome?, h]; exact g

theorem has_no (die o : Nat) (r : Reg)
    (h : r.info.base ≤ o → unstride r.info.dims (o - r.info.base) = none) : regHas die o r = none := by
  unfold regHas
  split
  · next g => rw [h g.2]; rfl
  · rfl

theorem has_yes (die o : Nat) (r : Reg) (i : List Nat) (h0 : r.info.dies.contains die = true) (h : r.info.base ≤ o)
    (g : unstride r.info.dims (o - r.info.base) = some i) : regHas die o r = some (r, die, i) := by
  unfold regHas
  rw [if_pos ⟨h0, h⟩, g]; rfl

theorem slot_reg {a : Nat} {r : Reg} {die : Nat} {i : List Nat} (h : regAt a = some (r, die, i)) : slotAt a = .reg r die i := by
  unfold slotAt; rw [h]

theorem slotAt_devScratch (i : Nat) (hi : i < 4) :
    slotAt ((Reg.devScratch).addr 12 [i]) = .reg .devScratch 12 [i] := by
  refine slot_reg (regAt_ctl 12 0 (0x50 + 4 * i) _ (by decide) (by omega) (by simp) ?_)
  iterate 12 refine fs_skip (has_no _ _ _ ?_) ?_; · (delta Reg.info; simp [unstride]; try omega)
  refine fs_hit (has_yes _ _ _ _ rfl ?_ ?_) <;> (delta Reg.info; simp [unstride]); omega
theorem slotAt_irqSwSet :
    slotAt ((Reg.irqSwSet).addr 12 []) = .reg .irqSwSet 12 [] := by
  refine slot_reg (regAt_ctl 12 17 0x8 _ (by decide) (by omega) (by simp) ?_)
  iterate 2 refine fs_skip (has_no _ _ _ ?_) ?_; · (delta Reg.info; simp [unstride]; try omega)
  exact fs_hit (has_yes _ _ _ _ rfl (by decide) rfl)
theorem slotAt_irqCoreCfg (i : Nat) (hi : i < 8) :
    slotAt ((Reg.irqCoreCfg).addr 12 [i]) = .reg .irqCoreCfg 12 [i] := by
  refine slot_reg (regAt_ctl 12 17 (0x30000 + 64 * i) _ (by decide) (by omega) (by simp) ?_)
  iterate 5 refine fs_skip (has_no _ _ _ ?_) ?_; · (delta Reg.info; simp [unstride]; try omega)
  refine fs_hit (has_yes _ _ _ _ rfl ?_ ?_) <;> (delta Reg.info; simp [unstride]); omega
theorem slotAt_irqAck (i : Nat) (hi : i < 8) :
    slotAt ((Reg.irqAck).addr 12 [i]) = .reg .irqAck 12 [i] := by
  refine slot_reg (regAt_ctl 12 17 (0x30004 + 64 * i) _ (by decide) (by omega) (by simp) ?_)
  iterate 6 refine fs_skip (has_no _ _ _ ?_) ?_; · (delta Reg.info; simp [unstride]; try omega)
  refine fs_hit (has_yes _ _ _ _ rfl ?_ ?_) <;> (delta Reg.info; simp [unstride]); omega
theorem slotAt_irqEoi (i : Nat) (hi : i < 8) :
    slotAt ((Reg.irqEoi).addr 12 [i]) = .reg .irqEoi 12 [i] := by
  refine slot_reg (regAt_ctl 12 17 (0x30018 + 64 * i) _ (by decide) (by omega) (by simp) ?_)
  iterate 7 refine fs_skip (has_no _ _ _ ?_) ?_; · (delta Reg.info; simp [unstride]; try omega)
  refine fs_hit (has_yes _ _ _ _ rfl ?_ ?_) <;> (delta Reg.info; simp [unstride]); omega
theorem slotAt_irqVecCfg (i j : Nat) (hi : i < 64) (hj : j < 8) :
    slotAt ((Reg.irqVecCfg).addr 12 [i, j]) = .reg .irqVecCfg 12 [i, j] := by
  refine slot_reg (regAt_ctl 12 17 (0x40000 + (256 * i + 32 * j)) _ (by decide) (by omega) (by simp) ?_)
  iterate 10 refine fs_skip (has_no _ _ _ ?_) ?_; · (delta Reg.info; simp [unstride]; try omega)
  refine fs_hit (has_yes _ _ _ _ rfl ?_ ?_)
  · (delta Reg.info; dsimp only); omega
  · (delta Reg.info; simp only [unstride])
    rw [show (0x40000 + (256 * i + 32 * j) - 0x40000) / 256 = i by omega, if_pos hi, show (0x40000 + (256 * i + 32 * j) - 0x40000) % 256 / 32 = j by omega, if_pos hj, if_pos (by omega)]
    rfl
theorem slotAt_gtxNode (i : Nat) (hi : i < 4096) :
    slotAt ((Reg.gtxNode).addr 12 [i]) = .reg .gtxNode 12 [i] := by
  refine slot_reg (regAt_ctl 12 3 (0x10000 + 4 * i) _ (by decide) (by omega) (by simp) ?_)
  iterate 6 refine fs_skip (has_no _ _ _ ?_) ?_; · (delta Reg.info; simp [unstride]; try omega)
  refine fs_hit (has_yes _ _ _ _ rfl ?_ ?_) <;> (delta Reg.info; simp [unstride]); omega
theorem slotAt_gtxStream (i : Nat) (hi : i < 1024) :
    slotAt ((Reg.gtxStream).addr 12 [i]) = .reg .gtxStream 12 [i] := by
  refine slot_reg (regAt_ctl 12 3 (0x20000 + 4 * i) _ (by decide) (by omega) (by simp) ?_)
  iterate 7 refine fs_skip (has_no _ _ _ ?_) ?_; · (delta Reg.info; simp [unstride]; try omega)
  refine fs_hit (has_yes _ _ _ _ rfl ?_ ?_) <;> (delta Reg.info; simp [unstride]); omega
theorem slotAt_swcPartShare (die : Nat) (i : Nat) (hd : die ∈ dAll) (hi : i < 64) :
    slotAt ((Reg.swcPartShare).addr die [i]) = .reg .swcPartShare die [i] := by
  refine slot_reg (regAt_ctl die 4 (0x20000 + 8 * i) _ (by decide) (by omega) (by simp) ?_)
  iterate 6 refine fs_skip (has_no _ _ _ ?_) ?_; · (delta Reg.info; simp [unstride]; try omega)
  refine fs_hit (has_yes _ _ _ _ (by (delta Reg.info; dsimp only); exact (by decide : ∀ x ∈ dAll, dAll.contains x = true) die hd) ?_ ?_) <;> (delta Reg.info; simp [unstride]); omega
theorem slotAt_cohSharer (i : Nat) (hi : i < 64) :
    slotAt ((Reg.cohSharer).addr 12 [i]) = .reg .cohSharer 12 [i] := by
  refine slot_reg (regAt_ctl 12 6 (0x10000 + 4 * i) _ (by decide) (by omega) (by simp) ?_)
  iterate 4 refine fs_skip (has_no _ _ _ ?_) ?_; · (delta Reg.info; simp [unstride]; try omega)
  refine fs_hit (has_yes _ _ _ _ rfl ?_ ?_) <;> (delta Reg.info; simp [unstride]); omega
theorem slotAt_cohProbeAddrHi (die : Nat) (hd : die ∈ dCore) :
    slotAt ((Reg.cohProbeAddrHi).addr die []) = .reg .cohProbeAddrHi die [] := by
  refine slot_reg (regAt_ctl die 6 0x24 _ (by decide) (by omega) (by simp) ?_)
  iterate 9 refine fs_skip (has_no _ _ _ ?_) ?_; · (delta Reg.info; simp [unstride]; try omega)
  exact fs_hit (has_yes _ _ _ _ (by (delta Reg.info; dsimp only); exact (by decide : ∀ x ∈ dCore, dCore.contains x = true) die hd) (by decide) rfl)
theorem slotAt_mgtRxCfg (i : Nat) (hi : i < 64) :
    slotAt ((Reg.mgtRxCfg).addr 12 [i]) = .reg .mgtRxCfg 12 [i] := by
  refine slot_reg (regAt_ctl 12 19 (0x10000 + 16 * i) _ (by decide) (by omega) (by simp) ?_)
  iterate 7 refine fs_skip (has_no _ _ _ ?_) ?_; · (delta Reg.info; simp [unstride]; try omega)
  refine fs_hit (has_yes _ _ _ _ rfl ?_ ?_) <;> (delta Reg.info; simp [unstride]); omega
theorem slotAt_devShdHold :
    slotAt ((Reg.devShdHold).addr 12 []) = .reg .devShdHold 12 [] := by
  refine slot_reg (regAt_ctl 12 0 0x40 _ (by decide) (by omega) (by simp) ?_)
  iterate 11 refine fs_skip (has_no _ _ _ ?_) ?_; · (delta Reg.info; simp [unstride]; try omega)
  exact fs_hit (has_yes _ _ _ _ rfl (by decide) rfl)
theorem slotAt_lnkCtrl (die : Nat) (hd : die ∈ dPort) :
    slotAt ((Reg.lnkCtrl).addr die []) = .reg .lnkCtrl die [] := by
  refine slot_reg (regAt_ctl die 2 0x0 _ (by decide) (by omega) (by simp) ?_)
  exact fs_hit (has_yes _ _ _ _ (by (delta Reg.info; dsimp only); exact (by decide : ∀ x ∈ dPort, dPort.contains x = true) die hd) (by decide) rfl)
theorem slotAt_lnkPortCfg (die : Nat) (i : Nat) (hd : die ∈ dPort) (hi : i < 64) :
    slotAt ((Reg.lnkPortCfg).addr die [i]) = .reg .lnkPortCfg die [i] := by
  refine slot_reg (regAt_ctl die 2 (0x10000 + 256 * i) _ (by decide) (by omega) (by simp) ?_)
  iterate 5 refine fs_skip (has_no _ _ _ ?_) ?_; · (delta Reg.info; simp [unstride]; try omega)
  refine fs_hit (has_yes _ _ _ _ (by (delta Reg.info; dsimp only); exact (by decide : ∀ x ∈ dPort, dPort.contains x = true) die hd) ?_ ?_) <;> (delta Reg.info; simp [unstride]); omega
theorem slotAt_tshPortCfg (die : Nat) (i : Nat) (hd : die ∈ dPort) (hi : i < 64) :
    slotAt ((Reg.tshPortCfg).addr die [i]) = .reg .tshPortCfg die [i] := by
  refine slot_reg (regAt_ctl die 5 (0x10000 + 1024 * i) _ (by decide) (by omega) (by simp) ?_)
  iterate 2 refine fs_skip (has_no _ _ _ ?_) ?_; · (delta Reg.info; simp [unstride]; try omega)
  refine fs_hit (has_yes _ _ _ _ (by (delta Reg.info; dsimp only); exact (by decide : ∀ x ∈ dPort, dPort.contains x = true) die hd) ?_ ?_) <;> (delta Reg.info; simp [unstride]); omega
theorem slotAt_corCoreState (die : Nat) (i j : Nat) (hd : die ∈ dCore) (hi : i < 49) (hj : j < 64) :
    slotAt ((Reg.corCoreState).addr die [i, j]) = .reg .corCoreState die [i, j] := by
  refine slot_reg (regAt_ctl die 9 (0x100000 + (16384 * i + 256 * j)) _ (by decide) (by omega) (by simp) ?_)
  iterate 4 refine fs_skip (has_no _ _ _ ?_) ?_; · (delta Reg.info; simp [unstride]; try omega)
  refine fs_hit (has_yes _ _ _ _ (by (delta Reg.info; dsimp only); exact (by decide : ∀ x ∈ dCore, dCore.contains x = true) die hd) ?_ ?_)
  · (delta Reg.info; dsimp only); omega
  · (delta Reg.info; simp only [unstride])
    rw [show (0x100000 + (16384 * i + 256 * j) - 0x100000) / 16384 = i by omega, if_pos hi, show (0x100000 + (16384 * i + 256 * j) - 0x100000) % 16384 / 256 = j by omega, if_pos hj, if_pos (by omega)]
    rfl
theorem slotAt_corBowlDesc (i : Nat) (hi : i < 8192) :
    slotAt ((Reg.corBowlDesc).addr 12 [i]) = .reg .corBowlDesc 12 [i] := by
  refine slot_reg (regAt_ctl 12 9 (0x200000 + 64 * i) _ (by decide) (by omega) (by simp) ?_)
  iterate 7 refine fs_skip (has_no _ _ _ ?_) ?_; · (delta Reg.info; simp [unstride]; try omega)
  refine fs_hit (has_yes _ _ _ _ rfl ?_ ?_) <;> (delta Reg.info; simp [unstride]); omega
theorem slotAt_dspWindowW0 (i : Nat) (hi : i < 1024) :
    slotAt ((Reg.dspWindowW0).addr 12 [i]) = .reg .dspWindowW0 12 [i] := by
  refine slot_reg (regAt_ctl 12 10 (0x1000000 + 32 * i) _ (by decide) (by omega) (by simp) ?_)
  iterate 14 refine fs_skip (has_no _ _ _ ?_) ?_; · (delta Reg.info; simp [unstride]; try omega)
  refine fs_hit (has_yes _ _ _ _ rfl ?_ ?_) <;> (delta Reg.info; simp [unstride]); omega
theorem slotAt_sftQwinW0 (i : Nat) (hi : i < 256) :
    slotAt ((Reg.sftQwinW0).addr 12 [i]) = .reg .sftQwinW0 12 [i] := by
  refine slot_reg (regAt_ctl 12 15 (0x2000000 + 32 * i) _ (by decide) (by omega) (by simp) ?_)
  iterate 20 refine fs_skip (has_no _ _ _ ?_) ?_; · (delta Reg.info; simp [unstride]; try omega)
  refine fs_hit (has_yes _ _ _ _ rfl ?_ ?_) <;> (delta Reg.info; simp [unstride]); omega
theorem slotAt_wskEngCfg (die : Nat) (i : Nat) (hd : die ∈ dPort) (hi : i < 16) :
    slotAt ((Reg.wskEngCfg).addr die [i]) = .reg .wskEngCfg die [i] := by
  refine slot_reg (regAt_ctl die 11 (0x100 + 16 * i) _ (by decide) (by omega) (by simp) ?_)
  iterate 4 refine fs_skip (has_no _ _ _ ?_) ?_; · (delta Reg.info; simp [unstride]; try omega)
  refine fs_hit (has_yes _ _ _ _ (by (delta Reg.info; dsimp only); exact (by decide : ∀ x ∈ dPort, dPort.contains x = true) die hd) ?_ ?_) <;> (delta Reg.info; simp [unstride]); omega
theorem slotAt_tngEngCfg (die : Nat) (i : Nat) (hd : die ∈ dPort) (hi : i < 16) :
    slotAt ((Reg.tngEngCfg).addr die [i]) = .reg .tngEngCfg die [i] := by
  refine slot_reg (regAt_ctl die 12 (0x100 + 16 * i) _ (by decide) (by omega) (by simp) ?_)
  iterate 4 refine fs_skip (has_no _ _ _ ?_) ?_; · (delta Reg.info; simp [unstride]; try omega)
  refine fs_hit (has_yes _ _ _ _ (by (delta Reg.info; dsimp only); exact (by decide : ∀ x ∈ dPort, dPort.contains x = true) die hd) ?_ ?_) <;> (delta Reg.info; simp [unstride]); omega
theorem slotAt_cldEngCfg (die : Nat) (i : Nat) (hd : die ∈ dPort) (hi : i < 16) :
    slotAt ((Reg.cldEngCfg).addr die [i]) = .reg .cldEngCfg die [i] := by
  refine slot_reg (regAt_ctl die 13 (0x100 + 16 * i) _ (by decide) (by omega) (by simp) ?_)
  iterate 4 refine fs_skip (has_no _ _ _ ?_) ?_; · (delta Reg.info; simp [unstride]; try omega)
  refine fs_hit (has_yes _ _ _ _ (by (delta Reg.info; dsimp only); exact (by decide : ∀ x ∈ dPort, dPort.contains x = true) die hd) ?_ ?_) <;> (delta Reg.info; simp [unstride]); omega
theorem slotAt_memFailCmd :
    slotAt ((Reg.memFailCmd).addr 12 []) = .reg .memFailCmd 12 [] := by
  refine slot_reg (regAt_ctl 12 7 0x18 _ (by decide) (by omega) (by simp) ?_)
  iterate 6 refine fs_skip (has_no _ _ _ ?_) ?_; · (delta Reg.info; simp [unstride]; try omega)
  exact fs_hit (has_yes _ _ _ _ rfl (by decide) rfl)
theorem slotAt_memCtrl :
    slotAt ((Reg.memCtrl).addr 12 []) = .reg .memCtrl 12 [] := by
  refine slot_reg (regAt_ctl 12 7 0x0 _ (by decide) (by omega) (by simp) ?_)
  exact fs_hit (has_yes _ _ _ _ rfl (by decide) rfl)
theorem slotAt_sftIndexW0 (i : Nat) (hi : i < 256) :
    slotAt ((Reg.sftIndexW0).addr 12 [i]) = .reg .sftIndexW0 12 [i] := by
  refine slot_reg (regAt_ctl 12 15 (0x1000000 + 64 * i) _ (by decide) (by omega) (by simp) ?_)
  iterate 4 refine fs_skip (has_no _ _ _ ?_) ?_; · (delta Reg.info; simp [unstride]; try omega)
  refine fs_hit (has_yes _ _ _ _ rfl ?_ ?_) <;> (delta Reg.info; simp [unstride]); omega

/-! ### A privileged master's access -/

theorem writeField_dropped (en : Bool) (v : Nat) (s : FieldRes) (f : FieldDef) (h : s.dropped = false) :
    (writeField true en v s f).dropped = false := by
  unfold writeField
  dsimp only
  rw [if_neg (by simp)]
  cases f.acc <;> dsimp only <;> first | exact h | (split <;> exact h)

theorem codes_dropped (c : Chip) (r : Reg) (die : Nat) (i : List Nat) (v : Nat) : (c.codes r die i v true).dropped = false := by
  unfold Chip.codes
  have H : ∀ (l : List FieldDef) (s : FieldRes), s.dropped = false → (l.foldl (writeField true (c.enabled r.info.block die) v) s).dropped = false := by
    intro l
    induction l with
    | nil => intro s h; exact h
    | cons f t ih => intro s h; exact ih _ (writeField_dropped _ _ _ _ h)
  exact H _ _ rfl

theorem keepMask (v : Word) (x : Nat) : clearMask v.toNat 0 ||| (x &&& 0) = v.toNat := by
  unfold clearMask
  rw [Nat.and_zero, Nat.or_zero]
  have : (2 ^ 32 - 1 - 0 % 2 ^ 32) = 2 ^ 32 - 1 := rfl
  rw [this, Nat.and_two_pow_sub_one_eq_mod, Nat.mod_eq_of_lt v.isLt]

/-- A privileged master's write of a register that is not staged: OK, its block's effect, and CFG_IGNORED
where an RWD field held its value. -/
theorem store_priv (c : Chip) (m : Master) (a : Nat) (v : Word) (r : Reg) (die : Nat) (i : List Nat) (hm : m.code ≤ 8)
    (hs : slotAt a = .reg r die i) (ha : a % 4 = 0) (hd : c.dieCut (a / 2 ^ 44) = false)
    (hn : (Slot.reg r die i).noWrite = false) (hi : c.inert (.reg r die i) = false) (hab : absentMask r die i = 0)
    (hst : stagedReg r = false) (hb : r.info.block ≠ 1) :
    c.busStore m a v = (((c.regEffect r die i (c.codes r die i v.toNat true).word v.toNat true).when
      (c.codes r die i v.toNat true).ignored fun c => c.ignored (r.addr die i)).busResp 0 0) := by
  have st : c.accStatus m a true = 0 := by
    unfold Chip.accStatus
    rw [hs, ha, hd]
    dsimp only
    rw [hn]
    simp
  have pr : prvOf m = true := by unfold prvOf; exact decide_eq_true hm
  unfold Chip.busStore
  rw [if_neg (fun h => by omega)]
  unfold Chip.busWrite Chip.ctlWrite
  dsimp only
  rw [st, hs, if_neg (fun h => h rfl), if_neg (by omega), if_neg (fun h => by omega), hi, if_neg (by simp), pr]
  dsimp only
  unfold Chip.writeReg
  dsimp only
  rw [hab, keepMask, hst]
  simp only [Bool.false_eq_true, if_false]
  rw [codes_dropped]
  unfold Chip.bootRo
  rw [if_neg (fun h => hb h.1)]
  rfl

theorem fld_lt (c : Chip) (r d i hi lo) : c.fld r d i hi lo < 2 ^ (hi + 1 - lo) := by
  unfold Chip.fld bits; exact Nat.mod_lt _ (by positivity)

theorem store12 (c : Chip) (m : Master) (v : Word) (r : Reg) (i : List Nat) (hm : m.code ≤ 8)
    (hs : slotAt (r.addr 12 i) = .reg r 12 i) (ha : r.addr 12 i % 4 = 0) (h12 : r.addr 12 i / 2 ^ 44 = 12)
    (hn : (Slot.reg r 12 i).noWrite = false) (hi : c.inert (.reg r 12 i) = false) (hab : absentMask r 12 i = 0)
    (hst : stagedReg r = false) (hb : r.info.block ≠ 1) :
    c.busStore m (r.addr 12 i) v = (((c.regEffect r 12 i (c.codes r 12 i v.toNat true).word v.toNat true).when
      (c.codes r 12 i v.toNat true).ignored fun c => c.ignored (r.addr 12 i)).busResp 0 0) :=
  store_priv c m _ v r 12 i hm hs ha (by rw [h12]; rfl) hn hi hab hst hb

theorem writeField_ign (en : Bool) (v : Nat) (s : FieldRes) (f : FieldDef) (h : f.acc ≠ .rwd) :
    (writeField true en v s f).ignored = s.ignored := by
  unfold writeField
  dsimp only
  rw [if_neg (by simp)]
  cases e : f.acc <;> dsimp only
  exact absurd e h
theorem codes_ign (c : Chip) (r : Reg) (die : Nat) (i : List Nat) (v : Nat) (h : ∀ f ∈ r.info.fields, f.acc ≠ .rwd) :
    (c.codes r die i v true).ignored = false := by
  unfold Chip.codes
  have H : ∀ (l : List FieldDef) (s : FieldRes), (∀ f ∈ l, f.acc ≠ .rwd) →
      (l.foldl (writeField true (c.enabled r.info.block die) v) s).ignored = s.ignored := by
    intro l
    induction l with
    | nil => intro s h; rfl
    | cons f t ih =>
      intro s h
      rw [List.foldl_cons, ih _ (fun f hf => h f (List.mem_cons_of_mem _ hf)), writeField_ign _ _ _ _ (h f List.mem_cons_self)]
  exact H _ _ h

theorem addr12 (b o : Nat) (ho : o < 2 ^ 32) (hb : b < 4096) (h4 : o % 4 = 0) :
    ctlAddr 12 b o % 4 = 0 ∧ ctlAddr 12 b o / 2 ^ 44 = 12 := by
  unfold ctlAddr; omega

theorem when_false (c : Chip) (f : Chip → Chip) : c.when false f = c := rfl

theorem quiet_setReg (c : Chip) (r : Reg) (die : Nat) (i : List Nat) (v : Nat) : Quiet c (c.setReg r die i v) := quiet_of _ _ rfl rfl rfl rfl (fun h => h) fun h => h
theorem setReg_irq (c : Chip) (r : Reg) (die : Nat) (i : List Nat) (v : Nat) : (c.setReg r die i v).irq = c.irq := rfl
theorem quiet_resp (c : Chip) (a b : Nat) : Quiet c (c.busResp a b) := quiet_of _ _ rfl rfl rfl rfl (fun h => h) fun h => h

end Sys2Proof.Machine
end

