-- ==== Sys2Proof/Laws/Links.lean ====
section
/-! SUPPORT. What the ports' operations keep, and what a port that holds no message leaves when it goes. -/

namespace Sys2Proof.Machine

theorem parts_lt (c : Chip) (p : Nat) : ∀ x ∈ c.portParts p, x < 64 := by
  intro x hx
  unfold Chip.portParts at hx
  rw [List.mem_dedup, List.mem_map] at hx
  obtain ⟨i, _, rfl⟩ := hx
  exact fld_lt ..
theorem noted_linkEvent (c : Chip) (ev p : Nat) (h : c.NoRings) : Noted c (c.linkEvent ev p) := by
  unfold Chip.linkEvent
  exact noted_raise _ _ _ _ _ _ (parts_lt c p) h
theorem noRings_of (c d : Chip) (h : c.NoRings) (e : d.ctl.regs = c.ctl.regs) : d.NoRings := by
  have : ∀ r die i, d.reg r die i = c.reg r die i := by intro r die i; unfold Chip.reg; rw [e]
  intro p hp v hv
  rw [this]
  exact h p hp v hv
theorem stripCred_regs (c : Chip) (p : Nat) : (c.stripCred p).ctl.regs = c.ctl.regs := rfl
theorem quiet_linkGone (c : Chip) (p : Nat) (st) (k : Nat) : Quiet c (c.linkGone p st k) := quiet_of _ _ rfl rfl rfl rfl (fun h => h) fun h => h
theorem linkGone_regs (c : Chip) (p : Nat) (st) (k : Nat) : (c.linkGone p st k).ctl.regs = c.ctl.regs := rfl
theorem linkGone_reqs (c : Chip) (p : Nat) (st) (k : Nat) : (c.linkGone p st k).gtx.devReqs = c.gtx.devReqs := rfl
theorem noted_portBump (c : Chip) (k : Cnt) (p n : Nat) : Noted c (c.portBump k p n) := (raised_bump _ _ _ _ _).noted

theorem filterMap_none (l : List (Option EMsg)) (h : ∀ m ∈ l, m = none) : l.filterMap id = [] := by
  rw [List.filterMap_eq_nil_iff]; exact h
theorem flatten_nil (l : List (List Nat)) (h : ∀ k ∈ l, k = []) : l.flatten = [] := List.flatten_eq_nil_iff.mpr h

theorem noted_gtx {c d : Chip} (h : Noted c d) : d.gtx = c.gtx := by rw [h.eq]; rfl
theorem cutMsgs_none (q : Port) (p : Nat) (h : ∀ k ∈ q.rxMode, k = .whole) : q.cutMsgs p = [] := by
  unfold Port.cutMsgs
  rw [List.filterMap_eq_nil_iff]
  intro vc _
  have : q.rxMode.getD vc .whole = .whole := by
    by_cases g : vc < q.rxMode.length
    · rw [List.getD_eq_getElem _ _ g]; exact h _ (List.getElem_mem g)
    · rw [List.getD_eq_default _ _ (by omega)]
  rw [this]
/-- With no message queued, the port's arbiters lose their children's deficits. -/
theorem portIdle_eq (d : Chip) (p : Nat) (h : (d.port p).queue = []) :
    ((List.range 8).foldl (fun c k => c.idleChildren p k) d).idleSnoops p = d.portIdle p := by
  have one : ∀ (x : Chip) (t : Nat), x.treeIdle t [] =
      { x with swc := { x.swc with deficit := x.swc.deficit.filter fun e => e.1 / childMax / 16 != t } } := by
    intro x t
    unfold Chip.treeIdle
    simp
  have kids : ∀ (x : Chip) (k : Nat), (x.port p).queue = [] → x.idleChildren p k = x.treeIdle (portTree p k) [] := by
    intro x k e
    have : x.classLeaves p k = [] := by unfold Chip.classLeaves Chip.classMsgs; rw [e]; simp [sortLeaves]
    unfold Chip.idleChildren; rw [this]
  have f : ∀ (l : List Nat) (x : Chip), (x.port p).queue = [] → l.foldl (fun c k => c.idleChildren p k) x =
      { x with swc := { x.swc with deficit := x.swc.deficit.filter fun e => l.all fun k => e.1 / childMax / 16 != portTree p k } } := by
    intro l
    induction l with
    | nil => intro x _; simp
    | cons k t ih =>
      intro x e
      rw [List.foldl_cons, kids x k e, one]
      refine (ih { x with swc := { x.swc with deficit := x.swc.deficit.filter fun e => e.1 / childMax / 16 != portTree p k } } e).trans ?_
      simp only [List.filter_filter, List.all_cons, Bool.and_comm]
  rw [f _ _ h]
  unfold Chip.idleSnoops
  have sn : ∀ x : Chip, x.lnk = d.lnk → x.snoopLeaves p = [] := by
    intro x e
    have e2 : (x.port p).queue = [] := by unfold Chip.port; rw [e]; exact h
    unfold Chip.snoopLeaves Chip.snoopMsgs; rw [e2]; simp [oneEach, sortLeaves]
  rw [sn, one]
  rotate_left
  · rfl
  unfold Chip.portIdle
  dsimp only
  rw [List.filter_filter]
  have cond : ∀ t : Nat, ((t != snoopTree p) && (List.range 8).all fun k => t != portTree p k) = (t / 8 != p && t != snoopTree p) := by
    intro t
    rw [Bool.and_comm]
    congr 1
    rw [Bool.eq_iff_iff]
    simp only [List.all_eq_true, List.mem_range, bne_iff_ne, ne_eq, portTree]
    constructor
    · intro g e
      exact g (t % 8) (Nat.mod_lt _ (by decide)) (by omega)
    · intro g k hk e
      exact g (by omega)
  simp only [cond]
theorem noted_portIdle {c d : Chip} (h : Noted c d) (p : Nat) : Noted (c.portIdle p) (d.portIdle p) := by
  have e : d.swc = c.swc := by rw [h.eq]; rfl
  refine ⟨?_, h.more, h.sess, h.queue⟩
  unfold Chip.portIdle
  rw [e, h.eq]; rfl
theorem quiet_portIdle (c : Chip) (p : Nat) : Quiet c (c.portIdle p) := quiet_of _ _ rfl rfl rfl rfl (fun h => h) fun h => h
/-- Lookup in a sparse table whose values have been mapped. -/
theorem kfind_map {α β : Type} (f : α → β) (m : KMap α) (k : Nat) :
    kfind? (m.map fun e => (e.1, f e.2)) k = (kfind? m k).map f := by
  induction m with
  | nil => rfl
  | cons e t ih =>
    simp only [List.map_cons, kfind?]
    split
    · rfl
    · exact ih
theorem noted_port {c d : Chip} (n : Noted c d) (p : Nat) : d.port p = c.port p := by unfold Chip.port; rw [n.eq]; rfl
theorem noted_regs {c d : Chip} (n : Noted c d) : d.ctl.regs = c.ctl.regs := by rw [n.eq]; rfl
theorem portGone_empty (c : Chip) (p : Nat) (failed : Bool) (k : Nat) (he : c.LinkEmpty p) (hr : c.NoRings) :
    Noted (c.linkGone p (if failed then .failed else .down) k) (c.portGone p failed k) := by
  obtain ⟨e1, e2, e3, ⟨e5, e6⟩, e4⟩ := he
  have lost : (c.port p).inbox.filterMap InMsg.lost = [] := List.filterMap_eq_nil_iff.mpr e6
  unfold Chip.portGone
  dsimp only
  rw [filterMap_none _ e2, flatten_nil _ e3, e1, cutMsgs_none _ _ e5, lost]
  simp only [List.map_nil, List.filterMap_nil, List.flatten_nil, List.foldl_nil, List.append_nil, Chip.releaseCells,
    List.length_nil]
  unfold Chip.linkGone
  generalize hL : Chip.stripCred (c.modPort p _) p = L
  have hL' : L = Chip.stripCred (c.modPort p _) p := hL.symm
  have rL : L.ctl.regs = c.ctl.regs := by rw [hL']; rfl
  have qL : (L.port p).queue = [] := by
    rw [hL']
    unfold Chip.stripCred Chip.port
    dsimp only
    unfold kgetD
    rw [kfind_map (Port.stripCred p)]
    unfold Chip.modPort Chip.setPort
    rw [kfind_kput_self]
    rfl
  have gL : L.gtx.devReqs = c.gtx.devReqs := by rw [hL']; rfl
  have tail : ∀ D : Chip, Noted L D → ∀ enc again : Bool,
      let D2 := if failed then (D.portBump .lnkFail p).linkEvent Ev.linkFailed p else D
      let D3 := if enc then D2.fwEvent Ev.keyNeeded none 0 0 else D2
      let D4 := ((List.range 8).foldl (fun c k => c.idleChildren p k) D3).idleSnoops p
      Noted (L.portIdle p) (if again then
        (D3.gtx.devReqs.filter fun d => d.port == some p && !([] : List Nat).contains d.id).foldl (fun c d => c.reissueOn d p) D4 else D4) := by
    intro D nD enc again D2 D3 D4
    have n2 : Noted D D2 := by
      show Noted D (if failed then _ else _)
      split
      · exact (noted_portBump _ _ _ _).trans (noted_linkEvent _ _ _ (noRings_of D _ (noRings_of c _ hr ((noted_regs nD).trans rL)) rfl))
      · exact .rfl' _
    have n3 : Noted L D3 := by
      refine nD.trans ?_
      show Noted D (if enc then _ else _)
      split
      · exact n2.trans (raised_fwEvent _ _ _ _ _).noted
      · exact n2
    have e : D4 = D3.portIdle p := portIdle_eq D3 p (by rw [noted_port n3]; exact qL)
    have none : (D3.gtx.devReqs.filter fun d => d.port == some p && !([] : List Nat).contains d.id) = [] := by
      rw [List.filter_eq_nil_iff, noted_gtx n3, gL]
      intro d hd hc
      have := e4 d hd
      simp at hc
      exact this hc
    rw [none, List.foldl_nil, ite_self, e]
    exact noted_portIdle n3 p
  refine tail _ ?_ _ _
  rw [hL']
  exact (raised_bump _ _ _ _ _).noted

theorem gone_notes (s : State) (i : Instr) (p k : Nat) (failed : Bool) (c : Chip) (d : Chip) (hi : exec i s = act s d)
    (hd : d = c.portGone p failed k) (hc : c.Still) (he : c.LinkEmpty p) (hr : c.NoRings) :
    NotesTo s i (c.linkGone p (if failed then .failed else .down) k) :=
  notesTo s i _ d hi (hd ▸ portGone_empty c p failed k he hr) ((quiet_linkGone c p _ k).still hc)

theorem linkGone_cause (c : Chip) (p n : Nat) (st) (k : Nat) : (c.modPort p fun q => { q with cause := n }).linkGone p st k = c.linkGone p st k := by
  unfold Chip.linkGone Chip.modPort Chip.setPort Chip.port
  dsimp only
  rw [kgetD_kput_self]
  have : ∀ (m : KMap Port) (a b : Port), kput (kput m p a) p b = kput m p b := by
    intro m a b
    induction m with
    | nil => simp [kput]
    | cons e t ih =>
      simp only [kput]
      split
      · simp [kput]
      · split
        · next h => simp [kput, h]
        · next h1 h2 => simp [kput, h1, h2, ih]
  unfold Chip.stripCred
  dsimp only
  rw [this]
  rfl
theorem port_modPort (c : Chip) (p : Nat) (f : Port → Port) : (c.modPort p f).port p = f (c.port p) := by
  unfold Chip.modPort Chip.setPort Chip.port
  exact kgetD_kput_self _ _ _ _
theorem empty_of (c d : Chip) (p : Nat) (h : c.LinkEmpty p) (e : d.gtx = c.gtx) (e1 : (d.port p).queue = (c.port p).queue)
   (e2 : (d.port p).curMsg = (c.port p).curMsg) (e3 : (d.port p).rxCells = (c.port p).rxCells)
   (e4 : (d.port p).rxMode = (c.port p).rxMode) (e5 : (d.port p).inbox = (c.port p).inbox) : d.LinkEmpty p :=
  ⟨e1.trans h.1, e2 ▸ h.2.1, e3 ▸ h.2.2.1, ⟨e4 ▸ h.2.2.2.1.1, e5 ▸ h.2.2.2.1.2⟩, e ▸ h.2.2.2.2⟩
theorem port_bump (c : Chip) (k : Cnt) (x p n : Nat) : (c.portBump k x n).port p = c.port p := rfl
theorem raising_linkGone {c d : Chip} (h : Raised c d) (p : Nat) (st k) : d.linkGone p st k = (c.linkGone p st k).raising d := by
  unfold Raised at h; rw [h]; rfl
theorem noting_linkGone {c d : Chip} (h : Noted c d) (p : Nat) (st k) : d.linkGone p st k = (c.linkGone p st k).noting d := by
  rw [h.eq]; rfl
theorem notes_of {s : State} {i : Instr} {c d : Chip} (h : NotesTo s i (c.noting d)) : NotesTo s i c := by
  obtain ⟨t, h1, h2, h3, h4⟩ := h
  exact ⟨t, h1, by rw [h2]; rfl, h3, h4⟩
theorem usable_st (c : Chip) (p : Nat) : c.usable p = true ↔ ((c.port p).st = .active ∨ (c.port p).st = .narrow) := by
  unfold Chip.usable; simp

theorem modBump_regs (c : Chip) (p : Nat) (f : Port → Port) (k : Cnt) (n : Nat) : ((c.modPort p f).portBump k p n).ctl.regs = c.ctl.regs := rfl
theorem modPort_regs (c : Chip) (p : Nat) (f : Port → Port) : (c.modPort p f).ctl.regs = c.ctl.regs := rfl
theorem modPort_gtx (c : Chip) (p : Nat) (f : Port → Port) : (c.modPort p f).gtx = c.gtx := rfl
theorem quiet_modPort (c : Chip) (p : Nat) (f : Port → Port) : Quiet c (c.modPort p f) := quiet_of _ _ rfl rfl rfl rfl (fun h => h) fun h => h
theorem gone_mod (s : State) (i : Instr) (p k : Nat) (failed : Bool) (f : Port → Port) (d c1 : Chip) (hi : exec i s = act s d) (hd : d = c1.portGone p failed k)
    (n : Noted (s.chip.modPort p f) c1) (hs : s.chip.Still) (he : s.chip.LinkEmpty p) (hr : s.chip.NoRings)
    (f1 : ∀ q, (f q).queue = q.queue) (f2 : ∀ q, (f q).curMsg = q.curMsg) (f3 : ∀ q, (f q).rxCells = q.rxCells)
    (f4 : ∀ q, (f q).rxMode = q.rxMode) (f5 : ∀ q, (f q).inbox = q.inbox) :
    NotesTo s i ((s.chip.modPort p f).linkGone p (if failed then .failed else .down) k) := by
  have e0 : (s.chip.modPort p f).LinkEmpty p := empty_of s.chip _ p he (modPort_gtx _ _ _) (by rw [port_modPort, f1]) (by rw [port_modPort, f2]) (by rw [port_modPort, f3]) (by rw [port_modPort, f4]) (by rw [port_modPort, f5])
  have e1 : c1.LinkEmpty p := empty_of _ _ p e0 (noted_gtx n) (by rw [noted_port n]) (by rw [noted_port n]) (by rw [noted_port n]) (by rw [noted_port n]) (by rw [noted_port n])
  have g := gone_notes s i p k failed c1 d hi hd (n.still ((quiet_modPort _ _ _).still hs)) e1
    (noRings_of s.chip _ hr ((noted_regs n).trans (modPort_regs _ _ _)))
  rw [noting_linkGone n] at g
  exact notes_of g

theorem takeAck_st (q : Port) (a : Nat) : (q.takeAck a).st = q.st := by
  unfold Port.takeAck; dsimp only; split <;> rfl
theorem takeCcum_st (q : Port) (a b : Nat) : (q.takeCcum a b).st = q.st := by
  unfold Port.takeCcum
  exact (apply_ite Port.st _ _ _).trans (ite_self _)
theorem quiet_portBump (c : Chip) (k : Cnt) (p n : Nat) : Quiet c (c.portBump k p n) := quiet_of _ _ rfl rfl rfl rfl (fun h => h) fun h => h
theorem takeHdr_st (h : FlitHdr) (q : Port) : (Port.takeHdr h q).st = q.st := (takeCcum_st _ _ _).trans (takeAck_st _ _)
/-- What a port's updates and counts keep holds after a header without NAK. -/
theorem rxHdr_holds (P : Chip → Prop) (c : Chip) (p : Nat) (h : FlitHdr) (hn : h.nak = false) (p0 : P c)
    (pm : ∀ d f, P d → (∀ q, (f q).st = q.st) → P (d.modPort p f)) (pb : ∀ d k n, P d → P (d.portBump k p n)) :
    P (c.rxHdr p h) := by
  have p1 : P (c.countFlit p) := by
    unfold Chip.countFlit
    dsimp only
    split
    · exact pm _ _ (pb _ _ _ p0) (fun q => rfl)
    · exact pb _ _ _ p0
  have p2 : P ((c.countFlit p).takeHdr p h) := by
    have p2 := pm _ (Port.takeHdr h) p1 (takeHdr_st h)
    unfold Chip.takeHdr
    dsimp only
    split
    · exact pm _ _ (pm _ _ p2 (fun q => rfl)) (fun q => rfl)
    · exact p2
  unfold Chip.rxHdr
  rw [hn]
  split
  · exact p0
  · dsimp only
    split
    · exact p1
    · exact p2
/-- A header without NAK: quiet, and the state and registers stay. -/
theorem rxHdr_keeps (c : Chip) (p : Nat) (h : FlitHdr) (hn : h.nak = false) :
    Quiet c (c.rxHdr p h) ∧ ((c.rxHdr p h).port p).st = (c.port p).st ∧ (c.rxHdr p h).ctl.regs = c.ctl.regs ∧
      (c.rxHdr p h).boot = c.boot :=
  rxHdr_holds (fun d => Quiet c d ∧ (d.port p).st = (c.port p).st ∧ d.ctl.regs = c.ctl.regs ∧ d.boot = c.boot) c p h hn
    ⟨.rfl' c, rfl, rfl, rfl⟩
    (fun _ _ hd hf => ⟨hd.1.trans (quiet_modPort _ _ _), by rw [port_modPort, hf]; exact hd.2.1, hd.2.2⟩)
    fun _ _ _ hd => ⟨hd.1.trans (quiet_portBump _ _ _ _), hd.2.1, hd.2.2⟩


theorem kput_kput {α : Type} (m : KMap α) (p : Nat) (a b : α) : kput (kput m p a) p b = kput m p b := by
  induction m with
  | nil => simp [kput]
  | cons e t ih =>
    simp only [kput]
    split
    · simp [kput]
    · split
      · next h => simp [kput, h]
      · next h1 h2 => simp [kput, h1, h2, ih]
theorem setPort_setPort (c : Chip) (p : Nat) (a b : Port) : (c.setPort p a).setPort p b = c.setPort p b := by
  unfold Chip.setPort
  dsimp only
  rw [kput_kput]
theorem modPort_modPort (c : Chip) (p : Nat) (f g : Port → Port) : (c.modPort p f).modPort p g = c.modPort p fun q => g (f q) := by
  show (c.modPort p f).setPort p (g ((c.modPort p f).port p)) = _
  rw [port_modPort]
  exact setPort_setPort _ _ _ _
theorem bump_modPort (c : Chip) (k : Cnt) (p n x : Nat) (f : Port → Port) :
    (c.portBump k x n).modPort p f = (c.modPort p f).portBump k x n := rfl
theorem port_setPort (c : Chip) (p : Nat) (q : Port) : (c.setPort p q).port p = q := kgetD_kput_self _ _ _ _
theorem quiet_setPort (c : Chip) (p : Nat) (q : Port) : Quiet c (c.setPort p q) := quiet_of _ _ rfl rfl rfl rfl (fun h => h) fun h => h
theorem sendCtrl_eq (c : Chip) (p t l w r : Nat) : c.sendCtrl p t l w r = c.modPort p fun q => { q with ctrlTx := q.ctrlTx ++ [(t, c.ctrlBody p l w r)] } := rfl
theorem ctrlBody_modPort (c : Chip) (x p l w r : Nat) (f : Port → Port) : (c.modPort x f).ctrlBody p l w r = c.ctrlBody p l w r := rfl
theorem ctrlBody_bump (c : Chip) (k : Cnt) (x n p l w r : Nat) : (c.portBump k x n).ctrlBody p l w r = c.ctrlBody p l w r := rfl
/-- Before it carries messages a port only counts a header that arrives. -/
theorem rxHdr_early (c : Chip) (p : Nat) (h : FlitHdr) (h1 : (c.port p).st ≠ .down) (h2 : (c.port p).st ≠ .failed) (h3 : c.carries p = false) :
    c.rxHdr p h = c.portBump .lnkFlitsRx p := by
  unfold Chip.rxHdr
  have hc : (c.portBump .lnkFlitsRx p).carries p = false := h3
  have hu' : (c.portBump .lnkFlitsRx p).usable p = false := by
    unfold Chip.carries at hc
    simp only [Bool.or_eq_false_iff] at hc
    exact hc.1.1
  have hf : c.countFlit p = c.portBump .lnkFlitsRx p := by
    unfold Chip.countFlit
    dsimp only
    rw [hu', if_neg Bool.false_ne_true]
  dsimp only
  rw [if_neg (by simp [h1, h2]), hf, hc]
  rfl

end Sys2Proof.Machine
end

