-- ==== Sys2Proof/Laws/Fabric.lean ====
section
/-! SUPPORT. Admission of Gyori requests and what its parts leave unchanged. -/

namespace Sys2Proof.Machine

theorem freeCells_zero (m : KMap Cell) (top n : Nat) : freeCells top m n 0 = [] := by
  induction m with
  | nil => unfold freeCells; rw [Nat.zero_min]; rfl
  | cons e t ih =>
    obtain ⟨k, v⟩ := e
    unfold freeCells
    split
    · exact ih
    · rw [if_pos (Or.inl (Nat.zero_le _)), Nat.zero_min]; rfl
theorem alloc_zero (c : Chip) (d a : Nat) : c.allocCells d 0 a = (c, []) := by
  unfold Chip.allocCells
  rw [freeCells_zero]
  rfl
/-- `d` is `c` but for cells, die-to-die links and counters. -/
def Switched (c d : Chip) : Prop :=
  d = { c with swc := d.swc, ctl := { c.ctl with cnt := d.ctl.cnt, sat := d.ctl.sat, satEv := d.ctl.satEv } }
theorem Switched.rfl' (c : Chip) : Switched c c := rfl
theorem Switched.trans {a b c : Chip} (h : Switched a b) (g : Switched b c) : Switched a c := by
  unfold Switched at *
  rw [g, h]
theorem Switched.foldl {α : Type} (f : Chip → α → Chip) (h : ∀ c x, Switched c (f c x)) (l : List α) (c : Chip) :
    Switched c (l.foldl f c) := by
  induction l generalizing c with
  | nil => exact .rfl' c
  | cons x t ih => exact (h c x).trans (ih _)
theorem Switched.quiet {c d : Chip} (h : Switched c d) : Quiet c d := by
  unfold Switched at h
  exact ⟨by rw [h], by rw [h], by rw [h]; rfl, by rw [h], by rw [h]; exact id, by rw [h]; exact id⟩
theorem switched_bump (c : Chip) (k : Cnt) (die : Nat) (i : List Nat) (n : Nat) : Switched c (c.bump k die i n) := rfl
theorem switched_setCell (c : Chip) (k : Nat) (v : Cell) : Switched c (c.setCell k v) := rfl
theorem switched_alloc (c : Chip) (d n a : Nat) : Switched c (c.allocCells d n a).1 := Switched.foldl _ (fun _ _ => switched_setCell _ _ _) _ _
theorem switched_takeRefs (c : Chip) (l : List Nat) : Switched c (c.takeRefs l) := Switched.foldl _ (fun _ _ => switched_setCell _ _ _) _ _
theorem switched_release (c : Chip) (l : List Nat) : Switched c (c.releaseCells l) := by
  refine Switched.foldl _ (fun c k => ?_) _ _
  dsimp only
  split
  · exact switched_bump _ _ _ _ _
  · split <;> exact switched_setCell _ _ _
theorem switched_charge (c : Chip) (l : List Nat) (a : Nat) : Switched c (c.chargeCells l a) := Switched.foldl _ (fun _ _ => switched_setCell _ _ _) _ _
theorem switched_crossed (c : Chip) (d l b h : Nat) : Switched c (c.crossed d l b h) := rfl
theorem switched_cross (c : Chip) (a b h : Nat) : Switched c (c.cross a b h) := by
  unfold Chip.cross
  split
  · exact .rfl' c
  · refine Switched.foldl (fun (c : Chip) (l : Nat × Nat) => c.crossed l.1 l.2 b h) ?_ _ _
    intro c l
    exact switched_crossed c l.1 l.2 b h
theorem switched_crossings (c : Chip) (x : Pend) (d : Nat) : Switched c (c.crossings x d) := by
  unfold Chip.crossings Chip.lineCrossings
  dsimp only
  split <;> exact Switched.foldl _ (fun _ _ => switched_cross _ _ _ _) _ _
theorem switched_reissued (c : Chip) (q : Nat) (r : Req) : Switched c (c.reissued q r) := by
  unfold Chip.reissued; split
  · exact switched_bump _ _ _ _ _
  · exact .rfl' c
theorem switched_admitted (c : Chip) (p : Nat) (x : Pend) : Switched c (c.admitted p x) :=
  (switched_bump _ _ _ _ _).trans ((switched_charge _ _ _).trans (switched_crossings _ _ _))

/-- Checks 5 to 10 pass. -/
theorem admitOne_eq (c : Chip) (p : Nat) (x : Pend) (region obj off : Nat) (g : List (Nat × Nat × Nat × Nat))
    (h1 : c.inService = true ∨ c.tests x.req.src = true) (h2 : c.mcs.stewardAt = none) (h3 : c.srcLost x.req.src = false)
    (h4 : (kgetD c.parts x.part {}).st = .active)
    (h5 : c.lateChecks (c.tests x.req.src) x.part x.req = (.ok region obj off, g, c))
    (h6 : c.Fits p x.part x.req.opc x.cells.length) (hc : x.cred = none)
    (y : Pend) (hy : y = { x with region := region, obj := obj, off := off, group := g, lines := if x.req.opc = 9 ∨ x.req.opc = 10 ∨ x.req.opc = 12 then [] else (c.poolLines obj off (reqLen x.req)) }) :
    c.admitOne p x = (c.admitted p y).perform y := by
  subst hy
  unfold Chip.admitOne
  dsimp only
  have e : (!(c.inService || c.tests x.req.src) || c.mcs.stewardAt.isSome || c.srcLost x.req.src) = false := by
    rw [h2, h3]
    rcases h1 with h | h <;> rw [h] <;> simp
  rw [if_neg (by rw [e]; decide), h4]
  dsimp only
  change (match c.lateChecks (c.tests x.req.src) x.part x.req with
    | (.refuse status info, _, c) => _
    | (.ok region obj off, group, c) => _) = _
  rw [h5]
  dsimp only
  have hw : ∀ k, (c.bump k 12 [x.part]).shareWaits (portDie p) x.part x.req.opc x.cells.length = false := fun _ => h6
  rw [hw, if_neg (by decide)]
  unfold Chip.startAdmitted
  have hf : ∀ d : Chip, d.freeCred x.cred = d := by intro d; rw [hc]; rfl
  dsimp only
  rw [hf]
  have hx : ∀ b : Bool, (if b = true then x.cred else none) = x.cred := by intro b; rw [hc]; cases b <;> rfl
  rw [hx]
  split <;> rfl

/-- Checks 1 to 4 pass. -/
theorem arrive_eq (c d : Chip) (p q : Nat) (r : Req) (h : c.Takes p q r) (cells : List Nat) (hs : Switched c d) :
    d.arrive p (opcVc r.opc) r cells none = (d.reissued q r).toLocal p q r cells none := by
  obtain ⟨_, _, _, _, h4, h5, h6, h7, h8, h9, _⟩ := h
  have e8 : d.node (nodeOf r.addr) = .here q := by unfold Switched at hs; rw [hs]; exact h8
  unfold Chip.arrive
  dsimp only
  rw [e8, h6]
  dsimp only
  have hs1 : Switched c (d.reissued q r) := hs.trans (switched_reissued _ _ _)
  have hR : (if r.re = true then d.bump .gtxReissued 12 [q] else d) = d.reissued q r := rfl
  simp only [hR]
  generalize d.reissued q r = e at hs1
  unfold Switched at hs1
  have e4 : e.enabled 3 12 = true := by rw [hs1]; exact h4
  have e5 : e.tshOn p = false := by rw [hs1]; exact h5
  have e7 : needsSharer r.opc = true → e.enabled 6 12 = true ∧ (e.sharer? r.src).isSome = true := by rw [hs1]; exact h7
  have e9 : (e.node r.src).through p = true := by rw [hs1]; exact h9
  rw [e4, if_neg (by decide)]
  have en : (!false && !(true && (!needsSharer r.opc || (e.enabled 6 12 && (e.sharer? r.src).isSome)))) = false := by
    cases hn : needsSharer r.opc with
    | false => rfl
    | true => rw [(e7 hn).1, (e7 hn).2]; rfl
  rw [if_neg (by rw [en]; decide)]
  have ep : e.police p r.tc (32 + r.payload.length) = (.pass, e) := by
    unfold Chip.police; dsimp only; rw [e5, if_pos (by simp)]
  rw [ep]
  dsimp only
  rw [if_pos]
  unfold NodeKind.through at e9
  exact e9
theorem request_unlogged (c : Chip) (p q : Nat) (r : Req) (h : c.Takes p q r) (hl : opcLogged r.opc = false) (hp : r.payload = []) :
    c.request p (opcVc r.opc) r.opc r = (c.reissued q r).takeId.admitOne p { id := c.gtx.nextId, req := r, origin := .port p none, part := q } := by
  have h' := h
  obtain ⟨h1, h2, h3, hm, _⟩ := h'
  unfold Chip.request
  dsimp only
  change (match (c.port p).findReq p (opcVc r.opc) r with
    | some f => _
    | none => _) = _
  rw [h3]
  dsimp only
  rw [h1, h2, if_neg (by decide), hp]
  have e : (c.allocCells (portDie p) (cdiv ([] : Bytes).length 256) (portLocal p)) = (c, []) := by
    rw [show cdiv ([] : Bytes).length 256 = 0 from by decide, alloc_zero]
  have w : c.streamWaits { r with opc := r.opc, payload := [] } = false := by
    unfold Chip.streamWaits
    split
    · rw [hl]; rfl
    · rfl
  have er : ({ r with opc := r.opc, payload := [] } : Req) = r := by rw [← hp]
  rw [e, w, hm, if_neg (by decide), er, arrive_eq c c p q r h _ (.rfl' c)]
  unfold Chip.toLocal
  dsimp only
  rw [hl, if_pos (by decide)]
  unfold Chip.reissued
  split <;> rfl
theorem logCheck_new (c : Chip) (i t ext : Nat) (x : Dup) (he : extSeq (c.stream i).h t = ext) (f2 : (c.stream i).h.getD ext < ext + 1024)
    (f3 : (kfind? (c.stream i).log (ext % 1024)).all (fun x => x.seq != ext) = true) :
    c.logCheck i t x = .new (c.setStream i { c.stream i with h := some (max ((c.stream i).h.getD ext) ext), log := kput (c.stream i).log (ext % 1024) { seq := ext } }) := by
  unfold Chip.logCheck
  generalize c.stream i = st at *
  obtain ⟨hh, lg, hd⟩ := st
  have key : ∀ (ext : Nat), hh.getD ext < ext + 1024 → (kfind? lg (ext % 1024)).all (fun x => x.seq != ext) = true →
      (if hh.isSome ∧ ext + 1024 ≤ hh.getD ext then LogRes.stale
      else match kfind? lg (ext % 1024) with
        | some e =>
          if e.seq = ext then
            if e.done then .replay e
            else .wait (c.setStream i { h := hh, log := kput lg (ext % 1024) { e with waiters := e.waiters ++ [x] }, held := hd })
          else .new (c.setStream i { h := some (max ext (hh.getD ext)), log := kput lg (ext % 1024) { seq := ext }, held := hd })
        | none => .new (c.setStream i { h := some (max ext (hh.getD ext)), log := kput lg (ext % 1024) { seq := ext }, held := hd })) =
      .new (c.setStream i { h := some (max (hh.getD ext) ext), log := kput lg (ext % 1024) { seq := ext }, held := hd }) := by
    intro ext f2 f3
    rw [if_neg (by omega), Nat.max_comm]
    cases hk : kfind? lg (ext % 1024) with
    | none => rfl
    | some e =>
      rw [hk] at f3
      dsimp only
      rw [if_neg (by simpa using f3)]
  cases hh with
  | none => subst he; exact key _ f2 f3
  | some h => subst he; exact key _ f2 f3
theorem request_logged (c : Chip) (p q i : Nat) (r : Req) (h : c.Takes p q r) (hl : opcLogged r.opc = true) (hi : c.stream? r.src q = some i) (hf : c.FreshTag i r) :
    c.request p (opcVc r.opc) r.opc r = (c.logs p q i r).admitOne p
      { id := c.gtx.nextId, req := r, origin := .port p (some (i, r.tag % 1024)), part := q, cells := (c.allocCells (portDie p) (cdiv r.payload.length 256) (portLocal p)).2 } := by
  have h' := h
  obtain ⟨h1, h2, h3, hm, _, _, _, _, h8, _⟩ := h'
  unfold Chip.request
  dsimp only
  change (match (c.port p).findReq p (opcVc r.opc) r with
    | some f => _
    | none => _) = _
  rw [h3]
  dsimp only
  rw [h1, h2, if_neg (by decide)]
  have sa : Switched c (c.allocCells (portDie p) (cdiv r.payload.length 256) (portLocal p)).1 := switched_alloc _ _ _ _
  unfold Chip.logs
  dsimp only
  generalize c.allocCells (portDie p) (cdiv r.payload.length 256) (portLocal p) = a at sa ⊢
  obtain ⟨d, cells⟩ := a
  dsimp only at sa ⊢
  have sa' := sa
  unfold Switched at sa'
  have e8 : d.node (nodeOf r.addr) = .here q := by rw [sa']; exact h8
  have ei : d.stream? r.src q = some i := by rw [sa']; exact hi
  have es : d.stream i = c.stream i := by rw [sa']; rfl
  have w : d.streamWaits { r with opc := r.opc } = false := by
    unfold Chip.streamWaits
    rw [show nodeOf ({ r with opc := r.opc } : Req).addr = nodeOf r.addr from rfl, e8]
    dsimp only
    rw [ei, hl, Option.any_some, es, hf.1]
    rfl
  rw [w, hm, if_neg (by decide)]
  change d.arrive p (opcVc r.opc) r cells none = _
  rw [arrive_eq c d p q r h cells sa]
  have sr : Switched c (d.reissued q r) := sa.trans (switched_reissued _ _ _)
  unfold Chip.toLocal
  dsimp only
  rw [hl, if_neg (by decide)]
  generalize d.reissued q r = d2 at sr ⊢
  have sr' := sr
  unfold Switched at sr'
  have ei2 : d2.stream? r.src q = some i := by rw [sr']; exact hi
  have en2 : d2.gtx.nextId = c.gtx.nextId := by rw [sr']
  have eh : d2.node r.src = c.node r.src := by rw [sr']; rfl
  rw [ei2]
  dsimp only
  rw [eh]
  generalize hg : (d2.cross (portDie p) (match c.node r.src with
    | .ports a _ => portDie a
    | _ => portDie p) (pathHash r.addr r.tag r.src (nodeOf r.addr))) = d3
  have s3 : Switched c d3 := by rw [← hg]; exact sr.trans (switched_cross _ _ _ _)
  unfold Switched at s3
  have e3 : d3.stream i = c.stream i := by rw [s3]; rfl
  obtain ⟨_, f2, f3⟩ := hf
  rw [logCheck_new d3 i r.tag _ _ rfl (by rw [e3]; exact f2) (by rw [e3]; exact f3), e3]
  dsimp only
  rw [en2]
  rfl

theorem accessRead_req (c : Chip) (x : Pend) (o n : Nat) : (c.accessRead x o n).2.2.req = x.req := rfl
theorem worked_accessRead (c : Chip) (x : Pend) (o n : Nat) : Worked c (c.accessRead x o n).2.1 :=
  (worked_readPart _ _ _ _).trans (worked_stallAgain _ _ _ _ _)
/-- What a REDUCE does on one line: core stores, memory and counters, and the same request. -/
theorem reduceEffect_keeps (c : Chip) (x : Pend) (o n : Nat) :
    Worked c (c.reduceEffect x o n).1 ∧ (c.reduceEffect x o n).2.req = x.req := by
  have rd : ∀ (c : Chip) (x : Pend) (o n : Nat) (b : Option Bytes) (d : Chip) (y : Pend), c.accessRead x o n = (b, d, y) →
      Worked c d ∧ y.req = x.req := by
    intro c x o n b d y h
    have w := worked_accessRead c x o n
    have q := accessRead_req c x o n
    rw [h] at w q
    exact ⟨w, q⟩
  have first : ∀ (b : Option Bytes) (d : Chip) (y : Pend),
      (if o = x.off then c.accessRead x x.off x.req.payload.length else (some [], c, x)) = (b, d, y) → Worked c d ∧ y.req = x.req := by
    intro b d y h
    split at h
    · exact rd _ _ _ _ _ _ _ h
    · cases h; exact ⟨.rfl' c, rfl⟩
  unfold Chip.reduceEffect
  dsimp only
  split
  · next h =>
    have t := first _ _ _ h
    exact t
  · next h =>
    obtain ⟨w, q⟩ := first _ _ _ h
    split
    · next h1 =>
      obtain ⟨w1, q1⟩ := rd _ _ _ _ _ _ _ h1
      exact ⟨w.trans (w1.trans (worked_writeObj _ _ _ _)), q1.trans q⟩
    · next h1 =>
      obtain ⟨w1, q1⟩ := rd _ _ _ _ _ _ _ h1
      split
      · next h2 =>
        obtain ⟨w2, q2⟩ := rd _ _ _ _ _ _ _ h2
        exact ⟨w.trans (w1.trans (w2.trans (worked_writeObj _ _ _ _))), q2.trans (q1.trans q)⟩
      · next h2 =>
        obtain ⟨w2, q2⟩ := rd _ _ _ _ _ _ _ h2
        exact ⟨w.trans (w1.trans w2), q2.trans (q1.trans q)⟩
theorem reduceEffect_req (c : Chip) (x : Pend) (o n : Nat) : (c.reduceEffect x o n).2.req = x.req := (reduceEffect_keeps c x o n).2

/-- A line-class or bulk request runs its lines, each free when it is reached. -/
theorem tryLine_free (c : Chip) (x : Pend) (l : Nat × Nat) (hf : c.FreeLine x l) (h2 : x.req.opc ≠ 2) (h3 : x.req.opc ≠ 3) :
    c.tryLine x l.1 l.2 false = .done (c.onLine x l).1 (c.onLine x l).2 := by
  obtain ⟨ha, ⟨ho, hv, h7⟩, h5, ht, hh⟩ := hf
  unfold Chip.tryLine Chip.onLine
  dsimp only
  rw [ha, if_neg (by decide), if_neg h5, if_neg (by decide), ho, hv, if_neg (by decide), h7, ht]
  cases hm : c.homes x l.1 with
  | false =>
    rw [if_pos]
    · rfl
    · unfold Chip.homes at hm
      cases a : (c.obj x.obj).writable <;> simp_all
  | true =>
    obtain ⟨b, d⟩ := hh hm
    have hm' : (!(c.obj x.obj).writable || !c.enabled 6 (c.lineDie l.1)) = false := by
      unfold Chip.homes at hm; simp_all
    rw [if_neg (by rw [hm']; decide), b]
    dsimp only
    rw [if_neg (by decide), if_neg (by decide), if_neg (by decide)]
    unfold Chip.takeLine
    have e1 : (c.bump .cohLookups (c.lineDie l.1)).ent? l.1 = none := d
    generalize hB : c.bump .cohLookups (c.lineDie l.1) = B at e1
    have e2 : B.settleEnt l.1 = B := by
      unfold Chip.settleEnt; rw [e1]
    have o5 : (B.obj x.obj).st ≠ 5 := by rw [← hB]; exact h5
    have o7 : B.enabled 7 12 = true := by rw [← hB]; exact h7
    have ot : B.tierStall x l.2 = none := by rw [← hB]; exact ht
    unfold Chip.useLine
    dsimp only
    rw [e2, if_neg o5, o7, if_neg (by decide), ot, e1]
    have e3 : ∀ dev s, dirAct x.req.opc dev s none = .go := by
      intro dev s
      unfold dirAct
      dsimp only
      rw [if_neg]
      split <;> simp_all
    rw [e3]
    dsimp only
    have e4 : ∀ k, B.doLine x l.1 l.2 k = B.lineEffect x l.2 := by
      intro k
      unfold Chip.doLine
      dsimp only
      rw [if_neg o5, e1, if_neg (by decide)]
      unfold Chip.dirAfter
      dsimp only
      rw [e1]
    rw [e4, if_pos rfl]
theorem lineEffect_req (c : Chip) (x : Pend) (o : Nat) : (c.lineEffect x o).2.req = x.req := by
  unfold Chip.lineEffect
  generalize c.takeDram x o = c
  have ar : ∀ (o n : Nat) (b : Option Bytes) (d : Chip) (y : Pend), c.accessRead x o n = (b, d, y) → y.req = x.req := by
    intro o n b d y h
    have := accessRead_req c x o n
    rw [h] at this; exact this
  dsimp only
  split
  · split <;> next h => (have t := ar _ _ _ _ _ h; exact t)
  · split
    · split
      · next h =>
        have t := ar _ _ _ _ _ h
        exact t
      · next h =>
        have t := ar _ _ _ _ _ h
        split <;> exact t
    · split
      · exact reduceEffect_req _ _ _ _
      · rfl
theorem onLine_req (c : Chip) (x : Pend) (l : Nat × Nat) : (c.onLine x l).2.req = x.req := lineEffect_req _ _ _
theorem runLines_free (l : List (Nat × Nat)) : ∀ (c : Chip) (x : Pend), c.FreeLines x l → x.req.opc ≠ 2 → x.req.opc ≠ 3 → x.lines = l →
    c.runLines x false l = (c.onLines x l).1.complete (c.onLines x l).2 := by
  induction l with
  | nil =>
    intro c x _ _ _ hx
    unfold Chip.runLines Chip.onLines
    rw [← hx]
  | cons l t ih =>
    intro c x hf h2 h3 hx
    obtain ⟨f1, f2⟩ := hf
    unfold Chip.runLines Chip.onLines
    have ex : ({ x with lines := l :: t } : Pend) = x := by rw [← hx]
    rw [tryLine_free c { x with lines := l :: t } l (by rw [ex]; exact f1) h2 h3]
    dsimp only
    have g := onLine_req c { x with lines := l :: t } l
    by_cases hb : (c.onLine { x with lines := l :: t } l).2.broken
    · rw [if_pos hb, if_pos hb]
    · rw [if_neg hb, if_neg hb]
      have f2 := f2.resolve_left hb
      have onl : ∀ (c : Chip) (y : Pend) (l : List (Nat × Nat)), c.onLines { y with lines := l } l = c.onLines y l := by
        intro c y l; cases l <;> rfl
      have frl : ∀ (c : Chip) (y : Pend) (l : List (Nat × Nat)), c.FreeLines y l → c.FreeLines { y with lines := l } l := by
        intro c y l hy
        cases l with
        | nil => trivial
        | cons a b => exact hy
      rw [ih _ { (c.onLine { x with lines := l :: t } l).2 with lines := t } (frl _ _ _ f2) (by dsimp only; rw [g]; exact h2) (by dsimp only; rw [g]; exact h3) rfl, onl]

end Sys2Proof.Machine
end

