-- ==== Sys2Proof/Laws/Requests.lean ====
section
/-! SUPPORT. Answering a request, and admitted requests that run to their end. -/

set_option maxRecDepth 100000

namespace Sys2Proof.Machine

theorem quiet_sendRsp (c : Chip) (v : Option Nat) (r : Rsp) (q : Nat) (d : Option Nat) : Quiet c (c.sendRsp v r q d) := by
  unfold Chip.sendRsp
  split
  · exact quiet_modPort _ _ _
  · split
    · exact quiet_modPort _ _ _
    · exact quiet_bump _ _ _ _ _
theorem quiet_countStatus (c : Chip) (q : Option Nat) (a b : Nat) : Quiet c (c.countStatus q a b) := by
  unfold Chip.countStatus
  dsimp only
  have k : ∀ (c : Chip) (P : Prop) [Decidable P] (n : Cnt) (i : List Nat), Quiet c (if P then c.bump n 12 i else c) := by
    intro c P _ n i; split
    · exact quiet_bump _ _ _ _ _
    · exact .rfl' c
  have k' : ∀ (c : Chip) (P : Prop) [Decidable P] (n : Cnt) (i : List Nat), Quiet c (if P then c else c.bump n 12 i) := by
    intro c P _ n i; split
    · exact .rfl' c
    · exact quiet_bump _ _ _ _ _
  cases q with
  | none => exact (k _ _ _ _).trans ((k _ _ _ _).trans (k _ _ _ _))
  | some p =>
    dsimp only
    exact (k _ _ _ _).trans ((k _ _ _ _).trans ((k _ _ _ _).trans ((k' _ _ _ _).trans (k _ _ _ _))))
theorem quiet_capture (c : Chip) (r : Req) (a b : Nat) : Quiet c (c.captureRefusal r a b) := by
  unfold Chip.captureRefusal Chip.capture
  split
  · exact .rfl' c
  · split
    · exact .rfl' c
    · refine (quiet_setReg _ _ _ _ _).trans (Quiet.foldl _ (fun _ _ => quiet_setReg _ _ _ _ _) _ _)
theorem quiet_answer (c : Chip) (v q : Option Nat) (r : Req) (a b : Nat) (l : Bytes) (t u : Bool) (d : Option Nat) :
    Quiet c (c.answer v q r a b l t u d) := by
  unfold Chip.answer
  exact (quiet_countStatus _ _ _ _).trans ((quiet_capture _ _ _ _).trans (quiet_sendRsp _ _ _ _ _))
theorem quiet_setStream (c : Chip) (i : Nat) (v : Stream) : Quiet c (c.setStream i v) := quiet_of _ _ rfl rfl rfl rfl (fun h => h) fun h => h
theorem quiet_settleStream (c : Chip) (i : Nat) : Quiet c (c.settleStream i) := by
  unfold Chip.settleStream
  dsimp only
  split
  · exact .rfl' c
  · split
    · exact (quiet_setStream _ _ _).trans (quiet_setReg _ _ _ _ _)
    · exact .rfl' c
theorem quiet_freeCred (c : Chip) (x : Option (Nat × Nat × Nat)) : Quiet c (c.freeCred x) := by
  unfold Chip.freeCred
  split
  · exact .rfl' c
  · exact quiet_modPort _ _ _
theorem quiet_answerDup (c : Chip) (q : Nat) (r : Rsp) (x : Dup) : Quiet c (c.answerDup q r x) :=
  ((((switched_release _ _).quiet).trans (quiet_freeCred _ _)).trans (quiet_bump _ _ _ _ _)).trans (quiet_sendRsp _ _ _ _ _)
theorem quiet_logDone (c : Chip) (q : Nat) (l) (x : Rsp) (i : Nat) : Quiet c (c.logDone q l x i) := by
  unfold Chip.logDone
  split
  · exact .rfl' c
  · dsimp only
    split
    · exact .rfl' c
    · exact (quiet_setStream _ _ _).trans ((Quiet.foldl _ (fun _ _ => quiet_answerDup _ _ _ _) _ _).trans (quiet_settleStream _ _))
theorem quiet_complete (c : Chip) (x : Pend) (h : ∃ p l, x.origin = .port p l) : Quiet c (c.complete x) := by
  obtain ⟨p, l, h⟩ := h
  unfold Chip.complete Chip.reply
  dsimp only
  rw [h]
  dsimp only
  refine Quiet.trans (b := (c.delPend x.id).releaseCells x.cells) ?_ (Quiet.trans ?_ ((quiet_answer _ _ _ _ _ _ _ _ _ _).trans (quiet_logDone _ _ _ _ _)))
  · exact (quiet_of c (c.delPend x.id) rfl rfl rfl rfl (fun h => h) fun h => h).trans (switched_release _ _).quiet
  · split
    · exact (worked_stallAgain _ _ _ _ _).quiet
    · exact .rfl' _
theorem worked_takeDram (c : Chip) (x : Pend) (o : Nat) : Worked c (c.takeDram x o) :=
  Worked.foldl _ (fun _ _ => worked_mem _ _) _ _
theorem quiet_lineEffect (c : Chip) (x : Pend) (o : Nat) : Quiet c (c.lineEffect x o).1 := by
  refine (worked_takeDram c x o).quiet.trans ?_
  unfold Chip.lineEffect
  generalize c.takeDram x o = c
  dsimp only
  split
  · have h := worked_accessRead c x (lineSpan x o).1 (lineSpan x o).2
    split <;> (next e => rw [e] at h; exact h.quiet)
  · split
    · have h := worked_accessRead c x x.off (reqLen x.req)
      split
      · next e => rw [e] at h; exact h.quiet
      · next e =>
        rw [e] at h
        split
        · exact h.quiet
        · exact (h.trans (worked_writeObj _ _ _ _)).quiet
    · split
      · exact (reduceEffect_keeps _ _ _ _).1.quiet
      · exact (worked_writeObj _ _ _ _).quiet
theorem accessRead_origin (c : Chip) (x : Pend) (o n : Nat) : (c.accessRead x o n).2.2.origin = x.origin := rfl
theorem reduceEffect_origin (c : Chip) (x : Pend) (o n : Nat) : (c.reduceEffect x o n).2.origin = x.origin := by
  have rd : ∀ (c : Chip) (x : Pend) (o n : Nat) (b : Option Bytes) (d : Chip) (y : Pend), c.accessRead x o n = (b, d, y) →
      y.origin = x.origin := by
    intro c x o n b d y h
    have q := accessRead_origin c x o n
    rw [h] at q
    exact q
  have first : ∀ (b : Option Bytes) (d : Chip) (y : Pend),
      (if o = x.off then c.accessRead x x.off x.req.payload.length else (some [], c, x)) = (b, d, y) → y.origin = x.origin := by
    intro b d y h
    split at h
    · exact rd _ _ _ _ _ _ _ h
    · cases h; rfl
  unfold Chip.reduceEffect
  dsimp only
  split
  · next h =>
    have t := first _ _ _ h
    exact t
  · next h =>
    have q := first _ _ _ h
    split
    · next h1 => exact (rd _ _ _ _ _ _ _ h1).trans q
    · next h1 =>
      have q1 := rd _ _ _ _ _ _ _ h1
      split
      · next h2 => exact (rd _ _ _ _ _ _ _ h2).trans (q1.trans q)
      · next h2 =>
        have t := (rd _ _ _ _ _ _ _ h2).trans (q1.trans q)
        exact t
theorem lineEffect_origin (c : Chip) (x : Pend) (o : Nat) : (c.lineEffect x o).2.origin = x.origin := by
  unfold Chip.lineEffect
  generalize c.takeDram x o = c
  have ar : ∀ (o n : Nat) (b : Option Bytes) (d : Chip) (y : Pend), c.accessRead x o n = (b, d, y) → y.origin = x.origin := by
    intro o n b d y h
    have := accessRead_origin c x o n
    rw [h] at this; exact this
  dsimp only
  split
  · split <;> next h => (have t := ar _ _ _ _ _ h; exact t)
  · split
    · split
      · next h =>
        have t := ar _ _ _ _ _ h
        exact t
      · next h =>
        have t := ar _ _ _ _ _ h
        split <;> exact t
    · split
      · exact reduceEffect_origin _ _ _ _
      · rfl
theorem quiet_onLine (c : Chip) (x : Pend) (l) : Quiet c (c.onLine x l).1 := by
  unfold Chip.onLine
  split
  · exact (quiet_bump _ _ _ _ _).trans (quiet_lineEffect _ _ _)
  · exact quiet_lineEffect _ _ _
theorem onLines_keep (l : List (Nat × Nat)) : ∀ (c : Chip) (x : Pend), Quiet c (c.onLines x l).1 ∧ (c.onLines x l).2.origin = x.origin := by
  induction l with
  | nil => intro c x; exact ⟨.rfl' c, rfl⟩
  | cons a t ih =>
    intro c x
    unfold Chip.onLines
    dsimp only
    have ho : (c.onLine { x with lines := a :: t } a).2.origin = x.origin := lineEffect_origin _ _ _
    split
    · exact ⟨quiet_onLine _ _ _, ho⟩
    · obtain ⟨h1, h2⟩ := ih (c.onLine { x with lines := a :: t } a).1 (c.onLine { x with lines := a :: t } a).2
      exact ⟨(quiet_onLine _ _ _).trans h1, h2.trans ho⟩
theorem quiet_logs (c : Chip) (p q i : Nat) (r : Req) : Quiet c (c.logs p q i r) := by
  unfold Chip.logs
  exact (switched_alloc _ _ _ _).quiet.trans ((switched_reissued _ _ _).quiet.trans ((switched_cross _ _ _ _).quiet.trans (quiet_of _ _ rfl rfl rfl rfl (fun h => h) fun h => h)))
theorem logs_eq (c : Chip) (p q i : Nat) (r : Req) : ∃ w n m v g, c.logs p q i r = { c with swc := w, gtx := g, ctl := { c.ctl with cnt := n, sat := m, satEv := v } } ∧ g.shareWait = c.gtx.shareWait ∧ g.held = c.gtx.held := by
  unfold Chip.logs
  dsimp only
  generalize hd : Chip.cross _ _ _ _ = d
  have h : Switched c d := by rw [← hd]; exact (switched_alloc _ _ _ _).trans ((switched_reissued _ _ _).trans (switched_cross _ _ _ _))
  unfold Switched at h
  rw [h]
  exact ⟨_, _, _, _, _, rfl, rfl, rfl⟩
theorem form_none (v : Nat) (r : Req) (h : formOk v r = true) (hl : opcLogged r.opc = false) : r.payload = [] := by
  unfold formOk at h
  dsimp only at h
  have : r.opc = 1 ∨ r.opc = 2 ∨ r.opc = 3 ∨ r.opc = 6 ∨ ¬ (1 ≤ r.opc ∧ r.opc ≤ 12) := by
    by_contra hn
    have : opcLogged r.opc = true := by
      have : r.opc = 4 ∨ r.opc = 5 ∨ r.opc = 7 ∨ r.opc = 8 ∨ r.opc = 9 ∨ r.opc = 10 ∨ r.opc = 11 ∨ r.opc = 12 := by omega
      rcases this with h | h | h | h | h | h | h | h <;> rw [h] <;> decide
    rw [hl] at this; cases this
  rcases this with g | g | g | g | g
  all_goals try (rw [g] at h; simp at h; exact h.2.1)
  split at h <;> first | omega | simp at h
theorem wb_find (c : Chip) (pl : Nat) (en : LineEnt) (he : c.ent? pl = some en) (hl : ∀ j ∈ slotsOf en.sharers, c.slotLost j = false) (d : Nat) :
    (c.bump .cohLookups d).settleEnt pl = c.bump .cohLookups d := by
  unfold Chip.settleEnt
  have e1 : (c.bump .cohLookups d).ent? pl = some en := he
  rw [e1]
  dsimp only
  rw [if_pos]
  apply List.filter_eq_nil_iff.mpr
  intro j hj
  have : (c.bump .cohLookups d).slotLost j = c.slotLost j := rfl
  rw [this, hl j hj]; decide

section
variable (s : State) (p q region obj off : Nat) (r : Req) (hs : s.chip.Still) (ht : s.chip.Takes p q r)

include ht in
theorem ad_unlogged (hl : opcLogged r.opc = false)
    (hc : (s.chip.reissued q r).takeId.checks (if s.chip.tests r.src then Who.tester else Who.fabric) q r = (.ok region obj off, (s.chip.reissued q r).takeId)) 
    (y : Pend) (hy : y = { id := s.chip.gtx.nextId, req := r, part := q, region := region, obj := obj, off := off, origin := .port p none, lines := (s.chip.reissued q r).takeId.poolLines obj off 128 }) :
    s.chip.request p (opcVc r.opc) r.opc r = (((s.chip.reissued q r).takeId).admitted p y).perform y := by
  have hp := form_none _ r ht.2.2.2.2.2.2.1 hl
  have e : reqLen r = 128 := by
    have : r.opc = 1 ∨ r.opc = 2 ∨ r.opc = 3 ∨ r.opc = 6 := by
      have h := ht.2.2.2.2.2.2.1
      unfold formOk at h
      dsimp only at h
      by_contra hn
      have : ¬ (1 ≤ r.opc ∧ r.opc ≤ 12) := by
        intro hh
        have : opcLogged r.opc = true := by
          have : r.opc = 4 ∨ r.opc = 5 ∨ r.opc = 7 ∨ r.opc = 8 ∨ r.opc = 9 ∨ r.opc = 10 ∨ r.opc = 11 ∨ r.opc = 12 := by omega
          rcases this with h | h | h | h | h | h | h | h <;> rw [h] <;> decide
        rw [hl] at this; cases this
      split at h <;> first | omega | simp at h
    rcases this with h | h | h | h <;> simp [reqLen, h, opcDevRead]
  have o : r.opc ≠ 9 ∧ r.opc ≠ 10 ∧ r.opc ≠ 12 := by
    refine ⟨fun h => ?_, fun h => ?_, fun h => ?_⟩ <;> (rw [h] at hl; cases hl)
  rw [request_unlogged s.chip p q r ht hl hp]
  have sw : Switched s.chip (s.chip.reissued q r) := switched_reissued _ _ _
  unfold Switched at sw
  obtain ⟨t1, t2, t3, tm, t4, t5, t6, t7, t8, t9, t10, t11, t12, t13⟩ := ht
  refine admitOne_eq _ p _ region obj off [] ?_ ?_ ?_ ?_ ?_ ?_ rfl y ?_
  · rw [sw]; exact t10
  · rw [sw]; exact t11
  · rw [sw]; exact t12
  · rw [sw]; exact t13
  · have ew : ((s.chip.reissued q r).takeId).tests r.src = s.chip.tests r.src := by rw [sw]; rfl
    dsimp only
    unfold Chip.lateChecks
    rw [if_neg o.2.2, if_neg o.2.1, ew]
    dsimp only
    rw [hc]
  · rfl
  · subst hy
    dsimp only
    rw [if_neg (by simp [o]), e]
end
theorem ad_logged (s : State) (p q region obj off i : Nat) (r : Req) (g : List (Nat × Nat × Nat × Nat)) (ht : s.chip.Takes p q r) (hl : opcLogged r.opc = true) (hi : s.chip.stream? r.src q = some i) (hf : s.chip.FreshTag i r)
    (hfit : (s.chip.logs p q i r).Fits p q r.opc ((s.chip.allocCells (portDie p) (cdiv r.payload.length 256) (portLocal p)).2).length)
    (hc : (s.chip.logs p q i r).lateChecks (s.chip.tests r.src) q r = (.ok region obj off, g, s.chip.logs p q i r))
    (y : Pend) (hy : y = { id := s.chip.gtx.nextId, req := r, part := q, region := region, obj := obj, off := off, group := g, origin := .port p (some (i, r.tag % 1024)), lines := if r.opc = 9 ∨ r.opc = 10 ∨ r.opc = 12 then [] else (s.chip.logs p q i r).poolLines obj off (reqLen r), cells := (s.chip.allocCells (portDie p) (cdiv r.payload.length 256) (portLocal p)).2 }) :
    s.chip.request p (opcVc r.opc) r.opc r = ((s.chip.logs p q i r).admitted p y).perform y := by
  rw [request_logged s.chip p q i r ht hl hi hf]
  obtain ⟨w, n, m, v, g', lg, gw, gh⟩ := logs_eq s.chip p q i r
  obtain ⟨t1, t2, t3, tm, t4, t5, t6, t7, t8, t9, t10, t11, t12, t13⟩ := ht
  refine admitOne_eq _ p _ region obj off g ?_ ?_ ?_ ?_ ?_ ?_ rfl y ?_
  · rw [lg]; exact t10
  · rw [lg]; exact t11
  · rw [lg]; exact t12
  · rw [lg]; exact t13
  · have ew : (s.chip.logs p q i r).tests r.src = s.chip.tests r.src := by rw [lg]; rfl
    dsimp only
    rw [ew]
    exact hc
  · exact hfit
  · subst hy; rfl
theorem act_row (s : State) (i : Instr) (p vc opc : Nat) (r : Req) (c : Chip) (hi : exec i s = act s (s.chip.request p vc opc r)) (h1 : opc = r.opc) (h2 : vc = opcVc r.opc)
    (e : s.chip.request p (opcVc r.opc) r.opc r = c) (hq : Quiet s.chip c) (hs : s.chip.Still) : Becomes s i c := by
  subst h1; subst h2
  exact becomes s i c _ hi e hq hs
theorem ent_setEnt (c : Chip) (pl : Nat) (e : LineEnt) : (c.setEnt pl e).ent? pl = some e := kfind_kput_self _ _ _
theorem setEnt_setEnt (c : Chip) (pl : Nat) (a b : LineEnt) : (c.setEnt pl a).setEnt pl b = c.setEnt pl b := by
  unfold Chip.setEnt
  dsimp only
  rw [kput_kput]
theorem take_new (e : Chip) (y : Pend) (l : Nat × Nat) (i w : Nat) (hf : e.FreeLine y l) (hh : e.homes y l.1 = true) (ho : ∃ p k, y.origin = .port p k) (h23 : y.req.opc = 2 ∨ y.req.opc = 3) (hi : e.sharer? y.req.src = some i)
    (hw : (e.bump .cohLookups (e.lineDie l.1)).freeWay l.1 = some w) (ent : LineEnt)
    (he : ent = { st := if y.req.opc = 2 then 1 else 2, sharers := slotBit i, way := w, seq := (e.bump .cohLookups (e.lineDie l.1)).coh.seq + 1 }) :
    e.tryLine y l.1 l.2 false =
      let f := e.bump .cohLookups (e.lineDie l.1)
      let t := (({ f with coh := { f.coh with seq := f.coh.seq + 1 } } : Chip).setEnt l.1 ent).lineEffect y l.2
      .done t.1 t.2 := by
  obtain ⟨ha, ⟨hp, hv, h7⟩, h5, hts, hx⟩ := hf
  obtain ⟨b, d⟩ := hx hh
  obtain ⟨po, ko, ho⟩ := ho
  unfold Chip.tryLine
  dsimp only
  rw [ha, if_neg (by decide), if_neg h5, if_neg (by decide), hp, hv, if_neg (by decide), h7]
  have hm' : (!(e.obj y.obj).writable || !e.enabled 6 (e.lineDie l.1)) = false := by
    unfold Chip.homes at hh; simp_all
  rw [if_neg (by rw [hm']; decide), b]
  dsimp only
  rw [if_neg (by decide), if_neg (by decide), if_neg (by decide)]
  unfold Chip.takeLine Chip.useLine
  dsimp only
  have e1 : (e.bump .cohLookups (e.lineDie l.1)).ent? l.1 = none := d
  have e2 : (e.bump .cohLookups (e.lineDie l.1)).settleEnt l.1 = e.bump .cohLookups (e.lineDie l.1) := by
    unfold Chip.settleEnt; rw [e1]
  have o5 : ((e.bump .cohLookups (e.lineDie l.1)).obj y.obj).st ≠ 5 := h5
  have o7 : (e.bump .cohLookups (e.lineDie l.1)).enabled 7 12 = true := h7
  have ot : (e.bump .cohLookups (e.lineDie l.1)).tierStall y l.2 = none := hts
  rw [e2, if_neg o5, o7, if_neg (by decide), ot, e1, ho]
  dsimp only
  have e3 : ∀ s, dirAct y.req.opc false s none = .alloc := by
    intro s
    unfold dirAct
    dsimp only
    rw [if_pos]
    rcases h23 with h | h <;> simp [h]
  have g5 : (((e.bump .cohLookups (e.lineDie l.1)).newEnt l.1).obj y.obj).st ≠ 5 := h5
  have gi : ((e.bump .cohLookups (e.lineDie l.1)).newEnt l.1).sharer? y.req.src = some i := hi
  generalize hF : e.bump .cohLookups (e.lineDie l.1) = f at *
  rw [e3]
  dsimp only
  have fw : f.findWay l.1 17 = (none, f) := by unfold Chip.findWay; rw [hw, if_pos (by rfl)]
  unfold Chip.takeWay
  rw [fw]
  dsimp only
  rw [if_neg o5, hw, Option.isSome_some, if_pos rfl]
  have gn : f.newEnt l.1 = ({ f with coh := { f.coh with seq := f.coh.seq + 1 } } : Chip).setEnt l.1 { st := 1, sharers := 0, way := w, seq := f.coh.seq + 1 } := by
    unfold Chip.newEnt
    dsimp only
    have : Chip.freeWay { f with coh := { f.coh with seq := f.coh.seq + 1 } } l.1 = some w := hw
    rw [this]
    rfl
  have key : (f.newEnt l.1).doLine y l.1 l.2 false = (({ f with coh := { f.coh with seq := f.coh.seq + 1 } } : Chip).setEnt l.1 ent).lineEffect y l.2 := by
    unfold Chip.doLine
    dsimp only
    rw [ho, if_neg g5, gi, gn, ent_setEnt]
    dsimp only
    rw [Option.any_some, if_neg (show ¬ ((1 == 3) = true) by decide)]
    unfold Chip.dirAfter
    dsimp only
    rw [ent_setEnt]
    dsimp only
    rw [if_neg (by decide), he]
    rcases h23 with h | h
    · rw [h]
      dsimp only [Option.map_some, Option.getD_some]
      rw [if_neg (show ¬ (1 : Nat) = 2 by decide), setEnt_setEnt]
      have z : ((0 : BitVec 64) ||| slotBit i) = slotBit i := by simp
      rw [z]
      have q2 : (if (false && isRead 2) = true then 1 else 2) = 2 := by decide
      simp only [q2, if_true]
      rw [setEnt_setEnt]
    · rw [h]
      dsimp only [Option.map_some, Option.getD_some]
      simp only [setEnt_setEnt]
      rfl
  rw [key]
theorem runLines_one (c d : Chip) (y z : Pend) (l : Nat × Nat) (hz : z.req.opc ≠ 11) (h : c.tryLine { y with lines := [l] } l.1 l.2 false = .done d z) :
    c.runLines y false [l] = d.complete { z with lines := [] } := by
  unfold Chip.runLines
  rw [h]
  dsimp only
  rw [if_neg (fun g => hz g.1)]
  unfold Chip.runLines
  rfl
theorem q_new (c d : Chip) (y : Pend) (o p : Nat) (k) (q : Quiet c d) (yo : y.origin = .port p k) :
    Quiet c ((d.lineEffect y o).1.complete { (d.lineEffect y o).2 with lines := [] }) := by
  refine q.trans ((quiet_lineEffect d y o).trans (quiet_complete _ _ ⟨p, k, ?_⟩))
  dsimp only
  rw [lineEffect_origin, yo]
theorem q_ent (e : Chip) (n pl : Nat) (ent : LineEnt) :
    Quiet e (({ (e.bump .cohLookups n) with coh := { (e.bump .cohLookups n).coh with seq := (e.bump .cohLookups n).coh.seq + 1 } } : Chip).setEnt pl ent) :=
  quiet_of _ _ rfl rfl rfl rfl (fun h => h) fun h => h
section rows
variable (s : State) (p : Nat) (r : Req) (e : Chip) (y : Pend) (hs : s.chip.Still) (main : s.chip.request p (opcVc r.opc) r.opc r = e.perform y)
  (qe : Quiet s.chip e) (yr : y.req = r) (k : Option (Nat × Nat)) (yo : y.origin = .port p k)
include hs main qe yr yo

theorem row_lines (hfr : e.FreeLines y y.lines) (i : Instr) (vc opc : Nat) (hi : exec i s = act s (s.chip.request p vc opc r)) (ho : opc = 1 ∨ opc = 4 ∨ opc = 7 ∨ opc = 8 ∨ opc = 11)
    (hv : vc = opcVc opc) (hr : r.opc = opc) : Becomes s i ((e.onLines y y.lines).1.complete (e.onLines y y.lines).2) := by
  refine act_row s i p vc opc r _ hi hr.symm (by rw [hr]; exact hv) ?_ ?_ hs
  · rw [main]
    unfold Chip.perform
    rw [yr, hr]
    rcases ho with rfl | rfl | rfl | rfl | rfl <;>
    exact runLines_free _ _ _ hfr (by rw [yr, hr]; decide) (by rw [yr, hr]; decide) rfl
  · exact qe.trans ((onLines_keep _ _ _).1.trans (quiet_complete _ _ ⟨p, k, by rw [(onLines_keep _ _ _).2, yo]⟩))
theorem row_new (l : Nat × Nat) (j w : Nat) (hl : y.lines = [l]) (hj : e.sharer? r.src = some j) (hfr : e.FreeLine y l) (hh : e.homes y l.1 = true)
    (hw : (e.bump .cohLookups (e.lineDie l.1)).freeWay l.1 = some w) (i : Instr) (opc : Nat) (hi : exec i s = act s (s.chip.request p 0 opc r)) (ho : opc = 2 ∨ opc = 3) (hr : r.opc = opc)
    (ent : LineEnt) (he : ent = { st := if opc = 2 then 1 else 2, sharers := slotBit j, way := w, seq := (e.bump .cohLookups (e.lineDie l.1)).coh.seq + 1 }) :
    let f := e.bump .cohLookups (e.lineDie l.1)
    let t := (({ f with coh := { f.coh with seq := f.coh.seq + 1 } } : Chip).setEnt l.1 ent).lineEffect y l.2
    Becomes s i (t.1.complete { t.2 with lines := [] }) := by
  refine act_row s i p 0 opc r _ hi hr.symm (by rw [hr]; rcases ho with rfl | rfl <;> rfl) ?_ ?_ hs
  · rw [main]
    unfold Chip.perform
    have ey : ({ y with lines := [l] } : Pend) = y := by rw [← hl]
    have t := take_new e y l j w hfr hh ⟨p, k, yo⟩ (by rw [yr, hr]; exact ho) (by rw [yr, hj]) hw ent (by rw [he, yr, hr])
    rw [yr, hr]
    rw [hl]
    have hz : ∀ (c : Chip), (c.lineEffect y l.2).2.req.opc ≠ 11 := by
      intro c
      rw [lineEffect_req, yr, hr]
      rcases ho with rfl | rfl <;> decide
    rcases ho with rfl | rfl <;> exact runLines_one _ _ _ _ _ (hz _) (by rw [ey]; exact t)
  · exact q_new s.chip _ y l.2 p k (qe.trans (q_ent e _ l.1 ent)) yo
theorem row_owned (l : Nat × Nat) (j : Nat) (en : LineEnt) (hl : y.lines = [l]) (hj : e.sharer? r.src = some j) (h1 : e.ent? l.1 = some en) (h2 : en.sharers.getLsbD j = true)
    (h3 : ∀ j ∈ slotsOf en.sharers, e.slotLost j = false) (hr : e.Reaches y l.1) (hts : e.tierStall y y.off = none) :
    (r.opc = 6 → en.st = 2 → Becomes s (.evict p 0 r) (((e.bump .cohLookups (e.lineDie l.1)).delEnt l.1).complete y)) ∧
    (r.opc = 6 → en.st = 1 → Becomes s (.evict p 0 r) ((if en.sharers &&& ~~~ slotBit j = 0 then (e.bump .cohLookups (e.lineDie l.1)).delEnt l.1
      else (e.bump .cohLookups (e.lineDie l.1)).setEnt l.1 { en with sharers := en.sharers &&& ~~~ slotBit j }).complete y)) ∧
    (r.opc = 5 → en.st = 2 → Becomes s (.wb p 0 r) (((((e.bump .cohLookups (e.lineDie l.1)).delEnt l.1).takeDram y y.off).writeObj y.obj y.off r.payload).complete y)) := by
  have e1 : (e.bump .cohLookups (e.lineDie l.1)).ent? l.1 = some en := h1
  have e2 : (e.bump .cohLookups (e.lineDie l.1)).sharer? y.req.src = some j := by rw [yr]; exact hj
  have e3 := wb_find e l.1 en h1 h3 (e.lineDie l.1)
  have q1 := quiet_bump e .cohLookups (e.lineDie l.1) [] 1
  obtain ⟨r1, r2, r3⟩ := hr
  have run : e.runWb y l.1 = (e.wbEvict y l.1).complete y := by
    unfold Chip.runWb
    dsimp only
    rw [r1, r2, r3, if_neg (by decide), hts, ite_self]
  generalize hF : e.bump .cohLookups (e.lineDie l.1) = f at *
  refine ⟨fun h6 h4 => ?_, fun h6 h4 => ?_, fun h5 h4 => ?_⟩
  · refine act_row s _ p 0 6 r _ rfl h6.symm (by rw [h6]; rfl) ?_ ?_ hs
    · rw [main]
      unfold Chip.perform
      rw [yr, h6, hl]
      dsimp only
      rw [run]
      unfold Chip.wbEvict
      rw [hF, e3]
      dsimp only
      rw [e1, e2]
      dsimp only
      rw [yr, h6, if_neg (by decide), Option.any_some, h2, if_pos ⟨rfl, h4⟩]
      rfl
    · exact qe.trans (q1.trans (Quiet.trans (b := Chip.delEnt _ l.1) (quiet_of _ _ rfl rfl rfl rfl (fun h => h) fun h => h) (quiet_complete _ _ ⟨p, k, yo⟩)))
  · refine act_row s _ p 0 6 r _ rfl h6.symm (by rw [h6]; rfl) ?_ ?_ hs
    · rw [main]
      unfold Chip.perform
      rw [yr, h6, hl]
      dsimp only
      rw [run]
      unfold Chip.wbEvict
      rw [hF, e3]
      dsimp only
      rw [e1, e2]
      dsimp only
      rw [yr, h6, if_neg (by decide), Option.any_some, h2, if_neg (by rw [h4]; decide), if_pos ⟨rfl, h4⟩, Option.getD_some]
      rfl
    · refine qe.trans (q1.trans (Quiet.trans ?_ (quiet_complete _ _ ⟨p, k, yo⟩)))
      split <;> exact quiet_of _ _ rfl rfl rfl rfl (fun h => h) fun h => h
  · refine act_row s _ p 0 5 r _ rfl h5.symm (by rw [h5]; rfl) ?_ ?_ hs
    · rw [main]
      unfold Chip.perform
      rw [yr, h5, hl]
      dsimp only
      rw [run]
      unfold Chip.wbEvict
      rw [hF, e3]
      dsimp only
      rw [e1, e2]
      dsimp only
      rw [yr, h5, if_pos rfl, Option.any_some, h2, if_pos ⟨h4, rfl⟩]
      rfl
    · exact qe.trans (q1.trans (Quiet.trans (b := Chip.delEnt _ l.1) (quiet_of _ _ rfl rfl rfl rfl (fun h => h) fun h => h) (((worked_takeDram _ _ _).trans (worked_writeObj _ _ _ _)).quiet.trans (quiet_complete _ _ ⟨p, k, yo⟩))))
end rows

theorem sharer_adm (c d : Chip) (p n : Nat) (y : Pend) (h : d.sharer? n = c.sharer? n) : (d.admitted p y).sharer? n = c.sharer? n := by
  have g : Switched d (d.admitted p y) := switched_admitted _ _ _
  unfold Switched at g
  rw [g]
  exact h

theorem quiet_takeId (c : Chip) : Quiet c c.takeId := quiet_of _ _ rfl rfl rfl rfl (fun h => h) fun h => h
theorem quiet_addEnq (c : Chip) (d : DevReq) (p : Nat) (m : EMsg) : Quiet c ((c.addDevReq d).enqueue p m) := quiet_of _ _ rfl rfl rfl rfl (fun h => h) fun h => h
theorem quiet_putOnPort (c : Chip) (d : DevReq) (p : Nat) : Quiet c (c.putOnPort d p) := by
  unfold Chip.putOnPort
  exact (switched_alloc _ _ _ _).quiet.trans (quiet_addEnq _ _ _ _)
theorem quiet_issueOut (c : Chip) (d : DevReq) : Quiet c (c.issueOut d) := by
  have hold : Quiet c (c.holdDevReq d) := quiet_of _ _ rfl rfl rfl rfl (fun h => h) fun h => h
  unfold Chip.issueOut
  dsimp only
  split
  · exact hold
  · have tag : Quiet c (if d.logged = true then { c with gtx := { c.gtx with nextTag := kput c.gtx.nextTag (d.part * 4096 + d.dst) ((((if d.logged = true then kgetD c.gtx.nextTag (d.part * 4096 + d.dst) 0 else c.freeTag d.part d.dst (kgetD c.gtx.nextTag (d.part * 4096 + d.dst) 0)) + 1) % 65536)) } } else c) := by
      split
      · exact quiet_of _ _ rfl rfl rfl rfl (fun h => h) fun h => h
      · exact .rfl' c
    split
    · exact tag.trans (quiet_of _ _ rfl rfl rfl rfl (fun h => h) fun h => h)
    · split
      · exact tag.trans (quiet_putOnPort _ _ _)
      · exact hold.trans (quiet_bump _ _ _ _ _)
theorem quiet_issue (c : Chip) (q : Nat) (o : Owner) (r : Req) (ks : List Nat) (h1 : (c.localNode q).isSome = true) (h2 : c.node (nodeOf r.addr) ≠ .none) (h3 : ∀ y, c.node (nodeOf r.addr) ≠ .here y) :
    Quiet c (c.issue q o r ks) := by
  unfold Chip.issue
  cases hn : c.localNode q with
  | none => rw [hn] at h1; cases h1
  | some n =>
    dsimp only
    unfold Chip.issueTo
    have e : c.takeId.node (c.newDevReq q n o r).dst = c.node (nodeOf r.addr) := rfl
    rw [e]
    split
    · exact (quiet_takeId _).trans (quiet_issueOut _ _)
    · next h => exact absurd h (h3 _)
    · next h => exact absurd h h2
theorem kept_node {c d : Chip} (h : d.ctl.regs = c.ctl.regs) (n : Nat) : d.node n = c.node n := by
  unfold Chip.node Chip.reg; rw [h]
theorem kept_local {c d : Chip} (h : d.ctl.regs = c.ctl.regs) (n : Nat) : d.localNode n = c.localNode n := by
  unfold Chip.localNode Chip.idxs; rw [h]
theorem kept_target {c d : Chip} (h : d.ctl.regs = c.ctl.regs) (g k : Nat) : d.groupTarget g k = c.groupTarget g k := by
  unfold Chip.groupTarget Chip.reg; rw [h]
/-- The targets go out, one after the other, on the state that the earlier ones left. -/
theorem targets_fold (e : Chip) (x : Pend) (q : Nat) (tg : Nat → Nat × Nat × Nat × Nat) (hq : x.part = q) (hl : (e.localNode q).isSome = true) (l : List Nat) :
    (∀ k ∈ l, x.group.getD k (0, 0, 0, 0) = tg k ∧ e.node (nodeOf (((tg k).1 + offOf x.req.addr) % 2 ^ 64)) ≠ .none ∧ ∀ y, e.node (nodeOf (((tg k).1 + offOf x.req.addr) % 2 ^ 64)) ≠ .here y) →
    ∀ f : Chip, f.ctl.regs = e.ctl.regs →
    l.foldl (fun c k => c.mTarget x k) f = l.foldl (fun e' k => e'.issue q (.mTarget x.id k)
          { opc := if (tg k).2.2.2 = 1 then 9 else 8, addr := ((tg k).1 + offOf x.req.addr) % 2 ^ 64, handle := (tg k).2.1,
            epoch := (tg k).2.2.1, payload := x.req.payload } x.cells) f ∧ Quiet f (l.foldl (fun c k => c.mTarget x k) f) := by
  induction l with
  | nil => intro _ f _; exact ⟨rfl, .rfl' f⟩
  | cons k t ih =>
    intro hk f hf
    obtain ⟨k0, k1, k2⟩ := hk k List.mem_cons_self
    have e1 : f.mTarget x k = f.issue q (.mTarget x.id k)
          { opc := if (tg k).2.2.2 = 1 then 9 else 8, addr := ((tg k).1 + offOf x.req.addr) % 2 ^ 64, handle := (tg k).2.1,
            epoch := (tg k).2.2.1, payload := x.req.payload } x.cells := by
      unfold Chip.mTarget
      dsimp only
      rw [k0, kept_node hf, hq]
      split
      · rfl
      · next h => exact absurd h k1
      · next h => exact absurd h (k2 _)
    have q1 : Quiet f (f.mTarget x k) := by
      rw [e1]
      exact quiet_issue _ _ _ _ _ (by rw [kept_local hf]; exact hl) (by rw [kept_node hf]; exact k1) (fun y => by rw [kept_node hf]; exact k2 y)
    have r1 : (f.mTarget x k).ctl.regs = e.ctl.regs := by rw [e1]; exact (kept_issue _ _ _ _ _).regs.trans hf
    obtain ⟨a, b⟩ := ih (fun j hj => hk j (List.mem_cons_of_mem _ hj)) _ r1
    refine ⟨?_, q1.trans b⟩
    rw [List.foldl_cons, List.foldl_cons, a, e1]
theorem quiet_sendMsg (c : Chip) (x : Session) (q : QMsg) : Quiet c (c.sendMsg x q).1 := by
  unfold Chip.sendMsg
  refine Quiet.trans ?_ (quiet_sendReq _ _ _ _ _)
  exact quiet_modSession _ _ _
theorem quiet_pump (c : Chip) (i : Nat) : Quiet c (c.pumpMsgs i) := by
  unfold Chip.pumpMsgs
  split
  · exact .rfl' c
  · next s _ =>
    split
    · exact .rfl' c
    · dsimp only
      refine Quiet.trans (b := (c.mgt.queue.foldl (fun (r : Chip × List QMsg) q =>
        if q.peer = i ∧ (q.sentAt = none ∨ q.sess ≠ s.id) then
          let t := r.1.sendMsg s q
          (t.1, r.2 ++ [t.2])
        else (r.1, r.2 ++ [q])) (c, [])).1) ?_ (quiet_setQueue _ _)
      have k : ∀ (l : List QMsg) (a : Chip × List QMsg), Quiet a.1 (l.foldl (fun (r : Chip × List QMsg) q =>
        if q.peer = i ∧ (q.sentAt = none ∨ q.sess ≠ s.id) then
          let t := r.1.sendMsg s q
          (t.1, r.2 ++ [t.2])
        else (r.1, r.2 ++ [q])) a).1 := by
        intro l
        induction l with
        | nil => intro a; exact .rfl' _
        | cons x t ih =>
          intro a
          rw [List.foldl_cons]
          refine Quiet.trans ?_ (ih _)
          split
          · exact quiet_sendMsg _ _ _
          · exact .rfl' _
      exact k _ (c, [])
theorem win_at (c : Chip) (q o : Nat) (w : Win) (h : c.windowAt q o = some w) (hq : w.query = false) : c.win w.idx = w := by
  have m := List.mem_of_find?_eq_some h
  unfold Chip.windows at m
  have m := List.mem_of_mem_filter m
  rcases List.mem_append.mp m with m | m
  · obtain ⟨i, _, rfl⟩ := List.mem_map.mp m
    rfl
  · obtain ⟨i, _, rfl⟩ := List.mem_map.mp m
    cases hq
/-- A part that fills no set only marks it. -/
theorem markPart_eq (c : Chip) (w : Win) (slot d o : Nat) (b : Bytes) (ks : List Nat) (hq : w.query = false) (hf : (markBytes (c.slot (w.key slot d)).bytes o b).1.length ≠ w.setBytes) :
    ∃ a z n m v, c.markPart w slot d o b ks = { c with swc := a, dsp := { c.dsp with sets := z }, ctl := { c.ctl with cnt := n, sat := m, satEv := v } } := by
  have h := switched_takeRefs c ks
  unfold Switched at h
  unfold Chip.markPart
  dsimp only
  rw [hq]
  have e : ∀ (b : Nat), (if (c.slot (w.key slot d)).phase = 0 then { c.slot (w.key slot d) with phase := 1, openTick := c.tick } else c.slot (w.key slot d)).bytes = (c.slot (w.key slot d)).bytes := by
    intro _; split <;> rfl
  simp only [Bool.false_eq_true, if_false]
  rw [e 0, if_neg (by simpa using hf), h]
  split <;> exact ⟨_, _, _, _, _, rfl⟩
/-- Parts that are taken at once are marked, one after the other. -/
theorem marks_fold (w : Win) (ks : List Nat) (hq : w.query = false) (l : List HeldStore) :
    ∀ e : Chip, Chip.Marks w ks e l → e.win w.idx = w → e.gtx.held = [] →
      (∀ h ∈ l, h.query = false ∧ h.win = w.idx ∧ h.lo = 0 ∧ h.bytes.length ≤ 4096) →
      l.foldl (fun c h => c.bringPart h ks) e = l.foldl (fun c h => c.partMarked w ks h) e ∧
      (l.foldl (fun c h => c.partMarked w ks h) e).gtx = e.gtx ∧ Quiet e (l.foldl (fun c h => c.partMarked w ks h) e) := by
  induction l with
  | nil => intro e _ _ _ _; exact ⟨rfl, rfl, .rfl' e⟩
  | cons h t ih =>
    intro e hm hw hh hl
    obtain ⟨m1, m2, m3, m4, m5⟩ := hm
    obtain ⟨g1, g2, g3, g4⟩ := hl h List.mem_cons_self
    have st := switched_takeRefs e (h.refs ks)
    have st' := st
    unfold Switched at st
    obtain ⟨a, z, n, m, v, he⟩ := markPart_eq (e.takeRefs (h.refs ks)) w h.slot h.die h.off h.bytes (cellsOf ks 0 h.bytes.length) hq m4
    have sr := switched_release ((e.takeRefs (h.refs ks)).markPart w h.slot h.die h.off h.bytes (cellsOf ks 0 h.bytes.length)) (h.refs ks)
    have pm : (e.partMarked w ks h).gtx = e.gtx ∧ (e.partMarked w ks h).win w.idx = w ∧ Quiet e (e.partMarked w ks h) := by
      unfold Chip.partMarked
      have q : Quiet (e.takeRefs (h.refs ks)) ((e.takeRefs (h.refs ks)).markPart w h.slot h.die h.off h.bytes (cellsOf ks 0 h.bytes.length)) := by
        rw [he]; exact quiet_of _ _ rfl rfl rfl rfl (fun h => h) fun h => h
      refine ⟨?_, ?_, st'.quiet.trans (q.trans sr.quiet)⟩
      · unfold Switched at sr
        rw [sr, he, st]
      · unfold Switched at sr
        rw [sr, he, st]
        exact hw
    have bp : e.bringPart h ks = e.partMarked w ks h := by
      have qp : e.queuePart h ks = (e.takeRefs (h.refs ks), { h with queued := true }) := by
        unfold Chip.queuePart
        rw [g3, m1, if_pos]
        rw [Bool.and_true, List.all_eq_true]
        intro b _
        have : e.replUsed h.src b = 0 := by unfold Chip.replUsed; rw [hh]; rfl
        rw [this]
        unfold HeldStore.pointers
        rw [g3]
        simp only [decide_eq_true_eq]
        omega
      unfold Chip.bringPart
      rw [qp]
      dsimp only
      have hh' : (e.takeRefs (h.refs ks)).gtx.held = [] := by rw [st]; exact hh
      have hw' : (e.takeRefs (h.refs ks)).win w.idx = w := by rw [st]; exact hw
      rw [if_neg]
      · unfold Chip.markHeld
        dsimp only
        rw [g1, g2, hw', g3, if_neg (by decide), if_neg (by decide)]
        have : ({ die := h.die, win := w.idx, slot := h.slot, off := h.off, bytes := h.bytes, pend := h.pend, part := h.part, src := h.src, bowls := h.bowls, queued := true } : HeldStore).refs ks = h.refs ks := by
          unfold HeldStore.refs; rw [g3]
        unfold Chip.partMarked
        rw [this]
      · rw [hh']
        unfold Chip.mustHold
        dsimp only
        rw [g1, g2, hw', if_neg (by decide), if_neg (by decide), m2, m3]
        simp
    rw [List.foldl_cons, List.foldl_cons, bp]
    obtain ⟨i1, i2, i3⟩ := ih (e.partMarked w ks h) m5 pm.2.1 (by rw [pm.1]; exact hh) (fun x hx => hl x (List.mem_cons_of_mem _ hx))
    exact ⟨i1, i2.trans pm.1, pm.2.2.trans i3⟩

section
variable (s : State) (p q i region : Nat) (r : Req) (e : Chip) (x : Pend) (hs : s.chip.Still) (main : s.chip.request p (opcVc r.opc) r.opc r = e.perform x)
  (qe : Quiet s.chip e) (xr : x.req = r) (xo : x.origin = .port p (some (i, r.tag % 1024))) (xp : x.part = q) 
include hs main qe xr xo xp
theorem row_msg (h : r.opc = 12) (hq : (e.queued q).length < 255) :
    Becomes s (.msg p 1 r) (((e.setQueue (e.mgt.queue ++ [{ part := q, peer := fieldB r.payload 2 1 % 16, bytes := r.payload }])).pumpMsgs (fieldB r.payload 2 1 % 16)).complete x) := by
  refine act_row s _ p 1 12 r _ rfl h.symm (by rw [h]; rfl) ?_ (qe.trans ((quiet_setQueue _ _).trans ((quiet_pump _ _).trans (quiet_complete _ _ ⟨p, _, xo⟩)))) hs
  rw [main]
  unfold Chip.perform
  rw [xr, h, xp]
  change (if 256 ≤ (e.queued q).length then (e.releaseCells x.cells).reply x 1 0 [] else (e.queueMsg q r.payload).complete x) = _
  rw [if_neg (by omega)]
  unfold Chip.queueMsg
  dsimp only
  have e1 : ((e.setQueue (e.mgt.queue ++ [{ part := q, peer := fieldB r.payload 2 1 % 16, bytes := r.payload }])).queued q).length = (e.queued q).length + 1 := by
    unfold Chip.queued Chip.setQueue
    dsimp only
    rw [List.filter_append, List.length_append]
    simp
  have e2 : (((e.setQueue (e.mgt.queue ++ [{ part := q, peer := fieldB r.payload 2 1 % 16, bytes := r.payload }])).queued q).length == 256) = false := by
    rw [e1]; simp; omega
  rw [e2]
  rfl
omit i xo in
theorem row_mstore (h : r.opc = 10) (hl : (e.localNode q).isSome = true)
    (hn : ∀ k < (e.groupHead (r.opnd % 4096)).2.2, e.node (nodeOf (((e.groupTarget (r.opnd % 4096) k).1 + offOf r.addr) % 2 ^ 64)) ≠ .none ∧
      ∀ y, e.node (nodeOf (((e.groupTarget (r.opnd % 4096) k).1 + offOf r.addr) % 2 ^ 64)) ≠ .here y)
    (hg : x.group = (List.range (e.groupHead (r.opnd % 4096)).2.2).map (e.groupTarget (r.opnd % 4096))) (hc : x.cred = none)
    (m : MStore) (hm : m = { id := x.id, req := r, origin := x.origin, part := q, left := List.range (e.groupHead (r.opnd % 4096)).2.2 }) :
    Becomes s (.mstore p 1 r) ((List.range (e.groupHead (r.opnd % 4096)).2.2).foldl (fun e' k =>
        e'.issue q (.mTarget x.id k)
          { opc := if (e.groupTarget (r.opnd % 4096) k).2.2.2 = 1 then 9 else 8, addr := ((e.groupTarget (r.opnd % 4096) k).1 + offOf r.addr) % 2 ^ 64, handle := (e.groupTarget (r.opnd % 4096) k).2.1,
            epoch := (e.groupTarget (r.opnd % 4096) k).2.2.1, payload := r.payload } x.cells)
        ((({ e with gtx := { e.gtx with mstores := e.gtx.mstores ++ [m] } } : Chip).takeRefs
          ((List.range (e.groupHead (r.opnd % 4096)).2.2).flatMap fun _ => x.cells)).releaseCells x.cells)) := by
  have hk : ∀ k ∈ List.range (e.groupHead (r.opnd % 4096)).2.2, x.group.getD k (0, 0, 0, 0) = e.groupTarget (r.opnd % 4096) k := by
    intro k hk
    rw [hg, List.getD_eq_getElem?_getD, List.getElem?_map, List.getElem?_range (List.mem_range.mp hk)]
    rfl
  generalize hf : Chip.releaseCells _ _ = f
  have sw : Switched { e with gtx := { e.gtx with mstores := e.gtx.mstores ++ [m] } } f := by
    rw [← hf]; exact (switched_takeRefs _ _).trans (switched_release _ _)
  have fr : f.ctl.regs = e.ctl.regs := by unfold Switched at sw; rw [sw]
  have tf := targets_fold e x q (e.groupTarget (r.opnd % 4096)) xp hl (List.range (e.groupHead (r.opnd % 4096)).2.2)
    (fun k h => ⟨hk k h, by rw [xr]; exact hn k (List.mem_range.mp h)⟩) f fr
  rw [xr] at tf
  rw [← tf.1]
  refine act_row s _ p 1 10 r _ rfl h.symm (by rw [h]; rfl) ?_ (qe.trans (Quiet.trans (b := { e with gtx := { e.gtx with mstores := e.gtx.mstores ++ [m] } }) (quiet_of _ _ rfl rfl rfl rfl (fun h => h) fun h => h) (sw.quiet.trans tf.2))) hs
  rw [main]
  unfold Chip.perform
  rw [xr, h]
  change e.mstore x = _
  have ht : e.localTriggers x = [] := by
    unfold Chip.localTriggers
    rw [List.filter_eq_nil_iff]
    intro k h
    rw [hg, List.length_map, List.length_range] at h
    have hk := hk k h
    obtain ⟨n1, n2⟩ := hn k (List.mem_range.mp h)
    dsimp only
    rw [hk, xr]
    split
    · next y hy => exact absurd hy (n2 y)
    · simp
  have hlen : x.group.length = (e.groupHead (r.opnd % 4096)).2.2 := by rw [hg]; simp
  unfold Chip.mstore
  dsimp only
  rw [ht, if_pos rfl, if_pos rfl, hc, hlen, xr, xp, ← hf, hm]
  rfl
theorem row_tstore (h : r.opc = 9) (hh : e.gtx.held = []) (hc : x.cred = none) (hgot : x.got = none) (w : Win) (hw : e.windowAt q (offOf r.addr) = some w) (hq : w.query = false) (hb : r.payload ≠ [])
    (hmax : r.payload.length ≤ 4096) (hlen : (offOf r.addr - w.base) % w.setBytes + r.payload.length ≤ w.setBytes)
    (e1 : Chip) (he1 : e1 = { e with gtx := { e.gtx with tstores := (e.gtx.tstores.filter fun t => t.id != x.id) ++ [{ id := x.id, pend := x }] } })
    (hm : Chip.Marks w x.cells e1 (w.dies.map (e.wholePart x w))) :
    let f := (w.dies.map (e.wholePart x w)).foldl (fun f h => f.partMarked w x.cells h) e1
    Becomes s (.tstore p 1 r)
      (({ f with gtx := { f.gtx with tstores := f.gtx.tstores.filter fun t => t.id != x.id } } : Chip).complete x) := by
  have parts : e1.rangeParts x 0 x.arrived = w.dies.map (e.wholePart x w) := by
    have sp : storeParts w (r.payload.length + 1) (offOf r.addr - w.base) r.payload = [((offOf r.addr - w.base) / w.setBytes, (offOf r.addr - w.base) % w.setBytes, r.payload)] := by
      obtain ⟨n, hn⟩ : ∃ n, r.payload.length = n + 1 := ⟨r.payload.length - 1, by have : 0 < r.payload.length := List.length_pos_iff.mpr hb; omega⟩
      unfold storeParts
      rw [if_neg hb]
      dsimp only
      have t1 : r.payload.take (w.setBytes - (offOf r.addr - w.base) % w.setBytes) = r.payload := List.take_of_length_le (by omega)
      have t2 : r.payload.drop (w.setBytes - (offOf r.addr - w.base) % w.setBytes) = [] := List.drop_of_length_le (by omega)
      rw [t1, t2, hn]
      unfold storeParts
      rw [if_pos rfl]
    have ar : x.arrived = r.payload.length := by unfold Pend.arrived; rw [hgot, xr]
    have sl : sliceB r.payload 0 (r.payload.length - 0) = r.payload := by
      unfold sliceB; simp
    have mp : e1.markedParts w (offOf r.addr - w.base + 0) r.payload = storeParts w (r.payload.length + 1) (offOf r.addr - w.base) r.payload := by
      unfold Chip.markedParts
      rw [hq]
      rfl
    have hw1 : e1.windowAt q (offOf r.addr) = some w := by rw [he1]; exact hw
    have lo : (offOf r.addr - w.base) / w.setBytes * w.setBytes + (offOf r.addr - w.base) % w.setBytes - (offOf r.addr - w.base) = 0 := by
      have := Nat.div_add_mod (offOf r.addr - w.base) w.setBytes
      rw [Nat.mul_comm] at this; omega
    unfold Chip.rangeParts
    dsimp only
    rw [xp, xr, hw1]
    dsimp only
    rw [ar, sl, mp, sp, List.flatMap_cons, List.flatMap_nil, List.append_nil, hq]
    apply List.map_congr_left
    intro d _
    unfold Chip.wholePart
    dsimp only
    rw [lo, xr, xp, he1]
    rfl
  intro f
  have held1 : e1.gtx.held = [] := by rw [he1]; exact hh
  obtain ⟨f1, f2, f3⟩ := marks_fold w x.cells hq (w.dies.map (e.wholePart x w)) e1 hm (by rw [he1]; exact win_at e q _ w hw hq) held1 (by
    intro y hy
    obtain ⟨d, _, rfl⟩ := List.mem_map.mp hy
    refine ⟨rfl, rfl, rfl, ?_⟩
    unfold Chip.wholePart
    rw [xr]; exact hmax)
  have q1 : Quiet e e1 := by rw [he1]; exact quiet_of _ _ rfl rfl rfl rfl (fun h => h) fun h => h
  have q2 : Quiet f { f with gtx := { f.gtx with tstores := f.gtx.tstores.filter fun t => t.id != x.id } } :=
    quiet_of _ _ rfl rfl rfl rfl (fun h => h) fun h => h
  refine act_row s _ p 1 9 r _ rfl h.symm (by rw [h]; rfl) ?_ (qe.trans (q1.trans (f3.trans (q2.trans (quiet_complete _ _ ⟨p, _, xo⟩))))) hs
  rw [main]
  unfold Chip.perform
  rw [xr, h]
  change e.tstore x = _
  unfold Chip.tstore
  dsimp only
  rw [← he1]
  unfold Chip.storeRange
  rw [parts, f1]
  change f.tstoreEnd x.id = _
  have fg : f.gtx = e1.gtx := f2
  have find : f.tstore? x.id = some { id := x.id, pend := x } := by
    unfold Chip.tstore?
    rw [fg, he1, List.find?_append]
    have : (e.gtx.tstores.filter fun t => t.id != x.id).find? (fun t => t.id == x.id) = none := by
      rw [List.find?_eq_none]
      intro y hy
      have := (List.mem_filter.mp hy).2
      simpa using this
    rw [this]
    simp
  have fh : f.gtx.held = [] := by rw [fg]; exact held1
  unfold Chip.tstoreEnd
  rw [find]
  dsimp only
  rw [hgot, fh, if_neg (by decide), List.filter_nil, if_pos (by rfl), if_pos rfl]
  have : ({ x with cred := none, cells := x.cells } : Pend) = x := by rw [← hc]
  refine Eq.trans ?_ (congrArg _ this)
  rw [hc, hgot]
  rfl
end


end Sys2Proof.Machine
end

