-- ==== Sys2Proof/Laws/Compute.lean ====
section
/-! SUPPORT. What the operations of scoreboards, kernels and checks leave alone: they add nothing left over. -/

namespace Sys2Proof.Machine

theorem quiet_release (c : Chip) (l : List Nat) : Quiet c (c.releaseCells l) := (switched_release c l).quiet
theorem quiet_takeRefs (c : Chip) (l : List Nat) : Quiet c (c.takeRefs l) := (switched_takeRefs c l).quiet
theorem quiet_alloc (c : Chip) (d n a : Nat) : Quiet c (c.allocCells d n a).1 := (switched_alloc c d n a).quiet
theorem quiet_setSlot (c : Chip) (k : Nat) (v : SetCopy) : Quiet c (c.setSlot k v) := quiet_of _ _ rfl rfl rfl rfl (fun h => h) fun h => h
theorem quiet_dsp (c : Chip) (d : Dispatch) (h : ∀ f ∈ d.fills, f ∈ c.dsp.fills)
    (g : (∀ k ∈ c.dsp.checks, k.waits = false) → ∀ k ∈ d.checks, k.waits = false) : Quiet c { c with dsp := d } :=
  ⟨rfl, rfl, .rfl' _, rfl, fun h => h, fun q => ⟨fun f hf => q.1 f (h f hf), g q.2.1, q.2.2⟩⟩
theorem mem_delFirst {α : Type} (p : α → Bool) (l : List α) : ∀ x ∈ delFirst p l, x ∈ l := by
  induction l with
  | nil => intro x h; cases h
  | cons y t ih =>
    intro x h
    unfold delFirst at h
    split at h
    · exact List.mem_cons_of_mem _ h
    · rcases List.mem_cons.mp h with e | e
      · exact e ▸ List.mem_cons_self
      · exact List.mem_cons_of_mem _ (ih x e)
theorem mem_modFirst {α : Type} (p : α → Bool) (f : α → α) (l : List α) : ∀ x ∈ modFirst p f l, x ∈ l ∨ ∃ y ∈ l, x = f y := by
  induction l with
  | nil => intro x h; cases h
  | cons y t ih =>
    intro x h
    unfold modFirst at h
    split at h
    · rcases List.mem_cons.mp h with e | e
      · exact .inr ⟨y, List.mem_cons_self, e⟩
      · exact .inl (List.mem_cons_of_mem _ e)
    · rcases List.mem_cons.mp h with e | e
      · exact .inl (e ▸ List.mem_cons_self)
      · rcases ih x e with a | ⟨z, hz, a⟩
        · exact .inl (List.mem_cons_of_mem _ a)
        · exact .inr ⟨z, List.mem_cons_of_mem _ hz, a⟩
theorem quiet_eng (c : Chip) (e) : Quiet c { c with eng := e } := quiet_of _ _ rfl rfl rfl rfl (fun h => h) fun h => h
theorem quiet_cores (c : Chip) (e : Cores) (h : ∀ x ∈ e.ctx, x ∈ c.cores.ctx ∨ x.2.wantsCredit = false) : Quiet c { c with cores := e } :=
  ⟨rfl, rfl, .rfl' _, rfl, fun h => h, fun q => ⟨q.1, q.2.1, fun x hx => (h x hx).elim (q.2.2 x) id⟩⟩
theorem quiet_sft (c : Chip) (e : Sft) (h : c.Admitted → ({ c with sft := e } : Chip).Admitted) :
    Quiet c { c with sft := e } := ⟨rfl, rfl, .rfl' _, rfl, h, fun h => h⟩
theorem quiet_mem (c : Chip) (e) : Quiet c { c with mem := e } := quiet_of _ _ rfl rfl rfl rfl (fun h => h) fun h => h
theorem quiet_setLaunch (c : Chip) (l : Launch) : Quiet c (c.setLaunch l) := quiet_dsp _ _ (fun _ h => h) id
theorem quiet_delLaunch (c : Chip) (l : Nat) : Quiet c (c.delLaunch l) := quiet_dsp _ _ (fun _ h => h) id
theorem quiet_setCheck (c : Chip) (k : Check) (h : k.waits = false) : Quiet c (c.setCheck k) :=
  quiet_dsp _ _ (fun _ h => h) fun q x hx => (mem_modFirst _ _ _ x hx).elim (q x) fun ⟨_, _, e⟩ => e ▸ h
theorem quiet_setOp (c : Chip) (o : EngOp) : Quiet c (c.setOp o) := quiet_eng _ _
theorem quiet_addOp (c : Chip) (o : EngOp) : Quiet c (c.addOp o) := quiet_eng _ _
theorem quiet_engBump (c : Chip) (k : Cnt) (e n : Nat) : Quiet c (c.engBump k e n) := quiet_bump _ _ _ _ _
theorem quiet_modService (c : Chip) (l : Launch) (f : Service → Service) : Quiet c (c.modService l f) := by
  unfold Chip.modService
  split
  · exact .rfl' c
  · exact quiet_dsp _ _ (fun _ h => h) id
theorem quiet_discardSet (c : Chip) (k : Nat) : Quiet c (c.discardSet k) := (quiet_release _ _).trans (quiet_setSlot _ _ _)
theorem quiet_draw (c : Chip) : Quiet c c.draw.2 := quiet_of _ _ rfl rfl rfl rfl (fun h => h) fun h => h
theorem quiet_measure (c : Chip) : Quiet c c.measure.2 := by
  unfold Chip.measure; split
  · exact quiet_draw c
  · exact .rfl' c
theorem quiet_launchStall (c : Chip) (i k : Nat) : Quiet c (c.launchStall i k) := by
  unfold Chip.launchStall; split
  · exact .rfl' c
  · split
    · exact .rfl' c
    · exact ((quiet_setLaunch _ _).trans (quiet_bump _ _ _ _ _)).trans (quiet_modService _ _ _)
theorem quiet_noteWaits (c : Chip) : Quiet c c.noteWaits := by
  unfold Chip.noteWaits
  refine Quiet.foldl _ (fun c l => ?_) _ _
  dsimp only
  split
  · exact (quiet_setLaunch _ _).trans (quiet_launchStall _ _ _)
  · split
    · exact (quiet_setLaunch _ _).trans (quiet_launchStall _ _ _)
    · exact quiet_setLaunch _ _
theorem quiet_setCtx (c : Chip) (k : Nat) (x : CtxSt) (h : x.wantsCredit = false) : Quiet c (c.setCtx k x) :=
  quiet_cores _ _ fun y hy => (mem_kput _ _ _ y hy).elim (fun e => .inr (e ▸ h)) .inl
theorem quiet_modCtx (c : Chip) (k : Nat) (f : CtxSt → CtxSt) (h : ∀ x, (f x).wantsCredit = false) : Quiet c (c.modCtx k f) := by
  unfold Chip.modCtx; split
  · exact quiet_setCtx _ _ _ (h _)
  · exact .rfl' c
theorem quiet_setRun (c : Chip) (i : Nat) (r : Run) : Quiet c (c.setRun i r) := quiet_dsp _ _ (fun _ h => h) id
theorem quiet_endRun (c : Chip) (i : Nat) : Quiet c (c.endRun i) :=
  quiet_of _ _ rfl rfl rfl rfl (fun h => h) fun h => ⟨h.1, h.2.1, fun x hx => h.2.2 x (List.mem_of_mem_filter hx)⟩
theorem quiet_endStreams (c : Chip) (i : Nat) : Quiet c (c.endStreams i) :=
  quiet_dsp _ _ (fun _ hf => List.mem_of_mem_filter hf) id
theorem quiet_setValid (c : Chip) (k s : Nat) (v : Bool) : Quiet c (c.setValid k s v) := (worked_setValid _ _ _ _).quiet
theorem quiet_wrStore (c : Chip) (k o : Nat) (b : Bytes) : Quiet c (c.wrStore k o b) := (worked_wrStore _ _ _ _).quiet
theorem quiet_setScalar (c : Chip) (k r : Nat) (v : BitVec 64) : Quiet c (c.setScalar k r v) := quiet_cores _ _ fun _ h => .inl h
theorem quiet_scalars (c : Chip) (sc : KMap (BitVec 64)) : Quiet c { c with cores := { c.cores with scalar := sc } } :=
  quiet_cores _ _ fun _ h => .inl h
theorem quiet_settleSlot (c : Chip) (w s d : Nat) : Quiet c (c.settleSlot w s d) := by
  unfold Chip.settleSlot; dsimp only; split
  · exact (quiet_release _ _).trans (quiet_setSlot _ _ _)
  · exact .rfl' c
theorem quiet_fanIn (c : Chip) (d : Desc) (b x : Nat) (o : Bytes) : Quiet c (c.fanIn d b x o) := by
  unfold Chip.fanIn
  refine Quiet.foldl _ (fun c k => ?_) _ _
  dsimp only
  exact (((quiet_wrStore _ _ _ _).trans (quiet_setValid _ _ _ _)).trans (quiet_scalars _ _)).trans
    (Quiet.foldl _ (fun _ _ => quiet_setScalar _ _ _ _) _ _)
theorem quiet_startRun (c : Chip) (id p b x : Nat) (w : List Word) (o i : Bytes) : Quiet c (c.startRun id p b x w o i) := by
  unfold Chip.startRun
  exact (quiet_fanIn _ _ _ _ _).trans ((Quiet.foldl _ (fun _ _ => quiet_setCtx _ _ _ rfl) _ _).trans (quiet_setRun _ _ _))
theorem quiet_countNans (c : Chip) (k n : Nat) : Quiet c (c.countNans k n) := by
  unfold Chip.countNans; split
  · exact .rfl' c
  · exact quiet_bump _ _ _ _ _
theorem quiet_putOut (c : Chip) (i p : Nat) (b : Bytes) : Quiet c (c.putOut i p b) := by
  unfold Chip.putOut; split
  · exact .rfl' c
  · exact quiet_setRun _ _ _
theorem quiet_sample (c : Chip) (l : Launch) : Quiet c (c.sample l).2 := by
  unfold Chip.sample; split
  · exact .rfl' c
  · exact quiet_dsp _ _ (fun _ h => h) id
theorem quiet_lessChecks (c : Chip) (p : Check → Bool) : Quiet c { c with dsp := { c.dsp with checks := delFirst p c.dsp.checks } } :=
  quiet_dsp _ _ (fun _ h => h) fun q k hk => q k (mem_delFirst _ _ k hk)
theorem quiet_delCheck (c : Chip) (k : Check) : Quiet c (c.delCheck k) := (quiet_lessChecks _ _).trans (quiet_release _ _)
theorem quiet_dropCheck (c : Chip) (k : Check) : Quiet c (c.dropCheck k) :=
  ((((quiet_lessChecks _ _).trans (quiet_endRun _ _)).trans (quiet_endStreams _ _)).trans (quiet_release _ _)).trans (quiet_bump _ _ _ _ _)
theorem quiet_noCheck (c : Chip) (k : Check) : Quiet c (c.noCheck k) := by
  unfold Chip.noCheck; split
  · exact quiet_dropCheck _ _
  · exact (quiet_delCheck _ _).trans (quiet_bump _ _ _ _ _)
theorem quiet_engDiscard (c : Chip) (i : Nat) : Quiet c (c.engDiscard i) := by
  unfold Chip.engDiscard
  refine Quiet.foldl _ (fun c o => ?_) _ _
  dsimp only
  split
  · exact .rfl' c
  · exact (quiet_setOp _ _).trans (quiet_engBump _ _ _ _)
theorem quiet_putResid (c : Chip) (a b n o : Nat) : Quiet c (c.putResid a b n o) := quiet_dsp _ _ (fun _ h => h) id
theorem quiet_stall (c : Chip) (i p : Nat) (l : List Nat) : Quiet c (c.stall i p l) := (worked_stall _ _ _ _).quiet

theorem quiet_droppedLaunch (c : Chip) (l : Launch) : Quiet c (c.droppedLaunch l) :=
  (((((quiet_delLaunch _ _).trans (quiet_endRun _ _)).trans (quiet_endStreams _ _)).trans (quiet_bump _ _ _ _ _)).trans
    (quiet_release _ _)).trans (quiet_settleSlot _ _ _ _)

/-- A given-up launch that feeds no engine and waits on no fill leaves the state of `Chip.droppedLaunch`. -/
theorem dropLaunch_eq (c : Chip) (l : Launch) (h3 : l.phase ≠ 3) (hf : c.dsp.fills = []) (he : c.eng.ops = []) (hb : c.cores.bowlHeld = []) :
    c.dropLaunch l = c.droppedLaunch l := by
  have sw : ∀ (d : Chip) (k : List Nat), (d.releaseCells k).dsp = d.dsp ∧ (d.releaseCells k).cores = d.cores := by
    intro d k
    have h := switched_release d k
    unfold Switched at h
    exact ⟨by rw [h], by rw [h]⟩
  have f3 : ∀ d : Chip, d.eng.ops = [] → d.engGiveUp l.id = d := by
    intro d h; unfold Chip.engGiveUp; rw [h]; rfl
  have g : ∀ d : Chip, (d.settleSlot l.win l.slot l.die).dsp.fills = d.dsp.fills ∧ (d.settleSlot l.win l.slot l.die).cores = d.cores := by
    intro d; unfold Chip.settleSlot; dsimp only; split
    · refine ⟨?_, ?_⟩
      · show (Chip.releaseCells d _).dsp.fills = _
        rw [(sw d _).1]
      · show (Chip.releaseCells d _).cores = _
        rw [(sw d _).2]
    · exact ⟨rfl, rfl⟩
  unfold Chip.dropLaunch
  dsimp only
  rw [if_neg h3, f3 ((((c.delLaunch l.id).endRun l.id).endStreams l.id).bump .dspGivenUp 12 [l.part]) he]
  change ((c.droppedLaunch l).unblockFills).bowlRelease = _
  have k1 : (c.droppedLaunch l).dsp.fills = [] := by
    unfold Chip.droppedLaunch
    rw [(g _).1, (sw _ _).1]
    change c.dsp.fills.filter _ = []
    rw [hf]; rfl
  have k2 : (c.droppedLaunch l).cores.bowlHeld = [] := by
    unfold Chip.droppedLaunch
    rw [(g _).2, (sw _ _).2]; exact hb
  rw [unblockFills_nil _ k1, bowlRelease_nil _ k2]

end Sys2Proof.Machine
end

