-- ==== Sys2Proof/Laws/State.lean ====
section
/-! SUPPORT. What each named update of one block of the module leaves unchanged: one lemma for each update and
each other field, so that no proof unfolds a record update. -/

namespace Sys2Proof.Machine

variable (c : Chip)

/-! `Chip.setReg` -/
@[simp] theorem Chip.setReg_pins (r : Reg) (die : Nat) (i : List Nat) (v : Nat) : (c.setReg r die i v).pins = c.pins := rfl
@[simp] theorem Chip.setReg_boot (r : Reg) (die : Nat) (i : List Nat) (v : Nat) : (c.setReg r die i v).boot = c.boot := rfl
@[simp] theorem Chip.setReg_mcs (r : Reg) (die : Nat) (i : List Nat) (v : Nat) : (c.setReg r die i v).mcs = c.mcs := rfl
@[simp] theorem Chip.setReg_dump (r : Reg) (die : Nat) (i : List Nat) (v : Nat) : (c.setReg r die i v).dump = c.dump := rfl
@[simp] theorem Chip.setReg_cores (r : Reg) (die : Nat) (i : List Nat) (v : Nat) : (c.setReg r die i v).cores = c.cores := rfl
@[simp] theorem Chip.setReg_gtx (r : Reg) (die : Nat) (i : List Nat) (v : Nat) : (c.setReg r die i v).gtx = c.gtx := rfl
@[simp] theorem Chip.setReg_coh (r : Reg) (die : Nat) (i : List Nat) (v : Nat) : (c.setReg r die i v).coh = c.coh := rfl
@[simp] theorem Chip.setReg_swc (r : Reg) (die : Nat) (i : List Nat) (v : Nat) : (c.setReg r die i v).swc = c.swc := rfl
@[simp] theorem Chip.setReg_lnk (r : Reg) (die : Nat) (i : List Nat) (v : Nat) : (c.setReg r die i v).lnk = c.lnk := rfl
@[simp] theorem Chip.setReg_dsp (r : Reg) (die : Nat) (i : List Nat) (v : Nat) : (c.setReg r die i v).dsp = c.dsp := rfl
@[simp] theorem Chip.setReg_eng (r : Reg) (die : Nat) (i : List Nat) (v : Nat) : (c.setReg r die i v).eng = c.eng := rfl
@[simp] theorem Chip.setReg_mem (r : Reg) (die : Nat) (i : List Nat) (v : Nat) : (c.setReg r die i v).mem = c.mem := rfl
@[simp] theorem Chip.setReg_sft (r : Reg) (die : Nat) (i : List Nat) (v : Nat) : (c.setReg r die i v).sft = c.sft := rfl
@[simp] theorem Chip.setReg_sec (r : Reg) (die : Nat) (i : List Nat) (v : Nat) : (c.setReg r die i v).sec = c.sec := rfl
@[simp] theorem Chip.setReg_parts (r : Reg) (die : Nat) (i : List Nat) (v : Nat) : (c.setReg r die i v).parts = c.parts := rfl
@[simp] theorem Chip.setReg_irq (r : Reg) (die : Nat) (i : List Nat) (v : Nat) : (c.setReg r die i v).irq = c.irq := rfl
@[simp] theorem Chip.setReg_mgt (r : Reg) (die : Nat) (i : List Nat) (v : Nat) : (c.setReg r die i v).mgt = c.mgt := rfl
@[simp] theorem Chip.setReg_pwr (r : Reg) (die : Nat) (i : List Nat) (v : Nat) : (c.setReg r die i v).pwr = c.pwr := rfl
@[simp] theorem Chip.setReg_draws (r : Reg) (die : Nat) (i : List Nat) (v : Nat) : (c.setReg r die i v).draws = c.draws := rfl

/-! `Chip.putStage` -/
@[simp] theorem Chip.putStage_pins (a : Nat) (v : Word) : (c.putStage a v).pins = c.pins := rfl
@[simp] theorem Chip.putStage_boot (a : Nat) (v : Word) : (c.putStage a v).boot = c.boot := rfl
@[simp] theorem Chip.putStage_mcs (a : Nat) (v : Word) : (c.putStage a v).mcs = c.mcs := rfl
@[simp] theorem Chip.putStage_dump (a : Nat) (v : Word) : (c.putStage a v).dump = c.dump := rfl
@[simp] theorem Chip.putStage_cores (a : Nat) (v : Word) : (c.putStage a v).cores = c.cores := rfl
@[simp] theorem Chip.putStage_gtx (a : Nat) (v : Word) : (c.putStage a v).gtx = c.gtx := rfl
@[simp] theorem Chip.putStage_coh (a : Nat) (v : Word) : (c.putStage a v).coh = c.coh := rfl
@[simp] theorem Chip.putStage_swc (a : Nat) (v : Word) : (c.putStage a v).swc = c.swc := rfl
@[simp] theorem Chip.putStage_lnk (a : Nat) (v : Word) : (c.putStage a v).lnk = c.lnk := rfl
@[simp] theorem Chip.putStage_dsp (a : Nat) (v : Word) : (c.putStage a v).dsp = c.dsp := rfl
@[simp] theorem Chip.putStage_eng (a : Nat) (v : Word) : (c.putStage a v).eng = c.eng := rfl
@[simp] theorem Chip.putStage_mem (a : Nat) (v : Word) : (c.putStage a v).mem = c.mem := rfl
@[simp] theorem Chip.putStage_sft (a : Nat) (v : Word) : (c.putStage a v).sft = c.sft := rfl
@[simp] theorem Chip.putStage_sec (a : Nat) (v : Word) : (c.putStage a v).sec = c.sec := rfl
@[simp] theorem Chip.putStage_parts (a : Nat) (v : Word) : (c.putStage a v).parts = c.parts := rfl
@[simp] theorem Chip.putStage_irq (a : Nat) (v : Word) : (c.putStage a v).irq = c.irq := rfl
@[simp] theorem Chip.putStage_mgt (a : Nat) (v : Word) : (c.putStage a v).mgt = c.mgt := rfl
@[simp] theorem Chip.putStage_pwr (a : Nat) (v : Word) : (c.putStage a v).pwr = c.pwr := rfl
@[simp] theorem Chip.putStage_draws (a : Nat) (v : Word) : (c.putStage a v).draws = c.draws := rfl

/-! `Chip.dropStage` -/
@[simp] theorem Chip.dropStage_pins (as : List Nat) : (c.dropStage as).pins = c.pins := rfl
@[simp] theorem Chip.dropStage_boot (as : List Nat) : (c.dropStage as).boot = c.boot := rfl
@[simp] theorem Chip.dropStage_mcs (as : List Nat) : (c.dropStage as).mcs = c.mcs := rfl
@[simp] theorem Chip.dropStage_dump (as : List Nat) : (c.dropStage as).dump = c.dump := rfl
@[simp] theorem Chip.dropStage_cores (as : List Nat) : (c.dropStage as).cores = c.cores := rfl
@[simp] theorem Chip.dropStage_gtx (as : List Nat) : (c.dropStage as).gtx = c.gtx := rfl
@[simp] theorem Chip.dropStage_coh (as : List Nat) : (c.dropStage as).coh = c.coh := rfl
@[simp] theorem Chip.dropStage_swc (as : List Nat) : (c.dropStage as).swc = c.swc := rfl
@[simp] theorem Chip.dropStage_lnk (as : List Nat) : (c.dropStage as).lnk = c.lnk := rfl
@[simp] theorem Chip.dropStage_dsp (as : List Nat) : (c.dropStage as).dsp = c.dsp := rfl
@[simp] theorem Chip.dropStage_eng (as : List Nat) : (c.dropStage as).eng = c.eng := rfl
@[simp] theorem Chip.dropStage_mem (as : List Nat) : (c.dropStage as).mem = c.mem := rfl
@[simp] theorem Chip.dropStage_sft (as : List Nat) : (c.dropStage as).sft = c.sft := rfl
@[simp] theorem Chip.dropStage_sec (as : List Nat) : (c.dropStage as).sec = c.sec := rfl
@[simp] theorem Chip.dropStage_parts (as : List Nat) : (c.dropStage as).parts = c.parts := rfl
@[simp] theorem Chip.dropStage_irq (as : List Nat) : (c.dropStage as).irq = c.irq := rfl
@[simp] theorem Chip.dropStage_mgt (as : List Nat) : (c.dropStage as).mgt = c.mgt := rfl
@[simp] theorem Chip.dropStage_pwr (as : List Nat) : (c.dropStage as).pwr = c.pwr := rfl
@[simp] theorem Chip.dropStage_draws (as : List Nat) : (c.dropStage as).draws = c.draws := rfl

/-! `Chip.hold` -/
@[simp] theorem Chip.hold_pins (a w : Nat) : (c.hold a w).pins = c.pins := rfl
@[simp] theorem Chip.hold_boot (a w : Nat) : (c.hold a w).boot = c.boot := rfl
@[simp] theorem Chip.hold_mcs (a w : Nat) : (c.hold a w).mcs = c.mcs := rfl
@[simp] theorem Chip.hold_dump (a w : Nat) : (c.hold a w).dump = c.dump := rfl
@[simp] theorem Chip.hold_cores (a w : Nat) : (c.hold a w).cores = c.cores := rfl
@[simp] theorem Chip.hold_gtx (a w : Nat) : (c.hold a w).gtx = c.gtx := rfl
@[simp] theorem Chip.hold_coh (a w : Nat) : (c.hold a w).coh = c.coh := rfl
@[simp] theorem Chip.hold_swc (a w : Nat) : (c.hold a w).swc = c.swc := rfl
@[simp] theorem Chip.hold_lnk (a w : Nat) : (c.hold a w).lnk = c.lnk := rfl
@[simp] theorem Chip.hold_dsp (a w : Nat) : (c.hold a w).dsp = c.dsp := rfl
@[simp] theorem Chip.hold_eng (a w : Nat) : (c.hold a w).eng = c.eng := rfl
@[simp] theorem Chip.hold_mem (a w : Nat) : (c.hold a w).mem = c.mem := rfl
@[simp] theorem Chip.hold_sft (a w : Nat) : (c.hold a w).sft = c.sft := rfl
@[simp] theorem Chip.hold_sec (a w : Nat) : (c.hold a w).sec = c.sec := rfl
@[simp] theorem Chip.hold_parts (a w : Nat) : (c.hold a w).parts = c.parts := rfl
@[simp] theorem Chip.hold_irq (a w : Nat) : (c.hold a w).irq = c.irq := rfl
@[simp] theorem Chip.hold_mgt (a w : Nat) : (c.hold a w).mgt = c.mgt := rfl
@[simp] theorem Chip.hold_pwr (a w : Nat) : (c.hold a w).pwr = c.pwr := rfl
@[simp] theorem Chip.hold_draws (a w : Nat) : (c.hold a w).draws = c.draws := rfl

/-! `Chip.busResp` -/
@[simp] theorem Chip.busResp_pins (st v : Nat) : (c.busResp st v).pins = c.pins := rfl
@[simp] theorem Chip.busResp_boot (st v : Nat) : (c.busResp st v).boot = c.boot := rfl
@[simp] theorem Chip.busResp_mcs (st v : Nat) : (c.busResp st v).mcs = c.mcs := rfl
@[simp] theorem Chip.busResp_dump (st v : Nat) : (c.busResp st v).dump = c.dump := rfl
@[simp] theorem Chip.busResp_cores (st v : Nat) : (c.busResp st v).cores = c.cores := rfl
@[simp] theorem Chip.busResp_gtx (st v : Nat) : (c.busResp st v).gtx = c.gtx := rfl
@[simp] theorem Chip.busResp_coh (st v : Nat) : (c.busResp st v).coh = c.coh := rfl
@[simp] theorem Chip.busResp_swc (st v : Nat) : (c.busResp st v).swc = c.swc := rfl
@[simp] theorem Chip.busResp_lnk (st v : Nat) : (c.busResp st v).lnk = c.lnk := rfl
@[simp] theorem Chip.busResp_dsp (st v : Nat) : (c.busResp st v).dsp = c.dsp := rfl
@[simp] theorem Chip.busResp_eng (st v : Nat) : (c.busResp st v).eng = c.eng := rfl
@[simp] theorem Chip.busResp_mem (st v : Nat) : (c.busResp st v).mem = c.mem := rfl
@[simp] theorem Chip.busResp_sft (st v : Nat) : (c.busResp st v).sft = c.sft := rfl
@[simp] theorem Chip.busResp_sec (st v : Nat) : (c.busResp st v).sec = c.sec := rfl
@[simp] theorem Chip.busResp_parts (st v : Nat) : (c.busResp st v).parts = c.parts := rfl
@[simp] theorem Chip.busResp_irq (st v : Nat) : (c.busResp st v).irq = c.irq := rfl
@[simp] theorem Chip.busResp_mgt (st v : Nat) : (c.busResp st v).mgt = c.mgt := rfl
@[simp] theorem Chip.busResp_pwr (st v : Nat) : (c.busResp st v).pwr = c.pwr := rfl
@[simp] theorem Chip.busResp_draws (st v : Nat) : (c.busResp st v).draws = c.draws := rfl

/-! `Chip.setCtx` -/
@[simp] theorem Chip.setCtx_pins (k : Nat) (x : CtxSt) : (c.setCtx k x).pins = c.pins := rfl
@[simp] theorem Chip.setCtx_boot (k : Nat) (x : CtxSt) : (c.setCtx k x).boot = c.boot := rfl
@[simp] theorem Chip.setCtx_mcs (k : Nat) (x : CtxSt) : (c.setCtx k x).mcs = c.mcs := rfl
@[simp] theorem Chip.setCtx_dump (k : Nat) (x : CtxSt) : (c.setCtx k x).dump = c.dump := rfl
@[simp] theorem Chip.setCtx_ctl (k : Nat) (x : CtxSt) : (c.setCtx k x).ctl = c.ctl := rfl
@[simp] theorem Chip.setCtx_gtx (k : Nat) (x : CtxSt) : (c.setCtx k x).gtx = c.gtx := rfl
@[simp] theorem Chip.setCtx_coh (k : Nat) (x : CtxSt) : (c.setCtx k x).coh = c.coh := rfl
@[simp] theorem Chip.setCtx_swc (k : Nat) (x : CtxSt) : (c.setCtx k x).swc = c.swc := rfl
@[simp] theorem Chip.setCtx_lnk (k : Nat) (x : CtxSt) : (c.setCtx k x).lnk = c.lnk := rfl
@[simp] theorem Chip.setCtx_dsp (k : Nat) (x : CtxSt) : (c.setCtx k x).dsp = c.dsp := rfl
@[simp] theorem Chip.setCtx_eng (k : Nat) (x : CtxSt) : (c.setCtx k x).eng = c.eng := rfl
@[simp] theorem Chip.setCtx_mem (k : Nat) (x : CtxSt) : (c.setCtx k x).mem = c.mem := rfl
@[simp] theorem Chip.setCtx_sft (k : Nat) (x : CtxSt) : (c.setCtx k x).sft = c.sft := rfl
@[simp] theorem Chip.setCtx_sec (k : Nat) (x : CtxSt) : (c.setCtx k x).sec = c.sec := rfl
@[simp] theorem Chip.setCtx_parts (k : Nat) (x : CtxSt) : (c.setCtx k x).parts = c.parts := rfl
@[simp] theorem Chip.setCtx_irq (k : Nat) (x : CtxSt) : (c.setCtx k x).irq = c.irq := rfl
@[simp] theorem Chip.setCtx_mgt (k : Nat) (x : CtxSt) : (c.setCtx k x).mgt = c.mgt := rfl
@[simp] theorem Chip.setCtx_pwr (k : Nat) (x : CtxSt) : (c.setCtx k x).pwr = c.pwr := rfl
@[simp] theorem Chip.setCtx_draws (k : Nat) (x : CtxSt) : (c.setCtx k x).draws = c.draws := rfl

/-! `Chip.setScalar` -/
@[simp] theorem Chip.setScalar_pins (k r : Nat) (v : BitVec 64) : (c.setScalar k r v).pins = c.pins := rfl
@[simp] theorem Chip.setScalar_boot (k r : Nat) (v : BitVec 64) : (c.setScalar k r v).boot = c.boot := rfl
@[simp] theorem Chip.setScalar_mcs (k r : Nat) (v : BitVec 64) : (c.setScalar k r v).mcs = c.mcs := rfl
@[simp] theorem Chip.setScalar_dump (k r : Nat) (v : BitVec 64) : (c.setScalar k r v).dump = c.dump := rfl
@[simp] theorem Chip.setScalar_ctl (k r : Nat) (v : BitVec 64) : (c.setScalar k r v).ctl = c.ctl := rfl
@[simp] theorem Chip.setScalar_gtx (k r : Nat) (v : BitVec 64) : (c.setScalar k r v).gtx = c.gtx := rfl
@[simp] theorem Chip.setScalar_coh (k r : Nat) (v : BitVec 64) : (c.setScalar k r v).coh = c.coh := rfl
@[simp] theorem Chip.setScalar_swc (k r : Nat) (v : BitVec 64) : (c.setScalar k r v).swc = c.swc := rfl
@[simp] theorem Chip.setScalar_lnk (k r : Nat) (v : BitVec 64) : (c.setScalar k r v).lnk = c.lnk := rfl
@[simp] theorem Chip.setScalar_dsp (k r : Nat) (v : BitVec 64) : (c.setScalar k r v).dsp = c.dsp := rfl
@[simp] theorem Chip.setScalar_eng (k r : Nat) (v : BitVec 64) : (c.setScalar k r v).eng = c.eng := rfl
@[simp] theorem Chip.setScalar_mem (k r : Nat) (v : BitVec 64) : (c.setScalar k r v).mem = c.mem := rfl
@[simp] theorem Chip.setScalar_sft (k r : Nat) (v : BitVec 64) : (c.setScalar k r v).sft = c.sft := rfl
@[simp] theorem Chip.setScalar_sec (k r : Nat) (v : BitVec 64) : (c.setScalar k r v).sec = c.sec := rfl
@[simp] theorem Chip.setScalar_parts (k r : Nat) (v : BitVec 64) : (c.setScalar k r v).parts = c.parts := rfl
@[simp] theorem Chip.setScalar_irq (k r : Nat) (v : BitVec 64) : (c.setScalar k r v).irq = c.irq := rfl
@[simp] theorem Chip.setScalar_mgt (k r : Nat) (v : BitVec 64) : (c.setScalar k r v).mgt = c.mgt := rfl
@[simp] theorem Chip.setScalar_pwr (k r : Nat) (v : BitVec 64) : (c.setScalar k r v).pwr = c.pwr := rfl
@[simp] theorem Chip.setScalar_draws (k r : Nat) (v : BitVec 64) : (c.setScalar k r v).draws = c.draws := rfl

/-! `Chip.setStream` -/
@[simp] theorem Chip.setStream_pins (i : Nat) (v : Stream) : (c.setStream i v).pins = c.pins := rfl
@[simp] theorem Chip.setStream_boot (i : Nat) (v : Stream) : (c.setStream i v).boot = c.boot := rfl
@[simp] theorem Chip.setStream_mcs (i : Nat) (v : Stream) : (c.setStream i v).mcs = c.mcs := rfl
@[simp] theorem Chip.setStream_dump (i : Nat) (v : Stream) : (c.setStream i v).dump = c.dump := rfl
@[simp] theorem Chip.setStream_ctl (i : Nat) (v : Stream) : (c.setStream i v).ctl = c.ctl := rfl
@[simp] theorem Chip.setStream_cores (i : Nat) (v : Stream) : (c.setStream i v).cores = c.cores := rfl
@[simp] theorem Chip.setStream_coh (i : Nat) (v : Stream) : (c.setStream i v).coh = c.coh := rfl
@[simp] theorem Chip.setStream_swc (i : Nat) (v : Stream) : (c.setStream i v).swc = c.swc := rfl
@[simp] theorem Chip.setStream_lnk (i : Nat) (v : Stream) : (c.setStream i v).lnk = c.lnk := rfl
@[simp] theorem Chip.setStream_dsp (i : Nat) (v : Stream) : (c.setStream i v).dsp = c.dsp := rfl
@[simp] theorem Chip.setStream_eng (i : Nat) (v : Stream) : (c.setStream i v).eng = c.eng := rfl
@[simp] theorem Chip.setStream_mem (i : Nat) (v : Stream) : (c.setStream i v).mem = c.mem := rfl
@[simp] theorem Chip.setStream_sft (i : Nat) (v : Stream) : (c.setStream i v).sft = c.sft := rfl
@[simp] theorem Chip.setStream_sec (i : Nat) (v : Stream) : (c.setStream i v).sec = c.sec := rfl
@[simp] theorem Chip.setStream_parts (i : Nat) (v : Stream) : (c.setStream i v).parts = c.parts := rfl
@[simp] theorem Chip.setStream_irq (i : Nat) (v : Stream) : (c.setStream i v).irq = c.irq := rfl
@[simp] theorem Chip.setStream_mgt (i : Nat) (v : Stream) : (c.setStream i v).mgt = c.mgt := rfl
@[simp] theorem Chip.setStream_pwr (i : Nat) (v : Stream) : (c.setStream i v).pwr = c.pwr := rfl
@[simp] theorem Chip.setStream_draws (i : Nat) (v : Stream) : (c.setStream i v).draws = c.draws := rfl

/-! `Chip.setPend` -/
@[simp] theorem Chip.setPend_pins (p : Pend) : (c.setPend p).pins = c.pins := rfl
@[simp] theorem Chip.setPend_boot (p : Pend) : (c.setPend p).boot = c.boot := rfl
@[simp] theorem Chip.setPend_mcs (p : Pend) : (c.setPend p).mcs = c.mcs := rfl
@[simp] theorem Chip.setPend_dump (p : Pend) : (c.setPend p).dump = c.dump := rfl
@[simp] theorem Chip.setPend_ctl (p : Pend) : (c.setPend p).ctl = c.ctl := rfl
@[simp] theorem Chip.setPend_cores (p : Pend) : (c.setPend p).cores = c.cores := rfl
@[simp] theorem Chip.setPend_coh (p : Pend) : (c.setPend p).coh = c.coh := rfl
@[simp] theorem Chip.setPend_swc (p : Pend) : (c.setPend p).swc = c.swc := rfl
@[simp] theorem Chip.setPend_lnk (p : Pend) : (c.setPend p).lnk = c.lnk := rfl
@[simp] theorem Chip.setPend_dsp (p : Pend) : (c.setPend p).dsp = c.dsp := rfl
@[simp] theorem Chip.setPend_eng (p : Pend) : (c.setPend p).eng = c.eng := rfl
@[simp] theorem Chip.setPend_mem (p : Pend) : (c.setPend p).mem = c.mem := rfl
@[simp] theorem Chip.setPend_sft (p : Pend) : (c.setPend p).sft = c.sft := rfl
@[simp] theorem Chip.setPend_sec (p : Pend) : (c.setPend p).sec = c.sec := rfl
@[simp] theorem Chip.setPend_parts (p : Pend) : (c.setPend p).parts = c.parts := rfl
@[simp] theorem Chip.setPend_irq (p : Pend) : (c.setPend p).irq = c.irq := rfl
@[simp] theorem Chip.setPend_mgt (p : Pend) : (c.setPend p).mgt = c.mgt := rfl
@[simp] theorem Chip.setPend_pwr (p : Pend) : (c.setPend p).pwr = c.pwr := rfl
@[simp] theorem Chip.setPend_draws (p : Pend) : (c.setPend p).draws = c.draws := rfl

/-! `Chip.delPend` -/
@[simp] theorem Chip.delPend_pins (id : Nat) : (c.delPend id).pins = c.pins := rfl
@[simp] theorem Chip.delPend_boot (id : Nat) : (c.delPend id).boot = c.boot := rfl
@[simp] theorem Chip.delPend_mcs (id : Nat) : (c.delPend id).mcs = c.mcs := rfl
@[simp] theorem Chip.delPend_dump (id : Nat) : (c.delPend id).dump = c.dump := rfl
@[simp] theorem Chip.delPend_ctl (id : Nat) : (c.delPend id).ctl = c.ctl := rfl
@[simp] theorem Chip.delPend_cores (id : Nat) : (c.delPend id).cores = c.cores := rfl
@[simp] theorem Chip.delPend_coh (id : Nat) : (c.delPend id).coh = c.coh := rfl
@[simp] theorem Chip.delPend_swc (id : Nat) : (c.delPend id).swc = c.swc := rfl
@[simp] theorem Chip.delPend_lnk (id : Nat) : (c.delPend id).lnk = c.lnk := rfl
@[simp] theorem Chip.delPend_dsp (id : Nat) : (c.delPend id).dsp = c.dsp := rfl
@[simp] theorem Chip.delPend_eng (id : Nat) : (c.delPend id).eng = c.eng := rfl
@[simp] theorem Chip.delPend_mem (id : Nat) : (c.delPend id).mem = c.mem := rfl
@[simp] theorem Chip.delPend_sft (id : Nat) : (c.delPend id).sft = c.sft := rfl
@[simp] theorem Chip.delPend_sec (id : Nat) : (c.delPend id).sec = c.sec := rfl
@[simp] theorem Chip.delPend_parts (id : Nat) : (c.delPend id).parts = c.parts := rfl
@[simp] theorem Chip.delPend_irq (id : Nat) : (c.delPend id).irq = c.irq := rfl
@[simp] theorem Chip.delPend_mgt (id : Nat) : (c.delPend id).mgt = c.mgt := rfl
@[simp] theorem Chip.delPend_pwr (id : Nat) : (c.delPend id).pwr = c.pwr := rfl
@[simp] theorem Chip.delPend_draws (id : Nat) : (c.delPend id).draws = c.draws := rfl

/-! `Chip.addDevReq` -/
@[simp] theorem Chip.addDevReq_pins (d : DevReq) : (c.addDevReq d).pins = c.pins := rfl
@[simp] theorem Chip.addDevReq_boot (d : DevReq) : (c.addDevReq d).boot = c.boot := rfl
@[simp] theorem Chip.addDevReq_mcs (d : DevReq) : (c.addDevReq d).mcs = c.mcs := rfl
@[simp] theorem Chip.addDevReq_dump (d : DevReq) : (c.addDevReq d).dump = c.dump := rfl
@[simp] theorem Chip.addDevReq_ctl (d : DevReq) : (c.addDevReq d).ctl = c.ctl := rfl
@[simp] theorem Chip.addDevReq_cores (d : DevReq) : (c.addDevReq d).cores = c.cores := rfl
@[simp] theorem Chip.addDevReq_coh (d : DevReq) : (c.addDevReq d).coh = c.coh := rfl
@[simp] theorem Chip.addDevReq_swc (d : DevReq) : (c.addDevReq d).swc = c.swc := rfl
@[simp] theorem Chip.addDevReq_lnk (d : DevReq) : (c.addDevReq d).lnk = c.lnk := rfl
@[simp] theorem Chip.addDevReq_dsp (d : DevReq) : (c.addDevReq d).dsp = c.dsp := rfl
@[simp] theorem Chip.addDevReq_eng (d : DevReq) : (c.addDevReq d).eng = c.eng := rfl
@[simp] theorem Chip.addDevReq_mem (d : DevReq) : (c.addDevReq d).mem = c.mem := rfl
@[simp] theorem Chip.addDevReq_sft (d : DevReq) : (c.addDevReq d).sft = c.sft := rfl
@[simp] theorem Chip.addDevReq_sec (d : DevReq) : (c.addDevReq d).sec = c.sec := rfl
@[simp] theorem Chip.addDevReq_parts (d : DevReq) : (c.addDevReq d).parts = c.parts := rfl
@[simp] theorem Chip.addDevReq_irq (d : DevReq) : (c.addDevReq d).irq = c.irq := rfl
@[simp] theorem Chip.addDevReq_mgt (d : DevReq) : (c.addDevReq d).mgt = c.mgt := rfl
@[simp] theorem Chip.addDevReq_pwr (d : DevReq) : (c.addDevReq d).pwr = c.pwr := rfl
@[simp] theorem Chip.addDevReq_draws (d : DevReq) : (c.addDevReq d).draws = c.draws := rfl

/-! `Chip.addJob` -/
@[simp] theorem Chip.addJob_pins (j : LocalJob) : (c.addJob j).pins = c.pins := rfl
@[simp] theorem Chip.addJob_boot (j : LocalJob) : (c.addJob j).boot = c.boot := rfl
@[simp] theorem Chip.addJob_mcs (j : LocalJob) : (c.addJob j).mcs = c.mcs := rfl
@[simp] theorem Chip.addJob_dump (j : LocalJob) : (c.addJob j).dump = c.dump := rfl
@[simp] theorem Chip.addJob_ctl (j : LocalJob) : (c.addJob j).ctl = c.ctl := rfl
@[simp] theorem Chip.addJob_cores (j : LocalJob) : (c.addJob j).cores = c.cores := rfl
@[simp] theorem Chip.addJob_coh (j : LocalJob) : (c.addJob j).coh = c.coh := rfl
@[simp] theorem Chip.addJob_swc (j : LocalJob) : (c.addJob j).swc = c.swc := rfl
@[simp] theorem Chip.addJob_lnk (j : LocalJob) : (c.addJob j).lnk = c.lnk := rfl
@[simp] theorem Chip.addJob_dsp (j : LocalJob) : (c.addJob j).dsp = c.dsp := rfl
@[simp] theorem Chip.addJob_eng (j : LocalJob) : (c.addJob j).eng = c.eng := rfl
@[simp] theorem Chip.addJob_mem (j : LocalJob) : (c.addJob j).mem = c.mem := rfl
@[simp] theorem Chip.addJob_sft (j : LocalJob) : (c.addJob j).sft = c.sft := rfl
@[simp] theorem Chip.addJob_sec (j : LocalJob) : (c.addJob j).sec = c.sec := rfl
@[simp] theorem Chip.addJob_parts (j : LocalJob) : (c.addJob j).parts = c.parts := rfl
@[simp] theorem Chip.addJob_irq (j : LocalJob) : (c.addJob j).irq = c.irq := rfl
@[simp] theorem Chip.addJob_mgt (j : LocalJob) : (c.addJob j).mgt = c.mgt := rfl
@[simp] theorem Chip.addJob_pwr (j : LocalJob) : (c.addJob j).pwr = c.pwr := rfl
@[simp] theorem Chip.addJob_draws (j : LocalJob) : (c.addJob j).draws = c.draws := rfl

/-! `Chip.takeId` -/
@[simp] theorem Chip.takeId_pins : (c.takeId).pins = c.pins := rfl
@[simp] theorem Chip.takeId_boot : (c.takeId).boot = c.boot := rfl
@[simp] theorem Chip.takeId_mcs : (c.takeId).mcs = c.mcs := rfl
@[simp] theorem Chip.takeId_dump : (c.takeId).dump = c.dump := rfl
@[simp] theorem Chip.takeId_ctl : (c.takeId).ctl = c.ctl := rfl
@[simp] theorem Chip.takeId_cores : (c.takeId).cores = c.cores := rfl
@[simp] theorem Chip.takeId_coh : (c.takeId).coh = c.coh := rfl
@[simp] theorem Chip.takeId_swc : (c.takeId).swc = c.swc := rfl
@[simp] theorem Chip.takeId_lnk : (c.takeId).lnk = c.lnk := rfl
@[simp] theorem Chip.takeId_dsp : (c.takeId).dsp = c.dsp := rfl
@[simp] theorem Chip.takeId_eng : (c.takeId).eng = c.eng := rfl
@[simp] theorem Chip.takeId_mem : (c.takeId).mem = c.mem := rfl
@[simp] theorem Chip.takeId_sft : (c.takeId).sft = c.sft := rfl
@[simp] theorem Chip.takeId_sec : (c.takeId).sec = c.sec := rfl
@[simp] theorem Chip.takeId_parts : (c.takeId).parts = c.parts := rfl
@[simp] theorem Chip.takeId_irq : (c.takeId).irq = c.irq := rfl
@[simp] theorem Chip.takeId_mgt : (c.takeId).mgt = c.mgt := rfl
@[simp] theorem Chip.takeId_pwr : (c.takeId).pwr = c.pwr := rfl
@[simp] theorem Chip.takeId_draws : (c.takeId).draws = c.draws := rfl

/-! `Chip.setEnt` -/
@[simp] theorem Chip.setEnt_pins (pl : Nat) (e : LineEnt) : (c.setEnt pl e).pins = c.pins := rfl
@[simp] theorem Chip.setEnt_boot (pl : Nat) (e : LineEnt) : (c.setEnt pl e).boot = c.boot := rfl
@[simp] theorem Chip.setEnt_mcs (pl : Nat) (e : LineEnt) : (c.setEnt pl e).mcs = c.mcs := rfl
@[simp] theorem Chip.setEnt_dump (pl : Nat) (e : LineEnt) : (c.setEnt pl e).dump = c.dump := rfl
@[simp] theorem Chip.setEnt_ctl (pl : Nat) (e : LineEnt) : (c.setEnt pl e).ctl = c.ctl := rfl
@[simp] theorem Chip.setEnt_cores (pl : Nat) (e : LineEnt) : (c.setEnt pl e).cores = c.cores := rfl
@[simp] theorem Chip.setEnt_gtx (pl : Nat) (e : LineEnt) : (c.setEnt pl e).gtx = c.gtx := rfl
@[simp] theorem Chip.setEnt_swc (pl : Nat) (e : LineEnt) : (c.setEnt pl e).swc = c.swc := rfl
@[simp] theorem Chip.setEnt_lnk (pl : Nat) (e : LineEnt) : (c.setEnt pl e).lnk = c.lnk := rfl
@[simp] theorem Chip.setEnt_dsp (pl : Nat) (e : LineEnt) : (c.setEnt pl e).dsp = c.dsp := rfl
@[simp] theorem Chip.setEnt_eng (pl : Nat) (e : LineEnt) : (c.setEnt pl e).eng = c.eng := rfl
@[simp] theorem Chip.setEnt_mem (pl : Nat) (e : LineEnt) : (c.setEnt pl e).mem = c.mem := rfl
@[simp] theorem Chip.setEnt_sft (pl : Nat) (e : LineEnt) : (c.setEnt pl e).sft = c.sft := rfl
@[simp] theorem Chip.setEnt_sec (pl : Nat) (e : LineEnt) : (c.setEnt pl e).sec = c.sec := rfl
@[simp] theorem Chip.setEnt_parts (pl : Nat) (e : LineEnt) : (c.setEnt pl e).parts = c.parts := rfl
@[simp] theorem Chip.setEnt_irq (pl : Nat) (e : LineEnt) : (c.setEnt pl e).irq = c.irq := rfl
@[simp] theorem Chip.setEnt_mgt (pl : Nat) (e : LineEnt) : (c.setEnt pl e).mgt = c.mgt := rfl
@[simp] theorem Chip.setEnt_pwr (pl : Nat) (e : LineEnt) : (c.setEnt pl e).pwr = c.pwr := rfl
@[simp] theorem Chip.setEnt_draws (pl : Nat) (e : LineEnt) : (c.setEnt pl e).draws = c.draws := rfl

/-! `Chip.delEnt` -/
@[simp] theorem Chip.delEnt_pins (pl : Nat) : (c.delEnt pl).pins = c.pins := rfl
@[simp] theorem Chip.delEnt_boot (pl : Nat) : (c.delEnt pl).boot = c.boot := rfl
@[simp] theorem Chip.delEnt_mcs (pl : Nat) : (c.delEnt pl).mcs = c.mcs := rfl
@[simp] theorem Chip.delEnt_dump (pl : Nat) : (c.delEnt pl).dump = c.dump := rfl
@[simp] theorem Chip.delEnt_ctl (pl : Nat) : (c.delEnt pl).ctl = c.ctl := rfl
@[simp] theorem Chip.delEnt_cores (pl : Nat) : (c.delEnt pl).cores = c.cores := rfl
@[simp] theorem Chip.delEnt_gtx (pl : Nat) : (c.delEnt pl).gtx = c.gtx := rfl
@[simp] theorem Chip.delEnt_swc (pl : Nat) : (c.delEnt pl).swc = c.swc := rfl
@[simp] theorem Chip.delEnt_lnk (pl : Nat) : (c.delEnt pl).lnk = c.lnk := rfl
@[simp] theorem Chip.delEnt_dsp (pl : Nat) : (c.delEnt pl).dsp = c.dsp := rfl
@[simp] theorem Chip.delEnt_eng (pl : Nat) : (c.delEnt pl).eng = c.eng := rfl
@[simp] theorem Chip.delEnt_mem (pl : Nat) : (c.delEnt pl).mem = c.mem := rfl
@[simp] theorem Chip.delEnt_sft (pl : Nat) : (c.delEnt pl).sft = c.sft := rfl
@[simp] theorem Chip.delEnt_sec (pl : Nat) : (c.delEnt pl).sec = c.sec := rfl
@[simp] theorem Chip.delEnt_parts (pl : Nat) : (c.delEnt pl).parts = c.parts := rfl
@[simp] theorem Chip.delEnt_irq (pl : Nat) : (c.delEnt pl).irq = c.irq := rfl
@[simp] theorem Chip.delEnt_mgt (pl : Nat) : (c.delEnt pl).mgt = c.mgt := rfl
@[simp] theorem Chip.delEnt_pwr (pl : Nat) : (c.delEnt pl).pwr = c.pwr := rfl
@[simp] theorem Chip.delEnt_draws (pl : Nat) : (c.delEnt pl).draws = c.draws := rfl

/-! `Chip.setLineQ` -/
@[simp] theorem Chip.setLineQ_pins (pl : Nat) (q : LineQ) : (c.setLineQ pl q).pins = c.pins := rfl
@[simp] theorem Chip.setLineQ_boot (pl : Nat) (q : LineQ) : (c.setLineQ pl q).boot = c.boot := rfl
@[simp] theorem Chip.setLineQ_mcs (pl : Nat) (q : LineQ) : (c.setLineQ pl q).mcs = c.mcs := rfl
@[simp] theorem Chip.setLineQ_dump (pl : Nat) (q : LineQ) : (c.setLineQ pl q).dump = c.dump := rfl
@[simp] theorem Chip.setLineQ_ctl (pl : Nat) (q : LineQ) : (c.setLineQ pl q).ctl = c.ctl := rfl
@[simp] theorem Chip.setLineQ_cores (pl : Nat) (q : LineQ) : (c.setLineQ pl q).cores = c.cores := rfl
@[simp] theorem Chip.setLineQ_gtx (pl : Nat) (q : LineQ) : (c.setLineQ pl q).gtx = c.gtx := rfl
@[simp] theorem Chip.setLineQ_swc (pl : Nat) (q : LineQ) : (c.setLineQ pl q).swc = c.swc := rfl
@[simp] theorem Chip.setLineQ_lnk (pl : Nat) (q : LineQ) : (c.setLineQ pl q).lnk = c.lnk := rfl
@[simp] theorem Chip.setLineQ_dsp (pl : Nat) (q : LineQ) : (c.setLineQ pl q).dsp = c.dsp := rfl
@[simp] theorem Chip.setLineQ_eng (pl : Nat) (q : LineQ) : (c.setLineQ pl q).eng = c.eng := rfl
@[simp] theorem Chip.setLineQ_mem (pl : Nat) (q : LineQ) : (c.setLineQ pl q).mem = c.mem := rfl
@[simp] theorem Chip.setLineQ_sft (pl : Nat) (q : LineQ) : (c.setLineQ pl q).sft = c.sft := rfl
@[simp] theorem Chip.setLineQ_sec (pl : Nat) (q : LineQ) : (c.setLineQ pl q).sec = c.sec := rfl
@[simp] theorem Chip.setLineQ_parts (pl : Nat) (q : LineQ) : (c.setLineQ pl q).parts = c.parts := rfl
@[simp] theorem Chip.setLineQ_irq (pl : Nat) (q : LineQ) : (c.setLineQ pl q).irq = c.irq := rfl
@[simp] theorem Chip.setLineQ_mgt (pl : Nat) (q : LineQ) : (c.setLineQ pl q).mgt = c.mgt := rfl
@[simp] theorem Chip.setLineQ_pwr (pl : Nat) (q : LineQ) : (c.setLineQ pl q).pwr = c.pwr := rfl
@[simp] theorem Chip.setLineQ_draws (pl : Nat) (q : LineQ) : (c.setLineQ pl q).draws = c.draws := rfl

/-! `Chip.setCell` -/
@[simp] theorem Chip.setCell_pins (k : Nat) (v : Cell) : (c.setCell k v).pins = c.pins := rfl
@[simp] theorem Chip.setCell_boot (k : Nat) (v : Cell) : (c.setCell k v).boot = c.boot := rfl
@[simp] theorem Chip.setCell_mcs (k : Nat) (v : Cell) : (c.setCell k v).mcs = c.mcs := rfl
@[simp] theorem Chip.setCell_dump (k : Nat) (v : Cell) : (c.setCell k v).dump = c.dump := rfl
@[simp] theorem Chip.setCell_ctl (k : Nat) (v : Cell) : (c.setCell k v).ctl = c.ctl := rfl
@[simp] theorem Chip.setCell_cores (k : Nat) (v : Cell) : (c.setCell k v).cores = c.cores := rfl
@[simp] theorem Chip.setCell_gtx (k : Nat) (v : Cell) : (c.setCell k v).gtx = c.gtx := rfl
@[simp] theorem Chip.setCell_coh (k : Nat) (v : Cell) : (c.setCell k v).coh = c.coh := rfl
@[simp] theorem Chip.setCell_lnk (k : Nat) (v : Cell) : (c.setCell k v).lnk = c.lnk := rfl
@[simp] theorem Chip.setCell_dsp (k : Nat) (v : Cell) : (c.setCell k v).dsp = c.dsp := rfl
@[simp] theorem Chip.setCell_eng (k : Nat) (v : Cell) : (c.setCell k v).eng = c.eng := rfl
@[simp] theorem Chip.setCell_mem (k : Nat) (v : Cell) : (c.setCell k v).mem = c.mem := rfl
@[simp] theorem Chip.setCell_sft (k : Nat) (v : Cell) : (c.setCell k v).sft = c.sft := rfl
@[simp] theorem Chip.setCell_sec (k : Nat) (v : Cell) : (c.setCell k v).sec = c.sec := rfl
@[simp] theorem Chip.setCell_parts (k : Nat) (v : Cell) : (c.setCell k v).parts = c.parts := rfl
@[simp] theorem Chip.setCell_irq (k : Nat) (v : Cell) : (c.setCell k v).irq = c.irq := rfl
@[simp] theorem Chip.setCell_mgt (k : Nat) (v : Cell) : (c.setCell k v).mgt = c.mgt := rfl
@[simp] theorem Chip.setCell_pwr (k : Nat) (v : Cell) : (c.setCell k v).pwr = c.pwr := rfl
@[simp] theorem Chip.setCell_draws (k : Nat) (v : Cell) : (c.setCell k v).draws = c.draws := rfl

/-! `Chip.setSkim` -/
@[simp] theorem Chip.setSkim_pins (die n : Nat) : (c.setSkim die n).pins = c.pins := rfl
@[simp] theorem Chip.setSkim_boot (die n : Nat) : (c.setSkim die n).boot = c.boot := rfl
@[simp] theorem Chip.setSkim_mcs (die n : Nat) : (c.setSkim die n).mcs = c.mcs := rfl
@[simp] theorem Chip.setSkim_dump (die n : Nat) : (c.setSkim die n).dump = c.dump := rfl
@[simp] theorem Chip.setSkim_ctl (die n : Nat) : (c.setSkim die n).ctl = c.ctl := rfl
@[simp] theorem Chip.setSkim_cores (die n : Nat) : (c.setSkim die n).cores = c.cores := rfl
@[simp] theorem Chip.setSkim_gtx (die n : Nat) : (c.setSkim die n).gtx = c.gtx := rfl
@[simp] theorem Chip.setSkim_coh (die n : Nat) : (c.setSkim die n).coh = c.coh := rfl
@[simp] theorem Chip.setSkim_lnk (die n : Nat) : (c.setSkim die n).lnk = c.lnk := rfl
@[simp] theorem Chip.setSkim_dsp (die n : Nat) : (c.setSkim die n).dsp = c.dsp := rfl
@[simp] theorem Chip.setSkim_eng (die n : Nat) : (c.setSkim die n).eng = c.eng := rfl
@[simp] theorem Chip.setSkim_mem (die n : Nat) : (c.setSkim die n).mem = c.mem := rfl
@[simp] theorem Chip.setSkim_sft (die n : Nat) : (c.setSkim die n).sft = c.sft := rfl
@[simp] theorem Chip.setSkim_sec (die n : Nat) : (c.setSkim die n).sec = c.sec := rfl
@[simp] theorem Chip.setSkim_parts (die n : Nat) : (c.setSkim die n).parts = c.parts := rfl
@[simp] theorem Chip.setSkim_irq (die n : Nat) : (c.setSkim die n).irq = c.irq := rfl
@[simp] theorem Chip.setSkim_mgt (die n : Nat) : (c.setSkim die n).mgt = c.mgt := rfl
@[simp] theorem Chip.setSkim_pwr (die n : Nat) : (c.setSkim die n).pwr = c.pwr := rfl
@[simp] theorem Chip.setSkim_draws (die n : Nat) : (c.setSkim die n).draws = c.draws := rfl

/-! `Chip.setPort` -/
@[simp] theorem Chip.setPort_pins (p : Nat) (v : Port) : (c.setPort p v).pins = c.pins := rfl
@[simp] theorem Chip.setPort_boot (p : Nat) (v : Port) : (c.setPort p v).boot = c.boot := rfl
@[simp] theorem Chip.setPort_mcs (p : Nat) (v : Port) : (c.setPort p v).mcs = c.mcs := rfl
@[simp] theorem Chip.setPort_dump (p : Nat) (v : Port) : (c.setPort p v).dump = c.dump := rfl
@[simp] theorem Chip.setPort_ctl (p : Nat) (v : Port) : (c.setPort p v).ctl = c.ctl := rfl
@[simp] theorem Chip.setPort_cores (p : Nat) (v : Port) : (c.setPort p v).cores = c.cores := rfl
@[simp] theorem Chip.setPort_gtx (p : Nat) (v : Port) : (c.setPort p v).gtx = c.gtx := rfl
@[simp] theorem Chip.setPort_coh (p : Nat) (v : Port) : (c.setPort p v).coh = c.coh := rfl
@[simp] theorem Chip.setPort_swc (p : Nat) (v : Port) : (c.setPort p v).swc = c.swc := rfl
@[simp] theorem Chip.setPort_dsp (p : Nat) (v : Port) : (c.setPort p v).dsp = c.dsp := rfl
@[simp] theorem Chip.setPort_eng (p : Nat) (v : Port) : (c.setPort p v).eng = c.eng := rfl
@[simp] theorem Chip.setPort_mem (p : Nat) (v : Port) : (c.setPort p v).mem = c.mem := rfl
@[simp] theorem Chip.setPort_sft (p : Nat) (v : Port) : (c.setPort p v).sft = c.sft := rfl
@[simp] theorem Chip.setPort_sec (p : Nat) (v : Port) : (c.setPort p v).sec = c.sec := rfl
@[simp] theorem Chip.setPort_parts (p : Nat) (v : Port) : (c.setPort p v).parts = c.parts := rfl
@[simp] theorem Chip.setPort_irq (p : Nat) (v : Port) : (c.setPort p v).irq = c.irq := rfl
@[simp] theorem Chip.setPort_mgt (p : Nat) (v : Port) : (c.setPort p v).mgt = c.mgt := rfl
@[simp] theorem Chip.setPort_pwr (p : Nat) (v : Port) : (c.setPort p v).pwr = c.pwr := rfl
@[simp] theorem Chip.setPort_draws (p : Nat) (v : Port) : (c.setPort p v).draws = c.draws := rfl

/-! `Chip.modPort` -/
@[simp] theorem Chip.modPort_pins (p : Nat) (f : Port → Port) : (c.modPort p f).pins = c.pins := rfl
@[simp] theorem Chip.modPort_boot (p : Nat) (f : Port → Port) : (c.modPort p f).boot = c.boot := rfl
@[simp] theorem Chip.modPort_mcs (p : Nat) (f : Port → Port) : (c.modPort p f).mcs = c.mcs := rfl
@[simp] theorem Chip.modPort_dump (p : Nat) (f : Port → Port) : (c.modPort p f).dump = c.dump := rfl
@[simp] theorem Chip.modPort_ctl (p : Nat) (f : Port → Port) : (c.modPort p f).ctl = c.ctl := rfl
@[simp] theorem Chip.modPort_cores (p : Nat) (f : Port → Port) : (c.modPort p f).cores = c.cores := rfl
@[simp] theorem Chip.modPort_gtx (p : Nat) (f : Port → Port) : (c.modPort p f).gtx = c.gtx := rfl
@[simp] theorem Chip.modPort_coh (p : Nat) (f : Port → Port) : (c.modPort p f).coh = c.coh := rfl
@[simp] theorem Chip.modPort_swc (p : Nat) (f : Port → Port) : (c.modPort p f).swc = c.swc := rfl
@[simp] theorem Chip.modPort_dsp (p : Nat) (f : Port → Port) : (c.modPort p f).dsp = c.dsp := rfl
@[simp] theorem Chip.modPort_eng (p : Nat) (f : Port → Port) : (c.modPort p f).eng = c.eng := rfl
@[simp] theorem Chip.modPort_mem (p : Nat) (f : Port → Port) : (c.modPort p f).mem = c.mem := rfl
@[simp] theorem Chip.modPort_sft (p : Nat) (f : Port → Port) : (c.modPort p f).sft = c.sft := rfl
@[simp] theorem Chip.modPort_sec (p : Nat) (f : Port → Port) : (c.modPort p f).sec = c.sec := rfl
@[simp] theorem Chip.modPort_parts (p : Nat) (f : Port → Port) : (c.modPort p f).parts = c.parts := rfl
@[simp] theorem Chip.modPort_irq (p : Nat) (f : Port → Port) : (c.modPort p f).irq = c.irq := rfl
@[simp] theorem Chip.modPort_mgt (p : Nat) (f : Port → Port) : (c.modPort p f).mgt = c.mgt := rfl
@[simp] theorem Chip.modPort_pwr (p : Nat) (f : Port → Port) : (c.modPort p f).pwr = c.pwr := rfl
@[simp] theorem Chip.modPort_draws (p : Nat) (f : Port → Port) : (c.modPort p f).draws = c.draws := rfl

/-! `Chip.setSlot` -/
@[simp] theorem Chip.setSlot_pins (k : Nat) (v : SetCopy) : (c.setSlot k v).pins = c.pins := rfl
@[simp] theorem Chip.setSlot_boot (k : Nat) (v : SetCopy) : (c.setSlot k v).boot = c.boot := rfl
@[simp] theorem Chip.setSlot_mcs (k : Nat) (v : SetCopy) : (c.setSlot k v).mcs = c.mcs := rfl
@[simp] theorem Chip.setSlot_dump (k : Nat) (v : SetCopy) : (c.setSlot k v).dump = c.dump := rfl
@[simp] theorem Chip.setSlot_ctl (k : Nat) (v : SetCopy) : (c.setSlot k v).ctl = c.ctl := rfl
@[simp] theorem Chip.setSlot_cores (k : Nat) (v : SetCopy) : (c.setSlot k v).cores = c.cores := rfl
@[simp] theorem Chip.setSlot_gtx (k : Nat) (v : SetCopy) : (c.setSlot k v).gtx = c.gtx := rfl
@[simp] theorem Chip.setSlot_coh (k : Nat) (v : SetCopy) : (c.setSlot k v).coh = c.coh := rfl
@[simp] theorem Chip.setSlot_swc (k : Nat) (v : SetCopy) : (c.setSlot k v).swc = c.swc := rfl
@[simp] theorem Chip.setSlot_lnk (k : Nat) (v : SetCopy) : (c.setSlot k v).lnk = c.lnk := rfl
@[simp] theorem Chip.setSlot_eng (k : Nat) (v : SetCopy) : (c.setSlot k v).eng = c.eng := rfl
@[simp] theorem Chip.setSlot_mem (k : Nat) (v : SetCopy) : (c.setSlot k v).mem = c.mem := rfl
@[simp] theorem Chip.setSlot_sft (k : Nat) (v : SetCopy) : (c.setSlot k v).sft = c.sft := rfl
@[simp] theorem Chip.setSlot_sec (k : Nat) (v : SetCopy) : (c.setSlot k v).sec = c.sec := rfl
@[simp] theorem Chip.setSlot_parts (k : Nat) (v : SetCopy) : (c.setSlot k v).parts = c.parts := rfl
@[simp] theorem Chip.setSlot_irq (k : Nat) (v : SetCopy) : (c.setSlot k v).irq = c.irq := rfl
@[simp] theorem Chip.setSlot_mgt (k : Nat) (v : SetCopy) : (c.setSlot k v).mgt = c.mgt := rfl
@[simp] theorem Chip.setSlot_pwr (k : Nat) (v : SetCopy) : (c.setSlot k v).pwr = c.pwr := rfl
@[simp] theorem Chip.setSlot_draws (k : Nat) (v : SetCopy) : (c.setSlot k v).draws = c.draws := rfl

/-! `Chip.setRun` -/
@[simp] theorem Chip.setRun_pins (id : Nat) (r : Run) : (c.setRun id r).pins = c.pins := rfl
@[simp] theorem Chip.setRun_boot (id : Nat) (r : Run) : (c.setRun id r).boot = c.boot := rfl
@[simp] theorem Chip.setRun_mcs (id : Nat) (r : Run) : (c.setRun id r).mcs = c.mcs := rfl
@[simp] theorem Chip.setRun_dump (id : Nat) (r : Run) : (c.setRun id r).dump = c.dump := rfl
@[simp] theorem Chip.setRun_ctl (id : Nat) (r : Run) : (c.setRun id r).ctl = c.ctl := rfl
@[simp] theorem Chip.setRun_cores (id : Nat) (r : Run) : (c.setRun id r).cores = c.cores := rfl
@[simp] theorem Chip.setRun_gtx (id : Nat) (r : Run) : (c.setRun id r).gtx = c.gtx := rfl
@[simp] theorem Chip.setRun_coh (id : Nat) (r : Run) : (c.setRun id r).coh = c.coh := rfl
@[simp] theorem Chip.setRun_swc (id : Nat) (r : Run) : (c.setRun id r).swc = c.swc := rfl
@[simp] theorem Chip.setRun_lnk (id : Nat) (r : Run) : (c.setRun id r).lnk = c.lnk := rfl
@[simp] theorem Chip.setRun_eng (id : Nat) (r : Run) : (c.setRun id r).eng = c.eng := rfl
@[simp] theorem Chip.setRun_mem (id : Nat) (r : Run) : (c.setRun id r).mem = c.mem := rfl
@[simp] theorem Chip.setRun_sft (id : Nat) (r : Run) : (c.setRun id r).sft = c.sft := rfl
@[simp] theorem Chip.setRun_sec (id : Nat) (r : Run) : (c.setRun id r).sec = c.sec := rfl
@[simp] theorem Chip.setRun_parts (id : Nat) (r : Run) : (c.setRun id r).parts = c.parts := rfl
@[simp] theorem Chip.setRun_irq (id : Nat) (r : Run) : (c.setRun id r).irq = c.irq := rfl
@[simp] theorem Chip.setRun_mgt (id : Nat) (r : Run) : (c.setRun id r).mgt = c.mgt := rfl
@[simp] theorem Chip.setRun_pwr (id : Nat) (r : Run) : (c.setRun id r).pwr = c.pwr := rfl
@[simp] theorem Chip.setRun_draws (id : Nat) (r : Run) : (c.setRun id r).draws = c.draws := rfl

/-! `Chip.setLaunch` -/
@[simp] theorem Chip.setLaunch_pins (l : Launch) : (c.setLaunch l).pins = c.pins := rfl
@[simp] theorem Chip.setLaunch_boot (l : Launch) : (c.setLaunch l).boot = c.boot := rfl
@[simp] theorem Chip.setLaunch_mcs (l : Launch) : (c.setLaunch l).mcs = c.mcs := rfl
@[simp] theorem Chip.setLaunch_dump (l : Launch) : (c.setLaunch l).dump = c.dump := rfl
@[simp] theorem Chip.setLaunch_ctl (l : Launch) : (c.setLaunch l).ctl = c.ctl := rfl
@[simp] theorem Chip.setLaunch_cores (l : Launch) : (c.setLaunch l).cores = c.cores := rfl
@[simp] theorem Chip.setLaunch_gtx (l : Launch) : (c.setLaunch l).gtx = c.gtx := rfl
@[simp] theorem Chip.setLaunch_coh (l : Launch) : (c.setLaunch l).coh = c.coh := rfl
@[simp] theorem Chip.setLaunch_swc (l : Launch) : (c.setLaunch l).swc = c.swc := rfl
@[simp] theorem Chip.setLaunch_lnk (l : Launch) : (c.setLaunch l).lnk = c.lnk := rfl
@[simp] theorem Chip.setLaunch_eng (l : Launch) : (c.setLaunch l).eng = c.eng := rfl
@[simp] theorem Chip.setLaunch_mem (l : Launch) : (c.setLaunch l).mem = c.mem := rfl
@[simp] theorem Chip.setLaunch_sft (l : Launch) : (c.setLaunch l).sft = c.sft := rfl
@[simp] theorem Chip.setLaunch_sec (l : Launch) : (c.setLaunch l).sec = c.sec := rfl
@[simp] theorem Chip.setLaunch_parts (l : Launch) : (c.setLaunch l).parts = c.parts := rfl
@[simp] theorem Chip.setLaunch_irq (l : Launch) : (c.setLaunch l).irq = c.irq := rfl
@[simp] theorem Chip.setLaunch_mgt (l : Launch) : (c.setLaunch l).mgt = c.mgt := rfl
@[simp] theorem Chip.setLaunch_pwr (l : Launch) : (c.setLaunch l).pwr = c.pwr := rfl
@[simp] theorem Chip.setLaunch_draws (l : Launch) : (c.setLaunch l).draws = c.draws := rfl

/-! `Chip.delLaunch` -/
@[simp] theorem Chip.delLaunch_pins (id : Nat) : (c.delLaunch id).pins = c.pins := rfl
@[simp] theorem Chip.delLaunch_boot (id : Nat) : (c.delLaunch id).boot = c.boot := rfl
@[simp] theorem Chip.delLaunch_mcs (id : Nat) : (c.delLaunch id).mcs = c.mcs := rfl
@[simp] theorem Chip.delLaunch_dump (id : Nat) : (c.delLaunch id).dump = c.dump := rfl
@[simp] theorem Chip.delLaunch_ctl (id : Nat) : (c.delLaunch id).ctl = c.ctl := rfl
@[simp] theorem Chip.delLaunch_cores (id : Nat) : (c.delLaunch id).cores = c.cores := rfl
@[simp] theorem Chip.delLaunch_gtx (id : Nat) : (c.delLaunch id).gtx = c.gtx := rfl
@[simp] theorem Chip.delLaunch_coh (id : Nat) : (c.delLaunch id).coh = c.coh := rfl
@[simp] theorem Chip.delLaunch_swc (id : Nat) : (c.delLaunch id).swc = c.swc := rfl
@[simp] theorem Chip.delLaunch_lnk (id : Nat) : (c.delLaunch id).lnk = c.lnk := rfl
@[simp] theorem Chip.delLaunch_eng (id : Nat) : (c.delLaunch id).eng = c.eng := rfl
@[simp] theorem Chip.delLaunch_mem (id : Nat) : (c.delLaunch id).mem = c.mem := rfl
@[simp] theorem Chip.delLaunch_sft (id : Nat) : (c.delLaunch id).sft = c.sft := rfl
@[simp] theorem Chip.delLaunch_sec (id : Nat) : (c.delLaunch id).sec = c.sec := rfl
@[simp] theorem Chip.delLaunch_parts (id : Nat) : (c.delLaunch id).parts = c.parts := rfl
@[simp] theorem Chip.delLaunch_irq (id : Nat) : (c.delLaunch id).irq = c.irq := rfl
@[simp] theorem Chip.delLaunch_mgt (id : Nat) : (c.delLaunch id).mgt = c.mgt := rfl
@[simp] theorem Chip.delLaunch_pwr (id : Nat) : (c.delLaunch id).pwr = c.pwr := rfl
@[simp] theorem Chip.delLaunch_draws (id : Nat) : (c.delLaunch id).draws = c.draws := rfl

/-! `Chip.addFill` -/
@[simp] theorem Chip.addFill_pins (f : Fill) : (c.addFill f).pins = c.pins := rfl
@[simp] theorem Chip.addFill_boot (f : Fill) : (c.addFill f).boot = c.boot := rfl
@[simp] theorem Chip.addFill_mcs (f : Fill) : (c.addFill f).mcs = c.mcs := rfl
@[simp] theorem Chip.addFill_dump (f : Fill) : (c.addFill f).dump = c.dump := rfl
@[simp] theorem Chip.addFill_ctl (f : Fill) : (c.addFill f).ctl = c.ctl := rfl
@[simp] theorem Chip.addFill_cores (f : Fill) : (c.addFill f).cores = c.cores := rfl
@[simp] theorem Chip.addFill_gtx (f : Fill) : (c.addFill f).gtx = c.gtx := rfl
@[simp] theorem Chip.addFill_coh (f : Fill) : (c.addFill f).coh = c.coh := rfl
@[simp] theorem Chip.addFill_swc (f : Fill) : (c.addFill f).swc = c.swc := rfl
@[simp] theorem Chip.addFill_lnk (f : Fill) : (c.addFill f).lnk = c.lnk := rfl
@[simp] theorem Chip.addFill_eng (f : Fill) : (c.addFill f).eng = c.eng := rfl
@[simp] theorem Chip.addFill_mem (f : Fill) : (c.addFill f).mem = c.mem := rfl
@[simp] theorem Chip.addFill_sft (f : Fill) : (c.addFill f).sft = c.sft := rfl
@[simp] theorem Chip.addFill_sec (f : Fill) : (c.addFill f).sec = c.sec := rfl
@[simp] theorem Chip.addFill_parts (f : Fill) : (c.addFill f).parts = c.parts := rfl
@[simp] theorem Chip.addFill_irq (f : Fill) : (c.addFill f).irq = c.irq := rfl
@[simp] theorem Chip.addFill_mgt (f : Fill) : (c.addFill f).mgt = c.mgt := rfl
@[simp] theorem Chip.addFill_pwr (f : Fill) : (c.addFill f).pwr = c.pwr := rfl
@[simp] theorem Chip.addFill_draws (f : Fill) : (c.addFill f).draws = c.draws := rfl

/-! `Chip.setFill` -/
@[simp] theorem Chip.setFill_pins (f : Fill) : (c.setFill f).pins = c.pins := rfl
@[simp] theorem Chip.setFill_boot (f : Fill) : (c.setFill f).boot = c.boot := rfl
@[simp] theorem Chip.setFill_mcs (f : Fill) : (c.setFill f).mcs = c.mcs := rfl
@[simp] theorem Chip.setFill_dump (f : Fill) : (c.setFill f).dump = c.dump := rfl
@[simp] theorem Chip.setFill_ctl (f : Fill) : (c.setFill f).ctl = c.ctl := rfl
@[simp] theorem Chip.setFill_cores (f : Fill) : (c.setFill f).cores = c.cores := rfl
@[simp] theorem Chip.setFill_gtx (f : Fill) : (c.setFill f).gtx = c.gtx := rfl
@[simp] theorem Chip.setFill_coh (f : Fill) : (c.setFill f).coh = c.coh := rfl
@[simp] theorem Chip.setFill_swc (f : Fill) : (c.setFill f).swc = c.swc := rfl
@[simp] theorem Chip.setFill_lnk (f : Fill) : (c.setFill f).lnk = c.lnk := rfl
@[simp] theorem Chip.setFill_eng (f : Fill) : (c.setFill f).eng = c.eng := rfl
@[simp] theorem Chip.setFill_mem (f : Fill) : (c.setFill f).mem = c.mem := rfl
@[simp] theorem Chip.setFill_sft (f : Fill) : (c.setFill f).sft = c.sft := rfl
@[simp] theorem Chip.setFill_sec (f : Fill) : (c.setFill f).sec = c.sec := rfl
@[simp] theorem Chip.setFill_parts (f : Fill) : (c.setFill f).parts = c.parts := rfl
@[simp] theorem Chip.setFill_irq (f : Fill) : (c.setFill f).irq = c.irq := rfl
@[simp] theorem Chip.setFill_mgt (f : Fill) : (c.setFill f).mgt = c.mgt := rfl
@[simp] theorem Chip.setFill_pwr (f : Fill) : (c.setFill f).pwr = c.pwr := rfl
@[simp] theorem Chip.setFill_draws (f : Fill) : (c.setFill f).draws = c.draws := rfl

/-! `Chip.delFill` -/
@[simp] theorem Chip.delFill_pins (id : Nat) : (c.delFill id).pins = c.pins := rfl
@[simp] theorem Chip.delFill_boot (id : Nat) : (c.delFill id).boot = c.boot := rfl
@[simp] theorem Chip.delFill_mcs (id : Nat) : (c.delFill id).mcs = c.mcs := rfl
@[simp] theorem Chip.delFill_dump (id : Nat) : (c.delFill id).dump = c.dump := rfl
@[simp] theorem Chip.delFill_ctl (id : Nat) : (c.delFill id).ctl = c.ctl := rfl
@[simp] theorem Chip.delFill_cores (id : Nat) : (c.delFill id).cores = c.cores := rfl
@[simp] theorem Chip.delFill_gtx (id : Nat) : (c.delFill id).gtx = c.gtx := rfl
@[simp] theorem Chip.delFill_coh (id : Nat) : (c.delFill id).coh = c.coh := rfl
@[simp] theorem Chip.delFill_swc (id : Nat) : (c.delFill id).swc = c.swc := rfl
@[simp] theorem Chip.delFill_lnk (id : Nat) : (c.delFill id).lnk = c.lnk := rfl
@[simp] theorem Chip.delFill_eng (id : Nat) : (c.delFill id).eng = c.eng := rfl
@[simp] theorem Chip.delFill_mem (id : Nat) : (c.delFill id).mem = c.mem := rfl
@[simp] theorem Chip.delFill_sft (id : Nat) : (c.delFill id).sft = c.sft := rfl
@[simp] theorem Chip.delFill_sec (id : Nat) : (c.delFill id).sec = c.sec := rfl
@[simp] theorem Chip.delFill_parts (id : Nat) : (c.delFill id).parts = c.parts := rfl
@[simp] theorem Chip.delFill_irq (id : Nat) : (c.delFill id).irq = c.irq := rfl
@[simp] theorem Chip.delFill_mgt (id : Nat) : (c.delFill id).mgt = c.mgt := rfl
@[simp] theorem Chip.delFill_pwr (id : Nat) : (c.delFill id).pwr = c.pwr := rfl
@[simp] theorem Chip.delFill_draws (id : Nat) : (c.delFill id).draws = c.draws := rfl

/-! `Chip.setCheck` -/
@[simp] theorem Chip.setCheck_pins (k : Check) : (c.setCheck k).pins = c.pins := rfl
@[simp] theorem Chip.setCheck_boot (k : Check) : (c.setCheck k).boot = c.boot := rfl
@[simp] theorem Chip.setCheck_mcs (k : Check) : (c.setCheck k).mcs = c.mcs := rfl
@[simp] theorem Chip.setCheck_dump (k : Check) : (c.setCheck k).dump = c.dump := rfl
@[simp] theorem Chip.setCheck_ctl (k : Check) : (c.setCheck k).ctl = c.ctl := rfl
@[simp] theorem Chip.setCheck_cores (k : Check) : (c.setCheck k).cores = c.cores := rfl
@[simp] theorem Chip.setCheck_gtx (k : Check) : (c.setCheck k).gtx = c.gtx := rfl
@[simp] theorem Chip.setCheck_coh (k : Check) : (c.setCheck k).coh = c.coh := rfl
@[simp] theorem Chip.setCheck_swc (k : Check) : (c.setCheck k).swc = c.swc := rfl
@[simp] theorem Chip.setCheck_lnk (k : Check) : (c.setCheck k).lnk = c.lnk := rfl
@[simp] theorem Chip.setCheck_eng (k : Check) : (c.setCheck k).eng = c.eng := rfl
@[simp] theorem Chip.setCheck_mem (k : Check) : (c.setCheck k).mem = c.mem := rfl
@[simp] theorem Chip.setCheck_sft (k : Check) : (c.setCheck k).sft = c.sft := rfl
@[simp] theorem Chip.setCheck_sec (k : Check) : (c.setCheck k).sec = c.sec := rfl
@[simp] theorem Chip.setCheck_parts (k : Check) : (c.setCheck k).parts = c.parts := rfl
@[simp] theorem Chip.setCheck_irq (k : Check) : (c.setCheck k).irq = c.irq := rfl
@[simp] theorem Chip.setCheck_mgt (k : Check) : (c.setCheck k).mgt = c.mgt := rfl
@[simp] theorem Chip.setCheck_pwr (k : Check) : (c.setCheck k).pwr = c.pwr := rfl
@[simp] theorem Chip.setCheck_draws (k : Check) : (c.setCheck k).draws = c.draws := rfl

/-! `Chip.setOp` -/
@[simp] theorem Chip.setOp_pins (o : EngOp) : (c.setOp o).pins = c.pins := rfl
@[simp] theorem Chip.setOp_boot (o : EngOp) : (c.setOp o).boot = c.boot := rfl
@[simp] theorem Chip.setOp_mcs (o : EngOp) : (c.setOp o).mcs = c.mcs := rfl
@[simp] theorem Chip.setOp_dump (o : EngOp) : (c.setOp o).dump = c.dump := rfl
@[simp] theorem Chip.setOp_ctl (o : EngOp) : (c.setOp o).ctl = c.ctl := rfl
@[simp] theorem Chip.setOp_cores (o : EngOp) : (c.setOp o).cores = c.cores := rfl
@[simp] theorem Chip.setOp_gtx (o : EngOp) : (c.setOp o).gtx = c.gtx := rfl
@[simp] theorem Chip.setOp_coh (o : EngOp) : (c.setOp o).coh = c.coh := rfl
@[simp] theorem Chip.setOp_swc (o : EngOp) : (c.setOp o).swc = c.swc := rfl
@[simp] theorem Chip.setOp_lnk (o : EngOp) : (c.setOp o).lnk = c.lnk := rfl
@[simp] theorem Chip.setOp_dsp (o : EngOp) : (c.setOp o).dsp = c.dsp := rfl
@[simp] theorem Chip.setOp_mem (o : EngOp) : (c.setOp o).mem = c.mem := rfl
@[simp] theorem Chip.setOp_sft (o : EngOp) : (c.setOp o).sft = c.sft := rfl
@[simp] theorem Chip.setOp_sec (o : EngOp) : (c.setOp o).sec = c.sec := rfl
@[simp] theorem Chip.setOp_parts (o : EngOp) : (c.setOp o).parts = c.parts := rfl
@[simp] theorem Chip.setOp_irq (o : EngOp) : (c.setOp o).irq = c.irq := rfl
@[simp] theorem Chip.setOp_mgt (o : EngOp) : (c.setOp o).mgt = c.mgt := rfl
@[simp] theorem Chip.setOp_pwr (o : EngOp) : (c.setOp o).pwr = c.pwr := rfl
@[simp] theorem Chip.setOp_draws (o : EngOp) : (c.setOp o).draws = c.draws := rfl

/-! `Chip.addOp` -/
@[simp] theorem Chip.addOp_pins (o : EngOp) : (c.addOp o).pins = c.pins := rfl
@[simp] theorem Chip.addOp_boot (o : EngOp) : (c.addOp o).boot = c.boot := rfl
@[simp] theorem Chip.addOp_mcs (o : EngOp) : (c.addOp o).mcs = c.mcs := rfl
@[simp] theorem Chip.addOp_dump (o : EngOp) : (c.addOp o).dump = c.dump := rfl
@[simp] theorem Chip.addOp_ctl (o : EngOp) : (c.addOp o).ctl = c.ctl := rfl
@[simp] theorem Chip.addOp_cores (o : EngOp) : (c.addOp o).cores = c.cores := rfl
@[simp] theorem Chip.addOp_gtx (o : EngOp) : (c.addOp o).gtx = c.gtx := rfl
@[simp] theorem Chip.addOp_coh (o : EngOp) : (c.addOp o).coh = c.coh := rfl
@[simp] theorem Chip.addOp_swc (o : EngOp) : (c.addOp o).swc = c.swc := rfl
@[simp] theorem Chip.addOp_lnk (o : EngOp) : (c.addOp o).lnk = c.lnk := rfl
@[simp] theorem Chip.addOp_dsp (o : EngOp) : (c.addOp o).dsp = c.dsp := rfl
@[simp] theorem Chip.addOp_mem (o : EngOp) : (c.addOp o).mem = c.mem := rfl
@[simp] theorem Chip.addOp_sft (o : EngOp) : (c.addOp o).sft = c.sft := rfl
@[simp] theorem Chip.addOp_sec (o : EngOp) : (c.addOp o).sec = c.sec := rfl
@[simp] theorem Chip.addOp_parts (o : EngOp) : (c.addOp o).parts = c.parts := rfl
@[simp] theorem Chip.addOp_irq (o : EngOp) : (c.addOp o).irq = c.irq := rfl
@[simp] theorem Chip.addOp_mgt (o : EngOp) : (c.addOp o).mgt = c.mgt := rfl
@[simp] theorem Chip.addOp_pwr (o : EngOp) : (c.addOp o).pwr = c.pwr := rfl
@[simp] theorem Chip.addOp_draws (o : EngOp) : (c.addOp o).draws = c.draws := rfl

/-! `Chip.delOp` -/
@[simp] theorem Chip.delOp_pins (o : EngOp) : (c.delOp o).pins = c.pins := rfl
@[simp] theorem Chip.delOp_boot (o : EngOp) : (c.delOp o).boot = c.boot := rfl
@[simp] theorem Chip.delOp_mcs (o : EngOp) : (c.delOp o).mcs = c.mcs := rfl
@[simp] theorem Chip.delOp_dump (o : EngOp) : (c.delOp o).dump = c.dump := rfl
@[simp] theorem Chip.delOp_ctl (o : EngOp) : (c.delOp o).ctl = c.ctl := rfl
@[simp] theorem Chip.delOp_cores (o : EngOp) : (c.delOp o).cores = c.cores := rfl
@[simp] theorem Chip.delOp_gtx (o : EngOp) : (c.delOp o).gtx = c.gtx := rfl
@[simp] theorem Chip.delOp_coh (o : EngOp) : (c.delOp o).coh = c.coh := rfl
@[simp] theorem Chip.delOp_swc (o : EngOp) : (c.delOp o).swc = c.swc := rfl
@[simp] theorem Chip.delOp_lnk (o : EngOp) : (c.delOp o).lnk = c.lnk := rfl
@[simp] theorem Chip.delOp_dsp (o : EngOp) : (c.delOp o).dsp = c.dsp := rfl
@[simp] theorem Chip.delOp_mem (o : EngOp) : (c.delOp o).mem = c.mem := rfl
@[simp] theorem Chip.delOp_sft (o : EngOp) : (c.delOp o).sft = c.sft := rfl
@[simp] theorem Chip.delOp_sec (o : EngOp) : (c.delOp o).sec = c.sec := rfl
@[simp] theorem Chip.delOp_parts (o : EngOp) : (c.delOp o).parts = c.parts := rfl
@[simp] theorem Chip.delOp_irq (o : EngOp) : (c.delOp o).irq = c.irq := rfl
@[simp] theorem Chip.delOp_mgt (o : EngOp) : (c.delOp o).mgt = c.mgt := rfl
@[simp] theorem Chip.delOp_pwr (o : EngOp) : (c.delOp o).pwr = c.pwr := rfl
@[simp] theorem Chip.delOp_draws (o : EngOp) : (c.delOp o).draws = c.draws := rfl

/-! `Chip.setObj` -/
@[simp] theorem Chip.setObj_pins (id : Nat) (o : Obj) : (c.setObj id o).pins = c.pins := rfl
@[simp] theorem Chip.setObj_boot (id : Nat) (o : Obj) : (c.setObj id o).boot = c.boot := rfl
@[simp] theorem Chip.setObj_mcs (id : Nat) (o : Obj) : (c.setObj id o).mcs = c.mcs := rfl
@[simp] theorem Chip.setObj_dump (id : Nat) (o : Obj) : (c.setObj id o).dump = c.dump := rfl
@[simp] theorem Chip.setObj_ctl (id : Nat) (o : Obj) : (c.setObj id o).ctl = c.ctl := rfl
@[simp] theorem Chip.setObj_cores (id : Nat) (o : Obj) : (c.setObj id o).cores = c.cores := rfl
@[simp] theorem Chip.setObj_gtx (id : Nat) (o : Obj) : (c.setObj id o).gtx = c.gtx := rfl
@[simp] theorem Chip.setObj_coh (id : Nat) (o : Obj) : (c.setObj id o).coh = c.coh := rfl
@[simp] theorem Chip.setObj_swc (id : Nat) (o : Obj) : (c.setObj id o).swc = c.swc := rfl
@[simp] theorem Chip.setObj_lnk (id : Nat) (o : Obj) : (c.setObj id o).lnk = c.lnk := rfl
@[simp] theorem Chip.setObj_dsp (id : Nat) (o : Obj) : (c.setObj id o).dsp = c.dsp := rfl
@[simp] theorem Chip.setObj_eng (id : Nat) (o : Obj) : (c.setObj id o).eng = c.eng := rfl
@[simp] theorem Chip.setObj_sft (id : Nat) (o : Obj) : (c.setObj id o).sft = c.sft := rfl
@[simp] theorem Chip.setObj_sec (id : Nat) (o : Obj) : (c.setObj id o).sec = c.sec := rfl
@[simp] theorem Chip.setObj_parts (id : Nat) (o : Obj) : (c.setObj id o).parts = c.parts := rfl
@[simp] theorem Chip.setObj_irq (id : Nat) (o : Obj) : (c.setObj id o).irq = c.irq := rfl
@[simp] theorem Chip.setObj_mgt (id : Nat) (o : Obj) : (c.setObj id o).mgt = c.mgt := rfl
@[simp] theorem Chip.setObj_pwr (id : Nat) (o : Obj) : (c.setObj id o).pwr = c.pwr := rfl
@[simp] theorem Chip.setObj_draws (id : Nat) (o : Obj) : (c.setObj id o).draws = c.draws := rfl

/-! `Chip.setStack` -/
@[simp] theorem Chip.setStack_pins (n : Nat) (d : DStack) : (c.setStack n d).pins = c.pins := rfl
@[simp] theorem Chip.setStack_boot (n : Nat) (d : DStack) : (c.setStack n d).boot = c.boot := rfl
@[simp] theorem Chip.setStack_mcs (n : Nat) (d : DStack) : (c.setStack n d).mcs = c.mcs := rfl
@[simp] theorem Chip.setStack_dump (n : Nat) (d : DStack) : (c.setStack n d).dump = c.dump := rfl
@[simp] theorem Chip.setStack_ctl (n : Nat) (d : DStack) : (c.setStack n d).ctl = c.ctl := rfl
@[simp] theorem Chip.setStack_cores (n : Nat) (d : DStack) : (c.setStack n d).cores = c.cores := rfl
@[simp] theorem Chip.setStack_gtx (n : Nat) (d : DStack) : (c.setStack n d).gtx = c.gtx := rfl
@[simp] theorem Chip.setStack_coh (n : Nat) (d : DStack) : (c.setStack n d).coh = c.coh := rfl
@[simp] theorem Chip.setStack_swc (n : Nat) (d : DStack) : (c.setStack n d).swc = c.swc := rfl
@[simp] theorem Chip.setStack_lnk (n : Nat) (d : DStack) : (c.setStack n d).lnk = c.lnk := rfl
@[simp] theorem Chip.setStack_dsp (n : Nat) (d : DStack) : (c.setStack n d).dsp = c.dsp := rfl
@[simp] theorem Chip.setStack_eng (n : Nat) (d : DStack) : (c.setStack n d).eng = c.eng := rfl
@[simp] theorem Chip.setStack_sft (n : Nat) (d : DStack) : (c.setStack n d).sft = c.sft := rfl
@[simp] theorem Chip.setStack_sec (n : Nat) (d : DStack) : (c.setStack n d).sec = c.sec := rfl
@[simp] theorem Chip.setStack_parts (n : Nat) (d : DStack) : (c.setStack n d).parts = c.parts := rfl
@[simp] theorem Chip.setStack_irq (n : Nat) (d : DStack) : (c.setStack n d).irq = c.irq := rfl
@[simp] theorem Chip.setStack_mgt (n : Nat) (d : DStack) : (c.setStack n d).mgt = c.mgt := rfl
@[simp] theorem Chip.setStack_pwr (n : Nat) (d : DStack) : (c.setStack n d).pwr = c.pwr := rfl
@[simp] theorem Chip.setStack_draws (n : Nat) (d : DStack) : (c.setStack n d).draws = c.draws := rfl

/-! `Chip.setBundle` -/
@[simp] theorem Chip.setBundle_pins (b : Bundle) : (c.setBundle b).pins = c.pins := rfl
@[simp] theorem Chip.setBundle_boot (b : Bundle) : (c.setBundle b).boot = c.boot := rfl
@[simp] theorem Chip.setBundle_mcs (b : Bundle) : (c.setBundle b).mcs = c.mcs := rfl
@[simp] theorem Chip.setBundle_dump (b : Bundle) : (c.setBundle b).dump = c.dump := rfl
@[simp] theorem Chip.setBundle_ctl (b : Bundle) : (c.setBundle b).ctl = c.ctl := rfl
@[simp] theorem Chip.setBundle_cores (b : Bundle) : (c.setBundle b).cores = c.cores := rfl
@[simp] theorem Chip.setBundle_gtx (b : Bundle) : (c.setBundle b).gtx = c.gtx := rfl
@[simp] theorem Chip.setBundle_coh (b : Bundle) : (c.setBundle b).coh = c.coh := rfl
@[simp] theorem Chip.setBundle_swc (b : Bundle) : (c.setBundle b).swc = c.swc := rfl
@[simp] theorem Chip.setBundle_lnk (b : Bundle) : (c.setBundle b).lnk = c.lnk := rfl
@[simp] theorem Chip.setBundle_dsp (b : Bundle) : (c.setBundle b).dsp = c.dsp := rfl
@[simp] theorem Chip.setBundle_eng (b : Bundle) : (c.setBundle b).eng = c.eng := rfl
@[simp] theorem Chip.setBundle_sft (b : Bundle) : (c.setBundle b).sft = c.sft := rfl
@[simp] theorem Chip.setBundle_sec (b : Bundle) : (c.setBundle b).sec = c.sec := rfl
@[simp] theorem Chip.setBundle_parts (b : Bundle) : (c.setBundle b).parts = c.parts := rfl
@[simp] theorem Chip.setBundle_irq (b : Bundle) : (c.setBundle b).irq = c.irq := rfl
@[simp] theorem Chip.setBundle_mgt (b : Bundle) : (c.setBundle b).mgt = c.mgt := rfl
@[simp] theorem Chip.setBundle_pwr (b : Bundle) : (c.setBundle b).pwr = c.pwr := rfl
@[simp] theorem Chip.setBundle_draws (b : Bundle) : (c.setBundle b).draws = c.draws := rfl

/-! `Chip.setJobs` -/
@[simp] theorem Chip.setJobs_pins (l : List CmpJob) : (c.setJobs l).pins = c.pins := rfl
@[simp] theorem Chip.setJobs_boot (l : List CmpJob) : (c.setJobs l).boot = c.boot := rfl
@[simp] theorem Chip.setJobs_mcs (l : List CmpJob) : (c.setJobs l).mcs = c.mcs := rfl
@[simp] theorem Chip.setJobs_dump (l : List CmpJob) : (c.setJobs l).dump = c.dump := rfl
@[simp] theorem Chip.setJobs_ctl (l : List CmpJob) : (c.setJobs l).ctl = c.ctl := rfl
@[simp] theorem Chip.setJobs_cores (l : List CmpJob) : (c.setJobs l).cores = c.cores := rfl
@[simp] theorem Chip.setJobs_gtx (l : List CmpJob) : (c.setJobs l).gtx = c.gtx := rfl
@[simp] theorem Chip.setJobs_coh (l : List CmpJob) : (c.setJobs l).coh = c.coh := rfl
@[simp] theorem Chip.setJobs_swc (l : List CmpJob) : (c.setJobs l).swc = c.swc := rfl
@[simp] theorem Chip.setJobs_lnk (l : List CmpJob) : (c.setJobs l).lnk = c.lnk := rfl
@[simp] theorem Chip.setJobs_dsp (l : List CmpJob) : (c.setJobs l).dsp = c.dsp := rfl
@[simp] theorem Chip.setJobs_eng (l : List CmpJob) : (c.setJobs l).eng = c.eng := rfl
@[simp] theorem Chip.setJobs_sft (l : List CmpJob) : (c.setJobs l).sft = c.sft := rfl
@[simp] theorem Chip.setJobs_sec (l : List CmpJob) : (c.setJobs l).sec = c.sec := rfl
@[simp] theorem Chip.setJobs_parts (l : List CmpJob) : (c.setJobs l).parts = c.parts := rfl
@[simp] theorem Chip.setJobs_irq (l : List CmpJob) : (c.setJobs l).irq = c.irq := rfl
@[simp] theorem Chip.setJobs_mgt (l : List CmpJob) : (c.setJobs l).mgt = c.mgt := rfl
@[simp] theorem Chip.setJobs_pwr (l : List CmpJob) : (c.setJobs l).pwr = c.pwr := rfl
@[simp] theorem Chip.setJobs_draws (l : List CmpJob) : (c.setJobs l).draws = c.draws := rfl

/-! `Chip.setSft` -/
@[simp] theorem Chip.setSft_pins (o : SftOp) : (c.setSft o).pins = c.pins := rfl
@[simp] theorem Chip.setSft_boot (o : SftOp) : (c.setSft o).boot = c.boot := rfl
@[simp] theorem Chip.setSft_mcs (o : SftOp) : (c.setSft o).mcs = c.mcs := rfl
@[simp] theorem Chip.setSft_dump (o : SftOp) : (c.setSft o).dump = c.dump := rfl
@[simp] theorem Chip.setSft_ctl (o : SftOp) : (c.setSft o).ctl = c.ctl := rfl
@[simp] theorem Chip.setSft_cores (o : SftOp) : (c.setSft o).cores = c.cores := rfl
@[simp] theorem Chip.setSft_gtx (o : SftOp) : (c.setSft o).gtx = c.gtx := rfl
@[simp] theorem Chip.setSft_coh (o : SftOp) : (c.setSft o).coh = c.coh := rfl
@[simp] theorem Chip.setSft_swc (o : SftOp) : (c.setSft o).swc = c.swc := rfl
@[simp] theorem Chip.setSft_lnk (o : SftOp) : (c.setSft o).lnk = c.lnk := rfl
@[simp] theorem Chip.setSft_dsp (o : SftOp) : (c.setSft o).dsp = c.dsp := rfl
@[simp] theorem Chip.setSft_eng (o : SftOp) : (c.setSft o).eng = c.eng := rfl
@[simp] theorem Chip.setSft_mem (o : SftOp) : (c.setSft o).mem = c.mem := rfl
@[simp] theorem Chip.setSft_sec (o : SftOp) : (c.setSft o).sec = c.sec := rfl
@[simp] theorem Chip.setSft_parts (o : SftOp) : (c.setSft o).parts = c.parts := rfl
@[simp] theorem Chip.setSft_irq (o : SftOp) : (c.setSft o).irq = c.irq := rfl
@[simp] theorem Chip.setSft_mgt (o : SftOp) : (c.setSft o).mgt = c.mgt := rfl
@[simp] theorem Chip.setSft_pwr (o : SftOp) : (c.setSft o).pwr = c.pwr := rfl
@[simp] theorem Chip.setSft_draws (o : SftOp) : (c.setSft o).draws = c.draws := rfl

/-! `Chip.setRegion` -/
@[simp] theorem Chip.setRegion_pins (k : Nat) (r : Region) : (c.setRegion k r).pins = c.pins := rfl
@[simp] theorem Chip.setRegion_boot (k : Nat) (r : Region) : (c.setRegion k r).boot = c.boot := rfl
@[simp] theorem Chip.setRegion_mcs (k : Nat) (r : Region) : (c.setRegion k r).mcs = c.mcs := rfl
@[simp] theorem Chip.setRegion_dump (k : Nat) (r : Region) : (c.setRegion k r).dump = c.dump := rfl
@[simp] theorem Chip.setRegion_ctl (k : Nat) (r : Region) : (c.setRegion k r).ctl = c.ctl := rfl
@[simp] theorem Chip.setRegion_cores (k : Nat) (r : Region) : (c.setRegion k r).cores = c.cores := rfl
@[simp] theorem Chip.setRegion_gtx (k : Nat) (r : Region) : (c.setRegion k r).gtx = c.gtx := rfl
@[simp] theorem Chip.setRegion_coh (k : Nat) (r : Region) : (c.setRegion k r).coh = c.coh := rfl
@[simp] theorem Chip.setRegion_swc (k : Nat) (r : Region) : (c.setRegion k r).swc = c.swc := rfl
@[simp] theorem Chip.setRegion_lnk (k : Nat) (r : Region) : (c.setRegion k r).lnk = c.lnk := rfl
@[simp] theorem Chip.setRegion_dsp (k : Nat) (r : Region) : (c.setRegion k r).dsp = c.dsp := rfl
@[simp] theorem Chip.setRegion_eng (k : Nat) (r : Region) : (c.setRegion k r).eng = c.eng := rfl
@[simp] theorem Chip.setRegion_mem (k : Nat) (r : Region) : (c.setRegion k r).mem = c.mem := rfl
@[simp] theorem Chip.setRegion_sft (k : Nat) (r : Region) : (c.setRegion k r).sft = c.sft := rfl
@[simp] theorem Chip.setRegion_parts (k : Nat) (r : Region) : (c.setRegion k r).parts = c.parts := rfl
@[simp] theorem Chip.setRegion_irq (k : Nat) (r : Region) : (c.setRegion k r).irq = c.irq := rfl
@[simp] theorem Chip.setRegion_mgt (k : Nat) (r : Region) : (c.setRegion k r).mgt = c.mgt := rfl
@[simp] theorem Chip.setRegion_pwr (k : Nat) (r : Region) : (c.setRegion k r).pwr = c.pwr := rfl
@[simp] theorem Chip.setRegion_draws (k : Nat) (r : Region) : (c.setRegion k r).draws = c.draws := rfl

/-! `Chip.setGrants` -/
@[simp] theorem Chip.setGrants_pins (g : KMap Grant) : (c.setGrants g).pins = c.pins := rfl
@[simp] theorem Chip.setGrants_boot (g : KMap Grant) : (c.setGrants g).boot = c.boot := rfl
@[simp] theorem Chip.setGrants_mcs (g : KMap Grant) : (c.setGrants g).mcs = c.mcs := rfl
@[simp] theorem Chip.setGrants_dump (g : KMap Grant) : (c.setGrants g).dump = c.dump := rfl
@[simp] theorem Chip.setGrants_ctl (g : KMap Grant) : (c.setGrants g).ctl = c.ctl := rfl
@[simp] theorem Chip.setGrants_cores (g : KMap Grant) : (c.setGrants g).cores = c.cores := rfl
@[simp] theorem Chip.setGrants_gtx (g : KMap Grant) : (c.setGrants g).gtx = c.gtx := rfl
@[simp] theorem Chip.setGrants_coh (g : KMap Grant) : (c.setGrants g).coh = c.coh := rfl
@[simp] theorem Chip.setGrants_swc (g : KMap Grant) : (c.setGrants g).swc = c.swc := rfl
@[simp] theorem Chip.setGrants_lnk (g : KMap Grant) : (c.setGrants g).lnk = c.lnk := rfl
@[simp] theorem Chip.setGrants_dsp (g : KMap Grant) : (c.setGrants g).dsp = c.dsp := rfl
@[simp] theorem Chip.setGrants_eng (g : KMap Grant) : (c.setGrants g).eng = c.eng := rfl
@[simp] theorem Chip.setGrants_mem (g : KMap Grant) : (c.setGrants g).mem = c.mem := rfl
@[simp] theorem Chip.setGrants_sft (g : KMap Grant) : (c.setGrants g).sft = c.sft := rfl
@[simp] theorem Chip.setGrants_parts (g : KMap Grant) : (c.setGrants g).parts = c.parts := rfl
@[simp] theorem Chip.setGrants_irq (g : KMap Grant) : (c.setGrants g).irq = c.irq := rfl
@[simp] theorem Chip.setGrants_mgt (g : KMap Grant) : (c.setGrants g).mgt = c.mgt := rfl
@[simp] theorem Chip.setGrants_pwr (g : KMap Grant) : (c.setGrants g).pwr = c.pwr := rfl
@[simp] theorem Chip.setGrants_draws (g : KMap Grant) : (c.setGrants g).draws = c.draws := rfl

/-! `Chip.setPart` -/
@[simp] theorem Chip.setPart_pins (p : Nat) (v : Part) : (c.setPart p v).pins = c.pins := rfl
@[simp] theorem Chip.setPart_boot (p : Nat) (v : Part) : (c.setPart p v).boot = c.boot := rfl
@[simp] theorem Chip.setPart_mcs (p : Nat) (v : Part) : (c.setPart p v).mcs = c.mcs := rfl
@[simp] theorem Chip.setPart_dump (p : Nat) (v : Part) : (c.setPart p v).dump = c.dump := rfl
@[simp] theorem Chip.setPart_ctl (p : Nat) (v : Part) : (c.setPart p v).ctl = c.ctl := rfl
@[simp] theorem Chip.setPart_cores (p : Nat) (v : Part) : (c.setPart p v).cores = c.cores := rfl
@[simp] theorem Chip.setPart_gtx (p : Nat) (v : Part) : (c.setPart p v).gtx = c.gtx := rfl
@[simp] theorem Chip.setPart_coh (p : Nat) (v : Part) : (c.setPart p v).coh = c.coh := rfl
@[simp] theorem Chip.setPart_swc (p : Nat) (v : Part) : (c.setPart p v).swc = c.swc := rfl
@[simp] theorem Chip.setPart_lnk (p : Nat) (v : Part) : (c.setPart p v).lnk = c.lnk := rfl
@[simp] theorem Chip.setPart_dsp (p : Nat) (v : Part) : (c.setPart p v).dsp = c.dsp := rfl
@[simp] theorem Chip.setPart_eng (p : Nat) (v : Part) : (c.setPart p v).eng = c.eng := rfl
@[simp] theorem Chip.setPart_mem (p : Nat) (v : Part) : (c.setPart p v).mem = c.mem := rfl
@[simp] theorem Chip.setPart_sft (p : Nat) (v : Part) : (c.setPart p v).sft = c.sft := rfl
@[simp] theorem Chip.setPart_sec (p : Nat) (v : Part) : (c.setPart p v).sec = c.sec := rfl
@[simp] theorem Chip.setPart_irq (p : Nat) (v : Part) : (c.setPart p v).irq = c.irq := rfl
@[simp] theorem Chip.setPart_mgt (p : Nat) (v : Part) : (c.setPart p v).mgt = c.mgt := rfl
@[simp] theorem Chip.setPart_pwr (p : Nat) (v : Part) : (c.setPart p v).pwr = c.pwr := rfl
@[simp] theorem Chip.setPart_draws (p : Nat) (v : Part) : (c.setPart p v).draws = c.draws := rfl

/-! `Chip.modIrqCore` -/
@[simp] theorem Chip.modIrqCore_pins (k : Nat) (f : IrqCore → IrqCore) : (c.modIrqCore k f).pins = c.pins := rfl
@[simp] theorem Chip.modIrqCore_boot (k : Nat) (f : IrqCore → IrqCore) : (c.modIrqCore k f).boot = c.boot := rfl
@[simp] theorem Chip.modIrqCore_mcs (k : Nat) (f : IrqCore → IrqCore) : (c.modIrqCore k f).mcs = c.mcs := rfl
@[simp] theorem Chip.modIrqCore_dump (k : Nat) (f : IrqCore → IrqCore) : (c.modIrqCore k f).dump = c.dump := rfl
@[simp] theorem Chip.modIrqCore_ctl (k : Nat) (f : IrqCore → IrqCore) : (c.modIrqCore k f).ctl = c.ctl := rfl
@[simp] theorem Chip.modIrqCore_cores (k : Nat) (f : IrqCore → IrqCore) : (c.modIrqCore k f).cores = c.cores := rfl
@[simp] theorem Chip.modIrqCore_gtx (k : Nat) (f : IrqCore → IrqCore) : (c.modIrqCore k f).gtx = c.gtx := rfl
@[simp] theorem Chip.modIrqCore_coh (k : Nat) (f : IrqCore → IrqCore) : (c.modIrqCore k f).coh = c.coh := rfl
@[simp] theorem Chip.modIrqCore_swc (k : Nat) (f : IrqCore → IrqCore) : (c.modIrqCore k f).swc = c.swc := rfl
@[simp] theorem Chip.modIrqCore_lnk (k : Nat) (f : IrqCore → IrqCore) : (c.modIrqCore k f).lnk = c.lnk := rfl
@[simp] theorem Chip.modIrqCore_dsp (k : Nat) (f : IrqCore → IrqCore) : (c.modIrqCore k f).dsp = c.dsp := rfl
@[simp] theorem Chip.modIrqCore_eng (k : Nat) (f : IrqCore → IrqCore) : (c.modIrqCore k f).eng = c.eng := rfl
@[simp] theorem Chip.modIrqCore_mem (k : Nat) (f : IrqCore → IrqCore) : (c.modIrqCore k f).mem = c.mem := rfl
@[simp] theorem Chip.modIrqCore_sft (k : Nat) (f : IrqCore → IrqCore) : (c.modIrqCore k f).sft = c.sft := rfl
@[simp] theorem Chip.modIrqCore_sec (k : Nat) (f : IrqCore → IrqCore) : (c.modIrqCore k f).sec = c.sec := rfl
@[simp] theorem Chip.modIrqCore_parts (k : Nat) (f : IrqCore → IrqCore) : (c.modIrqCore k f).parts = c.parts := rfl
@[simp] theorem Chip.modIrqCore_mgt (k : Nat) (f : IrqCore → IrqCore) : (c.modIrqCore k f).mgt = c.mgt := rfl
@[simp] theorem Chip.modIrqCore_pwr (k : Nat) (f : IrqCore → IrqCore) : (c.modIrqCore k f).pwr = c.pwr := rfl
@[simp] theorem Chip.modIrqCore_draws (k : Nat) (f : IrqCore → IrqCore) : (c.modIrqCore k f).draws = c.draws := rfl

/-! `Chip.modSession` -/
@[simp] theorem Chip.modSession_pins (id : Nat) (f : Session → Session) : (c.modSession id f).pins = c.pins := rfl
@[simp] theorem Chip.modSession_boot (id : Nat) (f : Session → Session) : (c.modSession id f).boot = c.boot := rfl
@[simp] theorem Chip.modSession_mcs (id : Nat) (f : Session → Session) : (c.modSession id f).mcs = c.mcs := rfl
@[simp] theorem Chip.modSession_dump (id : Nat) (f : Session → Session) : (c.modSession id f).dump = c.dump := rfl
@[simp] theorem Chip.modSession_ctl (id : Nat) (f : Session → Session) : (c.modSession id f).ctl = c.ctl := rfl
@[simp] theorem Chip.modSession_cores (id : Nat) (f : Session → Session) : (c.modSession id f).cores = c.cores := rfl
@[simp] theorem Chip.modSession_gtx (id : Nat) (f : Session → Session) : (c.modSession id f).gtx = c.gtx := rfl
@[simp] theorem Chip.modSession_coh (id : Nat) (f : Session → Session) : (c.modSession id f).coh = c.coh := rfl
@[simp] theorem Chip.modSession_swc (id : Nat) (f : Session → Session) : (c.modSession id f).swc = c.swc := rfl
@[simp] theorem Chip.modSession_lnk (id : Nat) (f : Session → Session) : (c.modSession id f).lnk = c.lnk := rfl
@[simp] theorem Chip.modSession_dsp (id : Nat) (f : Session → Session) : (c.modSession id f).dsp = c.dsp := rfl
@[simp] theorem Chip.modSession_eng (id : Nat) (f : Session → Session) : (c.modSession id f).eng = c.eng := rfl
@[simp] theorem Chip.modSession_mem (id : Nat) (f : Session → Session) : (c.modSession id f).mem = c.mem := rfl
@[simp] theorem Chip.modSession_sft (id : Nat) (f : Session → Session) : (c.modSession id f).sft = c.sft := rfl
@[simp] theorem Chip.modSession_sec (id : Nat) (f : Session → Session) : (c.modSession id f).sec = c.sec := rfl
@[simp] theorem Chip.modSession_parts (id : Nat) (f : Session → Session) : (c.modSession id f).parts = c.parts := rfl
@[simp] theorem Chip.modSession_irq (id : Nat) (f : Session → Session) : (c.modSession id f).irq = c.irq := rfl
@[simp] theorem Chip.modSession_pwr (id : Nat) (f : Session → Session) : (c.modSession id f).pwr = c.pwr := rfl
@[simp] theorem Chip.modSession_draws (id : Nat) (f : Session → Session) : (c.modSession id f).draws = c.draws := rfl

/-! `Chip.setPeer` -/
@[simp] theorem Chip.setPeer_pins (i : Nat) (p : Peer) : (c.setPeer i p).pins = c.pins := rfl
@[simp] theorem Chip.setPeer_boot (i : Nat) (p : Peer) : (c.setPeer i p).boot = c.boot := rfl
@[simp] theorem Chip.setPeer_mcs (i : Nat) (p : Peer) : (c.setPeer i p).mcs = c.mcs := rfl
@[simp] theorem Chip.setPeer_dump (i : Nat) (p : Peer) : (c.setPeer i p).dump = c.dump := rfl
@[simp] theorem Chip.setPeer_ctl (i : Nat) (p : Peer) : (c.setPeer i p).ctl = c.ctl := rfl
@[simp] theorem Chip.setPeer_cores (i : Nat) (p : Peer) : (c.setPeer i p).cores = c.cores := rfl
@[simp] theorem Chip.setPeer_gtx (i : Nat) (p : Peer) : (c.setPeer i p).gtx = c.gtx := rfl
@[simp] theorem Chip.setPeer_coh (i : Nat) (p : Peer) : (c.setPeer i p).coh = c.coh := rfl
@[simp] theorem Chip.setPeer_swc (i : Nat) (p : Peer) : (c.setPeer i p).swc = c.swc := rfl
@[simp] theorem Chip.setPeer_lnk (i : Nat) (p : Peer) : (c.setPeer i p).lnk = c.lnk := rfl
@[simp] theorem Chip.setPeer_dsp (i : Nat) (p : Peer) : (c.setPeer i p).dsp = c.dsp := rfl
@[simp] theorem Chip.setPeer_eng (i : Nat) (p : Peer) : (c.setPeer i p).eng = c.eng := rfl
@[simp] theorem Chip.setPeer_mem (i : Nat) (p : Peer) : (c.setPeer i p).mem = c.mem := rfl
@[simp] theorem Chip.setPeer_sft (i : Nat) (p : Peer) : (c.setPeer i p).sft = c.sft := rfl
@[simp] theorem Chip.setPeer_sec (i : Nat) (p : Peer) : (c.setPeer i p).sec = c.sec := rfl
@[simp] theorem Chip.setPeer_parts (i : Nat) (p : Peer) : (c.setPeer i p).parts = c.parts := rfl
@[simp] theorem Chip.setPeer_irq (i : Nat) (p : Peer) : (c.setPeer i p).irq = c.irq := rfl
@[simp] theorem Chip.setPeer_pwr (i : Nat) (p : Peer) : (c.setPeer i p).pwr = c.pwr := rfl
@[simp] theorem Chip.setPeer_draws (i : Nat) (p : Peer) : (c.setPeer i p).draws = c.draws := rfl

/-! `Chip.setRail` -/
@[simp] theorem Chip.setRail_pins (n : Nat) (r : Rail) : (c.setRail n r).pins = c.pins := rfl
@[simp] theorem Chip.setRail_boot (n : Nat) (r : Rail) : (c.setRail n r).boot = c.boot := rfl
@[simp] theorem Chip.setRail_mcs (n : Nat) (r : Rail) : (c.setRail n r).mcs = c.mcs := rfl
@[simp] theorem Chip.setRail_dump (n : Nat) (r : Rail) : (c.setRail n r).dump = c.dump := rfl
@[simp] theorem Chip.setRail_ctl (n : Nat) (r : Rail) : (c.setRail n r).ctl = c.ctl := rfl
@[simp] theorem Chip.setRail_cores (n : Nat) (r : Rail) : (c.setRail n r).cores = c.cores := rfl
@[simp] theorem Chip.setRail_gtx (n : Nat) (r : Rail) : (c.setRail n r).gtx = c.gtx := rfl
@[simp] theorem Chip.setRail_coh (n : Nat) (r : Rail) : (c.setRail n r).coh = c.coh := rfl
@[simp] theorem Chip.setRail_swc (n : Nat) (r : Rail) : (c.setRail n r).swc = c.swc := rfl
@[simp] theorem Chip.setRail_lnk (n : Nat) (r : Rail) : (c.setRail n r).lnk = c.lnk := rfl
@[simp] theorem Chip.setRail_dsp (n : Nat) (r : Rail) : (c.setRail n r).dsp = c.dsp := rfl
@[simp] theorem Chip.setRail_eng (n : Nat) (r : Rail) : (c.setRail n r).eng = c.eng := rfl
@[simp] theorem Chip.setRail_mem (n : Nat) (r : Rail) : (c.setRail n r).mem = c.mem := rfl
@[simp] theorem Chip.setRail_sft (n : Nat) (r : Rail) : (c.setRail n r).sft = c.sft := rfl
@[simp] theorem Chip.setRail_sec (n : Nat) (r : Rail) : (c.setRail n r).sec = c.sec := rfl
@[simp] theorem Chip.setRail_parts (n : Nat) (r : Rail) : (c.setRail n r).parts = c.parts := rfl
@[simp] theorem Chip.setRail_irq (n : Nat) (r : Rail) : (c.setRail n r).irq = c.irq := rfl
@[simp] theorem Chip.setRail_mgt (n : Nat) (r : Rail) : (c.setRail n r).mgt = c.mgt := rfl
@[simp] theorem Chip.setRail_draws (n : Nat) (r : Rail) : (c.setRail n r).draws = c.draws := rfl

end Sys2Proof.Machine
end

