-- ==== Sys2Proof/WellFormed.lean ====
section
/-! DEFINITION. Which commands are well formed: every operand inside the range the spec gives the
field that carries it. The meanings are total, so none of them relies on this. -/

namespace Sys2Proof

/-- Master codes of R588; a partition agent names its partition. -/
def Master.ok (m : Master) : Bool := decide (m.code < 12) && decide (m.part < 64)

/-- Field widths of R277. -/
def Req.ok (r : Req) : Bool :=
  decide (r.opc < 2 ^ 8) && decide (r.tc < 8) && decide (r.tag < 2 ^ 16) && decide (r.src < 2 ^ 12) &&
  decide (r.handle < 2 ^ 16) && decide (r.addr < 2 ^ 64) && decide (r.epoch < 2 ^ 8) && decide (r.attr < 2 ^ 8) &&
  decide (r.opnd < 2 ^ 32) && decide (r.rsv < 2 ^ 16) && decide (r.payload.length < 2 ^ 16)

/-- Field widths of R278. -/
def Rsp.ok (r : Rsp) : Bool :=
  decide (r.status < 16) && decide (r.tag < 2 ^ 16) && decide (r.dst < 2 ^ 12) && decide (r.src < 2 ^ 12) &&
  decide (r.info < 2 ^ 16) && decide (r.data.length < 2 ^ 16)

/-- Field widths of R282. -/
def SnpRsp.ok (r : SnpRsp) : Bool :=
  decide (r.tag < 2 ^ 16) && decide (r.dst < 2 ^ 12) && decide (r.src < 2 ^ 12) && decide (r.line.length < 2 ^ 16)

/-- Field widths of R319. -/
def FlitHdr.ok (h : FlitHdr) : Bool :=
  decide (h.cvc < 4) && decide (h.seq < 4096) && decide (h.ack < 4096) && decide (h.ccum < 2 ^ 16)

/-- Field widths of R322; the width is its code. -/
def CtrlBody.ok (b : CtrlBody) : Bool :=
  decide (b.lanes < 16) && decide (b.width < 4) && decide (b.reqId < 2 ^ 16) && decide (b.rank < 2 ^ 64) &&
  decide (b.initCred.length = 4) && (b.initCred.all fun n => decide (n < 2 ^ 16)) && decide (b.replayFlits < 2 ^ 16)

def Record.ok (r : Record) : Bool := decide (r.session < 2 ^ 32) && decide (r.seq < 2 ^ 64)

/-- Every operand fits the field that carries it. -/
def wellFormed : Instr → Bool
  | .powerOkRise => true
  | .resetHoldEnd => true
  | .powerOkFall => true
  | .resetNFall => true
  | .resetNRise => true
  | .smbusResetRequest _ _ => true
  | .smbusBlockRead addr => decide (addr < 2 ^ 48)
  | .jtagInstruction _ => true
  | .rombootSelfCheckDone _ _ => true
  | .sfdpReadDone _ _ _ => true
  | .imageLoadDone _ => true
  | .verifyDone _ _ _ => true
  | .coreRailCheck vout => decide (vout.length = 12)
  | .bringupWorkDone _ => true
  | .ethLinkUp => true
  | .heartbeatSend => true
  | .mcFailover => true
  | .heartbeatLost => true
  | .stewardPulse _ => true
  | .stewardComplexLost _ => true
  | .stewardDrainEnd => true
  | .recoveryDrainEnd => true
  | .dumpDone _ => true
  | .pauseFrame => true
  | .arpRequest _ _ _ _ => true
  | .neighborSolicitation _ _ _ _ => true
  | .icmpEcho _ _ _ _ _ => true
  | .ethFrameDiscard => true
  | .hello _ _ _ _ => true
  | .helloReply _ _ _ _ _ _ _ _ => true
  | .auth rec => rec.ok
  | .data rec => rec.ok
  | .close rec => rec.ok
  | .handshakeTimeout _ => true
  | .sessionIdleTimeout sess => decide (sess < 2 ^ 32)
  | .reassemblyTimeout sess reqId => decide (sess < 2 ^ 32) && decide (reqId < 2 ^ 32)
  | .nop sess reqId => decide (sess < 2 ^ 32) && decide (reqId < 2 ^ 32)
  | .devInfo sess reqId => decide (sess < 2 ^ 32) && decide (reqId < 2 ^ 32)
  | .devStart sess reqId => decide (sess < 2 ^ 32) && decide (reqId < 2 ^ 32)
  | .devTest sess reqId => decide (sess < 2 ^ 32) && decide (reqId < 2 ^ 32)
  | .devReset sess reqId => decide (sess < 2 ^ 32) && decide (reqId < 2 ^ 32)
  | .devResetDelayExpiry => true
  | .quote sess reqId _ => decide (sess < 2 ^ 32) && decide (reqId < 2 ^ 32)
  | .treeNew sess reqId => decide (sess < 2 ^ 32) && decide (reqId < 2 ^ 32)
  | .quoteTreeReady => true
  | .bundleOpen sess reqId bundle _ => decide (sess < 2 ^ 32) && decide (reqId < 2 ^ 32) && decide (bundle < 2 ^ 32)
  | .bundleMeta sess reqId bundle _ _ => decide (sess < 2 ^ 32) && decide (reqId < 2 ^ 32) && decide (bundle < 2 ^ 32)
  | .bundleCheck sess reqId bundle => decide (sess < 2 ^ 32) && decide (reqId < 2 ^ 32) && decide (bundle < 2 ^ 32)
  | .bundleData sess reqId bundle _ _ _ _ => decide (sess < 2 ^ 32) && decide (reqId < 2 ^ 32) && decide (bundle < 2 ^ 32)
  | .bundleClose sess reqId bundle => decide (sess < 2 ^ 32) && decide (reqId < 2 ^ 32) && decide (bundle < 2 ^ 32)
  | .bundleDelete sess reqId bundle => decide (sess < 2 ^ 32) && decide (reqId < 2 ^ 32) && decide (bundle < 2 ^ 32)
  | .keyRelease sess reqId _ => decide (sess < 2 ^ 32) && decide (reqId < 2 ^ 32)
  | .bundleKeyDrop sess reqId bundle => decide (sess < 2 ^ 32) && decide (reqId < 2 ^ 32) && decide (bundle < 2 ^ 32)
  | .objRegister sess reqId _ bundle _ part _ => decide (sess < 2 ^ 32) && decide (reqId < 2 ^ 32) && decide (bundle < 2 ^ 32) && decide (part < 64)
  | .objCreate sess reqId _ part _ _ => decide (sess < 2 ^ 32) && decide (reqId < 2 ^ 32) && decide (part < 64)
  | .objLoad sess reqId _ => decide (sess < 2 ^ 32) && decide (reqId < 2 ^ 32)
  | .loadDone _ _ => true
  | .objEvict sess reqId _ => decide (sess < 2 ^ 32) && decide (reqId < 2 ^ 32)
  | .objFill sess reqId _ _ => decide (sess < 2 ^ 32) && decide (reqId < 2 ^ 32)
  | .objDrop sess reqId _ bowl => decide (sess < 2 ^ 32) && decide (reqId < 2 ^ 32) && decide (bowl < 8192)
  | .objDelete sess reqId _ => decide (sess < 2 ^ 32) && decide (reqId < 2 ^ 32)
  | .objDemand sess reqId _ _ => decide (sess < 2 ^ 32) && decide (reqId < 2 ^ 32)
  | .objQuery sess reqId _ => decide (sess < 2 ^ 32) && decide (reqId < 2 ^ 32)
  | .regionCreate sess reqId part _ _ _ _ => decide (sess < 2 ^ 32) && decide (reqId < 2 ^ 32) && decide (part < 64)
  | .regionRevoke sess reqId handle => decide (sess < 2 ^ 32) && decide (reqId < 2 ^ 32) && decide (handle < 2 ^ 32)
  | .regionDelete sess reqId handle => decide (sess < 2 ^ 32) && decide (reqId < 2 ^ 32) && decide (handle < 2 ^ 32)
  | .grantAdd sess reqId handle node _ => decide (sess < 2 ^ 32) && decide (reqId < 2 ^ 32) && decide (handle < 2 ^ 32) && decide (node < 4096)
  | .grantRemove sess reqId handle node => decide (sess < 2 ^ 32) && decide (reqId < 2 ^ 32) && decide (handle < 2 ^ 32) && decide (node < 4096)
  | .linkExchange sess reqId node _ _ _ _ _ => decide (sess < 2 ^ 32) && decide (reqId < 2 ^ 32) && decide (node < 4096)
  | .linkMode sess reqId node _ => decide (sess < 2 ^ 32) && decide (reqId < 2 ^ 32) && decide (node < 4096)
  | .partCreate sess reqId part node => decide (sess < 2 ^ 32) && decide (reqId < 2 ^ 32) && decide (part < 64) && decide (node < 4096)
  | .partActivate sess reqId part => decide (sess < 2 ^ 32) && decide (reqId < 2 ^ 32) && decide (part < 64)
  | .partReset sess reqId part => decide (sess < 2 ^ 32) && decide (reqId < 2 ^ 32) && decide (part < 64)
  | .partDelete sess reqId part => decide (sess < 2 ^ 32) && decide (reqId < 2 ^ 32) && decide (part < 64)
  | .cmpJob sess reqId die words => decide (sess < 2 ^ 32) && decide (reqId < 2 ^ 32) && decide (die < 13) && decide (words.length < 64)
  | .jobEnd die => decide (die < 13)
  | .regRead sess reqId _ => decide (sess < 2 ^ 32) && decide (reqId < 2 ^ 32)
  | .regWrite sess reqId _ => decide (sess < 2 ^ 32) && decide (reqId < 2 ^ 32)
  | .cntRead sess reqId _ => decide (sess < 2 ^ 32) && decide (reqId < 2 ^ 32)
  | .cntClear sess reqId _ => decide (sess < 2 ^ 32) && decide (reqId < 2 ^ 32)
  | .dumpInfo sess reqId => decide (sess < 2 ^ 32) && decide (reqId < 2 ^ 32)
  | .dumpRead sess reqId _ _ => decide (sess < 2 ^ 32) && decide (reqId < 2 ^ 32)
  | .dumpRelease sess reqId => decide (sess < 2 ^ 32) && decide (reqId < 2 ^ 32)
  | .peerSet sess reqId _ _ _ _ _ => decide (sess < 2 ^ 32) && decide (reqId < 2 ^ 32)
  | .peerOpen sess reqId _ => decide (sess < 2 ^ 32) && decide (reqId < 2 ^ 32)
  | .peerClose sess reqId _ => decide (sess < 2 ^ 32) && decide (reqId < 2 ^ 32)
  | .handoffOffer sess reqId _ _ _ _ => decide (sess < 2 ^ 32) && decide (reqId < 2 ^ 32)
  | .handoffExpect sess reqId _ _ => decide (sess < 2 ^ 32) && decide (reqId < 2 ^ 32)
  | .handoffQuery sess reqId _ _ _ => decide (sess < 2 ^ 32) && decide (reqId < 2 ^ 32)
  | .handoffReclaim sess reqId _ => decide (sess < 2 ^ 32) && decide (reqId < 2 ^ 32)
  | .peerMsg sess _ _ => decide (sess < 2 ^ 32)
  | .msgAck sess _ _ => decide (sess < 2 ^ 32)
  | .msgResendTimeout _ _ => true
  | .hoOffer sess _ _ _ _ _ _ _ _ => decide (sess < 2 ^ 32)
  | .hoAccept sess _ _ => decide (sess < 2 ^ 32)
  | .hoCommit sess _ _ => decide (sess < 2 ^ 32)
  | .hoAck sess _ _ _ _ => decide (sess < 2 ^ 32)
  | .handoffResendTimeout _ => true
  | .offeredTimeout _ => true
  | .tentativeTimeout _ => true
  | .rdNc port vc req => decide (port < 256) && decide (vc < 4) && req.ok
  | .rdS port vc req => decide (port < 256) && decide (vc < 4) && req.ok
  | .rdX port vc req => decide (port < 256) && decide (vc < 4) && req.ok
  | .wr port vc req => decide (port < 256) && decide (vc < 4) && req.ok
  | .wb port vc req => decide (port < 256) && decide (vc < 4) && req.ok
  | .evict port vc req => decide (port < 256) && decide (vc < 4) && req.ok
  | .atomic port vc req => decide (port < 256) && decide (vc < 4) && req.ok
  | .bstore port vc req => decide (port < 256) && decide (vc < 4) && req.ok
  | .tstore port vc req => decide (port < 256) && decide (vc < 4) && req.ok
  | .mstore port vc req => decide (port < 256) && decide (vc < 4) && req.ok
  | .reduce port vc req => decide (port < 256) && decide (vc < 4) && req.ok
  | .msg port vc req => decide (port < 256) && decide (vc < 4) && req.ok
  | .rsp port rsp => decide (port < 256) && rsp.ok
  | .rspTimeout _ => true
  | .snpRsp port rsp => decide (port < 256) && rsp.ok
  | .lineTransactionEnd _ => true
  | .reservationExpiry _ => true
  | .snoopResend _ => true
  | .snoopTimeout _ => true
  | .snoopFilterSweepDone node => decide (node < 4096)
  | .shareWaitResume part die => decide (part < 64) && decide (die < 13)
  | .heldStoreRelease die => decide (die < 13)
  | .dataFlit port flit => decide (port < 256) && decide (flit.length = 256)
  | .idleFlit port hdr => decide (port < 256) && hdr.ok
  | .trainRec port hdr body => decide (port < 256) && hdr.ok && body.ok
  | .trainAck port hdr body => decide (port < 256) && hdr.ok && body.ok
  | .retrainReq port hdr body => decide (port < 256) && hdr.ok && body.ok
  | .widthReq port hdr body => decide (port < 256) && hdr.ok && body.ok
  | .accept port hdr body => decide (port < 256) && hdr.ok && body.ok
  | .goingDown port hdr body => decide (port < 256) && hdr.ok && body.ok
  | .ctrlResend port => decide (port < 256)
  | .ackTimeout port => decide (port < 256)
  | .framingLockLoss port lanes => decide (port < 256) && decide (lanes < 16)
  | .fecUncorrectable port _ => decide (port < 256)
  | .errorWindowEnd port => decide (port < 256)
  | .laneLock port lane => decide (port < 256) && decide (lane < 128)
  | .creditTimeout port vc => decide (port < 256) && decide (vc < 4)
  | .trainTimeout port => decide (port < 256)
  | .retrainTimeout port => decide (port < 256)
  | .autoRestart port => decide (port < 256)
  | .restart port => decide (port < 256)
  | .retrain port => decide (port < 256)
  | .narrow port lanes => decide (port < 256) && decide (lanes < 16)
  | .down port => decide (port < 256)
  | .testEnter port => decide (port < 256)
  | .testExit port => decide (port < 256)
  | .lnkPortCfgWrite m port _ => m.ok && decide (port < 256)
  | .lnkCtrlWrite m die _ => m.ok && decide (die < 13)
  | .d2dTransferError die link => decide (die < 13) && decide (link < 16)
  | .d2dFault die link => decide (die < 13) && decide (link < 16)
  | .auditStart die => decide (die < 13)
  | .markPhaseEnd die => decide (die < 13)
  | .auditSweepEnd die => decide (die < 13)
  | .gateEntryEnd port => decide (port < 256)
  | .bankSwitchRequest m port _ => m.ok && decide (port < 256)
  | .queueSample port => decide (port < 256)
  | .setTimeout die window slot => decide (die < 13) && decide (window < 1024) && decide (slot < 4096)
  | .kernelLaunch die silent => decide (die < 13) && silent.all fun e => decide (e.core < 25088)
  | .tileFillDone _ core => decide (core < 25088)
  | .refetchDone _ core => decide (core < 25088)
  | .kernelRunEnd _ => true
  | .watchdog _ => true
  | .residueError core ctx slot _ _ _ _ _ _ => decide (ctx < 4) && decide (core < 25088) && decide (slot < 4096)
  | .coreStoreEccError core ctx slot _ _ _ => decide (ctx < 4) && decide (core < 25088) && decide (slot < 4096)
  | .autoSubstitution core => decide (core < 25088)
  | .scrubDone core => decide (core < 25088)
  | .bowlTimeout _ => true
  | .checkRunEnd _ mon => mon.all fun m => decide (m.1 < 25088)
  | .checkTimeout _ => true
  | .serviceReport part => decide (part < 64)
  | .corCoreStateWrite m core _ => m.ok && decide (core < 25088)
  | .corBowlDescWrite m bowl _ => m.ok && decide (bowl < 8192)
  | .windowEntryWrite m _ window _ => m.ok && decide (window < 1024)
  | .indexTableWrite m _ _ => m.ok
  | .outputSegment _ => true
  | .stagingGranted _ _ => true
  | .opTimeout _ => true
  | .engCfgWrite m _ _ _ => m.ok
  | .stackFailed stack _ => decide (stack < 16)
  | .dramReadError pool _ _ _ _ => decide (pool < 2 ^ 40)
  | .memFailCmd m _ => m.ok
  | .memCtrlWrite m _ => m.ok
  | .spareInduction => true
  | .pass1End => true
  | .rebuildDone => true
  | .flashFailed stack => decide (stack < 16)
  | .sifterOpStart bowl => decide (bowl < 8192)
  | .search _ => true
  | .insert _ => true
  | .delete _ => true
  | .compact _ => true
  | .queryTimeout _ => true
  | .revokeRetireDone slot => decide (slot < 4096)
  | .revokeSlow slot => decide (slot < 4096)
  | .drainEnd part => decide (part < 64)
  | .drainTimeout part => decide (part < 64)
  | .partitionSweepDone part => decide (part < 64)
  | .irqAck m core => m.ok && decide (core < 8)
  | .irqEoi m core _ => m.ok && decide (core < 8)
  | .modIntExpiry core => decide (core < 8)
  | .irqSwSet m _ => m.ok
  | .irqCoreCfgWrite m core _ => m.ok && decide (core < 8)
  | .irqVecCfgWrite m part vec _ => m.ok && decide (part < 64) && decide (vec < 8)
  | .pmbusPoll rails => decide (rails.length = 12)
  | .capLoopEvaluation => true
  | .thermWarn temps => decide (temps.length = 12)
  | .thermTrip die _ => decide (die < 13)
  | .registerWrite m addr _ => m.ok && decide (addr < 2 ^ 48)
  | .counterLoRead m addr => m.ok && decide (addr < 2 ^ 48)
  | .controlAccessTimeout m addr _ => m.ok && decide (addr < 2 ^ 48)
  | .devShdHoldWrite m _ => m.ok
  | .shdHoldExpiry => true
  | .triPeriodicVote _ => true
  | .cohProbe m die _ => m.ok && decide (die < 13)
  | .cohSharerWrite m slot _ => m.ok && decide (slot < 4096)
  | .gtxStreamWrite m stream _ => m.ok && decide (stream < 1024)
  | .gtxNodeWrite m node _ => m.ok && decide (node < 4096)
  | .swcPartShareWrite m die part _ => m.ok && decide (die < 13) && decide (part < 64)
  | .mgtRxCfgWrite m part _ => m.ok && decide (part < 64)
  | .flitSend port => decide (port < 256)
  | .shadowRefresh => true
  | .powerApplied => true
  | .powerRemoved => true
  | .crystalStopped => true
  | .patternCheckerLock die lane => decide (die < 13) && decide (lane < 128)
  | .channelRetrainingAttempt stack channel _ => decide (stack < 16) && decide (channel < 32)
  | .ethLinkDown => true

/-- The command is one the hardware's encodings can carry. -/
def WellFormed (i : Instr) : Prop := wellFormed i = true

end Sys2Proof
end

