-- ==== Sys2Proof/Tests/Slice0.lean ====
section
/-! SUPPORT. Tests: commands that no encoding can carry are refused by the checks, single steps on small states
against the spec's tables, and states that meet the hypotheses of the statements. The kernel evaluates them one
after another. -/

set_option Elab.async false

namespace Sys2Proof.Tests

open Sys2Proof Sys2Proof.Machine

/-! ### Ill-formed commands (R277-R282, R319, R322, R516, R525, R588) -/

def master : Master := { code := 8 }

theorem test_bad_masters : ([.irqAck { code := 12 } 0, .registerWrite { code := 9, part := 64 } 0 0,
    .registerWrite master (2 ^ 48) 0, .counterLoRead master (2 ^ 48), .irqAck master 8,
    .irqVecCfgWrite master 64 0 0, .irqVecCfgWrite master 0 8 0] : List Instr).all (fun i => !wellFormed i) = true := by decide

theorem test_bad_requests : ([.rdNc 256 0 {}, .rdNc 0 4 {}, .wr 0 0 { tc := 8 }, .wr 0 0 { tag := 65536 },
    .wr 0 0 { src := 4096 }, .wr 0 0 { handle := 65536 }, .wr 0 0 { epoch := 256 }, .wr 0 0 { attr := 256 },
    .wr 0 0 { rsv := 65536 }, .rsp 0 { status := 16 }, .rsp 0 { dst := 4096 }, .snpRsp 0 { src := 4096 }] : List Instr).all
    (fun i => !wellFormed i) = true := by decide

theorem test_bad_flits : ([.dataFlit 0 [], .idleFlit 0 { cvc := 4 }, .idleFlit 0 { seq := 4096 }, .idleFlit 0 { ack := 4096 },
    .idleFlit 256 {}, .trainRec 0 {} { lanes := 16 }, .trainRec 0 {} { width := 4 }, .trainRec 0 {} { initCred := [] },
    .laneLock 0 128, .creditTimeout 0 4, .narrow 0 16] : List Instr).all (fun i => !wellFormed i) = true := by decide

theorem test_bad_commands : ([.nop (2 ^ 32) 0, .nop 0 (2 ^ 32), .auth { session := 2 ^ 32 }, .auth { seq := 2 ^ 64 },
    .partCreate 0 0 64 0, .partCreate 0 0 0 4096, .cmpJob 0 0 13 [], .objDrop 0 0 0 8192, .smbusBlockRead (2 ^ 48),
    .coreRailCheck [], .pmbusPoll [], .thermTrip 13 0] : List Instr).all (fun i => !wellFormed i) = true := by decide

theorem test_bad_compute : ([.residueError 25088 0 0 0 0 0 0 0 {}, .residueError 0 4 0 0 0 0 0 0 {},
    .kernelLaunch 13 [], .setTimeout 0 1024 0, .setTimeout 0 0 4096, .scrubDone 25088, .sifterOpStart 8192,
    .stackFailed 16 1, .flashFailed 16, .revokeSlow 4096, .drainEnd 64] : List Instr).all (fun i => !wellFormed i) = true := by
  decide

theorem test_good_commands : ([.powerOkRise, .nop 1 7, .wr 255 3 { tc := 7, tag := 65535, src := 4095 }, .irqAck master 7,
    .partCreate 1 1 63 4095, .scrubDone 25087] : List Instr).all wellFormed = true := by decide

/-! ### Single steps -/

/-- What the next state's module satisfies; a fault or a refusal satisfies nothing. -/
def after (o : Host.Outcome State Fault Refusal) (p : Chip → Bool) : Bool :=
  match o with
  | .next t => p t.chip
  | _ => false

/-- Reset with the pins that end the hold of R567. -/
def held : State :=
  { chip := { Chip.reset with pins := { Chip.reset.pins with powerOk := true, holdDone := true } } }

/-- Source: R567, R500: RESET_N rising after the hold starts ROMBOOT, in which the complexes check themselves. -/
theorem test_reset_rise : after (exec .resetNRise held) (fun c =>
    decide (c.boot.state = .romboot) && c.boot.running && c.pins.resetN) = true := by decide +kernel

/-- Source: R500: a low RESET_N returns RESET. -/
theorem test_reset_fall : after (exec .resetNFall { held with chip := { held.chip with boot := { state := .service } } })
    (fun c => decide (c.boot.state = .reset) && !c.pins.resetN) = true := by decide +kernel

/-- Source: R600's worked masked write: 0x00A5 written with 0x00F0_0030 reads 0x0035. -/
theorem test_scratch_mask :
    after (exec (.registerWrite master ((Reg.devScratch).addr 12 [0]) 0x00F00030)
      { chip := Chip.reset.setReg .devScratch 12 [0] 0xA5 }) (fun c => c.reg .devScratch 12 [0] == 0x35) = true := by decide +kernel

/-- A module in WAIT_OWNER with one owner session. -/
def waiting : State :=
  { chip := { Chip.reset with
      boot := { state := .waitOwner, running := true }
      mgt := { sessions := [{ id := 1 }] } } }

/-- Source: R505: DEV_START in WAIT_OWNER enters SERVICE when the target is not DEGRADED. -/
theorem test_dev_start : after (exec (.devStart 1 7) waiting) (fun c => decide (c.boot.state = .service)) = true := by
  decide +kernel

/-- Source: R459: PART_CREATE on a NONE node enters BUILDING and writes its LOCAL entry. -/
theorem test_part_create :
    after (exec (.partCreate 1 7 3 5) { waiting with chip := waiting.chip.setReg .prtCtrl 12 [] 1 })
      (fun c => decide ((c.partOf 3).st = .building)) = true := by decide +kernel

/-- Source: the worked example of chapter 19: MEM_CTRL with ENABLE 1 ignores a write of its RWD field REBUILD_AUTO
and then reads 0x0000000D. -/
theorem test_mem_ctrl_ignored :
    after (exec (.memCtrlWrite master 1) { chip := Chip.reset.setReg .memCtrl 12 [] 9 })
      (fun c => c.view .memCtrl 12 == 13 && c.view .memCfgIgnAddr 12 == 0) = true := by decide +kernel

/-- Source: R589: an unaligned write is answered with status 2. -/
theorem test_unaligned : after (exec (.registerWrite master 2 0) State.reset)
    (fun c => decide (c = (Chip.reset.accErr master 2 2 true).busResp 2 0)) = true := by decide +kernel

/-! ### States that meet the hypotheses of the statements -/

theorem test_still : Chip.reset.Still := by decide +kernel

theorem test_idle : waiting.chip.Idle := by decide +kernel

theorem test_booting : held.chip.Booting ∧ Chip.reset.Booting := by decide +kernel

theorem test_no_rings : waiting.chip.NoRings := by decide +kernel

/-- DeviceCommandsComplete, RegisterCommandsComplete and the other statements about commands of the owner. -/
theorem test_asks : waiting.chip.Asks 1 7 0x0001 { id := 1 } ∧ waiting.chip.Asks 1 7 0x0A01 { id := 1 } := by decide +kernel

/-- PowerUpReachesRomboot. -/
theorem test_power_up : held.chip.Still ∧ held.chip.boot.state = .reset ∧ held.chip.pins.powered = true ∧
    held.chip.pins.powerOk = true ∧ held.chip.pins.holdDone = true ∧ held.chip.pins.crystal = true ∧
    held.chip.pins.pulse = false := by decide +kernel

/-- BootReachesVerify, at ROMBOOT's first step. -/
theorem test_romboot : after (exec .resetNRise held) (fun c => decide (c.Booting) && decide (c.boot.state = .romboot) &&
    decide (c.boot.step = 1) && c.pins.crystal && !c.mcs.failedA && !c.mcs.failedB) = true := by decide +kernel

/-- A BRINGUP whose works are all still to do. -/
def working : Chip :=
  { Chip.reset with
    pins := { Chip.reset.pins with powerOk := true, holdDone := true, resetN := true }
    boot := { state := .bringup, running := true, step := 6, workLeft := [0, 1, 2, 3, 4, 5, 6] } }

/-- BringupWorksEnd. -/
theorem test_bringup : working.Booting ∧ working.bootRuns = true ∧ working.boot.workLeft.contains 5 = true ∧
    working.boot.workLeft.erase 5 ≠ [] ∧ (∀ e ∈ working.mem.dstack, e.2.st = 0) := by decide +kernel

/-- A TEST module whose port 0 is up and whose test node is 9, behind it (R440), with partition 3 on node 5. -/
def fabric : Chip :=
  let c : Chip := { Chip.reset with
    boot := { state := .test, running := true }
    parts := [(3, { st := .active, node := 5 })] }
  let c := (((c.setReg .secTestNode 12 [] (2 ^ 31 + 9)).setReg .gtxCtrl 12 [] 1).setReg .swcCtrl 8 [] 1).setReg .lnkCtrl 8 [] 1
  let c := (c.setReg .gtxNode 12 [5] (2 ^ 30 + 3 * 2 ^ 24)).setReg .gtxNode 12 [9] (2 ^ 31)
  c.modPort 0 fun q => { q with st := .active, lanes := 15, width := 3 }

/-- RequestsComplete and StoresAndMessagesComplete: a read of partition 3's node by the test node. -/
theorem test_takes : fabric.Takes 0 3 { opc := 1, src := 9, addr := 5 * 2 ^ 52, opnd := 64 } := by decide +kernel

/-- ResponsesAct and LinksFailAndGoDown: a usable port that holds no message. -/
theorem test_link_empty : fabric.LinkEmpty 0 ∧ fabric.usable 0 = true ∧ fabric.moves 0 = true ∧ fabric.Still := by
  decide +kernel

/-- LinksFailAndGoDown: training that has reached its bound. -/
theorem test_train_bound :
    let c := { fabric.modPort 0 fun q => { q with st := .train } with boot := { fabric.boot with tick := 10000000 } }
    c.LinkEmpty 0 ∧ (c.port 0).enterTick + max 1 (c.fld .lnkGlb 8 [] 31 16) * 1000 ≤ c.tick := by decide +kernel

/-- InterruptCoresAcceptAndEnd: core 2 has a latch above its running priority. -/
theorem test_latch :
    let c := { waiting.chip with irq := { waiting.chip.irq with latches := [(4, { core := some 2 })] } }
    (c.irqCore 2).running = none ∧ kfind? c.irq.latches 4 = some { core := some 2 } ∧ c.Still := by decide +kernel

/-- TemperatureActs and PowerIsPolledAndCapped. -/
theorem test_pmbus : waiting.chip.pmbusRuns = true ∧ waiting.chip.Idle ∧ waiting.chip.enabled 0x14 12 = false := by decide +kernel

/-- PowerIsPolledAndCapped: a poll and an evaluation of the cap loop are due. -/
theorem test_power_due :
    let c := ({ waiting.chip with boot := { waiting.chip.boot with tick := 100 } } : Chip).setReg .pwrCtrl 12 [] 1
    c.Idle ∧ c.pmbusRuns = true ∧ c.enabled 0x14 12 = true ∧ c.pwr.evalAt + 100 ≤ c.tick ∧ c.pwr.polledAt + 50 ≤ c.tick ∧
    c.inService = false := by decide +kernel

/-- PartitionCommandsComplete: a FREE partition and a NONE node. -/
theorem test_free_partition :
    let c := waiting.chip.setReg .prtCtrl 12 [] 1
    c.Still ∧ c.prtOn = true ∧ (c.partOf 3).st = .free ∧ c.node 5 = .none ∧ c.localNode 3 = none := by decide +kernel

/-- QuotesAndTrees: a tree with leaves left, and one in the building. -/
theorem test_tree :
    let c := { waiting.chip with sec := { waiting.chip.sec with treeReady := true } }
    c.Still ∧ c.sec.treeBusy = false ∧ c.sec.leaf < 1024 ∧ c.Asks 1 7 0x0101 { id := 1 } ∧ c.Asks 1 7 0x0102 { id := 1 } := by
  decide +kernel

/-- RegionCommandsComplete and ObjectCommandsComplete: a pinned object of an ACTIVE partition, the pool on. -/
def placed : Chip :=
  let c : Chip := { waiting.chip with
    parts := [(3, { st := .active, node := 5 })]
    mem := { waiting.chip.mem with objs := [(7, { st := 4, kind := 1, part := 3, writable := true, size := 8192, row := 2, rows := 1 })] } }
  c.setReg .memCtrl 12 [] 9

theorem test_region_create : placed.Still ∧ (placed.obj 7).part = 3 ∧ placed.rangeFree 3 4096 4096 none = true ∧
    placed.inHandoff 7 = false ∧ ((List.range 4096).find? fun k => !(placed.region k).valid) = some 0 := by decide +kernel

theorem test_object : objIdOk 7 = true ∧ placed.enabled 7 12 = true ∧ (placed.obj 7).st ≠ 0 ∧ (placed.obj 8).st = 0 ∧
    placed.partTakes 3 = true ∧ placed.regionsOver 7 = [] ∧ placed.Asks 1 7 0x0307 { id := 1 } := by decide +kernel

/-- RevocationsRetire. -/
theorem test_revocation :
    let c := { placed with sec := { placed.sec with regions := [(2, { valid := true, gen := 1, part := 3, revoking := true })],
                                                    revokes := [{ slot := 2 }] } }
    c.Still ∧ (c.sec.revokes.find? fun r => r.slot == 2) = some { slot := 2 } ∧ c.oldCount 2 = 0 ∧ c.sec.waits = [] ∧
    (c.partOf 3).st ≠ .resetting := by decide +kernel

/-- PartitionResetsRun: a DRAINING partition with nothing in progress. -/
theorem test_draining :
    let c := (({ waiting.chip with parts := [(3, { st := .draining, step := 2, node := 5 })] } : Chip).setReg .prtCtrl 12 [] 1)
    c.Idle ∧ c.resetsRun = true ∧ c.coh.ents = [] ∧ (c.partOf 3).st = .draining := by decide +kernel

/-- BundleTransfersComplete: an open bundle whose metadata has passed its check. -/
theorem test_bundle :
    let y : Bundle := { num := 4, stage := 7, isOpen := true, checked := true, chunks := 1 }
    let c := { placed with mem := { placed.mem with bundles := [(4, y)] } }
    c.Still ∧ c.bundle? 4 = some y ∧ y.isOpen = true ∧ y.checked = true ∧ y.missing ≠ 0 ∧ c.Asks 1 7 0x0205 { id := 1 } := by
  decide +kernel

/-- LoadsEnd. -/
theorem test_load :
    let c := { placed with mem := { placed.mem with loads := [{ obj := 7 }] } }
    c.Still ∧ (c.mem.loads.find? fun l => l.obj == 7) = some { obj := 7 } ∧ c.dsp.fills = [] ∧ 0 < (c.obj 7).rows ∧
    c.mem.rebuild = 0 := by decide +kernel

/-- TileFillsEnd: a placement fill of one raw tile whose turn it is. -/
theorem test_fill :
    let f : Fill := { id := 1, obj := 7, part := 3, targets := [(0, 0)], todo := [{ tile := 0, core := 5, slot := 2 }], kind := 1 }
    let c := ({ placed with dsp := { placed.dsp with fills := [f] } } : Chip).setReg .cmpCtrl 0 [] 1
    c.ricerNext (ricerOf 5) = some f ∧ f.nextAt (ricerOf 5) = some { tile := 0, core := 5, slot := 2 } ∧
    (c.obj 7).compressed = false ∧ (c.obj 7).writable = true ∧ f.reads.got = [] := by decide +kernel

/-- TileFillsEnd: the same fill of a read-only object, and a block of its tile being fetched again. -/
theorem test_fill_raw :
    let f : Fill := { id := 1, obj := 7, part := 3, targets := [(0, 0)], kind := 1, refetch := [{ core := 5, tile := 0, block := 1 }]
                      todo := [{ tile := 0, core := 5, slot := 2 }] }
    let c := { placed with dsp := { placed.dsp with fills := [f] }
                           mem := { placed.mem with objs := [(7, { st := 4, kind := 1, part := 3, size := 8192, row := 2, rows := 1 })] } }
    let d := ({ c with dsp := { c.dsp with fills := [{ f with refetch := [] }] } } : Chip).setReg .cmpCtrl 0 [] 1
    (c.dsp.fills.find? fun f => f.id == 1) = some f ∧ (c.obj 7).st = 4 ∧ (c.obj 7).writable = false ∧
    (f.refetch.find? fun r => r.core == 5 && r.data.isNone) = some { core := 5, tile := 0, block := 1 } ∧
    d.ricerNext (ricerOf 5) = some { f with refetch := [] } := by decide +kernel

/-- CompressorJobsRun: a compressor that is on and free. -/
theorem test_compressor :
    let c := placed.setReg .cmpCtrl 2 [] 1
    c.Still ∧ c.job? 2 = none ∧ c.cmpTakes 2 = true ∧ c.Asks 1 7 0x0601 { id := 1 } := by decide +kernel

/-- PeerCommandsComplete, PeerMessagesAct and HandoffRecordsAct: an open peer session and a handoff begun. -/
def peered : Chip :=
  { waiting.chip with
    boot := { waiting.chip.boot with state := .service }
    mgt := { waiting.chip.mgt with
      peers := [(1, { valid := true, st := 2 })]
      sessions := [{ id := 1 }, { id := 9, kind := 2, peer := 1 }]
      handoffs := [{ epoch := 6, sender := true, st := 2, obj := 7, peer := 1, dstObj := 8, unacked := [0] }] } }

theorem test_peer : peered.Still ∧ peered.session? 9 = some { id := 9, kind := 2, peer := 1 } ∧
    peered.sending? 1 6 8 = some { epoch := 6, sender := true, st := 2, obj := 7, peer := 1, dstObj := 8, unacked := [0] } ∧
    peered.Asks 1 7 0x0903 { id := 1 } := by decide +kernel

/-- HandshakesAct and RecordsAct: the Ethernet port and the management block are up. -/
theorem test_rinlidal :
    let c := ({ waiting.chip with boot := { waiting.chip.boot with ethUp := true } } : Chip).setReg .mgtCtrl 12 [] 1
    c.Still ∧ c.rinlidal = true ∧ c.mgt.handshakes.length < 8 ∧ (c.session? 1).isSome = true := by decide +kernel

/-- AuditsAndDieLinksAct. -/
theorem test_audit :
    let c := waiting.chip.setReg .swcCtrl 9 [] 1
    c.Still ∧ c.enabled 4 9 = true ∧ c.skim 9 = 0 ∧ linkExists 9 3 = true ∧ c.linkDown 9 3 = false := by decide +kernel

/-- RequestsComplete: a fresh TAG of the test node's stream. -/
theorem test_fresh_tag :
    let c := fabric.setReg .gtxStream 12 [4] (2 ^ 31 + 3 * 2 ^ 24 + 9)
    c.stream? 9 3 = some 4 ∧ c.FreshTag 4 { opc := 4, src := 9, tag := 77 } := by decide +kernel

/-- SnoopsAct: a snoop in progress whose line has no transaction left. -/
theorem test_snoop :
    let n : Snoop := { tag := 12, node := 9, line := 40 }
    let c := { fabric with coh := { fabric.coh with snoops := [n] } }
    c.Still ∧ c.coh.late = [] ∧ (c.coh.snoops.find? fun x => x.tag == 12 && x.node == 9) = some n ∧ (c.lineQ 40).txn = none := by
  decide +kernel

/-- KernelRowsAct: a launch that waits on its bowl, and one that runs. -/
theorem test_launch :
    let l : Launch := { id := 1, die := 0, part := 3, phase := 1 }
    let c := { placed with dsp := { placed.dsp with launches := [l] } }
    c.Still ∧ c.launch? 1 = some l ∧ l.runs = true ∧ c.dsp.fills = [] ∧ c.cores.bowlHeld = [] ∧ c.eng.ops = [] := by decide +kernel

/-- MemoryTiersAct: a mapped ACTIVE stack, a rebuild that waits for its spare. -/
theorem test_stack :
    let c := (({ placed with mem := { placed.mem with dstack := [(0, { st := 1 }), (15, { st := 2 })], spare := some 15,
                                                      rebuild := 3 } } : Chip).setReg .memStackMap 12 [0] (2 ^ 31))
    c.lsUp 0 = true ∧ c.physOf 0 = some 0 ∧ (c.dstack 0).st = 1 ∧ c.mem.spare = some 15 ∧ c.mem.rebuild = 3 ∧
    c.rebuildAuto = true := by decide +kernel

/-- SifterOperationsRun: a running SEARCH, not overdue. -/
theorem test_search :
    let o : SftOp := { id := 2, part := 3, phase := 1 }
    let c := { placed with sft := { placed.sft with ops := [o] } }
    c.sft? 2 = some o ∧ o.opc = 0 ∧ o.left = 0 ∧ c.enabled 7 12 = true ∧ c.due o.closeTick (100 * max 1 (c.fld .sftGlb 12 [] 15 0)) = false := by
  decide +kernel

/-- ComputeEventsAct: an idle context, a fenced core that waits for its spare, a scrub that runs. -/
theorem test_core_events :
    let c := { placed with cores := { placed.cores with core := [(5, { st := .fenced, scrubbing := true })], subst := [(5, 0, 1)] } }
    (match c.runner 5 0 with | .idle => true | _ => false) = true ∧ (c.core 5).st = .fenced ∧ (c.core 5).scrubbing = true ∧
    (c.cores.subst.filter fun x => x.1 == 5) = [(5, 0, 1)] := by decide +kernel

/-- VerifyTakesFirstFailure: an image that fails its first check, primary on a NOR large enough for an alternate. -/
theorem test_verify :
    let c : Chip := { working with boot := { state := .verify, running := true, step := 4, density := 25 } }
    c.Booting ∧ c.bootRuns = true ∧ imgCause c.boot.buffer (2 ^ 25) (majority [] [] []) ≠ 0 ∧
    ((imgRecord c.boot.buffer).regWrites.all fun e => e.phase != 0 || e.addr / 2 ^ 32 % 4096 != 0x14) = true := by decide +kernel

/-- RailCheckCutsWhatFails. -/
theorem test_rail_check :
    let c : Chip := { working with
      boot := { working.boot with step := 5, workLeft := [], tick := 500 }
      pwr := { rails := (List.range 12).map fun n => (n, { on := true }) } }
    (c.rail 0).on = true ∧ (c.rail 11).on = true ∧ c.portCut = false ∧ c.Booting ∧ c.bootRuns = true ∧ (c.rail 0).wroteAt + 500 ≤ c.boot.tick ∧
    (c.boot.image.regWrites.all fun e => e.phase != 0 || e.addr / 2 ^ 32 % 4096 == 0x14) = true := by decide +kernel

/-- ComplexesWatchEachOther and FailoverTakesOver: A is silent, B stands by, the steward watches. -/
theorem test_complexes :
    let c : Chip := { waiting.chip with boot := { waiting.chip.boot with tick := 100000 }, mcs := { standbyOk := true } }
    c.Still ∧ c.mcRuns false = true ∧ c.mcRuns true = true ∧ c.stewardWatches = true ∧ c.mcs.activeB = false ∧
    c.mcs.lastBeat + c.hbPeriod * c.hbMiss ≤ c.boot.tick ∧ c.mcs.pulseB + 1000 ≤ c.boot.tick := by decide +kernel

/-- FailoverTakesOver: before WAIT_OWNER. -/
theorem test_failover_boot :
    let c : Chip := { working with boot := { working.boot with tick := 100000 }, mcs := { standbyOk := true } }
    c.Still ∧ c.boot.state = .bringup ∧ c.mcRuns true = true ∧ c.mcs.lastBeat + c.hbPeriod * c.hbMiss ≤ c.boot.tick := by
  decide +kernel

/-- RecoveryWritesTheDump: the drain of a device with no work, and a dump in the writing. -/
def recovering (n : Nat) (writing : Bool) : Chip :=
  { waiting.chip with
    boot := { state := .recovery, running := true }
    dump := { step := n, writing := writing } }

theorem test_recovery : (recovering 2 false).Idle ∧ (recovering 4 true).Still ∧ (recovering 4 true).bootRuns = true := by
  decide +kernel

/-- DumpCommandsComplete: a valid dump of 8,192 bytes, read within and beyond its end. -/
theorem test_dump :
    let up (n : Nat) : Nat × DStack := (n, { st := 1, logical := n })
    let c : Chip := { waiting.chip with dump := { valid := true, len := 8192 }, mem := { dstack := (List.range 15).map up } }
    let c := (List.range 15).foldl (fun c n => c.setReg .memStackMap 12 [n] (2 ^ 31 + n)) c
    c.Still ∧ c.dump.writing = false ∧ (c.readDump 0 4096).1 ≠ none ∧ (c.readDump 8191 1).1 ≠ none ∧ 8191 + 1 ≤ c.dump.len ∧
    c.dump.len < 8191 + 2 ∧ c.Asks 1 7 0x0801 { id := 1 } ∧ c.Asks 1 7 0x0803 { id := 1 } := by decide +kernel

/-- StewardEndsInDead. -/
theorem test_steward :
    let c : Chip := { working with boot := { state := .service, running := true, tick := 2000 }
                                   mcs := { lostA := true, lostB := true, stewardAt := some 0 } }
    c.Still ∧ c.stewardWatches = true ∧ c.mgt.sessions = [] ∧ c.mgt.handshakes = [] ∧ c.lnk.ports = [] := by decide +kernel

/-- EthernetPortAnswersItself. -/
theorem test_ethernet :
    let c : Chip := { waiting.chip with boot := { waiting.chip.boot with ethUp := true }, pins := { powered := true, powerOk := true } }
    c.Still ∧ c.ethOn = true ∧ c.vlanOk none = true := by decide +kernel

/-- BoardSignalsAnswer: a telemetry register, a debug access in TEST, and a checker that runs. -/
theorem test_board :
    let c := ((fabric.setReg .secTestNode 12 [] (2 ^ 30)).setReg .tstCtrl 8 [] 1).setReg .tstLaneCfg 8 [4] (2 ^ 30)
    c.Still ∧ telemetry (slotAt ((Reg.devId).addr 12 [])) = true ∧ bit (c.reg .secTestNode 12) 30 = true ∧
    c.enabled 21 8 = true ∧ (c.port (c.lanePort 8 4)).st = .down ∧ c.lnk.laneLocked.contains (8 * 128 + 4) = false := by
  decide +kernel

/-- FabricTableWritesAct: writes that each clause takes, at the first and the last index of its table. -/
theorem test_fabric_tables :
    let c := peered
    c.Still ∧ c.localNode 3 = none ∧ c.portExists 63 = true ∧ c.stream? 9 3 = none ∧ c.sharer? 9 = none ∧ c.coh.sweeps = [] ∧
    bits (c.written .gtxNode 12 [4095] 0x43000000#32) 31 30 = 1 ∧ bits (c.written .gtxNode 12 [0] 0x80003F00#32) 31 30 = 2 ∧
    bits (c.written .swcPartShare 8 [63] 0x0001000A#32) 31 16 = 1 := by decide +kernel

/-- ControlAccessesAct: a partition agent off its registers, a counter, a device whose clock runs. -/
theorem test_control :
    let c : Chip := { waiting.chip with boot := { waiting.chip.boot with tick := 1000 }, pins := { powered := true, crystal := true }
                                        ctl := { waiting.chip.ctl with holdAt := some 0 } }
    let own : Nat := (Reg.dspPartCfg).addr 12 [2]
    c.Still ∧ slotAt 0xFFFFFFF0 = .unmapped ∧ c.accStatus { code := 9, part := 3 } own true = 0 ∧ (slotAt own).part ≠ some 3 ∧
    c.boot.running = true ∧ c.pins.crystal = true ∧ c.mem.rebuild = 0 ∧ c.ctl.satEv = [] ∧ c.tick % 1000 = 0 ∧ Rising c.ctl.tri := by
  decide +kernel

/-- NotificationTablesAct: one waiting latch, rings at rest, and a ring of 128 bytes at base 0. -/
theorem test_notification :
    let c := { peered with irq := { peered.irq with latches := [(4, { count := 1 })] } }
    c.Still ∧ bit (c.written .irqCoreCfg 12 [7] 0x80000000#32) 31 = true ∧ bit (c.reg .irqCoreCfg 12 [7]) 31 = false ∧
    c.irq.latches.filter (fun e => e.2.core.isNone) = [(4, { count := 1 })] ∧ (∀ j ∈ c.mgt.rings, j.phase = 0) ∧
    bit (c.written .irqVecCfg 12 [63, 7] 0xC0000000#32) 31 = true ∧ c.reg .irqVecBase 12 [63, 7, 0] = 0 := by decide +kernel

/-- LinksTrain: a port in training with its lanes locked, one that has acknowledged, one in TEST, one that may start. -/
theorem test_training :
    let q : Port := { st := .train, locked := 15, keepLanes := 15 }
    let c := fabric.setPort 0 q
    let d := fabric.setPort 0 { q with acked := true, peerLanes := 3 }
    let e := fabric.setPort 0 { q with st := .test }
    let g := (fabric.setPort 0 { st := .failed }).setReg .lnkPortCfg 8 [0] (2 ^ 31 + 2 ^ 30)
    c.Still ∧ c.portExists 0 = true ∧ (c.port 0).offer = 15 ∧ c.keysOk 0 false = true ∧ bestSet (15 &&& 3) = some (3, 1) ∧
    c.minWidth 0 ≤ 1 ∧ bestSet ((d.port 0).offer &&& 3) = some (3, 1) ∧ d.LinkEmpty 0 ∧ (e.port 0).lanes = 0 ∧
    (e.port 0).acked = false ∧ g.linkOn 0 = true ∧ (fabric.port 4).st = .down := by decide +kernel

/-- LinksRetrain: a usable port with no request of its own, and with a NARROW of its own 256 cycles old. -/
theorem test_retraining :
    let own : OwnReq := { ctype := 4, lanes := 3, width := 1, cause := 10, reqId := 5 }
    let c := fabric.modPort 0 fun q => { q with own := some own, pcs := 256 }
    fabric.Still ∧ fabric.NoRings ∧ fabric.portExists 0 = true ∧ fabric.usable 0 = true ∧ (fabric.port 0).own = none ∧
    (3, 1) ∈ laneSets ∧ 3 &&& (fabric.port 0).lanes = 3 ∧ 1 < (fabric.port 0).width ∧ fabric.minWidth 0 ≤ 1 ∧
    (c.port 0).own = some own ∧ (c.port 0).lastCtrl + 256 ≤ (c.port 0).pcs ∧
    ((c.rxHdr 0 {}).port 0).own = some own ∧ ((fabric.rxHdr 0 {}).port 0).own = none := by decide +kernel

/-- LinkSessionsComplete. -/
theorem test_link_session :
    let c : Chip := { waiting.chip with sec := { waiting.chip.sec with nodes := [(9, { valid := true })] } }
    c.Still ∧ (kgetD c.sec.nodes 9 {}).valid = true ∧ (kgetD c.sec.nodes 4095 {}).valid = false ∧ c.Asks 1 7 0x0406 { id := 1 } ∧
    c.Asks 1 7 0x0407 { id := 1 } := by decide +kernel

/-- BundleSecurityCompletes: an open bundle not yet checked, and one held key. -/
theorem test_bundle_security :
    let c := { placed with mem := { placed.mem with bundles := [(4, { num := 4, stage := 7, isOpen := true })] }
                           sec := { placed.sec with bkeys := [(0, 4, [])] } }
    c.Still ∧ c.bundle? 4 = some { num := 4, stage := 7, isOpen := true } ∧ c.enabled 7 12 = true ∧
    (c.sec.bkeys.find? fun e => e.2.1 == 4) = some (0, 4, []) ∧ (c.sec.bkeys.find? fun e => e.2.1 == 5) = none ∧
    ((List.range 256).find? fun k => (kfind? c.sec.bkeys k).isNone) = some 1 ∧ c.Asks 1 7 0x0203 { id := 1 } := by decide +kernel

/-- FlitsMove: a flit kept past its timeout with a control message to go out, on a usable port and on one in TEST. -/
theorem test_flits :
    let q (st : LinkState) (t : List (Nat × CtrlBody)) (r : List Nat) : Port :=
      { st := st, lanes := 15, width := 3, kept := [{ seq := 3 }], resend := r, ctrlTx := t, pcs := 10 ^ 6, winFlits := 2 ^ 30 }
    let c := fabric.setPort 0 (q .active [(3, {})] [])
    let d := fabric.setPort 0 (q .active [] [3])
    let e := fabric.setPort 0 (q .test [] [])
    c.Still ∧ c.usable 0 = true ∧ (c.port 0).resumeAck = false ∧ 0 + c.ackTmo 0 ≤ (c.port 0).pcs ∧ 0 + e.ackTmo 0 ≤ (e.port 0).pcs ∧
    ((d.port 0).kept.find? fun k => k.seq == 3) = some { seq := 3 } ∧ 1 < c.replayMax 0 ∧ 1 ≠ c.replayThr 0 ∧ 1 ≠ c.uncThr 0 := by
  decide +kernel

/-- FlitsMove: no message waits whole at the port. -/
theorem test_no_strays : fabric.NoStrays 0 := by
  intro vc r k n h
  rw [show (fabric.port 0).inbox = [] by decide +kernel] at h
  exact nomatch h

/-- ShapingRowsAct: a gated port at its entry's end, and a queue sample that is due. -/
theorem test_shaping :
    let c := ((fabric.setReg .tshCtrl 8 [] 1).setReg .tshPortCfg 8 [0] (2 ^ 31)).modPort 0 fun q => { q with pcs := 2 ^ 24 }
    c.Still ∧ c.gated 0 = true ∧ c.usable 0 = true ∧ c.entryLeft 0 = 0 ∧ (c.port 0).gate.switch = false ∧ c.switchLegal 0 = true ∧
    (c.port 0).sampAt + max 1 (c.portFld .tshSampleCfg 0 23 0) ≤ (c.port 0).pcs ∧ (c.port 0).lastDepth.length = 8 ∧
    (c.port 0).maxDelay.length = 8 := by decide +kernel

/-- ComputeTableWritesAct: cores in each state, a legal and an illegal bowl, an engine with nothing open. -/
theorem test_compute_tables :
    let c := (placed.modCore 25087 fun x => { x with st := .enabled }).modCore 1 fun x => { x with st := .suspect }
    c.Still ∧ (c.core 0).st = .spare ∧ (c.core 1).st = .suspect ∧ (c.core 25087).st = .enabled ∧ c.dieCut (coreDie 25087) = false ∧
    (c.bowlOk 8191 && c.bowlRuns 8191) = false ∧ c.bowlLegal 8191 [0] = true ∧ c.openOps 2 63 = [] ∧ c.ctl.held = [] ∧
    c.winBusy (c.win 1023) = false ∧ c.indexLegal 255 [1] = false ∧ (c.dstack 15).st = 0 := by decide +kernel

/-- CounterAccessesLoseNothing: a counter that its owner may read. -/
theorem test_counter :
    let a := (Cnt.secPrvDrop).addr 12 []
    waiting.chip.accStatus { code := 8 } a false = 0 ∧ slotAt a = .cnt .secPrvDrop 12 [] false ∧
    waiting.chip.inert (slotAt a) = false ∧ waiting.chip.Asks 1 7 0x0703 { id := 1 } ∧ waiting.chip.Asks 1 7 0x0704 { id := 1 } := by
  decide +kernel

/-- ResetsReturnEverything: power on and off, a DEV_RESET whose delay is over. -/
theorem test_resets : held.chip.pins.powered = true ∧ ({} : Pins).powered = false ∧
    (let c : Chip := { held.chip with boot := { held.chip.boot with devResetAt := some 0, tick := 1000 } }
     c.boot.devResetAt = some 0 ∧ 0 + 1000 ≤ c.boot.tick) := by decide +kernel

/-- HeldCopiesInOrder: a state that holds copies of the first and the last die. -/
theorem test_held_copies :
    let s : State := { pending := [.resetNFall], snap := [(0, Chip.reset), (12, Chip.reset)] }
    Rising s.snap ∧ (∀ e ∈ s.snap, e.1 < 13) ∧ ∃ t, step s = .next t :=
  ⟨by decide +kernel, by decide +kernel, _, rfl⟩

/-- RequestWireRoundTrip: a request at the top of its fields. -/
theorem test_wire :
    let r : Req := { opc := 8, tc := 7, tag := 65535, src := 4095, handle := 65535, addr := 2 ^ 64 - 1, epoch := 255, attr := 255,
                     opnd := 2 ^ 32 - 1, rsv := 65535, payload := [1, 2, 3] }
    unpackReq (packReq r ++ [9]) = r := by decide +kernel

end Sys2Proof.Tests
end

section
/-! SUPPORT. The state after reset (R510, R600, R606): its sparse tables list nothing, so every accessor reads the
value an unlisted key stands for, and what the registers decide follows from their reset words. -/

namespace Sys2Proof.Machine

/-! ### Accessors on the empty tables -/

@[simp] theorem reset_core (k : Nat) : Chip.reset.core k = {} := rfl

@[simp] theorem reset_port (p : Nat) : Chip.reset.port p = {} := rfl

@[simp] theorem reset_partOf (p : Nat) : Chip.reset.partOf p = {} := rfl

@[simp] theorem reset_obj (n : Nat) : Chip.reset.obj n = {} := rfl

@[simp] theorem reset_region (k : Nat) : Chip.reset.region k = {} := rfl

@[simp] theorem reset_reg (r : Reg) (die : Nat) (i : List Nat) : Chip.reset.reg r die i = r.resetWord i := rfl

@[simp] theorem reset_count (k : Cnt) (die : Nat) (i : List Nat) : Chip.reset.count k die i = 0 := rfl

/-! ### What the reset words decide -/

@[simp] theorem resetWord_gtxNode (i : List Nat) : (Reg.gtxNode).resetWord i = 0 := rfl

/-- KIND of a node's word is 0 after reset: no node is reachable (R271). -/
@[simp] theorem reset_node (n : Nat) : Chip.reset.node n = .none := by
  simp [Chip.node, bits]

/-- Each of the blocks 1 to 21 has a control register, whose ENABLE is 0 in its reset word. -/
theorem ctrlOf_resetWord_enable :
    ∀ b ∈ Finset.Icc 1 21, ∃ ka ∈ ctrlOf b, bit (ka.1.resetWord []) 0 = false := by decide

theorem reset_enabled {b : Nat} (die : Nat) (h1 : 1 ≤ b) (h21 : b ≤ 21) : Chip.reset.enabled b die = false := by
  obtain ⟨⟨k, a⟩, hctrl, hbit⟩ := ctrlOf_resetWord_enable b (Finset.mem_Icc.mpr ⟨h1, h21⟩)
  simp [Chip.enabled, Option.mem_def.mp hctrl, hbit]

/-- The reset words that the chapters name one by one (R600, R592, R118, R71). -/
theorem resetWord_named :
    (Reg.devId).resetWord [] = 0x7725B000 ∧ (Reg.devScratch).resetWord [0] = 0 ∧ (Reg.bootCtrl).resetWord [] = 0 ∧
    (Reg.dspGlbTmo).resetWord [] = 100 * 65536 + 50 ∧ (Reg.corCoreState).resetWord [0] % 4 = 3 ∧
    (Reg.irqCtrl).resetWord [] = 0 := by decide

/-- Settles O3: the tables that State.reset lists are empty, and the accessors read their defaults from them. -/
theorem resetValues : Obligations.ResetValues := by
  unfold Obligations.ResetValues
  refine ⟨rfl, rfl, rfl, rfl, ?cores, ?ports, ?parts, ?objs, ?regions, reset_node, rfl, rfl, rfl, rfl, rfl, rfl, rfl, rfl,
    rfl, wf_reset, fun b die => reset_enabled die, reset_reg, reset_count, resetWord_named⟩
  case cores => exact fun k => congrArg CoreSt.st (reset_core k)
  case ports => exact fun p => congrArg Port.st (reset_port p)
  case parts => exact fun p => congrArg Part.st (reset_partOf p)
  case objs => exact fun n => congrArg Obj.st (reset_obj n)
  case regions => exact fun k => congrArg Region.valid (reset_region k)

end Sys2Proof.Machine
end

section
/-! SUPPORT. What the rows of residue and ECC errors, spares and scrubs, check runs, service reports, staging and
operation timeouts mean: one lemma for each case of a row's meaning (chapters 2, 3 and 4). -/

namespace Sys2Proof.Machine

/-- A row that acts as its meaning says settles on that meaning. -/
theorem settles_act {s : State} {i : Instr} {c d : Chip} (hi : exec i s = act s d) (e : d = c) : Settles s i c := e ▸ hi

section
variable (c : Chip) (core ctx slot row col a b product word : Nat) (mon : Monitors)

/-! ### Residue errors (R62, R63) -/

theorem residueError_idle (h : c.runner core ctx = .idle) :
    c.residueError core ctx slot row col a b product mon =
      if (c.core core).st = .fenced then c.noteResidue core ctx slot row col else c := by
  unfold Chip.residueError
  rw [h]

theorem residueError_running (h : c.runner core ctx ≠ .idle) :
    c.residueError core ctx slot row col a b product mon =
      if residueBad (c.runner core ctx).formats.1 (c.runner core ctx).formats.2 a b product then
        let f := (c.noteResidue core ctx slot row col).failRun core ctx mon
        (f.2.raise Ev.coreResidue [f.1.part] (f.2.resCapture core)).charge core 1 f.1
      else c := by
  unfold Chip.residueError
  split
  · contradiction
  · rfl

/-! ### Errors of a core store (R64) -/

theorem eccError_corrected (h : c.runner core ctx ≠ .idle) :
    c.eccError core ctx slot word true mon = c.bump .corEccCe (coreDie core) (coreIdx core) := by
  unfold Chip.eccError
  split
  · contradiction
  · rfl

/-- An uncorrectable word is counted, its slot invalid, and the core's list of such words as `words` says. -/
def Chip.eccMark (words : List Nat → List Nat) : Chip :=
  ((c.bump .corEccUe (coreDie core) (coreIdx core)).setValid core slot false).modCore core fun x =>
    { x with eccWords := words x.eccWords }

/-- The run on the context fails and the event is raised: the evidence, and the state after it. -/
def Chip.eccFail : Evidence × Chip :=
  let f := c.failRun core ctx mon
  (f.1, f.2.raise Ev.coreEccUe [f.1.part] (f.2.resCapture core))

/-- Once the run has failed, the slot's tile is fetched again, and the wait counted for the launch that ran. -/
def Chip.eccRefetch : Chip :=
  let r := c.eccFail core ctx mon
  match r.2.refetchSlot core slot r.1.part with
  | none => r.2
  | some g =>
    let launch := match c.runner core ctx with
      | .kernel l => some l.id
      | _ => none
    match launch with
    | some id => g.launchStall id 7
    | none => g.bump .dspStall7 12 [r.1.part]

theorem eccError_first (h : c.runner core ctx ≠ .idle) (hk : (c.core core).eccWords.contains word = false) :
    c.eccError core ctx slot word false mon = (c.eccMark core slot (· ++ [word])).eccRefetch core ctx slot mon := by
  unfold Chip.eccError
  split
  · contradiction
  · rw [hk]
    rfl

theorem eccError_again (h : c.runner core ctx ≠ .idle) (hk : (c.core core).eccWords.contains word = true)
    (hv : c.slotValid core slot = true) :
    c.eccError core ctx slot word false mon =
      let r := (c.eccMark core slot id).eccFail core ctx mon
      let g := r.2.suspLog core 0 2 r.1
      g.2.fence core 5 g.1 := by
  unfold Chip.eccError
  split
  · contradiction
  · rw [hk, hv]
    rfl

theorem eccRefetch_none (h : (c.eccFail core ctx mon).2.refetchSlot core slot (c.eccFail core ctx mon).1.part = none) :
    c.eccRefetch core ctx slot mon = (c.eccFail core ctx mon).2 := by
  unfold Chip.eccRefetch
  dsimp only
  rw [h]

theorem eccRefetch_kernel {g : Chip} {l : Launch} (hl : c.runner core ctx = .kernel l)
    (h : (c.eccFail core ctx mon).2.refetchSlot core slot (c.eccFail core ctx mon).1.part = some g) :
    c.eccRefetch core ctx slot mon = g.launchStall l.id 7 := by
  unfold Chip.eccRefetch
  dsimp only
  rw [h, hl]

theorem eccRefetch_other {g : Chip} (hl : ∀ l, c.runner core ctx ≠ .kernel l)
    (h : (c.eccFail core ctx mon).2.refetchSlot core slot (c.eccFail core ctx mon).1.part = some g) :
    c.eccRefetch core ctx slot mon = g.bump .dspStall7 12 [(c.eccFail core ctx mon).1.part] := by
  unfold Chip.eccRefetch
  dsimp only
  rw [h]
  cases hr : c.runner core ctx with
  | kernel l => exact absurd hr (hl l)
  | check k => rfl
  | query o => rfl
  | idle => rfl

/-! ### Substitution and scrubs (R40, R42) -/

theorem autoSubst_none (h : (c.cores.subst.filter fun x => x.1 == core) = []) : c.autoSubst core = c :=
  if_pos (.inl h)

/-- No write of the fenced core is left waiting for a spare. -/
def Chip.unsubst : Chip := { c with cores := { c.cores with subst := c.cores.subst.filter fun x => x.1 != core } }

/-- Where a core stands in the rank-1 bowls that hold it: (core, bowl, logical index). -/
def Chip.seats : List (Nat × Nat × Nat) := (c.bowlsOf core).map fun b => (core, b, ((c.children b).findIdx? (· == core)).getD 0)

/-- The lowest SPARE of a core's tile that no scrub holds. -/
def Chip.tileSpare : Option Nat :=
  ((List.range 64).map (tileBase core + ·)).find? fun k => (c.core k).st == .spare && !(c.core k).scrubbing

/-- The lowest SPARE of the tile, if there is one, takes the core's seats, if it has any. -/
def Chip.substitute : Chip :=
  match c.tileSpare core with
  | none => c.noteWaits
  | some k =>
    if (c.seats core).isEmpty then c.noteWaits
    else ((((c.seats core).foldl (fun c x => c.putChild x.2.1 x.2.2 k) c).modCore k fun x =>
      { x with st := .enabled }).refillCore k).noteWaits

/-- The lowest core of its tile that waits for a spare gives up its wait. -/
theorem autoSubst_turn (h : (c.cores.subst.filter fun x => x.1 == core) ≠ [])
    (hl : ∀ x ∈ c.cores.subst, tileBase x.1 = tileBase core → core ≤ x.1) :
    c.autoSubst core = (c.unsubst core).substitute core := by
  have hany : (c.cores.subst.any fun x => tileBase x.1 == tileBase core && decide (x.1 < core)) = false := by
    rw [List.any_eq_false]
    intro x hx hc
    obtain ⟨ht, hlt⟩ := Bool.and_eq_true_iff.mp hc
    exact absurd (hl x hx (beq_iff_eq.mp ht)) (Nat.not_le.mpr (of_decide_eq_true hlt))
  unfold Chip.autoSubst
  dsimp only
  rw [if_neg (by simp [h, hany])]
  rfl

theorem substitute_none (h : c.tileSpare core = none ∨ c.seats core = []) : c.substitute core = c.noteWaits := by
  unfold Chip.substitute
  split
  · rfl
  · next hk =>
    rcases h with h | h
    · rw [h] at hk
      cases hk
    · rw [h]
      rfl

theorem substitute_spare {k : Nat} (hk : c.tileSpare core = some k) (hs : c.seats core ≠ []) :
    c.substitute core = ((((c.seats core).foldl (fun c x => c.putChild x.2.1 x.2.2 k) c).modCore k fun x =>
      { x with st := .enabled }).refillCore k).noteWaits := by
  unfold Chip.substitute
  rw [hk]
  exact if_neg (by simpa using hs)

theorem scrubDone_idle (h : (c.core core).scrubbing = false) : c.scrubDone core = c :=
  if_neg (by rw [h]; exact Bool.false_ne_true)

theorem scrubDone_scrubbing (h : (c.core core).scrubbing = true) :
    c.scrubDone core = (c.wipeCore core).modCore core fun x =>
      { x with scrubbing := false, st := if x.st ≠ .fenced ∧ (c.bowlsOf core).isEmpty = true then .spare else x.st } :=
  if_pos h

/-! ### Check runs (R107, R108, R109) -/

variable (id : Nat) (k : Check) (mons : List (Nat × Monitors))

theorem checkTimeout_eq (h : (c.dsp.checks.find? fun k => k.launch == id) = some k) :
    c.checkTimeout id =
      if c.due k.endTick (1000 * max 1 (c.fld .dspGlbLimits 12 [] 19 8)) then
        (c.dropCheck k).unblockFills.noteWaits.bowlRelease.advance
      else c := by
  unfold Chip.checkTimeout
  rw [h]

/-- The run of a check or tie-break has ended and its streams with it. -/
def Chip.runOver : Chip := (c.endRun id).endStreams id

/-- What goes on once a check has come to a verdict. -/
def Chip.checkNext : Chip := c.unblockFills.noteWaits.bowlRelease.advance

/-- The check run's verdict: it agrees with the launch, or its two bowls are suspected and a tie-break is due (R108). -/
def Chip.checkVerdict (out : Bytes) (crc node : List Nat) : Chip :=
  if out = k.out0 then (c.delCheck k).bump .dspChecked 12 [k.part]
  else
    let d := ((c.bump .dspMismatch 12 [k.part]).suspect k.bowl0).suspect k.bowl1
    ((d.logBowl k k.bowl0 3 mons).logBowl k k.bowl1 3 mons).setCheck { k with phase := 2, out1 := out, crc1 := crc, node1 := node }

/-- The tie-break run's verdict: the bowl that it does not agree with is charged, or there is no majority (R108, R109). -/
def Chip.tieVerdict (out : Bytes) (crc node : List Nat) : Chip :=
  let e := (c.delCheck k).bump .dspChecked 12 [k.part]
  if out = k.out0 then e.chargeAll k k.bowl1 (e.differing k.bowl1 k.crc1 k.node1 crc node) mons
  else if out = k.out1 then
    (e.chargeAll k k.bowl0 (e.differing k.bowl0 k.crc0 k.node0 crc node) mons).raise Ev.silentErr [k.part] k.result k.stepTag
  else (e.logBowl k k.bowl0 4 mons).raise Ev.noMajority [k.part]

theorem checkRunEnd_running (h : (c.dsp.checks.find? fun k => k.launch == id) = some k) (he : c.runEnded id = false) :
    c.checkRunEnd id mons = c := by
  unfold Chip.checkRunEnd
  rw [h]
  exact if_pos (.inr he)

theorem checkRunEnd_check (h : (c.dsp.checks.find? fun k => k.launch == id) = some k) (he : c.runEnded id = true)
    (hp : k.phase = 1) :
    c.checkRunEnd id mons = ((c.runOver id).checkVerdict k mons (c.outRange id 0 (descOfWords k.desc).outBytes)
      (c.leafCrcs id) (c.nodeCrcs id)).checkNext := by
  unfold Chip.checkRunEnd
  rw [h]
  dsimp only
  rw [if_neg (by simp [he, hp]), if_pos hp]
  rfl

theorem checkRunEnd_tie (h : (c.dsp.checks.find? fun k => k.launch == id) = some k) (he : c.runEnded id = true)
    (hp : k.phase = 3) :
    c.checkRunEnd id mons = ((c.runOver id).tieVerdict k mons (c.outRange id 0 (descOfWords k.desc).outBytes)
      (c.leafCrcs id) (c.nodeCrcs id)).checkNext := by
  unfold Chip.checkRunEnd
  rw [h]
  dsimp only
  rw [if_neg (by simp [he, hp]), if_neg (by simp [hp])]
  rfl

/-! ### Service reports (R102) -/

theorem serviceReport_early (part : Nat)
    (h : c.due (kgetD c.dsp.periodAt part 0) (100 * max 1 (c.fld .dspGlbLimits 12 [] 31 20)) = false) :
    c.serviceReport part = c := by
  unfold Chip.serviceReport
  rw [h]
  rfl

theorem serviceReport_due (part : Nat)
    (h : c.due (kgetD c.dsp.periodAt part 0) (100 * max 1 (c.fld .dspGlbLimits 12 [] 31 20)) = true) :
    c.serviceReport part = (if bit (c.reg .dspPartCfg 12 [part]) 7 then c.writeReport part else c).endPeriod part := by
  unfold Chip.serviceReport
  rw [h]
  rfl

/-! ### Collective engines (R135, R137) -/

theorem stagingGranted_none (kind e : Nat)
    (h : (c.eng.ops.find? fun o => o.kind == kind && o.engine == e && o.phase == 0) = none) : c.stagingGranted kind e = c := by
  unfold Chip.stagingGranted
  rw [h]

theorem stagingGranted_some (kind e : Nat) {o : EngOp}
    (h : (c.eng.ops.find? fun o => o.kind == kind && o.engine == e && o.phase == 0) = some o) :
    c.stagingGranted kind e =
      if c.shareFits (engDie o.engine) o.part o.stageCells then
        let a := (c.engStage o).1.engAbsorb (c.engStage o).2
        a.1.engTry a.2
      else c := by
  unfold Chip.stagingGranted
  rw [h]
  dsimp only [Chip.engReserve]
  split <;> rfl

theorem opTimeout_eq {o : EngOp} (h : c.op? id = some o) :
    c.opTimeout id =
      if (o.phase = 0 ∨ o.phase = 1) ∧ c.due o.openTick (max 1 (c.fld (engGlbReg o.kind) (engDie o.engine) [] 15 0)) then
        c.abandon o 3
      else c := by
  unfold Chip.opTimeout
  rw [h]

end

/-- Settles O60: each event by the case of its meaning that the clause describes. -/
theorem computeEventsAct : Obligations.ComputeEventsAct := by
  unfold Obligations.ComputeEventsAct
  intro s
  dsimp only
  refine ⟨?residue, ?ecc, ?cores, ?checks, ?reports, ?staging, ?timeouts⟩
  case residue =>
    intro core ctx slot row col a b product mon
    refine ⟨fun h hf => settles_act rfl ?_, fun h hf => settles_act rfl ?_, fun r hr hi => ?_⟩
    · exact (residueError_idle _ _ _ _ _ _ _ _ _ _ h).trans (if_neg hf)
    · exact (residueError_idle _ _ _ _ _ _ _ _ _ _ h).trans (if_pos hf)
    · subst hr
      have e := residueError_running s.chip core ctx slot row col a b product mon hi
      exact ⟨fun hb => settles_act rfl (e.trans (if_neg (ne_true_of_eq_false hb))), fun hb => settles_act rfl (e.trans (if_pos hb))⟩
  case ecc =>
    intro core ctx slot word mon r hr hi
    have hn : s.chip.runner core ctx ≠ .idle := hr ▸ hi
    refine ⟨settles_act rfl (eccError_corrected _ _ _ _ _ _ hn), fun hk => ?_, fun hk hv => ?_⟩
    · have e := eccError_first _ _ _ slot _ mon hn hk
      exact ⟨fun he => settles_act rfl (e.trans (eccRefetch_none _ _ _ _ _ he)),
        fun g hg => ⟨fun l hl => settles_act rfl (e.trans (eccRefetch_kernel _ _ _ _ _ hl hg)),
          fun hl => settles_act rfl (e.trans (eccRefetch_other _ _ _ _ _ hl hg))⟩⟩
    · exact settles_act rfl (eccError_again _ _ _ _ _ _ hn hk hv)
  case cores =>
    intro core
    refine ⟨fun h => settles_act rfl (autoSubst_none _ _ h), fun h hl => ?_,
      fun h => settles_act rfl (scrubDone_idle _ _ h), fun h => settles_act rfl (scrubDone_scrubbing _ _ h)⟩
    have e := autoSubst_turn _ _ h hl
    exact ⟨fun hn => settles_act rfl (e.trans (substitute_none _ _ hn)),
      fun k hk ha => settles_act rfl (e.trans (substitute_spare _ _ hk ha))⟩
  case checks =>
    intro id k mons hk
    have due := checkTimeout_eq _ _ _ hk
    refine ⟨fun hl => settles_act rfl (due.trans (if_neg (ne_true_of_eq_false hl))), fun hl => settles_act rfl (due.trans (if_pos hl)),
      fun he => settles_act rfl (checkRunEnd_running _ _ _ _ hk he), fun he => ?_⟩
    have check (hp) := checkRunEnd_check _ _ _ mons hk he hp
    have tie (hp) := checkRunEnd_tie _ _ _ mons hk he hp
    refine ⟨fun hp h0 => settles_act rfl ((check hp).trans ?_), fun hp h0 => settles_act rfl ((check hp).trans ?_),
      fun hp h0 => settles_act rfl ((tie hp).trans ?_), fun hp h0 h1 => settles_act rfl ((tie hp).trans ?_),
      fun hp h0 h1 => settles_act rfl ((tie hp).trans ?_)⟩
    · exact congrArg Chip.checkNext (if_pos h0)
    · exact congrArg Chip.checkNext (if_neg h0)
    · exact congrArg Chip.checkNext (if_pos h0)
    · exact congrArg Chip.checkNext ((if_neg h0).trans (if_pos h1))
    · exact congrArg Chip.checkNext ((if_neg h0).trans (if_neg h1))
  case reports =>
    intro part
    refine ⟨fun hd => settles_act rfl (serviceReport_early _ _ hd), fun hd hr => settles_act rfl ((serviceReport_due _ _ hd).trans ?_),
      fun hd hr => settles_act rfl ((serviceReport_due _ _ hd).trans ?_)⟩
    · exact congrArg (Chip.endPeriod · part) (if_neg (ne_true_of_eq_false hr))
    · exact congrArg (Chip.endPeriod · part) (if_pos hr)
  case staging =>
    intro kind e
    refine ⟨fun h => settles_act rfl (stagingGranted_none _ _ _ h), fun o h => ?_⟩
    have g := stagingGranted_some _ _ _ h
    exact ⟨fun hf => settles_act rfl (g.trans (if_neg (ne_true_of_eq_false hf))), fun hf => settles_act rfl (g.trans (if_pos hf))⟩
  case timeouts =>
    intro id o ho
    have e := opTimeout_eq _ _ ho
    refine ⟨fun hp hd => settles_act rfl (e.trans (if_pos ⟨hp, hd⟩)), fun h => settles_act rfl (e.trans (if_neg ?_))⟩
    rintro ⟨hp, hd⟩
    rcases h with ⟨h0, h1⟩ | hf
    · exact hp.elim h0 h1
    · exact ne_true_of_eq_false hf hd

end Sys2Proof.Machine
end

section
/-! SUPPORT. What one tile that a fill brings, or one block fetched again, means: one lemma for each case (chapters 2, 3
and 5); and what the last tile of a placement fill leaves: its answer, and no command of the fill in progress. -/

namespace Sys2Proof.Machine

/-! ### One tile of a fill (R33, R100, R179, R181, R182) -/

section
variable (c : Chip) (f : Fill) (x : Deliver)

/-- The fill has the turn at its core's ricer. -/
def Chip.fillTurn (core : Nat) : Chip :=
  ({ c with dsp := { c.dsp with ricerTurn := kput c.dsp.ricerTurn (ricerOf core) f.id } }).setFill f

theorem tileFillDone_turn {core : Nat} (hn : c.ricerNext (ricerOf core) = some f) (hx : f.nextAt (ricerOf core) = some x)
    (hc : x.core = core) : c.tileFillDone f.id core = ((c.fillTurn f core).deliver f x).advance := by
  unfold Chip.tileFillDone
  dsimp only
  rw [hn]
  dsimp only
  rw [hx]
  exact if_neg (by simp [hc])

theorem fillGone_none (h : (c.obj f.obj).st = 3 ∨ (c.obj f.obj).st = 4) : c.fillGone f = none := by
  unfold Chip.fillGone
  dsimp only
  rw [if_neg (by omega), if_pos h]

theorem endReads_todo (r : Reads) : (c.endReads f r).1.todo = f.todo := by
  unfold Chip.endReads
  dsimp only
  split <;> rfl

/-- A tile that its fill has brought: the fill has it no longer to bring, nor to fetch again. -/
def Fill.brought : Fill :=
  { f with todo := f.todo.erase x, refetch := f.refetch.filter fun r => !(r.core == x.core && r.tile == x.tile) }

/-- A tile's bytes in its slot, zeros after them, and the slot valid. -/
def Chip.fillSlot (b : Bytes) : Chip :=
  (c.wrStore x.core (x.slot * 65536) (b ++ zerosB (65536 - b.length))).setValid x.core x.slot true

theorem placeTile_more (b : Bytes) (h : f.todo.erase x ≠ []) :
    c.placeTile f x b = (c.fillSlot x b).setFill (f.brought x) :=
  if_neg fun g => h g.1

theorem placeTile_last (b : Bytes) (h : f.todo.erase x = []) (hr : (f.brought x).refetching = false) :
    c.placeTile f x b = ((c.fillSlot x b).setFill (f.brought x)).endFill (f.brought x) :=
  if_pos ⟨h, hr⟩

section
variable (hs : (c.obj f.obj).st = 3 ∨ (c.obj f.obj).st = 4)
include hs

theorem deliver_home (hw : (c.obj f.obj).writable = true) : c.deliver f x = c.homeTile f x := by
  unfold Chip.deliver
  dsimp only
  rw [fillGone_none c f hs]
  exact if_pos hw

theorem deliver_raw (hw : (c.obj f.obj).writable = false) (hc : (c.obj f.obj).compressed = false) {b : Bytes} {rd : Reads} {d : Chip}
    (hr : c.fillRead f.obj (x.tile + 1) (x.tile * 65536) (min 65536 ((c.obj f.obj).size - x.tile * 65536)) (f.readsTo x) =
      (some b, rd, d)) :
    c.deliver f x = (d.endReads f rd).2.placeTile (d.endReads f rd).1 x b := by
  unfold Chip.deliver
  dsimp only
  rw [fillGone_none c f hs, hw, hc, hr]
  rfl

theorem deliver_rawErr (hw : (c.obj f.obj).writable = false) (hc : (c.obj f.obj).compressed = false) {rd : Reads} {d : Chip}
    (hr : c.fillRead f.obj (x.tile + 1) (x.tile * 65536) (min 65536 ((c.obj f.obj).size - x.tile * 65536)) (f.readsTo x) =
      (none, rd, d)) :
    c.deliver f x = (d.endReads f rd).2.fillDataErr (d.endReads f rd).1 x.core none := by
  unfold Chip.deliver
  dsimp only
  rw [fillGone_none c f hs, hw, hc, hr]
  rfl

end

/-- What the ricer makes of the tile: of all its blocks, or of those after the block that was fetched again. -/
def Chip.decodes (h : CmpHdr) (rd : Reads) : Decoded × Chip :=
  match f.refetch.find? fun r => r.core == x.core && r.tile == x.tile with
  | some a => c.tileBytes f.obj h ((tileBlocks h x.tile).filter fun k => decide (a.block < k))
      { bytes := a.before ++ a.data.getD [], reads := rd }
  | none => c.tileBytes f.obj h (tileBlocks h x.tile) { reads := rd }

/-- What the ricer made of the tile goes to the tile's slot, or the check of its bad block has failed. -/
def Chip.deliverDecoded (h : CmpHdr) (t : Decoded) : Chip :=
  let e := (c.bump .cmpOvfReads (coreDie x.core) [] t.ovf).endReads f t.reads
  match t.bad with
  | none => (e.2.bump .cmpBlocks (coreDie x.core) [] (tileBlocks h x.tile).length).placeTile e.1 x t.bytes
  | some (k, cause) =>
    if f.refetched.contains (ricerOf x.core, k) then e.2.fillDataErr e.1 x.core (some k)
    else e.2.checkFail e.1 x k cause t.bytes

theorem deliver_coded {hb : Bytes} {h : CmpHdr} {rd : Reads} {d : Chip} (hs : (c.obj f.obj).st = 3 ∨ (c.obj f.obj).st = 4)
    (hw : (c.obj f.obj).writable = false) (hc : (c.obj f.obj).compressed = true)
    (hr : c.fillRead f.obj 0 0 4096 (f.readsTo x) = (some hb, rd, d)) (hp : parseHdr hb = some h) :
    c.deliver f x = (d.decodes f x h rd).2.deliverDecoded f x h (d.decodes f x h rd).1 := by
  unfold Chip.deliver
  dsimp only
  rw [fillGone_none c f hs, hw, hc, hr]
  dsimp only [Option.bind_some]
  rw [hp]
  rfl

theorem deliverDecoded_ok (h : CmpHdr) {t : Decoded} (hb : t.bad = none) :
    c.deliverDecoded f x h t =
      let e := (c.bump .cmpOvfReads (coreDie x.core) [] t.ovf).endReads f t.reads
      (e.2.bump .cmpBlocks (coreDie x.core) [] (tileBlocks h x.tile).length).placeTile e.1 x t.bytes := by
  unfold Chip.deliverDecoded
  dsimp only
  rw [hb]

theorem deliverDecoded_bad (h : CmpHdr) {t : Decoded} {k cause : Nat} (hb : t.bad = some (k, cause)) :
    c.deliverDecoded f x h t =
      let e := (c.bump .cmpOvfReads (coreDie x.core) [] t.ovf).endReads f t.reads
      if f.refetched.contains (ricerOf x.core, k) then e.2.fillDataErr e.1 x.core (some k)
      else e.2.checkFail e.1 x k cause t.bytes := by
  unfold Chip.deliverDecoded
  dsimp only
  rw [hb]

theorem refetchDone_ok {id core : Nat} {rf : Refetch} {hb : Bytes} {h : CmpHdr} {rd rd' : Reads} {b : Block} {o : Bool} {d d' : Chip}
    (hf : (c.dsp.fills.find? fun f => f.id == id) = some f) (hs : (c.obj f.obj).st = 3 ∨ (c.obj f.obj).st = 4)
    (hrf : (f.refetch.find? fun r => r.core == core && r.data.isNone) = some rf)
    (hr : c.fillRead f.obj 0 0 4096 f.reads = (some hb, rd, d)) (hp : parseHdr hb = some h)
    (hk : d.block true f.obj h rf.block rd = (.ok b, o, rd', d')) :
    c.refetchDone id core =
      let e := d'.endReads f rd'
      ((e.2.rewriteBlock f.obj h rf.block b).bump .cmpRewrite (coreDie core)).setFill (e.1.refetchedBlock rf b.data) := by
  unfold Chip.refetchDone
  -- `block` is kept opaque: the kernel would evaluate it to compare the branches of its match
  obtain ⟨block, hblock⟩ : ∃ g, g = @Chip.block := ⟨_, rfl⟩
  rw [← hblock] at hk ⊢
  simp only [hf, hrf, fillGone_none c f hs, hr, hp, hk, Option.bind_some]

end

/-! ### The last tile of a placement fill (R205, R206) -/

/-- `d` is `c` but for the cores' stores and states, the memory tiers, the cells, the die-to-die links and the
counters: what reading an object for a fill changes. -/
def Fetched (c d : Chip) : Prop :=
  d = { c with cores := { d.cores with ctx := c.cores.ctx }, mem := d.mem, swc := d.swc,
               ctl := { c.ctl with cnt := d.ctl.cnt, sat := d.ctl.sat, satEv := d.ctl.satEv, tri := d.ctl.tri } }

theorem Fetched.rfl' (c : Chip) : Fetched c c := rfl
theorem Fetched.trans {a b c : Chip} (h : Fetched a b) (g : Fetched b c) : Fetched a c := by
  unfold Fetched at *
  rw [g, h]
theorem Switched.fetched {c d : Chip} (h : Switched c d) : Fetched c d := by
  unfold Switched at h
  rw [h]
  rfl
theorem Worked.fetched {c d : Chip} (h : Worked c d) : Fetched c d := by
  unfold Worked at h
  rw [h]
  rfl
theorem Fetched.quiet {c d : Chip} (h : Fetched c d) : Quiet c d := by
  unfold Fetched at h
  exact ⟨by rw [h], by rw [h], by rw [h]; rfl, by rw [h], by rw [h]; exact id, by rw [h]; exact id⟩
theorem Fetched.dsp {c d : Chip} (h : Fetched c d) : d.dsp = c.dsp := by
  unfold Fetched at h
  rw [h]
theorem Fetched.session {c d : Chip} (h : Fetched c d) (i : Nat) : d.session? i = c.session? i := by
  unfold Fetched at h
  rw [h]
  rfl
theorem Fetched.ctx {c d : Chip} (h : Fetched c d) : d.cores.ctx = c.cores.ctx := by
  unfold Fetched at h
  rw [h]

theorem switched_crossGranules (c : Chip) (id off n die : Nat) : Switched c (c.crossGranules id off n die) :=
  Switched.foldl _ (fun _ _ => Switched.foldl _ (fun _ _ => switched_cross _ _ _ _) _ _) _ _

theorem worked_dramBurst (c : Chip) (id off n : Nat) : Worked c (c.dramBurst id off n).2 := by
  refine List.foldlRecOn (motive := fun r : List Nat × Chip => Worked c r.2) _ _ (.rfl' c) fun r h p _ => ?_
  split
  · exact h
  · exact h.trans (worked_mem _ _)

theorem fetched_fillRead (c : Chip) (id tag off n : Nat) (r : Reads) : Fetched c (c.fillRead id tag off n r).2.2 := by
  have hx : Fetched c ((r.to_.map fun d => c.crossGranules id off n d).getD c) := by
    cases r.to_ with
    | none => exact .rfl' c
    | some d => exact (switched_crossGranules _ _ _ _ _).fetched
  unfold Chip.fillRead
  dsimp only
  split
  · exact hx
  · exact hx.trans ((worked_dramBurst _ _ _ _).trans (worked_readPart _ _ _ _)).fetched

theorem stallAgain_cores (c : Chip) (id part : Nat) (had new : List Nat) : (c.stallAgain id part had new).cores = c.cores := by
  have bumps : ∀ (l : List Nat) (c : Chip), (l.foldl (fun c n => c.bump (tierCnt n) 12 [part]) c).cores = c.cores := by
    intro l
    induction l with
    | nil => exact fun _ => rfl
    | cons n t ih => exact fun c => ih (c.bump (tierCnt n) 12 [part])
  unfold Chip.stallAgain
  dsimp only
  split
  · exact bumps _ _
  · exact bumps _ _

theorem advance_nil (c : Chip) (hx : c.cores.ctx = []) (hr : c.dsp.runs = []) : c.advance = c := by
  unfold Chip.advance
  simp only [hx, hr, kkeys, List.foldl_nil, List.map_nil, List.dedup_nil]

/-! #### Placement commands whose fill has ended leave the order -/

def Chip.setPlace (c : Chip) (l : List PlaceCmd) : Chip := { c with mgt := { c.mgt with place := l } }

theorem tryPlace_fillOver (c : Chip) (p : PlaceCmd) (hf : c.dsp.fills = []) (hs : p.started = true) (ho : p.opc = 0x0305) :
    c.tryPlace p = c.setPlace (c.mgt.place.erase p) := by
  unfold Chip.tryPlace
  simp only [hs, ho, hf]
  rfl

theorem tryPlaces_fillOver (c : Chip) (l : List PlaceCmd) (hf : c.dsp.fills = []) (hl : ∀ p ∈ l, p.started = true ∧ p.opc = 0x0305) :
    l.foldl (fun c p => c.tryPlace p) c = c.setPlace (c.mgt.place.diff l) := by
  induction l generalizing c with
  | nil => rfl
  | cons p t ih =>
    obtain ⟨hs, ho⟩ := hl p List.mem_cons_self
    rw [List.foldl_cons, tryPlace_fillOver c p hf hs ho, List.diff_cons]
    exact ih (c.setPlace (c.mgt.place.erase p)) hf fun q hq => hl q (List.mem_cons_of_mem _ hq)

theorem place_diff_self (l : List PlaceCmd) : l.diff l = [] := by
  induction l with
  | nil => rfl
  | cons p t ih => rw [List.diff_cons, List.erase_cons_head, ih]

theorem placeRound_fillOver (c : Chip) (hf : c.dsp.fills = []) (hl : ∀ p ∈ c.mgt.place, p.started = true ∧ p.opc = 0x0305) :
    c.placeRound = c.setPlace [] := by
  unfold Chip.placeRound
  rw [tryPlaces_fillOver c _ hf hl, place_diff_self]
  rfl

theorem placeRounds_fillOver (c : Chip) (n : Nat) (hf : c.dsp.fills = []) (hl : ∀ p ∈ c.mgt.place, p.started = true ∧ p.opc = 0x0305) :
    (List.range (n + 1)).foldl (fun c _ => c.placeRound) c = c.setPlace [] := by
  induction n with
  | zero => exact placeRound_fillOver c hf hl
  | succ n ih =>
    rw [List.range_succ, List.foldl_append, ih]
    exact Chip.placeRound_nil _ rfl

/-- With no fill left, the fill commands that were under way leave the order, and nothing else is left to settle. -/
theorem settle_fillOver (c : Chip) (ps : List PlaceCmd) (h : c.StillWith ps) (hf : c.dsp.fills = [])
    (hp : ∀ p ∈ ps, p.started = true ∧ p.opc = 0x0305) : c.settle = c.setPlace [] := by
  obtain ⟨hps, hs⟩ := h
  obtain ⟨hq, hheld, -, hcuts, hadm, hover, hwaits, hcredit⟩ := hs
  have place : c.settlePlacement = c.setPlace [] := by
    unfold Chip.settlePlacement
    dsimp only
    rw [c.settleFills_nil (by simp [hf]), placeRounds_fillOver c _ hf (by rwa [hps])]
    exact Chip.cmpRelease_nil _ hheld
  rw [Chip.settle, c.cutAll_nil hcuts, c.settleN_nil _ hq, c.admitQueries_nil hadm, c.settleN_nil _ hq, place,
    (c.setPlace []).settleChecks_nil hwaits, (c.setPlace []).settleCredit_nil hcredit, (c.setPlace []).settleN_nil _ hq]

theorem Quiet.stillWith {c d : Chip} {ps : List PlaceCmd} (h : Quiet c d) (g : c.StillWith ps) : d.StillWith ps := by
  obtain ⟨hps, hq, hheld, -, hcuts, hadm, hrest⟩ := g
  exact ⟨Eq.trans h.more hps, h.localQ.trans hq, by rw [show _ = _ from h.held]; exact hheld, rfl, h.cuts.trans hcuts, h.ops hadm, h.rest hrest⟩

/-- The last tile's fill has ended: its object is recorded where the fill brought it. -/
def Chip.recordFill (c : Chip) (f : Fill) : Chip :=
  f.targets.foldl (fun c t => c.putResid t.1 t.2 (c.fillCount f t.1) f.obj) (c.delFill f.id)

/-- `d` is `c` with another record of what is resident. -/
def Resided (c d : Chip) : Prop := d = { c with dsp := { c.dsp with resid := d.dsp.resid } }

theorem resided_putResids (f : Fill) (l : List (Nat × Nat)) (c : Chip) :
    Resided c (l.foldl (fun c t => c.putResid t.1 t.2 (c.fillCount f t.1) f.obj) c) := by
  induction l generalizing c with
  | nil => rfl
  | cons t l ih =>
    have h := ih (c.putResid t.1 t.2 (c.fillCount f t.1) f.obj)
    unfold Resided at h ⊢
    rw [List.foldl_cons, h]
    rfl

theorem resided_recordFill (c : Chip) (f : Fill) : Resided (c.delFill f.id) (c.recordFill f) := resided_putResids _ _ _

theorem endCmd_running (c : Chip) {sess reqId status : Nat} {y : Session} {run : Running} (hy : c.session? sess = some y)
    (hr : (y.running.find? fun r => r.reqId == reqId) = some run) :
    c.endCmd (sess, reqId) status 0 = c.finishCmd sess reqId run.opc status 0 [] := by
  unfold Chip.endCmd
  rw [hy]
  dsimp only
  rw [hr]

theorem finishCmd_dsp (c : Chip) (i r o s d : Nat) (b : Bytes) : (c.finishCmd i r o s d b).dsp = c.dsp := by
  rw [show _ = _ from answered_finishCmd c i r o s d b]
  rfl

theorem finishCmd_cores (c : Chip) (i r o s d : Nat) (b : Bytes) : (c.finishCmd i r o s d b).cores = c.cores := by
  rw [show _ = _ from answered_finishCmd c i r o s d b]
  rfl

/-- The end of a placement fill's only descriptor completes its command. -/
theorem endFill_placed (c : Chip) (f : Fill) {sess reqId : Nat} {y : Session} {run : Running} (hk : f.kind = 1) (hl : f.later = [])
    (hc : f.cmd = some (sess, reqId)) (hf : (c.recordFill f).dsp.fills = []) (hn : (c.recordFill f).dsp.launches = [])
    (hy : (c.recordFill f).session? sess = some y) (hr : (y.running.find? fun r => r.reqId == reqId) = some run) :
    c.endFill f = (c.recordFill f).finishCmd sess reqId run.opc 0 0 [] := by
  have answer : (c.recordFill f).fillCmd f 0 = (c.recordFill f).finishCmd sess reqId run.opc 0 0 [] := by
    unfold Chip.fillCmd
    rw [hc, ← endCmd_running (c.recordFill f) hy hr]
    simp only [hf, List.any_nil, if_true, Bool.false_eq_true, if_false]
  have ends : c.endFill f = ((c.recordFill f).fillCmd f 0).unblockFills.noteWaits := by
    unfold Chip.endFill
    dsimp only
    rw [if_pos hk, hl]
    rfl
  rw [ends, answer, unblockFills_nil _ (by rw [finishCmd_dsp, hf]), noteWaits_nil _ (by rw [finishCmd_dsp, hn])]

theorem fillSlot_cores {c d : Chip} (x : Deliver) (b : Bytes) (h : c.cores = d.cores) :
    (c.fillSlot x b).cores = (d.fillSlot x b).cores := by
  simp only [Chip.fillSlot, Chip.setValid, Chip.modCore, Chip.setCore, Chip.core, Chip.wrStore, h]

theorem worked_fillSlot (c : Chip) (x : Deliver) (b : Bytes) : Worked c (c.fillSlot x b) :=
  (worked_wrStore _ _ _ _).trans (worked_setValid _ _ _ _)

/-- What a fill knows of its object is all that a delivery's reads may change of it. -/
theorem endReads_eq (c : Chip) (f : Fill) (r : Reads) : ∃ got, c.endReads f r =
    ({ f with got := got }, (c.stall f.obj (c.obj f.obj).part r.causes).setFill { f with got := got }) := by
  unfold Chip.endReads
  dsimp only
  split
  · exact ⟨r.got, rfl⟩
  · exact ⟨f.got, rfl⟩

/-- `d` is `c` with another record of what is resident, and no fill. -/
def Filled (c d : Chip) : Prop := d = { c with dsp := { c.dsp with fills := [], resid := d.dsp.resid } }

theorem Filled.stillWith {c d : Chip} {ps : List PlaceCmd} (h : Filled c d) (g : c.StillWith ps) : d.StillWith ps := by
  have q : Quiet c { c with dsp := { c.dsp with fills := [], resid := d.dsp.resid } } := quiet_dsp _ _ (fun _ hf => by cases hf) id
  rw [show _ = _ from h]
  exact q.stillWith g

theorem quiet_fillTurn (c : Chip) (f : Fill) (core : Nat) (hf : f ∈ c.dsp.fills) : Quiet c (c.fillTurn f core) := by
  refine quiet_dsp _ _ (fun g hg => ?_) id
  rcases mem_modFirst _ _ _ g hg with h | ⟨_, _, rfl⟩
  · exact h
  · exact hf

theorem fillTurn_fills (c : Chip) (f : Fill) (core : Nat) (hf : c.dsp.fills = [f]) : (c.fillTurn f core).dsp.fills = [f] := by
  show modFirst _ _ c.dsp.fills = [f]
  rw [hf]
  simp [modFirst]

/-- A record of its object made, the only fill is gone. -/
theorem filled_recordFill (c : Chip) (f g : Fill) (x : Deliver) (b : Bytes) (hf : c.dsp.fills = [f]) (hg : g.id = f.id) :
    Filled (c.fillSlot x b) ((((c.setFill g).fillSlot x b).setFill (g.brought x)).recordFill (g.brought x)) := by
  have hz : ((((c.setFill g).fillSlot x b).setFill (g.brought x)).delFill g.id) =
      { c.fillSlot x b with dsp := { c.dsp with fills := [] } } := by
    have e : delFirst (fun y => y.id == g.id) (modFirst (fun y => y.id == g.id) (fun _ => g.brought x)
        (modFirst (fun y => y.id == g.id) (fun _ => g) c.dsp.fills)) = [] := by
      rw [hf]
      simp [modFirst, delFirst, Fill.brought, hg]
    rw [← e]
    rfl
  have hr := resided_recordFill (((c.setFill g).fillSlot x b).setFill (g.brought x)) (g.brought x)
  unfold Resided at hr
  unfold Filled
  rw [hr, show (g.brought x).id = g.id from rfl, hz]
  rfl

theorem Filled.fills {c d : Chip} (h : Filled c d) : d.dsp.fills = [] := by rw [show _ = _ from h]
theorem Filled.cores {c d : Chip} (h : Filled c d) : d.cores = c.cores := by rw [show _ = _ from h]
theorem Filled.launches {c d : Chip} (h : Filled c d) : d.dsp.launches = c.dsp.launches := by rw [show _ = _ from h]
theorem Filled.runs {c d : Chip} (h : Filled c d) : d.dsp.runs = c.dsp.runs := by rw [show _ = _ from h]
theorem Filled.session {c d : Chip} (h : Filled c d) (i : Nat) : d.session? i = c.session? i := by
  rw [show _ = _ from h]
  rfl

/-- The last tile of a placement fill with one descriptor, of a raw read-only object: the fill ends, and its command
is answered. -/
theorem deliver_last (c d : Chip) (f : Fill) (x : Deliver) {b : Bytes} {rd : Reads} {sess reqId : Nat} {y : Session} {run : Running}
    (hs : (c.obj f.obj).st = 3 ∨ (c.obj f.obj).st = 4) (hw : (c.obj f.obj).writable = false) (hz : (c.obj f.obj).compressed = false)
    (hread : c.fillRead f.obj (x.tile + 1) (x.tile * 65536) (min 65536 ((c.obj f.obj).size - x.tile * 65536)) (f.readsTo x) =
      (some b, rd, d))
    (hfills : c.dsp.fills = [f]) (hlaunches : c.dsp.launches = []) (htodo : f.todo = [x]) (hlater : f.later = []) (hrefetch : f.refetch = [])
    (hkind : f.kind = 1) (hcmd : f.cmd = some (sess, reqId)) (hy : c.session? sess = some y)
    (hrun : (y.running.find? fun r => r.reqId == reqId) = some run) :
    let g := (d.stall f.obj (d.obj f.obj).part rd.causes).fillSlot x b
    ∃ e, Fetched c g ∧ Filled g e ∧ e.session? sess = some y ∧ c.deliver f x = e.finishCmd sess reqId run.opc 0 0 [] := by
  have hfetch : Fetched c d := by
    have := fetched_fillRead c f.obj (x.tile + 1) (x.tile * 65536) (min 65536 ((c.obj f.obj).size - x.tile * 65536)) (f.readsTo x)
    rwa [hread] at this
  obtain ⟨got, hg⟩ := endReads_eq d f rd
  have hslot : Fetched c ((d.stall f.obj (d.obj f.obj).part rd.causes).fillSlot x b) :=
    hfetch.trans ((worked_stall _ _ _ _).trans (worked_fillSlot _ _ _)).fetched
  have hfilled := filled_recordFill (d.stall f.obj (d.obj f.obj).part rd.causes) f { f with got := got } x b
    (by rw [(worked_stall _ _ _ _).fetched.dsp, hfetch.dsp, hfills]) rfl
  have hsess := (hfilled.session sess).trans ((hslot.session sess).trans hy)
  refine ⟨_, hslot, hfilled, hsess, ?_⟩
  rw [deliver_raw c f x hs hw hz hread, hg, placeTile_last _ _ _ _ (by simp [htodo]) (by simp [Fill.refetching, Fill.brought, hrefetch])]
  exact endFill_placed _ _ hkind hlater hcmd hfilled.fills (by rw [hfilled.launches, hslot.dsp, hlaunches]) hsess hrun

/-- An answer sent with no fill and no run in progress is all that is left to do, but for the order of commands. -/
theorem settle_answered (c : Chip) {ps : List PlaceCmd} {sess reqId opc : Nat} (h : c.StillWith ps) (hf : c.dsp.fills = [])
    (hr : c.dsp.runs = []) (hx : c.cores.ctx = []) (hp : ∀ p ∈ ps, p.started = true ∧ p.opc = 0x0305) :
    (c.finishCmd sess reqId opc 0 0 []).advance.settle = (c.finishCmd sess reqId opc 0 0 []).setPlace [] := by
  rw [advance_nil _ (by rw [finishCmd_cores, hx]) (by rw [finishCmd_dsp, hr])]
  exact settle_fillOver _ ps ((quiet_finishCmd _ _ _ _ _ _ _).stillWith h) (by rw [finishCmd_dsp, hf]) hp

/-- Settles O42: a delivery and a refetch by the cases of their meanings, the last tile also by what its answer leaves to do. -/
theorem tileFillsEnd : Obligations.TileFillsEnd := by
  unfold Obligations.TileFillsEnd
  refine ⟨?tile, ?refetch⟩
  case refetch =>
    intro s id core f rf hb h rd b o rd' c c' hf hs hrf hr hp hk
    exact settles_act rfl (refetchDone_ok s.chip f hf hs hrf hr hp hk)
  case tile =>
    intro s id core f x hid hn hx hc
    subst hid hc
    dsimp only
    have turn := tileFillDone_turn s.chip f x hn hx rfl
    intro hs
    refine ⟨?raw, ?home, ?coded, ?last⟩
    case raw =>
      intro hw hz r rd c hr
      refine ⟨?_, ?_⟩
      · rintro b rfl hm
        refine settles_act rfl (turn.trans (congrArg Chip.advance ?_))
        rw [deliver_raw (s.chip.fillTurn f x.core) f x hs hw hz hr, placeTile_more _ _ _ _ (by rwa [endReads_todo])]
        rfl
      · rintro rfl
        exact settles_act rfl (turn.trans (congrArg Chip.advance (deliver_rawErr (s.chip.fillTurn f x.core) f x hs hw hz hr)))
    case home =>
      intro hw hg
      refine settles_act rfl (turn.trans (congrArg Chip.advance ?_))
      rw [deliver_home (s.chip.fillTurn f x.core) f x hs hw]
      unfold Chip.homeTile
      dsimp only
      rw [hg]
      rfl
    case coded =>
      intro hw hz hb h rd c hr hp t c2 ht
      have ht : c.decodes f x h rd = (t, c2) := by
        unfold Chip.decodes
        rcases ht with ⟨ha, ht⟩ | ⟨rf, ha, ht⟩
        · rw [ha]
          exact ht
        · rw [ha]
          exact ht
      have coded := deliver_coded (s.chip.fillTurn f x.core) f x hs hw hz hr hp
      rw [ht] at coded
      refine ⟨fun hb hm => settles_act rfl (turn.trans (congrArg Chip.advance (coded.trans ?_))),
        fun k cause hb => settles_act rfl (turn.trans (congrArg Chip.advance (coded.trans ?_)))⟩
      · refine (deliverDecoded_ok _ _ _ _ hb).trans (placeTile_more _ _ _ _ ?_)
        rwa [endReads_todo]
      · exact deliverDecoded_bad _ _ _ _ hb
    case last =>
      intro b rd c sess reqId y run ps htodo hlater hrefetch hfills hlaunches hruns hctx hkind hw hz hcmd hps hp hy hrun hr
      obtain ⟨e, hg, he, hsess, hd⟩ := deliver_last (s.chip.fillTurn f x.core) c f x hs hw hz hr (fillTurn_fills _ _ _ hfills)
        hlaunches htodo hlater hrefetch hkind hcmd hy hrun
      have still : e.StillWith ps := he.stillWith (hg.quiet.stillWith
        ((quiet_fillTurn _ _ _ (hfills ▸ List.mem_cons_self)).stillWith hps))
      have settled := settle_answered (opc := run.opc) (sess := sess) (reqId := reqId) e still he.fills
        (by rw [he.runs, hg.dsp]; exact hruns) (by rw [he.cores, hg.ctx]; exact hctx) fun p h => ⟨(hp p h).1, (hp p h).2.1⟩
      refine ⟨{ s with chip := (e.finishCmd sess reqId run.opc 0 0 []).setPlace [] }, ?_, ?_, ?_, ?_⟩
      · show act s (s.chip.tileFillDone f.id x.core) = _
        rw [turn, hd, act, settled]
        rfl
      · exact (congrArg Dispatch.fills (finishCmd_dsp _ _ _ _ _ _ _)).trans he.fills
      · exact (finishCmd_cores _ _ _ _ _ _ _).trans (he.cores.trans (fillSlot_cores _ _ (stallAgain_cores _ _ _ _ _)))
      · exact finishCmd_lastReply e sess reqId run.opc 0 0 [] y hsess (by decide)

end Sys2Proof.Machine
end

section
/-! SUPPORT. What privileged writes of the tables of the compute blocks, of MEM_FAIL_CMD and of MEM_CTRL start
(chapters 2, 3, 4, 6 and 7). -/

namespace Sys2Proof.Machine

/-! ### What a privileged write starts in a compute block -/

section
variable (c : Chip) (die i j w v : Nat)

theorem regEffect_corCoreState :
    c.regEffect .corCoreState die [i, j] w v true = c.coreWrite (die * coresPerDie + i * 64 + j) v true := by
  unfold Chip.regEffect
  exact (if_neg (by decide)).trans rfl
theorem regEffect_corBowlDesc : c.regEffect .corBowlDesc die [i] w v true = c.bowlWrite i w := by
  unfold Chip.regEffect
  exact (if_neg (by decide)).trans rfl
theorem regEffect_dspWindowW0 : c.regEffect .dspWindowW0 die [i] w v true = c.winWrite false i w := by
  unfold Chip.regEffect
  exact (if_neg (by decide)).trans rfl
theorem regEffect_sftQwinW0 : c.regEffect .sftQwinW0 die [i] w v true = c.winWrite true i w := by
  unfold Chip.regEffect
  exact (if_neg (by decide)).trans rfl
theorem regEffect_sftIndexW0 : c.regEffect .sftIndexW0 die [i] w v true = c.indexWrite i w := by
  unfold Chip.regEffect
  exact (if_neg (by decide)).trans rfl
theorem regEffect_engCfg (k : Nat) :
    c.regEffect (engCfgReg k) die [i] w v true = c.engCfgWrite (engCfgReg k) die i w := by
  unfold engCfgReg Chip.regEffect
  split <;> exact (if_neg (by decide)).trans rfl
theorem regEffect_memFailCmd :
    c.regEffect .memFailCmd die [] w v true =
      if bit v 31 then (c.setReg .memFailCmd die [] (putBits w 31 31 0)).memFail (bits w 3 0)
      else c.setReg .memFailCmd die [] (putBits w 31 31 0) := by
  unfold Chip.regEffect
  rw [Bool.and_true]
  exact (if_neg (by decide)).trans rfl
theorem regEffect_memCtrl :
    c.regEffect .memCtrl die [] w v true =
      if bit w 0 && !bit (c.reg .memCtrl die) 0 then (c.setReg .memCtrl die [] w).wakeCursor else c.setReg .memCtrl die [] w := by
  unfold Chip.regEffect
  exact (if_neg (by decide)).trans rfl

theorem slotAt_engCfg (k : Nat) (hdie : die ∈ dPort) (hi : i < 16) :
    slotAt ((engCfgReg k).addr die [i]) = .reg (engCfgReg k) die [i] := by
  unfold engCfgReg
  split
  · exact slotAt_wskEngCfg die i hdie hi
  · exact slotAt_tngEngCfg die i hdie hi
  · exact slotAt_cldEngCfg die i hdie hi

theorem addr_engCfg (k : Nat) (hk : k < 3) : (engCfgReg k).addr die [i] = ctlAddr die (11 + k) (0x100 + 16 * i) := by
  interval_cases k <;> rfl

end

/-! ### A privileged master's writes of the tables of the compute blocks (R591, R598) -/

section
variable (c : Chip) (m : Master) (v : Word) (hm : m.code ≤ 8)
include hm

theorem store_corCoreState (k : Nat) (hk : k < 8 * coresPerDie) (hd : c.dieCut (coreDie k) = false) :
    c.busStore m ((Reg.corCoreState).addr (coreDie k) (coreIdx k)) v = (c.coreWrite k v.toNat true).busResp 0 0 := by
  have hdie : coreDie k < 8 := Nat.div_lt_of_lt_mul (Nat.mul_comm 8 _ ▸ hk)
  have htile : coreTile k < 49 := by unfold coreTile coresPerDie; omega
  have hpos : corePos k < 64 := Nat.mod_lt _ (by decide)
  have haddr : ∀ d i j, i < 49 → j < 64 → (Reg.corCoreState).addr d [i, j] % 4 = 0 ∧ (Reg.corCoreState).addr d [i, j] / 2 ^ 44 = d := by
    intro d i j hi hj
    simp only [Reg.addr, Reg.off, Reg.info, strideSum, ctlAddr]
    omega
  obtain ⟨h4, h44⟩ := haddr (coreDie k) _ _ htile hpos
  have hcore : coreDie k * coresPerDie + coreTile k * 64 + corePos k = k := by
    unfold coreDie coreTile corePos coresPerDie; omega
  unfold coreIdx
  rw [store_priv c m _ v .corCoreState (coreDie k) _ hm
    (slotAt_corCoreState _ _ _ ((by decide : ∀ d < 8, d ∈ dCore) _ hdie) htile hpos) h4 (h44.symm ▸ hd) rfl rfl rfl rfl (by decide),
    codes_ign _ _ _ _ _ (by decide), when_false, regEffect_corCoreState, hcore]

/-- A write of a register of die 12 whose fields are never held has its block's effect. -/
theorem store_plain12 (r : Reg) (i : List Nat) (b o : Nat) (hs : slotAt (r.addr 12 i) = .reg r 12 i)
    (ha : r.addr 12 i = ctlAddr 12 b o) (ho : o < 2 ^ 32) (hb : b < 4096) (h4 : o % 4 = 0)
    (hn : (Slot.reg r 12 i).noWrite = false) (hi : c.inert (.reg r 12 i) = false) (hab : absentMask r 12 i = 0)
    (hst : stagedReg r = false) (h1 : r.info.block ≠ 1) (hf : ∀ f ∈ r.info.fields, f.acc ≠ .rwd) :
    c.busStore m (r.addr 12 i) v = (c.regEffect r 12 i (c.written r 12 i v) v.toNat true).busResp 0 0 := by
  obtain ⟨h4, h12⟩ := addr12 b o ho hb h4
  rw [store12 c m v r i hm hs (ha ▸ h4) (ha ▸ h12) hn hi hab hst h1, codes_ign _ _ _ _ _ hf, when_false]

theorem store_corBowlDesc (b : Nat) (hb : b < 8192) :
    c.busStore m ((Reg.corBowlDesc).addr 12 [b]) v = (c.bowlWrite b (c.written .corBowlDesc 12 [b] v)).busResp 0 0 := by
  rw [store_plain12 c m v hm .corBowlDesc [b] 9 (0x200000 + 64 * b) (slotAt_corBowlDesc b hb) rfl (by omega) (by decide)
    (by omega) rfl rfl rfl rfl (by decide) (by decide), regEffect_corBowlDesc]

theorem store_dspWindowW0 (i : Nat) (hi : i < 1024) :
    c.busStore m ((Reg.dspWindowW0).addr 12 [i]) v = (c.winWrite false i (c.written .dspWindowW0 12 [i] v)).busResp 0 0 := by
  rw [store_plain12 c m v hm .dspWindowW0 [i] 10 (0x1000000 + 32 * i) (slotAt_dspWindowW0 i hi) rfl (by omega) (by decide)
    (by omega) rfl rfl rfl rfl (by decide) (by decide), regEffect_dspWindowW0]

theorem store_sftQwinW0 (i : Nat) (hi : i < 256) :
    c.busStore m ((Reg.sftQwinW0).addr 12 [i]) v = (c.winWrite true i (c.written .sftQwinW0 12 [i] v)).busResp 0 0 := by
  rw [store_plain12 c m v hm .sftQwinW0 [i] 15 (0x2000000 + 32 * i) (slotAt_sftQwinW0 i hi) rfl (by omega) (by decide)
    (by omega) rfl rfl rfl rfl (by decide) (by decide), regEffect_sftQwinW0]

theorem store_windowW0 (q : Bool) (i : Nat) (hi : i < if q then 256 else 1024) :
    c.busStore m ((if q then Reg.sftQwinW0 else .dspWindowW0).addr 12 [i]) v =
      (c.winWrite q i (c.written (if q then .sftQwinW0 else .dspWindowW0) 12 [i] v)).busResp 0 0 := by
  cases q with
  | true => exact store_sftQwinW0 c m v hm i hi
  | false => exact store_dspWindowW0 c m v hm i hi

theorem store_sftIndexW0 (i : Nat) (hi : i < 256) :
    c.busStore m ((Reg.sftIndexW0).addr 12 [i]) v = (c.indexWrite i (c.written .sftIndexW0 12 [i] v)).busResp 0 0 := by
  rw [store_plain12 c m v hm .sftIndexW0 [i] 15 (0x1000000 + 64 * i) (slotAt_sftIndexW0 i hi) rfl (by omega) (by decide)
    (by omega) rfl rfl rfl rfl (by decide) (by decide), regEffect_sftIndexW0]

theorem store_memFailCmd :
    c.busStore m ((Reg.memFailCmd).addr 12 []) v =
      (let w := c.written .memFailCmd 12 [] v
       let d := c.setReg .memFailCmd 12 [] (putBits w 31 31 0)
       if bit v.toNat 31 then d.failStack (bits w 3 0) 4 else d).busResp 0 0 := by
  rw [store_plain12 c m v hm .memFailCmd [] 7 0x18 slotAt_memFailCmd rfl (by decide) (by decide) (by decide)
    rfl rfl rfl rfl (by decide) (by decide), regEffect_memFailCmd]
  rfl

theorem store_engCfg (k die i : Nat) (hk : k < 3) (hdie : die ∈ dPort) (hi : i < 16) (hd : c.dieCut die = false) :
    c.busStore m ((engCfgReg k).addr die [i]) v =
      (c.engCfgWrite (engCfgReg k) die i (c.written (engCfgReg k) die [i] v)).busResp 0 0 := by
  have hreg : absentMask (engCfgReg k) die [i] = 0 ∧ stagedReg (engCfgReg k) = false ∧ (Slot.reg (engCfgReg k) die [i]).noWrite = false ∧
      c.inert (.reg (engCfgReg k) die [i]) = false ∧ (engCfgReg k).info.block ≠ 1 ∧ ∀ f ∈ (engCfgReg k).info.fields, f.acc ≠ .rwd := by
    interval_cases k <;> exact ⟨rfl, rfl, rfl, rfl, by decide, by decide⟩
  obtain ⟨hab, hst, hn, hin, hb, hf⟩ := hreg
  have ha : (engCfgReg k).addr die [i] % 4 = 0 ∧ (engCfgReg k).addr die [i] / 2 ^ 44 = die := by
    rw [addr_engCfg die i k hk]; unfold ctlAddr; omega
  rw [store_priv c m _ v _ die [i] hm (slotAt_engCfg die i k hdie hi) ha.1 (ha.2.symm ▸ hd) hn hin hab hst hb,
    codes_ign _ _ _ _ _ hf, when_false, regEffect_engCfg]

end

/-- REBUILD_AUTO is held while the block is enabled: a write that would change it is what sets CFG_IGNORED. -/
theorem codes_memCtrl_ignored (c : Chip) (v : Nat) :
    (c.codes .memCtrl 12 [] v true).ignored = (bit (c.reg .memCtrl 12) 0 && bits v 3 3 != bits (c.reg .memCtrl 12) 3 3) := by
  have fields : (Reg.memCtrl).info.fields = [fPrv 3 3 .rwd 1, fPlain 2 2 .w1c 0, fPrv 0 0 .rw 0] := rfl
  unfold Chip.codes
  rw [fields, List.foldl_cons, List.foldl_cons, List.foldl_cons, List.foldl_nil, writeField_ign _ _ _ _ (by decide),
    writeField_ign _ _ _ _ (by decide)]
  show FieldRes.ignored (if (bit (c.reg .memCtrl 12) 0 && bits v 3 3 != bits (c.reg .memCtrl 12) 3 3) = true then _ else _) = _
  split
  case isTrue h => exact h.symm
  case isFalse h => exact (Bool.eq_false_of_not_eq_true h).symm

theorem store_memCtrl (c : Chip) (m : Master) (v : Word) (hm : m.code ≤ 8) :
    c.busStore m ((Reg.memCtrl).addr 12 []) v =
      (let w := c.written .memCtrl 12 [] v
       let d := c.setReg .memCtrl 12 [] w
       (if bit w 0 && !bit (c.reg .memCtrl 12) 0 then d.wakeCursor else d).when
         (bit (c.reg .memCtrl 12) 0 && bits v.toNat 3 3 != bits (c.reg .memCtrl 12) 3 3)
         fun d => d.ignored ((Reg.memCtrl).addr 12)).busResp 0 0 := by
  obtain ⟨h4, h12⟩ := addr12 7 0x0 (by decide) (by decide) (by decide)
  rw [store12 c m v .memCtrl [] hm slotAt_memCtrl h4 h12 rfl rfl rfl rfl (by decide), codes_memCtrl_ignored, regEffect_memCtrl]

/-! ### Events before the answer -/

theorem Noted.busResp {c d : Chip} (h : Noted c d) (a b : Nat) : Noted (c.busResp a b) (d.busResp a b) := by
  refine ⟨?_, h.more, h.sess, h.queue⟩
  rw [h.eq]; rfl

theorem Raised.busResp {c d : Chip} (h : Raised c d) (a b : Nat) : Raised (c.busResp a b) (d.busResp a b) := by
  unfold Raised at *
  rw [h]; rfl

theorem when_true (c : Chip) (f : Chip → Chip) : c.when true f = f c := rfl

theorem quiet_ite {c d e : Chip} {p : Prop} [Decidable p] (h : Quiet c d) (g : Quiet c e) : Quiet c (if p then d else e) := by
  split
  · exact h
  · exact g

theorem quiet_ignored (c : Chip) (a : Nat) : Quiet c (c.ignored a) := by
  unfold Chip.ignored
  dsimp only
  split
  · exact .rfl' c
  · split
    · exact .rfl' c
    · exact (quiet_setReg _ _ _ _ _).trans (quiet_setReg _ _ _ _ _)

theorem quiet_modCore (c : Chip) (k : Nat) (f : CoreSt → CoreSt) : Quiet c (c.modCore k f) := (worked_modCore _ _ _).quiet

/-! ### COR_CORE_STATE (R71) -/

section
variable (c : Chip) (k v : Nat) (mon : Monitors)

/-- ILLEGAL_WR is W1C. -/
def Chip.illegalCleared : Chip := if bit v 2 then c.modCore k fun x => { x with illegalWr := false } else c

theorem worked_illegalCleared : Worked c (c.illegalCleared k v) := by
  unfold Chip.illegalCleared
  split
  · exact worked_modCore _ _ _
  · exact .rfl' c

/-- The core as a fence leaves it. -/
def Chip.fencedCore (cause : Nat) : Chip := c.modCore k fun x => { x with st := .fenced, fenceCause := cause }

/-- The substitutions that a fence of the core asks for, while AUTO_SUBSTITUTION is on. -/
def Chip.wantSpare (l : List (Nat × Nat × Nat)) : Chip :=
  if bit (c.reg .corCtrl (coreDie k)) 1 then { c with cores := { c.cores with subst := c.cores.subst ++ l } } else c

/-- What the suspicion log says of a fence by command. -/
def Chip.cmdEvidence : Evidence := { bowl := (c.bowlsOf k).headD 0, part := c.bowlPart ((c.bowlsOf k).headD 0), mon := mon }

theorem coreStateWrite_eq :
    c.coreStateWrite k v true mon =
      let d := c.illegalCleared k v
      if v % 4 = (c.core k).st.code then d
      else if v % 4 = 2 then
        let r := d.suspLog k 0 2 (d.cmdEvidence k mon)
        r.2.fence k 6 r.1
      else if v % 4 = 1 ∧ (c.core k).st = .enabled then
        (d.modCore k fun x => { x with st := .suspect }).raise Ev.coreSuspect ((d.bowlsOf k).map d.bowlPart).dedup (d.coreInfo k 0) 0
      else if v % 4 = 0 ∧ (c.core k).st = .suspect then d.modCore k fun x => { x with st := .enabled }
      else d.modCore k fun x => { x with illegalWr := true } := by
  unfold Chip.coreStateWrite
  simp only [Bool.not_true, Bool.false_or, beq_iff_eq]
  rfl

theorem CoreState.fenced_of_code {x : CoreState} (h : x.code = 2) : x = .fenced := by
  cases x with
  | fenced => rfl
  | enabled | suspect | spare => cases h

theorem dropDeliveries_none (h : ∀ f ∈ c.dsp.fills, ∀ x ∈ f.todo, x.core ≠ k) : c.dropDeliveries k = c := by
  have keep : c.dsp.fills.map (fun f => { f with todo := f.todo.filter (fun x => x.core != k) }) = c.dsp.fills := by
    refine (List.map_congr_left fun f hf => ?_).trans (List.map_id _)
    have todo : f.todo.filter (fun x => x.core != k) = f.todo :=
      List.filter_eq_self.mpr fun x hx => bne_iff_ne.mpr (h f hf x hx)
    rw [todo]; rfl
  unfold Chip.dropDeliveries
  simp only [keep]

theorem abortOn_none (hl : c.dsp.launches = []) (hc : c.dsp.checks = []) (ho : c.sft.ops = []) : c.abortOn k = c := by
  unfold Chip.abortOn
  simp only [hl, hc, ho, List.filter_nil, List.foldl_nil]

theorem bowlPart_lt (b : Nat) : c.bowlPart b < 64 := Nat.mod_lt _ (by decide)

theorem bowlParts_lt (l : List Nat) : ∀ p ∈ (l.map c.bowlPart).dedup, p < 64 := by
  intro p hp
  obtain ⟨b, _, rfl⟩ := List.mem_map.mp (List.mem_dedup.mp hp)
  exact bowlPart_lt c b

theorem noted_dsp {c d : Chip} (h : Noted c d) : d.dsp = c.dsp := by rw [h.eq]; rfl
theorem noted_cores {c d : Chip} (h : Noted c d) : d.cores = c.cores := by rw [h.eq]; rfl

theorem fence_eq (cause seq : Nat) (hst : (c.core k).st ≠ .fenced) :
    c.fence k cause seq =
      (let d := (((c.fencedCore k cause).dropDeliveries k).abortOn k).wantSpare k (c.seats k)
       d.raise Ev.coreFenced ((c.bowlsOf k).map d.bowlPart).dedup (d.coreInfo k cause) seq).noteWaits.bowlRelease := by
  unfold Chip.fence
  rw [if_neg hst]
  rfl

/-- A core that runs nothing and takes no tile is fenced with an event, and nothing else is to be dealt with. -/
theorem noted_fence (cause seq : Nat) (hst : (c.core k).st ≠ .fenced) (hl : c.dsp.launches = []) (hc : c.dsp.checks = [])
    (ho : c.sft.ops = []) (hb : c.cores.bowlHeld = []) (hf : ∀ f ∈ c.dsp.fills, ∀ x ∈ f.todo, x.core ≠ k) (hr : c.NoRings) :
    Noted ((c.fencedCore k cause).wantSpare k (c.seats k)) (c.fence k cause seq) := by
  have kept : ((c.fencedCore k cause).dropDeliveries k).abortOn k = c.fencedCore k cause := by
    rw [dropDeliveries_none (c.fencedCore k cause) k hf, abortOn_none (c.fencedCore k cause) k hl hc ho]
  rw [fence_eq c k cause seq hst, kept]
  dsimp only
  have same : ((c.fencedCore k cause).wantSpare k (c.seats k)).dsp.launches = [] ∧
      ((c.fencedCore k cause).wantSpare k (c.seats k)).cores.bowlHeld = [] ∧
      ((c.fencedCore k cause).wantSpare k (c.seats k)).NoRings := by
    unfold Chip.wantSpare
    split <;> exact ⟨hl, hb, hr⟩
  generalize (c.fencedCore k cause).wantSpare k (c.seats k) = d at same ⊢
  obtain ⟨launches, held, rings⟩ := same
  have raised := noted_raise d Ev.coreFenced ((c.bowlsOf k).map d.bowlPart).dedup (d.coreInfo k cause) seq []
    (bowlParts_lt _ _) rings
  rw [noteWaits_nil _ (by rw [noted_dsp raised, launches]), bowlRelease_nil _ (by rw [noted_cores raised, held])]
  exact raised

/-- A register of another block than the interrupt controller's says nothing of vectors. -/
theorem noRings_setReg (r : Reg) (die : Nat) (i : List Nat) (x : Nat) (h : c.NoRings)
    (below : r.addr die i < ctlAddr 12 17 0) : (c.setReg r die i x).NoRings := by
  intro p hp n hn
  have other : (Reg.irqVecCfg).addr 12 [p, n] ≠ r.addr die i := by
    have above : (Reg.irqVecCfg).addr 12 [p, n] = ctlAddr 12 17 0 + (Reg.irqVecCfg).off [p, n] := rfl
    omega
  rw [reg_setReg_ne _ _ _ _ _ _ _ _ other]
  exact h p hp n hn

theorem noRings_suspLog (cause action : Nat) (e : Evidence) (h : c.NoRings) : (c.suspLog k cause action e).2.NoRings := by
  have head : c.fld .dspSuspHead 12 [] 7 0 < 256 := fld_lt c .dspSuspHead 12 [] 7 0
  have below : ∀ n < 8, (Reg.dspSuspLog).addr 12 [c.fld .dspSuspHead 12 [] 7 0, n] < ctlAddr 12 17 0 := by
    intro n hn
    simp only [Reg.addr, Reg.off, Reg.info, strideSum, ctlAddr]
    omega
  unfold Chip.suspLog
  dsimp only
  simp only [List.zipIdx_cons, List.zipIdx_nil, List.foldl_cons, List.foldl_nil]
  refine noRings_setReg _ _ _ _ _ ?_ (by decide)
  iterate 8 refine noRings_setReg _ _ _ _ _ ?_ (below _ (by decide))
  exact h

theorem quiet_suspLog (cause action : Nat) (e : Evidence) : Quiet c (c.suspLog k cause action e).2 :=
  ((quiet_dsp c { c.dsp with suspSeq := c.dsp.suspSeq + 1 } (fun _ h => h) id).trans
    (Quiet.foldl _ (fun _ _ => quiet_setReg _ _ _ _ _) _ _)).trans (quiet_setReg _ _ _ _ _)

theorem quiet_openMon : Quiet c c.openMon.2 := quiet_of _ _ rfl rfl rfl rfl (fun h => h) fun h => h

theorem quiet_wantSpare (l : List (Nat × Nat × Nat)) : Quiet c (c.wantSpare k l) :=
  quiet_ite (quiet_cores _ _ fun _ h => .inl h) (.rfl' c)

/-- The module once its monitors were read and a W1C of ILLEGAL_WR was done. -/
def Chip.stateOpened : Chip := c.openMon.2.illegalCleared k v

theorem quiet_stateOpened : Quiet c (c.stateOpened k v) := (quiet_openMon c).trans (worked_illegalCleared _ k v).quiet

theorem noRings_stateOpened (h : c.NoRings) : (c.stateOpened k v).NoRings := (worked_illegalCleared c.openMon.2 k v).noRings h

theorem coreWrite_same (h : v % 4 = (c.core k).st.code) : c.coreWrite k v true = c.stateOpened k v :=
  (coreStateWrite_eq _ k v _).trans (if_pos h)

theorem coreWrite_suspect (h : v % 4 = 1) (hst : (c.core k).st = .enabled) (hr : c.NoRings) :
    Noted ((c.stateOpened k v).modCore k fun x => { x with st := .suspect }) (c.coreWrite k v true) := by
  have e : c.coreWrite k v true = ((c.stateOpened k v).modCore k fun x => { x with st := .suspect }).raise Ev.coreSuspect
      (((c.stateOpened k v).bowlsOf k).map (c.stateOpened k v).bowlPart).dedup ((c.stateOpened k v).coreInfo k 0) 0 := by
    refine (coreStateWrite_eq _ k v _).trans ?_
    have st : (c.openMon.2.core k).st = .enabled := hst
    dsimp only
    rw [st, h, if_neg (by decide), if_neg (by decide), if_pos ⟨rfl, rfl⟩]
    rfl
  rw [e]
  exact noted_raise _ _ _ _ _ _ (bowlParts_lt _ _) (noRings_stateOpened c k v hr)

theorem coreWrite_enable (h : v % 4 = 0) (hst : (c.core k).st = .suspect) :
    c.coreWrite k v true = (c.stateOpened k v).modCore k fun x => { x with st := .enabled } := by
  refine (coreStateWrite_eq _ k v _).trans ?_
  have st : (c.openMon.2.core k).st = .suspect := hst
  dsimp only
  rw [st, h, if_neg (by decide), if_neg (by decide), if_neg (by decide), if_pos ⟨rfl, rfl⟩]
  rfl

theorem coreWrite_illegal (h : v % 4 ≠ (c.core k).st.code) (h2 : v % 4 ≠ 2) (h1 : ¬ (v % 4 = 1 ∧ (c.core k).st = .enabled))
    (h0 : ¬ (v % 4 = 0 ∧ (c.core k).st = .suspect)) :
    c.coreWrite k v true = (c.stateOpened k v).modCore k fun x => { x with illegalWr := true } :=
  (coreStateWrite_eq _ k v _).trans ((if_neg h).trans ((if_neg h2).trans ((if_neg h1).trans (if_neg h0))))

theorem coreWrite_fence (h : v % 4 = 2) (hst : (c.core k).st ≠ .fenced) :
    c.coreWrite k v true =
      let r := (c.stateOpened k v).suspLog k 0 2 ((c.stateOpened k v).cmdEvidence k c.openMon.1)
      r.2.fence k 6 r.1 := by
  refine (coreStateWrite_eq _ k v _).trans ((if_neg fun e => hst ?_).trans (if_pos h))
  exact CoreState.fenced_of_code (e.symm.trans h)

/-- A field of the module that no step of a loop changes. -/
theorem foldl_field {α β : Type} (g : Chip → β) (f : Chip → α → Chip) (h : ∀ d x, g (f d x) = g d) (l : List α) (d : Chip) :
    g (l.foldl f d) = g d := by
  induction l generalizing d with
  | nil => rfl
  | cons x t ih => exact (ih _).trans (h d x)

theorem suspLog_cores (cause action : Nat) (e : Evidence) : (c.suspLog k cause action e).2.cores = c.cores :=
  (Chip.setReg_cores _ _ _ _ _).trans (foldl_field Chip.cores _ (fun _ _ => Chip.setReg_cores _ _ _ _ _) _ _)
theorem suspLog_sft (cause action : Nat) (e : Evidence) : (c.suspLog k cause action e).2.sft = c.sft :=
  (Chip.setReg_sft _ _ _ _ _).trans (foldl_field Chip.sft _ (fun _ _ => Chip.setReg_sft _ _ _ _ _) _ _)
theorem suspLog_dsp (cause action : Nat) (e : Evidence) :
    (c.suspLog k cause action e).2.dsp = { c.dsp with suspSeq := c.dsp.suspSeq + 1 } :=
  (Chip.setReg_dsp _ _ _ _ _).trans (foldl_field Chip.dsp _ (fun _ _ => Chip.setReg_dsp _ _ _ _ _) _ _)

theorem core_modCore_self (f : CoreSt → CoreSt) : (c.modCore k f).core k = f (c.core k) := kgetD_ksetD_self _ _ _ _

theorem stateOpened_dsp : (c.stateOpened k v).dsp = c.dsp := by
  unfold Chip.stateOpened Chip.illegalCleared
  split <;> rfl
theorem stateOpened_sft : (c.stateOpened k v).sft = c.sft := by
  unfold Chip.stateOpened Chip.illegalCleared
  split <;> rfl
theorem stateOpened_bowlHeld : (c.stateOpened k v).cores.bowlHeld = c.cores.bowlHeld := by
  unfold Chip.stateOpened Chip.illegalCleared
  split <;> rfl
theorem stateOpened_st : ((c.stateOpened k v).core k).st = (c.core k).st := by
  unfold Chip.stateOpened Chip.illegalCleared
  split
  · rw [core_modCore_self]; rfl
  · rfl

/-- What a fence by command leaves of a core that runs nothing, but for the event. -/
theorem noted_coreWrite_fence (h : v % 4 = 2) (hst : (c.core k).st ≠ .fenced) (hl : c.dsp.launches = []) (hc : c.dsp.checks = [])
    (ho : c.sft.ops = []) (hb : c.cores.bowlHeld = []) (hf : ∀ f ∈ c.dsp.fills, ∀ x ∈ f.todo, x.core ≠ k) (hr : c.NoRings) :
    let r := (c.stateOpened k v).suspLog k 0 2 ((c.stateOpened k v).cmdEvidence k c.openMon.1)
    Noted ((r.2.fencedCore k 6).wantSpare k (r.2.seats k)) (c.coreWrite k v true) := by
  rw [coreWrite_fence c k v h hst]
  refine noted_fence _ k 6 _ ?_ ?_ ?_ ?_ ?_ ?_ (noRings_suspLog _ k 0 2 _ (noRings_stateOpened c k v hr))
  · unfold Chip.core
    rw [suspLog_cores]
    exact ne_of_eq_of_ne (stateOpened_st c k v) hst
  · rw [suspLog_dsp, stateOpened_dsp]; exact hl
  · rw [suspLog_dsp, stateOpened_dsp]; exact hc
  · rw [suspLog_sft, stateOpened_sft]; exact ho
  · rw [suspLog_cores, stateOpened_bowlHeld]; exact hb
  · rw [suspLog_dsp, stateOpened_dsp]; exact hf

end

/-! ### COR_BOWL_DESC (R66, R78) -/

section
variable (c : Chip) (b v : Nat)

/-- The words that a write of COR_BOWL_DESC gives the entry: the written one without its read-only fields, and the
staged children. -/
def Chip.bowlNew : List Nat :=
  putBits (putBits v 30 30 0) 15 0 0 :: (List.range 8).map fun n => c.staged .corBowlChild [b, n]

/-- The entry's staged words are used up. -/
def Chip.bowlTaken : Chip := c.dropStage ((List.range 8).map fun n => Reg.addr .corBowlChild 12 [b, n])

theorem bowlWrite_held (h : (c.bowlOk b && c.bowlRuns b) = true) :
    c.bowlWrite b v = { c.bowlTaken b with cores := { c.cores with
      bowlHeld := (c.cores.bowlHeld.filter fun h => h.1 != b) ++ [(b, (c.bowlNew b v).map (BitVec.ofNat 32))] } } :=
  if_pos h

theorem bowlWrite_effect (h : (c.bowlOk b && c.bowlRuns b) = false) :
    c.bowlWrite b v = (c.bowlTaken b).bowlEffect b (c.bowlNew b v) :=
  if_neg (ne_true_of_eq_false h)

theorem quiet_bowlTaken : Quiet c (c.bowlTaken b) := quiet_of _ _ rfl rfl rfl rfl (fun h => h) fun h => h

theorem quiet_setBowlWords (ws : List Nat) : Quiet c (c.setBowlWords b ws) :=
  (quiet_setReg _ _ _ _ _).trans (Quiet.foldl _ (fun _ _ => quiet_setReg _ _ _ _ _) _ _)

theorem bowlEffect_illegal (ws : List Nat) (h : c.bowlLegal b ws = false) : c.bowlEffect b ws = c.ignored (Reg.addr .corBowlDesc 12 [b]) :=
  if_neg (ne_true_of_eq_false h)

theorem quiet_bowlEffect (ws : List Nat) : Quiet c (c.bowlEffect b ws) := by
  refine quiet_ite (((quiet_setBowlWords _ _ _).trans (Quiet.foldl _ (fun d k => ?_) _ _)).trans
    (Quiet.foldl _ (fun _ _ => quiet_modCore _ _ _) _ _)) (quiet_ignored _ _)
  exact quiet_ite (quiet_modCore _ _ _) (.rfl' d)

theorem quiet_bowlWrite : Quiet c (c.bowlWrite b v) := by
  cases h : c.bowlOk b && c.bowlRuns b with
  | true => rw [bowlWrite_held c b v h]; exact (quiet_bowlTaken c b).trans (quiet_cores _ _ fun _ h => .inl h)
  | false => rw [bowlWrite_effect c b v h]; exact (quiet_bowlTaken c b).trans (quiet_bowlEffect _ _ _)

end

/-! ### Window entries (R80, R250) and the index table (R244) -/

section
variable (c : Chip)

theorem quiet_setEntry (rs : List Reg) (i : Nat) (ws : List Nat) : Quiet c (c.setEntry rs i ws) :=
  Quiet.foldl _ (fun _ _ => quiet_setReg _ _ _ _ _) _ _

theorem quiet_dropEntryStage (rs : List Reg) (i : Nat) : Quiet c (c.dropEntryStage rs i) :=
  quiet_of _ _ rfl rfl rfl rfl (fun h => h) fun h => h

theorem quiet_takeEntry (rs : List Reg) (i : Nat) (ws : List Nat) : Quiet c ((c.setEntry rs i ws).dropEntryStage rs i) :=
  (quiet_setEntry _ _ _ _).trans (quiet_dropEntryStage _ _ _)

theorem quiet_winWrite (q : Bool) (i v : Nat) : Quiet c (c.winWrite q i v) :=
  quiet_ite (quiet_ignored _ _) (quiet_takeEntry _ _ _ _)

theorem quiet_indexWrite (i v : Nat) : Quiet c (c.indexWrite i v) :=
  quiet_ite (quiet_ignored _ _) ((quiet_takeEntry _ _ _ _).trans (quiet_noteWaits _))

end

/-! ### ENG_CFG (R155, R160) -/

section
variable (c : Chip) (k e w : Nat)

/-- A held write whose engine, or whose die's engines of the kind, are idle. -/
def Chip.heldReady (h : Nat × Word) : Bool :=
  [0, 1, 2].any fun k => [8, 9, 10, 11].any fun d =>
    (h.1 == (engCtrlReg k).addr d && (c.eng.ops.all fun o => o.kind != k || engDie o.engine != d || !o.isOpen)) ||
    (List.range 16).any fun l => h.1 == (engCfgReg k).addr d [l] && (c.openOps k ((d - 8) * 16 + l)).isEmpty

/-- A held write takes effect. -/
def Chip.takeHeld (h : Nat × Word) : Chip :=
  match regAt h.1 with
  | some (r, die, []) => c.setFld r die [] 0 0 (h.2.toNat % 2)
  | some (r, die, i) => c.setReg r die i h.2.toNat
  | none => c

theorem engRelease_eq :
    c.engRelease = ((c.ctl.held.filter c.heldReady).foldl Chip.takeHeld
      { c with ctl := { c.ctl with held := c.ctl.held.filter fun h => !c.heldReady h } }).engWake := rfl

theorem engWake_none (h : ∀ o ∈ c.eng.ops, o.phase ≠ 5) : c.engWake = c := by
  have none : (c.eng.ops.filter fun o => o.phase == 5) = [] :=
    List.filter_eq_nil_iff.mpr fun o ho => by simpa using h o ho
  unfold Chip.engWake
  rw [none, List.foldl_nil]

theorem addr_engCtrl (d : Nat) (hk : k < 3) : (engCtrlReg k).addr d = ctlAddr d (11 + k) 0 := by
  interval_cases k <;> rfl

/-- A held write of an engine's ENG_CFG is ready exactly when no operation of the engine is open. -/
theorem heldReady_engCfg (hk : k < 3) (he : e < 64) (x : Word) :
    c.heldReady ((engCfgReg k).addr (8 + e / 16) [e % 16], x) = (c.openOps k e).isEmpty := by
  rw [Bool.eq_iff_iff]
  unfold Chip.heldReady
  simp only [List.any_eq_true, Bool.or_eq_true, Bool.and_eq_true, beq_iff_eq, List.mem_range, addr_engCfg _ _ k hk]
  constructor
  · rintro ⟨j, hj, d, hd, ⟨ha, -⟩ | ⟨l, hl, ha, ho⟩⟩
    all_goals
      have hj : j < 3 := by simp only [List.mem_cons, List.not_mem_nil, or_false] at hj; omega
      have hd : 8 ≤ d ∧ d ≤ 11 := by simp only [List.mem_cons, List.not_mem_nil, or_false] at hd; omega
    · rw [addr_engCtrl j d hj] at ha; unfold ctlAddr at ha; omega
    · rw [addr_engCfg _ _ j hj] at ha; unfold ctlAddr at ha
      have hjk : j = k := by omega
      have hdl : (d - 8) * 16 + l = e := by omega
      rwa [hjk, hdl] at ho
  · intro ho
    refine ⟨k, by interval_cases k <;> decide, 8 + e / 16, ?_, .inr ⟨e % 16, Nat.mod_lt _ (by decide), (addr_engCfg _ _ k hk).symm, ?_⟩⟩
    · have : e / 16 < 4 := by omega
      interval_cases e / 16 <;> decide
    · rwa [show (8 + e / 16 - 8) * 16 + e % 16 = e by omega]

theorem regAt_of_slotAt {a die : Nat} {r : Reg} {i : List Nat} (h : slotAt a = .reg r die i) : regAt a = some (r, die, i) := by
  unfold slotAt at h
  split at h
  case h_1 g =>
    cases h
    exact g
  case h_2 =>
    split at h
    · cases h
    · split at h <;> cases h

theorem takeHeld_element {h : Nat × Word} {r : Reg} {die j : Nat} (at_ : regAt h.1 = some (r, die, [j])) :
    c.takeHeld h = c.setReg r die [j] h.2.toNat := by
  unfold Chip.takeHeld
  rw [at_]

theorem takeHeld_engCfg (he : e < 64) (x : Word) :
    c.takeHeld ((engCfgReg k).addr (8 + e / 16) [e % 16], x) = c.setReg (engCfgReg k) (8 + e / 16) [e % 16] x.toNat :=
  takeHeld_element c (h := ((engCfgReg k).addr (8 + e / 16) [e % 16], x)) (regAt_of_slotAt (slotAt_engCfg (8 + e / 16) (e % 16) k
    ((by decide : ∀ q < 4, 8 + q ∈ dPort) _ (by omega)) (Nat.mod_lt _ (by decide))))

theorem hold_held (a : Nat) (hheld : c.ctl.held = []) : (c.hold a w).ctl.held = [(a, BitVec.ofNat 32 w)] := by
  unfold Chip.hold
  simp only [hheld, List.filter_nil, List.nil_append]

/-- Releasing the only held write leaves the module as it was before it. -/
theorem hold_released (a : Nat) (hheld : c.ctl.held = []) : ({ c.hold a w with ctl := { (c.hold a w).ctl with held := [] } } : Chip) = c := by
  unfold Chip.hold
  dsimp only
  rw [← hheld]

variable (hheld : c.ctl.held = []) (hops : ∀ o ∈ c.eng.ops, o.phase ≠ 5) (hk : k < 3) (he : e < 64)
include hheld hops hk he

theorem engCfgWrite_idle (h : c.openOps k e = []) :
    c.engCfgWrite (engCfgReg k) (8 + e / 16) (e % 16) w =
      c.setReg (engCfgReg k) (8 + e / 16) [e % 16] (BitVec.ofNat 32 (putBits w 30 30 0)).toNat := by
  have ready := (heldReady_engCfg (c.hold ((engCfgReg k).addr (8 + e / 16) [e % 16]) (putBits w 30 30 0)) k e hk he
    (BitVec.ofNat 32 (putBits w 30 30 0))).trans (List.isEmpty_iff.mpr h)
  unfold Chip.engCfgWrite
  rw [engRelease_eq, hold_held c _ _ hheld, List.filter_cons, List.filter_cons, if_pos ready, ready, if_neg (by decide),
    List.filter_nil, List.filter_nil, hold_released c _ _ hheld, List.foldl_cons, List.foldl_nil, takeHeld_engCfg c k e he]
  exact engWake_none _ (by rw [Chip.setReg_eng]; exact hops)

theorem engCfgWrite_busy (h : c.openOps k e ≠ []) :
    c.engCfgWrite (engCfgReg k) (8 + e / 16) (e % 16) w =
      c.hold ((engCfgReg k).addr (8 + e / 16) [e % 16]) (putBits w 30 30 0) := by
  have busy := (heldReady_engCfg (c.hold ((engCfgReg k).addr (8 + e / 16) [e % 16]) (putBits w 30 30 0)) k e hk he
    (BitVec.ofNat 32 (putBits w 30 30 0))).trans (List.isEmpty_eq_false_iff.mpr h)
  have held := hold_held c (putBits w 30 30 0) ((engCfgReg k).addr (8 + e / 16) [e % 16]) hheld
  unfold Chip.engCfgWrite
  rw [engRelease_eq, held, List.filter_cons, List.filter_cons, if_neg (ne_true_of_eq_false busy), busy, if_pos (by decide),
    List.filter_nil, List.filter_nil, ← held, List.foldl_nil]
  exact engWake_none _ hops

omit hops he in
/-- A held write of ENG_CFG is nothing that a step goes on with. -/
theorem still_hold_engCfg (hs : c.Still) : (c.hold ((engCfgReg k).addr (8 + e / 16) [e % 16]) w).Still := by
  obtain ⟨hlocal, -, hplace, hcuts, hadm, hrest⟩ := hs
  refine ⟨hlocal, fun h hh d hd => ?_, hplace, hcuts, hadm, hrest⟩
  rw [hold_held c _ _ hheld, List.mem_singleton] at hh
  have cmp : (Reg.cmpCtrl).addr d = ctlAddr d 14 0 := rfl
  rw [hh, addr_engCfg _ _ k hk, cmp]
  unfold ctlAddr
  omega

end

/-! ### MEM_FAIL_CMD (R227) -/

section
variable (c : Chip) (n cause : Nat)

theorem failStack_other (h : (c.dstack n).st ≠ 1 ∧ (c.dstack n).st ≠ 2) : c.failStack n cause = c := if_pos h

/-- Without GO, or for a stack neither in use nor the spare, the command fails nothing. -/
theorem failStack_idle {go : Bool} (h : go = false ∨ (c.dstack n).st ≠ 1 ∧ (c.dstack n).st ≠ 2) :
    (if go then c.failStack n cause else c) = c := by
  rcases h with rfl | h
  · rfl
  · rw [failStack_other c n cause h, ite_self]

theorem setReg_dstack (r : Reg) (die : Nat) (i : List Nat) (x : Nat) : (c.setReg r die i x).dstack n = c.dstack n := by
  unfold Chip.dstack
  rw [Chip.setReg_mem]

/-- The spare has failed: it takes no stack's place any more. -/
def Chip.spareFailed : Chip :=
  let d := c.setStack n { c.dstack n with st := 3, cause := cause }
  { d with mem := { d.mem with spare := none } }

theorem quiet_spareFailed : Quiet c (c.spareFailed n cause) := quiet_of _ _ rfl rfl rfl rfl (fun h => h) fun h => h

/-- In DEGRADED the spare's failure is an event and no more. -/
theorem raised_failSpare (hst : (c.dstack n).st = 2) (hb : c.boot.state = .degraded) (hr : c.mem.rebuild ≠ 3) :
    Raised (c.spareFailed n cause) (c.failStack n cause) := by
  have raised := raised_raise (c.spareFailed n cause) Ev.stackFailed 0 0 []
  have boot : ((c.spareFailed n cause).raise Ev.stackFailed []).boot.state = .degraded := by rw [raised]; exact hb
  have degrade : ((c.spareFailed n cause).raise Ev.stackFailed []).degrade = (c.spareFailed n cause).raise Ev.stackFailed [] := by
    unfold Chip.degrade
    rw [boot]
  have e : c.failStack n cause = (c.spareFailed n cause).raise Ev.stackFailed [] := by
    unfold Chip.failStack
    dsimp only
    rw [if_neg (fun h => h.2 hst), if_pos hst]
    have kept : (c.setStack n { c.dstack n with st := 3, cause := cause }).mem.rebuild ≠ 3 := hr
    rw [if_neg kept]
    refine (if_neg fun h => ?_).trans degrade
    have state : (((c.spareFailed n cause).raise Ev.stackFailed []).degrade).boot.state = .bringup := h.1
    rw [degrade, boot] at state
    cases state
  rw [e]
  exact raised

end

/-! ### The rows -/

section
variable {s : State} {m : Master} {v : Word} {i : Instr} {d e : Chip} {a : Nat} (hs : s.chip.Still)
  (hi : exec i s = act s (s.chip.busStore m a v)) (stored : s.chip.busStore m a v = d.busResp 0 0)
include hs hi stored

/-- A write whose effect adds nothing left over. -/
theorem becomes_store (he : d = e) (q : Quiet s.chip d) : Becomes s i (e.busResp 0 0) :=
  becomes s i _ _ hi (he ▸ stored) (he ▸ q.trans (quiet_resp _ _ _)) hs

/-- A write whose effect is `e` and an event to firmware and partitions. -/
theorem notes_store (n : Noted e d) (q : Quiet s.chip e) : NotesTo s i (e.busResp 0 0) :=
  notesTo s i _ _ (stored ▸ hi) (n.busResp 0 0) ((q.trans (quiet_resp _ _ _)).still hs)

/-- A write whose effect is `e` and an event to firmware. -/
theorem raises_store (n : Raised e d) (q : Quiet s.chip e) : RaisesTo s i (e.busResp 0 0) :=
  raisesTo s i _ _ (stored ▸ hi) (n.busResp 0 0) ((q.trans (quiet_resp _ _ _)).still hs)

end

/-- Settles O57: what a privileged store does to each table is the effect of its block (`store_*`), and every branch of
that effect is an equation; a fence and a suspect core come with an event, and the state stays still otherwise. -/
theorem computeTableWritesAct : Obligations.ComputeTableWritesAct := by
  unfold Obligations.ComputeTableWritesAct
  intro s m v hs hr hm
  dsimp only
  refine ⟨fun k hk hd => ?cores, fun b hb => ?bowls, fun q i hi => ?windows, fun k hk e he hd hheld hops => ?engines,
    fun i hi => ?indices, ?failures, ?control⟩
  case cores =>
    have stored := store_corCoreState s.chip m v hm k hk hd
    have opened := quiet_stateOpened s.chip k v.toNat
    have marked (f : CoreSt → CoreSt) : Quiet s.chip ((s.chip.stateOpened k v.toNat).modCore k f) :=
      opened.trans (quiet_modCore _ _ _)
    have row {e : Chip} (he : s.chip.coreWrite k v.toNat true = e) (q : Quiet s.chip e) :
        Becomes s (.corCoreStateWrite m k v) (e.busResp 0 0) := becomes_store hs rfl stored he (he ▸ q)
    refine ⟨fun h => ?same, fun h hst => ?suspect, fun h hst => ?enable, fun h h2 h1 h0 => ?illegal,
      fun h hst hl hc ho hb hf => ?fence⟩
    case same => exact row (coreWrite_same _ _ _ h) opened
    case suspect => exact notes_store hs rfl stored (coreWrite_suspect _ _ _ h hst hr) (marked _)
    case enable => exact row (coreWrite_enable _ _ _ h hst) (marked _)
    case illegal => exact row (coreWrite_illegal _ _ _ h h2 h1 h0) (marked _)
    case fence =>
      exact notes_store hs rfl stored (noted_coreWrite_fence _ _ _ h hst hl hc ho hb hf hr)
        (((opened.trans (quiet_suspLog _ _ _ _ _)).trans (quiet_modCore _ _ _)).trans (quiet_wantSpare _ _ _))
  case bowls =>
    have row {e : Chip} (he : s.chip.bowlWrite b (s.chip.written .corBowlDesc 12 [b] v) = e) :
        Becomes s (.corBowlDescWrite m b v) (e.busResp 0 0) :=
      becomes_store hs rfl (store_corBowlDesc s.chip m v hm b hb) he (quiet_bowlWrite _ _ _)
    exact ⟨fun h => row (bowlWrite_held _ _ _ h),
      fun h illegal => row ((bowlWrite_effect _ _ _ h).trans (bowlEffect_illegal _ _ _ illegal)),
      fun h legal => row ((bowlWrite_effect _ _ _ h).trans (if_pos legal))⟩
  case windows =>
    have row {e : Chip} (he : s.chip.winWrite q i (s.chip.written (if q then .sftQwinW0 else .dspWindowW0) 12 [i] v) = e) :
        Becomes s (.windowEntryWrite m q i v) (e.busResp 0 0) :=
      becomes_store hs rfl (store_windowW0 s.chip m v hm q i hi) he (quiet_winWrite _ _ _ _)
    cases q with
    | true => exact ⟨fun bad => row (if_pos bad), fun good => row (if_neg (ne_true_of_eq_false good))⟩
    | false => exact ⟨fun bad => row (if_pos bad), fun good => row (if_neg (ne_true_of_eq_false good))⟩
  case engines =>
    have hdie : 8 + e / 16 ∈ dPort := (by decide : ∀ q < 4, 8 + q ∈ dPort) _ (by omega)
    have stored := store_engCfg s.chip m v hm k (8 + e / 16) (e % 16) hk hdie (Nat.mod_lt _ (by decide)) hd
    refine ⟨fun h => ?idle, fun h => ?busy⟩
    case idle =>
      rw [engCfgWrite_idle s.chip k e _ hheld hops hk he h] at stored
      exact becomes s _ _ _ rfl stored ((quiet_setReg _ _ _ _ _).trans (quiet_resp _ _ _)) hs
    case busy =>
      rw [engCfgWrite_busy s.chip k e _ hheld hops hk he h] at stored
      exact (congrArg (act s) stored).trans (act_still s _ (still_hold_engCfg s.chip k e _ hheld hk hs))
  case indices =>
    have row {e : Chip} (he : s.chip.indexWrite i (s.chip.written .sftIndexW0 12 [i] v) = e) :
        Becomes s (.indexTableWrite m i v) (e.busResp 0 0) :=
      becomes_store hs rfl (store_sftIndexW0 s.chip m v hm i hi) he (quiet_indexWrite _ _ _)
    exact ⟨fun bad => row (if_pos bad), fun good => row (if_neg (ne_true_of_eq_false good))⟩
  case failures =>
    have stored := store_memFailCmd s.chip m v hm
    dsimp only at stored
    generalize bits (s.chip.written .memFailCmd 12 [] v) 3 0 = n at stored ⊢
    have quiet := quiet_setReg s.chip .memFailCmd 12 [] (putBits (s.chip.written .memFailCmd 12 [] v) 31 31 0)
    have stack := setReg_dstack s.chip n .memFailCmd 12 [] (putBits (s.chip.written .memFailCmd 12 [] v) 31 31 0)
    refine ⟨fun h => ?idle, fun go => ?go, fun go degraded hst hreb => ?spare⟩
    case idle =>
      rw [failStack_idle _ n 4 (by rwa [stack])] at stored
      exact becomes s _ _ _ rfl stored (quiet.trans (quiet_resp _ _ _)) hs
    case go =>
      rw [if_pos go] at stored
      exact settles_act rfl stored
    case spare =>
      rw [if_pos go] at stored
      have raised := raised_failSpare (s.chip.setReg .memFailCmd 12 [] (putBits (s.chip.written .memFailCmd 12 [] v) 31 31 0)) n 4
        (by rw [stack, hst]) (by rw [Chip.setReg_boot, degraded]) (by rw [Chip.setReg_mem]; exact hreb)
      exact raises_store hs rfl stored raised (quiet.trans (quiet_spareFailed _ _ _))
  case control =>
    have stored := store_memCtrl s.chip m v hm
    dsimp only at stored
    have quiet := quiet_setReg s.chip .memCtrl 12 [] (s.chip.written .memCtrl 12 [] v)
    refine ⟨fun on same => ?same, fun off => ?off, fun on change => ?held⟩
    case same =>
      rw [on, same, bne_self_eq_false, Bool.and_false, Bool.not_true, Bool.and_false, when_false, if_neg Bool.false_ne_true] at stored
      exact becomes s _ _ _ rfl stored (quiet.trans (quiet_resp _ _ _)) hs
    case off =>
      rw [off, Bool.false_and, Bool.not_false, Bool.and_true, when_false] at stored
      exact settles_act rfl stored
    case held =>
      rw [on, bne_iff_ne.mpr change, Bool.and_true, Bool.not_true, Bool.and_false, when_true, if_neg Bool.false_ne_true] at stored
      exact becomes s _ _ _ rfl stored (quiet.trans ((quiet_ignored _ _).trans (quiet_resp _ _ _))) hs

end Sys2Proof.Machine
end

section
/-! SUPPORT. Trigger stores, multicast stores and messages (R283 to R287): what the late checks answer to each, what a
refusal leaves alone, and the state in which an admitted one is performed. -/

namespace Sys2Proof.Machine

/-! ### A partition that a node stands for has its LOCAL entry (R271) -/

theorem kfind_mem {α : Type} {m : KMap α} {k : Nat} {v : α} (h : kfind? m k = some v) : (k, v) ∈ m := by
  induction m with
  | nil => cases h
  | cons e t ih =>
    obtain ⟨a, b⟩ := e
    unfold kfind? at h
    split at h
    · next e =>
      cases h
      exact e ▸ List.mem_cons_self
    · exact List.mem_cons_of_mem _ (ih h)

theorem localNode_of_here {c : Chip} {n q : Nat} (hn : n < 4096) (h : c.node n = .here q) : (c.localNode q).isSome = true := by
  have kind : bits (c.reg .gtxNode 12 [n]) 31 30 = 1 ∧ bits (c.reg .gtxNode 12 [n]) 29 24 = q := by
    unfold Chip.node at h
    dsimp only at h
    split at h <;> cases h
    exact ⟨‹_›, rfl⟩
  obtain ⟨w, hw, e⟩ : ∃ w, kfind? c.ctl.regs ((Reg.gtxNode).addr 12 [n]) = some w ∧ c.reg .gtxNode 12 [n] = w.toNat := by
    unfold Chip.reg at kind ⊢
    split
    · next w hw => exact ⟨w, hw, rfl⟩
    · next hw =>
      rw [hw] at kind
      exact absurd kind.1 (by rw [resetWord_gtxNode]; decide)
  rw [e] at kind
  have at_ : (Reg.gtxNode).addr 12 [n] = (Reg.gtxNode).addr 12 + 4 * n := by
    unfold Reg.addr Reg.off ctlAddr
    delta Reg.info
    simp only [strideSum]
    omega
  have listed : n ∈ c.idxs .gtxNode 12 fun w => bits w 31 30 == 1 && bits w 29 24 == q := by
    refine List.mem_filterMap.mpr ⟨_, kfind_mem hw, ?_⟩
    dsimp only
    rw [at_, show ((Reg.gtxNode).info.dims.headD (4, 1)) = (4, 4096) from rfl]
    dsimp only
    rw [Nat.add_sub_cancel_left, Nat.mul_div_cancel_left n (by decide)]
    exact if_pos ⟨by omega, by omega, hn, by rw [kind.1, kind.2]; simp⟩
  unfold Chip.localNode
  rw [List.isSome_head?]
  simpa using List.ne_nil_of_mem listed

theorem kept_head {c d : Chip} (h : d.ctl.regs = c.ctl.regs) (g : Nat) : d.groupHead g = c.groupHead g := by
  unfold Chip.groupHead Chip.reg
  rw [h]

/-! ### The late checks (R288) -/

section
variable (c : Chip) (t : Bool) (q : Nat) (r : Req)

theorem lateChecks_tstore {region : Nat} (h : r.opc = 9)
    (hc : c.checks (if t then Who.tester else Who.fabric) q r = (.ok region 0 0, c)) :
    c.lateChecks t q r = (.ok region 0 0, [], c) := by
  unfold Chip.lateChecks
  rw [if_neg (by omega), if_neg (by omega)]
  dsimp only
  rw [hc]

theorem lateChecks_msg (h : r.opc = 12) : c.lateChecks t q r = (.ok 4096 0 0, [], c) := if_pos h

theorem lateChecks_mstore_error (h : r.opc = 10) {status info : Nat} (hg : c.groupRead q r = .error (status, info)) :
    c.lateChecks t q r = (.refuse status info, [], c) := by
  unfold Chip.lateChecks
  rw [if_neg (by omega), if_pos h, hg]

theorem lateChecks_mstore_ok (h : r.opc = 10) {g : List (Nat × Nat × Nat × Nat)} (hg : c.groupRead q r = .ok g) :
    c.lateChecks t q r = (.ok 4096 0 0, g, c) := by
  unfold Chip.lateChecks
  rw [if_neg (by omega), if_pos h, hg]

/-! ### A group's entry (R285) -/

theorem groupRead_invalid (h : bit (c.groupHead (r.opnd % 4096)).1 0 = false ∨ (c.groupHead (r.opnd % 4096)).2.2 = 0 ∨
    15 < (c.groupHead (r.opnd % 4096)).2.2) : c.groupRead q r = .error (9, 0) := by
  refine if_pos ?_
  rcases h with h | h | h <;> simp [h]

variable (valid : bit (c.groupHead (r.opnd % 4096)).1 0 = true) (some_ : 1 ≤ (c.groupHead (r.opnd % 4096)).2.2)
  (few : (c.groupHead (r.opnd % 4096)).2.2 ≤ 15)
include valid some_ few

theorem groupRead_foreign (h : (c.groupHead (r.opnd % 4096)).2.1 ≠ q) : c.groupRead q r = .error (2, 1) := by
  refine (if_neg ?_).trans (if_pos h)
  simp only [valid, Bool.not_true, Bool.false_or, Bool.or_eq_true, beq_iff_eq, decide_eq_true_eq]
  omega

theorem groupRead_own (h : (c.groupHead (r.opnd % 4096)).2.1 = q) :
    c.groupRead q r = .ok ((List.range (c.groupHead (r.opnd % 4096)).2.2).map (c.groupTarget (r.opnd % 4096))) := by
  refine (if_neg ?_).trans (if_neg (not_not.mpr h))
  simp only [valid, Bool.not_true, Bool.false_or, Bool.or_eq_true, beq_iff_eq, decide_eq_true_eq]
  omega

end

/-! ### Refusals -/

theorem quiet_reply (c : Chip) (x : Pend) (status info : Nat) (data : Bytes) (t : Bool) (h : ∃ p k, x.origin = .port p k) :
    Quiet c (c.reply x status info data t) := by
  obtain ⟨p, k, h⟩ := h
  unfold Chip.reply
  rw [h]
  exact (quiet_answer _ _ _ _ _ _ _ _ _ _).trans (quiet_logDone _ _ _ _ _)

theorem quiet_refusePend (c : Chip) (x : Pend) (status info : Nat) (h : ∃ p k, x.origin = .port p k) :
    Quiet c (c.refusePend x status info) :=
  ((quiet_release _ _).trans (quiet_freeCred _ _)).trans (quiet_reply _ _ _ _ _ _ h)

/-- Check 5 and the partition's state pass, and the late checks refuse. -/
theorem admitOne_refused (c : Chip) (p : Nat) (x : Pend) {status info : Nat} {g : List (Nat × Nat × Nat × Nat)}
    (h1 : c.inService = true ∨ c.tests x.req.src = true) (h2 : c.mcs.stewardAt = none) (h3 : c.srcLost x.req.src = false)
    (h4 : (kgetD c.parts x.part {}).st = .active)
    (h5 : c.lateChecks (c.tests x.req.src) x.part x.req = (.refuse status info, g, c)) :
    c.admitOne p x = c.refusePend x status info := by
  have serves : (!(c.inService || c.tests x.req.src) || c.mcs.stewardAt.isSome || c.srcLost x.req.src) = false := by
    rw [h2, h3]
    rcases h1 with h | h <;> rw [h] <;> simp
  unfold Chip.admitOne
  dsimp only
  rw [if_neg (by rw [serves]; decide), h4]
  dsimp only
  change (match c.lateChecks (c.tests x.req.src) x.part x.req with
    | (.refuse status info, _, c) => c.refusePend x status info
    | (.ok _ _ _, _, _) => _) = _
  rw [h5]

/-- The request as it stands once it has arrived: without a region, an object or targets. -/
def Chip.freshPend (c : Chip) (p q i : Nat) (r : Req) : Pend :=
  { id := c.gtx.nextId, req := r, origin := .port p (some (i, r.tag % 1024)), part := q
    cells := (c.allocCells (portDie p) (cdiv r.payload.length 256) (portLocal p)).2 }

section
variable (s : State) (p q i : Nat) (r : Req) (ht : s.chip.Takes p q r) (hl : opcLogged r.opc = true)
  (hi : s.chip.stream? r.src q = some i) (hf : s.chip.FreshTag i r)
include ht hl hi hf

theorem request_refused {status info : Nat} {g : List (Nat × Nat × Nat × Nat)}
    (hc : (s.chip.logs p q i r).lateChecks (s.chip.tests r.src) q r = (.refuse status info, g, s.chip.logs p q i r)) :
    s.chip.request p (opcVc r.opc) r.opc r = (s.chip.logs p q i r).refusePend (s.chip.freshPend p q i r) status info := by
  rw [request_logged s.chip p q i r ht hl hi hf]
  obtain ⟨w, n, m, v, g', lg, -, -⟩ := logs_eq s.chip p q i r
  obtain ⟨-, -, -, -, -, -, -, -, -, -, serves, steward, lost, active⟩ := ht
  refine admitOne_refused _ p _ (g := g) ?_ ?_ ?_ ?_ ?_
  · rw [lg]; exact serves
  · rw [lg]; exact steward
  · rw [lg]; exact lost
  · rw [lg]; exact active
  · have tests : (s.chip.logs p q i r).tests r.src = s.chip.tests r.src := by rw [lg]; rfl
    dsimp only
    rw [tests]
    exact hc

end

theorem quiet_admitted (c : Chip) (p : Nat) (x : Pend) : Quiet c (c.admitted p x) := (switched_admitted c p x).quiet

theorem admitted_regs (c : Chip) (p : Nat) (x : Pend) : (c.admitted p x).ctl.regs = c.ctl.regs := by
  rw [show _ = _ from switched_admitted c p x]

/-- The targets of a multicast store are no part of its admission. -/
theorem admitted_group (c : Chip) (p : Nat) (x : Pend) (g : List (Nat × Nat × Nat × Nat)) :
    c.admitted p { x with group := g } = c.admitted p x := rfl

theorem logs_held (c : Chip) (p q i : Nat) (r : Req) : (c.logs p q i r).gtx.held = c.gtx.held := by
  obtain ⟨w, n, m, v, g, lg, -, gh⟩ := logs_eq c p q i r
  rw [lg]
  exact gh

theorem admitted_held (c : Chip) (p : Nat) (x : Pend) : (c.admitted p x).gtx.held = c.gtx.held := by
  rw [show _ = _ from switched_admitted c p x]

theorem logs_regs (c : Chip) (p q i : Nat) (r : Req) : (c.logs p q i r).ctl.regs = c.ctl.regs := by
  obtain ⟨w, n, m, v, g, lg, -, -⟩ := logs_eq c p q i r
  rw [lg]

theorem opcLogged_store {r : Req} (h : r.opc = 9 ∨ r.opc = 10 ∨ r.opc = 12) : opcLogged r.opc = true := by
  rcases h with h | h | h <;> (rw [h]; decide)

theorem form_tstore {v : Nat} {r : Req} (h : formOk v r = true) (ho : r.opc = 9) : r.payload ≠ [] ∧ r.payload.length ≤ 4096 := by
  unfold formOk at h
  simp only [ho, Bool.and_eq_true, decide_eq_true_eq] at h
  obtain ⟨-, ⟨some_, few⟩, -⟩ := h
  exact ⟨List.ne_nil_of_length_pos some_, few⟩

/-- Settles O53: the late checks let each of the three through, or refuse it, as the clause says, and what is then
performed is the row's own effect (`row_tstore`, `row_mstore`, `row_msg`). -/
theorem storesAndMessagesComplete : Obligations.StoresAndMessagesComplete := by
  unfold Obligations.StoresAndMessagesComplete
  intro s p q i region r hs ht hi hf
  dsimp only
  intro fits
  have takes := ht
  obtain ⟨-, -, -, -, -, -, form, -, here, -⟩ := takes
  have quiet (x : Pend) : Quiet s.chip ((s.chip.logs p q i r).admitted p x) :=
    (quiet_logs _ _ _ _ _).trans (quiet_admitted _ _ _)
  have regs (x : Pend) : ((s.chip.logs p q i r).admitted p x).ctl.regs = (s.chip.logs p q i r).ctl.regs := admitted_regs _ _ _
  have refused (ho : r.opc = 10) {status info : Nat}
      (late : (s.chip.logs p q i r).lateChecks (s.chip.tests r.src) q r = (.refuse status info, [], s.chip.logs p q i r)) :
      Becomes s (.mstore p 1 r) ((s.chip.logs p q i r).refusePend (s.chip.freshPend p q i r) status info) :=
    act_row s _ p 1 10 r _ rfl ho.symm (by rw [ho]; rfl)
      (request_refused s p q i r ht (opcLogged_store (.inr (.inl ho))) hi hf late)
      ((quiet_logs _ _ _ _ _).trans (quiet_refusePend _ _ _ _ ⟨p, _, rfl⟩)) hs
  refine ⟨fun ho hc hheld w hw hq hlen hm => ?tstore, fun ho => ⟨fun bad => ?invalid, fun valid foreign some_ few => ?foreign,
    fun valid own some_ few hn => ?mstore⟩, fun ho hq => ?msg⟩
  case tstore =>
    have hl := opcLogged_store (.inl ho)
    obtain ⟨nonempty, max⟩ := form_tstore form ho
    refine row_tstore s p q i r _ _ hs (ad_logged s p q region 0 0 i r [] ht hl hi hf fits
      (lateChecks_tstore _ _ _ _ ho hc) _ ?_) (quiet _) rfl rfl rfl ho ?_ rfl rfl w hw hq nonempty max hlen _ rfl hm
    · rw [if_pos (.inl ho)]
    · rw [admitted_held, logs_held, hheld]
  case invalid => exact refused ho (lateChecks_mstore_error _ _ _ _ ho (groupRead_invalid _ _ _ bad))
  case foreign => exact refused ho (lateChecks_mstore_error _ _ _ _ ho (groupRead_foreign _ _ _ valid some_ few foreign))
  case mstore =>
    have hl := opcLogged_store (.inr (.inl ho))
    have late := lateChecks_mstore_ok (s.chip.logs p q i r) (s.chip.tests r.src) q r ho (groupRead_own _ _ _ valid some_ few own)
    have target (x : Pend) : ((s.chip.logs p q i r).admitted p x).groupTarget (r.opnd % 4096) =
        (s.chip.logs p q i r).groupTarget (r.opnd % 4096) := funext fun k => kept_target (regs x) _ _
    have main := ad_logged s p q 4096 0 0 i r _ ht hl hi hf fits late
      { s.chip.freshPend p q i r with region := 4096, group := (List.range _).map ((s.chip.logs p q i r).groupTarget (r.opnd % 4096)) }
      (by rw [if_pos (.inr (.inl ho))]; rfl)
    have row := row_mstore s p q r _ _ hs main (quiet _) rfl rfl ho
      (by rw [kept_local ((regs _).trans (logs_regs _ _ _ _ _))]; exact localNode_of_here (Nat.mod_lt _ (by decide)) here)
    rw [kept_head (regs _), target] at row
    refine row (fun k hk => ?_) rfl rfl _ rfl
    obtain ⟨a, b, hn⟩ := hn k hk
    exact ⟨fun h => NodeKind.noConfusion (hn.symm.trans h), fun y h => NodeKind.noConfusion (hn.symm.trans h)⟩
  case msg =>
    have hl := opcLogged_store (.inr (.inr ho))
    refine row_msg s p q i r _ _ hs (ad_logged s p q 4096 0 0 i r [] ht hl hi hf fits (lateChecks_msg _ _ _ _ ho) _ ?_)
      (quiet _) rfl rfl rfl ho hq
    rw [if_pos (.inr (.inr ho))]

end Sys2Proof.Machine
end

section
/-! SUPPORT. Responses to the module's requests, their timeouts, and what waited for a share or a slot (R84, R273, R301,
R302, R350): one lemma for each case of a row's meaning. -/

namespace Sys2Proof.Machine

/-! ### The module's own queue (R301, R402) -/

/-- A state in which the only thing left over is an answer: it is delivered, and nothing else is left to settle. -/
theorem settle_answer (c : Chip) (j : LocalJob) {a : Ans} (hs : c.Still) (ha : j.ans = some a)
    (he : ((c.releaseCells j.req.cells).deliverAns j.req.owner a).Still) :
    (c.addJob j).settle = (c.releaseCells j.req.cells).deliverAns j.req.owner a := by
  obtain ⟨hq, -, -, hcuts, -⟩ := hs
  have queue : (c.addJob j).gtx.localQ = [j] := by
    unfold Chip.addJob
    dsimp only
    rw [hq, List.nil_append]
  have emptied : ({ c.addJob j with gtx := { (c.addJob j).gtx with localQ := [] } } : Chip) = c := by
    unfold Chip.addJob
    dsimp only
    rw [← hq]
  have first : (c.addJob j).settleN 65536 = (c.releaseCells j.req.cells).deliverAns j.req.owner a := by
    rw [show 65536 = 65535 + 1 from rfl, Chip.settleN, queue]
    dsimp only
    rw [emptied, Chip.doLocal, ha]
    exact Chip.settleN_nil _ _ he.1
  have rest := Chip.settle_still _ he
  rw [Chip.settle, Chip.cutAll_nil _ he.2.2.2.1, Chip.settleN_nil _ _ he.1] at rest
  rw [Chip.settle, Chip.cutAll_nil (c.addJob j) hcuts, first]
  exact rest

theorem retryHeld_nil (c : Chip) (hd : c.gtx.devHeld = []) (hu : ∀ d ∈ c.gtx.devReqs, d.unsent = false) : c.retryHeld = c := by
  have none : c.gtx.devReqs.filter (·.unsent) = [] := List.filter_eq_nil_iff.mpr fun d h => by simp [hu d h]
  unfold Chip.retryHeld
  dsimp only
  rw [none, List.foldl_nil, hd, List.foldl_nil, ← hd]

/-- A row that settles on a state is said by that state. -/
theorem becomes_settled {s : State} {i : Instr} {c d : Chip} (hi : exec i s = act s d) (h : d.settle = c) : Becomes s i c := by
  unfold Becomes
  rw [hi, ← h]
  rfl

theorem deliverAns_notify (c : Chip) {o : Owner} {p v : Nat} (a : Ans) (h : o = .notify p v) : c.deliverAns o a = c := by
  rw [h]
  rfl

/-- The answer to a notification only gives up the notification's cells. -/
theorem settle_notified (c : Chip) (x : DevReq) (a : Ans) {p v : Nat} (h : x.owner = .notify p v) (hs : c.Still) :
    (c.addJob { req := x, ans := some a }).settle = c.releaseCells x.cells := by
  have delivered := deliverAns_notify (c.releaseCells x.cells) a h
  refine (settle_answer c { req := x, ans := some a } hs rfl ?_).trans delivered
  rw [delivered]
  exact (quiet_release _ _).still hs

theorem sendAgainOn_fits (c : Chip) (d : DevReq) (o : Nat) (h : c.devFits d o = true) : c.sendAgainOn d (some o) = c.putOnPort d o :=
  if_pos h

theorem sendAgainOn_waits (c : Chip) (d : DevReq) (o : Nat) (h : c.devFits d o = false) (ht : d.issued = c.tick) :
    c.sendAgainOn d (some o) =
      (if d.unsent then c else c.bump .swcShareWait (c.cellDieOf d o)).addDevReq { d with port := some o, unsent := true } := by
  have waits : c.sendAgainOn d (some o) =
      let e := if d.unsent then c else c.bump .swcShareWait (c.cellDieOf d o)
      e.addDevReq { d with port := some o, issued := e.tick, unsent := true } := if_neg (by rw [h]; decide)
  rw [waits]
  dsimp only
  split
  · rw [ht]
  · rw [ht]
    rfl

theorem quiet_addDevReq (c : Chip) (d : DevReq) : Quiet c (c.addDevReq d) := quiet_of _ _ rfl rfl rfl rfl (fun h => h) fun h => h

theorem quiet_sendAgainOn (c : Chip) (d : DevReq) (o : Option Nat) : Quiet c (c.sendAgainOn d o) := by
  unfold Chip.sendAgainOn
  split
  · exact quiet_addDevReq _ _
  · split
    · exact quiet_putOnPort _ _ _
    · refine Quiet.trans ?_ (quiet_addDevReq _ _)
      split
      · exact .rfl' c
      · exact quiet_bump _ _ _ _ _

theorem quiet_devReqs (c : Chip) (l : List DevReq) : Quiet c { c with gtx := { c.gtx with devReqs := l } } :=
  quiet_of _ _ rfl rfl rfl rfl (fun h => h) fun h => h

theorem quiet_retryUnsent (c : Chip) (d : DevReq) : Quiet c (c.retryUnsent d) :=
  (quiet_devReqs _ _).trans (quiet_sendAgainOn _ _ _)

theorem quiet_enqueue (c : Chip) (p : Nat) (m : EMsg) : Quiet c (c.enqueue p m) := quiet_modPort _ _ _

/-! ### Responses (R273, R301, R350) -/

/-- A response's data crosses from its port to the die of the block that asked for it. -/
def Chip.crossToOwner (c : Chip) (p : Nat) (o : Owner) (hash : Nat) : Chip :=
  ((c.ownerDie? o).map fun y => c.cross (portDie p) y hash).getD c

theorem switched_crossToOwner (c : Chip) (p : Nat) (o : Owner) (hash : Nat) : Switched c (c.crossToOwner p o hash) := by
  unfold Chip.crossToOwner
  cases c.ownerDie? o with
  | none => exact .rfl' c
  | some y => exact switched_cross _ _ _ _

/-- The module's request that a response answers (R301). -/
def Chip.asked (c : Chip) (q : Nat) (r : Rsp) : Option DevReq :=
  c.gtx.devReqs.find? fun d => d.part == q && d.dst == r.src && d.req.tag == r.tag

theorem Switched.gtx {c d : Chip} (h : Switched c d) : d.gtx = c.gtx := by rw [show _ = _ from h]
theorem Switched.lnk {c d : Chip} (h : Switched c d) : d.lnk = c.lnk := by rw [show _ = _ from h]
theorem Switched.regs {c d : Chip} (h : Switched c d) : d.ctl.regs = c.ctl.regs := by rw [show _ = _ from h]
theorem Switched.routePort {c d : Chip} (h : Switched c d) (n k : Nat) : d.routePort n k = c.routePort n k := by
  rw [show _ = _ from h]
  rfl

section
variable (c : Chip) (p : Nat) (r : Rsp)

theorem response_arrives (hp : c.portExists p = true) (hu : c.usable p = true) (hn : (c.port p).findRsp r = none)
    (hm : c.moves p = true) :
    c.response p r =
      let a := c.allocCells (portDie p) (cdiv r.data.length 256) (portLocal p)
      a.1.takeRsp p r a.2 none := by
  unfold Chip.response
  rw [hn]
  dsimp only
  rw [hp, hu, hm]
  rfl

variable (cells : List Nat)

theorem takeRsp_nowhere (h : c.node r.dst = .none) :
    c.takeRsp p r cells none = (c.releaseCells cells).bump .gtxRspDrop 12 := by
  unfold Chip.takeRsp
  rw [h]
  rfl

section
variable {m n : Nat} (h : c.node r.dst = .ports m n)
include h

theorem takeRsp_forward {o : Nat} (ho : c.routePort r.dst (pathHash 0 r.tag r.dst r.src) = some o) :
    c.takeRsp p r cells none =
      c.enqueue o { rspMsg r with cells := cells, cred := none, home := some (portDie p), acct := none } := by
  unfold Chip.takeRsp Chip.forwardRsp
  rw [h]
  dsimp only
  rw [ho]

theorem takeRsp_noRoute (ho : c.routePort r.dst (pathHash 0 r.tag r.dst r.src) = none) :
    c.takeRsp p r cells none = (c.releaseCells cells).bump .gtxRspDrop 12 := by
  unfold Chip.takeRsp Chip.forwardRsp
  rw [h]
  dsimp only
  rw [ho]
  rfl

end

section
variable {q : Nat} (h : c.node r.dst = .here q)
include h

theorem takeRsp_unknown (hm : (c.releaseCells cells).asked q r = none) : c.takeRsp p r cells none = c.releaseCells cells := by
  unfold Chip.takeRsp
  rw [h]
  unfold Chip.asked at hm
  dsimp only [Chip.freeCred]
  rw [hm]

variable {x : DevReq} (hm : (c.releaseCells cells).asked q r = some x)
include hm

theorem takeRsp_retry (hr : r.status = 1) :
    c.takeRsp p r cells none =
      ((c.releaseCells cells).crossToOwner p x.owner (pathHash 0 r.tag r.dst r.src)).retryUnsent
        { x with unsent := false, req := { x.req with rsv := r.info } } := by
  unfold Chip.takeRsp
  rw [h]
  unfold Chip.asked at hm
  dsimp only [Chip.freeCred]
  rw [hm]
  exact if_pos hr

/-- What a request's answer leaves of the requests in progress. -/
def Chip.withoutReq (c : Chip) (id : Nat) : Chip :=
  { c with gtx := { c.gtx with devReqs := c.gtx.devReqs.filter fun x => x.id != id } }

theorem takeRsp_answer (hr : r.status ≠ 1) :
    c.takeRsp p r cells none =
      ((((c.releaseCells cells).crossToOwner p x.owner (pathHash 0 r.tag r.dst r.src)).withoutReq x.id).addJob
        { req := x, ans := some { status := some r.status, info := r.info, tgt := r.tgt, data := r.data } }).retryHeld := by
  unfold Chip.takeRsp
  rw [h]
  unfold Chip.asked at hm
  dsimp only [Chip.freeCred]
  rw [hm]
  exact if_neg hr

end

end

/-! ### Response timeouts (R302) -/

/-- A request in progress goes on as `d`. -/
def Chip.putReq (c : Chip) (id : Nat) (d : DevReq) : Chip :=
  { c with gtx := { c.gtx with devReqs := modFirst (fun x => x.id == id) (fun _ => d) c.gtx.devReqs } }

/-- The request once more, with RE set. -/
def DevReq.again (d : DevReq) (now : Nat) : DevReq :=
  { d with reissues := d.reissues + 1, issued := now, req := { d.req with re := true } }

/-- The port that an overdue request goes out on again: the buddy of its port, else the same, else none. -/
def Chip.reissuePort (c : Chip) (d : DevReq) : Option Nat :=
  match c.node d.dst, d.port with
  | .ports a b, some p =>
    let o := if p = a then b else a
    if c.usable o then some o else if c.usable p then some p else none
  | .ports _ _, none => c.routePort d.dst (pathHash d.req.addr d.req.tag d.req.src d.dst)
  | _, _ => none

/-- The request is sent again on a port, or waits without one. -/
def Chip.resentOn (c : Chip) (id : Nat) (d : DevReq) : Option Nat → Chip
  | none => c.putReq id { d.again c.tick with port := none, unsent := false }
  | some o => (c.withoutReq id).sendAgainOn (d.again c.tick) (some o)

section
variable (c : Chip) (d : DevReq)

theorem reissuePort_none {a b : Nat} (hn : c.node d.dst = .ports a b) (hp : d.port = none) :
    c.reissuePort d = c.routePort d.dst (pathHash d.req.addr d.req.tag d.req.src d.dst) := by
  unfold Chip.reissuePort
  rw [hn, hp]

theorem reissuePort_some {a b p : Nat} (hn : c.node d.dst = .ports a b) (hp : d.port = some p) :
    c.reissuePort d =
      let o := if p = a then b else a
      if c.usable o then some o else if c.usable p then some p else none := by
  unfold Chip.reissuePort
  rw [hn, hp]

theorem quiet_putReq (id : Nat) : Quiet c (c.putReq id d) := quiet_devReqs _ _
theorem quiet_withoutReq (id : Nat) : Quiet c (c.withoutReq id) := quiet_devReqs _ _

theorem quiet_resentOn (id : Nat) (o : Option Nat) : Quiet c (c.resentOn id d o) := by
  cases o with
  | none => exact quiet_putReq _ _ _
  | some o =>
    have q := quiet_sendAgainOn (c.withoutReq id) (d.again c.tick) (some o)
    exact (quiet_withoutReq _ _).trans q

variable {d} {id : Nat} (hf : (c.gtx.devReqs.find? fun x => x.id == id) = some d)
  (due : c.due d.issued (max 1 (c.fld .gtxGlb 12 [] 15 0)) = true)
include hf due

theorem rspTimeout_retrain (h : d.port.any (fun p => (c.port p).st == .retrain) = true) :
    c.rspTimeout id = c.putReq id { d with issued := c.tick } := by
  unfold Chip.rspTimeout
  rw [hf]
  dsimp only
  rw [due, if_neg (by decide), if_pos h]
  rfl

theorem rspTimeout_reissue (h : d.port.any (fun p => (c.port p).st == .retrain) = false)
    (hl : d.reissues < c.fld .gtxGlb 12 [] 31 24) : c.rspTimeout id = c.resentOn id d (c.reissuePort d) := by
  unfold Chip.rspTimeout
  rw [hf]
  dsimp only
  rw [due, if_neg (by decide), if_neg (by rw [h]; decide), if_neg (Nat.not_le.mpr hl)]
  rfl

end

/-! ### Requests that wait for their share (R350) -/

section
variable (c : Chip) (q die : Nat)

/-- The request that has waited longest for the share, of a class (R350). -/
def Chip.shareHead (vc : Nat) : Option ShareWait :=
  c.gtx.shareWait.find? fun w => w.die == die && w.pend.part == q && opcVc w.pend.req.opc == vc

variable {w : ShareWait}
  (h : (([c.shareHead q die 0, c.shareHead q die 1].filterMap id).find? fun w => c.shareFits die q w.pend.need) = some w)
include h

theorem shareResume_some :
    c.shareResume q die = ({ c with gtx := { c.gtx with shareWait := c.gtx.shareWait.erase w } } : Chip).takeShare die w.pend := by
  unfold Chip.shareResume
  dsimp only
  unfold Chip.shareHead at h
  rw [h]

theorem shareHead_part : w.pend.part = q := by
  have mem := List.mem_of_find?_eq_some h
  simp only [List.mem_filterMap, List.mem_cons, List.not_mem_nil, or_false, id] at mem
  obtain ⟨_, rfl | rfl, hw⟩ := mem
  · have := List.find?_some hw
    simp only [Bool.and_eq_true, beq_iff_eq] at this
    exact this.1.2
  · have := List.find?_some hw
    simp only [Bool.and_eq_true, beq_iff_eq] at this
    exact this.1.2

end

theorem takeShare_port (c : Chip) (die : Nat) (x : Pend) (ho : ∃ p k, x.origin = .port p k) :
    c.takeShare die x = (c.chargeCells x.cells (64 + x.part)).startAdmitted x die := by
  obtain ⟨p, k, ho⟩ := ho
  unfold Chip.takeShare
  split
  · rfl
  · next h =>
    rw [ho] at h
    cases h

theorem quiet_linesDone (c : Chip) (x : Pend) (l : List (Nat × Nat)) (ho : ∃ p k, x.origin = .port p k) :
    Quiet c ((c.onLines x l).1.complete (c.onLines x l).2) := by
  obtain ⟨quiet, origin⟩ := onLines_keep l c x
  exact quiet.trans (quiet_complete _ _ (by rwa [origin]))

/-- A logged access to lines that its share takes goes on to its lines. -/
theorem takeShare_lines (c : Chip) (die : Nat) (x : Pend) (ho : ∃ p k, x.origin = .port p k)
    (hopc : x.req.opc = 4 ∨ x.req.opc = 7 ∨ x.req.opc = 8 ∨ x.req.opc = 11)
    (hf : (((c.chargeCells x.cells (64 + x.part)).freeCred x.cred).crossings x die).FreeLines { x with cred := none } x.lines) :
    c.takeShare die x =
      let t := (((c.chargeCells x.cells (64 + x.part)).freeCred x.cred).crossings x die).onLines { x with cred := none } x.lines
      t.1.complete t.2 := by
  rw [takeShare_port c die x ho]
  unfold Chip.startAdmitted
  have keep : decide (x.req.opc = 9 ∨ x.req.opc = 10) = false := decide_eq_false (by omega)
  dsimp only
  rw [keep, if_neg (by decide), if_neg (by decide)]
  unfold Chip.perform
  dsimp only
  rcases hopc with h | h | h | h <;> rw [h] <;>
    exact runLines_free _ _ _ hf (by rw [h]; decide) (by rw [h]; decide) rfl

/-! ### Held stores (R82, R84, R358) -/

section
variable (c : Chip)

theorem requeue_nil (hq : ∀ h ∈ c.gtx.held, h.queued = true) (hi : ∀ t ∈ c.gtx.tstores, t.ingress = false) : c.requeue = c := by
  have queued : c.gtx.held.filter (fun h => !h.queued) = [] := List.filter_eq_nil_iff.mpr fun h hh => by simp [hq h hh]
  have ingress : c.gtx.tstores.filter (·.ingress) = [] := List.filter_eq_nil_iff.mpr fun t ht => by simp [hi t ht]
  unfold Chip.requeue
  dsimp only
  rw [queued, List.foldl_nil, ingress, List.foldl_nil]

theorem releasable_head {h : HeldStore} {rest : List HeldStore} (hq : h.queued = true) (hm : c.mustHold h [] = false) :
    c.releasable h.die [] (h :: rest) = some h := if_pos ⟨rfl, hq, hm⟩

variable {id : Nat} {t : TStore} (ht : c.tstore? id = some t) (hgot : t.pend.got = none) (hin : t.ingress = false)
include ht hgot hin

theorem tstoreEnd_last (h : ∀ x ∈ c.gtx.held, x.pend ≠ id) :
    c.tstoreEnd id =
      (({ c with gtx := { c.gtx with tstores := c.gtx.tstores.filter fun x => x.id != id } } : Chip).freeCred t.pend.cred).complete
        { t.pend with cred := none, cells := [] } := by
  have none_ : c.gtx.held.filter (fun x => x.pend == id) = [] := List.filter_eq_nil_iff.mpr fun x hx => by simpa using h x hx
  unfold Chip.tstoreEnd
  rw [ht]
  dsimp only
  rw [hgot, none_, if_neg (by decide), if_pos (by rfl), hin, if_neg (by decide)]

theorem tstoreEnd_more (h : ∃ x ∈ c.gtx.held, x.pend = id) : c.tstoreEnd id = c := by
  obtain ⟨x, hx, he⟩ := h
  have some_ : (c.gtx.held.filter fun x => x.pend == id).isEmpty = false :=
    List.isEmpty_eq_false_iff.mpr (List.ne_nil_of_mem (List.mem_filter.mpr ⟨hx, beq_iff_eq.mpr he⟩))
  unfold Chip.tstoreEnd
  rw [ht]
  dsimp only
  rw [hgot, some_, hin, Bool.false_and, if_neg (by decide), if_neg (by decide), if_neg (by decide)]

end

section
variable (c : Chip) {h : HeldStore} {rest : List HeldStore} {t : TStore}

/-- The first held store is marked, and its entries' references to the store's cells are given up. -/
def Chip.releaseFirst (h : HeldStore) (rest : List HeldStore) (cells : List Nat) : Chip :=
  (({ c with gtx := { c.gtx with held := rest } } : Chip).markPart (c.win h.win) h.slot h.die h.off h.bytes
    (cellsOf cells h.lo h.bytes.length)).releaseCells (h.refs cells)

variable (cells : List Nat)
  (hf : (markBytes (c.slot ((c.win h.win).key h.slot h.die)).bytes h.off h.bytes).1.length ≠ (c.win h.win).setBytes)
include hf

theorem releaseFirst_gtx : (c.releaseFirst h rest cells).gtx = { c.gtx with held := rest } := by
  obtain ⟨a, z, n, m, v, marked⟩ := markPart_eq ({ c with gtx := { c.gtx with held := rest } } : Chip) (c.win h.win) h.slot h.die
    h.off h.bytes (cellsOf cells h.lo h.bytes.length) rfl hf
  unfold Chip.releaseFirst
  rw [(switched_release _ _).gtx, marked]

theorem quiet_releaseFirst : Quiet c (c.releaseFirst h rest cells) := by
  obtain ⟨a, z, n, m, v, marked⟩ := markPart_eq ({ c with gtx := { c.gtx with held := rest } } : Chip) (c.win h.win) h.slot h.die
    h.off h.bytes (cellsOf cells h.lo h.bytes.length) rfl hf
  refine Quiet.trans (b := ({ c with gtx := { c.gtx with held := rest } } : Chip).markPart (c.win h.win) h.slot h.die h.off h.bytes
    (cellsOf cells h.lo h.bytes.length)) ?_ (quiet_release _ _)
  rw [marked]
  exact quiet_of _ _ rfl rfl rfl rfl (fun h => h) fun h => h

omit hf cells in
theorem heldRelease_first (hh : c.gtx.held = h :: rest) (hq : ∀ x ∈ c.gtx.held, x.queued = true)
    (hi : ∀ t ∈ c.gtx.tstores, t.ingress = false) (hm : c.mustHold h [] = false) (hquery : h.query = false)
    (ht : c.tstore? h.pend = some t)
    (hf : (markBytes (c.slot ((c.win h.win).key h.slot h.die)).bytes h.off h.bytes).1.length ≠ (c.win h.win).setBytes) :
    c.heldRelease h.die = (c.releaseFirst h rest t.pend.cells).tstoreEnd h.pend := by
  have first : c.releasable h.die [] c.gtx.held = some h := by
    rw [hh]
    exact releasable_head c (hq h (hh ▸ List.mem_cons_self)) hm
  have erased : c.gtx.held.erase h = rest := by rw [hh, List.erase_cons_head]
  have marked : ({ c with gtx := { c.gtx with held := rest } } : Chip).markHeld h t.pend.cells = c.releaseFirst h rest t.pend.cells := by
    unfold Chip.markHeld
    rw [hquery]
    rfl
  have again : (c.releaseFirst h rest t.pend.cells).requeue = c.releaseFirst h rest t.pend.cells := by
    refine requeue_nil _ ?_ ?_ <;> rw [releaseFirst_gtx c t.pend.cells hf]
    · exact fun x hx => hq x (hh ▸ List.mem_cons_of_mem _ hx)
    · exact hi
  have find : ({ c with gtx := { c.gtx with held := rest } } : Chip).tstore? h.pend = some t := ht
  unfold Chip.heldRelease
  rw [requeue_nil c hq hi]
  dsimp only
  rw [first]
  dsimp only
  rw [erased, find]
  dsimp only
  rw [marked, again]

end

/-- Settles O54: every clause is a case of what its row means; only an answered notification passes the module's own queue. -/
theorem responsesAct : Obligations.ResponsesAct := by
  unfold Obligations.ResponsesAct
  intro s hs
  dsimp only
  refine ⟨fun p r hp hu hn hm => ?responses, fun id d hf due => ?timeouts, fun q die w h hopc ho free => ?shares,
    fun h rest t hh hq hi hm hquery ht hgot ho hf => ?stores⟩
  case responses =>
    have arrives := response_arrives s.chip p r hp hu hn hm
    have sw : Switched s.chip (s.chip.allocCells (portDie p) (cdiv r.data.length 256) (portLocal p)).1 := switched_alloc _ _ _ _
    generalize s.chip.allocCells (portDie p) (cdiv r.data.length 256) (portLocal p) = a at arrives sw ⊢
    obtain ⟨c1, cells⟩ := a
    dsimp only at arrives sw ⊢
    have released := sw.trans (switched_release c1 cells)
    refine ⟨fun hn => ?nowhere, fun m n hn => ⟨fun o ho => ?forward, fun ho => ?noRoute⟩,
      fun q hq => ⟨fun hm => ?unknown, fun x hx => ⟨fun h1 => ?retry, fun w v h1 ho hd hu => ?answer⟩⟩⟩
    case nowhere =>
      exact becomes s _ _ _ rfl (arrives.trans (takeRsp_nowhere c1 p r cells (by rw [kept_node sw.regs, hn])))
        (released.quiet.trans (quiet_bump _ _ _ _ _)) hs
    case forward =>
      exact becomes s _ _ _ rfl (arrives.trans (takeRsp_forward c1 p r cells (by rw [kept_node sw.regs, hn]) (by rw [sw.routePort, ho])))
        (sw.quiet.trans (quiet_enqueue _ _ _)) hs
    case noRoute =>
      exact becomes s _ _ _ rfl (arrives.trans (takeRsp_noRoute c1 p r cells (by rw [kept_node sw.regs, hn]) (by rw [sw.routePort, ho])))
        (released.quiet.trans (quiet_bump _ _ _ _ _)) hs
    all_goals
      have here : c1.node r.dst = .here q := by rw [kept_node sw.regs, hq]
    case unknown =>
      exact becomes s _ _ _ rfl (arrives.trans (takeRsp_unknown c1 p r cells here (by unfold Chip.asked; rw [released.gtx, hm])))
        released.quiet hs
    all_goals
      have asked : (c1.releaseCells cells).asked q r = some x := by unfold Chip.asked; rw [released.gtx, hx]
      have crossed := released.trans (switched_crossToOwner (c1.releaseCells cells) p x.owner (pathHash 0 r.tag r.dst r.src))
    case retry =>
      exact becomes s _ _ _ rfl (arrives.trans (takeRsp_retry c1 p r cells here asked h1))
        (crossed.quiet.trans (quiet_retryUnsent _ _)) hs
    case answer =>
      have requests : ((c1.releaseCells cells).crossToOwner p x.owner (pathHash 0 r.tag r.dst r.src)).gtx = s.chip.gtx := crossed.gtx
      have kept := crossed.quiet.trans (quiet_withoutReq _ x.id)
      have row := takeRsp_answer c1 p r cells here asked h1
      rw [retryHeld_nil _ (by rw [← hd, ← requests]; rfl) fun y hy => hu y (requests ▸ List.mem_of_mem_filter hy)] at row
      exact becomes_settled (congrArg (act s) (arrives.trans row)) (settle_notified _ x _ ho (kept.still hs))
  case timeouts =>
    refine ⟨fun p hp hr => ?retrain, fun hr hl a b hn => ⟨fun p hp => ?buddy, fun hp => ?again⟩⟩
    case retrain =>
      exact becomes s _ _ _ rfl (rspTimeout_retrain s.chip hf due (by rw [hp]; simp [hr])) (quiet_putReq _ _ _) hs
    all_goals
      have up : d.port.any (fun p => (s.chip.port p).st == .retrain) = false := by
        rw [Option.any_eq_false]
        intro p hp
        simp [hr p hp]
      have row := rspTimeout_reissue s.chip hf due up hl
      have stays (ho : s.chip.reissuePort d = none) :
          Becomes s (.rspTimeout id) (s.chip.putReq id { d.again s.chip.tick with port := none, unsent := false }) :=
        becomes s _ _ _ rfl (row.trans (by rw [ho]; rfl)) (quiet_putReq _ _ _) hs
      have sent {o : Nat} (ho : s.chip.reissuePort d = some o) :
          Becomes s (.rspTimeout id) ((s.chip.withoutReq id).sendAgainOn (d.again s.chip.tick) (some o)) :=
        becomes s _ _ _ rfl (row.trans (by rw [ho]; rfl)) ((quiet_withoutReq _ _).trans (quiet_sendAgainOn _ _ _)) hs
      have out {o : Nat} (ho : s.chip.reissuePort d = some o) := And.intro
        (fun fits => sendAgainOn_fits (s.chip.withoutReq id) (d.again s.chip.tick) o fits ▸ sent ho)
        (fun waits => sendAgainOn_waits (s.chip.withoutReq id) (d.again s.chip.tick) o waits rfl ▸ sent ho)
    case buddy =>
      have port := reissuePort_some s.chip d hn hp
      exact ⟨fun ho => out (by rw [port, if_pos ho]), fun ho hq => out (by rw [port, if_neg (ne_true_of_eq_false ho), if_pos hq]),
        fun ho hq => stays (by rw [port, if_neg (ne_true_of_eq_false ho), if_neg (ne_true_of_eq_false hq)])⟩
    case again =>
      have port := reissuePort_none s.chip d hn hp
      exact ⟨fun q ho => out (port.trans ho), fun ho => stays (port.trans ho)⟩
  case shares =>
    have part := shareHead_part s.chip q die h
    have taken := shareResume_some s.chip q die h
    subst part
    rw [takeShare_lines _ die w.pend ho hopc free] at taken
    refine becomes s _ _ _ rfl taken ?_ hs
    have left : Quiet s.chip { s.chip with gtx := { s.chip.gtx with shareWait := s.chip.gtx.shareWait.erase w } } :=
      quiet_of _ _ rfl rfl rfl rfl (fun h => h) fun h => h
    exact left.trans ((switched_charge _ _ _).quiet.trans ((quiet_freeCred _ _).trans
      ((switched_crossings _ _ _).quiet.trans (quiet_linesDone _ _ _ ho))))
  case stores =>
    have row := heldRelease_first s.chip hh hq hi hm hquery ht hf
    have quiet := quiet_releaseFirst s.chip (rest := rest) t.pend.cells hf
    have gtx := releaseFirst_gtx s.chip (rest := rest) t.pend.cells hf
    have find : (s.chip.releaseFirst h rest t.pend.cells).tstore? h.pend = some t := by
      unfold Chip.tstore?
      rw [gtx]
      exact ht
    have ingress : t.ingress = false := hi t (List.mem_of_find?_eq_some ht)
    refine ⟨fun last => becomes s _ _ _ rfl (row.trans (tstoreEnd_last _ find hgot ingress (by rwa [gtx]))) ?_ hs,
      fun more => becomes s _ _ _ rfl (row.trans (tstoreEnd_more _ find hgot ingress (by rwa [gtx]))) quiet hs⟩
    refine quiet.trans (Quiet.trans ?_ ((quiet_freeCred _ _).trans (quiet_complete _ _ ho)))
    exact quiet_of _ _ rfl rfl rfl rfl (fun h => h) fun h => h

end Sys2Proof.Machine
end

section
/-! SUPPORT. Launches, output segments, ends of runs, watchdogs, bowl timeouts and set timeouts (chapters 3 and 4): one lemma
for each case of a row's meaning. -/

namespace Sys2Proof.Machine

/-! ### Launches (R94, R95, R101, R105) -/

section
variable (c : Chip) (die : Nat)

/-- The launches that wait on a die. -/
def Chip.waitingOn : List Launch := c.dsp.launches.filter fun l => l.phase == 0 && l.die == die

theorem kernelLaunch_idle (h : c.noteWaits.waitingOn die = []) : c.kernelLaunch die = c.noteWaits := by
  unfold Chip.waitingOn at h
  unfold Chip.kernelLaunch
  dsimp only
  rw [h]
  rfl

theorem kernelLaunch_one {l : Launch} (h : c.noteWaits.waitingOn die = [l]) (hi : l.imageReq = false)
    (hc : c.noteWaits.canLaunch l = true) :
    c.kernelLaunch die = (c.noteWaits.setLaunch { l with imageReq := true }).readImage l.part (.image l.id false) l.d := by
  unfold Chip.waitingOn at h
  unfold Chip.kernelLaunch
  dsimp only
  rw [h, show ([l].foldl (fun a l => insLaunch l a) []) = [l] from rfl,
    List.find?_cons_of_pos (by rw [hi, hc]; rfl)]

variable {c} {l : Launch} {x : Nat} (ready : c.launchReady l = true) (first : c.olderWaits l = false)
include ready first

theorem canLaunch_of (free : (c.freeCtx (c.leaves l.bowl)).isSome = true) : c.canLaunch l = true := by
  unfold Chip.canLaunch
  rw [ready, first, free]
  rfl

theorem launchImage_starts {id : Nat} {image : Bytes} (h : c.launch? id = some { l with imageReq := true }) (hp : l.phase = 0)
    (hi : l.imageReq = false) (free : c.freeCtx (c.leaves l.bowl) = some x) :
    c.launchImage id { status := some 0, data := image } = (c.startLaunch l x image).noteWaits.advance := by
  have back : ({ { l with imageReq := true } with imageReq := false } : Launch) = l := by rw [← hi]
  unfold Chip.launchImage
  rw [h]
  dsimp only at back ⊢
  rw [back, if_neg (by rw [hp]; decide), if_neg (by decide), if_pos (canLaunch_of ready first (by rw [free]; rfl)), free]
  rfl

end

/-- A launch as it runs on context `x`. -/
def Launch.started (l : Launch) (x : Nat) (selected : Bool) (cells : List Nat) : Launch :=
  { l with phase := 1, ctx := x, selected := selected, sentBytes := 0, output := [], cells := cells, bowlWait := none }

theorem startLaunch_eq (c : Chip) (l : Launch) (x : Nat) (image : Bytes) :
    c.startLaunch l x image =
      let first : Bool := l.reruns = 0
      let cells := if first then (c.slot (slotKey l.win l.slot l.die)).cells else l.cells
      let g := (c.when first fun c => c.takeRefs cells).sample l
      let m := g.2.measure
      let l' := l.started x g.1 cells
      let d := ((m.2.setLaunch l').startRun l.id l.part l.bowl x l.desc l.operands image).modService l' fun v =>
        { v with launches := v.launches + 1, die := l.die, waitMax := if first then max v.waitMax m.1 else v.waitMax }
      (d.weights l').settleSlot l.win l.slot l.die := by
  unfold Chip.startLaunch
  by_cases h : l.reruns = 0
  · simp only [if_pos h, decide_eq_true h, when_true]
    rfl
  · simp only [if_neg h, decide_eq_false h, when_false]
    rfl

/-! ### The turn of an engine's trees (R365) -/

/-- `d` is `c` but for the deficits and turns of the arbiters. -/
def Turned (c d : Chip) : Prop := ∃ df last, d = { c with swc := { c.swc with deficit := df, lastChild := last } }

theorem Turned.rfl' (c : Chip) : Turned c c := ⟨c.swc.deficit, c.swc.lastChild, rfl⟩

theorem Turned.trans {a b c : Chip} (h : Turned a b) (g : Turned b c) : Turned a c := by
  obtain ⟨_, _, rfl⟩ := h
  obtain ⟨df, last, rfl⟩ := g
  exact ⟨df, last, rfl⟩

theorem turned_setDeficits (c : Chip) (arb : Nat) (active : List Nat) (d : KMap Nat) : Turned c (c.setDeficits arb active d) :=
  ⟨_, _, rfl⟩

theorem turned_setLast (c : Chip) (arb child : Nat) : Turned c (c.setLast arb child) := ⟨_, _, rfl⟩

theorem turned_treePick (c : Chip) (tree top : Nat) (active heads : List Leaf) {r : Leaf × Chip}
    (h : c.treePick tree top active heads = some r) : Turned c r.2 := by
  unfold Chip.treePick at h
  dsimp only at h
  obtain ⟨win, -, h⟩ := Option.bind_eq_some_iff.mp h
  obtain ⟨ch, -, rfl⟩ := Option.map_eq_some_iff.mp h
  exact ((turned_setDeficits _ _ _ _).trans (turned_setLast _ _ _)).trans ((turned_setDeficits _ _ _ _).trans (turned_setLast _ _ _))

theorem turned_segTurn (c : Chip) (l : Launch) (b : Bytes) {e : Chip} (h : c.segTurn l b = some e) : Turned c e := by
  unfold Chip.segTurn at h
  dsimp only at h
  obtain ⟨r, hr, h⟩ := Option.bind_eq_some_iff.mp h
  split at h
  · cases h
    exact turned_treePick _ _ _ _ _ hr
  · cases h

/-! ### Offers of segments (R131, R134, R135) -/

section
variable (c : Chip) (l : Launch) (kind e : Nat) (b : Bytes)

theorem offerSeg_dropped (h : l.op = some 0) : c.offerSeg l kind e b = some { chip := c, op := 0 } := if_pos h

section
variable {i : Nat} {p : EngOp} (hs : l.sentBytes ≠ 0) (ho : l.op = some i) (hi : i ≠ 0)
  (hp : (c.eng.ops.find? fun q => some q.id == some i) = some p)
include hs ho hi hp

theorem offerSeg_joined :
    c.offerSeg l kind e b = if p.phase = 0 && c.queueFull kind e then none else some { chip := c.setOp (putSeg p l.id b), op := i } := by
  have id : p.id = i := by simpa using List.find?_some hp
  unfold Chip.offerSeg
  rw [ho, if_neg (by simpa using hi), if_neg hs, hp]
  dsimp only
  rw [id]

end

/-- The run's next segment is its first, the engine is its partition's, the segment's block is legal and declares its
source, and no operation is there to join (R134, R135). -/
structure Chip.OpensWith : Prop where
  first : l.sentBytes = 0
  op : l.op = none
  routed : l.routed = false
  known : kind ≠ 3
  owned : c.engOwned kind e l.part = true
  long : 64 ≤ b.length
  ok : blkOk kind (parseBlk kind b) = true
  declared : (parseBlk kind b).src < (parseBlk kind b).sources
  none_ : c.eng.ops = []

/-- The operation that a run's first segment opens. -/
def Chip.opened : EngOp :=
  let blk := parseBlk kind b
  { id := c.eng.nextId, kind := kind, engine := e, part := l.part, blk := blk,
    declared := List.range blk.sources, openTick := c.tick,
    contribs := [{ src := blk.src, gate := blk.gate, launch := l.id, count := blk.count, data := b.drop 64, segs := 1 }],
    epochs := c.epochsOf l.part }

theorem offerSeg_first (h : c.OpensWith l kind e b) :
    c.offerSeg l kind e b = if c.engAccepts kind e then
      some { chip := (c.addOp (c.opened l kind e b)).engOpen (c.opened l kind e b), op := c.eng.nextId } else none := by
  have room : c.queueFull kind e = false := by
    unfold Chip.queueFull Chip.engQueued
    rw [h.none_]
    rfl
  unfold Chip.offerSeg
  rw [h.op, if_neg (by decide), if_pos h.first, h.routed, if_neg (by decide)]
  unfold Chip.firstSeg
  dsimp only
  rw [if_neg (by rw [h.owned, h.ok]; simp [h.known, h.long]), h.none_, List.find?_nil]
  dsimp only
  rw [if_neg (by simpa using h.declared), room, Bool.not_false, Bool.and_true]
  rfl

end

section
variable (c : Chip) (o : EngOp)

theorem engOpen_fits (h : c.shareFits (engDie o.engine) o.part o.stageCells = true) :
    c.engOpen o =
      let a := c.allocCells (engDie o.engine) o.stageCells (64 + o.part)
      a.1.setOp { o with phase := 1, cells := a.2 } := by
  unfold Chip.engOpen Chip.engStage
  rw [if_pos h]

theorem engOpen_waits (h : c.shareFits (engDie o.engine) o.part o.stageCells = false) :
    c.engOpen o = (c.engBump (cntStageWait o.kind) o.engine).setOp { o with phase := 0 } := by
  unfold Chip.engOpen Chip.engStage
  rw [if_neg (ne_true_of_eq_false h)]

end

/-! ### Output segments (R131, R135, R365) -/

section
variable (c : Chip) (l : Launch)

theorem nextSeg_waits (h : c.outputDone l.id (l.sentBytes + min 4096 (l.d.outBytes - l.sentBytes)) = false) : c.nextSeg l = none :=
  if_pos (by rw [h]; simp)

theorem nextSeg_some (hr : l.runs = true) (hs : l.sentBytes < l.d.outBytes)
    (h : c.outputDone l.id (l.sentBytes + min 4096 (l.d.outBytes - l.sentBytes)) = true) :
    c.nextSeg l = some (c.outRange l.id l.sentBytes (min 4096 (l.d.outBytes - l.sentBytes))) := by
  refine if_neg ?_
  rw [h, hr]
  simp only [Bool.not_true, Bool.false_or, Bool.or_false, beq_iff_eq]
  omega

end

/-- A segment of launch `l` has gone to operation `op` of engine `k`, which left `d`. -/
def Chip.segSent (d : Chip) (l : Launch) (b : Bytes) (k : Nat × Nat) (op : Nat) : Chip :=
  let l' := { (d.launch? l.id).getD l with
    op := some op, sentBytes := l.sentBytes + b.length, output := if l.selected then l.output ++ b else [] }
  let d := (d.setLaunch l').cross l.die (engDie k.2) 0
  let d := Chip.advance (if l'.sentBytes = l.d.outBytes ∧ l'.phase = 1 then (d.lastAccepted l').commitRun l' else d)
  d.treeIdle (engTree (d.feeds l).1 (d.feeds l).2) (d.segLeaves (d.feeds l))

theorem segAccepted_eq (c : Chip) (l : Launch) (b : Bytes) (t : SegTaken) :
    c.segAccepted l b t = t.chip.segSent l b (c.feeds l) t.op := rfl

theorem shareFits_congr {c d : Chip} (hc : d.swc.cells = c.swc.cells) (hr : d.ctl.regs = c.ctl.regs) (hp : d.lnk = c.lnk) (die q n : Nat) :
    d.shareFits die q n = c.shareFits die q n := by
  have held : d.heldCells = c.heldCells := by
    unfold Chip.heldCells
    rw [hc]
  have field : d.fld = c.fld := by
    unfold Chip.fld Chip.reg
    rw [hr]
  have port : d.port = c.port := by
    unfold Chip.port
    rw [hp]
  unfold Chip.shareFits Chip.commonFree Chip.shareMax Chip.shareMin Chip.portGuarantee
  rw [held, field, port]

section
variable {c e : Chip} (h : Turned c e)
include h

theorem Turned.feeds (l : Launch) : e.feeds l = c.feeds l := by
  obtain ⟨_, _, rfl⟩ := h
  rfl

theorem Turned.eng : e.eng = c.eng := by
  obtain ⟨_, _, rfl⟩ := h
  rfl

theorem Turned.engAccepts (kind k : Nat) : e.engAccepts kind k = c.engAccepts kind k := by
  obtain ⟨_, _, rfl⟩ := h
  rfl

theorem Turned.opensWith {l : Launch} {kind k : Nat} {b : Bytes} (g : c.OpensWith l kind k b) : e.OpensWith l kind k b := by
  obtain ⟨_, _, rfl⟩ := h
  exact ⟨g.first, g.op, g.routed, g.known, g.owned, g.long, g.ok, g.declared, g.none_⟩

theorem Turned.opened (l : Launch) (kind k : Nat) (b : Bytes) : e.opened l kind k b = c.opened l kind k b := by
  obtain ⟨_, _, rfl⟩ := h
  rfl

theorem Turned.shareFits (o : EngOp) (die q n : Nat) : (e.addOp o).shareFits die q n = c.shareFits die q n := by
  obtain ⟨_, _, rfl⟩ := h
  exact shareFits_congr rfl rfl rfl _ _ _

end

section
variable (c : Chip) {id : Nat} {l : Launch} (h : c.launch? id = some l)

include h

theorem launch_id : l.id = id := by simpa using List.find?_some h

theorem outputSegment_waits (hn : c.nextSeg l = none) : c.outputSegment id = c := by
  unfold Chip.outputSegment
  rw [h]
  dsimp only
  rw [hn]

variable {b : Bytes} (hn : c.nextSeg l = some b)
include hn

theorem outputSegment_refused (ho : c.offerSeg l (c.feeds l).1 (c.feeds l).2 b = none) : c.outputSegment id = c.launchStall id 6 := by
  unfold Chip.outputSegment
  rw [h]
  dsimp only
  rw [hn]
  dsimp only
  rw [ho]
  rfl

theorem outputSegment_taken {e d : Chip} {u : SegTaken} {op : Nat} (ho : c.offerSeg l (c.feeds l).1 (c.feeds l).2 b = some u)
    (ht : c.segTurn l b = some e) (hu : e.offerSeg l (c.feeds l).1 (c.feeds l).2 b = some { chip := d, op := op }) :
    c.outputSegment id = d.segSent l b (c.feeds l) op := by
  have sent : e.segAccepted l b { chip := d, op := op } = d.segSent l b (c.feeds l) op := by
    rw [segAccepted_eq, (turned_segTurn c l b ht).feeds l]
  rw [← sent]
  unfold Chip.outputSegment
  rw [h]
  dsimp only
  rw [hn]
  dsimp only
  rw [ho, Option.isNone_some, if_neg (by decide), ht]
  dsimp only
  rw [hu]

end

theorem offerSeg_turned {c e : Chip} (turned : Turned c e) {l : Launch} {kind k : Nat} {b : Bytes} (h : c.OpensWith l kind k b)
    (accepts : c.engAccepts kind k = true) :
    e.offerSeg l kind k b =
      some { chip := (e.addOp (c.opened l kind k b)).engOpen (c.opened l kind k b), op := c.eng.nextId } := by
  rw [offerSeg_first e l kind k b (turned.opensWith h), if_pos (by rw [turned.engAccepts, accepts]), turned.opened, turned.eng]

section
variable (c : Chip) {id : Nat} {l : Launch} {b : Bytes} {e : Chip} (h : c.launch? id = some l) (hn : c.nextSeg l = some b)
include h hn

theorem outputSegment_joins {i : Nat} {p : EngOp} (hs : l.sentBytes ≠ 0) (ho : l.op = some i) (hi : i ≠ 0)
    (hp : (c.eng.ops.find? fun q => some q.id == some i) = some p)
    (passes : (decide (p.phase = 0) && c.queueFull (c.feeds l).1 (c.feeds l).2) = false) (ht : c.segTurn l b = some e) :
    c.outputSegment id = (e.setOp (putSeg p l.id b)).segSent l b (c.feeds l) i := by
  have turned := turned_segTurn c l b ht
  refine outputSegment_taken c h hn ((offerSeg_joined c l _ _ b hs ho hi hp).trans (if_neg (ne_true_of_eq_false passes))) ht
    ((offerSeg_joined e l _ _ b hs ho hi (by rw [turned.eng, hp])).trans (if_neg ?_))
  unfold Chip.queueFull Chip.engQueued at passes ⊢
  rw [turned.eng]
  exact ne_true_of_eq_false passes

variable (ho : c.OpensWith l (c.feeds l).1 (c.feeds l).2 b) (accepts : c.engAccepts (c.feeds l).1 (c.feeds l).2 = true)
  (ht : c.segTurn l b = some e) {o : EngOp} (opened : c.opened l (c.feeds l).1 (c.feeds l).2 b = o)
include ho accepts ht opened

theorem outputSegment_opens : c.outputSegment id = ((e.addOp o).engOpen o).segSent l b (c.feeds l) o.id := by
  rw [← opened]
  exact outputSegment_taken c h hn (offerSeg_turned (.rfl' c) ho accepts) ht (offerSeg_turned (turned_segTurn c l b ht) ho accepts)

theorem outputSegment_opens_staged (fits : c.shareFits (engDie o.engine) o.part o.stageCells = true) :
    c.outputSegment id =
      let a := (e.addOp o).allocCells (engDie o.engine) o.stageCells (64 + o.part)
      (a.1.setOp { o with phase := 1, cells := a.2 }).segSent l b (c.feeds l) o.id := by
  rw [outputSegment_opens c h hn ho accepts ht opened, engOpen_fits _ _ (((turned_segTurn c l b ht).shareFits o _ _ _).trans fits)]

theorem outputSegment_opens_waiting (full : c.shareFits (engDie o.engine) o.part o.stageCells = false) :
    c.outputSegment id =
      (((e.addOp o).engBump (cntStageWait o.kind) o.engine).setOp { o with phase := 0 }).segSent l b (c.feeds l) o.id := by
  rw [outputSegment_opens c h hn ho accepts ht opened, engOpen_waits _ _ (((turned_segTurn c l b ht).shareFits o _ _ _).trans full)]

end

/-! ### Ends of runs (R96, R105, R107, R112) -/

section
variable (c : Chip) {id : Nat} {l : Launch} (h : c.launch? id = some l) (hs : l.sentBytes = l.d.outBytes)
include h

theorem kernelRunEnd_running (he : c.runEnded id = false) : c.kernelRunEnd id = c := by
  unfold Chip.kernelRunEnd
  rw [h]
  dsimp only
  rw [he, if_pos (by simp)]

include hs

theorem kernelRunEnd_failed (he : c.runEnded id = true) (hp : l.phase = 2) : c.kernelRunEnd id = (c.rerun l).noteWaits.advance := by
  unfold Chip.kernelRunEnd
  rw [h]
  dsimp only
  rw [he, hs, if_neg (by simp [Launch.runs, hp]), if_pos hp]

theorem kernelRunEnd_complete (he : c.runEnded id = true) (hp : l.phase = 3) :
    c.kernelRunEnd id = (c.finishRun l).unblockFills.bowlRelease.noteWaits.advance := by
  unfold Chip.kernelRunEnd
  rw [h]
  dsimp only
  rw [he, hs, if_neg (by simp [hp]), if_neg (by omega), if_neg (by omega), h]
  rfl

end

theorem finishRun_plain (c : Chip) (l : Launch) (h : l.selected = false) :
    c.finishRun l = (((c.delLaunch l.id).endRun l.id).endStreams l.id).releaseCells l.cells := if_neg (by rw [h]; decide)

/-- The check of a launch that has ended, with the cells of its output (R105, R106). -/
def Chip.checkOf (c : Chip) (l : Launch) (cells : List Nat) : Check :=
  { launch := l.id, part := l.part, descIdx := l.descIdx, desc := l.desc, stepTag := l.stepTag, result := l.result, die := l.die
    bowl0 := l.d.bowl, out0 := l.output, operands := l.operands, crc0 := c.leafCrcs l.id, node0 := c.nodeCrcs l.id
    endTick := c.tick, cells := l.cells ++ cells }

theorem finishRun_selected (c : Chip) (l : Launch) (h : l.selected = true) :
    c.finishRun l =
      let r := (((c.delLaunch l.id).endRun l.id).endStreams l.id).allocCells 8 (cdiv l.d.outBytes 256) (64 + l.part)
      { r.1 with dsp := { r.1.dsp with checks := r.1.dsp.checks ++ [c.checkOf l r.2] } } := if_pos h

theorem engDiscard_regs (c : Chip) (id : Nat) : (c.engDiscard id).ctl.regs = c.ctl.regs := by
  unfold Chip.engDiscard
  refine List.foldlRecOn (motive := fun d : Chip => d.ctl.regs = c.ctl.regs) _ _ rfl fun d hd o _ => ?_
  dsimp only
  split
  · exact hd
  · exact hd

theorem rerun_again (c : Chip) (l : Launch) (h : l.reruns < c.fld .dspGlbLimits 12 [] 3 0) :
    c.rerun l =
      let d := (((c.engDiscard l.id).endRun l.id).endStreams l.id).setLaunch
        { l with phase := 0, reruns := l.reruns + 1, sentBytes := 0, output := [], causes := [] }
      ((d.launchStall l.id 8).modService l fun v => { v with reruns := v.reruns + 1 }).unblockFills.bowlRelease := by
  have limit : (((c.engDiscard l.id).endRun l.id).endStreams l.id).fld .dspGlbLimits 12 [] 3 0 = c.fld .dspGlbLimits 12 [] 3 0 := by
    unfold Chip.fld Chip.reg
    rw [show (((c.engDiscard l.id).endRun l.id).endStreams l.id).ctl.regs = c.ctl.regs from engDiscard_regs c l.id]
  exact if_neg (by rw [limit]; omega)

/-! ### Launches that are given up (R97, R114) -/

section
variable (c : Chip) {id : Nat} {l : Launch} (h : c.launch? id = some l)
include h

theorem watchdog_early (hb : c.atBound id = false) : c.watchdog id = c := by
  unfold Chip.watchdog
  rw [h]
  exact if_neg (by rw [hb]; simp)

variable (hf : c.dsp.fills = []) (he : c.eng.ops = []) (hb : c.cores.bowlHeld = [])
include hf he hb

theorem watchdog_bound (hr : l.runs = true) (ha : c.atBound id = true) :
    c.watchdog id = (c.droppedLaunch l).raise Ev.watchdog [l.part] := by
  have phase : l.phase ≠ 3 := by
    rintro hp
    unfold Launch.runs at hr
    rw [hp] at hr
    cases hr
  have none_ : c.engDiscard l.id = c := by
    unfold Chip.engDiscard
    rw [he]
    rfl
  unfold Chip.watchdog
  rw [h]
  dsimp only
  rw [hr, ha, if_pos (by rfl), none_, dropLaunch_eq c l phase hf he hb]

theorem bowlTimeout_due {t : Nat} (hp : l.phase = 0) (hw : l.bowlWait = some t) (hk : c.kernelBowl l.bowl = false)
    (hd : c.due t (c.fld .dspGlbTmo 12 [] 31 16) = true) :
    c.bowlTimeout id = (c.droppedLaunch l).raise Ev.bowlTimeout [l.part] := by
  unfold Chip.bowlTimeout
  rw [h]
  dsimp only
  rw [hw]
  dsimp only
  rw [if_pos ⟨hp, hk, hd⟩, dropLaunch_eq c l (by omega) hf he hb]

end

theorem droppedLaunch_regs (c : Chip) (l : Launch) : (c.droppedLaunch l).ctl.regs = c.ctl.regs := by
  unfold Chip.droppedLaunch Chip.settleSlot
  dsimp only
  split
  · exact (switched_release _ _).regs.trans (switched_release _ _).regs
  · exact (switched_release _ _).regs

/-! ### Sets that stay open (R85) -/

section
variable (c : Chip) {die win slot : Nat}

/-- The window that a set timeout of a die names: of queries on the package. -/
def Chip.timedWin (die win : Nat) : Win := if die = 12 then c.qwin win else c.win win

variable (hd : die ≤ 12) (hp : (c.slot ((c.timedWin die win).key slot die)).phase = 1)
  (due : c.due (c.slot ((c.timedWin die win).key slot die)).openTick (max 1 (c.fld .dspGlbTmo 12 [] 15 0)) = true)
include hd hp due

theorem setTimeout_due :
    c.setTimeout die win slot =
      let w := c.timedWin die win
      let d := c.discardSet (w.key slot die)
      if w.dies.any fun x => x != die && (d.slot (w.key slot x)).phase == 1 then d
      else (d.bump .dspSetTmo 12 [w.part]).raise Ev.setTimeout [w.part] := if_pos ⟨hp, hd, due⟩

end

theorem discardSet_regs (c : Chip) (key : Nat) : (c.discardSet key).ctl.regs = c.ctl.regs := (switched_release _ _).regs

/-- Settles O56: every clause is a case of what its row means; a segment's turn changes only the arbiters, so that its engine
takes at the turn what it offered to take before it. -/
theorem kernelRowsAct : Obligations.KernelRowsAct := by
  unfold Obligations.KernelRowsAct
  intro s id l hpart
  refine ⟨fun die silent => ?launch, fun c x image hl hp hi ready first free => ?image, fun hl => ⟨fun hr hs => ?outputs, fun hs => ?ends,
    fun hstill hrings hone hf hb he => ?given⟩, fun hstill hrings die win slot hdie => ?sets⟩
  case launch =>
    exact ⟨fun hw => settles_act rfl (kernelLaunch_idle _ _ hw),
      fun hw hi ready first free => settles_act rfl (kernelLaunch_one _ _ hw hi (canLaunch_of ready first free))⟩
  case image =>
    exact (launchImage_starts ready first hl hp hi free).trans
      (congrArg (fun d => (Chip.noteWaits d).advance) (startLaunch_eq c l x image))
  case outputs =>
    obtain rfl := launch_id s.chip hl
    intro n b k sent
    have next (hd : s.chip.outputDone l.id (l.sentBytes + n) = true) : s.chip.nextSeg l = some b := nextSeg_some s.chip l hr hs hd
    have waits (hw : s.chip.outputDone l.id (l.sentBytes + n) = false) : s.chip.outputSegment l.id = s.chip :=
      outputSegment_waits _ hl (nextSeg_waits _ _ hw)
    have feeds : s.chip.feeds l = k := rfl
    have sent_eq : sent = fun d op => d.segSent l b k op := rfl
    clear_value sent k b n
    subst feeds sent_eq
    refine ⟨fun hw => settles_act rfl (waits hw), fun hd => ?_⟩
    replace next := next hd
    have refused (h) := settles_act (s := s) (i := .outputSegment l.id) rfl (outputSegment_refused _ hl next h)
    refine ⟨fun ho e ht => ?dropped, fun i h0 ho hi p hp => ⟨fun hp0 full => ?full, fun room e ht => ?joined⟩,
      fun h0 ho hr hk owned long => ?first⟩
    case dropped =>
      exact settles_act rfl (outputSegment_taken _ hl next (offerSeg_dropped _ _ _ _ _ ho) ht (offerSeg_dropped _ _ _ _ _ ho))
    case full =>
      exact refused ((offerSeg_joined s.chip l _ _ b h0 ho hi hp).trans (if_pos (by rw [hp0]; exact decide_eq_true full)))
    case joined =>
      have passes : (decide (p.phase = 0) && s.chip.queueFull (s.chip.feeds l).1 (s.chip.feeds l).2) = false := by
        rcases room with h | h
        · rw [decide_eq_false h, Bool.false_and]
        · rw [show s.chip.queueFull (s.chip.feeds l).1 (s.chip.feeds l).2 = false from decide_eq_false (Nat.not_le.mpr h), Bool.and_false]
      exact settles_act rfl (outputSegment_joins _ hl next h0 ho hi hp passes ht)
    case first =>
      intro blk ok declared none_ op
      have opens : s.chip.OpensWith l (s.chip.feeds l).1 (s.chip.feeds l).2 b := ⟨h0, ho, hr, hk, owned, long, ok, declared, none_⟩
      have opened : s.chip.opened l (s.chip.feeds l).1 (s.chip.feeds l).2 b = op := rfl
      have part : op.part = l.part := rfl
      have engine : op.engine = (s.chip.feeds l).2 := rfl
      have kind : op.kind = (s.chip.feeds l).1 := rfl
      clear_value op
      rw [← part, ← engine, ← kind]
      refine ⟨fun accepts e ht => ⟨fun fits => settles_act rfl ?_, fun full => settles_act rfl ?_⟩, fun closed => refused ?_⟩
      · exact outputSegment_opens_staged _ hl next opens (kind ▸ engine ▸ accepts) ht opened fits
      · exact outputSegment_opens_waiting _ hl next opens (kind ▸ engine ▸ accepts) ht opened full
      · exact (offerSeg_first _ _ _ _ b opens).trans (if_neg (ne_true_of_eq_false (kind ▸ engine ▸ closed)))
  case ends =>
    obtain rfl := launch_id s.chip hl
    refine ⟨fun he => settles_act rfl (kernelRunEnd_running _ hl he), fun he => ⟨fun hp => ?complete, fun hp limit => ?failed⟩⟩
    case complete =>
      have done := kernelRunEnd_complete s.chip hl hs he hp
      exact ⟨fun h => settles_act rfl (finishRun_plain s.chip l h ▸ done), fun h => settles_act rfl (finishRun_selected s.chip l h ▸ done)⟩
    case failed =>
      exact settles_act rfl (rerun_again s.chip l limit ▸ kernelRunEnd_failed s.chip hl hs he hp)
  case given =>
    have rings := noRings_of _ _ hrings (droppedLaunch_regs s.chip l)
    have still := (quiet_droppedLaunch s.chip l).still hstill
    have part : ∀ p ∈ [l.part], p < 64 := List.forall_mem_singleton.mpr hpart
    exact ⟨fun hr ha => notesTo s _ _ _ (congrArg (act s) (watchdog_bound s.chip hl hf he hb hr ha)) (noted_raise _ _ _ _ _ _ part rings) still,
      fun _ ha => becomes s _ _ _ rfl (watchdog_early s.chip hl ha) (.rfl' _) hstill,
      fun t hp hw hk hd => notesTo s _ _ _ (congrArg (act s) (bowlTimeout_due s.chip hl hf he hb hp hw hk hd))
        (noted_raise _ _ _ _ _ _ part rings) still⟩
  case sets =>
    intro w sc hph hdue hpw d
    have row := setTimeout_due s.chip hdie hph hdue
    have quiet := quiet_discardSet s.chip ((s.chip.timedWin die win).key slot die)
    have rings := noRings_of _ _ hrings (discardSet_regs s.chip ((s.chip.timedWin die win).key slot die))
    refine ⟨fun other => becomes s _ _ _ rfl (row.trans (if_pos other)) quiet hstill,
      fun last => notesTo s _ _ _ (congrArg (act s) (row.trans (if_neg (ne_true_of_eq_false last)))) ?_ (quiet.still hstill)⟩
    exact (raised_bump _ _ _ _ _).noted.trans (noted_raise _ _ _ _ _ _ (List.forall_mem_singleton.mpr hpw) rings)

end Sys2Proof.Machine
end

section
/-! SUPPORT. What CMP_JOB answers or starts, and what JOB_END does with a job that has read nothing yet: one lemma for
each branch of the two meanings (R175, R177, R187, R188). -/

namespace Sys2Proof.Machine

section
variable {c : Chip} {die : Nat}

/-! ### CMP_JOB (R525) -/

section
variable {cmd : Nat × Nat} {ws : List Nat}

theorem cmpJob_malformed (h : 8 ≤ die ∨ ws.length ≠ 7) : c.cmpJob cmd die ws = .done c 4 0 [] := if_pos h

variable (hd : die < 8) (hl : ws.length = 7) (free : c.job? die = none)
include hd hl free

/-- With a die and words of the right form and no job on the die, only the compressor and the partition decide. -/
theorem cmpJob_free : c.cmpJob cmd die ws =
    if !c.cmpTakes die || !c.partTakes (bits (ws.getD 0 0) 29 24) then .done c 2 0 []
    else .run (c.startJob die ws (some cmd)) die := by
  have formed : ¬ (8 ≤ die ∨ ws.length ≠ 7) := by omega
  unfold Chip.cmpJob
  rw [if_neg formed, if_neg (by simp [free])]

theorem cmpJob_unavailable (h : c.cmpTakes die = false ∨ c.partTakes (bits (ws.getD 0 0) 29 24) = false) :
    c.cmpJob cmd die ws = .done c 2 0 [] :=
  (cmpJob_free hd hl free).trans (if_pos (by simpa using h))

theorem cmpJob_starts (takes : c.cmpTakes die = true) (active : c.partTakes (bits (ws.getD 0 0) 29 24) = true) :
    c.cmpJob cmd die ws = .run (c.startJob die ws (some cmd)) die :=
  (cmpJob_free hd hl free).trans (if_neg (by rw [takes, active]; decide))

end

/-- A job that starts leaves nothing over: its begin is a step of its own. -/
theorem quiet_startJob (c : Chip) (die : Nat) (ws : List Nat) (cmd : Option (Nat × Nat)) : Quiet c (c.startJob die ws cmd) :=
  quiet_of _ _ rfl rfl rfl rfl (fun h => h) fun h => h

/-! ### The begin of a job (R175, R177) -/

/-- The job of a die carries that die's number. -/
theorem job_die {j : CmpJob} (hj : c.job? die = some j) : j.die = die := by
  simpa using List.find?_some hj

variable {j : CmpJob} (hj : c.job? die = some j) (begins : j.phase = 0)
include hj begins

theorem jobEnd_begin : c.jobEnd die =
    if j.inLen = 0 then c.jobEncode j [] []
    else if (c.regionOf j.inHandle).isNone then c.endJob j 1
    else c.jobRead { j with phase := 1 } := by
  unfold Chip.jobEnd
  rw [hj]
  exact if_neg (not_not_intro begins)

theorem jobEnd_empty (empty : j.inLen = 0) : c.jobEnd die = c.jobEncode j [] [] :=
  (jobEnd_begin hj begins).trans (if_pos empty)

theorem jobEnd_noInput (nonempty : j.inLen ≠ 0) (gone : c.regionOf j.inHandle = none) : c.jobEnd die = c.endJob j 1 := by
  rw [jobEnd_begin hj begins, if_neg nonempty, if_pos (by rw [gone]; rfl)]

theorem jobEnd_reads (nonempty : j.inLen ≠ 0) {slot : Nat} (input : c.regionOf j.inHandle = some slot) :
    c.jobEnd die = c.jobRead { j with phase := 1 } := by
  rw [jobEnd_begin hj begins, if_neg nonempty, if_neg (by rw [input]; exact Bool.false_ne_true)]

end

/-- Settles O43: each branch of CMP_JOB answers or starts the job, and each branch of JOB_END for a job that has read
nothing yet encodes the empty image, fails for want of its region, or issues the read. -/
theorem compressorJobsRun : Obligations.CompressorJobsRun := by
  unfold Obligations.CompressorJobsRun
  intro s still die
  refine ⟨fun sess reqId x ws asks => ?command, fun j hj begins => ?begins⟩
  case command =>
    intro part
    have words : (ws.map fun w => w.toNat).length = ws.length := List.length_map _
    have answers {st : Nat} (hst : st ≠ 1)
        (h : s.chip.cmpJob (sess, reqId) die (ws.map fun w => w.toNat) = .done s.chip st 0 []) :
        CompletesWith s (.cmpJob sess reqId die ws) sess reqId 0x0601 st [] fun _ => s.chip :=
      command_completes s _ sess reqId 0x0601 _ _ x asks rfl s.chip st [] h still x asks.1 hst _ rfl
    exact ⟨fun malformed => answers (by decide) (cmpJob_malformed (by rwa [words])),
      fun hd hl free takes active => command_runs s _ sess reqId 0x0601 _ _ x asks rfl _ die
        (cmpJob_starts hd (words.trans hl) free takes active) ((quiet_startJob _ _ _ _).still still),
      fun hd hl free off => answers (by decide) (cmpJob_unavailable hd (words.trans hl) free off)⟩
  case begins =>
    refine ⟨fun slot input nonempty => settles_act rfl ?_, fun gone nonempty => settles_act rfl (jobEnd_noInput hj begins nonempty gone),
      fun empty => settles_act rfl (jobEnd_empty hj begins empty)⟩
    rw [jobEnd_reads hj begins nonempty input, ← job_die hj]
    rfl

end Sys2Proof.Machine
end

section
/-! SUPPORT. What the rows of DRAM and flash errors, failed stacks, the spare and the rebuild mean: one lemma for each case
of a row's meaning (chapter 6). -/

namespace Sys2Proof.Machine

section
variable (c : Chip)

/-! ### DRAM read errors (R213) -/

section
variable (pool n : Nat) (ricer otherBad : Bool) (flash : List FlashErr)

/-- The other copy of a writable granule (R203). -/
def otherGranule (g : Nat) : Nat := if g % 2 = 0 then g + 1 else g - 1

section
variable (hp : pool < 0xF000000000) (hup : c.lsUp (pool / 256 % 15) = true) (hn : c.physOf (pool / 256 % 15) = some n)
include hp hup hn

theorem dramReadError_corrected :
    c.dramReadError pool true ricer otherBad flash = (c.flashErrors flash).bumpStack .memCe n := by
  have up : (c.flashErrors flash).lsUp (pool / 256 % 15) = true := hup
  have phys : (c.flashErrors flash).physOf (pool / 256 % 15) = some n := hn
  unfold Chip.dramReadError
  dsimp only
  rw [phys, up, decide_eq_false (Nat.not_le.mpr hp)]
  rfl

/-- An uncorrectable read takes effect on the line's owner and is counted. -/
theorem dramReadError_uncorrectable :
    c.dramReadError pool false ricer otherBad flash =
      (match (c.flashErrors flash).lineOwner (pool / 128) with
        | none => c.flashErrors flash
        | some (id, o) => (c.flashErrors flash).granuleError (pool / 256) id o ricer otherBad).countUe n := by
  have up : (c.flashErrors flash).lsUp (pool / 256 % 15) = true := hup
  have phys : (c.flashErrors flash).physOf (pool / 256 % 15) = some n := hn
  unfold Chip.dramReadError
  dsimp only
  rw [phys, up, decide_eq_false (Nat.not_le.mpr hp)]
  rfl

theorem dramReadError_unowned (ho : (c.flashErrors flash).lineOwner (pool / 128) = none) :
    c.dramReadError pool false ricer otherBad flash = (c.flashErrors flash).countUe n := by
  rw [dramReadError_uncorrectable c pool n ricer otherBad flash hp hup hn, ho]

theorem dramReadError_owned {id off : Nat} (ho : (c.flashErrors flash).lineOwner (pool / 128) = some (id, off)) :
    c.dramReadError pool false ricer otherBad flash =
      ((c.flashErrors flash).granuleError (pool / 256) id off ricer otherBad).countUe n := by
  rw [dramReadError_uncorrectable c pool n ricer otherBad flash hp hup hn, ho]

end

variable (g id off : Nat)

theorem granuleError_good (hw : (c.obj id).writable = true) (hg : c.copyGood (otherGranule g * 256) = true)
    (hn : c.physOf (g % 15) = some n) :
    c.granuleError g id off ricer false =
      ((c.wrPool (g * 256) (c.rdPool (otherGranule g * 256) 256)).bumpStack .memRepair n).bumpStack .memOtherCopy n := by
  unfold otherGranule at hg ⊢
  unfold Chip.granuleError Chip.repairCopy
  dsimp only
  rw [if_pos hw, hg, hn]
  rfl

theorem granuleError_lost (hw : (c.obj id).writable = true) (hg : c.copyGood (otherGranule g * 256) = false) :
    c.granuleError g id off ricer otherBad = c.setBad (g - g % 2) := by
  unfold otherGranule at hg
  unfold Chip.granuleError Chip.repairCopy
  dsimp only
  rw [if_pos hw, hg, Bool.and_false, Bool.and_false, if_neg Bool.false_ne_true, if_neg Bool.false_ne_true]

theorem granuleError_ricer (hw : (c.obj id).writable = false) (hr : (ricer && (c.obj id).compressed) = true) :
    c.granuleError g id off ricer otherBad = c.setBad g :=
  (if_neg (ne_true_of_eq_false hw)).trans (if_pos hr)

theorem granuleError_readOnly (hw : (c.obj id).writable = false) (hr : (ricer && (c.obj id).compressed) = false) :
    c.granuleError g id off ricer otherBad = c.refetchGranule id off g :=
  (if_neg (ne_true_of_eq_false hw)).trans (if_neg (ne_true_of_eq_false hr))

end

/-! ### Failed stacks (R215, R216, R549) -/

section
variable (n cause : Nat)

/-- In BRINGUP, 14 or fewer stacks left end the boot (R503). -/
def Chip.fewStacks : Chip :=
  let live := (List.range 16).filter fun k => (c.dstack k).st == 1 || (c.dstack k).st == 2
  if c.boot.state = .bringup ∧ live.length ≤ 14 then c.bootDead 3 else c

theorem fewStacks_later (h : c.boot.state ≠ .bringup) : c.fewStacks = c := if_neg fun g => h g.1

/-- The stack is FAILED by its cause. -/
def Chip.stackOut : Chip := c.setStack n { c.dstack n with st := 3, cause := cause }

/-- The logical stack that a failed stack served. -/
def Chip.servedBy : Nat := ((c.stackOut n cause).lsOf n).getD (c.dstack n).logical

/-- A stack in use has failed: its event, and the objects lost with it. -/
def Chip.stackLost : Chip := ((c.stackOut n cause).raise Ev.stackFailed (c.stackOut n cause).extentParts).loseObjects

/-- The spare has failed: an event, and the machine is degraded (R216). -/
def Chip.spareLost : Chip :=
  let d := c.stackOut n cause
  (({ d with mem := { d.mem with spare := none, rebuild := if d.mem.rebuild = 3 then 0 else d.mem.rebuild } } : Chip).raise
    Ev.stackFailed []).degrade

theorem spareLost_eq (hr : c.mem.rebuild ≠ 3) :
    c.spareLost n cause = ((c.spareFailed n cause).raise Ev.stackFailed []).degrade := by
  have kept : (if c.mem.rebuild = 3 then 0 else c.mem.rebuild) = c.mem.rebuild := if_neg hr
  change (Chip.raise { c.stackOut n cause with mem := { (c.stackOut n cause).mem with
    spare := none, rebuild := if c.mem.rebuild = 3 then 0 else c.mem.rebuild } } _ _).degrade = _
  rw [kept]
  rfl

/-- The rebuild onto the stack that failed starts again, the lower of two stacks that fail at once takes the spare, the
spare is taken, or there is none (R216, R223). -/
def Chip.afterLoss (again : Bool) (ls n : Nat) : Chip :=
  if again then ({ c with mem := { c.mem with rebuild := 0 } } : Chip).wakeCursor.degrade
  else if c.mem.rebuild = 3 ∧ c.mem.failTick = c.tick ∧ n < (c.physOf c.mem.rebuildLs).getD 0 then
    ({ c with mem := { c.mem with rebuildLs := ls } } : Chip).degrade
  else if c.mem.spare.isSome ∧ c.mem.rebuild = 0 then
    { c with mem := { c.mem with rebuild := 3, rebuildLs := ls, failTick := c.tick, unloaded := [], reloaded := [] } }
  else c.degrade

theorem failStack_live (h : (c.dstack n).st = 1 ∨ (c.dstack n).st = 2) :
    c.failStack n cause =
      (if (c.dstack n).st = 2 then c.spareLost n cause
        else (c.stackLost n cause).afterLoss ((c.stackOut n cause).inPass1 (c.servedBy n cause) ||
          (c.mem.rebuild == 2 && c.mem.rebuildLs == c.servedBy n cause)) (c.servedBy n cause) n).fewStacks :=
  if_neg (by omega)

theorem failStack_spare (hst : (c.dstack n).st = 2) (hr : c.mem.rebuild ≠ 3) :
    c.failStack n cause = (((c.spareFailed n cause).raise Ev.stackFailed []).degrade).fewStacks := by
  rw [failStack_live _ _ _ (.inr hst), if_pos hst, spareLost_eq _ _ _ hr]

theorem failStack_inUse (hst : (c.dstack n).st = 1) :
    c.failStack n cause = ((c.stackLost n cause).afterLoss ((c.stackOut n cause).inPass1 (c.servedBy n cause) ||
      (c.mem.rebuild == 2 && c.mem.rebuildLs == c.servedBy n cause)) (c.servedBy n cause) n).fewStacks := by
  rw [failStack_live _ _ _ (.inl hst), if_neg (by omega)]

theorem afterLoss_again (ls : Nat) :
    c.afterLoss true ls n = ({ c with mem := { c.mem with rebuild := 0 } } : Chip).wakeCursor.degrade := if_pos rfl

section
variable (ls : Nat) (hr : c.mem.rebuild = 0)
include hr

theorem afterLoss_spare (hs : c.mem.spare.isSome = true) :
    c.afterLoss false ls n = { c with mem := { c.mem with
      rebuild := 3, rebuildLs := ls, failTick := c.tick, unloaded := [], reloaded := [] } } := by
  unfold Chip.afterLoss
  rw [if_neg Bool.false_ne_true, if_neg (by rw [hr]; rintro ⟨h, -⟩; cases h), if_pos ⟨hs, hr⟩]

theorem afterLoss_noSpare (hs : c.mem.spare = none) : c.afterLoss false ls n = c.degrade := by
  unfold Chip.afterLoss
  rw [if_neg Bool.false_ne_true, if_neg (by rw [hr]; rintro ⟨h, -⟩; cases h), if_neg (by rw [hs]; rintro ⟨h, -⟩; cases h)]

end

theorem stackFailed_eq (h : n < 16) : c.stackFailed n cause = c.failStack n cause := if_pos h

/-- A channel's retraining is counted, and its failures in a row (R215). -/
def Chip.retrained (ch k : Nat) : Chip :=
  (c.setStack n { c.dstack n with chFails := ksetD (c.dstack n).chFails ch 0 k }).bumpStack .memRetrain n

theorem channelRetrain_live {ch : Nat} (ok : Bool) (hn : n < 16) (hc : ch < 32) (hst : (c.dstack n).st = 1 ∨ (c.dstack n).st = 2) :
    c.channelRetrain n ch ok =
      let k := if ok then 0 else kgetD (c.dstack n).chFails ch 0 + 1
      if 3 ≤ k then (c.retrained n ch k).failStack n 2 else c.retrained n ch k :=
  if_neg (by omega)

end

/-! ### The spare and the rebuild (R217) -/

theorem spareInduction_held (h : c.rebuildAuto = false) : c.spareInduction = c := by
  unfold Chip.spareInduction
  split
  · rfl
  · exact if_neg fun g => ne_true_of_eq_false h g.2

theorem spareInduction_due {n : Nat} (hs : c.mem.spare = some n) (hr : c.mem.rebuild = 3) (ha : c.rebuildAuto = true) :
    c.spareInduction =
      let e := c.setReg .memStackMap 12 [c.mem.rebuildLs] (2 ^ 31 + n)
      let f := e.setStack n { e.dstack n with st := 1, logical := c.mem.rebuildLs }
      ({ f with mem := { f.mem with
        spare := none, rebuild := 1, cursor := f.nextWritable c.mem.rebuildLs 0, mirrorRoom := 0 } } : Chip).raise Ev.spareInducted [] := by
  unfold Chip.spareInduction
  rw [hs]
  exact if_pos ⟨hr, ha⟩

theorem pass1End_held (h : c.rebuildAuto = false) : c.pass1End = c := if_neg fun g => ne_true_of_eq_false h g.2

theorem pass1End_due (hr : c.mem.rebuild = 1) (ha : c.rebuildAuto = true) :
    c.pass1End =
      let d := c.copyGranules ((c.mem.mirrorRoom + c.mirrorTick) / 256)
      if d.mem.cursor < 2 ^ 28 then c
      else ({ d with mem := { d.mem with rebuild := 2, reloadRoom := 0 } } : Chip).wakeCursor :=
  if_pos ⟨hr, ha⟩

theorem rebuildDone_held (h : c.rebuildAuto = false) : c.rebuildDone = c := if_neg fun g => ne_true_of_eq_false h g.2.1

theorem rebuildDone_early (h : c.mem.reloadRoom + c.reloadTick < c.pass2Left.length * 65536) : c.rebuildDone = c :=
  if_neg fun g => Nat.not_le.mpr h g.2.2

theorem rebuildDone_due (hr : c.mem.rebuild = 2) (ha : c.rebuildAuto = true)
    (h : c.pass2Left.length * 65536 ≤ c.mem.reloadRoom + c.reloadTick) :
    c.rebuildDone =
      let d := c.reloadChunks c.pass2Left.length
      ({ d with mem := { d.mem with rebuild := 0, reloaded := [] } } : Chip).raise Ev.rebuildDone [] :=
  if_pos ⟨hr, ha, h⟩

/-! ### Flash stacks (R214) -/

section
variable (n : Nat)

theorem flashFailed_live (hn : n < 8) (h : kgetD c.mem.fstack n 0 = 1) :
    c.flashFailed n =
      ((({ c with mem := { c.mem with fstack := kput c.mem.fstack n 3 } } : Chip).raise Ev.flashFailed []).degrade) :=
  if_pos ⟨hn, h⟩

theorem flashFailed_other (h : kgetD c.mem.fstack n 0 ≠ 1) : c.flashFailed n = c := if_neg fun g => h g.2

end

end

/-- Settles O58: each row by the case of its meaning that the clause describes; outside BRINGUP the number of stacks left
decides nothing. -/
theorem memoryTiersAct : Obligations.MemoryTiersAct := by
  unfold Obligations.MemoryTiersAct
  intro s
  dsimp only
  refine ⟨?reads, ?failures, ?channels, ?induction, ?held, ?pass1, ?pass2, ?flash⟩
  case reads =>
    intro pool n ricer otherBad flash hp hup hn
    refine ⟨settles_act rfl (dramReadError_corrected s.chip pool n ricer otherBad flash hp hup hn),
      fun ho => settles_act rfl (dramReadError_unowned s.chip pool n ricer otherBad flash hp hup hn ho), fun id off ho => ?_⟩
    have owned := dramReadError_owned s.chip pool n ricer otherBad flash hp hup hn ho
    refine ⟨fun hw hb hg => ?good, fun hw hg => ?lost, fun hw hr => ?ricer, fun hw hr => ?readOnly⟩
    case good =>
      subst hb
      exact settles_act rfl (owned.trans (congrArg (Chip.countUe · n) (granuleError_good _ n ricer _ _ _ hw hg hn)))
    case lost => exact settles_act rfl (owned.trans (congrArg (Chip.countUe · n) (granuleError_lost _ _ _ _ _ _ hw hg)))
    case ricer => exact settles_act rfl (owned.trans (congrArg (Chip.countUe · n) (granuleError_ricer _ _ _ _ _ _ hw hr)))
    case readOnly => exact settles_act rfl (owned.trans (congrArg (Chip.countUe · n) (granuleError_readOnly _ _ _ _ _ _ hw hr)))
  case failures =>
    intro n cause hn
    have row {d : Chip} (h : s.chip.failStack n cause = d) : Settles s (.stackFailed n cause) d :=
      settles_act rfl ((stackFailed_eq _ _ _ hn).trans h)
    refine ⟨fun h1 h2 => row (failStack_other _ _ _ ⟨h1, h2⟩), fun hst hr hb => ?spare, fun hst => ⟨fun hp hb => ?again, fun hp h0 hf hb => ?loss⟩⟩
    case spare => exact row ((failStack_spare _ _ _ hst hr).trans (fewStacks_later _ hb))
    case again =>
      refine row ((failStack_inUse _ _ _ hst).trans ?_)
      have again : (s.chip.stackOut n cause).inPass1 (s.chip.servedBy n cause) = true := hp
      rw [again, Bool.true_or, afterLoss_again]
      exact fewStacks_later _ hb
    case loss =>
      have whole := failStack_inUse s.chip n cause hst
      have first : (s.chip.stackOut n cause).inPass1 (s.chip.servedBy n cause) = false := hp
      rw [first, h0] at whole
      exact ⟨fun hs => row (whole.trans ((congrArg Chip.fewStacks (afterLoss_spare _ _ _ hf hs)).trans (fewStacks_later _ hb))),
        fun hs hd => row (whole.trans ((congrArg Chip.fewStacks (afterLoss_noSpare _ _ _ hf hs)).trans (fewStacks_later _ hd)))⟩
  case channels =>
    intro n ch ok hn hc hst
    have live := channelRetrain_live s.chip n ok hn hc hst
    exact ⟨fun hk => settles_act rfl (live.trans (if_neg (Nat.not_le.mpr hk))), fun hk => settles_act rfl (live.trans (if_pos hk))⟩
  case induction => exact fun n hs hr ha => settles_act rfl (spareInduction_due _ hs hr ha)
  case held =>
    exact fun h => ⟨settles_act rfl (spareInduction_held _ h), settles_act rfl (pass1End_held _ h), settles_act rfl (rebuildDone_held _ h)⟩
  case pass1 =>
    intro hr ha
    have due := pass1End_due _ hr ha
    exact ⟨fun hd => settles_act rfl (due.trans (if_pos hd)), fun hd => settles_act rfl (due.trans (if_neg (Nat.not_lt.mpr hd)))⟩
  case pass2 =>
    intro hr ha
    exact ⟨fun h => settles_act rfl (rebuildDone_early _ h), fun h => settles_act rfl (rebuildDone_due _ hr ha h)⟩
  case flash =>
    intro n hn
    exact ⟨fun h => settles_act rfl (flashFailed_live _ _ hn h), fun h => settles_act rfl (flashFailed_other _ _ h)⟩

end Sys2Proof.Machine
end

section
/-! SUPPORT. Commands that complete in their own step, and what the commands on bundles answer: one lemma for each branch
of a command's meaning (R194, R526). -/

namespace Sys2Proof.Machine

/-! ### Commands that complete at once -/

section
variable {s : State} {i : Instr} {sess reqId opc : Nat} {want : Bytes} {f : Chip → Session → CmdRes} {x : Session}
  (asks : s.chip.Asks sess reqId opc x) (hi : exec i s = act s (s.chip.command sess reqId opc want f)) (still : s.chip.Still)
include asks hi still

/-- A command with the effect `c`, which leaves nothing over and keeps the session, and with `g` but for counters. -/
theorem command_effects {c g : Chip} {st : Nat} {b : Bytes} (hf : f s.chip x = .done c st 0 b) (hst : st ≠ 1) (q : Quiet s.chip c)
    (hx : c.session? sess = s.chip.session? sess) (hg : ∀ d, g.answering d = c.answering d) :
    CompletesWith s i sess reqId opc st b fun _ => g :=
  command_completes s i sess reqId opc want f x asks hi c st b hf (q.still still) x (hx.trans asks.1) hst _ (hg _)

/-- A command that only answers. -/
theorem command_answers {st : Nat} {b : Bytes} (hf : f s.chip x = .done s.chip st 0 b) (hst : st ≠ 1) :
    CompletesWith s i sess reqId opc st b fun _ => s.chip :=
  command_effects asks hi still hf hst (.rfl' _) rfl fun _ => rfl

/-- A command whose effect is on cores' stores, memory and counters. -/
theorem command_works {c : Chip} {st : Nat} {b : Bytes} (hf : f s.chip x = .done c st 0 b) (hst : st ≠ 1) (w : Worked s.chip c) :
    CompletesWith s i sess reqId opc st b fun _ => c :=
  command_effects asks hi still hf hst w.quiet (w.session _) fun _ => rfl

end

/-! ### Commands on bundles -/

section
variable {c : Chip} {n : Nat}

theorem bundleOpen_malformed (stage : Nat) (h : n = 0) : c.bundleOpen n stage = .done c 4 0 [] := if_pos h

theorem bundleOpen_new {stage : Nat} (hn : n ≠ 0) (hs : objIdOk stage = true) (hst : (c.obj stage).st = 4)
    (hw : (c.obj stage).writable = true) (hb : c.bundle? n = none) (hroom : (c.mem.bundles.filter fun e => e.2.isOpen).length < 4) :
    c.bundleOpen n stage = .done (c.setBundle { num := n, stage := stage, isOpen := true }) 0 0 [] := by
  unfold Chip.bundleOpen
  dsimp only
  rw [if_neg hn, if_neg (by simp [hs, hst]), if_neg (by simp [hst, hw, hb]), if_neg (Nat.not_le.mpr hroom)]

section
variable (h : c.bundle? n = none)
include h

theorem openBundle_unknown : c.openBundle n = .error 5 := by
  unfold Chip.openBundle
  rw [h]

theorem bundleMeta_unknown (off : Nat) (b : Bytes) : c.bundleMeta n off b = .done c 5 0 [] := by
  unfold Chip.bundleMeta
  rw [openBundle_unknown h]

theorem bundleData_unknown (chunk off16 len16 : Nat) (b : Bytes) : c.bundleData n chunk off16 len16 b = .done c 5 0 [] := by
  unfold Chip.bundleData
  rw [openBundle_unknown h]

theorem bundleClose_unknown : c.bundleClose n = .done c 5 0 [] := by
  unfold Chip.bundleClose
  rw [openBundle_unknown h]

theorem bundleDelete_unknown : c.bundleDelete n = .done c 5 0 [] := by
  unfold Chip.bundleDelete
  rw [h]

end

section
variable {y : Bundle} (h : c.bundle? n = some y)
include h

/-- Only an object that is registered from the bundle keeps it (R205). -/
theorem bundleDelete_known :
    c.bundleDelete n =
      if c.mem.objs.any (fun e => e.2.st != 0 && !e.2.writable && e.2.bundle == n) then .done c 2 0 []
      else .done { c with mem := { c.mem with bundles := kdel c.mem.bundles n } } 0 0 [] := by
  unfold Chip.bundleDelete
  rw [h]

variable (ho : y.isOpen = true)
include ho

theorem openBundle_open : c.openBundle n = .ok y := by
  unfold Chip.openBundle
  rw [h]
  exact if_pos ho

section
variable {off : Nat} {b : Bytes} (hc : y.checked = false) (h1 : 1 ≤ (c.obj y.stage).st) (h4 : (c.obj y.stage).st ≤ 4)
include hc h1 h4

/-- Before its check, the bytes of an open bundle's metadata go to its staging object. -/
theorem bundleMeta_open :
    c.bundleMeta n off b =
      if (c.obj y.stage).size < off + b.length then .done c 4 0 []
      else if c.enabled 7 12 = false ∨ (List.range (b.length / 256 + 2)).any (fun i => c.atCursor y.stage ((off / 256 + i) * 256)) then
        .done c 1 0 []
      else .done (c.writeObj y.stage off b) 0 0 [] := by
  unfold Chip.bundleMeta
  rw [openBundle_open h ho]
  dsimp only
  rw [if_neg (by simpa [hc] using Nat.one_le_iff_ne_zero.mp h1), if_neg (by omega)]

theorem bundleMeta_writes (hlen : off + b.length ≤ (c.obj y.stage).size) (he : c.enabled 7 12 = true)
    (hcur : ((List.range (b.length / 256 + 2)).any fun i => c.atCursor y.stage ((off / 256 + i) * 256)) = false) :
    c.bundleMeta n off b = .done (c.writeObj y.stage off b) 0 0 [] := by
  rw [bundleMeta_open h ho hc h1 h4, if_neg (Nat.not_lt.mpr hlen), if_neg (by rw [he, hcur]; decide)]

theorem bundleMeta_beyond (hlen : (c.obj y.stage).size < off + b.length) : c.bundleMeta n off b = .done c 4 0 [] :=
  (bundleMeta_open h ho hc h1 h4).trans (if_pos hlen)

end

variable (hc : y.checked = true)
include hc

section
variable {chunk off16 len16 : Nat} {b : Bytes}

theorem bundleData_malformed (hm : y.chunks ≤ chunk ∨ len16 = 0 ∨ 512 < len16 ∨ 4096 < off16 + len16 ∨ b.length ≠ 16 * len16) :
    c.bundleData n chunk off16 len16 b = .done c 4 0 [] := by
  unfold Chip.bundleData
  rw [openBundle_open h ho]
  dsimp only
  rw [hc, if_neg (by decide), if_pos hm]

theorem bundleData_writes {f : Nat} (hm : ¬ (y.chunks ≤ chunk ∨ len16 = 0 ∨ 512 < len16 ∨ 4096 < off16 + len16 ∨ b.length ≠ 16 * len16))
    (hf : y.stackOf (y.dataOff + 65536 * chunk) = some f) (hup : c.flashUp f = true) :
    c.bundleData n chunk off16 len16 b = .done ((c.setBundle { y with
      data := b.zipIdx.foldl (fun m e => kput m (chunk * 65536 + 16 * off16 + e.2) e.1) y.data }).bump .flsWriteBytes f [] b.length) 0 0 [] := by
  unfold Chip.bundleData
  rw [openBundle_open h ho]
  dsimp only
  rw [hc, if_neg (by decide), if_neg hm, hf]
  dsimp only
  rw [hup, if_neg (by decide)]

end

/-- After its check, an open bundle closes when no chunk misses and its metadata can be written. -/
theorem bundleClose_open :
    c.bundleClose n =
      if y.missing = 0 ∧ c.metaUp y = false then .done c 10 0 []
      else .done (if y.missing = 0 then c.setBundle { y with complete := true, isOpen := false } else c) 0 0 (natLE 4 y.missing) := by
  unfold Chip.bundleClose
  rw [openBundle_open h ho]
  dsimp only
  rw [hc, if_neg (by decide)]

end

end

/-- Settles O38: each command completes in its own step, by the branch of its meaning that the clause describes. -/
theorem bundleTransfersComplete : Obligations.BundleTransfersComplete := by
  unfold Obligations.BundleTransfersComplete
  intro s sess reqId x still n
  refine ⟨fun asks stage => ⟨fun h => ?malformed, fun hn hs hst hw hb hr => ?opens⟩, fun h => ?unknown, fun y h => ⟨fun asks => ?delete, fun ho => ?open_⟩⟩
  case malformed => exact command_answers asks rfl still (bundleOpen_malformed stage h) (by decide)
  case opens => exact command_works asks rfl still (bundleOpen_new hn hs hst hw hb hr) (by decide) (worked_mem _ _)
  case unknown =>
    exact ⟨fun asks off b => command_answers asks rfl still (bundleMeta_unknown h off b) (by decide),
      fun asks chunk off16 len16 b => command_answers asks rfl still (bundleData_unknown h chunk off16 len16 b) (by decide),
      fun asks => command_answers asks rfl still (bundleClose_unknown h) (by decide),
      fun asks => command_answers asks rfl still (bundleDelete_unknown h) (by decide)⟩
  case delete =>
    have known := bundleDelete_known h
    exact ⟨fun free => command_works asks rfl still (known.trans (if_neg (ne_true_of_eq_false free))) (by decide) (worked_mem _ _),
      fun used => command_answers asks rfl still (known.trans (if_pos used)) (by decide)⟩
  case open_ =>
    refine ⟨fun asks off b hc h1 h4 => ?meta_, fun asks chunk off16 len16 b hc => ?data, fun asks hc hm hd => ?down, fun asks hc hm => ?close⟩
    case meta_ =>
      exact ⟨fun hlen he hcur => command_works asks rfl still (bundleMeta_writes h ho hc h1 h4 hlen he hcur) (by decide) (worked_writeObj _ _ _ _),
        fun hlen => command_answers asks rfl still (bundleMeta_beyond h ho hc h1 h4 hlen) (by decide)⟩
    case data =>
      refine ⟨fun f h1 h2 h3 h4 h5 hf hup => ?writes, fun hm => command_answers asks rfl still (bundleData_malformed h ho hc hm) (by decide)⟩
      exact command_effects asks rfl still (bundleData_writes h ho hc (by omega) hf hup) (by decide)
        ((worked_mem _ _).trans (worked_bump _ _ _ _ _)).quiet rfl fun _ => rfl
    case down =>
      exact command_answers asks rfl still ((bundleClose_open h ho hc).trans (if_pos ⟨hm, hd⟩)) (by decide)
    case close =>
      have closes : s.chip.bundleClose n = .done (if y.missing = 0 then s.chip.setBundle { y with complete := true, isOpen := false } else s.chip)
          0 0 (natLE 4 y.missing) := by
        refine (bundleClose_open h ho hc).trans (if_neg ?_)
        rintro ⟨h0, hd⟩
        rcases hm with hm | hm
        · exact hm h0
        · rw [hm] at hd
          cases hd
      refine command_works asks rfl still closes (by decide) ?_
      split
      · exact worked_mem _ _
      · exact .rfl' _

end Sys2Proof.Machine
end

section
/-! SUPPORT. Placement commands: what each answers or starts (R201, R202, R205, R412), how it enters the order of its
partition's commands (R206), and what the rounds of that order make of the commands that have started. -/

namespace Sys2Proof.Machine

/-! ### Entries of the object table -/

theorem kdel_kput {α : Type} (m : KMap α) (k : Nat) (v : α) : kdel (kput m k v) k = kdel m k := by
  induction m with
  | nil => simp [kput, kdel]
  | cons e t ih =>
    obtain ⟨a, b⟩ := e
    unfold kput
    split
    · simp [kdel]
    · split
      · next h => subst h; simp [kdel]
      · next h => simp [kdel, ih]

/-- The second of two stores under one key is what stays, where the first stored something. -/
theorem ksetD_ksetD {α : Type} [DecidableEq α] (m : KMap α) (k : Nat) (d v w : α) (h : v ≠ d) :
    ksetD (ksetD m k d v) k d w = ksetD m k d w := by
  have first : ksetD m k d v = kput m k v := if_neg h
  rw [first]
  unfold ksetD
  rw [kdel_kput, kput_kput]

theorem obj_setObj (c : Chip) (id : Nat) (o : Obj) : (c.setObj id o).obj id = o := kgetD_ksetD_self _ _ _ _

theorem obj_nonempty {o : Obj} (h : o.st ≠ 0) : o ≠ {} := fun e => h (congrArg Obj.st e)

theorem setObj_setObj (c : Chip) (id : Nat) (o p : Obj) (h : o.st ≠ 0) : (c.setObj id o).setObj id p = c.setObj id p := by
  unfold Chip.setObj
  dsimp only
  rw [ksetD_ksetD _ _ _ _ _ (obj_nonempty h)]

/-! ### The order of placement commands (R206) -/

theorem startPlaces_started (c : Chip) (l : List PlaceCmd) (h : ∀ p ∈ l, p.started = true) :
    l.foldl (fun c p => c.startPlace p) c = c := by
  induction l with
  | nil => rfl
  | cons p t ih =>
    have kept : c.startPlace p = c := by
      unfold Chip.startPlace
      rw [h p List.mem_cons_self, Bool.true_or]
      rfl
    rw [List.foldl_cons, kept]
    exact ih fun q hq => h q (List.mem_cons_of_mem _ hq)

/-- Where the commands that a round leaves have all started, it has only tried to end those under way. -/
theorem placeRound_started {c d : Chip} (hd : c.mgt.place.foldl (fun c p => c.tryPlace p) c = d)
    (h : ∀ p ∈ d.mgt.place, p.started = true) : c.placeRound = d := by
  unfold Chip.placeRound
  dsimp only
  rw [hd]
  exact startPlaces_started d _ h

/-- Rounds after one that changes nothing more change nothing. -/
theorem placeRounds_fixed {c d : Chip} (n : Nat) (h : c.placeRound = d) (hd : d.placeRound = d) :
    (List.range (n + 1)).foldl (fun c _ => c.placeRound) c = d := by
  induction n with
  | zero => exact h
  | succ n ih =>
    rw [List.range_succ, List.foldl_append, ih]
    exact hd

/-- With nothing left over besides the order of commands, a step deals with that order alone. -/
theorem settle_places {c d : Chip} {ps qs : List PlaceCmd} (h : c.StillWith ps) (hr : c.placeRound = d) (hd : d.placeRound = d)
    (g : d.StillWith qs) : c.settle = d := by
  obtain ⟨-, hq, -, -, hcuts, hadm, hover, -, -⟩ := h
  obtain ⟨-, gq, gheld, -, -, -, -, gwaits, gcredit⟩ := g
  have place : c.settlePlacement = d := by
    unfold Chip.settlePlacement
    dsimp only
    rw [c.settleFills_nil hover, placeRounds_fixed _ hr hd]
    exact d.cmpRelease_nil gheld
  rw [Chip.settle, c.cutAll_nil hcuts, c.settleN_nil _ hq, c.admitQueries_nil hadm, c.settleN_nil _ hq, place,
    d.settleChecks_nil gwaits, d.settleCredit_nil gcredit, d.settleN_nil _ gq]

theorem Chip.Still.stillWith {c : Chip} (h : c.Still) (ps : List PlaceCmd) : (c.setPlace ps).StillWith ps := by
  obtain ⟨hq, hheld, -, hrest⟩ := h
  exact ⟨rfl, hq, hheld, rfl, hrest⟩

theorem Chip.StillWith.still {c : Chip} {ps : List PlaceCmd} (h : c.StillWith ps) : (c.setPlace []).Still := h.2

/-! ### A command in the order -/

section
variable {c : Chip} {x : Session} {p : PlaceCmd}

/-- The command as the order holds it: with its session, and the partition that it concerns. -/
def Chip.placeOf (c : Chip) (x : Session) (p : PlaceCmd) : PlaceCmd :=
  { p with sess := x.id, kind := x.kind, sessPart := x.part, part := c.placePart p }

/-- The command as the order holds it once it has started. -/
def Chip.startedAs (c : Chip) (x : Session) (p : PlaceCmd) : PlaceCmd := { c.placeOf x p with started := true }

/-- The session of a command in the order, as far as its command asks for it. -/
def PlaceCmd.asker (p : PlaceCmd) : Session := { id := p.sess, kind := p.kind, part := p.sessPart }

section
variable (x : Session) (p : PlaceCmd) (hp : c.mgt.place = [])
include hp

theorem place_eq :
    c.place x p =
      match c.placeRun (c.placeOf x p) with
      | .run d arg => .run (d.setPlace (d.mgt.place ++ [c.startedAs x p])) arg
      | r => r := by
  unfold Chip.place
  dsimp only
  rw [hp, List.any_nil, Bool.and_false, if_neg Bool.false_ne_true]
  rfl

/-- With no command in the order, one that completes at once does so. -/
theorem place_done {d : Chip} {st dt : Nat} {b : Bytes} (h : c.placeRun (c.placeOf x p) = .done d st dt b) :
    c.place x p = .done d st dt b := by
  rw [place_eq x p hp, h]

/-- With no command in the order, one that goes on is the first in it. -/
theorem place_run {d : Chip} {arg : Nat} (h : c.placeRun (c.placeOf x p) = .run d arg) :
    c.place x p = .run (d.setPlace (d.mgt.place ++ [c.startedAs x p])) arg := by
  rw [place_eq x p hp, h]

end

/-! ### What each command answers or starts -/

section
variable {id : Nat}

theorem objRefusal_unknown (h : objIdOk id = false) : c.objRefusal x id = some 5 := if_pos (.inl (by rw [h]; decide))

theorem objLoad_unknown (reqId : Nat) (h : objIdOk id = false) : c.objLoad x reqId id = .done c 5 0 [] := by
  unfold Chip.objLoad
  rw [objRefusal_unknown h]

theorem mayTouch_owner (hx : x.kind = 0) (part : Nat) : x.mayTouch part = true := by
  unfold Session.mayTouch
  rw [hx]
  rfl

/-- The owner's command on an object of a partition that takes commands is not refused. -/
theorem objRefusal_none (hid : objIdOk id = true) (hst : (c.obj id).st ≠ 0) (hx : x.kind = 0) (he : c.enabled 7 12 = true)
    (hp : c.partTakes (c.obj id).part = true) : c.objRefusal x id = none := by
  unfold Chip.objRefusal
  dsimp only
  rw [if_neg (by simp [hid, hst]), if_neg (by simp [mayTouch_owner hx]), if_neg (by simp [he, hp])]

/-- A pinned object of zeros, as yet without its extent. -/
def newPinned (part kind size : Nat) : Obj := { st := 4, kind := kind, part := part, writable := true, size := size }

/-- The extent of a new pinned object depends on the room alone. -/
theorem allocExtent_pinned (c : Chip) (id part kind size x : Nat) :
    (c.setObj id (newPinned part kind size)).allocExtent id x =
      ((c.setObj id (newPinned part kind size)).findRows (rowsFor x (c.colours part).length)).map fun r =>
        c.setObj id { newPinned part kind size with base := r * rowBytes, row := r, rows := rowsFor x (c.colours part).length } := by
  unfold Chip.allocExtent
  rw [obj_setObj]
  refine congrArg (Option.map · _) (funext fun r => ?_)
  exact setObj_setObj _ _ _ _ (by decide : (4 : Nat) ≠ 0)

section
variable {part : Nat} (hid : objIdOk id = true) (he : c.enabled 7 12 = true) (hfree : (c.obj id).st = 0) (hpart : part < 64)
  (hp : c.partTakes part = true)
include hid he hfree hpart hp

theorem objRegister_new {n entry demand : Nat} {b : Bundle} (hdem : demand < 2) (hb : c.bundle? n = some b)
    (hc : b.complete = true) (hen : entry < b.entries) :
    c.objRegister id n entry part demand = .done (c.setObj id { st := 1, kind := fieldB (b.entry entry) 0 1, part := part
                                                                compressed := bit (fieldB (b.entry entry) 1 1) 1, demand := demand == 1
                                                                size := fieldB (b.entry entry) 8 8, bundle := n, entry := entry }) 0 0 [] := by
  unfold Chip.objRegister
  rw [if_neg (by simp [hid, hpart, hdem]), if_neg (by simp [hfree, he, hp]), hb]
  dsimp only
  rw [if_neg (by simp [hc]), if_neg (Nat.not_le.mpr hen)]

variable {kind size : Nat} (hk : kind < 4) (hsize : size ≠ 0)

include hk hsize

theorem objCreate_full
    (hf : (c.setObj id (newPinned part kind size)).findRows (rowsFor (2 * ((size + 4095) / 4096 * 4096)) (c.colours part).length) = none) :
    c.objCreate id part kind size = .done c 6 0 [] := by
  have extent : (c.setObj id { st := 4, kind := kind, part := part, writable := true, size := size }).allocExtent id
      (2 * ((size + 4095) / 4096 * 4096)) = none :=
    (allocExtent_pinned c id part kind size _).trans (congrArg (Option.map _) hf)
  unfold Chip.objCreate
  dsimp only
  rw [if_neg (by simp [hid, hpart, hsize, hk]), if_neg (by simp [hfree, he, hp]), extent]

theorem objCreate_room {row n : Nat} (hn : n = rowsFor (2 * ((size + 4095) / 4096 * 4096)) (c.colours part).length)
    (hf : (c.setObj id (newPinned part kind size)).findRows n = some row) :
    let o := { newPinned part kind size with base := row * rowBytes, row := row, rows := n }
    c.objCreate id part kind size = .done ((c.setObj id o).scrubExtent o) 0 0 (natLE 8 (row * rowBytes)) := by
  subst hn
  have extent : (c.setObj id { st := 4, kind := kind, part := part, writable := true, size := size }).allocExtent id
      (2 * ((size + 4095) / 4096 * 4096)) = some (c.setObj id { newPinned part kind size with
        base := row * rowBytes, row := row, rows := rowsFor (2 * ((size + 4095) / 4096 * 4096)) (c.colours part).length }) :=
    (allocExtent_pinned c id part kind size _).trans (congrArg (Option.map _) hf)
  unfold Chip.objCreate
  dsimp only
  rw [if_neg (by simp [hid, hpart, hsize, hk]), if_neg (by simp [hfree, he, hp]), extent]
  dsimp only
  rw [obj_setObj]

end

section
variable (h : c.objRefusal x id = none)
include h

theorem objLoad_starts (reqId : Nat) (hst : (c.obj id).st = 1) (hk : (c.bundleKey? (c.obj id).bundle).isSome = true) :
    c.objLoad x reqId id = .run (c.startLoad id (some (x.id, reqId))) id := by
  unfold Chip.objLoad
  rw [h]
  dsimp only
  rw [if_neg (by simp [hst]), if_neg (by simp [hst, Option.isSome_iff_ne_none.mp hk])]

theorem objEvict_starts (hst : (c.obj id).st = 3) : c.objEvict x id = .run c id := by
  unfold Chip.objEvict
  rw [h]
  exact if_pos (.inl hst)

theorem objFill_starts (reqId : Nat) {b first : Nat} (hst : (c.obj id).st = 3) (hb : b < 8192) (hok : c.bowlOk b = true)
    (hp : c.bowlPart b = (c.obj id).part) (hslots : first + c.slotCount id b ≤ 8) :
    c.objFill x reqId id [(b, first)] = .run (c.startPlacement (x.id, reqId) id (c.obj id).part [(b, first)]) id := by
  unfold Chip.objFill
  rw [h]
  dsimp only
  rw [if_neg (by simp), if_neg (by simp [hb, hok]), if_neg (by simp [hp]), if_neg (by simpa using hslots), if_pos (.inl hst)]

theorem objDrop_starts {b : Nat} (hx : x.kind = 0) (hb : b < 8192) (hr : c.dsp.resid.any (fun r => r.bowl == b && r.obj == id) = true) :
    c.objDrop x id b = .run c (id * 8192 + b) := by
  unfold Chip.objDrop
  rw [h]
  dsimp only
  rw [if_neg (Nat.not_le.mpr hb), if_neg (by simp [mayTouch_owner hx]), if_pos hr]

theorem objDelete_refused (hst : (c.obj id).st = 2 ∨ c.regionsOver id ≠ []) : c.objDelete x id = .done c 2 0 [] := by
  unfold Chip.objDelete
  rw [h]
  exact if_pos (by simpa using hst)

/-- The object's directory entries and its residency go. -/
def Chip.forgetObj (c : Chip) (id : Nat) : Chip :=
  { c with
    coh := { c.coh with ents := c.coh.ents.filter fun e => !((c.lineOwner e.1).any fun x => x.1 == id) }
    dsp := { c.dsp with resid := c.dsp.resid.filter fun r => r.obj != id } }

/-- What OBJ_DELETE leaves: its extent scrubbed, and the object's entry free. -/
def Chip.deleteObj (c : Chip) (id : Nat) : Chip :=
  (if 0 < (c.obj id).rows then (c.forgetObj id).scrubExtent (c.obj id) else c.forgetObj id).setObj id {}

theorem objDelete_takes (hst : (c.obj id).st ≠ 2) (hr : c.regionsOver id = []) :
    c.objDelete x id = .done (c.deleteObj id) 0 0 [] := by
  unfold Chip.objDelete
  rw [h]
  exact if_neg (by simp [hst, hr])

theorem objDemand_eq (demand : Nat) :
    c.objDemand x id demand =
      if 2 ≤ demand then .done c 4 0 [] else .done (c.setObj id { c.obj id with demand := demand == 1 }) 0 0 [] := by
  unfold Chip.objDemand
  rw [h]

end

theorem objQuery_known (hid : objIdOk id = true) (hst : (c.obj id).st ≠ 0) (hx : x.kind = 0) :
    c.objQuery x id = .done c 0 0 (objEntry (c.obj id)) := by
  unfold Chip.objQuery
  dsimp only
  rw [if_neg (by simp [hid, hst]), if_neg (by simp [mayTouch_owner hx])]

end

end

theorem worked_scrubExtent (c : Chip) (o : Obj) : Worked c (c.scrubExtent o) := worked_mem _ _

theorem worked_deleteObj (c : Chip) (id : Nat) : Worked (c.forgetObj id) (c.deleteObj id) := by
  unfold Chip.deleteObj
  split
  · exact (worked_scrubExtent _ _).trans (worked_setObj _ _ _)
  · exact worked_setObj _ _ _

theorem quiet_forgetObj (c : Chip) (id : Nat) : Quiet c (c.forgetObj id) := quiet_of _ _ rfl rfl rfl rfl (fun h => h) fun h => h

/-! ### Commands that end in the step that starts them -/

/-- The session runs a command that has started. -/
def Session.runs (y : Session) (p : PlaceCmd) (arg : Nat) : Session :=
  { y with running := y.running ++ [{ reqId := p.reqId, opc := p.opc, arg := arg }] }

/-- A command as it waits in the order, running on its session. -/
def Chip.waiting (c : Chip) (p : PlaceCmd) (arg : Nat) : Chip := (c.setPlace [p]).modSession p.sess fun y => y.runs p arg

theorem waiting_stillWith {c : Chip} (h : c.Still) (p : PlaceCmd) (arg : Nat) : (c.waiting p arg).StillWith [p] :=
  (quiet_modSession _ _ _).stillWith (h.stillWith [p])

section
variable {s : State} {i : Instr} {want : Bytes} {f : Chip → Session → CmdRes} {x : Session} (p : PlaceCmd)
  (asks : s.chip.Asks p.sess p.reqId p.opc x) (hi : exec i s = act s (s.chip.command p.sess p.reqId p.opc want f))
include asks

/-- The command that waits is found among those that its session runs. -/
theorem waiting_session (arg : Nat) :
    (s.chip.waiting p arg).session? p.sess = some (x.runs p arg) ∧
    ((x.runs p arg).running.find? fun r => r.reqId == p.reqId) = some { reqId := p.reqId, opc := p.opc, arg := arg } := by
  obtain ⟨hx, -, -, -, hnew, -, -⟩ := asks
  refine ⟨?_, ?_⟩
  · have kept : (s.chip.setPlace [p]).session? p.sess = some x := hx
    unfold Chip.waiting
    rw [modSession_session (s.chip.setPlace [p]) p.sess (·.runs p arg) fun _ => rfl, kept]
    rfl
  · have none_ : x.running.find? (fun r => r.reqId == p.reqId) = none :=
      List.find?_eq_none.mpr fun r hr he => ne_true_of_eq_false hnew (List.any_eq_true.mpr ⟨r, hr, he⟩)
    unfold Session.runs
    rw [List.find?_append, none_]
    simp

include hi

theorem command_waits {arg : Nat} (hf : f s.chip x = .run (s.chip.setPlace [p]) arg) : exec i s = act s (s.chip.waiting p arg) := by
  rw [hi, command_asks s.chip p.sess p.reqId p.opc want f x asks, hf]
  rfl

/-- A command that the next round ends with the effect `e`, which is `g` for all that an answer leaves. -/
theorem place_completes {arg : Nat} {e g : Chip} (hf : f s.chip x = .run (s.chip.setPlace [p]) arg) (still : s.chip.Still)
    (ht : (s.chip.waiting p arg).tryPlace p = e.endPlace p 0) (q : Quiet (s.chip.waiting p arg) e)
    (hm : e.mgt = (s.chip.waiting p arg).mgt) (hg : ∀ d, g.answering d = e.answering d) :
    CompletesWith s i p.sess p.reqId p.opc 0 [] fun _ => g := by
  obtain ⟨hs, hr⟩ := waiting_session p asks arg
  have sessions : (e.setPlace []).session? p.sess = (s.chip.waiting p arg).session? p.sess := by
    unfold Chip.session? Chip.setPlace
    rw [hm]
  have place : e.mgt.place = [p] := by rw [hm]; rfl
  have ends : e.endPlace p 0 = (e.setPlace []).finishCmd p.sess p.reqId p.opc 0 0 [] := by
    have erased : e.mgt.place.erase p = [] := by rw [place, List.erase_cons_head]
    unfold Chip.endPlace
    rw [erased]
    exact endCmd_running (e.setPlace []) (sessions.trans hs) hr
  have waits := waiting_stillWith still p arg
  have still' : ((e.setPlace []).finishCmd p.sess p.reqId p.opc 0 0 []).Still := still_finishCmd _ (q.stillWith waits).still _ _ _ _ _ _
  have none_ := still'.2.2.1
  have round : (s.chip.waiting p arg).placeRound = (e.setPlace []).finishCmd p.sess p.reqId p.opc 0 0 [] :=
    placeRound_started (by rw [waits.1, List.foldl_cons, List.foldl_nil, ht, ends]) fun q hq => by rw [none_] at hq; cases hq
  refine ⟨{ s with chip := (e.setPlace []).finishCmd p.sess p.reqId p.opc 0 0 [] }, ?_,
    finishCmd_lastReply _ _ _ _ _ _ _ _ (sessions.trans hs) (by decide), ?_, rfl, rfl⟩
  · rw [command_waits p asks hi hf, act, settle_places waits round (Chip.placeRound_nil _ none_) ⟨none_, still'.1, still'.2.1, rfl, still'.2.2.2⟩]
    rfl
  · dsimp only
    rw [hg]
    exact (answered_finishCmd (e.setPlace []) _ _ _ _ _ _).trans rfl

end

/-- An OBJ_LOAD waits for its load. -/
theorem tryPlace_loading {c : Chip} {p : PlaceCmd} (ho : p.opc = 0x0303)
    (h : (c.mem.loads.any fun l => l.cmds.contains (p.sess, p.reqId)) = true) : c.tryPlace p = c := by
  unfold Chip.tryPlace
  simp only [ho, h, if_true, ite_self]

theorem startLoad_loading (c : Chip) (id : Nat) (k : Nat × Nat) :
    ((c.startLoad id (some k)).mem.loads.any fun l => l.cmds.contains k) = true := by
  unfold Chip.startLoad
  simp

theorem tryPlace_evicts {c : Chip} {p : PlaceCmd} (hs : p.started = true) (ho : p.opc = 0x0304) (hst : (c.obj p.obj).st = 3)
    (hf : c.filling p.obj none = false) (hp : c.gtx.pends.any (fun x => x.obj == p.obj) = false) :
    c.tryPlace p = (c.setObj p.obj { c.obj p.obj with st := 1, base := 0, row := 0, rows := 0 }).endPlace p 0 := by
  have freed : (c.freeExtent p.obj).setObj p.obj { (c.freeExtent p.obj).obj p.obj with st := 1 } =
      c.setObj p.obj { c.obj p.obj with st := 1, base := 0, row := 0, rows := 0 } := by
    unfold Chip.freeExtent
    rw [obj_setObj, setObj_setObj _ _ _ _ (by rw [hst]; decide)]
  unfold Chip.tryPlace Chip.tryEvict
  simp only [hs, ho, hst, hf, hp, freed]
  rfl

theorem tryPlace_drops {c : Chip} {p : PlaceCmd} (hs : p.started = true) (ho : p.opc = 0x0306)
    (hf : c.filling p.obj (some (p.args.getD 0 0)) = false) : c.tryPlace p = (c.delResid (p.args.getD 0 0) p.obj).endPlace p 0 := by
  unfold Chip.tryPlace Chip.tryDrop
  simp only [hs, ho, hf]
  rfl

theorem placePart_known {c : Chip} {p : PlaceCmd} (h1 : p.opc ≠ 0x0301) (h2 : p.opc ≠ 0x0302) (hst : (c.obj p.obj).st ≠ 0) :
    c.placePart p = (c.obj p.obj).part := by
  unfold Chip.placePart
  rw [if_neg h1, if_neg h2, if_pos hst]

theorem asks_id {c : Chip} {sess reqId opc : Nat} {x : Session} (h : c.Asks sess reqId opc x) : x.id = sess := by
  simpa using List.find?_some h.1

theorem asks_owner {c : Chip} {sess reqId opc : Nat} {x : Session} (h : c.Asks sess reqId opc x) : x.kind = 0 := h.2.1

/-- An OBJ_LOAD whose load goes on runs on its session and stays in the order. -/
theorem load_runsOn {s : State} {i : Instr} {want : Bytes} {f : Chip → Session → CmdRes} {x : Session} (p : PlaceCmd) {c : Chip} {arg : Nat}
    (asks : s.chip.Asks p.sess p.reqId p.opc x) (hi : exec i s = act s (s.chip.command p.sess p.reqId p.opc want f))
    (hf : f s.chip x = .run (c.setPlace [p]) arg) (still : c.Still) (hs : p.started = true) (ho : p.opc = 0x0303)
    (loading : (c.mem.loads.any fun l => l.cmds.contains (p.sess, p.reqId)) = true) :
    RunsOn s i p.sess p.reqId p.opc arg (c.setPlace [p]) := by
  have waits := waiting_stillWith still p arg
  have round : (c.waiting p arg).placeRound = c.waiting p arg :=
    placeRound_started (by rw [waits.1, List.foldl_cons, List.foldl_nil]; exact tryPlace_loading ho loading) fun q hq => by
      rw [waits.1, List.mem_singleton] at hq
      rwa [hq]
  have settled := settle_places waits round round waits
  unfold RunsOn
  rw [hi, command_asks s.chip p.sess p.reqId p.opc want f x asks, hf]
  exact congrArg (fun d => Host.Outcome.next { s with chip := d }) settled

theorem startedAs_known {c : Chip} {x : Session} {p : PlaceCmd} (hx : x.kind = 0) (h1 : p.opc ≠ 0x0301) (h2 : p.opc ≠ 0x0302)
    (hst : (c.obj p.obj).st ≠ 0) :
    c.startedAs x p = { p with sess := x.id, kind := 0, sessPart := x.part, part := (c.obj p.obj).part, started := true } := by
  unfold Chip.startedAs Chip.placeOf
  rw [hx, placePart_known h1 h2 hst]

theorem waiting_obj (c : Chip) (p : PlaceCmd) (arg id : Nat) : (c.waiting p arg).obj id = c.obj id := rfl

theorem answering_setObj (c d : Chip) (p : PlaceCmd) (arg id : Nat) (o : Obj) :
    (c.setObj id o).answering d = ((c.waiting p arg).setObj id o).answering d := rfl

theorem answering_delResid (c d : Chip) (p : PlaceCmd) (arg b id : Nat) :
    (c.delResid b id).answering d = ((c.waiting p arg).delResid b id).answering d := rfl

theorem quiet_delResid (c : Chip) (b id : Nat) : Quiet c (c.delResid b id) := quiet_dsp _ _ (fun _ h => h) fun h => h

/-- Settles O40: a command that completes at once does so past the empty order of its partition; OBJ_EVICT and OBJ_DROP
end in the first round of that order; OBJ_LOAD waits in it for its load. -/
theorem objectCommandsComplete : Obligations.ObjectCommandsComplete := by
  unfold Obligations.ObjectCommandsComplete
  intro s sess reqId x still id
  have empty := still.2.2.1
  refine ⟨fun hid asks => ?unknown, fun hid he hfree part hpart hp => ⟨fun asks n entry demand b hdem hb hc hen => ?register,
    fun asks kind size hk hsize => ⟨fun row hf => ?create, fun hf => ?full⟩⟩, fun hid he hst hp => ?known⟩
  case unknown =>
    have answer := place_done x { opc := 0x0303, reqId := reqId, obj := id } empty (objLoad_unknown _ hid)
    exact command_answers asks rfl still answer (by decide)
  case register =>
    have answer := place_done x { opc := 0x0301, reqId := reqId, obj := id, args := [n, entry, part, demand] } empty
      (objRegister_new hid he hfree hpart hp hdem hb hc hen)
    exact command_works asks rfl still answer (by decide) (worked_setObj _ _ _)
  case create =>
    have answer := place_done x { opc := 0x0302, reqId := reqId, obj := id, args := [part, kind, size] } empty
      (objCreate_room hid he hfree hpart hp hk hsize rfl hf)
    exact command_works asks rfl still answer (by decide) ((worked_setObj _ _ _).trans (worked_scrubExtent _ _))
  case full =>
    have answer := place_done x { opc := 0x0302, reqId := reqId, obj := id, args := [part, kind, size] } empty
      (objCreate_full hid he hfree hpart hp hk hsize hf)
    exact command_answers asks rfl still answer (by decide)
  case known =>
    have allowed (hx : x.kind = 0) (p : PlaceCmd) : s.chip.objRefusal (s.chip.placeOf x p).asker id = none := objRefusal_none hid hst hx he hp
    refine ⟨fun asks hf hk => ?load, fun asks hd hf hpends => ?evict, fun asks hd b first hb hok hpart hslots => ?fill, fun asks b hb hr hf => ?drop,
      fun asks => ⟨fun h2 hr => ?delete, fun h => ?kept⟩, fun asks demand => ?demand, fun asks => ?query⟩
    all_goals have hx := asks_owner asks
    case load =>
      obtain rfl := asks_id asks
      let p : PlaceCmd := { opc := 0x0303, reqId := reqId, obj := id }
      have starts := place_run x p empty (objLoad_starts (allowed hx p) reqId hf hk)
      rw [startedAs_known hx (fun h => by cases h) (fun h => by cases h) hst] at starts
      have began := worked_startLoad s.chip id (some (x.id, reqId))
      have order : ((s.chip.startLoad id (some ((s.chip.placeOf x p).asker.id, reqId)))).mgt.place = [] := Eq.trans began.quiet.more empty
      rw [order] at starts
      exact load_runsOn { p with sess := x.id, sessPart := x.part, part := (s.chip.obj id).part, started := true } asks rfl starts
        (began.still still) rfl rfl (startLoad_loading _ _ _)
    case evict =>
      obtain rfl := asks_id asks
      let p : PlaceCmd := { opc := 0x0304, reqId := reqId, obj := id }
      have starts := place_run x p empty (objEvict_starts (allowed hx p) hd)
      rw [empty] at starts
      have ends : (s.chip.waiting (s.chip.startedAs x p) id).tryPlace (s.chip.startedAs x p) =
          ((s.chip.waiting (s.chip.startedAs x p) id).setObj id { s.chip.obj id with st := 1, base := 0, row := 0, rows := 0 }).endPlace
            (s.chip.startedAs x p) 0 := tryPlace_evicts rfl rfl hd hf hpends
      exact place_completes (s.chip.startedAs x p) asks rfl starts still ends (worked_setObj _ _ _).quiet (Chip.setObj_mgt _ _ _) fun d =>
        answering_setObj _ _ _ _ _ _
    case fill =>
      obtain rfl := asks_id asks
      let p : PlaceCmd := { opc := 0x0305, reqId := reqId, obj := id, bowls := [(b, first)] }
      have starts := place_run x p empty (objFill_starts (allowed hx p) reqId hd hb hok hpart hslots)
      rw [startedAs_known hx (fun h => by cases h) (fun h => by cases h) hst] at starts
      have placed := command_asks s.chip x.id reqId 0x0305 (natLE 4 id ++ natLE 1 1 ++ zerosB 3 ++ [(b, first)].flatMap fun b =>
        natLE 2 b.1 ++ natLE 1 b.2 ++ zerosB 1) (fun c x => c.place x p) x asks
      rw [starts] at placed
      exact settles_act rfl placed
    case drop =>
      obtain rfl := asks_id asks
      let p : PlaceCmd := { opc := 0x0306, reqId := reqId, obj := id, args := [b] }
      have starts := place_run x p empty (objDrop_starts (allowed hx p) hx hb hr)
      rw [empty] at starts
      have ends : (s.chip.waiting (s.chip.startedAs x p) (id * 8192 + b)).tryPlace (s.chip.startedAs x p) =
          ((s.chip.waiting (s.chip.startedAs x p) (id * 8192 + b)).delResid b id).endPlace (s.chip.startedAs x p) 0 := tryPlace_drops rfl rfl hf
      exact place_completes (s.chip.startedAs x p) asks rfl starts still ends (quiet_delResid _ _ _) rfl fun d => answering_delResid _ _ _ _ _ _
    case delete =>
      let p : PlaceCmd := { opc := 0x0307, reqId := reqId, obj := id }
      have answer := place_done x p empty (objDelete_takes (allowed hx p) h2 hr)
      exact command_effects asks rfl still answer (by decide) ((quiet_forgetObj _ _).trans (worked_deleteObj _ _).quiet)
        ((worked_deleteObj _ _).session _) fun _ => rfl
    case kept =>
      let p : PlaceCmd := { opc := 0x0307, reqId := reqId, obj := id }
      exact command_answers asks rfl still (place_done x p empty (objDelete_refused (allowed hx p) h)) (by decide)
    case demand =>
      let p : PlaceCmd := { opc := 0x0308, reqId := reqId, obj := id, args := [demand] }
      have answer := objDemand_eq (allowed hx p) demand
      exact ⟨fun h => command_works asks rfl still (place_done x p empty (answer.trans (if_neg (Nat.not_le.mpr h)))) (by decide) (worked_setObj _ _ _),
        fun h => command_answers asks rfl still (place_done x p empty (answer.trans (if_pos h))) (by decide)⟩
    case query => exact command_answers asks rfl still (objQuery_known hid hst hx) (by decide)

end Sys2Proof.Machine
end

section
/-! SUPPORT. The end of a load also lets a request go on that waits to be sent again (R350, R351). -/

namespace Sys2Proof.Machine

/-- A device in which object 1 loads into an extent of one row, and a request waits to be sent again (R350). -/
def loadingWithUnsent : Chip :=
  { Chip.reset with
    mem := { Chip.reset.mem with objs := [(1, { st := 2, rows := 1 })], loads := [{ obj := 1 }] }
    gtx := { Chip.reset.gtx with devReqs := [{ unsent := true }] } }

theorem noRings_loadingWithUnsent : loadingWithUnsent.NoRings := by
  intro p _ v _ armed
  have word : loadingWithUnsent.reg .irqVecCfg 12 [p, v] = 0x04000000 := rfl
  rw [word] at armed
  exact absurd armed (by decide)

theorem still_loadingWithUnsent : loadingWithUnsent.Still :=
  ⟨rfl, nofun, rfl, rfl, nofun, nofun, nofun, nofun⟩

/-- Where no port is usable, the request that waited counts as sent (R302) once the load has ended. -/
theorem loadDone_sendsAgain : (loadingWithUnsent.loadDone 1 []).settle.gtx.devReqs.map (·.unsent) = [false] := by decide

theorem settles_loadDone (s : State) (id : Nat) (bad : List Nat) : Settles s (.loadDone id bad) (s.chip.loadDone id bad) := rfl

/-- Refutes O41: LOAD_DONE also retries requests that wait to be sent again, so that in a state with such a request more
changes than the load, its answer and its event. -/
theorem not_loadsEnd : ¬ Obligations.LoadsEnd := by
  unfold Obligations.LoadsEnd
  intro h
  have ended := (h { State.reset with chip := loadingWithUnsent } 1 [] { obj := 1 } noRings_loadingWithUnsent rfl rfl rfl (by decide)
    (by decide) rfl).1 rfl still_loadingWithUnsent
  obtain ⟨t, ht, noted, -⟩ := ended
  have chip := congrArg State.chip (Host.Outcome.next.inj ((settles_loadDone _ 1 []).symm.trans ht))
  have waits : t.chip.gtx.devReqs.map (·.unsent) = [true] := by
    rw [noted]
    rfl
  have sent : t.chip.gtx.devReqs.map (·.unsent) = [false] := chip ▸ loadDone_sendsAgain
  rw [waits] at sent
  cases sent

end Sys2Proof.Machine
end

section
/-! SUPPORT. A module that goes DEAD in BRINGUP still deals with a message cut off at its port (R355), and a record of
that message's end reaches a ring in its own memory (R475). -/

namespace Sys2Proof.Machine

/-- A BRINGUP whose DRAM and flash works are still to do. On port 0, which trains, a logged request of node 9 to partition 3
has begun to arrive, and a duplicate of it that is stale by now waits on its entry of stream 4. -/
def arrivingInBringup : Chip :=
  { Chip.reset with
    pins := { Chip.reset.pins with powerOk := true, holdDone := true, resetN := true }
    boot := { state := .bringup, running := true, step := 6, workLeft := [1, 2] }
    lnk := { Chip.reset.lnk with ports := [(0, { st := .train, rxMode := [.fed 1, .whole, .whole, .whole] })] }
    gtx := { Chip.reset.gtx with
      pends := [{ id := 1, origin := .port 0 (some (4, 0)), part := 3 }]
      streams := [(4, { h := some 0x107D0, log := [(0, { waiters := [{ id := 2, req := { opc := 4, src := 9 } }] })] })] }
    mem := { Chip.reset.mem with objs := [(1, { st := 3, part := 3, writable := true, size := 4096, rows := 1 })] }
    sec := { Chip.reset.sec with regions := [(0, { valid := true, part := 3, obj := 1, len := 4096 })] } }

/-- Its blocks on: the switch cores of dies 0 and 8, the memory, the security and the interrupt controller. -/
def Chip.ringBlocksOn (c : Chip) : Chip :=
  ((((c.setReg .swcCtrl 0 [] 1).setReg .swcCtrl 8 [] 1).setReg .memCtrl 12 [] 1).setReg .secCtrl 12 [] 1).setReg .irqCtrl 12 [] 1

/-- Its tables: partition 3 is LOCAL node 5 and tells of a stale request by a ring on that node; stack 0 serves logical
stack 0. -/
def Chip.ringTables (c : Chip) : Chip :=
  let c := (c.setReg .gtxNode 12 [5] (2 ^ 30 + 3 * 2 ^ 24)).setReg .gtxStream 12 [4] (2 ^ 31 + 3 * 2 ^ 24 + 9)
  let c := (c.setReg .irqSrcCfg 12 [Ev.staleDrop] (3 * 2 ^ 30)).setReg .irqVecCfg 12 [3, 0] (2 ^ 31 + 5)
  (c.setReg .irqVecMask 12 [3, 0] (2 ^ 32 - 1)).setReg .memStackMap 12 [0] (2 ^ 31)

def ringInBringup : Chip := arrivingInBringup.ringBlocksOn.ringTables

theorem booting_ringInBringup : ringInBringup.Booting := by decide +kernel

/-- One trained stack is too few: DEAD, with port 0 DOWN and the message that it was feeding cut off (R355). -/
theorem dram_cutsMessage : (ringInBringup.workDone [] (.dram [0] 0)).gtx.cuts = [{ id := 1, port := 0, vc := 0, gone := true }] := by
  decide +kernel

/-- The notification of the stale duplicate is written to the ring, in the DRAM just scrubbed. -/
theorem dram_writesRing : (ringInBringup.workDone [] (.dram [0] 0)).settle.mem.dram = [(0, 1), (4, 1), (5, 3), (6, 3)] := by
  decide +kernel

theorem settles_bringupWorkDone (s : State) (w : BringupWork) : Settles s (.bringupWorkDone w) (s.chip.workDone s.snap w) := rfl

/-- Refutes O13: where too few stacks train, the ports go DOWN, and what a message cut off there leaves, a notification in a
ring of the module's own memory, is written to the DRAM after the scrub. -/
theorem not_bringupWorksEnd : ¬ Obligations.BringupWorksEnd := by
  unfold Obligations.BringupWorksEnd
  intro h
  obtain ⟨-, -, -, dram, -⟩ := h { State.reset with chip := ringInBringup } booting_ringInBringup rfl rfl (by decide)
  obtain ⟨t, ht, scrubbed, -⟩ := (dram rfl (by decide) [0] 0).2 nofun
  have chip := congrArg State.chip (Host.Outcome.next.inj ((settles_bringupWorkDone _ (.dram [0] 0)).symm.trans ht))
  have written : t.chip.mem.dram = [(0, 1), (4, 1), (5, 3), (6, 3)] := chip ▸ dram_writesRing
  rw [scrubbed] at written
  cases written

end Sys2Proof.Machine
end

section
/-! SUPPORT. What the sifter's rows mean: one lemma for each case of a start, of a timeout and of a run of each kind of
operation (chapter 7). -/

namespace Sys2Proof.Machine

variable {c d e f : Chip} {o : SftOp} {id bowl : Nat}

/-! ### Starts and timeouts (R238, R239, R253, R255) -/

/-- The oldest ready operation of a bowl. -/
def Chip.sftOldest (c : Chip) (bowl : Nat) : Option SftOp :=
  minBy? (·.seq) (c.sft.ops.filter fun o => o.bowl == bowl && c.sftReady o)

theorem sftStart_none (h : c.markCompactWaits.sftOldest bowl = none) : c.sftStart bowl = c.markCompactWaits := by
  unfold Chip.sftOldest at h
  unfold Chip.sftStart
  dsimp only
  rw [h]

theorem sftStart_bad (h : c.markCompactWaits.sftOldest bowl = some o) (bad : fieldB o.record 0 1 ≠ 1 ∨ 3 < o.opc) :
    c.sftStart bowl = c.markCompactWaits.sftRefuse o := by
  unfold Chip.sftOldest at h
  unfold Chip.sftStart
  dsimp only
  rw [h]
  exact if_pos bad

section
variable (h : c.markCompactWaits.sftOldest bowl = some o) (ver : fieldB o.record 0 1 = 1) (opc : o.opc ≤ 3)
include h ver opc

theorem sftStart_waits (wait : c.markCompactWaits.olderQuery o = true ∨ c.markCompactWaits.sftCtx o = none) :
    c.sftStart bowl = c.markCompactWaits := by
  unfold Chip.sftOldest at h
  unfold Chip.sftStart
  dsimp only
  rw [h]
  dsimp only
  rw [if_neg (by omega)]
  split
  · rfl
  · next first => rw [wait.resolve_left first]

theorem sftStart_takes (first : c.markCompactWaits.olderQuery o = false) {ls : List Nat} {x : Nat}
    (free : c.markCompactWaits.sftCtx o = some (ls, x)) :
    c.sftStart bowl =
      ((ls.foldl (fun c k => (c.setValid k (2 * x) false).setValid k (2 * x + 1) false) c.markCompactWaits).setSft
        { o with phase := 1, leaves := ls, ctx := x }).markCompactWaits := by
  unfold Chip.sftOldest at h
  unfold Chip.sftStart
  dsimp only
  rw [h]
  dsimp only
  rw [if_neg (by omega), if_neg (ne_true_of_eq_false first), free]

end

theorem queryTimeout_eq (h : c.sft? id = some o) :
    c.queryTimeout id = if c.due o.closeTick (100 * max 1 (c.fld .sftGlb 12 [] 15 0)) then
      (c.sftFail o).raise Ev.queryTimeout [o.part] else c := by
  unfold Chip.queryTimeout
  rw [h]

/-! ### A run and its index objects (R224, R239, R255) -/

/-- The operation holds its context, the pool takes accesses, and none of its home accesses is unanswered. -/
structure Chip.SftRuns (c : Chip) (id : Nat) (o : SftOp) : Prop where
  found : c.sft? id = some o
  phase : o.phase = 1
  pool : c.enabled 7 12 = true
  left : o.left = 0

section
variable {n : Nat} (h : c.SftRuns id o) (k : o.opc = n) (g : Chip → SftOp → Chip)
include h k

theorem Chip.SftRuns.notHeld : ¬ (o.phase ≠ 1 ∨ o.opc ≠ n ∨ c.enabled 7 12 = false ∨ 0 < o.left) := by
  simp [h.phase, k, h.pool, h.left]

theorem sftRun_bad (a : c.sftObjs o = (.bad, d)) : c.sftRun id n g = d.sftFail o := by
  unfold Chip.sftRun
  rw [h.found]
  dsimp only
  rw [if_neg (h.notHeld k), a]

theorem sftRun_retry (a : c.sftObjs o = (.retry, d)) :
    c.sftRun id n g = d.setSft { o with causes := (o.causes ++ [2]).dedup } := by
  unfold Chip.sftRun
  rw [h.found]
  dsimp only
  rw [if_neg (h.notHeld k), a]

theorem sftRun_ok (a : c.sftObjs o = (.ok, d)) : c.sftRun id n g = g d o := by
  unfold Chip.sftRun
  rw [h.found]
  dsimp only
  rw [if_neg (h.notHeld k), a]

end

/-- What ends or suspends a run of any kind in the same way settles its command, whichever that is. -/
theorem settles_everyKind {s : State} (run : ∀ n g, o.opc = n → s.chip.sftRun id n g = e) :
    (o.opc = 0 → Settles s (.search id) e) ∧ (o.opc = 1 → Settles s (.insert id) e) ∧
    (o.opc = 2 → Settles s (.delete id) e) ∧ (o.opc = 3 → Settles s (.compact id) e) :=
  ⟨fun k => settles_act rfl (run 0 _ k), fun k => settles_act rfl (run 1 _ k), fun k => settles_act rfl (run 2 _ k),
    fun k => settles_act rfl (run 3 _ k)⟩

theorem sftBase_some {b : Bytes} {h : BaseHdr} (read : c.readObj o.baseObj 0 64 = (some b, e)) (hdr : parseBase b = some h)
    (g : Chip → BaseHdr → Chip) : c.sftBase o g = g e h := by
  unfold Chip.sftBase
  rw [read]
  dsimp only
  rw [hdr]

/-! ### SEARCH (R247, R253, R254) -/

/-- K, EF and MAX_HOPS of a SEARCH record are in their ranges (R253). -/
@[reducible] def SftOp.LegalSearch (o : SftOp) : Prop :=
  1 ≤ o.k ∧ o.k ≤ 1024 ∧ (o.graph = true → o.k ≤ o.ef ∧ o.ef ≤ 1024 ∧ o.maxHops ≠ 0)

/-- The module after a search: each leaf's context keeps what the search left on it (R239). -/
def SftOp.afterSearch (o : SftOp) (r : List Trav × Trav) : Chip := (o.leaves.zip r.1).foldl (fun c x => c.sftLeft o x.1 x.2) r.2.chip

section
variable {b : Bytes} {h : BaseHdr} (runs : c.SftRuns id o) (k : o.opc = 0) (objs : c.sftObjs o = (.ok, d))
  (read : d.readObj o.baseObj 0 64 = (some b, e)) (hdr : parseBase b = some h)
include runs k objs read hdr

theorem sftDoSearch_illegal (bad : ¬ o.LegalSearch) : c.sftDoSearch id = e.sftRefuse o := by
  unfold Chip.sftDoSearch
  rw [sftRun_ok runs k _ objs, sftBase_some read hdr]
  refine if_pos ?_
  by_contra good
  simp only [Bool.or_eq_true, Bool.and_eq_true, decide_eq_true_eq, beq_iff_eq] at good
  exact bad ⟨by omega, by omega, fun graph => by simp only [graph, true_and] at good; omega⟩

variable (good : o.LegalSearch)
include good

theorem sftDoSearch_legal :
    c.sftDoSearch id =
      let r := e.sftSearch o h
      let t := r.2
      if t.need ≠ [] then d.sftFetch o t.need.dedup
      else if t.fail then (o.afterSearch r).sftFail o
      else
        (((o.afterSearch r).when t.trunc fun c => c.bump .sftTruncated 12 [o.part]).when t.drop fun c =>
          c.bump .sftCandDrop 12 [o.part]).sftFinish o o.snap (t.best.take o.k) (b2n t.trunc + 2 * b2n t.drop) := by
  obtain ⟨low, high, ranges⟩ := good
  unfold Chip.sftDoSearch
  rw [sftRun_ok runs k _ objs, sftBase_some read hdr]
  refine if_neg ?_
  simp only [Bool.or_eq_true, Bool.and_eq_true, decide_eq_true_eq, beq_iff_eq]
  rintro ((short | long) | ⟨graph, bad⟩)
  · omega
  · omega
  · obtain ⟨ef, top, hops⟩ := ranges graph
    omega

variable (need : (e.sftSearch o h).2.need = [])
include need

theorem sftDoSearch_fails (fail : (e.sftSearch o h).2.fail = true) :
    c.sftDoSearch id = (o.afterSearch (e.sftSearch o h)).sftFail o :=
  (sftDoSearch_legal runs k objs read hdr good).trans ((if_neg (not_not_intro need)).trans (if_pos fail))

/-- A search that ends is counted as truncated, and as one that dropped a candidate, where its flags say so (R254). -/
theorem sftDoSearch_ends {trunc drop : Bool} (fail : (e.sftSearch o h).2.fail = false)
    (ht : (e.sftSearch o h).2.trunc = trunc) (hd : (e.sftSearch o h).2.drop = drop) :
    c.sftDoSearch id =
      (((o.afterSearch (e.sftSearch o h)).when trunc fun c => c.bump .sftTruncated 12 [o.part]).when drop fun c =>
        c.bump .sftCandDrop 12 [o.part]).sftFinish o o.snap ((e.sftSearch o h).2.best.take o.k) (b2n trunc + 2 * b2n drop) := by
  subst ht hd
  exact (sftDoSearch_legal runs k objs read hdr good).trans
    ((if_neg (not_not_intro need)).trans (if_neg (ne_true_of_eq_false fail)))

end

/-! ### INSERT (R256) -/

/-- The delta record that an INSERT writes at epoch `ep`. -/
def SftOp.newRecord (o : SftOp) (ep : Nat) : Bytes := sliceB o.record 0x80 (4 * o.dim) ++ natLE 8 o.label ++ natLE 8 ep

section
variable (runs : c.SftRuns id o) (k : o.opc = 1) (objs : c.sftObjs o = (.ok, d))
include runs k objs

theorem sftDoInsert_committed {n ep : Nat} (done : o.commit = some (n, ep)) :
    c.sftDoInsert id = ((d.sftSet o.index ep (n + 1) (d.sftGen o.index)).bump .sftInserts 12 [o.part]).sftFinish o ep
      [{ dist := 0, node := 2 ^ 31 + n, label := o.label }] 0 := by
  unfold Chip.sftDoInsert
  rw [sftRun_ok runs k _ objs, done]

theorem sftDoInsert_first (new : o.commit = none) :
    c.sftDoInsert id =
      if d.sftUsed o.index = o.deltaCap then (d.sftRefuse o).raise Ev.deltaFull [o.part]
      else d.sftUpdate o (d.sftUsed o.index) (d.sftEpoch o.index + 1) o.deltaObj (d.sftUsed o.index * deltaRec o.dim)
        (o.newRecord (d.sftEpoch o.index + 1)) := by
  unfold Chip.sftDoInsert
  rw [sftRun_ok runs k _ objs, new]
  rfl

end

/-! ### DELETE (R253, R254, R256) -/

section
variable {obj off loff : Nat}

/-- What a DELETE of a delta node reads before it goes on: DEL_EPOCH and LABEL, in the delta object itself. -/
def SftOp.eraseReads (o : SftOp) (off loff : Nat) : List (Nat × Nat × Nat) := o.lacks [(o.deltaObj, off, 8), (o.deltaObj, loff, 8)]

theorem sftErase_noTombstones {lobj : Nat} : c.sftErase o 0 off lobj loff = c.sftFail o := by
  unfold Chip.sftErase
  exact if_pos rfl

theorem sftErase_reads (hasDelta : o.deltaObj ≠ 0) (need : o.eraseReads off loff ≠ []) :
    c.sftErase o o.deltaObj off o.deltaObj loff = c.sftFetch o (o.eraseReads off loff) := by
  unfold SftOp.eraseReads at need ⊢
  unfold Chip.sftErase
  rw [if_pos rfl, if_neg hasDelta, if_pos need]

variable {label : Bytes} (hasDelta : o.deltaObj ≠ 0) (need : o.eraseReads off loff = [])
  (read : c.readObj o.deltaObj loff 8 = (some label, e))
include hasDelta need read

theorem sftErase_committed {n ep : Nat} (done : o.commit = some (n, ep)) :
    c.sftErase o o.deltaObj off o.deltaObj loff =
      let g := ((e.sftSet o.index ep (e.sftUsed o.index) (e.sftGen o.index)).bump .sftDeletes 12 [o.part]).draw
      g.2.sftFinish o ep [{ dist := g.1 % 2 ^ 32, node := o.node, label := leNat label }] 0 := by
  unfold SftOp.eraseReads at need
  unfold Chip.sftErase
  rw [if_pos rfl, if_neg hasDelta, need, if_neg (by simp), read]
  dsimp only
  rw [done]

theorem sftErase_first (new : o.commit = none) {old : Bytes} (tomb : e.readObj o.deltaObj off 8 = (some old, f)) :
    c.sftErase o o.deltaObj off o.deltaObj loff =
      if leNat old ≠ 0 then f.sftFinish o o.snap [] 0
      else f.sftUpdate o 0 (f.sftEpoch o.index + 1) o.deltaObj off (natLE 8 (f.sftEpoch o.index + 1)) := by
  unfold SftOp.eraseReads at need
  unfold Chip.sftErase
  rw [if_pos rfl, if_neg hasDelta, need, if_neg (by simp), read]
  dsimp only
  rw [new]
  dsimp only
  rw [tomb]

end

section
variable (runs : c.SftRuns id o) (k : o.opc = 2) (objs : c.sftObjs o = (.ok, d))
include runs k objs

theorem sftDoDelete_delta (delta : 2 ^ 31 ≤ o.node) :
    c.sftDoDelete id =
      let i := o.node % 2 ^ 31
      let at_ := i * deltaRec o.dim + 4 * o.dim
      if d.sftUsed o.index ≤ i ∨ d.sftGen o.index ≠ o.gen then d.sftRefuse o
      else d.sftErase o o.deltaObj (at_ + 16) o.deltaObj at_ := by
  unfold Chip.sftDoDelete
  rw [sftRun_ok runs k _ objs]
  exact if_neg (Nat.not_lt.mpr delta)

theorem sftDoDelete_base {b : Bytes} {h : BaseHdr} (base : o.node < 2 ^ 31)
    (read : d.readObj o.baseObj 0 64 = (some b, e)) (hdr : parseBase b = some h) :
    c.sftDoDelete id =
      if h.count ≤ o.node then e.sftRefuse o
      else e.sftErase o o.tombObj (8 * o.node) o.baseObj (0x40 + o.node * h.recB + 4 * h.dim + 4 * h.deg) := by
  unfold Chip.sftDoDelete
  rw [sftRun_ok runs k _ objs]
  dsimp only
  rw [if_pos base, sftBase_some read hdr, Nat.mod_eq_of_lt base]

end

/-! ### COMPACT (R257) -/

/-- The end of a COMPACT that has moved `n` records: the index's new words, its event and its result. -/
def Chip.sftCompacted (c : Chip) (o : SftOp) (n ep : Nat) : Chip :=
  ((c.sftSet o.index ep n ((c.sftGen o.index + 1) % 2 ^ 16)).raise Ev.compactDone [o.part]).sftFinish o ep [] 0

/-- What a COMPACT reads before it goes on: every delta record. -/
def SftOp.compactReads (o : SftOp) (used : Nat) : List (Nat × Nat × Nat) := o.lacks [(o.deltaObj, 0, used * deltaRec o.dim)]

section
variable (runs : c.SftRuns id o) (k : o.opc = 3) (objs : c.sftObjs o = (.ok, d))
include runs k objs

theorem sftDoCompact_committed {n ep : Nat} (done : o.commit = some (n, ep)) :
    c.sftDoCompact id = d.markCompactWaits.sftCompacted o n ep := by
  unfold Chip.sftDoCompact
  rw [sftRun_ok runs k _ objs, done]
  rfl

variable (new : o.commit = none)
include new

theorem sftDoCompact_waits (busy : d.markCompactWaits.searching o.index = true) : c.sftDoCompact id = d.markCompactWaits := by
  unfold Chip.sftDoCompact
  rw [sftRun_ok runs k _ objs, new]
  exact if_pos busy

variable (idle : d.markCompactWaits.searching o.index = false)
include idle

theorem sftDoCompact_empty (empty : d.markCompactWaits.sftUsed o.index = 0) :
    c.sftDoCompact id = d.markCompactWaits.sftCompacted o 0 (d.markCompactWaits.sftEpoch o.index + 1) := by
  unfold Chip.sftDoCompact
  rw [sftRun_ok runs k _ objs, new]
  exact (if_neg (ne_true_of_eq_false idle)).trans (if_pos empty)

variable (used : d.markCompactWaits.sftUsed o.index ≠ 0)
include used

theorem sftDoCompact_reads (need : o.compactReads (d.markCompactWaits.sftUsed o.index) ≠ []) :
    c.sftDoCompact id = d.markCompactWaits.sftFetch o (o.compactReads (d.markCompactWaits.sftUsed o.index)) := by
  unfold Chip.sftDoCompact
  rw [sftRun_ok runs k _ objs, new]
  exact (if_neg (ne_true_of_eq_false idle)).trans ((if_neg used).trans (if_pos need))

theorem sftDoCompact_moves {recs : List Bytes} (need : o.compactReads (d.markCompactWaits.sftUsed o.index) = [])
    (read : d.markCompactWaits.deltaRecs o.deltaObj (deltaRec o.dim) (List.range (d.markCompactWaits.sftUsed o.index)) = (some recs, e)) :
    c.sftDoCompact id =
      let keep := recs.filter fun b => fieldB b (4 * o.dim + 16) 8 == 0
      e.sftUpdate o keep.length (d.markCompactWaits.sftEpoch o.index + 1) o.deltaObj 0
        (keep.flatten ++ zerosB ((d.markCompactWaits.sftUsed o.index - keep.length) * deltaRec o.dim)) := by
  unfold Chip.sftDoCompact
  rw [sftRun_ok runs k _ objs, new]
  refine (if_neg (ne_true_of_eq_false idle)).trans ((if_neg used).trans ((if_neg (not_not_intro need)).trans ?_))
  rw [read]

end

/-! ### The obligation -/

/-- Settles O59: each start, timeout and run by the case of its meaning that the clause describes. -/
theorem sifterOperationsRun : Obligations.SifterOperationsRun := by
  unfold Obligations.SifterOperationsRun
  intro s
  dsimp only
  refine ⟨fun bowl => ⟨fun h => settles_act rfl (sftStart_none h), fun o h => ⟨fun bad => settles_act rfl (sftStart_bad h bad),
    fun ver opc => ⟨fun wait => settles_act rfl (sftStart_waits h ver opc wait),
      fun ls x first free => settles_act rfl (sftStart_takes h ver opc first free)⟩⟩⟩,
    fun id o found => ⟨?late, ?early, fun phase pool left d => ?runs⟩⟩
  case late => exact fun due => settles_act rfl ((queryTimeout_eq found).trans (if_pos due))
  case early => exact fun due => settles_act rfl ((queryTimeout_eq found).trans (if_neg (ne_true_of_eq_false due)))
  case runs =>
    have runs : s.chip.SftRuns id o := ⟨found, phase, pool, left⟩
    refine ⟨fun bad => settles_everyKind fun n g k => sftRun_bad runs k g bad,
      fun retry => settles_everyKind fun n g k => sftRun_retry runs k g retry,
      fun objs => ⟨fun b e h k read hdr => ?search, fun k => ?insert, fun k delta => ?deleteDelta,
        fun k base b e h read hdr => ?deleteBase, fun k => ?compact⟩⟩
    case search =>
      refine ⟨fun bad => settles_act rfl (sftDoSearch_illegal runs k objs read hdr bad), fun good => ?_⟩
      have ends (need) {trunc drop} := sftDoSearch_ends (trunc := trunc) (drop := drop) runs k objs read hdr good need
      refine ⟨fun need => settles_act rfl ((sftDoSearch_legal runs k objs read hdr good).trans (if_pos need)),
        fun need fail => settles_act rfl (sftDoSearch_fails runs k objs read hdr good need fail),
        fun need fail drop => ⟨fun trunc => settles_act rfl ((ends need fail trunc drop).trans ?none),
          fun trunc => settles_act rfl ((ends need fail trunc drop).trans ?trunc)⟩,
        fun need fail trunc drop => settles_act rfl ((ends need fail trunc drop).trans ?drop),
        fun need fail trunc drop => settles_act rfl ((ends need fail trunc drop).trans ?both)⟩
      case none => rw [when_false, when_false]; rfl
      case trunc => rw [when_true, when_false]; rfl
      case drop => rw [when_false, when_true]; rfl
      case both => rw [when_true, when_true]; rfl
    case insert =>
      have first := sftDoInsert_first runs k objs
      exact ⟨fun new full => settles_act rfl ((first new).trans (if_pos full)),
        fun new room => settles_act rfl ((first new).trans (if_neg room)),
        fun n ep done => settles_act rfl (sftDoInsert_committed runs k objs done)⟩
    case deleteDelta =>
      have run := sftDoDelete_delta runs k objs delta
      refine ⟨fun stale => settles_act rfl (run.trans (if_pos stale)), fun used gen hasDelta => ?_⟩
      have erase := run.trans (if_neg (not_or_intro (Nat.not_le.mpr used) (not_not_intro gen)))
      refine ⟨fun need => settles_act rfl (erase.trans (sftErase_reads hasDelta need)), fun label e need read =>
        ⟨fun n ep done => settles_act rfl (erase.trans (sftErase_committed hasDelta need read done)), fun old f new tomb => ?_⟩⟩
      have first := erase.trans (sftErase_first hasDelta need read new tomb)
      exact ⟨fun deleted => settles_act rfl (first.trans (if_pos deleted)),
        fun live => settles_act rfl (first.trans (if_neg (not_not_intro live)))⟩
    case deleteBase =>
      have run := sftDoDelete_base runs k objs base read hdr
      exact ⟨fun beyond => settles_act rfl (run.trans (if_pos beyond)),
        fun node tombs => settles_act rfl (run.trans ((if_neg (Nat.not_le.mpr node)).trans (tombs ▸ sftErase_noTombstones)))⟩
    case compact =>
      exact ⟨fun n ep done => settles_act rfl (sftDoCompact_committed runs k objs done),
        fun new busy => settles_act rfl (sftDoCompact_waits runs k objs new busy),
        fun new idle => ⟨fun empty => settles_act rfl (sftDoCompact_empty runs k objs new idle empty),
          fun used need => settles_act rfl (sftDoCompact_reads runs k objs new idle used need),
          fun recs e used need read => settles_act rfl (sftDoCompact_moves runs k objs new idle used need read)⟩⟩

end Sys2Proof.Machine
end

section
/-! SUPPORT. The bytes of a request and of a response (R277, R278): a message is its fields laid end to end, and each field
is read back at the place where it was laid. -/

namespace Sys2Proof.Machine

@[simp] theorem length_natLE (n v : Nat) : (natLE n v).length = n := by
  induction n generalizing v with
  | zero => rfl
  | succ n ih => exact congrArg (· + 1) (ih _)

@[simp] theorem length_zerosB (n : Nat) : (zerosB n).length = n := List.length_replicate

theorem leNat_natLE (n v : Nat) (h : v < 256 ^ n) : leNat (natLE n v) = v := by
  induction n generalizing v with
  | zero => exact (Nat.lt_one_iff.mp h).symm
  | succ n ih =>
    unfold natLE leNat
    rw [ih (v / 256) (Nat.div_lt_of_lt_mul (by rwa [pow_succ'] at h)), BitVec.toNat_ofNat]
    exact Nat.mod_add_div v 256

/-! ### Reading at a place -/

/-- A slice that begins after the first part is one of the rest. -/
theorem sliceB_past {a : Bytes} {off : Nat} (b : Bytes) (len : Nat) (h : a.length ≤ off) :
    sliceB (a ++ b) off len = sliceB b (off - a.length) len := by
  unfold sliceB
  rw [List.drop_append, List.drop_eq_nil_of_le h, List.nil_append]

theorem sliceB_here (a b : Bytes) : sliceB (a ++ b) 0 a.length = a := List.take_left

theorem fieldB_past {a : Bytes} {off : Nat} (b : Bytes) (len : Nat) (h : a.length ≤ off) :
    fieldB (a ++ b) off len = fieldB b (off - a.length) len := congrArg leNat (sliceB_past b len h)

theorem fieldB_here {n v : Nat} (t : Bytes) (h : v < 256 ^ n) : fieldB (natLE n v ++ t) 0 n = v := by
  unfold fieldB
  have whole := sliceB_here (natLE n v) t
  rw [length_natLE] at whole
  rw [whole, leNat_natLE n v h]

/-! ### Flags beside a number in one byte -/

theorem b2n_le (b : Bool) : b2n b ≤ 1 := by cases b <;> decide

/-- A flag laid at bit `i`, above a number of `i` bits and below whatever else the byte holds. -/
theorem bit_b2n {v i x rest : Nat} (b : Bool) (hx : x < 2 ^ i) (h : v = x + 2 ^ i * (b2n b + 2 * rest)) : bit v i = b := by
  unfold bit
  rw [h, Nat.add_mul_div_left _ _ (by positivity), Nat.div_eq_of_lt hx, Nat.zero_add, Nat.add_mul_mod_self_left]
  cases b <;> rfl

/-! ### The messages -/

theorem unpackReq_packReq (r : Req) (pad : Bytes) (opc : r.opc < 2 ^ 8) (tc : r.tc < 2 ^ 3) (tag : r.tag < 2 ^ 16)
    (src : r.src < 2 ^ 12) (handle : r.handle < 2 ^ 16) (addr : r.addr < 2 ^ 64) (epoch : r.epoch < 2 ^ 8)
    (attr : r.attr < 2 ^ 8) (opnd : r.opnd < 2 ^ 32) (rsv : r.rsv < 2 ^ 16) (len : r.payload.length < 2 ^ 16) :
    unpackReq (packReq r ++ pad) = r := by
  have flag := b2n_le r.re
  have node : r.src % 4096 = r.src := Nat.mod_eq_of_lt src
  have class_ : (r.tc + 8 * b2n r.re) % 8 = r.tc := by omega
  have reissue : bit (r.tc + 8 * b2n r.re) 3 = r.re := bit_b2n (rest := 0) r.re tc rfl
  simp only [unpackReq, packReq, List.append_assoc, fieldB_past, sliceB_past, length_natLE, length_zerosB,
    Nat.reduceLeDiff, Nat.reduceSub]
  rw [fieldB_here _ opc, fieldB_here _ (show r.tc + 8 * b2n r.re < 256 ^ 1 by omega), fieldB_here _ tag,
    fieldB_here _ (show r.src < 256 ^ 2 by omega), fieldB_here _ handle, fieldB_here _ addr, fieldB_here _ epoch,
    fieldB_here _ attr, fieldB_here _ opnd, fieldB_here _ rsv, fieldB_here _ len, sliceB_here, class_, reissue, node]

theorem unpackRsp_packRsp (r : Rsp) (pad : Bytes) (status : r.status < 2 ^ 4) (tag : r.tag < 2 ^ 16) (dst : r.dst < 2 ^ 12)
    (src : r.src < 2 ^ 12) (info : r.info < 2 ^ 16) (len : r.data.length < 2 ^ 16) : unpackRsp (packRsp r ++ pad) = r := by
  have replays := b2n_le r.replay
  have targets := b2n_le r.tgt
  have node : r.dst % 4096 = r.dst := Nat.mod_eq_of_lt dst
  have source : r.src % 4096 = r.src := Nat.mod_eq_of_lt src
  have code : (r.status + 16 * b2n r.replay + 32 * b2n r.tgt) % 16 = r.status := by omega
  have replay : bit (r.status + 16 * b2n r.replay + 32 * b2n r.tgt) 4 = r.replay :=
    bit_b2n (rest := b2n r.tgt) r.replay status (by omega)
  have target : bit (r.status + 16 * b2n r.replay + 32 * b2n r.tgt) 5 = r.tgt :=
    bit_b2n (x := r.status + 16 * b2n r.replay) (rest := 0) r.tgt (by omega) rfl
  simp only [unpackRsp, packRsp, List.append_assoc, fieldB_past, sliceB_past, length_natLE, length_zerosB,
    Nat.reduceLeDiff, Nat.reduceSub]
  rw [fieldB_here _ (show r.status + 16 * b2n r.replay + 32 * b2n r.tgt < 256 ^ 1 by omega), fieldB_here _ tag,
    fieldB_here _ (show r.dst < 256 ^ 2 by omega), fieldB_here _ (show r.src < 256 ^ 2 by omega), fieldB_here _ info,
    fieldB_here _ len, sliceB_here, code, replay, target, node, source]

/-- Settles O5: each field of a message lies where it is read, and fits the bytes it is laid in. -/
theorem requestWireRoundTrip : Obligations.RequestWireRoundTrip := by
  unfold Obligations.RequestWireRoundTrip
  exact ⟨unpackReq_packReq, unpackRsp_packRsp⟩

end Sys2Proof.Machine
end

section
/-! SUPPORT. What privileged writes of the tables of nodes, streams, sharers and shares, and of the coherence probe, start
(R307, R308, R349, R417, R419, R421). -/

namespace Sys2Proof.Machine

/-! ### What a privileged write starts in a block of the fabric -/

section
variable (c : Chip) (die i w v : Nat)

theorem regEffect_gtxNode : c.regEffect .gtxNode die [i] w v true = c.nodeWrite i w := by
  unfold Chip.regEffect
  exact (if_neg (by decide)).trans rfl
theorem regEffect_gtxStream : c.regEffect .gtxStream die [i] w v true = c.streamSet i w := by
  unfold Chip.regEffect
  exact (if_neg (by decide)).trans rfl
theorem regEffect_cohSharer : c.regEffect .cohSharer die [i] w v true = c.sharerWrite i w := by
  unfold Chip.regEffect
  exact (if_neg (by decide)).trans rfl
theorem regEffect_swcPartShare : c.regEffect .swcPartShare die [i] w v true = c.shareWrite die i w := by
  unfold Chip.regEffect
  exact (if_neg (by decide)).trans rfl
theorem regEffect_cohProbeAddrHi :
    c.regEffect .cohProbeAddrHi die [] w v true = (c.setReg .cohProbeAddrHi die [] w).probe die := by
  unfold Chip.regEffect
  exact (if_neg (by decide)).trans rfl

end

/-! ### A privileged master's writes of the tables of the fabric (R591) -/

section
variable (c : Chip) (m : Master) (v : Word) (hm : m.code ≤ 8)
include hm

theorem store_gtxNode (n : Nat) (hn : n < 4096) :
    c.busStore m ((Reg.gtxNode).addr 12 [n]) v = (c.nodeWrite n (c.written .gtxNode 12 [n] v)).busResp 0 0 := by
  rw [store_plain12 c m v hm .gtxNode [n] 3 (0x10000 + 4 * n) (slotAt_gtxNode n hn) rfl (by omega) (by decide) (by omega)
    rfl rfl rfl rfl (by decide) (by decide), regEffect_gtxNode]

theorem store_gtxStream (i : Nat) (hi : i < 1024) :
    c.busStore m ((Reg.gtxStream).addr 12 [i]) v = (c.streamSet i (c.written .gtxStream 12 [i] v)).busResp 0 0 := by
  rw [store_plain12 c m v hm .gtxStream [i] 3 (0x20000 + 4 * i) (slotAt_gtxStream i hi) rfl (by omega) (by decide) (by omega)
    rfl rfl rfl rfl (by decide) (by decide), regEffect_gtxStream]

theorem store_cohSharer (i : Nat) (hi : i < 64) :
    c.busStore m ((Reg.cohSharer).addr 12 [i]) v = (c.sharerWrite i (c.written .cohSharer 12 [i] v)).busResp 0 0 := by
  rw [store_plain12 c m v hm .cohSharer [i] 6 (0x10000 + 4 * i) (slotAt_cohSharer i hi) rfl (by omega) (by decide) (by omega)
    rfl rfl rfl rfl (by decide) (by decide), regEffect_cohSharer]

theorem store_swcPartShare (die p : Nat) (h8 : 8 ≤ die) (h12 : die < 12) (hd : c.dieCut die = false) (hp : p < 64) :
    c.busStore m ((Reg.swcPartShare).addr die [p]) v = (c.shareWrite die p (c.written .swcPartShare die [p] v)).busResp 0 0 := by
  have listed : die ∈ dAll := (by decide : ∀ d < 12, d ∈ dAll) die h12
  have addr : (Reg.swcPartShare).addr die [p] = ctlAddr die 4 (0x20000 + 8 * p) := rfl
  have at_ : ctlAddr die 4 (0x20000 + 8 * p) % 4 = 0 ∧ ctlAddr die 4 (0x20000 + 8 * p) / 2 ^ 44 = die := by
    unfold ctlAddr; omega
  have inert : c.inert (.reg .swcPartShare die [p]) = false := by
    show (decide (die < 8) && _) = false
    rw [decide_eq_false (Nat.not_lt.mpr h8), Bool.false_and]
  rw [store_priv c m _ v .swcPartShare die [p] hm (slotAt_swcPartShare die p listed hp) (addr ▸ at_.1)
    (by rw [addr, at_.2, hd]) rfl inert rfl rfl (by decide), codes_ign _ _ _ _ _ (by decide), when_false, regEffect_swcPartShare]

theorem store_cohProbeAddrHi (die : Nat) (h8 : die < 8) (hd : c.dieCut die = false) :
    c.busStore m ((Reg.cohProbeAddrHi).addr die []) v =
      ((c.setReg .cohProbeAddrHi die [] (c.written .cohProbeAddrHi die [] v)).probe die).busResp 0 0 := by
  have listed : die ∈ dCore := (by decide : ∀ d < 8, d ∈ dCore) die h8
  have addr : (Reg.cohProbeAddrHi).addr die [] = ctlAddr die 6 0x24 := rfl
  have at_ : ctlAddr die 6 0x24 % 4 = 0 ∧ ctlAddr die 6 0x24 / 2 ^ 44 = die := by
    unfold ctlAddr; omega
  rw [store_priv c m _ v .cohProbeAddrHi die [] hm (slotAt_cohProbeAddrHi die listed) (addr ▸ at_.1)
    (by rw [addr, at_.2, hd]) rfl rfl rfl rfl (by decide), codes_ign _ _ _ _ _ (by decide), when_false, regEffect_cohProbeAddrHi]

end

/-! ### When an entry is refused -/

/-- No other entry is found. -/
theorem any_other_eq_false {o : Option Nat} {n : Nat} : o.any (· != n) = false ↔ ∀ k, o = some k → k = n := by
  cases o <;> simp

theorem isPorts_iff (c : Chip) (n : Nat) : c.isPorts n = true ↔ ∃ a b, c.node n = .ports a b := by
  unfold Chip.isPorts
  cases c.node n <;> simp

/-- An entry that is to be VALID names a node behind ports, and no other entry binds the same. -/
theorem binding_free_iff (c : Chip) (valid : Bool) (n i : Nat) (o : Option Nat) :
    (valid && (!c.isPorts n || o.any (· != i))) = false ↔
      (valid = true → (∃ a b, c.node n = .ports a b) ∧ ∀ k, o = some k → k = i) := by
  rw [← isPorts_iff, ← any_other_eq_false]
  cases valid <;> cases c.isPorts n <;> simp

section
variable (c : Chip)

/-! ### Nodes (R307) -/

theorem nodeWrite_taken (n w : Nat) (one : bits w 31 30 = 1 → ∀ k, c.localNode (bits w 29 24) = some k → k = n)
    (exist : bits w 31 30 = 2 → c.portExists (bits w 15 8) = true ∧ c.portExists (bits w 7 0) = true) :
    c.nodeWrite n w = c.setReg .gtxNode 12 [n] w := by
  refine if_neg (ne_true_of_eq_false ?_)
  split
  case isTrue type => exact any_other_eq_false.mpr (one type)
  case isFalse =>
    by_cases type : bits w 31 30 = 2
    · rw [(exist type).1, (exist type).2, Bool.and_true, Bool.not_true, Bool.and_false]
    · rw [beq_false_of_ne type, Bool.false_and]

theorem nodeWrite_refused (n w : Nat) (bad : bits w 31 30 = 1 ∧ (∃ k, k ≠ n ∧ c.localNode (bits w 29 24) = some k) ∨
      bits w 31 30 = 2 ∧ ¬ (c.portExists (bits w 15 8) = true ∧ c.portExists (bits w 7 0) = true)) :
    c.nodeWrite n w = c.ignored ((Reg.gtxNode).addr 12 [n]) := by
  refine if_pos ?_
  rcases bad with ⟨type, k, other, found⟩ | ⟨type, missing⟩
  · rw [if_pos type, found]
    exact bne_iff_ne.mpr other
  · rw [if_neg (by omega), type, beq_self_eq_true, Bool.true_and, Bool.not_eq_true', ← Bool.not_eq_true, Bool.and_eq_true]
    exact missing

theorem quiet_nodeWrite (n w : Nat) : Quiet c (c.nodeWrite n w) :=
  quiet_ite (quiet_ignored _ _) (quiet_setReg _ _ _ _ _)

/-! ### Streams (R304, R308) -/

theorem setStream_setStream (i : Nat) (x y : Stream) (h : x ≠ {}) : (c.setStream i x).setStream i y = c.setStream i y := by
  unfold Chip.setStream
  dsimp only
  rw [ksetD_ksetD _ _ _ _ _ h]

/-- A write whose old entry is not in use takes effect; else it is held back. -/
theorem settleStream_held (i : Nat) (w : Word) :
    (c.setStream i { c.stream i with held := some w }).settleStream i =
      if ((c.stream i).log.all fun e => e.2.done) = true then c.streamWrite i w
      else c.setStream i { c.stream i with held := some w } := by
  have now : (c.setStream i { c.stream i with held := some w }).stream i = { c.stream i with held := some w } :=
    kgetD_ksetD_self _ _ _ _
  have holds : ({ c.stream i with held := some w } : Stream) ≠ {} := fun e => Option.some_ne_none _ (congrArg Stream.held e)
  unfold Chip.settleStream Chip.streamWrite
  rw [now, setStream_setStream c i _ _ holds]

/-- The binding that a word asks for is one that GTX_STREAM may hold. -/
def Chip.StreamFree (c : Chip) (i w : Nat) : Prop :=
  bit w 31 = true → (∃ a b, c.node (bits w 11 0) = .ports a b) ∧ ∀ k, c.stream? (bits w 11 0) (bits w 29 24) = some k → k = i

theorem streamSet_refused (i w : Nat) (taken : ¬ c.StreamFree i (putBits w 30 30 0)) :
    c.streamSet i w = c.ignored ((Reg.gtxStream).addr 12 [i]) :=
  if_pos (Bool.eq_true_of_not_eq_false (mt (binding_free_iff _ _ _ _ _).mp taken))

theorem streamSet_free (i w : Nat) (free : c.StreamFree i (putBits w 30 30 0)) :
    c.streamSet i w = if ((c.stream i).log.all fun e => e.2.done) = true then c.streamWrite i (BitVec.ofNat 32 (putBits w 30 30 0))
      else c.setStream i { c.stream i with held := some (BitVec.ofNat 32 (putBits w 30 30 0)) } :=
  (if_neg (ne_true_of_eq_false ((binding_free_iff _ _ _ _ _).mpr free))).trans (settleStream_held _ _ _)

theorem streamSet_done (i w : Nat) (free : c.StreamFree i (putBits w 30 30 0)) (done : ∀ e ∈ (c.stream i).log, e.2.done = true) :
    c.streamSet i w = c.streamWrite i (BitVec.ofNat 32 (putBits w 30 30 0)) :=
  (streamSet_free c i w free).trans (if_pos (List.all_eq_true.mpr done))

theorem streamSet_inUse (i w : Nat) (free : c.StreamFree i (putBits w 30 30 0)) (runs : ∃ e ∈ (c.stream i).log, e.2.done = false) :
    c.streamSet i w = c.setStream i { c.stream i with held := some (BitVec.ofNat 32 (putBits w 30 30 0)) } := by
  refine (streamSet_free c i w free).trans (if_neg fun all => ?_)
  obtain ⟨e, he, undone⟩ := runs
  exact Bool.false_ne_true (undone.symm.trans (List.all_eq_true.mp all e he))

theorem quiet_streamSet (i w : Nat) : Quiet c (c.streamSet i w) :=
  quiet_ite (quiet_ignored _ _) ((quiet_setStream _ _ _).trans (quiet_settleStream _ _))

/-! ### Sharers (R417, R419) -/

/-- The node that a word asks for is one that COH_SHARER may hold. -/
def Chip.SharerFree (c : Chip) (i w : Nat) : Prop :=
  bit w 31 = true → (∃ a b, c.node (bits w 11 0) = .ports a b) ∧ ∀ k, c.sharer? (bits w 11 0) = some k → k = i

/-- The sweep of the word's node, or of the slot's old one, still runs. -/
def Chip.SharerSweeps (c : Chip) (i w : Nat) : Prop :=
  bits w 11 0 ∈ c.coh.sweeps ∨ bit (c.reg .cohSharer 12 [i]) 31 = true ∧ c.slotNode i ∈ c.coh.sweeps

theorem sharerSweeps_iff (i w : Nat) :
    (c.coh.sweeps.contains (bits w 11 0) || (bit (c.reg .cohSharer 12 [i]) 31 && c.coh.sweeps.contains (c.slotNode i))) = true ↔
      c.SharerSweeps i w := by
  rw [Bool.or_eq_true, Bool.and_eq_true, List.contains_iff_mem, List.contains_iff_mem]
  rfl

theorem sharerWrite_refused (i w : Nat) (taken : ¬ c.SharerFree i (putBits w 30 12 0)) :
    c.sharerWrite i w = c.ignored ((Reg.cohSharer).addr 12 [i]) :=
  if_pos (Bool.eq_true_of_not_eq_false (mt (binding_free_iff _ _ _ _ _).mp taken))

theorem sharerWrite_held (i w : Nat) (free : c.SharerFree i (putBits w 30 12 0)) (sweeps : c.SharerSweeps i (putBits w 30 12 0)) :
    c.sharerWrite i w =
      { c with coh := { c.coh with heldWr := (c.coh.heldWr.filter fun h => h.1 != i) ++ [(i, BitVec.ofNat 32 (putBits w 30 12 0))] } } :=
  (if_neg (ne_true_of_eq_false ((binding_free_iff _ _ _ _ _).mpr free))).trans (if_pos ((sharerSweeps_iff _ _ _).mpr sweeps))

theorem sharerWrite_taken (i w : Nat) (free : c.SharerFree i (putBits w 30 12 0)) (rests : ¬ c.SharerSweeps i (putBits w 30 12 0)) :
    c.sharerWrite i w =
      ({ c with coh := { c.coh with lostNodes := (c.coh.lostNodes.erase (bits (putBits w 30 12 0) 11 0)).erase (c.slotNode i) } } : Chip).setReg
        .cohSharer 12 [i] (putBits w 30 12 0) :=
  (if_neg (ne_true_of_eq_false ((binding_free_iff _ _ _ _ _).mpr free))).trans (if_neg (mt (sharerSweeps_iff _ _ _).mp rests))

theorem quiet_coh (h : Coh) : Quiet c { c with coh := h } := quiet_of _ _ rfl rfl rfl rfl (fun h => h) fun h => h

theorem quiet_sharerWrite (i w : Nat) : Quiet c (c.sharerWrite i w) :=
  quiet_ite (quiet_ignored _ _) (quiet_ite (quiet_coh _ _) ((quiet_coh _ _).trans (quiet_setReg _ _ _ _ _)))

/-! ### Shares (R349) -/

theorem shareWrite_port {die : Nat} (p w : Nat) (h8 : 8 ≤ die) :
    c.shareWrite die p w =
      if 196608 < (((List.range 64).filter (· != p)).map (c.shareMin die)).sum + 16 * bits w 31 16 ∨
          min 14336 (bits w 15 0) < bits w 31 16 then c.ignored ((Reg.swcPartShare).addr die [p])
      else c.setReg .swcPartShare die [p] w := if_neg (Nat.not_lt.mpr h8)

theorem quiet_shareWrite (die p w : Nat) : Quiet c (c.shareWrite die p w) :=
  quiet_ite (.rfl' c) (quiet_ite (quiet_ignored _ _) (quiet_setReg _ _ _ _ _))

theorem quiet_probe (die : Nat) : Quiet c (c.probe die) := quiet_coh _ _

end

/-- Settles O23: a privileged store has its table's effect (`store_*`), and each clause is a branch of that effect. -/
theorem fabricTableWritesAct : Obligations.FabricTableWritesAct := by
  unfold Obligations.FabricTableWritesAct
  intro s m v hs hm
  dsimp only
  refine ⟨fun n hn => ?nodes, fun i hi => ?streams, fun i hi => ?sharers, fun die h8 h12 hd p hp => ?shares,
    fun die h8 hd => ?probe⟩
  case nodes =>
    have row {e : Chip} (he : s.chip.nodeWrite n (s.chip.written .gtxNode 12 [n] v) = e) :
        Becomes s (.gtxNodeWrite m n v) (e.busResp 0 0) :=
      becomes_store hs rfl (store_gtxNode s.chip m v hm n hn) he (quiet_nodeWrite _ _ _)
    exact ⟨fun one exist => row (nodeWrite_taken _ _ _ one exist), fun bad => row (nodeWrite_refused _ _ _ bad)⟩
  case streams =>
    have row {e : Chip} (he : s.chip.streamSet i (s.chip.written .gtxStream 12 [i] v) = e) :
        Becomes s (.gtxStreamWrite m i v) (e.busResp 0 0) :=
      becomes_store hs rfl (store_gtxStream s.chip m v hm i hi) he (quiet_streamSet _ _ _)
    exact ⟨fun free done => row (streamSet_done _ _ _ free done), fun free runs => row (streamSet_inUse _ _ _ free runs),
      fun taken => row (streamSet_refused _ _ _ taken)⟩
  case sharers =>
    have row {e : Chip} (he : s.chip.sharerWrite i (s.chip.written .cohSharer 12 [i] v) = e) :
        Becomes s (.cohSharerWrite m i v) (e.busResp 0 0) :=
      becomes_store hs rfl (store_cohSharer s.chip m v hm i hi) he (quiet_sharerWrite _ _ _)
    exact ⟨fun free rests => row (sharerWrite_taken _ _ _ free rests), fun free sweeps => row (sharerWrite_held _ _ _ free sweeps),
      fun taken => row (sharerWrite_refused _ _ _ taken)⟩
  case shares =>
    have row {e : Chip} (he : s.chip.shareWrite die p (s.chip.written .swcPartShare die [p] v) = e) :
        Becomes s (.swcPartShareWrite m die p v) (e.busResp 0 0) :=
      becomes_store hs rfl (store_swcPartShare s.chip m v hm die p h8 h12 hd hp) he (quiet_shareWrite _ _ _ _)
    exact ⟨fun fits order => row ((shareWrite_port _ _ _ h8).trans (if_neg (not_or_intro (Nat.not_lt.mpr fits) (Nat.not_lt.mpr order)))),
      fun bad => row ((shareWrite_port _ _ _ h8).trans (if_pos bad))⟩
  case probe =>
    exact becomes_store hs rfl (store_cohProbeAddrHi s.chip m v hm die h8 hd) rfl ((quiet_setReg _ _ _ _ _).trans (quiet_probe _ _))

end Sys2Proof.Machine
end

section
/-! SUPPORT. Requests that run to their end on free lines, or on a line whose holder gives it up (R280, R281, R286, R288,
R292, R401, R404): the state in which each is performed. -/

namespace Sys2Proof.Machine

theorem kept_sharer {c d : Chip} (h : d.ctl.regs = c.ctl.regs) (n : Nat) : d.sharer? n = c.sharer? n := by
  unfold Chip.sharer? Chip.idxs
  rw [h]

theorem reissued_regs (c : Chip) (q : Nat) (r : Req) : (c.reissued q r).ctl.regs = c.ctl.regs := by
  rw [show _ = _ from switched_reissued c q r]

/-- The late checks of a request that is neither a multicast store nor a message are the checks of its region. -/
theorem lateChecks_checks (c : Chip) (t : Bool) (q : Nat) (r : Req) {region obj off : Nat} (h10 : r.opc ≠ 10) (h12 : r.opc ≠ 12)
    (hc : c.checks (if t then Who.tester else Who.fabric) q r = (.ok region obj off, c)) :
    c.lateChecks t q r = (.ok region obj off, [], c) := by
  unfold Chip.lateChecks
  rw [if_neg h12, if_neg h10]
  dsimp only
  rw [hc]

/-- Settles O52: a request that passes its checks is performed in the admitted state (`ad_unlogged`, `ad_logged`), and what
it does there is its row's own effect (`row_lines`, `row_new`, `row_owned`). -/
theorem requestsComplete : Obligations.RequestsComplete := by
  unfold Obligations.RequestsComplete
  intro s p q region obj off r hs ht c who x
  refine ⟨?unlogged, ?logged⟩
  case unlogged =>
    intro hl d y e hc
    have main : c.request p (opcVc r.opc) r.opc r = e.perform y := ad_unlogged s p q region obj off r ht hl hc y rfl
    have quiet : Quiet c e := (switched_reissued _ _ _).quiet.trans ((quiet_takeId _).trans (quiet_admitted _ _ _))
    have regs : d.ctl.regs = c.ctl.regs := reissued_regs c q r
    have slot (n : Nat) : e.sharer? n = c.sharer? n := kept_sharer ((admitted_regs d p y).trans regs) n
    refine ⟨fun ho free => row_lines s p r e y hs main quiet rfl none rfl free _ 0 1 rfl (.inl rfl) rfl ho,
      fun l i w one hi => ⟨fun free home way => ?taken, fun ho reach stall en found mine alive => ?given⟩⟩
    case taken =>
      have row := row_new s p r e y hs main quiet rfl none rfl l i w one ((slot _).trans hi) free home way
      exact ⟨fun ho => row _ 2 rfl (.inl rfl) ho _ rfl, fun ho => row _ 3 rfl (.inr rfl) ho _ rfl⟩
    case given =>
      obtain ⟨exclusive, shared, -⟩ := row_owned s p r e y hs main quiet rfl none rfl l i en one ((slot _).trans hi) found mine alive reach stall
      exact ⟨exclusive ho, shared ho⟩
  case logged =>
    intro hl i hi hf d cells y e fits hc
    have main (h9 : r.opc ≠ 9) (h10 : r.opc ≠ 10) (h12 : r.opc ≠ 12) : c.request p (opcVc r.opc) r.opc r = e.perform y :=
      ad_logged s p q region obj off i r [] ht hl hi hf fits (lateChecks_checks _ _ _ _ h10 h12 hc) y
        (by rw [if_neg (not_or_intro h9 (not_or_intro h10 h12))])
    have quiet : Quiet c e := (quiet_logs _ _ _ _ _).trans (quiet_admitted _ _ _)
    have slot (n : Nat) : e.sharer? n = c.sharer? n := kept_sharer ((admitted_regs d p y).trans (logs_regs c p q i r)) n
    refine ⟨fun free => ?lines, fun ho l j en one reach stall hj found exclusive mine alive => ?written⟩
    case lines =>
      have row {op vc : Nat} {instr : Instr} (ho : r.opc = op) (stores : op = 4 ∨ op = 7 ∨ op = 8 ∨ op = 11)
          (means : exec instr s = act s (c.request p vc op r)) (channel : vc = opcVc op) :=
        row_lines s p r e y hs (main (by omega) (by omega) (by omega)) quiet rfl _ rfl free instr vc op means (.inr stores) channel ho
      exact ⟨fun ho => row ho (by decide) rfl rfl, fun ho => row ho (by decide) rfl rfl, fun ho => row ho (by decide) rfl rfl,
        fun ho => row ho (by decide) rfl rfl⟩
    case written =>
      obtain ⟨-, -, back⟩ := row_owned s p r e y hs (main (by omega) (by omega) (by omega)) quiet rfl _ rfl l j en one
        ((slot _).trans hj) found mine alive reach stall
      exact back ho exclusive

end Sys2Proof.Machine
end

section
/-! SUPPORT. What the rows of link states, training and retrain mean: one lemma for each case (R313, R316 to R318, R325 to
R335, R338). -/

namespace Sys2Proof.Machine

/-! ### A port that goes -/

/-- The port goes after counts and events that its cause has raised. -/
theorem goes_notes (s : State) (i : Instr) (p k : Nat) (failed : Bool) (c d : Chip) (hi : exec i s = act s (d.portGone p failed k))
    (n : Noted c d) (hc : c.Still) (he : c.LinkEmpty p) (hr : c.NoRings) :
    NotesTo s i (c.linkGone p (if failed then .failed else .down) k) := by
  have empty : d.LinkEmpty p := empty_of c d p he (noted_gtx n) (by rw [noted_port n]) (by rw [noted_port n]) (by rw [noted_port n])
    (by rw [noted_port n]) (by rw [noted_port n])
  have gone := gone_notes s i p k failed d _ hi rfl (n.still hc) empty (noRings_of c d hr (noted_regs n))
  rw [noting_linkGone n] at gone
  exact notes_of gone

section
variable {c : Chip} {p : Nat}

theorem usable_false (ha : (c.port p).st ≠ .active) (hn : (c.port p).st ≠ .narrow) : c.usable p = false := by
  simp [Chip.usable, ha, hn]

theorem usable_up (hu : c.usable p = true) : (c.port p).st ≠ .down := by
  rcases (usable_st c p).mp hu with h | h <;> simp [h]

theorem rxHdr_usable {h : FlitHdr} (hn : h.nak = false) (hu : c.usable p = true) : (c.rxHdr p h).usable p = true :=
  (usable_st _ p).mpr ((rxHdr_keeps c p h hn).2.1 ▸ (usable_st c p).mp hu)

theorem carries_train (h : (c.port p).st = .train) : c.carries p = false := by
  simp [Chip.carries, Chip.testUp, Chip.usable, h]

/-- In training a header is only counted. -/
theorem rxHdr_train (h : FlitHdr) (ht : (c.port p).st = .train) : c.rxHdr p h = c.portBump .lnkFlitsRx p :=
  rxHdr_early c p h (by simp [ht]) (by simp [ht]) (carries_train ht)

theorem trainTimeout_due (ht : (c.port p).st = .train)
    (due : (c.port p).enterTick + max 1 (c.fld .lnkGlb (portDie p) [] 31 16) * 1000 ≤ c.tick) :
    c.trainTimeout p = c.portFailed p 6 := by
  unfold Chip.trainTimeout Chip.due
  exact if_pos (by simp only [ht, decide_true, Bool.true_and]; exact decide_eq_true due)

theorem retrainTimeout_due (ht : (c.port p).st = .retrain) (due : (c.port p).enterPcs + c.retrainTmo p ≤ (c.port p).pcs) :
    c.retrainTimeout p = c.portFailed p 7 := by
  unfold Chip.retrainTimeout
  exact if_pos (by simp [ht, due])

theorem creditTimeout_due {vc : Nat} (hv : vc < 4) (hu : c.usable p = true) (none : (c.port p).avail vc = 0)
    (due : (c.port p).credSince.getD vc 0 + c.credTmo p ≤ (c.port p).pcs) :
    c.creditTimeout p vc =
      (((c.modPort p fun q => { q with cause := 5 }).portBump .lnkCredTmo p).linkEvent Ev.credTimeout p).portFailed p 5 := by
  unfold Chip.creditTimeout
  exact if_pos (by simp only [hv, hu, none, decide_eq_true due, decide_true, beq_self_eq_true, Bool.and_self])

/-- A port in any state but DOWN that carries no messages goes DOWN without a word. -/
theorem portDown_silent (hd : (c.port p).st ≠ .down) (hu : c.usable p = false) : c.portDown p = c.portGone p false 10 := by
  unfold Chip.portDown
  simp only [hd, hu, if_false, Bool.false_eq_true]

/-- One that carries messages tells its peer first (R335). -/
theorem portDown_usable (hu : c.usable p = true) :
    c.portDown p = ((c.modPort p fun q => { q with
      lastTx := q.flitBytes { ftype := 2, seq := q.txSeq } (ctrlBytes 6 (c.ctrlBody p q.lanes q.width 0)) }).portBump
        .lnkFlitsTx p).portGone p false 10 := by
  unfold Chip.portDown
  simp only [usable_up hu, hu, if_false, if_true]

/-- The command DOWN. -/
theorem cmdDown_up (hp : c.portExists p = true) (hd : (c.port p).st ≠ .down) : c.cmdDown p = c.portDown p := by
  unfold Chip.cmdDown
  exact if_pos (by simp [hp, hd])

theorem cmdTestExit_test (hp : c.portExists p = true) (ht : (c.port p).st = .test) : c.cmdTestExit p = c.portDown p := by
  unfold Chip.cmdTestExit
  exact if_pos (by simp [hp, ht])

/-- GOING_DOWN of the peer, in training. -/
theorem goingDown_train (h : FlitHdr) (hp : c.portExists p = true) (ht : (c.port p).st = .train) :
    c.goingDown p h = (c.portBump .lnkFlitsRx p).portFailed p 9 := by
  unfold Chip.goingDown
  rw [hp, rxHdr_train h ht]
  exact (if_neg (by decide)).trans (if_pos (by simp [port_bump, ht]))

/-- GOING_DOWN of the peer, on a port that carries messages. -/
theorem goingDown_usable {h : FlitHdr} (hn : h.nak = false) (hp : c.portExists p = true) (hu : c.usable p = true) :
    c.goingDown p h = (c.rxHdr p h).portFailed p 9 := by
  unfold Chip.goingDown
  rw [hp]
  exact (if_neg (by decide)).trans (if_pos (by simp [rxHdr_usable hn hu]))

end

/-- Settles O26: each row by the case of its meaning that the clause describes; the port goes after what it notes. -/
theorem linksFailAndGoDown : Obligations.LinksFailAndGoDown := by
  unfold Obligations.LinksFailAndGoDown
  intro s p h b hs hr c q
  refine ⟨fun he => ⟨fun ht due => ?train, fun ht due => ?retrain, fun vc hv hu none due => ?credit, fun hp ht => ?peer,
    fun hp ht => ?testEnd, fun hp hf => ?failed, fun hp hu => ?up⟩, fun he hp hu hn => ?carrying⟩
  case train => exact gone_notes s _ p 6 true c _ rfl (trainTimeout_due ht due) hs he hr
  case retrain => exact gone_notes s _ p 7 true c _ rfl (retrainTimeout_due ht due) hs he hr
  case credit =>
    have noted := (noted_portBump (c.modPort p fun q => { q with cause := 5 }) .lnkCredTmo p 1).trans
      (noted_linkEvent _ Ev.credTimeout p (noRings_of c _ hr (modBump_regs ..)))
    rw [← linkGone_cause c p 5]
    exact gone_mod s _ p 5 true _ _ _ rfl (creditTimeout_due hv hu none due) noted hs he hr (fun _ => rfl) (fun _ => rfl)
      (fun _ => rfl) (fun _ => rfl) fun _ => rfl
  case peer =>
    exact goes_notes s _ p 9 true c _ (congrArg (act s) (goingDown_train h hp ht)) (noted_portBump ..) hs he hr
  case testEnd =>
    have up : (c.port p).st ≠ .down := fun e => nomatch ht.symm.trans e
    have silent : c.usable p = false := usable_false (fun e => nomatch ht.symm.trans e) fun e => nomatch ht.symm.trans e
    exact gone_notes s _ p 10 false c _ rfl ((cmdTestExit_test hp ht).trans (portDown_silent up silent)) hs he hr
  case failed =>
    have up : (c.port p).st ≠ .down := fun e => nomatch hf.symm.trans e
    have silent : c.usable p = false := usable_false (fun e => nomatch hf.symm.trans e) fun e => nomatch hf.symm.trans e
    exact gone_notes s _ p 10 false c _ rfl ((cmdDown_up hp up).trans (portDown_silent up silent)) hs he hr
  case up =>
    exact gone_mod s _ p 10 false _ _ _ rfl ((cmdDown_up hp (usable_up hu)).trans (portDown_usable hu)) (noted_portBump ..) hs he hr
      (fun _ => rfl) (fun _ => rfl) (fun _ => rfl) (fun _ => rfl) fun _ => rfl
  case carrying =>
    obtain ⟨quiet, -, regs, -⟩ := rxHdr_keeps c p h hn
    exact gone_notes s _ p 9 true _ _ rfl (goingDown_usable hn hp hu) (quiet.still hs) he (noRings_of c _ hr regs)

end Sys2Proof.Machine
end

section
/-! SUPPORT. How a port comes up: lane locks, restarts, training records and acknowledgements (R316, R318, R330, R333, R334,
R337, R439). -/

namespace Sys2Proof.Machine

theorem Noted.modPort {c d : Chip} (h : Noted c d) (p : Nat) (f : Port → Port) : Noted (c.modPort p f) (d.modPort p f) := by
  refine ⟨?_, h.more, h.sess, h.queue⟩
  unfold Chip.modPort Chip.setPort Chip.port
  rw [h.eq]; rfl

theorem Noted.sendCtrl {c d : Chip} (n : Noted c d) (p t l w r : Nat) : Noted (c.sendCtrl p t l w r) (d.sendCtrl p t l w r) := by
  have body : d.ctrlBody p l w r = c.ctrlBody p l w r := by rw [n.eq]; rfl
  rw [sendCtrl_eq, sendCtrl_eq, body]
  exact n.modPort p _

theorem quiet_startTrain (c : Chip) (p : Nat) (st : LinkState) : Quiet c (c.startTrain p st) :=
  quiet_of _ _ rfl rfl rfl rfl (fun h => h) fun h => h

section
variable {c : Chip} {p : Nat}

/-! ### Leaving DOWN and FAILED (R316) -/

theorem laneLock_good {lane : Nat} (hp : c.portExists p = true) (good : bit (c.goodLanes p) lane = true)
    (hd : (c.port p).st ≠ .down) (hf : (c.port p).st ≠ .failed) :
    c.laneLock p lane = c.modPort p fun q => { q with locked := q.locked ||| 2 ^ lane } := by
  unfold Chip.laneLock
  exact if_pos (by simp [hp, good, hd, hf])

theorem cmdRestart_failed (hf : (c.port p).st = .failed) (on : c.linkOn p = true) : c.cmdRestart p = c.startTrain p .train := by
  unfold Chip.cmdRestart
  exact if_pos (by simp [hf, on])

theorem autoRestart_due (hf : (c.port p).st = .failed) (on : c.linkOn p = true) (auto : bit (c.portReg .lnkPortCfg p) 30 = true)
    (due : (c.port p).enterTick + max 1 (c.fld .lnkGlb (portDie p) [] 15 0) * 1000 ≤ c.tick) :
    c.autoRestart p = c.startTrain p .train := by
  unfold Chip.autoRestart Chip.due
  exact if_pos (by simp only [hf, on, auto, decide_true, Bool.true_and]; exact decide_eq_true due)

theorem cmdTestEnter_idle (hp : c.portExists p = true) (en : c.enabled 2 (portDie p) = true) (alive : c.boot.state ≠ .dead)
    (idle : (c.port p).st = .failed ∨ (c.port p).st = .down) : c.cmdTestEnter p = c.startTrain p .test := by
  unfold Chip.cmdTestEnter
  exact if_pos (by rcases idle with h | h <;> simp [hp, en, alive, h])

theorem linkOn_dead (dead : c.boot.state = .dead) : c.linkOn p = false := by
  simp [Chip.linkOn, dead]

theorem cmdTestEnter_dead (dead : c.boot.state = .dead) : c.cmdTestEnter p = c.cmdIgnored p := by
  unfold Chip.cmdTestEnter
  exact if_neg (by simp [dead])

theorem leaveDown_on (hd : (c.port p).st = .down) (on : c.linkOn p = true) : c.leaveDown p = c.startTrain p .train := by
  unfold Chip.leaveDown
  exact if_pos (by simp [hd, on])

theorem leaveDown_off (off : c.linkOn p = false) : c.leaveDown p = c := by
  unfold Chip.leaveDown
  exact if_neg (by simp [off])

theorem portDown_down (hd : (c.port p).st = .down) : c.portDown p = c := by
  unfold Chip.portDown
  exact if_pos hd

theorem linkOn_exists (on : c.linkOn p = true) : c.portExists p = true := by
  unfold Chip.linkOn at on
  simp only [Bool.and_eq_true] at on
  exact on.1.2

theorem flitSend_down (hd : (c.port p).st = .down) (on : c.linkOn p = true) : c.flitSend p = c.startTrain p .train := by
  unfold Chip.flitSend
  simp [linkOn_exists on, hd, leaveDown_on hd on]

/-! ### Training records (R318, R330) -/

/-- Before a test has trained, a header is only counted. -/
theorem rxHdr_test (h : FlitHdr) (ht : (c.port p).st = .test) (none : (c.port p).lanes = 0) : c.rxHdr p h = c.portBump .lnkFlitsRx p :=
  rxHdr_early c p h (by simp [ht]) (by simp [ht]) (by simp [Chip.carries, Chip.testUp, Chip.usable, ht, none])

/-- What a training record leaves in the port. -/
def Port.heard (b : CtrlBody) (q : Port) : Port :=
  { q with recSeen := true, peerLanes := b.lanes % 16, peerRank := b.rank, peerEnc := b.enc }

theorem trainRec_training {h : FlitHdr} {b : CtrlBody} (hp : c.portExists p = true) (counted : c.rxHdr p h = c.portBump .lnkFlitsRx p)
    (tr : c.training p = true) : c.trainRec p h b = (c.portBump .lnkFlitsRx p).chooseWidth p b := by
  unfold Chip.trainRec
  rw [hp, counted]
  exact (if_neg (by decide)).trans (if_pos tr)

theorem heard_eq (b : CtrlBody) :
    (fun q : Port => { q with recSeen := true, peerLanes := b.lanes % 16, peerRank := b.rank, peerEnc := b.enc }) = Port.heard b := rfl

/-- What training keeps of the port that has heard a record. -/
theorem heard_keeps {e : Chip} {b : CtrlBody} (he : c.modPort p (Port.heard b) = e) :
    e.port p = (c.port p).heard b ∧ e.rank p = c.rank p ∧ e.minWidth p = c.minWidth p ∧ e.authEnc p = c.authEnc p := by
  subst he
  exact ⟨port_modPort .., rfl, rfl, rfl⟩

/-- Lanes and ranks agree, and so do the keys: the record is acknowledged. -/
theorem chooseWidth_acks {b : CtrlBody} (offer : (c.port p).offer ≠ 0) (other : b.rank ≠ c.rank p) (keys : c.keysOk p b.enc = true)
    {l w : Nat} (best : bestSet ((c.port p).offer &&& (b.lanes % 16)) = some (l, w)) (wide : c.minWidth p ≤ w) :
    c.chooseWidth p b = ((c.modPort p (Port.heard b)).modPort p fun q => { q with acked := true }).sendCtrl p 2 l w b.reqId := by
  unfold Chip.chooseWidth
  rw [heard_eq]
  generalize he : c.modPort p (Port.heard b) = e
  obtain ⟨port, rank, width, auth⟩ := heard_keeps he
  have keys' : e.keysOk p b.enc = true := by
    unfold Chip.keysOk at keys ⊢
    rw [port, auth]; exact keys
  have offer' : ((c.port p).heard b).offer = (c.port p).offer := rfl
  simp only [port, rank, width, keys', offer', offer, beq_eq_false_iff_ne.mpr other, best, Nat.not_lt.mpr wide, Bool.false_and,
    Bool.false_eq_true, if_false, false_and, Bool.not_true]

theorem noted_authEnc {c d : Chip} (n : Noted c d) (p : Nat) : d.authEnc p = c.authEnc p := by rw [n.eq]; rfl

/-- Equal ranks leave a port in TEST where it is (R330). -/
theorem rankEqual_test (ht : (c.port p).st = .test) (hr : c.NoRings) :
    Noted (c.modPort p fun q => { q with cause := 8 }) (c.rankEqual p) := by
  have noted := noted_linkEvent (c.modPort p fun q => { q with cause := 8 }) Ev.rankEqual p (noRings_of c _ hr rfl)
  unfold Chip.rankEqual
  dsimp only
  rwa [if_pos]
  rw [noted_port noted, port_modPort]
  exact ht

/-- The record of a peer of equal rank, in TEST: training goes on after its event (R330, R334). -/
theorem chooseWidth_equal {b : CtrlBody} (hr : c.NoRings) (ht : (c.port p).st = .test) (offer : (c.port p).offer ≠ 0) (equal : b.rank = c.rank p)
    (first : (c.port p).acked = false) (keys : c.keysOk p b.enc = true) {l w : Nat}
    (best : bestSet ((c.port p).offer &&& (b.lanes % 16)) = some (l, w)) :
    c.chooseWidth p b =
      (((c.modPort p (Port.heard b)).rankEqual p).modPort p fun q => { q with acked := true }).sendCtrl p 2 l w b.reqId := by
  unfold Chip.chooseWidth
  rw [heard_eq]
  generalize he : c.modPort p (Port.heard b) = e
  obtain ⟨port, rank, width, auth⟩ := heard_keeps he
  have offer' : ((c.port p).heard b).offer = (c.port p).offer := rfl
  have first' : ((c.port p).heard b).acked = false := first
  have test' : ((c.port p).heard b).st = .test := ht
  have noted := rankEqual_test (c := e) (port ▸ test') (he ▸ noRings_of c _ hr rfl)
  have keys' : (e.rankEqual p).keysOk p b.enc = true := by
    unfold Chip.keysOk at keys ⊢
    rw [noted_authEnc noted, noted_port noted, port_modPort, port]
    exact auth.symm ▸ keys
  simp only [port, rank, equal, beq_self_eq_true, test', bne_self_eq_false, Bool.and_false, Bool.false_eq_true, if_false, keys', offer',
    offer, first', Bool.not_false, Bool.and_true, if_true, best, ne_eq, not_true, and_false, Bool.not_true]

/-! ### The end of training (R318) -/

theorem training_train (ht : (c.port p).st = .train) : c.training p = true := by
  simp [Chip.training, ht]

theorem training_test (ht : (c.port p).st = .test) (none : (c.port p).lanes = 0) : c.training p = true := by
  simp [Chip.training, ht, none]

theorem trainAck_acked {h : FlitHdr} {b : CtrlBody} (hp : c.portExists p = true) (ht : (c.port p).st = .train) (acked : (c.port p).acked = true) :
    c.trainAck p h b = (c.portBump .lnkFlitsRx p).trained p b := by
  have acked' : ((c.portBump .lnkFlitsRx p).port p).acked = true := acked
  have training : (c.portBump .lnkFlitsRx p).training p = true := training_train ht
  unfold Chip.trainAck
  simp only [hp, rxHdr_train h ht, training, acked', Bool.not_true, Bool.false_eq_true, if_false, if_true, Bool.and_self]

/-- The port that a full training ends at lanes `l` of width `w`. -/
def Chip.linkUp (c : Chip) (p l w : Nat) (b : CtrlBody) (q : Port) : Port :=
  { q.freshLink w b.initCred (if c.authEnc p then q.nextKeys else none) with
    st := if w = c.portWidth p then .active else .narrow
    lanes := l, width := w, enterTick := c.tick, enterPcs := q.pcs, own := none
    credSince := [q.pcs, q.pcs, q.pcs, q.pcs], upOnce := true
    gate := { q.gate with entry := 0, start := q.pcs } }

theorem trained_thin {b : CtrlBody} {l w : Nat} (best : bestSet ((c.port p).offer &&& (c.port p).peerLanes) = some (l, w))
    (ht : (c.port p).st = .train) (thin : w < c.minWidth p) : c.trained p b = c.portFailed p 11 := by
  unfold Chip.trained
  simp [best, ht, thin]

theorem trained_up {b : CtrlBody} {l w : Nat} (hr : c.NoRings) (best : bestSet ((c.port p).offer &&& (c.port p).peerLanes) = some (l, w))
    (ht : (c.port p).st = .train) (wide : c.minWidth p ≤ w) : Noted (c.modPort p (c.linkUp p l w b)) (c.trained p b) := by
  unfold Chip.trained
  extract_lets q
  rw [best]
  change Noted _ (if w < c.minWidth p ∧ q.st ≠ .test then _ else _)
  rw [if_neg fun thin => Nat.not_lt.mpr wide thin.1]
  extract_lets q1 st d
  have fresh : q1 = q.freshLink w b.initCred (if c.authEnc p then q.nextKeys else none) := if_neg (by rw [show q.st = .train from ht]; decide)
  have state : st = if w = c.portWidth p then .active else .narrow := if_neg (by rw [show q.st = .train from ht]; decide)
  have up : d.gateRestart p = c.modPort p (c.linkUp p l w b) := by
    unfold d Chip.gateRestart Chip.modPort
    rw [port_setPort, setPort_setPort, fresh, state]
    rfl
  have rings : (d.gateRestart p).NoRings := up ▸ noRings_of c _ hr rfl
  have upEvent := noted_linkEvent (d.gateRestart p) Ev.linkUp p rings
  have narrowEvent := noted_linkEvent _ Ev.linkNarrow p (noRings_of _ _ rings (noted_regs upEvent))
  rw [show q.st = .train from ht, ← up]
  change Noted _ (if st = .narrow then _ else _)
  split
  · exact upEvent.trans narrowEvent
  · exact upEvent

end

/-! ### A write of LNK_PORT_CFG (R337) -/

theorem regEffect_lnkPortCfg (c : Chip) (die i w v : Nat) : c.regEffect .lnkPortCfg die [i] w v true = c.writePortCfg (portOf die i) w := by
  unfold Chip.regEffect
  exact (if_neg (by decide)).trans rfl

theorem portDie_mem (p : Nat) : portDie p ∈ dPort :=
  (by decide : ∀ k < 4, 8 + k ∈ dPort) _ (by omega)

theorem portOf_portDie {p : Nat} (_ : p < 256) : portOf (portDie p) (portLocal p) = p := by
  unfold portOf portDie portLocal; omega

theorem bit_eq_testBit (w n : Nat) : bit w n = w.testBit n := by
  rw [Nat.testBit_eq_decide_div_mod_eq]; rfl

/-- A stored word reads back by its low 32 bits. -/
theorem bit_reg_setReg (c : Chip) (r : Reg) (die : Nat) (i : List Nat) (w n : Nat) (hn : n < 32) :
    bit ((c.setReg r die i w).reg r die i) n = bit w n := by
  have low : c.setReg r die i w = c.setReg r die i (w % 2 ^ 32) := by
    unfold Chip.setReg
    rw [show BitVec.ofNat 32 (w % 2 ^ 32) = BitVec.ofNat 32 w from BitVec.eq_of_toNat_eq (by simp)]
  rw [low, reg_setReg_self _ _ _ _ _ (Nat.mod_lt _ (by decide)), bit_eq_testBit, bit_eq_testBit, Nat.testBit_mod_two_pow,
    decide_eq_true hn, Bool.true_and]

theorem store_lnkPortCfg (c : Chip) (m : Master) (v : Word) (p : Nat) (hm : m.code ≤ 8) (hp : p < 64) (he : c.portExists p = true)
    (hd : c.dieCut (portDie p) = false) :
    c.busStore m ((Reg.lnkPortCfg).addr (portDie p) [portLocal p]) v =
      (c.writePortCfg p (c.written .lnkPortCfg (portDie p) [portLocal p] v)).busResp 0 0 := by
  have local_ : portLocal p < 16 := by unfold portLocal; omega
  have addr : (Reg.lnkPortCfg).addr (portDie p) [portLocal p] = ctlAddr (portDie p) 2 (0x10000 + 256 * portLocal p) := rfl
  have at_ : (Reg.lnkPortCfg).addr (portDie p) [portLocal p] % 4 = 0 ∧ (Reg.lnkPortCfg).addr (portDie p) [portLocal p] / 2 ^ 44 = portDie p := by
    rw [addr]; unfold ctlAddr; omega
  have inert : c.inert (.reg .lnkPortCfg (portDie p) [portLocal p]) = false := by
    show ((Reg.lnkPortCfg).info.dims.length != 0 && !c.portExists (portOf (portDie p) (portLocal p))) = false
    rw [portOf_portDie (by omega), he]; rfl
  rw [store_priv c m _ v .lnkPortCfg (portDie p) _ hm (slotAt_lnkPortCfg _ _ (portDie_mem p) (by omega)) at_.1 (at_.2.symm ▸ hd) rfl inert
    (if_neg (Nat.not_le.mpr local_)) rfl (by decide), codes_ign _ _ _ _ _ (by decide), when_false, regEffect_lnkPortCfg,
    portOf_portDie (by omega)]

/-- A DOWN port whose SPLIT stays trains when the write leaves it enabled (R316). -/
theorem writePortCfg_down {c : Chip} {p w : Nat} (hp : p < 64) (hd : (c.port p).st = .down)
    (split_ : bits w 29 28 = bits (c.portReg .lnkPortCfg p) 29 28) :
    let d := c.setReg .lnkPortCfg (portDie p) [portLocal p] w
    c.writePortCfg p w = if d.linkOn p then d.startTrain p .train else d := by
  intro d
  have same : (bits w 29 28 != bits (c.portReg .lnkPortCfg p) 29 28) = false := by rw [split_]; exact bne_self_eq_false _
  have down : (d.port p).st = .down := hd
  have on : d.linkOn p = true → bit w 31 = true := fun on => by
    unfold Chip.linkOn at on
    simp only [Bool.and_eq_true] at on
    exact (bit_reg_setReg c _ _ _ w 31 (by decide)).symm.trans on.1.1.1
  unfold Chip.writePortCfg
  simp only [Nat.not_le.mpr hp, if_false, same, hd, decide_true, Bool.true_or, Bool.not_true, Bool.and_false, Bool.false_and,
    Bool.or_self, Bool.false_eq_true, List.filter_false, List.foldl_nil]
  change (if bit w 31 = true then d.leaveDown p else if d.portExists p = true then d.portDown p else d) = _
  rw [portDown_down down, ite_self]
  cases hon : d.linkOn p
  · rw [leaveDown_off hon, ite_self]; rfl
  · rw [if_pos (on hon), leaveDown_on down hon]; rfl

/-- Settles O27: each row by the case of its meaning that the clause describes; training ends through `trained_up`. -/
theorem linksTrain : Obligations.LinksTrain := by
  unfold Obligations.LinksTrain
  intro s p h b hs hp c q start
  have starts {i : Instr} {d : Chip} {st : LinkState} (hi : exec i s = act s d) (e : d = c.startTrain p st) :
      Becomes s i (start c st) := becomes s i _ d hi e (quiet_startTrain c p st) hs
  refine ⟨fun lane good hd hf => ?lock, fun hf on => ⟨?restart, fun auto due => ?autoRestart⟩, fun idle en alive => ?testEnter,
    fun dead => ⟨linkOn_dead dead, fun hd => ?dead⟩, fun m v hm h64 cut hd split_ _ => ?write, fun hd on => ?send,
    fun ht offer keys other l w best wide => ?record, fun hr ht lanes offer keys equal first l w best => ?equalRanks,
    fun hr ht acked l w best => ⟨fun thin he => ?thin, fun wide => ?up⟩⟩
  case lock => exact becomes s _ _ _ rfl (laneLock_good hp good hd hf) (quiet_modPort ..) hs
  case restart => exact starts rfl (cmdRestart_failed hf on)
  case autoRestart => exact starts rfl (autoRestart_due hf on auto due)
  case testEnter => exact starts rfl (cmdTestEnter_idle hp en alive idle)
  case dead => exact becomes s _ _ _ rfl (cmdTestEnter_dead dead) (quiet_ignored ..) hs
  case write =>
    refine becomes s _ _ _ rfl ((store_lnkPortCfg c m v p hm h64 hp cut).trans (congrArg (Chip.busResp · 0 0) (writePortCfg_down h64 hd split_)))
      (Quiet.trans ?_ (quiet_resp _ 0 0)) hs
    split
    · exact (quiet_setReg ..).trans (quiet_startTrain ..)
    · exact quiet_setReg ..
  case send => exact starts rfl (flitSend_down hd on)
  case record =>
    have means : c.trainRec p h b = _ := (trainRec_training hp (rxHdr_train h ht) (training_train ht)).trans
      (chooseWidth_acks (c := c.portBump .lnkFlitsRx p) offer other keys best wide)
    rw [sendCtrl_eq, ctrlBody_modPort, ctrlBody_modPort, ctrlBody_bump, modPort_modPort, modPort_modPort, bump_modPort] at means
    exact becomes s _ _ _ rfl means ((quiet_modPort ..).trans (quiet_portBump ..)) hs
  case equalRanks =>
    have means : c.trainRec p h b = _ := (trainRec_training hp (rxHdr_test h ht lanes) (training_test ht lanes)).trans
      (chooseWidth_equal (c := c.portBump .lnkFlitsRx p) hr ht offer equal first keys best)
    have noted := ((rankEqual_test (c := (c.portBump .lnkFlitsRx p).modPort p (Port.heard b)) ((congrArg Port.st (port_modPort ..)).trans ht)
      (noRings_of c _ hr rfl)).modPort p fun q => { q with acked := true }).sendCtrl p 2 l w b.reqId
    rw [sendCtrl_eq, ctrlBody_modPort, ctrlBody_modPort, ctrlBody_modPort, ctrlBody_bump, modPort_modPort, modPort_modPort,
      modPort_modPort, bump_modPort] at noted
    exact notesTo s _ _ _ (congrArg (act s) means) ((noted_portBump (c.modPort p _) .lnkFlitsRx p 1).trans noted)
      ((quiet_modPort ..).still hs)
  case thin =>
    have means : c.trainAck p h b = _ := (trainAck_acked hp ht acked).trans (trained_thin (c := c.portBump .lnkFlitsRx p) best ht thin)
    exact goes_notes s _ p 11 true c _ (congrArg (act s) means) (noted_portBump ..) hs he hr
  case up =>
    have noted := trained_up (c := c.portBump .lnkFlitsRx p) (b := b) hr best ht wide
    exact notesTo s _ _ _ (congrArg (act s) (trainAck_acked hp ht acked)) (((noted_portBump c .lnkFlitsRx p 1).modPort p _).trans noted)
      ((quiet_modPort ..).still hs)

end Sys2Proof.Machine
end

section
/-! SUPPORT. Control requests and retrains: requests of the port's own, those of its peer and their ACCEPT (R313, R322, R328,
R329, R338). -/

namespace Sys2Proof.Machine

/-- A request that the port makes stands until it is answered, and is sent (R322). -/
def Chip.portAsked (c : Chip) (p : Nat) (o : OwnReq) (q : Port) : Port :=
  { q with
    own := some { o with reqId := q.nextReqId }, nextReqId := (q.nextReqId + 1) % 65536, lastCtrl := q.pcs
    ctrlTx := q.ctrlTx ++ [(o.ctype, c.ctrlBody p o.lanes o.width q.nextReqId)] }

/-- The port has entered RETRAIN (R316, R329). -/
def Chip.portRetrained (c : Chip) (cause keep : Nat) (q : Port) : Port :=
  { q with
    st := .retrain, cause := cause, enterTick := c.tick, enterPcs := q.pcs, recSeen := false, acked := false
    peerLanes := 0, keepLanes := keep, lastCtrl := 0, own := none, resend := [] }

section
variable {c : Chip} {p : Nat}

theorem startReq_new {o : OwnReq} (hu : c.usable p = true) (ho : (c.port p).own = none) : c.startReq p o = c.modPort p (c.portAsked p o) := by
  unfold Chip.startReq
  refine (if_neg (by rw [hu, ho]; decide)).trans ?_
  rw [sendCtrl_eq, modPort_modPort]
  rfl

theorem cmdRetrain_usable (hp : c.portExists p = true) (hu : c.usable p = true) :
    c.cmdRetrain p = c.startReq p { ctype := 3, lanes := (c.port p).lanes, width := (c.port p).width, cause := 10 } := by
  unfold Chip.cmdRetrain
  exact if_pos (by simp [hp, hu])

/-- A set of R313 is found by its lanes. -/
theorem find_laneSets {l w : Nat} (h : (l, w) ∈ laneSets) : (laneSets.find? fun s => s.1 == l) = some (l, w) :=
  (by decide : ∀ e ∈ laneSets, (laneSets.find? fun s => s.1 == e.1) = some e) (l, w) h

theorem cmdNarrow_set {l w : Nat} (hp : c.portExists p = true) (hu : c.usable p = true) (mem : (l, w) ∈ laneSets)
    (sub : l &&& (c.port p).lanes = l) (less : w < (c.port p).width) (wide : c.minWidth p ≤ w) :
    c.cmdNarrow p l = c.startReq p { ctype := 4, lanes := l, width := w, cause := 10 } := by
  unfold Chip.cmdNarrow
  rw [find_laneSets mem]
  exact (if_pos (by simp [hp, hu, sub, less])).trans (if_neg (Nat.not_lt.mpr wide))

theorem training_usable (hu : c.usable p = true) : c.training p = false := by
  rcases (usable_st c p).mp hu with h | h <;> simp [Chip.training, h]

theorem ctrlResend_own {o : OwnReq} (hp : c.portExists p = true) (hu : c.usable p = true) (ho : (c.port p).own = some o)
    (due : (c.port p).lastCtrl + 256 ≤ (c.port p).pcs) :
    c.ctrlResend p = (c.modPort p fun q => { q with lastCtrl := q.pcs }).sendCtrl p o.ctype o.lanes o.width o.reqId := by
  have quiet : ((c.modPort p fun q => { q with lastCtrl := q.pcs }).sendCtrl p o.ctype o.lanes o.width o.reqId).training p = false :=
    training_usable ((usable_st _ _).mpr (by rw [sendCtrl_eq, port_modPort, port_modPort]; exact (usable_st c p).mp hu))
  unfold Chip.ctrlResend
  simp only [hp, hu, ho, Nat.not_lt.mpr due, decide_false, Bool.not_true, Bool.or_self, Bool.false_eq_true, if_false, Bool.true_or,
    if_true, quiet, Bool.false_and]

theorem usable_modPort {f : Port → Port} (hf : ∀ q, (f q).st = q.st) (hu : c.usable p = true) : (c.modPort p f).usable p = true :=
  (usable_st _ _).mpr (by rw [port_modPort, hf]; exact (usable_st c p).mp hu)

/-- A usable port enters RETRAIN, counted and with its event. -/
theorem enterRetrain_after {f : Port → Port} (hf : ∀ q, (f q).st = q.st) (cause keep : Nat) (hu : c.usable p = true) (hr : c.NoRings) :
    Noted (c.modPort p fun q => c.portRetrained cause keep (f q)) ((c.modPort p f).enterRetrain p cause keep) := by
  unfold Chip.enterRetrain
  rw [usable_modPort hf hu, ← modPort_modPort]
  exact (noted_portBump ((c.modPort p f).modPort p (c.portRetrained cause keep)) .lnkRetrain p 1).trans
    (noted_linkEvent _ _ _ (noRings_of c _ hr rfl))

theorem lockLoss_used {lanes : Nat} (hp : c.portExists p = true) (hu : c.usable p = true) (used : (c.port p).lanes &&& (lanes % 16) ≠ 0) :
    c.lockLoss p lanes = (c.modPort p fun q => { q with locked := q.locked &&& (0xF ^^^ (lanes % 16)) }).retrainNow p 1 := by
  have still : (c.modPort p fun q => { q with locked := (c.port p).locked &&& (0xF ^^^ (lanes % 16)) }).usable p = true :=
    usable_modPort (fun _ => rfl) hu
  unfold Chip.lockLoss
  simp only [hp, still, Bool.not_true, Bool.false_eq_true, if_false, bne_iff_ne, ne_eq, used, not_false_eq_true, Bool.true_and, if_true]
  rfl

/-- RETRAIN at once: the request that says so stands (R322, R329). -/
theorem retrainNow_new (cause : Nat) (hu : c.usable p = true) (ho : (c.port p).own = none) (hr : c.NoRings) :
    let q := c.port p
    Noted (((c.sendCtrl p 3 q.lanes q.width q.nextReqId).modPort p (c.portRetrained cause q.lanes)).modPort p fun r => { r with
        own := some { ctype := 3, lanes := q.lanes, width := q.width, cause := cause, reqId := q.nextReqId }
        nextReqId := (q.nextReqId + 1) % 65536 }) (c.retrainNow p cause) := by
  intro q
  have noted := (enterRetrain_after (f := c.portAsked p { ctype := 3, lanes := q.lanes, width := q.width, cause := cause })
    (fun _ => rfl) cause q.lanes hu hr).modPort p fun r => { r with
      own := some { ctype := 3, lanes := q.lanes, width := q.width, cause := cause, reqId := q.nextReqId } }
  unfold Chip.retrainNow
  dsimp only
  rw [startReq_new hu ho, port_modPort]
  rw [modPort_modPort] at noted
  rw [sendCtrl_eq, modPort_modPort, modPort_modPort]
  exact noted

/-- A request of the peer, while none of the port's own stands, is accepted (R329). -/
theorem peerReq_accepts {h : FlitHdr} {b : CtrlBody} (width : Bool) (hp : c.portExists p = true) (hn : h.nak = false)
    (hu : c.usable p = true) (ho : ((c.rxHdr p h).port p).own = none) :
    c.peerReq p h b width = (c.rxHdr p h).acceptReq p b (if width then (c.rxHdr p h).goodLanes p &&& (b.lanes % 16) else (c.rxHdr p h).goodLanes p) := by
  have still := rxHdr_usable hn hu
  unfold Chip.peerReq
  simp only [hp, still, ho, Bool.not_true, Bool.false_eq_true, if_false, Bool.false_and]
  rcases (usable_st _ p).mp still with e | e <;> rw [e] <;> rfl

theorem acceptReq_notes {b : CtrlBody} {keep : Nat} (hu : c.usable p = true) (hr : c.NoRings) :
    Noted ((c.sendCtrl p 5 (c.port p).lanes (c.port p).width b.reqId).modPort p (c.portRetrained 9 keep)) (c.acceptReq p b keep) := by
  exact enterRetrain_after (c := c.sendCtrl p 5 (c.port p).lanes (c.port p).width b.reqId) (f := fun q => { q with own := none })
    (fun _ => rfl) 9 keep (usable_modPort (fun _ => rfl) hu) (noRings_of c _ hr rfl)

/-- The answer to the port's own request (R329). -/
theorem acceptFlit_own {h : FlitHdr} {b : CtrlBody} {o : OwnReq} (hp : c.portExists p = true) (hn : h.nak = false)
    (hu : c.usable p = true) (hr : c.NoRings) (ho : ((c.rxHdr p h).port p).own = some o) (id : o.reqId = b.reqId) :
    Noted ((c.rxHdr p h).modPort p ((c.rxHdr p h).portRetrained o.cause (if o.ctype = 4 ∨ o.cause ≠ 10 then o.lanes else (c.rxHdr p h).goodLanes p)))
      (c.acceptFlit p h b) := by
  have regs : (c.rxHdr p h).ctl.regs = c.ctl.regs := (rxHdr_keeps c p h hn).2.2.1
  have still := rxHdr_usable hn hu
  unfold Chip.acceptFlit
  simp only [hp, ho, id, Bool.not_true, Bool.false_eq_true, if_false, if_true]
  generalize c.rxHdr p h = d at *
  exact enterRetrain_after (f := fun q => { q with
    own := none, keepLanes := if decide ((d.port p).st = .retrain) then q.keepLanes &&& _ else q.keepLanes }) (fun _ => rfl) _ _ still
    (noRings_of c d hr regs)

end

/-- Settles O28: each row by the case of its meaning that the clause describes; the port enters RETRAIN through
`enterRetrain_after`. -/
theorem linksRetrain : Obligations.LinksRetrain := by
  unfold Obligations.LinksRetrain
  intro s p h b hs hr hp hu hn c q asks retrains sends
  obtain ⟨quiet, -, regs, boot⟩ := rxHdr_keeps c p h hn
  have rings : (c.rxHdr p h).NoRings := noRings_of c _ hr regs
  have good : (c.rxHdr p h).goodLanes p = c.goodLanes p := by
    unfold Chip.goodLanes Chip.portLanes Chip.split Chip.fld Chip.reg
    rw [regs, boot]
  refine ⟨fun ho => ?retrain, fun ho l w mem sub less wide => ?narrow, fun o ho due => ?resend, fun lanes used ho => ?lockLoss,
    fun ho => ⟨?retrainReq, ?widthReq⟩, fun o ho id => ?accept⟩
  case retrain => exact becomes s _ _ _ rfl ((cmdRetrain_usable hp hu).trans (startReq_new hu ho)) (quiet_modPort ..) hs
  case narrow => exact becomes s _ _ _ rfl ((cmdNarrow_set hp hu mem sub less wide).trans (startReq_new hu ho)) (quiet_modPort ..) hs
  case resend => exact becomes s _ _ _ rfl (ctrlResend_own hp hu ho due) ((quiet_modPort ..).trans (quiet_modPort ..)) hs
  case lockLoss =>
    have noted := retrainNow_new (c := c.modPort p fun q => { q with locked := q.locked &&& (0xF ^^^ (lanes % 16)) }) (p := p) 1
      (usable_modPort (fun _ => rfl) hu) ((congrArg Port.own (port_modPort ..)).trans ho) (noRings_of c _ hr rfl)
    rw [port_modPort] at noted
    exact notesTo s _ _ _ (congrArg (act s) (lockLoss_used hp hu used)) noted
      ((((quiet_modPort ..).trans (quiet_modPort ..)).trans ((quiet_modPort ..).trans (quiet_modPort ..))).still hs)
  case retrainReq =>
    have noted := acceptReq_notes (b := b) (keep := c.goodLanes p) (rxHdr_usable hn hu) rings
    exact notesTo s _ _ _ (congrArg (act s) ((peerReq_accepts false hp hn hu ho).trans (by rw [good]; rfl))) noted
      ((quiet.trans ((quiet_modPort ..).trans (quiet_modPort ..))).still hs)
  case widthReq =>
    have noted := acceptReq_notes (b := b) (keep := c.goodLanes p &&& (b.lanes % 16)) (rxHdr_usable hn hu) rings
    exact notesTo s _ _ _ (congrArg (act s) ((peerReq_accepts true hp hn hu ho).trans (by rw [good]; rfl))) noted
      ((quiet.trans ((quiet_modPort ..).trans (quiet_modPort ..))).still hs)
  case accept =>
    have noted := acceptFlit_own hp hn hu hr ho id
    rw [good] at noted
    exact notesTo s _ _ _ rfl noted ((quiet.trans (quiet_modPort ..)).still hs)

end Sys2Proof.Machine
end

section
/-! SUPPORT. Flits that arrive: headers, DATA flits and a response of one unit (R319, R320, R324, R326). -/

namespace Sys2Proof.Machine

/-! ### Headers (R324, R326) -/

/-- A header's ACK and credits change the replay buffer and the grants alone. -/
theorem takeHdr_frame (h : FlitHdr) (q : Port) : ∃ kept resend row granted since,
    Port.takeHdr h q = { q with kept := kept, resend := resend, replaysRow := row, granted := granted, credSince := since } := by
  unfold Port.takeHdr Port.takeAck Port.takeCcum
  dsimp only
  split <;> split <;> exact ⟨_, _, _, _, _, rfl⟩

/-- A flit counts in the error window. -/
def Port.counted (q : Port) : Port := { q with winFlits := q.winFlits + 1 }

/-- The first ACK after a retrain starts a resend of every kept flit (R327). -/
def Port.resumed (q : Port) : Port :=
  if q.resumeAck then
    { q with resumeAck := false, resend := q.kept.map (·.seq), kept := q.kept.map fun k => { k with sentAt := q.pcs } }
  else q

/-- What a header without NAK leaves in a port that carries messages. -/
def Port.gotHdr (h : FlitHdr) (q : Port) : Port := (Port.takeHdr h q.counted).resumed

theorem gotHdr_frame (h : FlitHdr) (q : Port) : ∃ kept resend row granted since resume,
    Port.gotHdr h q = { q with
      winFlits := q.winFlits + 1, kept := kept, resend := resend, replaysRow := row, granted := granted, credSince := since
      resumeAck := resume } := by
  obtain ⟨kept, resend, row, granted, since, e⟩ := takeHdr_frame h q.counted
  unfold Port.gotHdr Port.resumed
  rw [e]
  split <;> exact ⟨_, _, _, _, _, _, rfl⟩

theorem gotHdr_quiet (h : FlitHdr) (q : Port) (hq : q.resumeAck = false) : Port.gotHdr h q = Port.takeHdr h q.counted := by
  obtain ⟨kept, resend, row, granted, since, e⟩ := takeHdr_frame h q.counted
  unfold Port.gotHdr Port.resumed
  rw [e]
  exact if_neg (ne_true_of_eq_false hq)

section
variable {c : Chip} {p : Nat}

theorem carries_usable (hu : c.usable p = true) : c.carries p = true := by
  simp [Chip.carries, hu]

theorem usable_st_ne (hu : c.usable p = true) : (c.port p).st ≠ .down ∧ (c.port p).st ≠ .failed ∧ (c.port p).st ≠ .test := by
  rcases (usable_st c p).mp hu with h | h <;> simp [h]

theorem takeHdr_usable (h : FlitHdr) (hu : c.usable p = true) : c.takeHdr p h = c.modPort p fun q => (Port.takeHdr h q).resumed := by
  unfold Chip.takeHdr
  dsimp only
  rw [usable_modPort (takeHdr_st h) hu, Bool.and_true, port_modPort]
  split
  case isTrue first =>
    unfold Chip.resendKept
    rw [modPort_modPort, modPort_modPort]
    exact congrArg (c.setPort p) (if_pos first).symm
  case isFalse later => exact congrArg (c.setPort p) (if_neg later).symm

theorem rxHdr_carried {h : FlitHdr} (hn : h.nak = false) (hu : c.usable p = true) :
    c.rxHdr p h = (c.modPort p (Port.gotHdr h)).portBump .lnkFlitsRx p := by
  obtain ⟨down, failed, -⟩ := usable_st_ne hu
  have counted : (c.modPort p Port.counted).usable p = true := usable_modPort (fun _ => rfl) hu
  have count : c.countFlit p = (c.modPort p Port.counted).portBump .lnkFlitsRx p := if_pos hu
  have carries : ((c.modPort p Port.counted).portBump .lnkFlitsRx p).carries p = true := carries_usable (p := p) counted
  have taken := takeHdr_usable (c := (c.modPort p Port.counted).portBump .lnkFlitsRx p) h counted
  rw [bump_modPort, modPort_modPort] at taken
  unfold Chip.rxHdr
  rw [if_neg (by simp [down, failed]), count]
  dsimp only
  rw [carries, hn, taken]
  rfl

theorem idleFlit_carried {h : FlitHdr} (hp : c.portExists p = true) (hn : h.nak = false) (hu : c.usable p = true)
    (hq : (c.port p).resumeAck = false) :
    c.idleFlit p h = (c.modPort p fun q => Port.takeHdr h q.counted).portBump .lnkFlitsRx p := by
  have same : c.modPort p (Port.gotHdr h) = c.modPort p fun q => Port.takeHdr h q.counted :=
    congrArg (c.setPort p) (gotHdr_quiet h _ hq)
  rw [← same, ← rxHdr_carried hn hu]
  exact if_pos hp

/-! ### DATA flits (R320, R326) -/

/-- A message that has a row of its own is no stray (R279). -/
theorem strays_none (hs : c.NoStrays p) : c.strays p = c := by
  unfold Chip.strays
  have fold : ∀ (l : List InMsg), l ⊆ (c.port p).inbox → l.foldl (fun c m => match m with
      | .req vc r cells n =>
        if (2 ≤ vc ∨ knownReq r.opc = false) ∧ c.moves p then
          (c.modPort p fun q => { q with inbox := delFirst (fun x => decide (x = m)) q.inbox }).arrive p vc r cells
            (if n = 0 then none else some (p, vc, n))
        else c
      | _ => c) c = c := by
    intro l
    induction l with
    | nil => intro _; rfl
    | cons m t ih =>
      intro sub
      have head := sub List.mem_cons_self
      have tail := ih fun x hx => sub (List.mem_cons_of_mem _ hx)
      rw [List.foldl_cons]
      cases m with
      | req vc r cells n =>
        obtain ⟨low, known⟩ := hs vc r cells n head
        dsimp only
        rw [if_neg (by simp [known, Nat.not_le.mpr low])]
        exact tail
      | rsp | snp | cut => exact tail
  exact fold _ (List.Subset.refl _)

theorem rxBad_usable (hu : c.usable p = true) :
    c.rxBad p = (c.portBump .lnkCrcErr p).modPort p fun q => if q.nakPending then q else { q with nakPending := true, sendNak := true } := by
  obtain ⟨down, failed, -⟩ := usable_st_ne hu
  have carries : (c.portBump .lnkCrcErr p).carries p = true := carries_usable (p := p) hu
  unfold Chip.rxBad
  rw [if_neg (by simp [down, failed])]
  dsimp only
  rw [carries]
  rfl

theorem dataFlit_badCrc {f : Bytes} (hp : c.portExists p = true) (len : f.length = 256) (bad : fieldB f 0xF8 8 ≠ crc64 (f.take 0xF8)) :
    c.dataFlit p f = c.rxBad p := by
  unfold Chip.dataFlit
  simp only [hp, len, bad, decide_false, Bool.false_and, Bool.not_true, bne_self_eq_false, Bool.or_self, Bool.false_eq_true, if_false]

/-! ### A response of one unit (R282, R320) -/

/-- A slice of a slice. -/
theorem sliceB_sliceB (b : Bytes) {k m i n : Nat} (h : i + n ≤ m) : sliceB (sliceB b k m) i n = sliceB b (k + i) n := by
  unfold sliceB
  rw [List.drop_take, List.take_take, List.drop_drop, Nat.min_eq_left (by omega)]

theorem fieldB_sliceB (b : Bytes) {k m i n : Nat} (h : i + n ≤ m) : fieldB (sliceB b k m) i n = fieldB b (k + i) n :=
  congrArg leNat (sliceB_sliceB b h)

theorem chunksOf_cons {n k : Nat} {l : Bytes} (h : l ≠ []) : chunksOf n (k + 1) l = l.take n :: chunksOf n k (l.drop n) := by
  cases l with
  | nil => exact absurd rfl h
  | cons => rfl

/-- A unit that holds a response without data, or with data of length 0. -/
structure RspUnit (u : Bytes) : Prop where
  length : u.length = 16
  code : fieldB u 0 1 = 0x20 ∨ fieldB u 0 1 = 0x21
  noData : fieldB u 8 2 = 0

theorem RspUnit.noReq {u : Bytes} (hu : RspUnit u) : reqMsg 3 u = false := by
  rcases hu.code with e | e <;> simp [reqMsg, knownReq, e]

theorem RspUnit.msgLen {u : Bytes} (hu : RspUnit u) : msgLen 3 u = some 16 := by
  unfold Machine.msgLen
  rw [hu.noReq, hu.length, hu.noData]
  rfl

/-- Nothing arrives on the port. -/
structure Port.RxIdle (q : Port) : Prop where
  rx : q.rx = [[], [], [], []]
  cells : q.rxCells = [[], [], [], []]
  mode : q.rxMode = List.replicate 4 .whole
  wait : q.rxWait = [[], [], [], []]

/-- The port with a response that waits for its own step, with its flits' credit. -/
def Port.gotRsp (q : Port) (u : Bytes) : Port :=
  { q with rxFlits := q.rxFlits.set 3 0, inbox := q.inbox ++ [.rsp (unpackRsp u) [] (q.rxFlits.getD 3 0)] }

theorem deliverMsg_rsp {u : Bytes} (hu : RspUnit u) (mode : (c.port p).rxMode.getD 3 .whole = .whole) :
    c.deliverMsg p 3 u = c.modPort p fun q => { q.nextMsg 3 with
      inbox := q.inbox ++ [.rsp (unpackRsp u) (q.rxCells.getD 3 []) (q.rxFlits.getD 3 0)] } := by
  unfold Chip.deliverMsg
  dsimp only
  rw [if_neg (not_not_intro mode), hu.noReq, if_neg Bool.false_ne_true, if_pos hu.code]
  rfl

theorem rxUnit_rsp {u : Bytes} (hu : RspUnit u) (idle : (c.port p).RxIdle) : c.rxUnit p 3 u = .taken (c.modPort p (Port.gotRsp · u)) := by
  obtain ⟨rx, cells, mode, wait⟩ := idle
  have code : (fieldB u 0 1 == 0) = false := by rcases hu.code with e | e <;> rw [e] <;> rfl
  have need : c.rxNeed p 3 16 u = 0 := by
    unfold Chip.rxNeed Chip.handsOver
    simp [mode, hu.noReq, hu.length, cdiv]
  have fits : c.rxFits p 3 0 true = true := rfl
  unfold Chip.rxUnit
  simp only [rx, List.getD_cons_succ, List.getD_cons_zero, List.nil_append, List.isEmpty_nil, code, Bool.true_and, Bool.false_eq_true,
    if_false, hu.msgLen, Option.map_some, Option.getD_some, need, fits, Bool.not_true, alloc_zero, hu.length, le_refl, if_true]
  rw [List.take_of_length_le hu.length.le, deliverMsg_rsp hu (by rw [port_modPort]; simp [mode]), modPort_modPort]
  refine congrArg (fun q => RxRes.taken (c.setPort p q)) ?_
  simp only [Port.gotRsp, Port.nextMsg, rx, cells, mode]
  rfl

/-- The rest of the flit is padding. -/
theorem rxUnit_padding {u : Bytes} (rx : (c.port p).rx.getD 3 [] = []) (pad : fieldB u 0 1 = 0) : c.rxUnit p 3 u = .padding := by
  unfold Chip.rxUnit
  dsimp only
  rw [rx, pad]
  rfl

/-- One flit with one response of one unit. -/
theorem rxFlits_rsp {body : Bytes} (len : body.length = 240) (hu : RspUnit (body.take 16)) (pad : fieldB body 16 1 = 0) (idle : (c.port p).RxIdle) :
    c.rxFlits p 3 [body] = c.modPort p (Port.gotRsp · (body.take 16)) := by
  obtain ⟨rx, cells, mode, wait⟩ := idle
  have chunks : chunksOf 16 15 body = body.take 16 :: (body.drop 16).take 16 :: chunksOf 16 13 ((body.drop 16).drop 16) := by
    rw [chunksOf_cons (List.ne_nil_of_length_pos (by omega)), chunksOf_cons (List.ne_nil_of_length_pos (by rw [List.length_drop]; omega))]
  have units : c.rxUnits p 3 (chunksOf 16 15 body) = (c.modPort p (Port.gotRsp · (body.take 16)), []) := by
    have padding : (c.modPort p (Port.gotRsp · (body.take 16))).rxUnit p 3 ((body.drop 16).take 16) = .padding := by
      refine rxUnit_padding ?_ ?_
      · rw [port_modPort]; exact congrArg (·.getD 3 []) rx
      · exact (fieldB_sliceB body (by decide)).trans pad
    rw [chunks]
    unfold Chip.rxUnits
    rw [rxUnit_rsp hu ⟨rx, cells, mode, wait⟩]
    dsimp only
    unfold Chip.rxUnits
    rw [padding]
  have ended : ((c.modPort p (Port.gotRsp · (body.take 16))).port p).rxFlits.getD 3 0 = 0 := by
    rw [port_modPort]
    show ((c.port p).rxFlits.set 3 0).getD 3 0 = 0
    by_cases h : 3 < (c.port p).rxFlits.length <;> simp [h]
  have waits : (c.modPort p (Port.gotRsp · (body.take 16))).rxFlits p 3 [] = c.modPort p (Port.gotRsp · (body.take 16)) := by
    unfold Chip.rxFlits
    rw [modPort_modPort]
    refine congrArg (c.setPort p) ?_
    simp only [Port.gotRsp, wait]
    rfl
  unfold Chip.rxFlits
  rw [units]
  dsimp only
  rw [ended, waits]
  exact (if_neg (by simp)).trans (if_neg (by simp))

/-- A DATA flit of channel `vc` has come in sequence (R326). -/
def Port.inSequence (vc : Nat) (q : Port) : Port :=
  { q with
    lastGood := q.expected, expected := (q.expected + 1) % 4096, nakPending := false, rxTotal := q.rxTotal + 1
    rxCount := modNth q.rxCount vc (· + 1) }

/-- Its flit counts for its message. -/
def Port.countedRx (vc : Nat) (q : Port) : Port := { q with rxFlits := modNth q.rxFlits vc (· + 1) }

/-- A flit of a response, in sequence and whole, on a port without link keys. -/
theorem dataFlit_rsp {f : Bytes} {h : FlitHdr} (hp : c.portExists p = true) (len : f.length = 256) (hu : c.usable p = true)
    (data : fieldB f 0 1 % 16 = 1) (noNak : bit (fieldB f 0 1) 6 = false) (crc : fieldB f 0xF8 8 = crc64 (f.take 0xF8))
    (keys : (c.port p).keys = none) (seq : fieldB f 1 2 % 4096 = (c.port p).expected) (vc : fieldB f 7 1 % 4 = 3)
    (idle : (c.port p).RxIdle) (rsp : RspUnit (sliceB f 8 16)) (pad : fieldB f 24 1 = 0)
    (hdr : h = { cvc := bits (fieldB f 0 1) 5 4, nak := false, seq := fieldB f 1 2 % 4096, ack := fieldB f 3 2 % 4096, ccum := fieldB f 5 2 }) :
    c.dataFlit p f = (c.rxHdr p h).modPort p fun q => ((q.inSequence 3).countedRx 3).gotRsp (sliceB f 8 16) := by
  have opened : (c.port p).openFlit p f = some (sliceB f 8 240) := by unfold Port.openFlit; rw [keys]
  have still := rxHdr_usable (h := h) (by rw [hdr]) hu
  obtain ⟨-, -, test⟩ := usable_st_ne still
  have port : ((c.rxHdr p h).port p).RxIdle ∧ ((c.rxHdr p h).port p).expected = (c.port p).expected := by
    obtain ⟨_, _, _, _, _, _, frame⟩ := gotHdr_frame h (c.port p)
    rw [rxHdr_carried (by rw [hdr]) hu, port_bump, port_modPort, frame]
    exact ⟨⟨idle.rx, idle.cells, idle.mode, idle.wait⟩, rfl⟩
  have body : (sliceB f 8 240).take 16 = sliceB f 8 16 := sliceB_sliceB f (i := 0) (by decide)
  unfold Chip.dataFlit
  simp only [hp, len, data, decide_true, if_true, opened, crc, Option.isSome_some, Bool.and_self, Bool.not_true, bne_self_eq_false,
    Bool.or_self, Bool.false_eq_true, if_false, noNak, ← hdr, carries_usable still, vc, test]
  generalize c.rxHdr p h = d at *
  obtain ⟨idle', expected⟩ := port
  have first : (d.port p).rxWait.getD 3 [] = [] := by rw [idle'.wait]; rfl
  rw [if_pos (by rw [expected, ← seq]; omega), first]
  change ((d.modPort p (Port.inSequence 3)).modPort p (Port.countedRx 3)).rxFlits p 3 [sliceB f 8 240] = _
  rw [modPort_modPort]
  rw [rxFlits_rsp (by simp [sliceB, len]) (body ▸ rsp) ((fieldB_sliceB f (by decide)).trans pad)
    (by rw [port_modPort]; exact ⟨idle'.rx, idle'.cells, idle'.mode, idle'.wait⟩), modPort_modPort, body]

end

end Sys2Proof.Machine
end

section
/-! SUPPORT. What FLIT_SEND puts on the wires, replays, FEC errors and the error window (R321 to R328, R334, R341). -/

namespace Sys2Proof.Machine

section
variable {c : Chip} {p : Nat}

/-! ### FLIT_SEND (R321) -/

theorem modPort_congr {f g : Port → Port} (h : f (c.port p) = g (c.port p)) : c.modPort p f = c.modPort p g := congrArg (c.setPort p) h

theorem usable_modPort_eq {f : Port → Port} (h : (f (c.port p)).st = (c.port p).st) : (c.modPort p f).usable p = c.usable p := by
  unfold Chip.usable
  rw [port_modPort, h]

theorem onWire_eq (b : Bytes) : c.onWire p b = (c.modPort p fun q => { q with
    lastTx := b, cvc := (q.cvc + 1) % 4, sendNak := false, pcs := q.pcs + flitCycles q.width }).portBump .lnkFlitsTx p := by
  unfold Chip.onWire
  exact bump_modPort ..

theorem flitSend_ctrl {t : Nat} {b : CtrlBody} {rest : List (Nat × CtrlBody)} (hp : c.portExists p = true) (hd : (c.port p).st ≠ .down)
    (hf : (c.port p).st ≠ .failed) (ctrl : (c.port p).ctrlTx = (t, b) :: rest) :
    c.flitSend p = (c.modPort p fun q => { q with
      ctrlTx := rest, lastTx := q.flitBytes { ftype := 2, seq := q.txSeq } (ctrlBytes t b), cvc := (q.cvc + 1) % 4, sendNak := false
      pcs := q.pcs + flitCycles q.width }).portBump .lnkFlitsTx p := by
  unfold Chip.flitSend
  simp only [hp, hd, hf, ctrl, Bool.not_true, decide_false, Bool.or_self, Bool.false_eq_true, if_false]
  rw [onWire_eq, modPort_modPort]
  exact congrArg (Chip.portBump · .lnkFlitsTx p) (modPort_congr rfl)

theorem drainRx_empty (none : ∀ w ∈ (c.port p).rxWait, w = []) : c.drainRx p = c := by
  have empty (vc : Nat) : (c.port p).rxWait.getD vc [] = [] := by
    by_cases h : vc < (c.port p).rxWait.length
    · rw [List.getD_eq_getElem _ _ h]
      exact none _ (List.getElem_mem h)
    · exact List.getD_eq_default _ _ (Nat.not_lt.mp h)
  unfold Chip.drainRx
  refine List.foldl_fixed' (fun vc => ?_) _
  rw [empty]; rfl

/-- Further credits draw a value and change the credits given (R323). -/
theorem grantExtra_frame : ∃ draws extra,
    c.grantExtra p = (({ c with draws := draws } : Chip).modPort p fun q => { q with extra := extra }) ∨ c.grantExtra p = c := by
  unfold Chip.grantExtra
  dsimp only
  split
  · exact ⟨0, [], .inr rfl⟩
  · exact ⟨_, _, .inl rfl⟩

theorem grantExtra_port : Quiet c (c.grantExtra p) ∧ ∃ extra, (c.grantExtra p).port p = { c.port p with extra := extra } := by
  obtain ⟨draws, extra, e | e⟩ := grantExtra_frame (c := c) (p := p) <;> rw [e]
  · exact ⟨quiet_of _ _ rfl rfl rfl rfl id id, extra, port_modPort ..⟩
  · exact ⟨.rfl' c, _, rfl⟩

/-- What a usable port sends once arrivals have been dealt with and credit given. -/
theorem flitSend_next (hp : c.portExists p = true) (hu : c.usable p = true) (ctrl : (c.port p).ctrlTx = [])
    (none : ∀ w ∈ (c.port p).rxWait, w = []) : c.flitSend p = ((c.grantExtra p).sendNext p).idleV p := by
  obtain ⟨hd, hf, ht⟩ := usable_st_ne hu
  unfold Chip.flitSend
  simp only [hp, hd, hf, ctrl, training_usable hu, drainRx_empty none, Bool.not_true, decide_false, Bool.or_self, Bool.false_eq_true, if_false]
  exact if_neg ht

/-- Found again once changed, where the change does not touch what is looked for. -/
theorem find_modFirst {α : Type} {P : α → Bool} {f : α → α} (keeps : ∀ x, P (f x) = P x) {k : α} {l : List α} (h : l.find? P = some k) :
    (modFirst P f l).find? P = some (f k) := by
  induction l with
  | nil => cases h
  | cons x t ih =>
    rw [List.find?_cons] at h
    rw [modFirst]
    cases hx : P x <;> rw [hx] at h
    · exact (List.find?_cons_of_neg (by simp [hx])).trans (ih h)
    · cases h
      exact List.find?_cons_of_pos ((keeps k).trans hx)

/-- A kept flit goes out again. -/
theorem sendNext_resend {s0 : Nat} {t : List Nat} {k : KFlit} (hq : (c.port p).resumeAck = false) (again : (c.port p).resend = s0 :: t)
    (found : (c.port p).kept.find? (fun k => k.seq == s0) = some k) :
    c.sendNext p = (c.modPort p fun q => { q with
      resend := t, kept := modFirst (fun k => k.seq == s0) (fun k => { k with sentAt := q.pcs }) q.kept
      lastTx := q.flitBytes { ftype := 1, seq := k.seq, dvc := k.dvc } k.payload, cvc := (q.cvc + 1) % 4, sendNak := false
      pcs := q.pcs + flitCycles q.width }).portBump .lnkFlitsTx p := by
  unfold Chip.sendNext
  simp only [hq, again, Bool.false_eq_true, if_false]
  unfold Chip.sendAgain
  dsimp only
  rw [port_modPort]
  dsimp only
  rw [find_modFirst (f := fun k => { k with sentAt := (c.port p).pcs }) (fun _ => rfl) found]
  dsimp only
  rw [onWire_eq, modPort_modPort]
  exact congrArg (Chip.portBump · .lnkFlitsTx p) (modPort_congr rfl)

theorem quiet_idleV : Quiet c (c.idleV p) := quiet_ite (quiet_setPort ..) (.rfl' c)

/-! ### What waits at the port -/

theorem noStrays_modPort {f : Port → Port} (h : (f (c.port p)).inbox = (c.port p).inbox) (hs : c.NoStrays p) : (c.modPort p f).NoStrays p := by
  unfold Chip.NoStrays
  rw [port_modPort, h]
  exact hs

theorem noStrays_rxHdr {h : FlitHdr} (hn : h.nak = false) (hu : c.usable p = true) (hs : c.NoStrays p) : (c.rxHdr p h).NoStrays p := by
  obtain ⟨_, _, _, _, _, _, frame⟩ := gotHdr_frame h (c.port p)
  rw [rxHdr_carried hn hu]
  exact noStrays_modPort (f := Port.gotHdr h) (by rw [frame]) hs

theorem noStrays_gotRsp (u : Bytes) (hs : c.NoStrays p) :
    (c.modPort p fun q => ((q.inSequence 3).countedRx 3).gotRsp u).NoStrays p := by
  unfold Chip.NoStrays
  rw [port_modPort]
  intro vc r k n mem
  rcases List.mem_append.mp mem with old | new
  · exact hs vc r k n old
  · cases List.mem_singleton.mp new

/-- What a port has received with a response of one unit. -/
theorem modPort_gotRsp (d : Chip) (u : Bytes) : (d.modPort p fun q => ((q.inSequence 3).countedRx 3).gotRsp u) = d.modPort p fun q => { q with
    lastGood := q.expected, expected := (q.expected + 1) % 4096, nakPending := false, rxTotal := q.rxTotal + 1
    rxCount := modNth q.rxCount 3 (· + 1), rxFlits := (modNth q.rxFlits 3 (· + 1)).set 3 0
    inbox := q.inbox ++ [.rsp (unpackRsp u) [] ((modNth (d.port p).rxFlits 3 (· + 1)).getD 3 0)] } :=
  modPort_congr rfl

/-! ### Replays (R326) -/

theorem ackTimeout_due {k0 : KFlit} {rest : List KFlit} (up : c.usable p = true ∨ c.testUp p = true) (kept : (c.port p).kept = k0 :: rest)
    (due : k0.sentAt + c.ackTmo p ≤ (c.port p).pcs) : c.ackTimeout p = (c.resendKept p).countReplay p := by
  unfold Chip.ackTimeout
  refine if_pos ?_
  simp only [kept, List.head?_cons, Option.any_some, decide_eq_true due, Bool.and_true, Bool.or_eq_true]
  exact up

/-- A replay outside the error window is only counted. -/
theorem countReplay_test (hu : c.usable p = false) :
    c.countReplay p = (c.modPort p fun q => { q with replaysRow := q.replaysRow + 1 }).portBump .lnkReplay p := by
  unfold Chip.countReplay
  extract_lets win d q
  have still : d.usable p = false := (usable_modPort_eq rfl).trans hu
  have none : win = 0 := congrArg b2n hu
  rw [still, ← bump_modPort]
  refine (if_pos rfl).trans (modPort_congr ?_)
  simp only [none, Nat.add_zero]

theorem countReplay_window (hu : c.usable p = true) (row : (c.port p).replaysRow + 1 < c.replayMax p)
    (win : (c.port p).winReplays + 1 ≠ c.replayThr p) :
    c.countReplay p = (c.modPort p fun q => { q with replaysRow := q.replaysRow + 1, winReplays := q.winReplays + 1 }).portBump .lnkReplay p := by
  unfold Chip.countReplay
  extract_lets counts d q
  have still : d.usable p = true := (usable_modPort_eq rfl).trans hu
  have one : counts = 1 := congrArg b2n hu
  have port : q = { c.port p with replaysRow := (c.port p).replaysRow + 1, winReplays := (c.port p).winReplays + counts } := port_modPort ..
  rw [still, port, ← bump_modPort]
  refine (if_neg (by decide)).trans ((if_neg (Nat.not_le.mpr row)).trans ((if_neg ?_).trans (modPort_congr ?_)))
  · rw [one]
    exact win
  · rw [one]

theorem usable_resendKept : (c.resendKept p).usable p = c.usable p := usable_modPort_eq rfl

theorem ackTimeout_test {k0 : KFlit} {rest : List KFlit} (ht : (c.port p).st = .test) (lanes : (c.port p).lanes ≠ 0)
    (kept : (c.port p).kept = k0 :: rest) (due : k0.sentAt + c.ackTmo p ≤ (c.port p).pcs) :
    c.ackTimeout p = (c.modPort p fun q => { q with
      resend := q.kept.map (·.seq), kept := q.kept.map fun k => { k with sentAt := q.pcs }
      replaysRow := q.replaysRow + 1 }).portBump .lnkReplay p := by
  have up : c.testUp p = true := by simpa [Chip.testUp, ht] using lanes
  have out : c.usable p = false := usable_false (by simp [ht]) (by simp [ht])
  rw [ackTimeout_due (.inr up) kept due, countReplay_test (usable_resendKept.trans out), Chip.resendKept, modPort_modPort]

theorem ackTimeout_window {k0 : KFlit} {rest : List KFlit} (hu : c.usable p = true) (kept : (c.port p).kept = k0 :: rest)
    (due : k0.sentAt + c.ackTmo p ≤ (c.port p).pcs) (row : (c.port p).replaysRow + 1 < c.replayMax p)
    (win : (c.port p).winReplays + 1 ≠ c.replayThr p) :
    c.ackTimeout p = (c.modPort p fun q => { q with
      resend := q.kept.map (·.seq), kept := q.kept.map fun k => { k with sentAt := q.pcs }
      replaysRow := q.replaysRow + 1, winReplays := q.winReplays + 1 }).portBump .lnkReplay p := by
  have port : (c.resendKept p).port p = { c.port p with
    resend := (c.port p).kept.map (·.seq), kept := (c.port p).kept.map fun k => { k with sentAt := (c.port p).pcs } } := port_modPort ..
  rw [ackTimeout_due (.inl hu) kept due, countReplay_window (usable_resendKept.trans hu) (by rw [port]; exact row) (by rw [port]; exact win),
    Chip.resendKept, modPort_modPort]

theorem windowEnd_full (full : 2 ^ 30 ≤ (c.port p).winFlits) :
    c.windowEnd p = c.modPort p fun q => { q with
      winFlits := q.winFlits - 2 ^ 30, winReplays := 0, winUnc := 0, hitReplay := false, hitUnc := false, laneSyms := [0, 0, 0, 0] } := by
  unfold Chip.windowEnd
  exact if_neg (Nat.not_lt.mpr full)

/-! ### FEC errors (R328, R341) -/

/-- The lanes of a port's group, each with its counter of corrected symbols. -/
def laneCounters : List (Cnt × Nat) := [(.lnkLaneSym0, 0), (.lnkLaneSym1, 1), (.lnkLaneSym2, 2), (.lnkLaneSym3, 3)]

/-- The symbols corrected on the lanes are counted. -/
def Chip.countLanes (c : Chip) (p : Nat) (syms : List Nat) : Chip :=
  laneCounters.foldl (fun c e => if syms.getD e.2 0 = 0 then c else c.portBump e.1 (portOf (portDie p) (p % 16)) (syms.getD e.2 0)) c

theorem countLanes_raised (syms : List Nat) : Raised c (c.countLanes p syms) := by
  have step (d : Chip) (e : Cnt × Nat) :
      Raised d (if syms.getD e.2 0 = 0 then d else d.portBump e.1 (portOf (portDie p) (p % 16)) (syms.getD e.2 0)) := by
    split
    · exact .rfl' d
    · exact raised_bump ..
  exact (step _ _).trans ((step _ _).trans ((step _ _).trans (step _ _)))

theorem laneSymbols_usable {symbols : List Nat} (hu : c.usable p = true) :
    c.laneSymbols p symbols = (c.countLanes p ((List.range 4).map fun i => symbols.getD i 0)).modPort p fun q => { q with
      laneSyms := (List.range 4).map fun i => q.laneSyms.getD i 0 + ((List.range 4).map fun i => symbols.getD i 0).getD i 0 } := by
  have still : (c.countLanes p ((List.range 4).map fun i => symbols.getD i 0)).usable p = true := by
    rw [countLanes_raised (c := c) _]
    exact hu
  unfold Chip.laneSymbols
  extract_lets syms base lane d
  rw [show d = c.countLanes p syms from rfl]
  exact if_neg (by rw [still]; decide)

theorem fecUncorrectable_below {symbols : List Nat} (hp : c.portExists p = true) (hu : c.usable p = true)
    (below : (c.port p).winUnc + 1 ≠ c.uncThr p) :
    c.fecUncorrectable p symbols =
      ((c.portBump .lnkFecUnc p).countLanes p ((List.range 4).map fun i => symbols.getD i 0)).modPort p fun q => { q with
        winUnc := q.winUnc + 1
        laneSyms := (List.range 4).map fun i => q.laneSyms.getD i 0 + ((List.range 4).map fun i => symbols.getD i 0).getD i 0 } := by
  obtain ⟨hd, -, -⟩ := usable_st_ne hu
  have port (d : Chip) (hr : Raised c d) : d.port p = c.port p ∧ d.uncThr p = c.uncThr p ∧ d.usable p = true := by
    rw [hr]; exact ⟨rfl, rfl, hu⟩
  obtain ⟨same, thr, still⟩ := port ((c.portBump .lnkFecUnc p).countLanes p ((List.range 4).map fun i => symbols.getD i 0))
    ((raised_bump ..).trans (countLanes_raised _))
  unfold Chip.fecUncorrectable
  rw [if_neg (by simp [hp, hd]), laneSymbols_usable (c := c.portBump .lnkFecUnc p) hu]
  generalize (c.portBump .lnkFecUnc p).countLanes p _ = d at *
  dsimp only
  rw [modPort_modPort, port_modPort, if_neg (by rw [usable_modPort_eq rfl, still]; decide)]
  refine if_neg fun e => below ?_
  rw [same] at e
  exact e.trans thr

end

/-- Settles O49: each row by the case of its meaning that the clause describes. -/
theorem flitsMove : Obligations.FlitsMove := by
  unfold Obligations.FlitsMove
  intro s p hs hp c q
  refine ⟨fun h hu hn hq => ?idle, fun f stray len hu data bad => ?badCrc,
    fun f stray len hu data noNak crc keys seq vc rx cells mode wait code noData pad => ?response,
    fun t b rest hd hf ctrl => ?control, fun s0 t k hu ctrl hq none again found => ?resend,
    fun k0 rest ht lanes kept due => ?test, fun k0 rest hu kept due row win => ?window, fun symbols hu below => ?fec, fun full => ?windowEnd⟩
  case idle => exact becomes s _ _ _ rfl (idleFlit_carried hp hn hu hq) ((quiet_modPort ..).trans (quiet_bump ..)) hs
  case badCrc =>
    refine becomes s _ _ _ rfl ?_ ((quiet_bump ..).trans (quiet_modPort ..)) hs
    rw [dataFlit_badCrc hp len bad, rxBad_usable hu]
    exact strays_none (noStrays_modPort (by split <;> rfl) stray)
  case response =>
    have rsp : RspUnit (sliceB f 8 16) := {
      length := by simp [sliceB, len]
      code := by rwa [fieldB_sliceB f (by decide)]
      noData := by rwa [fieldB_sliceB f (by decide)] }
    intro h n
    refine becomes s _ _ _ rfl ?_ ((rxHdr_keeps s.chip p _ rfl).1.trans (quiet_modPort ..)) hs
    rw [dataFlit_rsp hp len hu data noNak crc keys seq vc ⟨rx, cells, mode, wait⟩ rsp pad rfl]
    exact (strays_none (noStrays_gotRsp _ (noStrays_rxHdr rfl hu stray))).trans (modPort_gotRsp ..)
  case control => exact becomes s _ _ _ rfl (flitSend_ctrl hp hd hf ctrl) ((quiet_modPort ..).trans (quiet_bump ..)) hs
  case resend =>
    obtain ⟨quiet, extra, port⟩ := grantExtra_port (c := s.chip) (p := p)
    refine becomes s _ _ _ rfl ((flitSend_next hp hu ctrl none).trans ?_)
      (((quiet.trans (quiet_modPort ..)).trans (quiet_bump ..)).trans quiet_idleV) hs
    exact congrArg (Chip.idleV · p) (sendNext_resend (by rw [port]; exact hq) (by rw [port]; exact again) (by rw [port]; exact found))
  case test => exact becomes s _ _ _ rfl (ackTimeout_test ht lanes kept due) ((quiet_modPort ..).trans (quiet_bump ..)) hs
  case window => exact becomes s _ _ _ rfl (ackTimeout_window hu kept due row win) ((quiet_modPort ..).trans (quiet_bump ..)) hs
  case fec =>
    exact becomes s _ _ _ rfl (fecUncorrectable_below hp hu below)
      (((quiet_bump ..).trans (countLanes_raised _).quiet).trans (quiet_modPort ..)) hs
  case windowEnd => exact becomes s _ _ _ rfl (windowEnd_full full) (quiet_modPort ..) hs

end Sys2Proof.Machine
end

section
/-! SUPPORT. Traffic shaping at a port: gate entries, bank switches and queue samples, and LNK_CTRL (R316, R380, R383, R385,
R389). -/

namespace Sys2Proof.Machine

/-! ### The end of a gate entry (R380) -/

theorem Raised.foldl {α : Type} (f : Chip → α → Chip) (h : ∀ c x, Raised c (f c x)) (l : List α) (c : Chip) : Raised c (l.foldl f c) := by
  induction l generalizing c with
  | nil => exact .rfl' c
  | cons x t ih => exact (h c x).trans (ih _)

section
variable {c : Chip} {p : Nat}

/-- The gate after the end of an entry. -/
def Chip.nextGate (c : Chip) (p : Nat) : Chip :=
  let g := (c.port p).gate
  let next := g.start + (c.gateNow p).2
  if c.gateLen p g.bank ≤ g.entry + 1 then
    if g.switch then
      if c.switchLegal p then c.modPort p fun q => { q with gate := { bank := 1 - g.bank, entry := 0, start := next } }
      else (c.modPort p fun q => { q with gate := { g with entry := 0, start := next, switch := false } }).ignored
        ((Reg.tshPortCfg).addr (portDie p) [portLocal p])
    else c.modPort p fun q => { q with gate := { g with entry := 0, start := next } }
  else c.modPort p fun q => { q with gate := { g with entry := g.entry + 1, start := next } }

/-- The end of an entry moves the gate, then counts and raises. -/
theorem gateEntryEnd_raises (hg : c.gated p = true) (up : c.usable p = true ∨ (c.port p).st = .retrain) (left : c.entryLeft p = 0) :
    Raised (c.nextGate p) (c.gateEntryEnd p) := by
  unfold Chip.gateEntryEnd
  rw [if_neg (by rcases up with h | h <;> simp [hg, h, left])]
  extract_lets q old last open_ g c' closing skips overs c''
  have moved : c' = c.nextGate p := by
    unfold c' Chip.nextGate
    rw [show last = decide (c.gateLen p q.gate.bank ≤ q.gate.entry + 1) from rfl]
    simp only [decide_eq_true_eq]
    rfl
  rw [← moved]
  exact (Raised.foldl _ (fun _ _ => raised_bump ..) _ _).trans
    (Raised.foldl _ (fun _ _ => (raised_bump ..).trans (raised_fwEvent ..)) _ _)

theorem nextGate_entry (more : (c.port p).gate.entry + 1 < c.gateLen p (c.port p).gate.bank) :
    c.nextGate p = c.modPort p fun q => { q with gate := { (c.port p).gate with
      entry := (c.port p).gate.entry + 1, start := (c.port p).gate.start + (c.gateNow p).2 } } :=
  if_neg (Nat.not_le.mpr more)

theorem nextGate_first (last : c.gateLen p (c.port p).gate.bank ≤ (c.port p).gate.entry + 1) (stay : (c.port p).gate.switch = false) :
    c.nextGate p = c.modPort p fun q => { q with gate := { (c.port p).gate with
      entry := 0, start := (c.port p).gate.start + (c.gateNow p).2 } } :=
  (if_pos last).trans (if_neg (ne_true_of_eq_false stay))

theorem nextGate_bank (last : c.gateLen p (c.port p).gate.bank ≤ (c.port p).gate.entry + 1) (switch : (c.port p).gate.switch = true)
    (legal : c.switchLegal p = true) :
    c.nextGate p = c.modPort p fun q => { q with gate := {
      bank := 1 - (c.port p).gate.bank, entry := 0, start := (c.port p).gate.start + (c.gateNow p).2 } } :=
  (if_pos last).trans ((if_pos switch).trans (if_pos legal))

/-! ### Writes of TSH_PORT_CFG (R383, R385) -/

theorem regEffect_tshPortCfg (c : Chip) (die i w v : Nat) : c.regEffect .tshPortCfg die [i] w v true = c.shapeWrite die i w v := by
  unfold Chip.regEffect
  exact (if_neg (by decide)).trans rfl

theorem store_tshPortCfg (m : Master) (v : Word) (hm : m.code ≤ 8) (hp : p < 256) (hd : c.dieCut (portDie p) = false)
    (kept : (c.codes .tshPortCfg (portDie p) [portLocal p] v.toNat true).ignored = false) :
    c.busStore m ((Reg.tshPortCfg).addr (portDie p) [portLocal p]) v =
      (c.shapeWrite (portDie p) (portLocal p) (c.written .tshPortCfg (portDie p) [portLocal p] v) v.toNat).busResp 0 0 := by
  have local_ : portLocal p < 64 := by unfold portLocal; omega
  have addr : (Reg.tshPortCfg).addr (portDie p) [portLocal p] = ctlAddr (portDie p) 5 (0x10000 + 1024 * portLocal p) := rfl
  have at_ : (Reg.tshPortCfg).addr (portDie p) [portLocal p] % 4 = 0 ∧ (Reg.tshPortCfg).addr (portDie p) [portLocal p] / 2 ^ 44 = portDie p := by
    rw [addr]; unfold ctlAddr; omega
  rw [store_priv c m _ v .tshPortCfg (portDie p) _ hm (slotAt_tshPortCfg _ _ (portDie_mem p) local_) at_.1 (at_.2.symm ▸ hd) rfl rfl
    rfl rfl (by decide), kept, when_false, regEffect_tshPortCfg]

/-- A cycle of the running bank starts (R380). -/
theorem switchLegal_restart : (c.gateRestart p).switchLegal p = c.switchLegal p := by
  have bank : ((c.gateRestart p).port p).gate.bank = (c.port p).gate.bank := by
    unfold Chip.gateRestart
    rw [port_modPort]
  unfold Chip.switchLegal
  rw [bank]
  rfl

theorem gated_restart : (c.gateRestart p).gated p = c.gated p := rfl

theorem bankSwitch_gated (legal : c.switchLegal p = true) (hg : c.gated p = true) :
    c.bankSwitch p = c.modPort p fun q => { q with gate := { q.gate with switch := true } } := by
  unfold Chip.bankSwitch
  exact (if_neg (by simp [legal])).trans (if_pos hg)

theorem bankSwitch_ungated (legal : c.switchLegal p = true) (hg : c.gated p = false) :
    c.bankSwitch p = c.modPort p fun q => { q with gate := { bank := 1 - q.gate.bank, entry := 0, start := q.pcs, switch := false } } := by
  unfold Chip.bankSwitch
  refine (if_neg (by simp [legal])).trans ((if_neg (by simp [hg])).trans ?_)
  unfold Chip.doSwitch Chip.gateRestart
  exact modPort_modPort ..

/-- Whether a write of TSH_PORT_CFG starts a cycle. -/
def Chip.gateStart (c : Chip) (p : Nat) (starts : Bool) : Chip := if starts then c.gateRestart p else c

theorem gateStart_keeps (starts : Bool) : (c.gateStart p starts).switchLegal p = c.switchLegal p ∧ (c.gateStart p starts).gated p = c.gated p := by
  cases starts
  · exact ⟨rfl, rfl⟩
  · exact ⟨switchLegal_restart, gated_restart⟩

theorem quiet_gateStart (starts : Bool) : Quiet c (c.gateStart p starts) := quiet_ite (quiet_modPort ..) (.rfl' c)

/-- A write that turns neither gating nor fixed slots on, with a bank switch. -/
theorem shapeWrite_switch {w v : Nat} (hp : p < 256) (fixed : bit w 30 = true → bit (c.portReg .tshPortCfg p) 30 = true)
    (switch : bit v 29 = true) :
    c.shapeWrite (portDie p) (portLocal p) w v =
      ((c.setReg .tshPortCfg (portDie p) [portLocal p] (putBits w 29 28 0)).gateStart p (bit w 31 && bit v 31)).bankSwitch p := by
  have new : (bit w 30 && !bit (c.reg .tshPortCfg (portDie p) [portLocal p]) 30) = false := by
    cases h : bit w 30
    · rfl
    · rw [show bit (c.reg .tshPortCfg (portDie p) [portLocal p]) 30 = true from fixed h]; rfl
  unfold Chip.shapeWrite
  simp only [portOf_portDie hp, new, Bool.false_and, Bool.or_false, Bool.false_eq_true, if_false, switch, if_true]
  rfl

/-! ### Queue samples (R389) -/

/-- `d` is `c` but for the counters. -/
def Counted (c d : Chip) : Prop := d = { c with ctl := { c.ctl with cnt := d.ctl.cnt, sat := d.ctl.sat, satEv := d.ctl.satEv } }

theorem Counted.rfl' (c : Chip) : Counted c c := rfl

theorem Counted.trans {a b d : Chip} (h : Counted a b) (g : Counted b d) : Counted a d := by
  unfold Counted at *
  rw [g, h]

theorem counted_bump (c : Chip) (k : Cnt) (die n : Nat) (i : List Nat) : Counted c (c.bump k die i n) := rfl

theorem Counted.quiet {c d : Chip} (h : Counted c d) : Quiet c d := by
  rw [h]
  exact quiet_of _ _ rfl rfl rfl rfl id id

theorem Counted.port {c d : Chip} (h : Counted c d) (p : Nat) : d.port p = c.port p := by
  rw [h]
  rfl

theorem Counted.setPort {c d : Chip} (h : Counted c d) (p : Nat) (q : Port) : Counted (c.setPort p q) (d.setPort p q) := by
  unfold Counted at *
  rw [h]
  rfl

/-- The 256-byte blocks of the messages of a class that wait, as a sample records them. -/
def Chip.sampleDepth (c : Chip) (p k : Nat) : Nat := min 0xFFFF (((c.classMsgs p k).map (·.2)).map fun m => cdiv m.payload 256).sum

/-- How long the head of a class has waited, as a sample records it. -/
def Chip.sampleDelay (c : Chip) (p k : Nat) : Nat :=
  min 0xFFFF (((((c.classMsgs p k).map (·.2)).head?.map fun m => (c.port p).pcs - m.since).getD 0) / 64)

/-- What a sample of class `k` records in the port. -/
def Port.sampled (q : Port) (k depth delay : Nat) : Port :=
  { q with
    lastDepth := q.lastDepth.set k depth, lastDelay := q.lastDelay.set k delay
    maxDepth := q.maxDepth.set k (max depth (q.maxDepth.getD k 0)), maxDelay := q.maxDelay.set k (max delay (q.maxDelay.getD k 0)) }

theorem sampleClass_counts (k : Nat) :
    Counted (c.setPort p ((c.port p).sampled k (c.sampleDepth p k) (c.sampleDelay p k))) (c.sampleClass p k) :=
  ((counted_bump ..).trans (counted_bump ..)).trans (counted_bump ..)

/-- The first `n` classes have been sampled: `d` is `c` but for its port's samples and for the counters. -/
structure Sampled (c : Chip) (p n : Nat) (d : Chip) : Prop where
  frame : Counted (c.setPort p (d.port p)) d
  port : d.port p = { c.port p with
    lastDepth := (d.port p).lastDepth, lastDelay := (d.port p).lastDelay, maxDepth := (d.port p).maxDepth, maxDelay := (d.port p).maxDelay }
  sizes : (d.port p).lastDepth.length = 8 ∧ (d.port p).lastDelay.length = 8 ∧ (d.port p).maxDepth.length = 8 ∧ (d.port p).maxDelay.length = 8
  done : ∀ k < n, (d.port p).lastDepth.getD k 0 = c.sampleDepth p k ∧ (d.port p).lastDelay.getD k 0 = c.sampleDelay p k ∧
    (d.port p).maxDepth.getD k 0 = max (c.sampleDepth p k) ((c.port p).maxDepth.getD k 0) ∧
    (d.port p).maxDelay.getD k 0 = max (c.sampleDelay p k) ((c.port p).maxDelay.getD k 0)
  open_ : ∀ k, n ≤ k → (d.port p).maxDepth.getD k 0 = (c.port p).maxDepth.getD k 0 ∧
    (d.port p).maxDelay.getD k 0 = (c.port p).maxDelay.getD k 0

theorem getD_set (l : List Nat) (k j v : Nat) (hk : k < l.length) : (l.set k v).getD j 0 = if k = j then v else l.getD j 0 := by
  simp only [List.getD_eq_getElem?_getD, List.getElem?_set, hk, if_true]
  split <;> rfl

theorem Sampled.step {n : Nat} {d : Chip} (h : Sampled c p n d) (hn : n < 8) : Sampled c p (n + 1) (d.sampleClass p n) := by
  obtain ⟨frame, port, ⟨size1, size2, size3, size4⟩, done, later⟩ := h
  have queue : (d.port p).queue = (c.port p).queue := by rw [port]
  have clock : (d.port p).pcs = (c.port p).pcs := by rw [port]
  have msgs : d.classMsgs p n = c.classMsgs p n := by unfold Chip.classMsgs; rw [queue]
  have depth : d.sampleDepth p n = c.sampleDepth p n := by unfold Chip.sampleDepth; rw [msgs]
  have delay : d.sampleDelay p n = c.sampleDelay p n := by unfold Chip.sampleDelay; rw [msgs, clock]
  have counts := sampleClass_counts (c := d) (p := p) n
  rw [depth, delay] at counts
  have new : (d.sampleClass p n).port p = (d.port p).sampled n (c.sampleDepth p n) (c.sampleDelay p n) :=
    (counts.port p).trans (port_setPort ..)
  refine ⟨?_, ?_, ?_, fun k hk => ?_, fun k hk => ?_⟩ <;> rw [new]
  · have moved := frame.setPort p ((d.port p).sampled n (c.sampleDepth p n) (c.sampleDelay p n))
    rw [setPort_setPort] at moved
    exact moved.trans counts
  · unfold Port.sampled
    rw [port]
  · simp [Port.sampled, size1, size2, size3, size4]
  · simp only [Port.sampled, getD_set _ n k _ (size1.symm ▸ hn), getD_set _ n k _ (size2.symm ▸ hn), getD_set _ n k _ (size3.symm ▸ hn),
      getD_set _ n k _ (size4.symm ▸ hn)]
    by_cases e : n = k
    · subst e
      simp only [if_true, (later n (le_refl n)).1, (later n (le_refl n)).2, and_self]
    · simp only [e, if_false]
      exact done k (by omega)
  · simp only [Port.sampled, getD_set _ n k _ (size3.symm ▸ hn), getD_set _ n k _ (size4.symm ▸ hn), if_neg (Nat.ne_of_lt hk)]
    exact later k (by omega)

theorem sampled_fold (stored : c.setPort p (c.port p) = c) (h1 : (c.port p).lastDepth.length = 8) (h2 : (c.port p).lastDelay.length = 8)
    (h3 : (c.port p).maxDepth.length = 8) (h4 : (c.port p).maxDelay.length = 8) : ∀ n ≤ 8, Sampled c p n ((List.range n).foldl (fun d k => d.sampleClass p k) c)
  | 0, _ => ⟨stored.symm ▸ .rfl' c, rfl, ⟨h1, h2, h3, h4⟩, fun _ h => absurd h (Nat.not_lt_zero _), fun _ _ => ⟨rfl, rfl⟩⟩
  | n + 1, hn => by
    rw [List.range_succ, List.foldl_append]
    exact (sampled_fold stored h1 h2 h3 h4 n (by omega)).step (by omega)

/-- The port whose queue sample is taken, its next one a whole interval later. -/
def Chip.sampleTaken (c : Chip) (p : Nat) : Chip :=
  c.modPort p fun q => { q with sampAt := (c.port p).sampAt + max 1 (c.portFld .tshSampleCfg p 23 0) }

theorem queueSample_due (hp : c.portExists p = true) (due : (c.port p).sampAt + max 1 (c.portFld .tshSampleCfg p 23 0) ≤ (c.port p).pcs) :
    c.queueSample p = (List.range 8).foldl (fun d k => d.sampleClass p k) (c.sampleTaken p) := by
  unfold Chip.queueSample
  exact if_pos (by rw [hp, decide_eq_true due]; rfl)

theorem queueSample_sampled (hp : c.portExists p = true) (due : (c.port p).sampAt + max 1 (c.portFld .tshSampleCfg p 23 0) ≤ (c.port p).pcs)
    (h1 : (c.port p).lastDepth.length = 8) (h2 : (c.port p).lastDelay.length = 8) (h3 : (c.port p).maxDepth.length = 8)
    (h4 : (c.port p).maxDelay.length = 8) : Sampled (c.sampleTaken p) p 8 (c.queueSample p) := by
  have port : (c.sampleTaken p).port p = { c.port p with sampAt := (c.port p).sampAt + max 1 (c.portFld .tshSampleCfg p 23 0) } := port_modPort ..
  rw [queueSample_due hp due]
  refine sampled_fold ?_ ?_ ?_ ?_ ?_ 8 (le_refl 8) <;> rw [port]
  · exact setPort_setPort ..
  · exact h1
  · exact h2
  · exact h3
  · exact h4

/-- What a sample of a class counts its port by. -/
theorem sampleTaken_reads (k : Nat) :
    (c.sampleTaken p).sampleDepth p k = c.sampleDepth p k ∧ (c.sampleTaken p).sampleDelay p k = c.sampleDelay p k := by
  have port : (c.sampleTaken p).port p = { c.port p with sampAt := (c.port p).sampAt + max 1 (c.portFld .tshSampleCfg p 23 0) } := port_modPort ..
  unfold Chip.sampleDepth Chip.sampleDelay Chip.classMsgs
  rw [port]
  exact ⟨rfl, rfl⟩

/-! ### LNK_CTRL (R316) -/

theorem regEffect_lnkCtrl (c : Chip) (die w v : Nat) : c.regEffect .lnkCtrl die [] w v true =
    (c.setReg .lnkCtrl die [] w).linkDieEnable die (bit w 0) := by
  unfold Chip.regEffect
  exact (if_neg (by decide)).trans rfl

theorem store_lnkCtrl {die : Nat} (m : Master) (v : Word) (hm : m.code ≤ 8) (h8 : 8 ≤ die) (h12 : die < 12) (hd : c.dieCut die = false) :
    c.busStore m ((Reg.lnkCtrl).addr die []) v =
      ((c.setReg .lnkCtrl die [] (c.written .lnkCtrl die [] v)).linkDieEnable die (bit (c.written .lnkCtrl die [] v) 0)).busResp 0 0 := by
  have listed : die ∈ dPort := (by decide : ∀ d < 12, 8 ≤ d → d ∈ dPort) die h12 h8
  have addr : (Reg.lnkCtrl).addr die [] = ctlAddr die 2 0 := rfl
  have at_ : (Reg.lnkCtrl).addr die [] % 4 = 0 ∧ (Reg.lnkCtrl).addr die [] / 2 ^ 44 = die := by
    rw [addr]; unfold ctlAddr; omega
  rw [store_priv c m _ v .lnkCtrl die _ hm (slotAt_lnkCtrl _ listed) at_.1 (at_.2.symm ▸ hd) rfl rfl rfl rfl (by decide),
    codes_ign _ _ _ _ _ (by decide), when_false, regEffect_lnkCtrl]

theorem foldl_stays {α β : Type} {f : β → α → β} {b : β} {l : List α} (h : ∀ x ∈ l, f b x = b) : l.foldl f b = b := by
  induction l with
  | nil => rfl
  | cons x t ih =>
    rw [List.foldl_cons, h x List.mem_cons_self]
    exact ih fun y hy => h y (List.mem_cons_of_mem _ hy)

/-- Nothing changes where every port of the die is DOWN. -/
theorem linkDieEnable_off {die : Nat} (down : ∀ j < 64, (c.port (portOf die j)).st = .down) : c.linkDieEnable die false = c := by
  refine foldl_stays fun j hj => ?_
  dsimp only
  rw [if_neg Bool.false_ne_true, portDown_down (down j (List.mem_range.mp hj)), ite_self]

theorem leaveDown_eq : (if !c.portExists p then c else c.leaveDown p) =
    if c.linkOn p && (c.port p).st == .down then c.startTrain p .train else c := by
  cases hp : c.portExists p
  · have off : c.linkOn p = false := Bool.eq_false_iff.mpr fun on => Bool.false_ne_true (hp.symm.trans (linkOn_exists on))
    rw [off]; rfl
  · rfl

theorem port_startTrain_ne {x : Nat} (st : LinkState) (h : x ≠ p) : (c.startTrain p st).port x = c.port x :=
  kgetD_kput_ne _ _ _ _ _ h

theorem linkOn_startTrain (x : Nat) (st : LinkState) : (c.startTrain p st).linkOn x = c.linkOn x := rfl

theorem portOf_injective {die j k : Nat} (h : portOf die j = portOf die k) : j = k := by
  unfold portOf at h; omega

end

/-- What LNK_CTRL.ENABLE does at a port, as its state and enables stood when it was written in `d`. -/
def Chip.enablePort (d : Chip) (die : Nat) (e : Chip) (j : Nat) : Chip :=
  if d.linkOn (portOf die j) && (d.port (portOf die j)).st == .down then e.startTrain (portOf die j) .train else e

theorem quiet_enablePort (d : Chip) (die : Nat) (e : Chip) (j : Nat) : Quiet e (d.enablePort die e j) :=
  quiet_ite (quiet_startTrain ..) (.rfl' e)

/-- Each port leaves DOWN by its own enables: training of one leaves the others. -/
theorem enablePorts_fold (d : Chip) (die : Nat) {l : List Nat} (nodup : l.Nodup) {e : Chip} (on : ∀ x, e.linkOn x = d.linkOn x)
    (same : ∀ j ∈ l, e.port (portOf die j) = d.port (portOf die j)) :
    l.foldl (fun c j => let p := portOf die j; if !c.portExists p then c else if true then c.leaveDown p else c.portDown p) e =
      l.foldl (d.enablePort die) e := by
  induction l generalizing e with
  | nil => rfl
  | cons j t ih =>
    obtain ⟨fresh, nodup⟩ := List.nodup_cons.mp nodup
    have step : (if !e.portExists (portOf die j) then e else e.leaveDown (portOf die j)) = d.enablePort die e j := by
      rw [leaveDown_eq, on, same j List.mem_cons_self]
      rfl
    rw [List.foldl_cons, List.foldl_cons]
    refine (congrArg (List.foldl _ · t) step).trans (ih nodup (fun x => ?_) fun k hk => ?_)
    · unfold Chip.enablePort
      split
      · exact (linkOn_startTrain ..).trans (on x)
      · exact on x
    · have other : portOf die k ≠ portOf die j := fun e => fresh (portOf_injective e ▸ hk)
      unfold Chip.enablePort
      split
      · exact (port_startTrain_ne _ other).trans (same k (List.mem_cons_of_mem _ hk))
      · exact same k (List.mem_cons_of_mem _ hk)

theorem linkDieEnable_on (d : Chip) (die : Nat) : d.linkDieEnable die true = (List.range 64).foldl (d.enablePort die) d :=
  enablePorts_fold d die List.nodup_range (fun _ => rfl) fun _ _ => rfl

/-- Settles O51: each row by the case of its meaning that the clause describes. -/
theorem shapingRowsAct : Obligations.ShapingRowsAct := by
  unfold Obligations.ShapingRowsAct
  intro s p hs c q g
  refine ⟨fun hg up left => ⟨fun more => ?entry, fun last stay => ?first, fun last switch legal => ?bank⟩,
    fun m v hm hp hd kept _ fixed switch legal => ?bankSwitch, fun hp due h1 h2 h3 h4 => ?sample,
    fun m v die hm h8 h12 hd => ⟨fun off down => ?disable, fun on => ?enable⟩⟩
  case entry =>
    have raised := gateEntryEnd_raises hg up left
    rw [nextGate_entry more] at raised
    exact raisesTo s _ _ _ rfl raised ((quiet_modPort ..).still hs)
  case first =>
    have raised := gateEntryEnd_raises hg up left
    rw [nextGate_first last stay] at raised
    exact raisesTo s _ _ _ rfl raised ((quiet_modPort ..).still hs)
  case bank =>
    have raised := gateEntryEnd_raises hg up left
    rw [nextGate_bank last switch legal] at raised
    exact raisesTo s _ _ _ rfl raised ((quiet_modPort ..).still hs)
  case bankSwitch =>
    intro e
    let w := s.chip.written .tshPortCfg (portDie p) [portLocal p] v
    let d := s.chip.setReg .tshPortCfg (portDie p) [portLocal p] (putBits w 29 28 0)
    have start : d.gateStart p (bit w 31 && bit v.toNat 31) = e := by
      unfold Chip.gateStart
      simp only [Bool.and_eq_true]
      rfl
    obtain ⟨legal', gated⟩ := gateStart_keeps (c := d) (p := p) (bit w 31 && bit v.toNat 31)
    have quiet : Quiet s.chip e := start ▸ (quiet_setReg ..).trans (quiet_gateStart ..)
    have means := (store_tshPortCfg (c := s.chip) m v hm hp hd kept).trans
      (congrArg (Chip.busResp · 0 0) (shapeWrite_switch hp fixed switch))
    rw [start] at legal' gated
    refine ⟨fun hg => ?_, fun hg => ?_⟩
    · refine becomes s _ _ _ rfl (means.trans (congrArg (Chip.busResp · 0 0) ?_)) ((quiet.trans (quiet_modPort ..)).trans (quiet_resp ..)) hs
      exact (congrArg (Chip.bankSwitch · p) start).trans (bankSwitch_gated (legal'.trans legal) (gated.trans hg))
    · refine becomes s _ _ _ rfl (means.trans (congrArg (Chip.busResp · 0 0) ?_)) ((quiet.trans (quiet_modPort ..)).trans (quiet_resp ..)) hs
      exact (congrArg (Chip.bankSwitch · p) start).trans (bankSwitch_ungated (legal'.trans legal) (gated.trans hg))
  case sample =>
    obtain ⟨frame, port, -, done, -⟩ := queueSample_sampled hp due h1 h2 h3 h4
    have taken : (s.chip.sampleTaken p).port p = { q with sampAt := q.sampAt + max 1 (c.portFld .tshSampleCfg p 23 0) } := port_modPort ..
    rw [taken] at port done
    have quiet : Quiet s.chip (s.chip.queueSample p) := ((quiet_modPort ..).trans (quiet_setPort ..)).trans frame.quiet
    have time : ((s.chip.queueSample p).port p).sampAt = q.sampAt + max 1 (c.portFld .tshSampleCfg p 23 0) := congrArg Port.sampAt port
    refine ⟨_, becomes s _ _ _ rfl rfl quiet hs, rfl, rfl, time, fun k hk => ?_, ?_⟩
    · obtain ⟨depth, delay⟩ := sampleTaken_reads (c := s.chip) (p := p) k
      have sampled := done k hk
      rw [depth, delay] at sampled
      exact sampled
    · have stored : (s.chip.sampleTaken p).setPort p ((s.chip.queueSample p).port p) = s.chip.setPort p ((s.chip.queueSample p).port p) :=
        setPort_setPort ..
      rw [← time] at port
      rw [stored, port] at frame
      exact frame
  case disable =>
    refine becomes s _ _ _ rfl ((store_lnkCtrl m v hm h8 h12 hd).trans ?_) ((quiet_setReg ..).trans (quiet_resp ..)) hs
    rw [off]
    exact congrArg (Chip.busResp · 0 0) (linkDieEnable_off (c := s.chip.setReg .lnkCtrl die [] _) down)
  case enable =>
    have quiet (d : Chip) : Quiet d ((List.range 64).foldl (d.enablePort die) d) := Quiet.foldl _ (quiet_enablePort d die) _ _
    refine becomes s _ _ _ rfl ((store_lnkCtrl m v hm h8 h12 hd).trans ?_) (((quiet_setReg ..).trans (quiet _)).trans (quiet_resp ..)) hs
    rw [on]
    exact congrArg (Chip.busResp · 0 0) (linkDieEnable_on ..)

end Sys2Proof.Machine
end

section
/-! SUPPORT. What answers on the board's own wires: the Ethernet link, SMBus, JTAG and the pattern checkers (R333, R440, R588,
R594). -/

namespace Sys2Proof.Machine

/-! ### Addresses of registers (R585) -/

/-- A register and its elements stand at whole words. -/
theorem reg_aligned (r : Reg) : r.info.base % 4 = 0 ∧ ∀ d ∈ r.info.dims, d.1 % 4 = 0 := by
  cases r <;> decide

theorem strideSum_aligned {dims : List (Nat × Nat)} (h : ∀ d ∈ dims, d.1 % 4 = 0) (i : List Nat) : strideSum dims i % 4 = 0 := by
  induction dims generalizing i with
  | nil => rfl
  | cons d t ih =>
    cases i with
    | nil => rfl
    | cons k l =>
      have rest := ih (fun x hx => h x (List.mem_cons_of_mem _ hx)) l
      have stride : d.1 * k % 4 = 0 := by rw [Nat.mul_mod, h d List.mem_cons_self, Nat.zero_mul]
      show (d.1 * k + strideSum t l) % 4 = 0
      omega

theorem addr_aligned (r : Reg) (die : Nat) (i : List Nat) : r.addr die i % 4 = 0 := by
  obtain ⟨base, dims⟩ := reg_aligned r
  have sum := strideSum_aligned dims i
  unfold Reg.addr Reg.off ctlAddr
  omega

theorem regAt_die {a : Nat} {x : Reg × Nat × List Nat} (h : regAt a = some x) : a / 2 ^ 44 = x.2.1 := by
  unfold regAt at h
  obtain ⟨r, -, found⟩ := List.exists_of_findSome?_eq_some (Option.filter_eq_some_iff.mp h).1
  split at found
  · obtain ⟨i, -, rfl⟩ := Option.map_eq_some_iff.mp found
    rfl
  · cases found

theorem slotAt_die {a die : Nat} {r : Reg} {i : List Nat} (h : slotAt a = .reg r die i) : a / 2 ^ 44 = die := regAt_die (regAt_of_slotAt h)

theorem regAt_lane {die lane : Nat} (hd : die ∈ dPort) (hl : lane < 72) (eth : 64 ≤ lane → die = 8) :
    regAt ((Reg.tstLaneCfg).addr die [lane]) = some (.tstLaneCfg, die, [lane]) := by
  have g : ctlAddr die 21 (0x1000 + 32 * lane) / 2 ^ 44 = die ∧ ctlAddr die 21 (0x1000 + 32 * lane) / 2 ^ 32 % 4096 = 21 ∧
      ctlAddr die 21 (0x1000 + 32 * lane) % 2 ^ 32 = 0x1000 + 32 * lane := by unfold ctlAddr; omega
  have found : (blockRegs 21).findSome? (regHas die (0x1000 + 32 * lane)) = some (.tstLaneCfg, die, [lane]) := by
    iterate 2 refine fs_skip (has_no _ _ _ ?_) ?_; · (delta Reg.info; simp [unstride]; try omega)
    refine fs_hit (has_yes _ _ _ _ (List.contains_iff_mem.mpr hd) ?_ ?_) <;> (delta Reg.info; simp [unstride]); omega
  show regAt (ctlAddr die 21 (0x1000 + 32 * lane)) = _
  unfold regAt
  rw [g.1, g.2.1, g.2.2]
  show ((blockRegs 21).findSome? (regHas die (0x1000 + 32 * lane))).filter _ = _
  rw [found]
  by_cases h : 64 ≤ lane
  · simp [eth h]
  · simp [h]

section
variable {c : Chip} {snaps : KMap Chip}

/-! ### The Ethernet link (R588) -/

theorem ethLinkUp_service (power : c.ethPowered = true) (down : c.boot.ethUp = false) (later : c.boot.state ≠ .bringup) :
    c.ethLinkUp snaps = ({ c with boot := { c.boot with ethUp := true } } : Chip).dropLocks := by
  unfold Chip.ethLinkUp
  exact (if_pos (by rw [power, down]; rfl)).trans (if_neg fun h => later h.1)

/-! ### SMBus (R439, R594) -/

/-- The block that an SMBus read answers. -/
def Chip.smbusOut (c : Chip) (v : Nat) : Chip :=
  { c with ctl := { c.ctl with smbus := natLE 4 v ++ natLE 1 (crc8 ([0xB4, 0x20, 0xB5, 0x04] ++ natLE 4 v)) } }

theorem quiet_smbusOut (v : Nat) : Quiet c (c.smbusOut v) := quiet_of _ _ rfl rfl rfl rfl id id

theorem smbusRead_early {addr : Nat} (early : c.boot.state.code < 2) : c.smbusRead snaps addr = c := by
  unfold Chip.smbusRead
  exact if_neg (by simpa [Chip.smbusOn] using early)

theorem smbusRead_on {addr : Nat} (on : 2 ≤ c.boot.state.code) :
    c.smbusRead snaps addr =
      let r : Nat × Chip := if addr % 4 ≠ 0 ∨ telemetry (slotAt addr) = false then (0, c) else (c.ctlRead snaps { code := 10 } addr).2
      r.2.smbusOut r.1 := by
  unfold Chip.smbusRead
  exact if_pos (by simpa [Chip.smbusOn] using on)

theorem smbusRead_other {addr : Nat} (on : 2 ≤ c.boot.state.code) (other : addr % 4 ≠ 0 ∨ telemetry (slotAt addr) = false) :
    c.smbusRead snaps addr = c.smbusOut 0 := by
  rw [smbusRead_on on, if_pos other]

/-- A read of a telemetry word that nothing stops. -/
theorem smbusRead_telemetry {addr : Nat} (on : 2 ≤ c.boot.state.code) (word : addr % 4 = 0) (tele : telemetry (slotAt addr) = true)
    (path : c.dieCut (addr / 2 ^ 44) = false) (live : c.inert (slotAt addr) = false) :
    c.smbusRead snaps addr =
      (c.readSlot snaps { code := 10 } (slotAt addr)).2.smbusOut (c.readSlot snaps { code := 10 } (slotAt addr)).1 := by
  have mapped : slotAt addr ≠ .unmapped := fun h => by rw [h] at tele; exact Bool.false_ne_true tele
  have status : c.accStatus { code := 10 } addr false = 0 := by
    unfold Chip.accStatus
    simp only [word, mapped, path, ne_eq, not_true, if_false, Bool.false_and, Bool.false_eq_true]
  have seen : blindTo { code := 10 } (slotAt addr) = false := by
    unfold blindTo
    simp [tele]
  have read : c.ctlRead snaps { code := 10 } addr = (0, c.readSlot snaps { code := 10 } (slotAt addr)) := by
    unfold Chip.ctlRead
    simp only [status, seen, live, ne_eq, not_true, if_false, Bool.or_self, Bool.false_eq_true]
  rw [smbusRead_on on, if_neg (by simp [word, tele]), read]

theorem telemetry_plain {r : Reg} {die : Nat} {i : List Nat} (tele : telemetry (.reg r die i) = true) :
    c.inert (.reg r die i) = false ∧ r ≠ .irqAck := by
  have block : r.info.block = 0 ∨ r ∈ [Reg.bootStat, .bootImgFail, .bootEnrol, .mgtDumpWin, .pwrStat, .pwrRailStat, .pwrDieTemp] := by
    simpa [telemetry] using tele
  refine ⟨?_, fun h => ?_⟩
  · unfold Chip.inert
    rcases block with h | h
    · dsimp only
      rw [h]
      rfl
    · simp only [List.mem_cons, List.not_mem_nil, or_false] at h
      rcases h with rfl | rfl | rfl | rfl | rfl | rfl | rfl <;> rfl
  · subst h
    cases tele

theorem readSlot_telemetry {r : Reg} {die : Nat} {i : List Nat} (tele : telemetry (.reg r die i) = true) (one : r.triMask = 0) :
    c.readSlot snaps { code := 10 } (.reg r die i) =
      (clearMask (clearMask (readWord (kfind? snaps die) c r die i) (absentMask r die i)) (r.mask (·.prv)), c) := by
  unfold Chip.readSlot
  refine (if_neg (telemetry_plain (c := c) tele).2).trans ?_
  rw [if_pos one]
  exact congrArg (·, c) (if_neg Bool.false_ne_true)

/-! ### JTAG (R440) -/

theorem jtagOp_off (off : c.pins.powered = false) (op : JtagOp) : c.jtagOp snaps op = c := by
  unfold Chip.jtagOp
  exact if_pos (by rw [off]; rfl)

theorem jtagOp_bypass (power : c.pins.powered = true) : c.jtagOp snaps .bypass = c.jtagOut 0 := by
  unfold Chip.jtagOp
  exact if_neg (by simp [power])

theorem jtagOp_idcode (power : c.pins.powered = true) : c.jtagOp snaps .idcode = c.draw.2.jtagOut (BitVec.ofNat 32 c.draw.1) := by
  unfold Chip.jtagOp
  exact if_neg (by simp [power])

/-- The boundary scan. -/
theorem jtagOp_extest (power : c.pins.powered = true) :
    c.jtagOp snaps .extest =
      if c.boot.state = .reset ∨ c.boot.state = .test then c.draw.2.jtagOut (BitVec.ofNat 32 c.draw.1) else c.jtagOut 0 := by
  unfold Chip.jtagOp
  exact if_neg (by simp [power])

theorem jtagOp_debugRead (power : c.pins.powered = true) (a : Nat) :
    c.jtagOp snaps (.debugRead a) =
      if c.jtagDebug then (c.ctlRead snaps { code := 11 } a).2.2.jtagOut (BitVec.ofNat 32 (c.ctlRead snaps { code := 11 } a).2.1)
      else c.jtagOut 0 := by
  unfold Chip.jtagOp
  exact if_neg (by simp [power])

theorem jtagOp_debugWrite (power : c.pins.powered = true) (a : Nat) (v : Word) :
    c.jtagOp snaps (.debugWrite a v) = if c.jtagDebug then (c.busWrite { code := 11 } a v).jtagOut 0 else c.jtagOut 0 := by
  unfold Chip.jtagOp
  exact if_neg (by simp [power])

theorem jtagDebug_iff : c.jtagDebug = true ↔ c.boot.state = .test ∧ bit (c.reg .secTestNode 12) 30 = true := by
  unfold Chip.jtagDebug
  rw [Bool.and_eq_true, beq_iff_eq]

theorem quiet_jtagOut (v : Word) : Quiet c (c.jtagOut v) := quiet_of _ _ rfl rfl rfl rfl id id

theorem quiet_jtagOpen : Quiet c (c.draw.2.jtagOut (BitVec.ofNat 32 c.draw.1)) := quiet_of _ _ rfl rfl rfl rfl id id

/-! ### Pattern checkers (R333) -/

theorem laneChecks_iff {die lane : Nat} (hd : die ∈ dPort) (hl : lane < 72) (eth : 64 ≤ lane → die = 8) :
    c.laneChecks die lane = true ↔ c.enabled 21 die = true ∧ bit (c.reg .tstLaneCfg die [lane]) 30 = true ∧
      (if lane < 64 then (c.port (c.lanePort die lane)).st = .down ∨ (c.port (c.lanePort die lane)).st = .test else c.boot.ethUp = false) := by
  have idle : c.laneIdle die lane = true ↔
      (if lane < 64 then (c.port (c.lanePort die lane)).st = .down ∨ (c.port (c.lanePort die lane)).st = .test else c.boot.ethUp = false) := by
    unfold Chip.laneIdle
    by_cases h : lane < 64
    · simp [h, Nat.not_le.mpr h]
    · simp [h, Nat.not_lt.mp h]
  unfold Chip.laneChecks Chip.laneRuns
  rw [regAt_lane hd hl eth, ← idle]
  simp only [Option.isSome_some, Bool.true_and, Bool.and_eq_true]
  exact and_assoc.trans (and_congr Iff.rfl and_comm)

theorem checkerLock_runs {die lane : Nat} (runs : c.laneChecks die lane = true) (free : c.lnk.laneLocked.contains (die * 128 + lane) = false) :
    c.checkerLock die lane = { c with lnk := { c.lnk with laneLocked := c.lnk.laneLocked ++ [die * 128 + lane] } } := by
  unfold Chip.checkerLock
  exact if_pos (by rw [runs, free]; rfl)

theorem checkerLock_stays {die lane : Nat} (h : ¬ c.laneChecks die lane = true ∨ c.lnk.laneLocked.contains (die * 128 + lane) = true) :
    c.checkerLock die lane = c := by
  unfold Chip.checkerLock
  refine if_neg ?_
  rcases h with idle | locked
  · simp [idle]
  · rw [locked]; simp

end

/-- Settles O21: each row by the case of its meaning that the clause describes. -/
theorem boardSignalsAnswer : Obligations.BoardSignalsAnswer := by
  unfold Obligations.BoardSignalsAnswer
  intro s hs c
  refine ⟨?ethDown, fun power down later => ?ethUp, fun addr => ⟨fun early => ?early, fun on other => ?other,
    fun on r i named slot tele one => ?telemetry, fun on word tele path live => ?settles⟩, fun off op => ?unpowered, fun power => ?jtag,
    fun die hd lane hl eth => ⟨fun runs free => ?locks, fun stays => ?stays⟩⟩
  case ethDown => exact becomes s _ _ _ rfl rfl (quiet_of _ _ rfl rfl rfl rfl id id) hs
  case ethUp => exact becomes s _ _ _ rfl (ethLinkUp_service power down later) (quiet_of _ _ rfl rfl rfl rfl id id) hs
  case early => exact becomes s _ _ _ rfl (smbusRead_early early) (.rfl' _) hs
  case other => exact becomes s _ _ _ rfl (smbusRead_other on other) (quiet_smbusOut 0) hs
  case telemetry =>
    have path : c.dieCut (addr / 2 ^ 44) = false := by rw [slotAt_die slot]; rfl
    have word : addr % 4 = 0 := named ▸ addr_aligned r 12 i
    have read := smbusRead_telemetry (c := c) (snaps := s.snap) on word (slot ▸ tele) path (slot ▸ (telemetry_plain tele).1)
    rw [slot, readSlot_telemetry tele one] at read
    exact becomes s _ _ _ rfl read (quiet_smbusOut _) hs
  case settles => exact settles_act rfl (smbusRead_telemetry on word tele path live)
  case unpowered => exact becomes s _ _ _ rfl (jtagOp_off off op) (.rfl' _) hs
  case jtag =>
    refine ⟨?bypass, ?idcode, fun scan => ?scan, fun reset test => ?noScan, fun shut a v => ?shut, fun test debug a v => ?debug⟩
    case bypass => exact becomes s _ _ _ rfl (jtagOp_bypass power) (quiet_jtagOut 0) hs
    case idcode => exact becomes s _ _ _ rfl (jtagOp_idcode power) quiet_jtagOpen hs
    case scan => exact becomes s _ _ _ rfl ((jtagOp_extest power).trans (if_pos scan)) quiet_jtagOpen hs
    case noScan => exact becomes s _ _ _ rfl ((jtagOp_extest power).trans (if_neg (not_or.mpr ⟨reset, test⟩))) (quiet_jtagOut 0) hs
    case shut =>
      have closed : ¬ s.chip.jtagDebug = true := fun h => by
        obtain ⟨test, debug⟩ := jtagDebug_iff.mp h
        exact shut.elim (· test) fun off => Bool.false_ne_true (off.symm.trans debug)
      exact ⟨becomes s _ _ _ rfl ((jtagOp_debugRead power a).trans (if_neg closed)) (quiet_jtagOut 0) hs,
        becomes s _ _ _ rfl ((jtagOp_debugWrite power a v).trans (if_neg closed)) (quiet_jtagOut 0) hs⟩
    case debug =>
      have opened : s.chip.jtagDebug = true := jtagDebug_iff.mpr ⟨test, debug⟩
      exact ⟨settles_act rfl ((jtagOp_debugRead power a).trans (if_pos opened)),
        settles_act rfl ((jtagOp_debugWrite power a v).trans (if_pos opened))⟩
  case locks => exact becomes s _ _ _ rfl (checkerLock_runs ((laneChecks_iff hd hl eth).mpr runs) free) (quiet_of _ _ rfl rfl rfl rfl id id) hs
  case stays =>
    exact becomes s _ _ _ rfl (checkerLock_stays (stays.imp_left fun idle runs => idle ((laneChecks_iff hd hl eth).mp runs))) (.rfl' _) hs

end Sys2Proof.Machine
end

section
/-! SUPPORT. The skimmer's audit of a port die, cell by cell, and the die-to-die links (R359, R360, R364). -/

namespace Sys2Proof.Machine

/-! ### What an audit pass may change -/

/-- `d` is `c` but for the cells and the phases of the skimmers. -/
def Skimmed (c d : Chip) : Prop := d = { c with swc := { c.swc with cells := d.swc.cells, skim := d.swc.skim } }

theorem Skimmed.trans {a b c : Chip} (h : Skimmed a b) (g : Skimmed b c) : Skimmed a c := by
  unfold Skimmed at *
  rw [g, h]

theorem Skimmed.foldl {α : Type} (f : Chip → α → Chip) (h : ∀ c x, Skimmed c (f c x)) (l : List α) (c : Chip) : Skimmed c (l.foldl f c) := by
  induction l generalizing c with
  | nil => rfl
  | cons x t ih => exact (h c x).trans (ih _)

theorem skimmed_setCell (c : Chip) (k : Nat) (v : Cell) : Skimmed c (c.setCell k v) := rfl

theorem skimmed_setSkim (c : Chip) (die n : Nat) : Skimmed c (c.setSkim die n) := rfl

/-- `d` is `c` but for the cells, the phases of the skimmers, the interrupt controller and counters. -/
def Audited (c d : Chip) : Prop := d = ({ c with swc := { c.swc with cells := d.swc.cells, skim := d.swc.skim } } : Chip).raising d

theorem Audited.rfl' (c : Chip) : Audited c c := rfl

theorem Audited.trans {a b c : Chip} (h : Audited a b) (g : Audited b c) : Audited a c := by
  unfold Audited at *
  rw [g, h]
  rfl

theorem Audited.foldl {α : Type} (f : Chip → α → Chip) (h : ∀ c x, Audited c (f c x)) (l : List α) (c : Chip) : Audited c (l.foldl f c) := by
  induction l generalizing c with
  | nil => exact .rfl' c
  | cons x t ih => exact (h c x).trans (ih _)

theorem Audited.swcEpoch {c d : Chip} (h : Audited c d) (die : Nat) : d.swcEpoch die = c.swcEpoch die := by
  unfold Audited at h
  rw [h]
  rfl

theorem Audited.quiet {c d : Chip} (h : Audited c d) : Quiet c d := by
  unfold Audited at h
  exact ⟨by rw [h]; rfl, by rw [h]; rfl, by rw [h]; rfl, by rw [h]; rfl, by rw [h]; exact id, by rw [h]; exact id⟩

theorem Skimmed.audited {c d : Chip} (h : Skimmed c d) : Audited c d := by
  unfold Skimmed at h
  rw [h]
  rfl

theorem Raised.audited {c d : Chip} (h : Raised c d) : Audited c d := by
  unfold Raised at h
  rw [h]
  rfl

section
variable {c d e : Chip} {die k : Nat} {v w : Cell}

@[simp] theorem cell_setCell_self : (c.setCell k v).cell k = v := kgetD_ksetD_self ..

theorem cell_setCell_ne {j : Nat} (h : j ≠ k) : (c.setCell k v).cell j = c.cell j := kgetD_ksetD_ne _ _ _ _ _ _ h

@[simp] theorem skim_setSkim_self (n : Nat) : (c.setSkim die n).skim die = n := kgetD_ksetD_self ..

@[simp] theorem cell_setSkim (n j : Nat) : (c.setSkim die n).cell j = c.cell j := rfl

theorem Raised.cell (h : Raised c d) (j : Nat) : d.cell j = c.cell j := by
  unfold Raised at h
  rw [h]
  rfl

/-! ### One cell after another -/

/-- What the audit does to cell `k` of `c` leaves `v` in it, and every other cell as it is. -/
structure CellAudited (k : Nat) (v : Cell) (c d : Chip) : Prop where
  frame : Audited c d
  self : d.cell k = v
  other : ∀ j, j ≠ k → d.cell j = c.cell j

theorem CellAudited.rfl' (c : Chip) (k : Nat) : CellAudited k (c.cell k) c c := ⟨.rfl' c, rfl, fun _ _ => rfl⟩

theorem CellAudited.setCell (h : CellAudited k w c d) : CellAudited k v c (d.setCell k v) :=
  ⟨h.frame.trans (skimmed_setCell ..).audited, cell_setCell_self, fun j hj => (cell_setCell_ne hj).trans (h.other j hj)⟩

theorem cellAudited_setCell : CellAudited k v c (c.setCell k v) := (CellAudited.rfl' c k).setCell

theorem CellAudited.raised (h : CellAudited k v c d) (g : Raised d e) : CellAudited k v c e :=
  ⟨h.frame.trans g.audited, (g.cell k).trans h.self, fun j hj => (g.cell j).trans (h.other j hj)⟩

/-- Cells audited one after another by `f`: each listed cell has become what `g` makes of it. A cell that the list names
twice is audited twice, which changes nothing more where `g` has nothing more to do. -/
theorem cellsAudited_foldl {f : Chip → Nat → Chip} {g : Bool → Cell → Cell}
    (one : ∀ c k, CellAudited k (g (c.swcEpoch die) (c.cell k)) c (f c k)) (ks : List Nat)
    (once : ks.Nodup ∨ ∀ b e, g b (g b e) = g b e) (c : Chip) (j : Nat) :
    (ks.foldl f c).cell j = if j ∈ ks then g (c.swcEpoch die) (c.cell j) else c.cell j := by
  induction ks generalizing c with
  | nil => rfl
  | cons k t ih =>
    have rest := ih (once.imp_left fun h => (List.nodup_cons.mp h).2) (f c k)
    rw [(one c k).frame.swcEpoch die] at rest
    refine rest.trans ?_
    by_cases here : j = k
    · subst here
      rw [(one c j).self, if_pos List.mem_cons_self]
      split
      · next again => exact once.elim (fun h => absurd again (List.nodup_cons.mp h).1) fun h => h _ _
      · rfl
    · simp only [(one c k).other j here, List.mem_cons, here, false_or]

/-! ### The mark phase (R359) -/

theorem skimRuns_on (h8 : 8 ≤ die) (h12 : die < 12) (on : c.enabled 4 die = true) : c.skimRuns die = true := by
  simp [Chip.skimRuns, h8, h12, on]

theorem auditStart_due (runs : c.skimRuns die = true) (idle : c.skim die = 0)
    (due : kgetD c.swc.auditAt die 0 + max 1 (c.fld .swcGlb die [] 31 16) ≤ c.tick) :
    c.auditStart die = { c with swc := { c.swc with
      epoch := ksetD c.swc.epoch die false (!c.swcEpoch die), auditAt := kput c.swc.auditAt die c.tick
      skim := ksetD c.swc.skim die 0 1 } } := by
  unfold Chip.auditStart
  exact if_pos (by rw [runs, idle]; exact decide_eq_true due)

/-- A holder's mark on one cell. -/
def Chip.markCell (c : Chip) (k : Nat) : Chip := c.setCell k { c.cell k with mark := true }

/-- The cells of the die that their holders mark. -/
def Chip.marked (c : Chip) (die : Nat) : List Nat := c.cellsInUse.filter fun k => cellDie k == die && !(c.cell k).free

theorem mem_marked : k ∈ c.marked die ↔ k ∈ c.cellsInUse ∧ cellDie k = die ∧ (c.cell k).free = false := by
  simp [Chip.marked]

/-- Every holder's marks on the cells of the die. -/
def Chip.markCells (c : Chip) (die : Nat) : Chip := (c.marked die).foldl Chip.markCell c

theorem markPhaseEnd_marks (runs : c.skimRuns die = true) (phase : c.skim die = 1) : c.markPhaseEnd die = (c.markCells die).setSkim die 2 := by
  unfold Chip.markPhaseEnd
  exact if_pos (by rw [runs, phase]; rfl)

/-- Marking counts nothing and raises nothing. -/
theorem skimmed_markCells (c : Chip) (die : Nat) : Skimmed c (c.markCells die) := Skimmed.foldl _ (fun _ _ => skimmed_setCell ..) _ _

/-- A cell that two holders name is marked as one that a single holder names. -/
theorem cell_markCells (j : Nat) :
    (c.markCells die).cell j = if j ∈ c.cellsInUse ∧ cellDie j = die ∧ (c.cell j).free = false then { c.cell j with mark := true } else c.cell j := by
  have folded := cellsAudited_foldl (die := die) (f := Chip.markCell) (g := fun _ e => { e with mark := true })
    (fun _ _ => cellAudited_setCell) (c.marked die) (.inr fun _ _ => rfl) c j
  simp only [mem_marked] at folded
  exact folded

/-! ### The sweep (R359, R360) -/

/-- What the first row of the sweep that holds for a cell leaves of it, on a die of epoch `ep`. -/
def Cell.swept (e : Cell) (ep : Bool) : Cell :=
  if e.free then (if e.ref = 0 then e else { e with free := false })
  else if e.mark = false ∧ e.epoch ≠ ep then {}
  else if e.mark = true ∧ e.ref = 0 then { e with ref := 1 } else e

/-- The first row of the sweep that holds for a cell: its effect, count and event. MARK is cleared after it (`sweepCell_eq`). -/
def Chip.sweepRow (c : Chip) (die k : Nat) : Chip :=
  let e := c.cell k
  let old := e.epoch != c.swcEpoch die
  if e.free then
    (if e.ref = 0 then c
     else ((c.setCell k { e with free := false }).bump .swcListBad die).raise Ev.freeListBad [])
  else if !e.mark && old && e.ref == 0 then ((c.setCell k {}).bump .swcLeakZero die).raise Ev.cellLeak []
  else if !e.mark && old then ((c.setCell k {}).bump .swcLeakUnheld die).raise Ev.cellLeak []
  else if e.mark && e.ref == 0 then (c.setCell k { e with ref := 1 }).bump .swcCountBad die
  else c

theorem sweepCell_eq (c : Chip) (die k : Nat) :
    c.sweepCell die k = (c.sweepRow die k).setCell k { (c.sweepRow die k).cell k with mark := false } := rfl

theorem cellAudited_leak (c : Chip) (die k : Nat) (n : Cnt) : CellAudited k {} c (((c.setCell k {}).bump n die).raise Ev.cellLeak []) :=
  (cellAudited_setCell.raised (raised_bump ..)).raised (raised_raise ..)

theorem sweepRow_swept (c : Chip) (die k : Nat) : CellAudited k ((c.cell k).swept (c.swcEpoch die)) c (c.sweepRow die k) := by
  unfold Chip.sweepRow Cell.swept
  dsimp only
  by_cases free : (c.cell k).free = true
  · rw [if_pos free, if_pos free]
    split
    · exact .rfl' c k
    · exact (cellAudited_setCell.raised (raised_bump ..)).raised (raised_raise ..)
  · rw [if_neg free, if_neg free]
    by_cases leak : (c.cell k).mark = false ∧ (c.cell k).epoch ≠ c.swcEpoch die
    · obtain ⟨unmarked, old⟩ := leak
      rw [if_pos ⟨unmarked, old⟩]
      simp only [unmarked, bne_iff_ne.mpr old, Bool.not_false, Bool.and_self, Bool.true_and, if_true]
      split
      · exact cellAudited_leak ..
      · exact cellAudited_leak ..
    · have kept : (!(c.cell k).mark && (c.cell k).epoch != c.swcEpoch die) = false := by simpa using leak
      rw [if_neg leak]
      simp only [kept, Bool.false_and, Bool.false_eq_true, if_false, Bool.and_eq_true, beq_iff_eq]
      split
      · exact cellAudited_setCell.raised (raised_bump ..)
      · exact .rfl' c k

theorem sweepCell_swept (c : Chip) (die k : Nat) :
    CellAudited k { (c.cell k).swept (c.swcEpoch die) with mark := false } c (c.sweepCell die k) := by
  have row := sweepRow_swept c die k
  rw [sweepCell_eq, row.self]
  exact row.setCell

/-- The die's listed cells, which its sweep goes through. -/
def Chip.swept (c : Chip) (die : Nat) : List Nat := (kkeys c.swc.cells).filter fun k => cellDie k == die

theorem mem_swept : k ∈ c.swept die ↔ k ∈ kkeys c.swc.cells ∧ cellDie k = die := by
  simp [Chip.swept]

/-- In the canonical form of the table each cell comes once. -/
theorem swept_nodup (h : Rising c.swc.cells) : (c.swept die).Nodup :=
  (List.Pairwise.imp Nat.ne_of_lt h).filter _

theorem kgetD_unlisted {α : Type} {m : KMap α} {k : Nat} (h : k ∉ kkeys m) (d : α) : kgetD m k d = d := by
  induction m with
  | nil => rfl
  | cons e t ih =>
    obtain ⟨here, later⟩ := not_or.mp (mt List.mem_cons.mpr h)
    exact (congrArg (Option.getD · d) (if_neg (Ne.symm here))).trans (ih later)

/-- The sweep of the die's cells. -/
def Chip.sweepCells (c : Chip) (die : Nat) : Chip := (c.swept die).foldl (fun c k => c.sweepCell die k) c

theorem auditSweepEnd_sweeps (runs : c.skimRuns die = true) (phase : c.skim die = 2) :
    c.auditSweepEnd die = ((c.sweepCells die).setSkim die 0).bump .swcAudits die := by
  unfold Chip.auditSweepEnd
  exact if_pos (by rw [runs, phase]; rfl)

theorem audited_sweepCells (c : Chip) (die : Nat) : Audited c (c.sweepCells die) :=
  Audited.foldl _ (fun c k => (sweepCell_swept c die k).frame) _ _

/-- Every cell of the die is swept: one that is not listed is as its sweep leaves it. -/
theorem cell_sweepCells (h : Rising c.swc.cells) (j : Nat) :
    (c.sweepCells die).cell j = if cellDie j = die then { (c.cell j).swept (c.swcEpoch die) with mark := false } else c.cell j := by
  have folded := cellsAudited_foldl (die := die) (g := fun b e => { e.swept b with mark := false })
    (fun c k => sweepCell_swept c die k) (c.swept die) (.inl (swept_nodup h)) c j
  refine folded.trans ?_
  by_cases here : cellDie j = die
  · rw [if_pos here]
    split
    · rfl
    · next unlisted =>
      have blank : c.cell j = {} := kgetD_unlisted (fun listed => unlisted (mem_swept.mpr ⟨listed, here⟩)) _
      rw [blank]
      rfl
  · rw [if_neg here, if_neg fun listed => here (mem_swept.mp listed).2]

/-! ### Die-to-die links (R364) -/

theorem Raised.allReach (h : Raised c d) : d.allReach = c.allReach := by
  unfold Raised at h
  rw [h]
  rfl

/-- A link has gone DOWN, and what was outstanding on it is resent from both its ends. -/
def Chip.linkLost (c : Chip) (die link : Nat) : Chip :=
  ((c.takeLinkDown die link).resendOn die link).resendOn (linkPeer die link).1 (linkPeer die link).2

section
variable {link : Nat} (ex : linkExists die link = true) (up : c.linkDown die link = false)
include ex up

theorem d2dError_up :
    c.d2dError die link =
      let o := linkPeer die link
      (({ c with swc := { c.swc with
        retries := kput c.swc.retries (o.1 * 16 + o.2) (kgetD c.swc.retries (o.1 * 16 + o.2) 0 + 1) } } : Chip).bump .swcD2dErr o.1 [o.2]).bump
          .swcD2dRetry o.1 [o.2] := by
  unfold Chip.d2dError
  exact if_pos (by rw [ex, up]; rfl)

/-- Past the limit, while every pair of dies keeps a path. -/
theorem d2dFault_reach (limit : max 1 (c.fld .swcGlb die [] 11 8) ≤ c.linkRetries die link) (reach : (c.linkLost die link).allReach = true) :
    c.d2dFault die link = ((c.linkLost die link).raise Ev.d2dFault []).degrade := by
  unfold Chip.d2dFault
  exact (if_pos (by rw [ex, up]; simpa using limit)).trans (if_pos ((raised_raise ..).allReach.trans reach))

end

theorem switched_resendOn (c : Chip) (die link : Nat) : Switched c (c.resendOn die link) :=
  Switched.trans (b := { c with swc := { c.swc with d2dTx := _ } }) rfl (Switched.foldl _ (fun _ _ => switched_cross ..) _ _)

theorem switched_linkLost (c : Chip) (die link : Nat) : Switched c (c.linkLost die link) :=
  (Switched.trans (b := c.takeLinkDown die link) rfl (switched_resendOn ..)).trans (switched_resendOn ..)

theorem Switched.boot (h : Switched c d) : d.boot = c.boot := by
  unfold Switched at h
  rw [h]

theorem degrade_service (h : c.boot.state = .service) : c.degrade = c.devTo .degraded := by
  unfold Chip.degrade
  rw [h]

theorem degrade_degraded (h : c.boot.state = .degraded) : c.degrade = c := by
  unfold Chip.degrade
  rw [h]

theorem kindState_degraded (kind : Nat) : kindState kind .degraded = true := by
  unfold kindState
  split <;> rfl

/-- A boot record `b` that has entered DEGRADED. -/
def Boot.degraded (b : Boot) : Boot := { b with state := .degraded, times := kput b.times DevState.degraded.code b.tick }

/-- A device in SERVICE becomes DEGRADED and keeps its sessions: the state admits every KIND (R520). -/
theorem raised_degrade (h : c.boot.state = .service) : Raised { c with boot := c.boot.degraded } c.degrade := by
  rw [degrade_service h]
  exact raised_devTo c .degraded (by rw [h]; decide) (fun _ _ => kindState_degraded _) fun _ _ => kindState_degraded _

theorem Raised.setBoot (h : Raised c d) (b : Boot) : Raised { c with boot := b } { d with boot := b } := by
  unfold Raised at *
  rw [h]
  rfl

end

/-- Settles O50: each row by the case of its meaning that the clause describes; the mark phase and the sweep cell by cell. -/
theorem auditsAndDieLinksAct : Obligations.AuditsAndDieLinksAct := by
  unfold Obligations.AuditsAndDieLinksAct
  intro s die link hs c
  refine ⟨fun h8 h12 on => ⟨fun idle due => ?start, fun phase => ?mark, fun phase rising => ?sweep⟩, fun ex up => ⟨?error, fun limit reach => ?fault⟩⟩
  case start =>
    exact becomes s _ _ _ rfl (auditStart_due (skimRuns_on h8 h12 on) idle due) (quiet_of _ _ rfl rfl rfl rfl id id) hs
  case mark =>
    have frame : Skimmed c ((c.markCells die).setSkim die 2) := (skimmed_markCells ..).trans (skimmed_setSkim ..)
    have step := becomes s (.markPhaseEnd die) _ _ rfl (markPhaseEnd_marks (skimRuns_on h8 h12 on) phase) frame.audited.quiet hs
    exact ⟨{ s with chip := (c.markCells die).setSkim die 2 }, step, skim_setSkim_self 2, fun k => (cell_setSkim ..).trans (cell_markCells k),
      frame, rfl, rfl⟩
  case sweep =>
    have counted : Raised ((c.sweepCells die).setSkim die 0) (((c.sweepCells die).setSkim die 0).bump .swcAudits die) := raised_bump ..
    have frame : Audited c (((c.sweepCells die).setSkim die 0).bump .swcAudits die) :=
      ((audited_sweepCells ..).trans (skimmed_setSkim ..).audited).trans counted.audited
    have cells (k : Nat) : (((c.sweepCells die).setSkim die 0).bump .swcAudits die).cell k = (c.sweepCells die).cell k :=
      (counted.cell k).trans (cell_setSkim ..)
    have step := becomes s (.auditSweepEnd die) _ _ rfl (auditSweepEnd_sweeps (skimRuns_on h8 h12 on) phase) frame.quiet hs
    exact ⟨{ s with chip := ((c.sweepCells die).setSkim die 0).bump .swcAudits die }, step, skim_setSkim_self (c := c.sweepCells die) 0,
      fun k here => ((cells k).trans (cell_sweepCells rising k)).trans (if_pos here),
      fun k there => ((cells k).trans (cell_sweepCells rising k)).trans (if_neg there), frame, rfl, rfl⟩
  case error => exact becomes s _ _ _ rfl (d2dError_up ex up) (quiet_of _ _ rfl rfl rfl rfl id id) hs
  case fault =>
    have lost : Switched c (c.linkLost die link) := switched_linkLost ..
    have raised : Raised (c.linkLost die link) ((c.linkLost die link).raise Ev.d2dFault []) := raised_raise ..
    have boot : ((c.linkLost die link).raise Ev.d2dFault []).boot = c.boot := (kept_raise ..).boot.trans lost.boot
    have means := d2dFault_reach ex up limit reach
    refine ⟨fun state => ?_, fun state => ?_⟩
    · rw [degrade_degraded ((congrArg Boot.state boot).trans state)] at means
      exact raisesTo s _ _ _ (congrArg (act s) means) raised (lost.quiet.still hs)
    · have down := raised_degrade ((congrArg Boot.state boot).trans state)
      rw [boot] at down
      exact raisesTo s _ _ _ (congrArg (act s) means) ((raised.setBoot _).trans down) (lost.quiet.still hs)

end Sys2Proof.Machine
end

section
/-! SUPPORT. The reset of a partition in which no work is in progress: its drain, its revocations and the sweep of the
directory (R415, R464, R465). -/

namespace Sys2Proof.Machine

section
variable {c : Chip} {p : Nat}

theorem partOf_setPart (c : Chip) (p : Nat) (v : Part) : (c.setPart p v).partOf p = v := kgetD_ksetD_self ..

theorem partOf_setPart_ne (v : Part) {q : Nat} (h : q ≠ p) : (c.setPart p v).partOf q = c.partOf q :=
  kgetD_ksetD_ne _ _ _ _ _ _ h

/-! ### The revocations' turns (R462, R467) -/

theorem nextTurn_none (h : ∀ q < 64, (c.partOf q).toStart = []) : c.nextTurn = none := by
  refine List.find?_eq_none.mpr fun q hq => ?_
  obtain ⟨i, -, rfl⟩ := List.mem_map.mp hq
  rw [h _ (Nat.mod_lt _ (by decide))]
  decide

theorem serveRevoke_none (h : ∀ q < 64, (c.partOf q).toStart = []) : c.serveRevoke = c := by
  unfold Chip.serveRevoke
  rw [nextTurn_none h, ite_self]

/-! ### The directory sweep (R415) -/

theorem partEnts_nil (h : c.coh.ents = []) (p : Nat) : c.partEnts p = [] := by
  unfold Chip.partEnts
  rw [h]
  rfl

theorem partSweep_nil (h : c.coh.ents = []) (p : Nat) :
    c.partSweep p = { c with coh := { c.coh with partSweeps := c.coh.partSweeps ++ [(p, [])] } } := by
  unfold Chip.partSweep
  rw [partEnts_nil h]
  rfl

/-- The partition in RESETTING at step `n`, no region of it left to revoke. -/
def Part.resettingAt (v : Part) (n : Nat) : Part := { v with st := .resetting, step := n, toRevoke := [], toStart := [] }

/-- The partition in step 4, the sweep of an empty directory begun. -/
def Chip.sweeping (c : Chip) (p : Nat) : Chip :=
  { (c.setPart p ((c.partOf p).resettingAt 3)).setPart p ((c.partOf p).resettingAt 4) with
    coh := { c.coh with partSweeps := c.coh.partSweeps ++ [(p, [])] } }

theorem partOf_sweeping (c : Chip) (p : Nat) : (c.sweeping p).partOf p = (c.partOf p).resettingAt 4 :=
  partOf_setPart (c.setPart p ((c.partOf p).resettingAt 3)) p ((c.partOf p).resettingAt 4)

theorem partOf_sweeping_ne {q : Nat} (h : q ≠ p) : (c.sweeping p).partOf q = c.partOf q :=
  (partOf_setPart_ne (c := c.setPart p ((c.partOf p).resettingAt 3)) ((c.partOf p).resettingAt 4) h).trans (partOf_setPart_ne _ h)

theorem resetStep_sweeping (ents : c.coh.ents = []) :
    (c.setPart p ((c.partOf p).resettingAt 3)).resetStep p = c.sweeping p := by
  unfold Chip.resetStep
  dsimp only
  rw [partOf_setPart, if_pos ⟨rfl, rfl, rfl⟩]
  exact partSweep_nil (c := (c.setPart p _).setPart p _) ents p

theorem startRevokes_sweeping (ents : c.coh.ents = []) (none : ∀ e ∈ c.sec.regions, e.2.part ≠ p)
    (turns : ∀ q < 64, q ≠ p → (c.partOf q).toStart = []) : c.startRevokes p = c.sweeping p := by
  have slots : (c.sec.regions.filter fun e => e.2.valid && e.2.part == p) = [] :=
    List.filter_eq_nil_iff.mpr fun e he => by simp [none e he]
  have step : c.startRevokes p = ((c.setPart p ((c.partOf p).resettingAt 3)).resetStep p).serveRevoke := by
    unfold Chip.startRevokes
    rw [slots]
    rfl
  rw [step, resetStep_sweeping ents]
  refine serveRevoke_none fun q hq => ?_
  by_cases e : q = p
  · rw [e, partOf_sweeping]
    rfl
  · rw [partOf_sweeping_ne e]
    exact turns q hq e

theorem quiet_sweeping (c : Chip) (p : Nat) : Quiet c (c.sweeping p) := quiet_of _ _ rfl rfl rfl rfl id id

/-! ### The drain's end and timeout (R464) -/

theorem drainEnd_idle (idle : c.Idle) (run : c.resetsRun = true) (st : (c.partOf p).st = .draining) :
    c.drainEnd p = c.startRevokes p := by
  obtain ⟨reqs, other, -⟩ := idle_work c idle p
  unfold Chip.drainEnd
  rw [if_pos ⟨st, run, by rw [reqs, other]⟩, endWork_idle c idle]

/-- The drain has timed out: counted and raised. -/
def Chip.drainLate (c : Chip) (p : Nat) : Chip :=
  ((c.setPart p { c.partOf p with timedOut := true }).bump .prtDrainTmo 12 [p]).raise Ev.drainTimeout [p]
    (1 + 2 * b2n (c.partOf p).deleting) 0

theorem noted_drainLate (rings : c.NoRings) (hp : p < 64) :
    Noted (c.setPart p { c.partOf p with timedOut := true }) (c.drainLate p) :=
  (raised_bump ..).noted.trans (noted_raise _ _ _ _ _ _ (fun _ hq => List.mem_singleton.mp hq ▸ hp) rings)

theorem drainTimeout_idle (idle : c.Idle) (rings : c.NoRings) (hp : p < 64) (run : c.resetsRun = true)
    (st : (c.partOf p).st = .draining) (due : (c.partOf p).drainAt + max 1 (c.fld .prtGlb 12 [] 15 0) ≤ c.boot.tick) :
    c.drainTimeout p = (c.drainLate p).startRevokes p := by
  have late : (c.drainLate p).Idle := (noted_drainLate rings hp).idle idle
  unfold Chip.drainTimeout
  rw [if_pos ⟨st, run, decide_eq_true due⟩]
  exact congrArg (Chip.startRevokes · p) (endWork_idle _ late p)

theorem Noted.parts {c d : Chip} (h : Noted c d) : d.parts = c.parts := by rw [h.eq]; rfl
theorem Noted.coh {c d : Chip} (h : Noted c d) : d.coh = c.coh := by rw [h.eq]; rfl
theorem Noted.sec {c d : Chip} (h : Noted c d) : d.sec = c.sec := by rw [h.eq]; rfl
theorem Noted.mem {c d : Chip} (h : Noted c d) : d.mem = c.mem := by rw [h.eq]; rfl
theorem Noted.partOf {c d : Chip} (h : Noted c d) (q : Nat) : d.partOf q = c.partOf q := by
  unfold Chip.partOf
  rw [h.parts]

/-! ### The sweep's end (R415, R465) -/

/-- The partition is back in the state that its reset started from, the sampling LFSR seeded anew where that is ACTIVE. -/
def Chip.returned (c : Chip) (p : Nat) : Chip :=
  let d := c.setPart p { st := (c.partOf p).from_, node := (c.partOf p).node }
  if (c.partOf p).from_ = .active then d.seedLfsr p else d

theorem partOf_returned (c : Chip) (p : Nat) :
    (c.returned p).partOf p = { st := (c.partOf p).from_, node := (c.partOf p).node } := by
  unfold Chip.returned
  dsimp only
  split <;> exact partOf_setPart ..

theorem returned_frame (c : Chip) (p : Nat) :
    (c.returned p).coh = c.coh ∧ (c.returned p).mem = c.mem ∧ (c.returned p).sec = c.sec ∧ (c.returned p).ctl = c.ctl := by
  unfold Chip.returned
  dsimp only
  split <;> exact ⟨rfl, rfl, rfl, rfl⟩

theorem quiet_returned (c : Chip) (p : Nat) : Quiet c (c.returned p) := by
  unfold Chip.returned
  exact quiet_ite (quiet_of _ _ rfl rfl rfl rfl id id) (quiet_of _ _ rfl rfl rfl rfl id id)

/-- With no bowl to scrub the reset's last two steps return the partition, count it and raise its event. -/
theorem finishReset_returned (bowls : c.bowls = []) (stays : (c.partOf p).deleting = false) :
    c.finishReset p = ((c.returned p).bump .prtResets 12 [p]).raise Ev.resetDone [p] (b2n (c.partOf p).timedOut) 0 := by
  have none : c.partBowls p = [] := by
    unfold Chip.partBowls
    rw [bowls]
    rfl
  unfold Chip.finishReset Chip.returned
  rw [none]
  extract_lets bs wiped resid dsp scrubbed v back d returned done
  have kept : resid = c.dsp.resid := List.filter_eq_self.mpr fun _ _ => rfl
  have same : scrubbed = c := by
    show ({ c with dsp := { c.dsp with resid := resid } } : Chip) = c
    rw [kept]
  have part : v = c.partOf p := congrArg (Chip.partOf · p) same
  clear_value scrubbed
  subst same
  simp only [done, returned, d, back, part, stays, Bool.false_eq_true, if_false]
  rfl

/-- The snoops of the partition's sweep are settled. -/
def Chip.sweepEnded (c : Chip) (p : Nat) : Chip := { c with coh := { c.coh with partSweeps := c.coh.partSweeps.erase (p, []) } }

theorem partSwept_ends (run : c.resetsRun = true) (ents : c.coh.ents = []) (st : (c.partOf p).st = .resetting)
    (step : (c.partOf p).step = 4) (swept : c.coh.partSweeps.contains (p, []) = true) :
    c.partSwept p = (c.sweepEnded p).finishReset p := by
  unfold Chip.partSwept
  exact (if_pos ⟨st, step, run, swept⟩).trans (if_pos (partEnts_nil (c := c.sweepEnded p) ents p))

theorem noted_finishReset (rings : c.NoRings) (hp : p < 64) (bowls : c.bowls = []) (stays : (c.partOf p).deleting = false) :
    Noted (c.returned p) (c.finishReset p) := by
  obtain ⟨-, -, -, ctl⟩ := returned_frame c p
  have rings' : (c.returned p).NoRings := by
    unfold Chip.NoRings Chip.reg
    rw [ctl]
    exact rings
  rw [finishReset_returned bowls stays]
  exact (raised_bump ..).noted.trans (noted_raise _ _ _ _ _ _ (fun _ hq => List.mem_singleton.mp hq ▸ hp) rings')

end

/-- Settles O35: with no work and no region nothing stands between the drain and the sweep of an empty directory
(`startRevokes_sweeping`), nor between the sweep and the partition's return (`finishReset_returned`). -/
theorem partitionResetsRun : Obligations.PartitionResetsRun := by
  unfold Obligations.PartitionResetsRun
  intro s p idle rings hp run ents regions turns
  have hs : s.chip.Still := idle.1
  refine ⟨fun st => ?ends, fun st due => ?timesOut, fun st step swept stays bowls => ?returns⟩
  case ends =>
    exact becomes s (.drainEnd p) _ _ rfl ((drainEnd_idle idle run st).trans (startRevokes_sweeping ents regions turns))
      (quiet_sweeping s.chip p) hs
  case timesOut =>
    have noted := noted_drainLate rings hp
    have same (q : Nat) (hq : q ≠ p) : (s.chip.drainLate p).partOf q = s.chip.partOf q :=
      (noted.partOf q).trans (partOf_setPart_ne _ hq)
    have meaning : s.chip.drainTimeout p = (s.chip.drainLate p).sweeping p :=
      (drainTimeout_idle idle rings hp run st due).trans (startRevokes_sweeping (noted.coh ▸ ents) (noted.sec ▸ regions)
        fun q h hq => by rw [same q hq]; exact turns q h hq)
    have late : (s.chip.drainLate p).partOf p = { s.chip.partOf p with timedOut := true } := (noted.partOf p).trans (partOf_setPart ..)
    have part := (partOf_sweeping (s.chip.drainLate p) p).trans (congrArg (Part.resettingAt · 4) late)
    have quiet : Quiet s.chip ((s.chip.drainLate p).sweeping p) :=
      ((quiet_of s.chip (s.chip.setPart p _) rfl rfl rfl rfl id id).trans noted.quiet).trans (quiet_sweeping _ p)
    refine ⟨_, becomes s (.drainTimeout p) _ _ rfl meaning quiet hs, ?_, ?_, ?_, ?_, ?_, noted.mem⟩
    · exact congrArg Part.st part
    · exact congrArg Part.step part
    · exact congrArg Part.timedOut part
    · exact congrArg (fun h : Coh => { h with partSweeps := h.partSweeps ++ [(p, [])] }) noted.coh
    · exact (noted_dsp noted :)
  case returns =>
    have noted := noted_finishReset (c := s.chip.sweepEnded p) rings hp bowls stays
    obtain ⟨coh, mem, sec, -⟩ := returned_frame (s.chip.sweepEnded p) p
    have quiet : Quiet s.chip ((s.chip.sweepEnded p).finishReset p) :=
      ((quiet_coh s.chip _).trans (quiet_returned _ p)).trans noted.quiet
    exact ⟨_, becomes s (.partitionSweepDone p) _ _ rfl (partSwept_ends run ents st step swept) quiet hs,
      (noted.partOf p).trans (partOf_returned ..), noted.coh.trans coh, noted.mem.trans mem, noted.sec.trans sec⟩

end Sys2Proof.Machine
end

section
/-! SUPPORT. The coherent home between requests: snoop responses, the transactions and waiters of a line, reservations,
overdue snoops, lost nodes and their sweeps (R403, R405, R407, R408, R410, R411, R419). -/

namespace Sys2Proof.Machine

/-! ### What waits meanwhile

A row of the home looks, when its command is done, at the snoops that wait for an index and at the requests that wait for
the memory tiers. The effect of a request on its lines, and its answer, add to neither. -/

/-- The snoops that wait for an index, and the requests that wait for the memory tiers. -/
def Chip.homeWaits (c : Chip) : List (Nat × Nat × Nat × Nat × Nat) × List Nat := (c.coh.late, c.mem.cursorWait)

theorem late_of_homeWaits {c d : Chip} (h : d.homeWaits = c.homeWaits) : d.coh.late = c.coh.late := congrArg Prod.fst h

theorem cursorWait_of_homeWaits {c d : Chip} (h : d.homeWaits = c.homeWaits) : d.mem.cursorWait = c.mem.cursorWait := congrArg Prod.snd h

theorem Switched.homeWaits {c d : Chip} (h : Switched c d) : d.homeWaits = c.homeWaits := by
  rw [show _ = _ from h]
  rfl

@[simp] theorem homeWaits_bump (c : Chip) (k : Cnt) (die : Nat) (i : List Nat) (n : Nat) : (c.bump k die i n).homeWaits = c.homeWaits := rfl

theorem homeWaits_setReg (c : Chip) (r : Reg) (die : Nat) (i : List Nat) (v : Nat) : (c.setReg r die i v).homeWaits = c.homeWaits := rfl

theorem homeWaits_mem (c : Chip) (m : Mem) (h : m.cursorWait = c.mem.cursorWait) : ({ c with mem := m } : Chip).homeWaits = c.homeWaits :=
  congrArg (Prod.mk _) h

/-! #### Bytes written to pool memory -/

/-- `d` is `c` but for the bytes of DRAM. -/
def Stored (c d : Chip) : Prop := d = { c with mem := { c.mem with dram := d.mem.dram } }

theorem Stored.rfl' (c : Chip) : Stored c c := rfl

theorem Stored.trans {a b c : Chip} (h : Stored a b) (g : Stored b c) : Stored a c := by
  unfold Stored at *
  rw [g, h]

section
variable {c d : Chip}

theorem Stored.coh (h : Stored c d) : d.coh = c.coh := by rw [show _ = _ from h]
theorem Stored.gtx (h : Stored c d) : d.gtx = c.gtx := by rw [show _ = _ from h]
theorem Stored.objs (h : Stored c d) : d.mem.objs = c.mem.objs := by rw [show _ = _ from h]
theorem Stored.homeWaits (h : Stored c d) : d.homeWaits = c.homeWaits := by
  rw [show _ = _ from h]
  rfl
theorem Stored.quiet (h : Stored c d) : Quiet c d := by
  rw [show _ = _ from h]
  exact quiet_mem _ _

end

section
variable (c : Chip)

theorem stored_wrPool (p : Nat) (b : Bytes) : Stored c (c.wrPool p b) := by
  unfold Chip.wrPool
  dsimp only
  split <;> rfl

theorem stored_wrGran (id o : Nat) (b : Bytes) : Stored c (c.wrGran id o b) := by
  have first : Stored c (if c.copyWrites (c.copies (c.obj id) o).1 then c.wrPool (c.copies (c.obj id) o).1 b else c) := by
    split
    · exact stored_wrPool ..
    · exact .rfl' c
  unfold Chip.wrGran
  dsimp only
  split
  · exact first.trans (stored_wrPool ..)
  · exact first

theorem stored_wrObj (id n : Nat) : ∀ (c : Chip) (o : Nat) (b : Bytes), Stored c (c.wrObj id n o b) := by
  induction n with
  | zero => exact fun c _ _ => .rfl' c
  | succ n ih =>
    intro c o b
    unfold Chip.wrObj
    dsimp only
    split
    · exact .rfl' c
    · exact (stored_wrGran ..).trans (ih ..)

theorem stored_writeObj (id o : Nat) (b : Bytes) : Stored c (c.writeObj id o b) := stored_wrObj ..

@[simp] theorem homeWaits_writeObj (id o : Nat) (b : Bytes) : (c.writeObj id o b).homeWaits = c.homeWaits := (stored_writeObj ..).homeWaits

theorem homeWaits_writeChunkOn (ob : Obj) (k ls : Nat) (b : Bytes) : (c.writeChunkOn ob k ls b).homeWaits = c.homeWaits := by
  refine foldl_field Chip.homeWaits _ (fun d i => ?_) _ _
  dsimp only
  split
  · exact (stored_wrPool ..).homeWaits
  · rfl

/-! #### Bytes read from the tiers -/


theorem homeWaits_takeFlash (n i : Nat) : (c.takeFlash n i).2.homeWaits = c.homeWaits := by
  unfold Chip.takeFlash
  split <;> rfl

theorem homeWaits_chunk (n i : Nat) (bad : Bool) : (c.chunk n i bad).2.homeWaits = c.homeWaits := by
  have taken := homeWaits_takeFlash c n i
  have counted (fs : Nat) (p : Bool) :
      (((c.takeFlash n i).2.when p fun c => c.bump .flsCe fs).bump .flsReadBytes fs [] 65536).homeWaits = c.homeWaits := by
    refine (homeWaits_bump ..).trans ?_
    cases p
    · exact taken
    · exact (homeWaits_bump ..).trans taken
  unfold Chip.chunk
  split
  · rfl
  split
  · rfl
  split
  · rfl
  dsimp only
  split
  · exact (homeWaits_bump ..).trans taken
  split
  · exact counted ..
  split
  · exact counted ..
  · exact (homeWaits_bump ..).trans (counted ..)

theorem homeWaits_flashRead (id : Nat) (ob : Obj) (o n : Nat) : (c.flashRead id ob o n).2.homeWaits = c.homeWaits := by
  have read := homeWaits_chunk c ob.bundle (c.firstChunk ob + o / 65536) false
  unfold Chip.flashRead
  dsimp only
  split
  · next e =>
    rw [e] at read
    exact read
  · next e =>
    rw [e] at read
    dsimp only
    split
    · exact (homeWaits_mem _ _ rfl).trans ((homeWaits_writeChunkOn ..).trans read)
    · exact read

theorem homeWaits_takeBad (g : Nat) : (c.takeBad g).2.homeWaits = c.homeWaits := by
  unfold Chip.takeBad
  split <;> rfl

theorem homeWaits_rdGran (id o n : Nat) : (c.rdGran id o n).2.2.homeWaits = c.homeWaits := by
  have bad := homeWaits_takeBad c ((c.copies (c.obj id) o).1 / 256)
  unfold Chip.rdGran
  dsimp only
  split
  · next e =>
    rw [e] at bad
    exact bad
  · next d e =>
    rw [e] at bad
    have flash := (homeWaits_flashRead d id (c.obj id) o n).trans bad
    split
    · split <;> exact bad
    · split
      · split <;> (next e => rw [e] at flash; exact flash)
      · exact bad

theorem homeWaits_rdObj (id n : Nat) : ∀ (c : Chip) (o k : Nat), (c.rdObj id n o k).2.2.homeWaits = c.homeWaits := by
  induction n with
  | zero => exact fun _ _ _ => rfl
  | succ n ih =>
    intro c o k
    have gran := homeWaits_rdGran c id o (min k (256 - o % 256))
    unfold Chip.rdObj
    dsimp only
    split
    · rfl
    split
    · next e =>
      rw [e] at gran
      exact gran
    · next d e =>
      rw [e] at gran
      have rest := (ih d (o + min k (256 - o % 256)) (k - min k (256 - o % 256))).trans gran
      split <;> (next e => rw [e] at rest; exact rest)

theorem homeWaits_stallAgain (id part : Nat) (had new : List Nat) : (c.stallAgain id part had new).homeWaits = c.homeWaits := by
  have counted : ((new.dedup.filter fun n => !had.contains n).foldl (fun c n => c.bump (tierCnt n) 12 [part]) c).homeWaits = c.homeWaits :=
    foldl_field Chip.homeWaits _ (fun _ _ => homeWaits_bump ..) _ _
  unfold Chip.stallAgain
  dsimp only
  split <;> exact counted

theorem homeWaits_accessRead (x : Pend) (o n : Nat) : (c.accessRead x o n).2.1.homeWaits = c.homeWaits :=
  (homeWaits_stallAgain ..).trans (homeWaits_rdObj ..)

/-! #### A request's effect on a line -/

theorem homeWaits_reduceEffect (x : Pend) (o n : Nat) : (c.reduceEffect x o n).1.homeWaits = c.homeWaits := by
  have whole : (if o = x.off then c.accessRead x x.off x.req.payload.length else (some [], c, x)).2.1.homeWaits = c.homeWaits := by
    split
    · exact homeWaits_accessRead ..
    · rfl
  unfold Chip.reduceEffect
  dsimp only
  split
  · next e =>
    rw [e] at whole
    exact whole
  · next d y e =>
    rw [e] at whole
    have read := (homeWaits_accessRead d y o n).trans whole
    split
    · next e =>
      rw [e] at read
      exact (homeWaits_writeObj ..).trans read
    · next d y e =>
      rw [e] at read
      have again := (homeWaits_accessRead d y o n).trans read
      split
      · next e =>
        rw [e] at again
        exact (homeWaits_writeObj ..).trans again
      · next e =>
        rw [e] at again
        exact again

theorem homeWaits_lineEffect (x : Pend) (ol : Nat) : (c.lineEffect x ol).1.homeWaits = c.homeWaits := by
  have taken : (c.takeDram x ol).homeWaits = c.homeWaits :=
    foldl_field Chip.homeWaits (fun d a => d.dramTake x.lineClass a) (fun d _ => homeWaits_mem d _ rfl) _ _
  have read (o n : Nat) := (homeWaits_accessRead (c.takeDram x ol) x o n).trans taken
  unfold Chip.lineEffect
  dsimp only
  split
  · have r := read (lineSpan x ol).1 (lineSpan x ol).2
    split <;> (next e => rw [e] at r; exact r)
  split
  · have r := read x.off (reqLen x.req)
    split
    · next e =>
      rw [e] at r
      exact r
    · next e =>
      rw [e] at r
      split
      · exact r
      · exact (homeWaits_writeObj ..).trans r
  split
  · exact (homeWaits_reduceEffect ..).trans taken
  · exact (homeWaits_writeObj ..).trans taken

theorem homeWaits_onLine (x : Pend) (l : Nat × Nat) : (c.onLine x l).1.homeWaits = c.homeWaits := by
  unfold Chip.onLine
  split <;> exact homeWaits_lineEffect ..

/-! #### A request's answer -/

theorem homeWaits_sendRsp (via : Option Nat) (r : Rsp) (part : Nat) (die : Option Nat) : (c.sendRsp via r part die).homeWaits = c.homeWaits := by
  unfold Chip.sendRsp
  split
  · rfl
  · split <;> rfl

theorem homeWaits_countStatus (part : Option Nat) (status info : Nat) : (c.countStatus part status info).homeWaits = c.homeWaits := by
  unfold Chip.countStatus
  cases part <;> simp only [apply_ite Chip.homeWaits, homeWaits_bump, ite_self]

theorem homeWaits_captureRefusal (r : Req) (status info : Nat) : (c.captureRefusal r status info).homeWaits = c.homeWaits := by
  unfold Chip.captureRefusal Chip.capture
  split
  · rfl
  split
  · rfl
  · exact (foldl_field Chip.homeWaits _ (fun _ _ => homeWaits_setReg ..) _ _).trans (homeWaits_setReg ..)

theorem homeWaits_answer (via part : Option Nat) (r : Req) (status info : Nat) (b : Bytes) (tgt replay : Bool) (die : Option Nat) :
    (c.answer via part r status info b tgt replay die).homeWaits = c.homeWaits :=
  (homeWaits_sendRsp ..).trans ((homeWaits_captureRefusal ..).trans (homeWaits_countStatus ..))

theorem homeWaits_settleStream (i : Nat) : (c.settleStream i).homeWaits = c.homeWaits := by
  unfold Chip.settleStream Chip.streamWrite
  dsimp only
  split
  · rfl
  · split
    · exact homeWaits_setReg ..
    · rfl

theorem homeWaits_answerDup (part : Nat) (r : Rsp) (x : Dup) : (c.answerDup part r x).homeWaits = c.homeWaits := by
  have released := (switched_release c x.cells).homeWaits
  unfold Chip.answerDup Chip.freeCred
  refine (homeWaits_sendRsp ..).trans ?_
  split <;> exact released

theorem homeWaits_logDone (part : Nat) (log : Option (Nat × Nat)) (r : Rsp) (info : Nat) : (c.logDone part log r info).homeWaits = c.homeWaits := by
  unfold Chip.logDone
  split
  · rfl
  dsimp only
  split
  · rfl
  · exact (homeWaits_settleStream ..).trans (foldl_field Chip.homeWaits _ (fun d x => homeWaits_answerDup d ..) _ _)

theorem homeWaits_complete (x : Pend) (ho : ∃ p k, x.origin = .port p k) : (c.complete x).homeWaits = c.homeWaits := by
  obtain ⟨p, k, ho⟩ := ho
  have released : ((c.delPend x.id).releaseCells x.cells).homeWaits = c.homeWaits := (switched_release ..).homeWaits
  unfold Chip.complete Chip.reply
  dsimp only
  rw [ho]
  refine (homeWaits_logDone ..).trans ((homeWaits_answer ..).trans ?_)
  split
  · exact (homeWaits_stallAgain ..).trans released
  · exact released

end

end Sys2Proof.Machine
end

section
/-! SUPPORT. The rows of the coherent home: snoop responses, the transactions and waiters of a line, reservations, overdue
snoops, lost nodes and their sweeps (R403, R405, R407, R408, R410, R411, R419). -/

namespace Sys2Proof.Machine

section
variable {c d : Chip}

/-! ### A line's queue and the directory -/

theorem lineQ_setLineQ (c : Chip) (pl : Nat) (q : LineQ) : (c.setLineQ pl q).lineQ pl = q := kgetD_ksetD_self ..

theorem quiet_setLineQ (c : Chip) (pl : Nat) (q : LineQ) : Quiet c (c.setLineQ pl q) := quiet_coh _ _

theorem quiet_endTxn (c : Chip) (pl : Nat) : Quiet c (c.endTxn pl) := quiet_setLineQ ..

theorem homeWaits_endTxn (c : Chip) (pl : Nat) : (c.endTxn pl).homeWaits = c.homeWaits := rfl

theorem settleEnt_none {pl : Nat} (h : c.ent? pl = none) : c.settleEnt pl = c := by
  unfold Chip.settleEnt
  rw [h]

/-- No holder of the entry is lost. -/
theorem settleEnt_live {pl : Nat} (h : ∀ e, c.ent? pl = some e → ∀ j ∈ slotsOf e.sharers, c.slotLost j = false) :
    c.settleEnt pl = c := by
  cases found : c.ent? pl with
  | none => exact settleEnt_none found
  | some e =>
    have none : (slotsOf e.sharers).filter (fun i => c.slotLost i) = [] :=
      List.filter_eq_nil_iff.mpr fun j hj => by simp [h e found j hj]
    unfold Chip.settleEnt
    rw [found]
    exact if_pos none

/-- `d` is `c` but for the directory's entries. -/
def Listed (c d : Chip) : Prop := d = { c with coh := { c.coh with ents := d.coh.ents } }

theorem Listed.rfl' (c : Chip) : Listed c c := rfl

theorem listed_setEnt (c : Chip) (pl : Nat) (e : LineEnt) : Listed c (c.setEnt pl e) := rfl

theorem listed_delEnt (c : Chip) (pl : Nat) : Listed c (c.delEnt pl) := rfl

theorem Listed.quiet (h : Listed c d) : Quiet c d := by
  rw [show _ = _ from h]
  exact quiet_coh _ _

theorem Listed.homeWaits (h : Listed c d) : d.homeWaits = c.homeWaits := by
  rw [show _ = _ from h]
  rfl

theorem listed_ite {e : Chip} {p : Prop} [Decidable p] (h : Listed c d) (g : Listed c e) : Listed c (if p then d else e) := by
  split <;> assumption

theorem listed_dirAfter (c : Chip) (pl opc : Nat) (dev : Bool) (s : Option Nat) (kept : Bool) : Listed c (c.dirAfter pl opc dev s kept) := by
  unfold Chip.dirAfter
  dsimp only
  split
  · exact .rfl' c
  split
  · exact .rfl' c
  split
  · exact listed_ite (listed_ite (listed_setEnt ..) (listed_delEnt ..)) (.rfl' c)
  · exact listed_ite (listed_setEnt ..) (listed_setEnt ..)
  · exact listed_setEnt ..
  · exact listed_delEnt ..

/-- A line whose snoops are answered takes its request's effect, and nothing more is left over or waits. -/
theorem doLine_keeps (c : Chip) (x : Pend) (pl ol : Nat) (kept : Bool) :
    Quiet c (c.doLine x pl ol kept).1 ∧ (c.doLine x pl ol kept).1.homeWaits = c.homeWaits ∧ (c.doLine x pl ol kept).2.origin = x.origin := by
  have effect {d : Chip} (h : Listed c d) :
      Quiet c (d.lineEffect x ol).1 ∧ (d.lineEffect x ol).1.homeWaits = c.homeWaits ∧ (d.lineEffect x ol).2.origin = x.origin :=
    ⟨h.quiet.trans (quiet_lineEffect ..), (homeWaits_lineEffect ..).trans h.homeWaits, lineEffect_origin ..⟩
  unfold Chip.doLine
  dsimp only
  split
  · exact ⟨.rfl' c, rfl, rfl⟩
  split
  · split
    · exact ⟨.rfl' c, rfl, rfl⟩
    split
    · exact effect (listed_delEnt ..)
    · exact ⟨.rfl' c, rfl, rfl⟩
  · exact effect (listed_dirAfter ..)

theorem complete_lines (c : Chip) (x : Pend) (l : List (Nat × Nat)) (ho : ∃ p k, x.origin = .port p k) :
    c.complete { x with lines := l } = c.complete x := by
  obtain ⟨p, k, ho⟩ := ho
  unfold Chip.complete Chip.reply
  dsimp only
  rw [ho]
  rfl

/-- After its last line a request is complete, whether or not it could read. -/
theorem afterLine_last (c : Chip) (x : Pend) (ho : ∃ p k, x.origin = .port p k) : c.afterLine x [] = c.complete { x with lines := [] } := by
  unfold Chip.afterLine
  split
  · exact (complete_lines c x [] ho).symm
  · rfl

/-- A request has the line's effect, its transaction ends, and it is answered: its only line. -/
def Chip.lineDone (c : Chip) (x : Pend) (pl ol : Nat) (kept : Bool) : Chip :=
  ((c.doLine x pl ol kept).1.endTxn pl).complete { (c.doLine x pl ol kept).2 with lines := [] }

theorem lineDone_keeps (c : Chip) (x : Pend) (pl ol : Nat) (kept : Bool) (ho : ∃ p k, x.origin = .port p k) :
    Quiet c (c.lineDone x pl ol kept) ∧ (c.lineDone x pl ol kept).homeWaits = c.homeWaits := by
  obtain ⟨quiet, waits, origin⟩ := doLine_keeps c x pl ol kept
  have ho' : ∃ p k, ({ (c.doLine x pl ol kept).2 with lines := [] } : Pend).origin = .port p k := by
    dsimp only
    rwa [origin]
  exact ⟨(quiet.trans (quiet_endTxn ..)).trans (quiet_complete _ _ ho'),
    (homeWaits_complete _ _ ho').trans ((homeWaits_endTxn ..).trans waits)⟩

/-! ### Snoop responses (R403, R405) -/

section
variable {n : Snoop} {r : SnpRsp} {kept : Bool} {t : LineTxn}

/-- The response's data is written to memory, where the snoop keeps it. -/
def Chip.snoopData (c : Chip) (n : Snoop) (r : SnpRsp) : Chip :=
  if r.data && n.keepData then match c.lineOwner n.line with
    | some o => c.writeObj o.1 o.2 r.line
    | none => c
  else c

theorem stored_snoopData (c : Chip) (n : Snoop) (r : SnpRsp) : Stored c (c.snoopData n r) := by
  unfold Chip.snoopData
  split
  · split
    · exact stored_writeObj ..
    · exact .rfl' c
  · exact .rfl' c

theorem snpRsp_found (found : (c.coh.snoops.find? fun x => x.tag == r.tag && x.node == r.src) = some n) :
    c.snpRsp r = (c.snoopData n r).endSnoop n r.kept := by
  unfold Chip.snpRsp Chip.snoopData
  rw [found]
  dsimp only
  cases c.lineOwner n.line <;> rfl

/-- The home as the response at port `p` meets it: it has crossed to the slice that sent the snoop, its data is written. -/
def Chip.snoopMet (c : Chip) (p : Nat) (n : Snoop) (r : SnpRsp) : Chip :=
  (c.cross (portDie p) (r.tag / 8192) (pathHash 0 r.tag r.dst r.src)).snoopData n r

theorem snoopAnswer_arrives {p : Nat} (ex : c.portExists p = true) (usable : c.usable p = true) (new : (c.port p).findSnp r = none)
    (moves : c.moves p = true) (found : (c.coh.snoops.find? fun x => x.tag == r.tag && x.node == r.src) = some n) :
    c.snoopAnswer p r = (c.snoopMet p n r).endSnoop n r.kept := by
  have taken : c.snoopAnswer p r = c.takeSnp p r := by
    unfold Chip.snoopAnswer
    rw [new]
    dsimp only
    rw [ex, usable, moves]
    rfl
  have crossed : (c.cross (portDie p) (r.tag / 8192) (pathHash 0 r.tag r.dst r.src)).coh = c.coh := by
    rw [show _ = _ from switched_cross c ..]
  exact taken.trans (snpRsp_found (crossed ▸ found))

theorem snoopMet_keeps (c : Chip) (p : Nat) (n : Snoop) (r : SnpRsp) :
    Quiet c (c.snoopMet p n r) ∧ (c.snoopMet p n r).coh = c.coh ∧ (c.snoopMet p n r).gtx = c.gtx ∧
      (c.snoopMet p n r).mem.objs = c.mem.objs := by
  have crossed := switched_cross c (portDie p) (r.tag / 8192) (pathHash 0 r.tag r.dst r.src)
  have stored : Stored _ (c.snoopMet p n r) := stored_snoopData ..
  refine ⟨crossed.quiet.trans stored.quiet, stored.coh.trans ?_, stored.gtx.trans crossed.gtx, stored.objs.trans ?_⟩ <;>
    rw [show _ = _ from crossed]

/-- The home without a settled snoop, which no partition's sweep awaits any more. -/
def Coh.lessSnoop (h : Coh) (n : Snoop) : Coh :=
  { h with
    snoops := delFirst (fun x => x.tag == n.tag) h.snoops
    partSweeps := h.partSweeps.map fun e => (e.1, e.2.erase n.tag) }

/-- A settled snoop is taken off, and off the transaction `t` of its line. -/
def Chip.snoopTaken (c : Chip) (n : Snoop) (t : LineTxn) (kept : Bool) : Chip :=
  ({ c with coh := c.coh.lessSnoop n } : Chip).setLineQ n.line
    { c.lineQ n.line with txn := some { t with snoops := t.snoops.erase n.tag, kept := t.kept || (kept && !n.inv) } }

theorem lineQ_of_coh (h : d.coh = c.coh) (pl : Nat) : d.lineQ pl = c.lineQ pl := by
  unfold Chip.lineQ
  rw [h]

theorem snoopTaken_of_coh (h : d.coh = c.coh) (n : Snoop) (t : LineTxn) (kept : Bool) :
    d.snoopTaken n t kept = ({ d with coh := c.coh.lessSnoop n } : Chip).setLineQ n.line
      { c.lineQ n.line with txn := some { t with snoops := t.snoops.erase n.tag, kept := t.kept || (kept && !n.inv) } } := by
  unfold Chip.snoopTaken
  rw [h, lineQ_of_coh h]

theorem quiet_snoopTaken (c : Chip) (n : Snoop) (t : LineTxn) (kept : Bool) : Quiet c (c.snoopTaken n t kept) :=
  (quiet_coh ..).trans (quiet_setLineQ ..)

theorem sendLate_none (h : c.coh.late = []) (die : Nat) : c.sendLate die = c := by
  unfold Chip.sendLate
  rw [h]
  rfl

theorem endSnoop_eq (h : c.snoopDone n kept = d) (late : d.coh.late = []) : c.endSnoop n kept = d :=
  (congrArg (Chip.sendLate · _) h).trans (sendLate_none late _)

theorem snoopDone_idle (h : (c.lineQ n.line).txn = none) : c.snoopDone n kept = { c with coh := c.coh.lessSnoop n } := by
  have txn : (({ c with coh := c.coh.lessSnoop n } : Chip).lineQ n.line).txn = none := h
  unfold Chip.snoopDone
  dsimp only
  split
  · rfl
  · next e => exact nomatch e.symm.trans txn

/-- The line's transaction moves on once no snoop of it is left. -/
theorem snoopDone_txn (h : (c.lineQ n.line).txn = some t) (mine : t.snoops.contains n.tag = true) :
    c.snoopDone n kept =
      if t.snoops.erase n.tag = [] then
        (if t.pend = 0 then (c.snoopTaken n t kept).sweptReady n.line t.forLine else (c.snoopTaken n t kept).lineReady n.line)
      else c.snoopTaken n t kept := by
  have txn : (({ c with coh := c.coh.lessSnoop n } : Chip).lineQ n.line).txn = some t := h
  unfold Chip.snoopDone
  dsimp only
  split
  · next e => exact nomatch e.symm.trans txn
  · next u e =>
    obtain rfl : u = t := Option.some.inj (e.symm.trans txn)
    exact if_pos mine

theorem sweptReady_free {pl : Nat} {e : LineEnt} {l : Option Nat} (alone : l = none) (h : c.ent? pl = some e) (st : e.st ≠ 3) :
    c.sweptReady pl l = (c.delEnt pl).endTxn pl := by
  subst alone
  unfold Chip.sweptReady
  rw [h]
  dsimp only
  rw [if_neg st]

theorem lineReady_done {pl ol : Nat} {x : Pend} (txn : (c.lineQ pl).txn = some t) (pend : c.pend? t.pend = some x)
    (one : x.lines = [(pl, ol)]) (ho : ∃ p k, x.origin = .port p k) (here : (c.obj x.obj).st ≠ 5) (free : c.tierStall x ol = none)
    (ent : (c.ent? pl).isSome = true) : c.lineReady pl = c.lineDone x pl ol t.kept := by
  obtain ⟨-, -, origin⟩ := doLine_keeps c x pl ol t.kept
  have some : (c.ent? pl).isNone = false := by rw [← Option.not_isSome, ent]; rfl
  unfold Chip.lineReady
  rw [txn]
  dsimp only
  rw [pend]
  dsimp only
  rw [one]
  dsimp only
  rw [if_neg here, free]
  dsimp only
  rw [some, Bool.false_and, if_neg Bool.false_ne_true]
  exact afterLine_last _ _ (by rwa [origin])

/-- The row of a snoop response, by what settling its snoop does to the home that it meets. -/
theorem snpRsp_becomes {s : State} {p : Nat} (hs : s.chip.Still) (meaning : s.chip.snoopAnswer p r = c.endSnoop n r.kept)
    (quiet : Quiet s.chip c) (done : c.snoopDone n r.kept = d) (rest : Quiet c d) (late : d.coh.late = []) : Becomes s (.snpRsp p r) d :=
  becomes s _ _ _ rfl (meaning.trans (endSnoop_eq done late)) (quiet.trans rest) hs

end

/-! ### A line's next waiter (R407, R408) -/

section
variable {pl : Nat} {t : List Waiter}

theorem wakeCursor_none (h : c.mem.cursorWait = []) : c.wakeCursor = c := by
  unfold Chip.wakeCursor
  rw [h]
  show ({ c with mem := { c.mem with cursorWait := [] } } : Chip) = c
  rw [← h]

theorem lineEnd_next (busy : (c.lineQ pl).busy = false) (open_ : (c.lineQ pl).reservedAt = none) {w : Waiter}
    (next : (c.lineQ pl).waiters = w :: t) : c.lineEnd pl = (c.nextWaiter pl).wakeCursor := by
  unfold Chip.lineEnd
  dsimp only
  rw [busy, open_, next]
  rfl

theorem nextWaiter_none (h : (c.lineQ pl).waiters = []) :
    c.nextWaiter pl = c.setLineQ pl {} := by
  unfold Chip.nextWaiter
  dsimp only
  rw [h]

theorem nextWaiter_rsv {src tok : Nat} (h : (c.lineQ pl).waiters = .rsv src tok :: t) :
    c.nextWaiter pl = c.setLineQ pl { c.lineQ pl with txn := none, reservedAt := some c.tick } := by
  unfold Chip.nextWaiter
  dsimp only
  rw [h]

theorem nextWaiter_pend {id : Nat} {x : Pend} (h : (c.lineQ pl).waiters = .pend id :: t) (pend : c.pend? id = some x) :
    c.nextWaiter pl =
      (c.setLineQ pl { c.lineQ pl with txn := none, reservedAt := none, waiters := t }).runLines x true x.lines := by
  have same : (c.setLineQ pl { c.lineQ pl with txn := none, reservedAt := none, waiters := t }).pend? id = some x := pend
  unfold Chip.nextWaiter
  dsimp only
  rw [h]
  dsimp only
  rw [same]

/-- The directory asks for nothing on a line without an entry, unless the request needs one. -/
theorem dirAct_absent {opc : Nat} (h2 : opc ≠ 2) (h3 : opc ≠ 3) (dev : Bool) (s : Option Nat) : dirAct opc dev s none = .go := by
  unfold dirAct
  dsimp only
  refine if_neg ?_
  split <;> omega

theorem doLine_absent {x : Pend} (here : (c.obj x.obj).st ≠ 5) (absent : c.ent? pl = none) (ol : Nat) (kept : Bool) :
    c.doLine x pl ol kept = c.lineEffect x ol := by
  have after (opc : Nat) (dev : Bool) (s : Option Nat) : c.dirAfter pl opc dev s kept = c := by
    unfold Chip.dirAfter
    dsimp only
    rw [absent]
  unfold Chip.doLine
  dsimp only
  rw [if_neg here, absent]
  exact congrArg (Chip.lineEffect · x ol) (after ..)

/-- A request takes a line that no sharer has. -/
theorem useLine_absent {x : Pend} {l : Nat × Nat} (h2 : x.req.opc ≠ 2) (h3 : x.req.opc ≠ 3) (on : c.enabled 7 12 = true)
    (here : (c.obj x.obj).st ≠ 5) (free : c.tierStall x l.2 = none) (absent : c.ent? l.1 = none) :
    c.useLine x l.1 l.2 = .done (c.lineEffect x l.2).1 (c.lineEffect x l.2).2 := by
  unfold Chip.useLine
  dsimp only
  rw [settleEnt_none absent, if_neg here, on, if_neg (by decide), free, absent, dirAct_absent h2 h3]
  dsimp only
  rw [doLine_absent here absent]

/-- The waiter whose turn has come takes such a line. -/
theorem tryLine_head {x : Pend} {l : Nat × Nat} (h2 : x.req.opc ≠ 2) (h3 : x.req.opc ≠ 3) (all : x.awaits l.2 = false)
    (on : c.enabled 7 12 = true) (here : (c.obj x.obj).st ≠ 5) (homes : c.homes x l.1 = true) (free : c.tierStall x l.2 = none)
    (absent : c.ent? l.1 = none) : c.tryLine x l.1 l.2 true = .done (c.onLine x l).1 (c.onLine x l).2 := by
  unfold Chip.tryLine Chip.takeLine Chip.onLine
  dsimp only
  rw [all, if_neg Bool.false_ne_true, if_neg here, if_pos rfl, if_pos homes]
  exact useLine_absent (c := c.bump .cohLookups (c.lineDie l.1)) h2 h3 on here free absent

theorem onLine_origin (c : Chip) (x : Pend) (l : Nat × Nat) : (c.onLine x l).2.origin = x.origin := lineEffect_origin ..

/-- The waiter whose turn has come, on its only line. -/
theorem runLines_head {x : Pend} {l : Nat × Nat} (one : x.lines = [l]) (ho : ∃ p k, x.origin = .port p k)
    (done : c.tryLine x l.1 l.2 true = .done (c.onLine x l).1 (c.onLine x l).2) :
    c.runLines x true x.lines = (c.onLine x l).1.complete { (c.onLine x l).2 with lines := [] } := by
  have same : ({ x with lines := [l] } : Pend) = x := by rw [← one]
  rw [one]
  unfold Chip.runLines
  rw [same, done]
  exact afterLine_last _ _ (by rwa [onLine_origin])

theorem onLine_complete_keeps (c : Chip) (x : Pend) (l : Nat × Nat) (ho : ∃ p k, x.origin = .port p k) :
    Quiet c ((c.onLine x l).1.complete { (c.onLine x l).2 with lines := [] }) ∧
      ((c.onLine x l).1.complete { (c.onLine x l).2 with lines := [] }).homeWaits = c.homeWaits := by
  have ho' : ∃ p k, ({ (c.onLine x l).2 with lines := [] } : Pend).origin = .port p k := by
    dsimp only
    rwa [onLine_origin]
  exact ⟨(quiet_onLine ..).trans (quiet_complete _ _ ho'), (homeWaits_complete _ _ ho').trans (homeWaits_onLine ..)⟩

/-! ### Reservations (R407) -/

/-- The head reservation of a line is given up, and counted. -/
def Chip.rsvDropped (c : Chip) (pl src tok : Nat) (t : List Waiter) : Chip :=
  ((c.dropRsv pl src tok).setLineQ pl { c.lineQ pl with reservedAt := none, waiters := t }).bump .cohRsvExpired (c.lineDie pl)

theorem lineQ_rsvDropped (c : Chip) (pl src tok : Nat) (t : List Waiter) :
    (c.rsvDropped pl src tok t).lineQ pl = { c.lineQ pl with reservedAt := none, waiters := t } :=
  lineQ_setLineQ (c.dropRsv pl src tok) pl _

theorem quiet_rsvDropped (c : Chip) (pl src tok : Nat) (t : List Waiter) : Quiet c (c.rsvDropped pl src tok t) :=
  ((quiet_coh _ _).trans (quiet_setLineQ ..)).trans (quiet_bump ..)

theorem rsvExpiry_due {t0 src tok : Nat} (since : (c.lineQ pl).reservedAt = some t0) (next : (c.lineQ pl).waiters = .rsv src tok :: t)
    (due : c.due t0 (max 1 (c.fld .cohGlb2 12 [] 31 16)) = true) :
    c.rsvExpiry pl = ((c.rsvDropped pl src tok t).nextWaiter pl).wakeCursor := by
  unfold Chip.rsvExpiry
  dsimp only
  rw [since, next]
  dsimp only
  rw [if_pos due]
  rfl

end

/-! ### Overdue snoops (R410) -/

section
variable {tag : Nat} {n : Snoop}

/-- The snoop goes out again over port `o`. -/
def Snoop.again (n : Snoop) (now o : Nat) : Snoop := { n with last := now, port := o }

/-- The snoop is resent over port `o`, and counted. -/
def Chip.snoopResent (c : Chip) (tag o : Nat) (n : Snoop) : Chip :=
  (({ c with coh := { c.coh with snoops := modFirst (fun x => x.tag == tag) (fun _ => n) c.coh.snoops } } : Chip).bump .cohSnpResend
    (tag / 8192)).putSnoop (some o) n

theorem quiet_snoopResent (c : Chip) (tag o : Nat) (n : Snoop) : Quiet c (c.snoopResent tag o n) :=
  ((quiet_coh _ _).trans (quiet_bump ..)).trans (quiet_enqueue ..)

theorem snoopResend_other {a b : Nat} (found : (c.coh.snoops.find? fun x => x.tag == tag) = some n)
    (lost : c.coh.lostNodes.contains n.node = false) (due : c.due n.last (max 1 (c.fld .cohGlb 12 [] 15 0)) = true)
    (at_ : c.node n.node = .ports a b) (usable : c.usable (if n.port = a then b else a) = true) :
    c.snoopResend tag = c.snoopResent tag (if n.port = a then b else a) (n.again c.tick (if n.port = a then b else a)) := by
  unfold Chip.snoopResend
  rw [found]
  dsimp only
  rw [due, lost, at_]
  dsimp only
  rw [usable, if_pos rfl]
  exact if_pos rfl

/-! ### Lost nodes and their sweeps (R411) -/

theorem sharer_lt {node i : Nat} (h : c.sharer? node = some i) : i < 64 := by
  have listed : i ∈ c.idxs .cohSharer 12 fun w => bit w 31 && bits w 11 0 == node := List.mem_of_head? h
  unfold Chip.idxs at listed
  obtain ⟨e, -, he⟩ := List.mem_filterMap.mp listed
  dsimp only at he
  split at he
  · next bound =>
    obtain ⟨-, -, below, -⟩ := bound
    exact Option.some.inj he ▸ below
  · cases he

/-- The sharer's node is lost. -/
def Chip.sharerLost (c : Chip) (i : Nat) : Chip := c.setFld .cohSharer 12 [i] 30 30 1

theorem noRings_sharerLost {i : Nat} (hi : i < 64) (h : c.NoRings) : (c.sharerLost i).NoRings := by
  refine noRings_setReg c _ _ _ _ h ?_
  have at_ : (Reg.cohSharer).addr 12 [i] = ctlAddr 12 6 (0x10000 + (4 * i + 0)) := rfl
  rw [at_]
  unfold ctlAddr
  omega

theorem sharerLost_coh (c : Chip) (i : Nat) : (c.sharerLost i).coh = c.coh := Chip.setReg_coh ..

theorem quiet_sharerLost (c : Chip) (i : Nat) : Quiet c (c.sharerLost i) := quiet_setReg ..

theorem Noted.regs (h : Noted c d) : d.ctl.regs = c.ctl.regs := by
  rw [h.eq]
  rfl

theorem noRings_of_regs (h : d.ctl.regs = c.ctl.regs) (g : c.NoRings) : d.NoRings := by
  unfold Chip.NoRings Chip.reg
  rw [h]
  exact g

theorem Noted.setReg (h : Noted c d) (r : Reg) (die : Nat) (i : List Nat) (v : Nat) : Noted (c.setReg r die i v) (d.setReg r die i v) := by
  refine ⟨?_, h.more, h.sess, h.queue⟩
  unfold Chip.setReg
  rw [h.eq]
  rfl

theorem Noted.sharerLost (h : Noted c d) (i : Nat) : Noted (c.sharerLost i) (d.sharerLost i) := by
  unfold Chip.sharerLost Chip.setFld
  rw [h.reg]
  exact h.setReg ..

theorem Noted.setCoh (h : Noted c d) (k : Coh) : Noted { c with coh := k } { d with coh := k } := by
  refine ⟨?_, h.more, h.sess, h.queue⟩
  rw [h.eq]
  rfl

/-- What stands in for the home does not matter to an event. -/
theorem Noted.overCoh {j : Coh} (h : Noted { c with coh := j } d) (k : Coh) : Noted { c with coh := k } { d with coh := k } := by
  refine ⟨?_, h.more, h.sess, h.queue⟩
  rw [h.eq]
  rfl

theorem streamParts_of_regs (h : d.ctl.regs = c.ctl.regs) (node : Nat) : d.streamParts node = c.streamParts node := by
  unfold Chip.streamParts Chip.idxs Chip.fld Chip.reg
  rw [h]

/-- The home has lost a node and sweeps its entries. -/
def Coh.lost (h : Coh) (node : Nat) : Coh := { h with lostNodes := h.lostNodes ++ [node], sweeps := h.sweeps ++ [node] }

/-- The node of sharer `i` is lost at every slice, and its sweep begins. -/
def Chip.nodeLost (c : Chip) (i node : Nat) : Chip := { c.sharerLost i with coh := c.coh.lost node }

theorem nodeLost_regs (c : Chip) (i node : Nat) : (c.nodeLost i node).ctl.regs = (c.sharerLost i).ctl.regs := rfl

theorem Noted.nodeLost (h : Noted c d) (i node : Nat) : Noted (c.nodeLost i node) (d.nodeLost i node) := by
  have lost := (h.sharerLost i).setCoh (c.coh.lost node)
  unfold Chip.nodeLost
  rw [h.coh]
  exact lost

/-- An overdue snoop is counted and raised. -/
def Chip.snoopOverdue (c : Chip) (tag : Nat) : Chip := (c.bump .cohSnpTmo (tag / 8192)).raise Ev.snoopTimeout []

theorem noted_snoopOverdue (c : Chip) (tag : Nat) : Noted c (c.snoopOverdue tag) := ((raised_bump ..).trans (raised_raise ..)).noted

/-- The loss of a node is raised to the partitions that have a stream from it. -/
def Chip.lossRaised (c : Chip) (node : Nat) : Chip := c.raise Ev.nodeLost (c.streamParts node) node 0

theorem nodeLost_eq (c : Chip) (i node : Nat) : c.nodeLost i node = { c.sharerLost i with coh := (c.sharerLost i).coh.lost node } := by
  rw [sharerLost_coh]
  rfl

/-- The overdue snoop of a node that is not lost yet. -/
theorem snoopTimeout_due {i : Nat} (found : (c.coh.snoops.find? fun x => x.tag == tag) = some n)
    (due : c.due n.first (max 1 (c.fld .cohGlb 12 [] 31 16)) = true) (new : c.coh.lostNodes.contains n.node = false)
    (slot : c.sharer? n.node = some i) :
    c.snoopTimeout tag = ((((c.snoopOverdue tag).nodeLost i n.node).lossRaised n.node).settleEnt n.line).endSnoop n false := by
  have noted := noted_snoopOverdue c tag
  have new' : (c.snoopOverdue tag).coh.lostNodes.contains n.node = false := noted.coh.symm ▸ new
  have slot' : (c.snoopOverdue tag).sharer? n.node = some i := (kept_sharer noted.regs _).trans slot
  rw [nodeLost_eq]
  unfold Chip.snoopTimeout
  rw [found]
  refine (if_pos due).trans (congrArg (fun d : Chip => (d.settleEnt n.line).endSnoop n false)
    ((if_neg (ne_true_of_eq_false new')).trans ?_))
  unfold Chip.snoopOverdue at slot'
  rw [slot']
  rfl

theorem noted_lossRaised {node i : Nat} (h : Noted (c.nodeLost i node) d) (rings : (c.sharerLost i).NoRings)
    (parts : ∀ q ∈ (c.sharerLost i).streamParts node, q < 64) : Noted d (d.lossRaised node) := by
  have regs : d.ctl.regs = (c.sharerLost i).ctl.regs := h.regs.trans (nodeLost_regs ..)
  have same : d.streamParts node = (c.sharerLost i).streamParts node := streamParts_of_regs regs node
  unfold Chip.lossRaised
  rw [same]
  exact noted_raise _ _ _ _ _ _ parts (noRings_of_regs regs rings)

/-- The lost node's snoop is settled on a line that is in no transaction and has no entry. -/
theorem endSnoop_lost {h : Coh} (coh : c.coh = h) (late : h.late = []) (absent : kfind? h.ents n.line = none)
    (idle : (kgetD h.queues n.line {}).txn = none) : (c.settleEnt n.line).endSnoop n false = { c with coh := h.lessSnoop n } := by
  subst coh
  rw [settleEnt_none absent]
  exact endSnoop_eq (snoopDone_idle idle) late

theorem noted_snoopTimeout {i : Nat} (rings : c.NoRings) (parts : ∀ q ∈ (c.sharerLost i).streamParts n.node, q < 64)
    (late : c.coh.late = []) (found : (c.coh.snoops.find? fun x => x.tag == tag) = some n)
    (due : c.due n.first (max 1 (c.fld .cohGlb 12 [] 31 16)) = true) (new : c.coh.lostNodes.contains n.node = false)
    (slot : c.sharer? n.node = some i) (absent : c.ent? n.line = none) (idle : (c.lineQ n.line).txn = none) :
    Noted { c.sharerLost i with coh := (c.coh.lost n.node).lessSnoop n } (c.snoopTimeout tag) := by
  have lost : Noted (c.nodeLost i n.node) ((c.snoopOverdue tag).nodeLost i n.node) := (noted_snoopOverdue c tag).nodeLost i n.node
  have noted := lost.trans (noted_lossRaised lost (noRings_sharerLost (sharer_lt slot) rings) parts)
  rw [snoopTimeout_due found due new slot, endSnoop_lost (h := c.coh.lost n.node) noted.coh late absent idle]
  exact noted.overCoh _

/-- A sweep ends that meets no entry of a lost holder and lets no held write go on. -/
theorem sweepDone_live {node : Nat} (runs : c.coh.sweeps.contains node = true)
    (live : ∀ pl ∈ kkeys c.coh.ents, ∀ e, c.ent? pl = some e → ∀ j ∈ slotsOf e.sharers, c.slotLost j = false)
    (others : ∀ h ∈ c.coh.heldWr, c.slotNode h.1 ≠ node ∧ h.2.toNat % 4096 ≠ node) :
    c.sweepDone node = { c with coh := { c.coh with sweeps := c.coh.sweeps.erase node } } := by
  have settled : (kkeys c.coh.ents).foldl (fun c pl => c.settleEnt pl) c = c := foldl_stays fun pl hpl => settleEnt_live (live pl hpl)
  have none : (c.coh.heldWr.filter fun h => c.slotNode h.1 == node || h.2.toNat % 4096 == node) = [] :=
    List.filter_eq_nil_iff.mpr fun h hh => by simpa using others h hh
  have all : (c.coh.heldWr.filter fun h => !([] : List (Nat × Word)).contains h) = c.coh.heldWr := List.filter_eq_self.mpr fun _ _ => rfl
  unfold Chip.sweepDone
  rw [if_pos runs, settled]
  dsimp only
  rw [none, all]
  rfl

end

end

/-- Settles O55: each row by what it does in the clause's case (`snoopDone_txn`, `lineReady_done`, `nextWaiter_rsv`, `nextWaiter_pend`,
`rsvExpiry_due`, `snoopResend_other`, `noted_snoopTimeout`, `sweepDone_live`), after which no snoop and no request waits to go on. -/
theorem snoopsAct : Obligations.SnoopsAct := by
  unfold Obligations.SnoopsAct
  intro s hs c late waits
  refine ⟨fun p r n ex usable new moves found => ?answers, fun line => ⟨fun src tok t busy open_ next => ?reserves,
    fun id t x l busy open_ next pend one ho h2 h3 all on here homes free absent => ?serves,
    fun t0 src tok t since next due => ⟨?expires, ?reservesNext⟩⟩,
    fun tag n found => ⟨fun a b runs lost due at_ usable => ?resends, fun i rings parts due new slot absent idle => ?loses⟩,
    fun node runs live others => ?sweeps⟩
  case answers =>
    have meaning := snoopAnswer_arrives ex usable new moves found
    obtain ⟨quiet, coh, gtx, objs⟩ := snoopMet_keeps c p n r
    have queue : (c.snoopMet p n r).lineQ n.line = c.lineQ n.line := lineQ_of_coh coh n.line
    refine ⟨fun idle => ?alone, fun t txn mine => ?waited⟩
    case alone =>
      have done := snoopDone_idle (kept := r.kept) ((congrArg LineQ.txn queue).trans idle)
      rw [coh] at done
      exact snpRsp_becomes hs meaning quiet done (quiet_coh ..) late
    case waited =>
      have done := snoopDone_txn (kept := r.kept) ((congrArg LineQ.txn queue).trans txn) mine
      have rest := quiet_snoopTaken (c.snoopMet p n r) n t r.kept
      rw [snoopTaken_of_coh coh] at done rest
      refine ⟨fun more => ?more, fun last sweep alone ⟨e, ent, st⟩ => ?swept, fun last serves ent x o pend one ho here free => ?served⟩
      case more => exact snpRsp_becomes hs meaning quiet (done.trans (if_neg more)) rest late
      case swept =>
        rw [if_pos last, if_pos sweep] at done
        exact snpRsp_becomes hs meaning quiet (done.trans (sweptReady_free alone ent st))
          (rest.trans ((listed_delEnt ..).quiet.trans (quiet_endTxn ..))) late
      case served =>
        rw [if_pos last, if_neg serves] at done
        have pend' : (c.snoopMet p n r).pend? t.pend = some x := by
          unfold Chip.pend?
          rw [gtx]
          exact pend
        have here' : ((c.snoopMet p n r).obj x.obj).st ≠ 5 := by
          unfold Chip.obj
          rw [objs]
          exact here
        have ready := done.trans (lineReady_done (congrArg LineQ.txn (lineQ_setLineQ ..)) pend' one ho here' free ent)
        obtain ⟨quiet', waits'⟩ := lineDone_keeps _ x n.line o (t.kept || (r.kept && !n.inv)) ho
        exact snpRsp_becomes hs meaning quiet ready (rest.trans quiet') ((late_of_homeWaits waits').trans late)
  case reserves =>
    have step : c.lineEnd line = c.setLineQ line { c.lineQ line with txn := none, reservedAt := some c.tick } :=
      (lineEnd_next busy open_ next).trans ((congrArg Chip.wakeCursor (nextWaiter_rsv next)).trans (wakeCursor_none waits))
    exact becomes s (.lineTransactionEnd line) _ _ rfl step (quiet_setLineQ ..) hs
  case serves =>
    have served := (nextWaiter_pend next pend).trans (runLines_head one ho (tryLine_head h2 h3 all on here homes free absent))
    obtain ⟨quiet, waits'⟩ := onLine_complete_keeps (c.setLineQ line { c.lineQ line with txn := none, reservedAt := none, waiters := t }) x l ho
    have step := (lineEnd_next busy open_ next).trans
      ((congrArg Chip.wakeCursor served).trans (wakeCursor_none ((cursorWait_of_homeWaits waits').trans waits)))
    exact becomes s (.lineTransactionEnd line) _ _ rfl step ((quiet_setLineQ ..).trans quiet) hs
  case expires =>
    intro last
    have next' : ((c.rsvDropped line src tok t).lineQ line).waiters = [] := (congrArg LineQ.waiters (lineQ_rsvDropped ..)).trans last
    have step := (rsvExpiry_due since next due).trans ((congrArg Chip.wakeCursor (nextWaiter_none next')).trans (wakeCursor_none waits))
    exact becomes s (.reservationExpiry line) _ _ rfl step ((quiet_rsvDropped ..).trans (quiet_setLineQ ..)) hs
  case reservesNext =>
    intro src' tok' t' more
    have next' : ((c.rsvDropped line src tok t).lineQ line).waiters = .rsv src' tok' :: t' :=
      (congrArg LineQ.waiters (lineQ_rsvDropped ..)).trans more
    have reserved := nextWaiter_rsv next'
    rw [lineQ_rsvDropped] at reserved
    have step := (rsvExpiry_due since next due).trans ((congrArg Chip.wakeCursor reserved).trans (wakeCursor_none waits))
    exact becomes s (.reservationExpiry line) _ _ rfl step ((quiet_rsvDropped ..).trans (quiet_setLineQ ..)) hs
  case resends =>
    have resent : (if c.homesQuiet then c else c.snoopResend tag) = _ :=
      (if_neg (ne_true_of_eq_false runs)).trans (snoopResend_other found lost due at_ usable)
    exact becomes s (.snoopResend tag) _ _ rfl resent (quiet_snoopResent ..) hs
  case loses =>
    have noted := noted_snoopTimeout rings parts late found due new slot absent idle
    exact notesTo s (.snoopTimeout tag) _ _ rfl noted (((quiet_sharerLost c i).trans (quiet_coh ..)).still hs)
  case sweeps => exact becomes s (.snoopFilterSweepDone node) _ _ rfl (sweepDone_live runs live others) (quiet_coh ..) hs

end Sys2Proof.Machine
end

section
/-! SUPPORT. What the commands on regions, grants and revocations mean: one lemma for each branch (R432, R433, R434, R436,
R610). -/

namespace Sys2Proof.Machine

/-! ### Commands that raise an event or go on running -/

/-- An answer after an event to firmware changes no more of the module than the event and the answer do. -/
theorem Raised.answering {c d e : Chip} (h : Raised c d) (irq : e.irq = d.irq) : (c.raising e).answering e = d.answering e := by
  rw [show d = _ from h]
  unfold Chip.answering Chip.raising
  rw [irq]

section
variable {s : State} {i : Instr} {sess reqId opc : Nat} {want : Bytes} {f : Chip → Session → CmdRes} {x : Session} {c : Chip}
  (asks : s.chip.Asks sess reqId opc x) (hi : exec i s = act s (s.chip.command sess reqId opc want f)) (still : s.chip.Still)
include asks hi still

/-- A command that only raises an event to firmware besides its answer. -/
theorem command_raises {st : Nat} {b : Bytes} (hf : f s.chip x = .done c st 0 b) (hst : st ≠ 1) (raised : Raised s.chip c) :
    CompletesWith s i sess reqId opc st b fun t => s.chip.raising t := by
  have session : c.session? sess = some x := by
    rw [show c = _ from raised]
    exact asks.1
  have irq : (c.finishCmd sess reqId opc st 0 b).irq = c.irq := by
    rw [show _ = _ from answered_finishCmd c sess reqId opc st 0 b]
    rfl
  exact command_completes s i sess reqId opc want f x asks hi c st b hf (raised.still still) x session hst _ (raised.answering irq)

/-- A command whose effect is on the security block and draws. -/
theorem command_secures {v : Sec} {n st : Nat} {b : Bytes} (hf : f s.chip x = .done { s.chip with sec := v, draws := n } st 0 b)
    (hst : st ≠ 1) : CompletesWith s i sess reqId opc st b fun _ => { s.chip with sec := v, draws := n } :=
  command_effects asks hi still hf hst (quiet_of _ _ rfl rfl rfl rfl id id) rfl fun _ => rfl

/-- A command that goes on running with the effect `c`, which leaves nothing over. -/
theorem command_goesOn {arg : Nat} (hf : f s.chip x = .run c arg) (q : Quiet s.chip c) : RunsOn s i sess reqId opc arg c :=
  command_runs s i sess reqId opc want f x asks hi c arg hf (q.still still)

end

/-- Changes of the security block and draws leave nothing over. -/
theorem quiet_sec {c d : Chip} (h : d = { c with sec := d.sec, draws := d.draws }) : Quiet c d := by
  rw [h]
  exact quiet_of _ _ rfl rfl rfl rfl id id

/-! ### Draws (R429) -/

theorem rngBytes_eq (c : Chip) (n : Nat) : c.rngBytes n = (bytesOf n (Config.trng c.draws), { c with draws := c.draws + 1 }) := rfl

theorem idSign_eq (c : Chip) (digest : Bytes) :
    c.idSign digest = (Config.ecdsaSign c.sec.idKey digest (Config.trng c.draws), { c with draws := c.draws + 1 }) := rfl

/-! ### REGION_CREATE (R432, R610) -/

theorem region_setRegion (c : Chip) (slot : Nat) (r : Region) : (c.setRegion slot r).region slot = r := kgetD_ksetD_self _ _ _ _

/-- The generation that follows in a region's slot (R432). -/
def nextGen (gen : Nat) : Nat := if gen = 15 then 1 else gen + 1

/-- The region that a creation puts in `slot`, under the key drawn for it. -/
def Chip.newRegion (c : Chip) (slot part obj base len objOff : Nat) : Region :=
  { valid := true, gen := nextGen (c.region slot).gen, part := part, obj := obj, base := base, len := len, objOff := objOff,
    key := bytesOf 32 (Config.trng c.draws) }

section
variable {c : Chip} {part obj base len objOff : Nat}

theorem regionCreate_badPart (bad : 64 ≤ part) : c.regionCreate part obj base len objOff = .done c 4 0 [] := if_pos bad

section
variable (hp : part < 64) (ok : objIdOk obj = true) (known : (c.obj obj).st ≠ 0)
include hp ok known

theorem regionCreate_otherPart (other : (c.obj obj).part ≠ part) : c.regionCreate part obj base len objOff = .done c 3 0 [] := by
  unfold Chip.regionCreate
  dsimp only
  rw [if_neg (Nat.not_le.mpr hp), if_neg (by simp [ok, known]), if_pos other]

theorem regionCreate_new {slot : Nat} (own : (c.obj obj).part = part) (base_ : base % 4096 = 0) (len_ : len % 4096 = 0)
    (off : objOff % 4096 = 0) (space : base + len ≤ 2 ^ 52) (within : objOff + len ≤ ((c.obj obj).size + 4095) / 4096 * 4096)
    (free : c.rangeFree part base len none = true) (here : c.inHandoff obj = false)
    (first : ((List.range 4096).find? fun k => !(c.region k).valid) = some slot) :
    c.regionCreate part obj base len objOff =
      .done ({ c with draws := c.draws + 1 }.setRegion slot (c.newRegion slot part obj base len objOff)) 0 0
        (natLE 2 (nextGen (c.region slot).gen * 4096 + slot) ++ natLE 1 0 ++ zerosB 1) := by
  have shape : ¬ (base % 4096 ≠ 0 ∨ len % 4096 ≠ 0 ∨ objOff % 4096 ≠ 0 ∨ 2 ^ 52 < base + len ∨
      ((c.obj obj).size + 4095) / 4096 * 4096 < objOff + len ∨ c.rangeFree part base len none = false) := by
    rw [free]
    simp only [Bool.true_eq_false, or_false]
    omega
  have handle : ({ c with draws := c.draws + 1 }.setRegion slot (c.newRegion slot part obj base len objOff)).handleOf slot =
      nextGen (c.region slot).gen * 4096 + slot := by
    unfold Chip.handleOf
    rw [region_setRegion]
    rfl
  unfold Chip.regionCreate
  dsimp only
  rw [if_neg (Nat.not_le.mpr hp), if_neg (by simp [ok, known]), if_neg (not_not.mpr own), if_neg shape, here,
    if_neg Bool.false_ne_true, first, ← handle]
  rfl

end

/-! ### Commands on a region (R433, R434, R436, R453) -/

theorem quiet_revokeStart (c : Chip) (rv : Revoke) (node : Option Nat) : Quiet c (c.revokeStart rv node) := by
  unfold Chip.revokeStart
  simp only [rngBytes_eq]
  exact quiet_of _ _ rfl rfl rfl rfl id id

/-- A grant is written into the grant table, in the node's earlier slot or a free one. -/
theorem addGrant_grants {c d : Chip} {slot node rights : Nat} (h : c.addGrant slot node rights = some d) : ∃ g, d = c.setGrants g := by
  unfold Chip.addGrant at h
  extract_lets r session g same free at h
  clear_value same free
  cases same with
  | cons k t => exact ⟨_, (Option.some.inj h).symm⟩
  | nil =>
    cases free with
    | none => cases h
    | some k => exact ⟨_, (Option.some.inj h).symm⟩

theorem revokeCmd_settled {slot : Nat} (settled : (c.region slot).revoking = false) (x : Session) (reqId opc : Nat) (node : Option Nat) :
    c.revokeCmd x reqId opc slot node = .run (c.revokeStart { slot := slot, cmd := some (x.id, reqId, opc) } node) slot := by
  unfold Chip.revokeCmd
  rw [settled, if_neg Bool.false_ne_true]

section
variable {handle slot : Nat} (named : c.regionOf handle = some slot)
include named

section
variable (settled : (c.region slot).revoking = false)
include settled

theorem regionDelete_settled (x : Session) (reqId : Nat) : c.regionDelete x reqId handle = .done (c.regionRemove slot) 0 0 [] := by
  unfold Chip.regionDelete
  rw [named]
  dsimp only
  rw [settled, if_neg Bool.false_ne_true]

theorem grantAdd_settled (x : Session) (reqId : Nat) {node rights : Nat} {d : Chip} (hn : node < 4096)
    (hr : rights = 1 ∨ rights = 2 ∨ rights = 3) (session : (kgetD c.sec.nodes node {}).valid = true)
    (added : c.addGrant slot node rights = some d) : c.grantAdd x reqId handle node rights = .done d 0 0 [] := by
  unfold Chip.grantAdd
  rw [named]
  dsimp only
  rw [if_neg (by omega), session, if_neg (by decide), settled, if_neg Bool.false_ne_true, added]

theorem regionRevoke_settled (x : Session) (reqId : Nat) :
    c.regionRevoke x reqId handle = .run (c.revokeStart { slot := slot, cmd := some (x.id, reqId, 0x0402) } none) slot := by
  unfold Chip.regionRevoke
  rw [named]
  exact revokeCmd_settled settled x reqId 0x0402 none

theorem grantRemove_settled (x : Session) (reqId : Nat) {node : Nat} (hn : node < 4096) (holds : c.hasGrant slot node = true) :
    c.grantRemove x reqId handle node = .run (c.revokeStart { slot := slot, cmd := some (x.id, reqId, 0x0405) } (some node)) slot := by
  unfold Chip.grantRemove
  rw [named]
  dsimp only
  rw [if_neg (Nat.not_le.mpr hn), holds, if_neg (by decide)]
  exact revokeCmd_settled settled x reqId 0x0405 (some node)

end

theorem regionDelete_revoking (x : Session) (reqId : Nat) (revoking : (c.region slot).revoking = true) :
    c.regionDelete x reqId handle = c.regionHold { slot := slot, sess := x.id, reqId := reqId, opc := 0x0403 } := by
  unfold Chip.regionDelete
  rw [named]
  exact if_pos revoking

end

end

/-- Settles O32: each command completes or starts its revocation in its own step, by the branch of its meaning that the
clause describes. -/
theorem regionCommandsComplete : Obligations.RegionCommandsComplete := by
  unfold Obligations.RegionCommandsComplete
  intro s sess reqId x still
  refine ⟨fun asks part obj base len objOff => ⟨?badPart, fun hp ok known => ⟨?otherPart, ?creates⟩⟩,
    fun handle slot named => ⟨fun settled => ⟨?deletes, ?grants, ?revokes, ?removes⟩, ?waits⟩⟩
  case badPart => exact fun bad => command_answers asks rfl still (regionCreate_badPart bad) (by decide)
  case otherPart => exact fun other => command_answers asks rfl still (regionCreate_otherPart hp ok known other) (by decide)
  case creates =>
    intro own base_ len_ off space within free here slot gen first next
    subst next
    exact command_secures asks rfl still (regionCreate_new hp ok known own base_ len_ off space within free here first) (by decide)
  case deletes =>
    exact fun asks => command_secures asks rfl still (regionDelete_settled named settled x reqId) (by decide)
  case grants =>
    intro asks node rights d hn hr session added
    obtain ⟨g, rfl⟩ := addGrant_grants added
    exact command_secures asks rfl still (grantAdd_settled named settled x reqId hn hr session added) (by decide)
  case revokes =>
    intro asks
    obtain rfl := asks_id asks
    exact command_goesOn asks rfl still (regionRevoke_settled named settled x reqId) (quiet_revokeStart _ _ _)
  case removes =>
    intro asks node hn holds
    obtain rfl := asks_id asks
    exact command_goesOn asks rfl still (grantRemove_settled named settled x reqId hn holds) (quiet_revokeStart _ _ _)
  case waits =>
    intro revoking asks
    obtain rfl := asks_id asks
    exact command_goesOn asks rfl still (regionDelete_revoking named x reqId revoking) (quiet_sec rfl)

end Sys2Proof.Machine
end

section
/-! SUPPORT. A revocation that outlasts its limit, and one whose last old-epoch request has retired (R436). -/

namespace Sys2Proof.Machine

variable {c : Chip} {slot : Nat} {rv : Revoke}

/-! ### REVOKE_SLOW -/

theorem revokeSlow_due (found : (c.sec.revokes.find? fun r => r.slot == slot) = some rv) (new : rv.slow = false)
    (due : rv.start + 1000 * max 1 (c.fld .secGlb 12 [] 31 16) ≤ c.boot.tick) :
    c.revokeSlow slot = { c with sec := { c.sec with
      revokes := modFirst (fun r : Revoke => r.slot == slot) (fun r => { r with slow := true }) c.sec.revokes } }.raise Ev.revokeSlow [] := by
  unfold Chip.revokeSlow
  rw [found]
  dsimp only
  rw [new, show c.due rv.start _ = true from decide_eq_true due]
  rfl

/-! ### REVOKE_RETIRE_DONE -/

/-- The region has left REVOKING, and its revocation is over. -/
def Chip.retired (c : Chip) (slot : Nat) : Chip := { c with sec := { c.sec with
  regions := ksetD c.sec.regions slot {} { c.region slot with revoking := false }
  revokes := c.sec.revokes.filter fun r => r.slot != slot } }

/-- The revocation is counted, and REGION_REVOKED goes to the region's partition. -/
def Chip.retireRaised (c : Chip) (slot : Nat) : Chip :=
  ((c.retired slot).bump .secRevokes 12).raise Ev.regionRevoked [(c.region slot).part]
    ((c.retired slot).handleOf slot + (c.region slot).epoch * 65536) 0 ((c.retired slot).grantNodes [slot])

theorem quiet_retired (c : Chip) (slot : Nat) : Quiet c (c.retired slot) := quiet_sec rfl

theorem noted_retireRaised (rings : c.NoRings) (part : (c.region slot).part < 64) : Noted (c.retired slot) (c.retireRaised slot) :=
  (raised_bump ..).noted.trans (noted_raise _ _ _ _ _ _ (fun _ hq => List.mem_singleton.mp hq ▸ part) rings)

theorem regionWake_none (none : c.sec.waits = []) (slot : Nat) : c.regionWake slot = c := by
  unfold Chip.regionWake
  rw [none]
  rfl

theorem resetStep_other {p : Nat} (other : (c.partOf p).st ≠ .resetting) : c.resetStep p = c := if_neg fun h => other h.1

/-- With no command waiting and no reset to go on, the step ends as the revocation's end leaves the module. -/
theorem retireDone_eq {d : Chip} (step : c.revokeRetire slot = d.regionWake slot) (noted : d = (c.retired slot).noting d)
    (waits : c.sec.waits = []) (stays : (c.partOf (c.region slot).part).st ≠ .resetting) : c.retireDone slot = d := by
  have sec : d.sec.waits = [] := by
    rw [noted]
    exact waits
  have part : d.partOf (c.region slot).part = c.partOf (c.region slot).part := by
    rw [noted]
    rfl
  unfold Chip.retireDone
  dsimp only
  rw [step, regionWake_none sec]
  exact resetStep_other (part ▸ stays)

section
variable (found : (c.sec.revokes.find? fun r => r.slot == slot) = some rv) (last : c.oldCount slot = 0) (plain : rv.reset = false)
include found last plain

theorem revokeRetire_silent (silent : rv.cmd = none) : c.revokeRetire slot = (c.retireRaised slot).regionWake slot := by
  unfold Chip.revokeRetire
  rw [found]
  dsimp only
  rw [if_neg (not_not.mpr last), plain, silent]
  rfl

theorem revokeRetire_answers {sess reqId opc : Nat} (cmd : rv.cmd = some (sess, reqId, opc)) :
    c.revokeRetire slot =
      ((c.retireRaised slot).endCmd (sess, reqId) 0 0 (natLE 1 (c.region slot).epoch)).regionWake slot := by
  unfold Chip.revokeRetire
  rw [found]
  dsimp only
  rw [if_neg (not_not.mpr last), plain, cmd]
  rfl

end

/-- A command that still runs on its session is answered with the body that ends it. -/
theorem endCmd_answers (c : Chip) {sess reqId status : Nat} {y : Session} {run : Running} (body : Bytes) (hy : c.session? sess = some y)
    (hr : (y.running.find? fun r => r.reqId == reqId) = some run) :
    c.endCmd (sess, reqId) status 0 body = c.finishCmd sess reqId run.opc status 0 body := by
  unfold Chip.endCmd
  rw [hy]
  dsimp only
  rw [hr]

/-- An answer after an event leaves what an event may leave. -/
theorem Noted.answered {a b d : Chip} (h : Noted a b) (g : Answered b d) : d = a.noting d := by
  rw [show d = _ from g, h.eq]
  rfl

/-- Settles O33: the old-epoch count is 0, so step 4 runs to its end, and with no command waiting and no reset to go on
nothing follows it. -/
theorem revocationsRetire : Obligations.RevocationsRetire := by
  unfold Obligations.RevocationsRetire
  intro s slot rv still found
  refine ⟨fun new due => ?slow, fun last rings part plain waits stays => ⟨fun silent => ?silent, fun sess reqId opc x run cmd hx hr => ?answers⟩⟩
  case slow =>
    exact raisesTo s (.revokeSlow slot) _ _ (congrArg (act s) (revokeSlow_due found new due)) (raised_raise ..) ((quiet_sec rfl).still still)
  case silent =>
    have noted := noted_retireRaised rings part
    exact notesTo s (.revokeRetireDone slot) _ _ (congrArg (act s) (retireDone_eq (revokeRetire_silent found last plain silent) noted.eq waits stays))
      noted ((quiet_retired _ slot).still still)
  case answers =>
    have noted := noted_retireRaised rings part
    obtain ⟨n, session⟩ := noted.sess sess x hx
    have ends := endCmd_answers (status := 0) _ (natLE 1 (s.chip.region slot).epoch) session hr
    have answered := noted.answered (answered_finishCmd _ sess reqId run.opc 0 0 (natLE 1 (s.chip.region slot).epoch))
    have step := retireDone_eq ((revokeRetire_answers found last plain cmd).trans (congrArg (Chip.regionWake · slot) ends)) answered waits stays
    exact ⟨_, becomes s (.revokeRetireDone slot) _ _ rfl step
        (((quiet_retired s.chip slot).trans noted.quiet).trans (quiet_finishCmd ..)) still,
      answered, finishCmd_lastReply _ _ _ _ _ _ _ _ session (by decide)⟩

end Sys2Proof.Machine
end

section
/-! SUPPORT. What the commands on quotes and the quote tree mean, and how the build of a tree ends (R430, R431, R448). -/

namespace Sys2Proof.Machine

variable {c : Chip} {x : Session} {reqId : Nat}

/-! ### QUOTE (R430, R448) -/

/-- A report names the tree, not the leaf that will sign it (R431). -/
theorem report_leaf (c : Chip) (n : Nat) (nonce : Bytes) : ({ c with sec := { c.sec with leaf := n } } : Chip).report nonce = c.report nonce := by
  unfold Chip.report
  rfl

/-- A quote has used a leaf and a draw, and its nonce is good for key releases. -/
def Chip.quoted (c : Chip) (nonce : Bytes) : Chip := { c with
  draws := c.draws + 1
  sec := { c.sec with leaf := c.sec.leaf + 1, quoteNonces := c.sec.quoteNonces ++ [nonce] } }

/-- The report with both signatures over it. -/
def Chip.quote (c : Chip) (nonce : Bytes) : Bytes :=
  c.report nonce ++ Config.ecdsaSign c.sec.idKey (Config.sha384 (c.report nonce)) (Config.trng c.draws) ++
    Config.lmsSign c.sec.treeSeed c.sec.leaf (Config.sha384 (c.report nonce))

theorem quiet_quoted (c : Chip) (nonce : Bytes) : Quiet c ((c.quoted nonce).bump .secQuotes 12) :=
  (quiet_sec rfl : Quiet c (c.quoted nonce)).trans (quiet_bump ..)

theorem signQuote_owner (owner : x.kind = 0) (nonce : Bytes) :
    c.signQuote x nonce = (c.quote nonce, (c.quoted nonce).bump .secQuotes 12) := by
  unfold Chip.signQuote Chip.quote
  dsimp only
  rw [report_leaf, if_pos owner]
  rfl

theorem quoteCmd_busy (busy : c.sec.treeBusy = true) (nonce : Bytes) :
    c.quoteCmd x reqId nonce = .run { c with sec := { c.sec with quoteWait := c.sec.quoteWait ++ [(x.id, reqId, nonce)] } } 0 := if_pos busy

theorem quoteCmd_exhausted (idle : c.sec.treeBusy = false) (used : 1024 ≤ c.sec.leaf) (nonce : Bytes) :
    c.quoteCmd x reqId nonce = .done (c.raise Ev.treeExhausted []) 2 0 [] := by
  unfold Chip.quoteCmd
  rw [idle, if_neg Bool.false_ne_true, if_pos (by simp [used])]

theorem quoteCmd_signs (idle : c.sec.treeBusy = false) (ready : c.sec.treeReady = true) (left : c.sec.leaf < 1024) (owner : x.kind = 0)
    (nonce : Bytes) : c.quoteCmd x reqId nonce = .done ((c.quoted nonce).bump .secQuotes 12) 0 0 (c.quote nonce) := by
  unfold Chip.quoteCmd
  rw [idle, if_neg Bool.false_ne_true, if_neg (by simp [ready, left])]
  dsimp only
  rw [signQuote_owner owner]

/-! ### TREE_NEW and the end of the build (R430) -/

theorem treeNewCmd_starts (idle : c.sec.treeBusy = false) :
    c.treeNewCmd x reqId = .run { c with sec := { c.sec with treeBusy := true, treeAt := c.boot.tick, treeCmd := [(x.id, reqId)] } } 0 := by
  unfold Chip.treeNewCmd
  rw [idle, if_neg Bool.false_ne_true]
  rfl

/-- The seed of a new tree. -/
def Chip.newSeed (c : Chip) : Bytes := Config.hmac c.sec.idKey (bytesOf 32 (Config.trng c.draws))

/-- The identity key's signature over a new tree (R431). -/
def Chip.newEndorse (c : Chip) : Bytes :=
  Config.ecdsaSign c.sec.idKey (Config.sha384 (natLE 8 c.boot.image.serial ++ Config.romDigest ++ Config.lmsPub c.newSeed))
    (Config.trng (c.draws + 1))

/-- A new tree is there, and nothing waits for it. -/
def Chip.treeMade (c : Chip) : Chip := { c with
  draws := c.draws + 2
  sec := { c.sec with treeSeed := c.newSeed, endorse := c.newEndorse, leaf := 0, treeReady := true, treeBusy := false
                      treeCmd := [], quoteWait := [] } }

theorem quiet_treeMade (c : Chip) : Quiet c c.treeMade := quiet_of _ _ rfl rfl rfl rfl id id

theorem session_treeMade (c : Chip) (i : Nat) : c.treeMade.session? i = c.session? i := rfl

theorem newTree_eq (c : Chip) : c.newTree = { c with
    draws := c.draws + 2
    sec := { c.sec with treeSeed := c.newSeed, endorse := c.newEndorse, leaf := 0, treeReady := true, treeBusy := false } } := by
  unfold Chip.newTree
  simp only [rngBytes_eq, idSign_eq]
  rfl

theorem treeDone_answers {cmd : Nat × Nat} (busy : c.sec.treeBusy = true) (up : c.boot.state ≠ .bringup)
    (due : c.sec.treeAt + 120000 ≤ c.boot.tick) (one : c.sec.treeCmd = [cmd]) (none : c.sec.quoteWait = []) :
    c.treeDone = c.treeMade.endCmd cmd 0 0 := by
  unfold Chip.treeDone
  rw [if_pos (by simp [busy, up, Chip.due, due]), one, none, newTree_eq]
  rfl

/-- Settles O36: a quote and a tree by the branches of their meanings; the end of a build answers its one command on the
new tree. -/
theorem quotesAndTrees : Obligations.QuotesAndTrees := by
  unfold Obligations.QuotesAndTrees
  intro s sess reqId x still
  refine ⟨fun asks nonce => ⟨?signs, ?exhausted, ?quoteWaits⟩, fun asks idle => ?starts, ?ends⟩
  case signs =>
    intro idle ready left
    exact command_effects asks rfl still (quoteCmd_signs idle ready left (asks_owner asks) nonce) (by decide)
      (quiet_quoted _ _) rfl fun _ => rfl
  case exhausted =>
    exact fun idle used => command_raises asks rfl still (quoteCmd_exhausted idle used nonce) (by decide) (raised_raise ..)
  case quoteWaits =>
    intro busy
    obtain rfl := asks_id asks
    exact command_goesOn asks rfl still (quoteCmd_busy busy nonce) (quiet_sec rfl)
  case starts =>
    obtain rfl := asks_id asks
    exact command_goesOn asks rfl still (treeNewCmd_starts idle) (quiet_sec rfl)
  case ends =>
    intro run hx hr up busy due one none
    have session := (session_treeMade s.chip sess).trans hx
    have answers := endCmd_running (status := 0) s.chip.treeMade session hr
    have made : (s.chip.treeMade.finishCmd sess reqId run.opc 0 0 []).sec = s.chip.treeMade.sec := (kept_finishCmd ..).sec
    have step := (treeDone_answers busy up due one none).trans answers
    refine ⟨_, becomes s .quoteTreeReady _ _ rfl step ((quiet_treeMade _).trans (quiet_finishCmd ..)) still, ?_, ?_, ?_, ?_,
      finishCmd_lastReply _ _ _ _ _ _ _ _ session (by decide)⟩
    · exact congrArg Sec.treeReady made
    · exact congrArg Sec.treeBusy made
    · exact congrArg Sec.leaf made
    · exact congrArg Sec.treeSeed made

end Sys2Proof.Machine
end

section
/-! SUPPORT. What LINK_MODE and LINK_EXCHANGE answer, and the session that an exchange leaves (R441, R442, R455). -/

namespace Sys2Proof.Machine

/-- An item that fails its dual signature is counted and raised (R426). -/
theorem raised_sigFail (c : Chip) : Raised c c.sigFail := (raised_bump ..).trans (raised_raise ..)

section
variable {c : Chip} {node : Nat}

/-! ### LINK_MODE (R455) -/

section
variable {mode : Nat}

theorem linkMode_malformed (bad : 4096 ≤ node ∨ 3 ≤ mode) : c.linkMode node mode = .done c 4 0 [] := if_pos bad

variable (hn : node < 4096) (hm : mode < 3)
include hn hm

theorem linkMode_noSession (none : (kgetD c.sec.nodes node {}).valid = false) : c.linkMode node mode = .done c 2 0 [] := by
  unfold Chip.linkMode
  dsimp only
  rw [if_neg (by omega), none]
  rfl

theorem linkMode_session (session : (kgetD c.sec.nodes node {}).valid = true) :
    c.linkMode node mode = .done { c with
      sec := { c.sec with nodes := kput c.sec.nodes node { kgetD c.sec.nodes node {} with mode := mode } } } 0 0 [] := by
  unfold Chip.linkMode
  dsimp only
  rw [if_neg (by omega), session]
  rfl

end

/-! ### LINK_EXCHANGE (R441) -/

/-- The node's certificate is a leaf of the owner's, and its key signs the exchange. -/
@[reducible] def Chip.exchangeOk (c : Chip) (node : Nat) (pub nonce sig cert : Bytes) : Prop :=
  c.certOk 5 cert = true ∧
    Config.ecdsaVerify (certEc cert) (Config.sha384 (exchangeText c.boot.image.serial node pub nonce)) sig = true

/-- The node's session after a NEW exchange: the next number, and the secret of both ephemeral keys. -/
def Chip.newSession (c : Chip) (node : Nat) (pub nonce cert : Bytes) : NodeSess :=
  let old := kgetD c.sec.nodes node {}
  { valid := true, mode := if old.mode = 0 then 1 else old.mode, session := if old.session = 0xFFFF then 1 else old.session + 1
    cert := cert, secret := Config.ecdh (bytesOf 48 (Config.trng c.draws)) pub
    salt := bytesOf 32 (Config.trng (c.draws + 1)) ++ nonce }

/-- A NEW exchange draws its key, its nonce and its signature's k, gives the node its session, and its ports their keys. -/
def Chip.exchanged (c : Chip) (node : Nat) (pub nonce cert : Bytes) : Chip :=
  let n := c.newSession node pub nonce cert
  { c with draws := c.draws + 3, sec := { c.sec with nodes := kput c.sec.nodes node n } }.giveKeys node n.secret n.salt

/-- Keys for a node's ports change the ports alone (R453). -/
theorem giveKeys_lnk (c : Chip) (node : Nat) (secret salt : Bytes) : ∃ l, c.giveKeys node secret salt = { c with lnk := l } := by
  have ports (g : Nat → Port → Port) : ∀ (ps : List Nat) (c : Chip), ∃ l, ps.foldl (fun c p => c.modPort p (g p)) c = { c with lnk := l } := by
    intro ps
    induction ps with
    | nil => exact fun c => ⟨c.lnk, rfl⟩
    | cons p t ih => exact fun c => ih (c.modPort p (g p))
  unfold Chip.giveKeys
  split
  · exact ports _ _ c
  · exact ⟨c.lnk, rfl⟩

theorem exchanged_eq (c : Chip) (node : Nat) (pub nonce cert : Bytes) : ∃ l, c.exchanged node pub nonce cert = { c with
    draws := c.draws + 3, sec := { c.sec with nodes := kput c.sec.nodes node (c.newSession node pub nonce cert) }, lnk := l } :=
  giveKeys_lnk _ node _ _

theorem quiet_exchanged (c : Chip) (node : Nat) (pub nonce cert : Bytes) : Quiet c (c.exchanged node pub nonce cert) := by
  obtain ⟨l, frame⟩ := exchanged_eq c node pub nonce cert
  rw [frame]
  exact quiet_of _ _ rfl rfl rfl rfl id id

theorem session_exchanged (c : Chip) (node i : Nat) (pub nonce cert : Bytes) : (c.exchanged node pub nonce cert).session? i = c.session? i := by
  obtain ⟨l, frame⟩ := exchanged_eq c node pub nonce cert
  rw [frame]
  rfl

theorem nodes_exchanged (c : Chip) (node : Nat) (pub nonce cert : Bytes) :
    kgetD (c.exchanged node pub nonce cert).sec.nodes node {} = c.newSession node pub nonce cert := by
  obtain ⟨l, frame⟩ := exchanged_eq c node pub nonce cert
  rw [frame]
  exact kgetD_kput_self ..

section
variable {kind : Nat} {pub nonce sig cert : Bytes}

theorem linkExchange_malformed (bad : 4096 ≤ node ∨ 2 ≤ kind) : c.linkExchange node kind pub nonce sig cert = .done c 4 0 [] := if_pos bad

variable (hn : node < 4096)
include hn

/-- An exchange that fails a check answers AUTH and at most raises the failure to firmware. -/
theorem linkExchange_refused (bad : ¬ c.exchangeOk node pub nonce sig cert) :
    ∃ d, c.linkExchange node 0 pub nonce sig cert = .done d 7 0 [] ∧ Raised c d := by
  unfold Chip.linkExchange
  dsimp only
  rw [if_neg (by omega)]
  cases cert_ : c.certOk 5 cert with
  | false => exact ⟨_, rfl, raised_when _ _ _ (raised_sigFail c)⟩
  | true =>
    have unsigned : Config.ecdsaVerify (certEc cert) (Config.sha384 (exchangeText c.boot.image.serial node pub nonce)) sig = false :=
      eq_false_of_ne_true fun signed => bad ⟨cert_, signed⟩
    rw [unsigned]
    exact ⟨c, rfl, .rfl' c⟩

theorem linkExchange_new (ok : c.exchangeOk node pub nonce sig cert) :
    ∃ b, c.linkExchange node 0 pub nonce sig cert = .done (c.exchanged node pub nonce cert) 0 0 b := by
  obtain ⟨cert_, signed⟩ := ok
  unfold Chip.linkExchange
  simp only [rngBytes_eq, idSign_eq]
  rw [if_neg (by omega), cert_, signed, if_neg (by decide), if_neg (by decide), if_neg (by omega), if_neg (by omega)]
  exact ⟨_, rfl⟩

end

end

/-- Settles O37: both commands by the branches of their meanings; the keys that an exchange gives to ports leave the
session as it is. -/
theorem linkSessionsComplete : Obligations.LinkSessionsComplete := by
  unfold Obligations.LinkSessionsComplete
  intro s sess reqId x still
  refine ⟨fun asks node mode => ⟨?sets, ?noSession, ?badMode⟩, fun asks node kind pub nonce sig cert => ⟨?badKind, ?exchanges⟩⟩
  case sets =>
    exact fun hn hm session => command_secures asks rfl still (linkMode_session hn hm session) (by decide)
  case noSession => exact fun hn hm none => command_answers asks rfl still (linkMode_noSession hn hm none) (by decide)
  case badMode => exact fun bad => command_answers asks rfl still (linkMode_malformed bad) (by decide)
  case badKind => exact fun bad => command_answers asks rfl still (linkExchange_malformed bad) (by decide)
  case exchanges =>
    intro hn new
    subst new
    by_cases ok : s.chip.exchangeOk node pub nonce sig cert
    · obtain ⟨b, meaning⟩ := linkExchange_new hn ok
      have completes : CompletesWith s (.linkExchange sess reqId node 0 pub nonce sig cert) sess reqId 0x0406 0 b
          fun _ => s.chip.exchanged node pub nonce cert :=
        command_effects asks rfl still meaning (by decide) (quiet_exchanged ..) (session_exchanged ..) fun _ => rfl
      obtain ⟨t, step, reply, left, -, -⟩ := completes
      have session : kgetD t.chip.sec.nodes node {} = s.chip.newSession node pub nonce cert := by
        rw [left]
        exact nodes_exchanged ..
      refine ⟨t, 0, b, step, reply, ?_⟩
      rw [if_pos ok, session]
      exact ⟨rfl, rfl, rfl, rfl, rfl⟩
    · obtain ⟨d, meaning, raised⟩ := linkExchange_refused hn ok
      have completes : CompletesWith s (.linkExchange sess reqId node 0 pub nonce sig cert) sess reqId 0x0406 7 [] fun t => s.chip.raising t :=
        command_raises asks rfl still meaning (by decide) raised
      obtain ⟨t, step, reply, left, -, -⟩ := completes
      refine ⟨t, 7, [], step, reply, ?_⟩
      rw [if_neg ok]
      refine ⟨rfl, ?_⟩
      rw [left]
      rfl

end Sys2Proof.Machine
end

section
/-! SUPPORT. What BUNDLE_CHECK of readable metadata, KEY_RELEASE and BUNDLE_KEY_DROP answer (R426, R447, R448, R449). -/

namespace Sys2Proof.Machine

variable {c : Chip}

/-! ### BUNDLE_CHECK (R447) -/

/-- The bundle as its check records it from its header and metadata. -/
def Chip.checkedBundle (c : Chip) (n : Nat) (y : Bundle) (h m : Bytes) : Bundle :=
  { y with checked := true, entries := fieldB h 0xC 4, chunks := fieldB h 0x10 4, meta_ := m, stripes := c.stripesFor n }

/-- Both signatures at the metadata's end verify. -/
def Chip.metaSigned (c : Chip) (h m : Bytes) : Bool := c.bundleSigned (m.take (fieldB h 0x28 8)) (m.drop (fieldB h 0x28 8))

/-- The bytes of a bundle's metadata are counted on each of its stacks (R194). -/
def Chip.countMeta (c : Chip) (z : Bundle) : Chip := z.stripes.foldl (fun c f => c.bump .flsWriteBytes f [] (z.metaOn f)) c

/-- The bundle is recorded, and M_BUNDLES becomes `d` (R447). -/
def Chip.recorded (c : Chip) (z : Bundle) (d : Bytes) : Chip := { c.setBundle z with sec := { c.sec with mBundles := d } }

/-- M_BUNDLES extended by the digest of the signed metadata (R447). -/
def Chip.extended (c : Chip) (h m : Bytes) : Bytes := Config.sha384 (c.sec.mBundles ++ Config.sha384 (m.take (fieldB h 0x28 8)))

theorem counted_countMeta (c : Chip) (z : Bundle) : Counted c (c.countMeta z) := by
  have bumps : ∀ (fs : List Nat) (c : Chip), Counted c (fs.foldl (fun c f => c.bump .flsWriteBytes f [] (z.metaOn f)) c) := by
    intro fs
    induction fs with
    | nil => exact .rfl'
    | cons f t ih => exact fun c => (counted_bump c .flsWriteBytes f (z.metaOn f) []).trans (ih _)
  exact bumps z.stripes c

theorem recorded_countMeta (c : Chip) (z y : Bundle) (d : Bytes) : Counted (c.recorded z d) ((c.countMeta y).recorded z d) := by
  unfold Counted
  rw [show c.countMeta y = _ from counted_countMeta c y]
  rfl

theorem Counted.answering {c d : Chip} (h : Counted c d) (e : Chip) : c.answering e = d.answering e := by
  rw [show d = _ from h]
  rfl

theorem Counted.session {c d : Chip} (h : Counted c d) (i : Nat) : d.session? i = c.session? i := by
  rw [show d = _ from h]
  rfl

section
variable {n : Nat} {y : Bundle} {h m : Bytes} (named : c.bundle? n = some y) (opened : y.isOpen = true) (new : y.checked = false)
  (on : c.enabled 7 12 = true) (header : c.readObj y.stage 0 0x1000 = (some h, c)) (ok : bundleHdrOk n h = true)
  (fits : fieldB h 0x28 8 ≤ (c.obj y.stage).size) (body : c.readObj y.stage 0 (min (fieldB h 0x30 8) (c.obj y.stage).size) = (some m, c))
include named opened new on header ok fits body

/-- A check whose metadata can be read goes on to its signatures. -/
theorem bundleCheck_read :
    c.bundleCheck n =
      if !c.metaSigned h m then
        .done (c.when (c.bundleForged (m.take (fieldB h 0x28 8)) (m.drop (fieldB h 0x28 8))) Chip.sigFail) 7 0 []
      else if !c.flashRoom (c.checkedBundle n y h m) then .done c 6 0 []
      else if !c.metaUp (c.checkedBundle n y h m) then .done c 10 0 []
      else .done ((c.countMeta (c.checkedBundle n y h m)).recorded (c.checkedBundle n y h m) (c.extended h m)) 0 0 [] := by
  have shape : ¬ ((!bundleHdrOk n h || decide ((c.obj y.stage).size < fieldB h 0x28 8)) = true) := by
    simpa [ok] using fits
  unfold Chip.bundleCheck
  rw [openBundle_open named opened]
  dsimp only
  rw [new, if_neg Bool.false_ne_true, on, if_neg (by decide), header]
  dsimp only
  rw [if_neg shape, body]
  unfold Chip.metaSigned Chip.recorded Chip.extended Chip.countMeta Chip.checkedBundle
  dsimp only

end

/-! ### KEY_RELEASE (R448) -/

/-- The certificate that a release carries. -/
def releaseCert (body : Bytes) : Bytes := (body.drop 224).take (certLen (body.drop 224))

/-- Both signatures of a release verify under its certificate. -/
def releaseDual (body : Bytes) : Bool :=
  let sigs := (body.drop 224).drop (certLen (body.drop 224))
  dualOk (certEc (releaseCert body)) (certLms (releaseCert body)) (Config.sha384 (body.take 0xE0)) (sigs.take 96)
    ((sigs.drop 104).take (fieldB sigs 96 2))

section
variable {x : Session} {body : Bytes}

/-- A release that fails a check answers AUTH and at most raises the failure to firmware. -/
theorem keyRelease_refused (bad : c.certOk 4 (releaseCert body) = false ∨ releaseDual body = false ∨ c.unwrap x body = none) :
    ∃ d, c.keyRelease x body = .done d 7 0 [] ∧ Raised c d := by
  have refused (forged : Bool) : Raised c ((c.when forged Chip.sigFail).bump .secReleaseFail 12) :=
    (raised_when _ _ _ (raised_sigFail c)).trans (raised_bump ..)
  by_cases signed : (!c.certOk 4 (releaseCert body) || !releaseDual body) = true
  · exact ⟨_, if_pos signed, refused _⟩
  · have none_ : c.unwrap x body = none := by
      rcases bad with h | h | h
      · simp [h] at signed
      · simp [h] at signed
      · exact h
    refine ⟨_, (if_neg signed).trans ?_, refused false⟩
    rw [none_]
    rfl

theorem keyRelease_stores {key : Bytes} {k : Nat} (cert : c.certOk 4 (releaseCert body) = true) (dual : releaseDual body = true)
    (unwraps : c.unwrap x body = some key) (new : c.sec.bkeys.find? (fun e => e.2.1 == fieldB body 0 4) = none)
    (free : ((List.range 256).find? fun k => (kfind? c.sec.bkeys k).isNone) = some k) :
    c.keyRelease x body = .done { c with sec := { c.sec with bkeys := kput c.sec.bkeys k (fieldB body 0 4, key) } } 0 0 (natLE 1 k) := by
  have signed : ¬ (!c.certOk 4 (releaseCert body) || !releaseDual body) = true := by simp [cert, dual]
  refine (if_neg signed).trans ?_
  rw [unwraps]
  dsimp only
  rw [new]
  dsimp only
  rw [free]

end

/-! ### BUNDLE_KEY_DROP (R449) -/

section
variable {n : Nat}

theorem bundleKeyDrop_unknown (none : c.sec.bkeys.find? (fun e => e.2.1 == n) = none) : c.bundleKeyDrop n = .done c 5 0 [] := by
  unfold Chip.bundleKeyDrop
  rw [none]

theorem bundleKeyDrop_held {e : Nat × Nat × Bytes} (held : c.sec.bkeys.find? (fun e => e.2.1 == n) = some e) :
    c.bundleKeyDrop n = .done { c with sec := { c.sec with bkeys := kdel c.sec.bkeys e.1 } } 0 0 [] := by
  unfold Chip.bundleKeyDrop
  rw [held]

end

/-- Settles O39: each command by the branch of its meaning that the clause describes; the bytes of metadata written are
only counted. -/
theorem bundleSecurityCompletes : Obligations.BundleSecurityCompletes := by
  unfold Obligations.BundleSecurityCompletes
  intro s sess reqId x still
  refine ⟨fun asks n y h m named opened new on header ok fits body => ?check,
    fun asks body => ⟨fun bad => ?refused, fun key k cert dual unwraps new free => ?stores⟩, fun asks n => ⟨fun none => ?unknown, fun e held => ?drops⟩⟩
  case check =>
    have read := bundleCheck_read named opened new on header ok fits body
    have passes {p : Bool} (h : p = true) : ¬ (!p) = true := by simp [h]
    have signedThen (signed : s.chip.metaSigned h m = true) := read.trans (if_neg (passes signed))
    have roomThen (signed : s.chip.metaSigned h m = true) (room : s.chip.flashRoom (s.chip.checkedBundle n y h m) = true) :=
      (signedThen signed).trans (if_neg (passes room))
    refine ⟨fun forged => ?forged, fun signed full => ?full, fun signed room down => ?down, fun signed room up => ?records⟩
    case forged =>
      have unsigned : (!s.chip.metaSigned h m) = true := congrArg not forged
      exact command_raises asks rfl still (read.trans (if_pos unsigned)) (by decide) (raised_when _ _ _ (raised_sigFail _))
    case full =>
      exact command_answers asks rfl still ((signedThen signed).trans (if_pos (congrArg not full))) (by decide)
    case down =>
      exact command_answers asks rfl still ((roomThen signed room).trans (if_pos (congrArg not down))) (by decide)
    case records =>
      have counted := recorded_countMeta s.chip (s.chip.checkedBundle n y h m) (s.chip.checkedBundle n y h m) (s.chip.extended h m)
      have quiet : Quiet s.chip (s.chip.recorded (s.chip.checkedBundle n y h m) (s.chip.extended h m)) :=
        quiet_of _ _ rfl rfl rfl rfl id id
      exact command_effects asks rfl still ((roomThen signed room).trans (if_neg (passes up))) (by decide)
        (quiet.trans counted.quiet) (counted.session sess) counted.answering
  case refused =>
    obtain ⟨d, meaning, raised⟩ := keyRelease_refused bad
    exact command_raises asks rfl still meaning (by decide) raised
  case stores => exact command_secures asks rfl still (keyRelease_stores cert dual unwraps new free) (by decide)
  case unknown => exact command_answers asks rfl still (bundleKeyDrop_unknown none) (by decide)
  case drops => exact command_secures asks rfl still (bundleKeyDrop_held held) (by decide)

end Sys2Proof.Machine
end

section
/-! SUPPORT. What a step leaves of the queue and of the slow-domain copies (R585, R589, R596, R603, R606). -/

namespace Sys2Proof.Machine

/-- A command's meaning is its effect on the module, followed by what the step itself has to deal with: an `act`, an
`actReset` where it may end in RESET, or the edge of the slow clock. -/
theorem exec_outcome (i : Instr) (s : State) : (∃ c, exec i s = act s c) ∨ (∃ c, exec i s = actReset s c) ∨ i = .shadowRefresh := by
  cases i with
  | shadowRefresh => exact .inr (.inr rfl)
  | powerOkRise | resetHoldEnd | powerOkFall | resetNFall | resetNRise | smbusResetRequest | devResetDelayExpiry | powerApplied
  | powerRemoved => exact .inr (.inl ⟨_, rfl⟩)
  | _ => exact .inl ⟨_, rfl⟩

theorem shadowRefresh_runs {s : State} (runs : s.chip.clockRuns = true) :
    exec .shadowRefresh s = .next { s with chip := s.chip.clockEdge.settle, snap := s.chip.clockEdge.settle.refresh s.snap } :=
  if_pos runs

theorem shadowRefresh_stands {s : State} (stands : ¬ s.chip.clockRuns = true) : exec .shadowRefresh s = .next s := if_neg stands

/-- The copies after a command: as they were, reset, or taken anew by the slow clock's edge. -/
def State.copiesAfter (s t : State) : Prop := t.snap = s.snap ∨ t.snap = [] ∨ ∃ c : Chip, t.snap = c.refresh s.snap

theorem exec_next (i : Instr) (s : State) : ∃ t, exec i s = .next t ∧ t.pending = s.pending ∧ s.copiesAfter t := by
  rcases exec_outcome i s with ⟨c, h⟩ | ⟨c, h⟩ | rfl
  · exact ⟨_, h, rfl, .inl rfl⟩
  · refine ⟨_, h, rfl, ?_⟩
    by_cases low : c.boot.state.code ≤ 1
    · exact .inr (.inl (if_pos low))
    · exact .inl (if_neg low)
  · by_cases runs : s.chip.clockRuns = true
    · exact ⟨_, shadowRefresh_runs runs, rfl, .inr (.inr ⟨_, rfl⟩)⟩
    · exact ⟨s, shadowRefresh_stands runs, rfl, .inl rfl⟩

theorem step_cons {s : State} {i : Instr} {rest : List Instr} (h : s.pending = i :: rest) : step s = exec i { s with pending := rest } := by
  unfold step
  rw [h]

theorem step_nil {s : State} (h : s.pending = []) : step s = .next s := by
  unfold step
  rw [h]

/-- Settles O1, by the definition of a step. -/
theorem stepRunsFront : Obligations.StepRunsFront := by
  unfold Obligations.StepRunsFront
  exact fun s i => step_cons rfl

/-- Settles O2: no command faults or is refused (`exec_next`). -/
theorem everyStepGoesOn : Obligations.EveryStepGoesOn := by
  unfold Obligations.EveryStepGoesOn
  intro s
  match h : s.pending with
  | [] => exact ⟨s, step_nil h, h, fun _ => rfl⟩
  | i :: rest =>
    obtain ⟨t, runs, queue, -⟩ := exec_next i { s with pending := rest }
    exact ⟨t, (step_cons h).trans runs, queue, fun none => absurd none (List.cons_ne_nil _ _)⟩

/-! ### The slow-domain copies -/

/-- Copies in canonical form, one for each die that has one. -/
def CopiesInOrder (m : KMap Chip) : Prop := Rising m ∧ ∀ e ∈ m, e.1 < 13

theorem copiesInOrder_nil : CopiesInOrder [] := ⟨.nil, fun _ h => absurd h List.not_mem_nil⟩

theorem CopiesInOrder.kput {m : KMap Chip} (h : CopiesInOrder m) {d : Nat} (hd : d < 13) (c : Chip) : CopiesInOrder (kput m d c) := by
  refine ⟨rising_kput m d c h.1, fun e he => ?_⟩
  rcases mem_kput m d c e he with rfl | old
  · exact hd
  · exact h.2 e old

theorem CopiesInOrder.refresh {m : KMap Chip} (h : CopiesInOrder m) (c : Chip) : CopiesInOrder (c.refresh m) := by
  unfold Chip.refresh
  refine List.foldlRecOn _ _ h fun n hn d hd => ?_
  split
  · exact hn
  · exact hn.kput (List.mem_range.mp hd) c

/-- Settles O4: a command keeps the copies, resets them or takes them anew (`exec_next`), and each leaves them in order. -/
theorem heldCopiesInOrder : Obligations.HeldCopiesInOrder := by
  unfold Obligations.HeldCopiesInOrder
  intro s t inOrder goes
  match h : s.pending with
  | [] =>
    cases (step_nil h).symm.trans goes
    exact inOrder
  | i :: rest =>
    obtain ⟨u, runs, -, copies⟩ := exec_next i { s with pending := rest }
    cases (runs.symm.trans (step_cons h).symm).trans goes
    rcases copies with same | reset | ⟨c, taken⟩
    · rw [same]; exact inOrder
    · rw [reset]; exact copiesInOrder_nil
    · rw [taken]; exact CopiesInOrder.refresh inOrder c

end Sys2Proof.Machine
end

section
/-! SUPPORT. Accesses to control space, the slow clock's edge and the vote over triplicated fields: one lemma for each case of
what an access does (R589, R591, R592, R593, R595, R596, R599, R603, R605). -/

namespace Sys2Proof.Machine

/-! ### Stored words -/

theorem reg_lt (c : Chip) (r : Reg) (die : Nat) (i : List Nat) : c.reg r die i < 2 ^ 32 := by
  unfold Chip.reg
  split
  · exact BitVec.isLt _
  · exact resetWord_lt r i

theorem clearMask_zero {w : Nat} (h : w < 2 ^ 32) : clearMask w 0 = w := by
  unfold clearMask
  rw [show 2 ^ 32 - 1 - 0 % 2 ^ 32 = 2 ^ 32 - 1 from rfl, Nat.and_two_pow_sub_one_eq_mod, Nat.mod_eq_of_lt h]

theorem bits_word (v : Word) : bits v.toNat 31 0 = v.toNat := by
  have := v.isLt
  unfold bits
  omega

/-! ### A masked write (R592) -/

/-- `old` with bit i of its low half replaced by bit i of `v` where bit 16 + i of `v` is 1; its upper half is zero. -/
def maskedWord (old v : Nat) : Nat := putBits old 31 0 ((bits old 31 0 &&& (65535 - v / 65536)) ||| (v % 65536 &&& v / 65536))

theorem written_devScratch (c : Chip) (i : Nat) (v : Word) : c.written .devScratch 12 [i] v = maskedWord (c.reg .devScratch 12 [i]) v.toNat := by
  have written : c.written .devScratch 12 [i] v = putBits (c.reg .devScratch 12 [i]) 31 0
      ((bits (c.reg .devScratch 12 [i]) 31 0 &&& (65535 - bits v.toNat 31 0 / 65536)) |||
        (bits v.toNat 31 0 % 65536 &&& bits v.toNat 31 0 / 65536)) := rfl
  rw [written, bits_word, maskedWord]

theorem bit_putBits_low {old x n : Nat} (hn : n < 32) : bit (putBits old 31 0 x) n = bit x n := by
  have low : putBits old 31 0 x = 2 ^ 32 * (old / 2 ^ 32) + x % 2 ^ 32 := by
    unfold putBits
    omega
  rw [low, bit_eq_testBit, bit_eq_testBit, Nat.testBit_two_pow_mul_add _ (Nat.mod_lt _ (by decide)), if_pos hn, Nat.testBit_mod_two_pow,
    decide_eq_true hn, Bool.true_and]

theorem bit_maskedWord {old v n : Nat} (hv : v < 2 ^ 32) (hn : n < 32) :
    bit (maskedWord old v) n = (decide (n < 16) && if bit v (16 + n) then bit v n else bit old n) := by
  have keep : 65535 - v / 65536 = 2 ^ 16 - (v / 65536 + 1) := by omega
  have upper : (v / 65536).testBit n = v.testBit (16 + n) := by
    rw [show 65536 = 2 ^ 16 from rfl, Nat.testBit_div_two_pow, Nat.add_comm]
  have old32 : (bits old 31 0).testBit n = old.testBit n := by
    rw [show bits old 31 0 = old % 2 ^ 32 by unfold bits; omega, Nat.testBit_mod_two_pow, decide_eq_true hn, Bool.true_and]
  rw [maskedWord, bit_putBits_low hn]
  simp only [bit_eq_testBit, Nat.testBit_or, Nat.testBit_and, old32, keep, upper]
  rw [Nat.testBit_two_pow_sub_succ (by omega), upper, show v % 65536 = v % 2 ^ 16 from rfl, Nat.testBit_mod_two_pow]
  by_cases low : n < 16
  · cases v.testBit (16 + n) <;> simp [low]
  · have top : v.testBit (16 + n) = false :=
      Nat.testBit_lt_two_pow (hv.trans_le (Nat.pow_le_pow_right (by decide) (by omega)))
    simp [low, top]

theorem store_devScratch (c : Chip) (m : Master) (v : Word) (hm : m.code ≤ 8) (i : Nat) (hi : i < 4) :
    c.busStore m ((Reg.devScratch).addr 12 [i]) v =
      (c.setReg .devScratch 12 [i] (maskedWord (c.reg .devScratch 12 [i]) v.toNat)).busResp 0 0 := by
  rw [store_plain12 c m v hm .devScratch [i] 0 (0x50 + (4 * i + 0)) (slotAt_devScratch i hi) rfl (by omega) (by decide) (by omega)
    rfl rfl rfl rfl (by decide) (by decide), written_devScratch]
  rfl

/-! ### Reads of a privileged master (R591, R599) -/

section
variable {c : Chip} {m : Master} {a : Nat}

theorem accStatus_read (word : a % 4 = 0) (mapped : slotAt a ≠ .unmapped) (path : c.dieCut (a / 2 ^ 44) = false) :
    c.accStatus m a false = 0 := by
  unfold Chip.accStatus
  simp only [word, mapped, path, ne_eq, not_true, if_false, Bool.false_and, Bool.false_eq_true]

theorem blindTo_priv (hm : m.code ≤ 8) (x : Slot) : blindTo m x = false := by
  unfold blindTo
  rw [if_neg (by omega), if_neg (by omega)]

theorem ctlRead_ok {snaps : KMap Chip} (hm : m.code ≤ 8) (ok : c.accStatus m a false = 0) (live : c.inert (slotAt a) = false) :
    c.ctlRead snaps m a = (0, c.readSlot snaps m (slotAt a)) := by
  unfold Chip.ctlRead
  simp only [ok, blindTo_priv hm, live, ne_eq, not_true, if_false, Bool.or_self, Bool.false_eq_true]

theorem readSlot_reg {snaps : KMap Chip} (hm : m.code ≤ 8) {r : Reg} {die : Nat} {i : List Nat} (other : r ≠ .irqAck) (one : r.triMask = 0) :
    c.readSlot snaps m (.reg r die i) = (clearMask (readWord (kfind? snaps die) c r die i) (absentMask r die i), c) := by
  have prv : prvOf m = true := decide_eq_true hm
  unfold Chip.readSlot
  refine (if_neg other).trans ?_
  rw [if_pos one, prv]
  rfl

theorem ctlRead_reg {snaps : KMap Chip} (hm : m.code ≤ 8) (word : a % 4 = 0) (path : c.dieCut (a / 2 ^ 44) = false)
    (live : c.inert (slotAt a) = false) {r : Reg} {die : Nat} {i : List Nat} (slot : slotAt a = .reg r die i) (other : r ≠ .irqAck)
    (one : r.triMask = 0) :
    c.ctlRead snaps m a = (0, clearMask (readWord (kfind? snaps die) c r die i) (absentMask r die i), c) := by
  rw [ctlRead_ok hm (accStatus_read word (by rw [slot]; exact Slot.noConfusion) path) live, slot, readSlot_reg hm other one]

theorem ctlRead_devScratch (c : Chip) (snaps : KMap Chip) (hm : m.code ≤ 8) (i : Nat) (hi : i < 4) :
    c.ctlRead snaps m ((Reg.devScratch).addr 12 [i]) = (0, c.reg .devScratch 12 [i], c) := by
  have slot := slotAt_devScratch i hi
  have path : c.dieCut ((Reg.devScratch).addr 12 [i] / 2 ^ 44) = false := by rw [slotAt_die slot]; rfl
  rw [ctlRead_reg hm (addr_aligned _ _ _) path (by rw [slot]; rfl) slot (by decide) (by decide)]
  show (0, clearMask (c.reg .devScratch 12 [i]) 0, c) = _
  rw [clearMask_zero (reg_lt _ _ _ _)]

theorem busLoad_lo {snaps : KMap Chip} (hm : m.code ≤ 8) (word : a % 4 = 0) (path : c.dieCut (a / 2 ^ 44) = false)
    (live : c.inert (slotAt a) = false) {k : Cnt} {die : Nat} {i : List Nat} (slot : slotAt a = .cnt k die i false) :
    c.busLoad snaps m a =
      ({ c with ctl := { c.ctl with latch := kput c.ctl.latch (keyOf m * 16 + die) (k.addr die i, c.count k die i / 2 ^ 32) } } : Chip).busResp
        0 (c.count k die i % 2 ^ 32) := by
  unfold Chip.busLoad Chip.busRead
  rw [if_neg fun h => by omega, ctlRead_ok hm (accStatus_read word (by rw [slot]; exact Slot.noConfusion) path) live, slot]
  rfl

end

/-! ### Accesses that do not reach a register (R589, R593, R605) -/

section
variable {c : Chip} {m : Master} {a : Nat} {v : Word}

theorem quiet_accErr (c : Chip) (m : Master) (a st : Nat) (w : Bool) : Quiet c (c.accErr m a st w) := by
  unfold Chip.accErr Chip.capture
  split
  · exact quiet_bump _ _ _ _ _
  · exact (quiet_bump _ _ _ _ _).trans ((quiet_setReg _ _ _ _ _).trans (Quiet.foldl _ (fun _ _ => quiet_setReg _ _ _ _ _) _ _))

theorem busStore_of (hm : m.code ≠ 11) {st : Nat} {d : Chip} (h : c.ctlWrite m a v = (st, d)) : c.busStore m a v = d.busResp st 0 := by
  unfold Chip.busStore Chip.busWrite
  rw [if_neg fun x => hm x.1, h]

theorem ctlWrite_fails {st : Nat} (h : c.accStatus m a true = st) (bad : st ≠ 0) (other : st ≠ 3) : c.ctlWrite m a v = (st, c.accErr m a st true) := by
  unfold Chip.ctlWrite
  simp only [h, ne_eq, bad, not_false_eq_true, if_true]
  split
  · exact absurd rfl other
  · rfl

theorem store_unaligned (hm : m.code ≤ 10) (bad : a % 4 ≠ 0) : c.busStore m a v = (c.accErr m a 2 true).busResp 2 0 :=
  busStore_of (by omega) (ctlWrite_fails (if_pos bad) (by decide) (by decide))

theorem store_unmapped (hm : m.code ≤ 10) (word : a % 4 = 0) (none : slotAt a = .unmapped) :
    c.busStore m a v = (c.accErr m a 1 true).busResp 1 0 :=
  busStore_of (by omega) (ctlWrite_fails ((if_neg (fun h => h word)).trans (if_pos none)) (by decide) (by decide))

/-- A partition agent's write outside the registers of its partition. -/
theorem store_foreign (hm : m.code = 9) (ok : c.accStatus m a true = 0) (other : (slotAt a).part ≠ some m.part) :
    c.busStore m a v = (c.bump .secPrvDrop 12).busResp 0 0 := by
  refine busStore_of (by omega) ?_
  unfold Chip.ctlWrite
  simp only [ok, hm, other, ne_eq, not_true, if_false, not_false_eq_true, and_self, if_true, show ¬ (9 : Nat) = 10 by decide]

theorem ctlTimeout_lost {w : Bool} (word : a % 4 = 0) (mapped : slotAt a ≠ .unmapped) (die : a / 2 ^ 44 < 12) :
    c.ctlTimeout m a w = (c.accErr m a 4 w).busResp 4 0 := if_pos ⟨word, mapped, die⟩

theorem quiet_holdAt (c : Chip) (t : Option Nat) : Quiet c { c with ctl := { c.ctl with holdAt := t } } :=
  quiet_of _ _ rfl rfl rfl rfl id id

theorem store_devShdHold (hm : m.code ≤ 8) :
    c.busStore m ((Reg.devShdHold).addr 12 []) v =
      (let set := c.setReg .devShdHold 12 [] (c.written .devShdHold 12 [] v)
       ({ set with ctl := { set.ctl with holdAt := if bit (c.written .devShdHold 12 [] v) 31 then some c.tick else none } } : Chip).busResp 0 0) :=
  store_plain12 c m v hm .devShdHold [] 0 0x40 slotAt_devShdHold rfl (by decide) (by decide) (by decide)
    rfl rfl rfl rfl (by decide) (by decide)

theorem holdExpiry_due {t : Nat} (held : c.ctl.holdAt = some t) (due : t + 1000 ≤ c.tick) :
    c.holdExpiry =
      (let d := c.setFld .devShdHold 12 [] 31 31 0
       { d with ctl := { d.ctl with holdAt := none } }) := by
  unfold Chip.holdExpiry
  rw [held]
  exact if_pos (decide_eq_true due)

end

/-! ### The edge of the slow clock (R596) -/

section
variable {c : Chip}

/-- A tick with nothing that has its turn: no rebuild, no line that carries traffic, no saturation, no revocation. -/
def Chip.ticked (c : Chip) : Chip :=
  { c with
    boot := { c.boot with tick := c.boot.tick + 1 }
    mem := { c.mem with dramQ := [] }
    swc := { c.swc with d2dTx := c.swc.d2dTx.map fun e => (e.1, { e.2 with out := [] }) } }

theorem raiseSats_none (h : c.ctl.satEv = []) : c.raiseSats = c := by
  unfold Chip.raiseSats
  rw [h]
  show ({ c with ctl := { c.ctl with satEv := [] } } : Chip) = c
  rw [← h]

theorem rebuildTick_none (h1 : c.mem.rebuild ≠ 1) (h2 : c.mem.rebuild ≠ 2) : c.rebuildTick = c := by
  unfold Chip.rebuildTick
  rw [if_neg h1, if_neg h2, ite_self]

theorem fecTick_idle {p : Nat} (h : c.carries p = false) : c.fecTick p = c := by
  unfold Chip.fecTick
  rw [h]
  rfl

theorem linesTick_idle (h : ∀ p ∈ kkeys c.lnk.ports, c.carries p = false) (none : c.lnk.laneLocked = []) : c.linesTick = c := by
  unfold Chip.linesTick
  rw [foldl_stays fun p hp => fecTick_idle (h p hp)]
  unfold Chip.checkersTick
  rw [none]
  rfl

theorem clockEdge_ticked (h1 : c.mem.rebuild ≠ 1) (h2 : c.mem.rebuild ≠ 2) (cursor : c.mem.cursorWait = []) (sats : c.ctl.satEv = [])
    (idle : ∀ p ∈ kkeys c.lnk.ports, c.carries p = false) (locks : c.lnk.laneLocked = []) (turns : ∀ p < 64, (c.partOf p).toStart = []) :
    c.clockEdge = c.ticked := by
  show c.ticked.raiseSats.rebuildTick.linesTick.serveRevoke.wakeCursor = c.ticked
  rw [raiseSats_none (c := c.ticked) sats, rebuildTick_none (c := c.ticked) h1 h2, linesTick_idle (c := c.ticked) idle locks,
    serveRevoke_none (c := c.ticked) turns, wakeCursor_none (c := c.ticked) cursor]

theorem quiet_ticked (c : Chip) : Quiet c c.ticked := quiet_of _ _ rfl rfl rfl rfl id id

theorem clockRuns_of (running : c.boot.running = true) (crystal : c.pins.crystal = true) : c.clockRuns = true := by
  unfold Chip.clockRuns
  rw [running, crystal]
  rfl

/-- Each die that is not held has the module as its copy after the edge. -/
theorem refresh_finds (c : Chip) (snaps : KMap Chip) (d : Nat) :
    kfind? (c.refresh snaps) d = if d < 13 ∧ c.shdHeld d = false then some c else kfind? snaps d := by
  unfold Chip.refresh
  generalize 13 = n
  induction n with
  | zero => exact (if_neg fun h => Nat.not_lt_zero d h.1).symm
  | succ n ih =>
    rw [List.range_succ, List.foldl_append, List.foldl_cons, List.foldl_nil]
    by_cases here : d = n
    · subst here
      cases held : c.shdHeld d with
      | true => simp [held, ih]
      | false => simp
    · have same : (d < n + 1 ∧ c.shdHeld d = false) ↔ (d < n ∧ c.shdHeld d = false) :=
        and_congr_left' (by omega)
      rw [apply_ite (kfind? · d), kfind_kput_ne _ _ _ _ here, ite_self, ih]
      exact if_congr same.symm rfl rfl

end

/-! ### The vote over triplicated fields (R595) -/

theorem kdel_unlisted {α : Type} {m : KMap α} {k : Nat} (h : ∀ e ∈ m, k ≠ e.1) : kdel m k = m := by
  induction m with
  | nil => rfl
  | cons e t ih => exact (if_neg (h e List.mem_cons_self)).trans (congrArg (e :: ·) (ih fun x hx => h x (List.mem_cons_of_mem _ hx)))

section
variable {c : Chip}

/-- What votes change: the copies, and the counters. -/
def Voted (c d : Chip) : Prop :=
  d = { c with ctl := { c.ctl with tri := d.ctl.tri, cnt := d.ctl.cnt, sat := d.ctl.sat, satEv := d.ctl.satEv } }

theorem Voted.trans {a b d : Chip} (h : Voted a b) (g : Voted b d) : Voted a d := by
  unfold Voted at *
  rw [g, h]

theorem voted_vote (c : Chip) (a : Nat) : Voted c (c.vote a) := by
  unfold Chip.vote
  split <;> rfl

theorem Voted.quiet {c d : Chip} (h : Voted c d) : Quiet c d := by
  rw [show d = _ from h]
  exact quiet_of _ _ rfl rfl rfl rfl id id

theorem count_bump_self (c : Chip) (k : Cnt) (die : Nat) (i : List Nat) (n : Nat) :
    (c.bump k die i n).count k die i = min (c.count k die i + n) allOnes64 := by
  unfold Chip.count Chip.bump
  exact kgetD_ksetD_self _ _ _ _

/-- A vote on every register whose copies disagree corrects and counts each once. -/
theorem votes_all (c : Chip) (rising : Rising c.ctl.tri) (room : c.count .devTriFix 12 + c.ctl.tri.length < allOnes64) :
    let d := (kkeys c.ctl.tri).foldl (fun c a => c.vote a) c
    Voted c d ∧ d.ctl.tri = [] ∧ d.count .devTriFix 12 = c.count .devTriFix 12 + c.ctl.tri.length := by
  generalize tri : c.ctl.tri = l at rising room
  induction l generalizing c with
  | nil => exact ⟨rfl, tri, rfl⟩
  | cons e t ih =>
    obtain ⟨first, rest⟩ := rising_cons.mp rising
    have others : kdel t e.1 = t := kdel_unlisted fun x hx => (first x hx).ne
    have vote : c.vote e.1 = ({ c with ctl := { c.ctl with tri := t } } : Chip).bump .devTriFix 12 := by
      unfold Chip.vote
      rw [tri]
      have found : kfind? (e :: t) e.1 = some e.2 := if_pos rfl
      have gone : kdel (e :: t) e.1 = t := (if_pos rfl).trans others
      rw [found, gone]
    have counted : (c.vote e.1).count .devTriFix 12 = c.count .devTriFix 12 + 1 := by
      rw [vote, count_bump_self]
      exact min_eq_left (by simp only [List.length_cons] at room; show c.count .devTriFix 12 + 1 ≤ _; omega)
    obtain ⟨voted, none, all⟩ := ih (c.vote e.1) (by rw [vote]; rfl) rest
      (by rw [counted]; simp only [List.length_cons] at room; omega)
    refine ⟨(voted_vote c e.1).trans voted, none, all.trans ?_⟩
    rw [counted, List.length_cons]
    omega

theorem triVote_runs (running : c.boot.running = true) (crystal : c.pins.crystal = true) (due : c.tick % 1000 = 0) :
    c.triVote [] = (kkeys c.ctl.tri).foldl (fun c a => c.vote a) c := by
  unfold Chip.triVote
  exact if_pos (by rw [List.foldl_nil, running, crystal, due]; rfl)

end

/-- Settles O6: the written word is `maskedWord`, read off bit by bit. -/
theorem maskedWriteChangesChosenBits : Obligations.MaskedWriteChangesChosenBits := by
  unfold Obligations.MaskedWriteChangesChosenBits
  intro s m v still hm i hi
  obtain ⟨w, word⟩ : ∃ w, w = maskedWord (s.chip.reg .devScratch 12 [i]) v.toNat := ⟨_, rfl⟩
  have stored : s.chip.busStore m ((Reg.devScratch).addr 12 [i]) v = (s.chip.setReg .devScratch 12 [i] w).busResp 0 0 :=
    word ▸ store_devScratch s.chip m v hm i hi
  have becomes : Becomes s (.registerWrite m ((Reg.devScratch).addr 12 [i]) v) ((s.chip.setReg .devScratch 12 [i] w).busResp 0 0) :=
    becomes_store still rfl stored rfl (quiet_setReg _ _ _ _ _)
  refine ⟨_, w, becomes, rfl, fun b hb => ?bits, ctlRead_devScratch _ _ hm i hi, fun old new => ?example_⟩
  case bits => exact (bit_reg_setReg s.chip .devScratch 12 [i] w b hb).trans (word ▸ bit_maskedWord v.isLt hb)
  case example_ =>
    have value : w = 0x35 := by rw [word, old, new]; decide
    exact value ▸ reg_setReg_self s.chip .devScratch 12 [i] w (by rw [value]; decide)

/-- Settles O24: each access by the case of its meaning that the clause describes. -/
theorem controlAccessesAct : Obligations.ControlAccessesAct := by
  unfold Obligations.ControlAccessesAct
  intro s m v addr still
  refine ⟨fun hm i hi => ?scratch, fun hm bad => ?unaligned, fun hm word none => ?unmapped, fun hm ok other => ?foreign,
    fun k die i hm word slot path live => ?latches, fun w word mapped die => ?timeout, fun hm => ?hold, fun t held due => ?expiry,
    fun running crystal h1 h2 cursor sats idle locks turns => ?edge, fun running crystal due rising n all room => ?votes⟩
  case scratch =>
    intro old
    have stored := store_devScratch s.chip m v hm i hi
    rw [maskedWord] at stored
    exact becomes_store still rfl stored rfl (quiet_setReg _ _ _ _ _)
  case unaligned => exact becomes s _ _ _ rfl (store_unaligned hm bad) ((quiet_accErr _ _ _ _ _).trans (quiet_resp _ _ _)) still
  case unmapped => exact becomes s _ _ _ rfl (store_unmapped hm word none) ((quiet_accErr _ _ _ _ _).trans (quiet_resp _ _ _)) still
  case foreign => exact becomes_store still rfl (store_foreign hm ok other) rfl (quiet_bump _ _ _ _ _)
  case latches => exact becomes s _ _ _ rfl (busLoad_lo hm word path live slot) (quiet_of _ _ rfl rfl rfl rfl id id) still
  case timeout => exact becomes s _ _ _ rfl (ctlTimeout_lost word mapped die) ((quiet_accErr _ _ _ _ _).trans (quiet_resp _ _ _)) still
  case hold => exact becomes_store still rfl (store_devShdHold hm) rfl ((quiet_setReg _ _ _ _ _).trans (quiet_holdAt _ _))
  case expiry => exact becomes s _ _ _ rfl (holdExpiry_due held due) ((quiet_setReg _ _ _ _ _).trans (quiet_holdAt _ _)) still
  case edge =>
    have runs := shadowRefresh_runs (clockRuns_of running crystal)
    rw [clockEdge_ticked h1 h2 cursor sats idle locks turns, Chip.settle_still _ ((quiet_ticked _).still still)] at runs
    exact ⟨_, runs, rfl, rfl, refresh_finds s.chip.ticked s.snap⟩
  case votes =>
    subst all
    obtain ⟨voted, none, count⟩ := votes_all s.chip rising room
    rw [← triVote_runs running crystal due] at voted none count
    refine ⟨_, act_quiet s _ voted.quiet still, none, count, rfl, rfl, ?_⟩
    show s.chip.triVote [] = _
    conv_lhs => rw [show s.chip.triVote [] = _ from voted]
    rw [none]

end Sys2Proof.Machine
end

section
/-! SUPPORT. The register and counter commands of Rinlidal (R531, R532): what a list of reads does when every read succeeds, and
what a completion changes besides the counter of completed commands. -/

namespace Sys2Proof.Machine

/-! ### A completion changes sessions and what leaves on Ethernet -/

/-- `d` is `c` but for the management block. -/
def Managed (c d : Chip) : Prop := d = { c with mgt := d.mgt }

theorem Managed.rfl' (c : Chip) : Managed c c := rfl

theorem Managed.trans {a b c : Chip} (h : Managed a b) (g : Managed b c) : Managed a c := by
  unfold Managed at *
  rw [g, h]

theorem Managed.foldl {α : Type} (f : Chip → α → Chip) (h : ∀ c x, Managed c (f c x)) (l : List α) (c : Chip) : Managed c (l.foldl f c) := by
  induction l generalizing c with
  | nil => exact .rfl' c
  | cons x t ih => exact (h c x).trans (ih _)

theorem managed_ethSend (c : Chip) (o : EthOut) : Managed c (c.ethSend o) := by
  unfold Chip.ethSend
  split <;> rfl

theorem managed_modSession (c : Chip) (i : Nat) (f : Session → Session) : Managed c (c.modSession i f) := rfl

theorem managed_sendOn (c : Chip) (i t : Nat) (b : Bytes) : Managed c (c.sendOn i t b) := by
  unfold Chip.sendOn
  split
  · exact .rfl' c
  · exact (managed_ethSend _ _).trans (managed_modSession _ _ _)

theorem managed_sendResponse (c : Chip) (i r o s d : Nat) (b : Bytes) (w : Bool) : Managed c (c.sendResponse i r o s d b w) := by
  unfold Chip.sendResponse
  split
  · exact .rfl' c
  · exact Managed.foldl _ (fun _ _ => managed_sendOn _ _ _ _) _ _

/-- The completion of a command that was performed. -/
theorem managed_finishCmd (c : Chip) (i r o d : Nat) (b : Bytes) : Managed (c.bump .mgtCmds 12) (c.finishCmd i r o 0 d b) := by
  unfold Chip.finishCmd
  exact (managed_modSession _ _ _).trans (managed_sendResponse _ _ _ _ _ _ _ _)

theorem settles_asks {s : State} {i : Instr} {sess reqId opc st : Nat} {want b : Bytes} {f : Chip → Session → CmdRes} {x : Session} {c : Chip}
    (asks : s.chip.Asks sess reqId opc x) (hi : exec i s = act s (s.chip.command sess reqId opc want f)) (hf : f s.chip x = .done c st 0 b) :
    Settles s i (c.finishCmd sess reqId opc st 0 b) := by
  refine settles_act hi ?_
  rw [command_asks s.chip sess reqId opc want f x asks, hf]

theorem owner_master {x : Session} (h : x.kind = 0) : x.master = { code := 8 } := by
  unfold Session.master
  rw [h]
  rfl

/-! ### Lists of reads -/

section
variable {c : Chip} {w : Nat} {addrs : List Nat} {f : Chip → Nat → Nat × Nat × Chip}

/-- A list of reads up to some entry: the first failure's status, the bytes read, the module. -/
def readStep (w : Nat) (f : Chip → Nat → Nat × Nat × Chip) (a : Nat × Bytes × Chip) (x : Nat) : Nat × Bytes × Chip :=
  (if a.1 = 0 then (f a.2.2 x).1 else a.1, a.2.1 ++ natLE w (f a.2.2 x).2.1, (f a.2.2 x).2.2)

theorem countOk_iff {n : Nat} : countOk n = true ↔ 1 ≤ n ∧ n ≤ 1024 := by simp [countOk]

theorem readList_counts (h1 : 1 ≤ addrs.length) (h2 : addrs.length ≤ 1024) :
    c.readList w addrs f =
      .done (addrs.foldl (readStep w f) (0, [], c)).2.2 (addrs.foldl (readStep w f) (0, [], c)).1 0
        (natLE 4 (c.tick % 2 ^ 32) ++ zerosB 4 ++ (addrs.foldl (readStep w f) (0, [], c)).2.1) := by
  unfold Chip.readList
  rw [countOk_iff.mpr ⟨h1, h2⟩]
  rfl

theorem countOk_false {n : Nat} (h : n = 0 ∨ 1024 < n) : countOk n = false :=
  Bool.eq_false_iff.mpr fun ok => by have := countOk_iff.mp ok; omega

theorem readList_malformed (h : addrs.length = 0 ∨ 1024 < addrs.length) : c.readList w addrs f = .done c 4 0 [] := by
  unfold Chip.readList
  rw [countOk_false h]
  rfl

/-- A list of reads that all succeed and leave the module as it was. -/
theorem readList_reads (val : Nat → Nat) (h1 : 1 ≤ addrs.length) (h2 : addrs.length ≤ 1024) (reads : ∀ a ∈ addrs, f c a = (0, val a, c)) :
    c.readList w addrs f = .done c 0 0 (natLE 4 (c.tick % 2 ^ 32) ++ zerosB 4 ++ addrs.flatMap fun a => natLE w (val a)) := by
  have all : ∀ b, addrs.foldl (readStep w f) (0, b, c) = (0, b ++ addrs.flatMap fun a => natLE w (val a), c) := by
    clear h1 h2
    induction addrs with
    | nil => intro b; simp
    | cons a t ih =>
      intro b
      have first : readStep w f (0, b, c) a = (0, b ++ natLE w (val a), c) := by
        unfold readStep
        rw [reads a List.mem_cons_self]
        rfl
      rw [List.foldl_cons, first, ih fun x hx => reads x (List.mem_cons_of_mem _ hx), List.flatMap_cons, List.append_assoc]
  rw [readList_counts h1 h2, all]
  rfl

end

/-! ### Counters (R532) -/

section
variable {c : Chip} {a : Nat} {k : Cnt} {die : Nat} {i : List Nat}

theorem cntAccess_owner (clear : Bool) (ok : c.accStatus { code := 8 } a false = 0) (slot : slotAt a = .cnt k die i false)
    (live : c.inert (slotAt a) = false) :
    c.cntAccess { code := 8 } clear a = (0, c.count k die i, if clear then c.clearCnt k die i else c) := by
  unfold Chip.cntAccess
  rw [slot] at live
  simp only [ok, slot, live, blindTo_priv (m := { code := 8 }) (Nat.le_refl 8)]
  cases clear <;> rfl

theorem quiet_clearCnt (c : Chip) (k : Cnt) (die : Nat) (i : List Nat) : Quiet c (c.clearCnt k die i) := quiet_of _ _ rfl rfl rfl rfl id id

theorem count_clearCnt_self (c : Chip) (k : Cnt) (die : Nat) (i : List Nat) : (c.clearCnt k die i).count k die i = 0 := by
  unfold Chip.count Chip.clearCnt kgetD
  rw [kfind_kdel_self]
  rfl

theorem count_clearCnt_ne (c : Chip) (h : a ≠ k.addr die i) : kgetD (c.clearCnt k die i).ctl.cnt a 0 = kgetD c.ctl.cnt a 0 := by
  unfold Chip.clearCnt kgetD
  rw [kfind_kdel_ne _ _ _ h]

/-- The SAT bit of a counter is clear once the counter is. -/
theorem sat_clearCnt (c : Chip) (k : Cnt) (die : Nat) (i : List Nat) :
    bit (kgetD (c.clearCnt k die i).ctl.sat (k.satAddr die i) 0).toNat k.info.bit = false := by
  show bit (kgetD (ksetD c.ctl.sat (k.satAddr die i) 0 _) (k.satAddr die i) 0).toNat k.info.bit = false
  rw [kgetD_ksetD_self, bit_eq_testBit, BitVec.testBit_toNat, BitVec.getLsbD_and, BitVec.getLsbD_not, BitVec.getLsbD_ofNat,
    Nat.testBit_two_pow_self]
  cases decide (k.info.bit < 32) <;> simp

theorem count_bump_saturates (c : Chip) (k : Cnt) (die : Nat) (i : List Nat) : (c.bump k die i allOnes64).count k die i = allOnes64 := by
  rw [count_bump_self]
  exact min_eq_right (Nat.le_add_left _ _)

theorem count_bump_cleared (c : Chip) (k : Cnt) (die : Nat) (i : List Nat) : ((c.clearCnt k die i).bump k die i).count k die i = 1 := by
  rw [count_bump_self, count_clearCnt_self]
  decide

end

/-! ### The commands -/

section
variable {c : Chip} {x : Session} {addrs : List Nat}

theorem cntReadCmd_reads (owner : x.kind = 0) (val : Nat → Nat) (h1 : 1 ≤ addrs.length) (h2 : addrs.length ≤ 1024)
    (reads : ∀ a ∈ addrs, c.accStatus { code := 8 } a false = 0 ∧
      ∃ k die i, slotAt a = .cnt k die i false ∧ c.inert (slotAt a) = false ∧ val a = c.count k die i) :
    c.cntReadCmd x addrs = .done c 0 0 (natLE 4 (c.tick % 2 ^ 32) ++ zerosB 4 ++ addrs.flatMap fun a => natLE 8 (val a)) := by
  unfold Chip.cntReadCmd
  rw [owner_master owner]
  refine readList_reads val h1 h2 fun a ha => ?_
  obtain ⟨ok, k, die, i, slot, live, value⟩ := reads a ha
  rw [cntAccess_owner false ok slot live, value]
  rfl

theorem cntClearCmd_one (owner : x.kind = 0) {a : Nat} {k : Cnt} {die : Nat} {i : List Nat} (ok : c.accStatus { code := 8 } a false = 0)
    (slot : slotAt a = .cnt k die i false) (live : c.inert (slotAt a) = false) :
    c.cntClearCmd x [a] = .done (c.clearCnt k die i) 0 0 (natLE 4 (c.tick % 2 ^ 32) ++ zerosB 4 ++ natLE 8 (c.count k die i)) := by
  unfold Chip.cntClearCmd
  rw [owner_master owner, readList_counts (addrs := [a]) (Nat.le_refl 1) (by decide : 1 ≤ 1024), List.foldl_cons, List.foldl_nil, readStep,
    cntAccess_owner true ok slot live]
  rfl

theorem regReadCmd_counts (snaps : KMap Chip) (owner : x.kind = 0) (h1 : 1 ≤ addrs.length) (h2 : addrs.length ≤ 1024) :
    let r := addrs.foldl (fun (a : Nat × Bytes × Chip) k =>
        let y := a.2.2.ctlRead snaps { code := 8 } k
        (if a.1 = 0 then accCmd y.1 else a.1, a.2.1 ++ natLE 4 y.2.1, y.2.2)) (0, [], c)
    c.regReadCmd snaps x addrs = .done r.2.2 r.1 0 (natLE 4 (c.tick % 2 ^ 32) ++ zerosB 4 ++ r.2.1) := by
  unfold Chip.regReadCmd
  rw [owner_master owner, readList_counts h1 h2]
  rfl

theorem regReadCmd_reads (snaps : KMap Chip) (owner : x.kind = 0) (val : Nat → Nat) (h1 : 1 ≤ addrs.length) (h2 : addrs.length ≤ 1024)
    (reads : ∀ a ∈ addrs, a % 4 = 0 ∧ c.dieCut (a / 2 ^ 44) = false ∧ c.inert (slotAt a) = false ∧
      ∃ r die i, slotAt a = .reg r die i ∧ r ≠ .irqAck ∧ r.triMask = 0 ∧
        val a = clearMask (readWord (kfind? snaps die) c r die i) (absentMask r die i)) :
    c.regReadCmd snaps x addrs = .done c 0 0 (natLE 4 (c.tick % 2 ^ 32) ++ zerosB 4 ++ addrs.flatMap fun a => natLE 4 (val a)) := by
  unfold Chip.regReadCmd
  rw [owner_master owner]
  refine readList_reads val h1 h2 fun a ha => ?_
  obtain ⟨word, path, live, r, die, i, slot, other, one, value⟩ := reads a ha
  rw [ctlRead_reg (m := { code := 8 }) (Nat.le_refl 8) word path live slot other one, value]
  rfl

theorem regWriteCmd_counts (snaps : KMap Chip) (owner : x.kind = 0) {es : List RegEntry} (h1 : 1 ≤ es.length) (h2 : es.length ≤ 1024) :
    let r := c.writeEntries snaps { code := 8 } es 0
    c.regWriteCmd snaps x es = .done r.2.2 r.1 0 (natLE 2 r.2.1 ++ zerosB 2) := by
  unfold Chip.regWriteCmd
  rw [owner_master owner, countOk_iff.mpr ⟨h1, h2⟩]
  rfl

theorem regWriteCmd_malformed (snaps : KMap Chip) {es : List RegEntry} (h : es.length = 0 ∨ 1024 < es.length) :
    c.regWriteCmd snaps x es = .done c 4 0 [] := by
  unfold Chip.regWriteCmd
  rw [countOk_false h]
  rfl

/-- A privileged write of a register that is whole, is not staged and lies outside the BOOT_ block. -/
theorem writeReg_priv (c : Chip) (r : Reg) (die : Nat) (i : List Nat) (v : Nat) (whole : absentMask r die i = 0) (plain : stagedReg r = false)
    (block : r.info.block ≠ 1) (hv : v < 2 ^ 32) :
    c.writeReg r die i v true =
      (c.regEffect r die i (c.codes r die i v true).word v true).when (c.codes r die i v true).ignored fun c => c.ignored (r.addr die i) := by
  unfold Chip.writeReg
  simp only [whole, clearMask_zero hv, Nat.and_zero, Nat.or_zero, plain, Bool.false_eq_true, if_false, codes_dropped]
  unfold Chip.bootRo
  rw [if_neg fun h => block h.1]
  rfl

theorem ctlWrite_devScratch (c : Chip) (i : Nat) (hi : i < 4) (v : Word) :
    c.ctlWrite { code := 8 } ((Reg.devScratch).addr 12 [i]) v =
      (0, c.setReg .devScratch 12 [i] (maskedWord (c.reg .devScratch 12 [i]) v.toNat)) := by
  have slot := slotAt_devScratch i hi
  have path : c.dieCut ((Reg.devScratch).addr 12 [i] / 2 ^ 44) = false := by rw [slotAt_die slot]; rfl
  have ok : c.accStatus { code := 8 } ((Reg.devScratch).addr 12 [i]) true = 0 := by
    unfold Chip.accStatus
    rw [slot, addr_aligned, path]
    rfl
  have write : c.writeReg .devScratch 12 [i] v.toNat true =
      c.setReg .devScratch 12 [i] (maskedWord (c.reg .devScratch 12 [i]) v.toNat) := by
    rw [writeReg_priv c .devScratch 12 [i] v.toNat rfl rfl (by decide) v.isLt, codes_ign _ _ _ _ _ (by decide), when_false, ← written_devScratch]
    rfl
  unfold Chip.ctlWrite
  rw [ok, slot, ← write]
  rfl

/-- One whole entry for DEV_SCRATCH, a register of the block without CFG_IGNORED (R494). -/
theorem applyEntry_devScratch (c : Chip) (snaps : KMap Chip) (i : Nat) (hi : i < 4) (v : Word) :
    c.applyEntry snaps { code := 8 } { addr := (Reg.devScratch).addr 12 [i], value := v, mask := 0xFFFFFFFF } =
      (true, c.setReg .devScratch 12 [i] (maskedWord (c.reg .devScratch 12 [i]) v.toNat)) := by
  have ctrl : ctrlOf ((Reg.devScratch).addr 12 [i] / 2 ^ 32 % 4096) = none := by
    have block : (Reg.devScratch).addr 12 [i] / 2 ^ 32 % 4096 = 0 := by
      show (12 * 2 ^ 44 + 0 * 2 ^ 32 + (0x50 + (4 * i + 0))) / 2 ^ 32 % 4096 = 0
      omega
    rw [block]
    rfl
  unfold Chip.applyEntry
  simp only [ctrl, Option.map_none, if_true, ne_eq, not_true, if_false, ctlWrite_devScratch c i hi]
  have whole : BitVec.ofNat 32 v.toNat &&& ~~~ (0xFFFFFFFF : Word) ||| v &&& 0xFFFFFFFF = v := by
    rw [BitVec.ofNat_toNat, BitVec.setWidth_eq, show ~~~ (0xFFFFFFFF : Word) = 0#32 from rfl, BitVec.and_zero, BitVec.zero_or,
      show (0xFFFFFFFF : Word) = BitVec.allOnes 32 from rfl, BitVec.and_allOnes]
  rw [whole]
  rfl

theorem regWriteCmd_devScratch (snaps : KMap Chip) (owner : x.kind = 0) (i : Nat) (hi : i < 4) (v : Word) :
    c.regWriteCmd snaps x [{ addr := (Reg.devScratch).addr 12 [i], value := v, mask := 0xFFFFFFFF }] =
      .done (c.setReg .devScratch 12 [i] (maskedWord (c.reg .devScratch 12 [i]) v.toNat)) 0 0 (natLE 2 1 ++ zerosB 2) := by
  rw [regWriteCmd_counts (es := [_]) snaps owner (Nat.le_refl 1) (by decide : 1 ≤ 1024)]
  unfold Chip.writeEntries
  rw [applyEntry_devScratch c snaps i hi v]
  rfl

end

/-- Settles O31: each command by what it does with its list. -/
theorem registerCommandsComplete : Obligations.RegisterCommandsComplete := by
  unfold Obligations.RegisterCommandsComplete
  intro s sess reqId x still
  refine ⟨fun asks addrs h1 h2 => ⟨?reads, fun val reads => ?values⟩, fun asks addrs val h1 h2 reads => ?counters,
    fun asks a k die i ok slot live => ?clear, fun asks es => ⟨fun h1 h2 => ?writes, fun h => ?lengths, fun i hi v one => ?scratch⟩,
    fun n h a => ⟨fun asks => ?noReads, fun asks => ?noCounts⟩⟩
  case reads => exact settles_asks asks rfl (regReadCmd_counts s.snap asks.2.1 h1 h2)
  case values => exact command_answers asks rfl still (regReadCmd_reads s.snap asks.2.1 val h1 h2 reads) (by decide)
  case counters => exact command_answers asks rfl still (cntReadCmd_reads asks.2.1 val h1 h2 reads) (by decide)
  case clear =>
    exact command_effects asks rfl still (cntClearCmd_one asks.2.1 ok slot live) (by decide) (quiet_clearCnt _ _ _ _) rfl fun _ => rfl
  case writes => exact settles_asks asks rfl (regWriteCmd_counts s.snap asks.2.1 h1 h2)
  case lengths => exact command_answers asks rfl still (regWriteCmd_malformed s.snap h) (by decide)
  case scratch =>
    intro old
    obtain ⟨w, word⟩ : ∃ w, w = maskedWord old v.toNat := ⟨_, rfl⟩
    have done := regWriteCmd_devScratch (c := s.chip) s.snap asks.2.1 i hi v
    rw [← one, ← word] at done
    have completes : CompletesWith s (.regWrite sess reqId es) sess reqId 0x0702 0 (natLE 2 1 ++ zerosB 2) fun _ =>
        s.chip.setReg .devScratch 12 [i] w :=
      command_effects asks rfl still done (by decide) (quiet_setReg _ _ _ _ _) rfl fun _ => rfl
    rw [word, maskedWord] at completes
    exact completes
  case noReads => exact command_answers asks rfl still (readList_malformed (by rwa [List.length_replicate])) (by decide)
  case noCounts => exact command_answers asks rfl still (readList_malformed (by rwa [List.length_replicate])) (by decide)

/-- Settles O7: the commands as in O31, with the management block alone and the counter of commands changed besides. -/
theorem counterAccessesLoseNothing : Obligations.CounterAccessesLoseNothing := by
  unfold Obligations.CounterAccessesLoseNothing
  intro s sess reqId x still
  refine ⟨fun asks addrs val h1 h2 reads => ?read, fun asks a k die i ok slot live => ?clear, fun c k die i rising => ?counter⟩
  case read =>
    refine ⟨_, settles_asks asks rfl (cntReadCmd_reads asks.2.1 val h1 h2 reads), ?_, ?_, rfl, rfl⟩
    all_goals rw [Chip.settle_still _ ((quiet_finishCmd _ _ _ _ _ _ _).still still)]
    · exact finishCmd_lastReply _ _ _ _ _ _ _ x asks.1 (by decide)
    · exact managed_finishCmd _ _ _ _ _ _
  case clear =>
    refine ⟨_, settles_asks asks rfl (cntClearCmd_one asks.2.1 ok slot live), ?_, ?_, rfl, rfl⟩
    all_goals rw [Chip.settle_still _ ((quiet_finishCmd _ _ _ _ _ _ _).still ((quiet_clearCnt _ _ _ _).still still))]
    · exact finishCmd_lastReply _ _ _ _ _ _ _ x asks.1 (by decide)
    · exact managed_finishCmd _ _ _ _ _ _
  case counter =>
    exact ⟨count_clearCnt_self c k die i, sat_clearCnt c k die i, rfl, count_bump_cleared c k die i, count_bump_saturates c k die i,
      fun a other => count_clearCnt_ne c other⟩

end Sys2Proof.Machine
end

section
/-! SUPPORT. The interrupt controller's accesses (R470, R471, R472, R473, R484, R487) and the receive rings' configuration (R542):
which latch a core takes, and what a write of each register does. -/

namespace Sys2Proof.Machine

/-! ### The least of a list -/

theorem minBy_none {α : Type} {key : α → Nat} {l : List α} (h : minBy? key l = none) : l = [] := by
  cases l with
  | nil => rfl
  | cons x t =>
    unfold minBy? at h
    split at h
    · cases h
    · split at h <;> cases h

theorem minBy_some {α : Type} {key : α → Nat} {l : List α} {y : α} (h : minBy? key l = some y) : y ∈ l ∧ ∀ x ∈ l, key y ≤ key x := by
  induction l generalizing y with
  | nil => cases h
  | cons a t ih =>
    unfold minBy? at h
    split at h
    · next none =>
      cases h
      rw [minBy_none none]
      simp
    · next z least =>
      obtain ⟨mem, le⟩ := ih least
      split at h
      · next lt =>
        cases h
        exact ⟨List.mem_cons_of_mem _ mem, List.forall_mem_cons.mpr ⟨lt.le, le⟩⟩
      · next ge =>
        cases h
        exact ⟨List.mem_cons_self, List.forall_mem_cons.mpr ⟨le_rfl, fun x hx => (Nat.le_of_not_lt ge).trans (le x hx)⟩⟩

theorem kfind_of_mem {α : Type} {m : KMap α} {k : Nat} {v : α} (rising : Rising m) (h : (k, v) ∈ m) : kfind? m k = some v := by
  induction m with
  | nil => cases h
  | cons e t ih =>
    obtain ⟨first, rest⟩ := rising_cons.mp rising
    rcases List.mem_cons.mp h with here | later
    · subst here
      exact if_pos rfl
    · exact (if_neg (first _ later).ne).trans (ih rest later)

/-! ### The latch that a core takes (R471) -/

section
variable {c : Chip} {k : Nat}

/-- The core may take the source's latch: it is the latch's target, and the latch lies above its running priority. -/
def Chip.takes (c : Chip) (k src : Nat) (l : Latch) : Prop :=
  kfind? c.irq.latches src = some l ∧ l.core = some k ∧ ∀ r, (c.irqCore k).running = some r → r < c.prio src

/-- The sources among which a core finds its best latch. -/
def Chip.takeable (c : Chip) (k : Nat) : List Nat :=
  ((c.irq.latches.filter fun e => e.2.core == some k).map (·.1)).filter fun s =>
    match (c.irqCore k).running with
    | none => true
    | some r => decide (r < c.prio s)

theorem bestLatch_eq (c : Chip) (k : Nat) : c.bestLatch k = minBy? (fun s => (15 - c.prio s) * 4096 + s) (c.takeable k) := rfl

theorem mem_takeable (rising : Rising c.irq.latches) {src : Nat} : src ∈ c.takeable k ↔ ∃ l, c.takes k src l := by
  have above : (match (c.irqCore k).running with
      | none => true
      | some r => decide (r < c.prio src)) = true ↔ ∀ r, (c.irqCore k).running = some r → r < c.prio src := by
    cases (c.irqCore k).running <;> simp
  unfold Chip.takeable Chip.takes
  rw [List.mem_filter, above, List.mem_map]
  constructor
  · rintro ⟨⟨e, he, rfl⟩, hp⟩
    obtain ⟨mem, mine⟩ := List.mem_filter.mp he
    exact ⟨e.2, kfind_of_mem rising mem, beq_iff_eq.mp mine, hp⟩
  · rintro ⟨l, found, mine, hp⟩
    exact ⟨⟨(src, l), List.mem_filter.mpr ⟨kfind_mem found, beq_iff_eq.mpr mine⟩, rfl⟩, hp⟩

theorem prio_lt (c : Chip) (src : Nat) : c.prio src < 16 := fld_lt c .irqSrcCfg 12 [src] 15 12

/-- The best latch is the highest, lowest source first. -/
theorem bestLatch_highest (rising : Rising c.irq.latches) (sources : ∀ e ∈ c.irq.latches, e.1 < 2048) {src : Nat} {l : Latch}
    (takes : c.takes k src l) (highest : ∀ src' l', c.takes k src' l' → c.prio src' < c.prio src ∨ c.prio src' = c.prio src ∧ src ≤ src') :
    c.bestLatch k = some src := by
  have mine : src ∈ c.takeable k := (mem_takeable rising).mpr ⟨l, takes⟩
  rw [bestLatch_eq]
  cases best : minBy? (fun s => (15 - c.prio s) * 4096 + s) (c.takeable k) with
  | none => rw [minBy_none best] at mine; cases mine
  | some y =>
    obtain ⟨mem, least⟩ := minBy_some best
    obtain ⟨l', other⟩ := (mem_takeable rising).mp mem
    have key := least src mine
    have hy : y < 2048 := sources _ (kfind_mem other.1)
    have hs : src < 2048 := sources _ (kfind_mem takes.1)
    have py := prio_lt c y
    have ps := prio_lt c src
    have := highest y l' other
    congr 1
    omega

theorem bestLatch_none (rising : Rising c.irq.latches) (untaken : ∀ src l, ¬ c.takes k src l) : c.bestLatch k = none := by
  cases best : c.bestLatch k with
  | none => rfl
  | some y =>
    obtain ⟨l, takes⟩ := (mem_takeable rising).mp (minBy_some best).1
    exact absurd takes (untaken y l)

end

/-! ### Reads of IRQ_ACK and writes of IRQ_EOI -/

section
variable {c : Chip} {m : Master} {k : Nat}

theorem busLoad_irqAck (snaps : KMap Chip) (hm : m.code ≤ 8) (hk : k < 8) :
    c.busLoad snaps m ((Reg.irqAck).addr 12 [k]) = (c.irqAck k).2.busResp 0 (c.irqAck k).1 := by
  have slot := slotAt_irqAck k hk
  have path : c.dieCut ((Reg.irqAck).addr 12 [k] / 2 ^ 44) = false := by rw [slotAt_die slot]; rfl
  have mapped : slotAt ((Reg.irqAck).addr 12 [k]) ≠ .unmapped := by rw [slot]; exact Slot.noConfusion
  unfold Chip.busLoad Chip.busRead
  rw [if_neg fun h => by omega, ctlRead_ok hm (accStatus_read (addr_aligned _ _ _) mapped path) (by rw [slot]; rfl), slot]
  rfl

theorem regEffect_irqEoi (c : Chip) (w v : Nat) : c.regEffect .irqEoi 12 [k] w v true = c.irqEoi k := by
  unfold Chip.regEffect
  exact (if_neg (by decide)).trans rfl

theorem store_irqEoi (hm : m.code ≤ 8) (hk : k < 8) (v : Word) :
    c.busStore m ((Reg.irqEoi).addr 12 [k]) v = (c.irqEoi k).busResp 0 0 := by
  rw [store_plain12 c m v hm .irqEoi [k] 17 (0x30018 + (64 * k + 0)) (slotAt_irqEoi k hk) rfl (by omega) (by decide) (by omega)
    rfl rfl rfl rfl (by decide) (by decide), regEffect_irqEoi]

theorem irqAck_none (none : c.bestLatch k = none) : c.irqAck k = (0, c) := by
  unfold Chip.irqAck
  rw [none]

theorem irqAck_takes {src : Nat} {l : Latch} (best : c.bestLatch k = some src) (latch : kfind? c.irq.latches src = some l) :
    c.irqAck k = (ackWord (c.prio src) src l.part l.count,
      ((({ c with irq := { c.irq with latches := kdel c.irq.latches src } } : Chip).modIrqCore k fun q => { q with
        stack := q.running :: q.stack, running := some (c.prio src), lastAccept := some c.tick, info0 := l.info0, info1 := l.info1 }).bump
          .irqAccepted 12).resignal k) := by
  have found : kgetD c.irq.latches src {} = l := by
    unfold kgetD
    rw [latch]
    rfl
  unfold Chip.irqAck
  rw [best, ← found]
  rfl

theorem irqEoi_pops {r : Option Nat} {t : List (Option Nat)} (stack : (c.irqCore k).stack = r :: t) :
    c.irqEoi k = (c.modIrqCore k fun q => { q with running := r, stack := t }).resignal k := by
  unfold Chip.irqEoi
  rw [stack]

theorem irqEoi_empty (stack : (c.irqCore k).stack = []) :
    c.irqEoi k = (c.bump .irqEoiUnder 12).fwEvent Ev.eoiUnderflow none 0 0 := by
  unfold Chip.irqEoi
  rw [stack]

theorem holdOff_iff :
    c.holdOff k = true ↔ ∃ t, (c.irqCore k).running.isSome = true ∧ (c.irqCore k).lastAccept = some t ∧
      c.tick < t + c.fld .irqCoreCfg 12 [k] 15 0 := by
  unfold Chip.holdOff Chip.due Chip.tick
  cases (c.irqCore k).running <;> cases (c.irqCore k).lastAccept <;> simp

/-- The signal that the mask, the hold-off and the best latch give (R473). -/
theorem signal_eq {sig : Bool} (masked : bit (c.reg .irqCoreCfg 12 [k]) 30 = true → sig = false)
    (held : ∀ t, (c.irqCore k).running.isSome = true → (c.irqCore k).lastAccept = some t →
      c.tick < t + c.fld .irqCoreCfg 12 [k] 15 0 → sig = false)
    (free : bit (c.reg .irqCoreCfg 12 [k]) 30 = false →
      (∀ t, (c.irqCore k).running.isSome = true → (c.irqCore k).lastAccept = some t →
        t + c.fld .irqCoreCfg 12 [k] 15 0 ≤ c.tick) → sig = (c.bestLatch k).isSome) :
    (!bit (c.reg .irqCoreCfg 12 [k]) 30 && (c.bestLatch k).isSome && !c.holdOff k) = sig := by
  cases mask : bit (c.reg .irqCoreCfg 12 [k]) 30 with
  | true => exact (masked mask).symm
  | false =>
    cases off : c.holdOff k with
    | true =>
      obtain ⟨t, running, last, early⟩ := holdOff_iff.mp off
      rw [held t running last early]
      simp
    | false =>
      rw [free mask fun t running last => Nat.le_of_not_lt fun early => by
        rw [holdOff_iff.mpr ⟨t, running, last, early⟩] at off
        cases off]
      simp

theorem quiet_resignal (c : Chip) (k : Nat) : Quiet c (c.resignal k) := quiet_of _ _ rfl rfl rfl rfl id id

end

/-! ### Writes of IRQ_SW_SET, IRQ_CORE_CFG and IRQ_VEC_CFG -/

section
variable {c : Chip} {m : Master} {v : Word}

theorem regEffect_irqSwSet (c : Chip) (w : Nat) (hv : bit v.toNat 31 = true) :
    c.regEffect .irqSwSet 12 [] w v.toNat true =
      (c.setReg .irqSwSet 12 [] (putBits w 31 31 0)).fwEvent (Ev.sw (bits w 6 0)) none 0 0 := by
  unfold Chip.regEffect
  refine (if_neg (by decide)).trans ?_
  dsimp only
  rw [hv, Bool.true_and, if_pos rfl]

theorem store_irqSwSet (hm : m.code ≤ 8) (hv : bit v.toNat 31 = true) :
    c.busStore m ((Reg.irqSwSet).addr 12 []) v =
      ((c.setReg .irqSwSet 12 [] (putBits (c.written .irqSwSet 12 [] v) 31 31 0)).fwEvent
        (Ev.sw (bits (c.written .irqSwSet 12 [] v) 6 0)) none 0 0).busResp 0 0 := by
  rw [store_plain12 c m v hm .irqSwSet [] 17 0x8 slotAt_irqSwSet rfl (by decide) (by decide) (by decide) rfl rfl rfl rfl (by decide)
    (by decide), regEffect_irqSwSet c _ hv]

theorem fwEvent_off {src : Nat} {p : Option Nat} {a b : Nat} (off : c.enabled 17 12 = false) : c.fwEvent src p a b = c := by
  unfold Chip.fwEvent
  rw [off]
  rfl

theorem fwEvent_disabled {src : Nat} {p : Option Nat} {a b : Nat} (on : c.enabled 17 12 = true)
    (disabled : bit (c.reg .irqSrcCfg 12 [src]) 31 = false) : c.fwEvent src p a b = c.bump .irqDropped 12 := by
  unfold Chip.fwEvent
  rw [on, disabled]
  rfl

theorem fwEvent_latches {src : Nat} {p : Option Nat} {a b : Nat} (on : c.enabled 17 12 = true)
    (armed : bit (c.reg .irqSrcCfg 12 [src]) 31 = true) : c.fwEvent src p a b = c.latchEvent src p a b := by
  unfold Chip.fwEvent
  rw [on, armed]
  rfl

theorem latchEvent_coalesces {src : Nat} {l : Latch} {p : Option Nat} {a b : Nat} (set : kfind? c.irq.latches src = some l) :
    c.latchEvent src p a b =
      ({ c with irq := { c.irq with latches := kput c.irq.latches src { l with count := min 511 (l.count + 1) } } } : Chip).bump
        .irqCoalesced 12 := by
  unfold Chip.latchEvent
  rw [set]

theorem latchEvent_sets {src : Nat} {p : Option Nat} {a b : Nat} (clear : kfind? c.irq.latches src = none) :
    c.latchEvent src p a b =
      ({ c with irq := { c.irq with latches := kput c.irq.latches src { part := p, info0 := a, info1 := b } } } : Chip).routeLatch src := by
  unfold Chip.latchEvent
  rw [clear]

/-- Rerouting with no core lost routes the latches that have no target. -/
theorem reroute_of {l : List (Nat × Latch)} (waiting : c.irq.latches.filter (fun e => e.2.core.isNone) = l) :
    c.reroute [] = (kkeys l).foldl (fun c s => c.routeLatch s) c := by
  rw [← waiting]
  unfold Chip.reroute
  congr 2
  refine List.filter_congr fun e _ => ?_
  cases e.2.core <;> rfl

theorem regEffect_irqCoreCfg (c : Chip) (k w v : Nat) : c.regEffect .irqCoreCfg 12 [k] w v true = c.coreCfgWrite k w := by
  unfold Chip.regEffect
  exact (if_neg (by decide)).trans rfl

theorem store_irqCoreCfg {k : Nat} (hm : m.code ≤ 8) (hk : k < 8) :
    c.busStore m ((Reg.irqCoreCfg).addr 12 [k]) v = (c.coreCfgWrite k (c.written .irqCoreCfg 12 [k] v)).busResp 0 0 := by
  rw [store_plain12 c m v hm .irqCoreCfg [k] 17 (0x30000 + (64 * k + 0)) (slotAt_irqCoreCfg k hk) rfl (by omega) (by decide) (by omega)
    rfl rfl rfl rfl (by decide) (by decide), regEffect_irqCoreCfg]

theorem coreCfgWrite_plain {k w : Nat}
    (h : bit w 31 = false ∨ bit (c.reg .irqCoreCfg 12 [k]) 31 = true ∨ ∀ e ∈ c.irq.latches, e.2.core.isSome = true) :
    c.coreCfgWrite k w = (c.setReg .irqCoreCfg 12 [k] (putBits w 29 29 0)).resignal k := by
  unfold Chip.coreCfgWrite
  generalize putBits w 29 29 0 = stored
  rcases h with off | was | routed
  · simp [off]
  · simp [was]
  · have none : (c.setReg .irqCoreCfg 12 [k] stored).irq.latches.filter (fun e => e.2.core.isNone) = [] := by
      rw [setReg_irq, List.filter_eq_nil_iff]
      exact fun e he => by simpa [Option.isSome_iff_ne_none] using routed e he
    simp only [reroute_of none, kkeys, List.map_nil, List.foldl_nil, ite_self]

theorem coreCfgWrite_routes {k w src : Nat} {l : Latch} (on : bit w 31 = true) (was : bit (c.reg .irqCoreCfg 12 [k]) 31 = false)
    (one : c.irq.latches.filter (fun e => e.2.core.isNone) = [(src, l)]) :
    c.coreCfgWrite k w = ((c.setReg .irqCoreCfg 12 [k] (putBits w 29 29 0)).routeLatch src).resignal k := by
  unfold Chip.coreCfgWrite
  generalize putBits w 29 29 0 = stored
  have waiting : (c.setReg .irqCoreCfg 12 [k] stored).irq.latches.filter (fun e => e.2.core.isNone) = [(src, l)] := by
    rw [setReg_irq]
    exact one
  simp only [on, was, Bool.not_false, Bool.and_self, if_true, reroute_of waiting, kkeys, List.map_cons, List.map_nil, List.foldl_cons,
    List.foldl_nil]

theorem regEffect_irqVecCfg (c : Chip) (p i w v : Nat) : c.regEffect .irqVecCfg 12 [p, i] w v true = c.vecWrite p i w := by
  unfold Chip.regEffect
  exact (if_neg (by decide)).trans rfl

theorem store_irqVecCfg {p i : Nat} (hm : m.code ≤ 8) (hp : p < 64) (hi : i < 8) :
    c.busStore m ((Reg.irqVecCfg).addr 12 [p, i]) v = (c.vecWrite p i (c.written .irqVecCfg 12 [p, i] v)).busResp 0 0 := by
  rw [store_plain12 c m v hm .irqVecCfg [p, i] 17 (0x40000 + (256 * p + (32 * i + 0))) (slotAt_irqVecCfg p i hp hi) rfl (by omega) (by decide)
    (by omega) rfl rfl rfl rfl (by decide) (by decide), regEffect_irqVecCfg]

/-- What a vector's word must meet when it is armed (R487). -/
def Chip.vecOk (c : Chip) (p i w : Nat) : Prop :=
  bit w 31 = true → (c.reg .irqVecBase 12 [p, i, 0] + 2 ^ 32 * c.reg .irqVecBase 12 [p, i, 1]) % max 128 (32 * 2 ^ max 2 (bits w 27 24)) = 0 ∧
    (bit w 30 = false → ∃ a b, c.node (bits w 11 0) = .ports a b)

theorem vecWrite_iff {p i w : Nat} :
    (bit w 31 && ((c.reg .irqVecBase 12 [p, i, 0] + 2 ^ 32 * c.reg .irqVecBase 12 [p, i, 1]) % max 128 (32 * 2 ^ max 2 (bits w 27 24)) != 0 ||
      (!bit w 30 && !c.isPorts (bits w 11 0)))) = true ↔ ¬ c.vecOk p i w := by
  unfold Chip.vecOk
  rw [← isPorts_iff]
  cases bit w 31 <;> cases bit w 30 <;> cases c.isPorts (bits w 11 0) <;> simp

theorem vecWrite_takes {p i w : Nat} (ok : c.vecOk p i w) :
    c.vecWrite p i w = ({ c with irq := { c.irq with seq := kdel c.irq.seq (p * 8 + i) } } : Chip).setReg .irqVecCfg 12 [p, i] w :=
  if_neg fun bad => vecWrite_iff.mp bad ok

theorem vecWrite_ignored {p i w : Nat} (bad : ¬ c.vecOk p i w) : c.vecWrite p i w = c.ignored ((Reg.irqVecCfg).addr 12 [p, i]) :=
  if_pos (vecWrite_iff.mpr bad)

/-! ### Writes of MGT_RX_CFG (R542) -/

theorem regEffect_mgtRxCfg (c : Chip) (p w v : Nat) : c.regEffect .mgtRxCfg 12 [p] w v true = c.rxWrite p w := by
  unfold Chip.regEffect
  exact (if_neg (by decide)).trans rfl

theorem store_mgtRxCfg {p : Nat} (hm : m.code ≤ 8) (hp : p < 64) :
    c.busStore m ((Reg.mgtRxCfg).addr 12 [p]) v = (c.rxWrite p (c.written .mgtRxCfg 12 [p] v)).busResp 0 0 := by
  rw [store_plain12 c m v hm .mgtRxCfg [p] 19 (0x10000 + (16 * p + 0)) (slotAt_mgtRxCfg p hp) rfl (by omega) (by decide) (by omega)
    rfl rfl rfl rfl (by decide) (by decide), regEffect_mgtRxCfg]

theorem rxWrite_held {p w : Nat} (busy : ∃ j ∈ c.mgt.rings, j.part = p ∧ 1 ≤ j.phase) :
    c.rxWrite p w = { c with mgt := { c.mgt with heldRx := c.mgt.heldRx.filter (fun h => h.1 != p) ++ [(p, BitVec.ofNat 32 w)] } } := by
  obtain ⟨j, hj, part, phase⟩ := busy
  exact if_pos (List.any_eq_true.mpr ⟨j, hj, by simp [part, phase]⟩)

theorem rxWrite_takes {p w : Nat} (idle : ∀ j ∈ c.mgt.rings, j.part = p → j.phase = 0) :
    c.rxWrite p w = ({ c with mgt := { c.mgt with heldRx := c.mgt.heldRx.filter fun h => h.1 != p } } : Chip).setReg .mgtRxCfg 12 [p]
      (putBits (BitVec.ofNat 32 w).toNat 30 30 0) := by
  have free : ¬ (c.mgt.rings.any fun j => j.part == p && decide (1 ≤ j.phase)) = true := by
    rw [List.any_eq_true]
    rintro ⟨j, hj, h⟩
    have := idle j hj
    simp at h
    omega
  have mine : (c.mgt.heldRx.filter (fun h => h.1 != p) ++ [(p, BitVec.ofNat 32 w)]).filter (fun h => h.1 == p) = [(p, BitVec.ofNat 32 w)] := by
    simp [List.filter_append, List.filter_filter]
  have others : (c.mgt.heldRx.filter (fun h => h.1 != p) ++ [(p, BitVec.ofNat 32 w)]).filter (fun h => h.1 != p) =
      c.mgt.heldRx.filter fun h => h.1 != p := by
    simp [List.filter_append, List.filter_filter]
  unfold Chip.rxWrite Chip.releaseRx
  refine (if_neg free).trans ?_
  dsimp only
  rw [mine, others]
  rfl

end

/-- A store whose effect is a software event of `src` on `b` (R469, R484). -/
theorem softwareEvent {s : State} {m : Master} {v : Word} {i : Instr} {a src : Nat} {b : Chip} (still : s.chip.Still)
    (hi : exec i s = act s (s.chip.busStore m a v)) (stored : s.chip.busStore m a v = (b.fwEvent src none 0 0).busResp 0 0)
    (latches : b.irq.latches = s.chip.irq.latches) (quiet : Quiet s.chip b) :
    (b.enabled 17 12 = false → Becomes s i (b.busResp 0 0)) ∧
    (b.enabled 17 12 = true → bit (b.reg .irqSrcCfg 12 [src]) 31 = false → Becomes s i ((b.bump .irqDropped 12).busResp 0 0)) ∧
    (b.enabled 17 12 = true → bit (b.reg .irqSrcCfg 12 [src]) 31 = true →
      (∀ l, kfind? s.chip.irq.latches src = some l → Becomes s i
        ((({ b with irq := { b.irq with latches := kput b.irq.latches src { l with count := min 511 (l.count + 1) } } } : Chip).bump
          .irqCoalesced 12).busResp 0 0)) ∧
      (kfind? s.chip.irq.latches src = none → Becomes s i
        ((({ b with irq := { b.irq with latches := kput b.irq.latches src {} } } : Chip).routeLatch src).busResp 0 0))) := by
  rw [← latches]
  have settled : Quiet s.chip (b.fwEvent src none 0 0) := quiet.trans (raised_fwEvent _ _ _ _ _).quiet
  refine ⟨fun off => ?off, fun on disabled => ?dropped, fun on armed => ⟨fun l set => ?coalesced, fun clear => ?latched⟩⟩
  case off => exact becomes_store still hi stored (fwEvent_off off) settled
  case dropped => exact becomes_store still hi stored (fwEvent_disabled on disabled) settled
  case coalesced => exact becomes_store still hi stored ((fwEvent_latches on armed).trans (latchEvent_coalesces set)) settled
  case latched => exact becomes_store still hi stored ((fwEvent_latches on armed).trans (latchEvent_sets clear)) settled

theorem quiet_heldRx (c : Chip) (l : List (Nat × Word)) : Quiet c { c with mgt := { c.mgt with heldRx := l } } :=
  quiet_of _ _ rfl rfl rfl rfl id id

/-- Settles O22: the best latch is the highest takeable one, and a software event is an event of its source. -/
theorem interruptCoresAcceptAndEnd : Obligations.InterruptCoresAcceptAndEnd := by
  unfold Obligations.InterruptCoresAcceptAndEnd
  intro s m k still hm hk
  refine ⟨fun src l rising sources takes highest => ?takes, fun untaken rising => ?empty, fun v r t stack => ?pops,
    fun v stack => ?underflow, fun sig masked held free => ?signal, fun v hv => ?software⟩
  case takes =>
    have loaded := busLoad_irqAck (c := s.chip) s.snap hm hk
    rw [irqAck_takes (bestLatch_highest rising sources takes highest) takes.1] at loaded
    exact becomes s _ _ _ rfl loaded (quiet_of _ _ rfl rfl rfl rfl id id) still
  case empty =>
    have loaded := busLoad_irqAck (c := s.chip) s.snap hm hk
    rw [irqAck_none (bestLatch_none rising untaken)] at loaded
    exact becomes s _ _ _ rfl loaded (quiet_resp _ _ _) still
  case pops => exact becomes_store still rfl (store_irqEoi hm hk v) (irqEoi_pops stack) (irqEoi_pops stack ▸ quiet_of _ _ rfl rfl rfl rfl id id)
  case underflow =>
    exact becomes_store still rfl (store_irqEoi hm hk v) (irqEoi_empty stack)
      (irqEoi_empty stack ▸ (quiet_bump _ _ _ _ _).trans (raised_fwEvent _ _ _ _ _).quiet)
  case signal =>
    have signal : s.chip.modIntExpiry k = s.chip.modIrqCore k fun q => { q with signalled := sig } := by
      rw [← signal_eq masked held free]
      rfl
    exact becomes s _ _ _ rfl signal (quiet_of _ _ rfl rfl rfl rfl id id) still
  case software =>
    have software := softwareEvent (i := .irqSwSet m v) still rfl (store_irqSwSet hm hv) (congrArg Irq.latches (setReg_irq _ _ _ _ _))
      (quiet_setReg _ _ _ _ _)
    exact software

/-- Settles O25: the three registers' stores by what the word written and the state allow. -/
theorem notificationTablesAct : Obligations.NotificationTablesAct := by
  unfold Obligations.NotificationTablesAct
  intro s m v still hm
  refine ⟨fun k hk => ⟨fun plain => ?core, fun src l on was one => ?waiting⟩, fun p hp i hi => ⟨fun ok => ?vector, fun bad => ?refused⟩,
    fun p hp => ⟨fun idle => ?ring, fun busy => ?held⟩⟩
  case core =>
    have stored := store_irqCoreCfg (c := s.chip) (v := v) hm hk
    rw [coreCfgWrite_plain plain] at stored
    exact becomes_store still rfl stored rfl ((quiet_setReg _ _ _ _ _).trans (quiet_resignal _ _))
  case waiting =>
    have stored := store_irqCoreCfg (c := s.chip) (v := v) hm hk
    rw [coreCfgWrite_routes on was one] at stored
    exact becomes_store still rfl stored rfl
      (((quiet_setReg _ _ _ _ _).trans (raised_routeLatch _ _).quiet).trans (quiet_resignal _ _))
  case vector =>
    have stored := store_irqVecCfg (c := s.chip) (v := v) hm hp hi
    rw [vecWrite_takes ok] at stored
    exact becomes_store still rfl stored rfl ((raised_irq s.chip _).quiet.trans (quiet_setReg _ _ _ _ _))
  case refused =>
    have stored := store_irqVecCfg (c := s.chip) (v := v) hm hp hi
    rw [vecWrite_ignored bad] at stored
    exact becomes_store still rfl stored rfl (quiet_ignored _ _)
  case ring =>
    have stored := store_mgtRxCfg (c := s.chip) (v := v) hm hp
    rw [rxWrite_takes idle] at stored
    exact becomes_store still rfl stored rfl ((quiet_heldRx _ _).trans (quiet_setReg _ _ _ _ _))
  case held =>
    have stored := store_mgtRxCfg (c := s.chip) (v := v) hm hp
    rw [rxWrite_held busy] at stored
    exact becomes_store still rfl stored rfl (quiet_of _ _ rfl rfl rfl rfl id id)

end Sys2Proof.Machine
end

section
/-! SUPPORT. Power, RESET and the ways into ROMBOOT (R500, R501, R567, R568, R569), device commands (R505, R525), the watch of the
management complexes (R529, R552), the dump (R537, R540, R551) and the Ethernet port's own frames (R514, R515). -/

namespace Sys2Proof.Machine

/-! ### RESET -/

/-- Nothing is left over in RESET. -/
theorem still_inReset (c : Chip) (p : Pins) : (c.inReset p).Still :=
  (quiet_of Chip.reset (c.inReset p) rfl rfl rfl rfl id id).still (by decide)

theorem exec_toReset {s : State} {i : Instr} {d : Chip} {p : Pins} (hi : exec i s = actReset s d) (reset : d = s.chip.inReset p) :
    exec i s = .next { s with chip := s.chip.inReset p, snap := [] } := by
  rw [hi, reset, actReset_still _ _ (still_inReset _ _)]
  rfl

/-- Settles O8: each way into RESET leaves `inReset` of the module, with the pins it sets. -/
theorem resetsReturnEverything : Obligations.ResetsReturnEverything := by
  unfold Obligations.ResetsReturnEverything
  intro s
  refine ⟨fun on => ⟨?powerOk, ?resetN, ?request⟩, fun off => ?applied, ?removed, fun t asked due => ?delay⟩
  case powerOk => exact exec_toReset (d := s.chip.powerOkFall) rfl (if_pos on)
  case resetN => exact exec_toReset (d := s.chip.resetNFall) rfl (if_pos on)
  case request => exact exec_toReset (d := s.chip.smbusReset 0x2F 0x5A) rfl (if_pos ⟨rfl, rfl, on⟩)
  case applied => exact exec_toReset (d := s.chip.powerApplied) rfl (if_neg (by rw [off]; decide))
  case removed =>
    refine (actReset_still s s.chip.powerRemoved ?_).trans rfl
    exact (quiet_of (s.chip.inReset {}) s.chip.powerRemoved rfl rfl rfl rfl id id).still (still_inReset _ _)
  case delay =>
    have expires : s.chip.devResetExpiry = s.chip.toReset true := by
      unfold Chip.devResetExpiry
      rw [asked]
      exact if_pos (decide_eq_true due)
    exact exec_toReset (d := s.chip.devResetExpiry) rfl expires

/-! ### From RESET to ROMBOOT -/

section
variable {c : Chip}

theorem quiet_setPins (c : Chip) (p : Pins) : Quiet c (c.setPins p) := quiet_of _ _ rfl rfl rfl rfl id id

theorem quiet_romboot (c : Chip) : Quiet c c.romboot := quiet_of _ _ rfl rfl rfl rfl id id

theorem leaveReset_waits (h : ¬ (c.boot.state = .reset ∧ c.pins.powerOk = true ∧ c.pins.holdDone = true ∧ c.pins.resetN = true ∧
    c.pins.pulse = false)) : c.leaveReset = c := if_neg h

theorem leaveReset_boots (h : c.boot.state = .reset ∧ c.pins.powerOk = true ∧ c.pins.holdDone = true ∧ c.pins.resetN = true ∧
    c.pins.pulse = false) : c.leaveReset = c.romboot := if_pos h

theorem resetHoldEnd_eq (powered : c.pins.powered = true) (ok : c.pins.powerOk = true) (crystal : c.pins.crystal = true) :
    c.resetHoldEnd = (c.setPins { c.pins with holdDone := true }).leaveReset :=
  if_pos (by rw [powered, ok, crystal]; rfl)

end

theorem exec_inReset {s : State} {i : Instr} {d e : Chip} (still : s.chip.Still) (hi : exec i s = actReset s d) (h : d = e)
    (quiet : Quiet s.chip e) : exec i s = .next { s with chip := e, snap := if e.boot.state.code ≤ 1 then [] else s.snap } := by
  rw [hi, h, actReset_still _ _ (quiet.still still)]

/-- Settles O9: the pins each event sets, and ROMBOOT where they let the device leave RESET. -/
theorem powerUpReachesRomboot : Obligations.PowerUpReachesRomboot := by
  unfold Obligations.PowerUpReachesRomboot
  intro s still reset powered
  refine ⟨?rise, ?stopped, fun ok crystal low => ?hold, fun ok crystal high free => ?risen, fun ok done => ?edge⟩
  case rise =>
    refine (exec_inReset (d := s.chip.powerOkRise) still rfl (if_pos powered) (quiet_setPins _ _)).trans ?_
    simp only [Chip.setPins, reset]
    rfl
  case stopped => exact becomes s .crystalStopped _ s.chip.crystalStopped rfl rfl (quiet_setPins _ _) still
  case hold =>
    have held : s.chip.resetHoldEnd = s.chip.setPins { s.chip.pins with holdDone := true } :=
      (resetHoldEnd_eq powered ok crystal).trans (leaveReset_waits fun h => by
        have up : s.chip.pins.resetN = true := h.2.2.2.1
        rw [low] at up
        cases up)
    refine (exec_inReset still rfl held (quiet_setPins _ _)).trans ?_
    simp only [Chip.setPins, reset]
    rfl
  case risen =>
    have boots : s.chip.resetHoldEnd = (s.chip.setPins { s.chip.pins with holdDone := true }).romboot :=
      (resetHoldEnd_eq powered ok crystal).trans (leaveReset_boots ⟨reset, ok, rfl, high, free⟩)
    have quiet := (quiet_setPins s.chip { s.chip.pins with holdDone := true }).trans (quiet_romboot _)
    exact (exec_inReset still rfl boots quiet).trans rfl
  case edge =>
    have boots : s.chip.resetNRise = (s.chip.setPins { s.chip.pins with resetN := true, pulse := false }).romboot :=
      (if_pos powered).trans (leaveReset_boots ⟨reset, ok, done, rfl, rfl⟩)
    have quiet := (quiet_setPins s.chip { s.chip.pins with resetN := true, pulse := false }).trans (quiet_romboot _)
    exact (exec_inReset still rfl boots quiet).trans rfl

/-! ### Device commands (R505, R525) -/

section
variable {s : State} {i : Instr} {sess reqId opc : Nat} {want : Bytes} {f : Chip → Session → CmdRes} {x : Session} {b c : Chip}
  (asks : s.chip.Asks sess reqId opc x) (hi : exec i s = act s (s.chip.command sess reqId opc want f)) (still : s.chip.Still)
include asks hi still

/-- A command with the effect `b`, which keeps the sessions, and an event to firmware. -/
theorem command_changes {st : Nat} {body : Bytes} (hf : f s.chip x = .done c st 0 body) (hst : st ≠ 1) (quiet : Quiet s.chip b)
    (session : b.session? sess = s.chip.session? sess) (raised : Raised b c) :
    CompletesWith s i sess reqId opc st body fun t => b.raising t := by
  have kept : c.session? sess = some x := by
    rw [show c = _ from raised]
    exact session.trans asks.1
  have irq : (c.finishCmd sess reqId opc st 0 body).irq = c.irq := by
    rw [show _ = _ from answered_finishCmd c sess reqId opc st 0 body]
    rfl
  exact command_completes s i sess reqId opc want f x asks hi c st body hf (raised.still (quiet.still still)) x kept hst _
    (raised.answering irq)

end

/-- Every KIND lives in SERVICE and in DEGRADED (R520). -/
theorem kindState_service (k : Nat) : kindState k .service = true ∧ kindState k .degraded = true := by
  unfold kindState
  by_cases h : k = 0 <;> simp [h]

/-- The module in another device state, entered now. -/
def Chip.inState (c : Chip) (st : DevState) : Chip :=
  { c with boot := { c.boot with state := st, times := kput c.boot.times st.code c.boot.tick } }

theorem quiet_inState (c : Chip) (st : DevState) : Quiet c (c.inState st) := quiet_of _ _ rfl rfl rfl rfl id id

theorem raised_devTo_inState {c : Chip} {st : DevState} (code : 3 ≤ st.code) (other : c.boot.state ≠ .test)
    (sessions : ∀ y ∈ c.mgt.sessions, kindState y.kind st = true) (handshakes : ∀ y ∈ c.mgt.handshakes, kindState y.kind st = true) :
    Raised (c.inState st) (c.devTo st) := by
  have raised := raised_devTo c st other sessions handshakes
  rwa [if_pos code] at raised

/-- Settles O14: each command by its meaning; DEV_START and DEV_TEST also by the change of the device state. -/
theorem deviceCommandsComplete : Obligations.DeviceCommandsComplete := by
  unfold Obligations.DeviceCommandsComplete
  intro s sess reqId x still
  refine ⟨fun asks => ?nop, fun asks => ?info, fun asks waits => ?start, fun asks waits allowed kinds handshakes => ?test, fun asks => ?reset⟩
  case nop => exact command_answers asks rfl still rfl (by decide)
  case info => exact command_answers asks rfl still rfl (by decide)
  case start =>
    have other : s.chip.boot.state ≠ .test := by rw [waits]; decide
    have starts : s.chip.devStart = .done (s.chip.devTo (if s.chip.boot.target = 2 then .degraded else .service)) 0 0 [] := if_pos waits
    by_cases degraded : s.chip.boot.target = 2
    · rw [if_pos degraded] at starts ⊢
      exact command_changes asks rfl still starts (by decide) (quiet_inState _ _) rfl
        (raised_devTo_inState (by decide) other (fun _ _ => (kindState_service _).2) fun _ _ => (kindState_service _).2)
    · rw [if_neg degraded] at starts ⊢
      exact command_changes asks rfl still starts (by decide) (quiet_inState _ _) rfl
        (raised_devTo_inState (by decide) other (fun _ _ => (kindState_service _).1) fun _ _ => (kindState_service _).1)
  case test =>
    have other : s.chip.boot.state ≠ .test := by rw [waits]; decide
    have tests : s.chip.devTest = .done (s.chip.devTo .test) 0 0 [] := if_pos ⟨waits, allowed⟩
    exact command_changes asks rfl still tests (by decide) (quiet_inState _ _) rfl
      (raised_devTo_inState (by decide) other (fun y hy => by rw [kinds y hy]; rfl) fun y hy => by rw [handshakes y hy]; rfl)
  case reset =>
    exact command_effects (c := { s.chip with boot := { s.chip.boot with devResetAt := some s.chip.boot.tick } }) asks rfl still rfl
      (by decide) (quiet_of _ _ rfl rfl rfl rfl id id) rfl fun _ => rfl

/-! ### Heartbeats and the steward (R529, R552) -/

section
variable {c : Chip}

theorem quiet_mcs (c : Chip) (m : Mcs) : Quiet c { c with mcs := m } := quiet_of _ _ rfl rfl rfl rfl id id

theorem stewardPulse_runs {b : Bool} (watches : c.stewardWatches = true) (runs : c.mcRuns b = true) :
    c.stewardPulse b = { c with mcs := if b then { c.mcs with pulseB := c.tick } else { c.mcs with pulseA := c.tick } } := by
  unfold Chip.stewardPulse
  rw [watches, runs]
  rfl

theorem complexLost_A (watches : c.stewardWatches = true) (runs : c.mcs.lostA = false) (silent : c.mcs.pulseA + 1000 ≤ c.boot.tick)
    (none : c.mcs.stewardAt = none) :
    c.stewardComplexLost false =
      { c with mcs := { c.mcs with lostA := true, stewardAt := if c.mcs.lostB then some c.boot.tick else .none } } := by
  unfold Chip.stewardComplexLost Chip.countLost Chip.due
  simp only [watches, runs, silent, none, Bool.false_eq_true, if_false, decide_true, Bool.true_or, Bool.not_false, Bool.and_self, if_true,
    Option.isNone_none, Bool.and_true, Bool.true_and]
  rfl

theorem complexLost_B (watches : c.stewardWatches = true) (runs : c.mcs.lostB = false) (silent : c.mcs.pulseB + 1000 ≤ c.boot.tick)
    (none : c.mcs.stewardAt = none) :
    c.stewardComplexLost true =
      { c with mcs := { c.mcs with lostB := true, stewardAt := if c.mcs.lostA then some c.boot.tick else .none } } := by
  unfold Chip.stewardComplexLost Chip.countLost Chip.due
  simp only [watches, runs, silent, none, if_true, decide_true, Bool.true_or, Bool.not_false, Bool.and_self,
    Option.isNone_none, Bool.and_true]
  rfl

end

/-- Settles O15: each of the watch's commands changes the complexes' record alone; a lost standby is also an event. -/
theorem complexesWatchEachOther : Obligations.ComplexesWatchEachOther := by
  unfold Obligations.ComplexesWatchEachOther
  intro s still
  have watch : ∀ {i : Instr} {d : Chip} {m : Mcs}, exec i s = act s d → d = { s.chip with mcs := m } →
      exec i s = .next { s with chip := { s.chip with mcs := m } } :=
    fun hi h => becomes s _ _ _ hi h (quiet_mcs _ _) still
  refine ⟨fun runs due => ?beat, fun watches => ⟨fun runs => ?pulseA, fun runs => ?pulseB, fun runs silent none => ?lostA,
    fun runs silent none => ?lostB⟩, fun standby runs => ?standby⟩
  case beat => exact watch (d := s.chip.heartbeatSend) rfl (if_pos (by rw [runs, Chip.due, decide_eq_true due]; rfl))
  case pulseA => exact watch rfl (stewardPulse_runs watches runs)
  case pulseB => exact watch rfl (stewardPulse_runs watches runs)
  case lostA => exact watch rfl (complexLost_A watches runs silent none)
  case lostB => exact watch rfl (complexLost_B watches runs silent none)
  case standby =>
    have lost : s.chip.heartbeatLost = ({ s.chip with mcs := { s.chip.mcs with standbyOk := false } } : Chip).raise Ev.heartbeatLost [] :=
      if_pos (by rw [standby, runs]; rfl)
    exact raisesTo s .heartbeatLost _ s.chip.heartbeatLost rfl (lost ▸ raised_raise _ _ _ _ _) ((quiet_mcs _ _).still still)

/-! ### The dump (R537, R540, R551) -/

section
variable {c : Chip}

theorem worked_wrCopy (c : Chip) (p : Nat) (b : Bytes) : Worked c (if c.copyGood p then c.wrPool p b else c) := by
  split
  · exact worked_wrPool _ _ _
  · exact .rfl' c

theorem worked_writeDump (c : Chip) (b : Bytes) : Worked c (c.writeDump b) := by
  unfold Chip.writeDump
  exact Worked.foldl _ (fun c e => (worked_wrCopy c _ _).trans (worked_wrCopy _ _ _)) _ _

theorem worked_dumpGranules (n g : Nat) : Worked c (c.dumpGranules n g).2 := by
  induction n generalizing c g with
  | zero => exact .rfl' c
  | succ n ih =>
    have first : Worked c (c.dumpGranule g).2 := by
      unfold Chip.dumpGranule
      dsimp only
      split
      · exact .rfl' c
      · split
        · exact worked_bump _ _ _ _ _
        · exact .rfl' c
    unfold Chip.dumpGranules
    split
    · next _ one => rw [one] at first; exact first
    · next _ _ one => rw [one] at first; exact first.trans (ih _)

theorem worked_readDump (c : Chip) (off len : Nat) : Worked c (c.readDump off len).2 := worked_dumpGranules _ _

theorem quiet_dump (c : Chip) (d : Dump) : Quiet c { c with dump := d } := quiet_of _ _ rfl rfl rfl rfl id id

theorem quiet_setDump (c : Chip) (kind step : Nat) (b : Bytes) : Quiet c (c.setDump kind step b) :=
  (worked_writeDump c b).quiet.trans (quiet_dump _ _)

theorem anyWork_idle (idle : c.Idle) : c.anyWork = false := by
  unfold Chip.anyWork
  rw [List.any_eq_false]
  intro p _
  obtain ⟨requests, others, -⟩ := idle_work c idle p
  rw [requests, others]
  decide

theorem dumpKept_iff : c.dumpKept = true ↔ c.dump.valid = true ∧ c.dump.released = false := by
  unfold Chip.dumpKept
  cases c.dump.valid <;> cases c.dump.released <;> simp

theorem recoveryDrainEnd_idle (recovery : c.boot.state = .recovery) (idle : c.Idle) (step : c.dump.step = 2) :
    c.recoveryDrainEnd = { c with
      dump := if c.dump.valid = true ∧ c.dump.released = false then { c.dump with step := 5 }
        else { c.dump with step := 4, writing := true, valid := false, released := false } } := by
  unfold Chip.recoveryDrainEnd
  refine (if_pos ⟨recovery, step, .inl (anyWork_idle idle)⟩).trans ?_
  dsimp only
  rw [endWorks_idle c idle]
  simp only [dumpKept_iff]

theorem dumpHeld_of (valid : c.dump.valid = true) (still : c.dump.writing = false) : c.dumpHeld = true := by
  unfold Chip.dumpHeld
  rw [valid, still]
  rfl

theorem dumpHeld_invalid (invalid : c.dump.valid = false) : c.dumpHeld = false := by
  unfold Chip.dumpHeld
  rw [invalid]
  rfl

theorem dumpInfo_held (held : c.dumpHeld = true) {b : Bytes} {d : Chip} (read : c.readDump 0 4096 = (some b, d)) :
    c.dumpInfo = .done d 0 0 b := by
  unfold Chip.dumpInfo
  rw [if_pos held, read]

theorem dumpRead_held (held : c.dumpHeld = true) {off len : Nat} (h1 : 0 < len) (h2 : len ≤ 8192) (inside : off + len ≤ c.dump.len) {b : Bytes}
    {d : Chip} (read : c.readDump off len = (some b, d)) : c.dumpRead off len = .done d 0 0 b := by
  unfold Chip.dumpRead
  rw [held, if_neg (by decide), if_neg (by omega), if_neg (by omega), read]

theorem dumpRead_beyond (held : c.dumpHeld = true) {off len : Nat} (h1 : 0 < len) (h2 : len ≤ 8192) (beyond : c.dump.len < off + len) :
    c.dumpRead off len = .done c 5 0 [] := by
  unfold Chip.dumpRead
  rw [held, if_neg (by decide), if_neg (by omega), if_pos beyond]

theorem dumpRead_malformed (held : c.dumpHeld = true) {off len : Nat} (bad : len = 0 ∨ 8192 < len) : c.dumpRead off len = .done c 4 0 [] := by
  unfold Chip.dumpRead
  rw [held, if_neg (by decide), if_pos bad]

end

/-- Settles O17: with nothing in progress the drain's end changes the dump's record alone; the dump's end is `setDump` and its event. -/
theorem recoveryWritesTheDump : Obligations.RecoveryWritesTheDump := by
  unfold Obligations.RecoveryWritesTheDump
  intro s recovery
  refine ⟨fun idle step => ?drained, fun still step writing runs trace => ?written⟩
  case drained =>
    exact becomes s .recoveryDrainEnd _ s.chip.recoveryDrainEnd rfl (recoveryDrainEnd_idle recovery idle step) (quiet_dump _ _) idle.1
  case written =>
    intro b
    have done : s.chip.dumpDone s.snap trace = (s.chip.setDump 1 5 b).raise Ev.dumpDone [] := if_pos ⟨recovery, step, writing, runs⟩
    exact raisesTo s (.dumpDone trace) _ (s.chip.dumpDone s.snap trace) rfl (done ▸ raised_raise (s.chip.setDump 1 5 b) _ _ _ _)
      ((quiet_setDump _ _ _ _).still still)

/-- Settles O18: each command by the case of its meaning; a read of the dump changes counters of the mirror's copies at most. -/
theorem dumpCommandsComplete : Obligations.DumpCommandsComplete := by
  unfold Obligations.DumpCommandsComplete
  intro s sess reqId x still
  have reads : ∀ {off len : Nat} {b : Bytes} {c : Chip}, s.chip.readDump off len = (some b, c) → Worked s.chip c := by
    intro off len b c read
    have worked := worked_readDump s.chip off len
    rwa [read] at worked
  refine ⟨fun valid finished => ?held, fun invalid => ⟨fun asks => ?noInfo, fun asks => ?noRelease⟩⟩
  case held =>
    have held := dumpHeld_of valid finished
    refine ⟨fun asks b c read => ?info, fun asks off len b h1 h2 inside c read => ?read, fun asks off len h1 h2 beyond => ?beyond,
      fun asks off len bad => ?length, fun asks => ?release⟩
    case info => exact command_works asks rfl still (dumpInfo_held held read) (by decide) (reads read)
    case read => exact command_works asks rfl still (dumpRead_held held h1 h2 inside read) (by decide) (reads read)
    case beyond => exact command_answers asks rfl still (dumpRead_beyond held h1 h2 beyond) (by decide)
    case length => exact command_answers asks rfl still (dumpRead_malformed held bad) (by decide)
    case release =>
      exact command_effects (c := { s.chip with dump := { s.chip.dump with released := true } }) asks rfl still (if_pos held) (by decide)
        (quiet_dump _ _) rfl fun _ => rfl
  case noInfo => exact command_answers asks rfl still (if_neg (by rw [dumpHeld_invalid invalid]; decide)) (by decide)
  case noRelease => exact command_answers asks rfl still (if_neg (by rw [dumpHeld_invalid invalid]; decide)) (by decide)

/-! ### The Ethernet port's own frames (R514, R515) -/

section
variable {c : Chip} {o : EthOut} {ok : Bool}

theorem ethUp_of (on : c.ethOn = true) : c.boot.ethUp = true := (Bool.and_eq_true_iff.mp on).1

theorem ethAnswer_on (on : c.ethOn = true) :
    c.ethAnswer ok o =
      if ok = true then { c with mgt := { c.mgt with ethTx := c.mgt.ethTx ++ [c.ethFrame o] } } else c.bump .mgtEthDrop 12 := by
  unfold Chip.ethAnswer Chip.ethSend
  rw [on, if_neg (by decide), ethUp_of on]
  rfl

theorem quiet_ethAnswer (c : Chip) (ok : Bool) (o : EthOut) : Quiet c (c.ethAnswer ok o) := by
  unfold Chip.ethAnswer
  split
  · exact .rfl' c
  · split
    · exact quiet_ethSend _ _
    · exact quiet_bump _ _ _ _ _

end

/-- A command that answers a frame when the port's address and VLAN are meant. -/
theorem exec_ethAnswer {s : State} {i : Instr} {ok : Bool} {p : Prop} [Decidable p] {o : EthOut} (still : s.chip.Still)
    (on : s.chip.ethOn = true) (hi : exec i s = act s (s.chip.ethAnswer ok o)) (means : ok = true ↔ p) :
    exec i s = .next (if p then { s with chip := { s.chip with mgt := { s.chip.mgt with ethTx := s.chip.mgt.ethTx ++ [s.chip.ethFrame o] } } }
      else { s with chip := s.chip.bump .mgtEthDrop 12 }) := by
  rw [hi, act_quiet s _ (quiet_ethAnswer _ _ _) still, ethAnswer_on on]
  by_cases h : p
  · rw [if_pos h, if_pos (means.mpr h)]
  · rw [if_neg h, if_neg fun x => h (means.mp x)]

/-- An echo request that fits is answered like any other frame. -/
theorem icmpEcho_fits {c : Chip} {tag : Option Nat} {v6 : Bool} {dst src : Nat} {echo : Bytes} (fits : echo.length ≤ c.maxRecBody v6 + 24) :
    c.icmpEcho tag v6 dst src echo =
      c.ethAnswer (c.vlanOk tag && if v6 then bit (c.net 6 1) 1 && dst == c.net 0x14 16 else bit (c.net 6 1) 0 && dst == c.net 0x10 4)
        (.echo v6 src echo) := by
  unfold Chip.icmpEcho
  refine if_neg ?_
  rw [decide_eq_false (Nat.not_lt.mpr fits), Bool.and_false]
  decide

/-- Settles O20: each frame is one that the port answers, or drops and counts. -/
theorem ethernetPortAnswersItself : Obligations.EthernetPortAnswersItself := by
  unfold Obligations.EthernetPortAnswersItself
  intro s still on tag drop sends head4 head6
  refine ⟨?pause, ?discard, fun ip mac sip => ?arp, fun ip mac sip => ?neighbor, fun dst src echo fits => ?echo4, fun dst src echo fits => ?echo6⟩
  case pause => exact becomes s .pauseFrame _ s.chip.pauseFrame rfl (if_pos on) (quiet_bump _ _ _ _ _) still
  case discard => exact becomes s .ethFrameDiscard _ s.chip.ethDiscard rfl (if_pos on) (quiet_bump _ _ _ _ _) still
  case arp =>
    exact exec_ethAnswer still on rfl (by rw [Bool.and_eq_true_iff, Bool.and_eq_true_iff, beq_iff_eq, and_assoc])
  case neighbor =>
    exact exec_ethAnswer still on rfl (by rw [Bool.and_eq_true_iff, Bool.and_eq_true_iff, beq_iff_eq, and_assoc])
  case echo4 =>
    have hi : exec (.icmpEcho tag false dst src echo) s = act s (s.chip.icmpEcho tag false dst src echo) := rfl
    rw [icmpEcho_fits fits] at hi
    exact exec_ethAnswer still on hi (by simp)
  case echo6 =>
    have hi : exec (.icmpEcho tag true dst src echo) s = act s (s.chip.icmpEcho tag true dst src echo) := rfl
    rw [icmpEcho_fits fits] at hi
    exact exec_ethAnswer still on hi (by simp)

end Sys2Proof.Machine
end

section
/-! SUPPORT. The partition commands (R458, R459, R460, R461, R462, R466): each case of their meanings, and what their answers leave. -/

namespace Sys2Proof.Machine

/-- An answer after an event to firmware and partitions changes no more of the module than the event and the answer do. -/
theorem Noted.answering {c d e : Chip} (h : Noted c d) (irq : e.irq = d.irq) : (c.noting e).answering e = d.answering e := by
  rw [h.eq]
  unfold Chip.answering Chip.noting
  rw [irq]

section
variable {s : State} {i : Instr} {sess reqId opc : Nat} {want : Bytes} {f : Chip → Session → CmdRes} {x : Session} {b c : Chip}
  (asks : s.chip.Asks sess reqId opc x) (hi : exec i s = act s (s.chip.command sess reqId opc want f)) (still : s.chip.Still)
include asks hi still

/-- A command with the effect `b`, which keeps the sessions, and an event to firmware and partitions. -/
theorem command_notes {st : Nat} {body : Bytes} (hf : f s.chip x = .done c st 0 body) (hst : st ≠ 1) (quiet : Quiet s.chip b)
    (session : b.session? sess = s.chip.session? sess) (noted : Noted b c) :
    CompletesWith s i sess reqId opc st body fun t => b.noting t := by
  obtain ⟨n, kept⟩ := noted.sess sess x (session.trans asks.1)
  have irq : (c.finishCmd sess reqId opc st 0 body).irq = c.irq := by
    rw [show _ = _ from answered_finishCmd c sess reqId opc st 0 body]
    rfl
  exact command_completes s i sess reqId opc want f x asks hi c st body hf (noted.still (quiet.still still)) _ kept hst _
    (noted.answering irq)

end

section
variable {c : Chip} {p n : Nat}

theorem partCreate_creates (on : c.prtOn = true) (hp : p < 64) (hn : n < 4096) (free : (c.partOf p).st = .free) (none : c.node n = .none)
    (first : c.localNode p = .none) :
    c.partCreate p n = .ok (((c.setReg .gtxNode 12 [n] (2 ^ 30 + p * 2 ^ 24)).freshTags p).setPart p { st := .building, node := n }) := by
  unfold Chip.partCreate
  rw [if_neg (by omega), if_neg (by simp [on, free, none, first])]

theorem partCreate_refused (hp : p < 64) (hn : n < 4096) (taken : (c.partOf p).st ≠ .free ∨ c.node n ≠ .none ∨ c.localNode p ≠ .none) :
    c.partCreate p n = .error 2 := by
  have some : (c.localNode p).isSome = true ↔ c.localNode p ≠ .none := Option.isSome_iff_ne_none
  unfold Chip.partCreate
  rw [if_neg (by omega), if_pos]
  simp only [Bool.or_eq_true, bne_iff_ne, some]
  tauto

theorem quiet_partCreate (c : Chip) (p n w : Nat) (v : Part) : Quiet c (((c.setReg .gtxNode 12 [n] w).freshTags p).setPart p v) :=
  (quiet_setReg c .gtxNode 12 [n] w).trans (quiet_of _ _ rfl rfl rfl rfl id id)

theorem session_partCreate (c : Chip) (p n w : Nat) (v : Part) (sess : Nat) :
    (((c.setReg .gtxNode 12 [n] w).freshTags p).setPart p v).session? sess = c.session? sess := by
  have mgt : (((c.setReg .gtxNode 12 [n] w).freshTags p).setPart p v).mgt = (c.setReg .gtxNode 12 [n] w).mgt := rfl
  unfold Chip.session?
  rw [mgt, Chip.setReg_mgt]

theorem partActivate_activates (on : c.prtOn = true) (hp : p < 64) (building : (c.partOf p).st = .building)
    (shares : ∀ d ∈ [8, 9, 10, 11], c.fld .swcPartShare d [p] 31 16 ≠ 0) (vector : ∃ v < 8, bit (c.reg .irqVecCfg 12 [p, v]) 31 = true) :
    c.partActivate p = .ok (((c.setPart p { c.partOf p with st := .active }).seedLfsr p).raise Ev.partActive [p]) := by
  have share : ([8, 9, 10, 11].all fun d => c.fld .swcPartShare d [p] 31 16 != 0) = true :=
    List.all_eq_true.mpr fun d hd => bne_iff_ne.mpr (shares d hd)
  have vec : ((List.range 8).any fun v => bit (c.reg .irqVecCfg 12 [p, v]) 31) = true := by
    obtain ⟨v, hv, armed⟩ := vector
    exact List.any_eq_true.mpr ⟨v, List.mem_range.mpr hv, armed⟩
  unfold Chip.partActivate
  simp only [share, vec]
  rw [if_neg (by omega), if_neg (by simp [on, building])]

theorem partActivate_refused (hp : p < 64) (other : (c.partOf p).st ≠ .building) : c.partActivate p = .error 2 := by
  unfold Chip.partActivate
  rw [if_neg (by omega)]
  exact if_pos (by simp [other])

theorem partReset_starts (on : c.prtOn = true) (hp : p < 64) (live : (c.partOf p).st = .building ∨ (c.partOf p).st = .active) :
    c.partReset p = (.ok (c.startReset p false), c) := by
  unfold Chip.partReset
  dsimp only
  rw [if_neg (by omega)]
  rcases live with h | h <;> simp [on, h]

theorem partReset_refused (on : c.prtOn = true) (hp : p < 64) (busy : (c.partOf p).st = .draining ∨ (c.partOf p).st = .resetting) :
    c.partReset p = (.error 2, c.bump .prtResetRefused 12 [p]) := by
  unfold Chip.partReset
  dsimp only
  rw [if_neg (by omega)]
  rcases busy with h | h <;> simp [on, h]

theorem partDelete_live (on : c.prtOn = true) (hp : p < 64) (live : (c.partOf p).st = .building ∨ (c.partOf p).st = .active) :
    c.partDelete p = if c.ownsAny p = true then (.error 2, c) else (.ok (c.startReset p true), c) := by
  unfold Chip.partDelete
  dsimp only
  rw [if_neg (by omega)]
  rcases live with h | h <;> simp [on, h]

theorem startReset_idle (idle : c.Idle) (del : Bool) :
    c.startReset p del = c.setPart p { c.partOf p with
      st := .draining, step := 2, deleting := del, from_ := (c.partOf p).st, drainAt := c.boot.tick, timedOut := false, toRevoke := []
      toStart := [] } := by
  obtain ⟨-, launches, -, checks, -, -, -, -, -, -, -, -, -, -, -, -, -, held⟩ := idle
  unfold Chip.startReset
  dsimp only
  rw [Chip.setPart_dsp, checks, List.filter_nil, List.foldl_nil, bowlRelease_nil _ (by rw [Chip.setPart_cores, held]),
    noteWaits_nil _ (by rw [Chip.setPart_dsp, launches])]
  rfl

theorem quiet_setPart (c : Chip) (p : Nat) (v : Part) : Quiet c (c.setPart p v) := quiet_of _ _ rfl rfl rfl rfl id id

theorem quiet_activated (c : Chip) (p : Nat) (v : Part) : Quiet c ((c.setPart p v).seedLfsr p) := quiet_of _ _ rfl rfl rfl rfl id id

end

/-- Settles O34: each command by the branch of its meaning that the partition's state selects. -/
theorem partitionCommandsComplete : Obligations.PartitionCommandsComplete := by
  unfold Obligations.PartitionCommandsComplete
  intro s sess reqId p x still on hp
  refine ⟨fun asks n hn => ⟨fun free none first => ?create, fun taken => ?taken⟩, fun asks building rings shares vector => ?activate,
    fun asks other => ?inactive, fun live => ⟨fun asks => ?reset, fun asks owns => ?delete⟩,
    fun live idle => ⟨fun asks => ?resetIdle, fun asks owns => ?deleteIdle, fun asks owns => ?owner⟩, fun busy asks => ?busy⟩
  case create =>
    have creates := congrArg (fun r => partCmd (r, s.chip)) (partCreate_creates on hp hn free none first)
    exact command_effects asks rfl still creates (by decide) (quiet_partCreate _ _ _ _ _) (session_partCreate _ _ _ _ _ _) fun _ => rfl
  case taken =>
    have refuses : partCmd (s.chip.partCreate p n, s.chip) = .done s.chip 2 0 [] := by rw [partCreate_refused hp hn taken]; rfl
    exact command_answers asks rfl still refuses (by decide)
  case activate =>
    have activates := congrArg (fun r => partCmd (r, s.chip)) (partActivate_activates on hp building shares vector)
    have noted : Noted ((s.chip.setPart p { s.chip.partOf p with st := .active }).seedLfsr p) _ :=
      noted_raise _ Ev.partActive [p] 0 0 [] (by simpa using hp) rings
    exact command_notes asks rfl still activates (by decide) (quiet_activated _ _ _) rfl noted
  case inactive =>
    have refuses : partCmd (s.chip.partActivate p, s.chip) = .done s.chip 2 0 [] := by rw [partActivate_refused hp other]; rfl
    exact command_answers asks rfl still refuses (by decide)
  case reset =>
    have starts : partCmd (s.chip.partReset p) = .done (s.chip.startReset p false) 0 0 [] := by rw [partReset_starts on hp live]; rfl
    exact settles_asks asks rfl starts
  case delete =>
    have starts : partCmd (s.chip.partDelete p) = .done (s.chip.startReset p true) 0 0 [] := by
      rw [partDelete_live on hp live, owns]
      rfl
    exact settles_asks asks rfl starts
  case resetIdle =>
    have starts := congrArg partCmd (partReset_starts on hp live)
    rw [startReset_idle idle] at starts
    exact command_effects asks rfl still starts (by decide) (quiet_setPart _ _ _) rfl fun _ => rfl
  case deleteIdle =>
    have starts := congrArg partCmd (partDelete_live on hp live)
    rw [owns, if_neg (by decide), startReset_idle idle] at starts
    exact command_effects asks rfl still starts (by decide) (quiet_setPart _ _ _) rfl fun _ => rfl
  case owner =>
    have refuses : partCmd (s.chip.partDelete p) = .done s.chip 2 0 [] := by rw [partDelete_live on hp live, owns]; rfl
    exact command_answers asks rfl still refuses (by decide)
  case busy =>
    have refuses : partCmd (s.chip.partReset p) = .done (s.chip.bump .prtResetRefused 12 [p]) 2 0 [] := by
      rw [partReset_refused on hp busy]
      rfl
    exact command_effects asks rfl still refuses (by decide) (quiet_bump _ _ _ _ _) rfl fun _ => rfl

end Sys2Proof.Machine
end

section
/-! SUPPORT. Records, handshakes and sessions (R517 to R523, R534): what leaves nothing over, and each case of a record's
meaning. -/

namespace Sys2Proof.Machine

/-! ### Ends of sessions and handshakes leave nothing over -/

theorem quiet_peerEnded (c : Chip) (i : Nat) : Quiet c (c.peerEnded i) := by
  unfold Chip.peerEnded
  refine Quiet.foldl _ (fun c h => ?_) _ _
  split
  · exact quiet_handoffDoubt _ _
  · split
    · exact quiet_handoffDiscard _ _
    · exact .rfl' c

theorem quiet_nonces (c : Chip) (v : Sec) : Quiet c { c with sec := v } := quiet_of _ _ rfl rfl rfl rfl id id

theorem quiet_endSession (c : Chip) (id : Nat) : Quiet c (c.endSession id) := by
  unfold Chip.endSession
  split
  · exact .rfl' c
  · have ends := (quiet_setSessions c fun x => x.id != id).trans (quiet_raise _ Ev.sessionEnd 0 0 [])
    dsimp only
    split
    · exact ends.trans (quiet_nonces _ _)
    · split
      · exact (ends.trans (quiet_setPeer _ _ _)).trans (quiet_peerEnded _ _)
      · exact ends

theorem quiet_closeSession (c : Chip) (id cause : Nat) : Quiet c (c.closeSession id cause) :=
  (quiet_sendOn _ _ _ _).trans (quiet_endSession _ _)

theorem quiet_setHandshakes (c : Chip) (l : List Handshake) : Quiet c (c.setHandshakes l) := quiet_of _ _ rfl rfl rfl rfl id id

theorem quiet_dropHandshake (c : Chip) (h : Handshake) (status : Nat) : Quiet c (c.dropHandshake h status) := by
  unfold Chip.dropHandshake
  have drops := quiet_setHandshakes c (c.mgt.handshakes.filter fun x => x.id != h.id)
  dsimp only
  split
  · split
    · exact (drops.trans (quiet_setPeer _ _ _)).trans (quiet_endCmd _ _ _ _ _)
    · exact drops.trans (quiet_setPeer _ _ _)
  · exact drops

theorem quiet_failHandshake (c : Chip) (h : Handshake) (cause status : Nat) : Quiet c (c.failHandshake h cause status) :=
  ((quiet_ethSend _ _).trans (quiet_bump _ _ _ _ _)).trans (quiet_dropHandshake _ _ _)

theorem quiet_sessions (c : Chip) (l : List Session) : Quiet c (c.setSessions l) := quiet_of _ _ rfl rfl rfl rfl id id

theorem quiet_openSession (c : Chip) (h : Handshake) (who rxSeq : Nat) : Quiet c (c.openSession h who rxSeq) := by
  unfold Chip.openSession
  have opens := (quiet_setHandshakes c (c.mgt.handshakes.filter fun x => x.id != h.id)).trans
    (quiet_sessions _ ((c.setHandshakes (c.mgt.handshakes.filter fun x => x.id != h.id)).mgt.sessions ++ [h.session' who c.tick rxSeq]))
  have owner : ∀ d : Chip, Quiet d (if h.kind = 0 then { d with mgt := { d.mgt with lastOwner := some h.addr } } else d) := by
    intro d
    split
    · exact quiet_of _ _ rfl rfl rfl rfl id id
    · exact .rfl' d
  dsimp only
  split
  · exact (opens.trans (owner _)).trans (quiet_setPeer _ _ _)
  · exact opens.trans (owner _)

theorem quiet_peerOpened (c : Chip) (i : Nat) : Quiet c (c.peerOpened i) := by
  unfold Chip.peerOpened
  exact (quiet_pump _ _).trans (Quiet.foldl _ (fun _ _ => quiet_sendPeer _ _ _ _) _ _)

theorem quiet_draws (c : Chip) (n : Nat) : Quiet c { c with draws := n } := quiet_of _ _ rfl rfl rfl rfl id id

/-! ### HELLO (R519, R520) -/

section
variable {c : Chip} {src : NetAddr} {kind : Nat} {pub nonce : Bytes}

theorem takeHello_refused (on : c.rinlidal = true) (hp : pub.length = 97) (hn : nonce.length = 32) (room : c.mgt.handshakes.length < 8)
    (bad : c.helloOk kind = false) : c.takeHello src kind pub nonce = (c.sendClear src 5 0 (natLE 1 1)).bump .mgtHsFail 12 := by
  unfold Chip.takeHello
  rw [if_neg (by simp [on, hp, hn]), if_neg (by omega), if_pos (by rw [bad]; rfl)]

/-- The handshake that a HELLO begins. -/
def Chip.helloHandshake (c : Chip) (src : NetAddr) (kind : Nat) (pub nonce : Bytes) : Handshake :=
  let priv := bytesOf 48 (Config.trng c.draws)
  let nr := bytesOf 32 (Config.trng (c.draws + 1))
  let fields := natLE 4 c.mgt.nextSession ++ Config.ecPub priv ++ nr ++ natLE 8 c.boot.image.serial ++ c.devCert
  { id := c.mgt.nextSession, session := c.mgt.nextSession, kind := kind, addr := src, ephPriv := priv,
    transcript := natLE 1 kind ++ pub ++ nonce ++ fields,
    keyRx := (sessionKeys priv pub nonce nr).1, keyTx := (sessionKeys priv pub nonce nr).2, at_ := c.boot.tick }

/-- The module once a HELLO's handshake has begun. -/
def Chip.helloTaken (c : Chip) (h : Handshake) : Chip :=
  { c with draws := c.draws + 3, mgt := { c.mgt with nextSession := c.mgt.nextSession + 1, handshakes := c.mgt.handshakes ++ [h] } }

theorem takeHello_answers (on : c.rinlidal = true) (hp : pub.length = 97) (hn : nonce.length = 32) (room : c.mgt.handshakes.length < 8)
    (ok : c.helloOk kind = true) :
    c.takeHello src kind pub nonce =
      (let h := c.helloHandshake src kind pub nonce
       let fields := natLE 4 c.mgt.nextSession ++ Config.ecPub h.ephPriv ++ bytesOf 32 (Config.trng (c.draws + 1)) ++
         natLE 8 c.boot.image.serial ++ c.devCert
       (c.helloTaken h).sendClear src 2 0
         (fields ++ Config.ecdsaSign c.sec.idKey (Config.sha384 h.transcript) (Config.trng (c.draws + 2)))) := by
  unfold Chip.takeHello
  rw [if_neg (by simp [on, hp, hn]), if_neg (by omega), if_neg (by rw [ok]; decide)]
  rfl

theorem quiet_helloTaken (c : Chip) (h : Handshake) : Quiet c (c.helloTaken h) := quiet_of _ _ rfl rfl rfl rfl id id

end

/-! ### HELLO_REPLY (R519, R534) -/

section
variable {c : Chip} {src : NetAddr} {session : Nat} {pub nonce : Bytes} {serial : Nat} {devSigned devSig sig : Bytes} {h : Handshake}

theorem devCertSigned_of_ok (ok : devCertOk devSigned devSig = true) : devCertSigned devSigned devSig = true := by
  unfold devCertOk at ok
  simp only [Bool.and_eq_true] at ok
  exact ok.1.2

/-- The handshake once its HELLO_REPLY is taken. -/
def Handshake.replied (h : Handshake) (session : Nat) (pub nonce : Bytes) (serial : Nat) (devSigned devSig : Bytes) : Handshake :=
  { h with session := session
           transcript := h.transcript ++ natLE 4 session ++ pub ++ nonce ++ natLE 8 serial ++ devSigned ++ devSig
           keyTx := (sessionKeys h.ephPriv pub (h.transcript.drop 98) nonce).1
           keyRx := (sessionKeys h.ephPriv pub (h.transcript.drop 98) nonce).2, id := h.id + session, authSent := true }

/-- A HELLO_REPLY whose certificate is the peer's: the signature decides. -/
theorem takeHelloReply_known (on : c.rinlidal = true)
    (found : (c.mgt.handshakes.find? fun h => h.init && !h.authSent && h.addr == src) = some h) (cert : devCertOk devSigned devSig = true)
    (named : fieldB devSigned 8 7 = serial % 2 ^ 56) (peer : (c.peer h.peer).serial = serial % 2 ^ 56) :
    c.takeHelloReply src session pub nonce serial devSigned devSig sig =
      (let h' := h.replied session pub nonce serial devSigned devSig
       let d := c.setHandshakes (c.mgt.handshakes.map fun x => if x.id = h.id then h' else x)
       if Config.ecdsaVerify (sliceB devSigned 0x10 97) (Config.sha384 h'.transcript) sig = true then
         ({ d with draws := d.draws + 1 } : Chip).ethSend (sealRec { id := session, addr := h.addr, init := true, keyTx := h'.keyTx } 3
           (c.devCert ++ Config.ecdsaSign c.sec.idKey (Config.sha384 (h'.transcript ++ c.devCert)) (Config.trng c.draws)))
       else d.failHandshake h' 3 7) := by
  unfold Chip.takeHelloReply
  rw [if_neg (by rw [on]; decide), found]
  dsimp only
  rw [devCertSigned_of_ok cert, cert, if_neg (by decide)]
  refine (if_neg ?_).trans ?_
  · rintro (other | other)
    · exact other named
    · exact other peer
  · by_cases verified : Config.ecdsaVerify (sliceB devSigned 0x10 97)
        (Config.sha384 (h.replied session pub nonce serial devSigned devSig).transcript) sig = true
    · rw [if_pos verified]
      exact if_neg (by simpa [Handshake.replied] using verified)
    · rw [if_neg verified]
      exact if_pos (by simpa [Handshake.replied] using verified)

end

/-! ### AUTH (R517, R520) -/

section
variable {c : Chip} {r : Record} {h : Handshake} {b : Bytes}

theorem takeAuth_unknown (on : c.rinlidal = true) (none : (c.mgt.handshakes.find? fun h => !h.init && h.session == r.session) = none) :
    c.takeAuth r = c.bump .mgtTagFail 12 := by
  unfold Chip.takeAuth
  rw [if_neg (by rw [on]; decide), none]

section
variable (on : c.rinlidal = true) (found : (c.mgt.handshakes.find? fun h => !h.init && h.session == r.session) = some h)
include on found

theorem takeAuth_badTag (bad : openRec h.keyRx true 3 r = none) : c.takeAuth r = c.bump .mgtTagFail 12 := by
  unfold Chip.takeAuth
  rw [if_neg (by rw [on]; decide), found]
  dsimp only
  rw [bad]

theorem takeAuth_replayed (ok : openRec h.keyRx true 3 r = some b) (other : r.seq ≠ 1) : c.takeAuth r = c.bump .mgtReplayDrop 12 := by
  unfold Chip.takeAuth
  rw [if_neg (by rw [on]; decide), found]
  dsimp only
  rw [ok]
  exact if_pos other

/-- The certificate's own signatures verify: the checks of R520 decide. -/
theorem takeAuth_checks (ok : openRec h.keyRx true 3 r = some b) (first : r.seq = 1) (admits : kindState h.kind c.boot.state = true)
    (signed : (if h.kind = 2 then devCertSigned ((b.take (b.length - 96)).take 0x130) ((b.take (b.length - 96)).drop 0x130)
      else certSigned c.boot.image.ownerCert (b.take (b.length - 96))) = true) :
    c.takeAuth r =
      match (c.bump .mgtRecordsRx 12).authCheck h (b.take (b.length - 96)) (b.drop (b.length - 96)) with
      | .inl cause => (c.bump .mgtRecordsRx 12).failHandshake h cause 7
      | .inr who =>
        let d := ((c.bump .mgtRecordsRx 12).openSession h who 1).sendResponse h.id 0 0 0 0 [] false
        if h.kind = 2 then d.peerOpened who else d := by
  have good : (if h.kind = 2 then !devCertSigned ((b.take (b.length - 96)).take 0x130) ((b.take (b.length - 96)).drop 0x130)
      else !certSigned (c.bump .mgtRecordsRx 12).boot.image.ownerCert (b.take (b.length - 96))) = false := by
    by_cases peer : h.kind = 2
    · rw [if_pos peer] at signed ⊢
      rw [signed]
      rfl
    · rw [if_neg peer] at signed ⊢
      rw [show (c.bump .mgtRecordsRx 12).boot = c.boot from rfl, signed]
      rfl
  unfold Chip.takeAuth
  rw [if_neg (by rw [on]; decide), found]
  dsimp only
  rw [ok]
  dsimp only
  rw [if_neg (fun other => other first), good]
  exact if_neg (by rw [when_false, show (c.bump .mgtRecordsRx 12).boot.state = c.boot.state from rfl, admits]; decide)

end

end

theorem handshakeTimeout_due {c : Chip} {id : Nat} {h : Handshake} (found : (c.mgt.handshakes.find? fun h => h.id == id) = some h)
    (due : h.at_ + c.hsTmo ≤ c.boot.tick) : c.handshakeTimeout id = c.dropHandshake h 2 := by
  unfold Chip.handshakeTimeout
  rw [found]
  exact if_pos (decide_eq_true due)

/-- Settles O47: each record by the case of its meaning; every effect is on handshakes, sessions and what leaves on Ethernet. -/
theorem handshakesAct : Obligations.HandshakesAct := by
  unfold Obligations.HandshakesAct
  intro s still
  refine ⟨fun on => ⟨fun src kind pub nonce hp hn room => ⟨fun bad => ?refused, fun ok => ?hello⟩,
    fun src session pub nonce serial devSigned devSig sig h found cert named peer => ⟨fun verified => ?auth, fun forged => ?forged⟩,
    fun r none => ?unknown,
    fun r h found => ⟨fun bad => ?badTag, fun b ok => ⟨fun other => ?replayed, fun first admits => ?checks⟩⟩⟩, fun id h found due => ?timeout⟩
  case refused =>
    exact becomes s (.hello src kind pub nonce) _ _ rfl (takeHello_refused on hp hn room bad)
      ((quiet_sendClear _ _ _ _ _).trans (quiet_bump _ _ _ _ _)) still
  case hello =>
    exact becomes s (.hello src kind pub nonce) _ _ rfl (takeHello_answers on hp hn room ok)
      ((quiet_helloTaken _ _).trans (quiet_sendClear _ _ _ _ _)) still
  case auth =>
    have taken := takeHelloReply_known (session := session) (pub := pub) (nonce := nonce) (sig := sig) on found cert named peer
    exact becomes s (.helloReply src session pub nonce serial devSigned devSig sig) _ _ rfl (taken.trans (if_pos verified))
      (((quiet_setHandshakes _ _).trans (quiet_draws _ _)).trans (quiet_ethSend _ _)) still
  case forged =>
    have taken := takeHelloReply_known (session := session) (pub := pub) (nonce := nonce) (sig := sig) on found cert named peer
    exact becomes s (.helloReply src session pub nonce serial devSigned devSig sig) _ _ rfl
      (taken.trans (if_neg (Bool.eq_false_iff.mp forged))) ((quiet_setHandshakes _ _).trans (quiet_failHandshake _ _ _ _)) still
  case unknown => exact becomes s (.auth r) _ _ rfl (takeAuth_unknown on none) (quiet_bump _ _ _ _ _) still
  case badTag => exact becomes s (.auth r) _ _ rfl (takeAuth_badTag on found bad) (quiet_bump _ _ _ _ _) still
  case replayed => exact becomes s (.auth r) _ _ rfl (takeAuth_replayed on found ok other) (quiet_bump _ _ _ _ _) still
  case checks =>
    intro cert c signed
    have checks := takeAuth_checks on found ok first admits signed
    have counted : Quiet s.chip c := quiet_bump _ _ _ _ _
    refine ⟨fun cause fails => ?fails, fun who passes => ⟨fun owner => ?opens, fun peer => ?peer⟩⟩
    case fails =>
      refine becomes s (.auth r) _ _ rfl (checks.trans ?_) (counted.trans (quiet_failHandshake _ _ _ _)) still
      rw [fails]
    case opens =>
      refine becomes s (.auth r) _ _ rfl (checks.trans ?_)
        ((counted.trans (quiet_openSession _ _ _ _)).trans (quiet_sendResponse _ _ _ _ _ _ _ _)) still
      rw [passes]
      exact if_neg owner
    case peer =>
      refine becomes s (.auth r) _ _ rfl (checks.trans ?_)
        (((counted.trans (quiet_openSession _ _ _ _)).trans (quiet_sendResponse _ _ _ _ _ _ _ _)).trans (quiet_peerOpened _ _)) still
      rw [passes]
      exact if_pos peer
  case timeout =>
    exact becomes s (.handshakeTimeout id) _ _ rfl (handshakeTimeout_due found due) (quiet_dropHandshake _ _ _) still

/-! ### DATA and CLOSE (R518, R521, R522, R523) -/

theorem leNat_lt (b : Bytes) : leNat b < 256 ^ b.length := by
  induction b with
  | nil => decide
  | cons x t ih =>
    have := x.isLt
    rw [leNat, List.length_cons, pow_succ]
    omega

theorem fieldB_lt (b : Bytes) (off len : Nat) : fieldB b off len < 256 ^ len :=
  (leNat_lt _).trans_le (Nat.pow_le_pow_right (by decide) (List.length_take_le _ _))

section
variable {c : Chip} {r : Record} {x : Session} {b : Bytes}

/-- A request in one segment is ready at once. -/
theorem takeSegment_whole (low : fieldB b 0 2 < 0x8000) (long : 16 ≤ b.length) (one : fieldB b 3 1 = 1) (first : fieldB b 2 1 = 0)
    (length : fieldB b 8 2 = b.length - 16) (reserved : zeroAt b 10 6 = true) (numbered : fieldB b 4 4 ≠ 0) (other : x.kind ≠ 2)
    (known : knownOpc x.kind (fieldB b 0 2) = true) :
    c.takeSegment x b = c.modSession x.id fun y => { y with ready := y.ready ++ [(fieldB b 4 4, fieldB b 0 2, b.drop 16)] } := by
  have dropped : (b.drop 16).length = b.length - 16 := List.length_drop
  have short : (b.drop 16).length ≤ 65536 := by
    have := fieldB_lt b 8 2
    omega
  have ready : c.requestReady x (fieldB b 4 4) (fieldB b 0 2) (b.drop 16) =
      c.modSession x.id fun y => { y with ready := y.ready ++ [(fieldB b 4 4, fieldB b 0 2, b.drop 16)] } :=
    if_pos (by rw [known, decide_eq_true short]; rfl)
  unfold Chip.takeSegment
  dsimp only
  rw [if_neg (by omega), if_neg, if_pos one, ready]
  rw [one, first, length, dropped, reserved]
  simp [numbered, other]

section
variable (on : c.rinlidal = true)
include on

theorem takeData_opens (opened : c.openAny 4 r = some (x, b)) :
    c.takeData r = if x.fresh r.seq = true then
        ((c.bump .mgtRecordsRx 12).modSession x.id fun y => y.accept r.seq c.boot.tick).takeSegment x b
      else c.bump .mgtReplayDrop 12 := by
  unfold Chip.takeData
  rw [if_neg (by rw [on]; decide), opened]
  rfl

theorem takeData_fails (none : c.openAny 4 r = none)
    (unknown : (c.mgt.handshakes.find? fun h => h.authSent && h.session == r.session && (openRec h.keyRx false 4 r).isSome) = .none) :
    c.takeData r = c.bump .mgtTagFail 12 := by
  unfold Chip.takeData
  rw [if_neg (by rw [on]; decide), none]
  dsimp only
  rw [unknown]

theorem takeClose_opens (opened : c.openAny 5 r = some (x, b)) :
    c.takeClose r = if x.fresh r.seq = true then (c.bump .mgtRecordsRx 12).endSession x.id else c.bump .mgtReplayDrop 12 := by
  unfold Chip.takeClose
  rw [if_neg (by rw [on]; decide), opened]

end

theorem Raised.forgotten {c d : Chip} (h : Raised c d) :
    Raised { c with sec := { c.sec with quoteNonces := [] } } { d with sec := { d.sec with quoteNonces := [] } } := by
  unfold Raised at *
  rw [h]
  rfl

theorem quiet_forgotten (c : Chip) (l : List Session) :
    Quiet c { c with mgt := { c.mgt with sessions := l }, sec := { c.sec with quoteNonces := [] } } := quiet_of _ _ rfl rfl rfl rfl id id

/-- The end of an owner's session, with its nonces, but for its event. -/
theorem endSession_owner (found : c.session? x.id = some x) (owner : x.kind = 0) :
    c.endSession x.id =
      (let d := (c.setSessions (c.mgt.sessions.filter fun y => y.id != x.id)).raise Ev.sessionEnd []
       { d with sec := { d.sec with quoteNonces := [] } }) := by
  unfold Chip.endSession
  rw [found]
  exact if_pos owner

theorem endSession_agent (found : c.session? x.id = some x) (agent : x.kind = 1) :
    c.endSession x.id = (c.setSessions (c.mgt.sessions.filter fun y => y.id != x.id)).raise Ev.sessionEnd [] := by
  unfold Chip.endSession
  rw [found]
  dsimp only
  rw [if_neg (by rw [agent]; decide), if_neg (by rw [agent]; decide)]

theorem idleTimeout_due {id : Nat} (found : c.session? id = some x) (due : x.lastRx + 1000 * max 1 (c.fld .mgtGlb2 12 [] 31 16) ≤ c.boot.tick) :
    c.idleTimeout id = c.closeSession id 4 := by
  unfold Chip.idleTimeout
  rw [found]
  exact if_pos (decide_eq_true due)

theorem reassemblyTimeout_of {id reqId : Nat} (found : c.session? id = some x) :
    c.reassemblyTimeout id reqId = c.modSession id fun _ => { x with
      partials := x.partials.filter fun p => !(p.reqId == reqId && c.due p.since c.hsTmo) } := by
  unfold Chip.reassemblyTimeout
  rw [found]

end

/-- Settles O48: each record and each timeout by the case of its meaning. -/
theorem recordsAct : Obligations.RecordsAct := by
  unfold Obligations.RecordsAct
  intro s still
  refine ⟨fun on r => ⟨fun x b opened => ⟨fun old => ?old, fun fresh low long one first length reserved numbered kind known => ?request⟩,
    fun none unknown => ?bad, fun x b opened => ⟨fun old => ?oldClose, fun fresh found owner => ?owner, fun fresh found agent => ?agent⟩⟩,
    fun id x found => ⟨fun due => ?idle, fun reqId => ?partials⟩⟩
  case old =>
    exact becomes s (.data r) _ _ rfl ((takeData_opens on opened).trans (if_neg (Bool.eq_false_iff.mp old))) (quiet_bump _ _ _ _ _) still
  case request =>
    have ready := takeSegment_whole (c := (s.chip.bump .mgtRecordsRx 12).modSession x.id fun y => y.accept r.seq s.chip.boot.tick)
      low long one first length reserved numbered kind known
    exact becomes s (.data r) _ _ rfl (((takeData_opens on opened).trans (if_pos fresh)).trans ready)
      (((quiet_bump _ _ _ _ _).trans (quiet_modSession _ _ _)).trans (quiet_modSession _ _ _)) still
  case bad => exact becomes s (.data r) _ _ rfl (takeData_fails on none unknown) (quiet_bump _ _ _ _ _) still
  case oldClose =>
    exact becomes s (.close r) _ _ rfl ((takeClose_opens on opened).trans (if_neg (Bool.eq_false_iff.mp old))) (quiet_bump _ _ _ _ _) still
  case owner =>
    have closed := ((takeClose_opens on opened).trans (if_pos fresh)).trans
      (endSession_owner (c := s.chip.bump .mgtRecordsRx 12) found owner)
    refine raisesTo s (.close r) _ (s.chip.takeClose r) rfl ?_ ((quiet_forgotten _ _).still still)
    rw [closed]
    have ended := raised_bump (s.chip.setSessions (s.chip.mgt.sessions.filter fun y => y.id != x.id)) .mgtRecordsRx 12 [] 1
    exact (ended.trans (raised_raise _ Ev.sessionEnd 0 0 [])).forgotten
  case agent =>
    have closed := ((takeClose_opens on opened).trans (if_pos fresh)).trans
      (endSession_agent (c := s.chip.bump .mgtRecordsRx 12) found agent)
    refine raisesTo s (.close r) _ (s.chip.takeClose r) rfl ?_ ((quiet_sessions _ _).still still)
    rw [closed]
    exact (raised_bump (s.chip.setSessions _) .mgtRecordsRx 12 [] 1).trans (raised_raise _ _ _ _ _)
  case idle => exact becomes s (.sessionIdleTimeout id) _ _ rfl (idleTimeout_due found due) (quiet_closeSession _ _ _) still
  case partials => exact becomes s (.reassemblyTimeout id reqId) _ _ rfl (reassemblyTimeout_of found) (quiet_modSession _ _ _) still

end Sys2Proof.Machine
end

section
/-! SUPPORT. Peers, their messages and handoffs (R525, R533 to R536, R557 to R560): each case of a command's and a record's
meaning. -/

namespace Sys2Proof.Machine

/-! ### What an answer leaves of the management block -/

/-- Only sessions and what leaves on Ethernet change of the management block. -/
def Spoken (c d : Chip) : Prop := d.mgt = { c.mgt with sessions := d.mgt.sessions, ethTx := d.mgt.ethTx }

theorem Spoken.rfl' (c : Chip) : Spoken c c := rfl

theorem Spoken.trans {a b c : Chip} (h : Spoken a b) (g : Spoken b c) : Spoken a c := by
  unfold Spoken at *
  rw [g, h]

theorem Spoken.foldl {α : Type} (f : Chip → α → Chip) (h : ∀ c x, Spoken c (f c x)) (l : List α) (c : Chip) : Spoken c (l.foldl f c) := by
  induction l generalizing c with
  | nil => exact .rfl' c
  | cons x t ih => exact (h c x).trans (ih _)

theorem spoken_bump (c : Chip) (k : Cnt) (die : Nat) (i : List Nat) (n : Nat) : Spoken c (c.bump k die i n) := rfl

theorem spoken_modSession (c : Chip) (i : Nat) (f : Session → Session) : Spoken c (c.modSession i f) := rfl

theorem spoken_ethSend (c : Chip) (o : EthOut) : Spoken c (c.ethSend o) := by
  unfold Chip.ethSend
  split <;> rfl

theorem spoken_sendOn (c : Chip) (i t : Nat) (b : Bytes) : Spoken c (c.sendOn i t b) := by
  unfold Chip.sendOn
  split
  · exact .rfl' c
  · exact (spoken_ethSend _ _).trans (spoken_modSession _ _ _)

theorem spoken_sendResponse (c : Chip) (i r o s d : Nat) (b : Bytes) (w : Bool) : Spoken c (c.sendResponse i r o s d b w) := by
  unfold Chip.sendResponse
  split
  · exact .rfl' c
  · exact Spoken.foldl _ (fun _ _ => spoken_sendOn _ _ _ _) _ _

theorem spoken_finishCmd (c : Chip) (i r o s d : Nat) (b : Bytes) : Spoken c (c.finishCmd i r o s d b) := by
  unfold Chip.finishCmd
  refine (Spoken.trans ?_ (spoken_modSession _ _ _)).trans (spoken_sendResponse _ _ _ _ _ _ _ _)
  unfold Chip.when
  split
  · exact spoken_bump _ _ _ _ _
  · exact .rfl' c

theorem Spoken.peer {c d : Chip} (h : Spoken c d) (i : Nat) : d.peer i = c.peer i := by
  unfold Chip.peer
  rw [show d.mgt = _ from h]

theorem Spoken.handoffs {c d : Chip} (h : Spoken c d) : d.mgt.handoffs = c.mgt.handoffs ∧ d.mgt.hoEpoch = c.mgt.hoEpoch := by
  rw [show d.mgt = _ from h]
  exact ⟨rfl, rfl⟩

theorem peer_setPeer (c : Chip) (i : Nat) (p : Peer) : (c.setPeer i p).peer i = p := kgetD_kput_self _ _ _ _

/-! ### The peer table (R525, R534) -/

section
variable {c : Chip} {i : Nat}

theorem peerSet_writes {flags udp serial address : Nat} (hi : i < 16) (hf : flags < 4) (hs : serial < 2 ^ 56) :
    c.peerSet i flags udp serial address = .done (c.setPeer i { c.peer i with
      valid := bit flags 0, v6 := bit flags 1, udp := udp, serial := serial
      address := if bit flags 1 then address else address % 2 ^ 32 }) 0 0 [] := by
  unfold Chip.peerSet
  exact if_neg (by omega)

theorem peerSet_malformed {flags udp serial address : Nat} (bad : 16 ≤ i ∨ 4 ≤ flags ∨ 2 ^ 56 ≤ serial) :
    c.peerSet i flags udp serial address = .done c 4 0 [] := if_pos bad

section
variable {cmd : Nat × Nat} (hi : i < 16)
include hi

theorem peerOpen_unknown (invalid : (c.peer i).valid = false) : c.peerOpen cmd i = .done c 5 0 [] := by
  unfold Chip.peerOpen
  rw [if_neg (by omega), if_pos (by rw [invalid]; rfl)]

theorem peerOpen_busy (valid : (c.peer i).valid = true) (busy : (c.peer i).st = 1 ∨ (c.peer i).st = 2) :
    c.peerOpen cmd i = .done c 2 0 [] := by
  unfold Chip.peerOpen
  rw [if_neg (by omega), if_neg (by rw [valid]; decide), if_pos busy]

/-- The handshake that PEER_OPEN begins. -/
def Chip.openHandshake (c : Chip) (cmd : Nat × Nat) (i : Nat) : Handshake :=
  let priv := bytesOf 48 (Config.trng c.draws)
  { id := 2 ^ 32 * (i + 1), kind := 2, addr := { v6 := (c.peer i).v6, ip := (c.peer i).address, port := (c.peer i).udp }, init := true
    peer := i, ephPriv := priv, transcript := natLE 1 2 ++ Config.ecPub priv ++ bytesOf 32 (Config.trng (c.draws + 1))
    at_ := c.boot.tick, cmd := some cmd }

/-- The module once PEER_OPEN's handshake has begun. -/
def Chip.opening (c : Chip) (i : Nat) (h : Handshake) : Chip :=
  { c with
    draws := c.draws + 2
    mgt := { c.mgt with handshakes := c.mgt.handshakes ++ [h], peers := kput c.mgt.peers i { c.peer i with st := 1 } } }

theorem peerOpen_begins (valid : (c.peer i).valid = true) (h1 : (c.peer i).st ≠ 1) (h2 : (c.peer i).st ≠ 2)
    (serves : kindState 2 c.boot.state = true) (handshakes : c.mgt.handshakes.length < 8)
    (sessions : (c.mgt.sessions.filter fun s => s.kind == 2).length < 16) :
    c.peerOpen cmd i =
      (let h := c.openHandshake cmd i
       .run ((c.opening i h).sendClear h.addr 1 0 h.transcript) i) := by
  unfold Chip.peerOpen
  rw [if_neg (by omega), if_neg (by rw [valid]; decide), if_neg (by rintro (h | h); exacts [h1 h, h2 h]), if_neg (by rw [serves]; decide),
    if_neg (by omega)]
  rfl

end

theorem quiet_opening (c : Chip) (i : Nat) (h : Handshake) : Quiet c (c.opening i h) := quiet_of _ _ rfl rfl rfl rfl id id

theorem peerClose_none (hi : i < 16) (valid : (c.peer i).valid = true) (none : c.peerSession? i = none) :
    c.peerClose i = .done c 2 0 [] := by
  unfold Chip.peerClose
  rw [if_neg (by omega), if_neg (by rw [valid]; decide), none]

theorem peerClose_closes {p : Session} (hi : i < 16) (valid : (c.peer i).valid = true) (found : c.peerSession? i = some p) :
    c.peerClose i = .done (c.closeSession p.id 0) 0 0 [] := by
  unfold Chip.peerClose
  rw [if_neg (by omega), if_neg (by rw [valid]; decide), found]

end

/-! ### The end of a peer's session (R521, R525) -/

section
variable {c : Chip}

theorem modFirst_find_other {α : Type} {p q : α → Bool} {f : α → α} (other : ∀ x, p x = true → q x = false ∧ q (f x) = false) (l : List α) :
    (modFirst p f l).find? q = l.find? q := by
  induction l with
  | nil => rfl
  | cons x t ih =>
    unfold modFirst
    split
    · next here => simp [other x here]
    · next => rw [List.find?_cons, List.find?_cons, ih]

theorem session_modSession_ne (f : Session → Session) (hf : ∀ x, (f x).id = x.id) {i j : Nat} (h : j ≠ i) :
    (c.modSession i f).session? j = c.session? j := by
  refine modFirst_find_other (fun x here => ?_) _
  have : x.id = i := beq_iff_eq.mp here
  rw [hf]
  exact ⟨beq_eq_false_iff_ne.mpr (by omega), beq_eq_false_iff_ne.mpr (by omega)⟩

theorem session_of_sessions {d : Chip} (h : d.mgt.sessions = c.mgt.sessions) (i : Nat) : d.session? i = c.session? i := by
  unfold Chip.session?
  rw [h]

theorem sendOn_session_ne {i j t : Nat} (b : Bytes) (h : j ≠ i) : (c.sendOn i t b).session? j = c.session? j := by
  unfold Chip.sendOn
  split
  · rfl
  · rw [session_modSession_ne _ (by intro; rfl) h]
    exact session_of_sessions (ethSend_sessions _ _) j

theorem sendResponse_session_ne {i j : Nat} (r o st d : Nat) (b : Bytes) (w : Bool) (h : j ≠ i) :
    (c.sendResponse i r o st d b w).session? j = c.session? j := by
  have segments : ∀ (l : List (Bytes × Nat)) (g : Chip → Bytes × Nat → Bytes) (c : Chip),
      (l.foldl (fun c p => c.sendOn i 4 (g c p)) c).session? j = c.session? j := by
    intro l g
    induction l with
    | nil => exact fun _ => rfl
    | cons p t ih => exact fun c => (ih _).trans (sendOn_session_ne _ h)
  unfold Chip.sendResponse
  split
  · rfl
  · exact segments _ _ c

/-- The answer of one session's command leaves the other sessions. -/
theorem finishCmd_session_ne {i j : Nat} (r o st d : Nat) (b : Bytes) (h : j ≠ i) :
    (c.finishCmd i r o st d b).session? j = c.session? j := by
  have counted : (c.when (st == 0) fun c => c.bump .mgtCmds 12).session? j = c.session? j := by
    unfold Chip.when
    split <;> rfl
  unfold Chip.finishCmd
  rw [sendResponse_session_ne _ _ _ _ _ _ h, session_modSession_ne _ (by intro; rfl) h, counted]

/-- The module once a peer's session has ended: the session is gone, the peer's STATE is CLOSED. -/
theorem endSession_peer {id : Nat} {p : Session} (found : c.session? id = some p) (peer : p.kind = 2) (none : c.mgt.handoffs = []) :
    (c.endSession id).mgt = { c.mgt with
      sessions := c.mgt.sessions.filter fun x => x.id != id
      peers := kput c.mgt.peers p.peer { c.peer p.peer with st := 3 } } := by
  have raised := raised_raise (c.setSessions (c.mgt.sessions.filter fun x => x.id != id)) Ev.sessionEnd 0 0 []
  unfold Chip.endSession
  rw [found]
  dsimp only
  rw [if_neg (by rw [peer]; decide), if_pos peer]
  generalize (c.setSessions (c.mgt.sessions.filter fun x => x.id != id)).raise Ev.sessionEnd [] = d at raised
  have mgt : d.mgt = { c.mgt with sessions := c.mgt.sessions.filter fun x => x.id != id } := by
    rw [show d = _ from raised]
    rfl
  have ended : ∀ e : Chip, e.mgt.handoffs = [] → e.peerEnded p.peer = e := by
    intro e h
    unfold Chip.peerEnded
    rw [h]
    rfl
  rw [ended _ (by show d.mgt.handoffs = []; rw [mgt]; exact none)]
  unfold Chip.setPeer Chip.peer
  rw [mgt]

theorem closeSession_peer {id i cause : Nat} {p : Session} (found : c.session? id = some p) (peer : p.kind = 2) (entry : p.peer = i)
    (none : c.mgt.handoffs = []) :
    (c.closeSession id cause).session? id = .none ∧ (∀ j ≠ id, (c.closeSession id cause).session? j = c.session? j) ∧
      (c.closeSession id cause).peer i = { c.peer i with st := 3 } := by
  have sent := spoken_sendOn c id 5 (natLE 1 cause)
  have still : (c.sendOn id 5 (natLE 1 cause)).session? id = some { p with txSeq := p.txSeq + 1 } := by rw [sendOn_session, found]; rfl
  have mgt := endSession_peer still peer (sent.handoffs.1.trans none)
  unfold Chip.closeSession
  refine ⟨?gone, fun j other => ?others, ?state⟩
  case gone =>
    unfold Chip.session?
    rw [mgt, List.find?_eq_none]
    intro x hx
    simpa using (List.mem_filter.mp hx).2
  case others =>
    rw [← sendOn_session_ne (c := c) (natLE 1 cause) other]
    unfold Chip.session?
    rw [mgt, List.find?_filter]
    congr 1
    funext x
    by_cases here : x.id = j
    · simp [here, other]
    · simp [here]
  case state =>
    subst entry
    rw [← sent.peer p.peer]
    unfold Chip.peer
    rw [mgt]
    exact kgetD_kput_self _ _ _ _

end

/-! ### The handoff commands (R557, R558, R560) -/

section
variable {c : Chip} {obj peer : Nat} {cmd : Nat × Nat}

theorem handoffRefusal_none (pinned : pinnedWritable (c.obj obj) = true) (unmapped : c.regionsOver obj = []) (free : c.inHandoff obj = false)
    (valid : (c.peer peer).valid = true) (room : c.liveHandoffs.length < 64) : c.handoffRefusal obj peer = none := by
  have st : (c.obj obj).st = 4 := by
    unfold pinnedWritable at pinned
    simp only [Bool.and_eq_true, beq_iff_eq] at pinned
    exact pinned.1
  unfold Chip.handoffRefusal
  dsimp only
  rw [if_neg (by omega), if_neg (fun h => h pinned), if_neg (by simp [unmapped, free]), if_neg (by rw [valid]; decide), if_neg (by omega)]

/-- The handoff that HANDOFF_OFFER begins. -/
def Chip.offered (c : Chip) (cmd : Nat × Nat) (obj peer dstPart dstObj : Nat) : Handoff :=
  { epoch := (c.mgt.hoEpoch + 1) % 2 ^ 32, sender := true, st := 2, obj := obj, peer := peer, dstPart := dstPart, dstObj := dstObj
    size := (c.obj obj).size, cmd := some cmd, since := c.boot.tick, sentAt := c.boot.tick
    unacked := segOffsets (c.obj obj).size (c.segBytes peer) }

/-- The module with a handoff of its object begun in epoch `ep`. -/
def Chip.handingOff (c : Chip) (ep : Nat) (h : Handoff) : Chip :=
  { c with mgt := { c.mgt with hoEpoch := ep, handoffs := (c.mgt.handoffs.filter fun x => x.obj != h.obj) ++ [h] } }

theorem handoffOffer_begins {dstPart dstObj : Nat} {b : Bytes} {d : Chip} (accepted : c.handoffRefusal obj peer = none)
    (read : c.readObj obj 0 (c.obj obj).size = (some b, d)) :
    c.handoffOffer cmd obj peer dstPart dstObj =
      (let h := c.offered cmd obj peer dstPart dstObj
       .run ((c.handingOff h.epoch h).sendOffer h) h.epoch) := by
  unfold Chip.handoffOffer
  rw [accepted]
  dsimp only
  rw [read]
  rfl

/-- The handoff that HANDOFF_EXPECT expects. -/
def Chip.expected (c : Chip) (cmd : Nat × Nat) (obj peer : Nat) : Handoff :=
  { sender := false, st := 7, obj := obj, peer := peer, size := (c.obj obj).size, cmd := some cmd, dstPart := (c.obj obj).part
    dstObj := obj, since := c.boot.tick }

theorem handoffExpect_begins (accepted : c.handoffRefusal obj peer = none) (room : c.mgt.committed.length < 4096) :
    c.handoffExpect cmd obj peer =
      .run (c.setHandoffs ((c.mgt.handoffs.filter fun h => h.obj != obj) ++ [c.expected cmd obj peer])) obj := by
  unfold Chip.handoffExpect
  rw [accepted]
  exact if_neg (by omega)

theorem quiet_handingOff (c : Chip) (ep : Nat) (h : Handoff) : Quiet c (c.handingOff ep h) := quiet_of _ _ rfl rfl rfl rfl id id

theorem handoffQuery_committed {epoch : Nat}
    (committed : c.mgt.committed.any (fun e => e.1 == peer && e.2.1 == epoch && e.2.2 == obj) = true) :
    c.handoffQuery obj peer epoch = .done c 0 0 (natLE 1 2 ++ natLE 1 9 ++ zerosB 2 ++ natLE 4 epoch) := if_pos committed

theorem handoffQuery_unknown {epoch : Nat}
    (open_ : c.mgt.committed.any (fun e => e.1 == peer && e.2.1 == epoch && e.2.2 == obj) = false)
    (none : c.mgt.handoffs.find? (fun h => h.obj == obj && h.peer == peer &&
      (h.st == 7 || (if h.sender then h.epoch else h.peerEpoch) == epoch)) = none) :
    c.handoffQuery obj peer epoch = .done c 0 0 (natLE 1 0 ++ natLE 1 0 ++ zerosB 2 ++ natLE 4 epoch) := by
  unfold Chip.handoffQuery
  dsimp only
  rw [if_neg (by rw [open_]; decide), none]

theorem handoffReclaim_none (held : (c.obj obj).st ≠ 0)
    (none : c.mgt.handoffs.find? (fun h => h.sender && h.obj == obj && h.st == 5) = none) : c.handoffReclaim obj = .done c 2 0 [] := by
  unfold Chip.handoffReclaim
  rw [if_neg held, none]

/-- The module with a handoff in doubt taken back. -/
def Chip.reclaimed (c : Chip) (h : Handoff) : Chip :=
  { c with mgt := { c.mgt with hoEpoch := (c.mgt.hoEpoch + 1) % 2 ^ 32, handoffs := c.mgt.handoffs.erase h } }

theorem handoffReclaim_takes {h : Handoff} (held : (c.obj obj).st ≠ 0)
    (found : c.mgt.handoffs.find? (fun h => h.sender && h.obj == obj && h.st == 5) = some h) :
    c.handoffReclaim obj = .done (c.reclaimed h) 0 0 (natLE 4 ((c.mgt.hoEpoch + 1) % 2 ^ 32)) := by
  unfold Chip.handoffReclaim
  rw [if_neg held, found]
  rfl

theorem quiet_reclaimed (c : Chip) (h : Handoff) : Quiet c (c.reclaimed h) := quiet_of _ _ rfl rfl rfl rfl id id

end

section
variable {s : State} {i : Instr} {sess reqId opc : Nat} {want : Bytes} {f : Chip → Session → CmdRes} {x : Session}
  (asks : s.chip.Asks sess reqId opc x) (hi : exec i s = act s (s.chip.command sess reqId opc want f)) (still : s.chip.Still)
include asks hi still

/-- The state after a command that completes with effect `c`: its answer is `c`'s, and but for sessions the management block is
as `c` has it. -/
theorem command_leaves {c : Chip} {st : Nat} {b : Bytes} {y : Session} (hf : f s.chip x = .done c st 0 b) (hst : st ≠ 1)
    (quiet : Quiet s.chip c) (session : c.session? sess = some y) :
    exec i s = .next { s with chip := c.finishCmd sess reqId opc st 0 b } ∧
      (c.finishCmd sess reqId opc st 0 b).lastReply sess = some (reqId, opc, st, 0, b) := by
  refine ⟨(settles_asks asks hi hf).trans ?_, finishCmd_lastReply _ _ _ _ _ _ _ _ session hst⟩
  rw [Chip.settle_still _ ((quiet.trans (quiet_finishCmd _ _ _ _ _ _ _)).still still)]

end

/-- Settles O44: each command by the case of its meaning. -/
theorem peerCommandsComplete : Obligations.PeerCommandsComplete := by
  unfold Obligations.PeerCommandsComplete
  intro s sess reqId x still
  refine ⟨fun asks i flags udp serial address => ⟨fun hi hf hs => ?set, fun hi hf hs => ?entry, fun bad => ?malformed⟩,
    fun asks i hi => ⟨fun invalid => ?unknown, fun valid busy => ?busy, fun valid h1 h2 serves handshakes sessions => ?opens⟩,
    fun asks i hi valid => ⟨fun none => ?closed, fun p found other known none => ?closes⟩,
    fun obj peer pinned unmapped free valid room => ⟨fun asks dstPart dstObj b c read => ?offers, fun asks committed => ?expects⟩,
    fun asks obj peer epoch => ⟨fun committed => ?committed, fun open_ none => ?unheard⟩,
    fun asks obj held => ⟨fun none => ?nothing, fun h found => ?reclaims⟩⟩
  case set =>
    have written := peerSet_writes (c := s.chip) (udp := udp) (address := address) hi hf hs
    exact command_completes s _ sess reqId 0x0901 _ _ x asks rfl _ 0 [] written ((quiet_setPeer _ _ _).still still) x asks.1 (by decide) _ rfl
  case entry =>
    have written := peerSet_writes (c := s.chip) (udp := udp) (address := address) hi hf hs
    obtain ⟨run, -⟩ := command_leaves asks (i := .peerSet sess reqId i flags udp serial address) rfl still written (by decide)
      (quiet_setPeer _ _ _) asks.1
    exact ⟨_, run, ((spoken_finishCmd _ _ _ _ _ _ _).peer i).trans (peer_setPeer _ _ _)⟩
  case malformed => exact command_answers asks rfl still (peerSet_malformed bad) (by decide)
  case unknown => exact command_answers asks rfl still (peerOpen_unknown hi invalid) (by decide)
  case busy => exact command_answers asks rfl still (peerOpen_busy hi valid busy) (by decide)
  case opens =>
    exact command_goesOn asks rfl still (peerOpen_begins hi valid h1 h2 serves handshakes sessions)
      ((quiet_opening _ _ _).trans (quiet_sendClear _ _ _ _ _))
  case closed => exact command_answers asks rfl still (peerClose_none hi valid none) (by decide)
  case closes =>
    have kind : p.kind = 2 ∧ p.peer = i := by simpa using List.find?_some found
    obtain ⟨gone, others, state⟩ := closeSession_peer (cause := 0) known kind.1 kind.2 none
    obtain ⟨run, reply⟩ := command_leaves asks (i := .peerClose sess reqId i) rfl still (peerClose_closes hi valid found) (by decide)
      (quiet_closeSession _ _ _) ((others sess (Ne.symm other)).trans asks.1)
    exact ⟨_, run, reply, (finishCmd_session_ne _ _ _ _ _ other).trans gone, ((spoken_finishCmd _ _ _ _ _ _ _).peer i).trans state⟩
  case offers =>
    exact command_goesOn asks rfl still (handoffOffer_begins (handoffRefusal_none pinned unmapped free valid room) read)
      ((quiet_handingOff s.chip _ (s.chip.offered (sess, reqId) obj peer dstPart dstObj)).trans (quiet_sendOffer _ _))
  case expects =>
    exact command_goesOn asks rfl still (handoffExpect_begins (handoffRefusal_none pinned unmapped free valid room) committed)
      (quiet_setHandoffs _ _)
  case committed => exact command_answers asks rfl still (handoffQuery_committed committed) (by decide)
  case unheard => exact command_answers asks rfl still (handoffQuery_unknown open_ none) (by decide)
  case nothing => exact command_answers asks rfl still (handoffReclaim_none held none) (by decide)
  case reclaims =>
    obtain ⟨run, reply⟩ := command_leaves asks (i := .handoffReclaim sess reqId obj) rfl still (handoffReclaim_takes held found) (by decide)
      (quiet_reclaimed _ _) asks.1
    obtain ⟨handoffs, epoch⟩ := (spoken_finishCmd (s.chip.reclaimed h) sess reqId 0x0A04 0 0
      (natLE 4 ((s.chip.mgt.hoEpoch + 1) % 2 ^ 32))).handoffs
    exact ⟨_, run, reply, handoffs, epoch⟩

end Sys2Proof.Machine
end

section
/-! SUPPORT. Records on peers' sessions: messages (R535, R536) and handoffs (R558, R559, R560). -/

namespace Sys2Proof.Machine

/-! ### Messages (R535, R536) -/

section
variable {c : Chip} {msgId : Nat}

/-- A record of a peer's session that has nothing waiting is taken at once. -/
theorem peerRecord_now {id opc : Nat} {want : Bytes} {f : Chip → Session → Chip} {x : Session} (found : c.session? id = some x)
    (peer : x.kind = 2) (ready : x.ready = []) : c.peerRecord id opc want f = f c x := by
  unfold Chip.peerRecord
  rw [found]
  dsimp only
  rw [if_neg fun h => h peer, ready]

theorem takeAck_found {sess result : Nat} {q : QMsg}
    (found : (c.mgt.queue.find? fun q => q.sess == sess && q.msgId == msgId && q.sentAt.isSome) = some q) :
    c.takeAck sess msgId result =
      if result = 0 then (c.setQueue (c.mgt.queue.erase q)).bump .mgtMsgSent 12
      else if result = 2 then (c.setQueue (c.mgt.queue.erase q)).bump .mgtMsgLost 12
      else c := by
  unfold Chip.takeAck
  rw [found]

section
variable {x : Session} {msg : Bytes} (on : c.enabled 0x13 12 = true)
include on

theorem takeMsg_duplicate (known : x.delivered.contains msgId = true) :
    c.takeMsg x msgId msg = (c.bump .mgtMsgDup 12).ackMsg x.id msgId 0 := by
  unfold Chip.takeMsg
  rw [if_neg (by rw [on]; decide), if_pos known]

theorem takeMsg_undeliverable (new : x.delivered.contains msgId = false) (idle : (kgetD c.parts (fieldB msg 3 1 % 64) {}).st ≠ .active) :
    c.takeMsg x msgId msg = c.ackMsg x.id msgId 2 := by
  unfold Chip.takeMsg
  rw [if_neg (by rw [on]; decide), if_neg (by rw [new]; decide)]
  exact if_pos idle

/-- The delivery of a message to a partition's ring, from its first request on. -/
def Chip.ringJob (c : Chip) (x : Session) (msgId : Nat) (msg : Bytes) (part slot n : Nat) : RingJob :=
  { part := part, sess := x.id, msgId := msgId, msg := deliveredMsg x.peer msg, phase := 1, handle := c.fld .mgtRxCfg 12 [part] 15 0
    epoch := (c.region slot).epoch, addr := n * 2 ^ 52 + (c.region slot).base + c.reg .mgtRxOff 12 [part] * 4096 }

/-- With no delivery in progress, a message's own begins with the read of its ring. -/
theorem takeMsg_delivers {slot n : Nat} (new : x.delivered.contains msgId = false)
    (active : (kgetD c.parts (fieldB msg 3 1 % 64) {}).st = .active) (none : c.mgt.rings = [])
    (region : c.regionOf (c.fld .mgtRxCfg 12 [fieldB msg 3 1 % 64] 15 0) = some slot) (node : c.localNode (fieldB msg 3 1 % 64) = some n)
    (valid : bit (c.reg .mgtRxCfg 12 [fieldB msg 3 1 % 64]) 31 = true) (owner : (c.region slot).part = fieldB msg 3 1 % 64) :
    c.takeMsg x msgId msg =
      (let j := c.ringJob x msgId msg (fieldB msg 3 1 % 64) slot n
       (c.setRings [j]).issue (fieldB msg 3 1 % 64) (.ring (fieldB msg 3 1 % 64)) { j.req opcDevRead 0 [] with opnd := 128 }) := by
  generalize part : fieldB msg 3 1 % 64 = p at active region node valid owner
  let j : RingJob := { part := p, sess := x.id, msgId := msgId, msg := deliveredMsg x.peer msg }
  have starts : (c.setRings [j]).ringStart p 2 = (let j := c.ringJob x msgId msg p slot n
      (c.setRings [j]).issue p (.ring p) { j.req opcDevRead 0 [] with opnd := 128 }) := by
    have idle : (c.setRings [j]).mgt.rings.any (fun j => j.part == p && decide (1 ≤ j.phase)) = false := by simp [Chip.setRings, j]
    have found : (c.setRings [j]).mgt.rings.find? (fun j => j.part == p) = some j := by simp [Chip.setRings, j]
    have region' : (c.setRings [j]).regionOf ((c.setRings [j]).fld .mgtRxCfg 12 [p] 15 0) = some slot := region
    have node' : (c.setRings [j]).localNode p = some n := node
    have mine : (bit ((c.setRings [j]).reg .mgtRxCfg 12 [p]) 31 && ((c.setRings [j]).region slot).part == p) = true :=
      Bool.and_eq_true_iff.mpr ⟨valid, beq_iff_eq.mpr owner⟩
    unfold Chip.ringStart
    rw [if_neg (by rw [idle]; decide), found]
    dsimp only
    rw [region', node']
    have replaced : ∀ j', modFirst (fun x => decide (x = j)) (fun _ => j') (c.setRings [j]).mgt.rings = [j'] := fun j' =>
      if_pos (decide_eq_true rfl)
    refine (if_pos mine).trans ?_
    rw [replaced]
    rfl
  unfold Chip.takeMsg
  rw [if_neg (by rw [on]; decide), if_neg (by rw [new]; decide)]
  dsimp only
  rw [part, if_neg (fun h => h active), none, if_neg (by simp)]
  exact starts

end

theorem msgResend_due {peer : Nat} {q : QMsg}
    (found : (c.mgt.queue.find? fun q => q.peer == peer && q.msgId == msgId && q.sentAt.isSome) = some q) (on : c.enabled 0x13 12 = true)
    (due : q.sentAt.getD 0 + max 1 (c.fld .mgtMsgCfg 12 [] 31 16) ≤ c.boot.tick) :
    c.msgResend peer msgId =
      if c.fld .mgtMsgCfg 12 [] 7 0 ≤ q.resends then (c.setQueue (c.mgt.queue.erase q)).bump .mgtMsgLost 12
      else (c.setQueue (modFirst (fun x => decide (x = q)) (fun _ => { q with resends := q.resends + 1, sentAt := some c.boot.tick })
        c.mgt.queue)).sendReq q.sess 0xC101 (q.msgId % 2 ^ 32) (natLE 8 q.msgId ++ wireMsg q) := by
  unfold Chip.msgResend
  rw [found]
  exact if_neg (by rw [on, Chip.due, decide_eq_true due]; decide)

end

/-- Settles O45: each record and the timeout by the case of its meaning. -/
theorem peerMessagesAct : Obligations.PeerMessagesAct := by
  unfold Obligations.PeerMessagesAct
  intro s msgId still
  refine ⟨fun sess x found peer ready => ⟨fun result q queued => ⟨fun sent => ?sent, fun lost => ?lost, fun h0 h2 => ?other⟩,
    fun msg on => ⟨fun known => ?duplicate, fun new idle => ?undeliverable,
      fun new active none slot n region node valid owner => ?delivers⟩⟩,
    fun peer q queued on due => ⟨fun last => ?given, fun again => ?resent⟩⟩
  case sent =>
    exact becomes s (.msgAck sess msgId result) _ _ rfl ((peerRecord_now found peer ready).trans ((takeAck_found queued).trans (if_pos sent)))
      ((quiet_setQueue _ _).trans (quiet_bump _ _ _ _ _)) still
  case lost =>
    subst lost
    exact becomes s (.msgAck sess msgId 2) _ _ rfl ((peerRecord_now found peer ready).trans (takeAck_found queued))
      ((quiet_setQueue _ _).trans (quiet_bump _ _ _ _ _)) still
  case other =>
    exact becomes s (.msgAck sess msgId result) _ _ rfl
      ((peerRecord_now found peer ready).trans ((takeAck_found queued).trans ((if_neg h0).trans (if_neg h2)))) (.rfl' _) still
  case duplicate =>
    exact becomes s (.peerMsg sess msgId msg) _ _ rfl ((peerRecord_now found peer ready).trans (takeMsg_duplicate on known))
      ((quiet_bump _ _ _ _ _).trans (quiet_sendReq _ _ _ _ _)) still
  case undeliverable =>
    exact becomes s (.peerMsg sess msgId msg) _ _ rfl ((peerRecord_now found peer ready).trans (takeMsg_undeliverable on new idle))
      (quiet_sendReq _ _ _ _ _) still
  case delivers =>
    exact settles_act rfl ((peerRecord_now found peer ready).trans (takeMsg_delivers on new active none region node valid owner))
  case given =>
    exact becomes s (.msgResendTimeout peer msgId) _ _ rfl ((msgResend_due queued on due).trans (if_pos last))
      ((quiet_setQueue _ _).trans (quiet_bump _ _ _ _ _)) still
  case resent =>
    exact becomes s (.msgResendTimeout peer msgId) _ _ rfl ((msgResend_due queued on due).trans (if_neg (Nat.not_le.mpr again)))
      ((quiet_setQueue _ _).trans (quiet_sendReq _ _ _ _ _)) still

/-! ### Handoff records at the receiver (R558, R559, R560) -/

section
variable {c : Chip} {x : Session} {epoch dstObj : Nat} {h : Handoff}

theorem hoOffer_committed (done : c.mgt.committed.contains (x.peer, epoch, dstObj) = true) {size off part crc : Nat} {last : Bool} {b : Bytes} :
    c.hoOffer x epoch dstObj size off part last crc b = c.sendHoAck x.id epoch dstObj 0xC111 0 := if_pos done

theorem hoCommit_committed (done : c.mgt.committed.contains (x.peer, epoch, dstObj) = true) :
    c.hoCommit x epoch dstObj = c.sendHoAck x.id epoch dstObj 0xC113 0 := if_pos done

/-- The receiver's handoff with one more segment. -/
def Handoff.segment (h : Handoff) (epoch tick off len : Nat) : Handoff :=
  { h with st := 8, peerEpoch := epoch, since := if h.st = 7 then tick else h.since, got := (off, len) :: h.got }

/-- A segment that is not the last, before the last has arrived. -/
theorem hoOffer_segment (new : c.mgt.committed.contains (x.peer, epoch, dstObj) = false) {off crc : Nat} {b : Bytes}
    (found : (c.mgt.handoffs.find? fun h => !h.sender && h.obj == dstObj && h.peer == x.peer &&
      (h.st == 7 || (h.st == 8 && h.peerEpoch == epoch))) = some h)
    (h1 : 1 ≤ b.length) (h2 : b.length ≤ 8192) (inside : off + b.length ≤ h.size) (open_ : h.acceptSent = false) (early : h.lastSeen = false)
    (waits : ((((c.writeObj h.obj off b).setHandoff h (h.segment epoch c.boot.tick off b.length)).mgt.handoffs.any
      fun y => y.obj == dstObj && y.acceptSent) = false)) :
    c.hoOffer x epoch dstObj h.size off h.dstPart false crc b =
      ((c.writeObj h.obj off b).setHandoff h (h.segment epoch c.boot.tick off b.length)).sendHoAck x.id epoch dstObj 0xC111 0 := by
  have segment : ({ h with st := 8, peerEpoch := epoch, since := if h.st = 7 then c.tick else h.since, got := (off, b.length) :: h.got
                           lastSeen := h.lastSeen || false, crc := if (false : Bool) = true then crc else h.crc } : Handoff) =
      h.segment epoch c.boot.tick off b.length := by
    unfold Handoff.segment
    rw [Bool.or_false]
    rfl
  have unfinished : ∀ d : Chip, d.offerCheck (h.segment epoch c.boot.tick off b.length) = (0, d) := fun d =>
    if_pos (by rw [show (h.segment epoch c.boot.tick off b.length).lastSeen = h.lastSeen from rfl, early]; rfl)
  unfold Chip.hoOffer
  dsimp only
  rw [if_neg (by rw [new]; decide), found]
  dsimp only
  rw [if_neg (by omega), if_neg (by rw [open_]; decide), segment, unfinished, waits]
  rfl

section
variable (new : c.mgt.committed.contains (x.peer, epoch, dstObj) = false)
  (found : (c.mgt.handoffs.find? fun h => !h.sender && h.obj == dstObj && h.peer == x.peer && h.st == 8 && h.peerEpoch == epoch) = some h)
include new found

theorem hoCommit_accepted (accepted : h.acceptSent = true) :
    c.hoCommit x epoch dstObj = (Chip.endHandoff { c with
      mgt := { c.mgt with committed := c.mgt.committed ++ [(x.peer, epoch, dstObj)] } } h 0 0).sendHoAck x.id epoch dstObj 0xC113 0 := by
  unfold Chip.hoCommit
  dsimp only
  rw [if_neg (by rw [new]; decide), found]
  exact if_pos accepted

theorem hoCommit_early (open_ : h.acceptSent = false) : c.hoCommit x epoch dstObj = c.sendHoAck x.id epoch dstObj 0xC113 1 := by
  unfold Chip.hoCommit
  dsimp only
  rw [if_neg (by rw [new]; decide), found]
  exact if_neg (by rw [open_]; decide)

end

/-! ### Handoff records at the sender -/

section
variable (sending : c.sending? x.peer epoch dstObj = some h)
include sending

theorem hoAccept_offered (st : h.st = 3) :
    c.hoAccept x epoch dstObj =
      ((c.setHandoff h { h with st := 4, resends := 0, sentAt := c.boot.tick }).sendHoAck x.id epoch dstObj 0xC112 0).sendHo x.peer 0xC113
        epoch dstObj := by
  unfold Chip.hoAccept
  rw [sending]
  exact if_pos st

/-- An acknowledgement of OFFER while its segments are being sent. -/
theorem hoAck_offer (st : h.st = 2) {result : Nat} :
    c.hoAck x epoch dstObj 0xC111 result =
      if result ≠ 0 then c.handoffOwned h
      else
        match h.unacked with
        | [] => c
        | [_] => c.setHandoff h { h with st := 3, unacked := [], since := c.tick }
        | _ :: t =>
          (c.setHandoff h { h with unacked := t, resends := 0, sentAt := c.tick }).sendOffer
            { h with unacked := t, resends := 0, sentAt := c.tick } := by
  unfold Chip.hoAck
  rw [if_neg (by decide), sending]
  exact if_pos ⟨rfl, st⟩

/-- An acknowledgement of COMMIT. -/
theorem hoAck_commit (st : h.st = 4 ∨ h.st = 5) {result : Nat} :
    c.hoAck x epoch dstObj 0xC113 result =
      if result = 0 then
        Chip.setHandoff (match h.cmd with
          | some k => (c.scrubExtent (c.obj h.obj)).endCmd k 0 0 (natLE 4 h.epoch)
          | none => c.scrubExtent (c.obj h.obj)) h { h with st := 6, cmd := none }
      else if result = 2 ∨ h.st = 4 then c.handoffOwned h
      else c := by
  unfold Chip.hoAck
  rw [if_neg (by decide), sending]
  dsimp only
  rw [if_neg (by rintro ⟨other, -⟩; exact absurd other (by decide))]
  exact if_pos ⟨rfl, st⟩

end

/-! ### Timeouts of handoffs -/

/-- A resend that is due: again, or the end of the attempts. -/
theorem handoffResend_due (found : (c.mgt.handoffs.find? fun h => (h.sender && h.epoch == epoch && (h.st == 2 || h.st == 4)) ||
      (!h.sender && h.peerEpoch == epoch && h.st == 8 && h.acceptSent && !h.acceptAcked)) = some h) (due : h.sentAt + c.msgRto ≤ c.boot.tick) :
    c.handoffResend epoch =
      if c.msgRetry ≤ h.resends then (if h.st = 2 then c.handoffOwned h else if h.st = 4 then c.handoffDoubt h else c)
      else
        let h' := { h with resends := h.resends + 1, sentAt := c.boot.tick }
        if h.st = 2 then (c.setHandoff h h').sendOffer h'
        else if h.st = 4 then (c.setHandoff h h').sendHo h.peer 0xC113 epoch h.dstObj
        else (c.setHandoff h h').sendHo h.peer 0xC112 epoch h.obj := by
  unfold Chip.handoffResend
  rw [found]
  exact if_neg (by rw [Chip.due, decide_eq_true due]; decide)

theorem offeredTimeout_due (found : (c.mgt.handoffs.find? fun h => h.sender && h.epoch == epoch && h.st == 3) = some h)
    (due : h.since + c.msgRto * (c.msgRetry + 1) ≤ c.boot.tick) : c.offeredTimeout epoch = c.handoffOwned h := by
  unfold Chip.offeredTimeout
  rw [found]
  exact if_pos (decide_eq_true due)

theorem tentativeTimeout_due (found : (c.mgt.handoffs.find? fun h => !h.sender && h.peerEpoch == epoch && h.st == 8) = some h)
    (due : h.since + c.hsTmo ≤ c.boot.tick) : c.tentativeTimeout epoch = c.handoffDiscard h := by
  unfold Chip.tentativeTimeout
  rw [found]
  exact if_pos (decide_eq_true due)

/-! ### They leave nothing over -/

theorem quiet_setHandoff (c : Chip) (h h' : Handoff) : Quiet c (c.setHandoff h h') := quiet_setHandoffs _ _

theorem quiet_handoffOwned (c : Chip) (h : Handoff) : Quiet c (c.handoffOwned h) := quiet_endHandoff _ _ _ _

theorem quiet_committed (c : Chip) (l : List (Nat × Nat × Nat)) : Quiet c { c with mgt := { c.mgt with committed := l } } :=
  quiet_of _ _ rfl rfl rfl rfl id id

theorem quiet_scrubExtent (c : Chip) (o : Obj) : Quiet c (c.scrubExtent o) := quiet_of _ _ rfl rfl rfl rfl id id

end

/-- Settles O46: each record and each timeout by the case of its meaning. -/
theorem handoffRecordsAct : Obligations.HandoffRecordsAct := by
  unfold Obligations.HandoffRecordsAct
  intro s epoch still
  refine ⟨fun sess dstObj x found peer ready => ?records, fun h found due => ?resend, fun h found due => ?offered,
    fun h found due => ?tentative⟩
  case records =>
    have taken : ∀ {i : Instr} {opc : Nat} {want : Bytes} {f : Chip → Session → Chip} {d : Chip},
        exec i s = act s (s.chip.peerRecord sess opc want f) → f s.chip x = d → Quiet s.chip d → Becomes s i d :=
      fun hi effect quiet => becomes s _ _ _ hi ((peerRecord_now found peer ready).trans effect) quiet still
    refine ⟨fun done => ⟨fun size off part last crc b => ?again, ?committed⟩,
      fun new => ⟨fun h off crc b found h1 h2 inside open_ early waits => ?segment, fun h found => ⟨fun accepted => ?commit, fun open_ => ?early⟩⟩,
      fun h sending => ⟨fun st => ?accept, fun st a one => ?last, fun st a b t more => ?next, fun st r refused => ?refused,
        fun st idle => ?released, fun st => ?unknown⟩⟩
    case again => exact taken rfl (hoOffer_committed done) (quiet_sendReq _ _ _ _ _)
    case committed => exact taken rfl (hoCommit_committed done) (quiet_sendReq _ _ _ _ _)
    case segment =>
      exact taken rfl (hoOffer_segment new found h1 h2 inside open_ early waits)
        (((worked_writeObj _ _ _ _).quiet.trans (quiet_setHandoff _ _ _)).trans (quiet_sendReq _ _ _ _ _))
    case commit =>
      exact taken rfl (hoCommit_accepted new found accepted)
        (((quiet_committed _ _).trans (quiet_endHandoff _ _ _ _)).trans (quiet_sendReq _ _ _ _ _))
    case early => exact taken rfl (hoCommit_early new found open_) (quiet_sendReq _ _ _ _ _)
    case accept =>
      exact taken rfl (hoAccept_offered sending st)
        (((quiet_setHandoff _ _ _).trans (quiet_sendReq _ _ _ _ _)).trans (quiet_sendPeer _ _ _ _))
    case last =>
      have acked := hoAck_offer sending st (result := 0)
      rw [one] at acked
      exact taken rfl acked (quiet_setHandoff _ _ _)
    case next =>
      have acked := hoAck_offer sending st (result := 0)
      rw [more] at acked
      exact taken rfl acked ((quiet_setHandoff _ _ _).trans (quiet_sendOffer _ _))
    case refused => exact taken rfl ((hoAck_offer sending st).trans (if_pos refused)) (quiet_handoffOwned _ _)
    case released =>
      have acked := hoAck_commit sending st (result := 0)
      rw [idle] at acked
      exact taken rfl acked ((quiet_scrubExtent _ _).trans (quiet_setHandoff _ _ _))
    case unknown =>
      exact taken rfl ((hoAck_commit sending st (result := 2)).trans ((if_neg (by decide)).trans (if_pos (.inl rfl)))) (quiet_handoffOwned _ _)
  case resend =>
    have timed := handoffResend_due found due
    refine ⟨fun again => ?again, fun done => ⟨fun st => ?owned, fun st => ?doubt⟩⟩
    case again =>
      have sent := timed.trans (if_neg (Nat.not_le.mpr again))
      refine ⟨fun st => ?offer, fun st => ?commit, fun st => ?accept⟩
      case offer =>
        exact becomes s (.handoffResendTimeout epoch) _ _ rfl (sent.trans (if_pos st))
          ((quiet_setHandoff _ _ _).trans (quiet_sendOffer _ _)) still
      case commit =>
        exact becomes s (.handoffResendTimeout epoch) _ _ rfl (sent.trans ((if_neg (by omega)).trans (if_pos st)))
          ((quiet_setHandoff _ _ _).trans (quiet_sendPeer _ _ _ _)) still
      case accept =>
        exact becomes s (.handoffResendTimeout epoch) _ _ rfl (sent.trans ((if_neg (by omega)).trans (if_neg (by omega))))
          ((quiet_setHandoff _ _ _).trans (quiet_sendPeer _ _ _ _)) still
    case owned =>
      exact becomes s (.handoffResendTimeout epoch) _ _ rfl ((timed.trans (if_pos done)).trans (if_pos st)) (quiet_handoffOwned _ _) still
    case doubt =>
      exact becomes s (.handoffResendTimeout epoch) _ _ rfl ((timed.trans (if_pos done)).trans ((if_neg (by omega)).trans (if_pos st)))
        (quiet_handoffDoubt _ _) still
  case offered => exact becomes s (.offeredTimeout epoch) _ _ rfl (offeredTimeout_due found due) (quiet_handoffOwned _ _) still
  case tentative => exact becomes s (.tentativeTimeout epoch) _ _ rfl (tentativeTimeout_due found due) (quiet_handoffDiscard _ _) still

end Sys2Proof.Machine
end


section
/-! SUPPORT. O30, O19 and O16: temperatures, the steward's sequence, and failover to complex B (R529, R550, R553, R578). -/

namespace Sys2Proof.Machine

/-! ### Fatal errors and temperatures (R550, R578) -/

section
variable {c d : Chip}

theorem quiet_pwr (c : Chip) (p : Pwr) : Quiet c { c with pwr := p } := quiet_of _ _ rfl rfl rfl rfl id id

theorem Raised.idle (h : Raised c d) (idle : c.Idle) : d.Idle := by
  refine ⟨h.still idle.1, ?_⟩
  unfold Raised at h
  rw [h]
  exact idle.2

theorem Raised.recovering (h : Raised c d) (ev : Nat) : Raised (c.recovering ev) (d.recovering ev) := by
  unfold Raised at h
  rw [h]
  rfl

/-- A fatal error after events to firmware. -/
theorem Raised.fatal (h : Raised c d) (idle : c.Idle) (ev : Nat)
    (state : c.boot.state = .service ∨ c.boot.state = .degraded ∨ c.boot.state = .waitOwner)
    (sessions : ∀ y ∈ c.mgt.sessions, y.kind = 0) (handshakes : ∀ y ∈ c.mgt.handshakes, y.kind = 0) :
    Raised (c.recovering ev) (d.fatal ev) := by
  refine (h.recovering ev).trans (raised_fatal d (h.idle idle) ev ?_ ?_ ?_)
  all_goals
    unfold Raised at h
    rw [h]
    assumption

theorem quiet_recovering (c : Chip) (ev : Nat) : Quiet c (c.recovering ev) := quiet_of _ _ rfl rfl rfl rfl id id

theorem thermWarn_runs (runs : c.pmbusRuns = true) (temps : List Nat) :
    c.thermWarn temps =
      let seen : Chip := { c with pwr := { c.pwr with temps := (temps.take 12).zipIdx.map fun e => (e.2, e.1) } }
      if c.pwr.warn = true then (if seen.tjMax + 5 ≤ c.warnC then { seen with pwr := { seen.pwr with warn := false } } else seen)
      else if c.warnC ≤ seen.tjMax then (({ seen with pwr := { seen.pwr with warn := true } }).bump .pwrWarns 12).raise Ev.thermWarn []
      else seen := if_pos runs

/-- A die's temperature recorded, and the cap at its deepest step. -/
def Chip.tripped (c : Chip) (die temp : Nat) : Chip := { c with pwr := { c.pwr with temps := kput c.pwr.temps die temp, capMv := 200 } }

theorem thermTrip_trips {die temp : Nat} (runs : c.pmbusRuns = true) (core : die < 12) (hot : 115 ≤ temp) (off : c.enabled 0x14 12 = false) :
    c.thermTrip die temp =
      ((c.tripped die temp).raise Ev.thermTrip []).fatal Ev.thermTrip := by
  unfold Chip.thermTrip
  rw [runs, decide_eq_true core, decide_eq_true hot]
  have stays : (c.tripped die temp).enabled 0x14 12 ≠ true := ne_true_of_eq_false off
  exact (if_pos rfl).trans (congrArg (fun d : Chip => (d.raise Ev.thermTrip []).fatal Ev.thermTrip) (if_neg stays))

end

/-- Settles O30: the four cases of the threshold; a trip is the cap's deepest step, its event and the fatal error. -/
theorem temperatureActs : Obligations.TemperatureActs := by
  unfold Obligations.TemperatureActs
  intro s still runs
  refine ⟨fun temps => ?warn, fun die temp core hot idle off state sessions handshakes => ?trip⟩
  case warn =>
    have warns := thermWarn_runs runs temps
    refine ⟨fun clear hot => ?_, fun clear cool => ?_, fun warm hot => ?_, fun warm cool => ?_⟩
    · refine raisesTo s _ _ (s.chip.thermWarn temps) rfl ?_ ((quiet_pwr _ _).still still)
      rw [warns, if_neg (ne_true_of_eq_false clear), if_pos hot]
      exact (raised_bump _ _ _ _ _).trans (raised_raise _ _ _ _ _)
    · refine becomes s _ _ _ rfl (warns.trans ?_) (quiet_pwr _ _) still
      rw [if_neg (ne_true_of_eq_false clear), if_neg (Nat.not_le.mpr cool)]
    · refine becomes s _ _ _ rfl (warns.trans ?_) (quiet_pwr _ _) still
      rw [if_pos warm, if_neg (Nat.not_le.mpr hot)]
    · refine becomes s _ _ _ rfl (warns.trans ?_) (quiet_pwr _ _) still
      rw [if_pos warm, if_pos cool]
  case trip =>
    have tripped : Raised (s.chip.tripped die temp |>.recovering Ev.thermTrip) (s.chip.thermTrip die temp) := by
      rw [thermTrip_trips runs core hot off]
      exact Raised.fatal (raised_raise (s.chip.tripped die temp) _ _ _ _) idle _ state sessions handshakes
    exact raisesTo s _ _ _ rfl tripped ((quiet_recovering _ _).still ((quiet_pwr _ _).still still))

/-! ### A device state entered from any other -/

section
variable {c : Chip}

/-- The module in the device state `st`, entered now; TEST's node is forgotten when TEST is left. -/
def Chip.entering (c : Chip) (st : DevState) : Chip :=
  ({ c with boot := { c.boot with state := st, times := if 3 ≤ st.code then kput c.boot.times st.code c.tick else c.boot.times } } : Chip).when
    (c.boot.state == .test) fun c => c.setReg .secTestNode 12 [] 0

theorem entering_eq (c : Chip) (st : DevState) :
    c.entering st = { c with
      boot := { c.boot with state := st, times := if 3 ≤ st.code then kput c.boot.times st.code c.tick else c.boot.times }
      ctl := (c.entering st).ctl } := by
  unfold Chip.entering Chip.when
  split <;> rfl

theorem quiet_entering (c : Chip) (st : DevState) : Quiet c (c.entering st) :=
  (quiet_of _ _ rfl rfl rfl rfl id id : Quiet c { c with
    boot := { c.boot with state := st, times := if 3 ≤ st.code then kput c.boot.times st.code c.tick else c.boot.times } }).trans
    (quiet_when _ _ _ (quiet_setReg _ _ _ _ _))

theorem admitSessions_none (sessions : c.mgt.sessions = []) (handshakes : c.mgt.handshakes = []) : c.admitSessions = c := by
  unfold Chip.admitSessions
  rw [sessions]
  dsimp only [List.filter_nil, List.foldl_nil]
  rw [handshakes]
  rfl

/-- A change of the device state with no session and no handshake. -/
theorem raised_entering {st : DevState} (sessions : c.mgt.sessions = []) (handshakes : c.mgt.handshakes = []) :
    Raised (c.entering st) (c.devTo st) := by
  have raised := raised_when (c.entering st) (bit ((c.entering st).reg .bootCtrl 12) 0)
    (fun d => d.raise Ev.devState [] (st.code + 16 * c.boot.state.code) 0) (raised_raise _ _ _ _ _)
  have mgt : (c.entering st).mgt = c.mgt := by rw [entering_eq]
  have kept : ((c.entering st).when (bit ((c.entering st).reg .bootCtrl 12) 0)
      fun d => d.raise Ev.devState [] (st.code + 16 * c.boot.state.code) 0).mgt = c.mgt := by
    rw [show _ = _ from raised]
    exact mgt
  have devTo : c.devTo st = ((c.entering st).when (bit ((c.entering st).reg .bootCtrl 12) 0)
      fun d => d.raise Ev.devState [] (st.code + 16 * c.boot.state.code) 0).admitSessions := rfl
  rw [devTo, admitSessions_none (by rw [kept, sessions]) (by rw [kept, handshakes])]
  exact raised

end

/-! ### The steward's sequence (R553) -/

section
variable {c : Chip}

theorem stopWork_still (still : c.Still) : c.stopWork.Still :=
  ⟨rfl, still.2.1, rfl, rfl, fun _ h => absurd h List.not_mem_nil, fun _ h => absurd h List.not_mem_nil,
    fun _ h => absurd h List.not_mem_nil, fun _ h => absurd h List.not_mem_nil⟩

theorem deviceLost_eq (c : Chip) (cause : Nat) : c.deviceLost cause = { c with mgt := { c.mgt with ethTx := (c.deviceLost cause).mgt.ethTx } } := by
  unfold Chip.deviceLost Chip.sendClear Chip.ethSend
  split <;> rfl

theorem Worked.setDump {d : Chip} (h : Worked c d) (x : Dump) : Worked { c with dump := x } { d with dump := x } := by
  unfold Worked at h
  rw [h]
  rfl

theorem minimalDump_eq (c : Chip) (snaps : KMap Chip) (t : Nat) :
    Worked { c with dump := (c.minimalDump snaps t).dump } (c.minimalDump snaps t) := by
  unfold Chip.minimalDump
  split
  · exact .rfl' c
  · exact (worked_writeDump c _).setDump _

theorem minimalDump_dump (c : Chip) (snaps : KMap Chip) (t : Nat) :
    if c.dump.valid = true ∧ c.dump.released = false then (c.minimalDump snaps t).dump = c.dump
    else (c.minimalDump snaps t).dump.valid = true ∧ (c.minimalDump snaps t).dump.kind = 2 := by
  unfold Chip.minimalDump
  by_cases kept : c.dumpKept = true
  · rw [if_pos (dumpKept_iff.mp kept), if_pos kept]
  · rw [if_neg fun h => kept (dumpKept_iff.mpr h), if_neg kept]
    exact ⟨rfl, rfl⟩

end

section
variable {c m : Chip}

/-- The steward's sequence where every port is already DOWN and no session exists. -/
theorem stewardDrainEnd_eq {snaps : KMap Chip} {t : Nat} (lost : c.mcs.stewardAt = some t) (due : t + 2000 ≤ c.boot.tick)
    (watches : c.stewardWatches = true) (sessions : c.mgt.sessions = []) (down : ∀ p < 256, (c.port p).st = .down) :
    c.stewardDrainEnd snaps = ((((c.minimalDump snaps t).deviceLost 5).stopWork.setHandshakes []).assertFault).devTo .dead := by
  have lnk : ((c.minimalDump snaps t).deviceLost 5).lnk = c.lnk := by
    rw [deviceLost_eq, show _ = _ from minimalDump_eq c snaps t]
  have none : ((c.minimalDump snaps t).deviceLost 5).mgt.sessions = [] := by
    rw [deviceLost_eq, show _ = _ from minimalDump_eq c snaps t]
    exact sessions
  have ports : ((List.range 256).filter ((c.minimalDump snaps t).deviceLost 5).portExists).foldl (fun c p => c.portDown p)
      ((c.minimalDump snaps t).deviceLost 5) = (c.minimalDump snaps t).deviceLost 5 := by
    refine foldl_stays fun p hp => portDown_down ?_
    have kept := down p (List.mem_range.mp (List.mem_filter.mp hp).1)
    unfold Chip.port at kept ⊢
    rw [lnk]
    exact kept
  unfold Chip.stewardDrainEnd
  rw [lost]
  dsimp only
  rw [if_pos (by rw [watches, Chip.due, decide_eq_true due]; rfl), ports, none]
  rfl

end

/-- Settles O19: the dump, DEVICE_LOST, nothing that ran on, and the change to DEAD. -/
theorem stewardEndsInDead : Obligations.StewardEndsInDead := by
  unfold Obligations.StewardEndsInDead
  intro s t still lost due watches sessions handshakes down
  have ends := stewardDrainEnd_eq (snaps := s.snap) lost due watches sessions down
  have kept := minimalDump_eq s.chip s.snap t
  have dump := minimalDump_dump s.chip s.snap t
  have record := deviceLost_eq (s.chip.minimalDump s.snap t) 5
  have quiet : ((s.chip.minimalDump s.snap t).deviceLost 5).Still :=
    ((quiet_dump _ _).trans (kept.quiet.trans (quiet_sendClear _ _ _ _ _))).still still
  generalize s.chip.minimalDump s.snap t = m at *
  have none : (m.deviceLost 5).mgt.sessions = [] := by
    rw [record, show _ = _ from kept]
    exact sessions
  have lostDump : (m.deviceLost 5).dump = m.dump := by rw [record]
  generalize m.deviceLost 5 = d at *
  have raised : Raised ((d.stopWork.setHandshakes []).assertFault.entering .dead) _ := raised_entering (st := .dead) none rfl
  have work := entering_eq (d.stopWork.setHandshakes []).assertFault .dead
  have calm := (quiet_entering (d.stopWork.setHandshakes []).assertFault .dead).still (stopWork_still quiet)
  have run : exec .stewardDrainEnd s = .next { s with chip := (d.stopWork.setHandshakes []).assertFault.devTo .dead } := by
    refine (show exec .stewardDrainEnd s = act s (s.chip.stewardDrainEnd s.snap) from rfl).trans ?_
    rw [ends]
    exact act_still s _ (raised.still calm)
  refine ⟨_, run, ?_⟩
  generalize (d.stopWork.setHandshakes []).assertFault.entering .dead = e at *
  generalize (d.stopWork.setHandshakes []).assertFault.devTo .dead = x at *
  dsimp only
  rw [show _ = _ from raised, work]
  refine ⟨rfl, rfl, rfl, rfl, rfl, rfl, rfl, rfl, ?_⟩
  rw [← lostDump] at dump
  exact dump

/-! ### A complex is marked failed (R480, R529) -/

/-- `d` is `c` but for its stored words, counters and interrupt controller. -/
def Rerouted (c d : Chip) : Prop :=
  d = { c with irq := d.irq, ctl := { c.ctl with regs := d.ctl.regs, tri := d.ctl.tri, cnt := d.ctl.cnt, sat := d.ctl.sat, satEv := d.ctl.satEv } }

section
variable {c d e : Chip}

theorem Rerouted.trans (h : Rerouted c d) (g : Rerouted d e) : Rerouted c e := by
  unfold Rerouted at *
  rw [g, h]

theorem Rerouted.foldl {α : Type} (f : Chip → α → Chip) (h : ∀ c x, Rerouted c (f c x)) (l : List α) (c : Chip) : Rerouted c (l.foldl f c) := by
  induction l generalizing c with
  | nil => rfl
  | cons x t ih => exact (h c x).trans (ih _)

theorem Raised.rerouted (h : Raised c d) : Rerouted c d := by
  unfold Raised at h
  unfold Rerouted
  rw [h]
  rfl

theorem Rerouted.quiet (h : Rerouted c d) : Quiet c d := by
  unfold Rerouted at h
  rw [h]
  exact quiet_of _ _ rfl rfl rfl rfl id id

theorem bit_putBits_zero {w : Nat} (small : w < 2 ^ 32) : bit (putBits w 31 31 0) 31 = false := by
  have value : putBits w 31 31 0 = w % 2 ^ 31 := by
    unfold putBits
    omega
  rw [value, bit_eq_testBit]
  exact Nat.testBit_lt_two_pow (Nat.mod_lt _ (by decide))

/-- A core's EN becomes 0 and its stack is emptied. -/
def Chip.coreOff (c : Chip) (k : Nat) : Chip := (c.setFld .irqCoreCfg 12 [k] 31 31 0).modIrqCore k fun _ => {}

theorem rerouted_setReg (c : Chip) (r : Reg) (die : Nat) (i : List Nat) (v : Nat) : Rerouted c (c.setReg r die i v) := rfl

theorem rerouted_modIrqCore (c : Chip) (k : Nat) (f : IrqCore → IrqCore) : Rerouted c (c.modIrqCore k f) := rfl

theorem modIrqCore_reg (c : Chip) (k : Nat) (f : IrqCore → IrqCore) (r : Reg) (die : Nat) (i : List Nat) :
    (c.modIrqCore k f).reg r die i = c.reg r die i := rfl

theorem rerouted_coreOff (c : Chip) (k : Nat) : Rerouted c (c.coreOff k) := (rerouted_setReg ..).trans (rerouted_modIrqCore ..)

theorem coreOff_self (c : Chip) (k : Nat) : bit ((c.coreOff k).reg .irqCoreCfg 12 [k]) 31 = false := by
  unfold Chip.coreOff Chip.setFld
  rw [modIrqCore_reg, bit_reg_setReg _ _ _ _ _ _ (by decide)]
  exact bit_putBits_zero (reg_lt ..)

theorem coreOff_other (c : Chip) {j k : Nat} (hj : j < 8) (hk : k < 8) (other : j ≠ k) :
    (c.coreOff k).reg .irqCoreCfg 12 [j] = c.reg .irqCoreCfg 12 [j] := by
  unfold Chip.coreOff Chip.setFld
  rw [modIrqCore_reg]
  refine reg_setReg_ne c .irqCoreCfg .irqCoreCfg 12 12 [k] [j] _ fun same => other ?_
  have slots := congrArg slotAt same
  rw [slotAt_irqCoreCfg j hj, slotAt_irqCoreCfg k hk] at slots
  cases slots
  rfl

theorem coresOff_keep {j : Nat} (hj : j < 8) : ∀ (l : List Nat), (∀ k ∈ l, k < 8) → ∀ c : Chip, bit (c.reg .irqCoreCfg 12 [j]) 31 = false →
    bit ((l.foldl Chip.coreOff c).reg .irqCoreCfg 12 [j]) 31 = false
  | [], _, _, off => off
  | k :: t, small, c, off => by
    refine coresOff_keep hj t (fun k hk => small k (List.mem_cons_of_mem _ hk)) _ ?_
    by_cases same : j = k
    · subst same
      exact coreOff_self c j
    · rw [coreOff_other c hj (small k List.mem_cons_self) same]
      exact off

theorem coresOff_off {j : Nat} : ∀ (l : List Nat), (∀ k ∈ l, k < 8) → j ∈ l → ∀ c : Chip,
    bit ((l.foldl Chip.coreOff c).reg .irqCoreCfg 12 [j]) 31 = false
  | k :: t, small, hj, c => by
    have rest := fun k hk => small k (List.mem_cons_of_mem _ hk)
    by_cases same : j = k
    · subst same
      exact coresOff_keep (small j List.mem_cons_self) t rest _ (coreOff_self c j)
    · exact coresOff_off t rest ((List.mem_cons.mp hj).resolve_left same) _

theorem raised_reroute (c : Chip) (lost : List Nat) : Raised c (c.reroute lost) := Raised.foldl _ (fun c x => raised_routeLatch c x) _ _

theorem failMc_A (c : Chip) :
    c.failMc false = ([0, 1, 2, 3].foldl Chip.coreOff { c with mcs := { c.mcs with failedA := true } }).reroute [0, 1, 2, 3] := rfl

theorem rerouted_failMc (c : Chip) : Rerouted { c with mcs := { c.mcs with failedA := true } } (c.failMc false) :=
  (Rerouted.foldl Chip.coreOff rerouted_coreOff _ _).trans (raised_reroute _ _).rerouted

theorem failMc_off (c : Chip) {k : Nat} (hk : k < 4) : bit ((c.failMc false).reg .irqCoreCfg 12 [k]) 31 = false := by
  have kept := (raised_reroute ([0, 1, 2, 3].foldl Chip.coreOff { c with mcs := { c.mcs with failedA := true } }) [0, 1, 2, 3]).noted.reg
    .irqCoreCfg 12 [k]
  rw [failMc_A, kept]
  exact coresOff_off _ (by decide) (by simp; omega) _

end

/-! ### What a failover leaves (R508, R529) -/

section
variable {c d : Chip}

theorem answered_endCmd (c : Chip) (cmd : Nat × Nat) (status detail : Nat) (body : Bytes) : Answered c (c.endCmd cmd status detail body) := by
  unfold Chip.endCmd
  split
  · exact answered_when _ _ _ (answered_bump _ _ _ _ _)
  · split
    · exact .rfl' c
    · exact answered_finishCmd _ _ _ _ _ _ _

theorem answered_interruptCmds (c : Chip) : Answered c c.interruptCmds := by
  unfold Chip.interruptCmds
  exact (Answered.foldl _ (fun c k => answered_endCmd c k 8 1 []) _ _).trans
    ((Answered.foldl _ (fun c (k : Nat × Nat × Nat) => answered_finishCmd c k.1 k.2.1 k.2.2 8 0 []) _ _).trans (answered_mgt _ _))

theorem quiet_interruptCmds (c : Chip) : Quiet c c.interruptCmds := by
  unfold Chip.interruptCmds
  exact (Quiet.foldl _ (fun c k => quiet_endCmd c k 8 1 []) _ _).trans
    ((Quiet.foldl _ (fun c (k : Nat × Nat × Nat) => quiet_finishCmd c k.1 k.2.1 k.2.2 8 0 []) _ _).trans (quiet_sessions _ _))

/-- A session of no peer forgets its copied requests. -/
def Session.forgetReady (x : Session) : Session := if x.kind = 2 then x else { x with ready := [] }

theorem Session.forgetReady_id (x : Session) : x.forgetReady.id = x.id := by
  unfold Session.forgetReady
  split <;> rfl

theorem Session.forgetReady_cache (x : Session) : x.forgetReady.cache = x.cache := by
  unfold Session.forgetReady
  split <;> rfl

theorem lastReply_forgetReady (c : Chip) (i : Nat) : (c.setSessions (c.mgt.sessions.map Session.forgetReady)).lastReply i = c.lastReply i := by
  have same : (fun x : Session => x.id == i) ∘ Session.forgetReady = fun x => x.id == i := by
    funext x
    exact congrArg (· == i) x.forgetReady_id
  unfold Chip.lastReply Chip.session? Chip.setSessions
  dsimp only
  rw [List.find?_map, same]
  cases c.mgt.sessions.find? fun x => x.id == i with
  | none => rfl
  | some x => exact congrArg List.head? x.forgetReady_cache

/-- One session with one command running: the command is answered INTERRUPTED with DETAIL 1. -/
theorem interruptCmds_lastReply {x : Session} {r : Running} (sessions : c.mgt.sessions = [x]) (running : x.running = [r]) (ready : x.ready = []) :
    c.interruptCmds.lastReply x.id = some (r.reqId, r.opc, 8, 1, []) := by
  have session : c.session? x.id = some x := by
    unfold Chip.session?
    rw [sessions]
    simp
  have ends : c.endCmd (x.id, r.reqId) 8 1 = c.finishCmd x.id r.reqId r.opc 8 1 [] := by
    unfold Chip.endCmd
    rw [session]
    dsimp only
    rw [running]
    simp
  have one : (c.mgt.sessions.flatMap fun s => s.running.map fun r => (s.id, r.reqId)) = [(x.id, r.reqId)] := by
    rw [sessions]
    simp [running]
  have none : ((c.mgt.sessions.filter fun s => s.kind != 2).flatMap fun s => s.ready.map fun r => (s.id, r.1, r.2.1)) = [] := by
    rw [sessions, List.filter_singleton]
    cases x.kind != 2 <;> simp [ready]
  unfold Chip.interruptCmds
  rw [one, none]
  dsimp only [List.foldl_cons, List.foldl_nil]
  rw [ends]
  exact (lastReply_forgetReady _ _).trans (finishCmd_lastReply _ _ _ _ _ _ _ _ session (by decide))

/-- Complex B is the active one from now on. -/
def Chip.overToB (c : Chip) : Chip :=
  { c.failMc false with mcs := { (c.failMc false).mcs with activeB := true, standbyOk := false, lastBeat := (c.failMc false).tick } }

theorem mcFailover_B (standby : c.mcs.standbyOk = true) (active : c.mcs.activeB = false) (runs : c.mcRuns true = true)
    (silent : c.mcs.lastBeat + c.hbPeriod * c.hbMiss ≤ c.boot.tick) :
    (c.boot.state = .load ∨ c.boot.state = .verify ∨ c.boot.state = .bringup → c.mcFailover = c.overToB.bootRestart) ∧
    (c.boot.state = .service ∨ c.boot.state = .degraded ∨ c.boot.state = .waitOwner →
      c.mcFailover = c.overToB.interruptCmds.raise Ev.mcFailover []) := by
  have due : c.due c.mcs.lastBeat (c.hbPeriod * c.hbMiss) = true := decide_eq_true silent
  unfold Chip.mcFailover
  rw [standby, active, due]
  dsimp only
  rw [Bool.not_false, runs]
  refine ⟨fun state => ?_, fun state => ?_⟩
  · rcases state with state | state | state <;> rw [state] <;> rfl
  · rcases state with state | state | state <;> rw [state] <;> rfl

theorem rerouted_overToB (c : Chip) :
    Rerouted { c with mcs := { c.mcs with activeB := true, failedA := true, standbyOk := false, lastBeat := c.boot.tick } } c.overToB := by
  have failed : Rerouted _ _ := rerouted_failMc c
  unfold Chip.overToB
  generalize c.failMc false = d at failed ⊢
  unfold Rerouted at failed
  rw [failed]
  rfl

theorem overToB_off (c : Chip) {k : Nat} (hk : k < 4) : bit (c.overToB.reg .irqCoreCfg 12 [k]) 31 = false := failMc_off c hk

end

/-- Settles O16: complex A is marked failed, then the boot starts again, or the commands in progress are interrupted. -/
theorem failoverTakesOver : Obligations.FailoverTakesOver := by
  unfold Obligations.FailoverTakesOver
  intro s still standby active runs silent
  obtain ⟨boots, takes⟩ := mcFailover_B standby active runs silent
  have moved : Rerouted _ _ := rerouted_overToB s.chip
  have calm : Quiet s.chip s.chip.overToB := (quiet_mcs _ _).trans moved.quiet
  have off := fun k (hk : k < 4) => overToB_off s.chip hk
  unfold Rerouted at moved
  generalize s.chip.overToB = d at *
  refine ⟨fun state => ?_, fun state => ?_⟩
  · have quiet : Quiet s.chip d.bootRestart := calm.trans (quiet_of _ _ rfl rfl rfl rfl id id)
    refine ⟨_, becomes s .mcFailover _ s.chip.mcFailover rfl (boots state) quiet still, ?_⟩
    refine ⟨?_, ?_, ?_, fun e he => ?_, ?_⟩
    · exact (show d.mcs = _ by rw [moved])
    · exact (show d.bootRestart.boot = _ by rw [moved]; rfl)
    · exact (show d.bootRestart.pins = _ by rw [moved]; rfl)
    · obtain ⟨_, -, rfl⟩ := List.mem_map.mp he
      rfl
    · exact (show d.mem = _ by rw [moved])
  · have answered : Answered d d.interruptCmds := answered_interruptCmds d
    have raised : Raised d.interruptCmds (d.interruptCmds.raise Ev.mcFailover []) := raised_raise _ _ _ _ _
    have quiet : Quiet s.chip (d.interruptCmds.raise Ev.mcFailover []) := calm.trans ((quiet_interruptCmds d).trans raised.quiet)
    refine ⟨_, becomes s .mcFailover _ s.chip.mcFailover rfl (takes state) quiet still, ?_⟩
    have mgt : (d.interruptCmds.raise Ev.mcFailover []).mgt = d.interruptCmds.mgt := by rw [show _ = _ from raised]; rfl
    have frame : d.interruptCmds.raise Ev.mcFailover [] = (d.answering d.interruptCmds).raising (d.interruptCmds.raise Ev.mcFailover []) :=
      (show _ = _ from raised).trans (congrArg (fun c : Chip => c.raising _) answered)
    generalize d.interruptCmds.raise Ev.mcFailover [] = x at *
    refine ⟨?_, ?_, ?_, ?_, ?_, fun k hk => ?_, fun y r sessions running ready => ?_⟩
    · exact (show x.mcs = _ by rw [frame, moved]; rfl)
    · exact (show x.boot = _ by rw [frame, moved]; rfl)
    · exact (show x.mem = _ by rw [frame, moved]; rfl)
    · exact (show x.gtx = _ by rw [frame, moved]; rfl)
    · exact (show x.dsp = _ by rw [frame, moved]; rfl)
    · have reg : x.reg .irqCoreCfg 12 [k] = d.reg .irqCoreCfg 12 [k] := by rw [frame]; rfl
      exact (congrArg (fun w => bit w 31) reg).trans (off k hk)
    · have same : d.mgt.sessions = s.chip.mgt.sessions := by rw [moved]
      have last := interruptCmds_lastReply (same.trans sessions) running ready
      unfold Chip.lastReply Chip.session? at last ⊢
      rw [mgt]
      exact last

end Sys2Proof.Machine
end


section
/-! SUPPORT. O29: the power-cap loop and the poll of the core rails (R574, R575, R577). -/

namespace Sys2Proof.Machine

/-! ### A rail after another -/

section
variable {c d : Chip}

theorem rail_setRail (c : Chip) (n m : Nat) (r : Rail) : (c.setRail n r).rail m = if m = n then r else c.rail m := by
  unfold Chip.rail Chip.setRail kgetD
  dsimp only
  by_cases same : m = n
  · subst same
    rw [kfind_kput_self, if_pos rfl]
    rfl
  · rw [kfind_kput_ne _ _ _ _ same, if_neg same]

theorem Raised.rail (h : Raised c d) (n : Nat) : d.rail n = c.rail n := by
  unfold Raised at h
  rw [h]
  rfl

/-- Steps that each set one rail: what they keep together, and every rail after them. `Inv` may speak of the rails to come. -/
theorem foldl_rails {f : Chip → Nat → Chip} {g : Nat → Rail → Rail} (Inv : List Nat → Chip → Prop)
    (step : ∀ n t c, n ∉ t → Inv (n :: t) c → Inv t (f c n) ∧ ∀ m, (f c n).rail m = if m = n then g n (c.rail n) else c.rail m) :
    ∀ l : List Nat, l.Nodup → ∀ c, Inv l c →
      Inv [] (l.foldl f c) ∧ ∀ m, (l.foldl f c).rail m = if m ∈ l then g m (c.rail m) else c.rail m
  | [], _, c, inv => ⟨inv, fun m => (if_neg List.not_mem_nil).symm⟩
  | n :: t, nodup, c, inv => by
    obtain ⟨fresh, rest⟩ := List.nodup_cons.mp nodup
    obtain ⟨first, set⟩ := step n t c fresh inv
    obtain ⟨last, rails⟩ := foldl_rails Inv step t rest _ first
    refine ⟨last, fun m => (rails m).trans ?_⟩
    rw [set m]
    by_cases same : m = n
    · subst same
      rw [if_neg fresh, if_pos rfl, if_pos List.mem_cons_self]
    · simp only [same, if_false, List.mem_cons, false_or]

end

/-! ### The power-cap loop (R574, R575) -/

section
variable {c : Chip}

/-- A rail that is on takes the setpoint `v`, to be written at the next poll. -/
def retarget (v : Nat) (r : Rail) : Rail := if r.on = true ∧ r.command ≠ v then { r with command := v, pending := true } else r

/-- A new VOUT of one rail waits to be written. -/
def Chip.revout (c : Chip) (n : Nat) : Chip :=
  if (c.rail n).on && c.voutOf n != (c.rail n).command then
    c.setRail n { c.rail n with command := c.voutOf n, pending := true } else c

theorem revout_moves (n : Nat) : ((c.rail n).on && c.voutOf n != (c.rail n).command) = true ↔
    (c.rail n).on = true ∧ (c.rail n).command ≠ c.voutOf n := by
  rw [Bool.and_eq_true_iff, bne_iff_ne, ne_comm]

theorem revout_eq (c : Chip) (n : Nat) : c.revout n = { c with pwr := { c.pwr with rails := (c.revout n).pwr.rails } } := by
  unfold Chip.revout
  split <;> rfl

theorem rail_revout (c : Chip) (n m : Nat) : (c.revout n).rail m = if m = n then retarget (c.voutOf n) (c.rail n) else c.rail m := by
  unfold Chip.revout retarget
  by_cases moves : (c.rail n).on = true ∧ (c.rail n).command ≠ c.voutOf n
  · rw [if_pos ((revout_moves n).mpr moves), if_pos moves]
    exact rail_setRail _ _ _ _
  · rw [if_neg fun h => moves ((revout_moves n).mp h), if_neg moves]
    by_cases same : m = n
    · rw [if_pos same, same]
    · rw [if_neg same]

theorem setVouts_foldl (c : Chip) : c.setVouts = (List.range 12).foldl Chip.revout c := rfl

theorem setVouts_eq (c : Chip) :
    c.setVouts = { c with pwr := { c.pwr with rails := c.setVouts.pwr.rails } } ∧
      ∀ n < 12, c.setVouts.rail n = retarget (c.voutOf n) (c.rail n) := by
  have fold := foldl_rails (f := Chip.revout) (g := fun n => retarget (c.voutOf n))
    (fun (_ : List Nat) (d : Chip) => d = { c with pwr := { c.pwr with rails := d.pwr.rails } })
    (fun n t d _ inv => ⟨(revout_eq d n).trans (by rw [inv]), fun m => (rail_revout d n m).trans (by
      rw [show d.voutOf n = c.voutOf n by rw [inv]; rfl])⟩) (List.range 12) List.nodup_range c rfl
  rw [← setVouts_foldl] at fold
  exact ⟨fold.1, fun n hn => (fold.2 n).trans (if_pos (List.mem_range.mpr hn))⟩

theorem overCap_eq (c : Chip) :
    c.overCap = ({ c with pwr := { c.pwr with overCap := c.overCap.pwr.overCap } } : Chip).raising c.overCap ∧
      c.overCap.pwr.overCap = (if c.pcap < c.pwr.coreW ∧ ∀ n < 12, c.voutOf n = c.floorMv n then
        (if c.pwr.overCap + 1 < 100 then c.pwr.overCap + 1 else 0) else 0) := by
  have at_ : (decide (c.pcap < c.pwr.coreW) && (List.range 12).all fun n => c.voutOf n == c.floorMv n) = true ↔
      c.pcap < c.pwr.coreW ∧ ∀ n < 12, c.voutOf n = c.floorMv n := by
    simp
  unfold Chip.overCap
  dsimp only
  by_cases over_ : c.pcap < c.pwr.coreW ∧ ∀ n < 12, c.voutOf n = c.floorMv n
  · rw [at_.mpr over_, Bool.not_true, if_neg (by decide), if_pos over_]
    split
    · exact ⟨rfl, rfl⟩
    · have raised := (raised_bump { c with pwr := { c.pwr with overCap := 0 } } .pwrWarns 12 [] 1).trans
        (raised_raise _ Ev.thermWarn 256 0 [])
      unfold Raised at raised
      generalize Chip.raise _ _ _ _ _ _ = d at raised ⊢
      rw [raised]
      exact ⟨rfl, rfl⟩
  · rw [Bool.eq_false_iff.mpr fun h => over_ (at_.mp h), if_neg over_]
    exact ⟨rfl, rfl⟩

/-- The cap an evaluation leaves (R574). -/
def Chip.steppedCap (c : Chip) : Nat :=
  if (c.pcap < c.pwr.coreW ∨ c.pwr.warn = true) ∧ c.pwr.capMv < 200 then min 200 (c.pwr.capMv + max 1 (c.fld .pwrGlb 12 [] 7 0))
  else if c.pwr.coreW + 100 < c.pcap ∧ c.pwr.warn = false then c.pwr.capMv - max 1 (c.fld .pwrGlb 12 [] 7 0)
  else c.pwr.capMv

/-- The module with that cap, evaluated now. -/
def Chip.capped (c : Chip) : Chip := { c with pwr := { c.pwr with capMv := c.steppedCap, evalAt := c.tick } }

theorem capLoop_due (runs : c.pmbusRuns = true) (on : c.enabled 0x14 12 = true) (due : c.pwr.evalAt + 100 ≤ c.tick) :
    c.capLoop = ((c.capped.when ((decide (c.pcap < c.pwr.coreW) || c.pwr.warn) && decide (c.pwr.capMv < 200))
      fun d => d.bump .pwrCapSteps 12).setVouts).overCap := by
  unfold Chip.capLoop
  rw [if_pos (by rw [runs, on, Chip.due, decide_eq_true (show c.pwr.evalAt + 100 ≤ c.boot.tick from due)]; rfl)]
  unfold Chip.capped Chip.steppedCap
  simp only [Bool.and_eq_true, Bool.or_eq_true, decide_eq_true_eq, Bool.not_eq_true']

theorem capLoop_idle (h : c.pmbusRuns = false ∨ c.enabled 0x14 12 = false ∨ c.tick < c.pwr.evalAt + 100) : c.capLoop = c := by
  refine if_neg ?_
  rw [Bool.and_eq_true_iff, Bool.and_eq_true_iff]
  rintro ⟨⟨runs, on⟩, due⟩
  rcases h with h | h | h
  · rw [h] at runs; cases runs
  · rw [h] at on; cases on
  · exact Nat.not_le.mpr h (of_decide_eq_true due)

/-- An evaluation: the frame, the rails and the count of evaluations above the cap. -/
theorem capLoop_eq (runs : c.pmbusRuns = true) (on : c.enabled 0x14 12 = true) (due : c.pwr.evalAt + 100 ≤ c.tick) :
    c.capLoop = ({ c.capped with pwr := { c.capped.pwr with rails := c.capLoop.pwr.rails, overCap := c.capLoop.pwr.overCap } } : Chip).raising
        c.capLoop ∧
      (∀ n < 12, c.capLoop.rail n = retarget (c.capped.voutOf n) (c.rail n)) ∧
      c.capLoop.pwr.overCap = (if c.pcap < c.pwr.coreW ∧ ∀ n < 12, c.capped.voutOf n = c.floorMv n then
        (if c.pwr.overCap + 1 < 100 then c.pwr.overCap + 1 else 0) else 0) := by
  rw [capLoop_due runs on due]
  have counted := raised_when c.capped ((decide (c.pcap < c.pwr.coreW) || c.pwr.warn) && decide (c.pwr.capMv < 200))
    (fun d => d.bump .pwrCapSteps 12) (raised_bump _ _ _ _ _)
  generalize c.capped.when _ _ = b at counted ⊢
  unfold Raised at counted
  obtain ⟨frame, rails⟩ := setVouts_eq b
  have same : ∀ n, b.voutOf n = c.capped.voutOf n ∧ b.rail n = c.rail n := fun n => by rw [counted]; exact ⟨rfl, rfl⟩
  generalize b.setVouts = v at frame rails ⊢
  obtain ⟨ends, count⟩ := overCap_eq v
  have after : ∀ n, v.voutOf n = c.capped.voutOf n ∧ v.floorMv n = c.floorMv n := fun n => by rw [frame, counted]; exact ⟨rfl, rfl⟩
  have power : v.pcap = c.pcap ∧ v.pwr.coreW = c.pwr.coreW ∧ v.pwr.overCap = c.pwr.overCap := by rw [frame, counted]; exact ⟨rfl, rfl, rfl⟩
  simp only [after, power] at count
  generalize v.overCap = o at ends count ⊢
  refine ⟨?_, fun n hn => ?_, count⟩
  · rw [ends, frame, counted]
    rfl
  · have rail : o.rail n = v.rail n := by rw [ends]; rfl
    rw [rail, rails n hn, (same n).1, (same n).2]

end

/-- The evaluation's clause of O29. -/
theorem capLoop_evaluates {s : State} (still : s.chip.Still) (runs : s.chip.pmbusRuns = true) (on : s.chip.enabled 0x14 12 = true)
    (due : s.chip.pwr.evalAt + 100 ≤ s.chip.tick) : exec .capLoopEvaluation s = .next { s with chip := s.chip.capLoop } := by
  refine becomes s .capLoopEvaluation _ s.chip.capLoop rfl rfl ?_ still
  obtain ⟨frame, -, -⟩ := capLoop_eq runs on due
  rw [frame]
  exact quiet_of _ _ rfl rfl rfl rfl id id

/-! ### One rail's poll (R574, R577) -/

/-- Polls in a row out of the window, after this one; none is judged within 200 ticks of a write. -/
def railBad (tick : Nat) (r : Rail) (x : RailPoll) : Nat :=
  if r.pending = false ∧ r.wroteAt + 200 ≤ tick then (if r.command + 40 < x.vout ∨ x.vout + 40 < r.command then r.bad + 1 else 0) else r.bad

/-- Silent polls in a row, after this one. -/
def railSilent (r : Rail) (x : RailPoll) : Nat := if x.answered = true then 0 else r.silent + 1

/-- The rail's fault after the poll. -/
def railFault (tick : Nat) (r : Rail) (x : RailPoll) : Nat :=
  if r.on = false then r.fault
  else if 3 ≤ railSilent r x then 3
  else if x.answered = true ∧ x.statusFault = true then 2
  else if 2 ≤ (if x.answered = true then railBad tick r x else r.bad) then 1 else 0

/-- The rail after the poll. -/
def polledRail (tick : Nat) (x : RailPoll) (r : Rail) : Rail :=
  if x.answered = true then
    { r with vout := x.vout, iout := x.iout, pout := x.pout, silent := 0, bad := railBad tick r x, fault := railFault tick r x
             pending := false, wroteAt := if r.pending = true then tick else r.wroteAt }
  else { r with silent := railSilent r x, fault := railFault tick r x }

/-- The poll puts the rail newly in fault. -/
@[reducible] def railFails (tick : Nat) (x : RailPoll) (r : Rail) : Prop := railFault tick r x ≠ 0 ∧ railFault tick r x ≠ r.fault

/-- `d` is `c` but for the rails, the PMBus writes, the interrupt controller and the counters. -/
def Polled (c d : Chip) : Prop :=
  d = ({ c with pwr := { c.pwr with rails := d.pwr.rails, pmbus := d.pwr.pmbus } } : Chip).raising d

section
variable {c d e : Chip}

theorem Polled.rfl' (c : Chip) : Polled c c := rfl

theorem Polled.trans (h : Polled c d) (g : Polled d e) : Polled c e := by
  unfold Polled at *
  rw [g, h]
  rfl

theorem Raised.polled (h : Raised c d) : Polled c d := by
  unfold Raised at h
  unfold Polled
  rw [h]
  rfl

theorem Polled.quiet (h : Polled c d) : Quiet c d := by
  unfold Polled at h
  rw [h]
  exact quiet_of _ _ rfl rfl rfl rfl id id

theorem Polled.recovering (h : Polled c d) (ev : Nat) : Polled (c.recovering ev) (d.recovering ev) := by
  unfold Polled at *
  rw [h]
  rfl

theorem Polled.boot (h : Polled c d) : d.boot = c.boot := by
  unfold Polled at h
  rw [h]
  rfl

theorem Polled.idle (h : Polled c d) (idle : c.Idle) : d.Idle := by
  refine ⟨h.quiet.still idle.1, ?_⟩
  unfold Polled at h
  rw [h]
  exact idle.2

theorem polled_setRail (c : Chip) (n : Nat) (r : Rail) : Polled c (c.setRail n r) := rfl

theorem polled_writeVout (c : Chip) (n mv : Nat) : Polled c (c.writeVout n mv) := rfl

theorem rail_writeVout (c : Chip) (n m mv : Nat) :
    (c.writeVout n mv).rail m = if m = n then { c.rail n with command := mv, pending := false, wroteAt := c.tick } else c.rail m :=
  rail_setRail c n m _

/-- What the poll reads of the rail; an answer in its window clears the count of polls out of it. -/
def sampledRail (tick : Nat) (r : Rail) (x : RailPoll) : Rail :=
  if x.answered = true then { r with vout := x.vout, iout := x.iout, pout := x.pout, silent := 0, bad := railBad tick r x }
  else { r with silent := r.silent + 1 }

theorem railFault_eq (tick : Nat) (r : Rail) (x : RailPoll) :
    railFault tick r x = if !r.on then r.fault else railCause (sampledRail tick r x) (x.answered && x.statusFault) := by
  unfold railFault railSilent railCause sampledRail
  cases x.answered <;> simp

/-- A rail's poll but for the event and the fatal error of a new fault. -/
def Chip.sampled (c : Chip) (n : Nat) (x : RailPoll) : Chip :=
  let d := c.setRail n { sampledRail c.tick (c.rail n) x with fault := railFault c.tick (c.rail n) x }
  if x.answered then (if (c.rail n).pending then d.writeVout n (c.rail n).command else d)
  else d.bump .pwrPmbusErr 12 [] (1 + b2n (c.rail n).pending)

/-- A rail's poll with the event of a new fault, but for the fatal error. -/
def Chip.sampledEvent (c : Chip) (n : Nat) (x : RailPoll) : Chip :=
  if railFails c.tick x (c.rail n) then (c.sampled n x).raise Ev.railFault [] (n + 65536 * railFault c.tick (c.rail n) x)
  else c.sampled n x

theorem sampledRail_eq (c : Chip) (r : Rail) (x : RailPoll) :
    (if x.answered then
      { r with vout := x.vout, iout := x.iout, pout := x.pout, silent := 0,
               bad := if (!r.pending && c.due r.wroteAt 200) = true then
                 (if (decide (r.command + 40 < x.vout) || decide (x.vout + 40 < r.command)) = true then r.bad + 1 else 0) else r.bad }
    else { r with silent := r.silent + 1 }) = sampledRail c.tick r x := by
  unfold sampledRail railBad Chip.due
  simp only [Bool.and_eq_true, Bool.or_eq_true, Bool.not_eq_true', decide_eq_true_eq]
  rfl

theorem pollRail_eq (c : Chip) (n : Nat) (x : RailPoll) :
    c.pollRail n x = if railFails c.tick x (c.rail n) ∧ (c.sampledEvent n x).inService = true then (c.sampledEvent n x).fatal Ev.railFault
      else c.sampledEvent n x := by
  have polls : c.pollRail n x = if railFails c.tick x (c.rail n) then
      let d := (c.sampled n x).raise Ev.railFault [] (n + 65536 * railFault c.tick (c.rail n) x)
      if d.inService then d.fatal Ev.railFault else d
    else c.sampled n x := by
    unfold Chip.pollRail
    dsimp only
    rw [sampledRail_eq, ← railFault_eq]
    rfl
  unfold Chip.sampledEvent
  rw [polls]
  by_cases fails : railFails c.tick x (c.rail n)
  · simp only [if_pos fails]
    generalize Chip.raise _ _ _ _ _ _ = d
    by_cases service : d.inService = true
    · rw [if_pos service, if_pos ⟨fails, service⟩]
    · rw [if_neg service, if_neg fun h => service h.2]
  · rw [if_neg fails, if_neg fails, if_neg fun h => fails h.1]

theorem polled_sampledEvent (c : Chip) (n : Nat) (x : RailPoll) : Polled c (c.sampledEvent n x) := by
  have sampled : Polled c (c.sampled n x) := by
    unfold Chip.sampled
    dsimp only
    split
    · split
      · exact (polled_setRail c n _).trans (polled_writeVout _ _ _)
      · exact polled_setRail _ _ _
    · exact (polled_setRail c n _).trans (raised_bump _ _ _ _ _).polled
  unfold Chip.sampledEvent
  split
  · exact sampled.trans (raised_raise _ _ _ _ _).polled
  · exact sampled

theorem rail_sampledEvent (c : Chip) (n m : Nat) (x : RailPoll) :
    (c.sampledEvent n x).rail m = if m = n then polledRail c.tick x (c.rail n) else c.rail m := by
  have sampled : (c.sampled n x).rail m = if m = n then polledRail c.tick x (c.rail n) else c.rail m := by
    unfold Chip.sampled polledRail sampledRail railSilent
    by_cases answers : x.answered = true
    · by_cases waits : (c.rail n).pending = true
      · simp only [answers, waits, if_true, rail_writeVout, rail_setRail]
        split <;> rfl
      · simp only [answers, waits, if_true, rail_setRail, Bool.false_eq_true, if_false]
    · simp only [answers, if_false, Bool.false_eq_true]
      exact rail_setRail _ _ _ _
  unfold Chip.sampledEvent
  split
  · exact ((raised_raise _ _ _ _ _).rail m).trans sampled
  · exact sampled

theorem Polled.tick (h : Polled c d) : d.tick = c.tick := congrArg Boot.tick h.boot

theorem Polled.inService (h : Polled c d) : d.inService = c.inService := by
  unfold Chip.inService
  rw [h.boot]

/-- A poll that is not fatal. -/
theorem pollRail_calm {n : Nat} {x : RailPoll} (calm : c.inService = false ∨ ¬ railFails c.tick x (c.rail n)) :
    c.pollRail n x = c.sampledEvent n x := by
  rw [pollRail_eq, if_neg]
  rintro ⟨fails, service⟩
  rw [(polled_sampledEvent c n x).inService] at service
  exact calm.elim (fun h => by rw [h] at service; cases service) fun h => h fails

/-- The poll of a rail newly in fault, in service with nothing in progress. -/
theorem pollRail_fatal {n : Nat} {x : RailPoll} (service : c.inService = true) (idle : c.Idle)
    (sessions : ∀ y ∈ c.mgt.sessions, y.kind = 0) (handshakes : ∀ y ∈ c.mgt.handshakes, y.kind = 0) (fails : railFails c.tick x (c.rail n)) :
    Polled (c.recovering Ev.railFault) (c.pollRail n x) ∧
      ∀ m, (c.pollRail n x).rail m = if m = n then polledRail c.tick x (c.rail n) else c.rail m := by
  have event := polled_sampledEvent c n x
  have rails := fun m => rail_sampledEvent c n m x
  rw [pollRail_eq, if_pos ⟨fails, event.inService.trans service⟩]
  generalize c.sampledEvent n x = d at event rails ⊢
  have mgt : d.mgt = c.mgt := by rw [show d = _ from event]; rfl
  have state : d.boot.state = .service ∨ d.boot.state = .degraded := by
    have serves := event.inService.trans service
    unfold Chip.inService at serves
    simpa using serves
  have fatal := raised_fatal d (event.idle idle) Ev.railFault (state.imp_right .inl) (by rw [mgt]; exact sessions) (by rw [mgt]; exact handshakes)
  exact ⟨(event.recovering _).trans fatal.polled, fun m => (fatal.rail m).trans (rails m)⟩

variable {x : Nat → RailPoll}

/-- While the rails `l` are still to be polled: no fatal error, and none to come. -/
def CalmRails (x : Nat → RailPoll) (c : Chip) (l : List Nat) (d : Chip) : Prop :=
  Polled c d ∧ (c.inService = false ∨ ∀ n ∈ l, ¬ railFails c.tick (x n) (d.rail n))

/-- While the rails `l` are still to be polled: the fatal error has come, or is to come. -/
def FatalRails (x : Nat → RailPoll) (c : Chip) (l : List Nat) (d : Chip) : Prop :=
  Polled (c.recovering Ev.railFault) d ∨ Polled c d ∧ ∃ n ∈ l, railFails c.tick (x n) (d.rail n)

theorem calmRails_step {n : Nat} {t : List Nat} (fresh : n ∉ t) (calm : CalmRails x c (n :: t) d) :
    CalmRails x c t (d.pollRail n (x n)) ∧
      ∀ m, (d.pollRail n (x n)).rail m = if m = n then polledRail c.tick (x n) (d.rail n) else d.rail m := by
  obtain ⟨polled, rest⟩ := calm
  have own : d.pollRail n (x n) = d.sampledEvent n (x n) :=
    pollRail_calm (by rw [polled.inService, polled.tick]; exact rest.imp_right fun h => h n List.mem_cons_self)
  rw [own, ← polled.tick]
  refine ⟨⟨polled.trans (polled_sampledEvent _ _ _), rest.imp_right fun h m hm => ?_⟩, fun m => rail_sampledEvent _ _ _ _⟩
  rw [rail_sampledEvent, if_neg (ne_of_mem_of_not_mem hm fresh)]
  exact h m (List.mem_cons_of_mem _ hm)

theorem fatalRails_step (service : c.inService = true) (idle : c.Idle) (sessions : ∀ y ∈ c.mgt.sessions, y.kind = 0)
    (handshakes : ∀ y ∈ c.mgt.handshakes, y.kind = 0) {n : Nat} {t : List Nat} (fresh : n ∉ t) (inv : FatalRails x c (n :: t) d) :
    FatalRails x c t (d.pollRail n (x n)) ∧
      ∀ m, (d.pollRail n (x n)).rail m = if m = n then polledRail c.tick (x n) (d.rail n) else d.rail m := by
  rcases inv with polled | ⟨polled, k, hk, fails⟩
  · have own : d.pollRail n (x n) = d.sampledEvent n (x n) := pollRail_calm (.inl (polled.inService.trans rfl))
    have tick : d.tick = c.tick := polled.tick
    rw [own, ← tick]
    exact ⟨.inl (polled.trans (polled_sampledEvent _ _ _)), fun m => rail_sampledEvent _ _ _ _⟩
  · by_cases now : railFails d.tick (x n) (d.rail n)
    · have mgt : d.mgt = c.mgt := by rw [show d = _ from polled]; rfl
      obtain ⟨recovers, rails⟩ := pollRail_fatal (polled.inService.trans service) (polled.idle idle) (by rw [mgt]; exact sessions)
        (by rw [mgt]; exact handshakes) now
      rw [polled.tick] at rails
      exact ⟨.inl ((polled.recovering _).trans recovers), rails⟩
    · have own : d.pollRail n (x n) = d.sampledEvent n (x n) := pollRail_calm (.inr now)
      have later : k ∈ t := (List.mem_cons.mp hk).resolve_left fun same => now (by rw [polled.tick, ← same]; exact fails)
      rw [own, ← polled.tick]
      refine ⟨.inr ⟨polled.trans (polled_sampledEvent _ _ _), k, later, ?_⟩, fun m => rail_sampledEvent _ _ _ _⟩
      rw [rail_sampledEvent, if_neg (ne_of_mem_of_not_mem later fresh)]
      exact fails

/-- The poll of the twelve rails in a row. -/
def Chip.pollRails (c : Chip) (x : Nat → RailPoll) : Chip := (List.range 12).foldl (fun d n => d.pollRail n (x n)) c

/-- The rails after a poll that meets no fatal error. -/
theorem pollRails_calm (calm : c.inService = false ∨ ∀ n < 12, ¬ railFails c.tick (x n) (c.rail n)) :
    Polled c (c.pollRails x) ∧ ∀ m, (c.pollRails x).rail m = if m < 12 then polledRail c.tick (x m) (c.rail m) else c.rail m := by
  have fold := foldl_rails (f := fun d n => d.pollRail n (x n)) (g := fun n => polledRail c.tick (x n)) (CalmRails x c)
    (fun _ _ _ fresh inv => calmRails_step fresh inv) (List.range 12) List.nodup_range c
    ⟨.rfl' c, calm.imp_right fun h n hn => h n (List.mem_range.mp hn)⟩
  simp only [List.mem_range] at fold
  exact ⟨fold.1.1, fold.2⟩

/-- The rails after a poll that ends in RECOVERY. -/
theorem pollRails_fatal (service : c.inService = true) (idle : c.Idle) (sessions : ∀ y ∈ c.mgt.sessions, y.kind = 0)
    (handshakes : ∀ y ∈ c.mgt.handshakes, y.kind = 0) (fails : ∃ n < 12, railFails c.tick (x n) (c.rail n)) :
    Polled (c.recovering Ev.railFault) (c.pollRails x) ∧
      ∀ m, (c.pollRails x).rail m = if m < 12 then polledRail c.tick (x m) (c.rail m) else c.rail m := by
  obtain ⟨n, small, fails⟩ := fails
  have fold := foldl_rails (f := fun d n => d.pollRail n (x n)) (g := fun n => polledRail c.tick (x n)) (FatalRails x c)
    (fun _ _ _ fresh inv => fatalRails_step service idle sessions handshakes fresh inv) (List.range 12) List.nodup_range c
    (.inr ⟨.rfl' c, n, List.mem_range.mpr small, fails⟩)
  simp only [List.mem_range] at fold
  exact ⟨fold.1.resolve_right fun ⟨_, _, h, _⟩ => List.not_mem_nil h, fold.2⟩

/-- The end of a poll: the sum of the rails' powers, and its tick. -/
def Chip.summed (c : Chip) : Chip := { c with pwr := { c.pwr with coreW := ((List.range 12).map fun n => (c.rail n).pout).sum, polledAt := c.tick } }

theorem pmbusPoll_due {xs : List RailPoll} (runs : c.pmbusRuns = true) (due : c.pwr.polledAt + 50 ≤ c.tick) (twelve : xs.length = 12) :
    c.pmbusPoll xs =
      (c.pollRails fun n => xs.getD n {}).summed := by
  have entries : (xs.take 12).zipIdx = (List.range 12).map fun n => (xs.getD n {}, n) := by
    refine List.ext_getElem (by simp [twelve]) fun i h1 h2 => ?_
    have small : i < 12 := by simpa using h2
    simp [List.getElem?_eq_getElem (twelve ▸ small : i < xs.length)]
  unfold Chip.pmbusPoll Chip.pollRails Chip.summed
  rw [if_pos (by rw [runs, Chip.due, decide_eq_true (show c.pwr.polledAt + 50 ≤ c.boot.tick from due)]; rfl), entries, List.foldl_map]

theorem pmbusPoll_idle {xs : List RailPoll} (h : c.pmbusRuns = false ∨ c.tick < c.pwr.polledAt + 50) : c.pmbusPoll xs = c := by
  refine if_neg ?_
  rw [Bool.and_eq_true_iff]
  rintro ⟨runs, due⟩
  rcases h with h | h
  · rw [h] at runs; cases runs
  · exact Nat.not_le.mpr h (of_decide_eq_true due)

end

/-- Settles O29: an evaluation by its frame, rails and count; a poll rail by rail, up to the first new fault in service and after it. -/
theorem powerIsPolledAndCapped : Obligations.PowerIsPolledAndCapped := by
  unfold Obligations.PowerIsPolledAndCapped
  intro s still
  refine ⟨fun idle => ?noEval, fun runs on due => ?eval, fun xs twelve => ⟨fun idle => ?noPoll, fun runs due => ⟨fun calm => ?polled,
    fun service idle sessions handshakes fails => ?fatal⟩⟩⟩
  case noEval => exact becomes s .capLoopEvaluation _ s.chip.capLoop rfl (capLoop_idle idle) (.rfl' _) still
  case eval =>
    obtain ⟨frame, rails, count⟩ := capLoop_eq runs on due
    refine ⟨_, capLoop_evaluates still runs on due, rfl, rfl, ?_⟩
    have cap : s.chip.capLoop.pwr.capMv = s.chip.steppedCap := by rw [frame]; rfl
    dsimp only
    rw [cap]
    exact ⟨frame, rfl, rails, count⟩
  case noPoll => exact becomes s (.pmbusPoll xs) _ (s.chip.pmbusPoll xs) rfl (pmbusPoll_idle idle) (.rfl' _) still
  case polled =>
    obtain ⟨polled, rails⟩ := pollRails_calm (c := s.chip) (x := fun n => xs.getD n {})
      (calm.imp_right fun h n hn fails => (h n hn).elim fails.1 fails.2)
    have poll := pmbusPoll_due runs due twelve
    have tick := polled.tick
    generalize s.chip.pollRails _ = d at polled rails poll tick
    have set := fun n (hn : n < 12) => (rails n).trans (if_pos hn)
    refine ⟨_, becomes s (.pmbusPoll xs) d.summed _ rfl poll (polled.quiet.trans (quiet_pwr _ _)) still, rfl, rfl, ?_, fun n hn => ?_,
      fun n hn => (rails n).trans (if_neg (Nat.not_lt.mpr hn)), ?_⟩
    · dsimp only
      unfold Chip.summed
      rw [tick]
      unfold Polled at polled
      rw [polled]
      rfl
    · exact (set n hn).trans rfl
    · exact congrArg List.sum (List.map_congr_left fun n hn => congrArg Rail.pout (set n (List.mem_range.mp hn)))
  case fatal =>
    obtain ⟨recovers, rails⟩ := pollRails_fatal (c := s.chip) (x := fun n => xs.getD n {}) service idle sessions handshakes fails
    have poll := pmbusPoll_due runs due twelve
    generalize s.chip.pollRails _ = d at recovers rails poll
    have quiet : Quiet s.chip d.summed := (quiet_recovering _ _).trans (recovers.quiet.trans (quiet_pwr _ _))
    refine ⟨_, becomes s (.pmbusPoll xs) d.summed _ rfl poll quiet still, ?_, ?_, ?_, fun n hn => ((rails n).trans (if_pos hn)).trans rfl⟩
    all_goals
      unfold Polled at recovers
      rw [recovers]
      rfl

end Sys2Proof.Machine
end


section
/-! SUPPORT. What a step that settles leaves as it is: the boot record, the pins, the rails, the die-to-die links that
are down, the placement commands and how many sessions and handshakes there are. -/

namespace Sys2Proof.Machine

/-- The parts of the module that no work in progress changes. -/
structure Fixed where
  boot : Boot
  pins : Pins
  pwr : Pwr
  down : List Nat
  sessions : Nat
  shakes : List Handshake
  place : List PlaceCmd

def Chip.fixed (c : Chip) : Fixed :=
  { boot := c.boot, pins := c.pins, pwr := c.pwr, down := c.swc.d2dDown, sessions := c.mgt.sessions.length,
    shakes := c.mgt.handshakes, place := c.mgt.place }

/-! ### Composition -/

section
variable {α β : Type} {c : Chip}

@[simp] theorem fixed_ite (p : Prop) [Decidable p] (a b : Chip) : (if p then a else b).fixed = if p then a.fixed else b.fixed := apply_ite _ _ _ _

@[simp] theorem fixed_when (p : Bool) (f : Chip → Chip) (h : (f c).fixed = c.fixed) : (c.when p f).fixed = c.fixed := by
  unfold Chip.when
  split
  · exact h
  · rfl

@[simp] theorem fixed_foldl (f : Chip → α → Chip) (l : List α) (h : ∀ c x, (f c x).fixed = c.fixed) : (l.foldl f c).fixed = c.fixed := by
  induction l generalizing c with
  | nil => rfl
  | cons x t ih => exact ih.trans (h c x)

theorem fixed_foldl_snd (f : β × Chip → α → β × Chip) (l : List α) (r : β × Chip) (h : ∀ r x, (f r x).2.fixed = r.2.fixed) :
    (l.foldl f r).2.fixed = r.2.fixed := by
  induction l generalizing r with
  | nil => rfl
  | cons x t ih => exact (ih _).trans (h r x)

theorem fixed_foldl_fst (f : Chip × β → α → Chip × β) (l : List α) (r : Chip × β) (h : ∀ r x, (f r x).1.fixed = r.1.fixed) :
    (l.foldl f r).1.fixed = r.1.fixed := by
  induction l generalizing r with
  | nil => rfl
  | cons x t ih => exact (ih _).trans (h r x)

theorem fixed_meets (f : Trav → α → Trav) (l : List α) {t : Trav} (h : ∀ t x, (f t x).chip.fixed = t.chip.fixed) :
    (l.foldl f t).chip.fixed = t.chip.fixed := by
  induction l generalizing t with
  | nil => rfl
  | cons x l ih => exact ih.trans (h t x)

theorem fixed_searches (f : β × Trav → α → β × Trav) (l : List α) (r : β × Trav) (h : ∀ r x, (f r x).2.chip.fixed = r.2.chip.fixed) :
    (l.foldl f r).2.chip.fixed = r.2.chip.fixed := by
  induction l generalizing r with
  | nil => rfl
  | cons x l ih => exact (ih _).trans (h r x)

theorem modFirst_length (p : α → Bool) (f : α → α) (l : List α) : (modFirst p f l).length = l.length := by
  induction l with
  | nil => rfl
  | cons x t ih => unfold modFirst; split <;> simp [ih]

/-- The module that a request's line leaves. -/
def LineStep.chip : LineStep → Chip
  | .done c _ => c
  | .wait c => c

@[simp] theorem LineStep.chip_done (c : Chip) (p : Pend) : (LineStep.done c p).chip = c := rfl
@[simp] theorem LineStep.chip_wait (c : Chip) : (LineStep.wait c).chip = c := rfl

/-- The module that a check of the log leaves of `c`. -/
def LogRes.chip (c : Chip) : LogRes → Chip
  | .new d => d
  | .wait d => d
  | .replay _ => c
  | .stale => c

@[simp] theorem LogRes.chip_new (c d : Chip) : LogRes.chip c (.new d) = d := rfl
@[simp] theorem LogRes.chip_wait (c d : Chip) : LogRes.chip c (.wait d) = d := rfl
@[simp] theorem LogRes.chip_replay (c : Chip) (e : LogEnt) : LogRes.chip c (.replay e) = c := rfl
@[simp] theorem LogRes.chip_stale (c : Chip) : LogRes.chip c .stale = c := rfl

end

/-! ### The parts that may change -/

section
variable {c : Chip}

@[simp] theorem fixed_ctl (x) : ({ c with ctl := x } : Chip).fixed = c.fixed := by unfold Chip.fixed; rfl
@[simp] theorem fixed_cores (x) : ({ c with cores := x } : Chip).fixed = c.fixed := by unfold Chip.fixed; rfl
@[simp] theorem fixed_gtx (x) : ({ c with gtx := x } : Chip).fixed = c.fixed := by unfold Chip.fixed; rfl
@[simp] theorem fixed_coh (x) : ({ c with coh := x } : Chip).fixed = c.fixed := by unfold Chip.fixed; rfl
@[simp] theorem fixed_lnk (x) : ({ c with lnk := x } : Chip).fixed = c.fixed := by unfold Chip.fixed; rfl
@[simp] theorem fixed_dsp (x) : ({ c with dsp := x } : Chip).fixed = c.fixed := by unfold Chip.fixed; rfl
@[simp] theorem fixed_eng (x) : ({ c with eng := x } : Chip).fixed = c.fixed := by unfold Chip.fixed; rfl
@[simp] theorem fixed_mem (x) : ({ c with mem := x } : Chip).fixed = c.fixed := by unfold Chip.fixed; rfl
@[simp] theorem fixed_sft (x) : ({ c with sft := x } : Chip).fixed = c.fixed := by unfold Chip.fixed; rfl
@[simp] theorem fixed_irq (x) : ({ c with irq := x } : Chip).fixed = c.fixed := by unfold Chip.fixed; rfl
@[simp] theorem fixed_draws (x) : ({ c with draws := x } : Chip).fixed = c.fixed := by unfold Chip.fixed; rfl

end

/-! ### What each operation leaves as it is -/

section
variable (c : Chip)

/-! #### State, counters and open values -/

@[simp] theorem fixed_setReg (r : Reg) (die : Nat) (idx : List Nat) (v : Nat) : (c.setReg r die idx v).fixed = c.fixed := by
  unfold Chip.setReg
  simp
@[simp] theorem fixed_setFld (r : Reg) (die : Nat) (idx : List Nat) (hi lo x : Nat) : (c.setFld r die idx hi lo x).fixed = c.fixed := by
  unfold Chip.setFld
  simp
@[simp] theorem fixed_bump (k : Cnt) (die : Nat) (idx : List Nat) (n : Nat) : (c.bump k die idx n).fixed = c.fixed := by unfold Chip.bump; simp
@[simp] theorem fixed_draw : (c.draw).2.fixed = c.fixed := by unfold Chip.draw; simp

/-! #### Cells, credits, transfers and refusals -/

@[simp] theorem fixed_setPort (p : Nat) (v : Port) : (c.setPort p v).fixed = c.fixed := by unfold Chip.setPort; simp
@[simp] theorem fixed_modPort (p : Nat) (f : Port → Port) : (c.modPort p f).fixed = c.fixed := by unfold Chip.modPort; simp
@[simp] theorem fixed_ignored (addr : Nat) : (c.ignored addr).fixed = c.fixed := by unfold Chip.ignored; split <;> simp
@[simp] theorem fixed_capture (r : Reg) (die : Nat) (idx : List Nat) (v : Nat) (more : List (Reg × Nat)) :
    (c.capture r die idx v more).fixed = c.fixed := by unfold Chip.capture; simp
@[simp] theorem fixed_setCell (k : Nat) (v : Cell) : (c.setCell k v).fixed = c.fixed := by unfold Chip.setCell; rfl
@[simp] theorem fixed_allocCells (die n acct : Nat) : (c.allocCells die n acct).1.fixed = c.fixed := by unfold Chip.allocCells; simp
@[simp] theorem fixed_takeRefs (ks : List Nat) : (c.takeRefs ks).fixed = c.fixed := by unfold Chip.takeRefs; simp
@[simp] theorem fixed_releaseCells (ks : List Nat) : (c.releaseCells ks).fixed = c.fixed := by unfold Chip.releaseCells; simp
@[simp] theorem fixed_chargeCells (ks : List Nat) (acct : Nat) : (c.chargeCells ks acct).fixed = c.fixed := by unfold Chip.chargeCells; simp
@[simp] theorem fixed_crossed (die link b h : Nat) : (c.crossed die link b h).fixed = c.fixed := by
  unfold Chip.crossed
  dsimp only
  rw [fixed_bump]
  rfl
@[simp] theorem fixed_cross (a b h : Nat) : (c.cross a b h).fixed = c.fixed := by unfold Chip.cross; split <;> simp
@[simp] theorem fixed_freeCred (cr : Option (Nat × Nat × Nat)) : (c.freeCred cr).fixed = c.fixed := by unfold Chip.freeCred; split <;> simp
@[simp] theorem fixed_enqueue (p : Nat) (m : EMsg) : (c.enqueue p m).fixed = c.fixed := by unfold Chip.enqueue; simp
@[simp] theorem fixed_sendRsp (via : Option Nat) (r : Rsp) (part : Nat) (die : Option Nat) : (c.sendRsp via r part die).fixed = c.fixed := by
  unfold Chip.sendRsp
  (repeat' split) <;> simp
@[simp] theorem fixed_countStatus (part : Option Nat) (status info : Nat) : (c.countStatus part status info).fixed = c.fixed := by
  unfold Chip.countStatus
  (repeat' split) <;> simp
@[simp] theorem fixed_captureRefusal (r : Req) (status info : Nat) : (c.captureRefusal r status info).fixed = c.fixed := by
  unfold Chip.captureRefusal
  simp
@[simp] theorem fixed_answer (via : Option Nat) (part : Option Nat) (r : Req) (status info : Nat) (data : Bytes) (tgt replay : Bool)
    (die : Option Nat) :
    (c.answer via part r status info data tgt replay die).fixed = c.fixed := by unfold Chip.answer; simp

/-! #### Arbiters -/

@[simp] theorem fixed_treeIdle (tree : Nat) (active : List Leaf) : (c.treeIdle tree active).fixed = c.fixed := by unfold Chip.treeIdle; rfl

/-! #### Sessions' wire -/

@[simp] theorem fixed_ethSend (o : EthOut) : (c.ethSend o).fixed = c.fixed := by unfold Chip.ethSend; split <;> rfl
@[simp] theorem fixed_modSession (id : Nat) (f : Session → Session) : (c.modSession id f).fixed = c.fixed := by
  unfold Chip.modSession Chip.fixed
  dsimp only
  rw [modFirst_length]
@[simp] theorem fixed_sendOn (id type : Nat) (body : Bytes) : (c.sendOn id type body).fixed = c.fixed := by unfold Chip.sendOn; split <;> simp
@[simp] theorem fixed_sendResponse (id reqId opc status detail : Nat) (body : Bytes) (replay : Bool) :
    (c.sendResponse id reqId opc status detail body replay).fixed = c.fixed := by unfold Chip.sendResponse; split <;> simp
@[simp] theorem fixed_sendNotify (part : Nat) (rec : Bytes) : (c.sendNotify part rec).fixed = c.fixed := by unfold Chip.sendNotify; split <;> simp

/-! #### Interrupts, events and the module's own requests -/

@[simp] theorem fixed_modIrqCore (k : Nat) (f : IrqCore → IrqCore) : (c.modIrqCore k f).fixed = c.fixed := by unfold Chip.modIrqCore; simp
@[simp] theorem fixed_resignal (k : Nat) : (c.resignal k).fixed = c.fixed := by unfold Chip.resignal; simp
@[simp] theorem fixed_routeLatch (src : Nat) : (c.routeLatch src).fixed = c.fixed := by unfold Chip.routeLatch; (repeat' split) <;> simp
@[simp] theorem fixed_latchEvent (src : Nat) (part : Option Nat) (i0 i1 : Nat) : (c.latchEvent src part i0 i1).fixed = c.fixed := by
  unfold Chip.latchEvent
  split <;> simp
@[simp] theorem fixed_fwEvent (src : Nat) (part : Option Nat) (i0 i1 : Nat) : (c.fwEvent src part i0 i1).fixed = c.fixed := by
  unfold Chip.fwEvent
  simp
@[simp] theorem fixed_addDevReq (d : DevReq) : (c.addDevReq d).fixed = c.fixed := by unfold Chip.addDevReq; simp
@[simp] theorem fixed_holdDevReq (d : DevReq) : (c.holdDevReq d).fixed = c.fixed := by unfold Chip.holdDevReq; simp
@[simp] theorem fixed_addJob (j : LocalJob) : (c.addJob j).fixed = c.fixed := by unfold Chip.addJob; simp
@[simp] theorem fixed_putOnPort (d : DevReq) (p : Nat) : (c.putOnPort d p).fixed = c.fixed := by unfold Chip.putOnPort; simp
@[simp] theorem fixed_sendAgainOn (d : DevReq) (port : Option Nat) : (c.sendAgainOn d port).fixed = c.fixed := by
  unfold Chip.sendAgainOn
  split <;> simp
@[simp] theorem fixed_issueOut (d : DevReq) : (c.issueOut d).fixed = c.fixed := by unfold Chip.issueOut; dsimp only; (repeat' split) <;> simp
@[simp] theorem fixed_issueTo (d : DevReq) : (c.issueTo d).fixed = c.fixed := by unfold Chip.issueTo; split <;> simp
@[simp] theorem fixed_takeId : (c.takeId).fixed = c.fixed := by unfold Chip.takeId; simp
@[simp] theorem fixed_notifyDropped (part : Nat) : (c.notifyDropped part).fixed = c.fixed := by unfold Chip.notifyDropped; simp
@[simp] theorem fixed_notifyVec (p v src : Nat) (reach : Bool) (i0 i1 : Nat) : (c.notifyVec p v src reach i0 i1).fixed = c.fixed := by
  unfold Chip.notifyVec
  dsimp only
  split
  · rw [fixed_bump, fixed_sendNotify, fixed_irq]
  · split
    · rw [fixed_fwEvent, fixed_notifyDropped, fixed_irq]
    · rw [fixed_bump, fixed_issueTo, fixed_takeId, fixed_irq]
@[simp] theorem fixed_notifyPart (p src i0 i1 : Nat) (reach : List Nat) : (c.notifyPart p src i0 i1 reach).fixed = c.fixed := by
  unfold Chip.notifyPart
  simp
@[simp] theorem fixed_raise (src : Nat) (parts : List Nat) (i0 i1 : Nat) (reach : List Nat) : (c.raise src parts i0 i1 reach).fixed = c.fixed := by
  unfold Chip.raise
  simp
@[simp] theorem fixed_giveUp (d : DevReq) : (c.giveUp d).fixed = c.fixed := by unfold Chip.giveUp; split <;> simp
@[simp] theorem fixed_issue (part : Nat) (o : Owner) (r : Req) (cells : List Nat) : (c.issue part o r cells).fixed = c.fixed := by
  unfold Chip.issue
  split <;> simp

/-! #### DRAM, flash and objects -/

@[simp] theorem fixed_wrPool (p : Nat) (b : Bytes) : (c.wrPool p b).fixed = c.fixed := by unfold Chip.wrPool; dsimp only; split <;> simp
@[simp] theorem fixed_setObj (id : Nat) (o : Obj) : (c.setObj id o).fixed = c.fixed := by unfold Chip.setObj; simp
@[simp] theorem fixed_stallAgain (id part : Nat) (had new : List Nat) : (c.stallAgain id part had new).fixed = c.fixed := by
  unfold Chip.stallAgain
  simp
@[simp] theorem fixed_stall (id part : Nat) (causes : List Nat) : (c.stall id part causes).fixed = c.fixed := by unfold Chip.stall; simp
@[simp] theorem fixed_takeFlash (n i : Nat) : (c.takeFlash n i).2.fixed = c.fixed := by unfold Chip.takeFlash; split <;> simp
@[simp] theorem fixed_chunk (n i : Nat) (bad : Bool) : (c.chunk n i bad).2.fixed = c.fixed := by
  unfold Chip.chunk
  dsimp only
  (repeat' split) <;> simp
@[simp] theorem fixed_writeChunkOn (ob : Obj) (k ls : Nat) (b : Bytes) : (c.writeChunkOn ob k ls b).fixed = c.fixed := by
  unfold Chip.writeChunkOn
  simp
@[simp] theorem fixed_flashRead (id : Nat) (ob : Obj) (o n : Nat) : (c.flashRead id ob o n).2.fixed = c.fixed := by
  have read := fixed_chunk c ob.bundle (c.firstChunk ob + o / 65536) false
  unfold Chip.flashRead
  dsimp only
  generalize c.chunk ob.bundle (c.firstChunk ob + o / 65536) false = r at read ⊢
  obtain ⟨_ | pt, d⟩ := r
  · exact read
  · dsimp only at read ⊢
    split <;> simp [read]
@[simp] theorem fixed_bumpStack (k : Cnt) (phys : Nat) : (c.bumpStack k phys).fixed = c.fixed := by unfold Chip.bumpStack; simp
@[simp] theorem fixed_takeBad (g : Nat) : (c.takeBad g).2.fixed = c.fixed := by unfold Chip.takeBad; split <;> simp
@[simp] theorem fixed_rdGran (id o n : Nat) : (c.rdGran id o n).2.2.fixed = c.fixed := by
  have bad := fixed_takeBad c ((c.copies (c.obj id) o).1 / 256)
  unfold Chip.rdGran
  dsimp only
  generalize c.takeBad ((c.copies (c.obj id) o).1 / 256) = r at bad ⊢
  obtain ⟨_ | _, d⟩ := r
  · dsimp only at bad ⊢
    have flash := fixed_flashRead d id (c.obj id) o n
    generalize d.flashRead id (c.obj id) o n = f at flash ⊢
    obtain ⟨_ | b, e⟩ := f <;> (repeat' split) <;> simp_all
  · exact bad
@[simp] theorem fixed_rdObj (id : Nat) (v0 : Nat) (v1 : Nat) (v2 : Nat) : (c.rdObj id v0 v1 v2).2.2.fixed = c.fixed := by
  induction v0 generalizing c v1 v2 with
  | zero => rfl
  | succ fuel ih =>
    unfold Chip.rdObj
    dsimp only
    split
    · rfl
    · have first := fixed_rdGran c id v1 (min v2 (256 - v1 % 256))
      generalize c.rdGran id v1 (min v2 (256 - v1 % 256)) = r at first ⊢
      obtain ⟨_ | b, e, d⟩ := r
      · exact first
      · have rest := ih d (v1 + min v2 (256 - v1 % 256)) (v2 - min v2 (256 - v1 % 256))
        dsimp only at first ⊢
        generalize d.rdObj id fuel (v1 + min v2 (256 - v1 % 256)) (v2 - min v2 (256 - v1 % 256)) = q at rest ⊢
        obtain ⟨_ | t, e', f⟩ := q <;> exact rest.trans first
@[simp] theorem fixed_readPart (id o n : Nat) : (c.readPart id o n).2.2.fixed = c.fixed := by unfold Chip.readPart; simp
@[simp] theorem fixed_readObj (id o n : Nat) : (c.readObj id o n).2.fixed = c.fixed := by unfold Chip.readObj; simp
@[simp] theorem fixed_wrGran (id o : Nat) (b : Bytes) : (c.wrGran id o b).fixed = c.fixed := by unfold Chip.wrGran; simp
@[simp] theorem fixed_wrObj (id : Nat) (v0 : Nat) (v1 : Nat) (v2 : Bytes) : (c.wrObj id v0 v1 v2).fixed = c.fixed := by
  induction v0 generalizing c v1 v2 with
  | zero => rfl
  | succ fuel ih =>
    unfold Chip.wrObj
    split
    · rfl
    · exact (ih _ _ _).trans (fixed_wrGran _ _ _ _)
@[simp] theorem fixed_writeObj (id o : Nat) (b : Bytes) : (c.writeObj id o b).fixed = c.fixed := by unfold Chip.writeObj; simp
@[simp] theorem fixed_dramTake (line : Bool) (p : Nat) : (c.dramTake line p).fixed = c.fixed := by unfold Chip.dramTake; simp
@[simp] theorem fixed_allocExtent (id x : Nat) : ((c.allocExtent id x).getD c).fixed = c.fixed := by
  unfold Chip.allocExtent
  dsimp only
  cases c.findRows (rowsFor x (c.colours (c.obj id).part).length) with
  | none => rfl
  | some r => exact fixed_setObj _ _ _
@[simp] theorem fixed_forgetLoads (id : Nat) : (c.forgetLoads id).fixed = c.fixed := by unfold Chip.forgetLoads; simp
@[simp] theorem fixed_startLoad (id : Nat) (cmd : Option (Nat × Nat)) : (c.startLoad id cmd).fixed = c.fixed := by unfold Chip.startLoad; simp

/-! #### The home: the directory, lines and transactions -/

@[simp] theorem fixed_setEnt (pl : Nat) (e : LineEnt) : (c.setEnt pl e).fixed = c.fixed := by unfold Chip.setEnt; simp
@[simp] theorem fixed_delEnt (pl : Nat) : (c.delEnt pl).fixed = c.fixed := by unfold Chip.delEnt; simp
@[simp] theorem fixed_setLineQ (pl : Nat) (q : LineQ) : (c.setLineQ pl q).fixed = c.fixed := by unfold Chip.setLineQ; simp
@[simp] theorem fixed_putSnoop (p : Option Nat) (s : Snoop) : (c.putSnoop p s).fixed = c.fixed := by unfold Chip.putSnoop; split <;> simp
@[simp] theorem fixed_sendSnoop (pl slot id ol : Nat) (inv keep : Bool) : (c.sendSnoop pl slot id ol inv keep).2.fixed = c.fixed := by
  unfold Chip.sendSnoop
  simp
@[simp] theorem fixed_sendSnoops (pl : Nat) (slots : List Nat) (id ol : Nat) (inv keep : Bool) :
    (c.sendSnoops pl slots id ol inv keep).2.fixed = c.fixed := by
  unfold Chip.sendSnoops
  exact fixed_foldl_snd _ _ _ fun r i => fixed_sendSnoop _ _ _ _ _ _ _
@[simp] theorem fixed_sendOrWait (pl slot id ol : Nat) : (c.sendOrWait pl slot id ol).fixed = c.fixed := by unfold Chip.sendOrWait; simp
@[simp] theorem fixed_objectLost (id : Nat) : (c.objectLost id).fixed = c.fixed := by
  have gone : ∀ (d : Chip) (l : List (Nat × Nat × LineEnt)), (l.foldl (fun c l =>
      (((slotsOf l.2.2.sharers).filter fun i => !c.slotLost i).foldl (fun c i => c.sendOrWait l.1 i id l.2.1) c).delEnt l.1) d).fixed = d.fixed :=
    fun d l => fixed_foldl _ _ fun c l => by simp
  unfold Chip.objectLost
  dsimp only
  split
  · rfl
  · split
    · rw [fixed_raise, gone, fixed_coh, fixed_setObj]
    · rw [fixed_foldl _ _ fun c s => fixed_raise _ _ _ _ _ _, gone, fixed_coh, fixed_setObj]
@[simp] theorem fixed_lostLog (pl part node : Nat) (escalated : Bool) : (c.lostLog pl part node escalated).fixed = c.fixed := by
  unfold Chip.lostLog
  simp
@[simp] theorem fixed_lineLost (pl node : Nat) : (c.lineLost pl node).fixed = c.fixed := by
  unfold Chip.lineLost
  dsimp only
  (repeat' split) <;> simp
@[simp] theorem fixed_settleEnt (pl : Nat) : (c.settleEnt pl).fixed = c.fixed := by unfold Chip.settleEnt; split <;> simp
@[simp] theorem fixed_setPend (p : Pend) : (c.setPend p).fixed = c.fixed := by unfold Chip.setPend; simp
@[simp] theorem fixed_delPend (id : Nat) : (c.delPend id).fixed = c.fixed := by unfold Chip.delPend; simp
@[simp] theorem fixed_accessStall (p : Pend) (new : List Nat) : (c.accessStall p new).1.fixed = c.fixed := by unfold Chip.accessStall; simp
@[simp] theorem fixed_accessRead (p : Pend) (o n : Nat) : (c.accessRead p o n).2.1.fixed = c.fixed := by unfold Chip.accessRead; simp
@[simp] theorem fixed_reduceLine (p : Pend) (o n : Nat) (b : Bytes) : (c.reduceLine p o n b).fixed = c.fixed := by unfold Chip.reduceLine; simp
@[simp] theorem fixed_reduceEffect (p : Pend) (o n : Nat) : (c.reduceEffect p o n).1.fixed = c.fixed := by
  have own := fixed_accessRead c p p.off p.req.payload.length
  have first : (if o = p.off then c.accessRead p p.off p.req.payload.length else (some [], c, p)).2.1.fixed = c.fixed := by
    split
    · exact own
    · rfl
  unfold Chip.reduceEffect
  generalize (if o = p.off then c.accessRead p p.off p.req.payload.length else (some [], c, p)) = a at first ⊢
  obtain ⟨_ | _, d, q⟩ := a
  · exact first
  · have second := fixed_accessRead d q o n
    dsimp only at first ⊢
    generalize d.accessRead q o n = r at second ⊢
    obtain ⟨_ | b, e, x⟩ := r
    · have third := fixed_accessRead e x o n
      dsimp only at second ⊢
      generalize e.accessRead x o n = r at third ⊢
      obtain ⟨_ | b, f, y⟩ := r
      · exact third.trans (second.trans first)
      · exact (fixed_reduceLine _ _ _ _ _).trans (third.trans (second.trans first))
    · exact (fixed_reduceLine _ _ _ _ _).trans (second.trans first)
@[simp] theorem fixed_takeDram (p : Pend) (ol : Nat) : (c.takeDram p ol).fixed = c.fixed := by unfold Chip.takeDram; simp
@[simp] theorem fixed_lineEffect (p : Pend) (ol : Nat) : (c.lineEffect p ol).1.fixed = c.fixed := by
  have dram := fixed_takeDram c p ol
  unfold Chip.lineEffect
  generalize c.takeDram p ol = d at dram ⊢
  dsimp only
  have read := fixed_accessRead d p (lineSpan p ol).1 (lineSpan p ol).2
  have atomic := fixed_accessRead d p p.off (reqLen p.req)
  have reduce := fixed_reduceEffect d p (lineSpan p ol).1 (lineSpan p ol).2
  generalize d.accessRead p (lineSpan p ol).1 (lineSpan p ol).2 = r at read ⊢
  generalize d.accessRead p p.off (reqLen p.req) = a at atomic ⊢
  obtain ⟨_ | b, e, x⟩ := r <;> obtain ⟨_ | v, f, y⟩ := a <;> (repeat' split) <;> simp_all
@[simp] theorem fixed_dirAfter (pl opc : Nat) (dev : Bool) (s : Option Nat) (kept : Bool) : (c.dirAfter pl opc dev s kept).fixed = c.fixed := by
  unfold Chip.dirAfter
  dsimp only
  (repeat' split) <;> simp
@[simp] theorem fixed_doLine (p : Pend) (pl ol : Nat) (kept : Bool) : (c.doLine p pl ol kept).1.fixed = c.fixed := by
  unfold Chip.doLine
  dsimp only
  (repeat' split) <;> simp
@[simp] theorem fixed_reserve (pl src : Nat) : (((c.reserve pl src).map (·.2)).getD c).fixed = c.fixed := by
  unfold Chip.reserve
  dsimp only
  split
  · rfl
  · split <;> rfl
@[simp] theorem fixed_dropRsv (pl src tok : Nat) : (c.dropRsv pl src tok).fixed = c.fixed := by unfold Chip.dropRsv; simp
@[simp] theorem fixed_addWaiter (pl : Nat) (w : Waiter) : (c.addWaiter pl w).fixed = c.fixed := by unfold Chip.addWaiter; simp
@[simp] theorem fixed_setStream (s : Nat) (v : Stream) : (c.setStream s v).fixed = c.fixed := by unfold Chip.setStream; simp
@[simp] theorem fixed_streamWrite (s : Nat) (w : Word) : (c.streamWrite s w).fixed = c.fixed := by unfold Chip.streamWrite; simp
@[simp] theorem fixed_settleStream (s : Nat) : (c.settleStream s).fixed = c.fixed := by unfold Chip.settleStream; dsimp only; split <;> simp
@[simp] theorem fixed_answerDup (part : Nat) (rsp : Rsp) (x : Dup) : (c.answerDup part rsp x).fixed = c.fixed := by unfold Chip.answerDup; simp
@[simp] theorem fixed_logDone (part : Nat) (log : Option (Nat × Nat)) (rsp : Rsp) (info : Nat) : (c.logDone part log rsp info).fixed = c.fixed := by
  unfold Chip.logDone
  dsimp only
  (repeat' split) <;> simp
@[simp] theorem fixed_devRefused (o : Owner) (part : Nat) (r : Req) (status info : Nat) : (c.devRefused o part r status info).fixed = c.fixed := by
  unfold Chip.devRefused
  simp
@[simp] theorem fixed_lineCrossings (p : Pend) (die : Nat) : (c.lineCrossings p die).fixed = c.fixed := by unfold Chip.lineCrossings; simp
@[simp] theorem fixed_readCrossings (o : Owner) (p : Pend) : (c.readCrossings o p).fixed = c.fixed := by unfold Chip.readCrossings; split <;> simp
@[simp] theorem fixed_reply (p : Pend) (status info : Nat) (data : Bytes) (tgt : Bool) : (c.reply p status info data tgt).fixed = c.fixed := by
  unfold Chip.reply
  split <;> simp
@[simp] theorem fixed_complete (p : Pend) : (c.complete p).fixed = c.fixed := by unfold Chip.complete; simp
@[simp] theorem fixed_waitTier (p : Pend) : (c.waitTier p).fixed = c.fixed := by unfold Chip.waitTier; rfl
@[simp] theorem fixed_stallLine (p : Pend) (pl : Nat) (snooped kept : Bool) : (c.stallLine p pl snooped kept).fixed = c.fixed := by
  unfold Chip.stallLine
  simp
@[simp] theorem fixed_joinLine (p : Pend) (pl : Nat) : (c.joinLine p pl).fixed = c.fixed := by
  have takes := fixed_reserve c pl p.req.src
  unfold Chip.joinLine
  generalize c.reserve pl p.req.src = r at takes ⊢
  obtain _ | ⟨tok, d⟩ := r <;> (repeat' split) <;> simp_all
@[simp] theorem fixed_endTxn (pl : Nat) : (c.endTxn pl).fixed = c.fixed := by unfold Chip.endTxn; simp
@[simp] theorem fixed_newEnt (pl : Nat) : (c.newEnt pl).fixed = c.fixed := by unfold Chip.newEnt; simp
@[simp] theorem fixed_holdLine (p : Pend) (pl : Nat) (tags : List Nat) : (c.holdLine p pl tags).fixed = c.fixed := by unfold Chip.holdLine; simp
@[simp] theorem fixed_findWay (pl : Nat) (v0 : Nat) : (c.findWay pl v0).2.fixed = c.fixed := by
  induction v0 generalizing c with
  | zero => rfl
  | succ n ih =>
    unfold Chip.findWay
    (repeat' split) <;> simp [ih]
@[simp] theorem fixed_takeWay (p : Pend) (pl ol : Nat) : (c.takeWay p pl ol).chip.fixed = c.fixed := by
  have way := fixed_findWay c pl 17
  unfold Chip.takeWay
  generalize c.findWay pl 17 = w at way ⊢
  obtain ⟨v, d⟩ := w
  dsimp only at way ⊢
  (repeat' split) <;> simp [way]
@[simp] theorem fixed_useLine (p : Pend) (pl ol : Nat) : (c.useLine p pl ol).chip.fixed = c.fixed := by
  unfold Chip.useLine
  dsimp only
  (repeat' split) <;> simp
@[simp] theorem fixed_takeLine (p : Pend) (pl ol : Nat) : (c.takeLine p pl ol).chip.fixed = c.fixed := by unfold Chip.takeLine; simp
@[simp] theorem fixed_tryLine (p : Pend) (pl ol : Nat) (head : Bool) : (c.tryLine p pl ol head).chip.fixed = c.fixed := by
  unfold Chip.tryLine
  extract_lets ob q r
  have performed : r.1.fixed = c.fixed := fixed_lineEffect _ _ _
  (repeat' split)
  any_goals simp [performed]
  next src tok t _ _ =>
    have taken := fixed_takeLine ((c.dropRsv pl src tok).setLineQ pl { q with reservedAt := none, waiters := t, txn := none }) p pl ol
    generalize Chip.takeLine _ p pl ol = r at taken ⊢
    cases r <;> simp_all
@[simp] theorem fixed_runLines (p : Pend) (head : Bool) (v0 : List (Nat × Nat)) : (c.runLines p head v0).fixed = c.fixed := by
  induction v0 generalizing c p head with
  | nil => exact fixed_complete _ _
  | cons l rest ih =>
    have line := fixed_tryLine c { p with lines := l :: rest } l.1 l.2 head
    unfold Chip.runLines
    generalize c.tryLine { p with lines := l :: rest } l.1 l.2 head = r at line ⊢
    cases r with
    | wait d => exact line
    | done d q =>
      dsimp only
      split
      · exact (fixed_complete _ _).trans line
      · exact (ih _ _ _).trans line
@[simp] theorem fixed_wbEvict (p : Pend) (pl : Nat) : (c.wbEvict p pl).fixed = c.fixed := by unfold Chip.wbEvict; dsimp only; split <;> simp
@[simp] theorem fixed_runWb (p : Pend) (pl : Nat) : (c.runWb p pl).fixed = c.fixed := by unfold Chip.runWb; dsimp only; (repeat' split) <;> simp

/-! #### Cores and bowls -/

@[simp] theorem fixed_setCore (k : Nat) (v : CoreSt) : (c.setCore k v).fixed = c.fixed := by unfold Chip.setCore; rfl
@[simp] theorem fixed_modCore (k : Nat) (f : CoreSt → CoreSt) : (c.modCore k f).fixed = c.fixed := by unfold Chip.modCore; simp
@[simp] theorem fixed_wrStore (core off : Nat) (b : Bytes) : (c.wrStore core off b).fixed = c.fixed := by unfold Chip.wrStore; simp
@[simp] theorem fixed_setBowlWords (b : Nat) (ws : List Nat) : (c.setBowlWords b ws).fixed = c.fixed := by unfold Chip.setBowlWords; simp
@[simp] theorem fixed_bowlEffect (b : Nat) (ws : List Nat) : (c.bowlEffect b ws).fixed = c.fixed := by unfold Chip.bowlEffect; simp
@[simp] theorem fixed_bowlRelease : (c.bowlRelease).fixed = c.fixed := by unfold Chip.bowlRelease; simp

/-! #### Window slots -/

@[simp] theorem fixed_setSlot (key : Nat) (v : SetCopy) : (c.setSlot key v).fixed = c.fixed := by unfold Chip.setSlot; simp

/-! #### Engines -/

@[simp] theorem fixed_engBump (k : Cnt) (e : Nat) (n : Nat) : (c.engBump k e n).fixed = c.fixed := by unfold Chip.engBump; simp
@[simp] theorem fixed_setOp (o : EngOp) : (c.setOp o).fixed = c.fixed := by unfold Chip.setOp; simp
@[simp] theorem fixed_addOp (o : EngOp) : (c.addOp o).fixed = c.fixed := by unfold Chip.addOp; simp
@[simp] theorem fixed_engStage (o : EngOp) : (c.engStage o).1.fixed = c.fixed := by unfold Chip.engStage; split <;> simp
@[simp] theorem fixed_engCapture (kind e part cause status : Nat) : (c.engCapture kind e part cause status).fixed = c.fixed := by
  unfold Chip.engCapture
  simp
@[simp] theorem fixed_engEvent (kind e ev : Nat) (parts : List Nat) (tag : Nat) : (c.engEvent kind e ev parts tag).fixed = c.fixed := by
  unfold Chip.engEvent
  simp
@[simp] theorem fixed_engRefuse (kind e part tag : Nat) : (c.engRefuse kind e part tag).fixed = c.fixed := by unfold Chip.engRefuse; simp
@[simp] theorem fixed_engFlag (o : EngOp) : (c.engFlag o).fixed = c.fixed := by unfold Chip.engFlag; simp
@[simp] theorem fixed_delOp (o : EngOp) : (c.delOp o).fixed = c.fixed := by unfold Chip.delOp; simp
@[simp] theorem fixed_engWakeOne (o : EngOp) : (c.engWakeOne o).fixed = c.fixed := by unfold Chip.engWakeOne; simp
@[simp] theorem fixed_engWake : (c.engWake).fixed = c.fixed := by unfold Chip.engWake; simp
@[simp] theorem fixed_engRelease : (c.engRelease).fixed = c.fixed := by
  unfold Chip.engRelease
  dsimp only
  rw [fixed_engWake, fixed_foldl _ _ fun c h => ?_]
  · rfl
  · split <;> simp
@[simp] theorem fixed_endOp (o : EngOp) : (c.endOp o).fixed = c.fixed := by unfold Chip.endOp; simp
@[simp] theorem fixed_abandon (o : EngOp) (cause : Nat) : (c.abandon o cause).fixed = c.fixed := by unfold Chip.abandon; simp
@[simp] theorem fixed_engFail (o : EngOp) (cause status : Nat) : (c.engFail o cause status).fixed = c.fixed := by unfold Chip.engFail; simp
@[simp] theorem fixed_engGiveUp (launch : Nat) : (c.engGiveUp launch).fixed = c.fixed := by unfold Chip.engGiveUp; simp
@[simp] theorem fixed_engDiscard (launch : Nat) : (c.engDiscard launch).fixed = c.fixed := by unfold Chip.engDiscard; simp
@[simp] theorem fixed_engNext (o : EngOp) : (c.engNext o).fixed = c.fixed := by unfold Chip.engNext; split <;> simp
@[simp] theorem fixed_tngNext (o : EngOp) : (c.tngNext o).fixed = c.fixed := by unfold Chip.tngNext; (repeat' split) <;> simp
@[simp] theorem fixed_engReadAns (id i : Nat) (a : Ans) : (c.engReadAns id i a).fixed = c.fixed := by unfold Chip.engReadAns; split <;> simp
@[simp] theorem fixed_engWriteAns (id : Nat) (a : Ans) : (c.engWriteAns id a).fixed = c.fixed := by unfold Chip.engWriteAns; split <;> simp
@[simp] theorem fixed_engFlagAns (id : Nat) (a : Ans) : (c.engFlagAns id a).fixed = c.fixed := by unfold Chip.engFlagAns; split <;> simp
@[simp] theorem fixed_emptyCombine (part whisk dst flagAddr tag : Nat) : (c.emptyCombine part whisk dst flagAddr tag).fixed = c.fixed := by
  unfold Chip.emptyCombine
  simp

/-! #### Query sets shaped -/

@[simp] theorem fixed_portBump (k : Cnt) (p : Nat) (n : Nat) : (c.portBump k p n).fixed = c.fixed := by unfold Chip.portBump; simp
@[simp] theorem fixed_idleChildren (p cls : Nat) : (c.idleChildren p cls).fixed = c.fixed := by unfold Chip.idleChildren; simp
@[simp] theorem fixed_idleSnoops (p : Nat) : (c.idleSnoops p).fixed = c.fixed := by unfold Chip.idleSnoops; simp

/-! #### Links and ports -/

@[simp] theorem fixed_linkEvent (ev p : Nat) : (c.linkEvent ev p).fixed = c.fixed := by unfold Chip.linkEvent; simp
@[simp] theorem fixed_stripCred (p : Nat) : (c.stripCred p).fixed = c.fixed := by unfold Chip.stripCred; rfl
@[simp] theorem fixed_moveMsg (p : Nat) (m : EMsg) : (c.moveMsg p m).fixed = c.fixed := by unfold Chip.moveMsg; (repeat' split) <;> simp
@[simp] theorem fixed_reissueOn (d : DevReq) (p : Nat) : (c.reissueOn d p).fixed = c.fixed := by unfold Chip.reissueOn; split <;> simp
@[simp] theorem fixed_portGone (p : Nat) (failed : Bool) (cause : Nat) : (c.portGone p failed cause).fixed = c.fixed := by
  unfold Chip.portGone
  simp
@[simp] theorem fixed_portDown (p : Nat) : (c.portDown p).fixed = c.fixed := by unfold Chip.portDown; simp

/-! #### Commands of sessions -/

@[simp] theorem fixed_finishCmd (id reqId opc status detail : Nat) (body : Bytes) :
    (c.finishCmd id reqId opc status detail body).fixed = c.fixed := by unfold Chip.finishCmd; simp
@[simp] theorem fixed_endCmd (cmd : Nat × Nat) (status detail : Nat) (body : Bytes) : (c.endCmd cmd status detail body).fixed = c.fixed := by
  unfold Chip.endCmd
  (repeat' split) <;> simp

/-! #### Messages between partitions and modules -/

@[simp] theorem fixed_sendReq (id opc reqId : Nat) (body : Bytes) : (c.sendReq id opc reqId body).fixed = c.fixed := by
  unfold Chip.sendReq
  split <;> simp
@[simp] theorem fixed_setQueue (q : List QMsg) : (c.setQueue q).fixed = c.fixed := by unfold Chip.setQueue; rfl
@[simp] theorem fixed_sendMsg (s : Session) (q : QMsg) : (c.sendMsg s q).1.fixed = c.fixed := by unfold Chip.sendMsg; simp
@[simp] theorem fixed_pumpMsgs (i : Nat) : (c.pumpMsgs i).fixed = c.fixed := by
  unfold Chip.pumpMsgs
  split
  · rfl
  · split
    · rfl
    · dsimp only
      rw [fixed_setQueue]
      refine fixed_foldl_fst _ _ _ fun r q => ?_
      split
      · exact fixed_sendMsg _ _ _
      · rfl
@[simp] theorem fixed_queueMsg (part : Nat) (b : Bytes) : (c.queueMsg part b).fixed = c.fixed := by unfold Chip.queueMsg; simp
@[simp] theorem fixed_ackMsg (sess msgId result : Nat) : (c.ackMsg sess msgId result).fixed = c.fixed := by unfold Chip.ackMsg; simp
@[simp] theorem fixed_setRings (r : List RingJob) : (c.setRings r).fixed = c.fixed := by unfold Chip.setRings; rfl
@[simp] theorem fixed_releaseRx (part : Nat) : (c.releaseRx part).fixed = c.fixed := by
  unfold Chip.releaseRx
  split
  · rfl
  · dsimp only
    rw [fixed_foldl _ _ fun c h => fixed_setReg _ _ _ _ _]
    rfl
@[simp] theorem fixed_ringStart (part fuel : Nat) : (c.ringStart part fuel).fixed = c.fixed := by
  induction fuel generalizing c with
  | zero => rfl
  | succ n ih =>
    unfold Chip.ringStart
    dsimp only
    (repeat' split) <;> simp [ih]
@[simp] theorem fixed_ringEnd (j : RingJob) (result : Nat) : (c.ringEnd j result).fixed = c.fixed := by unfold Chip.ringEnd; simp
@[simp] theorem fixed_setJob (j j' : RingJob) : (c.setJob j j').fixed = c.fixed := by unfold Chip.setJob; simp
@[simp] theorem fixed_ringAns (part : Nat) (a : Ans) : (c.ringAns part a).fixed = c.fixed := by unfold Chip.ringAns; split <;> simp

/-! #### Contexts and collectives -/

@[simp] theorem fixed_setCtx (key : Nat) (x : CtxSt) : (c.setCtx key x).fixed = c.fixed := by unfold Chip.setCtx; simp
@[simp] theorem fixed_modCtx (key : Nat) (f : CtxSt → CtxSt) : (c.modCtx key f).fixed = c.fixed := by unfold Chip.modCtx; split <;> simp
@[simp] theorem fixed_setRun (id : Nat) (r : Run) : (c.setRun id r).fixed = c.fixed := by unfold Chip.setRun; simp
@[simp] theorem fixed_endRun (id : Nat) : (c.endRun id).fixed = c.fixed := by unfold Chip.endRun; rfl
@[simp] theorem fixed_setScalar (key reg : Nat) (v : BitVec 64) : (c.setScalar key reg v).fixed = c.fixed := by unfold Chip.setScalar; simp
@[simp] theorem fixed_setValid (core slot : Nat) (v : Bool) : (c.setValid core slot v).fixed = c.fixed := by unfold Chip.setValid; simp
@[simp] theorem fixed_kernelWrite (r : Run) (core off : Nat) (b : Bytes) : (c.kernelWrite r core off b).fixed = c.fixed := by
  unfold Chip.kernelWrite
  simp
@[simp] theorem fixed_disturb (core rank : Nat) (ws : List Nat) : (c.disturb core rank ws).2.fixed = c.fixed := by
  unfold Chip.disturb
  split <;> simp
@[simp] theorem fixed_disturbBytes (core : Nat) (b : Bytes) : (c.disturbBytes core b).2.fixed = c.fixed := by
  unfold Chip.disturbBytes
  split <;> simp
@[simp] theorem fixed_mac (core key : Nat) (x : CtxSt) (d : Desc) (slot rg per len col stat sc : Nat) :
    (c.mac core key x d slot rg per len col stat sc).fixed = c.fixed := by unfold Chip.mac; simp
@[simp] theorem fixed_countNans (core n : Nat) : (c.countNans core n).fixed = c.fixed := by unfold Chip.countNans; simp
@[simp] theorem fixed_putOut (id pos : Nat) (b : Bytes) : (c.putOut id pos b).fixed = c.fixed := by unfold Chip.putOut; split <;> simp
@[simp] theorem fixed_leafOut (core key id pos : Nat) (b : Bytes) : (c.leafOut core key id pos b).fixed = c.fixed := by unfold Chip.leafOut; simp
@[simp] theorem fixed_remoteRead (key : Nat) (r : Run) (addr handle epoch len dst : Nat) :
    (c.remoteRead key r addr handle epoch len dst).fixed = c.fixed := by unfold Chip.remoteRead; split <;> simp
@[simp] theorem fixed_doOp (core key : Nat) (x : CtxSt) (r : Run) (v0 : CoreOp) : (c.doOp core key x r v0).fixed = c.fixed := by
  unfold Chip.doOp
  split <;> simp
@[simp] theorem fixed_creditStall (id : Nat) : (c.creditStall id).fixed = c.fixed := by unfold Chip.creditStall; (repeat' split) <;> simp
@[simp] theorem fixed_issueOne (core key : Nat) (x : CtxSt) : (c.issueOne core key x).fixed = c.fixed := by
  unfold Chip.issueOne
  dsimp only
  (repeat' split) <;> simp
@[simp] theorem fixed_switchTo (core x : Nat) : (c.switchTo core x).fixed = c.fixed := by unfold Chip.switchTo; simp
@[simp] theorem fixed_runCore (core : Nat) (v0 : Nat) : (c.runCore core v0).fixed = c.fixed := by
  induction v0 generalizing c with
  | zero => rfl
  | succ n ih =>
    unfold Chip.runCore
    dsimp only
    (repeat' split) <;> simp [ih]
@[simp] theorem fixed_wakeCtx (key : Nat) (x : CtxSt) : (c.wakeCtx key x).fixed = c.fixed := by unfold Chip.wakeCtx; split <;> simp
@[simp] theorem fixed_combineRank (id rank cnt base : Nat) (isInt : Bool) (key : Nat → Nat) (vals : List (Nat × List Nat)) :
    (c.combineRank id rank cnt base isInt key vals).2.fixed = c.fixed := by
  unfold Chip.combineRank
  refine fixed_foldl_snd _ _ _ fun acc g => ?_
  dsimp only
  (repeat' split) <;> simp
@[simp] theorem fixed_combine (id n : Nat) (isInt : Bool) (key : Nat → Nat) (v0 : List Nat) (v1 : Nat) (v2 : List (Nat × List Nat)) :
    (Chip.combine c id n isInt key v0 v1 v2).2.fixed = c.fixed := by
  induction v0 generalizing c v1 v2 with
  | nil => rfl
  | cons cnt up ih => exact (ih _ _ _).trans (fixed_combineRank _ _ _ _ _ _ _ _)
@[simp] theorem fixed_gatherAt (id rank n pos : Nat) : (c.gatherAt id rank n pos).fixed = c.fixed := by
  unfold Chip.gatherAt
  dsimp only
  (repeat' split) <;> simp
@[simp] theorem fixed_gather (id : Nat) : (c.gather id).fixed = c.fixed := by
  unfold Chip.gather
  split
  · rfl
  · exact fixed_foldl _ _ fun c k => fixed_foldl _ _ fun c n => fixed_foldl _ _ fun c s => fixed_gatherAt _ _ _ _ _
@[simp] theorem fixed_advance : (c.advance).fixed = c.fixed := by
  unfold Chip.advance
  refine (fixed_foldl _ _ fun c id => fixed_gather c id).trans ((fixed_foldl _ _ fun c k => fixed_runCore c k _).trans ?_)
  refine fixed_foldl _ _ fun c e => ?_
  split
  · exact fixed_wakeCtx _ _ _
  · rfl
@[simp] theorem fixed_readImage (part : Nat) (o : Owner) (d : Desc) : (c.readImage part o d).fixed = c.fixed := by unfold Chip.readImage; simp
@[simp] theorem fixed_fanIn (d : Desc) (bowl ctx : Nat) (operands : Bytes) : (c.fanIn d bowl ctx operands).fixed = c.fixed := by
  unfold Chip.fanIn
  simp
@[simp] theorem fixed_startRun (id part bowl ctx : Nat) (desc : List Word) (operands image : Bytes) :
    (c.startRun id part bowl ctx desc operands image).fixed = c.fixed := by unfold Chip.startRun; simp

/-! #### Kernels' output -/

@[simp] theorem fixed_setLaunch (l : Launch) : (c.setLaunch l).fixed = c.fixed := by unfold Chip.setLaunch; simp
@[simp] theorem fixed_delLaunch (id : Nat) : (c.delLaunch id).fixed = c.fixed := by unfold Chip.delLaunch; simp
@[simp] theorem fixed_modService (l : Launch) (f : Service → Service) : (c.modService l f).fixed = c.fixed := by
  unfold Chip.modService
  split <;> simp
@[simp] theorem fixed_launchStall (id cause : Nat) : (c.launchStall id cause).fixed = c.fixed := by unfold Chip.launchStall; split <;> simp
@[simp] theorem fixed_measure : (c.measure).2.fixed = c.fixed := by unfold Chip.measure; split <;> simp
@[simp] theorem fixed_noteWaits : (c.noteWaits).fixed = c.fixed := by unfold Chip.noteWaits; simp
@[simp] theorem fixed_settleSlot (win slot die : Nat) : (c.settleSlot win slot die).fixed = c.fixed := by unfold Chip.settleSlot; simp
@[simp] theorem fixed_putResid (bowl first count obj : Nat) : (c.putResid bowl first count obj).fixed = c.fixed := by unfold Chip.putResid; simp
@[simp] theorem fixed_addFill (f : Fill) : (c.addFill f).fixed = c.fixed := by unfold Chip.addFill; simp
@[simp] theorem fixed_setFill (f : Fill) : (c.setFill f).fixed = c.fixed := by unfold Chip.setFill; simp
@[simp] theorem fixed_delFill (id : Nat) : (c.delFill id).fixed = c.fixed := by unfold Chip.delFill; simp
@[simp] theorem fixed_beginFill (f : Fill) : (c.beginFill f).fixed = c.fixed := by
  unfold Chip.beginFill
  dsimp only
  have clears : ∀ l : List (Nat × Nat), (l.foldl (fun c t => (c.leaves t.1).foldl (fun c k =>
      (List.range (c.fillCount f t.1)).foldl (fun c i => c.setValid k (t.2 + i) false) c) c) c).fixed = c.fixed :=
    fun l => fixed_foldl _ _ fun c t => fixed_foldl _ _ fun c k => fixed_foldl _ _ fun c i => fixed_setValid _ _ _ _
  (repeat' split) <;> simp [clears]
@[simp] theorem fixed_unblockFills : (c.unblockFills).fixed = c.fixed := by unfold Chip.unblockFills; simp
@[simp] theorem fixed_endStreams (id : Nat) : (c.endStreams id).fixed = c.fixed := by unfold Chip.endStreams; simp
@[simp] theorem fixed_dropCheck (k : Check) : (c.dropCheck k).fixed = c.fixed := by unfold Chip.dropCheck; simp
@[simp] theorem fixed_finishRun (l : Launch) : (c.finishRun l).fixed = c.fixed := by unfold Chip.finishRun; simp
@[simp] theorem fixed_dropLaunch (l : Launch) : (c.dropLaunch l).fixed = c.fixed := by unfold Chip.dropLaunch; simp
@[simp] theorem fixed_meetObj (id : Nat) : (c.meetObj id).2.fixed = c.fixed := by unfold Chip.meetObj; dsimp only; (repeat' split) <;> simp
@[simp] theorem fixed_takeRefetches (f : Fill) : (c.takeRefetches f).2.fixed = c.fixed := by unfold Chip.takeRefetches; simp
@[simp] theorem fixed_startFill (f : Fill) : ((c.startFill f).1.getD c).fixed = c.fixed ∧ (c.startFill f).2.fixed = c.fixed := by
  have meets := fixed_meetObj c f.obj
  unfold Chip.startFill
  generalize c.meetObj f.obj = r at meets ⊢
  obtain ⟨how, d⟩ := r
  cases how <;> dsimp only at meets ⊢ <;> (repeat' split) <;> simp_all
@[simp] theorem fixed_sample (l : Launch) : (c.sample l).2.fixed = c.fixed := by unfold Chip.sample; split <;> simp
@[simp] theorem fixed_fetchWeights (id part bowl : Nat) (d : Desc) (stream : Bool) :
    ((c.fetchWeights id part bowl d stream).1.getD c).fixed = c.fixed ∧ (c.fetchWeights id part bowl d stream).2.fixed = c.fixed := by
  unfold Chip.fetchWeights
  dsimp only
  split
  · exact ⟨rfl, rfl⟩
  · exact fixed_startFill _ _
@[simp] theorem fixed_weights (l : Launch) : (c.weights l).fixed = c.fixed := by
  unfold Chip.weights
  dsimp only
  split
  · rfl
  · generalize hd : (if (decide (l.d.policy = 1) && l.d.ring) = true then
        (c.launchStall l.id 2).modService l fun s => { s with streamed := s.streamed + 1 }
      else (c.launchStall l.id 1).modService l fun s => { s with missFill := s.missFill + 1 }) = d
    have counted : d.fixed = c.fixed := by
      rw [← hd]
      split <;> simp
    obtain ⟨some_, none_⟩ := fixed_fetchWeights d l.id l.part l.d.bowl l.d (decide (l.d.policy = 1) && l.d.ring)
    generalize d.fetchWeights l.id l.part l.d.bowl l.d (decide (l.d.policy = 1) && l.d.ring) = r at some_ none_ ⊢
    obtain ⟨_ | e, e'⟩ := r
    · dsimp only
      split <;> simp_all
    · exact some_.trans counted
@[simp] theorem fixed_rerun (l : Launch) : (c.rerun l).fixed = c.fixed := by unfold Chip.rerun; simp
@[simp] theorem fixed_startLaunch (l : Launch) (ctx : Nat) (image : Bytes) : (c.startLaunch l ctx image).fixed = c.fixed := by
  unfold Chip.startLaunch
  simp
@[simp] theorem fixed_imageRefused (l : Launch) : (c.imageRefused l).fixed = c.fixed := by unfold Chip.imageRefused; simp
@[simp] theorem fixed_launchImage (id : Nat) (a : Ans) : (c.launchImage id a).fixed = c.fixed := by unfold Chip.launchImage; split <;> simp
@[simp] theorem fixed_sftRelease : (c.sftRelease).fixed = c.fixed := by unfold Chip.sftRelease; simp
@[simp] theorem fixed_rerunQuery (o : SftOp) : (c.rerunQuery o).fixed = c.fixed := by unfold Chip.rerunQuery; simp
@[simp] theorem fixed_failRun (core ctx : Nat) (mon : Monitors) : (c.failRun core ctx mon).2.fixed = c.fixed := by
  unfold Chip.failRun
  split <;> simp
@[simp] theorem fixed_kernelAns (key req : Nat) (a : Ans) : (c.kernelAns key req a).fixed = c.fixed := by
  unfold Chip.kernelAns
  dsimp only
  (repeat' split) <;> simp

/-! #### Launches, fills and checks -/

@[simp] theorem fixed_closeQuery (w : Win) (slot seq : Nat) : (c.closeQuery w slot seq).fixed = c.fixed := by unfold Chip.closeQuery; simp
@[simp] theorem fixed_freeQuerySlot (o : SftOp) : (c.freeQuerySlot o).fixed = c.fixed := by unfold Chip.freeQuerySlot; simp
@[simp] theorem fixed_admitQuery (o : SftOp) : (c.admitQuery o).fixed = c.fixed := by unfold Chip.admitQuery; simp
@[simp] theorem fixed_setSft (o : SftOp) : (c.setSft o).fixed = c.fixed := by unfold Chip.setSft; simp
@[simp] theorem fixed_markCompactWaits : (c.markCompactWaits).fixed = c.fixed := by unfold Chip.markCompactWaits; simp
@[simp] theorem fixed_admitQueries : (c.admitQueries).fixed = c.fixed := by unfold Chip.admitQueries; simp
@[simp] theorem fixed_discardSet (key : Nat) : (c.discardSet key).fixed = c.fixed := by unfold Chip.discardSet; simp
@[simp] theorem fixed_describe (w : Win) (ks mine : List Named) (l : Launch) : (c.describe w ks mine l).2.fixed = c.fixed := by
  unfold Chip.describe
  dsimp only
  split <;> simp
@[simp] theorem fixed_makeLaunches (w : Win) (slot die : Nat) (b : Bytes) (seq : Nat) (ks : List Named) (tag dst : Nat) :
    (c.makeLaunches w slot die b seq ks tag dst).fixed = c.fixed := by
  unfold Chip.makeLaunches
  extract_lets mine proto dead r d
  have described : r.2.fixed = c.fixed := by
    simp only [r]
    split
    · exact fixed_describe _ _ _ _ _
    · rfl
  have made : d.fixed = c.fixed := (fixed_foldl _ _ fun c k => by dsimp only; (repeat' split) <;> simp).trans described
  clear_value d r
  (repeat' split) <;> simp [made]
@[simp] theorem fixed_closeTrigger (w : Win) (slot die seq : Nat) : (c.closeTrigger w slot die seq).fixed = c.fixed := by
  unfold Chip.closeTrigger
  simp
@[simp] theorem fixed_closeSet (w : Win) (slot die : Nat) : (c.closeSet w slot die).fixed = c.fixed := by unfold Chip.closeSet; simp
@[simp] theorem fixed_markPart (w : Win) (slot die off : Nat) (b : Bytes) (cells : List Nat) :
    (c.markPart w slot die off b cells).fixed = c.fixed := by unfold Chip.markPart; simp
@[simp] theorem fixed_setCheck (k : Check) : (c.setCheck k).fixed = c.fixed := by unfold Chip.setCheck; simp
@[simp] theorem fixed_delCheck (k : Check) : (c.delCheck k).fixed = c.fixed := by unfold Chip.delCheck; simp
@[simp] theorem fixed_noCheck (k : Check) : (c.noCheck k).fixed = c.fixed := by unfold Chip.noCheck; simp
@[simp] theorem fixed_startCheck (k : Check) (b x : Nat) (image : Bytes) : (c.startCheck k b x image).fixed = c.fixed := by
  unfold Chip.startCheck
  dsimp only
  generalize hd : (c.setCheck (if k.phase = 0 then { k with phase := 1, bowl1 := b, ctx1 := x }
    else { k with phase := 3, bowl2 := b, ctx2 := x })).startRun k.launch k.part b x k.desc k.operands image = d
  have begun : d.fixed = c.fixed := by
    rw [← hd, fixed_startRun, fixed_setCheck]
  split
  · exact begun
  · obtain ⟨some_, none_⟩ := fixed_fetchWeights d k.launch k.part b (descOfWords k.desc) (descOfWords k.desc).ring
    generalize d.fetchWeights k.launch k.part b (descOfWords k.desc) (descOfWords k.desc).ring = r at some_ none_ ⊢
    obtain ⟨_ | e, e'⟩ := r
    · simp_all
    · exact some_.trans begun
@[simp] theorem fixed_startChecks : (c.startChecks).fixed = c.fixed := by
  unfold Chip.startChecks
  refine fixed_foldl _ _ fun c k => ?_
  (repeat' split) <;> simp
@[simp] theorem fixed_checkImage (id : Nat) (a : Ans) : (c.checkImage id a).fixed = c.fixed := by
  unfold Chip.checkImage
  dsimp only
  (repeat' split) <;> simp

/-! #### Requests at the home and stores with more than one target -/

@[simp] theorem fixed_grantOk (slot node : Nat) (write : Bool) : (c.grantOk slot node write).2.fixed = c.fixed := by unfold Chip.grantOk; simp
@[simp] theorem fixed_anyGrant (part node : Nat) (write : Bool) : (c.anyGrant part node write).2.fixed = c.fixed := by
  unfold Chip.anyGrant
  exact fixed_foldl_snd _ _ _ fun r s => fixed_grantOk _ _ _ _
@[simp] theorem fixed_checkObject (s part : Nat) (r : Req) : (c.checkObject s part r).2.fixed = c.fixed := by
  unfold Chip.checkObject
  dsimp only
  (repeat' split) <;> simp
@[simp] theorem fixed_checks (who : Who) (part : Nat) (r : Req) : (c.checks who part r).2.fixed = c.fixed := by
  unfold Chip.checks
  dsimp only
  (repeat' split) <;> simp
@[simp] theorem fixed_queuePart (h : HeldStore) (cells : List Nat) : (c.queuePart h cells).1.fixed = c.fixed := by
  unfold Chip.queuePart
  split
  · exact fixed_takeRefs _ _
  · rfl
@[simp] theorem fixed_markHeld (h : HeldStore) (cells : List Nat) : (c.markHeld h cells).fixed = c.fixed := by unfold Chip.markHeld; simp
@[simp] theorem fixed_bringPart (h : HeldStore) (cells : List Nat) : (c.bringPart h cells).fixed = c.fixed := by unfold Chip.bringPart; simp
@[simp] theorem fixed_storeRange (p : Pend) (lo hi : Nat) : (c.storeRange p lo hi).fixed = c.fixed := by unfold Chip.storeRange; simp
@[simp] theorem fixed_tstoreEnd (id : Nat) : (c.tstoreEnd id).fixed = c.fixed := by unfold Chip.tstoreEnd; split <;> simp
@[simp] theorem fixed_tstore (p : Pend) : (c.tstore p).fixed = c.fixed := by unfold Chip.tstore; simp
@[simp] theorem fixed_mFinish (x : MStore) : (c.mFinish x).fixed = c.fixed := by unfold Chip.mFinish; split <;> simp
@[simp] theorem fixed_mTargetAns (mid i : Nat) (a : Ans) : (c.mTargetAns mid i a).fixed = c.fixed := by unfold Chip.mTargetAns; split <;> simp
@[simp] theorem fixed_mTarget (p : Pend) (i : Nat) : (c.mTarget p i).fixed = c.fixed := by unfold Chip.mTarget; dsimp only; split <;> simp
@[simp] theorem fixed_mstore (p : Pend) : (c.mstore p).fixed = c.fixed := by unfold Chip.mstore; simp
@[simp] theorem fixed_perform (p : Pend) : (c.perform p).fixed = c.fixed := by unfold Chip.perform; (repeat' split) <;> simp
@[simp] theorem fixed_crossings (p : Pend) (die : Nat) : (c.crossings p die).fixed = c.fixed := by unfold Chip.crossings; simp
@[simp] theorem fixed_refusePend (x : Pend) (status info : Nat) : (c.refusePend x status info).fixed = c.fixed := by unfold Chip.refusePend; simp
@[simp] theorem fixed_logCheck (s t : Nat) (x : Dup) : (LogRes.chip c (c.logCheck s t x)).fixed = c.fixed := by
  unfold Chip.logCheck
  dsimp only
  (repeat' split) <;> simp
@[simp] theorem fixed_lateChecks (tester : Bool) (part : Nat) (r : Req) : (c.lateChecks tester part r).2.2.fixed = c.fixed := by
  unfold Chip.lateChecks
  dsimp only
  (repeat' split) <;> simp
@[simp] theorem fixed_waitShare (die : Nat) (x : Pend) : (c.waitShare die x).fixed = c.fixed := by unfold Chip.waitShare; simp
@[simp] theorem fixed_startAdmitted (x : Pend) (die : Nat) : (c.startAdmitted x die).fixed = c.fixed := by unfold Chip.startAdmitted; simp
@[simp] theorem fixed_admitOne (p : Nat) (x : Pend) : (c.admitOne p x).fixed = c.fixed := by
  unfold Chip.admitOne
  extract_lets r w tester die
  split
  · simp
  · split
    · exact fixed_refusePend _ _ _ _
    · exact fixed_refusePend _ _ _ _
    · exact fixed_refusePend _ _ _ _
    · exact fixed_refusePend _ _ _ _
    have late := fixed_lateChecks c tester x.part r
    generalize c.lateChecks tester x.part r = v at late ⊢
    obtain ⟨⟨region, obj, off⟩ | ⟨status, info⟩, g, d⟩ := v
    · dsimp only at late ⊢
      split <;> simp [late]
    · exact (fixed_refusePend _ _ _ _).trans late
@[simp] theorem fixed_toLocal (p part : Nat) (r : Req) (cells : List Nat) (cred : Option (Nat × Nat × Nat)) (cut : Option (Nat × Option Nat)) :
    (c.toLocal p part r cells cred cut).fixed = c.fixed := by
  unfold Chip.toLocal
  extract_lets id got x home d drop k
  have crosses : d.fixed = c.fixed := fixed_cross _ _ _ _
  have drops : ∀ e : Chip, (drop e).fixed = e.fixed := fun e => (fixed_freeCred _ _).trans (fixed_releaseCells _ _)
  clear_value d drop
  split
  · simp
  · split
    · simp
    · next s _ =>
      have log := fixed_logCheck d s r.tag { id := id, port := p, req := r, cells := cells, cred := cred, got := got }
      generalize d.logCheck s r.tag _ = v at log ⊢
      cases v <;> simp_all
@[simp] theorem fixed_takeShare (die : Nat) (x : Pend) : (c.takeShare die x).fixed = c.fixed := by unfold Chip.takeShare; split <;> simp
@[simp] theorem fixed_modDups (f : List Dup → List Dup) : (c.modDups f).fixed = c.fixed := by unfold Chip.modDups; simp
@[simp] theorem fixed_feedCut (m : CutMsg) : (c.feedCut m).fixed = c.fixed := by unfold Chip.feedCut; split <;> simp
@[simp] theorem fixed_clearSlot (p : Pend) : (c.clearSlot p).fixed = c.fixed := by unfold Chip.clearSlot; split <;> simp
@[simp] theorem fixed_truncated (m : CutMsg) (cells : List Nat) : (c.truncated m cells).fixed = c.fixed := by unfold Chip.truncated; simp
@[simp] theorem fixed_abortCut (m : CutMsg) : (c.abortCut m).fixed = c.fixed := by unfold Chip.abortCut; (repeat' split) <;> simp
@[simp] theorem fixed_cutAll : (c.cutAll).fixed = c.fixed := by unfold Chip.cutAll; simp
@[simp] theorem fixed_performLocal (d : DevReq) (q : Nat) : (c.performLocal d q).fixed = c.fixed := by
  unfold Chip.performLocal
  extract_lets r fail isNotify isTarget st who
  have fails : ∀ (e : Chip) (a b : Nat), (fail e a b).fixed = e.fixed := fun e a b => (fixed_addJob _ _).trans (fixed_devRefused _ _ _ _ _ _)
  clear_value fail isNotify isTarget st who
  split
  · simp
  · split
    · exact fails _ _ _
    · split
      · exact fails _ _ _
      · split
        · exact fails _ _ _
        · split
          · split <;> simp
          · have checked := fixed_checks c who q r
            generalize c.checks who q r = v at checked ⊢
            obtain ⟨⟨region, obj, off⟩ | ⟨status, info⟩, d⟩ := v
            · dsimp only at checked ⊢
              split
              · split <;> simp [checked]
              · simp [checked]
            · dsimp only at checked ⊢
              split
              · simp [checked]
              · exact (fails _ _ _).trans checked

/-! #### Placement, loads and fills -/

@[simp] theorem fixed_cmpRelease : (c.cmpRelease).fixed = c.fixed := by
  unfold Chip.cmpRelease
  refine fixed_foldl _ _ fun c h => ?_
  dsimp only
  split
  · rw [fixed_setFld]
    rfl
  · rfl
@[simp] theorem fixed_fillCmd (f : Fill) (status : Nat) : (c.fillCmd f status).fixed = c.fixed := by unfold Chip.fillCmd; split <;> simp
@[simp] theorem fixed_dropResid (f : Fill) : (c.dropResid f).fixed = c.fixed := by unfold Chip.dropResid; simp
@[simp] theorem fixed_failFill (f : Fill) (status : Nat) : (c.failFill f status).fixed = c.fixed := by unfold Chip.failFill; simp
@[simp] theorem fixed_endFill (f : Fill) : (c.endFill f).fixed = c.fixed := by
  unfold Chip.endFill
  dsimp only
  rw [fixed_noteWaits, fixed_unblockFills]
  generalize hd : (if f.kind = 1 then f.targets.foldl (fun c t => c.putResid t.1 t.2 (c.fillCount f t.1) f.obj) (c.delFill f.id)
    else c.delFill f.id) = d
  have placed : d.fixed = c.fixed := by
    rw [← hd]
    split <;> simp
  split
  · simp [placed]
  · next g rest _ =>
    obtain ⟨some_, none_⟩ := fixed_startFill d { obj := f.obj, part := f.part, kind := 1, cmd := f.cmd, whole := f.whole, targets := g, later := rest }
    generalize d.startFill { obj := f.obj, part := f.part, kind := 1, cmd := f.cmd, whole := f.whole, targets := g, later := rest } = r at some_ none_ ⊢
    obtain ⟨_ | e, e'⟩ := r
    · simp_all
    · exact some_.trans placed
@[simp] theorem fixed_settleFills : (c.settleFills).fixed = c.fixed := by unfold Chip.settleFills; simp
theorem fixed_settlePlacement (none : c.mgt.place = []) : c.settlePlacement.fixed = c.fixed := by
  have fills := fixed_settleFills c
  have empty : c.settleFills.mgt.place = [] := (congrArg Fixed.place fills).trans none
  have round : (List.range (c.settleFills.mgt.place.length + 1)).foldl (fun c _ => c.placeRound) c.settleFills = c.settleFills := by
    rw [empty]
    exact Chip.placeRound_nil _ empty
  unfold Chip.settlePlacement
  dsimp only
  rw [round, fixed_cmpRelease, fills]
@[simp] theorem fixed_placeTile (f : Fill) (x : Deliver) (b : Bytes) : (c.placeTile f x b).fixed = c.fixed := by unfold Chip.placeTile; simp
@[simp] theorem fixed_fillDataErr (f : Fill) (core : Nat) (k : Option Nat) : (c.fillDataErr f core k).fixed = c.fixed := by
  unfold Chip.fillDataErr
  split <;> simp
@[simp] theorem fixed_fillAns (id core tile : Nat) (a : Ans) : (c.fillAns id core tile a).fixed = c.fixed := by
  unfold Chip.fillAns
  (repeat' split) <;> simp
@[simp] theorem fixed_setJobs (l : List CmpJob) : (c.setJobs l).fixed = c.fixed := by unfold Chip.setJobs; simp
@[simp] theorem fixed_putJob (j : CmpJob) : (c.putJob j).fixed = c.fixed := by unfold Chip.putJob; simp
@[simp] theorem fixed_endJob (j : CmpJob) (cause : Nat) : (c.endJob j cause).fixed = c.fixed := by unfold Chip.endJob; (repeat' split) <;> simp
@[simp] theorem fixed_jobRead (j : CmpJob) : (c.jobRead j).fixed = c.fixed := by unfold Chip.jobRead; simp
@[simp] theorem fixed_jobWrites (j : CmpJob) (off : Nat) (b : Bytes) : (c.jobWrites j off b).fixed = c.fixed := by unfold Chip.jobWrites; simp
@[simp] theorem fixed_jobEncode (j : CmpJob) (first img : Bytes) : (c.jobEncode j first img).fixed = c.fixed := by
  unfold Chip.jobEncode
  split <;> simp
@[simp] theorem fixed_jobAns (die : Nat) (a : Ans) : (c.jobAns die a).fixed = c.fixed := by unfold Chip.jobAns; split <;> simp

/-! #### The sifter -/

@[simp] theorem fixed_sftSet (i epoch used gen : Nat) : (c.sftSet i epoch used gen).fixed = c.fixed := by unfold Chip.sftSet; simp
@[simp] theorem fixed_sftObj (o : SftOp) (id : Nat) : (c.sftObj o id).2.fixed = c.fixed := by
  unfold Chip.sftObj
  dsimp only
  (repeat' split) <;> simp
@[simp] theorem fixed_sftObjs (o : SftOp) : (c.sftObjs o).2.fixed = c.fixed := by
  unfold Chip.sftObjs
  refine fixed_foldl_snd _ _ _ fun a id => ?_
  have one := fixed_sftObj a.2 o id
  generalize a.2.sftObj o id = r at one ⊢
  obtain ⟨_ | _ | _, d⟩ := a
  · obtain ⟨_ | _ | _, e⟩ := r <;> exact one
  · obtain ⟨_ | _ | _, e⟩ := r <;> exact one
  · rfl
@[simp] theorem fixed_sftHome (o : SftOp) (r : Nat × Nat × Nat) (wr : Option Bytes) : (c.sftHome o r wr).fixed = c.fixed := by
  unfold Chip.sftHome
  simp
@[simp] theorem fixed_sftFetch (o : SftOp) (rs : List (Nat × Nat × Nat)) : (c.sftFetch o rs).fixed = c.fixed := by unfold Chip.sftFetch; simp
@[simp] theorem fixed_sftUpdate (o : SftOp) (n epoch obj off : Nat) (b : Bytes) : (c.sftUpdate o n epoch obj off b).fixed = c.fixed := by
  unfold Chip.sftUpdate
  simp
@[simp] theorem fixed_tombOf (o : SftOp) (n : Nat) : (c.tombOf o n).2.fixed = c.fixed := by
  unfold Chip.tombOf
  split
  · rfl
  · exact fixed_readObj _ _ _ _
@[simp] theorem fixed_sftNode (o : SftOp) (h : BaseHdr) (n : Nat) : (c.sftNode o h n).2.fixed = c.fixed := by
  unfold Chip.sftNode
  extract_lets isBase i at_ len
  have read := fixed_readObj c (if isBase = true then o.baseObj else o.deltaObj) at_ len
  generalize c.readObj (if isBase = true then o.baseObj else o.deltaObj) at_ len = r at read ⊢
  obtain ⟨_ | b, d⟩ := r
  · exact read
  · have drawn : (if o.metric = 3 then (d.draw.1 % 2 ^ 32, d.draw.2) else (sftDist o.metric o.vec (elems 4 (b.take (4 * h.dim))), d)).2.fixed =
        c.fixed := by
      split
      · exact (fixed_draw _).trans read
      · exact read
    dsimp only
    generalize (if o.metric = 3 then (d.draw.1 % 2 ^ 32, d.draw.2)
      else (sftDist o.metric o.vec (elems 4 (b.take (4 * h.dim))), d)) = x at drawn ⊢
    split
    · have tomb := fixed_tombOf x.2 o i
      generalize x.2.tombOf o i = t at tomb ⊢
      obtain ⟨_ | t, e⟩ := t <;> exact tomb.trans drawn
    · exact drawn
@[simp] theorem fixed_meet (t : Trav) (o : SftOp) (h : BaseHdr) (n : Nat) : (t.meet o h n).chip.fixed = t.chip.fixed := by
  unfold Trav.meet
  dsimp only
  split
  · rfl
  · split
    · rfl
    · have node := fixed_sftNode t.chip o h n
      generalize t.chip.sftNode o h n = r at node ⊢
      obtain ⟨_ | ⟨hit, vis⟩, d⟩ := r
      · exact node
      · dsimp only at node ⊢
        split <;> exact node
@[simp] theorem fixed_traverse (o : SftOp) (h : BaseHdr) (n : Nat) (t : Trav) : (traverse o h n t).chip.fixed = t.chip.fixed := by
  induction n generalizing t with
  | zero => rfl
  | succ n ih =>
    unfold traverse
    split
    · rfl
    · next x rest _ =>
      dsimp only
      split
      · rfl
      · split
        · rfl
        · have read := fixed_readObj t.chip o.baseObj (0x40 + x.node * h.recB + 4 * h.dim) (4 * h.deg)
          generalize t.chip.readObj o.baseObj (0x40 + x.node * h.recB + 4 * h.dim) (4 * h.deg) = r at read ⊢
          obtain ⟨_ | b, d⟩ := r
          · exact read
          · refine (ih _).trans ((fixed_meets _ _ fun t n => ?_).trans read)
            split
            · rfl
            · exact fixed_meet _ _ _ _
@[simp] theorem fixed_scan (t : Trav) (o : SftOp) (h : BaseHdr) (ns : List Nat) : (t.scan o h ns).chip.fixed = t.chip.fixed := by
  unfold Trav.scan
  refine fixed_meets _ _ fun t n => ?_
  split
  · rfl
  · have node := fixed_sftNode t.chip o h n
    generalize t.chip.sftNode o h n = r at node ⊢
    obtain ⟨_ | ⟨hit, vis⟩, d⟩ := r <;> exact node
@[simp] theorem fixed_leafScan (t : Trav) (o : SftOp) (h : BaseHdr) (leaves l : Nat) : (t.leafScan o h leaves l).chip.fixed = t.chip.fixed := by
  unfold Trav.leafScan
  exact fixed_scan _ _ _ _
@[simp] theorem fixed_sftSearch (o : SftOp) (h : BaseHdr) : (c.sftSearch o h).2.chip.fixed = c.fixed := by
  unfold Chip.sftSearch
  extract_lets t delta t1 t2 t3
  generalize o.lacks ((if o.tombObj = 0 then [] else [(o.tombObj, 0, 8 * h.count)]) ++ delta) = need
  split
  · have met : t1.chip.fixed = c.fixed := (fixed_traverse _ _ _ _).trans (fixed_meet _ _ _ _)
    have needs : t2.chip.fixed = c.fixed := by
      simp only [t2]
      split <;> exact met
    simp only [t3]
    split
    · exact (fixed_scan _ _ _ _).trans needs
    · exact needs
  · split
    · rfl
    · refine fixed_searches _ _ _ fun acc l => ?_
      exact fixed_leafScan acc.2 _ _ _ _
@[simp] theorem fixed_sftStore (core ctx part : Nat) (b : Bytes) : (c.sftStore core ctx part b).fixed = c.fixed := by unfold Chip.sftStore; simp
@[simp] theorem fixed_sftLeft (o : SftOp) (core : Nat) (t : Trav) : (c.sftLeft o core t).fixed = c.fixed := by unfold Chip.sftLeft; simp
@[simp] theorem fixed_sftFreed : (c.sftFreed).fixed = c.fixed := by unfold Chip.sftFreed; simp
@[simp] theorem fixed_sftEnd (o : SftOp) : (c.sftEnd o).fixed = c.fixed := by unfold Chip.sftEnd; simp
@[simp] theorem fixed_sftFail (o : SftOp) : (c.sftFail o).fixed = c.fixed := by unfold Chip.sftFail; simp
@[simp] theorem fixed_sftRefuse (o : SftOp) : (c.sftRefuse o).fixed = c.fixed := by unfold Chip.sftRefuse; simp
@[simp] theorem fixed_sftNext (o : SftOp) : (c.sftNext o).fixed = c.fixed := by unfold Chip.sftNext; split <;> simp
@[simp] theorem fixed_sftFinish (o : SftOp) (epoch : Nat) (hits : List Hit) (flags : Nat) : (c.sftFinish o epoch hits flags).fixed = c.fixed := by
  unfold Chip.sftFinish
  simp
@[simp] theorem fixed_sftWriteAns (id : Nat) (a : Ans) : (c.sftWriteAns id a).fixed = c.fixed := by unfold Chip.sftWriteAns; split <;> simp
@[simp] theorem fixed_sftFlagAns (id : Nat) (a : Ans) : (c.sftFlagAns id a).fixed = c.fixed := by unfold Chip.sftFlagAns; split <;> simp
@[simp] theorem fixed_sftRun (id opc : Nat) (f : Chip → SftOp → Chip) (run : ∀ d o, (f d o).fixed = d.fixed) :
    (c.sftRun id opc f).fixed = c.fixed := by
  unfold Chip.sftRun
  split
  · rfl
  · split
    · rfl
    · next o _ _ =>
      have objs := fixed_sftObjs c o
      generalize c.sftObjs o = r at objs ⊢
      obtain ⟨_ | _ | _, d⟩ := r <;> simp_all
@[simp] theorem fixed_sftBase (o : SftOp) (f : Chip → BaseHdr → Chip) (run : ∀ d h, d.fixed = c.fixed → (f d h).fixed = c.fixed) :
    (c.sftBase o f).fixed = c.fixed := by
  have read := fixed_readObj c o.baseObj 0 64
  unfold Chip.sftBase
  generalize c.readObj o.baseObj 0 64 = r at read ⊢
  obtain ⟨_ | b, d⟩ := r
  · simp_all
  · dsimp only at read ⊢
    split
    · simp_all
    · exact run d _ read
@[simp] theorem fixed_sftDoSearch (id : Nat) : (c.sftDoSearch id).fixed = c.fixed := by
  unfold Chip.sftDoSearch
  refine fixed_sftRun _ _ _ _ fun d o => fixed_sftBase _ _ _ fun e h base => ?_
  have search := fixed_sftSearch e o h
  dsimp only
  (repeat' split) <;> simp [search, base]
@[simp] theorem fixed_sftDoInsert (id : Nat) : (c.sftDoInsert id).fixed = c.fixed := by
  unfold Chip.sftDoInsert
  refine fixed_sftRun _ _ _ _ fun d o => ?_
  dsimp only
  (repeat' split) <;> simp
@[simp] theorem fixed_sftErase (o : SftOp) (obj off lobj loff : Nat) : (c.sftErase o obj off lobj loff).fixed = c.fixed := by
  unfold Chip.sftErase
  extract_lets need
  clear_value need
  split
  · simp
  · split
    · simp
    · have label := fixed_readObj c lobj loff 8
      generalize c.readObj lobj loff 8 = r at label ⊢
      obtain ⟨_ | b, d⟩ := r
      · simp_all
      · dsimp only at label ⊢
        split
        · simp_all
        · have old := fixed_readObj d obj off 8
          generalize d.readObj obj off 8 = q at old ⊢
          obtain ⟨_ | x, e⟩ := q
          · simp_all
          · dsimp only at old ⊢
            split <;> simp_all
@[simp] theorem fixed_sftDoDelete (id : Nat) : (c.sftDoDelete id).fixed = c.fixed := by
  unfold Chip.sftDoDelete
  refine fixed_sftRun _ _ _ _ fun d o => ?_
  dsimp only
  split
  · refine fixed_sftBase _ _ _ fun e h base => ?_
    split <;> simp [base]
  · split <;> simp
@[simp] theorem fixed_deltaRecs (obj len : Nat) (v0 : List Nat) : (c.deltaRecs obj len v0).2.fixed = c.fixed := by
  induction v0 generalizing c with
  | nil => rfl
  | cons i t ih =>
    have read := fixed_readObj c obj (i * len) len
    unfold Chip.deltaRecs
    generalize c.readObj obj (i * len) len = r at read ⊢
    obtain ⟨_ | b, d⟩ := r
    · exact read
    · have rest := ih d
      dsimp only
      generalize d.deltaRecs obj len t = q at rest ⊢
      obtain ⟨_ | bs, e⟩ := q <;> exact rest.trans read
@[simp] theorem fixed_sftDoCompact (id : Nat) : (c.sftDoCompact id).fixed = c.fixed := by
  unfold Chip.sftDoCompact
  refine fixed_sftRun _ _ _ _ fun d o => ?_
  have waits := fixed_markCompactWaits d
  dsimp only
  generalize d.markCompactWaits = e at waits ⊢
  have recs := fixed_deltaRecs e o.deltaObj (deltaRec o.dim) (List.range (e.sftUsed o.index))
  generalize e.deltaRecs o.deltaObj (deltaRec o.dim) (List.range (e.sftUsed o.index)) = r at recs ⊢
  obtain ⟨_ | b, f⟩ := r <;> (repeat' split) <;> simp_all
@[simp] theorem fixed_sftMemAns (id run : Nat) (a : Ans) : (c.sftMemAns id run a).fixed = c.fixed := by
  unfold Chip.sftMemAns
  (repeat' split) <;> simp

/-! #### The end of a step -/

@[simp] theorem fixed_deliverAns (o : Owner) (a : Ans) : (c.deliverAns o a).fixed = c.fixed := by unfold Chip.deliverAns; split <;> simp
@[simp] theorem fixed_doLocal (j : LocalJob) : (c.doLocal j).fixed = c.fixed := by unfold Chip.doLocal; (repeat' split) <;> simp
@[simp] theorem fixed_settleN (v0 : Nat) : (c.settleN v0).fixed = c.fixed := by
  induction v0 generalizing c with
  | zero => rfl
  | succ n ih =>
    unfold Chip.settleN
    split
    · rfl
    · exact (ih _).trans (fixed_doLocal _ _)
@[simp] theorem fixed_settleChecks : (c.settleChecks).fixed = c.fixed := by unfold Chip.settleChecks; simp
@[simp] theorem fixed_settleCredit : (c.settleCredit).fixed = c.fixed := by unfold Chip.settleCredit; simp
theorem fixed_settle (none : c.mgt.place = []) : c.settle.fixed = c.fixed := by
  have placed : (((c.cutAll.settleN 65536).admitQueries.settleN 65536).settlePlacement).fixed = c.fixed := by
    have before : ((c.cutAll.settleN 65536).admitQueries.settleN 65536).fixed = c.fixed := by simp
    exact (fixed_settlePlacement _ ((congrArg Fixed.place before).trans none)).trans before
  unfold Chip.settle
  simp [placed]

end

end Sys2Proof.Machine
end


section
/-! SUPPORT. O10, O11 and O12: the boot from ROMBOOT to BRINGUP, and its ways into DEAD (R489, R497, R501, R503). -/

namespace Sys2Proof.Machine

/-! ### DEAD from a boot state (R439, R506) -/

section
variable {c d : Chip}

theorem Raised.fixed (h : Raised c d) : d.fixed = c.fixed := by
  unfold Raised at h
  rw [h]
  rfl

/-- The boot record of a device that enters `st` now. -/
def Boot.entered (b : Boot) (st : DevState) : Boot := { b with state := st, times := if 3 ≤ st.code then kput b.times st.code b.tick else b.times }

theorem fixed_devTo (st : DevState) (sessions : c.mgt.sessions = []) (handshakes : c.mgt.handshakes = []) :
    (c.devTo st).fixed = { c.fixed with boot := c.boot.entered st } := by
  rw [(raised_entering sessions handshakes).fixed, entering_eq]
  rfl

theorem sessions_of_fixed (same : d.fixed = c.fixed) (none : c.mgt.sessions = []) : d.mgt.sessions = [] := by
  have count := congrArg Fixed.sessions same
  unfold Chip.fixed at count
  rw [none] at count
  exact List.eq_nil_of_length_eq_zero count

theorem fixed_bootDead (cause : Nat) (sessions : c.mgt.sessions = []) (handshakes : c.mgt.handshakes = []) :
    (c.bootDead cause).fixed =
      { c.fixed with boot := ({ c.boot with deadCause := cause } : Boot).entered .dead, pins := { c.pins with faultN := true } } := by
  have down : ((kkeys c.lnk.ports).foldl (fun c p => c.portDown p) c).fixed = c.fixed := fixed_foldl _ _ fun c p => fixed_portDown c p
  unfold Chip.bootDead
  dsimp only
  generalize (kkeys c.lnk.ports).foldl (fun c p => c.portDown p) c = d at down ⊢
  have none := sessions_of_fixed down sessions
  have shakes : d.mgt.handshakes = [] := (congrArg Fixed.shakes down).trans handshakes
  rw [deviceLost_eq]
  refine (show _ = Chip.fixed _ from rfl).trans ((fixed_devTo .dead ?_ ?_).trans ?_)
  · exact none
  · exact shakes
  · rw [← down, show c.boot = d.boot from (congrArg Fixed.boot down).symm, show c.pins = d.pins from (congrArg Fixed.pins down).symm]
    rfl

/-- A row whose meaning leaves no placement command settles on what the meaning fixes. -/
theorem exec_fixed {s : State} {i : Instr} (hi : exec i s = act s d) (none : d.mgt.place = []) :
    ∃ t, exec i s = .next t ∧ t.chip.fixed = d.fixed := by
  have settled := fixed_settle d none
  rw [hi, act, next]
  generalize d.settle = e at settled ⊢
  exact ⟨_, rfl, settled⟩

/-- What DEAD with the cause fixes of `c`. -/
def Chip.deadFixed (c : Chip) (cause : Nat) : Fixed :=
  { c.fixed with boot := ({ c.boot with deadCause := cause } : Boot).entered .dead, pins := { c.pins with faultN := true } }

/-- A row that ends in DEAD. -/
theorem exec_bootDead {s : State} {i : Instr} {cause : Nat} (hi : exec i s = act s (c.bootDead cause)) (sessions : c.mgt.sessions = [])
    (handshakes : c.mgt.handshakes = []) (none : c.mgt.place = []) : ∃ t, exec i s = .next t ∧ t.chip.fixed = c.deadFixed cause := by
  have dead := fixed_bootDead cause sessions handshakes
  obtain ⟨t, run, fixed⟩ := exec_fixed hi ((congrArg Fixed.place dead).trans none)
  exact ⟨t, run, fixed.trans dead⟩

/-- A change of the device state before BOOT_CTRL.ENABLE is set, with no session. -/
theorem devTo_silent {st : DevState} (off : bit (c.reg .bootCtrl 12) 0 = false) (sessions : c.mgt.sessions = [])
    (handshakes : c.mgt.handshakes = []) (other : c.boot.state ≠ .test) : c.devTo st = { c with boot := c.boot.entered st } := by
  have still : (c.entering st) = { c with boot := c.boot.entered st } := by
    unfold Chip.entering
    rw [show (c.boot.state == .test) = false by simpa using other]
    rfl
  have devTo : c.devTo st = ((c.entering st).when (bit ((c.entering st).reg .bootCtrl 12) 0)
      fun d => d.raise Ev.devState [] (st.code + 16 * c.boot.state.code) 0).admitSessions := rfl
  have silent : bit (Chip.reg { c with boot := c.boot.entered st } .bootCtrl 12) 0 = false := off
  rw [devTo, still, silent]
  exact admitSessions_none sessions handshakes

end

/-! ### ROMBOOT and LOAD (R489, R501) -/

section
variable {c : Chip}

/-- The complexes after their self-checks. -/
def Chip.selfChecked (c : Chip) (a b : Bool) : Mcs :=
  { c.mcs with failedA := !a, failedB := !b, lostA := c.mcs.lostA || !a, lostB := c.mcs.lostB || !b,
               activeB := !a, standbyOk := a && b, lastBeat := c.tick, pulseA := c.tick, pulseB := c.tick }

theorem selfCheckDone_eq (romboot : c.boot.state = .romboot) (step : c.boot.step = 1) (crystal : c.pins.crystal = true)
    (hA : c.mcs.failedA = false) (hB : c.mcs.failedB = false) (a b : Bool) :
    c.selfCheckDone a b =
      if !a && !b then ({ c with mcs := c.selfChecked a b } : Chip).bootDead 2
      else { c with mcs := c.selfChecked a b, boot := { c.boot with mcB := !a, step := 2 }, pins := { c.pins with spiRstN := true } } := by
  unfold Chip.selfCheckDone
  rw [if_pos ⟨romboot, step, crystal⟩, hA, hB, Bool.not_false, Bool.and_true, Bool.and_true]
  rfl

end

/-- Settles O10: a step of the boot changes its record alone; a boot that ends fixes what DEAD fixes. -/
theorem bootReachesVerify : Obligations.BootReachesVerify := by
  unfold Obligations.BootReachesVerify
  intro s booting
  obtain ⟨still, off, sessions, handshakes⟩ := booting
  refine ⟨fun romboot step crystal hA hB => ⟨?both, ?second, ?neither⟩, fun romboot step runs => ⟨fun mode density valid => ?valid, ?invalid⟩,
    fun load runs image => ?loaded⟩
  case both =>
    refine becomes s (.rombootSelfCheckDone true true) _ _ rfl ((selfCheckDone_eq romboot step crystal hA hB true true).trans ?_) ?_ still
    · simp [Chip.selfChecked, Chip.tick]
    · exact quiet_of _ _ rfl rfl rfl rfl id id
  case second =>
    refine becomes s (.rombootSelfCheckDone false true) _ _ rfl ((selfCheckDone_eq romboot step crystal hA hB false true).trans ?_) ?_ still
    · simp [Chip.selfChecked, Chip.tick]
    · exact quiet_of _ _ rfl rfl rfl rfl id id
  case neither =>
    have dead := selfCheckDone_eq romboot step crystal hA hB false false
    obtain ⟨t, run, fixed⟩ := exec_bootDead (s := s) (i := .rombootSelfCheckDone false false) (congrArg (act s) dead) sessions handshakes still.2.2.1
    exact ⟨t, run, congrArg (fun f => f.boot.state) fixed, congrArg (fun f => f.boot.deadCause) fixed, congrArg (fun f => f.pins.faultN) fixed⟩
  case valid =>
    have loads : s.chip.sfdpDone true mode density =
        ({ s.chip with boot := { s.chip.boot with spiMode := mode, density := density, step := 3 } } : Chip).devTo .load :=
      (if_pos ⟨romboot, step, runs⟩).trans (if_pos ⟨rfl, valid⟩)
    have other : s.chip.boot.state ≠ .test := by rw [romboot]; decide
    exact becomes s (.sfdpReadDone true mode density) _ _ rfl (loads.trans (devTo_silent off sessions handshakes other))
      (quiet_of _ _ rfl rfl rfl rfl id id) still
  case invalid =>
    have ends : s.chip.sfdpDone false 0 0 =
        ({ s.chip with boot := { s.chip.boot with priCause := 1 } } : Chip).draw.2.noImage
          (bytesOf 64 ({ s.chip with boot := { s.chip.boot with priCause := 1 } } : Chip).draw.1) :=
      (if_pos ⟨romboot, step, runs⟩).trans (if_neg fun h => Bool.false_ne_true h.1)
    obtain ⟨t, run, fixed⟩ := exec_bootDead (s := s) (i := .sfdpReadDone false 0 0) (congrArg (act s) ends) sessions handshakes still.2.2.1
    exact ⟨t, run, congrArg (fun f => f.boot.state) fixed, congrArg (fun f => f.boot.deadCause) fixed, congrArg (fun f => f.boot.priCause) fixed⟩
  case loaded =>
    have other : s.chip.boot.state ≠ .test := by rw [load]; decide
    have verifies : s.chip.imageLoaded image = ({ s.chip with boot := { s.chip.boot with buffer := image, step := 4 } } : Chip).devTo .verify :=
      if_pos ⟨load, runs⟩
    exact becomes s (.imageLoadDone image) _ _ rfl (verifies.trans (devTo_silent off sessions handshakes other))
      (quiet_of _ _ rfl rfl rfl rfl id id) still

end Sys2Proof.Machine
end


section
/-! SUPPORT. O11: VERIFY of an image (R497). -/

namespace Sys2Proof.Machine

section
variable {c : Chip}

/-! ### A verified image (R494, R568) -/

/-- No phase-0 entry of the wanted kind. -/
theorem entries_none {phase : Nat} {p : Bool → Bool}
    (none : (c.boot.image.regWrites.all fun e => e.phase != phase || !p (e.addr / 2 ^ 32 % 4096 == 0x14)) = true) : c.entries phase p = [] := by
  refine List.filter_eq_nil_iff.mpr fun e mem chosen => ?_
  have member : e.1 ∈ c.boot.image.regWrites := List.fst_mem_of_mem_zipIdx mem
  have other := List.all_eq_true.mp none e.1 member
  rw [Bool.and_eq_true_iff, beq_iff_eq] at chosen
  rw [chosen.1, bne_self_eq_false, Bool.false_or, chosen.2] at other
  cases other

theorem applyList_nil (snaps : KMap Chip) : c.applyList snaps [] = c := rfl

theorem railsUp_eq (c : Chip) : Polled c c.railsUp ∧ ∀ n < 12, (c.railsUp.rail n).on = true ∧ (c.railsUp.rail n).command = 750 := by
  have written := foldl_rails (f := fun d n => d.writeVout n 750)
    (g := fun _ r => ({ r with command := 750, pending := false, wroteAt := c.tick } : Rail)) (fun _ d => Polled c d)
    (fun n _ d _ inv => ⟨inv.trans (polled_writeVout d n 750), fun m => (rail_writeVout d n m 750).trans (by
      rw [show d.tick = c.tick by unfold Polled at inv; rw [inv]; rfl])⟩) (List.range 12) List.nodup_range c (.rfl' c)
  have on := foldl_rails (f := fun d n => d.setRail n { d.rail n with on := true }) (g := fun _ r => ({ r with on := true } : Rail))
    (fun _ d => Polled c d) (fun n _ d _ inv => ⟨inv.trans (polled_setRail d n _), fun m => rail_setRail d n m _⟩)
    (List.range 12) List.nodup_range _ written.1
  refine ⟨on.1, fun n small => ?_⟩
  have there : n ∈ List.range 12 := List.mem_range.mpr small
  unfold Chip.railsUp
  rw [on.2 n, if_pos there, written.2 n, if_pos there]
  exact ⟨rfl, rfl⟩

/-- The chip with the verified image in force, its identity ready. -/
def Chip.inForce (c : Chip) (maj : Bytes) : Chip :=
  { c with
    boot := { c.boot with image := imgRecord c.boot.buffer, imageInForce := if c.boot.alternate then 2 else 1,
                          testAllow := bit (fieldB c.boot.buffer 5 1) 0, buffer := [], step := 5 }
    sec := { c.sec with idReady := true, idKey := Config.pufKey maj (imgHelper c.boot.buffer), root := (imgRecord c.boot.buffer).root } }

/-- The same in BRINGUP. -/
def Chip.verified (c : Chip) (maj : Bytes) : Chip := { c.inForce maj with boot := (c.inForce maj).boot.entered .bringup }

theorem imagePass_eq (off : bit (c.reg .bootCtrl 12) 0 = false) (sessions : c.mgt.sessions = []) (handshakes : c.mgt.handshakes = [])
    (other : c.boot.state ≠ .test)
    (none : ((imgRecord c.boot.buffer).regWrites.all fun e => e.phase != 0 || e.addr / 2 ^ 32 % 4096 != 0x14) = true)
    (snaps : KMap Chip) (maj : Bytes) : c.imagePass snaps maj = (c.verified maj).railsUp := by
  have empty : (c.verified maj).entries 0 id = [] := entries_none (c := c.verified maj) (p := id) none
  have pass : c.imagePass snaps maj =
      (((c.inForce maj).devTo .bringup).applyList snaps (((c.inForce maj).devTo .bringup).entries 0 id)).railsUp := rfl
  have enters : (c.inForce maj).devTo .bringup = c.verified maj := devTo_silent off sessions handshakes other
  rw [pass, enters, empty]
  rfl

/-! ### An image that fails -/

/-- The chip that goes on to the alternate image. -/
def Chip.failedPrimary (c : Chip) (cause : Nat) : Chip :=
  { c with boot := { c.boot with priCause := cause, buffer := [], alternate := true, step := 3 } }

/-- The boot record with no image left, the enrolment data kept. -/
def Boot.failedLast (b : Boot) (cause : Nat) (maj : Bytes) : Boot :=
  if b.alternate then { b with altCause := cause, buffer := [], enrol := enrolment maj }
  else { b with priCause := cause, buffer := [], enrol := enrolment maj }

theorem failedLast_enrol (b : Boot) (cause : Nat) (maj : Bytes) : (b.failedLast cause maj).enrol = enrolment maj := by
  unfold Boot.failedLast
  split <;> rfl

variable {p0 p1 p2 : Bytes} {cause room : Nat}

/-- The failed image, counted where its signatures fail. -/
def Chip.refused (c : Chip) (cause : Nat) : Chip := c.when (imgForged c.boot.buffer cause) Chip.sigFail

theorem raised_refused (cause : Nat) : Raised c (c.refused cause) := raised_when _ _ _ (raised_sigFail c)

/-- The refused image's chip with the boot record `b`. -/
theorem fixed_refused (cause : Nat) (b : Boot) : Chip.fixed { c.refused cause with boot := b } = { c.fixed with boot := b } :=
  ((raised_refused cause).setBoot b).fixed

theorem boot_refused (cause : Nat) : (c.refused cause).boot = c.boot := congrArg Fixed.boot (raised_refused cause).fixed

section
variable (verify : c.boot.state = .verify) (runs : c.bootRuns = true)
  (hroom : room = if c.boot.alternate then 2 ^ c.boot.density / 2 else 2 ^ c.boot.density)
  (hcause : cause = imgCause c.boot.buffer room (majority p0 p1 p2)) (snaps : KMap Chip)
include verify runs hroom hcause

theorem verifyDone_pass (pass : cause = 0) : c.verifyDone snaps p0 p1 p2 = c.imagePass snaps (majority p0 p1 p2) := by
  subst hroom hcause
  exact (if_pos ⟨verify, runs⟩).trans (if_pos pass)

theorem verifyDone_alternate (fails : cause ≠ 0) (first : c.boot.alternate = false) (large : 25 ≤ c.boot.density) :
    c.verifyDone snaps p0 p1 p2 =
      ({ c.refused cause with boot := (c.failedPrimary cause).boot } : Chip).devTo .load := by
  have record := boot_refused (c := c) cause
  subst hroom hcause
  refine (if_pos ⟨verify, runs⟩).trans ((if_neg fails).trans ?_)
  unfold Chip.refused Chip.failedPrimary at *
  dsimp only
  rw [record, first]
  exact (if_neg Bool.false_ne_true).trans (if_pos large)

theorem verifyDone_dead (fails : cause ≠ 0) (last : c.boot.alternate = true ∨ c.boot.density < 25) :
    c.verifyDone snaps p0 p1 p2 =
      ({ c.refused cause with boot := c.boot.failedLast cause (majority p0 p1 p2) } : Chip).bootDead 1 := by
  have record := boot_refused (c := c) cause
  subst hroom hcause
  refine (if_pos ⟨verify, runs⟩).trans ((if_neg fails).trans ?_)
  unfold Chip.refused Boot.failedLast at *
  dsimp only
  rw [record]
  cases first : c.boot.alternate with
  | true => rfl
  | false =>
    rw [first] at last
    exact (if_neg Bool.false_ne_true).trans (if_neg (Nat.not_le.mpr (last.resolve_left Bool.false_ne_true)))

end

end

/-- Settles O11: the verified image's rails are set one by one; a failing image is counted before the boot goes on or ends. -/
theorem verifyTakesFirstFailure : Obligations.VerifyTakesFirstFailure := by
  unfold Obligations.VerifyTakesFirstFailure
  intro s p0 p1 p2 booting verify runs none room cause hroom hcause
  obtain ⟨still, off, sessions, handshakes⟩ := booting
  have other : s.chip.boot.state ≠ .test := by rw [verify]; decide
  by_cases pass : cause = 0
  · have good := (verifyDone_pass verify runs hroom hcause s.snap pass).trans
      (imagePass_eq off sessions handshakes other none s.snap (majority p0 p1 p2))
    obtain ⟨polled, rails⟩ := railsUp_eq (s.chip.verified (majority p0 p1 p2))
    have quiet : Quiet s.chip (s.chip.verified (majority p0 p1 p2)) := quiet_of _ _ rfl rfl rfl rfl id id
    have run := becomes s (.verifyDone p0 p1 p2) _ _ rfl good (quiet.trans polled.quiet) still
    refine ⟨_, run, fun _ => ?_, fun fails => absurd pass fails, fun fails => absurd pass fails⟩
    unfold Polled at polled
    refine ⟨?_, ?_, ?_, ?_, ?_, rails⟩ <;> (rw [polled]; rfl)
  · have refused := fixed_refused (c := s.chip) cause
    have silent : (s.chip.refused cause).mgt.sessions = [] := sessions_of_fixed (raised_refused cause).fixed sessions
    by_cases last : s.chip.boot.alternate = true ∨ s.chip.boot.density < 25
    · have dead := verifyDone_dead verify runs hroom hcause s.snap pass last
      have same := refused (s.chip.boot.failedLast cause (majority p0 p1 p2))
      obtain ⟨t, run, fixed⟩ := exec_bootDead (s := s) (i := .verifyDone p0 p1 p2) (congrArg (act s) dead) silent
        ((congrArg Fixed.shakes same).trans handshakes) ((congrArg Fixed.place same).trans still.2.2.1)
      refine ⟨t, run, fun ok => absurd ok pass, fun _ first large => ?_, fun _ _ => ⟨?_, ?_, ?_⟩⟩
      · exact absurd last (not_or.mpr ⟨by rw [first]; exact Bool.false_ne_true, Nat.not_lt.mpr large⟩)
      · exact congrArg (fun f => f.boot.state) fixed
      · exact congrArg (fun f => f.boot.deadCause) fixed
      · exact (congrArg (fun f => f.boot.enrol) fixed).trans (failedLast_enrol _ _ _)
    · obtain ⟨first, large⟩ := not_or.mp last
      have loads := verifyDone_alternate verify runs hroom hcause s.snap pass (Bool.eq_false_iff.mpr first) (Nat.not_lt.mp large)
      have same := refused (s.chip.failedPrimary cause).boot
      have entered := fixed_devTo (c := { s.chip.refused cause with boot := (s.chip.failedPrimary cause).boot }) .load silent
        ((congrArg Fixed.shakes same).trans handshakes)
      obtain ⟨t, run, fixed⟩ := exec_fixed (s := s) (i := .verifyDone p0 p1 p2) (congrArg (act s) loads)
        ((congrArg Fixed.place entered).trans ((congrArg Fixed.place same).trans still.2.2.1))
      refine ⟨t, run, fun ok => absurd ok pass, fun _ _ _ => ?_, fun _ no => absurd no last⟩
      have boot := congrArg Fixed.boot (fixed.trans entered)
      exact ⟨congrArg Boot.state boot, congrArg Boot.alternate boot, congrArg Boot.priCause boot⟩

end Sys2Proof.Machine
end


section
/-! SUPPORT. O12: the check of the core rails (R503, R568). -/

namespace Sys2Proof.Machine

section
variable {c d e : Chip}

/-! ### Links taken down (R363) -/

/-- `d` is `c` but for its rails and the links that are DOWN. -/
def Cut (c d : Chip) : Prop :=
  d = { c with pwr := { c.pwr with rails := d.pwr.rails }, swc := { c.swc with d2dDown := d.swc.d2dDown } }

theorem Cut.rfl' (c : Chip) : Cut c c := rfl

theorem Cut.trans (h : Cut c d) (g : Cut d e) : Cut c e := by
  unfold Cut at *
  rw [g, h]

theorem Cut.quiet (h : Cut c d) : Quiet c d := by
  unfold Cut at h
  rw [h]
  exact quiet_of _ _ rfl rfl rfl rfl id id

theorem cut_setRail (c : Chip) (n : Nat) (r : Rail) : Cut c (c.setRail n r) := rfl

/-- `d` is `c` with the links `ks`, at least, DOWN too. -/
def Downed (c d : Chip) (ks : List Nat) : Prop :=
  d = { c with swc := { c.swc with d2dDown := d.swc.d2dDown } } ∧ c.swc.d2dDown ⊆ d.swc.d2dDown ∧ ks ⊆ d.swc.d2dDown

theorem downed_takeLinkDown (c : Chip) (die link : Nat) :
    Downed c (c.takeLinkDown die link) [die * 16 + link, (linkPeer die link).1 * 16 + (linkPeer die link).2] :=
  ⟨rfl, fun _ mem => List.mem_dedup.mpr (List.mem_append_left _ mem), fun _ mem => List.mem_dedup.mpr (List.mem_append_right _ mem)⟩

theorem Downed.trans {ks js : List Nat} (h : Downed c d ks) (g : Downed d e js) : Downed c e (ks ++ js) := by
  obtain ⟨frame, kept, taken⟩ := h
  obtain ⟨frame', kept', taken'⟩ := g
  exact ⟨by rw [frame', frame], fun _ mem => kept' (kept mem), List.append_subset.mpr ⟨fun _ mem => kept' (taken mem), taken'⟩⟩

/-- Both ends of a link. -/
def linkEnds (die link : Nat) : List Nat := [die * 16 + link, (linkPeer die link).1 * 16 + (linkPeer die link).2]

theorem downed_foldl (die : Nat) : ∀ (ls : List Nat) (c : Chip),
    Downed c (ls.foldl (fun c l => c.takeLinkDown die l) c) (ls.flatMap (linkEnds die))
  | [], _ => ⟨rfl, fun _ mem => mem, List.nil_subset _⟩
  | l :: ls, c => (downed_takeLinkDown c die l).trans (downed_foldl die ls _)

/-- Both ends of the four links of a core die. -/
theorem downed_cutDie {n : Nat} (core : n < 8) : Downed c (c.cutDie n) ((List.range 4).flatMap (linkEnds n)) := by
  unfold Chip.cutDie
  rw [if_pos core]
  exact downed_foldl n _ c

/-- All links of the core die are DOWN at both ends. -/
def Chip.linksCut (c : Chip) (n : Nat) : Prop := ∀ l < 4, c.linkDown n l = true ∧ c.linkDown (8 + l) n = true

theorem linksCut_of_ends {n : Nat} (core : n < 8) (ends : (List.range 4).flatMap (linkEnds n) ⊆ c.swc.d2dDown) : c.linksCut n := by
  intro l small
  have here : linkEnds n l ⊆ c.swc.d2dDown := fun _ mem => ends (List.mem_flatMap.mpr ⟨l, List.mem_range.mpr small, mem⟩)
  have peer : linkPeer n l = (8 + l, n) := if_pos core
  unfold linkEnds at here
  rw [peer] at here
  exact ⟨List.contains_iff_mem.mpr (here (by simp)), List.contains_iff_mem.mpr (here (by simp))⟩

theorem Chip.linksCut.mono {n : Nat} (h : c.linksCut n) (kept : c.swc.d2dDown ⊆ d.swc.d2dDown) : d.linksCut n := by
  intro l small
  obtain ⟨near, far⟩ := h l small
  exact ⟨List.contains_iff_mem.mpr (kept (List.contains_iff_mem.mp near)), List.contains_iff_mem.mpr (kept (List.contains_iff_mem.mp far))⟩

/-! ### The check of one rail -/

/-- The rail's voltage is within its limits (R568). -/
@[reducible] def voutGood (v : Nat) : Prop := 710 ≤ v ∧ v ≤ 790

def checkedRail (v : Nat) (r : Rail) : Rail :=
  if voutGood v then { r with vout := v } else { r with vout := v, on := false, fault := 4 }

/-- The check of one rail: one that fails is cut, with its die. -/
def Chip.checkRail (c : Chip) (n v : Nat) : Chip :=
  if voutGood v then c.setRail n { c.rail n with vout := v }
  else if n < 8 then (c.setRail n { c.rail n with vout := v, on := false, fault := 4 }).cutDie n
  else c.setRail n { c.rail n with vout := v, on := false, fault := 4 }

theorem downed_checkRail (n v : Nat) : Downed (c.setRail n (checkedRail v (c.rail n))) (c.checkRail n v)
    (if n < 8 ∧ ¬ voutGood v then (List.range 4).flatMap (linkEnds n) else []) := by
  unfold Chip.checkRail checkedRail
  by_cases good : voutGood v
  · rw [if_pos good, if_pos good, if_neg fun h => h.2 good]
    exact ⟨rfl, fun _ mem => mem, List.nil_subset _⟩
  · rw [if_neg good, if_neg good]
    by_cases core : n < 8
    · rw [if_pos core, if_pos ⟨core, good⟩]
      exact downed_cutDie core
    · rw [if_neg core, if_neg fun h => core h.1]
      exact ⟨rfl, fun _ mem => mem, List.nil_subset _⟩

theorem cut_checkRail (n v : Nat) : Cut c (c.checkRail n v) := by
  obtain ⟨frame, -, -⟩ := downed_checkRail (c := c) n v
  unfold Cut
  rw [frame]
  rfl

theorem rail_checkRail (n v m : Nat) : (c.checkRail n v).rail m = if m = n then checkedRail v (c.rail n) else c.rail m := by
  obtain ⟨frame, -, -⟩ := downed_checkRail (c := c) n v
  rw [frame]
  exact rail_setRail c n m _

/-! ### The twelve rails -/

/-- The twelve rails checked against the voltages read. -/
def Chip.checkRails (c : Chip) (vout : List Nat) : Chip := (List.range 12).foldl (fun d n => d.checkRail n (vout.getD n 0)) c

/-- Of `c`, with the rails of `l` still to come: the core dies of the rails that failed are cut. -/
def CutSoFar (c : Chip) (vout : List Nat) (l : List Nat) (d : Chip) : Prop :=
  Cut c d ∧ ∀ n < 8, n ∉ l → ¬ voutGood (vout.getD n 0) → d.linksCut n

theorem cutSoFar_step {vout : List Nat} {n : Nat} {t : List Nat} (inv : CutSoFar c vout (n :: t) d) :
    CutSoFar c vout t (d.checkRail n (vout.getD n 0)) := by
  obtain ⟨cut, dies⟩ := inv
  obtain ⟨-, kept, taken⟩ := downed_checkRail (c := d) n (vout.getD n 0)
  refine ⟨cut.trans (cut_checkRail n _), fun m core past bad => ?_⟩
  by_cases same : m = n
  · subst same
    rw [if_pos ⟨core, bad⟩] at taken
    exact linksCut_of_ends core taken
  · exact (dies m core (List.not_mem_cons_of_ne_of_not_mem same past) bad).mono kept

theorem checkRails_eq (c : Chip) (vout : List Nat) :
    Cut c (c.checkRails vout) ∧ (∀ n < 8, ¬ voutGood (vout.getD n 0) → (c.checkRails vout).linksCut n) ∧
      ∀ n < 12, (c.checkRails vout).rail n = checkedRail (vout.getD n 0) (c.rail n) := by
  have start : CutSoFar c vout (List.range 12) c := ⟨.rfl' c, fun n core past => absurd (List.mem_range.mpr (by omega)) past⟩
  obtain ⟨⟨cut, dies⟩, rails⟩ := foldl_rails (f := fun d n => d.checkRail n (vout.getD n 0)) (g := fun n => checkedRail (vout.getD n 0))
    (CutSoFar c vout) (fun n _ _ _ inv => ⟨cutSoFar_step inv, fun m => rail_checkRail n _ m⟩) (List.range 12) List.nodup_range c start
  exact ⟨cut, fun n core => dies n core List.not_mem_nil, fun n small => (rails n).trans (if_pos (List.mem_range.mpr small))⟩

theorem boot_checkRails (c : Chip) (vout : List Nat) : (c.checkRails vout).boot = c.boot := by
  have cut := (checkRails_eq c vout).1
  unfold Cut at cut
  rw [cut]

/-! ### After the check -/

/-- A port die has its rail off, or reaches no core die. -/
def Chip.cutOff (c : Chip) : Prop := ∃ p < 4, (c.rail (8 + p)).on = false ∨ ∀ d < 8, c.reaches (8 + p) d = false

theorem cutOff_iff : (((List.range 4).any fun p => !(c.rail (8 + p)).on) || c.portCut) = true ↔ c.cutOff := by
  simp only [Chip.portCut, Chip.cutOff, Bool.or_eq_true, List.any_eq_true, List.all_eq_true, List.mem_range, Bool.not_eq_true']
  constructor
  · rintro (⟨p, port, off⟩ | ⟨p, port, none⟩)
    · exact ⟨p, port, .inl off⟩
    · exact ⟨p, port, .inr none⟩
  · rintro ⟨p, port, off | none⟩
    · exact .inl ⟨p, port, off⟩
    · exact .inr ⟨p, port, none⟩

/-- BRINGUP goes on to its works. -/
def Chip.works (c : Chip) : Chip :=
  ({ c with boot := { c.boot with step := 6, workLeft := List.range 7 }, sec := { c.sec with treeBusy := true, treeAt := c.tick } } : Chip).health

theorem rail_of_pwr (same : d.pwr = c.pwr) (n : Nat) : d.rail n = c.rail n := by
  unfold Chip.rail
  rw [same]

theorem linkDown_of_down (same : d.swc.d2dDown = c.swc.d2dDown) (die link : Nat) : d.linkDown die link = c.linkDown die link :=
  congrArg (fun l => l.contains (die * 16 + link)) same

theorem reaches_of_down (same : d.swc.d2dDown = c.swc.d2dDown) (p q : Nat) : d.reaches p q = c.reaches p q := by
  unfold Chip.reaches Chip.diePath Chip.linkDown
  rw [same]

theorem railCheck_eq {vout : List Nat} (bringup : c.boot.state = .bringup) (step : c.boot.step = 5) (runs : c.bootRuns = true)
    (due : (c.rail 0).wroteAt + 500 ≤ c.boot.tick)
    (none : (c.boot.image.regWrites.all fun e => e.phase != 0 || e.addr / 2 ^ 32 % 4096 == 0x14) = true) (snaps : KMap Chip) :
    ((c.checkRails vout).cutOff → c.railCheck snaps vout = (c.checkRails vout).bootDead 4) ∧
      (¬ (c.checkRails vout).cutOff → c.railCheck snaps vout = (c.checkRails vout).works) := by
  have starts : c.railCheck snaps vout = if (((List.range 4).any fun p => !((c.checkRails vout).rail (8 + p)).on) || (c.checkRails vout).portCut)
      then (c.checkRails vout).bootDead 4 else Chip.works ((c.checkRails vout).applyList snaps ((c.checkRails vout).entries 0 not)) :=
    if_pos ⟨bringup, step, runs, decide_eq_true due⟩
  have empty : (c.checkRails vout).entries 0 not = [] := entries_none (by
    rw [boot_checkRails]
    simpa only [Bool.not_not] using none)
  refine ⟨fun off => starts.trans (if_pos (cutOff_iff.mpr off)), fun on => starts.trans ((if_neg fun h => on (cutOff_iff.mp h)).trans ?_)⟩
  rw [empty, applyList_nil]

/-- The rails and links as the check leaves them. -/
theorem checkRails_rail {vout : List Nat} (pwr : d.pwr = (c.checkRails vout).pwr) (down : d.swc.d2dDown = (c.checkRails vout).swc.d2dDown)
    {n : Nat} (small : n < 12) : (d.rail n).vout = vout.getD n 0 ∧
      if 710 ≤ vout.getD n 0 ∧ vout.getD n 0 ≤ 790 then (d.rail n).on = (c.rail n).on ∧ (d.rail n).fault = (c.rail n).fault
      else (d.rail n).on = false ∧ (d.rail n).fault = 4 ∧ (n < 8 → ∀ l < 4, d.linkDown n l = true ∧ d.linkDown (8 + l) n = true) := by
  obtain ⟨-, dies, rails⟩ := checkRails_eq c vout
  rw [rail_of_pwr pwr, rails n small]
  unfold checkedRail
  by_cases good : voutGood (vout.getD n 0)
  · rw [if_pos good, if_pos good]
    exact ⟨rfl, rfl, rfl⟩
  · rw [if_neg good, if_neg good]
    exact ⟨rfl, rfl, rfl, fun core => (dies n core good).mono fun k mem => down ▸ mem⟩

theorem cutOff_congr (pwr : d.pwr = c.pwr) (down : d.swc.d2dDown = c.swc.d2dDown) : d.cutOff ↔ c.cutOff := by
  simp only [Chip.cutOff, rail_of_pwr pwr, reaches_of_down down]

theorem not_cutOff (on : ∀ p < 4, (c.rail (8 + p)).on = true) (reached : ∀ p < 4, ∃ q < 8, c.reaches (8 + p) q = true) : ¬ c.cutOff := by
  rintro ⟨p, port, off | none⟩
  · rw [on p port] at off
    cases off
  · obtain ⟨q, core, path⟩ := reached p port
    rw [none q core] at path
    cases path

end

/-- Settles O12: each rail that fails cuts its die's links, and what the rails and links then are decides the boot. -/
theorem railCheckCutsWhatFails : Obligations.RailCheckCutsWhatFails := by
  unfold Obligations.RailCheckCutsWhatFails
  intro s vout booting bringup step runs due none
  obtain ⟨still, off, sessions, handshakes⟩ := booting
  obtain ⟨dead, goes⟩ := railCheck_eq (vout := vout) bringup step runs due none s.snap
  have cut := (checkRails_eq s.chip vout).1
  have quiet := cut.quiet
  by_cases cutOff : (s.chip.checkRails vout).cutOff
  · unfold Cut at cut
    obtain ⟨t, run, fixed⟩ := exec_bootDead (s := s) (i := .coreRailCheck vout) (congrArg (act s) (dead cutOff))
      (by rw [cut]; exact sessions) (by rw [cut]; exact handshakes) (by rw [cut]; exact still.2.2.1)
    have pwr : t.chip.pwr = (s.chip.checkRails vout).pwr := congrArg Fixed.pwr fixed
    have down : t.chip.swc.d2dDown = (s.chip.checkRails vout).swc.d2dDown := congrArg Fixed.down fixed
    refine ⟨t, run, fun n small => checkRails_rail pwr down small, fun on reached => ?_, fun _ => ⟨?_, ?_, ?_⟩⟩
    · exact absurd ((cutOff_congr pwr down).mpr cutOff) (not_cutOff on reached)
    · exact congrArg (fun f => f.boot.state) fixed
    · exact congrArg (fun f => f.boot.deadCause) fixed
    · exact congrArg (fun f => f.pins.faultN) fixed
  · have run := becomes s (.coreRailCheck vout) _ _ rfl (goes cutOff) (quiet.trans (quiet_of _ _ rfl rfl rfl rfl id id)) still
    refine ⟨_, run, fun n small => checkRails_rail rfl rfl small, fun _ _ => ?_, fun off => absurd off cutOff⟩
    have boot := boot_checkRails s.chip vout
    exact ⟨(congrArg Boot.state boot).trans bringup, rfl, rfl, rfl, congrArg Boot.tick boot⟩

end Sys2Proof.Machine
end
